-- ==== Sys2Proof/Word.lean ====
section
/-! DEFINITION. The word types of the Kurel, the names that the instruction syntax needs (slots, scopes, agents,
link packets), and nothing else. Numbers follow R3 and R6: bit 0 is the least significant bit, memory is
little-endian, and cores are named by their global number. -/

namespace Sys2Proof

/-- One byte of memory. -/
abbrev Byte := BitVec 8
/-- A 32-bit word of a bundle (R16). -/
abbrev Word32 := BitVec 32
/-- A scalar, address or system register value (R202). -/
abbrev Word64 := BitVec 64
/-- The 64 bytes of one block, byte 0 in bits [7:0] (R205). -/
abbrev Block := BitVec 512
/-- A block descriptor: format code in [7:0], signed scale in [15:8] (R56, R205). -/
abbrev Desc := BitVec 16
/-- A scalar register number s0 to s63 (R40). -/
abbrev SReg := BitVec 6
/-- An address register number a0 to a31. -/
abbrev AReg := BitVec 5
/-- A vector register number v0 to v31. -/
abbrev VRegNo := BitVec 5
/-- A predicate number p0 to p15. -/
abbrev PReg := BitVec 4
/-- A lane-mask register number m0 to m7. -/
abbrev MReg := BitVec 3
/-- A frame register number f0 to f7. -/
abbrev FReg := BitVec 3
/-- A handle register number h0 to h15. -/
abbrev HReg := BitVec 4
/-- An accumulator tile number 0 to 15. -/
abbrev TileNo := BitVec 4
/-- An operand-store slot number 0 to 127. -/
abbrev SlotNo := BitVec 7
/-- The signed 9-bit offset of the M format (R33). -/
abbrev Off9 := BitVec 9

/-- The five slots of a bundle in template order (R19). -/
inductive Slot where
  | S | A | V | M | X
deriving DecidableEq, Repr, Inhabited

/-- The slot's number: S is 0, A is 1, V is 2, M is 3 and X is 4 (R19). -/
def Slot.index : Slot → Nat
  | .S => 0 | .A => 1 | .V => 2 | .M => 3 | .X => 4

/-- The slot of a number; numbers above 4 do not occur and read as X. -/
def Slot.ofIndex : Nat → Slot
  | 0 => .S | 1 => .A | 2 => .V | 3 => .M | _ => .X

/-- The memory scopes of the header's SCOPE field (R312). -/
inductive Scope where
  | core | cluster | device | system
deriving DecidableEq, Repr, Inhabited

/-- The state of one slot in a template (R19, R20). -/
inductive SlotState where
  | idle | fresh | sticky | surrendered
deriving DecidableEq, Repr, Inhabited

/-- A slot word with the surrendered words that widen it, in slot order (R34). -/
structure SlotWord where
  word : Word32
  ext  : List Word32
deriving DecidableEq, Repr, Inhabited

/-- An agent whose access may be translated, walked for, or held (R78). -/
inductive Who where
  | ctx  (g x : Nat)
  | chan (g c : Nat)
  | task (cluster queue id : Nat)
  | coll (die : Nat)
deriving DecidableEq, Repr, Inhabited

/-- A Larzal packet as it comes off the lanes: the 32-byte header flit and up to eight 32-byte data flits (R151). -/
structure Packet where
  hdr  : BitVec 256
  data : List (BitVec 256)
deriving DecidableEq, Repr, Inhabited

/-- Where a knock comes from: a record of this device, or a TYPE 4 packet of a port (R138, R159). -/
inductive KnockSource where
  | own (g : Nat) (kpc karg : Nat) (dst : Word64)
  | packet (port : Nat) (p : Packet)
deriving DecidableEq, Repr, Inhabited

/-- What the channel scrub finds in a block: at most two symbols in error, or more (R59). -/
inductive EccFinding where
  | corrected | uncorrectable
deriving DecidableEq, Repr, Inhabited

end Sys2Proof
end

