-- ==== Sys2Proof/Syntax.lean ====
section
/-! DEFINITION. The steps of the Kurel: one constructor for each row of spec/opcode_table.json. The first part holds
the instructions of the slots, with their operands as the slot word gives them and with the immediate already widened
by surrendered words (R34); the second part holds the events of the device, its engines, its ports and its host. -/

namespace Sys2Proof

/-- One step of the machine. Fields named `u` select the unsigned form, `w` the 32-bit form, `sz` the size code
(0 one byte, 1 two, 2 four, 3 eight), `m` a lane mask, `rm` a rounding mode (R232), `fmt` a format selector. -/
inductive Instr where
  /-- NOP, legal in every slot (R311). -/
  | nop
  /-- s[d] := s[a] + s[b] (R209). -/
  | add (d a b : SReg)
  /-- s[d] := s[a] - s[b] (R209). -/
  | sub (d a b : SReg)
  /-- Bitwise and (R209). -/
  | and (d a b : SReg)
  /-- Bitwise or (R209). -/
  | or (d a b : SReg)
  /-- Bitwise exclusive or (R209). -/
  | xor (d a b : SReg)
  /-- s[a] and not s[b] (R209). -/
  | andn (d a b : SReg)
  /-- Shift left (R209). -/
  | shl (d a b : SReg)
  /-- Logical shift right (R209). -/
  | shr (d a b : SReg)
  /-- Arithmetic shift right (R209). -/
  | sar (d a b : SReg)
  /-- Rotate left (R209). -/
  | rotl (d a b : SReg)
  /-- Minimum (R209). -/
  | min (d a b : SReg) (u : Bool)
  /-- Maximum (R209). -/
  | max (d a b : SReg) (u : Bool)
  /-- Product; `part` 0 low half, 1 high half signed, 2 high half unsigned (R209). -/
  | mul (d a b : SReg) (part : BitVec 2)
  /-- Quotient (R210). -/
  | div (d a b : SReg) (u : Bool)
  /-- Remainder (R210). -/
  | rem (d a b : SReg) (u : Bool)
  /-- s[a] + V (R211). -/
  | addi (d a : SReg) (v : Word64)
  /-- s[a] and V (R211). -/
  | andi (d a : SReg) (v : Word64)
  /-- s[a] or V (R211). -/
  | ori (d a : SReg) (v : Word64)
  /-- s[a] exclusive or V (R211). -/
  | xori (d a : SReg) (v : Word64)
  /-- Shift left by a count (R211). -/
  | shli (d a : SReg) (n : BitVec 6)
  /-- Logical shift right by a count (R211). -/
  | shri (d a : SReg) (n : BitVec 6)
  /-- Arithmetic shift right by a count (R211). -/
  | sari (d a : SReg) (n : BitVec 6)
  /-- s[d] := V (R211). -/
  | movi (d : SReg) (v : Word64)
  /-- Count of leading zeros (R209). -/
  | clz (d a : SReg) (w : Bool)
  /-- Count of trailing zeros (R209). -/
  | ctz (d a : SReg) (w : Bool)
  /-- Count of one bits (R209). -/
  | popc (d a : SReg) (w : Bool)
  /-- Sign-extend; `sz` 0 to 2 (R209). -/
  | sext (d a : SReg) (sz : BitVec 2)
  /-- Zero-extend; `sz` 0 to 2 (R209). -/
  | zext (d a : SReg) (sz : BitVec 2)
  /-- Extract the field of `width1` + 1 bits at `pos` (R212). -/
  | bfx (d a : SReg) (u : Bool) (width1 pos : BitVec 6)
  /-- Insert a field of `width1` + 1 bits at `pos` (R212). -/
  | bfi (d a : SReg) (width1 pos : BitVec 6)
  /-- Select by a predicate (R214). -/
  | sel (d a b : SReg) (c : PReg)
  /-- Compare two scalars into a predicate, `cc` 0 to 5 (R213, R214). -/
  | cmp (d : PReg) (a b : SReg) (cc : BitVec 3)
  /-- Compare a scalar with an immediate, `cc` 0 to 5 (R213, R214). -/
  | cmpi (d : PReg) (a : SReg) (cc : BitVec 3) (v : Word64)
  /-- Predicate and (R214). -/
  | pand (d a b : PReg)
  /-- Predicate or (R214). -/
  | por (d a b : PReg)
  /-- Predicate exclusive or (R214). -/
  | pxor (d a b : PReg)
  /-- Predicate and not (R214). -/
  | pandn (d a b : PReg)
  /-- Branch on a predicate; the offset counts words from the bundle's header (R294). -/
  | br (p : PReg) (neg : Bool) (v : Word64)
  /-- Branch and link into a31 (R294). -/
  | brl (p : PReg) (neg : Bool) (v : Word64)
  /-- Jump to a[a] + V (R295). -/
  | jmp (a : AReg) (v : Word64)
  /-- Jump and link into a[d] (R295). -/
  | jmpl (d a : AReg) (v : Word64)
  /-- Close a pipelined loop; enables [0] S, [1] P, [2] V (R298). -/
  | bloop (en : BitVec 3) (v : Word64)
  /-- Replay the next bundle over `depth1` + 1 levels with the iterators of `mask` (R301, R302). -/
  | nest (depth1 : BitVec 2) (mask : BitVec 8)
  /-- NEST in the reverse order of points (R302). -/
  | nestR (depth1 : BitVec 2) (mask : BitVec 8)
  /-- Write a nest count (0 to 3), LC (4) or EC (5) (R300). -/
  | setn (dst : BitVec 3) (a : SReg) (imm : BitVec 14)
  /-- Rotate the enabled files, or zero their offsets with `z` (R299). -/
  | rotb (z : Bool) (en : BitVec 3)
  /-- Read a work-ID field, `j` 0 to 5 (R359). -/
  | wfldGet (d a : SReg) (j : BitVec 3)
  /-- Replace a work-ID field (R359). -/
  | wfldSet (d a b : SReg) (j : BitVec 3)
  /-- Clear a work ID below a level (R359). -/
  | wfldLvl (d a : SReg) (j : BitVec 3)
  /-- Read the k-register numbered `k` (R310). -/
  | krd (d : SReg) (k : BitVec 6)
  /-- Write the k-register numbered `k` (R310). -/
  | kwr (k : BitVec 6) (a : SReg)
  /-- Enqueue the continuation record at s[r], in the own cluster or in cluster `cl` (R357). -/
  | spawn (r : SReg) (own : Bool) (cl : BitVec 4)
  /-- End the context and enqueue its continuation (R358). -/
  | suspend (prio : BitVec 2)
  /-- End the context (R358). -/
  | exit
  /-- Declare a checkpoint with the table at s[a] + V (R389). -/
  | chkpt (a : SReg) (v : Word64)
  /-- Enter the trap handler with code 5 (R390). -/
  | trap (v : Word64)
  /-- Stop with the slots of `holds` held: [0] A, [1] V, [2] M, [3] X (R398, R399). -/
  | brk (holds : BitVec 4) (id : BitVec 15)
  /-- Return from the trap handler (R391). -/
  | rett
  /-- Step the loss scale, overflow when s[a] is not zero (R291). -/
  | lscale (d : PReg) (a : SReg)
  /-- Step the loss scale, overflow when p[a] is true (R291). -/
  | lscaleP (d a : PReg)
  /-- a[d] := a[a] + s[b] (R184). -/
  | adda (d a : AReg) (b : SReg)
  /-- a[d] := a[a] + V (R184). -/
  | addai (d a : AReg) (v : Word64)
  /-- a[d] := s[a] (R184). -/
  | mova (d : AReg) (a : SReg)
  /-- s[d] := a[a] (R184). -/
  | movaToS (d : SReg) (a : AReg)
  /-- Stride of a[d] := s[a] + V (R184). -/
  | setstep (d : AReg) (a : SReg) (v : Word64)
  /-- Bind iterator n to a-register t at level k with stride V (R184). -/
  | itset (n : BitVec 3) (k : BitVec 2) (t : AReg) (v : Word64)
  /-- Load 1 to 8 bytes from the own scratchpad (R186). -/
  | ld (d : SReg) (base : AReg) (off : Off9) (sz : BitVec 2) (sx : Bool)
  /-- Store 1 to 8 bytes (R186). -/
  | st (d : SReg) (base : AReg) (off : Off9) (sz : BitVec 2)
  /-- Load a block with its descriptor (R186). -/
  | ldV (d : VRegNo) (base : AReg) (off : Off9)
  /-- Store a block with its descriptor (R186). -/
  | stV (d : VRegNo) (base : AReg) (off : Off9)
  /-- Timed block load landing `land` cycles after its issue (R188). -/
  | ldL (d : VRegNo) (base : AReg) (off : Off9) (land : Nat)
  /-- Store one element into the open pane of frame register f (R112). -/
  | stG (d : SReg) (base : AReg) (off : Off9) (f : FReg) (acc : Bool)
  /-- Store one block into the open pane of frame register f (R112). -/
  | stGBlk (d : VRegNo) (base : AReg) (off : Off9) (f : FReg) (acc : Bool)
  /-- Load a block's descriptor (R186). -/
  | ldD (d : SReg) (base : AReg) (off : Off9)
  /-- Store a block's descriptor (R186). -/
  | stD (d : SReg) (base : AReg) (off : Off9)
  /-- Indexed load from the own scratchpad; `dw` selects 8-byte elements (R190). -/
  | gath (d : VRegNo) (a : AReg) (b : VRegNo) (dw : Bool) (m : MReg)
  /-- Indexed store to the own scratchpad (R190). -/
  | scat (d : VRegNo) (a : AReg) (b : VRegNo) (dw : Bool) (m : MReg)
  /-- Overwrite accumulator cells; `fl` floating point, `blk` block form (R193, R194). -/
  | awrOw (d : SReg) (base : AReg) (off : Off9) (w fl blk : Bool)
  /-- Add into accumulator cells (R193, R194). -/
  | awrAdd (d : SReg) (base : AReg) (off : Off9) (w fl blk : Bool)
  /-- Add and return the old value (R194). -/
  | axadd (d : SReg) (base : AReg) (off : Off9) (w fl : Bool)
  /-- Exchange (R194). -/
  | axchg (d : SReg) (base : AReg) (off : Off9) (w : Bool)
  /-- Compare and swap (R194). -/
  | acas (d : SReg) (a : AReg) (b : SReg) (w : Bool)
  /-- Minimum, returning the old value (R194). -/
  | amin (d : SReg) (base : AReg) (off : Off9) (w fl u : Bool)
  /-- Maximum, returning the old value (R194). -/
  | amax (d : SReg) (base : AReg) (off : Off9) (w fl u : Bool)
  /-- And, returning the old value (R194). -/
  | aand (d : SReg) (base : AReg) (off : Off9) (w : Bool)
  /-- Or, returning the old value (R194). -/
  | aor (d : SReg) (base : AReg) (off : Off9) (w : Bool)
  /-- Read cells (R194). -/
  | ald (d : SReg) (base : AReg) (off : Off9) (w blk : Bool)
  /-- Write the elements of a block as E cells (R194). -/
  | ast (d : VRegNo) (base : AReg) (off : Off9)
  /-- Acquire load (R328). -/
  | ldAcq (d : SReg) (base : AReg) (off : Off9) (sz : BitVec 2) (sx : Bool)
  /-- Release store (R328). -/
  | stRel (d : SReg) (base : AReg) (off : Off9) (sz : BitVec 2)
  /-- SC load (R329). -/
  | ldSc (d : SReg) (base : AReg) (off : Off9) (sz : BitVec 2) (sx : Bool)
  /-- SC store (R329). -/
  | stSc (d : SReg) (base : AReg) (off : Off9) (sz : BitVec 2)
  /-- Address-range fence; `kinds` 1 writes, 2 reads, 3 both (R330). -/
  | fenceR (a : AReg) (b : SReg) (kinds : BitVec 2)
  /-- Store a register into the spill space; class 0 s, 1 a, 2 v (R192). -/
  | spill (cls : BitVec 2) (d : SReg) (base : AReg) (off : Off9)
  /-- Load a register from the spill space (R192). -/
  | fill (cls : BitVec 2) (d : SReg) (base : AReg) (off : Off9)
  /-- Lane sum; saturating with `sat` (R218). -/
  | vadd (d a b : VRegNo) (m : MReg) (sz : BitVec 2) (sat u : Bool)
  /-- Lane difference (R218). -/
  | vsub (d a b : VRegNo) (m : MReg) (sz : BitVec 2) (sat u : Bool)
  /-- Lane product; `hi` the high half (R218). -/
  | vmul (d a b : VRegNo) (m : MReg) (sz : BitVec 2) (sat u hi : Bool)
  /-- Lane minimum (R218). -/
  | vmin (d a b : VRegNo) (m : MReg) (sz : BitVec 2) (u : Bool)
  /-- Lane maximum (R218). -/
  | vmax (d a b : VRegNo) (m : MReg) (sz : BitVec 2) (u : Bool)
  /-- Lane and (R218). -/
  | vand (d a b : VRegNo) (m : MReg) (sz : BitVec 2)
  /-- Lane or (R218). -/
  | vor (d a b : VRegNo) (m : MReg) (sz : BitVec 2)
  /-- Lane exclusive or (R218). -/
  | vxor (d a b : VRegNo) (m : MReg) (sz : BitVec 2)
  /-- Lane shift left (R218). -/
  | vshl (d a b : VRegNo) (m : MReg) (sz : BitVec 2)
  /-- Lane logical shift right (R218). -/
  | vshr (d a b : VRegNo) (m : MReg) (sz : BitVec 2)
  /-- Lane arithmetic shift right (R218). -/
  | vsar (d a b : VRegNo) (m : MReg) (sz : BitVec 2)
  /-- Compare lanes into a mask register, `cc` 0 to 5 (R219). -/
  | vcmp (d : MReg) (a b : VRegNo) (m : MReg) (sz : BitVec 2) (cc : BitVec 3)
  /-- Select lanes by a mask (R220). -/
  | vsel (d a b : VRegNo) (m : MReg) (sz : BitVec 2)
  /-- Floating-point sum; `fmt` 0 FP64, 1 FP32, 2 BF16, 3 FP16 (R239). -/
  | vfadd (d a b : VRegNo) (m : MReg) (rm : BitVec 3) (cl : Bool) (fmt : BitVec 2)
  /-- Floating-point difference (R239). -/
  | vfsub (d a b : VRegNo) (m : MReg) (rm : BitVec 3) (cl : Bool) (fmt : BitVec 2)
  /-- Floating-point product (R239). -/
  | vfmul (d a b : VRegNo) (m : MReg) (rm : BitVec 3) (cl : Bool) (fmt : BitVec 2)
  /-- x y + z (R239). -/
  | vfma (d a b : VRegNo) (m : MReg) (rm : BitVec 3) (cl : Bool) (fmt : BitVec 2)
  /-- x y - z (R239). -/
  | vfms (d a b : VRegNo) (m : MReg) (rm : BitVec 3) (cl : Bool) (fmt : BitVec 2)
  /-- z - x y (R239). -/
  | vfnma (d a b : VRegNo) (m : MReg) (rm : BitVec 3) (cl : Bool) (fmt : BitVec 2)
  /-- Quotient (R239). -/
  | vfdiv (d a b : VRegNo) (m : MReg) (rm : BitVec 3) (cl : Bool) (fmt : BitVec 2)
  /-- Square root (R239). -/
  | vfsqrt (d a : VRegNo) (m : MReg) (rm : BitVec 3) (cl : Bool) (fmt : BitVec 2)
  /-- Minimum (R239). -/
  | vfmin (d a b : VRegNo) (m : MReg) (fmt : BitVec 2)
  /-- Maximum (R239). -/
  | vfmax (d a b : VRegNo) (m : MReg) (fmt : BitVec 2)
  /-- Sign of vb (R242). -/
  | vfsgnCopy (d a b : VRegNo) (m : MReg) (fmt : BitVec 2)
  /-- Complement of the sign of vb (R242). -/
  | vfsgnNeg (d a b : VRegNo) (m : MReg) (fmt : BitVec 2)
  /-- Exclusive or of both signs (R242). -/
  | vfsgnXor (d a b : VRegNo) (m : MReg) (fmt : BitVec 2)
  /-- Compare lanes into a mask register, `cc` 0 to 4; `sg` signalling (R243). -/
  | vfcmp (d : MReg) (a b : VRegNo) (m : MReg) (cc : BitVec 3) (sg : Bool) (fmt : BitVec 2)
  /-- Convert between formats (R246). -/
  | vfcvt (d a : VRegNo) (cl : Bool) (src : BitVec 4) (rm part : BitVec 3) (dst : BitVec 5)
  /-- Round to an integral value (R239). -/
  | vfrint (d a : VRegNo) (m : MReg) (rm : BitVec 3) (fmt : BitVec 2)
  /-- Classify (R244). -/
  | vfclass (d a : VRegNo) (m : MReg) (fmt : BitVec 2)
  /-- e to the x (R240). -/
  | vfexp (d a : VRegNo) (m : MReg) (cl : Bool) (fmt : BitVec 2)
  /-- 2 to the x (R240). -/
  | vfexp2 (d a : VRegNo) (m : MReg) (cl : Bool) (fmt : BitVec 2)
  /-- Natural logarithm (R240). -/
  | vflog (d a : VRegNo) (m : MReg) (cl : Bool) (fmt : BitVec 2)
  /-- Binary logarithm (R240). -/
  | vflog2 (d a : VRegNo) (m : MReg) (cl : Bool) (fmt : BitVec 2)
  /-- Sine (R240). -/
  | vfsin (d a : VRegNo) (m : MReg) (cl : Bool) (fmt : BitVec 2)
  /-- Cosine (R240). -/
  | vfcos (d a : VRegNo) (m : MReg) (cl : Bool) (fmt : BitVec 2)
  /-- Hyperbolic tangent (R240). -/
  | vftanh (d a : VRegNo) (m : MReg) (cl : Bool) (fmt : BitVec 2)
  /-- Reciprocal (R240). -/
  | vfrcp (d a : VRegNo) (m : MReg) (cl : Bool) (fmt : BitVec 2)
  /-- Reciprocal square root (R240). -/
  | vfrsq (d a : VRegNo) (m : MReg) (cl : Bool) (fmt : BitVec 2)
  /-- Permute lanes (R220). -/
  | vperm (d a b : VRegNo) (m : MReg) (sz : BitVec 2)
  /-- Broadcast a scalar under format `fmt` 0x00 to 0x0A; `sz` with format 0x00 (R222). -/
  | vbcast (d : VRegNo) (a : SReg) (sz : BitVec 2) (fmt : BitVec 5)
  /-- Insert a scalar into a lane (R222). -/
  | vins (d : VRegNo) (a : SReg) (lane : BitVec 6) (sz : BitVec 2)
  /-- Extract a lane (R222). -/
  | vext (d : SReg) (a : VRegNo) (lane : BitVec 6) (sz : BitVec 2) (sx : Bool)
  /-- Reduce by addition; `t` tree order (R248). -/
  | vredAdd (d a : VRegNo) (m : MReg) (rm : BitVec 3) (t : Bool) (fmt : BitVec 2)
  /-- Reduce by minimum (R248). -/
  | vredMin (d a : VRegNo) (m : MReg) (rm : BitVec 3) (t : Bool) (fmt : BitVec 2)
  /-- Reduce by maximum (R248). -/
  | vredMax (d a : VRegNo) (m : MReg) (rm : BitVec 3) (t : Bool) (fmt : BitVec 2)
  /-- Data of va with the descriptor of vb (R223). -/
  | vdescCopy (d a b : VRegNo)
  /-- Data of va with the descriptor in bytes 1:0 of vb (R223). -/
  | vdescSet (d a b : VRegNo)
  /-- The descriptor of va as data (R223). -/
  | vdescGet (d a : VRegNo)
  /-- Add a signed byte to the scale (R247). -/
  | vscaleRel (d a b : VRegNo)
  /-- The scale that fits the largest magnitude into format `fmt` 1 to 6 (R247). -/
  | vscaleFit (d a : VRegNo) (m : MReg) (fmt : BitVec 5)
  /-- Narrow INT16 to INT8 (R224). -/
  | vpackH2b (d a b : VRegNo) (sat : Bool)
  /-- Narrow INT32 to INT16 (R224). -/
  | vpackW2h (d a b : VRegNo) (sat : Bool)
  /-- Narrow INT64 to INT32 (R224). -/
  | vpackD2w (d a b : VRegNo) (sat : Bool)
  /-- Pack INT8 signs into half of a ternary block (R224). -/
  | vpackT2 (d a b : VRegNo) (half : Bool)
  /-- Widen INT8 to INT16 (R225). -/
  | vunpackB2h (d a : VRegNo) (part u : Bool)
  /-- Widen INT16 to INT32 (R225). -/
  | vunpackH2w (d a : VRegNo) (part u : Bool)
  /-- Widen INT32 to INT64 (R225). -/
  | vunpackW2d (d a : VRegNo) (part u : Bool)
  /-- Unpack 64 ternary weights (R225). -/
  | vunpackT2 (d a : VRegNo) (part : BitVec 2)
  /-- Limbs 0 to 7 of the exact sum (R250). -/
  | vfxsSplitLo (d a : VRegNo) (m : MReg)
  /-- Limb 8 and the special counts (R250). -/
  | vfxsSplitHi (d a : VRegNo) (m : MReg)
  /-- Round nine limbs to FP32 (R250). -/
  | vfxsJoin (d a b : VRegNo) (rm : BitVec 3) (cl : Bool)
  /-- Copy lanes under a mask (R220). -/
  | vmov (d a : VRegNo) (m : MReg) (sz : BitVec 2)
  /-- Mask and (R226). -/
  | mlogAnd (d a b : MReg)
  /-- Mask or (R226). -/
  | mlogOr (d a b : MReg)
  /-- Mask exclusive or (R226). -/
  | mlogXor (d a b : MReg)
  /-- Mask and not (R226). -/
  | mlogAndn (d a b : MReg)
  /-- Mask complement (R226). -/
  | mlogNot (d a : MReg)
  /-- Bytes 7:0 of a vector into a mask (R226). -/
  | mlogFromv (d : MReg) (a : VRegNo)
  /-- A mask into bytes 7:0 of a vector (R226). -/
  | mlogTov (d : VRegNo) (a : MReg)
  /-- The lowest set bit alone (R226). -/
  | mlogIso (d a : MReg)
  /-- Claim slots s[f] to s[f] + n1 (R196). -/
  | oclaim (f : SReg) (n1 : BitVec 7)
  /-- Free slots s[f] to s[f] + n1 (R196). -/
  | ofree (f : SReg) (n1 : BitVec 7)
  /-- Fill a slot from 32 blocks of memory (R197). -/
  | oload (slot : SlotNo) (base : AReg) (off : Off9)
  /-- Read a block of a slot (R198). -/
  | oread (d : VRegNo) (base : AReg) (off : Off9)
  /-- FP64 tile product with rounding mode rm (R264). -/
  | mmaFp64 (acc : TileNo) (a b : SlotNo) (rm : BitVec 3)
  /-- FP32 (2), BF16 (3) or FP16 (4) tile product (R264). -/
  | mmaFloat (acc : TileNo) (a b : SlotNo) (fmt : BitVec 4)
  /-- KF8A (5) or KF8B (6) tile product; `bx` crosses the format of B (R264). -/
  | mmaKf8 (acc : TileNo) (a b : SlotNo) (fmt : BitVec 4) (bx : Bool)
  /-- INT8 tile product; `ua`, `ub` read A or B unsigned (R264). -/
  | mmaInt8 (acc : TileNo) (a b : SlotNo) (ua ub : Bool)
  /-- Sparse tile product, fmt 3 to 7, n code 0 to 2 (R257, R264). -/
  | mmas (acc : TileNo) (a b : SlotNo) (fmt : BitVec 4) (ncode : BitVec 2) (bx : Bool)
  /-- Ternary tile product (R255, R264). -/
  | mmat (acc : TileNo) (a b : SlotNo) (ua : Bool)
  /-- Reset n1 + 1 tiles from acc to a mode (R265). -/
  | aclr (acc : TileNo) (n1 : BitVec 4) (mode : BitVec 2)
  /-- Drain a tile to memory (R267). -/
  | adrain (acc : TileNo) (a c : SReg)
  /-- Drain a tile to an operand slot (R267). -/
  | adrainO (acc : TileNo) (a c : SReg)
  /-- Drain a tile into the open pane of f (R267). -/
  | adrainP (acc : TileNo) (a c : SReg) (f : FReg)
  /-- Wait for one tile (R268). -/
  | await (acc : TileNo)
  /-- Wait for the tiles of a mask (R268). -/
  | awaitM (m : SReg)
  /-- Wait for the whole engine (R268). -/
  | awaitAll
  /-- Enqueue the tile-task record at s[r] (R271). -/
  | ttask (r : SReg) (q : BitVec 2)
  /-- Lend the core's engine (R271). -/
  | ttaskHost
  /-- Take the core's engine back (R271). -/
  | ttaskUnhost
  /-- Wait for a task tag (R272). -/
  | twait (t : SReg)
  /-- Read a slot's state (R199). -/
  | ostat (d s : SReg)
  /-- Start a copy-engine channel (R141). -/
  | chead (h w l : SReg) (c : BitVec 2)
  /-- Read a channel's state (R142). -/
  | cstat (d : SReg) (c : BitVec 2)
  /-- Read a channel's watermark (R143). -/
  | cwmk (d : SReg) (c : BitVec 2)
  /-- Wait for a channel's watermark (R143). -/
  | cwmkW (a : SReg) (c : BitVec 2)
  /-- Cancel the channels of a mask (R144). -/
  | ccancel (mask : BitVec 4)
  /-- Join the channels of a mask (R145). -/
  | qjoin (mask : BitVec 4)
  /-- Write a field of a shape set (R146). -/
  | shape (v : SReg) (set field : BitVec 3)
  /-- Arm a context for knocks (R147). -/
  | knarm (x : BitVec 2)
  /-- Disarm a context (R147). -/
  | knarmD (x : BitVec 2)
  /-- Bind a frame register (R113). -/
  | fbind (r : SReg) (f : FReg)
  /-- Unbind a frame register (R113). -/
  | fbindU (f : FReg)
  /-- Open an overwrite pane (R114). -/
  | popenOw (n : SReg) (f : FReg)
  /-- Open an additive pane (R114). -/
  | popenAdd (n : SReg) (f : FReg)
  /-- Seal the open pane (R114). -/
  | pseal (f : FReg)
  /-- Apply a sealed pane (R115). -/
  | papply (n : SReg) (f : FReg)
  /-- Apply up to four panes as one event (R115). -/
  | papplyG (names frames : SReg) (count1 : BitVec 2)
  /-- Apply an inverse (R116). -/
  | pinv (p new : SReg) (f : FReg)
  /-- Move a pane down (R117). -/
  | pcomm (p q : SReg) (f : FReg)
  /-- Transplant a pane (R119). -/
  | pxpl (p new : SReg) (f g : FReg)
  /-- Merge a run of panes (R118). -/
  | pglaze (l t new : SReg) (f : FReg)
  /-- Take a pane off the chain (R117). -/
  | plift (p : SReg) (f : FReg)
  /-- Discard a pane (R114). -/
  | pdrop (p : SReg) (f : FReg)
  /-- Request a settle of one pane (R120). -/
  | psettle (p : SReg) (f : FReg)
  /-- Request a settle of the chain (R120). -/
  | psettleAll (f : FReg)
  /-- Read a pane's state (R121). -/
  | pstatP (d p : SReg) (f : FReg)
  /-- Read a chain's state (R121). -/
  | pstatF (d : SReg) (f : FReg)
  /-- Read an arena's state (R121). -/
  | pstatA (d : SReg) (f : FReg)
  /-- Arrive once on a latch (R360). -/
  | larr (l : SReg) (rot : Bool)
  /-- Arrive s[v] times (R360). -/
  | larrN (l v : SReg) (rot : Bool)
  /-- Arm a latch (R360). -/
  | larrSet (l v : SReg) (rot : Bool)
  /-- Read a latch (R360). -/
  | larrRd (l d : SReg) (rot : Bool)
  /-- Wait for a latch (R361). -/
  | lwait (l : SReg) (re rot : Bool)
  /-- Set the latch rotation (R362). -/
  | lbaseSet (b n : SReg)
  /-- Step the latch rotation (R362). -/
  | lbaseStep
  /-- Wait for the first of eight latches (R363). -/
  | waitany (d l : SReg) (re rot : Bool) (mask : BitVec 8)
  /-- Write a handle (R201). -/
  | hset (h : HReg) (v : SReg)
  /-- Read a handle (R201). -/
  | hsetR (h : HReg) (d : SReg)
  /-- Wait for filled slots (R201). -/
  | hwaitData (h : HReg) (c : SReg)
  /-- Wait for free slots (R201). -/
  | hwaitRoom (h : HReg) (c : SReg)
  /-- Advance the consumer count (R201). -/
  | hadvCons (h : HReg) (c : SReg)
  /-- Advance the producer count (R201). -/
  | hadvProd (h : HReg) (c : SReg)
  /-- Enter reverse mode (R288). -/
  | dmodeRev
  /-- Leave reverse mode (R288). -/
  | dmodeFwd
  /-- Enable pushes (R289). -/
  | tapeOn
  /-- Disable pushes (R289). -/
  | tapeOff
  /-- Push a mark (R289). -/
  | tapeMark (v : SReg)
  /-- Pop a mark (R289). -/
  | tapeUnmark (d : SReg)
  /-- Empty the tape (R289). -/
  | tapeReset
  /-- Post a collective record (R165). -/
  | coll (r : SReg)
  /-- Resume the waiters of a fault tag (R82). -/
  | pgres (t : SReg)
  /-- End the launch for a fault tag (R82). -/
  | pgresFail (t : SReg)
  /-- Invalidate a page (R82). -/
  | pgresInv (t : SReg)
  /-- Context x of core g issues one repetition of its bundle (R20). -/
  | bundleIssue (g x : Nat)
  /-- The results due at the next issue of context x of core g become visible (R30). -/
  | resultDelivery (g x : Nat)
  /-- A waiter released by a PGRES retries (R82). -/
  | waiterRetry (who : Who)
  /-- A fault held in its slot enqueues its pager record (R78). -/
  | pagerRecordEnqueue (cluster slot : Nat)
  /-- A page walk for a context or a channel ends (R74). -/
  | walkComplete (who : Who)
  /-- The landings of core g that are due deliver (R171). -/
  | landingDelivery (g : Nat)
  /-- Late data arrives at core g (R173). -/
  | lateDataArrival (g : Nat)
  /-- The condition of an engine wait holds (R340). -/
  | engineWaitEnd (g x : Nat)
  /-- The wheel serves one SC access of core g (R319). -/
  | scOrderPoint (g : Nat)
  /-- Channel c of core g reaches a record (R128). -/
  | channelRecordRead (g c : Nat)
  /-- A sector of channel c of core g completes (R128). -/
  | sectorComplete (g c : Nat)
  /-- The record of channel c of core g completes (R129). -/
  | recordCompletion (g c : Nat)
  /-- A knock reaches its target core (R138). -/
  | knockDelivery (k : KnockSource)
  /-- The fill of a slot of core g ends (R197). -/
  | oloadFillComplete (g slot : Nat)
  /-- The head matrix operation of core g starts (R258). -/
  | matrixOpStart (g : Nat)
  /-- The array time of core g's operation ends (R264). -/
  | matrixOpComplete (g : Nat)
  /-- A drain of core g starts (R267). -/
  | drainStart (g : Nat)
  /-- The drain of core g completes (R267). -/
  | drainComplete (g : Nat)
  /-- The governor of an island grants a deferred request (R355). -/
  | leaveGrant (island : Nat)
  /-- Core g's engine gives its leave back (R404). -/
  | leaveRelease (g : Nat)
  /-- A class run of core g reaches its longest length (R394). -/
  | classRunExpiry (g : Nat)
  /-- The head task of a queue is dispatched (R270). -/
  | taskDispatch (cluster queue : Nat)
  /-- A dispatched task starts on core g (R270). -/
  | taskRunStart (cluster g : Nat)
  /-- The task on core g completes (R270). -/
  | taskComplete (cluster g : Nat)
  /-- The engine of a die finds its record's signal (R163). -/
  | collSignal (die : Nat)
  /-- A collective record starts (R163). -/
  | collStart (die : Nat)
  /-- A collective record completes (R163). -/
  | collComplete (die : Nat)
  /-- A migrating page is cut over (R83). -/
  | restripeCutover (page : Nat)
  /-- A cutover page becomes stable (R83). -/
  | restripeStable (page : Nat)
  /-- A continuation record of a cluster is picked up (R344). -/
  | pickup (cluster : Nat)
  /-- Waiting records of a cluster rise in priority (R343). -/
  | priorityAging (cluster : Nat)
  /-- The selector of core g passes on after its quantum (R341). -/
  | selectorQuantum (g : Nat)
  /-- A bundle of a deterministic launch comes due (R351). -/
  | scheduleDue (g x : Nat)
  /-- The time between two checkpoints exceeds CKPTMAX (R353). -/
  | ckptmaxOverrun (g x : Nat)
  /-- A running context exceeds CKPTMAX with a request pending (R386). -/
  | preemptionTimeout (g x : Nat)
  /-- A schedule frame ends (R394). -/
  | frameEnd
  /-- An island's voltage falls below its threshold (R394). -/
  | droopSample (island : Nat)
  /-- The scrub finds an error in the block at a channel offset (R59). -/
  | scrub (stack channel offset : Nat) (finding : EccFinding)
  /-- The header at LQHEAD starts (R336). -/
  | launchStart
  /-- The launch retires (R337). -/
  | launchRetire
  /-- A fault ends the launch (R373). -/
  | shutter
  /-- The save image is written (R383). -/
  | preemptSave
  /-- Bring-up runs: which stacks and peer ports fail training, and whether the firmware verifies (R400). -/
  | powerOn (badStacks badPorts : BitVec 12) (signatureOk : Bool)
  /-- The board controller reports a rail fault (R401). -/
  | railFault
  /-- A lane of a port fails (R154). -/
  | laneFail (port lane : Nat)
  /-- A port's retraining ends (R414). -/
  | retrainComplete (port : Nat)
  /-- The other end's handshake has not come (R414). -/
  | handshakeTimeout (port : Nat)
  /-- A port's arbiter grants one packet (R150). -/
  | packetSend (port : Nat)
  /-- An acknowledgement-only packet arrives (R413). -/
  | ackOnlyPacket (port : Nat) (p : Packet)
  /-- A write packet arrives (R158). -/
  | inboundWrite (port : Nat) (p : Packet)
  /-- A read request arrives (R158). -/
  | inboundReadRequest (port : Nat) (p : Packet)
  /-- A read response arrives (R157). -/
  | readResponse (port : Nat) (p : Packet)
  /-- A collective data packet arrives (R412). -/
  | collectiveData (port : Nat) (p : Packet)
  /-- A collective abort packet arrives (R163). -/
  | abortPacket (port : Nat) (p : Packet)
  /-- A port sees no progress of ACKSEQ for 8 microseconds (R152). -/
  | replayTimeout (port : Nat)
  /-- A receiver has sent nothing for 1,500 cycles (R413). -/
  | ackIdleTimer (port : Nat)
  /-- A host write of SVEC (R333). -/
  | launchRegister (v : Word64)
  /-- A host write of PGHOST with FAIL = 0 (R80). -/
  | pghost (v : Word64)
  /-- A host write of PGHOST with FAIL = 1 (R80). -/
  | pghostFail (v : Word64)
  /-- A host write of PSAVE (R378). -/
  | psave (v : Word64)
  /-- The host's second write of PSAVE (R387). -/
  | psaveFinish (v : Word64)
  /-- A host write of PRES (R384). -/
  | pres (v : Word64)
  /-- A host write of GLZDONE (R407). -/
  | glzdone (v : Word64)
  /-- A host write of ATREQ (R403). -/
  | atreq (v : Word64)
  /-- The attestation report has been written (R403). -/
  | attestReportDone
  /-- A host write of LOGRD (R396). -/
  | logrd (v : Word64)
  /-- A host write to the geometry table or an aperture entry (R72, R158). -/
  | geoTableWrite (addr : Nat) (v : Word64)
  /-- A host write to any other device register (R60). -/
  | deviceRegisterWrite (addr : Nat) (v : Word64)
  /-- The far end of a port's link went down (R156). -/
  | peerEndDown (port : Nat)
deriving DecidableEq, Repr

end Sys2Proof
end

