-- ==== Sys2Proof/WellFormed.lean ====
section
/-! DEFINITION. Which instructions the encoding admits: the reserved values, class limits and operand limits that R37
and the entries check at decode. An instruction that breaks one has no slot word. -/

namespace Sys2Proof

/-- Element size in bytes of a format code of R227: 8 for FP64, INT64 and FXL; 4, 2 and 1 below; 0 where the format has
no whole-byte element (0x00, TERN2, SPMETA) or the code is reserved. -/
def formatBytes (f : Nat) : Nat :=
  match f with
  | 0x01 | 0x0A | 0x0D => 8
  | 0x02 | 0x09 => 4
  | 0x03 | 0x04 | 0x08 => 2
  | 0x05 | 0x06 | 0x07 => 1
  | _ => 0

/-- The k-register numbers of the map of R306. -/
def isKReg (k : Nat) : Bool :=
  k ≤ 9 || k == 0x10 || k == 0x11 || (0x18 ≤ k && k ≤ 0x1D) || (0x20 ≤ k && k ≤ 0x2F)

/-- The k-registers whose whole access is RO, which KWR may not name (R306, R310, R367). -/
def isKRegReadOnly (k : Nat) : Bool :=
  k == 0 || k == 1 || k == 6 || k == 7 || k == 9 || k == 0x18 || k == 0x22 || k == 0x23

/-- The sparse factor of an N code (R257, R263): 4 for N = 4 and N = 8, 2 for N = 16. -/
def sparseFactor (ncode : Nat) : Nat := if ncode < 2 then 4 else 2

/-- Rounding modes 0 to 5 exist (R232). -/
def rmOk (rm : BitVec 3) : Bool := rm.toNat ≤ 5

/-- One past the number of parts of a VFCVT between element sizes `es` and `ed` (R245). -/
def cvtParts (es ed : Nat) : Nat := max (es / ed) (ed / es)

/-- The limits of an instruction's fields beyond their widths (R37). Events carry no word and are not limited. -/
def Instr.wellFormed : Instr → Bool
  | .mul _ _ _ part => part.toNat ≤ 2
  | .sext _ _ sz => sz.toNat ≤ 2
  | .zext _ _ sz => sz.toNat ≤ 2
  | .bfx _ _ _ w p => w.toNat + p.toNat + 1 ≤ 64
  | .bfi _ _ w p => w.toNat + p.toNat + 1 ≤ 64
  | .cmp _ _ _ cc => cc.toNat ≤ 5
  | .cmpi _ _ cc _ => cc.toNat ≤ 5
  | .setn dst _ _ => dst.toNat ≤ 5
  | .rotb _ en => en != 0
  | .wfldGet _ _ j => j.toNat ≤ 5
  | .wfldSet _ _ _ j => j.toNat ≤ 5
  | .wfldLvl _ _ j => j.toNat ≤ 5
  | .krd _ k => isKReg k.toNat
  | .kwr k _ => isKReg k.toNat && !isKRegReadOnly k.toNat
  | .spawn _ own cl => !own || cl == 0
  | .ld _ _ _ sz sx => !(sx && sz == 3)
  | .ldAcq _ _ _ sz sx => !(sx && sz == 3)
  | .ldSc _ _ _ sz sx => !(sx && sz == 3)
  | .ldL _ _ _ land => land < 2 ^ 63
  | .awrOw d _ _ _ _ blk => !blk || d.toNat < 32
  | .awrAdd d _ _ _ _ blk => !blk || d.toNat < 32
  | .amin _ _ _ _ fl u => !(fl && u)
  | .amax _ _ _ _ fl u => !(fl && u)
  | .ald d _ _ w blk => !(w && blk) && (!blk || d.toNat < 32)
  | .fenceR _ _ kinds => kinds != 0
  | .spill cls d _ _ => cls != 3 && (cls == 0 || d.toNat < 32)
  | .fill cls d _ _ => cls != 3 && (cls == 0 || d.toNat < 32)
  | .vadd _ _ _ _ _ sat u => sat || !u
  | .vsub _ _ _ _ _ sat u => sat || !u
  | .vmul _ _ _ _ _ sat u hi => !(sat && hi) && (sat || hi || !u)
  | .vcmp _ _ _ _ _ cc => cc.toNat ≤ 5
  | .vfadd _ _ _ _ rm _ _ | .vfsub _ _ _ _ rm _ _ | .vfmul _ _ _ _ rm _ _ => rmOk rm
  | .vfma _ _ _ _ rm _ _ | .vfms _ _ _ _ rm _ _ | .vfnma _ _ _ _ rm _ _ => rmOk rm
  | .vfdiv _ _ _ _ rm _ _ => rmOk rm
  | .vfsqrt _ _ _ rm _ _ => rmOk rm
  | .vfcmp _ _ _ _ cc _ _ => cc.toNat ≤ 4
  | .vfcvt _ _ _ src rm part dst =>
      1 ≤ src.toNat && src.toNat ≤ 10 && 1 ≤ dst.toNat && dst.toNat ≤ 10 && rmOk rm &&
        part.toNat < cvtParts (formatBytes src.toNat) (formatBytes dst.toNat)
  | .vfrint _ _ _ rm _ => rmOk rm
  | .vbcast _ _ sz fmt => fmt.toNat ≤ 10 && (fmt == 0 || sz == 0)
  | .vins _ _ lane sz => lane.toNat < 64 / 2 ^ sz.toNat
  | .vext _ _ lane sz sx => lane.toNat < 64 / 2 ^ sz.toNat && !(sx && sz == 3)
  | .vredAdd _ _ _ rm _ _ => rmOk rm
  | .vredMin _ _ _ rm _ _ => rmOk rm
  | .vredMax _ _ _ rm _ _ => rmOk rm
  | .vscaleFit _ _ _ fmt => 1 ≤ fmt.toNat && fmt.toNat ≤ 6
  | .vfxsJoin _ _ _ rm _ => rmOk rm
  | .vmov _ _ m sz => m != 0 || sz == 3
  | .mmaFp64 _ _ _ rm => rmOk rm
  | .mmaFloat _ _ _ fmt => 2 ≤ fmt.toNat && fmt.toNat ≤ 4
  | .mmaKf8 _ _ _ fmt _ => fmt == 5 || fmt == 6
  | .mmas _ a b fmt ncode bx =>
      3 ≤ fmt.toNat && fmt.toNat ≤ 7 && ncode != 3 && (!bx || fmt == 5 || fmt == 6) &&
        a.toNat ≤ 126 && b.toNat + sparseFactor ncode.toNat - 1 ≤ 127
  | .mmat _ a _ _ => a.toNat ≤ 124
  | .aclr acc n1 mode => acc.toNat + n1.toNat + 1 ≤ 16 && mode != 3
  | .shape _ _ field => field.toNat ≤ 5
  | .ccancel mask => mask != 0
  | .qjoin mask => mask != 0
  | .waitany _ _ _ _ mask => mask != 0
  | _ => true

/-- An instruction that the encoding admits. -/
abbrev Instr.WF (i : Instr) : Prop := i.wellFormed = true

end Sys2Proof
end

