-- ==== Sys2Proof/Decode.lean ====
section
/-! DEFINITION. The decoder and the encoder of slot words and bundle headers (R16 to R37). The decoder is total: it gives
the instruction, or the name of the check of R37 that fails. -/

namespace Sys2Proof

/-- Why a slot word or a header is not an instruction (R37). All but the last two raise the illegal-slot fault. -/
inductive DecodeError where
  /-- The major value is unassigned in the slot's map (R36). -/
  | unassignedMajor
  /-- A function, variant or control value that the entry lists as reserved, or an operand beyond its limit. -/
  | reservedValue
  /-- A field that the entry does not use is not zero. -/
  | nonZeroUnused
  /-- A register number at or above the size of its class. -/
  | registerOutOfClass
  /-- A surrendered word that the instruction does not take (R35). -/
  | badExtension
  /-- A negative extended landing cycle (R34). -/
  | negativeLand
  /-- A rounding mode of 6 or 7. -/
  | roundingMode
  /-- A control transfer or NEST in a bundle with REP above 0, or a NEST beside a control transfer (R37, R301). -/
  | transferInRepeat
  /-- The template breaks R21: an illegal-bundle fault. -/
  | illegalTemplate
  /-- The stamps of a deterministic launch run past 2,047 (R29): an illegal-bundle fault. -/
  | stampRange
deriving DecidableEq, Repr, Inhabited

/-- The `n` bits of a word from bit `lo` up. -/
def fld (w : Word32) (lo n : Nat) : BitVec n := w.extractLsb' lo n

/-- Continue when the condition holds, else reject by name. -/
def need (c : Bool) (e : DecodeError) : Except DecodeError Unit := if c then .ok () else .error e

/-- No surrendered word may follow (R35). -/
def noExt (ext : List Word32) : Except DecodeError Unit := need ext.isEmpty .badExtension

/-- A bit of a one-bit field. -/
def bit1 (b : Bool) : BitVec 1 := if b then 1 else 0

/-- The number that surrendered words spell, the first least significant (R34). -/
def extNat : List Word32 → Nat
  | [] => 0
  | e :: es => e.toNat + 2 ^ 32 * extNat es

/-- The operand of R34: the field with its surrendered words above it, sign-extended to 64 bits. -/
def extImm {n : Nat} (f : BitVec n) (ext : List Word32) : Word64 :=
  (BitVec.ofNat (n + 32 * ext.length) (f.toNat + 2 ^ n * extNat ext)).signExtend 64

/-- The sign of the operand of R34 before bits above 63 are dropped. -/
def extNegative {n : Nat} (f : BitVec n) (ext : List Word32) : Bool :=
  (BitVec.ofNat (n + 32 * ext.length) (f.toNat + 2 ^ n * extNat ext)).signExtend 64 |>.msb

/-- The landing cycles of LD.L: 16 times the field without surrendered words, else the exact count (R34). -/
def landCycles (f : BitVec 6) (ext : List Word32) : Except DecodeError Nat :=
  if ext.isEmpty then .ok (f.toNat * 16)
  else if extNegative f ext then .error .negativeLand
  else .ok (extImm f ext).toNat

/-- A register number of a class of 32 in a 6-bit field. -/
def cls32 (r : BitVec 6) : Except DecodeError (BitVec 5) :=
  if r.toNat < 32 then .ok (r.setWidth 5) else .error .registerOutOfClass
/-- A register number of a class of 16 in a 6-bit field. -/
def cls16 (r : BitVec 6) : Except DecodeError (BitVec 4) :=
  if r.toNat < 16 then .ok (r.setWidth 4) else .error .registerOutOfClass
/-- A mask register number in a 5-bit field. -/
def clsM (r : BitVec 5) : Except DecodeError (BitVec 3) :=
  if r.toNat < 8 then .ok (r.setWidth 3) else .error .registerOutOfClass
/-- A tile number in a 5-bit field. -/
def clsT (r : BitVec 5) : Except DecodeError (BitVec 4) :=
  if r.toNat < 16 then .ok (r.setWidth 4) else .error .registerOutOfClass
/-- A rounding mode (R232). -/
def rmode (rm : BitVec 3) : Except DecodeError (BitVec 3) :=
  if rmOk rm then .ok rm else .error .roundingMode

/-- The instruction, once its limits hold (R37). -/
def limit (i : Instr) : Except DecodeError Instr := if i.wellFormed then .ok i else .error .reservedValue

/-- The NOP word of every slot is 0 (R311). -/
def decodeNop (w : Word32) (ext : List Word32) : Except DecodeError Instr := do
  noExt ext
  need (w == 0) .nonZeroUnused
  return .nop

/-- The S map (R36; R208 to R214, R294 to R301, R310, R356, R388, R398). -/
def decodeS (w : Word32) (ext : List Word32) : Except DecodeError Instr :=
  let d := fld w 20 6
  let a := fld w 14 6
  let b := fld w 8 6
  let v := fld w 5 3
  let fn := fld w 0 5
  let imm := fld w 0 14
  let plain (i : Instr) : Except DecodeError Instr := do
    noExt ext; need (v == 0 && fn == 0) .reservedValue; return i
  let unsigned (f : Bool → Instr) : Except DecodeError Instr := do
    noExt ext; need (v.toNat ≤ 1 && fn == 0) .reservedValue; return f (v == 1)
  let shift (f : BitVec 6 → Instr) : Except DecodeError Instr := do
    noExt ext; need (fld w 6 8 == 0) .reservedValue; return f (fld w 0 6)
  match (fld w 26 6).toNat with
  | 0x00 => decodeNop w ext
  | 0x01 => plain (.add d a b)
  | 0x02 => plain (.sub d a b)
  | 0x03 => plain (.and d a b)
  | 0x04 => plain (.or d a b)
  | 0x05 => plain (.xor d a b)
  | 0x06 => plain (.andn d a b)
  | 0x07 => plain (.shl d a b)
  | 0x08 => plain (.shr d a b)
  | 0x09 => plain (.sar d a b)
  | 0x0A => plain (.rotl d a b)
  | 0x0B => unsigned (.min d a b)
  | 0x0C => unsigned (.max d a b)
  | 0x0D => do
      noExt ext; need (v.toNat ≤ 2 && fn == 0) .reservedValue
      return .mul d a b (v.setWidth 2)
  | 0x0E => unsigned (.div d a b)
  | 0x0F => unsigned (.rem d a b)
  | 0x10 => return .addi d a (extImm imm ext)
  | 0x11 => return .andi d a (extImm imm ext)
  | 0x12 => return .ori d a (extImm imm ext)
  | 0x13 => return .xori d a (extImm imm ext)
  | 0x14 => shift (.shli d a)
  | 0x15 => shift (.shri d a)
  | 0x16 => shift (.sari d a)
  | 0x17 => return .movi d (extImm (fld w 0 20) ext)
  | 0x18 => do
      noExt ext; need (b == 0) .nonZeroUnused; need (v.toNat ≤ 1) .reservedValue
      match fn.toNat with
      | 0 => return .clz d a (v == 1)
      | 1 => return .ctz d a (v == 1)
      | 2 => return .popc d a (v == 1)
      | _ => .error .reservedValue
  | 0x19 => do
      noExt ext; need (b == 0) .nonZeroUnused; need (v.toNat ≤ 2) .reservedValue
      match fn.toNat with
      | 0 => return .sext d a (v.setWidth 2)
      | 1 => return .zext d a (v.setWidth 2)
      | _ => .error .reservedValue
  | 0x1A => do
      noExt ext; need (fld w 13 1 == 0) .nonZeroUnused
      limit (.bfx d a (fld w 12 1 == 1) (fld w 6 6) (fld w 0 6))
  | 0x1B => do
      noExt ext; need (fld w 12 2 == 0) .nonZeroUnused
      limit (.bfi d a (fld w 6 6) (fld w 0 6))
  | 0x1C => do
      noExt ext; need (v == 0 && fn.toNat < 16) .reservedValue
      return .sel d a b (fn.setWidth 4)
  | 0x1D => do
      noExt ext; let p ← cls16 d; need (v == 0 && fn.toNat ≤ 5) .reservedValue
      return .cmp p a b (fn.setWidth 3)
  | 0x1E => do
      let p ← cls16 d; need ((fld w 11 3).toNat ≤ 5) .reservedValue
      return .cmpi p a (fld w 11 3) (extImm (fld w 0 11) ext)
  | 0x1F => do
      noExt ext; let p ← cls16 d; let q ← cls16 a; let r ← cls16 b; need (v == 0) .reservedValue
      match fn.toNat with
      | 0 => return .pand p q r
      | 1 => return .por p q r
      | 2 => return .pxor p q r
      | 3 => return .pandn p q r
      | _ => .error .reservedValue
  | 0x20 => return .br (fld w 22 4) (fld w 21 1 == 1) (extImm (fld w 0 21) ext)
  | 0x21 => return .brl (fld w 22 4) (fld w 21 1 == 1) (extImm (fld w 0 21) ext)
  | 0x22 => do
      need (d == 0) .nonZeroUnused; let r ← cls32 a
      return .jmp r (extImm imm ext)
  | 0x23 => do
      let l ← cls32 d; let r ← cls32 a
      return .jmpl l r (extImm imm ext)
  | 0x24 => do
      need (fld w 23 3 == 0) .nonZeroUnused
      return .bloop (fld w 20 3) (extImm (fld w 0 20) ext)
  | 0x25 => do
      noExt ext; need (fld w 23 3 == 0 && a == 0 && fld w 8 6 == 0) .nonZeroUnused
      return if fld w 22 1 == 0 then .nest (fld w 20 2) (fld w 0 8) else .nestR (fld w 20 2) (fld w 0 8)
  | 0x26 => do
      noExt ext; need (d.toNat ≤ 5) .reservedValue
      return .setn (d.setWidth 3) a imm
  | 0x27 => do
      noExt ext; need (fld w 24 2 == 0 && a == 0 && imm == 0) .nonZeroUnused
      limit (.rotb (fld w 23 1 == 1) (fld w 20 3))
  | 0x28 => do
      noExt ext; need (fn.toNat ≤ 5) .reservedValue
      match v.toNat with
      | 0 => need (b == 0) .nonZeroUnused; return .wfldGet d a (fn.setWidth 3)
      | 1 => return .wfldSet d a b (fn.setWidth 3)
      | 2 => need (b == 0) .nonZeroUnused; return .wfldLvl d a (fn.setWidth 3)
      | _ => .error .reservedValue
  | 0x29 => do
      noExt ext; need (a == 0) .nonZeroUnused; need (fld w 6 8 == 0) .reservedValue
      limit (.krd d (fld w 0 6))
  | 0x2A => do
      noExt ext; need (d == 0) .nonZeroUnused; need (fld w 6 8 == 0) .reservedValue
      limit (.kwr (fld w 0 6) a)
  | 0x2B => do
      noExt ext; need (a == 0 && fld w 5 9 == 0) .nonZeroUnused
      limit (.spawn d (fld w 4 1 == 1) (fld w 0 4))
  | 0x2C => do
      noExt ext; need (d == 0 && a == 0 && fld w 2 12 == 0) .nonZeroUnused
      return .suspend (fld w 0 2)
  | 0x2D => do
      noExt ext; need (d == 0 && a == 0 && imm == 0) .nonZeroUnused
      return .exit
  | 0x2E => do
      need (d == 0) .nonZeroUnused
      return .chkpt a (extImm imm ext)
  | 0x2F => do
      need (d == 0) .nonZeroUnused
      return .trap (extImm (fld w 0 20) ext)
  | 0x30 => do
      noExt ext; need (d == 0 && fld w 15 1 == 0) .nonZeroUnused
      return .brk (fld w 16 4) (fld w 0 15)
  | 0x31 => do
      noExt ext; need (fld w 0 26 == 0) .nonZeroUnused
      return .rett
  | 0x32 => do
      noExt ext; let p ← cls16 d; need (b == 0) .nonZeroUnused; need (fn == 0) .reservedValue
      match v.toNat with
      | 0 => return .lscale p a
      | 1 => let q ← cls16 a; return .lscaleP p q
      | _ => .error .reservedValue
  | _ => .error .unassignedMajor

/-- The A map (R36; R111, R184 to R193, R327, R330). -/
def decodeA (w : Word32) (ext : List Word32) : Except DecodeError Instr :=
  let d := fld w 20 6
  let a := fld w 14 6
  let b := fld w 8 6
  let v := fld w 5 3
  let fn := fld w 0 5
  let imm := fld w 0 14
  let base := fld w 15 5
  let off := fld w 6 9
  let ctl := fld w 0 6
  let w1 := fld w 1 1 == 1
  let fl := fld w 2 1 == 1
  match (fld w 26 6).toNat with
  | 0x00 => decodeNop w ext
  | 0x01 => do
      noExt ext; let x ← cls32 d; let y ← cls32 a; need (v == 0 && fn == 0) .reservedValue
      return .adda x y b
  | 0x02 => do
      let x ← cls32 d; let y ← cls32 a
      return .addai x y (extImm imm ext)
  | 0x03 => do
      noExt ext; need (b == 0) .nonZeroUnused; need (fn == 0) .reservedValue
      match v.toNat with
      | 0 => let x ← cls32 d; return .mova x a
      | 1 => let y ← cls32 a; return .movaToS d y
      | _ => .error .reservedValue
  | 0x04 => do
      let x ← cls32 d
      return .setstep x a (extImm imm ext)
  | 0x05 => do
      need (fld w 25 1 == 0) .nonZeroUnused; let t ← cls32 a
      return .itset (fld w 20 3) (fld w 23 2) t (extImm imm ext)
  | 0x06 => do
      noExt ext; need (fld w 3 3 == 0) .nonZeroUnused
      limit (.ld d base off (fld w 0 2) fl)
  | 0x07 => do
      noExt ext; need (fld w 2 4 == 0) .nonZeroUnused
      return .st d base off (fld w 0 2)
  | 0x08 => do
      noExt ext; let x ← cls32 d; need (ctl == 0) .nonZeroUnused
      return .ldV x base off
  | 0x09 => do
      noExt ext; let x ← cls32 d; need (ctl == 0) .nonZeroUnused
      return .stV x base off
  | 0x0A => do
      let x ← cls32 d; let land ← landCycles ctl ext
      return .ldL x base off land
  | 0x0B => do
      noExt ext
      match (fld w 0 2).toNat with
      | 0 => return .stG d base off (fld w 3 3) fl
      | 1 => let x ← cls32 d; return .stGBlk x base off (fld w 3 3) fl
      | _ => .error .reservedValue
  | 0x0C => do
      noExt ext; need (ctl == 0) .nonZeroUnused
      return .ldD d base off
  | 0x0D => do
      noExt ext; need (ctl == 0) .nonZeroUnused
      return .stD d base off
  | 0x0E => do
      noExt ext; let x ← cls32 d; let y ← cls32 a; let z ← cls32 b
      need (v.toNat ≤ 1 && fld w 3 2 == 0) .reservedValue
      return .gath x y z (v == 1) (fld w 0 3)
  | 0x0F => do
      noExt ext; let x ← cls32 d; let y ← cls32 a; let z ← cls32 b
      need (v.toNat ≤ 1 && fld w 3 2 == 0) .reservedValue
      return .scat x y z (v == 1) (fld w 0 3)
  | 0x10 => do
      noExt ext; need (fld w 4 2 == 0) .reservedValue
      limit (if fld w 0 1 == 0 then .awrOw d base off w1 fl (fld w 3 1 == 1)
        else .awrAdd d base off w1 fl (fld w 3 1 == 1))
  | 0x11 => do
      noExt ext; need (fld w 3 3 == 0 && fld w 0 1 == 0) .reservedValue
      return .axadd d base off w1 fl
  | 0x12 => do
      noExt ext; need (fld w 2 4 == 0 && fld w 0 1 == 0) .reservedValue
      return .axchg d base off w1
  | 0x13 => do
      noExt ext; let y ← cls32 a; need (v.toNat ≤ 1 && fn == 0) .reservedValue
      return .acas d y b (v == 1)
  | 0x14 => do
      noExt ext; need (fld w 5 1 == 0 && fld w 3 1 == 0 && fld w 0 1 == 0) .reservedValue
      limit (.amin d base off w1 fl (fld w 4 1 == 1))
  | 0x15 => do
      noExt ext; need (fld w 5 1 == 0 && fld w 3 1 == 0 && fld w 0 1 == 0) .reservedValue
      limit (.amax d base off w1 fl (fld w 4 1 == 1))
  | 0x16 => do
      noExt ext; need (fld w 2 4 == 0 && fld w 0 1 == 0) .reservedValue
      return .aand d base off w1
  | 0x17 => do
      noExt ext; need (fld w 2 4 == 0 && fld w 0 1 == 0) .reservedValue
      return .aor d base off w1
  | 0x18 => do
      noExt ext; need (fld w 4 2 == 0 && fld w 2 1 == 0 && fld w 0 1 == 0) .reservedValue
      limit (.ald d base off w1 (fld w 3 1 == 1))
  | 0x19 => do
      noExt ext; let x ← cls32 d; need (ctl == 0) .reservedValue
      return .ast x base off
  | 0x1A => do
      noExt ext; need (fld w 3 3 == 0) .nonZeroUnused
      limit (.ldAcq d base off (fld w 0 2) fl)
  | 0x1B => do
      noExt ext; need (fld w 2 4 == 0) .nonZeroUnused
      return .stRel d base off (fld w 0 2)
  | 0x1C => do
      noExt ext; need (fld w 3 3 == 0) .nonZeroUnused
      limit (.ldSc d base off (fld w 0 2) fl)
  | 0x1D => do
      noExt ext; need (fld w 2 4 == 0) .nonZeroUnused
      return .stSc d base off (fld w 0 2)
  | 0x1E => do
      noExt ext; need (d == 0) .nonZeroUnused; let y ← cls32 a
      need (v.toNat ≤ 3 && fn == 0) .reservedValue
      limit (.fenceR y b (v.setWidth 2))
  | 0x1F => do
      noExt ext; need (fld w 0 4 == 0) .nonZeroUnused
      limit (.spill (fld w 4 2) d base off)
  | 0x20 => do
      noExt ext; need (fld w 0 4 == 0) .nonZeroUnused
      limit (.fill (fld w 4 2) d base off)
  | _ => .error .unassignedMajor

/-- The V map (R36; R215 to R226, R238 to R250). -/
def decodeV (w : Word32) (ext : List Word32) : Except DecodeError Instr :=
  let d := fld w 21 5
  let a := fld w 16 5
  let b := fld w 11 5
  let rm := fld w 8 3
  let m := fld w 5 3
  let fn := fld w 0 5
  let sz := fld w 0 2
  let o2 := fld w 2 1 == 1
  let o3 := fld w 3 1 == 1
  let o4 := fld w 4 1 == 1
  let rd := fld w 20 6
  let ra := fld w 14 6
  let rb := fld w 8 6
  let rv := fld w 5 3
  let lane2 (i : Instr) : Except DecodeError Instr := do
    noExt ext; need (rm == 0) .nonZeroUnused; need (fld w 2 3 == 0) .reservedValue; return i
  let arith (f : BitVec 3 → Bool → BitVec 2 → Instr) : Except DecodeError Instr := do
    noExt ext; let r ← rmode rm; need (fld w 3 2 == 0) .reservedValue; return f r o2 sz
  let func (f : Bool → BitVec 2 → Instr) : Except DecodeError Instr := do
    noExt ext; need (b == 0 && rm == 0) .nonZeroUnused; need (fld w 3 2 == 0) .reservedValue; return f o2 sz
  match (fld w 26 6).toNat with
  | 0x00 => decodeNop w ext
  | 0x01 => do
      noExt ext; need (rm == 0) .nonZeroUnused; need (!o4) .reservedValue
      limit (.vadd d a b m sz o2 o3)
  | 0x02 => do
      noExt ext; need (rm == 0) .nonZeroUnused; need (!o4) .reservedValue
      limit (.vsub d a b m sz o2 o3)
  | 0x03 => do
      noExt ext; need (rm == 0) .nonZeroUnused
      limit (.vmul d a b m sz o2 o3 o4)
  | 0x04 => do
      noExt ext; need (rm == 0) .nonZeroUnused; need (!o4 && !o2) .reservedValue
      return .vmin d a b m sz o3
  | 0x05 => do
      noExt ext; need (rm == 0) .nonZeroUnused; need (!o4 && !o2) .reservedValue
      return .vmax d a b m sz o3
  | 0x06 => lane2 (.vand d a b m sz)
  | 0x07 => lane2 (.vor d a b m sz)
  | 0x08 => lane2 (.vxor d a b m sz)
  | 0x09 => lane2 (.vshl d a b m sz)
  | 0x0A => lane2 (.vshr d a b m sz)
  | 0x0B => lane2 (.vsar d a b m sz)
  | 0x0C => do
      noExt ext; let p ← clsM d; need (fld w 2 3 == 0) .reservedValue
      limit (.vcmp p a b m sz rm)
  | 0x0D => lane2 (.vsel d a b m sz)
  | 0x10 => arith (.vfadd d a b m)
  | 0x11 => arith (.vfsub d a b m)
  | 0x12 => arith (.vfmul d a b m)
  | 0x13 => arith (.vfma d a b m)
  | 0x14 => arith (.vfms d a b m)
  | 0x15 => arith (.vfnma d a b m)
  | 0x16 => arith (.vfdiv d a b m)
  | 0x17 => do need (b == 0) .nonZeroUnused; arith (.vfsqrt d a m)
  | 0x18 => lane2 (.vfmin d a b m sz)
  | 0x19 => lane2 (.vfmax d a b m sz)
  | 0x1A => do
      noExt ext; need (rm == 0) .nonZeroUnused; need (!o2) .reservedValue
      match (fld w 3 2).toNat with
      | 0 => return .vfsgnCopy d a b m sz
      | 1 => return .vfsgnNeg d a b m sz
      | 2 => return .vfsgnXor d a b m sz
      | _ => .error .reservedValue
  | 0x1B => do
      noExt ext; let p ← clsM d; need (fld w 3 2 == 0) .reservedValue
      limit (.vfcmp p a b m rm o2 sz)
  | 0x1C => do
      noExt ext; let r ← rmode rm
      limit (.vfcvt d a (fld w 15 1 == 1) (fld w 11 4) r m fn)
  | 0x1D => do
      noExt ext; need (b == 0) .nonZeroUnused; let r ← rmode rm; need (fld w 2 3 == 0) .reservedValue
      return .vfrint d a m r sz
  | 0x1E => do need (b == 0) .nonZeroUnused; lane2 (.vfclass d a m sz)
  | 0x20 => func (.vfexp d a m)
  | 0x21 => func (.vfexp2 d a m)
  | 0x22 => func (.vflog d a m)
  | 0x23 => func (.vflog2 d a m)
  | 0x24 => func (.vfsin d a m)
  | 0x25 => func (.vfcos d a m)
  | 0x26 => func (.vftanh d a m)
  | 0x27 => func (.vfrcp d a m)
  | 0x28 => func (.vfrsq d a m)
  | 0x30 => lane2 (.vperm d a b m sz)
  | 0x31 => do
      noExt ext; let x ← cls32 rd; need (rb == 0) .nonZeroUnused; need (rv.toNat ≤ 3) .reservedValue
      limit (.vbcast x ra (rv.setWidth 2) fn)
  | 0x32 => do
      noExt ext; let x ← cls32 rd; need (rv.toNat ≤ 3 && fn == 0) .reservedValue
      limit (.vins x ra rb (rv.setWidth 2))
  | 0x33 => do
      noExt ext; let y ← cls32 ra; need (fn == 0) .reservedValue
      limit (.vext rd y rb (fld w 5 2) (fld w 7 1 == 1))
  | 0x34 => do
      noExt ext; need (b == 0) .nonZeroUnused; let r ← rmode rm
      match (fld w 3 2).toNat with
      | 0 => return .vredAdd d a m r o2 sz
      | 1 => return .vredMin d a m r o2 sz
      | 2 => return .vredMax d a m r o2 sz
      | _ => .error .reservedValue
  | 0x35 => do
      noExt ext; need (rm == 0 && m == 0) .nonZeroUnused
      match fn.toNat with
      | 0 => return .vdescCopy d a b
      | 1 => return .vdescSet d a b
      | 2 => need (b == 0) .nonZeroUnused; return .vdescGet d a
      | _ => .error .reservedValue
  | 0x36 => do
      noExt ext; need (rm == 0) .nonZeroUnused
      match fn.toNat with
      | 0 => need (m == 0) .nonZeroUnused; return .vscaleRel d a b
      | 1 => limit (.vscaleFit d a m b)
      | _ => .error .reservedValue
  | 0x37 => do
      noExt ext; need (m == 0) .nonZeroUnused
      match fn.toNat with
      | 0 => need (rm == 0) .nonZeroUnused; return .vpackH2b d a b false
      | 1 => need (rm == 0) .nonZeroUnused; return .vpackH2b d a b true
      | 2 => need (rm == 0) .nonZeroUnused; return .vpackW2h d a b false
      | 3 => need (rm == 0) .nonZeroUnused; return .vpackW2h d a b true
      | 4 => need (rm == 0) .nonZeroUnused; return .vpackD2w d a b false
      | 5 => need (rm == 0) .nonZeroUnused; return .vpackD2w d a b true
      | 8 => need (rm.toNat ≤ 1) .nonZeroUnused; return .vpackT2 d a b (rm == 1)
      | _ => .error .reservedValue
  | 0x38 => do
      noExt ext; need (b == 0 && m == 0) .nonZeroUnused
      let part : Except DecodeError Bool := do need (rm.toNat ≤ 1) .reservedValue; return rm == 1
      match fn.toNat with
      | 0 => let p ← part; return .vunpackB2h d a p false
      | 1 => let p ← part; return .vunpackB2h d a p true
      | 2 => let p ← part; return .vunpackH2w d a p false
      | 3 => let p ← part; return .vunpackH2w d a p true
      | 4 => let p ← part; return .vunpackW2d d a p false
      | 5 => let p ← part; return .vunpackW2d d a p true
      | 8 => need (rm.toNat ≤ 3) .reservedValue; return .vunpackT2 d a (rm.setWidth 2)
      | _ => .error .reservedValue
  | 0x39 => do
      noExt ext
      match fn.toNat with
      | 0 => need (b == 0 && rm == 0) .nonZeroUnused; return .vfxsSplitLo d a m
      | 1 => need (b == 0 && rm == 0) .nonZeroUnused; return .vfxsSplitHi d a m
      | 2 => need (m == 0) .nonZeroUnused; let r ← rmode rm; return .vfxsJoin d a b r false
      | 3 => need (m == 0) .nonZeroUnused; let r ← rmode rm; return .vfxsJoin d a b r true
      | _ => .error .reservedValue
  | 0x3A => do
      noExt ext; need (b == 0 && rm == 0) .nonZeroUnused; need (fld w 2 3 == 0) .reservedValue
      limit (.vmov d a m sz)
  | 0x3B => do
      noExt ext; need (rm == 0 && m == 0) .nonZeroUnused
      match fn.toNat with
      | 0 => let x ← clsM d; let y ← clsM a; let z ← clsM b; return .mlogAnd x y z
      | 1 => let x ← clsM d; let y ← clsM a; let z ← clsM b; return .mlogOr x y z
      | 2 => let x ← clsM d; let y ← clsM a; let z ← clsM b; return .mlogXor x y z
      | 3 => let x ← clsM d; let y ← clsM a; let z ← clsM b; return .mlogAndn x y z
      | 4 => need (b == 0) .nonZeroUnused; let x ← clsM d; let y ← clsM a; return .mlogNot x y
      | 5 => need (b == 0) .nonZeroUnused; let x ← clsM d; return .mlogFromv x a
      | 6 => need (b == 0) .nonZeroUnused; let y ← clsM a; return .mlogTov d y
      | 7 => need (b == 0) .nonZeroUnused; let x ← clsM d; let y ← clsM a; return .mlogIso x y
      | _ => .error .reservedValue
  | _ => .error .unassignedMajor

/-- The M map (R36; R195, R263 to R272). -/
def decodeM (w : Word32) (ext : List Word32) : Except DecodeError Instr :=
  let op1 := fld w 20 6
  let op2 := fld w 14 6
  let op3 := fld w 8 6
  let ctl := fld w 0 8
  let acc := fld w 21 5
  let sa := fld w 14 7
  let sb := fld w 7 7
  let fmt := fld w 3 4
  let flags := fld w 0 3
  let base := fld w 15 5
  let off := fld w 6 9
  match (fld w 26 6).toNat with
  | 0x00 => decodeNop w ext
  | 0x01 => do
      noExt ext; need (op2 == 0 && op3 == 0 && fld w 7 1 == 0) .nonZeroUnused
      return .oclaim op1 (fld w 0 7)
  | 0x02 => do
      noExt ext; need (op2 == 0 && op3 == 0 && fld w 7 1 == 0) .nonZeroUnused
      return .ofree op1 (fld w 0 7)
  | 0x03 => do
      noExt ext; need (fld w 1 5 == 0) .nonZeroUnused
      return .oload (fld w 0 1 ++ op1) base off
  | 0x04 => do
      noExt ext; let x ← cls32 op1; need (fld w 0 6 == 0) .nonZeroUnused
      return .oread x base off
  | 0x05 => do
      noExt ext; let t ← clsT acc
      match fmt.toNat with
      | 1 => let r ← rmode flags; return .mmaFp64 t sa sb r
      | 2 | 3 | 4 => need (flags == 0) .nonZeroUnused; return .mmaFloat t sa sb fmt
      | 5 | 6 => need (fld w 1 2 == 0) .nonZeroUnused; return .mmaKf8 t sa sb fmt (fld w 0 1 == 1)
      | 7 => need (fld w 0 1 == 0) .nonZeroUnused; return .mmaInt8 t sa sb (fld w 1 1 == 1) (fld w 2 1 == 1)
      | _ => .error .reservedValue
  | 0x06 => do
      noExt ext; let t ← clsT acc
      limit (.mmas t sa sb fmt (fld w 0 2) (fld w 2 1 == 1))
  | 0x07 => do
      noExt ext; let t ← clsT acc; need (fmt == 0xB) .reservedValue; need (fld w 1 2 == 0) .nonZeroUnused
      limit (.mmat t sa sb (fld w 0 1 == 1))
  | 0x08 => do
      noExt ext; let t ← clsT acc
      need (fld w 18 3 == 0 && sb == 0 && fmt == 0 && fld w 2 1 == 0) .nonZeroUnused
      limit (.aclr t (fld w 14 4) (fld w 0 2))
  | 0x09 => do
      noExt ext; let t ← cls16 op1; need (fld w 5 3 == 0) .nonZeroUnused
      match (fld w 0 2).toNat with
      | 0 => need (fld w 2 3 == 0) .nonZeroUnused; return .adrain t op2 op3
      | 1 => need (fld w 2 3 == 0) .nonZeroUnused; return .adrainO t op2 op3
      | 2 => return .adrainP t op2 op3 (fld w 2 3)
      | _ => .error .reservedValue
  | 0x0A => do
      noExt ext; need (op2 == 0 && op3 == 0 && fld w 6 2 == 0) .nonZeroUnused
      match (fld w 4 2).toNat with
      | 0 => need (op1 == 0) .nonZeroUnused; return .await (fld w 0 4)
      | 1 => need (fld w 0 4 == 0) .nonZeroUnused; return .awaitM op1
      | 2 => need (op1 == 0 && fld w 0 4 == 0) .nonZeroUnused; return .awaitAll
      | _ => .error .reservedValue
  | 0x0B => do
      noExt ext; need (op2 == 0 && op3 == 0 && fld w 4 4 == 0) .nonZeroUnused
      match (fld w 2 2).toNat with
      | 0 => return .ttask op1 (fld w 0 2)
      | 1 => need (op1 == 0 && fld w 0 2 == 0) .nonZeroUnused; return .ttaskHost
      | 2 => need (op1 == 0 && fld w 0 2 == 0) .nonZeroUnused; return .ttaskUnhost
      | _ => .error .reservedValue
  | 0x0C => do
      noExt ext; need (op2 == 0 && op3 == 0 && ctl == 0) .nonZeroUnused
      return .twait op1
  | 0x0D => do
      noExt ext; need (op3 == 0 && ctl == 0) .nonZeroUnused
      return .ostat op1 op2
  | _ => .error .unassignedMajor

/-- The X map (R36; R81, R109, R140, R165, R200, R287, R356). -/
def decodeX (w : Word32) (ext : List Word32) : Except DecodeError Instr :=
  let op1 := fld w 20 6
  let op2 := fld w 14 6
  let op3 := fld w 8 6
  let ctl := fld w 0 8
  let f := fld w 0 3
  let one (i : Instr) : Except DecodeError Instr := do
    noExt ext; need (op2 == 0 && op3 == 0 && fld w 3 5 == 0) .nonZeroUnused; return i
  let zero (i : Instr) : Except DecodeError Instr := do
    noExt ext; need (op1 == 0 && op2 == 0 && op3 == 0) .nonZeroUnused; return i
  match (fld w 26 6).toNat with
  | 0x00 => decodeNop w ext
  | 0x01 => do
      noExt ext; need (fld w 2 6 == 0) .nonZeroUnused
      return .chead op1 op2 op3 (fld w 0 2)
  | 0x02 => do
      noExt ext; need (op2 == 0 && op3 == 0 && fld w 2 6 == 0) .nonZeroUnused
      return .cstat op1 (fld w 0 2)
  | 0x03 => do
      noExt ext; need (op2 == 0 && op3 == 0 && fld w 3 5 == 0) .nonZeroUnused
      return if fld w 2 1 == 0 then .cwmk op1 (fld w 0 2) else .cwmkW op1 (fld w 0 2)
  | 0x04 => do
      need (fld w 4 4 == 0) .nonZeroUnused
      let _ ← zero .nop; limit (.ccancel (fld w 0 4))
  | 0x05 => do
      need (fld w 4 4 == 0) .nonZeroUnused
      let _ ← zero .nop; limit (.qjoin (fld w 0 4))
  | 0x06 => do
      noExt ext; need (op2 == 0 && op3 == 0 && fld w 6 2 == 0) .nonZeroUnused
      limit (.shape op1 (fld w 0 3) (fld w 3 3))
  | 0x07 => do
      need (fld w 3 5 == 0) .nonZeroUnused
      zero (if fld w 2 1 == 0 then .knarm (fld w 0 2) else .knarmD (fld w 0 2))
  | 0x08 => do
      need (fld w 4 4 == 0) .nonZeroUnused
      if fld w 3 1 == 0 then
        noExt ext; need (op2 == 0 && op3 == 0) .nonZeroUnused; return .fbind op1 f
      else zero (.fbindU f)
  | 0x09 => do
      noExt ext; need (op2 == 0 && op3 == 0 && fld w 4 4 == 0) .nonZeroUnused
      return if fld w 3 1 == 0 then .popenOw op1 f else .popenAdd op1 f
  | 0x0A => do need (fld w 3 5 == 0) .nonZeroUnused; zero (.pseal f)
  | 0x0B => one (.papply op1 f)
  | 0x0C => do
      noExt ext; need (op3 == 0 && fld w 2 6 == 0) .nonZeroUnused
      return .papplyG op1 op2 (fld w 0 2)
  | 0x0D => do
      noExt ext; need (op3 == 0 && fld w 3 5 == 0) .nonZeroUnused
      return .pinv op1 op2 f
  | 0x0E => do
      noExt ext; need (op3 == 0 && fld w 3 5 == 0) .nonZeroUnused
      return .pcomm op1 op2 f
  | 0x0F => do
      noExt ext; need (op3 == 0 && fld w 6 2 == 0) .nonZeroUnused
      return .pxpl op1 op2 f (fld w 3 3)
  | 0x10 => do
      noExt ext; need (fld w 3 5 == 0) .nonZeroUnused
      return .pglaze op1 op2 op3 f
  | 0x11 => one (.plift op1 f)
  | 0x12 => one (.pdrop op1 f)
  | 0x13 => do
      need (fld w 4 4 == 0) .nonZeroUnused
      if fld w 3 1 == 0 then
        noExt ext; need (op2 == 0 && op3 == 0) .nonZeroUnused; return .psettle op1 f
      else zero (.psettleAll f)
  | 0x14 => do
      noExt ext; need (op3 == 0 && fld w 5 3 == 0) .nonZeroUnused
      match (fld w 3 2).toNat with
      | 0 => return .pstatP op1 op2 f
      | 1 => need (op2 == 0) .nonZeroUnused; return .pstatF op1 f
      | 2 => need (op2 == 0) .nonZeroUnused; return .pstatA op1 f
      | _ => .error .reservedValue
  | 0x15 => do
      noExt ext; need (op3 == 0 && fld w 3 5 == 0) .nonZeroUnused
      let rot := fld w 2 1 == 1
      match (fld w 0 2).toNat with
      | 0 => need (op2 == 0) .nonZeroUnused; return .larr op1 rot
      | 1 => return .larrN op1 op2 rot
      | 2 => return .larrSet op1 op2 rot
      | _ => return .larrRd op1 op2 rot
  | 0x16 => do
      noExt ext; need (op2 == 0 && op3 == 0 && fld w 2 6 == 0) .nonZeroUnused
      return .lwait op1 (fld w 0 1 == 1) (fld w 1 1 == 1)
  | 0x17 => do
      need (fld w 2 6 == 0) .nonZeroUnused
      match (fld w 0 2).toNat with
      | 0 => noExt ext; need (op3 == 0) .nonZeroUnused; return .lbaseSet op1 op2
      | 1 => zero .lbaseStep
      | _ => .error .reservedValue
  | 0x18 => do
      noExt ext; need (fld w 10 4 == 0) .nonZeroUnused
      limit (.waitany op1 op2 (fld w 8 1 == 1) (fld w 9 1 == 1) ctl)
  | 0x19 => do
      noExt ext; let h ← cls16 op1; need (op3 == 0) .nonZeroUnused
      match ctl.toNat with
      | 0 => return .hset h op2
      | 1 => return .hsetR h op2
      | _ => .error .reservedValue
  | 0x1A => do
      noExt ext; let h ← cls16 op1; need (op3 == 0) .nonZeroUnused
      match ctl.toNat with
      | 0 => return .hwaitData h op2
      | 1 => return .hwaitRoom h op2
      | _ => .error .reservedValue
  | 0x1B => do
      noExt ext; let h ← cls16 op1; need (op3 == 0) .nonZeroUnused
      match ctl.toNat with
      | 0 => return .hadvCons h op2
      | 1 => return .hadvProd h op2
      | _ => .error .reservedValue
  | 0x1C =>
      match ctl.toNat with
      | 0 => zero .dmodeRev
      | 1 => zero .dmodeFwd
      | _ => .error .reservedValue
  | 0x1D =>
      let reg (i : Instr) : Except DecodeError Instr := do
        noExt ext; need (op2 == 0 && op3 == 0) .nonZeroUnused; return i
      match ctl.toNat with
      | 0 => zero .tapeOn
      | 1 => zero .tapeOff
      | 2 => reg (.tapeMark op1)
      | 3 => reg (.tapeUnmark op1)
      | 4 => zero .tapeReset
      | _ => .error .reservedValue
  | 0x1E => do
      noExt ext; need (op2 == 0 && op3 == 0) .nonZeroUnused; need (ctl == 0) .reservedValue
      return .coll op1
  | 0x1F => do
      noExt ext; need (op2 == 0 && op3 == 0) .nonZeroUnused
      match ctl.toNat with
      | 0 => return .pgres op1
      | 1 => return .pgresFail op1
      | 2 => return .pgresInv op1
      | _ => .error .reservedValue
  | _ => .error .unassignedMajor

/-- The decoder of a slot word in a slot, with the surrendered words to its right (R18, R34 to R37). -/
def decodeSlot (slot : Slot) (w : Word32) (ext : List Word32) : Except DecodeError Instr :=
  match slot with
  | .S => decodeS w ext
  | .A => decodeA w ext
  | .V => decodeV w ext
  | .M => decodeM w ext
  | .X => decodeX w ext

/-- The control transfers of R37: BR, BRL, JMP, JMPL, BLOOP, RETT, SUSPEND, EXIT. -/
def Instr.isTransfer : Instr → Bool
  | .br .. | .brl .. | .jmp .. | .jmpl .. | .bloop .. | .rett | .suspend .. | .exit => true
  | _ => false

/-- NEST and NEST.R (R301). -/
def Instr.isNest : Instr → Bool
  | .nest .. | .nestR .. => true
  | _ => false

/-- What the body of a nest may not hold (R301): a control transfer, a NEST, SPAWN, SUSPEND, EXIT or RETT. -/
def Instr.barredFromNest (i : Instr) : Bool :=
  i.isTransfer || i.isNest || (match i with | .spawn .. => true | _ => false)

/-- The a-register that steps when the operation re-issues: the base field of a word of format M (R24, R33). -/
def Instr.baseReg : Instr → Option AReg
  | .ld _ b _ _ _ | .st _ b _ _ | .ldV _ b _ | .stV _ b _ | .ldL _ b _ _ | .stG _ b _ _ _ | .stGBlk _ b _ _ _
  | .ldD _ b _ | .stD _ b _ | .awrOw _ b _ _ _ _ | .awrAdd _ b _ _ _ _ | .axadd _ b _ _ _ | .axchg _ b _ _
  | .amin _ b _ _ _ _ | .amax _ b _ _ _ _ | .aand _ b _ _ | .aor _ b _ _ | .ald _ b _ _ _ | .ast _ b _
  | .ldAcq _ b _ _ _ | .stRel _ b _ _ | .ldSc _ b _ _ _ | .stSc _ b _ _ | .spill _ _ b _ | .fill _ _ b _
  | .oload _ b _ | .oread _ b _ => some b
  | _ => none

/-- The state that a two-bit template field names (R19). -/
def slotStateOf (b : BitVec 2) : SlotState :=
  match b.toNat with
  | 0 => .idle | 1 => .fresh | 2 => .sticky | _ => .surrendered

/-- The template of a header, slots S, A, V, M, X in order (R19). -/
def headerSlots (h : Word32) : List SlotState :=
  [slotStateOf (fld h 30 2), slotStateOf (fld h 28 2), slotStateOf (fld h 26 2), slotStateOf (fld h 24 2),
   slotStateOf (fld h 22 2)]

/-- REP of R19: the repeat count minus 1. -/
def headerRep (h : Word32) : Nat := (fld h 17 5).toNat
/-- The guard predicate of R19. -/
def headerGuard (h : Word32) : PReg := fld h 11 4
/-- The issue stamp of R19. -/
def headerStamp (h : Word32) : Nat := (fld h 0 11).toNat
/-- The scope of R19. -/
def headerScope (h : Word32) : Scope :=
  match (fld h 15 2).toNat with
  | 0 => .core | 1 => .cluster | 2 => .device | _ => .system

/-- R21: slot S is not surrendered, and no slot is surrendered right of an idle or sticky one. -/
def templateOk : SlotState → List SlotState → Bool
  | _, [] => true
  | prev, s :: rest =>
    (s != .surrendered || prev == .fresh || prev == .surrendered) && templateOk s rest

/-- A legal header: R21, and in a deterministic launch the stamp range of R29. -/
def headerCheck (h : Word32) (det : Bool) : Except DecodeError Unit := do
  need (templateOk .idle (headerSlots h)) .illegalTemplate
  need (!det || headerStamp h + headerRep h ≤ 2047) .stampRange

/-- The number of words that follow a header (R16). -/
def headerWords (h : Word32) : Nat :=
  ((headerSlots h).filter fun s => s == .fresh || s == .surrendered).length

/-- The words of the surrendered slots at the head of a list of slot states (R34). -/
def takeExt : List SlotState → List Word32 → List Word32
  | .surrendered :: ss, w :: ws => w :: takeExt ss ws
  | _, _ => []

/-- The operation that each slot of a bundle holds, in slot order: none for idle, sticky and surrendered slots. -/
def bundleWords : List SlotState → List Word32 → List (Option SlotWord)
  | [], _ => []
  | .fresh :: ss, w :: ws => some ⟨w, takeExt ss ws⟩ :: bundleWords ss ws
  | .surrendered :: ss, _ :: ws => none :: bundleWords ss ws
  | _ :: ss, ws => none :: bundleWords ss ws

/-- The lowest-numbered slot whose word fails a check of R37, with the check's name, from slot number `n` up. -/
def firstBadSlot (rep : Nat) : Nat → List (Option SlotWord) → Option (Nat × DecodeError)
  | _, [] => none
  | n, none :: rest => firstBadSlot rep (n + 1) rest
  | n, some sw :: rest =>
    match decodeSlot (Slot.ofIndex n) sw.word sw.ext with
    | .error e => some (n, e)
    | .ok i =>
      if rep != 0 && (i.isTransfer || i.isNest) then some (n, .transferInRepeat)
      else firstBadSlot rep (n + 1) rest

/-- The reading of a bare word: the first slot in template order whose map takes it. A word of the opcode table names no
slot, so a word that several maps take is read by the lowest-numbered slot (DESIGN CHOICE, log entry 2). -/
def firstSlotOf (w : Word32) (ext : List Word32) : Option (Slot × Instr) :=
  match decodeS w ext, decodeA w ext, decodeV w ext, decodeM w ext, decodeX w ext with
  | .ok i, _, _, _, _ => some (.S, i)
  | _, .ok i, _, _, _ => some (.A, i)
  | _, _, .ok i, _, _ => some (.V, i)
  | _, _, _, .ok i, _ => some (.M, i)
  | _, _, _, _, .ok i => some (.X, i)
  | _, _, _, _, _ => none

/-- The 32-bit words above the first of a word of `nbits` bits, the lowest first. -/
def upperWords (nbits w : Nat) : List Word32 :=
  (List.range ((nbits - 1) / 32)).map fun k => BitVec.ofNat 32 (w / 2 ^ (32 * (k + 1)))

/-- The instruction of a table word: its first 32 bits are the slot word, further words are surrendered words. -/
def decodeTableWord (nbits w : Nat) : Option Instr :=
  if nbits = 0 then none else (firstSlotOf (BitVec.ofNat 32 w) (upperWords nbits w)).map (·.2)

/-! The encoder. Each word is written as its fields side by side, most significant first (R33). -/

/-- Format R. -/
def wordR (major d a b : BitVec 6) (v : BitVec 3) (fn : BitVec 5) : Word32 := major ++ d ++ a ++ b ++ v ++ fn
/-- Format I. -/
def wordI (major d a : BitVec 6) (imm : BitVec 14) : Word32 := major ++ d ++ a ++ imm
/-- Format IF. -/
def wordIF (major d a : BitVec 6) (fn3 : BitVec 3) (imm : BitVec 11) : Word32 := major ++ d ++ a ++ fn3 ++ imm
/-- Format W. -/
def wordW (major d : BitVec 6) (imm : BitVec 20) : Word32 := major ++ d ++ imm
/-- Format B. -/
def wordB (major : BitVec 6) (p : BitVec 4) (neg : BitVec 1) (off : BitVec 21) : Word32 := major ++ p ++ neg ++ off
/-- Format M. -/
def wordM (major d : BitVec 6) (base : BitVec 5) (off : BitVec 9) (ctl : BitVec 6) : Word32 :=
  major ++ d ++ base ++ off ++ ctl
/-- Format V. -/
def wordV (major : BitVec 6) (d a b : BitVec 5) (rm m : BitVec 3) (fn : BitVec 5) : Word32 :=
  major ++ d ++ a ++ b ++ rm ++ m ++ fn
/-- Format T. -/
def wordT (major : BitVec 6) (acc : BitVec 5) (a b : BitVec 7) (fmt : BitVec 4) (flags : BitVec 3) : Word32 :=
  major ++ acc ++ a ++ b ++ fmt ++ flags
/-- Format X. -/
def wordX (major op1 op2 op3 : BitVec 6) (ctl : BitVec 8) : Word32 := major ++ op1 ++ op2 ++ op3 ++ ctl

/-- A register number in a 6-bit field. -/
def in6 {n : Nat} (r : BitVec n) : BitVec 6 := r.setWidth 6
/-- A register number in a 5-bit field. -/
def in5 {n : Nat} (r : BitVec n) : BitVec 5 := r.setWidth 5

/-- The surrendered words that the operand V needs above a field of n bits: the least number of 0, 1 or 2 (R34). -/
def encExt (n : Nat) (v : Word64) : List Word32 :=
  if ((v.setWidth n).signExtend 64) == v then []
  else if ((v.setWidth (n + 32)).signExtend 64) == v then [(v >>> n).setWidth 32]
  else [(v >>> n).setWidth 32, ((v.signExtend 128) >>> (n + 32)).setWidth 32]

/-- The low bits of an operand. -/
def encLow (n : Nat) (v : Word64) : BitVec n := v.setWidth n

/-- The land field and the surrendered words of a landing cycle (R34, R47). -/
def encLand (land : Nat) : BitVec 6 × List Word32 :=
  if land % 16 = 0 ∧ land / 16 < 64 then (BitVec.ofNat 6 (land / 16), [])
  else if land < 2 ^ 37 then (BitVec.ofNat 6 land, [BitVec.ofNat 32 (land / 2 ^ 6)])
  else (BitVec.ofNat 6 land, [BitVec.ofNat 32 (land / 2 ^ 6), BitVec.ofNat 32 (land / 2 ^ 38)])

/-- The control bits of the accumulator instructions (R193): [0] ADD, [1] W, [2] F, [3] V, [4] U. -/
def accCtl (add w fl blk u : Bool) : BitVec 6 :=
  0#1 ++ bit1 u ++ bit1 blk ++ bit1 fl ++ bit1 w ++ bit1 add

/-- The function field of the lane instructions (R215): [1:0] SZ, [2] SAT, [3] U, [4] H. -/
def laneFn (sz : BitVec 2) (sat u hi : Bool) : BitVec 5 := bit1 hi ++ bit1 u ++ bit1 sat ++ sz

/-- The slot, the word and the surrendered words of an instruction. An event of the device has none. -/
def encode : Instr → Option (Slot × Word32 × List Word32)
  | .nop => some (.S, 0, [])
  | .add d a b => some (.S, wordR 0x01 d a b 0 0, [])
  | .sub d a b => some (.S, wordR 0x02 d a b 0 0, [])
  | .and d a b => some (.S, wordR 0x03 d a b 0 0, [])
  | .or d a b => some (.S, wordR 0x04 d a b 0 0, [])
  | .xor d a b => some (.S, wordR 0x05 d a b 0 0, [])
  | .andn d a b => some (.S, wordR 0x06 d a b 0 0, [])
  | .shl d a b => some (.S, wordR 0x07 d a b 0 0, [])
  | .shr d a b => some (.S, wordR 0x08 d a b 0 0, [])
  | .sar d a b => some (.S, wordR 0x09 d a b 0 0, [])
  | .rotl d a b => some (.S, wordR 0x0A d a b 0 0, [])
  | .min d a b u => some (.S, wordR 0x0B d a b (0#2 ++ bit1 u) 0, [])
  | .max d a b u => some (.S, wordR 0x0C d a b (0#2 ++ bit1 u) 0, [])
  | .mul d a b part => some (.S, wordR 0x0D d a b (0#1 ++ part) 0, [])
  | .div d a b u => some (.S, wordR 0x0E d a b (0#2 ++ bit1 u) 0, [])
  | .rem d a b u => some (.S, wordR 0x0F d a b (0#2 ++ bit1 u) 0, [])
  | .addi d a v => some (.S, wordI 0x10 d a (encLow 14 v), encExt 14 v)
  | .andi d a v => some (.S, wordI 0x11 d a (encLow 14 v), encExt 14 v)
  | .ori d a v => some (.S, wordI 0x12 d a (encLow 14 v), encExt 14 v)
  | .xori d a v => some (.S, wordI 0x13 d a (encLow 14 v), encExt 14 v)
  | .shli d a n => some (.S, wordI 0x14 d a (0#8 ++ n), [])
  | .shri d a n => some (.S, wordI 0x15 d a (0#8 ++ n), [])
  | .sari d a n => some (.S, wordI 0x16 d a (0#8 ++ n), [])
  | .movi d v => some (.S, wordW 0x17 d (encLow 20 v), encExt 20 v)
  | .clz d a w => some (.S, wordR 0x18 d a 0 (0#2 ++ bit1 w) 0, [])
  | .ctz d a w => some (.S, wordR 0x18 d a 0 (0#2 ++ bit1 w) 1, [])
  | .popc d a w => some (.S, wordR 0x18 d a 0 (0#2 ++ bit1 w) 2, [])
  | .sext d a sz => some (.S, wordR 0x19 d a 0 (0#1 ++ sz) 0, [])
  | .zext d a sz => some (.S, wordR 0x19 d a 0 (0#1 ++ sz) 1, [])
  | .bfx d a u w p => some (.S, wordI 0x1A d a (0#1 ++ bit1 u ++ w ++ p), [])
  | .bfi d a w p => some (.S, wordI 0x1B d a (0#2 ++ w ++ p), [])
  | .sel d a b c => some (.S, wordR 0x1C d a b 0 (in5 c), [])
  | .cmp d a b cc => some (.S, wordR 0x1D (in6 d) a b 0 (in5 cc), [])
  | .cmpi d a cc v => some (.S, wordIF 0x1E (in6 d) a cc (encLow 11 v), encExt 11 v)
  | .pand d a b => some (.S, wordR 0x1F (in6 d) (in6 a) (in6 b) 0 0, [])
  | .por d a b => some (.S, wordR 0x1F (in6 d) (in6 a) (in6 b) 0 1, [])
  | .pxor d a b => some (.S, wordR 0x1F (in6 d) (in6 a) (in6 b) 0 2, [])
  | .pandn d a b => some (.S, wordR 0x1F (in6 d) (in6 a) (in6 b) 0 3, [])
  | .br p neg v => some (.S, wordB 0x20 p (bit1 neg) (encLow 21 v), encExt 21 v)
  | .brl p neg v => some (.S, wordB 0x21 p (bit1 neg) (encLow 21 v), encExt 21 v)
  | .jmp a v => some (.S, wordI 0x22 0 (in6 a) (encLow 14 v), encExt 14 v)
  | .jmpl d a v => some (.S, wordI 0x23 (in6 d) (in6 a) (encLow 14 v), encExt 14 v)
  | .bloop en v => some (.S, wordW 0x24 (in6 en) (encLow 20 v), encExt 20 v)
  | .nest depth1 mask => some (.S, wordI 0x25 (in6 depth1) 0 (0#6 ++ mask), [])
  | .nestR depth1 mask => some (.S, wordI 0x25 (0#3 ++ 1#1 ++ depth1) 0 (0#6 ++ mask), [])
  | .setn dst a imm => some (.S, wordI 0x26 (in6 dst) a imm, [])
  | .rotb z en => some (.S, wordI 0x27 (0#2 ++ bit1 z ++ en) 0 0, [])
  | .wfldGet d a j => some (.S, wordR 0x28 d a 0 0 (in5 j), [])
  | .wfldSet d a b j => some (.S, wordR 0x28 d a b 1 (in5 j), [])
  | .wfldLvl d a j => some (.S, wordR 0x28 d a 0 2 (in5 j), [])
  | .krd d k => some (.S, wordI 0x29 d 0 (0#8 ++ k), [])
  | .kwr k a => some (.S, wordI 0x2A 0 a (0#8 ++ k), [])
  | .spawn r own cl => some (.S, wordI 0x2B r 0 (0#9 ++ bit1 own ++ cl), [])
  | .suspend prio => some (.S, wordI 0x2C 0 0 (0#12 ++ prio), [])
  | .exit => some (.S, wordI 0x2D 0 0 0, [])
  | .chkpt a v => some (.S, wordI 0x2E 0 a (encLow 14 v), encExt 14 v)
  | .trap v => some (.S, wordW 0x2F 0 (encLow 20 v), encExt 20 v)
  | .brk holds id => some (.S, wordW 0x30 0 (holds ++ 0#1 ++ id), [])
  | .rett => some (.S, wordR 0x31 0 0 0 0 0, [])
  | .lscale d a => some (.S, wordR 0x32 (in6 d) a 0 0 0, [])
  | .lscaleP d a => some (.S, wordR 0x32 (in6 d) (in6 a) 0 1 0, [])
  | .adda d a b => some (.A, wordR 0x01 (in6 d) (in6 a) b 0 0, [])
  | .addai d a v => some (.A, wordI 0x02 (in6 d) (in6 a) (encLow 14 v), encExt 14 v)
  | .mova d a => some (.A, wordR 0x03 (in6 d) a 0 0 0, [])
  | .movaToS d a => some (.A, wordR 0x03 d (in6 a) 0 1 0, [])
  | .setstep d a v => some (.A, wordI 0x04 (in6 d) a (encLow 14 v), encExt 14 v)
  | .itset n k t v => some (.A, wordI 0x05 (0#1 ++ k ++ n) (in6 t) (encLow 14 v), encExt 14 v)
  | .ld d base off sz sx => some (.A, wordM 0x06 d base off (0#3 ++ bit1 sx ++ sz), [])
  | .st d base off sz => some (.A, wordM 0x07 d base off (in6 sz), [])
  | .ldV d base off => some (.A, wordM 0x08 (in6 d) base off 0, [])
  | .stV d base off => some (.A, wordM 0x09 (in6 d) base off 0, [])
  | .ldL d base off land => some (.A, wordM 0x0A (in6 d) base off (encLand land).1, (encLand land).2)
  | .stG d base off f acc => some (.A, wordM 0x0B d base off (f ++ bit1 acc ++ 0#2), [])
  | .stGBlk d base off f acc => some (.A, wordM 0x0B (in6 d) base off (f ++ bit1 acc ++ 1#2), [])
  | .ldD d base off => some (.A, wordM 0x0C d base off 0, [])
  | .stD d base off => some (.A, wordM 0x0D d base off 0, [])
  | .gath d a b dw m => some (.A, wordR 0x0E (in6 d) (in6 a) (in6 b) (0#2 ++ bit1 dw) (in5 m), [])
  | .scat d a b dw m => some (.A, wordR 0x0F (in6 d) (in6 a) (in6 b) (0#2 ++ bit1 dw) (in5 m), [])
  | .awrOw d base off w fl blk => some (.A, wordM 0x10 d base off (accCtl false w fl blk false), [])
  | .awrAdd d base off w fl blk => some (.A, wordM 0x10 d base off (accCtl true w fl blk false), [])
  | .axadd d base off w fl => some (.A, wordM 0x11 d base off (accCtl false w fl false false), [])
  | .axchg d base off w => some (.A, wordM 0x12 d base off (accCtl false w false false false), [])
  | .acas d a b w => some (.A, wordR 0x13 d (in6 a) b (0#2 ++ bit1 w) 0, [])
  | .amin d base off w fl u => some (.A, wordM 0x14 d base off (accCtl false w fl false u), [])
  | .amax d base off w fl u => some (.A, wordM 0x15 d base off (accCtl false w fl false u), [])
  | .aand d base off w => some (.A, wordM 0x16 d base off (accCtl false w false false false), [])
  | .aor d base off w => some (.A, wordM 0x17 d base off (accCtl false w false false false), [])
  | .ald d base off w blk => some (.A, wordM 0x18 d base off (accCtl false w false blk false), [])
  | .ast d base off => some (.A, wordM 0x19 (in6 d) base off 0, [])
  | .ldAcq d base off sz sx => some (.A, wordM 0x1A d base off (0#3 ++ bit1 sx ++ sz), [])
  | .stRel d base off sz => some (.A, wordM 0x1B d base off (in6 sz), [])
  | .ldSc d base off sz sx => some (.A, wordM 0x1C d base off (0#3 ++ bit1 sx ++ sz), [])
  | .stSc d base off sz => some (.A, wordM 0x1D d base off (in6 sz), [])
  | .fenceR a b kinds => some (.A, wordR 0x1E 0 (in6 a) b (0#1 ++ kinds) 0, [])
  | .spill cls d base off => some (.A, wordM 0x1F d base off (cls ++ 0#4), [])
  | .fill cls d base off => some (.A, wordM 0x20 d base off (cls ++ 0#4), [])
  | .vadd d a b m sz sat u => some (.V, wordV 0x01 d a b 0 m (laneFn sz sat u false), [])
  | .vsub d a b m sz sat u => some (.V, wordV 0x02 d a b 0 m (laneFn sz sat u false), [])
  | .vmul d a b m sz sat u hi => some (.V, wordV 0x03 d a b 0 m (laneFn sz sat u hi), [])
  | .vmin d a b m sz u => some (.V, wordV 0x04 d a b 0 m (laneFn sz false u false), [])
  | .vmax d a b m sz u => some (.V, wordV 0x05 d a b 0 m (laneFn sz false u false), [])
  | .vand d a b m sz => some (.V, wordV 0x06 d a b 0 m (in5 sz), [])
  | .vor d a b m sz => some (.V, wordV 0x07 d a b 0 m (in5 sz), [])
  | .vxor d a b m sz => some (.V, wordV 0x08 d a b 0 m (in5 sz), [])
  | .vshl d a b m sz => some (.V, wordV 0x09 d a b 0 m (in5 sz), [])
  | .vshr d a b m sz => some (.V, wordV 0x0A d a b 0 m (in5 sz), [])
  | .vsar d a b m sz => some (.V, wordV 0x0B d a b 0 m (in5 sz), [])
  | .vcmp d a b m sz cc => some (.V, wordV 0x0C (in5 d) a b cc m (in5 sz), [])
  | .vsel d a b m sz => some (.V, wordV 0x0D d a b 0 m (in5 sz), [])
  | .vfadd d a b m rm cl fmt => some (.V, wordV 0x10 d a b rm m (0#2 ++ bit1 cl ++ fmt), [])
  | .vfsub d a b m rm cl fmt => some (.V, wordV 0x11 d a b rm m (0#2 ++ bit1 cl ++ fmt), [])
  | .vfmul d a b m rm cl fmt => some (.V, wordV 0x12 d a b rm m (0#2 ++ bit1 cl ++ fmt), [])
  | .vfma d a b m rm cl fmt => some (.V, wordV 0x13 d a b rm m (0#2 ++ bit1 cl ++ fmt), [])
  | .vfms d a b m rm cl fmt => some (.V, wordV 0x14 d a b rm m (0#2 ++ bit1 cl ++ fmt), [])
  | .vfnma d a b m rm cl fmt => some (.V, wordV 0x15 d a b rm m (0#2 ++ bit1 cl ++ fmt), [])
  | .vfdiv d a b m rm cl fmt => some (.V, wordV 0x16 d a b rm m (0#2 ++ bit1 cl ++ fmt), [])
  | .vfsqrt d a m rm cl fmt => some (.V, wordV 0x17 d a 0 rm m (0#2 ++ bit1 cl ++ fmt), [])
  | .vfmin d a b m fmt => some (.V, wordV 0x18 d a b 0 m (in5 fmt), [])
  | .vfmax d a b m fmt => some (.V, wordV 0x19 d a b 0 m (in5 fmt), [])
  | .vfsgnCopy d a b m fmt => some (.V, wordV 0x1A d a b 0 m (in5 fmt), [])
  | .vfsgnNeg d a b m fmt => some (.V, wordV 0x1A d a b 0 m (1#2 ++ 0#1 ++ fmt), [])
  | .vfsgnXor d a b m fmt => some (.V, wordV 0x1A d a b 0 m (2#2 ++ 0#1 ++ fmt), [])
  | .vfcmp d a b m cc sg fmt => some (.V, wordV 0x1B (in5 d) a b cc m (0#2 ++ bit1 sg ++ fmt), [])
  | .vfcvt d a cl src rm part dst => some (.V, wordV 0x1C d a (bit1 cl ++ src) rm part dst, [])
  | .vfrint d a m rm fmt => some (.V, wordV 0x1D d a 0 rm m (in5 fmt), [])
  | .vfclass d a m fmt => some (.V, wordV 0x1E d a 0 0 m (in5 fmt), [])
  | .vfexp d a m cl fmt => some (.V, wordV 0x20 d a 0 0 m (0#2 ++ bit1 cl ++ fmt), [])
  | .vfexp2 d a m cl fmt => some (.V, wordV 0x21 d a 0 0 m (0#2 ++ bit1 cl ++ fmt), [])
  | .vflog d a m cl fmt => some (.V, wordV 0x22 d a 0 0 m (0#2 ++ bit1 cl ++ fmt), [])
  | .vflog2 d a m cl fmt => some (.V, wordV 0x23 d a 0 0 m (0#2 ++ bit1 cl ++ fmt), [])
  | .vfsin d a m cl fmt => some (.V, wordV 0x24 d a 0 0 m (0#2 ++ bit1 cl ++ fmt), [])
  | .vfcos d a m cl fmt => some (.V, wordV 0x25 d a 0 0 m (0#2 ++ bit1 cl ++ fmt), [])
  | .vftanh d a m cl fmt => some (.V, wordV 0x26 d a 0 0 m (0#2 ++ bit1 cl ++ fmt), [])
  | .vfrcp d a m cl fmt => some (.V, wordV 0x27 d a 0 0 m (0#2 ++ bit1 cl ++ fmt), [])
  | .vfrsq d a m cl fmt => some (.V, wordV 0x28 d a 0 0 m (0#2 ++ bit1 cl ++ fmt), [])
  | .vperm d a b m sz => some (.V, wordV 0x30 d a b 0 m (in5 sz), [])
  | .vbcast d a sz fmt => some (.V, wordR 0x31 (in6 d) a 0 (0#1 ++ sz) fmt, [])
  | .vins d a lane sz => some (.V, wordR 0x32 (in6 d) a lane (0#1 ++ sz) 0, [])
  | .vext d a lane sz sx => some (.V, wordR 0x33 d (in6 a) lane (bit1 sx ++ sz) 0, [])
  | .vredAdd d a m rm t fmt => some (.V, wordV 0x34 d a 0 rm m (0#2 ++ bit1 t ++ fmt), [])
  | .vredMin d a m rm t fmt => some (.V, wordV 0x34 d a 0 rm m (1#2 ++ bit1 t ++ fmt), [])
  | .vredMax d a m rm t fmt => some (.V, wordV 0x34 d a 0 rm m (2#2 ++ bit1 t ++ fmt), [])
  | .vdescCopy d a b => some (.V, wordV 0x35 d a b 0 0 0, [])
  | .vdescSet d a b => some (.V, wordV 0x35 d a b 0 0 1, [])
  | .vdescGet d a => some (.V, wordV 0x35 d a 0 0 0 2, [])
  | .vscaleRel d a b => some (.V, wordV 0x36 d a b 0 0 0, [])
  | .vscaleFit d a m fmt => some (.V, wordV 0x36 d a fmt 0 m 1, [])
  | .vpackH2b d a b sat => some (.V, wordV 0x37 d a b 0 0 (0#4 ++ bit1 sat), [])
  | .vpackW2h d a b sat => some (.V, wordV 0x37 d a b 0 0 (1#4 ++ bit1 sat), [])
  | .vpackD2w d a b sat => some (.V, wordV 0x37 d a b 0 0 (2#4 ++ bit1 sat), [])
  | .vpackT2 d a b half => some (.V, wordV 0x37 d a b (0#2 ++ bit1 half) 0 8, [])
  | .vunpackB2h d a part u => some (.V, wordV 0x38 d a 0 (0#2 ++ bit1 part) 0 (0#4 ++ bit1 u), [])
  | .vunpackH2w d a part u => some (.V, wordV 0x38 d a 0 (0#2 ++ bit1 part) 0 (1#4 ++ bit1 u), [])
  | .vunpackW2d d a part u => some (.V, wordV 0x38 d a 0 (0#2 ++ bit1 part) 0 (2#4 ++ bit1 u), [])
  | .vunpackT2 d a part => some (.V, wordV 0x38 d a 0 (0#1 ++ part) 0 8, [])
  | .vfxsSplitLo d a m => some (.V, wordV 0x39 d a 0 0 m 0, [])
  | .vfxsSplitHi d a m => some (.V, wordV 0x39 d a 0 0 m 1, [])
  | .vfxsJoin d a b rm cl => some (.V, wordV 0x39 d a b rm 0 (1#4 ++ bit1 cl), [])
  | .vmov d a m sz => some (.V, wordV 0x3A d a 0 0 m (in5 sz), [])
  | .mlogAnd d a b => some (.V, wordV 0x3B (in5 d) (in5 a) (in5 b) 0 0 0, [])
  | .mlogOr d a b => some (.V, wordV 0x3B (in5 d) (in5 a) (in5 b) 0 0 1, [])
  | .mlogXor d a b => some (.V, wordV 0x3B (in5 d) (in5 a) (in5 b) 0 0 2, [])
  | .mlogAndn d a b => some (.V, wordV 0x3B (in5 d) (in5 a) (in5 b) 0 0 3, [])
  | .mlogNot d a => some (.V, wordV 0x3B (in5 d) (in5 a) 0 0 0 4, [])
  | .mlogFromv d a => some (.V, wordV 0x3B (in5 d) a 0 0 0 5, [])
  | .mlogTov d a => some (.V, wordV 0x3B d (in5 a) 0 0 0 6, [])
  | .mlogIso d a => some (.V, wordV 0x3B (in5 d) (in5 a) 0 0 0 7, [])
  | .oclaim f n1 => some (.M, wordX 0x01 f 0 0 (0#1 ++ n1), [])
  | .ofree f n1 => some (.M, wordX 0x02 f 0 0 (0#1 ++ n1), [])
  | .oload slot base off =>
      some (.M, wordM 0x03 (slot.setWidth 6) base off (0#5 ++ slot.extractLsb' 6 1), [])
  | .oread d base off => some (.M, wordM 0x04 (in6 d) base off 0, [])
  | .mmaFp64 acc a b rm => some (.M, wordT 0x05 (in5 acc) a b 1 rm, [])
  | .mmaFloat acc a b fmt => some (.M, wordT 0x05 (in5 acc) a b fmt 0, [])
  | .mmaKf8 acc a b fmt bx => some (.M, wordT 0x05 (in5 acc) a b fmt (0#2 ++ bit1 bx), [])
  | .mmaInt8 acc a b ua ub => some (.M, wordT 0x05 (in5 acc) a b 7 (bit1 ub ++ bit1 ua ++ 0#1), [])
  | .mmas acc a b fmt ncode bx => some (.M, wordT 0x06 (in5 acc) a b fmt (bit1 bx ++ ncode), [])
  | .mmat acc a b ua => some (.M, wordT 0x07 (in5 acc) a b 0xB (0#2 ++ bit1 ua), [])
  | .aclr acc n1 mode => some (.M, wordT 0x08 (in5 acc) (0#3 ++ n1) 0 0 (0#1 ++ mode), [])
  | .adrain acc a c => some (.M, wordX 0x09 (in6 acc) a c 0, [])
  | .adrainO acc a c => some (.M, wordX 0x09 (in6 acc) a c 1, [])
  | .adrainP acc a c f => some (.M, wordX 0x09 (in6 acc) a c (0#3 ++ f ++ 2#2), [])
  | .await acc => some (.M, wordX 0x0A 0 0 0 (0#4 ++ acc), [])
  | .awaitM m => some (.M, wordX 0x0A m 0 0 0x10, [])
  | .awaitAll => some (.M, wordX 0x0A 0 0 0 0x20, [])
  | .ttask r q => some (.M, wordX 0x0B r 0 0 (0#6 ++ q), [])
  | .ttaskHost => some (.M, wordX 0x0B 0 0 0 4, [])
  | .ttaskUnhost => some (.M, wordX 0x0B 0 0 0 8, [])
  | .twait t => some (.M, wordX 0x0C t 0 0 0, [])
  | .ostat d s => some (.M, wordX 0x0D d s 0 0, [])
  | .chead h w l c => some (.X, wordX 0x01 h w l (0#6 ++ c), [])
  | .cstat d c => some (.X, wordX 0x02 d 0 0 (0#6 ++ c), [])
  | .cwmk d c => some (.X, wordX 0x03 d 0 0 (0#6 ++ c), [])
  | .cwmkW a c => some (.X, wordX 0x03 a 0 0 (1#6 ++ c), [])
  | .ccancel mask => some (.X, wordX 0x04 0 0 0 (0#4 ++ mask), [])
  | .qjoin mask => some (.X, wordX 0x05 0 0 0 (0#4 ++ mask), [])
  | .shape v set field => some (.X, wordX 0x06 v 0 0 (0#2 ++ field ++ set), [])
  | .knarm x => some (.X, wordX 0x07 0 0 0 (0#6 ++ x), [])
  | .knarmD x => some (.X, wordX 0x07 0 0 0 (1#6 ++ x), [])
  | .fbind r f => some (.X, wordX 0x08 r 0 0 (0#5 ++ f), [])
  | .fbindU f => some (.X, wordX 0x08 0 0 0 (1#5 ++ f), [])
  | .popenOw n f => some (.X, wordX 0x09 n 0 0 (0#5 ++ f), [])
  | .popenAdd n f => some (.X, wordX 0x09 n 0 0 (1#5 ++ f), [])
  | .pseal f => some (.X, wordX 0x0A 0 0 0 (0#5 ++ f), [])
  | .papply n f => some (.X, wordX 0x0B n 0 0 (0#5 ++ f), [])
  | .papplyG names frames count1 => some (.X, wordX 0x0C names frames 0 (0#6 ++ count1), [])
  | .pinv p new f => some (.X, wordX 0x0D p new 0 (0#5 ++ f), [])
  | .pcomm p q f => some (.X, wordX 0x0E p q 0 (0#5 ++ f), [])
  | .pxpl p new f g => some (.X, wordX 0x0F p new 0 (0#2 ++ g ++ f), [])
  | .pglaze l t new f => some (.X, wordX 0x10 l t new (0#5 ++ f), [])
  | .plift p f => some (.X, wordX 0x11 p 0 0 (0#5 ++ f), [])
  | .pdrop p f => some (.X, wordX 0x12 p 0 0 (0#5 ++ f), [])
  | .psettle p f => some (.X, wordX 0x13 p 0 0 (0#5 ++ f), [])
  | .psettleAll f => some (.X, wordX 0x13 0 0 0 (1#5 ++ f), [])
  | .pstatP d p f => some (.X, wordX 0x14 d p 0 (0#5 ++ f), [])
  | .pstatF d f => some (.X, wordX 0x14 d 0 0 (1#5 ++ f), [])
  | .pstatA d f => some (.X, wordX 0x14 d 0 0 (2#5 ++ f), [])
  | .larr l rot => some (.X, wordX 0x15 l 0 0 (0#5 ++ bit1 rot ++ 0#2), [])
  | .larrN l v rot => some (.X, wordX 0x15 l v 0 (0#5 ++ bit1 rot ++ 1#2), [])
  | .larrSet l v rot => some (.X, wordX 0x15 l v 0 (0#5 ++ bit1 rot ++ 2#2), [])
  | .larrRd l d rot => some (.X, wordX 0x15 l d 0 (0#5 ++ bit1 rot ++ 3#2), [])
  | .lwait l re rot => some (.X, wordX 0x16 l 0 0 (0#6 ++ bit1 rot ++ bit1 re), [])
  | .lbaseSet b n => some (.X, wordX 0x17 b n 0 0, [])
  | .lbaseStep => some (.X, wordX 0x17 0 0 0 1, [])
  | .waitany d l re rot mask => some (.X, wordX 0x18 d l (0#4 ++ bit1 rot ++ bit1 re) mask, [])
  | .hset h v => some (.X, wordX 0x19 (in6 h) v 0 0, [])
  | .hsetR h d => some (.X, wordX 0x19 (in6 h) d 0 1, [])
  | .hwaitData h c => some (.X, wordX 0x1A (in6 h) c 0 0, [])
  | .hwaitRoom h c => some (.X, wordX 0x1A (in6 h) c 0 1, [])
  | .hadvCons h c => some (.X, wordX 0x1B (in6 h) c 0 0, [])
  | .hadvProd h c => some (.X, wordX 0x1B (in6 h) c 0 1, [])
  | .dmodeRev => some (.X, wordX 0x1C 0 0 0 0, [])
  | .dmodeFwd => some (.X, wordX 0x1C 0 0 0 1, [])
  | .tapeOn => some (.X, wordX 0x1D 0 0 0 0, [])
  | .tapeOff => some (.X, wordX 0x1D 0 0 0 1, [])
  | .tapeMark v => some (.X, wordX 0x1D v 0 0 2, [])
  | .tapeUnmark d => some (.X, wordX 0x1D d 0 0 3, [])
  | .tapeReset => some (.X, wordX 0x1D 0 0 0 4, [])
  | .coll r => some (.X, wordX 0x1E r 0 0 0, [])
  | .pgres t => some (.X, wordX 0x1F t 0 0 0, [])
  | .pgresFail t => some (.X, wordX 0x1F t 0 0 1, [])
  | .pgresInv t => some (.X, wordX 0x1F t 0 0 2, [])
  | _ => none

end Sys2Proof
end

