-- ==== Sys2Proof/Config.lean ====
section
/-! DEFINITION. What the manual leaves open, as constants without a body: nothing in Lean can evaluate one of them or
prove a value of it. A free value is such a constant applied to the counter `State.free`, which the machine reads and
advances, or to the operands it depends on. -/

namespace Sys2Proof.Config

/-- Which of the enabled events comes next: the manual fixes no order between agents (R131, R153, R314). -/
opaque pickEvent : Nat → Nat

/-- What the free values of a deterministic launch are drawn by, from its header and start vector: a launch run again makes the same choices
(R397). -/
opaque detSeed : List (BitVec 64) → Nat

/-- Where a counter of free values stands in a deterministic launch, by the launch's seed, the schedule clock and who draws: a context by its
number in the device, what follows it for the engines, and for the choice of the next event (R397). -/
opaque detDraw : Nat → Nat → Nat → Nat

/-- Whether the data of a landing is late at its cycle: the manual gives bounds only (R88, R173). -/
opaque landingLate : Nat → Bool

/-- Which candidate within the bound of R241 an FP64 or FP32 function instruction returns. -/
opaque functionPick : Nat → Nat

/-- Which TLB entry a full translation unit gives up when a walk fills it (R73). -/
opaque tlbVictim : Nat → Nat

/-- The SHA3-256 digest of the firmware image (R402, R403). -/
opaque firmwareDigest : BitVec 256

/-- The digest of the public key that is fused into the package (R402, R403). -/
opaque fusedKeyDigest : BitVec 256

/-- The ML-DSA-44 signature by the device key over a 256-bit digest: 2,420 bytes of which byte i is given (R403). -/
opaque deviceSignature : BitVec 256 → Nat → BitVec 8

/-- Bytes of a save image that hold nothing: what fills up its sections (R383). -/
opaque imageByte : Nat → Nat → BitVec 8

/-- A 64-bit value that the manual leaves open, fresh for each value of the counter. -/
opaque openWord : Nat → BitVec 64

end Sys2Proof.Config
end

