-- ==== Sys2Proof/Machine/Map.lean ====
section
/-! DEFINITION. Sparse tables as plain data: a list of keys and values with rising keys. Cores, clusters, pages and
frames are held in such tables, and memory is the same with bytes (log entry 4). -/

namespace Sys2Proof.Machine

/-- The value at a key, or the default where no entry stands. -/
def mget {α : Type} (d : α) : List (Nat × α) → Nat → α
  | [], _ => d
  | (k', v) :: m, k => if k = k' then v else mget d m k

/-- The table with a value at a key; keys stay in rising order. -/
def mset {α : Type} : List (Nat × α) → Nat → α → List (Nat × α)
  | [], k, v => [(k, v)]
  | (k', v') :: m, k, v =>
    if k < k' then (k, v) :: (k', v') :: m
    else if k = k' then (k, v) :: m
    else (k', v') :: mset m k v

/-- The table without a key. -/
def merase {α : Type} : List (Nat × α) → Nat → List (Nat × α)
  | [], _ => []
  | (k', v') :: m, k => if k = k' then m else (k', v') :: merase m k

/-- The entry at a key, if one stands. -/
def mfind? {α : Type} : List (Nat × α) → Nat → Option α
  | [], _ => none
  | (k', v) :: m, k => if k = k' then some v else mfind? m k

/-- The keys rise strictly from above `lo`. -/
def mrising {α : Type} : Nat → List (Nat × α) → Bool
  | _, [] => true
  | lo, (k, _) :: m => lo ≤ k && mrising (k + 1) m

/-- The smallest number, at least `n`, among the keys listed, for a search with `fuel` steps; `n + fuel` if none. -/
def firstFree (p : Nat → Bool) : Nat → Nat → Option Nat
  | _, 0 => none
  | n, fuel + 1 => if p n then some n else firstFree p (n + 1) fuel

/-- An element of a list replaced. -/
def lset {α : Type} (l : List α) (i : Nat) (v : α) : List α := l.set i v

/-- A number with bits [hi:lo] of a 64-bit word. -/
def bits (w : Word64) (hi lo : Nat) : Nat := (w.toNat / 2 ^ lo) % 2 ^ (hi + 1 - lo)

/-- Bit `i` of a 64-bit word. -/
def bit (w : Word64) (i : Nat) : Bool := w.getLsbD i

/-- A 64-bit word from a number, modulo 2^64. -/
def w64 (n : Nat) : Word64 := BitVec.ofNat 64 n

/-- A one-bit field at a place of a 64-bit word. -/
def flag (b : Bool) (i : Nat) : Nat := if b then 2 ^ i else 0

end Sys2Proof.Machine
end

