-- ==== Sys2Proof/Machine/State.lean ====
section
/-! DEFINITION. The state of a Kurel as plain data: every register, table, queue and memory that the manual names, the
faults and refusals of a step, and the state after reset. INVENTORY.md lists each field with its rule. -/

namespace Sys2Proof.Machine

/-- Why the machine stops. The Kurel itself never stops: its faults end a launch through the shutter (R373), which is a
next state. -/
inductive Fault where
  /-- The issue latch names an operation that no slot's map takes: raised by `step` when the latch was not filled by a
  bundle's decode. Safe: no issue of the machine fills it so. -/
  | badLatch
deriving DecidableEq, Repr

/-- What has no meaning in this model. -/
inductive Refusal where
  /-- An instruction rejected by name, raised by `exec`. Safe. -/
  | notModelled (mnemonic : String)
deriving DecidableEq, Repr

/-- A vector register's block and its descriptor (R205). -/
structure VVal where
  data : Block := 0
  desc : Desc := 0
deriving DecidableEq, Repr, Inhabited

/-- An iterator: target a-register (a0: unbound), level and byte stride (R184). -/
structure Iter where
  target : AReg := 0
  level : Nat := 0
  stride : Word64 := 0
deriving DecidableEq, Repr, Inhabited

/-- The fields of k-registers that an instruction writes with effect at a later issue (R306, R310). -/
inductive KField where
  | lc | ec | rs | rp | rv | wpos | lb | ldm1 | lrot | spill | spovf | tape | tlim | tpos | dreg | lscale | flags
  | trapDone | trapRep | tpc | ternbad
deriving DecidableEq, Repr, Inhabited

/-- One delayed effect of a slot on its context, with physical register numbers chosen at its own issue (R30, R204). -/
inductive Upd where
  /-- A scalar register. -/
  | s (r : Nat) (v : Word64)
  /-- An address register. -/
  | a (r : Nat) (v : Word64)
  /-- The stride of an address register (R184). -/
  | stride (r : Nat) (v : Word64)
  /-- A vector register with its descriptor. -/
  | v (r : Nat) (x : VVal)
  /-- Lanes of a vector register with its descriptor: the bits of `keep` stay as they are when the result is delivered (R206). -/
  | lanes (r : Nat) (keep : Block) (x : VVal)
  /-- A vector register that is named as destination and left as it is (R31, R190). -/
  | keepV (r : Nat)
  /-- A field of a k-register that is named as destination and has been written at once (R31, R289). -/
  | keepK (f : KField)
  /-- A predicate. -/
  | p (r : Nat) (b : Bool)
  /-- A lane mask. -/
  | m (r : Nat) (v : Word64)
  /-- An iterator (R184). -/
  | iter (n : Nat) (x : Iter)
  /-- A nest count (R300). -/
  | count (n : Nat) (v : Nat)
  /-- A field of a k-register (R310). -/
  | k (f : KField) (v : Word64)
  /-- Bits of kstat cleared by a KWR, all but those that a condition of the same issue sets (R308). -/
  | statClear (bits : Word64)
  /-- Sticky flags ORed into kflags (R236). -/
  | flagsOr (bits : BitVec 6)
  /-- Conditions ORed into kstat (R308). -/
  | statOr (bits : Word64)
  /-- TERN2 codes 0b10 counted into kstat.TERNBAD (R225). -/
  | ternbad (n : Nat)
  /-- A frame register (R113): the record that it is bound to, or none. -/
  | bind (f : Nat) (pa : Option Nat)
deriving DecidableEq, Repr, Inhabited

/-- A result in flight: it becomes visible to issue `due` (R30); `issue` and `slot` decide between results of one
delivery (R31, R32). -/
structure Inflight where
  due : Nat
  issue : Nat
  slot : Nat
  upd : Upd
deriving DecidableEq, Repr, Inhabited

/-- A landing in the sill (R171 to R174): due at cycle `due` of the core's unfrozen clock. -/
structure Landing where
  ctx : Nat
  due : Nat
  issue : Nat
  slot : Nat
  upd : List Upd
  late : Bool
  dead : Bool := false
  /-- The port and window offset of the read response that brings the data (R157). -/
  await : Option (Nat × Nat) := none
deriving DecidableEq, Repr, Inhabited

/-- A result of the snapshot registers with the issues it still needs, and how many issues before the trapped one it came from (R32, R371). -/
structure SnapResult where
  left : Nat
  issueBack : Nat
  slot : Nat
  upd : Upd
deriving DecidableEq, Repr, Inhabited

/-- A landing of the snapshot registers with the cycles it still needs (R371). -/
structure SnapLanding where
  left : Nat
  issueBack : Nat
  slot : Nat
  upd : List Upd
  late : Bool
  await : Option (Nat × Nat) := none
deriving DecidableEq, Repr, Inhabited

/-- The snapshot registers of a context (R371). -/
structure Snapshot where
  results : List SnapResult := []
  landings : List SnapLanding := []
deriving DecidableEq, Repr, Inhabited

/-- A bundle: header, the operations of its five slots, and the address after it. -/
structure Bundle where
  hdr : Word32
  slots : List (Option SlotWord)
  next : Word64
deriving DecidableEq, Repr, Inhabited

/-- The states of R340. -/
inductive RunState where
  | dormant | running | waiting | held
deriving DecidableEq, Repr, Inhabited

/-- A nest in progress (R301 to R305): counts and iterators as read at the NEST's issue. -/
structure Nest where
  rev : Bool
  depth : Nat
  counts : List Nat
  iters : List Iter
  body : Word64
  based : Bool
  bases : List (Nat × Word64)
  point : Nat
  done : Nat
deriving DecidableEq, Repr, Inhabited

/-- The condition that ends an engine wait (R340). -/
inductive WaitCond where
  /-- The access has been performed, at any later cycle (R328, R330). -/
  | performed
  /-- Every earlier access of the context through a port has been acknowledged or answered: those of the kinds selected that touch
  bytes [lo, hi) (R316, R323, R325 note 9). -/
  | acked (lo hi : Nat) (wr rd : Bool)
  /-- The core's unfrozen clock has reached a cycle: the fixed figures of deterministic launches (R331). -/
  | clock (n : Nat)
  /-- The response to a read of a window has come (R157, R328). -/
  | response (port off : Nat)
  /-- A sill entry is free (R172). -/
  | sill
  /-- Bytes [lo, hi) lie below a channel's watermark (R130). -/
  | watermark (chan lo hi : Nat)
  /-- The wheel serves the context (R319), once its earlier accesses have completed at the access's scope, system scope or a narrower one (R329). -/
  | wheel (sys : Bool)
  /-- The command queue has room (R258). -/
  | matQueue
  /-- A slot is ready (R198). -/
  | slotReady (slot : Nat)
  /-- A slot is ready and no in-flight matrix operation names it (R180). -/
  | slotIdle (slot : Nat)
  /-- No tile of the mask is owned (R268). -/
  | tiles (mask : Nat)
  /-- The whole engine is idle (R268). -/
  | engineIdle
  /-- A task queue has room and a tag is not pending (R271). -/
  | taskRoom (queue tag : Nat)
  /-- No task runs on the engine (R271). -/
  | noTask
  /-- A task tag is not pending (R272). -/
  | tag (t : Nat)
  /-- No channel of the mask is walking or in page-wait (R145). -/
  | chansQuiet (mask : Nat)
  /-- A channel's watermark has reached an address, or the channel has stopped (R143). -/
  | mark (chan addr : Nat)
  /-- Latch n of a global core is complete, its arrivals to be consumed or not (R361). -/
  | latch (core n : Nat) (re : Bool)
  /-- Some latch of a list of mask bits and latches is complete (R363). -/
  | anyLatch (core : Nat) (ns : List (Nat × Nat)) (re : Bool)
  /-- A handle has `c` filled slots, or `c` free ones with `room` (R201). -/
  | handle (h c : Nat) (room : Bool)
  /-- A continuation queue has room (R357, R358). -/
  | contRoom (cluster : Nat)
  /-- The die's engine holds fewer than 16 records (R165). -/
  | collRoom
  /-- No glaze of the frame waits for the host (R407). -/
  | glazeDone (frame : Nat)
deriving DecidableEq, Repr, Inhabited

/-- A trap that a slot raises (R364). -/
structure TrapReq where
  slot : Nat
  cause : Nat
  arg0 : Word64
  arg1 : Word64
deriving DecidableEq, Repr, Inhabited

/-- A page that a slot of an issue lacks (R78): the entry that ended the walk, with its level and region. -/
structure PageMiss where
  slot : Nat
  va : Word64
  cls : Nat
  level : Nat
  entry : Nat
  region : Nat
deriving DecidableEq, Repr, Inhabited

/-- A frame record's fields as a binding entered them (R90, R416). -/
structure FrameRec where
  va : Nat := 0
  base : Nat := 0
  dims : Word64 := 0
  layout : BitVec 32 := 0
  clampen : Bool := false
  hglaze : Bool := false
  addok : Bool := false
  diff : Bool := false
  maxdepth : Nat := 0
  fmt : Nat := 0
  clamp : Word64 := 0
  arena : Nat := 0
  arenalen : Nat := 0
  adj : Nat := 0
  adjPa : Nat := 0
  adjoint : Bool := false
deriving DecidableEq, Repr, Inhabited

/-- The states of a pane (R95). -/
inductive PaneState where
  | opened (g x : Nat) | sealed | applied
deriving DecidableEq, Repr, Inhabited

/-- One footprint block of a pane: data, scale, present and cleared bits (R95, R100, R281), with the values below the pane that an apply
event captured (R99). -/
structure PaneBlock where
  idx : Nat
  data : Block
  scale : Int
  present : BitVec 64
  cleared : BitVec 64 := 0
  poison : Bool := false
  pre : Option Block := none
  preScale : Int := 0
  prePoison : Bool := false
deriving DecidableEq, Repr, Inhabited

/-- A pane (R95): its footprint blocks in order of first touch. -/
structure Pane where
  name : Nat
  ow : Bool
  st : PaneState
  blocks : List PaneBlock := []
  negated : Bool := false
  glazed : Bool := false
  inexact : Bool := false
  old : Bool := false
  settle : Bool := false
  implicit : Bool := false
deriving DecidableEq, Repr, Inhabited

/-- A frame: its directory entry, the panes that are not applied, the chain from position 0 up, and the arena blocks of
panes that go only at retirement (R92 to R98, R101). -/
structure Frame where
  info : FrameRec := {}
  loose : List Pane := []
  chain : List Pane := []
  zombie : Nat := 0
  inDir : Bool := false
  /-- Open panes of saved launches, by the time of their save: they stand in the arena until the launch is resumed (R95, R381). -/
  kept : List (Nat × Pane) := []
  /-- Arena blocks that only the retirement of a saved launch frees, by the time of its save (R98). -/
  held : List (Nat × Nat) := []
  glazeWait : Option (Nat × Nat) := none
  /-- A settle of the whole chain has been requested (R120). -/
  settleAll : Bool := false
  /-- Settle requests whose pane has gone before retirement (R120). -/
  settleLost : Nat := 0
deriving DecidableEq, Repr, Inhabited

/-- How an issue ends a context (R358). -/
inductive EndKind where
  | exit
  | suspend (prio : Nat)
deriving DecidableEq, Repr, Inhabited

/-- The one issue in progress: a bundle repetition of context `x` of core `g`, its slots still to execute, and what the
slots executed so far have asked for. A resumed issue holds the slots that had not committed (R25). -/
structure Iss where
  active : Bool := false
  g : Nat := 0
  x : Nat := 0
  hdr : Word32 := 0
  pc : Word64 := 0
  next : Word64 := 0
  rep : Nat := 0
  issue : Nat := 0
  slot : Nat := 0
  cur : SlotWord := ⟨0, []⟩
  pending : List (Nat × SlotWord) := []
  done : List Nat := []
  undone : List (Nat × SlotWord) := []
  /-- Every slot that this attempt executes, for the trace (R394). -/
  work : List (Nat × SlotWord) := []
  fresh : List Nat := []
  granted : List Nat := []
  traps : List TrapReq := []
  brk : Option (Nat × Nat) := none
  walks : List PageMiss := []
  waits : List (Nat × WaitCond) := []
  target : Option Word64 := none
  transferred : Bool := false
  empties : Bool := false
  ends : Option EndKind := none
  stops : Bool := false
  nest : Option Nest := none
  rett : Bool := false
  glazeHold : Option Nat := none
  /-- Frames that the host has let this issue glaze (R407). -/
  glazeOk : List Nat := []
  /-- The block of the read response that ends a wait (R157), or what an SC access has read at its order point (R331). -/
  reply : Option VVal := none
  /-- The mask bit that the end of a slot's WAITANY has chosen (R363). -/
  chosen : List (Nat × Nat) := []
  /-- In a deterministic launch, the cycle up to which the wait of an SC access is padded (R331). -/
  padded : Option Nat := none
  /-- What a SUSPEND of this issue enqueues, as read at its issue (R358). -/
  endRecord : Option (List Word64) := none
  /-- Pages that walks of this issue have found absent: the page upcall follows when the other slots have committed (R370). -/
  absent : List PageMiss := []
  /-- Slots that committed before a walk and have no trace record yet (R394). -/
  unlogged : List (Nat × SlotWord) := []
  /-- The mode in which the slots of this issue execute, where a DMODE of it has changed the context's (R288). -/
  revAs : Option Bool := none
  /-- The frames as they were before slot X, where a lower slot was left to execute (R408). -/
  chains : Option (List (Nat × Frame)) := none
deriving DecidableEq, Repr, Inhabited

/-- The k-registers of a context (R306), by field. -/
structure KRegs where
  kwork : Word64 := 0
  /-- kstat [12:1] as conditions. -/
  stat : Word64 := 0
  ternbad : Nat := 0
  flags : BitVec 6 := 0
  lc : Nat := 0
  ec : Nat := 0
  rs : Nat := 0
  rp : Nat := 0
  rv : Nat := 0
  wpos : Nat := 0
  lb : Nat := 0
  ldm1 : Nat := 0
  lrot : Nat := 0
  spill : Word64 := 0
  spovf : Word64 := 0
  rev : Bool := false
  tapeOn : Bool := false
  tape : Word64 := 0
  tlim : Word64 := 0
  tpos : Word64 := 0
  dreg : Word64 := 0
  lscale : Word64 := 0
  trapIn : Bool := false
  trapRep : Nat := 0
  trapDone : BitVec 5 := 0
  trapSlot : Nat := 0
  trapCause : Nat := 0
  tpc : Word64 := 0
  targ0 : Word64 := 0
  targ1 : Word64 := 0
deriving DecidableEq, Repr, Inhabited

/-- A region of the table of R275, as DMODE.REV read it. -/
structure Region where
  fmt : Nat
  base : Nat
  len : Nat
  adj : Nat
deriving DecidableEq, Repr, Inhabited

/-- An access of a deterministic launch with its declared completion on the core's clock (R331). -/
structure Trail where
  lo : Nat
  hi : Nat
  wr : Bool
  due : Nat
  /-- A push, or a store to a differentiable address (R288). -/
  grad : Bool := false
deriving DecidableEq, Repr, Inhabited

/-- One hardware context (R7, R202). Register files are physical; rotation is in `k` (R204). -/
structure Ctx where
  run : RunState := .dormant
  pc : Word64 := 0
  rep : Nat := 0
  /-- Issues of the context since it started; the next issue has this number. -/
  issueNo : Nat := 0
  s : Vector Word64 64 := Vector.replicate 64 0
  a : Vector Word64 32 := Vector.replicate 32 0
  stride : Vector Word64 32 := Vector.replicate 32 0
  v : Vector VVal 32 := Vector.replicate 32 {}
  p : Vector Bool 16 := (Vector.replicate 16 false).set 0 true
  m : Vector Word64 8 := (Vector.replicate 8 0).set 0 (BitVec.allOnes 64)
  h : Vector Word64 16 := Vector.replicate 16 0
  it : Vector Iter 8 := Vector.replicate 8 {}
  n : Vector (BitVec 32) 4 := Vector.replicate 4 0
  /-- Frame registers: the physical address of the bound record, none when unbound (R92, R113). -/
  f : Vector (Option Nat) 8 := Vector.replicate 8 none
  k : KRegs := {}
  sticky : Vector (Option SlotWord) 5 := Vector.replicate 5 none
  nest : Option Nest := none
  inflight : List Inflight := []
  /-- Registers that have received a result since the last issue, with the issue that it came from (R32, R174). -/
  landed : List ((Nat × Nat) × Nat) := []
  snap : Option Snapshot := none
  /-- What the trap handler's own issues have left in the snapshot registers, beside what the trapped code has (R371, R379, R407). -/
  handlerSnap : Option Snapshot := none
  /-- The bundle whose repetitions are in progress, with its address: it has been decoded before the first one (R37). -/
  decoded : Option (Word64 × Bundle) := none
  /-- Sticky memories, nest state and unfinished transfer saved at trap entry (R366). -/
  savedSticky : Vector (Option SlotWord) 5 := Vector.replicate 5 none
  savedNest : Option Nest := none
  savedIss : Option Iss := none
  /-- The done mask of a resumed bundle (R25, R391). -/
  redo : Option (BitVec 5) := none
  /-- An issue that waits, is held, or walks, with its slots not yet committed. -/
  resume : Option Iss := none
  release : Bool := false
  /-- Pages whose walk the context waits for (R74). -/
  walks : List PageMiss := []
  /-- Checkpoint table address and the cycle of the last checkpoint or start (R382, R386). -/
  ckpt : Word64 := 0
  ckptAt : Nat := 0
  armed : Bool := false
  /-- The device cycle in which the context last became idle: dormant and not armed (R343). -/
  idleAt : Nat := 0
  stopped : Bool := false
  /-- The context runs a pager upcall (R79). -/
  pager : Bool := false
  /-- The context holds a page upcall's fault: cluster and slot. -/
  waitsFault : Option (Nat × Nat) := none
  /-- The context runs unstamped in a deterministic launch (R343, R354). -/
  unstamped : Bool := false
  /-- The schedule clock from which the next stamp is sought (R351). -/
  dueFrom : Nat := 0
  /-- The device cycle at which the context began to wait (R319). -/
  waitAt : Nat := 0
  /-- Implicit adjoint panes opened since DMODE.REV: adjoint frame records (R281). -/
  implicit : List Nat := []
  regions : List Region := []
  /-- Accesses whose declared completion lies ahead, in deterministic launches (R331). -/
  trail : List Trail := []
deriving DecidableEq, Repr, Inhabited

/-- A shape set (R133). -/
structure ShapeSet where
  dims : Word64 := 0
  stride0 : Word64 := 0
  stride1 : Word64 := 0
  stride2 : Word64 := 0
  stride3 : Word64 := 0
  layout : BitVec 32 := 0
deriving DecidableEq, Repr, Inhabited

/-- A SHAPE write that takes effect at its context's issue `at` (R134). -/
structure ShapeWrite where
  ctx : Nat
  at_ : Nat
  set : Nat
  field : Nat
  value : Word64
deriving DecidableEq, Repr, Inhabited

/-- The channel states of R122. -/
inductive ChanState where
  | idle | walking | parked | pageWait | cancelled
deriving DecidableEq, Repr, Inhabited

/-- Bytes of a sector that has issued its writes and not completed: where they go (accumulator cells, or the storage keys of a place in memory),
their value and descriptor, and a mask of the bytes that have been written early (R131). -/
structure Flight where
  acc : Bool
  keys : List Nat
  n : Nat
  val : Nat
  desc : Desc
  early : Word64 := 0
deriving DecidableEq, Repr, Inhabited

/-- A queued knock (R138). -/
structure Knock where
  kpc : Nat
  karg : Nat
  dst : Word64
deriving DecidableEq, Repr, Inhabited

/-- A copy-engine channel (R122, R130, R141). -/
structure Chan where
  st : ChanState := .idle
  /-- Address of the record it stands on, or that it was given last. -/
  record : Nat := 0
  /-- Address of the record that it completed last since the launch began; 0 for none (R142). -/
  lastDone : Nat := 0
  /-- The record as read (w0 to w7), once it has been reached. -/
  words : Option (List Word64) := none
  issuer : Nat := 0
  /-- The context that started the channel has ended: handle advances aimed at it are discarded (R358). -/
  orphan : Bool := false
  sector : Nat := 0
  /-- Sectors of a remote copy whose packets have been given to the port (R415). -/
  sent : Nat := 0
  /-- Descriptors agreed so far, by destination block, of a gather through a shape set (R137). -/
  agreed : List (Nat × Nat) := []
  /-- A re-stripe record has been read, and its page's migration has not begun (R83). -/
  waitsPage : Bool := false
  /-- The sector that has issued its writes and not completed (R131). -/
  flight : List Flight := []
  /-- A cancellation, with its cause, that waits for sectors already issued (R128, R144). -/
  stopping : Option (Nat × Bool) := none
  wbase : Nat := 0
  wlen : Nat := 0
  wmk : Nat := 0
  /-- Ranges above the watermark that the channel has written since its CHEAD (R130). -/
  written : List (Nat × Nat) := []
  shapes : Vector ShapeSet 8 := Vector.replicate 8 {}
  /-- The page whose walk the channel waits for: address and class (R74). -/
  walk : Option (Word64 × Nat) := none
  /-- The device cycle in which that walk began. -/
  walkAt : Nat := 0
  /-- The page upcall that it waits for: cluster and slot. -/
  fault : Option (Nat × Nat) := none
  saved : Bool := false
  leave : Bool := false
  leaveAsked : Bool := false
  restripe : Option Nat := none
  /-- The knock of the record just completed is on its way to a core of this device, and where the chain then goes on, 0 for its end (R129, R138). -/
  sending : Option (Nat × Knock) := none
  next : Nat := 0
deriving DecidableEq, Repr, Inhabited

/-- The states of an operand-store slot (R179). -/
inductive SlotFill where
  | free | ready | filling
deriving DecidableEq, Repr, Inhabited

/-- An OLOAD in progress: the page-wise sources of its 32 blocks have been translated at issue (R197). -/
structure FillJob where
  addr : Word64
  ctx : Nat
  pc : Word64
  rep : Nat
  blocks : List VVal
  /-- The engine's clock at which the fill ends in a deterministic launch (R88). -/
  due : Nat
deriving DecidableEq, Repr, Inhabited

/-- An operand-store slot: 32 blocks and one descriptor (R179). `holder` 4 is the task scheduler (R271). -/
structure OSlot where
  st : SlotFill := .free
  holder : Nat := 0
  desc : Desc := 0
  data : List Block := []
  /-- What the blocks of an operand fill have agreed on so far: descriptor, and bit 16 for poison (R137). -/
  agreed : Nat := 0
  job : Option FillJob := none
deriving DecidableEq, Repr, Inhabited

/-- The state of an accumulator tile beside its cells (R251, R255). -/
structure Tile where
  mode : Nat := 0
  tscale : Int := 0
  tset : Bool := false
  flags : BitVec 6 := 0
  poison : Bool := false
deriving DecidableEq, Repr, Inhabited

/-- A matrix operation in the command queue or the array (R258, R264). -/
structure MatOp where
  acc : Nat
  a : Nat
  b : Nat
  /-- Format code of R263; 0xB is MMAT. -/
  fmt : Nat
  sparse : Bool
  ncode : Nat
  bx : Bool
  ua : Bool
  ub : Bool
  rm : Nat
  ctx : Nat
  slot : Nat
  pc : Word64
  rep : Nat := 0
  /-- The engine's clock at the issue (R258). -/
  at_ : Nat := 0
  /-- The engine had been without command for 64 or more cycles at the issue (R261). -/
  cold : Bool := false
  /-- The context that issued it has not ended. -/
  live : Bool := true
  task : Bool := false
deriving DecidableEq, Repr, Inhabited

/-- Where a drain writes (R267): memory rows, an operand slot, or a pane. -/
inductive DrainDst where
  | mem (addr : Word64)
  | slot (n : Nat)
  | pane (addr : Word64) (frame : Nat)
deriving DecidableEq, Repr, Inhabited

/-- A drain that waits for the port or runs on it (R258, R267). `pas` are its destination blocks' storage keys. -/
structure Drain where
  acc : Nat
  dst : DrainDst
  ctl : Word64
  ctx : Nat
  slot : Nat
  pc : Word64
  keys : List Nat := []
  paneName : Nat := 0
  rep : Nat := 0
  live : Bool := true
  task : Bool := false
deriving DecidableEq, Repr, Inhabited

/-- A freeze of a core's clock domain (R11, R74, R350, R396). -/
inductive Freeze where
  | late | walk (ctx : Nat) | upcall | trap | log
deriving DecidableEq, Repr, Inhabited

/-- An extent of a task or collective: virtual base, length, and the leaf entry it was translated by (R76). -/
structure Extent where
  va : Nat
  len : Nat
  entry : Word64
  level : Nat
deriving DecidableEq, Repr, Inhabited

/-- A tile task in a queue or running: the record's words and address, its enqueuer (R269, R270). -/
structure Task where
  /-- Which of the tasks that the cluster has taken since power-on: the model's own field, to tell tasks of one record apart. -/
  id : Nat := 0
  words : List Word64
  addr : Nat
  core : Nat
  ctx : Nat
  pc : Word64
  dispatched : Bool := false
  done : Bool := false
  host : Nat := 0
  extents : List Extent := []
  /-- The page of the record, for w6 (R12, R269). -/
  home : Option Extent := none
  built : Bool := false
  /-- The host engine's clock at which the task started running. -/
  startAt : Nat := 0
  leave : Bool := false
  leaveAsked : Bool := false
  fault : Option Nat := none
deriving DecidableEq, Repr, Inhabited

/-- A core (R7): its contexts and the units they share. -/
structure Core where
  ctxs : Vector Ctx 4 := Vector.replicate 4 {}
  /-- Unfrozen cycles since launch start (R171, R352). -/
  clock : Nat := 0
  cur : Nat := 0
  quantum : Nat := 0
  issuedAt : Option Nat := none
  issuedPc : Word64 := 0
  frozen : List Freeze := []
  frozenAt : Nat := 0
  sill : List Landing := []
  chans : Vector Chan 4 := Vector.replicate 4 {}
  shapes : Vector ShapeSet 8 := Vector.replicate 8 {}
  shapeWrites : List ShapeWrite := []
  knocks : List Knock := []
  slots : List (Nat × OSlot) := []
  tiles : Vector Tile 16 := Vector.replicate 16 {}
  queue : List MatOp := []
  array : Option (MatOp × Nat) := none
  drains : List Drain := []
  port : Option (Drain × Nat) := none
  hosting : Bool := false
  scLast : Nat := 3
  scAt : Option Nat := none
  /-- The device cycle and the context of the core's last stamped issue (R353). -/
  stampedAt : Option (Nat × Nat) := none
  /-- The class run in progress: class, bundle, leave sub-flag, first device cycle (R261, R394). -/
  cls : Nat := 4
  clsPc : Word64 := 0
  clsLeave : Bool := false
  clsAt : Nat := 0
  lastPc : Word64 := 0
  idleSince : Nat := 0
  /-- Log records of the core that wait for room (R396). -/
  logq : List (List Word64) := []
  leave : Bool := false
  leaveAsked : Bool := false
deriving DecidableEq, Repr, Inhabited

/-- A TLB entry (R73): the page base, the leaf entry and its level. -/
structure TlbEntry where
  va : Nat
  entry : Word64
  level : Nat
deriving DecidableEq, Repr, Inhabited

/-- A continuation record in a queue (R342) with its enqueue cycle, effective priority and its scope (R344). -/
structure QRec where
  words : List Word64
  prio : Nat
  since : Nat
  ready : Nat
  pager : Bool
  scope : Scope
  suspended : Bool := false
deriving DecidableEq, Repr, Inhabited

/-- A pending-fault slot (R78). -/
structure PFault where
  valid : Bool := false
  gen : Nat := 0
  va : Word64 := 0
  entry : Nat := 0
  level : Nat := 0
  record : Option QRec := none
  waiters : List Who := []
deriving DecidableEq, Repr, Inhabited

/-- Who asks an island's governor for leave (R355). -/
inductive LeaveAsk where
  | engine (g : Nat) | task (queue : Nat) (id : Nat) | burst (g chan : Nat)
deriving DecidableEq, Repr, Inhabited

/-- A cluster's shared units (R8). -/
structure Cluster where
  tlb : List TlbEntry := []
  faults : List (Nat × PFault) := []
  /-- Requesters that wait for a free fault slot (R78). -/
  blocked : List (Who × PageMiss) := []
  released : List Who := []
  conts : List QRec := []
  tasks : Vector (List Task) 4 := Vector.replicate 4 []
  /-- Tasks that the queues have taken so far: the model's own field. -/
  taskNo : Nat := 0
  /-- Pending tags (R270). -/
  tags : List Nat := []
  asks : List LeaveAsk := []
  limit : Nat := 96
  limitNext : Option Nat := none
  hold : Nat := 0
  droopAt : Option Nat := none
deriving DecidableEq, Repr, Inhabited

/-- A posted collective record (R160, R163). -/
structure CollJob where
  words : List Word64
  addr : Nat
  core : Nat
  ctx : Nat
  /-- The engine waits for the signal word (STATE 2), and has found it. -/
  waitsSig : Bool := false
  signalled : Bool := false
  extents : List Extent := []
  built : Bool := false
  /-- INVALID, OVERFLOW, INEXACT and POISON. -/
  flags : BitVec 4 := 0
  fault : Option Nat := none
  /-- Blocks received of each step. -/
  got : List (Nat × Nat) := []
deriving DecidableEq, Repr, Inhabited

/-- A die's collective engine (R8, R163, R412), with the held data packets and the ports they came by. -/
structure CollEngine where
  jobs : List CollJob := []
  running : Option CollJob := none
  held : List (Nat × Packet) := []
deriving DecidableEq, Repr, Inhabited

/-- What sent a packet, for the faults of R156 and R158. -/
inductive Origin where
  | none | chan (g c rec : Nat) | coll (die rec : Nat) | ctx (g x pc : Nat) (addr : Nat)
deriving DecidableEq, Repr, Inhabited

/-- A packet with its origin; `prio` passes the arbiter first (R150). -/
structure OutPacket where
  p : Packet
  origin : Origin
  prio : Bool := false
deriving DecidableEq, Repr, Inhabited

/-- The port states of R149. -/
inductive PortState where
  | down | training | up | retraining
deriving DecidableEq, Repr, Inhabited

/-- A Larzal port (R148 to R156, R413, R414). -/
structure Port where
  failmask : Nat := 0
  st : PortState := .down
  /-- Active lanes. -/
  width : Nat := 0
  half : Nat := 0
  cwt : Nat := 1
  dwt : Nat := 1
  /-- A write of the arbitration register that waits for the next round (R150). -/
  arbNext : Option (Nat × Nat) := none
  replays : Nat := 0
  /-- Packets that wait to be sent for the first time. -/
  sendq : List OutPacket := []
  grantC : Nat := 0
  grantD : Nat := 0
  /-- The channel that was granted last. -/
  lastChan : Nat := 0
  /-- The sender's next sequence number (R413). -/
  seq : Nat := 0
  /-- The replay buffer, oldest first (R152). -/
  unacked : List (Nat × OutPacket) := []
  /-- Packets of the replay buffer that are to be sent again. -/
  resend : List (Nat × OutPacket) := []
  /-- The replay episode under way has resent no packet yet: REPLAYS does not count it (R152). -/
  fresh : Bool := false
  /-- Packets put on the lanes, newest last: what the far end may see. -/
  wire : List Packet := []
  /-- The receiver's expected sequence number. -/
  expected : Nat := 0
  /-- A packet of the other direction has been accepted since training. -/
  ackv : Bool := false
  /-- Packets accepted since the last packet sent with ACKV = 1, and when that was sent. -/
  sinceAck : Nat := 0
  sentAt : Nat := 0
  /-- Replay episodes since ACKSEQ last progressed, and when it did. -/
  episodes : Nat := 0
  progressAt : Nat := 0
  /-- The half that a retraining returns to, 0 while the host has not chosen it (R155), and when it began or ended. -/
  targetHalf : Nat := 0
  since : Nat := 0
  /-- The other end's handshake is awaited (R414). -/
  awaitHand : Bool := false
  /-- Inbound blocks applied in this schedule frame (R394). -/
  digest : List VVal := []
deriving DecidableEq, Repr, Inhabited

/-- A page in migration (R83). -/
structure Migration where
  va : Nat
  level : Nat
  entryPa : Nat
  oldEntry : Word64
  newPa : Nat
  newGeo : Nat
  cutover : Bool
  copied : Nat
  done : Bool := false
  g : Nat
  chan : Nat
deriving DecidableEq, Repr, Inhabited

/-- The agent of the model whose step has raised a fault: one that has faulted steps no more (R375). A context is known by the record itself. -/
inductive FaultSrc where
  | other
  /-- A copy channel of a core. -/
  | chan (g n : Nat)
  /-- The head operation of a core's matrix engine. -/
  | array (g : Nat)
  /-- The fill of an operand slot of a core. -/
  | fill (g n : Nat)
  /-- The tile task that a core hosts. -/
  | host (g : Nat)
  /-- The collective engine of a die. -/
  | coll (d : Nat)
deriving DecidableEq, Repr, Inhabited

/-- A fault of a launch that waits for the shutter (R374). -/
structure FaultRec where
  code : Nat
  gcore : Nat := 0x7FF
  ctx : Nat := 0
  rep : Nat := 0
  slot : Nat := 7
  pc : Word64 := 0
  w2 : Word64 := 0
  w3 : Word64 := 0
  w4 : Word64 := 0
  agent : Nat := 0
  agentNo : Nat := 0
  cycle : Nat := 0
  /-- Whose step has raised it, where the record does not say: the model's own field. -/
  src : FaultSrc := .other
deriving DecidableEq, Repr, Inhabited

/-- A record that waits for the end of its cycle (R394): the core that freezes where there is no room for it (R396), its place among the records of
the cycle, its schedule frame and its words. -/
structure LogEntry where
  core : Option Nat
  rank : Nat
  frame : Nat
  words : List Word64
  /-- The island whose cores' bundles of this cycle follow (R393). -/
  sample : Option Nat := none
deriving DecidableEq, Repr, Inhabited

/-- A launch in progress: the header's words and what start computed (R334 to R336). -/
structure Launch where
  words : List Word64
  /-- Where the status words go: the header in its queue slot, or the header copy of a resumed image (R384). -/
  hdrAddr : Nat
  /-- The device cycle in which the launch was started or resumed (R384). -/
  beganAt : Nat := 0
  /-- Function modes in force (R405). -/
  fmode : Nat := 0
  noreplay : Option Nat := none
  /-- Schedule frames whose end has been dealt with (R394, R396). -/
  framesEnded : Nat := 0
  /-- The schedule has stalled for a full log, and since when (R396). -/
  logStall : Bool := false
  stallAt : Nat := 0
  logDropped : Nat := 0
  tail : Bool := false
  /-- Pre-emption has been asked for, with the save area (R379). -/
  preempt : Bool := false
  savePa : Nat := 0
  /-- The image is written but for what the host copies (R387). -/
  awaitFinish : Bool := false
  /-- The length of the image in 64-byte blocks, for IMGLEN (R383). -/
  imgBlocks : Nat := 0
  /-- The counters of free values and of choices before a deterministic launch gave them its own start (R397): the model's own field. -/
  freeBefore : Option (Nat × Nat) := none
  /-- What a deterministic launch draws its free values by, from its header and start vector (R397): the model's own field. -/
  seed : Nat := 0
  /-- Frame snapshots taken at the first change of the launch (R106). -/
  snaps : List (Nat × Frame) := []
  /-- The shutter has stopped everything, and writes issued before complete: the fault that it acts on, and how many others its cycle had (R373). -/
  shutting : Option (FaultRec × Nat) := none
  /-- The launch retires, and its writes complete (R324, R337). -/
  retiring : Bool := false
deriving DecidableEq, Repr, Inhabited

/-- The status of pre-emption (R378). -/
inductive PState where
  | idle | saving | saved | failed
deriving DecidableEq, Repr, Inhabited

/-- A Kurel. -/
structure State where
  /-- Device cycles since launch start (R319). -/
  cycle : Nat := 0
  /-- The schedule clock (R350). -/
  sclk : Nat := 0
  /-- Core cycles since power was raised, for the timers of the ports: the model's own field. -/
  uptime : Nat := 0
  /-- The cycle of a RETT still belongs to the freeze that it ends (R372): the schedule clock does not count it. -/
  sclkHold : Bool := false
  /-- How many free values have been taken: the model's own field. -/
  free : Nat := 0
  /-- How many choices among the events that may come next have been made: the model's own field. -/
  pick : Nat := 0
  /-- Events that the world outside the package has in store: the model's own field. -/
  inputs : List Instr := []
  iss : Iss := {}
  cores : List (Nat × Core) := []
  clusters : List (Nat × Cluster) := []
  colls : List (Nat × CollEngine) := []
  ports : List (Nat × Port) := []
  /-- Bytes by storage key (R60, R70); an unlisted byte is 0. -/
  mem : List Host.Cell := []
  /-- Block descriptors by storage key div 64 (R56); an unlisted one is 0x0000. -/
  desc : List (Nat × Desc) := []
  /-- Accumulator cells marked poisoned, by physical address (R178). -/
  poisoned : List Nat := []
  frames : List (Nat × Frame) := []
  launch : Option Launch := none
  /-- Records of the cycle that have not been put into the log (R394). -/
  logNow : List LogEntry := []
  faults : List FaultRec := []
  migrations : List Migration := []
  /-- By address of a cancelled record, the descriptors that its gather has agreed on so far (R128, R137). -/
  halted : List (Nat × List (Nat × Nat)) := []
  /-- Reads that have met an uncorrectable error and whose fault has not been raised: it is in the cycle of the read (R57, R377). -/
  struck : List FaultRec := []
  /-- A pre-emption request that came while the launch's start was under way: its save area (R378). -/
  saveWaits : Option Nat := none
  /-- Knocks on their way to a core of this device (R138). -/
  knocksOut : List (Nat × Knock) := []
  lqbase : Nat := 0
  lqtail : Nat := 0
  lqhead : Nat := 0
  /-- The start vector that the running launch was given, and the one held (R333). -/
  svec : Nat := 0
  pend : Option Nat := none
  startDue : Bool := false
  lost : Bool := false
  imglen : Nat := 0
  pstate : PState := .idle
  logctl : Word64 := 0
  logctlNext : Option Word64 := none
  logwr : Nat := 0
  logrd : Nat := 0
  replayref : Nat := 0
  replayrefNext : Option Nat := none
  fmdev : Nat := 0
  fmdevNext : Option Nat := none
  badstk : Nat := 0
  ready : Bool := false
  sigfail : Bool := false
  stage : Nat := 0
  /-- The firmware has set every island to READY (R400, R404). -/
  islandsReady : Bool := false
  geolock : Bool := false
  mecor : Vector Nat 12 := Vector.replicate 12 0
  geo : List (Nat × BitVec 32) := [(0, 0xFFF70000)]
  apertures : List (Nat × Word64) := []
  atnonce : Vector Word64 4 := Vector.replicate 4 0
  atreq : Option Nat := none
  atdone : Bool := false
  /-- The error ring of R406, newest last, at most 64 entries of four words. -/
  errors : List (List Word64) := []
  /-- Messages to the host (R80, R155, R387, R406, R407), newest last. -/
  messages : List (List Word64) := []
deriving DecidableEq, Repr

/-- The machine right after reset: power has been raised, the boot logic has not run, and every register is at its reset
value (R400 to R402; log entries 1 and 3). -/
def State.reset : State := {}

end Sys2Proof.Machine
end

