-- ==== Sys2Proof/Machine/Ops.lean ====
section
/-! DEFINITION. The named operations on a core's and a context's state: reading registers, queueing results (R30 to
R32, R202 to R204), delivering them, and raising faults, traps, page misses and engine waits. -/

namespace Sys2Proof.Machine

/-! ### Cores, contexts and clusters -/

/-- The cluster of global core g (R6). -/
def clusterOf (g : Nat) : Nat := g / 96
/-- The core number of global core g within its cluster (R6). -/
def coreOf (g : Nat) : Nat := g % 96
/-- The die of global core g (R6). -/
def dieOf (g : Nat) : Nat := g / 96 / 4

/-- Word n of the running launch's header; 0 when no launch runs (R334). -/
def State.launchWord (s : State) (n : Nat) : Word64 :=
  match s.launch with
  | some l => l.words.getD n 0
  | none => 0

/-- The launch is deterministic (R334). -/
def State.det (s : State) : Bool := bit (s.launchWord 0) 32

/-- A computing core of a deterministic launch: every core but the service core of its cluster (R10). -/
def computing (g : Nat) : Bool := coreOf g != 95

/-- A core that nothing has happened to since the launch started: its clock has counted every cycle in which it was not frozen. -/
def State.freshCore (s : State) (g : Nat) : Core := { ({} : Core) with clock := if s.det && computing g then s.sclk else s.cycle }

/-- The host link's port (R148). -/
def hostPort : Nat := 12

/-- Core g. -/
def State.core (s : State) (g : Nat) : Core := mget (s.freshCore g) s.cores g
/-- The state with core g replaced. -/
def State.setCore (s : State) (g : Nat) (c : Core) : State := { s with cores := mset s.cores g c }
/-- Change core g. -/
def State.modCore (s : State) (g : Nat) (f : Core → Core) : State := s.setCore g (f (s.core g))
/-- Context x of a core (R7); numbers above 3 name context 0 and do not occur. -/
def Core.ctx (c : Core) (x : Nat) : Ctx := if h : x < 4 then c.ctxs[x] else c.ctxs[0]
/-- The core with context x replaced. -/
def Core.setCtx (c : Core) (x : Nat) (k : Ctx) : Core :=
  if h : x < 4 then { c with ctxs := c.ctxs.set x k } else { c with ctxs := c.ctxs.set 0 k }
/-- Context x of core g. -/
def State.ctx (s : State) (g x : Nat) : Ctx := (s.core g).ctx x
/-- The state with a context replaced. -/
def State.setCtx (s : State) (g x : Nat) (k : Ctx) : State := s.setCore g ((s.core g).setCtx x k)
/-- Change a context. -/
def State.modCtx (s : State) (g x : Nat) (f : Ctx → Ctx) : State := s.setCtx g x (f (s.ctx g x))
/-- A copy-engine channel of a core. -/
def Core.chan (c : Core) (n : Nat) : Chan := if h : n < 4 then c.chans[n] else c.chans[0]
/-- The core with a channel replaced. -/
def Core.setChan (c : Core) (n : Nat) (k : Chan) : Core :=
  if h : n < 4 then { c with chans := c.chans.set n k } else { c with chans := c.chans.set 0 k }
/-- Channel n of core g. -/
def State.chan (s : State) (g n : Nat) : Chan := (s.core g).chan n
/-- The state with a channel replaced. -/
def State.setChan (s : State) (g n : Nat) (k : Chan) : State := s.setCore g ((s.core g).setChan n k)
/-- Change a channel. -/
def State.modChan (s : State) (g n : Nat) (f : Chan → Chan) : State := s.setChan g n (f (s.chan g n))
/-- Operand-store slot n of a core; a slot never claimed is free (R179). -/
def Core.slot (c : Core) (n : Nat) : OSlot := mget {} c.slots n
/-- The core with an operand-store slot replaced. -/
def Core.setSlot (c : Core) (n : Nat) (o : OSlot) : Core := { c with slots := mset c.slots n o }
/-- A tile's state. -/
def Core.tile (c : Core) (t : Nat) : Tile := if h : t < 16 then c.tiles[t] else c.tiles[0]
/-- The core with a tile's state replaced. -/
def Core.setTile (c : Core) (t : Nat) (v : Tile) : Core :=
  if h : t < 16 then { c with tiles := c.tiles.set t v } else { c with tiles := c.tiles.set 0 v }
/-- Cluster c. -/
def State.cluster (s : State) (c : Nat) : Cluster := mget {} s.clusters c
/-- The state with a cluster replaced. -/
def State.setCluster (s : State) (c : Nat) (k : Cluster) : State := { s with clusters := mset s.clusters c k }
/-- Change a cluster. -/
def State.modCluster (s : State) (c : Nat) (f : Cluster → Cluster) : State := s.setCluster c (f (s.cluster c))
/-- A cluster's pending-fault slot. -/
def Cluster.fault (k : Cluster) (n : Nat) : PFault := mget {} k.faults n
/-- The cluster with a pending-fault slot replaced. -/
def Cluster.setFault (k : Cluster) (n : Nat) (f : PFault) : Cluster := { k with faults := mset k.faults n f }
/-- A task queue of a cluster (R270). -/
def Cluster.queue (k : Cluster) (q : Nat) : List Task := if h : q < 4 then k.tasks[q] else k.tasks[0]
/-- The cluster with a task queue replaced. -/
def Cluster.setQueue (k : Cluster) (q : Nat) (l : List Task) : Cluster :=
  if h : q < 4 then { k with tasks := k.tasks.set q l } else { k with tasks := k.tasks.set 0 l }
/-- A die's collective engine. -/
def State.coll (s : State) (d : Nat) : CollEngine := mget {} s.colls d
/-- The state with a collective engine replaced. -/
def State.setColl (s : State) (d : Nat) (e : CollEngine) : State := { s with colls := mset s.colls d e }
/-- A port. -/
def State.port (s : State) (q : Nat) : Port := mget {} s.ports q
/-- The state with a port replaced. -/
def State.setPort (s : State) (q : Nat) (p : Port) : State := { s with ports := mset s.ports q p }
/-- Change a port. -/
def State.modPort (s : State) (q : Nat) (f : Port → Port) : State := s.setPort q (f (s.port q))
/-- A frame by the physical address of its record (R92). -/
def State.frame (s : State) (pa : Nat) : Frame := mget {} s.frames pa
/-- The state with a frame replaced. -/
def State.setFrame (s : State) (pa : Nat) (f : Frame) : State := { s with frames := mset s.frames pa f }

/-- A launch is running (R332). -/
def State.run (s : State) : Bool := s.launch.isSome

/-- The shutter has acted, and waits for writes issued before (R373). -/
def State.shuttingDown (s : State) : Bool := match s.launch with | some l => l.shutting.isSome | none => false

/-- The launch ends: nothing of it starts or goes on, but for writes that it has issued (R324, R337, R373). -/
def State.ending (s : State) : Bool := match s.launch with | some l => l.shutting.isSome || l.retiring | none => false

/-- Change the running launch. -/
def State.modLaunch (s : State) (f : Launch → Launch) : State := { s with launch := s.launch.map f }

/-- What the running deterministic launch draws its free values by (R397). -/
def State.launchSeed (s : State) : Nat := match s.launch with | some l => l.seed | none => 0

/-- The next free value's index, and the state that has taken it. -/
def State.takeFree (s : State) : Nat × State := (s.free, { s with free := s.free + 1 })

/-- The context whose issue is in progress. -/
def State.cur (s : State) : Ctx := s.ctx s.iss.g s.iss.x
/-- Change the context whose issue is in progress. -/
def State.modCur (s : State) (f : Ctx → Ctx) : State := s.modCtx s.iss.g s.iss.x f
/-- Change the issue latch. -/
def State.modIss (s : State) (f : Iss → Iss) : State := { s with iss := f s.iss }

/-! ### Register names (R202 to R204) -/

/-- The physical scalar register of a name. -/
def physS (rs : Nat) (r : SReg) : Nat := if r.toNat < 48 then r.toNat else 48 + (r.toNat - 48 + rs) % 16
/-- The physical predicate of a name. -/
def physP (rp : Nat) (r : PReg) : Nat := if r.toNat < 8 then r.toNat else 8 + (r.toNat - 8 + rp) % 8
/-- The physical vector register of a name. -/
def physV (rv : Nat) (r : VRegNo) : Nat := if r.toNat < 24 then r.toNat else 24 + (r.toNat - 24 + rv) % 8

/-- Element i of a register file, the default beyond its end. -/
def vget {α : Type} {n : Nat} (d : α) (v : Vector α n) (i : Nat) : α := if h : i < n then v[i] else d
/-- A register file with element i replaced. -/
def vset {α : Type} {n : Nat} (v : Vector α n) (i : Nat) (x : α) : Vector α n := if h : i < n then v.set i x else v

/-- Physical scalar register r; s0 reads zero. -/
def Ctx.sPhys (k : Ctx) (r : Nat) : Word64 := if r = 0 then 0 else vget 0 k.s r
/-- Scalar register r under the rotation in force (R204). -/
def Ctx.rdS (k : Ctx) (r : SReg) : Word64 := k.sPhys (physS k.k.rs r)
/-- Address register r; a0 reads zero. -/
def Ctx.rdA (k : Ctx) (r : AReg) : Word64 := if r = 0 then 0 else vget 0 k.a r.toNat
/-- Predicate r; p0 reads true. -/
def Ctx.rdP (k : Ctx) (r : PReg) : Bool := if r = 0 then true else vget false k.p (physP k.k.rp r)
/-- Vector register r with its descriptor. -/
def Ctx.rdV (k : Ctx) (r : VRegNo) : VVal := vget {} k.v (physV k.k.rv r)
/-- Lane mask r; m0 reads all ones. -/
def Ctx.rdM (k : Ctx) (r : MReg) : Word64 := if r = 0 then BitVec.allOnes 64 else vget 0 k.m r.toNat
/-- Handle r. -/
def Ctx.rdH (k : Ctx) (r : HReg) : Word64 := vget 0 k.h r.toNat

/-- Scalar register of the issuing context. -/
def State.rdS (s : State) (r : SReg) : Word64 := s.cur.rdS r
/-- Address register of the issuing context. -/
def State.rdA (s : State) (r : AReg) : Word64 := s.cur.rdA r
/-- Predicate of the issuing context. -/
def State.rdP (s : State) (r : PReg) : Bool := s.cur.rdP r
/-- The issue executes in reverse mode: a DMODE of the same issue applies from the next one on (R288). -/
def State.reverse (s : State) : Bool := s.iss.revAs.getD s.cur.k.rev
/-- Vector register of the issuing context. -/
def State.rdV (s : State) (r : VRegNo) : VVal := s.cur.rdV r
/-- Lane mask of the issuing context. -/
def State.rdM (s : State) (r : MReg) : Word64 := s.cur.rdM r

/-! ### Results in flight (R30 to R32) -/

/-- The number of a k-register field, to tell destinations apart. -/
def KField.index : KField → Nat
  | .lc => 0 | .ec => 1 | .rs => 2 | .rp => 3 | .rv => 4 | .wpos => 5 | .lb => 6 | .ldm1 => 7 | .lrot => 8
  | .spill => 9 | .spovf => 10 | .tape => 11 | .tlim => 12 | .tpos => 13 | .dreg => 14 | .lscale => 15 | .flags => 16
  | .trapDone => 17 | .trapRep => 18 | .tpc => 19 | .ternbad => 20

/-- The destination of an update, for the clash rule of R31: class and number; none for accumulations, which are ORed
together, and for the registers whose writes are discarded. A k-register's fields are destinations of their own: where a KWR of kwany meets an
LBASE or a WAITANY of its issue, only the fields that both write clash (DESIGN CHOICE: log entry 109). -/
def Upd.dest : Upd → Option (Nat × Nat)
  | .s r _ => if r = 0 then none else some (0, r)
  | .a r _ => if r = 0 then none else some (1, r)
  | .v r _ | .lanes r _ _ | .keepV r => some (2, r)
  | .p r _ => if r = 0 then none else some (3, r)
  | .m r _ => if r = 0 then none else some (4, r)
  | .iter n _ => some (5, n)
  | .count n _ => some (6, n)
  | .k f _ => some (7, f.index)
  | .bind f _ => some (8, f)
  | .stride r _ => some (9, r)
  | .keepK f => some (7, f.index)
  | .statClear _ | .flagsOr _ | .statOr _ | .ternbad _ => none

/-- The update writes a register whose writes are discarded (R203). -/
def Upd.discarded : Upd → Bool
  | .s r _ | .a r _ | .p r _ | .m r _ | .stride r _ => r == 0
  | _ => false

/-- kstat bit of a condition (R308). -/
def statBit (n : Nat) : Word64 := w64 (2 ^ n)
/-- kstat.WCLASH (R308). -/
def stWclash : Word64 := statBit 1
/-- kstat.STICKYNONE (R308). -/
def stStickyNone : Word64 := statBit 2
/-- kstat.PGSTALE (R308). -/
def stPgStale : Word64 := statBit 3
/-- kstat.PANENONE (R308). -/
def stPaneNone : Word64 := statBit 4
/-- kstat.CHBUSY (R308). -/
def stChBusy : Word64 := statBit 5
/-- kstat.COLLBUSY (R308). -/
def stCollBusy : Word64 := statBit 6
/-- kstat.POISON (R308). -/
def stPoison : Word64 := statBit 7
/-- kstat.HOVER (R308). -/
def stHover : Word64 := statBit 8
/-- kstat.DIVZ (R308). -/
def stDivz : Word64 := statBit 9
/-- kstat.OBUSY (R308). -/
def stObusy : Word64 := statBit 10
/-- kstat.ONONE (R308). -/
def stOnone : Word64 := statBit 11
/-- kstat.TTBUSY (R308). -/
def stTtBusy : Word64 := statBit 12

/-- Two updates of one issue name the same destination. -/
def clashes (u : Upd) (issue slot : Nat) (e : Inflight) : Bool :=
  e.issue == issue && e.slot != slot && u.dest.isSome && e.upd.dest == u.dest

/-- Queue a result of a context: the write of the lower slot of one issue is suppressed and WCLASH is set (R31). The manual gives no time for
WCLASH: the next issue sees it (DESIGN CHOICE: log entry 126). -/
def Ctx.queue (k : Ctx) (due issue slot : Nat) (u : Upd) : Ctx :=
  if u.discarded then k
  else
    let mine : Inflight := ⟨due, issue, slot, u⟩
    let rivals := k.inflight.filter (clashes u issue slot)
    if rivals.isEmpty then { k with inflight := k.inflight ++ [mine] }
    else
      let wclash : Inflight := ⟨issue + 1, issue, slot, .statOr stWclash⟩
      if rivals.any fun e => slot < e.slot then { k with inflight := k.inflight ++ [wclash] }
      else { k with inflight := k.inflight.filter (fun e => !clashes u issue slot e) ++ [mine, wclash] }

/-- The landing is one of another slot of the issue that executes, and writes the destination of an update. -/
def State.landingClash (s : State) (u : Upd) (l : Landing) : Bool :=
  l.ctx == s.iss.x && l.issue == s.iss.issue && l.slot != s.iss.slot && u.dest.isSome && l.upd.any fun v => v.dest == u.dest

/-- kstat.WCLASH of the issue that executes. -/
def State.setWclash (s : State) : State :=
  s.modCur fun k => { k with inflight := k.inflight ++ [⟨s.iss.issue + 1, s.iss.issue, s.iss.slot, .statOr stWclash⟩] }

/-- The landings of lower slots of this issue to the destination of an update are suppressed, and WCLASH is set (R31). -/
def State.quietLandings (s : State) (u : Upd) : State :=
  let c := s.core s.iss.g
  if c.sill.any (s.landingClash u) then
    let quiet (l : Landing) : Landing :=
      if s.landingClash u l && l.slot < s.iss.slot then { l with upd := l.upd.filter fun v => v.dest != u.dest } else l
    (s.setCore s.iss.g { c with sill := c.sill.map quiet }).setWclash
  else s

/-- A landing of a higher slot of this issue writes the destination of an update, which is suppressed (R31). -/
def State.outranked (s : State) (u : Upd) : Bool :=
  (s.core s.iss.g).sill.any fun l => s.landingClash u l && s.iss.slot < l.slot

/-- Queue a result of the slot that executes, with its exposed latency (R30). -/
def State.emit (s : State) (u : Upd) (lat : Nat) : State :=
  if s.outranked u then s.quietLandings u
  else (s.quietLandings u).modCur fun k => k.queue (s.iss.issue + lat) s.iss.issue s.iss.slot u

/-- s[d] := v with a latency; the physical register is chosen now (R204). -/
def State.putS (s : State) (d : SReg) (v : Word64) (lat : Nat) : State :=
  s.emit (.s (physS s.cur.k.rs d) v) lat
/-- a[d] := v with a latency. -/
def State.putA (s : State) (d : AReg) (v : Word64) (lat : Nat) : State := s.emit (.a d.toNat v) lat
/-- p[d] := b with a latency. -/
def State.putP (s : State) (d : PReg) (b : Bool) (lat : Nat) : State := s.emit (.p (physP s.cur.k.rp d) b) lat
/-- v[d] := x with a latency. -/
def State.putV (s : State) (d : VRegNo) (x : VVal) (lat : Nat) : State := s.emit (.v (physV s.cur.k.rv d) x) lat
/-- Lanes of v[d] with a latency; the bits of `keep` are not written (R206). -/
def State.putPart (s : State) (d : VRegNo) (keep : Block) (x : VVal) (lat : Nat) : State :=
  if keep = 0 then s.putV d x lat else s.emit (.lanes (physV s.cur.k.rv d) keep x) lat
/-- m[d] := v with a latency. -/
def State.putM (s : State) (d : MReg) (v : Word64) (lat : Nat) : State := s.emit (.m d.toNat v) lat
/-- Flags ORed into kflags when the result is delivered (R236); nothing is queued when there are none. -/
def State.putFlags (s : State) (f : BitVec 6) (lat : Nat) : State := if f = 0 then s else s.emit (.flagsOr f) lat
/-- A condition of this issue ORed into kstat (R308). R210, R216 and R225 give no time for it: it is seen from the next issue on, whenever the
result of the instruction comes (DESIGN CHOICE: log entry 126). -/
def State.putStat (s : State) (b : Word64) : State := s.emit (.statOr b) 1
/-- TERN2 codes 0b10 counted into kstat (R225). -/
def State.putTernbad (s : State) (n : Nat) (lat : Nat) : State := if n = 0 then s else s.emit (.ternbad n) lat
/-- A field of a k-register, from the next issue on (R310). -/
def State.putK (s : State) (f : KField) (v : Word64) : State := s.emit (.k f v) 1

/-- Saturate kstat.TERNBAD at 0xFFFF (R308). -/
def satTernbad (n : Nat) : Nat := min n 0xFFFF

/-- A k-register field written (R310). -/
def KRegs.setField (k : KRegs) (f : KField) (v : Word64) : KRegs :=
  match f with
  | .lc => { k with lc := v.toNat % 2 ^ 32 }
  | .ec => { k with ec := v.toNat % 256 }
  | .rs => { k with rs := v.toNat % 16 }
  | .rp => { k with rp := v.toNat % 8 }
  | .rv => { k with rv := v.toNat % 8 }
  | .wpos => { k with wpos := v.toNat % 8 }
  | .lb => { k with lb := v.toNat % 512 }
  | .ldm1 => { k with ldm1 := v.toNat % 128 }
  | .lrot => { k with lrot := v.toNat % 128 }
  | .spill => { k with spill := v }
  | .spovf => { k with spovf := v }
  | .tape => { k with tape := v }
  | .tlim => { k with tlim := v }
  | .tpos => { k with tpos := v }
  | .dreg => { k with dreg := v }
  | .lscale => { k with lscale := v }
  | .flags => { k with flags := v.setWidth 6 }
  | .trapDone => { k with trapDone := v.setWidth 5 }
  | .trapRep => { k with trapRep := v.toNat % 32 }
  | .tpc => { k with tpc := v }
  | .ternbad => { k with ternbad := v.toNat % 65536 }

/-- The update is an accumulation, applied after the writes of its delivery (R31, R236, R308). -/
def Upd.accumulates : Upd → Bool
  | .flagsOr _ | .statOr _ | .ternbad _ => true
  | _ => false

/-- Perform an update. Registers whose writes are discarded keep their stored values (R203). -/
def Ctx.apply (k : Ctx) (u : Upd) : Ctx :=
  match u with
  | .s r v => if r = 0 then k else { k with s := vset k.s r v }
  | .a r v => if r = 0 then k else { k with a := vset k.a r v }
  | .stride r v => if r = 0 then k else { k with stride := vset k.stride r v }
  | .v r x => { k with v := vset k.v r x }
  | .lanes r keep x => { k with v := vset k.v r ⟨((vget {} k.v r).data &&& keep) ||| x.data, x.desc⟩ }
  | .keepV _ | .keepK _ => k
  | .p r b => if r = 0 then k else { k with p := vset k.p r b }
  | .m r v => if r = 0 then k else { k with m := vset k.m r v }
  | .iter n x => { k with it := vset k.it n x }
  | .count n v => { k with n := vset k.n n (BitVec.ofNat 32 v) }
  | .k f v => { k with k := k.k.setField f v }
  | .statClear b => { k with k := { k.k with stat := k.k.stat &&& ~~~b } }
  | .flagsOr b => { k with k := { k.k with flags := k.k.flags ||| b } }
  | .statOr b => { k with k := { k.k with stat := k.k.stat ||| b } }
  | .ternbad n => { k with k := { k.k with ternbad := satTernbad (k.k.ternbad + n) } }
  | .bind f pa => { k with f := vset k.f f pa }

/-- Insert a result behind those of the same or earlier issues. -/
def insertResult (e : Inflight) : List Inflight → List Inflight
  | [] => [e]
  | f :: fs => if e.issue < f.issue then e :: f :: fs else f :: insertResult e fs

/-- Results ordered by issue, so that of several to one register the latest issue's is kept (R32). -/
def byIssue (l : List Inflight) : List Inflight := l.foldl (fun acc e => insertResult e acc) []

/-- A register has received the result of a later issue since the context's last issue (R32). -/
def Ctx.outdated (k : Ctx) (d : Option (Nat × Nat)) (issue : Nat) : Bool :=
  match d with
  | some d => k.landed.any fun e => e.1 == d && issue < e.2
  | none => false

/-- What a landing brings at its cycle (R171): the register receives it, unless a later issue's result has reached it for the same issue of the
context, and an earlier issue's result that the next issue would deliver is dropped (R32, R174). Flags and conditions are ORed at the delivery of the
next issue, after a KWR that is due at it (R236, R308). While an issue of the context waits its registers stand still, and the next issue sees it. -/
def Ctx.receive (k : Ctx) (issue slot : Nat) (u : Upd) : Ctx :=
  if k.resume.isSome then { k with inflight := k.inflight ++ [⟨k.issueNo, issue, slot, u⟩] }
  else if k.outdated u.dest issue then k
  else match u.dest with
    | none => { k with inflight := k.inflight ++ [⟨k.issueNo, issue, slot, u⟩] }
    | some d => { k.apply u with
        landed := k.landed ++ [(d, issue)],
        inflight := k.inflight.filter fun e => !(e.upd.dest == some d && e.issue < issue && e.due ≤ k.issueNo) }

/-- Deliver the results due at issue `n` (R30): writes first, by issue, then accumulations. -/
def Ctx.deliver (k : Ctx) (n : Nat) : Ctx :=
  let dueNow := byIssue (k.inflight.filter fun e => e.due ≤ n)
  let k := { k with inflight := k.inflight.filter fun e => !(e.due ≤ n) }
  let k := (dueNow.filter fun e => !e.upd.accumulates).foldl (fun k e => k.apply e.upd) k
  (dueNow.filter fun e => e.upd.accumulates).foldl (fun k e => k.apply e.upd) k

/-! ### Landings (R171 to R174) -/

/-- Entries of the sill (R172). -/
def sillSize : Nat := 256

/-- The result of a higher slot of this issue, exposed or landing, writes the destination of an update. -/
def State.beaten (s : State) (u : Upd) : Bool :=
  s.outranked u || s.cur.inflight.any fun e => clashes u s.iss.issue s.iss.slot e && s.iss.slot < e.slot

/-- The exposed results of lower slots of this issue to the destinations of a landing are suppressed; WCLASH is set where a slot of this issue
clashes with it (R31). -/
def State.quietResults (s : State) (us : List Upd) : State :=
  let rival (e : Inflight) : Bool := us.any fun u => clashes u s.iss.issue s.iss.slot e
  if s.cur.inflight.any rival then
    (s.modCur fun k => { k with inflight := k.inflight.filter fun e => !(rival e && e.slot < s.iss.slot) }).setWclash
  else s

/-- A landing of the slot that executes: it takes a sill entry and arrives `lat` cycles of the core's clock later. Of the results and landings
of one issue to a register the highest slot's is kept; a landing that has lost its register keeps its entry (R31). -/
def State.land (s : State) (us : List Upd) (lat : Nat) (late : Bool) (await : Option (Nat × Nat) := none) : State :=
  let mine := us.filter fun u => !s.beaten u
  let s := us.foldl State.quietLandings (s.quietResults us)
  let c := s.core s.iss.g
  s.setCore s.iss.g { c with sill := c.sill ++ [⟨s.iss.x, c.clock + lat, s.iss.issue, s.iss.slot, mine, late, false, await⟩] }

/-! ### Ways in which a slot stops short (R369, R370) -/

/-- A fault joins those of its launch, once: an agent that goes on in the cycle of its fault meets the same fault again. -/
def addFault (fs : List FaultRec) (f : FaultRec) : List FaultRec := if fs.contains f then fs else fs ++ [f]

/-- A fault of this launch: the record of R374 with the device cycle filled in. The shutter follows. -/
def State.raise (s : State) (f : FaultRec) : State := { s with faults := addFault s.faults { f with cycle := s.cycle } }

/-- No fault of an agent waits for the shutter: it still steps in the cycle of a fault (R375). -/
def State.soundSrc (s : State) (a : FaultSrc) : Bool := s.faults.all fun f => f.src != a

/-- Fault codes of R365. -/
def cSlot : Nat := 0x01
/-- Illegal bundle. -/
def cBundle : Nat := 0x02
/-- Descriptor format. -/
def cDesc : Nat := 0x03
/-- Sparsity metadata. -/
def cSparse : Nat := 0x04
/-- Pane conflict. -/
def cPane : Nat := 0x05
/-- Transplant mismatch. -/
def cTransplant : Nat := 0x06
/-- Protection. -/
def cProt : Nat := 0x07
/-- Alignment. -/
def cAlign : Nat := 0x08
/-- Uncorrectable ECC. -/
def cEcc : Nat := 0x09
/-- Overrun. -/
def cOverrun : Nat := 0x0A
/-- Knock overflow. -/
def cKnock : Nat := 0x0B
/-- Pre-emption timeout. -/
def cTimeout : Nat := 0x0C

/-- A fault of a context outside any slot. -/
def State.ctxFault (s : State) (g x code : Nat) (pc w2 w3 : Word64) : State :=
  s.raise { code, gcore := g, ctx := x, rep := (s.ctx g x).rep, slot := 7, pc, w2, w3 }

/-- The result of a slot's work: the state after it, or the state in which the slot has stopped short. -/
abbrev Res (α : Type) := Except State (α × State)

/-- A fault of the slot that executes (R370, R374). -/
def slotFault {α : Type} (s : State) (code : Nat) (w2 w3 w4 : Word64) : Except State α :=
  .error (s.raise { code, gcore := s.iss.g, ctx := s.iss.x, rep := s.iss.rep, slot := s.iss.slot, pc := s.iss.pc,
                    w2, w3, w4 })

/-- A protection fault naming an address, record or register (R365). -/
def protFault {α : Type} (s : State) (w2 : Word64) : Except State α := slotFault s cProt w2 0 0

/-- An alignment fault (R365). -/
def alignFault {α : Type} (s : State) (addr : Word64) (size : Nat) : Except State α :=
  slotFault s cAlign addr (w64 size) 0

/-- The slot that executes, kept for re-execution (R25). -/
def Iss.keep (i : Iss) : Iss := { i with undone := i.undone ++ [(i.slot, i.cur)] }

/-- The slot raises a trap: it changes nothing and is not done (R369). -/
def slotTrap {α : Type} (s : State) (cause : Nat) (arg0 arg1 : Word64) : Except State α :=
  .error (s.modIss fun i => { i.keep with traps := i.traps ++ [⟨i.slot, cause, arg0, arg1⟩] })

/-- The slot needs a page walk first; the core freezes until it ends (R74). -/
def slotWalk {α : Type} (s : State) (va : Word64) (cls : Nat) : Except State α :=
  .error (s.modIss fun i => { i.keep with walks := i.walks ++ [⟨i.slot, va, cls, 0, 0, 0⟩] })

/-- The slot makes an engine wait; it acts when the condition holds (R340). -/
def slotWait {α : Type} (s : State) (c : WaitCond) : Except State α :=
  .error (s.modIss fun i => { i.keep with waits := i.waits ++ [(i.slot, c)] })

/-- The wait of the slot that executes has ended in an event of its own, which has acted already. -/
def State.granted (s : State) : Bool := s.iss.granted.contains s.iss.slot

/-- Continue when the condition holds. -/
def slotCheck (c : Bool) (e : Except State Unit) : Except State Unit := if c then .ok () else e

/-- A slot has committed: its DONE bit, and for a new slot its sticky memory (R22, R369). -/
def State.commitSlot (s : State) (transfer : Bool) : State :=
  let i := s.iss
  let s := s.modIss fun j => { j with done := j.done ++ [i.slot] }
  if transfer then s.modCur fun k => { k with sticky := vset k.sticky i.slot none }
  else if i.fresh.contains i.slot then s.modCur fun k => { k with sticky := vset k.sticky i.slot (some i.cur) }
  else s

/-- The outcome of a slot's work (R369): committed, or stopped short with what it has raised. -/
def slotDone (r : Except State State) : Host.Outcome State Fault Refusal :=
  match r with
  | .ok s => .next (s.commitSlot false)
  | .error s => .next s

/-- The outcome of a control transfer, after which the S slot's sticky memory is empty (R22). -/
def transferDone (r : Except State State) : Host.Outcome State Fault Refusal :=
  match r with
  | .ok s => .next (s.commitSlot true)
  | .error s => .next s

end Sys2Proof.Machine
end

