-- ==== Sys2Proof/Machine/Memory.lean ====
section
/-! DEFINITION. Storage, the physical map, placements, the page walk and the reach of accesses (R55 to R76, R166 to
R169). Storage is named by a key: for main memory the channel and the offset within it, for the core windows the
physical address. -/

namespace Sys2Proof.Machine

/-! ### Bytes and blocks -/

/-- What a byte that nothing has written reads as: bring-up zeroes main memory (R400), and buffers are zeroed at every
change of owner (R376). -/
def unlistedByte : Byte := 0

/-- A memory in canonical form: addresses rise strictly, and no entry equals what an unlisted byte reads as. -/
abbrev Memory.wf (m : List Host.Cell) : Prop := mrising 0 m = true ∧ (m.all fun c => c.2 != unlistedByte) = true

/-- The byte at a storage key. -/
def State.byte (s : State) (key : Nat) : Byte := mget unlistedByte s.mem key

/-- A memory with one byte written; the canonical form is kept. -/
def putByte (m : List Host.Cell) (key : Nat) (b : Byte) : List Host.Cell :=
  if b = unlistedByte then merase m key else mset m key b

/-- A memory with the low `n` bytes of a number written from a key up, little-endian (R3). -/
def putBytes (m : List Host.Cell) (key n v : Nat) : List Host.Cell :=
  match n with
  | 0 => m
  | n + 1 => putBytes (putByte m key (BitVec.ofNat 8 v)) (key + 1) n (v / 256)

/-- The number in `n` bytes from a key up, little-endian (R3). -/
def getBytes (m : List Host.Cell) (key n : Nat) : Nat :=
  match n with
  | 0 => 0
  | n + 1 => (mget unlistedByte m key).toNat + 256 * getBytes m (key + 1) n

/-- The descriptor of the block that holds a key (R56); 0x0000 unless written. -/
def State.descAt (s : State) (key : Nat) : Desc := mget 0 s.desc (key / 64)

/-- A descriptor table with one entry written; a 0x0000 descriptor is not listed. -/
def putDesc (m : List (Nat × Desc)) (blk : Nat) (d : Desc) : List (Nat × Desc) :=
  if d = 0 then merase m blk else mset m blk d

/-- The poison descriptor (R57). -/
def poisonDesc : Desc := 0x00FF
/-- The format byte of a descriptor. -/
def descFmt (d : Desc) : Nat := d.toNat % 256
/-- The signed scale of a descriptor (R56). -/
def descScale (d : Desc) : Int := (d.extractLsb' 8 8).toInt
/-- A descriptor of a format and a scale. -/
def mkDesc (fmt : Nat) (scale : Int) : Desc := BitVec.ofInt 8 scale ++ BitVec.ofNat 8 fmt
/-- A descriptor that marks poison. -/
def isPoison (d : Desc) : Bool := descFmt d == 0xFF

/-- The block that begins at a key, with its descriptor; a poisoned block reads as zero data (R57). -/
def State.readBlock (s : State) (key : Nat) : VVal :=
  let d := s.descAt key
  if isPoison d then ⟨0, poisonDesc⟩ else ⟨BitVec.ofNat 512 (getBytes s.mem key 64), d⟩

/-- A whole block written at one key, with the descriptor it carries; poison is written as zero data (R57, R58). -/
def State.writeBlock1 (s : State) (key : Nat) (b : VVal) : State :=
  let data := if isPoison b.desc then 0 else b.data.toNat
  let d := if isPoison b.desc then poisonDesc else b.desc
  { s with mem := putBytes s.mem key 64 data, desc := putDesc s.desc (key / 64) d }

/-- Part of a block written at one key: the descriptor is kept, and a poisoned block discards the write (R58). -/
def State.writePart1 (s : State) (key n v : Nat) : State :=
  if isPoison (s.descAt key) then s else { s with mem := putBytes s.mem key n v }

/-- A whole block written at every placement of a location (R84). -/
def State.writeBlock (s : State) (keys : List Nat) (b : VVal) : State := keys.foldl (fun s k => s.writeBlock1 k b) s
/-- Part of a block written at every placement. -/
def State.writePart (s : State) (keys : List Nat) (n v : Nat) : State := keys.foldl (fun s k => s.writePart1 k n v) s

/-! ### The physical map (R60) -/

/-- Where a physical address lies. -/
inductive Space where
  | main
  | spad (g off : Nat)
  | acc (g off : Nat)
  | device
  | host (off : Nat)
  | peer (p off : Nat)
  | unmapped
deriving DecidableEq, Repr, Inhabited

/-- Bytes of main memory (R60). -/
def mainSize : Nat := 0x0120_0000_0000
/-- Used bytes of a scratchpad (R60). -/
def spadSize : Nat := 0xC_0000
/-- Where the latch area of a scratchpad begins (R169). -/
def latchBase : Nat := 0xB_F000

/-- Offset `rem` of a cluster window with core stride `2^k` and `used` bytes per core. -/
def inWindow (rem stride used : Nat) (mk : Nat → Nat → Space) : Space :=
  let cl := rem / 0x1000_0000
  let r := rem % 0x1000_0000
  if cl < 16 ∧ r / stride < 96 ∧ r % stride < used then mk (96 * cl + r / stride) (r % stride) else .unmapped

/-- The physical map of R60. -/
def spaceOf (pa : Nat) : Space :=
  if pa < mainSize then .main
  else if 0x0800_0000_0000 ≤ pa ∧ pa < 0x0900_0000_0000 then
    inWindow (pa - 0x0800_0000_0000) 0x10_0000 spadSize .spad
  else if 0x0900_0000_0000 ≤ pa ∧ pa < 0x0A00_0000_0000 then
    inWindow (pa - 0x0900_0000_0000) 0x2_0000 0x2_0000 .acc
  else if 0x0A00_0000_0000 ≤ pa ∧ pa < 0x0A00_0100_0000 then .device
  else if 0x0B00_0000_0000 ≤ pa ∧ pa < 0x0C00_0000_0000 then .host (pa - 0x0B00_0000_0000)
  else if 0x0C00_0000_0000 ≤ pa ∧ pa < 0x1800_0000_0000 then
    .peer ((pa - 0x0C00_0000_0000) / 2 ^ 40) ((pa - 0x0C00_0000_0000) % 2 ^ 40)
  else .unmapped

/-- Physical address of an offset in a core's scratchpad (R60). -/
def spadPa (g off : Nat) : Nat := 0x0800_0000_0000 + clusterOf g * 0x1000_0000 + coreOf g * 0x10_0000 + off
/-- Physical address of an offset in a core's accumulator window (R60). -/
def accPa (g off : Nat) : Nat := 0x0900_0000_0000 + clusterOf g * 0x1000_0000 + coreOf g * 0x2_0000 + off

/-- A virtual address that is not translated (R61). -/
def untranslated (va : Nat) : Bool :=
  (0x0800_0000_0000 ≤ va && va < 0x0A00_0000_0000) || (0x0B00_0000_0000 ≤ va && va < 0x1800_0000_0000)

/-! ### Placements (R68 to R71) -/

/-- The stacks that a placement word uses, ascending (R70). -/
def geoStacks (w : BitVec 32) : List Nat := (List.range 12).filter fun i => w.getLsbD (20 + i)
/-- CWID of R68. -/
def geoCwid (w : BitVec 32) : Nat := w.toNat / 2 ^ 16 % 16
/-- GRAN of R68. -/
def geoGran (w : BitVec 32) : Nat := w.toNat / 2 ^ 12 % 16
/-- BPOL of R68. -/
def geoBpol (w : BitVec 32) : Nat := w.toNat / 2 ^ 8 % 16
/-- CROT of R68. -/
def geoCrot (w : BitVec 32) : Nat := w.toNat % 256

/-- A valid placement word (R69). -/
def geoValid (w : BitVec 32) : Bool :=
  !(geoStacks w).isEmpty && geoCwid w < 8 && geoGran w < 14 && geoBpol w < 4 && geoCrot w < 128

/-- The channels of a placement, C of R70. -/
def geoChannels (w : BitVec 32) : Nat := (geoStacks w).length * 2 ^ geoCwid w

/-- Bytes of data in a channel (R55). -/
def channelBytes : Nat := 768 * 2 ^ 20

/-- One past the greatest physical address within a placement's reach (R71). -/
def geoReach (w : BitVec 32) : Nat := geoChannels w * channelBytes

/-- The stack, channel and channel offset of a byte (R70). -/
def place (w : BitVec 32) (pa : Nat) : Nat × Nat × Nat :=
  let st := geoStacks w
  let gran := 256 * 2 ^ geoGran w
  let gi := pa / gran
  let k := gi % geoChannels w
  (st.getD (k % st.length) 0, (geoCrot w + k / st.length * (128 / 2 ^ geoCwid w)) % 128,
    gi / geoChannels w * gran + pa % gran)

/-- The bank of a channel offset (R69). Banks change only timing and hold no state of their own. -/
def bankOf (bpol offset : Nat) : Nat :=
  match bpol with
  | 0 => offset / 2048 % 32
  | 1 => ((offset / 2048) ^^^ (offset / 65536)) % 32
  | 2 => offset / 64 % 32
  | _ => offset / (24 * 2 ^ 20)

/-- The storage key of a byte of main memory. -/
def mainKey (w : BitVec 32) (pa : Nat) : Nat :=
  let (st, ch, off) := place w pa
  (st * 128 + ch) * 2 ^ 30 + off

/-- A placement word by index; entries never written hold 0, entry 0 its reset value (R68). -/
def State.geoWord (s : State) (i : Nat) : BitVec 32 := mget 0 s.geo i

/-- The storage key of a physical address: main memory under a placement, windows by the address itself. -/
def State.paKey (s : State) (geo pa : Nat) : Nat := if pa < mainSize then mainKey (s.geoWord geo) pa else pa

/-- A number of `n` bytes at a physical address of main memory, through geometry 0. -/
def State.readPhys (s : State) (pa n : Nat) : Nat := getBytes s.mem (s.paKey 0 pa) n
/-- `n` bytes written at a physical address of main memory, through geometry 0, or of a core memory; a write elsewhere is lost. -/
def State.writePhys (s : State) (pa n v : Nat) : State :=
  match spaceOf pa with
  | .main | .spad .. | .acc .. => s.writePart1 (s.paKey 0 pa) n v
  | _ => s

/-! ### The page walk (R62 to R66) -/

/-- A walk's levels from the top: level number, lowest virtual bit indexed, index width (R63). -/
def walkLevels : List (Nat × Nat × Nat) := [(4, 43, 13), (3, 30, 13), (2, 26, 4), (1, 21, 5), (0, 16, 5)]

/-- The bytes that an entry of a level spans (R63, R78). -/
def levelSpan (level : Nat) : Nat :=
  match level with
  | 0 => 2 ^ 16 | 1 => 2 ^ 21 | 2 => 2 ^ 26 | 3 => 2 ^ 30 | _ => 2 ^ 43

/-- How a walk ends. -/
inductive Walk where
  /-- A valid leaf, the level it lies at and its own physical address. -/
  | leaf (entry : Word64) (level entryPa : Nat)
  /-- An entry with V = 0: its level, its physical address and its pager region. -/
  | invalid (level entryPa region : Nat)
  /-- A malformed entry (R66). -/
  | malformed (level : Nat)
deriving DecidableEq, Repr, Inhabited

/-- PPN of a leaf as a byte address (R65). -/
def leafPa (e : Word64) : Nat := bits e 47 12 * 2 ^ 16
/-- GEO of a leaf. -/
def leafGeo (e : Word64) : Nat := bits e 55 48
/-- KIND of a leaf: 0 plain, 1 frame, 2 adjoint. -/
def leafKind (e : Word64) : Nat := bits e 9 8
/-- RS of a leaf: 0 stable, 1 migrating, 2 cutover. -/
def leafRs (e : Word64) : Nat := bits e 63 62
/-- The level whose leaves a SIZE code names (R63, R65). -/
def sizeLevel (e : Word64) : Nat := bits e 11 10

/-- A valid table pointer with a non-zero must-be-0 field (R64). -/
def pointerBad (e : Word64) : Bool :=
  bits e 63 62 != 0 || bits e 55 52 != 0 || bits e 6 4 != 0 || bits e 2 1 != 0

/-- A valid leaf that R66 makes malformed, at a level. -/
def State.leafBad (s : State) (e : Word64) (level : Nat) : Bool :=
  let w := s.geoWord (leafGeo e)
  level == 4 || bits e 2 1 != 0 || sizeLevel e != level || leafPa e % levelSpan level != 0 || leafKind e == 3
    || (bit e 7 && leafKind e == 2) || leafRs e == 3 || mainSize ≤ leafPa e || !geoValid w
    || geoReach w < leafPa e + levelSpan level

/-- The walk from a table down the levels left (R63, R66). A table outside main memory is malformed at its level. The manual does not say what
a root or pointer does that is not aligned to the size of the table it names, and R66 does not list it as malformed: the entry's address is then the
plain sum of the two, which is the model's choice (log entry 85). -/
def State.walkFrom (s : State) (va : Nat) : List (Nat × Nat × Nat) → Nat → Walk
  | [], _ => .malformed 0
  | (level, lo, width) :: rest, table =>
    let pa := table + 8 * (va / 2 ^ lo % 2 ^ width)
    if mainSize ≤ pa then .malformed level
    else
      let e := w64 (s.readPhys pa 8)
      if !bit e 0 then .invalid level pa (bits e 61 56)
      else if bit e 3 then
        if pointerBad e || level == 0 then .malformed level else s.walkFrom va rest (bits e 51 7 * 128)
      else if s.leafBad e level then .malformed level else .leaf e level pa

/-- The walk from the launch's translation root. -/
def State.walk (s : State) (va : Nat) : Walk := s.walkFrom va walkLevels (s.launchWord 1).toNat

/-- The TLB entry of a cluster for an address (R73). -/
def Cluster.tlbFind (c : Cluster) (va : Nat) : Option TlbEntry :=
  c.tlb.find? fun t => va / levelSpan t.level * levelSpan t.level == t.va

/-- TLB entries of a cluster (R73). -/
def tlbSize : Nat := 4096

/-- A leaf entered in a cluster's TLB; a full TLB gives up an entry that the manual does not name (log entry 9). -/
def State.tlbFill (s : State) (cl va : Nat) (e : Word64) (level : Nat) : State :=
  let base := va / levelSpan level * levelSpan level
  let c := s.cluster cl
  let kept := c.tlb.filter fun t => !(t.va == base && t.level == level)
  if kept.length < tlbSize then s.setCluster cl { c with tlb := kept ++ [⟨base, e, level⟩] }
  else
    let (n, s) := s.takeFree
    s.setCluster cl { c with tlb := kept.eraseIdx (Config.tlbVictim n % tlbSize) ++ [⟨base, e, level⟩] }

/-- A translated address (R61). -/
def translated (va : Nat) : Bool :=
  !untranslated va && decide (va < 2 ^ 56) && !(decide (0x0A00_0000_0000 ≤ va) && decide (va < 0x0B00_0000_0000))

/-- What a cluster's translation unit gives an engine for a translated address: the TLB's leaf where it holds one, and else a walk (R73, R75). -/
def State.lookup (s : State) (cl va : Nat) : Walk :=
  match (s.cluster cl).tlbFind va with
  | some t => .leaf t.entry t.level 0
  | none => s.walk va

/-- Every cluster's TLB without the entries that cover an address (R82, R83). -/
def State.tlbDrop (s : State) (va : Nat) : State :=
  { s with clusters := s.clusters.map fun (i, c) =>
      (i, { c with tlb := c.tlb.filter fun t => va / levelSpan t.level * levelSpan t.level != t.va }) }

/-- Every cluster's TLB without the entries that meet the range that a table entry of a level spans (R78, R82). -/
def State.tlbDropRange (s : State) (va level : Nat) : State :=
  let meets (t : TlbEntry) : Bool :=
    let n := max (levelSpan level) (levelSpan t.level)
    va / n == t.va / n
  { s with clusters := s.clusters.map fun (i, c) => (i, { c with tlb := c.tlb.filter fun t => !meets t }) }

/-! ### Locations -/

/-- A translated access: physical address, space, storage keys, and what the page says (R65, R83). -/
structure Loc where
  pa : Nat
  space : Space
  key : Nat
  wkeys : List Nat
  kind : Nat := 0
  d : Bool := false
  rd : Bool := true
  wr : Bool := true
  xe : Bool := true
  placeWord : BitVec 32 := 0
deriving DecidableEq, Repr, Inhabited

/-- The location of an untranslated address. -/
def windowLoc (pa : Nat) : Loc := { pa, space := spaceOf pa, key := pa, wkeys := [pa], xe := false }

/-- The migration of the page that holds an address (R83). -/
def State.migrationOf (s : State) (va : Nat) : Option Migration :=
  s.migrations.find? fun m => va / levelSpan m.level * levelSpan m.level == m.va

/-- The location that a leaf gives an address (R65, R70, R83). While its page is in migration, a write goes to the old and the new placement, by
whatever leaf it is translated (R84): an extent table may still hold the leaf from before. -/
def State.leafLoc (s : State) (va : Nat) (e : Word64) (level : Nat) : Loc :=
  let off := va % levelSpan level
  let pa := leafPa e + off
  let key := s.paKey (leafGeo e) pa
  let wkeys :=
    match s.migrationOf va with
    | some m => [s.paKey (leafGeo m.oldEntry) (leafPa m.oldEntry + off), s.paKey m.newGeo (m.newPa + off)]
    | none => [key]
  { pa, space := spaceOf pa, key, wkeys, kind := leafKind e, d := bit e 7, rd := bit e 4, wr := bit e 5, xe := bit e 6,
    placeWord := s.geoWord (leafGeo e) }

/-- How a translation comes out. -/
inductive Xlat where
  | loc (l : Loc)
  /-- The TLB does not hold the page: a walk is needed (R74). -/
  | walk
  /-- The address is neither translated nor untranslated, or names device registers (R61). -/
  | barred
deriving DecidableEq, Repr, Inhabited

/-- Translation by a cluster's TLB (R61, R73). -/
def State.xlat (s : State) (cl va : Nat) : Xlat :=
  if untranslated va then .loc (windowLoc va)
  else if !translated va then .barred
  else match (s.cluster cl).tlbFind va with
    | some t => .loc (s.leafLoc va t.entry t.level)
    | none => .walk

/-- What an access does to its bytes (R67). -/
inductive Access where
  | read | write | both | fetch
deriving DecidableEq, Repr, Inhabited

/-- The page lets the access through (R67). -/
def Loc.permits (l : Loc) (a : Access) : Bool :=
  match a with
  | .read => l.rd
  | .write => l.wr
  | .both => l.rd && l.wr
  | .fetch => l.xe

/-- The places that an instruction's accesses reach (R166). -/
structure Reach where
  ownSpad : Bool := false
  anySpad : Bool := false
  acc : Bool := false
  main : Bool := false
  window : Bool := false
deriving DecidableEq, Repr, Inhabited

/-- LD, LD.V, LD.D, GATH, SCAT. -/
def reachOwn : Reach := { ownSpad := true }
/-- ST, ST.V. -/
def reachStore : Reach := { ownSpad := true, anySpad := true, main := true, window := true }
/-- ST.D, LD.ACQ and its kin, OLOAD, drains to memory. -/
def reachMemory : Reach := { ownSpad := true, anySpad := true, main := true }
/-- LD.L: windows too, outside deterministic launches. -/
def reachTimed (det : Bool) : Reach := { ownSpad := true, anySpad := true, main := true, window := !det }
/-- The accumulator instructions. -/
def reachAcc : Reach := { acc := true }

/-- A space lies within the reach of a core's instruction; latch areas lie in none (R166, R169). -/
def Reach.allows (r : Reach) (g size : Nat) : Space → Bool
  | .main => r.main
  | .spad h off => (if h = g then r.ownSpad else r.anySpad) && off + size ≤ latchBase
  | .acc h _ => r.acc && clusterOf h == clusterOf g
  | .host _ | .peer _ _ => r.window
  | .device | .unmapped => false

/-- The page-upcall class of an access (R78). -/
def Access.cls : Access → Nat
  | .read => 0
  | .write | .both => 1
  | .fetch => 2

/-- A context's access in the slot that executes: reach, then alignment, then translation and permission (R61, R67, R74,
R166, R183). An address that is neither translated nor untranslated is out of every reach, whatever its alignment (R61). -/
def slotLoc (s : State) (r : Reach) (a : Access) (va : Word64) (size : Nat) : Except State Loc := do
  let n := va.toNat
  if untranslated n && !r.allows s.iss.g size (spaceOf n) then protFault s va
  if !untranslated n && (!r.main || !translated n) then protFault s va
  if n % size ≠ 0 then alignFault s va size
  match s.xlat (clusterOf s.iss.g) n with
  | .barred => protFault s va
  | .walk => slotWalk s va a.cls
  | .loc l => if l.permits a then .ok l else protFault s va

/-- The 64-byte record that an instruction names: at a multiple of 64, on a readable plain page or, where allowed, in the
own scratchpad below the latch area; otherwise a protection fault naming the address (R357, R342). -/
def slotRecord (s : State) (va : Word64) (own : Bool) : Except State Loc := do
  let n := va.toNat
  if n % 64 ≠ 0 then protFault s va
  if untranslated n && !(own && ({ ownSpad := true } : Reach).allows s.iss.g 64 (spaceOf n)) then protFault s va
  match s.xlat (clusterOf s.iss.g) n with
  | .barred => protFault s va
  | .walk => slotWalk s va 0
  | .loc l => if (l.space == .main && l.kind != 0) || !l.rd then protFault s va else .ok l

/-- The eight words of the block at a key. -/
def State.blockWords (s : State) (key : Nat) : List Word64 :=
  let b := (s.readBlock key).data
  (List.range 8).map fun i => b.extractLsb' (64 * i) 64

/-! ### Words that a device writes into a record (R66, R67) -/

/-- How an engine reaches the status words of a record. -/
inductive Reached where
  /-- Through a leaf of a level. -/
  | page (entry : Word64) (level : Nat)
  /-- Untranslated. -/
  | window
  /-- The page is absent: the walk's level, entry and region. -/
  | absent (level entryPa region : Nat)
  /-- The walk is malformed at a level, or the page does not let a plain write through (R66, R67, R94). -/
  | barred (level : Nat)
deriving DecidableEq, Repr, Inhabited

/-- The page of a record as a cluster's translation unit gives it to an engine that writes the record's status. -/
def State.reachRecord (s : State) (cl rec : Nat) : Reached :=
  if untranslated rec then .window
  else match s.lookup cl rec with
    | .leaf e level _ => if bit e 5 && leafKind e == 0 then .page e level else .barred level
    | .invalid level pa region => .absent level pa region
    | .malformed level => .barred level

/-- The storage keys of a record's block; none where it cannot be reached. -/
def State.reachedKeys (s : State) (rec : Nat) : Reached → List Nat
  | .page e level => (s.leafLoc rec e level).wkeys
  | .window => [rec]
  | .absent .. | .barred _ => []

/-! ### Watermarks (R130) -/

/-- An access by a context of the channel's own core to bytes [lo, hi) must wait for the watermark. -/
def Chan.stalls (c : Chan) (lo hi : Nat) : Bool :=
  let stop := min (c.wbase + c.wlen) (2 ^ 64 - 1)
  (c.st == .walking || c.st == .pageWait) && c.wlen != 0 && max c.wmk lo < min hi stop

/-- The channel of a core whose watermark an access must wait for. -/
def State.stallingChan (s : State) (g lo hi : Nat) : Option Nat :=
  (List.range 4).find? fun n => (s.chan g n).stalls lo hi

/-- The engine wait of R130, where a channel of the core stalls the access. -/
def slotMark (s : State) (va : Word64) (size : Nat) : Except State Unit :=
  match s.stallingChan s.iss.g va.toNat (va.toNat + size) with
  | some n => slotWait s (.watermark n va.toNat (va.toNat + size))
  | none => .ok ()

/-! ### Declared latencies (R88) -/

/-- Whether two cores share a cluster. -/
def sameCluster (g h : Nat) : Bool := clusterOf g == clusterOf h

/-- The declared worst-case latency of an access of core g; frames are given their maximum chain depth; 0 for a window,
which declares none. -/
def declaredLatency (g : Nat) (sp : Space) (depth : Option Nat) : Nat :=
  match sp with
  | .spad h _ => if h = g then 5 else if sameCluster g h then 64 else 320
  | .acc _ _ => 48
  | .main => match depth with
    | some n => 1024 + 32 * n
    | none => 1024
  | _ => 0

end Sys2Proof.Machine
end

