-- ==== Sys2Proof/Machine/Packets.lean ====
section
/-! DEFINITION. Larzal packets: the header flit, its CRC, the tests of R151, and the queue of a port (R148 to R153, R159,
R417). -/

namespace Sys2Proof

/-! ### The header flit (R151) -/

/-- Bits [hi:lo] of a header, counted from bit 0 of byte 0. -/
def Packet.bits (p : Packet) (hi lo : Nat) : Nat := p.hdr.toNat / 2 ^ lo % 2 ^ (hi + 1 - lo)

/-- SEQ. -/
def Packet.seq (p : Packet) : Nat := p.bits 11 0
/-- TYPE. -/
def Packet.ty (p : Packet) : Nat := p.bits 15 12
/-- ACKSEQ. -/
def Packet.ackSeq (p : Packet) : Nat := p.bits 27 16
/-- ACKV. -/
def Packet.ackV (p : Packet) : Bool := p.hdr.getLsbD 28
/-- NAK. -/
def Packet.nak (p : Packet) : Bool := p.hdr.getLsbD 29
/-- ERR. -/
def Packet.err (p : Packet) : Bool := p.hdr.getLsbD 30
/-- NDATA. -/
def Packet.nData (p : Packet) : Nat := p.bits 35 32
/-- END. -/
def Packet.last (p : Packet) : Bool := p.hdr.getLsbD 40
/-- CTAG. -/
def Packet.ctag (p : Packet) : Nat := p.bits 63 48
/-- ADDR. -/
def Packet.addr (p : Packet) : Nat := p.bits 127 64
/-- DESC. -/
def Packet.descs (p : Packet) : Nat := p.bits 191 128

/-! ### CRC-32 (R151) -/

/-- One bit of the CRC with the IEEE 802.3 polynomial, least significant bit first (log entry 13). -/
def crcBit (c : BitVec 32) : BitVec 32 := if c.getLsbD 0 then (c >>> 1) ^^^ 0xEDB88320 else c >>> 1

/-- One byte of the CRC. -/
def crcByte (c : BitVec 32) (b : BitVec 8) : BitVec 32 :=
  crcBit (crcBit (crcBit (crcBit (crcBit (crcBit (crcBit (crcBit (c ^^^ b.setWidth 32))))))))

/-- The first `n` bytes of a flit. -/
def flitBytes (n : Nat) (f : BitVec 256) : List (BitVec 8) := (List.range n).map fun i => f.extractLsb' (8 * i) 8

/-- CRC over header bytes 0 to 27 and every data flit. -/
def Packet.crc (p : Packet) : BitVec 32 :=
  ~~~((flitBytes 28 p.hdr ++ p.data.flatMap (flitBytes 32)).foldl crcByte (BitVec.allOnes 32))

/-- The packet with its CRC. -/
def Packet.sign (p : Packet) : Packet :=
  { p with hdr := p.crc ++ (p.hdr.extractLsb' 0 224) }

/-- The packet with its sequence and acknowledgement fields, signed. -/
def Packet.stamp (p : Packet) (seq ack : Nat) (ackv nak err : Bool) : Packet :=
  let low := seq % 4096 + ack % 4096 * 2 ^ 16 + Machine.flag ackv 28 + Machine.flag nak 29 + Machine.flag err 30
  ({ p with hdr := (p.hdr &&& ~~~(BitVec.ofNat 256 0x7FFF0FFF)) ||| BitVec.ofNat 256 low }).sign

/-! ### The receiver's tests (R151) -/

/-- The CRC passes, and as many data flits came as NDATA says. -/
def Packet.crcOk (p : Packet) : Bool := p.crc == p.hdr.extractLsb' 224 32 && p.data.length == p.nData

/-- NDATA fits TYPE. -/
def Packet.nDataOk (p : Packet) : Bool :=
  match p.ty with
  | 0 | 2 | 4 | 6 => p.nData == 0
  | 1 | 3 => p.nData == 2 || p.nData == 4 || p.nData == 6 || p.nData == 8
  | 5 => p.nData == 3 || p.nData == 5 || p.nData == 7
  | _ => false

/-- The side flit of a collective packet (R417). -/
def Packet.side (p : Packet) : BitVec 256 := p.data.getLastD 0

/-- Fields that R151 and R417 keep zero. -/
def Packet.zerosOk (p : Packet) : Bool :=
  p.bits 31 31 == 0 && p.bits 39 36 == 0 && p.bits 47 41 == 0 && p.bits 223 192 == 0 &&
    (p.ty == 5 || p.ty == 6 || p.ctag == 0) &&
    (!(1 ≤ p.ty && p.ty ≤ 3) || p.addr < 2 ^ 40) &&
    (p.ty != 5 || (p.bits 191 176 == 0 && p.bits 127 112 == 0 && p.side.extractLsb' 100 156 == 0))

/-- The receiver discards the packet whole. -/
def Packet.discarded (p : Packet) : Bool := !(p.crcOk && p.nDataOk && p.zerosOk)

/-! ### Blocks -/

/-- Data blocks of a packet, without the side flit. -/
def Packet.blockCount (p : Packet) : Nat := p.nData / 2

/-- Block i with its descriptor (R159). -/
def Packet.block (p : Packet) (i : Nat) : Machine.VVal :=
  ⟨(p.data.getD (2 * i + 1) 0) ++ (p.data.getD (2 * i) 0), BitVec.ofNat 16 (p.descs / 2 ^ (16 * i))⟩

/-- The blocks of a packet. -/
def Packet.blocks (p : Packet) : List Machine.VVal := (List.range p.blockCount).map p.block

end Sys2Proof

namespace Sys2Proof.Machine

/-- A header flit before its sequence, acknowledgement and CRC fields are filled in. -/
def header (ty nData : Nat) (last : Bool) (ctag addr desc : Nat) : BitVec 256 :=
  BitVec.ofNat 256 (ty * 2 ^ 12 + nData * 2 ^ 32 + flag last 40 + ctag % 2 ^ 16 * 2 ^ 48 + addr % 2 ^ 64 * 2 ^ 64 +
    desc % 2 ^ 64 * 2 ^ 128)

/-- The two flits of a block. -/
def blockFlits (v : VVal) : List (BitVec 256) := [v.data.extractLsb' 0 256, v.data.extractLsb' 256 256]

/-- The DESC field of blocks. -/
def descField (l : List VVal) : Nat := joinLanes16 (l.map fun v => v.desc.toNat)
where
  /-- Descriptors of 16 bits, block 0 lowest. -/
  joinLanes16 : List Nat → Nat
    | [] => 0
    | x :: xs => x + 2 ^ 16 * joinLanes16 xs

/-- A write packet (TYPE 1). -/
def writePacket (off : Nat) (l : List VVal) (last : Bool) : Packet :=
  ⟨header 1 (2 * l.length) last 0 off (descField l), l.flatMap blockFlits⟩

/-- A read request (TYPE 2). How many blocks it asks for R151 gives no field: one (log entry 14). -/
def readPacket (off : Nat) : Packet := ⟨header 2 0 false 0 off 0, []⟩

/-- A read response (TYPE 3). -/
def responsePacket (off : Nat) (l : List VVal) : Packet :=
  ⟨header 3 (2 * l.length) false 0 off (descField l), l.flatMap blockFlits⟩

/-- A knock (TYPE 4) with its knock word and its destination (R138, R151). -/
def knockPacket (w5 : Nat) (dst : Word64) : Packet := ⟨header 4 0 false 0 w5 dst.toNat, []⟩

/-- A collective abort (TYPE 6). -/
def abortPacket (tag : Nat) : Packet := ⟨header 6 0 false tag 0 0, []⟩

/-! ### Sending -/

/-- A packet joins those that wait on a port (R150). -/
def State.enqueue (s : State) (q : Nat) (p : OutPacket) : State :=
  s.modPort q fun t => { t with sendq := t.sendq ++ [p] }

/-- The port of a window (R148). -/
def windowPort : Space → Option (Nat × Nat)
  | .host off => some (12, off)
  | .peer p off => some (p, off)
  | _ => none

/-- The base of the window of a port (R60). -/
def windowBase (q : Nat) : Nat := if q = hostPort then 0x0B00_0000_0000 else 0x0C00_0000_0000 + q * 2 ^ 40

/-- A port that carries no traffic (R156). -/
def State.portDown (s : State) (q : Nat) : Bool := (s.port q).st == .down

/-- A context's access to a window: its port, or the fault of R156 where the port is down. -/
def slotPort (s : State) (va : Word64) (q : Nat) : Except State Unit :=
  if s.portDown q then slotFault s cProt va (w64 q) 0 else .ok ()

/-- The origin of a packet that the slot in execution sends. -/
def State.slotOrigin (s : State) (va : Word64) : Origin := .ctx s.iss.g s.iss.x s.iss.pc.toNat va.toNat

/-- A block whose bytes are open but for `n` that a store gives at offset `o` (log entry 15). -/
def openBlock (f o n v : Nat) : VVal :=
  let bytes := (List.range 64).map fun i =>
    if o ≤ i ∧ i < o + n then v / 2 ^ (8 * (i - o)) % 256 else (Config.openWord (f + 1 + i)).toNat % 256
  ⟨BitVec.ofNat 512 (bytes.foldr (fun b r => b + 256 * r) 0), (Config.openWord f).setWidth 16⟩

/-- A store of `n` bytes through a window (R157): one block in one packet. -/
def State.storeWindow (s : State) (q off n v : Nat) (va : Word64) : State :=
  let b := openBlock s.free (off % 64) n v
  let s := { s with free := s.free + 65 }
  s.enqueue q ⟨writePacket (off / 64 * 64) [b] false, s.slotOrigin va, false⟩

/-- A block store through a window (R157, R159). -/
def State.storeBlockWindow (s : State) (q off : Nat) (b : VVal) (va : Word64) : State :=
  s.enqueue q ⟨writePacket off [if isPoison b.desc then ⟨0, poisonDesc⟩ else b] false, s.slotOrigin va, false⟩

/-- A read request through a window (R157). -/
def State.requestWindow (s : State) (q off : Nat) (va : Word64) : State :=
  s.enqueue q ⟨readPacket (off / 64 * 64), s.slotOrigin va, false⟩

/-! ### Completion at system scope (R313, R316, R323, R325 note 9) -/

/-- The block that holds an address touches bytes [lo, hi); an empty range is touched by none. -/
def blockMeets (va lo hi : Nat) : Bool := lo < hi && va / 64 * 64 < hi && lo < va / 64 * 64 + 64

/-- A write packet of context x of core g to a block that touches bytes [lo, hi). -/
def OutPacket.writes (o : OutPacket) (g x lo hi : Nat) : Bool :=
  o.p.ty == 1 && (match o.origin with | .ctx h y _ va => h == g && y == x && blockMeets va lo hi | _ => false)

/-- A landing still awaits a response for a block that touches bytes [lo, hi). -/
def awaits (w : Option (Nat × Nat)) (lo hi : Nat) : Bool :=
  match w with
  | some (q, off) => blockMeets (windowBase q + off) lo hi
  | none => false

/-- Context x of core g has an access through a port, of a kind selected and to a block that touches bytes [lo, hi), that has not been
acknowledged or answered. An access counts by its whole blocks (log entry 81). -/
def State.outstanding (s : State) (g x lo hi : Nat) (wr rd : Bool) : Bool :=
  (wr && s.ports.any fun (_, t) => (t.sendq ++ t.unacked.map (·.2)).any fun o => o.writes g x lo hi) ||
  (rd && (((s.core g).sill.any fun l => l.ctx == x && !l.dead && awaits l.await lo hi) ||
    ((s.ctx g x).snap.toList ++ (s.ctx g x).handlerSnap.toList).any fun n => n.landings.any fun l => awaits l.await lo hi))

/-- The bundle's scope is system scope. -/
def State.sysScope (s : State) : Bool := headerScope s.iss.hdr == .system

/-- An earlier access of context x of core g keeps a release from being performed: a read of a window whose value has not come, whatever the scope
(R313), and at system scope a write that has not been acknowledged. Every other access has completed at a narrower scope, since it acts in the
event of its issue (R316). -/
def State.unreleased (s : State) (g x : Nat) (sys : Bool) : Bool := s.outstanding g x 0 (2 ^ 64) sys true

/-- The wait of a release until every earlier access of its context has completed at its scope (R316). -/
def relWait (sys : Bool) : WaitCond := .acked 0 (2 ^ 64) sys true

/-- The wait of a release of the slot that executes (R316). How an instruction that is no engine wait by its own entry waits is the model's choice
(log entry 81). -/
def needReleased (s : State) : Except State Unit :=
  if s.unreleased s.iss.g s.iss.x s.sysScope then slotWait s (relWait s.sysScope) else .ok ()

end Sys2Proof.Machine
end

