-- ==== Sys2Proof/Machine/Log.lean ====
section
/-! DEFINITION. The recording log: records, room, and the two policies for a full log (R392 to R396), and the error
log (R406). -/

namespace Sys2Proof.Machine

/-- LOGBASE of the header (R334). -/
def State.logBase (s : State) : Nat := (s.launchWord 10).toNat
/-- LOGLEN of the header (R334). -/
def State.logLen (s : State) : Nat := bits (s.launchWord 11) 31 0
/-- REC of the header: the log is written. -/
def State.logRec (s : State) : Bool := bit (s.launchWord 0) 33
/-- LOGPOL of the header: mark instead of stall. -/
def State.logMarks (s : State) : Bool := bit (s.launchWord 0) 34

/-- Free bytes of the log: LOGLEN less what has been written and not consumed, modulo 2^32 (R392). -/
def State.logFree (s : State) : Nat := s.logLen - (s.logwr + 2 ^ 32 - s.logrd) % 2 ^ 32

/-- The log counts as full (R396). -/
def State.logFull (s : State) : Bool := s.logFree < 16384

/-- Words written one after the other at a physical address, through geometry 0. -/
def State.putWords (s : State) (pa : Nat) (ws : List Word64) : State :=
  match ws with
  | [] => s
  | w :: ws => (s.writePhys pa 8 w.toNat).putWords (pa + 8) ws

/-- The schedule clock where it counts, else 0 (R374, R393). -/
def State.logClock (s : State) : Nat := if s.det then s.sclk else 0

/-- A record of R393: type, and the words from w2 on; the length is a multiple of 32 bytes. -/
def State.record (s : State) (ty : Nat) (rest : List Word64) : List Word64 :=
  w64 (ty * 2 ^ 56 + (rest.length + 2) / 4 * 2 ^ 48 + s.cycle % 2 ^ 48) :: w64 s.logClock :: rest

/-- Bytes of pad that a record needs before it, because a record never wraps (R392). -/
def State.logPad (s : State) (len : Nat) : Nat :=
  let pos := s.logwr % max s.logLen 1
  if pos + len ≤ s.logLen then 0 else s.logLen - pos

/-- There is room for a record of `len` bytes and its pad. -/
def State.logRoom (s : State) (len : Nat) : Bool := len ≤ s.logLen && s.logPad len + len ≤ s.logFree

/-- A record written at the log's end, after its pad (R392). -/
def State.logWrite (s : State) (ws : List Word64) : State :=
  let len := 8 * ws.length
  let pad := s.logPad len
  let s := if pad = 0 then s else
    { s.putWords (s.logBase + s.logwr % max s.logLen 1)
        (w64 (pad / 32 % 256 * 2 ^ 48 + s.cycle % 2 ^ 48) :: w64 s.logClock :: List.replicate (pad / 8 - 2) 0) with
      logwr := (s.logwr + pad) % 2 ^ 32 }
  { s.putWords (s.logBase + s.logwr % max s.logLen 1) ws with logwr := (s.logwr + len) % 2 ^ 32 }

/-- The frame number of R350. -/
def State.frameNo (s : State) : Nat := s.sclk / 2048

/-- The run is not replayable from this frame on, or from an earlier one (R396, R397). -/
def State.markNoReplay (s : State) (n : Nat) : State :=
  s.modLaunch fun l => { l with noreplay := some (min n (l.noreplay.getD n)) }

/-- A record is discarded and counted for the tail. -/
def State.dropRecord (s : State) : State := s.modLaunch fun l => { l with logDropped := l.logDropped + 1 }

/-- The tail record (R393): NOREPLAY or all ones, and how many records were discarded. -/
def State.tailRecord (s : State) : List Word64 :=
  match s.launch with
  | some l =>
    s.record 0x06 [(match l.noreplay with | some n => w64 n | none => BitVec.allOnes 64), w64 l.logDropped]
  | none => []

/-- The tail record, where there is room for it: nothing follows it (R394, R396). -/
def State.writeTail (s : State) : State :=
  match s.launch with
  | some l =>
    if !s.logRec || l.tail then s
    else (if s.logRoom 32 then s.logWrite s.tailRecord else s).modLaunch fun l => { l with tail := true }
  | none => s

/-- Under the mark policy a full log ends the log of a deterministic launch (R396). -/
def State.markFull (s : State) : State :=
  if s.det && s.logRec && s.logMarks && s.logFull && (match s.launch with | some l => !l.tail | none => false) then
    (s.markNoReplay s.frameNo).writeTail
  else s

/-- A record of core g, which freezes where there is no room for it or where others of it wait (R396). -/
def State.putOrFreeze (s : State) (g : Nat) (ws : List Word64) : State :=
  let c := s.core g
  if c.logq.isEmpty && s.logRoom (8 * ws.length) then s.logWrite ws
  else
    let c := if c.frozen.contains .log then c else { c with frozen := c.frozen ++ [.log], frozenAt := s.cycle }
    s.setCore g { c with logq := c.logq ++ [ws] }

/-- A record is put into the log, or what the policy for a full log has for it (R396): where only cores freeze, one of another source that finds no
room is discarded. -/
def State.putEntry (s : State) (e : LogEntry) : State :=
  match s.launch with
  | none => s
  | some l =>
    if !s.logRec || l.tail then s
    else if s.logMarks then
      if s.det then (s.logWrite e.words).markFull else if s.logFull then s.dropRecord else s.logWrite e.words
    else match (if s.det then none else e.core) with
      | some g => s.putOrFreeze g e.words
      | none =>
        if s.logRoom (8 * e.words.length) then s.logWrite e.words
        else if s.det then (s.markNoReplay e.frame).dropRecord
        else s.dropRecord

/-- The bundle that a core issues in this cycle, or 0. -/
def State.issuedNow (s : State) (g : Nat) : Word64 := let c := s.core g; if c.issuedAt = some s.cycle then c.issuedPc else 0

/-- A droop sample with the bundles that the island's cores have issued by now: it is put when its cycle is over (R393). -/
def State.filled (s : State) (e : LogEntry) : LogEntry :=
  match e.sample with
  | some island => { e with words := e.words ++ (List.range 96).map fun n => s.issuedNow (96 * island + n) }
  | none => e

/-- A record's place among those of its cycle: before the first that comes later. -/
def LogEntry.sortIn (e : LogEntry) : List LogEntry → List LogEntry
  | [] => [e]
  | x :: xs => if e.rank < x.rank then e :: x :: xs else x :: e.sortIn xs

/-- The records of the cycle go into the log: those of lower global cores first, then those of engines, then those of ports (R394). -/
def State.putCycle (s : State) : State :=
  ((s.logNow.map s.filled).foldl (fun l e => e.sortIn l) []).foldl State.putEntry ({ s with logNow := [] } : State).markFull

/-- Sources of records, in the order of R394 within a cycle. -/
inductive LogSrc where
  | core (g : Nat)
  /-- The matrix engine of a core. -/
  | matrix (g : Nat)
  /-- Another engine, or the device. -/
  | engine
  /-- An island. -/
  | island (n : Nat)
  | port (q : Nat)
deriving DecidableEq, Repr

/-- A source's place within a cycle. -/
def LogSrc.rank : LogSrc → Nat
  | .core g => g
  | .matrix g => 2048 + g
  | .island n => 4096 + n
  | .engine => 8192
  | .port q => 16384 + q

/-- The core that a source's record freezes where there is no room for it: that of a matrix engine too (DEDUCED: log entry 116). -/
def LogSrc.freezes : LogSrc → Option Nat
  | .core g => some g
  | .matrix g => some g
  | _ => none

/-- A record for the log at the end of the cycle, where the launch has one. -/
def State.logEntry (s : State) (e : LogEntry) : State :=
  if s.launch.isSome && s.logRec then { s with logNow := s.logNow ++ [e] } else s

/-- A record of a source and a schedule frame, to be put into the log at the end of the cycle (R394). -/
def State.logAppend (s : State) (src : LogSrc) (frame : Nat) (ws : List Word64) : State :=
  s.logEntry { core := src.freezes, rank := src.rank, frame, words := ws }

/-- A droop sample of an island (R393): the length in its first word counts the words of its cores, which follow when it is put. -/
def State.logSample (s : State) (island : Nat) : State :=
  s.logEntry { core := none, rank := (LogSrc.island island).rank, frame := s.frameNo,
               words := (s.record 0x04 ([w64 island, 0] ++ List.replicate 96 0)).take 4, sample := some island }

/-- An annotation (R393): cause, source and what follows. -/
def State.annotate (s : State) (cause g x : Nat) (w3 : Word64) : State :=
  s.logAppend (if g < 1536 then .core g else .engine) s.frameNo
    (s.record 0x02 [w64 (cause + (if g < 1536 then g else 0x7FF) * 2 ^ 8 + x * 2 ^ 19), w3])

/-- The device cycle of a record. -/
def recordCycle (r : List Word64) : Nat := bits (r.getD 0 0) 47 0

/-- Of the records that cores wait to write, the one that comes first: the oldest, and of one cycle that of the lowest core (R394). -/
def State.nextWaiting (s : State) : Option (Nat × List Word64) :=
  s.cores.foldl (fun (acc : Option (Nat × List Word64)) (e : Nat × Core) =>
    match e.2.logq, acc with
    | [], _ => acc
    | r :: _, none => some (e.1, r)
    | r :: _, some (_, q) => if recordCycle r < recordCycle q then some (e.1, r) else acc) none

/-- Records that cores wait to write. -/
def State.waitingRecords (s : State) : Nat := (s.cores.map fun ((_, c) : Nat × Core) => c.logq.length).sum

/-- The waiting records of every core are written in the order of R394 while there is room; one that finds none is discarded where `drop` says so, and
else it and the rest stay. -/
def State.writeWaiting (s : State) (drop : Bool) : Nat → State
  | 0 => s
  | n + 1 =>
    match s.nextWaiting with
    | none => s
    | some (g, r) =>
      let next := s.modCore g fun c => { c with logq := c.logq.drop 1 }
      if s.logRoom (8 * r.length) then (next.logWrite r).writeWaiting drop n
      else if drop then next.dropRecord.writeWaiting drop n
      else s

/-- Every record that cores wait to write is written, or discarded where there is no room for it. -/
def State.settleWaiting (s : State) : State := s.writeWaiting true s.waitingRecords

/-- Every record that waits is written where there is room for it, and counted where there is none: before the tail (R394, R396). -/
def State.settleLog (s : State) : State :=
  s.settleWaiting.putCycle.settleWaiting

/-- A record of this cycle or an earlier one makes a core freeze: the launch neither retires nor is saved (R396). -/
def State.logWaits (s : State) : Bool := s.putCycle.cores.any fun ((_, c) : Nat × Core) => !c.logq.isEmpty

/-- Function modes in force: the header's FMODE or FMDEV (R405). -/
def State.fmode (s : State) : Nat :=
  match s.launch with
  | some l => l.fmode
  | none => s.fmdev

/-- A duty is the host's (R405): bit 0 page service, 1 glazing, 2 save, 3 error log, 4 retraining, 5 re-striping. -/
def State.hostDoes (s : State) (duty : Nat) : Bool := s.fmode.testBit duty

/-- The host's register accesses reach the device: they travel on port 12 (R148). No packet type of R151 carries them, so that they pass while the
port is up, and not otherwise (log entry 92). -/
def State.hostReaches (s : State) : Bool := (s.port hostPort).st == .up

/-- A message to the host on port 12 (R80, R155, R387, R406, R407); a port that is down carries none (R148, R156; log entry 92). -/
def State.message (s : State) (ws : List Word64) : State :=
  if (s.port hostPort).st == .down then s else { s with messages := s.messages ++ [ws] }

/-- The four words of an error event, laid out as an annotation (R393, R406): its cause, its core and context, or 0x7FF, and the address. -/
def State.errorEntry (s : State) (cause g x : Nat) (addr : Word64) : List Word64 :=
  s.record 0x02 [w64 (cause % 256 + (if g < 1536 then g else 0x7FF) * 2 ^ 8 + x % 4 * 2 ^ 19), addr]

/-- An entry of the error ring, the oldest of 64 overwritten first, and sent to the host when it keeps the log (R406). -/
def State.errorLog (s : State) (cause g x : Nat) (addr : Word64) : State :=
  let e := s.errorEntry cause g x addr
  let s := { s with errors := (s.errors ++ [e]).drop (s.errors.length + 1 - 64) }
  if s.hostDoes 3 then s.message e else s

/-- A trace record of one slot of an issue of the traced context (R393, R394). -/
def State.traceSlot (s : State) (i : Iss) (slot : Nat) (word : Word32) (committed : Bool) : State :=
  s.logAppend (.core i.g) s.frameNo (s.record 0x01 [i.pc,
    w64 (word.toNat * 2 ^ 32 + i.g * 2 ^ 21 + i.x * 2 ^ 19 + slot * 2 ^ 16 + i.rep * 2 ^ 11 + flag committed 10)])

/-- The issue belongs to the context that LOGCTL traces (R392). -/
def State.traced (s : State) (g x : Nat) : Bool :=
  bit s.logctl 18 && bits s.logctl 31 21 == g && bits s.logctl 20 19 == x

/-- The trace records of an issue's slots, in slot order (R394). -/
def State.trace (s : State) (i : Iss) (slots : List (Nat × SlotWord)) (committed : Nat → Bool) : State :=
  if s.traced i.g i.x then slots.foldl (fun s (n, w) => s.traceSlot i n w.word (committed n)) s else s

end Sys2Proof.Machine
end

