-- ==== Sys2Proof/Machine/Latch.lean ====
section
/-! DEFINITION. The latch words of R346 and their events (R347), and who waits on them. -/

namespace Sys2Proof.Machine

/-- The address of latch n of a global core (R169, R346). -/
def latchPa (g n : Nat) : Nat := spadPa g (latchBase + 8 * n)

/-- The word of a latch. -/
def State.latch (s : State) (g n : Nat) : Word64 := w64 (getBytes s.mem (latchPa g n) 8)

/-- The word of a latch replaced. -/
def State.setLatch (s : State) (g n : Nat) (v : Nat) : State := { s with mem := putBytes s.mem (latchPa g n) 8 v }

/-- EXPECTED. -/
def latchExpected (w : Word64) : Nat := bits w 15 0
/-- ARRIVED. -/
def latchArrived (w : Word64) : Nat := bits w 31 16
/-- WAIT. -/
def latchWait (w : Word64) : Nat := bits w 63 48

/-- A latch word from its fields. -/
def latchOf (wait arrived expected : Nat) : Nat := wait % 2 ^ 16 * 2 ^ 48 + arrived % 2 ^ 16 * 2 ^ 16 + expected % 2 ^ 16

/-- The latch is complete (R346). -/
def State.latchDone (s : State) (g n : Nat) : Bool := latchExpected (s.latch g n) ≤ latchArrived (s.latch g n)

/-- `k` arrivals, or none where they would carry ARRIVED above 0xFFFF (R347). -/
def State.latchAdd (s : State) (g n k : Nat) : Option State :=
  let w := s.latch g n
  let a := latchArrived w + k
  if 0xFFFF < a then none else some (s.setLatch g n (latchOf (latchWait w) a (latchExpected w)))

/-- An arrival-consuming wait takes EXPECTED arrivals (R361). -/
def State.latchConsume (s : State) (g n : Nat) : State :=
  let w := s.latch g n
  s.setLatch g n (latchOf (latchWait w) (latchArrived w - latchExpected w) (latchExpected w))

/-- WAIT counted up or down. -/
def State.latchCount (s : State) (g n : Nat) (up : Bool) : State :=
  let w := s.latch g n
  s.setLatch g n (latchOf (if up then latchWait w + 1 else latchWait w - 1) (latchArrived w) (latchExpected w))

/-- The latches that a wait counts in. -/
def WaitCond.latches : WaitCond → List (Nat × Nat)
  | .latch g n _ => [(g, n)]
  | .anyLatch g ns _ => ns.map fun n => (g, n.2)
  | _ => []

/-- A context begins or ends its waits: WAIT of every latch it names (R346). -/
def State.countWaits (s : State) (ws : List (Nat × WaitCond)) (up : Bool) : State :=
  (ws.flatMap fun w => w.2.latches).foldl (fun s (g, n) => s.latchCount g n up) s

end Sys2Proof.Machine
end

