-- ==== Sys2Proof/Machine/Flags.lean ====
section
/-! DEFINITION. The arithmetic flags of R236 and the rounding of exact values into the formats of R228 and R231
(R232 to R235). -/

namespace Sys2Proof.Machine

/-- INVALID (R236). -/
def fInvalid : BitVec 6 := 0x01
/-- DIVZERO. -/
def fDivzero : BitVec 6 := 0x02
/-- OVERFLOW. -/
def fOverflow : BitVec 6 := 0x04
/-- UNDERFLOW. -/
def fUnderflow : BitVec 6 := 0x08
/-- INEXACT. -/
def fInexact : BitVec 6 := 0x10
/-- CLAMP. -/
def fClamp : BitVec 6 := 0x20
/-- A flag raised under a condition. -/
def fIf (c : Bool) (f : BitVec 6) : BitVec 6 := if c then f else 0

/-- A floating-point format (R228, R231): bits of an element, of its exponent and of its fraction, the bias, the unused low
bits of an E cell, and whether every NaN is 0x7F or 0xFF (KF8A). -/
structure FFmt where
  width : Nat
  ebits : Nat
  fbits : Nat
  bias : Nat
  pad : Nat := 0
  kf8a : Bool := false
  /-- Overflow is clamped to the largest finite value (R233). -/
  narrow : Bool := false
deriving DecidableEq, Repr, Inhabited

/-- FP64. -/
def fp64 : FFmt := { width := 64, ebits := 11, fbits := 52, bias := 1023 }
/-- FP32. -/
def fp32 : FFmt := { width := 32, ebits := 8, fbits := 23, bias := 127 }
/-- BF16. -/
def bf16 : FFmt := { width := 16, ebits := 8, fbits := 7, bias := 127, narrow := true }
/-- FP16. -/
def fp16 : FFmt := { width := 16, ebits := 5, fbits := 10, bias := 15, narrow := true }
/-- KF8A. -/
def kf8a : FFmt := { width := 8, ebits := 4, fbits := 3, bias := 8, kf8a := true, narrow := true }
/-- KF8B. -/
def kf8b : FFmt := { width := 8, ebits := 5, fbits := 2, bias := 16, narrow := true }
/-- E, as it stands in a cell (R231). -/
def fpE : FFmt := { width := 64, ebits := 11, fbits := 40, bias := 1023, pad := 12 }

/-- The exponent of the smallest normal value. -/
def FFmt.emin (f : FFmt) : Int := 1 - f.bias
/-- The bits of a significand. -/
def FFmt.prec (f : FFmt) : Nat := f.fbits + 1

/-- A value that an element stands for. -/
inductive Num where
  /-- A NaN: sign, the payload below the quiet bit aligned to 51 bits, and whether it is quiet. -/
  | nan (neg : Bool) (payload : Nat) (quiet : Bool)
  | inf (neg : Bool)
  /-- A finite value: magnitude m * 2^e. -/
  | fin (neg : Bool) (m : Nat) (e : Int)
deriving DecidableEq, Repr, Inhabited

/-- The NaN that no operand supplies (R235). -/
def canonNan : Num := .nan false 0 true
/-- The value is a NaN. -/
def Num.isNan : Num → Bool
  | .nan .. => true
  | _ => false
/-- A signalling NaN. -/
def Num.isSignalling : Num → Bool
  | .nan _ _ q => !q
  | _ => false
/-- A zero of either sign. -/
def Num.isZero : Num → Bool
  | .fin _ m _ => m == 0
  | _ => false
/-- The sign bit. -/
def Num.neg? : Num → Bool
  | .nan s _ _ => s
  | .inf s => s
  | .fin s _ _ => s
/-- The value is infinite. -/
def Num.isInf : Num → Bool
  | .inf _ => true
  | _ => false
/-- A negated operand; a NaN keeps its sign (R235). -/
def Num.negate : Num → Num
  | .nan s p q => .nan s p q
  | .inf s => .inf !s
  | .fin s m e => .fin (!s) m e
/-- A value times 2^k. -/
def Num.scale (x : Num) (k : Int) : Num :=
  match x with
  | .fin s m e => .fin s m (e + k)
  | y => y

/-- m * 2^d for a signed d, rounded down. -/
def shiftNat (m : Nat) (d : Int) : Nat :=
  match d with
  | .ofNat n => m * 2 ^ n
  | .negSucc n => m / 2 ^ (n + 1)

/-- The exponent of the leading bit of m * 2^e. -/
def topExp (m : Nat) (e : Int) : Int := m.log2 + e

/-- The value of an element's bits, before its scale (R228, R231). -/
def decodeF (f : FFmt) (bits : Nat) : Num :=
  let raw := bits / 2 ^ f.pad % 2 ^ f.width
  let w := f.width - f.pad
  let neg := raw.testBit (w - 1)
  let ex := raw / 2 ^ f.fbits % 2 ^ f.ebits
  let fr := raw % 2 ^ f.fbits
  let lead : Num := .fin neg (fr + 2 ^ f.fbits) (ex - f.bias - f.fbits)
  if f.kf8a then
    if ex = 15 ∧ fr = 7 then .nan neg 0 true
    else if ex = 0 then .fin neg fr (1 - f.bias - f.fbits) else lead
  else if ex = 2 ^ f.ebits - 1 then
    if fr = 0 then .inf neg
    else .nan neg (fr % 2 ^ (f.fbits - 1) * 2 ^ (52 - f.fbits)) (fr.testBit (f.fbits - 1))
  else if ex = 0 then .fin neg fr (1 - f.bias - f.fbits)
  else lead

/-- The bits of an element: sign, and the rest as a number, with E's low bits 0. -/
def packF (f : FFmt) (neg : Bool) (rest : Nat) : Nat :=
  ((if neg then 2 ^ (f.width - f.pad - 1) else 0) + rest) * 2 ^ f.pad

/-- Exponent and fraction of infinity. -/
def FFmt.infBits (f : FFmt) : Nat := (2 ^ f.ebits - 1) * 2 ^ f.fbits
/-- Exponent and fraction of the largest finite value. -/
def FFmt.maxBits (f : FFmt) : Nat := if f.kf8a then 0x7E else f.infBits - 1
/-- Exponent and fraction of a NaN with a payload, quiet (R235). -/
def FFmt.nanBits (f : FFmt) (payload : Nat) : Nat :=
  if f.kf8a then 0x7F else f.infBits + 2 ^ (f.fbits - 1) + payload / 2 ^ (52 - f.fbits)

/-- Round up from the lower neighbour: `lo` is its significand, `rest` of `2^d` the part cut off (R232). -/
def roundsUp (rm : Nat) (neg : Bool) (lo rest d : Nat) : Bool :=
  match rm with
  | 0 => 2 ^ d < 2 * rest || (2 ^ d == 2 * rest && lo % 2 == 1)
  | 1 => false
  | 2 => neg && rest != 0
  | 3 => !neg && rest != 0
  | 4 => 2 ^ d ≤ 2 * rest
  | _ => false

/-- A magnitude m * 2^e rounded to a multiple of 2^q: the multiple, and whether it is inexact (R232). -/
def roundAt (rm : Nat) (neg : Bool) (m : Nat) (e q : Int) : Nat × Bool :=
  match q - e with
  | .ofNat d =>
    let lo := m / 2 ^ d
    let rest := m % 2 ^ d
    if rest = 0 then (lo, false)
    else if 5 ≤ rm then (lo ||| 1, true)
    else (if roundsUp rm neg lo rest d then lo + 1 else lo, true)
  | .negSucc k => (m * 2 ^ (k + 1), false)

/-- Exponent and fraction of n * 2^q, for n below 2^prec or equal to it and q at least the subnormal exponent. -/
def FFmt.fieldOf (f : FFmt) (n : Nat) (q : Int) : Nat :=
  let sub : Int := f.emin - f.fbits
  (q - sub).toNat * 2 ^ f.fbits + n

/-- The result on overflow: exponent and fraction, and flags (R233). -/
def overflowTo (f : FFmt) (rm : Nat) (cl neg : Bool) : Nat × BitVec 6 :=
  if f.narrow || cl then (f.maxBits, fClamp ||| fInexact)
  else
    let big := rm == 0 || rm == 4 || (rm == 2 && neg) || (rm == 3 && !neg)
    (if big then f.infBits else f.maxBits, fOverflow ||| fInexact)

/-- Round(x, F, rm, cl) for a finite x: exponent and fraction of the result, and flags (R232 to R234). Tininess is judged on
the result that an unbounded exponent would give. -/
def roundFin (f : FFmt) (rm : Nat) (cl neg : Bool) (m : Nat) (e : Int) : Nat × BitVec 6 :=
  if m = 0 then (0, 0)
  else
    let top := topExp m e
    let q := max top f.emin - f.fbits
    let (n, inexact) := roundAt rm neg m e q
    let field := f.fieldOf n q
    let free := (roundAt rm neg m e (top - f.fbits)).1
    let tiny := top < f.emin && !(top + 1 == f.emin && free == 2 ^ f.prec)
    if f.maxBits < field then overflowTo f rm cl neg
    else (field, fIf inexact fInexact ||| fIf (inexact && tiny) fUnderflow)

/-- Round(x, F, rm, cl): the bits of the result and its flags. -/
def roundF (f : FFmt) (rm : Nat) (cl : Bool) (x : Num) : Nat × BitVec 6 :=
  match x with
  | .nan s p q => (packF f s (f.nanBits p), fIf (!q) fInvalid)
  | .inf s => if f.kf8a then (packF f s f.maxBits, fClamp) else (packF f s f.infBits, 0)
  | .fin s m e =>
    let (r, fl) := roundFin f rm cl s m e
    (packF f s r, fl)

/-! ### Exact operations (R234, R235, R239) -/

/-- The first NaN among operands, quieted. -/
def firstNan : List Num → Option Num
  | [] => none
  | .nan s p _ :: _ => some (.nan s p true)
  | _ :: l => firstNan l

/-- INVALID for a signalling operand (R235). -/
def nanFlags (l : List Num) : BitVec 6 := fIf (l.any Num.isSignalling) fInvalid

/-- An operation on operands that are no NaNs, under the NaN rule of R235. -/
def withNans (ops : List Num) (r : Num × BitVec 6) : Num × BitVec 6 :=
  match firstNan ops with
  | some n => (n, nanFlags ops)
  | none => r

/-- Exact sum of finite values as a signed number times a power of 2. -/
def addFin (s1 : Bool) (m1 : Nat) (e1 : Int) (s2 : Bool) (m2 : Nat) (e2 : Int) : Int × Int :=
  let e := min e1 e2
  let a : Int := shiftNat m1 (e1 - e)
  let b : Int := shiftNat m2 (e2 - e)
  ((if s1 then -a else a) + (if s2 then -b else b), e)

/-- The sum of two values that are no NaNs; an exact zero takes the sign that the mode gives it (R234). -/
def addNum (rm : Nat) (x y : Num) : Num × BitVec 6 :=
  match x, y with
  | .inf s, .inf t => if s = t then (.inf s, 0) else (canonNan, fInvalid)
  | .inf s, _ => (.inf s, 0)
  | _, .inf t => (.inf t, 0)
  | .fin s1 m1 e1, .fin s2 m2 e2 =>
    if m1 = 0 ∧ m2 = 0 ∧ s1 = s2 then (.fin s1 0 0, 0)
    else
      let (n, e) := addFin s1 m1 e1 s2 m2 e2
      if n = 0 then (.fin (rm == 2) 0 0, 0) else (.fin (n < 0) n.natAbs e, 0)
  | a, _ => (a, 0)

/-- The product of two values that are no NaNs. -/
def mulNum (x y : Num) : Num × BitVec 6 :=
  match x, y with
  | .fin s1 m1 e1, .fin s2 m2 e2 => (.fin (s1 != s2) (m1 * m2) (e1 + e2), 0)
  | a, b => if a.isZero || b.isZero then (canonNan, fInvalid) else (.inf (a.neg? != b.neg?), 0)

/-- x * y + z for values that are no NaNs. -/
def fmaNum (rm : Nat) (x y z : Num) : Num × BitVec 6 :=
  let (p, fl) := mulNum x y
  if p.isNan then (p, fl) else addNum rm p z

/-- x + y under R235. -/
def fAdd (rm : Nat) (x y : Num) : Num × BitVec 6 := withNans [x, y] (addNum rm x y)
/-- x * y under R235. -/
def fMul (x y : Num) : Num × BitVec 6 := withNans [x, y] (mulNum x y)
/-- x * y + z under R235; 0 times infinity is invalid whatever z is (R239). -/
def fFma (rm : Nat) (x y z : Num) : Num × BitVec 6 :=
  let (r, fl) := withNans [x, y, z] (fmaNum rm x y z)
  let bad := (x.isInf && y.isZero) || (x.isZero && y.isInf)
  (r, fl ||| fIf bad fInvalid)

/-- A quotient with a sticky last bit, of more bits than any format's significand needs. -/
def divFin (m1 : Nat) (e1 : Int) (m2 : Nat) (e2 : Int) : Nat × Int :=
  let k := 256 + m2.log2
  let q := m1 * 2 ^ k / m2
  (2 * q + (if m1 * 2 ^ k % m2 = 0 then 0 else 1), e1 - e2 - k - 1)

/-- x / y under R235 and R239. -/
def fDiv (x y : Num) : Num × BitVec 6 :=
  withNans [x, y] <|
    let neg := x.neg? != y.neg?
    match x, y with
    | .fin _ m1 e1, .fin _ m2 e2 =>
      if m2 = 0 then (if m1 = 0 then (canonNan, fInvalid) else (.inf neg, fDivzero))
      else if m1 = 0 then (.fin neg 0 0, 0)
      else let (m, e) := divFin m1 e1 m2 e2; (.fin neg m e, 0)
    | .inf _, .inf _ => (canonNan, fInvalid)
    | .inf _, _ => (.inf neg, 0)
    | _, _ => (.fin neg 0 0, 0)

/-- The root of m * 2^e with a sticky last bit. -/
def sqrtFin (m : Nat) (e : Int) : Nat × Int :=
  let k : Nat := if e % 2 = 0 then 256 else 257
  let n := m * 2 ^ k
  let r := n.sqrt
  (2 * r + (if r * r = n then 0 else 1), (e - k) / 2 - 1)

/-- The square root under R235 and R239. -/
def fSqrt (x : Num) : Num × BitVec 6 :=
  withNans [x] <|
    match x with
    | .inf false => (.inf false, 0)
    | .fin s m e =>
      if m = 0 then (.fin s 0 0, 0)
      else if s then (canonNan, fInvalid)
      else let (r, e') := sqrtFin m e; (.fin false r e', 0)
    | _ => (canonNan, fInvalid)

/-- The order of two values that are no NaNs; zeros of either sign are equal. -/
def cmpNum (x y : Num) : Ordering :=
  match x, y with
  | .inf s, .inf t => if s = t then .eq else if s then .lt else .gt
  | .inf s, _ => if s then .lt else .gt
  | _, .inf t => if t then .gt else .lt
  | .fin s1 m1 e1, .fin s2 m2 e2 => compare (addFin s1 m1 e1 (!s2) m2 e2).1 0
  | _, _ => .eq

/-- The smaller of two values, with -0 below +0 (R239). -/
def fMin (x y : Num) : Num × BitVec 6 :=
  withNans [x, y] (match cmpNum x y with
    | .lt => (x, 0) | .gt => (y, 0) | .eq => (if x.neg? then x else y, 0))

/-- The larger of two values, with -0 below +0 (R239). -/
def fMax (x y : Num) : Num × BitVec 6 :=
  withNans [x, y] (match cmpNum x y with
    | .lt => (y, 0) | .gt => (x, 0) | .eq => (if x.neg? then y else x, 0))

/-- x rounded to an integral value (R239): the value, and whether it changed. -/
def rintFin (rm : Nat) (neg : Bool) (m : Nat) (e : Int) : Nat × Bool := roundAt rm neg m e 0

/-- Rounding to an integral value under R235. -/
def fRint (rm : Nat) (x : Num) : Num × BitVec 6 :=
  withNans [x] (match x with
    | .fin s m e => if m = 0 then (x, 0) else
        let (n, ch) := rintFin rm s m e
        (.fin s n 0, fIf ch fInexact)
    | y => (y, 0))

end Sys2Proof.Machine
end

