-- ==== Sys2Proof/Machine/Operands.lean ====
section
/-! DEFINITION. Operand forms of the vector instructions: lanes of a block (R205), formats of descriptors (R227 to
R230), masks (R206), poison (R216), and the checks on source descriptors (R217, R237). -/

namespace Sys2Proof.Machine

/-! ### Lanes -/

/-- Lane k of a block with lanes of `w` bits (R205). -/
def laneOf (w : Nat) (b : Block) (k : Nat) : Nat := b.toNat / 2 ^ (w * k) % 2 ^ w

/-- All lanes of a block. -/
def lanesOf (w : Nat) (b : Block) : List Nat := (List.range (512 / w)).map (laneOf w b)

/-- A number from lanes, lane 0 lowest. -/
def joinLanes (w : Nat) : List Nat → Nat
  | [] => 0
  | x :: xs => x % 2 ^ w + 2 ^ w * joinLanes w xs

/-- A block from lanes; lanes left out are 0. -/
def ofLanes (w : Nat) (l : List Nat) : Block := BitVec.ofNat 512 (joinLanes w l)

/-- A pattern of `w` bits read as signed. -/
def signedOf (w n : Nat) : Int := (BitVec.ofNat w n).toInt

/-- A number reduced to `w` bits. -/
def wrapTo (w : Nat) (i : Int) : Nat := (i % 2 ^ w).toNat

/-- Element width in bits of a size code (R215). -/
def sizeBits (sz : BitVec 2) : Nat := 8 * 2 ^ sz.toNat

/-! ### Formats -/

/-- The floating-point format of a descriptor code (R227). -/
def fmtOfCode (c : Nat) : Option FFmt :=
  match c with
  | 1 => some fp64
  | 2 => some fp32
  | 3 => some bf16
  | 4 => some fp16
  | 5 => some kf8a
  | 6 => some kf8b
  | _ => none

/-- The width of an integer format's elements (R227). -/
def intBitsOfCode (c : Nat) : Option Nat :=
  match c with
  | 7 => some 8
  | 8 => some 16
  | 9 => some 32
  | 10 => some 64
  | _ => none

/-- Element width in bits of the codes 0x01 to 0x0A (R227); 8 for others. -/
def codeBits (c : Nat) : Nat :=
  match c with
  | 1 | 10 => 64
  | 2 | 9 => 32
  | 3 | 4 | 8 => 16
  | _ => 8

/-- The descriptor code of an FMT field: 0 FP64, 1 FP32, 2 BF16, 3 FP16 (R238). -/
def fmtCode (f : BitVec 2) : Nat := f.toNat + 1

/-- The format of an FMT field. -/
def fmtOf (f : BitVec 2) : FFmt :=
  match f.toNat with
  | 0 => fp64
  | 1 => fp32
  | 2 => bf16
  | _ => fp16

/-- The integer format code of an element width (R227). -/
def intCode (w : Nat) : Nat :=
  match w with
  | 8 => 7
  | 16 => 8
  | 32 => 9
  | _ => 10

/-- An integer as a value. -/
def intNum (i : Int) : Num := .fin (i < 0) i.natAbs 0

/-- The value of an element's bits in a format of code 0x01 to 0x0A, before its scale. -/
def elementNum (code bits : Nat) : Num :=
  match fmtOfCode code with
  | some f => decodeF f bits
  | none => intNum (signedOf (codeBits code) bits)

/-- The scale that a descriptor gives: a descriptor of format 0x00 carries none (R230). -/
def scaleOf (d : Desc) : Int := if descFmt d = 0 then 0 else descScale d

/-- The value of an element of a block: element times 2^scale (R230). -/
def laneNum (code : Nat) (v : VVal) (k : Nat) : Num :=
  (elementNum code (laneOf (codeBits code) v.data k)).scale (scaleOf v.desc)

/-! ### Checks -/

/-- Some source is poisoned (R216). -/
def anyPoison (l : List VVal) : Bool := l.any fun v => isPoison v.desc

/-- A poisoned register (R216). -/
def poisonVal : VVal := ⟨0, poisonDesc⟩

/-- A descriptor format fault that a register's descriptor raises; what w2 holds is open, since R365 names blocks, slots and
tiles only (log entry 10). -/
def descFault {α : Type} (s : State) (d : Desc) : Except State α :=
  let (n, s) := s.takeFree
  slotFault s cDesc (Config.openWord n) (d.setWidth 64) 0

/-- Every source carries format `code` or 0x00 (R217); otherwise the fault names the first that does not. -/
def needFormat (s : State) (code : Nat) : List VVal → Except State Unit
  | [] => .ok ()
  | v :: l => if descFmt v.desc = code ∨ descFmt v.desc = 0 then needFormat s code l else descFault s v.desc

/-- Every source carries floating-point format `code` with any scale, or 0x0000 (R237). -/
def needFloat (s : State) (code : Nat) : List VVal → Except State Unit
  | [] => .ok ()
  | v :: l => if descFmt v.desc = code ∨ v.desc = 0 then needFloat s code l else descFault s v.desc

/-- Scales agree where both sources carry a format (R217). Of two that differ, the fault record names vb's (DESIGN CHOICE: log entry 127). -/
def needScales (s : State) (a b : VVal) : Except State Unit :=
  if descFmt a.desc ≠ 0 ∧ descFmt b.desc ≠ 0 ∧ descScale a.desc ≠ descScale b.desc then descFault s b.desc else .ok ()

/-- The result descriptor of integer lanes: the scale of whichever source carries a format, va first (R217). -/
def intResult (w : Nat) (a b : VVal) : Desc :=
  if descFmt a.desc ≠ 0 then mkDesc (intCode w) (descScale a.desc)
  else if descFmt b.desc ≠ 0 then mkDesc (intCode w) (descScale b.desc)
  else 0

/-! ### Results -/

/-- Lane k is written: bit k of a mask (R206). -/
def inMask (m : Word64) (k : Nat) : Bool := m.getLsbD k

/-- New lanes under a write mask, the other lanes 0, with the flags of the lanes written (R206, R236). -/
def maskLanes (w : Nat) (m : Word64) (f : Nat → Nat × BitVec 6) : Block × BitVec 6 :=
  let r := (List.range (512 / w)).map fun k => if inMask m k then f k else (0, 0)
  (ofLanes w (r.map (·.1)), (r.map (·.2)).foldl (· ||| ·) 0)

/-- The bits of the lanes that a write mask leaves out (R206). -/
def maskKeep (w : Nat) (m : Word64) : Block :=
  ofLanes w ((List.range (512 / w)).map fun k => if inMask m k then 0 else 2 ^ w - 1)

/-- Write lanes under a mask into v[d] with a result descriptor, and queue the flags (R206, R236). The other lanes keep the data that they hold
when the result is delivered, so v[d] is not read at issue and is no source for R216 (log entry 77). -/
def State.putLanes (s : State) (d : VRegNo) (m : Word64) (w : Nat) (desc : Desc) (lat : Nat) (f : Nat → Nat × BitVec 6) :
    State :=
  let (b, fl) := maskLanes w m f
  (s.putPart d (maskKeep w m) ⟨b, desc⟩ lat).putFlags fl lat

/-- Unless a source is poisoned, `k`; otherwise a poisoned v[d] and nothing else (R216). -/
def vUnlessPoison (s : State) (d : VRegNo) (lat : Nat) (src : List VVal) (k : Except State State) : Except State State :=
  if anyPoison src then .ok (s.putV d poisonVal lat) else k

/-- The same for a mask destination: 0, and kstat.POISON (R216). -/
def mUnlessPoison (s : State) (d : MReg) (lat : Nat) (src : List VVal) (k : Except State State) : Except State State :=
  if anyPoison src then .ok ((s.putM d 0 lat).putStat stPoison) else k

end Sys2Proof.Machine
end

