-- ==== Sys2Proof/Machine/Panes.lean ====
section
/-! DEFINITION. Frames, panes and the arena as data, and reading through a chain (R90 to R107, R281, R416). -/

namespace Sys2Proof.Machine

/-! ### Frame records (R90, R91) -/

/-- Element width in bits. -/
def FrameRec.width (r : FrameRec) : Nat := codeBits r.fmt
/-- Element size in bytes. -/
def FrameRec.elem (r : FrameRec) : Nat := codeBits r.fmt / 8
/-- Elements of a block. -/
def FrameRec.perBlock (r : FrameRec) : Nat := 512 / codeBits r.fmt
/-- Dimension j; 0 is read as 1. -/
def FrameRec.dim (r : FrameRec) (j : Nat) : Nat := max (bits r.dims (16 * j + 15) (16 * j)) 1
/-- Elements of a frame. -/
def FrameRec.count (r : FrameRec) : Nat := r.dim 0 * r.dim 1 * r.dim 2 * r.dim 3
/-- Bytes of a frame's extent. -/
def FrameRec.extent (r : FrameRec) : Nat := (r.count * r.elem + 63) / 64 * 64
/-- The kind of the pages that a frame lies on (R91, R274). -/
def FrameRec.pageKind (r : FrameRec) : Nat := if r.adjoint then 2 else 1
/-- An address lies in the extent. -/
def FrameRec.holds (r : FrameRec) (va : Nat) : Bool := r.base ≤ va && va < r.base + r.extent

/-- The fields of a record's eight words. -/
def frameRecOf (va : Nat) (ws : List Word64) : FrameRec where
  va := va
  base := bits (ws.getD 0 0) 55 0
  dims := ws.getD 1 0
  layout := (ws.getD 2 0).extractLsb' 32 32
  clampen := bit (ws.getD 2 0) 19
  hglaze := bit (ws.getD 2 0) 18
  addok := bit (ws.getD 2 0) 17
  diff := bit (ws.getD 2 0) 16
  maxdepth := bits (ws.getD 2 0) 15 8
  fmt := bits (ws.getD 2 0) 7 0
  clamp := ws.getD 3 0
  arena := (ws.getD 4 0).toNat
  arenalen := bits (ws.getD 5 0) 31 0
  adj := (ws.getD 6 0).toNat

/-- A clamp bound that R91 refuses. -/
def clampBad (fmt : Nat) (c : Word64) : Bool :=
  match fmtOfCode fmt with
  | some f =>
    match decodeF fp64 c.toNat with
    | .fin neg _ _ => neg || cmpNum (decodeF fp64 c.toNat) (decodeF f (packF f false f.maxBits)) == .gt
    | _ => true
  | none => 2 ^ (codeBits fmt - 1) ≤ c.toNat

/-- A record that is malformed in itself (R91). -/
def frameRecBad (ws : List Word64) (r : FrameRec) : Bool :=
  bits (ws.getD 0 0) 63 56 != 0 || bits (ws.getD 2 0) 31 20 != 0 || bits (ws.getD 5 0) 63 32 != 0 || ws.getD 7 0 != 0
    || bits r.dims 15 0 == 0 || r.maxdepth == 0 || 64 < r.maxdepth || r.arenalen < 6
    || r.fmt == 0 || 10 < r.fmt || (r.addok && (r.fmt == 1 || r.fmt == 10)) || clampBad r.fmt r.clamp
    || r.base % 64 != 0 || r.arena % 64 != 0 || r.diff != (r.adj != 0)

/-- Two records have the same dimensions; 0 is read as 1 (R90). -/
def FrameRec.sameDims (r q : FrameRec) : Bool := (List.range 4).all fun j => r.dim j == q.dim j

/-- The record that a DIFF record names as its adjoint does not fit it (R91). -/
def adjointMismatch (r a : FrameRec) : Bool :=
  a.fmt != 2 || !a.addok || a.diff || !a.sameDims r || a.layout != r.layout

/-- The fields that stay fixed while the arena holds a pane agree (R113). -/
def FrameRec.agrees (r q : FrameRec) : Bool :=
  r.base == q.base && r.sameDims q && r.layout == q.layout && r.fmt == q.fmt && r.addok == q.addok &&
    r.diff == q.diff && r.adj == q.adj && r.arenalen == q.arenalen

/-! ### Rounding and clamp (R103) -/

/-- The clamp bound of a floating format as exponent and fraction: CLAMP rounded toward zero, or the format's maximum. -/
def FrameRec.boundBits (r : FrameRec) (f : FFmt) : Nat :=
  if r.clamp = 0 then f.maxBits
  else match decodeF fp64 r.clamp.toNat with
    | .fin _ m e => min (roundFin f 1 false false m e).1 f.maxBits
    | _ => f.maxBits

/-- An unscaled value rounded to nearest even and clamped into the frame's format: element bits and flags. -/
def FrameRec.fit (r : FrameRec) (x : Num) : Nat × BitVec 6 :=
  match fmtOfCode r.fmt with
  | some f =>
    if !f.narrow && !r.clampen then roundF f 0 false x
    else
      let b := r.boundBits f
      match x with
      | .nan .. => roundF f 0 false x
      | .inf s => (packF f s b, fClamp)
      | .fin s m e =>
        let (v, fl) := roundFin f 0 true s m e
        if b < v then (packF f s b, fl ||| fClamp) else (packF f s v, fl)
  | none =>
    let w := r.width
    match x with
    | .fin s m e =>
      let (n, ch) := roundAt 0 s m e 0
      let i : Int := if s then -(n : Int) else n
      let hi : Int := if r.clamp = 0 then 2 ^ (w - 1) - 1 else r.clamp.toNat
      let lo : Int := if r.clamp = 0 then -(2 ^ (w - 1)) else -(r.clamp.toNat : Int)
      if hi < i then (wrapTo w hi, fIf ch fInexact ||| fClamp)
      else if i < lo then (wrapTo w lo, fIf ch fInexact ||| fClamp)
      else (wrapTo w i, fIf ch fInexact)
    | _ => (0, 0)

/-! ### Panes (R95, R98) -/

/-- The block of a pane at an index of the extent. -/
def Pane.block? (p : Pane) (b : Nat) : Option PaneBlock := p.blocks.find? fun k => k.idx == b

/-- A pane with a block replaced, or added at the end of its footprint. -/
def Pane.setBlock (p : Pane) (k : PaneBlock) : Pane :=
  if p.blocks.any fun j => j.idx == k.idx then
    { p with blocks := p.blocks.map fun j => if j.idx == k.idx then k else j }
  else { p with blocks := p.blocks ++ [k] }

/-- A pane with a cleared element (R281). -/
def Pane.hasCleared (p : Pane) : Bool := p.blocks.any fun k => k.cleared != 0

/-- A pane that R104 treats as an OW pane. -/
def Pane.resets (p : Pane) : Bool := p.ow || p.hasCleared

/-- Pre-image blocks of an applied pane (R98, R281). -/
def Pane.preBlocks (p : Pane) : Nat := (p.blocks.filter fun k => k.pre.isSome).length

/-- Arena blocks of `n` footprint blocks: data and masks. -/
def footBlocks (n : Nat) : Nat := n + (n + 7) / 8

/-- Arena blocks of a pane without its pre-image. -/
def Pane.ownBlocks (p : Pane) : Nat := 1 + footBlocks p.blocks.length

/-- Arena blocks of a pane. -/
def Pane.arenaBlocks (p : Pane) : Nat := p.ownBlocks + p.preBlocks

/-- Arena blocks that saved launches hold (R98, R381). -/
def Frame.savedBlocks (f : Frame) : Nat := (f.kept.map fun (_, p) => p.arenaBlocks).sum + (f.held.map (·.2)).sum

/-- Arena blocks in use. -/
def Frame.used (f : Frame) : Nat :=
  (f.loose.map Pane.arenaBlocks).sum + (f.chain.map Pane.arenaBlocks).sum + f.zombie + f.savedBlocks

/-- Arena blocks that hold panes (R93). -/
def Frame.capacity (f : Frame) : Nat := f.info.arenalen - 5

/-- The arena holds some pane. -/
def Frame.hasPanes (f : Frame) : Bool := !f.loose.isEmpty || !f.chain.isEmpty || !f.kept.isEmpty

/-- A name is in use (R96); the open panes of saved launches keep theirs. -/
def Frame.nameUsed (f : Frame) (n : Nat) : Bool := ((f.loose ++ f.chain).any fun p => p.name == n) || f.kept.any fun (_, p) => p.name == n

/-- The pane that context x of core g has open (R97); implicit panes are not reached (R281). -/
def Frame.openOf (f : Frame) (g x : Nat) : Option Pane :=
  f.loose.find? fun p => p.st == .opened g x && !p.implicit

/-- The implicit pane of context x of core g (R281). -/
def Frame.implicitOf (f : Frame) (g x : Nat) : Option Pane :=
  f.loose.find? fun p => p.st == .opened g x && p.implicit

/-- A sealed pane by name. -/
def Frame.sealedPane (f : Frame) (n : Nat) : Option Pane := f.loose.find? fun p => p.name == n && p.st == .sealed

/-- The position of an applied pane by name. -/
def Frame.position (f : Frame) (n : Nat) : Option Nat := f.chain.findIdx? fun p => p.name == n

/-- The frame with a pane that is not applied replaced. -/
def Frame.setLoose (f : Frame) (p : Pane) : Frame :=
  { f with loose := f.loose.map fun q => if q.name == p.name then p else q }

/-- The frame without a pane that is not applied. -/
def Frame.dropLoose (f : Frame) (n : Nat) : Frame := { f with loose := f.loose.filter fun q => q.name != n }

/-- Blocks freed from a pane: those of a pane of an earlier launch stay counted until retirement (R98). -/
def Frame.freed (f : Frame) (p : Pane) (n : Nat) : Frame := if p.old then { f with zombie := f.zombie + n } else f

/-- A settle request of a pane that is gone stays counted (R120). -/
def Frame.loseSettle (f : Frame) (p : Pane) : Frame := { f with settleLost := f.settleLost + if p.settle then 1 else 0 }

/-- Two panes commute (R104). -/
def commutes (p q : Pane) : Bool :=
  (!p.resets && !q.resets) || !(p.blocks.any fun k => q.blocks.any fun j => j.idx == k.idx)

/-- A pane without its pre-image. -/
def Pane.dropPre (p : Pane) : Pane := { p with blocks := p.blocks.map fun k => { k with pre := none, prePoison := false } }

/-! ### Reading through (R102, R281) -/

/-- A pane block as a block with its descriptor. -/
def PaneBlock.val (k : PaneBlock) (fmt : Nat) : VVal := ⟨k.data, mkDesc fmt k.scale⟩

/-- What one pane does to element i of block b: nothing, a reset or a term. -/
inductive PaneTerm where
  | none
  | reset (v : Num)
  | term (v : Num)
deriving DecidableEq, Repr, Inhabited

/-- The term of a pane. The negation of a pane leaves its cleared elements alone: they stand for values (R116, R281). -/
def Pane.termAt (p : Pane) (fmt b i : Nat) : PaneTerm :=
  match p.block? b with
  | Option.none => .none
  | some k =>
    if !k.present.getLsbD i then .none
    else
      let v := laneNum fmt (k.val fmt) i
      if k.cleared.getLsbD i then .reset v
      else
        let v := if p.negated then v.negate else v
        if p.ow then .reset v else .term v

/-- The terms that the summer adds, from the highest reset up. -/
def paneTerms (fmt b i : Nat) (start : Num) (chain : List Pane) : List Num :=
  chain.foldl (fun l p => match p.termAt fmt b i with
    | .none => l
    | .reset v => [v]
    | .term v => l ++ [v]) [start]

/-- The exact sum of the terms with its special states and flags (R102). -/
def sumTerms (l : List Num) : Num × BitVec 6 :=
  match firstNan l with
  | some n => (n, nanFlags l)
  | none =>
    let pos := l.any fun x => x.isInf && !x.neg?
    let neg := l.any fun x => x.isInf && x.neg?
    if pos && neg then (canonNan, fInvalid)
    else if pos then (.inf false, 0)
    else if neg then (.inf true, 0)
    else match l with
      | [] => (.fin false 0 0, 0)
      | x :: xs => (xs.foldl (fun a y => (addNum 0 a y).1) x, 0)

/-- How a read-through comes out. -/
inductive ReadThrough where
  | ok (v : VVal) (flags : BitVec 6)
  /-- A frame block of a format other than the frame's (R100). -/
  | badFormat (d : Desc)
deriving DecidableEq, Repr, Inhabited

/-- A block that the chain poisons: the frame's block, or a pane block (R100, R102). -/
def chainPoisons (chain : List Pane) (fb : VVal) (b : Nat) : Bool :=
  isPoison fb.desc || chain.any fun p => match p.block? b with | some k => k.poison | none => false

/-- A frame block's own format is allowed (R100). -/
def FrameRec.formatOk (r : FrameRec) (d : Desc) : Bool := descFmt d == r.fmt || descFmt d == 0

/-- The scale of a frame block: that of its descriptor, 0 for 0x00 (R100). -/
def blockScale (d : Desc) : Int := if descFmt d = 0 then 0 else descScale d

/-- Element i of block b read through a chain, as an exact value with the summer's flags. -/
def FrameRec.paneSum (r : FrameRec) (chain : List Pane) (fb : VVal) (b i : Nat) : Num × BitVec 6 :=
  sumTerms (paneTerms r.fmt b i (laneNum r.fmt fb i) chain)

/-- Block b read through a chain over the frame's own block (R102, R103). Where the frame's block has a wrong format and a pane block above it is
poisoned the manual does not say which comes first: the descriptor format fault does (DESIGN CHOICE: log entry 93). -/
def FrameRec.readThrough (r : FrameRec) (chain : List Pane) (fb : VVal) (b : Nat) : ReadThrough :=
  if !isPoison fb.desc && !r.formatOk fb.desc then .badFormat fb.desc
  else if chainPoisons chain fb b then .ok poisonVal 0
  else
    let sc := blockScale fb.desc
    let lanes := (List.range r.perBlock).map fun i =>
      let (x, fl) := r.paneSum chain fb b i
      let (v, fl') := r.fit (x.scale (-sc))
      (v, fl ||| fl')
    .ok ⟨ofLanes r.width (lanes.map (·.1)), mkDesc r.fmt sc⟩ ((lanes.map (·.2)).foldl (· ||| ·) 0)

/-! ### The frame directory (R416) -/

/-- Frame records that a launch may enter. -/
def directorySize : Nat := 256

/-- The entered frame whose extent holds an address: its record's physical address and itself. -/
def State.frameFor (s : State) (va : Nat) : Option (Nat × Frame) :=
  s.frames.find? fun (_, f) => f.inDir && f.info.holds va

/-- Entered records. -/
def State.directoryCount (s : State) : Nat := (s.frames.filter fun (_, f) => f.inDir).length

/-- How the read of a block comes out, read-through included. -/
inductive BlockRead where
  | ok (v : VVal) (flags : BitVec 6)
  /-- An address on a page of kind frame or adjoint that no entered extent holds (R416). -/
  | noExtent
  | badFormat (d : Desc)
deriving DecidableEq, Repr, Inhabited

/-- The block at a location: a read-through on frame and adjoint pages (R94, R416), else the stored block. -/
def State.blockAt (s : State) (l : Loc) (va : Nat) : BlockRead :=
  if l.space == .main && l.kind != 0 then
    match s.frameFor va with
    | none => .noExtent
    | some (_, f) =>
      match f.info.readThrough f.chain (s.readBlock l.key) ((va - f.info.base) / 64) with
      | .ok v fl => .ok v fl
      | .badFormat d => .badFormat d
  else .ok (s.readBlock l.key) 0

/-- The declared latency of an access to a location (R88). -/
def State.latencyOf (s : State) (g va : Nat) (l : Loc) : Nat :=
  declaredLatency g l.space (if l.kind != 0 then (s.frameFor va).map fun (_, f) => f.info.maxdepth else none)

/-! ### Changes to a frame (R106) -/

/-- The chain of a frame is kept as it stands before the launch first changes it (R106). -/
def State.snapFrame (s : State) (pa : Nat) : State :=
  match s.launch with
  | some l =>
    if l.snaps.any fun e => e.1 == pa then s
    else { s with launch := some { l with snaps := l.snaps ++ [(pa, s.frame pa)] } }
  | none => s

/-- A pane event on a frame (R105). -/
def State.changeFrame (s : State) (pa : Nat) (f : Frame) : State := (s.snapFrame pa).setFrame pa f

/-- Room for `n` arena blocks, or the arena-full trap (R98, R364). -/
def needArena (s : State) (pa : Nat) (f : Frame) (n : Nat) : Except State Unit :=
  if f.used + n ≤ f.capacity then .ok () else slotTrap s 2 (w64 pa) (w64 n)

/-- A pane-conflict fault naming the frame and two panes (R365). -/
def paneFault {α : Type} (s : State) (pa p q : Nat) : Except State α := slotFault s cPane (w64 pa) 0 (w64 (q * 2 ^ 16 + p))

/-- The frame's own block b, read by the slot that executes through the translation of its cluster (R416). -/
def frameRaw (s : State) (r : FrameRec) (b : Nat) : Except State VVal :=
  let va := r.base + 64 * b
  match s.xlat (clusterOf s.iss.g) va with
  | .barred => protFault s (w64 va)
  | .walk => slotWalk s (w64 va) 0
  | .loc l => if l.rd && l.kind != 0 then .ok (s.readBlock l.key) else protFault s (w64 va)

/-- Block b read through a chain by the slot that executes; a wrong format names the block's address (R365). -/
def frameRead (s : State) (r : FrameRec) (chain : List Pane) (b : Nat) : Except State (VVal × BitVec 6) := do
  let fb ← frameRaw s r b
  match r.readThrough chain fb b with
  | .ok v fl => .ok (v, fl)
  | .badFormat d => slotFault s cDesc (w64 (r.base + 64 * b)) (d.setWidth 64) 0

/-- A pane block takes a pre-image of the chain below at its apply event: every footprint block of an OW pane, and the blocks
of another that hold a cleared element (R99, R281). -/
def takesPre (p : Pane) (k : PaneBlock) : Bool := p.ow || k.cleared != 0

/-- The blocks of a pane with their pre-images captured below it. -/
def capturePre (s : State) (r : FrameRec) (below : List Pane) (p : Pane) : List PaneBlock → Except State (List PaneBlock)
  | [] => .ok []
  | k :: ks => do
    let rest ← capturePre s r below p ks
    if takesPre p k then
      let (v, _) ← frameRead s r below k.idx
      .ok ({ k with pre := some v.data, preScale := scaleOf v.desc, prePoison := isPoison v.desc } :: rest)
    else .ok (k :: rest)

/-- Pre-image blocks that an apply takes. -/
def Pane.preNeeded (p : Pane) : Nat := (p.blocks.filter fun k => takesPre p k).length

/-- Insert a number in rising order, once. -/
def insertOnce (n : Nat) : List Nat → List Nat
  | [] => [n]
  | m :: ms => if n < m then n :: m :: ms else if n = m then m :: ms else m :: insertOnce n ms

/-- The union of footprints, by rising index. -/
def unionFoot (run : List Pane) : List Nat :=
  run.foldl (fun l p => p.blocks.foldl (fun l k => insertOnce k.idx l) l) []

/-- Present bits of a whole block. -/
def fullMask (n : Nat) : BitVec 64 := BitVec.ofNat 64 (2 ^ n - 1)

/-- One block of the merge of a run of ADD panes (R118): the sum of the present deltas, rounded at the frame block's scale. What a poisoned pane
block of the run gives the manual does not say: the merged block is poisoned, with zero data (DESIGN CHOICE: log entry 94). -/
def glazeAddBlock (r : FrameRec) (run : List Pane) (fb : VVal) (b : Nat) : PaneBlock × BitVec 6 :=
  let sc := blockScale fb.desc
  let at_ (i : Nat) : List Num := run.filterMap fun p => match p.termAt r.fmt b i with
    | .none => none
    | .reset v => some v
    | .term v => some v
  let res := (List.range r.perBlock).map fun i =>
    let ts := at_ i
    if ts.isEmpty then (0, (0 : BitVec 6), false)
    else
      let (x, fl) := sumTerms ts
      let (v, fl') := r.fit (x.scale (-sc))
      (v, fl ||| fl', true)
  let present := BitVec.ofNat 64 (joinLanes 1 (res.map fun e => if e.2.2 then 1 else 0))
  let poison := run.any fun p => match p.block? b with | some k => k.poison | none => false
  ({ idx := b, data := if poison then 0 else ofLanes r.width (res.map (·.1)), scale := sc, present, poison },
    (res.map (·.2.1)).foldl (· ||| ·) 0)

/-- The blocks of a merge with their flags. `below` is the chain below the run, `upto` the chain up to its top. Rounding of the captured pre-images
counts for no flag (DESIGN CHOICE: log entry 122). -/
def glazeBlocks (s : State) (r : FrameRec) (add : Bool) (below run : List Pane) :
    List Nat → Except State (List PaneBlock × BitVec 6)
  | [] => .ok ([], 0)
  | b :: bs => do
    let (rest, fl) ← glazeBlocks s r add below run bs
    if add then
      let fb ← frameRaw s r b
      let (k, fl') := glazeAddBlock r run fb b
      .ok (k :: rest, fl ||| fl')
    else
      let (v, fl') ← frameRead s r (below ++ run) b
      let (pre, _) ← frameRead s r below b
      .ok ({ idx := b, data := v.data, scale := scaleOf v.desc, present := fullMask r.perBlock, poison := isPoison v.desc,
             pre := some pre.data, preScale := scaleOf pre.desc, prePoison := isPoison pre.desc } :: rest, fl ||| fl')

/-- The pane that PGLAZE makes of the run between two positions of a chain (R118), with its flags. -/
def glazePane (s : State) (pa : Nat) (f : Frame) (lo hi name : Nat) : Except State (Pane × BitVec 6) := do
  let run := (f.chain.drop lo).take (hi + 1 - lo)
  let add := run.all fun p => !p.resets
  let foot := unionFoot run
  needArena s pa f (1 + footBlocks foot.length + (if add then 0 else foot.length))
  let (blocks, fl) ← glazeBlocks s f.info add (f.chain.take lo) run foot
  .ok ({ name, ow := !add, st := .applied, blocks, glazed := true, inexact := (fl &&& fInexact) != 0 }, fl)

/-- The frame with the run between two positions replaced by its merge; the run's blocks are freed (R98, R118). -/
def Frame.glazed (f : Frame) (lo hi : Nat) (p : Pane) : Frame :=
  let run := (f.chain.drop lo).take (hi + 1 - lo)
  run.foldl (fun f q => (f.freed q q.arenaBlocks).loseSettle q)
    { f with chain := f.chain.take lo ++ p :: f.chain.drop (hi + 1) }

/-! ### Storing into panes (R98, R100, R112) -/

/-- A block with one lane replaced. -/
def setLane (w : Nat) (b : Block) (i v : Nat) : Block :=
  ofLanes w ((List.range (512 / w)).map fun j => if j = i then v else laneOf w b j)

/-- An element's bits put into a pane block and marked present. -/
def PaneBlock.put (k : PaneBlock) (w i v : Nat) : PaneBlock :=
  { k with data := setLane w k.data i v, present := k.present ||| BitVec.ofNat 64 (2 ^ i) }

/-- An exact value added into an element, or stored where none is present, rounded at the pane block's scale and clamped
(R112, R282). -/
def PaneBlock.accumulate (k : PaneBlock) (r : FrameRec) (i : Nat) (x : Num) : PaneBlock × BitVec 6 :=
  let (y, fl) := if k.present.getLsbD i then fAdd 0 (laneNum r.fmt (k.val r.fmt) i) x else (x, 0)
  let (v, fl') := r.fit (y.scale (-k.scale))
  (k.put r.width i v, fl ||| fl')

/-- Arena blocks that a pane needs for the footprint blocks of a list that it lacks (R98). -/
def Pane.needFor (p : Pane) (bs : List Nat) : Nat :=
  let fresh := (bs.dedup.filter fun b => (p.block? b).isNone).length
  footBlocks (p.blocks.length + fresh) - footBlocks p.blocks.length

/-- The scale that the frame's own block b gives a pane block: its descriptor is looked up through the page's translation. The permissions of R67 are
those of the store, for which R112 names no read. -/
def frameScale (s : State) (r : FrameRec) (b : Nat) : Except State Int :=
  let va := r.base + 64 * b
  match s.xlat (clusterOf s.iss.g) va with
  | .barred => protFault s (w64 va)
  | .walk => slotWalk s (w64 va) 1
  | .loc l => if l.kind != 0 then .ok (blockScale (s.descAt l.key)) else protFault s (w64 va)

/-- The pane with a footprint block for index b (R98, R100). A new one takes the scale of the frame's own block at an element store, and a `plain`
block store sets its own. R100 does not name an accumulating block store: it takes the frame block's scale too (DESIGN CHOICE: log entry 95). -/
def touchBlock (s : State) (r : FrameRec) (plain : Bool) (p : Pane) (b : Nat) : Except State Pane := do
  match p.block? b with
  | some _ => .ok p
  | none =>
    let scale ← (if plain then .ok 0 else frameScale s r b)
    .ok (p.setBlock { idx := b, data := 0, scale, present := 0 })

/-- The pane with footprint blocks for every index of a list. -/
def touchBlocks (s : State) (r : FrameRec) (plain : Bool) (p : Pane) : List Nat → Except State Pane
  | [] => .ok p
  | b :: bs => do
    let p ← touchBlock s r plain p b
    touchBlocks s r plain p bs

/-- A whole block stored into a pane block, replacing it (R100, R112). -/
def PaneBlock.replace (k : PaneBlock) (r : FrameRec) (x : VVal) : PaneBlock :=
  if isPoison x.desc then { k with data := 0, poison := true, present := fullMask r.perBlock }
  else { k with data := x.data, poison := false, scale := scaleOf x.desc, present := fullMask r.perBlock }

/-- A whole block added elementwise into a pane block (R112). -/
def PaneBlock.accumulateAll (k : PaneBlock) (r : FrameRec) (x : VVal) : PaneBlock × BitVec 6 :=
  (List.range r.perBlock).foldl (fun (acc : PaneBlock × BitVec 6) i =>
    let (k, fl) := acc.1.accumulate r i (laneNum r.fmt x i)
    (k, acc.2 ||| fl)) (k, 0)

/-- A block stored into a pane block as ST.G.BLK stores it (R112): flags are those of an accumulating store. -/
def PaneBlock.storeBlock (k : PaneBlock) (r : FrameRec) (acc : Bool) (x : VVal) : PaneBlock × BitVec 6 :=
  if k.poison && acc then (k, 0)
  else if isPoison x.desc || !acc then (k.replace r x, 0)
  else k.accumulateAll r x

/-- An element stored into a pane block (R112). -/
def PaneBlock.storeElem (k : PaneBlock) (r : FrameRec) (acc : Bool) (i v : Nat) : PaneBlock × BitVec 6 :=
  if k.poison then (k, 0)
  else if acc && k.present.getLsbD i then
    k.accumulate r i ((elementNum r.fmt (v % 2 ^ r.width)).scale k.scale)
  else (k.put r.width i v, 0)

/-! ### Applying panes (R101, R115, R407) -/

/-- While the host has been asked to glaze a frame, pane events of other contexts on it wait (R407). -/
def paneGate (s : State) (pa : Nat) (f : Frame) : Except State Unit :=
  match f.glazeWait with
  | some w => if w = (s.iss.g, s.iss.x) then .ok () else slotWait s (.glazeDone pa)
  | none => .ok ()

/-- The two lowest panes of a chain are glazed at the chain limit: both are of kind ADD. A pane with cleared elements keeps its kind here, since R281
names other rules for treating it as an OW pane (R101). -/
def Frame.canGlaze (f : Frame) : Bool :=
  f.info.hglaze && (match f.chain with | p :: q :: _ => !p.ow && !q.ow | _ => false)

/-- The apply is held until the host has glazed, and the host is told the frame and its two lowest panes (R407). -/
def glazeByHost {α : Type} (s : State) (pa : Nat) (f : Frame) : Except State α :=
  let names := (f.chain.take 2).map fun p => w64 p.name
  let asked := f.glazeWait == some (s.iss.g, s.iss.x)
  let s := s.setFrame pa { f with glazeWait := some (s.iss.g, s.iss.x) }
  .error ((if asked then s else s.message ([w64 pa] ++ names ++ [0])).modIss fun i => { i.keep with glazeHold := some pa })

/-- The chain-full trap (R364). -/
def chainFull {α : Type} (s : State) (pa name : Nat) : Except State α := slotTrap s 3 (w64 pa) (w64 name)

/-- The frame with room for one more pane on its chain: as it stands, or with its two lowest panes glazed (R101), by the host's leave
where the function-mode word gives it that duty. The apply then proceeds, also where MAXDEPTH has been lowered below the depth (R113). -/
def makeRoom (s : State) (pa : Nat) (f : Frame) (name : Nat) : Except State (Frame × BitVec 6) := do
  if f.chain.length + 1 ≤ f.info.maxdepth then .ok (f, 0)
  else if !f.canGlaze then chainFull s pa name
  else if s.hostDoes 1 && !s.iss.glazeOk.contains pa then glazeByHost s pa f
  else
    let low := match f.chain with | p :: _ => p.name | [] => 0
    let (p, fl) ← glazePane s pa f 0 1 low
    .ok (f.glazed 0 1 p, fl)

/-- A pane placed on top of a chain, with its pre-image (R99, R115). The pane may stand among those that are not applied, where its
own blocks count already; `extra` blocks are taken beside the pre-image. -/
def applyOne (s : State) (pa : Nat) (f : Frame) (p : Pane) (extra : Nat) : Except State (Frame × BitVec 6) := do
  let (f, fl) ← makeRoom s pa f p.name
  needArena s pa f (extra + p.preNeeded)
  let f := f.dropLoose p.name
  let blocks ← capturePre s f.info f.chain p p.blocks
  .ok ({ f with chain := f.chain ++ [{ p with st := .applied, implicit := false, blocks }], glazeWait := none }, fl)

/-- Panes of distinct frames, each standing among those that are not applied, applied in turn; nothing is stored yet. -/
def applyAll (s : State) : List (Nat × Pane) → Except State (List (Nat × Frame) × BitVec 6)
  | [] => .ok ([], 0)
  | (pa, p) :: rest => do
    let f := s.frame pa
    paneGate s pa f
    let (f', fl) ← applyOne s pa f p 0
    let (fs, fl') ← applyAll s rest
    .ok ((pa, f') :: fs, fl ||| fl')

/-- Store the frames of one pane event (R105, R115). -/
def State.changeFrames (s : State) (fs : List (Nat × Frame)) : State := fs.foldl (fun s (pa, f) => s.changeFrame pa f) s

end Sys2Proof.Machine
end

