-- ==== Sys2Proof/Machine/Issue.lean ====
section
/-! DEFINITION. The freezes that hold an issue, the completion of one (R293, R302, R303), the shared entry to the trap handler (R366 to R372) and the
way back (R391), and the start and end of a context. -/

namespace Sys2Proof.Machine

/-! ### Freezes (R11, R350, R372) -/

/-- A core holds a cause that freezes every computing core of a deterministic launch: a freeze or a held context of a computing core, a context in
its trap handler, on a service core too, or a channel's walk or page-wait (R350, R372). -/
def Core.detCause (c : Core) (g : Nat) : Bool :=
  (computing g && (!c.frozen.isEmpty || c.ctxs.toList.any fun k => k.run == .held)) || (c.ctxs.toList.any fun k => k.k.trapIn) ||
    c.chans.toList.any fun h => h.st == .pageWait || h.walk.isSome

/-- Some cause freezes the computing cores of a deterministic launch (R350, R372, R396). -/
def State.detFrozen (s : State) : Bool :=
  s.det && ((s.cores.any fun (g, c) => c.detCause g) ||
    (s.clusters.any fun (_, c) => c.tasks.toList.any fun q => q.any fun t => t.fault.isSome) ||
    (s.colls.any fun (_, e) => (e.running.toList ++ e.jobs).any fun j => j.fault.isSome) ||
    (match s.launch with | some l => l.logStall | none => false))

/-- A core's clock domain is frozen; in a deterministic launch the cycle of a RETT still belongs to the freeze that it ends (R372). -/
def State.coreFrozen (s : State) (g : Nat) : Bool :=
  !(s.core g).frozen.isEmpty || (computing g && (s.detFrozen || (s.det && s.sclkHold)))

/-- The handler of a trap issues during the freeze that the trap of a deterministic launch makes (R372). -/
def State.mayIssueFrozen (s : State) (g x : Nat) : Bool := s.det && (s.core g).frozen.isEmpty && (s.ctx g x).k.trapIn

/-! ### The selector (R341) -/

/-- The next running context after x, or none. -/
def Core.nextRunning (c : Core) (x : Nat) : Option Nat :=
  ([1, 2, 3].map fun d => (x + d) % 4).find? fun y => (c.ctx y).run == .running && !(c.ctx y).stopped

/-- When the current context is not running, the next running one becomes current. -/
def Core.select (c : Core) : Core :=
  if (c.ctx c.cur).run == .running && !(c.ctx c.cur).stopped then c
  else match c.nextRunning c.cur with
    | some y => { c with cur := y, quantum := 0 }
    | none => c

/-- The slot number under which a nest's bases are written back, after every other result of their delivery (R302). -/
def baseSlot : Nat := 5

/-- The core has issued: the selector's quantum counts the issues made while another context is running (R341). -/
def Core.countIssue (c : Core) : Core := { c with quantum := if (c.nextRunning c.cur).isSome then c.quantum + 1 else 0 }

/-! ### Snapshot registers (R371) -/

/-- What the snapshot registers hold of the code that the context runs: of its trap handler, or of the code that the handler serves. -/
def Ctx.ownSnap (k : Ctx) : Option Snapshot := if k.k.trapIn then k.handlerSnap else k.snap

/-- The context with that part of its snapshot registers replaced. What the trapped code has in them stays until RETT, whatever stops the handler. -/
def Ctx.setOwnSnap (k : Ctx) (sn : Option Snapshot) : Ctx := if k.k.trapIn then { k with handlerSnap := sn } else { k with snap := sn }

/-- Move the results and landings of context x, whose last issue is `i`, into its snapshot registers. -/
def Core.toSnapshot (c : Core) (x i : Nat) : Core :=
  let k := c.ctx x
  let old : Snapshot := k.ownSnap.getD {}
  let res := k.inflight.map fun e => (⟨e.due - i, i - e.issue, e.slot, e.upd⟩ : SnapResult)
  let mine := c.sill.filter fun l => l.ctx == x && !l.dead
  let land := mine.map fun l => (⟨l.due - c.clock, i - l.issue, l.slot, l.upd, l.late, l.await⟩ : SnapLanding)
  { (c.setCtx x { k.setOwnSnap (some ⟨old.results ++ res, old.landings ++ land⟩) with inflight := [] }) with
    sill := c.sill.filter fun l => !(l.ctx == x && !l.dead) }

/-- Release the snapshot of context x at its issue `n`, which counts as the issue after the trapped one (R371). -/
def Core.releaseSnapshot (c : Core) (x n : Nat) : Core :=
  let k := c.ctx x
  match k.ownSnap with
  | none => c.setCtx x { k with release := false }
  | some sn =>
    let res := sn.results.map fun r => (⟨n - 1 + r.left, n - 1 - r.issueBack, r.slot, r.upd⟩ : Inflight)
    let land := sn.landings.map fun l =>
      (⟨x, c.clock + l.left, n - 1 - l.issueBack, l.slot, l.upd, l.late, false, l.await⟩ : Landing)
    let (bases, flying) := k.inflight.partition fun e => e.slot == baseSlot
    { (c.setCtx x { k.setOwnSnap none with inflight := flying ++ res ++ bases, release := false }) with
      sill := c.sill ++ land }

/-- The landings of a set of snapshot registers. -/
def snapLandings (sn : Option Snapshot) : Nat := match sn with | some sn => sn.landings.length | none => 0

/-- Sill entries in use; landings in snapshot registers keep theirs (R172, R371). -/
def Core.sillUsed (c : Core) : Nat :=
  c.sill.length + (c.ctxs.toList.map fun k => snapLandings k.snap + snapLandings k.handlerSnap).sum

/-! ### Starting and ending a context (R15, R336, R358) -/

/-- A context at its start: registers of R15, spill space of R336, nothing in flight. -/
def startedCtx (g x : Nat) (armed : Bool) (pc kwork spl sbase spovf step : Word64) : Ctx :=
  { ({} : Ctx) with
    run := .running, pc, armed,
    k := { ({} : KRegs) with
      kwork,
      spill := w64 (spl.toNat * 2 ^ 24 + (sbase.toNat + x * spl.toNat) % 2 ^ 20),
      spovf := spovf + w64 (4 * g + x) * step } }

/-- Context x of core g starts at a bundle address with a work ID (R15, R336). -/
def State.startCtx (s : State) (g x : Nat) (pc kwork : Word64) : State :=
  let spl := w64 (bits (s.launchWord 6) 43 24)
  let sbase := w64 (bits (s.launchWord 6) 19 0)
  let k := startedCtx g x false pc kwork spl sbase (s.launchWord 7) (w64 (bits (s.launchWord 8) 31 0))
  s.setCore g ((s.core g).setCtx x { k with ckptAt := (s.core g).clock, dueFrom := s.sclk }).select

/-- Free the operand slots that context x of a core holds, with zero data (R196, R358). -/
def Core.freeSlots (c : Core) (x : Nat) : Core :=
  { c with slots := c.slots.filter fun (_, o) => !(o.st != .free && o.holder == x) }

/-- The panes of a frame that context x of core g has open are dropped with their blocks (R98, R358). -/
def Frame.dropOpen (f : Frame) (g x : Nat) : Frame :=
  { f with loose := f.loose.filter fun p => p.st != .opened g x }

/-! ### Knocks (R138, R147) -/

/-- A pre-emption request is pending (R379). -/
def State.preempting (s : State) : Bool := match s.launch with | some l => l.preempt | none => false

/-- The context that a knock of core g starts: the lowest-numbered armed dormant one. -/
def Core.armedCtx (c : Core) : Option Nat :=
  (List.range 4).find? fun x => (c.ctx x).run == .dormant && (c.ctx x).armed

/-- Context x of core g starts by a knock: s1 and s2 hold what the knock carries, and its arming is cleared (R138). In a
deterministic launch it runs unstamped (R354). -/
def State.startByKnock (s : State) (g x : Nat) (k : Knock) : State :=
  (s.startCtx g x (w64 (k.kpc * 4)) (s.launchWord 5 + w64 g)).modCtx g x fun c =>
    { (c.apply (.s 1 (w64 k.karg))).apply (.s 2 k.dst) with unstamped := s.det }

/-- A queued knock starts a context that has become dormant and armed; none starts once pre-emption has been asked for. -/
def State.serveKnock (s : State) (g : Nat) : State :=
  match (s.core g).knocks, (s.core g).armedCtx with
  | k :: ks, some x =>
    if s.preempting then s else (s.modCore g fun c => { c with knocks := ks }).startByKnock g x k
  | _, _ => s

/-- The first steps of a context's end (R358): results in flight and landings are discarded, and its open panes are dropped. -/
def State.discard (s : State) (g x : Nat) : State :=
  let c := s.core g
  let c := { c.setCtx x { c.ctx x with inflight := [], snap := none, handlerSnap := none, implicit := [] } with
    sill := c.sill.map (fun l : Landing => if l.ctx == x then { l with dead := true } else l) }
  { s.setCore g c with frames := s.frames.map fun ((a, f) : Nat × Frame) => (a, f.dropOpen g x) }

/-- A context ends (R358): results and landings are discarded, open panes dropped, slots freed, frames unbound; its arming
is unchanged, and a queued knock may start it again. -/
def State.endCtx (s : State) (g x : Nat) : State :=
  let s := s.discard g x
  let c := (s.core g).freeSlots x
  let k := c.ctx x
  let c := { (c.setCtx x { ({} : Ctx) with armed := k.armed, idleAt := s.cycle }) with
    chans := c.chans.map (fun h : Chan => if h.issuer == x then { h with orphan := true } else h),
    queue := c.queue.map (fun o : MatOp => if o.ctx == x && !o.task then { o with live := false } else o),
    array := c.array.map (fun ((o, n) : MatOp × Nat) => (if o.ctx == x && !o.task then { o with live := false } else o, n)),
    drains := c.drains.map (fun d : Drain => if d.ctx == x then { d with live := false } else d),
    port := c.port.map (fun ((d, n) : Drain × Nat) => (if d.ctx == x then { d with live := false } else d, n)),
    shapeWrites := c.shapeWrites.filter (fun w : ShapeWrite => w.ctx != x) }
  (s.setCore g c.select).serveKnock g

/-- The record that SUSPEND enqueues (R342, R358). -/
def suspendRecord (k : Ctx) (next : Word64) (prio : Nat) (det : Bool) (g : Nat) : List Word64 :=
  let preds := ((List.range 15).map fun j => flag (vget false k.p (j + 1)) (26 + j)).sum
  [w64 (next.toNat / 4 * 4 + prio), k.k.kwork, k.rdS 1, k.rdS 2, k.rdS 3, k.rdS 4,
   w64 (k.k.lb * 2 ^ 55 + k.k.ldm1 * 2 ^ 48 + k.k.lrot * 2 ^ 41 + preds + k.k.rv * 2 ^ 8 + k.k.rp * 2 ^ 4 + k.k.rs),
   w64 (k.ckpt.toNat / 256 * 256 + (if det then 2 ^ 7 + coreOf g else 0))]

/-! ### The trap handler (R366 to R369) -/

/-- The trap registers written at entry (R367). -/
def KRegs.trapped (k : KRegs) (rep : Nat) (doneMask : BitVec 5) (slot cause : Nat) (pc a0 a1 : Word64) : KRegs :=
  { k with trapIn := true, trapRep := rep, trapDone := doneMask, trapSlot := slot, trapCause := cause,
           tpc := w64 (pc.toNat / 4 * 4), targ0 := a0, targ1 := a1 }

/-- The done mask of an issue: bit k is 0 exactly for the slots kept for re-execution (R369). -/
def doneMask (undone : List (Nat × SlotWord)) : BitVec 5 :=
  BitVec.ofNat 5 (((List.range 5).map fun k => if undone.any fun u => u.1 == k then 0 else 2 ^ k).sum)

/-- Taking a trap (R366): the snapshot, the saved sticky memories and nest state, ktrap, ktpc, ktarg0 and ktarg1, and the
next issue at TRAPH with empty sticky memories. A trap within the handler is a protection fault naming ktpc (R368). A CHKPT of the issue that has
found a pre-emption requested stops the context before the handler's first issue (R389). -/
def State.takeTrap (s : State) (i : Iss) (t : TrapReq) : State :=
  let k := s.ctx i.g i.x
  if k.k.trapIn then
    s.raise { code := cProt, gcore := i.g, ctx := i.x, rep := i.rep, slot := t.slot, pc := i.pc, w2 := k.k.tpc }
  else
    let c := (s.core i.g).toSnapshot i.x i.issue
    let k := c.ctx i.x
    let k := { k with
      savedSticky := k.sticky, savedNest := k.nest, savedIss := some { i with stops := false }, stopped := k.stopped || i.stops,
      sticky := Vector.replicate 5 none, nest := none, redo := none, resume := none,
      k := k.k.trapped i.rep (doneMask i.undone) t.slot t.cause i.pc t.arg0 t.arg1,
      pc := s.launchWord 3, rep := 0 }
    (s.setCore i.g (c.setCtx i.x k)).annotate t.cause i.g i.x i.pc

/-- The lowest-numbered of the traps of an issue (R369). -/
def lowestTrap : List TrapReq → Option TrapReq
  | [] => none
  | t :: ts => match lowestTrap ts with
    | some u => if u.slot < t.slot then some u else some t
    | none => some t

/-! ### Completion of an issue -/

/-- Write the bases of a nest's targets back, after every result that the last issue leaves for the next (R302). -/
def Ctx.restoreBases (k : Ctx) (i : Nat) (bases : List (Nat × Word64)) : Ctx :=
  { k with inflight := k.inflight ++ bases.map fun (r, v) => ⟨i + 1, i, baseSlot, .a r v⟩ }

/-- The number of points of a nest (R302). -/
def Nest.points (n : Nest) : Nat := ((List.range n.depth).map fun j => n.counts.getD j 0).prod

/-- The next repetition, the next point of a nest, or the next bundle (R26, R302). -/
def Ctx.advance (k : Ctx) (hdr : Word32) (pc next : Word64) (i : Nat) : Ctx :=
  if k.rep < headerRep hdr then { k with rep := k.rep + 1 }
  else
    let k := { k with rep := 0 }
    match k.nest with
    | some n =>
      if n.body == pc then
        if n.point + 1 < n.points then { k with nest := some { n with point := n.point + 1 } }
        else { (k.restoreBases i n.bases) with nest := none, pc := next }
      else { k with pc := next }
    | none => { k with pc := next }

/-- One more body issue of the nest in progress (R305). -/
def Ctx.countBody (k : Ctx) (pc : Word64) : Ctx :=
  match k.nest with
  | some n => if n.body == pc then { k with nest := some { n with done := n.done + 1 } } else k
  | none => k

/-- Where the context goes after a completed issue: a taken transfer's target, or on (R293, R302). -/
def Ctx.goOn (k : Ctx) (i : Iss) : Ctx :=
  let k := k.countBody i.pc
  let k := match i.target with
    | some t => { k with pc := t, rep := 0,
                         sticky := if i.empties then Vector.replicate 5 none else k.sticky }
    | none => k.advance i.hdr i.pc i.next i.issue
  match i.nest with
  | some n => { k with nest := some { n with body := k.pc } }
  | none => k

/-- The return from the trap handler (R391). With every DONE bit set the bundle at ktpc is finished, not issued again. -/
def Ctx.returnFromTrap (k : Ctx) : Ctx :=
  { k with
    sticky := k.savedSticky, nest := k.savedNest, pc := w64 (k.k.tpc.toNat / 4 * 4), rep := k.k.trapRep,
    redo := some k.k.trapDone, release := true, decoded := none, k := { k.k with trapIn := false } }

/-- An implicit checkpoint is reached: the context stops when a pre-emption is requested (R379, R386). -/
def Ctx.checkpoint (k : Ctx) (clock : Nat) (preempt : Bool) : Ctx :=
  { k with ckptAt := clock, stopped := k.stopped || preempt }

/-- The wait counts as an implicit checkpoint: LWAIT, HWAIT, WAITANY and AWAIT (R379). -/
def WaitCond.isCheckpoint : WaitCond → Bool
  | .latch _ _ _ | .anyLatch _ _ _ | .handle .. | .tiles _ | .engineIdle => true
  | _ => false

/-- The continuation record of a SUSPEND in its cluster's queue (R358, R343). -/
def State.enqueueCont (s : State) (cl : Nat) (words : List Word64) (pager : Bool) (scope : Scope) (ready : Nat)
    (suspended : Bool) : State :=
  s.modCluster cl fun c =>
    { c with conts := c.conts ++ [⟨words, bits (words.getD 0 0) 1 0, s.cycle, ready, pager, scope, suspended⟩] }

/-- The operand-store slots that a matrix operation names (R257, R264). -/
def MatOp.slots (o : MatOp) : List Nat :=
  if o.fmt = 0xB then o.b :: (List.range 4).map (o.a + ·)
  else if o.sparse then o.a :: (o.a + 1) :: (List.range (sparseFactor o.ncode)).map (o.b + ·)
  else [o.a, o.b]

/-- An in-flight matrix operation names slot n (R180, R258). -/
def Core.namesSlot (c : Core) (n : Nat) : Bool :=
  c.queue.any (fun o => o.slots.contains n) ||
    (match c.array with | some (o, _) => o.slots.contains n | none => false)

/-- A slot that is ready, with no in-flight matrix operation that names it (R180). -/
def Core.slotIdle (c : Core) (n : Nat) : Bool := (c.slot n).st != .filling && !c.namesSlot n

/-- A slot that context x holds and that cannot be freed yet (R180, R358). -/
def Core.busyHeld (c : Core) (x : Nat) : Option Nat :=
  (c.slots.find? fun (n, o) => o.st != .free && o.holder == x && !c.slotIdle n).map (·.1)

/-- Records that a continuation queue holds (R343). -/
def contQueueSize : Nat := 256

/-- What the end of a context waits for: slots that cannot be freed yet, then the release of its bundle's scope (R180, R358). -/
def State.partWait (s : State) (g x : Nat) (sys : Bool) : Option WaitCond :=
  match (s.core g).busyHeld x with
  | some n => some (.slotIdle n)
  | none => if s.unreleased g x sys then some (relWait sys) else none

/-- Slots of context x that can be freed are; where all are, its frame registers are unbound (R358). -/
def Core.endSlots (c : Core) (x : Nat) : Core :=
  let c := { c with slots := c.slots.filter fun (e : Nat × OSlot) => !(e.2.st != SlotFill.free && e.2.holder == x && c.slotIdle e.1) }
  if (c.busyHeld x).isNone then c.setCtx x { c.ctx x with f := Vector.replicate 8 none } else c

/-- What a SUSPEND waits for before its record enters the queue: room, and the accesses that the record's pickup is to see (R344, R358). -/
def State.suspendWait (s : State) (g x : Nat) (sys : Bool) : Option WaitCond :=
  if contQueueSize ≤ (s.cluster (clusterOf g)).conts.length then some (.contRoom (clusterOf g))
  else if s.unreleased g x sys then some (relWait sys)
  else none

/-- The scope of a pickup: the bundle's scope, at least cluster (R344). -/
def pickupScope : Scope → Scope
  | .core => .cluster
  | s => s

/-- The context waits at its end with every slot of the issue done. -/
def State.holdEnd (s : State) (i : Iss) (w : WaitCond) : State :=
  let c := s.core i.g
  let held : Iss := { i with active := false, pending := [], undone := [], work := [], waits := [(0, w)] }
  s.setCore i.g (c.setCtx i.x { c.ctx i.x with run := .waiting, resume := some held, waitAt := s.cycle }).select

/-- The context ends, or waits until it may, in the order of R358: results, landings and open panes go before the wait for its slots, its frames are
unbound before the release. -/
def State.endExit (s : State) (i : Iss) : State :=
  let s := (s.discard i.g i.x).modCore i.g fun c => c.endSlots i.x
  match s.partWait i.g i.x (headerScope i.hdr == .system) with
  | some w => s.holdEnd { i with ends := some .exit } w
  | none => s.endCtx i.g i.x

/-- The context ends as its EXIT or SUSPEND states (R358). A SUSPEND enqueues its record, as read at its issue, before the context ends. -/
def State.endIssue (s : State) (i : Iss) (e : EndKind) : State :=
  match e with
  | .exit => s.endExit i
  | .suspend prio =>
    let ws := i.endRecord.getD (suspendRecord (s.ctx i.g i.x) i.next prio s.det i.g)
    match s.suspendWait i.g i.x (headerScope i.hdr == .system) with
    | some w => s.holdEnd i w
    | none =>
      (s.enqueueCont (clusterOf i.g) ws false (pickupScope (headerScope i.hdr)) (if s.det && computing i.g then s.sclk else s.cycle) true).endExit i

/-- The trapped issue, where the return from the handler finds every slot of it done (R391). -/
def Ctx.finished (k : Ctx) : Option Iss :=
  match k.savedIss with
  | some i => if k.redo == some 31 && i.pc == k.pc then some i else none
  | none => none

/-- RETT has completed (R391): the context goes back to the trapped bundle, and on from it at once where every slot of it is done. The cycle of the
RETT still belongs to the freeze (R372). -/
def State.completeRett (s : State) (g x : Nat) : State :=
  let k := (s.ctx g x).returnFromTrap
  let k := { k with resume := none, dueFrom := if k.redo = some 31 then s.sclk + 1 else s.sclk }
  let s := { s with sclkHold := s.sclkHold || s.det }
  match k.finished with
  | none => s.setCore g ((s.core g).setCtx x k).select
  | some i =>
    let k := { k with redo := none, savedIss := none }
    match i.ends with
    | some e => (s.setCtx g x k).endIssue i e
    | none =>
      let k := k.goOn { i with issue := k.issueNo - 1 }
      s.setCore g ((s.core g).setCtx x k).select

/-- An issue whose every slot has committed (R293, R302, R358, R391). -/
def State.completeIssue (s : State) (i : Iss) : State :=
  match i.ends with
  | some e => s.endIssue i e
  | none =>
    if i.rett then s.completeRett i.g i.x
    else
      let k := (s.ctx i.g i.x).goOn i
      s.setCore i.g ((s.core i.g).setCtx i.x { k with resume := none, stopped := k.stopped || i.stops }).select

/-- A context stopped by pre-emption keeps what is in flight in its snapshot registers (R379). -/
def State.snapStopped (s : State) (g x : Nat) : State :=
  let k := s.ctx g x
  if k.stopped && (!k.inflight.isEmpty || (s.core g).sill.any fun l => l.ctx == x && !l.dead) then
    let s := s.setCore g ((s.core g).toSnapshot x (k.issueNo - 1))
    s.modCtx g x fun k => { k with release := true }
  else s

/-- Insert a slot in slot order. -/
def insertSlot (e : Nat × SlotWord) : List (Nat × SlotWord) → List (Nat × SlotWord)
  | [] => [e]
  | f :: fs => if e.1 < f.1 then e :: f :: fs else f :: insertSlot e fs

/-- Where an issue waits, walks or is held, a slot that has raised a trap is not done, those of TRAP and BRK included: it executes again when the
context goes on (R370). -/
def Iss.rewind (i : Iss) : Iss :=
  { i with undone := i.undone ++ i.work.filter fun e => (i.traps.any fun t => t.slot == e.1) && !i.undone.any fun u => u.1 == e.1 }

/-- Slots of this attempt that have committed and have no trace record yet, with those of the attempts that ended in a walk (R394). -/
def Iss.committed (i : Iss) : List (Nat × SlotWord) :=
  (i.unlogged ++ i.work.filter fun e => !i.undone.any fun u => u.1 == e.1).foldl (fun l e => insertSlot e l) []

/-- What is left of an issue when it waits, walks or is held: the slots not done, to be executed in slot order. What an SC access has done at its
order point stays (R331). -/
def Iss.leftover (i : Iss) : Iss :=
  { i with active := false, pending := i.undone.foldl (fun l e => insertSlot e l) [], undone := [], work := [],
           traps := [], walks := [], absent := [], unlogged := [], waits := [], brk := none, glazeHold := none, granted := [], chosen := [],
           reply := if i.padded.isSome then i.reply else none }

end Sys2Proof.Machine
end

