-- ==== Sys2Proof/Machine/Reverse.lean ====
section
/-! DEFINITION. Differentiable addresses, the tape, the region table, implicit adjoint panes, and how loads and stores of
differentiable addresses execute in reverse mode (R273 to R289). -/

namespace Sys2Proof.Machine

/-- The number by which KRD and KWR name ktpos (R306). -/
def kNumTpos : Word64 := 0x1B

/-- An access remembered with its declared completion, in deterministic launches (R331); `grad` marks pushes and stores to differentiable
addresses. -/
def State.note (s : State) (va n : Nat) (wr : Bool) (lat : Nat) (grad : Bool := false) : State :=
  if s.det then
    let now := (s.core s.iss.g).clock
    s.modCur fun k => { k with trail := (k.trail.filter fun t => now < t.due) ++ [⟨va, va + n, wr, now + lat, grad⟩] }
  else s

/-! ### Pages of a range (R274, R277) -/

/-- Every 64 KiB page of a run that a fresh walk finds mapped satisfies a condition; absent pages are left to the accesses
themselves (log entry 11). -/
def State.pagesAll (s : State) (va len : Nat) (ok : Word64 → Bool) : Bool :=
  let first := va / 2 ^ 16
  (List.range ((va + len + 2 ^ 16 - 1) / 2 ^ 16 - first)).all fun i =>
    match s.walk ((first + i) * 2 ^ 16) with
    | .leaf e _ _ => ok e
    | .invalid .. => true
    | .malformed _ => false

/-! ### The tape (R277 to R280, R289) -/

/-- Words written at a translated or scratchpad address, 16 bytes at a time. -/
def State.putPairs (s : State) : List (Loc × Word64 × Word64) → State
  | [] => s
  | (l, a, b) :: rest => ((s.writePart l.wkeys 8 a.toNat).writePart (l.wkeys.map (· + 8)) 8 b.toNat).putPairs rest

/-- The location of 16 bytes of the tape: in the own scratchpad below the latch area, or on a plain page with D = 0 (R277). -/
def tapeLoc (s : State) (va : Nat) (a : Access) : Except State Loc := do
  if untranslated va && !reachOwn.allows s.iss.g 16 (spaceOf va) then protFault s kNumTpos
  match s.xlat (clusterOf s.iss.g) va with
  | .barred => protFault s kNumTpos
  | .walk => slotWalk s (w64 va) a.cls
  | .loc l => if l.space == .main && (l.kind != 0 || l.d || !l.permits a) then protFault s kNumTpos else .ok l

/-- The locations of `n` runs of 16 bytes from an address up. -/
def tapeLocs (s : State) (a : Access) : Nat → Nat → Except State (List Loc)
  | 0, _ => .ok []
  | n + 1, va => do
    let l ← tapeLoc s va a
    let ls ← tapeLocs s a n (va + 16)
    .ok (l :: ls)

/-- The highest ktpos that a push may leave (R280). -/
def KRegs.tapeTop (k : KRegs) : Nat := if k.trapIn then k.tlim.toNat else k.tlim.toNat - 256

/-- Push an entry of 16-byte pairs for a store to an address (R278 to R280). -/
def pushTape (s : State) (store : Word64) (pairs : List (Word64 × Word64)) : Except State State := do
  let k := s.cur.k
  let pos := k.tpos.toNat
  let next := pos + 16 * pairs.length
  if k.tapeTop < next then slotTrap s 1 k.tpos store
  let ls ← tapeLocs s .write pairs.length pos
  let lat := (ls.map (s.latencyOf s.iss.g pos)).foldl max 0
  .ok (((s.putPairs ((ls.zip pairs).map fun (l, a, b) => (l, a, b))).note pos (16 * pairs.length) true lat true).modCur
    fun c => c.apply (.k .tpos (w64 next)))

/-- Header word w0 of an entry (R278). -/
def tapeHead (ty lsz addr : Nat) : Word64 := w64 (ty * 2 ^ 60 + lsz * 2 ^ 56 + addr % 2 ^ 56)

/-- A scalar entry: old bytes of a store of 2^lsz bytes. -/
def scalarEntry (lsz addr old : Nat) : List (Word64 × Word64) := [(tapeHead 1 lsz addr, w64 old)]

/-- A block entry: the old data before the header, with the old descriptor. -/
def blockEntry (addr : Nat) (old : VVal) : List (Word64 × Word64) :=
  let w (i : Nat) : Word64 := old.data.extractLsb' (64 * i) 64
  [(w 0, w 1), (w 2, w 3), (w 4, w 5), (w 6, w 7), (tapeHead 2 0 addr, old.desc.setWidth 64)]

/-- A pane-reference entry (R278). -/
def paneEntry (addr name : Nat) (acc blk : Bool) (frame : Nat) : List (Word64 × Word64) :=
  [(tapeHead 3 0 addr, w64 (name * 2 ^ 48 + flag acc 47 + flag blk 46 + frame / 64 % 2 ^ 46))]

/-- A mark entry. -/
def markEntry (v : Word64) : List (Word64 × Word64) := [(tapeHead 4 0 0, v)]

/-- The header of the topmost entry; a protection fault naming ktpos where the tape holds none (R283, R289). -/
def topEntry (s : State) : Except State (Word64 × Word64 × Loc) := do
  let k := s.cur.k
  if k.tpos.toNat < k.tape.toNat + 16 then protFault s kNumTpos
  let l ← tapeLoc s (k.tpos.toNat - 16) .read
  .ok (w64 (getBytes s.mem l.key 8), w64 (getBytes s.mem (l.key + 8) 8), l)

/-- The old block of the topmost entry, a block entry. -/
def topBlock (s : State) (odesc : Word64) : Except State VVal := do
  let k := s.cur.k
  if k.tpos.toNat < k.tape.toNat + 80 then protFault s kNumTpos
  let ls ← tapeLocs s .read 4 (k.tpos.toNat - 80)
  let bytes := ls.map fun l => getBytes s.mem l.key 16
  .ok ⟨BitVec.ofNat 512 (joinLanes 128 bytes), odesc.setWidth 16⟩

/-- The tape without its topmost `n` bytes. -/
def State.popTape (s : State) (n : Nat) : State :=
  s.modCur fun c => c.apply (.k .tpos (w64 (c.k.tpos.toNat - n)))

/-! ### Adjoints (R273 to R276) -/

/-- Where the adjoint of an element lies: the adjoint frame's record, the element's format and its storage position. -/
structure AdjRef where
  adj : Nat
  fmt : Nat
  j : Nat
deriving DecidableEq, Repr, Inhabited

/-- A location is differentiable (R273). -/
def State.differentiable (s : State) (l : Loc) (va : Nat) : Bool :=
  l.space == .main && match l.kind with
    | 0 => l.d
    | 1 => match s.frameFor va with | some (_, f) => f.info.diff | none => false
    | _ => false

/-- The frame of the first of f0 to f7 whose extent holds an address (R282). -/
def State.boundFrame (s : State) (k : Ctx) (va : Nat) : Option FrameRec :=
  (k.f.toList.filterMap fun b => b.bind fun pa =>
    let r := (s.frame pa).info
    if r.holds va then some r else none).head?

/-- The adjoint of the element at a differentiable address (R276); none where no bound frame or region covers it. -/
def State.adjointOf (s : State) (k : Ctx) (l : Loc) (va : Nat) : Option AdjRef :=
  if l.kind = 0 then
    (k.regions.find? fun r => r.base ≤ va && va < r.base + r.len).map fun r =>
      ⟨r.adj, r.fmt, (va - r.base) / (codeBits r.fmt / 8)⟩
  else (s.boundFrame k va).map fun r => ⟨r.adjPa, r.fmt, (va - r.base) / r.elem⟩

/-- A storage position has an adjoint: its FP32 element lies within the adjoint frame's extent (R276). -/
def FrameRec.hasPosition (a : FrameRec) (j : Nat) : Bool := 4 * j < a.extent

/-- The name of the implicit pane of context x of core g (R96). -/
def implicitName (g x : Nat) : Nat := 0xE800 + 4 * g + x

/-- An empty implicit pane. -/
def implicitPane (g x : Nat) : Pane := { name := implicitName g x, ow := false, st := .opened g x, implicit := true }

/-- The implicit pane of the issuing context on an adjoint frame, opened at its first touch, with footprint blocks for the
positions listed; the frame and pane are given back, nothing is stored (R281, R285). -/
def touchAdjoint (s : State) (adj : Nat) (js : List Nat) : Except State (Frame × Pane × Bool) := do
  let g := s.iss.g
  let x := s.iss.x
  let f := s.frame adj
  let bs := js.map (· / 16)
  if s.cur.implicit.contains adj then
    let p := (f.implicitOf g x).getD (implicitPane g x)
    needArena s adj f (p.needFor bs)
    let p ← touchBlocks s f.info false p bs
    .ok (f.setLoose p, p, false)
  else
    if 8 ≤ s.cur.implicit.length then protFault s (w64 f.info.va)
    if f.nameUsed (implicitName g x) then paneFault s adj (implicitName g x) (implicitName g x)
    let p := implicitPane g x
    needArena s adj f (1 + p.needFor bs)
    let p ← touchBlocks s f.info false p bs
    .ok ({ f with loose := f.loose ++ [p] }, p, true)

/-- Store the implicit pane of the issuing context on an adjoint frame. -/
def State.putAdjoint (s : State) (adj : Nat) (f : Frame) (p : Pane) (opened : Bool) : State :=
  let s := s.changeFrame adj (f.setLoose p)
  if opened then s.modCur fun k => { k with implicit := k.implicit ++ [adj] } else s

/-- A value added into the adjoint at a position (R282). -/
def addAdjoint (r : FrameRec) (p : Pane) (j : Nat) (x : Num) : Pane × BitVec 6 :=
  match p.block? (j / 16) with
  | some k =>
    if k.poison then (p, 0) else
      let (k, fl) := k.accumulate r (j % 16) x
      (p.setBlock k, fl)
  | none => (p, 0)

/-- The adjoint at a position cleared (R281, R283). -/
def clearAdjoint (p : Pane) (j : Nat) : Pane :=
  match p.block? (j / 16) with
  | some k =>
    let k := k.put 32 (j % 16) 0
    p.setBlock { k with cleared := k.cleared ||| BitVec.ofNat 64 (2 ^ (j % 16)) }
  | none => p

/-- What a reversed store reads of one adjoint: FP32 bits, flags, and whether a block consulted is poisoned (R283). -/
def readAdjoint (s : State) (f : Frame) (own : Option Pane) (j : Nat) : Except State (Nat × BitVec 6 × Bool) := do
  if !f.info.hasPosition j then .ok (0, 0, false)
  else
    let chain := f.chain ++ own.toList
    let fb ← frameRaw s f.info (j / 16)
    if chainPoisons chain fb (j / 16) then .ok (0, 0, true)
    else if !f.info.formatOk fb.desc then
      slotFault s cDesc (w64 (f.info.base + 64 * (j / 16))) (fb.desc.setWidth 64) 0
    else
      let (x, fl) := f.info.paneSum chain fb (j / 16) (j % 16)
      let (v, fl') := f.info.fit x
      .ok (v, fl ||| fl', false)

/-- The adjoints of a run of positions. -/
def readAdjoints (s : State) (f : Frame) (own : Option Pane) : List Nat → Except State (List Nat × BitVec 6 × Bool)
  | [] => .ok ([], 0, false)
  | j :: js => do
    let (v, fl, bad) ← readAdjoint s f own j
    let (vs, fl', bad') ← readAdjoints s f own js
    .ok (v :: vs, fl ||| fl', bad || bad')

/-! ### Reversed loads (R282) -/

/-- The register after v[d] in a group. -/
def nextV (d : VRegNo) : VRegNo := d + 1

/-- A group of two registers begins at an even register below v31 (R282, R283). -/
def groupOk (d : VRegNo) : Bool := d.toNat % 2 == 0 && d.toNat < 31

/-- LD.L of a differentiable address in reverse mode: the register is added into the adjoint. Of a pair, the second register's lanes
are read under the first one's descriptor (R411). -/
def reverseLoad (s : State) (d : VRegNo) (va : Word64) (l : Loc) : Except State State := do
  let x := va.toNat
  match s.adjointOf s.cur l x with
  | none => protFault s va
  | some a =>
    let v := s.rdV d
    let code := if v.desc = 0 then 2 else descFmt v.desc
    if code == 0 || 4 < code then descFault s v.desc
    let lanes := 512 / codeBits code
    let n := 512 / codeBits a.fmt
    if 2 * lanes < n || (lanes < n && !groupOk d) then protFault s va
    let w : VVal := ⟨(s.rdV (nextV d)).data, v.desc⟩
    let js := ((List.range n).map (a.j + ·)).filter (s.frame a.adj).info.hasPosition
    let (f, p, fresh) ← touchAdjoint s a.adj js
    let (p, fl) := js.foldl (fun (acc : Pane × BitVec 6) j =>
      let k := j - a.j
      let u := if k < lanes then laneNum code v k else laneNum code w (k - lanes)
      let (p, fl) := addAdjoint f.info acc.1 j u
      (p, acc.2 ||| fl)) (p, 0)
    .ok ((s.putAdjoint a.adj f p fresh).putFlags fl 1)

/-! ### Reversed stores (R283) -/

/-- The store that a reversed store undoes. -/
inductive StoreForm where
  /-- ST of 2^lsz bytes from s[d]. -/
  | scalar (d : SReg) (lsz : Nat)
  /-- ST.V from v[d]. -/
  | block (d : VRegNo)
  /-- An element ST.G to the frame of a record. -/
  | paneElem (d : SReg) (frame : Nat)
  /-- A block ST.G. -/
  | paneBlock (d : VRegNo) (frame : Nat)
deriving DecidableEq, Repr, Inhabited

/-- The store acts on a whole block. -/
def StoreForm.isBlock : StoreForm → Bool
  | .block _ | .paneBlock .. => true
  | _ => false

/-- The topmost tape entry matches the store (R283). -/
def StoreForm.entryMatches (f : StoreForm) (h0 h1 : Word64) (va : Nat) : Bool :=
  let ty := bits h0 63 60
  bits h0 55 0 == va % 2 ^ 56 && match f with
    | .scalar _ lsz => ty == 1 && bits h0 59 56 == lsz
    | .block _ => ty == 2
    | .paneElem _ pa => ty == 3 && !bit h1 46 && bits h1 45 0 == pa / 64 % 2 ^ 46
    | .paneBlock _ pa => ty == 3 && bit h1 46 && bits h1 45 0 == pa / 64 % 2 ^ 46

/-- FP32 bits widened exactly to FP64 bits. -/
def widen32 (v : Nat) : Nat := (roundF fp64 0 false (decodeF fp32 v)).1

/-- The registers that receive the adjoints of a block store: FP32 lanes in one or two registers, or FP64 lanes (R283). For
elements of one byte R283 names no registers for the 64 lanes: v[d] then receives an open value (log entry 12). -/
def blockAdjoint (s : State) (d : VRegNo) (fmt : Nat) (ys : List Nat) (bad : Bool) : State × List Upd :=
  let r (n : VRegNo) := physV s.cur.k.rv n
  if bad then
    (s, if codeBits fmt = 16 then [.v (r d) poisonVal, .v (r (nextV d)) poisonVal] else [.v (r d) poisonVal])
  else match codeBits fmt with
    | 64 => (s, [.v (r d) ⟨ofLanes 64 (ys.map widen32), mkDesc 1 0⟩])
    | 32 => (s, [.v (r d) ⟨ofLanes 32 ys, mkDesc 2 0⟩])
    | 16 => (s, [.v (r d) ⟨ofLanes 32 (ys.take 16), mkDesc 2 0⟩, .v (r (nextV d)) ⟨ofLanes 32 (ys.drop 16), mkDesc 2 0⟩])
    | _ =>
      let lanes := (List.range 8).map fun i => (Config.openWord (s.free + i)).toNat
      ({ s with free := s.free + 8 }, [.v (r d) ⟨ofLanes 64 lanes, mkDesc 2 0⟩])

/-- The delivery of a reversed store's adjoints. -/
def adjointUpdates (s : State) (f : StoreForm) (fmt : Nat) (ys : List Nat) (bad : Bool) : State × List Upd :=
  match f with
  | .block d | .paneBlock d _ => blockAdjoint s d fmt ys bad
  | .scalar d _ | .paneElem d _ =>
    let y := ys.headD 0
    (s, [.s (physS s.cur.k.rs d) (if bad then 0 else w64 (if codeBits fmt = 64 then widen32 y else y))] ++
      (if bad then [.statOr stPoison] else []))

/-- The old value of a plain store restored (R283): a write like another, with its declared completion (R331). -/
def State.restoreStore (s : State) (f : StoreForm) (va : Nat) (l : Loc) (h1 : Word64) (old : VVal) : State :=
  let lat := s.latencyOf s.iss.g va l
  match f with
  | .scalar _ lsz => (s.writePart l.wkeys (2 ^ lsz) h1.toNat).note va (2 ^ lsz) true lat true
  | .block _ => (s.writeBlock l.wkeys old).note va 64 true lat true
  | _ => s

/-- ST, ST.V or ST.G to a differentiable address in reverse mode: adjoint read and cleared, old value restored (R283). -/
def reverseStore (s : State) (f : StoreForm) (va : Word64) (l : Loc) : Except State State := do
  let x := va.toNat
  let (h0, h1, _) ← topEntry s
  if !f.entryMatches h0 h1 x then protFault s kNumTpos
  let old ← (match f with | .block _ => topBlock s h1 | _ => .ok (default : VVal))
  match s.adjointOf s.cur l x with
  | none => protFault s va
  | some a =>
    let size := match f with | .scalar _ lsz => 2 ^ lsz | _ => codeBits a.fmt / 8
    if !f.isBlock && size ≠ codeBits a.fmt / 8 then protFault s va
    if f.isBlock && codeBits a.fmt = 16 && !(match f with | .block d | .paneBlock d _ => groupOk d | _ => true) then
      protFault s va
    let js := (List.range (if f.isBlock then 512 / codeBits a.fmt else 1)).map (a.j + ·)
    let keep := bits h0 63 60 == 3 && bit h1 47
    let fr := s.frame a.adj
    let own := if s.cur.implicit.contains a.adj then fr.implicitOf s.iss.g s.iss.x else none
    let (ys, fl, bad) ← readAdjoints s fr own js
    let lat := 1024 + 32 * fr.info.maxdepth
    if sillSize ≤ (s.core s.iss.g).sillUsed then slotWait s .sill
    let cleared := js.filter fr.info.hasPosition
    let s1 ← (if keep then .ok s else do
      let (fr', p, fresh) ← touchAdjoint s a.adj cleared
      .ok (s.putAdjoint a.adj fr' (cleared.foldl clearAdjoint p) fresh))
    let s2 := (s1.restoreStore f x l h1 old).popTape (match f with | .block _ => 80 | _ => 16)
    let (s3, us) := adjointUpdates s2 f a.fmt ys bad
    .ok ((s3.land (us ++ (if fl = 0 then [] else [.flagsOr fl])) lat false).note (fr.info.base + 4 * a.j) (4 * js.length) false lat)

end Sys2Proof.Machine
end

