-- ==== Sys2Proof/Machine/Scalar.lean ====
section
/-! DEFINITION. Scalar integer instructions, compares, selects and predicates (R207 to R214). -/

namespace Sys2Proof.Machine

/-- The outcome of a step of the machine. -/
abbrev Out := Host.Outcome State Fault Refusal

/-- A slot whose whole effect is one scalar result. -/
def scalarResult (d : SReg) (v : Word64) (lat : Nat) (s : State) : Out := slotDone (.ok (s.putS d v lat))

/-- A slot whose whole effect is one predicate, delivered at the next issue. -/
def predResult (d : PReg) (b : Bool) (s : State) : Out := slotDone (.ok (s.putP d b 1))

/-! ### The computations of R209 and R210 -/

/-- SHL (R209). -/
def shl64 (x y : Word64) : Word64 := if 64 ≤ y.toNat then 0 else x <<< y.toNat
/-- SHR (R209). -/
def shr64 (x y : Word64) : Word64 := if 64 ≤ y.toNat then 0 else x >>> y.toNat
/-- SAR (R209). -/
def sar64 (x y : Word64) : Word64 :=
  if 64 ≤ y.toNat then (if x.msb then BitVec.allOnes 64 else 0) else x.sshiftRight y.toNat
/-- ROTL (R209). -/
def rotl64 (x y : Word64) : Word64 := x.rotateLeft (y.toNat % 64)
/-- The smaller of two scalars. -/
def min64 (u : Bool) (x y : Word64) : Word64 := if (if u then x.ult y else x.slt y) then x else y
/-- The larger of two scalars. -/
def max64 (u : Bool) (x y : Word64) : Word64 := if (if u then x.ult y else x.slt y) then y else x
/-- MUL, MUL.H and MUL.HU (R209). -/
def mul64 (part : BitVec 2) (x y : Word64) : Word64 :=
  match part.toNat with
  | 0 => x * y
  | 1 => BitVec.ofInt 64 (x.toInt * y.toInt / 2 ^ 64)
  | _ => w64 (x.toNat * y.toNat / 2 ^ 64)
/-- DIV (R210): truncated toward zero, 0 for a zero divisor; -2^63 divided by -1 wraps to -2^63. -/
def div64 (u : Bool) (x y : Word64) : Word64 :=
  if y = 0 then 0 else if u then x / y else BitVec.ofInt 64 (Int.tdiv x.toInt y.toInt)
/-- REM (R210): the sign of the dividend, x for a zero divisor. -/
def rem64 (u : Bool) (x y : Word64) : Word64 :=
  if y = 0 then x else if u then x % y else BitVec.ofInt 64 (Int.tmod x.toInt y.toInt)

/-- Leading zero bits of the low `w` bits. -/
def leadingZeros (w n : Nat) : Nat := if n = 0 then w else w - 1 - n.log2
/-- Trailing zero bits among the low `w` bits, counted from bit `i`. -/
def trailingZeros (n : Nat) : Nat → Nat → Nat
  | 0, i => i
  | fuel + 1, i => if n.testBit i then i else trailingZeros n fuel (i + 1)
/-- One bits among the low `w` bits. -/
def oneBits (n : Nat) : Nat → Nat
  | 0 => 0
  | w + 1 => oneBits n w + (if n.testBit w then 1 else 0)
/-- The operand of a bit count: 64 bits, or the low 32. -/
def countOperand (w : Bool) (x : Word64) : Nat × Nat := if w then (32, x.toNat % 2 ^ 32) else (64, x.toNat)

/-- Sign-extend the low bits that a size code 0 to 2 gives (R209). -/
def sext64 (sz : BitVec 2) (x : Word64) : Word64 :=
  match sz.toNat with
  | 0 => (x.setWidth 8).signExtend 64
  | 1 => (x.setWidth 16).signExtend 64
  | _ => (x.setWidth 32).signExtend 64
/-- Zero-extend the low bits that a size code 0 to 2 gives (R209). -/
def zext64 (sz : BitVec 2) (x : Word64) : Word64 :=
  match sz.toNat with
  | 0 => (x.setWidth 8).setWidth 64
  | 1 => (x.setWidth 16).setWidth 64
  | _ => (x.setWidth 32).setWidth 64

/-- The mask of a field's bits (R212). -/
def fieldMask (width pos : Nat) : Word64 := w64 ((2 ^ width - 1) * 2 ^ pos)
/-- BFX (R212). -/
def bfx64 (u : Bool) (width pos : Nat) (x : Word64) : Word64 :=
  let f := x.toNat / 2 ^ pos % 2 ^ width
  if u then w64 f else BitVec.ofInt 64 (signedOf width f)
/-- BFI (R212). -/
def bfi64 (width pos : Nat) (old x : Word64) : Word64 :=
  (old &&& ~~~fieldMask width pos) ||| ((x <<< pos) &&& fieldMask width pos)

/-- A condition of R213 on two 64-bit values. -/
def cond64 (cc : BitVec 3) (x y : Word64) : Bool :=
  match cc.toNat with
  | 0 => x == y
  | 1 => x != y
  | 2 => x.slt y
  | 3 => x.sle y
  | 4 => x.ult y
  | _ => x.ule y

/-! ### The instructions -/

/-- NOP (R311): legal in every slot. -/
def execNop (s : State) : Out := slotDone (.ok s)
/-- ADD (R209). -/
def execAdd (d a b : SReg) (s : State) : Out := scalarResult d (s.rdS a + s.rdS b) 1 s
/-- SUB (R209). -/
def execSub (d a b : SReg) (s : State) : Out := scalarResult d (s.rdS a - s.rdS b) 1 s
/-- AND (R209). -/
def execAnd (d a b : SReg) (s : State) : Out := scalarResult d (s.rdS a &&& s.rdS b) 1 s
/-- OR (R209). -/
def execOr (d a b : SReg) (s : State) : Out := scalarResult d (s.rdS a ||| s.rdS b) 1 s
/-- XOR (R209). -/
def execXor (d a b : SReg) (s : State) : Out := scalarResult d (s.rdS a ^^^ s.rdS b) 1 s
/-- ANDN (R209). -/
def execAndn (d a b : SReg) (s : State) : Out := scalarResult d (s.rdS a &&& ~~~s.rdS b) 1 s
/-- SHL (R209). -/
def execShl (d a b : SReg) (s : State) : Out := scalarResult d (shl64 (s.rdS a) (s.rdS b)) 1 s
/-- SHR (R209). -/
def execShr (d a b : SReg) (s : State) : Out := scalarResult d (shr64 (s.rdS a) (s.rdS b)) 1 s
/-- SAR (R209). -/
def execSar (d a b : SReg) (s : State) : Out := scalarResult d (sar64 (s.rdS a) (s.rdS b)) 1 s
/-- ROTL (R209). -/
def execRotl (d a b : SReg) (s : State) : Out := scalarResult d (rotl64 (s.rdS a) (s.rdS b)) 1 s
/-- MIN (R209). -/
def execMin (d a b : SReg) (u : Bool) (s : State) : Out := scalarResult d (min64 u (s.rdS a) (s.rdS b)) 1 s
/-- MAX (R209). -/
def execMax (d a b : SReg) (u : Bool) (s : State) : Out := scalarResult d (max64 u (s.rdS a) (s.rdS b)) 1 s
/-- MUL (R209). -/
def execMul (d a b : SReg) (part : BitVec 2) (s : State) : Out := scalarResult d (mul64 part (s.rdS a) (s.rdS b)) 3 s

/-- kstat.DIVZ for a zero divisor (R210); the issue that sees it first is the model's choice (DESIGN CHOICE: log entry 126). -/
def State.putDivz (s : State) (y : Word64) : State := if y = 0 then s.putStat stDivz else s

/-- DIV (R210). -/
def execDiv (d a b : SReg) (u : Bool) (s : State) : Out :=
  slotDone (.ok ((s.putS d (div64 u (s.rdS a) (s.rdS b)) 24).putDivz (s.rdS b)))
/-- REM (R210). -/
def execRem (d a b : SReg) (u : Bool) (s : State) : Out :=
  slotDone (.ok ((s.putS d (rem64 u (s.rdS a) (s.rdS b)) 24).putDivz (s.rdS b)))
/-- ADDI (R211). -/
def execAddi (d a : SReg) (v : Word64) (s : State) : Out := scalarResult d (s.rdS a + v) 1 s
/-- ANDI (R211). -/
def execAndi (d a : SReg) (v : Word64) (s : State) : Out := scalarResult d (s.rdS a &&& v) 1 s
/-- ORI (R211). -/
def execOri (d a : SReg) (v : Word64) (s : State) : Out := scalarResult d (s.rdS a ||| v) 1 s
/-- XORI (R211). -/
def execXori (d a : SReg) (v : Word64) (s : State) : Out := scalarResult d (s.rdS a ^^^ v) 1 s
/-- SHLI (R211). -/
def execShli (d a : SReg) (n : BitVec 6) (s : State) : Out := scalarResult d (shl64 (s.rdS a) (n.setWidth 64)) 1 s
/-- SHRI (R211). -/
def execShri (d a : SReg) (n : BitVec 6) (s : State) : Out := scalarResult d (shr64 (s.rdS a) (n.setWidth 64)) 1 s
/-- SARI (R211). -/
def execSari (d a : SReg) (n : BitVec 6) (s : State) : Out := scalarResult d (sar64 (s.rdS a) (n.setWidth 64)) 1 s
/-- MOVI (R211). -/
def execMovi (d : SReg) (v : Word64) (s : State) : Out := scalarResult d v 1 s
/-- CLZ (R209). -/
def execClz (d a : SReg) (w : Bool) (s : State) : Out :=
  let (n, x) := countOperand w (s.rdS a)
  scalarResult d (w64 (leadingZeros n x)) 1 s
/-- CTZ (R209). -/
def execCtz (d a : SReg) (w : Bool) (s : State) : Out :=
  let (n, x) := countOperand w (s.rdS a)
  scalarResult d (w64 (trailingZeros x n 0)) 1 s
/-- POPC (R209). -/
def execPopc (d a : SReg) (w : Bool) (s : State) : Out :=
  let (n, x) := countOperand w (s.rdS a)
  scalarResult d (w64 (oneBits x n)) 1 s
/-- SEXT (R209). -/
def execSext (d a : SReg) (sz : BitVec 2) (s : State) : Out := scalarResult d (sext64 sz (s.rdS a)) 1 s
/-- ZEXT (R209). -/
def execZext (d a : SReg) (sz : BitVec 2) (s : State) : Out := scalarResult d (zext64 sz (s.rdS a)) 1 s
/-- BFX (R212). -/
def execBfx (d a : SReg) (u : Bool) (width1 pos : BitVec 6) (s : State) : Out :=
  scalarResult d (bfx64 u (width1.toNat + 1) pos.toNat (s.rdS a)) 1 s
/-- BFI (R212). -/
def execBfi (d a : SReg) (width1 pos : BitVec 6) (s : State) : Out :=
  scalarResult d (bfi64 (width1.toNat + 1) pos.toNat (s.rdS d) (s.rdS a)) 1 s
/-- SEL (R214). -/
def execSel (d a b : SReg) (c : PReg) (s : State) : Out :=
  scalarResult d (if s.rdP c then s.rdS a else s.rdS b) 1 s
/-- CMP (R214). -/
def execCmp (d : PReg) (a b : SReg) (cc : BitVec 3) (s : State) : Out := predResult d (cond64 cc (s.rdS a) (s.rdS b)) s
/-- CMPI (R214). -/
def execCmpi (d : PReg) (a : SReg) (cc : BitVec 3) (v : Word64) (s : State) : Out :=
  predResult d (cond64 cc (s.rdS a) v) s
/-- PAND (R214). -/
def execPand (d a b : PReg) (s : State) : Out := predResult d (s.rdP a && s.rdP b) s
/-- POR (R214). -/
def execPor (d a b : PReg) (s : State) : Out := predResult d (s.rdP a || s.rdP b) s
/-- PXOR (R214). -/
def execPxor (d a b : PReg) (s : State) : Out := predResult d (s.rdP a != s.rdP b) s
/-- PANDN (R214). -/
def execPandn (d a b : PReg) (s : State) : Out := predResult d (s.rdP a && !s.rdP b) s

end Sys2Proof.Machine
end

