-- ==== Sys2Proof/Machine/AddrMem.lean ====
section
/-! DEFINITION. Address registers and the loads and stores of slot A: R166 to R174, R183 to R192, R110 to R112 for ST.G,
with tape pushes and reversed stores where R279 to R283 ask for them. -/

namespace Sys2Proof.Machine

/-! ### Shared forms -/

/-- The effective address of an M-format slot: base plus offset times the access size (R33). -/
def State.ea (s : State) (base : AReg) (off : Off9) (size : Nat) : Word64 :=
  s.rdA base + off.signExtend 64 * w64 size

/-- Bytes of a size code. -/
def sizeBytes (sz : BitVec 2) : Nat := 2 ^ sz.toNat

/-- `n` bytes at offset `o` of a block. -/
def bytesOf (b : Block) (o n : Nat) : Nat := b.toNat / 2 ^ (8 * o) % 2 ^ (8 * n)

/-- A loaded value of `n` bytes extended to 64 bits. -/
def extend64 (sx : Bool) (n v : Nat) : Word64 := if sx then BitVec.ofInt 64 (signedOf (8 * n) v) else w64 v

/-- The state that the slot which executes reads chains in: a slot below X that executes after the X slot of its issue does not see that slot's pane
events (R105, R408). -/
def State.chainView (s : State) : State :=
  match s.iss.chains with
  | some fs => if s.iss.slot < 4 then { s with frames := fs } else s
  | none => s

/-- The block at a location, read through where it lies on a frame or adjoint page (R94, R416); the fault of a read outside every extent names the
address that is read, `named`. -/
def slotBlockFor (s : State) (l : Loc) (va named : Nat) : Except State (VVal × BitVec 6) :=
  match s.chainView.blockAt l va with
  | .ok v fl => .ok (v, fl)
  | .noExtent => protFault s (w64 named)
  | .badFormat d => slotFault s cDesc (w64 va) (d.setWidth 64) 0

/-- A whole block read. -/
def slotBlock (s : State) (l : Loc) (va : Nat) : Except State (VVal × BitVec 6) := slotBlockFor s l va va

/-- The block that holds an address. -/
def Loc.blockLoc (l : Loc) (va : Nat) : Loc := { l with key := l.key - va % 64 }

/-- A scalar read of `n` bytes: a poisoned block reads as 0 and sets kstat.POISON (R168). -/
def slotScalar (s : State) (l : Loc) (va n : Nat) : Except State (Nat × BitVec 6 × Bool) := do
  let (b, fl) ← slotBlockFor s (l.blockLoc va) (va / 64 * 64) va
  .ok (bytesOf b.data (va % 64) n, fl, isPoison b.desc)

/-- The updates of a scalar read. -/
def scalarUpdates (u : Upd) (fl : BitVec 6) (bad : Bool) : List Upd :=
  [u] ++ (if fl = 0 then [] else [.flagsOr fl]) ++ (if bad then [.statOr stPoison] else [])

/-- A free entry of the sill, or the wait for one (R172). -/
def needSill (s : State) : Except State Unit :=
  if sillSize ≤ (s.core s.iss.g).sillUsed then slotWait s .sill else .ok ()

/-- Reach, alignment, translation and permission of an access, then the watermark (R130, R183). -/
def slotAccess (s : State) (r : Reach) (a : Access) (va : Word64) (size : Nat) : Except State Loc := do
  let l ← slotLoc s r a va size
  slotMark s va size
  .ok l

/-! ### Address registers (R184) -/

/-- ADDA. -/
def execAdda (d a : AReg) (b : SReg) (s : State) : Out := slotDone (.ok (s.putA d (s.rdA a + s.rdS b) 1))
/-- ADDAI. -/
def execAddai (d a : AReg) (v : Word64) (s : State) : Out := slotDone (.ok (s.putA d (s.rdA a + v) 1))
/-- MOVA into an a-register. -/
def execMova (d : AReg) (a : SReg) (s : State) : Out := slotDone (.ok (s.putA d (s.rdS a) 1))
/-- MOVA into a scalar register. -/
def execMovaToS (d : SReg) (a : AReg) (s : State) : Out := slotDone (.ok (s.putS d (s.rdA a) 1))
/-- SETSTEP. -/
def execSetstep (d : AReg) (a : SReg) (v : Word64) (s : State) : Out :=
  slotDone (.ok (s.emit (.stride d.toNat (s.rdS a + v)) 1))
/-- ITSET. -/
def execItset (n : BitVec 3) (k : BitVec 2) (t : AReg) (v : Word64) (s : State) : Out :=
  slotDone (.ok (s.emit (.iter n.toNat ⟨t, k.toNat, v⟩) 1))

/-! ### Loads from the own scratchpad (R186) -/

/-- LD. -/
def execLd (d : SReg) (base : AReg) (off : Off9) (sz : BitVec 2) (sx : Bool) (s : State) : Out :=
  slotDone (do
    let n := sizeBytes sz
    let va := s.ea base off n
    let l ← slotAccess s reachOwn .read va n
    let (v, _, bad) ← slotScalar s l va.toNat n
    let s := (s.putS d (extend64 sx n v) 5).note va.toNat n false 5
    .ok (if bad then s.putStat stPoison else s))

/-- LD.V. -/
def execLdV (d : VRegNo) (base : AReg) (off : Off9) (s : State) : Out :=
  slotDone (do
    let va := s.ea base off 64
    let l ← slotAccess s reachOwn .read va 64
    .ok ((s.putV d (s.readBlock l.key) 5).note va.toNat 64 false 5))

/-- LD.D: the descriptor itself. That of a poisoned block is 0x00FF and sets no kstat.POISON: LD.D reads the descriptor, not the data whose scalar
read R168 treats (DEDUCED: log entry 124). -/
def execLdD (d : SReg) (base : AReg) (off : Off9) (s : State) : Out :=
  slotDone (do
    let va := s.ea base off 64
    let l ← slotAccess s reachOwn .read va 64
    .ok ((s.putS d ((s.descAt l.key).setWidth 64) 5).note va.toNat 64 false 5))

/-! ### Stores (R186, R279, R283) -/

/-- A store may not aim at a page of kind frame or adjoint (R94, R274). -/
def plainOnly (s : State) (l : Loc) (va : Word64) : Except State Unit :=
  if l.space == .main && l.kind != 0 then protFault s va else .ok ()

/-- The push of R279 before a store to a differentiable address, where the context records a tape. -/
def pushOld (s : State) (l : Loc) (va : Word64) (pairs : List (Word64 × Word64)) : Except State State :=
  if s.cur.k.tapeOn && s.differentiable l va.toNat then
    if l.rd then pushTape s va pairs else protFault s va
  else .ok s

/-- The store of `n` low bytes of a value, at a location that is no window. -/
def State.storeScalar (s : State) (g va : Nat) (l : Loc) (n v : Nat) : State :=
  (s.writePart l.wkeys n v).note va n true (s.latencyOf g va l) (s.differentiable l va)

/-- ST. -/
def execSt (d : SReg) (base : AReg) (off : Off9) (sz : BitVec 2) (s : State) : Out :=
  slotDone (do
    let n := sizeBytes sz
    let va := s.ea base off n
    let v := (s.rdS d).toNat
    let l ← slotAccess s reachStore .write va n
    match windowPort l.space with
    | some (q, o) =>
      slotPort s va q
      .ok (s.storeWindow q o n v va)
    | none =>
      plainOnly s l va
      if s.reverse && s.differentiable l va.toNat then reverseStore s (.scalar d sz.toNat) va l
      else
        let old := if isPoison (s.descAt l.key) then 0 else getBytes s.mem l.key n
        let s ← pushOld s l va (scalarEntry sz.toNat va.toNat old)
        .ok (s.storeScalar s.iss.g va.toNat l n v))

/-- ST.V. -/
def execStV (d : VRegNo) (base : AReg) (off : Off9) (s : State) : Out :=
  slotDone (do
    let va := s.ea base off 64
    let v := s.rdV d
    let l ← slotAccess s reachStore .write va 64
    match windowPort l.space with
    | some (q, o) =>
      slotPort s va q
      .ok (s.storeBlockWindow q o v va)
    | none =>
      plainOnly s l va
      if s.reverse && s.differentiable l va.toNat then reverseStore s (.block d) va l
      else
        let s ← pushOld s l va (blockEntry va.toNat (s.readBlock l.key))
        .ok ((s.writeBlock l.wkeys v).note va.toNat 64 true (s.latencyOf s.iss.g va.toNat l) (s.differentiable l va.toNat)))

/-- The descriptor of a block replaced, unless the block is poisoned; at every placement (R84, R186). -/
def State.writeDesc (s : State) (keys : List Nat) (d : Desc) : State :=
  keys.foldl (fun s k => if isPoison (s.descAt k) then s else { s with desc := putDesc s.desc (k / 64) d }) s

/-- ST.D. -/
def execStD (d : SReg) (base : AReg) (off : Off9) (s : State) : Out :=
  slotDone (do
    let va := s.ea base off 64
    let v := (s.rdS d).setWidth 16
    let l ← slotAccess s reachMemory .write va 64
    plainOnly s l va
    if 0x0D < descFmt v then slotFault s cDesc va (v.setWidth 64) 0
    if (s.reverse || s.cur.k.tapeOn) && s.differentiable l va.toNat then protFault s va
    .ok ((s.writeDesc l.wkeys v).note va.toNat 64 true (s.latencyOf s.iss.g va.toNat l) (s.differentiable l va.toNat)))

/-! ### Timed loads (R187, R188) -/

/-- Whether data of a landing may be late: only where the cycles named are fewer than the declared figure (R88, R173). -/
def State.drawLate (s : State) (land declared : Nat) : Bool × State :=
  if s.det || declared ≤ land then (false, s)
  else let (n, s) := s.takeFree; (Config.landingLate n, s)

/-- Whether an access can fail its declared figure: many cores may crowd a placement that does not use every channel (R89). -/
def Loc.mayCrowd (l : Loc) : Bool := l.space == .main && geoChannels l.placeWord < 1536

/-- In a deterministic launch an access that cannot land at its declared figure raises an overrun fault (R89). When one cannot the manual does not
say: a free value decides it for main memory under a placement of fewer than all channels (DESIGN CHOICE: log entry 87). -/
def needOnTime (s : State) (l : Loc) : Except State State :=
  if s.det && l.mayCrowd then
    let (n, s) := s.takeFree
    if Config.landingLate n then slotFault s cOverrun s.iss.pc (w64 s.sclk) 0 else .ok s
  else .ok s

/-- The accesses of a fill keep their declared figure, or the fault (R89): one decision for all of them. -/
def fillOnTime (s : State) (ls : List Loc) : Except State State :=
  match ls.find? Loc.mayCrowd with
  | some l => needOnTime s l
  | none => .ok s

/-- LD.L. -/
def execLdL (d : VRegNo) (base : AReg) (off : Off9) (land : Nat) (s : State) : Out :=
  slotDone (do
    let va := s.ea base off 64
    let l ← slotAccess s (reachTimed s.det) .read va 64
    let r := physV s.cur.k.rv d
    match windowPort l.space with
    | some (q, o) =>
      slotPort s va q
      needSill s
      .ok ((s.requestWindow q o va).land [.v r {}] land false (some (q, o)))
    | none =>
      if s.reverse && s.differentiable l va.toNat then reverseLoad s d va l
      else
        let lat := s.latencyOf s.iss.g va.toNat l
        if s.det && land < lat then slotFault s cOverrun s.iss.pc (w64 s.sclk) 0
        needSill s
        let s ← needOnTime s l
        let (b, fl) ← slotBlock s l va.toNat
        let (late, s) := s.drawLate land lat
        .ok ((s.land ([.v r b] ++ (if fl = 0 then [] else [.flagsOr fl])) land late).note va.toNat 64 false lat))

/-! ### Stores into panes (R111, R112) -/

/-- The frame that a frame register binds, or the fault of an unbound one, which names the register. -/
def boundOf (s : State) (f : FReg) : Except State (Nat × Frame) :=
  match vget none s.cur.f f.toNat with
  | none => protFault s (f.setWidth 64)
  | some pa => .ok (pa, s.frame pa)

/-- The location of a store into a frame: on a page of the frame's kind that may be written (R67, R274), within the extent, aligned (R112). -/
def paneLoc (s : State) (fr : Frame) (va : Word64) (size : Nat) : Except State Loc := do
  match s.xlat (clusterOf s.iss.g) va.toNat with
  | .barred => protFault s va
  | .walk => slotWalk s va 1
  | .loc l =>
    if l.space != .main || l.kind != fr.info.pageKind || !l.wr || !fr.info.holds va.toNat then protFault s va
    if va.toNat % size ≠ 0 then alignFault s va size
    slotMark s va size
    .ok l

/-- The pane of a name, applied or not. -/
def Frame.paneNamed (f : Frame) (n : Nat) : Option Pane := (f.loose ++ f.chain).find? fun p => p.name == n

/-- The open pane that a store of the issuing context goes to (R97, R112). A store that executes after the X slot of its issue, which has
committed before a page upcall (R370), precedes the pane event there (R105): it goes to the pane that was open, as that pane stands now. What w2
of its two faults names the manual does not say: the virtual address of the frame record (DESIGN CHOICE: log entry 96). -/
def openPane (s : State) (pa : Nat) (fr : Frame) (acc : Bool) : Except State Pane :=
  match (s.chainView.frame pa).openOf s.iss.g s.iss.x with
  | none => protFault s (w64 fr.info.va)
  | some p =>
    if acc && p.ow then protFault s (w64 fr.info.va)
    else .ok (if s.iss.chains.isSome then (fr.paneNamed p.name).getD p else p)

/-- The frame with the pane of a store replaced: among those that are not applied, or where another context has applied it meanwhile, on the
chain; a pane that the X slot of the issue has dropped stays dropped. -/
def Frame.setStored (f : Frame) (p : Pane) : Frame :=
  if f.loose.any fun q => q.name == p.name then f.setLoose p
  else { f with chain := f.chain.map fun q => if q.name == p.name then p else q }

/-- The pane with the block of a store allocated (R98). -/
def touchFor (s : State) (pa : Nat) (fr : Frame) (plain : Bool) (p : Pane) (b : Nat) : Except State Pane := do
  needArena s pa fr (p.needFor [b])
  touchBlock s fr.info plain p b

/-- The tape entry of a store into a pane of a frame with DIFF = 1 (R279). -/
def pushPane (s : State) (pa : Nat) (fr : Frame) (va : Word64) (name : Nat) (acc blk : Bool) : Except State State :=
  if s.cur.k.tapeOn && fr.info.diff then pushTape s va (paneEntry va.toNat name acc blk pa) else .ok s

/-- ST.G, element form (R112). -/
def execStG (d : SReg) (base : AReg) (off : Off9) (f : FReg) (acc : Bool) (s : State) : Out :=
  slotDone (do
    let (pa, fr) ← boundOf s f
    let e := fr.info.elem
    let va := s.ea base off e
    let l ← paneLoc s fr va e
    if s.reverse && fr.info.diff then reverseStore s (.paneElem d pa) va l
    else
      paneGate s pa fr
      let p ← openPane s pa fr acc
      let o := va.toNat - fr.info.base
      let p ← touchFor s pa fr false p (o / 64)
      let s ← pushPane s pa fr va p.name acc false
      match p.block? (o / 64) with
      | none => .ok s
      | some k =>
        let (k, fl) := k.storeElem fr.info acc (o % 64 / e) ((s.rdS d).toNat % 2 ^ fr.info.width)
        .ok ((s.changeFrame pa (fr.setStored (p.setBlock k))).putFlags fl 1))

/-- ST.G, block form (R112). -/
def execStGBlk (d : VRegNo) (base : AReg) (off : Off9) (f : FReg) (acc : Bool) (s : State) : Out :=
  slotDone (do
    let (pa, fr) ← boundOf s f
    let va := s.ea base off 64
    let l ← paneLoc s fr va 64
    if s.reverse && fr.info.diff then reverseStore s (.paneBlock d pa) va l
    else
      paneGate s pa fr
      let p ← openPane s pa fr acc
      let v := s.rdV d
      let b := (va.toNat - fr.info.base) / 64
      let p ← touchFor s pa fr (!acc) p b
      match p.block? b with
      | none => .ok s
      | some k =>
        if !(k.poison && acc) && !isPoison v.desc && !fr.info.formatOk v.desc then descFault s v.desc
        let s ← pushPane s pa fr va p.name acc true
        let (k, fl) := k.storeBlock fr.info acc v
        .ok ((s.changeFrame pa (fr.setStored (p.setBlock k))).putFlags fl 1))

/-! ### Indexed access (R189, R190) -/

/-- One lane of an indexed access: lane number, location. -/
def gatherLane (s : State) (base : Word64) (idx : Block) (e : Nat) (a : Access) (k : Nat) : Except State (Nat × Loc) := do
  let va := base + w64 (laneOf (8 * e) idx k % 2 ^ 32)
  let l ← slotAccess s reachOwn a va e
  .ok (k, l)

/-- The locations of the active lanes, every lane checked. -/
def gatherLanes (s : State) (base : Word64) (idx : Block) (e : Nat) (a : Access) (m : Word64) :
    List Nat → Except State (List (Nat × Loc))
  | [] => .ok []
  | k :: ks => do
    if inMask m k then
      let x ← gatherLane s base idx e a k
      let xs ← gatherLanes s base idx e a m ks
      .ok (x :: xs)
    else gatherLanes s base idx e a m ks

/-- The common descriptor of blocks, 0x0000 matching any; the first block that differs is named. -/
def commonDesc (l : List (Nat × Desc)) (acc : Desc) : Except (Nat × Desc) Desc :=
  match l with
  | [] => .ok acc
  | (a, d) :: ds =>
    if d = 0 then commonDesc ds acc
    else if acc = 0 then commonDesc ds d
    else if d = acc then commonDesc ds acc
    else .error (a, d)

/-- Element bytes of an indexed access. -/
def gatherSize (dw : Bool) : Nat := if dw then 8 else 4

/-- The accesses of the lanes remembered (R331). -/
def State.noteLanes (s : State) (e : Nat) (wr : Bool) (lat : Nat) (lanes : List (Nat × Loc)) : State :=
  lanes.foldl (fun (s : State) x => s.note x.2.pa e wr lat) s

/-- GATH. Descriptors of poisoned blocks are not compared (log entry 16). The lanes left out keep the data that they hold when the result is
delivered, as those of a write mask do (R206, log entry 77). -/
def execGath (d : VRegNo) (a : AReg) (b : VRegNo) (dw : Bool) (m : MReg) (s : State) : Out :=
  slotDone (do
    let e := gatherSize dw
    let lanes ← gatherLanes s (s.rdA a) (s.rdV b).data e .read (s.rdM m) (List.range (64 / e))
    let descs := lanes.map fun (_, l) => (l.key / 64 * 64, s.descAt l.key)
    let s := s.noteLanes e false 8 lanes
    if lanes.isEmpty then .ok (s.emit (.keepV (physV s.cur.k.rv d)) 8)
    else
      match commonDesc (descs.filter fun x => !isPoison x.2) 0 with
      | .error (at_, dd) => slotFault s cDesc (w64 at_) (dd.setWidth 64) 0
      | .ok cd =>
        if descs.any fun x => isPoison x.2 then .ok (s.putV d poisonVal 8)
        else
        let data := lanes.foldl (fun b (k, l) => setLane (8 * e) b k (getBytes s.mem l.key e)) 0
        .ok (s.putPart d (maskKeep (8 * e) (s.rdM m)) ⟨data, cd⟩ 8))

/-- SCAT. A lane aimed at a poisoned block is discarded, so its descriptor is not compared (log entry 16). -/
def execScat (d : VRegNo) (a : AReg) (b : VRegNo) (dw : Bool) (m : MReg) (s : State) : Out :=
  slotDone (do
    let e := gatherSize dw
    let v := s.rdV d
    let lanes ← gatherLanes s (s.rdA a) (s.rdV b).data e .write (s.rdM m) (List.range (64 / e))
    let bad := lanes.find? fun (_, l) =>
      let bd := s.descAt l.key
      !isPoison bd && v.desc != 0 && bd != 0 && bd != v.desc
    match bad with
    | some (_, l) => slotFault s cDesc (w64 (l.key / 64 * 64)) ((s.descAt l.key).setWidth 64) 0
    | none =>
      .ok ((lanes.foldl (fun s (k, l) => s.writePart l.wkeys e (laneOf (8 * e) v.data k)) s).noteLanes e true 5 lanes))

/-! ### Spill space (R170, R191, R192) -/

/-- Length of the carve-out. -/
def KRegs.spillLen (k : KRegs) : Nat := bits k.spill 43 24
/-- Offset of the carve-out. -/
def KRegs.spillBase (k : KRegs) : Nat := bits k.spill 19 0

/-- Where a spill offset lies: in the carve-out, or in the overflow area. -/
inductive SpillPlace where
  | carve (l : Loc) (va : Nat)
  | over (l : Loc) (va : Nat)
deriving DecidableEq, Repr, Inhabited

/-- The place of a spill access (R192). -/
def spillPlace (s : State) (o : Word64) (size : Nat) (a : Access) : Except State SpillPlace := do
  let k := s.cur.k
  if o.toInt < 0 then protFault s o
  if o.toNat % size ≠ 0 then alignFault s o size
  if o.toNat + size ≤ k.spillLen then
    let at_ := k.spillBase + o.toNat
    let va := w64 (spadPa s.iss.g 0 + at_)
    if latchBase < at_ + size then protFault s va
    if va.toNat % size ≠ 0 then alignFault s va size
    slotMark s va size
    .ok (.carve (windowLoc va.toNat) va.toNat)
  else
    let va := k.spovf + w64 (o.toNat - k.spillLen)
    let l ← slotAccess s ({ main := true } : Reach) a va size
    .ok (.over l va.toNat)

/-- The access size of a register class (R191): 8 bytes, or 64 for v-registers. -/
def spillSize (cls : BitVec 2) : Nat := if cls = 2 then 64 else 8

/-- Store a register of a class at a location. -/
def State.spillTo (s : State) (cls : BitVec 2) (d : SReg) (l : Loc) : State :=
  if cls = 2 then s.writeBlock l.wkeys (s.rdV (d.setWidth 5))
  else s.writePart l.wkeys 8 (if cls = 0 then (s.rdS d).toNat else (s.rdA (d.setWidth 5)).toNat)

/-- SPILL. -/
def execSpill (cls : BitVec 2) (d : SReg) (base : AReg) (off : Off9) (s : State) : Out :=
  slotDone (do
    let n := spillSize cls
    match ← spillPlace s (s.ea base off n) n .write with
    | .carve l va => .ok ((s.spillTo cls d l).note va n true 5)
    | .over l va =>
      plainOnly s l (w64 va)
      .ok ((s.spillTo cls d l).note va n true 1024))

/-- The updates of a FILL: the register, with flags and poison. -/
def fillUpdates (s : State) (cls : BitVec 2) (d : SReg) (l : Loc) (va : Nat) : Except State (List Upd) := do
  if cls = 2 then
    let (b, fl) ← slotBlock s l va
    .ok ([.v (physV s.cur.k.rv (d.setWidth 5)) b] ++ (if fl = 0 then [] else [.flagsOr fl]))
  else
    let (v, fl, bad) ← slotScalar s l va 8
    let u : Upd := if cls = 0 then .s (physS s.cur.k.rs d) (w64 v) else .a (d.setWidth 5 : BitVec 5).toNat (w64 v)
    .ok (scalarUpdates u fl bad)

/-- FILL. -/
def execFill (cls : BitVec 2) (d : SReg) (base : AReg) (off : Off9) (s : State) : Out :=
  slotDone (do
    let n := spillSize cls
    match ← spillPlace s (s.ea base off n) n .read with
    | .carve l va =>
      let us ← fillUpdates s cls d l va
      .ok ((us.foldl (fun s u => s.emit u (if u.accumulates then 1 else 5)) s).note va n false 5)
    | .over l va =>
      needSill s
      let s ← needOnTime s l
      let us ← fillUpdates s cls d l va
      .ok ((s.land us 1024 false).note va n false 1024))

end Sys2Proof.Machine
end

