-- ==== Sys2Proof/Machine/Atomics.lean ====
section
/-! DEFINITION. Ownership of accumulator tiles, and the accumulator instructions of slot A (R175 to R178, R193, R194, R259,
R320). -/

namespace Sys2Proof.Machine

/-! ### Ownership (R259) -/

/-- The operation that owns a tile: its context, slot and bundle, and whether a tile task issued it. -/
structure Owner where
  ctx : Nat
  slot : Nat
  pc : Word64
  task : Bool
deriving DecidableEq, Repr, Inhabited

/-- The owner that a matrix operation is. -/
def MatOp.owner (o : MatOp) : Owner := ⟨o.ctx, o.slot, o.pc, o.task⟩
/-- The owner that a drain is. -/
def Drain.owner (d : Drain) : Owner := ⟨d.ctx, d.slot, d.pc, d.task⟩

/-- The drain that owns a tile. -/
def Core.drainOf (c : Core) (t : Nat) : Option Drain :=
  match c.port with
  | some (d, _) => if d.acc = t then some d else c.drains.find? fun d => d.acc == t
  | none => c.drains.find? fun d => d.acc == t

/-- The oldest in-flight operation of the core that owns a tile: an ADRAIN enters only where nothing owns the tile, so a drain
is older than any matrix operation on it. -/
def Core.ownerOf (c : Core) (t : Nat) : Option Owner :=
  match c.drainOf t with
  | some d => some d.owner
  | none =>
    match c.array with
    | some (o, _) =>
      if o.acc = t then some o.owner else (c.queue.find? fun o => o.acc == t).map MatOp.owner
    | none => (c.queue.find? fun o => o.acc == t).map MatOp.owner

/-- The task that runs on core g (R270). -/
def State.taskOn (s : State) (g : Nat) : Option Task :=
  (s.cluster (clusterOf g)).tasks.toList.flatten.find? fun t =>
    t.dispatched && t.built && !t.done && t.host == coreOf g

/-- A freeze of core g outside deterministic launches stops its matrix engine, drain port, slot fills and tile task too: R11 names only the copy and
collective engines as going on, and that the others stop is the model's choice (DESIGN CHOICE: log entry 82). In a deterministic launch no engine
freezes (R350). -/
def State.engineFrozen (s : State) (g : Nat) : Bool := !s.det && !(s.core g).frozen.isEmpty

/-- The clock by which core g's engine counts its cycles. -/
def State.engineClock (s : State) (g : Nat) : Nat := if s.det then s.cycle else (s.core g).clock

/-- The accumulator tile of a running task (R270). -/
def taskTile : Nat := 15

/-- The slot number of TTASK in a bundle (R262). -/
def slotM : Nat := 3

/-- The owner of a tile of core g. -/
def State.tileOwner (s : State) (g t : Nat) : Option Owner :=
  match s.taskOn g with
  | some k => if t = taskTile then some ⟨k.ctx, slotM, k.pc, true⟩ else (s.core g).ownerOf t
  | none => (s.core g).ownerOf t

/-- A tile is owned. -/
def State.owned (s : State) (g t : Nat) : Bool := (s.tileOwner g t).isSome

/-- The accumulator-busy trap for the owner of a tile (R259, R364). -/
def busyTrap {α : Type} (s : State) (t : Nat) (o : Owner) : Except State α :=
  slotTrap s 4 (w64 (flag o.task 9 + o.ctx * 2 ^ 7 + o.slot * 2 ^ 4 + t)) o.pc

/-- The tile is not owned, or the trap. -/
def needUnowned (s : State) (g t : Nat) : Except State Unit :=
  match s.tileOwner g t with
  | some o => busyTrap s t o
  | none => .ok ()

/-! ### Cells (R175, R178) -/

/-- Bytes of a tile in the window. -/
def tileBytes : Nat := 0x2000

/-- The window offset of a cell within its core. -/
def cellOffset (t row col : Nat) : Nat := t * tileBytes + (row * 32 + col) * 8

/-- The core and window offset of an accumulator location. -/
def Loc.accOf (l : Loc) : Nat × Nat :=
  match l.space with
  | .acc g off => (g, off)
  | _ => (0, 0)

/-- The cells of a run of bytes. -/
def cellsOf (pa n : Nat) : List Nat := (List.range ((n + 7) / 8)).map fun i => pa / 8 * 8 + 8 * i

/-- Bytes of cells written; a whole cell written clears its mark (R178). -/
def State.writeCells (s : State) (pa n v : Nat) : State :=
  { s with
    mem := putBytes s.mem pa n v,
    poisoned := if n % 8 = 0 then s.poisoned.filter (fun c => !(cellsOf pa n).contains c) else s.poisoned }

/-- A read half that meets a poisoned cell: nothing is written, the destination receives 0 or the poison descriptor as `bad` delivers it, and the
launch ends naming the cell (R178). -/
def readCells (s : State) (pa n : Nat) (bad : State → State) : Except State Nat :=
  match (cellsOf pa n).find? s.poisoned.contains with
  | some c => slotFault (bad s) cEcc (w64 c) 0 0
  | none => .ok (getBytes s.mem pa n)

/-- A source with descriptor 0xFF poisons the cells and ends the launch (R194). -/
def poisonCells {α : Type} (s : State) (pa n : Nat) : Except State α :=
  slotFault { s with poisoned := s.poisoned ++ (cellsOf pa n).filter (fun c => !s.poisoned.contains c) } cEcc (w64 pa) 0 0

/-- The location of an accumulator access, with its tile not owned (R166, R177, R183). -/
def slotCells (s : State) (va : Word64) (size : Nat) : Except State Loc := do
  let l ← slotAccess s reachAcc .both va size
  needUnowned s l.accOf.1 (l.accOf.2 / tileBytes)
  .ok l

/-- The declared completion of an accumulator access other than ALD (R88, R194). -/
def cellLatency (s : State) (l : Loc) : Nat := if l.accOf.1 = s.iss.g then 8 else 48

/-! ### New contents (R194) -/

/-- The floating-point format of an accumulator word. -/
def wordFmt (w : Bool) : FFmt := if w then fp32 else fp64

/-- Bytes of an accumulator word. -/
def wordSize (w : Bool) : Nat := if w then 4 else 8

/-- An addition into a word. -/
def cellAdd (w fl : Bool) (old x : Nat) : Nat × BitVec 6 :=
  if fl then
    let f := wordFmt w
    let (r, f1) := fAdd 0 (decodeF f old) (decodeF f x)
    let (v, f2) := roundF f 0 false r
    (v, f1 ||| f2)
  else ((old + x) % 2 ^ (8 * wordSize w), 0)

/-- The smaller or larger of two words. -/
def cellMin (w fl u larger : Bool) (old x : Nat) : Nat × BitVec 6 :=
  if fl then
    let f := wordFmt w
    let (r, f1) := (if larger then fMax else fMin) (decodeF f old) (decodeF f x)
    ((roundF f 0 false r).1, f1)
  else
    let n := 8 * wordSize w
    let less := if u then decide (x < old) else decide (signedOf n x < signedOf n old)
    let more := if u then decide (old < x) else decide (signedOf n old < signedOf n x)
    (if larger then (if more then x else old) else (if less then x else old), 0)

/-- The low word of a scalar. -/
def lowWord (w : Bool) (x : Word64) : Nat := x.toNat % 2 ^ (8 * wordSize w)

/-- What an accumulator instruction loads: at its exposed latency from the own window, as a landing from another core's (R194). The flags of its
arithmetic come with it (R236). -/
def State.putCell (s : State) (own : Bool) (u : Upd) (lat : Nat) (fl : BitVec 6 := 0) : State :=
  if own then (s.emit u lat).putFlags fl lat else s.land ([u] ++ if fl = 0 then [] else [.flagsOr fl]) 48 false

/-- An instruction that replaces a word: `f` gives the new contents and flags from the old. With a destination the old value
is returned with the flags, at latency 8 from the own window and as a landing from another core's (R194, R236), and the access counts as a read too
(R315); without one the flags are visible at the next issue. -/
def cellUpdate (s : State) (va : Word64) (w : Bool) (ret : Option Nat) (f : Nat → Nat × BitVec 6) :
    Except State State := do
  let n := wordSize w
  let l ← slotCells s va n
  let own := l.accOf.1 == s.iss.g
  if ret.isSome && !own then needSill s
  needReleased s
  let give (s : State) (v : Nat) (fl : BitVec 6) : State :=
    match ret with
    | none => s.putFlags fl 1
    | some r => s.putCell own (.s r (w64 v)) 8 fl
  let old ← readCells s l.key n fun s => give s 0 0
  let (v, fl) := f old
  let lat := cellLatency s l
  let s := (s.writeCells l.key n v).note va.toNat n true lat
  .ok (give (if ret.isSome then s.note va.toNat n false lat else s) old fl)

/-- The physical number of a scalar destination. -/
def State.destS (s : State) (d : SReg) : Nat := physS s.cur.k.rs d

/-! ### Block forms (R194) -/

/-- A block source of AWR.V carries the integer format of its words with scale 0, their floating-point format, or 0x0000, whatever F is. -/
def awrDescOk (w : Bool) (d : Desc) : Bool :=
  d == 0 || d == mkDesc (if w then 9 else 10) 0 || descFmt d == (if w then 2 else 1)

/-- One word of a block source: its new contents over the old. F alone decides how the bits are read and added; a scale is applied where F asks for
floating point, and AWR.OW of an unscaled source writes its bits as they are (log entry 78). -/
def awrLane (w fl add : Bool) (x : VVal) (old k : Nat) : Nat × BitVec 6 :=
  let n := 8 * wordSize w
  if fl && (add || scaleOf x.desc != 0) then
    let f := wordFmt w
    let v := laneNum (if w then 2 else 1) x k
    let (r, f1) := if add then fAdd 0 (decodeF f old) v else (v, 0)
    let (b, f2) := roundF f 0 false r
    (b, f1 ||| f2)
  else
    let v := laneOf n x.data k
    (if add then (old + v) % 2 ^ n else v, 0)

/-- AWR.V in either kind (R194). -/
def awrBlock (s : State) (d : SReg) (va : Word64) (w fl add : Bool) : Except State State := do
  let x := s.rdV (d.setWidth 5)
  let l ← slotCells s va 64
  needReleased s
  if isPoison x.desc then poisonCells s l.key 64
  if !awrDescOk w x.desc then descFault s x.desc
  let old ← (if add then readCells s l.key 64 id else .ok 0)
  let n := 8 * wordSize w
  let lanes := (List.range (512 / n)).map fun k => awrLane w fl add x (old / 2 ^ (n * k) % 2 ^ n) k
  .ok (((s.writeCells l.key 64 (joinLanes n (lanes.map (·.1)))).putFlags ((lanes.map (·.2)).foldl (· ||| ·) 0) 1).note
    va.toNat 64 true (cellLatency s l))

/-! ### The instructions -/

/-- AWR.OW of a whole cell: it has no read half, and clears the mark of a poisoned cell (R178). -/
def cellStore (s : State) (va : Word64) (x : Word64) : Except State State := do
  let l ← slotCells s va 8
  needReleased s
  .ok ((s.writeCells l.key 8 x.toNat).note va.toNat 8 true (cellLatency s l))

/-- AWR.OW. -/
def execAwrOw (d : SReg) (base : AReg) (off : Off9) (w fl blk : Bool) (s : State) : Out :=
  slotDone (
    if blk then awrBlock s d (s.ea base off 64) w fl false
    else if w then cellUpdate s (s.ea base off 4) w none fun _ => (lowWord w (s.rdS d), 0)
    else cellStore s (s.ea base off 8) (s.rdS d))

/-- AWR.ADD. -/
def execAwrAdd (d : SReg) (base : AReg) (off : Off9) (w fl blk : Bool) (s : State) : Out :=
  slotDone (
    if blk then awrBlock s d (s.ea base off 64) w fl true
    else cellUpdate s (s.ea base off (wordSize w)) w none fun old => cellAdd w fl old (lowWord w (s.rdS d)))

/-- AXADD. -/
def execAxadd (d : SReg) (base : AReg) (off : Off9) (w fl : Bool) (s : State) : Out :=
  slotDone (cellUpdate s (s.ea base off (wordSize w)) w (some (s.destS d))
    fun old => cellAdd w fl old (lowWord w (s.rdS d)))

/-- AXCHG. -/
def execAxchg (d : SReg) (base : AReg) (off : Off9) (w : Bool) (s : State) : Out :=
  slotDone (cellUpdate s (s.ea base off (wordSize w)) w (some (s.destS d)) fun _ => (lowWord w (s.rdS d), 0))

/-- ACAS. -/
def execAcas (d : SReg) (a : AReg) (b : SReg) (w : Bool) (s : State) : Out :=
  slotDone (cellUpdate s (s.rdA a) w (some (s.destS d))
    fun old => (if old = lowWord w (s.rdS d) then lowWord w (s.rdS b) else old, 0))

/-- AMIN. -/
def execAmin (d : SReg) (base : AReg) (off : Off9) (w fl u : Bool) (s : State) : Out :=
  slotDone (cellUpdate s (s.ea base off (wordSize w)) w (some (s.destS d))
    fun old => cellMin w fl u false old (lowWord w (s.rdS d)))

/-- AMAX. -/
def execAmax (d : SReg) (base : AReg) (off : Off9) (w fl u : Bool) (s : State) : Out :=
  slotDone (cellUpdate s (s.ea base off (wordSize w)) w (some (s.destS d))
    fun old => cellMin w fl u true old (lowWord w (s.rdS d)))

/-- AAND. -/
def execAand (d : SReg) (base : AReg) (off : Off9) (w : Bool) (s : State) : Out :=
  slotDone (cellUpdate s (s.ea base off (wordSize w)) w (some (s.destS d)) fun old => (old &&& lowWord w (s.rdS d), 0))

/-- AOR. -/
def execAor (d : SReg) (base : AReg) (off : Off9) (w : Bool) (s : State) : Out :=
  slotDone (cellUpdate s (s.ea base off (wordSize w)) w (some (s.destS d)) fun old => (old ||| lowWord w (s.rdS d), 0))

/-- ALD: latency 6 from the own window. -/
def execAld (d : SReg) (base : AReg) (off : Off9) (w blk : Bool) (s : State) : Out :=
  slotDone (do
    let n := if blk then 64 else wordSize w
    let va := s.ea base off n
    let l ← slotCells s va n
    let own := l.accOf.1 == s.iss.g
    if !own then needSill s
    let block (v : VVal) : Upd := .v (physV s.cur.k.rv (d.setWidth 5)) v
    let old ← readCells s l.key n fun s => s.putCell own (if blk then block poisonVal else .s (s.destS d) 0) 6
    let u : Upd := if blk then block ⟨BitVec.ofNat 512 old, 0⟩ else .s (s.destS d) (w64 old)
    .ok ((s.note va.toNat n false (if own then 6 else 48)).putCell own u 6))

/-- AST: each element of v[d] as an E cell. A poisoned source has no element size: that one cell is poisoned is the model's choice (log entry 104). -/
def execAst (d : VRegNo) (base : AReg) (off : Off9) (s : State) : Out :=
  slotDone (do
    let x := s.rdV d
    let code := descFmt x.desc
    let va := s.ea base off 8
    if !isPoison x.desc && (code == 0 || 10 < code) then descFault s x.desc
    let n := if isPoison x.desc then 1 else 512 / codeBits code
    let l ← slotCells s va (8 * n)
    needReleased s
    if isPoison x.desc then poisonCells s l.key (8 * n)
    let cells := (List.range n).map fun k => roundF fpE 0 false (laneNum code x k)
    .ok (((s.writeCells l.key (8 * n) (joinLanes 64 (cells.map (·.1)))).putFlags
      ((cells.map (·.2)).foldl (· ||| ·) 0) 1).note va.toNat (8 * n) true (cellLatency s l)))

end Sys2Proof.Machine
end

