-- ==== Sys2Proof/Machine/Sync.lean ====
section
/-! DEFINITION. Latches and handles: LARR, LWAIT, LBASE, WAITANY, HSET, HWAIT and HADV (R181, R182, R200, R201, R347 to
R349, R360 to R363). -/

namespace Sys2Proof.Machine

/-! ### Naming a latch (R348) -/

/-- The core that a latch-name operand names, as a global number. -/
def latchCore (s : State) (v : Word64) : Except State Nat :=
  if bit v 16 then
    if 95 < bits v 15 9 then protFault s v else .ok (96 * clusterOf s.iss.g + bits v 15 9)
  else .ok s.iss.g

/-- LDEPTH. -/
def KRegs.ldepth (k : KRegs) : Nat := k.ldm1 + 1

/-- The latch that number n names: itself, or under rotation the one that kwany gives. -/
def latchIndex (s : State) (v : Word64) (n : Nat) (rot : Bool) : Except State Nat :=
  let k := s.cur.k
  if rot then
    if 512 < k.lb + k.ldepth || k.ldm1 < k.lrot then protFault s 0x08
    else if k.ldepth ≤ n then protFault s v
    else .ok (k.lb + (n + k.lrot) % k.ldepth)
  else if 511 < n then protFault s v
  else .ok n

/-- Core and latch of an operand. -/
def latchName (s : State) (v : Word64) (rot : Bool) : Except State (Nat × Nat) := do
  let g ← latchCore s v
  let n ← latchIndex s v (bits v 8 0) rot
  .ok (g, n)

/-! ### LARR (R360) -/

/-- `k` arrivals on a latch, or the fault of R347 naming the latch. -/
def arrive (s : State) (v : Word64) (rot : Bool) (k : Nat) : Except State State := do
  let (g, n) ← latchName s v rot
  needReleased s
  match s.latchAdd g n k with
  | some s => .ok s
  | none => protFault s (w64 (latchPa g n))

/-- LARR. -/
def execLarr (l : SReg) (rot : Bool) (s : State) : Out := slotDone (arrive s (s.rdS l) rot 1)

/-- LARR.N. -/
def execLarrN (l v : SReg) (rot : Bool) (s : State) : Out :=
  slotDone (arrive s (s.rdS l) rot (bits (s.rdS v) 15 0))

/-- LARR.SET. -/
def execLarrSet (l v : SReg) (rot : Bool) (s : State) : Out :=
  slotDone (do
    let (g, n) ← latchName s (s.rdS l) rot
    needReleased s
    .ok (s.setLatch g n (latchOf (latchWait (s.latch g n)) 0 (bits (s.rdS v) 15 0))))

/-- LARR.RD: latency 8 from the own core, a landing of 64 cycles from another. -/
def execLarrRd (l d : SReg) (rot : Bool) (s : State) : Out :=
  slotDone (do
    let (g, n) ← latchName s (s.rdS l) rot
    if g = s.iss.g then .ok (s.putS d (s.latch g n) 8)
    else
      needSill s
      .ok (s.land [.s (physS s.cur.k.rs d) (s.latch g n)] 64 false))

/-! ### Waits (R361, R363) -/

/-- LWAIT: WAIT is counted while the context waits (R346), and the event that ends the wait takes the arrivals. -/
def execLwait (l : SReg) (re rot : Bool) (s : State) : Out :=
  slotDone (do
    let (g, n) ← latchName s (s.rdS l) rot
    if s.granted then .ok s
    else if s.latchDone g n then .ok (if re then s.latchConsume g n else s)
    else slotWait s (.latch g n re))

/-- The latches of a WAITANY mask: bit number and latch. -/
def maskLatches (s : State) (v : Word64) (rot : Bool) : List Nat → Except State (List (Nat × Nat))
  | [] => .ok []
  | j :: js => do
    let n ← latchIndex s v (bits v 8 0 + j) rot
    let r ← maskLatches s v rot js
    .ok ((j, n) :: r)

/-- The scan order of WAITANY: from WPOS on, modulo 8. -/
def scanOrder (wpos : Nat) : List Nat := (List.range 8).map fun i => (wpos + i) % 8

/-- The first complete latch of a mask, with its bit number. -/
def State.firstLatch (s : State) (wpos g : Nat) (named : List (Nat × Nat)) : Option (Nat × Nat) :=
  (scanOrder wpos).findSome? fun j => named.find? fun e => e.1 == j && s.latchDone g e.2

/-- The mask bit that the end of a slot's wait has chosen. -/
def Iss.choice (i : Iss) : Option Nat := (i.chosen.find? fun e => e.1 == i.slot).map (·.2)

/-- The results of WAITANY for mask bit j. -/
def State.putAny (s : State) (d : SReg) (j : Nat) : State := (s.putS d (w64 j) 1).putK .wpos (w64 ((j + 1) % 8))

/-- WAITANY: the event that ends its wait chooses the latch and takes its arrivals. -/
def execWaitany (d l : SReg) (re rot : Bool) (mask : BitVec 8) (s : State) : Out :=
  slotDone (do
    let v := s.rdS l
    let g ← latchCore s v
    let named ← maskLatches s v rot ((List.range 8).filter fun j => mask.getLsbD j)
    match s.iss.choice with
    | some j => .ok (s.putAny d j)
    | none => match s.firstLatch s.cur.k.wpos g named with
      | none => slotWait s (.anyLatch g named re)
      | some (j, n) => .ok ((if re then s.latchConsume g n else s).putAny d j))

/-! ### The end of a wait (R346, R361, R363) -/

/-- What the event that observes a latch complete does for a wait of context x of core g: with RE it takes the arrivals, and for WAITANY it chooses
the latch. -/
def State.observe (s : State) (g x : Nat) (i : Iss) (w : Nat × WaitCond) : State × Iss :=
  match w.2 with
  | .latch h n re => (if re then s.latchConsume h n else s, i)
  | .anyLatch h ns re =>
    match s.firstLatch (s.ctx g x).k.wpos h ns with
    | some (j, n) => (if re then s.latchConsume h n else s, { i with chosen := i.chosen ++ [(w.1, j)] })
    | none => (s, i)
  | _ => (s, i)

/-- The waits of a list end: each leaves WAIT and takes what it has waited for. -/
def State.observeAll (s : State) (g x : Nat) (i : Iss) (ws : List (Nat × WaitCond)) : State × Iss :=
  ws.foldl (fun (e : State × Iss) w => e.1.observe g x e.2 w) (s.countWaits ws false, i)

/-! ### LBASE (R362) -/

/-- LBASE.SET. R362 does not say what w2 of its fault names: the value of s[op2] (DESIGN CHOICE: log entry 139). -/
def execLbaseSet (b n : SReg) (s : State) : Out :=
  slotDone (
    let base := bits (s.rdS b) 8 0
    let d := (s.rdS n).toNat
    if d < 1 ∨ 128 < d ∨ 512 < base + d then protFault s (s.rdS n)
    else .ok (((s.putK .lb (w64 base)).putK .ldm1 (w64 (d - 1))).putK .lrot 0))

/-- LBASE.STEP. -/
def execLbaseStep (s : State) : Out :=
  slotDone (.ok (s.putK .lrot (w64 ((s.cur.k.lrot + 1) % s.cur.k.ldepth))))

/-! ### Handles (R181, R182, R201) -/

/-- SLOTS of a handle. -/
def handleSlots (h : Word64) : Nat := bits h 47 32
/-- Filled slots. -/
def handleFilled (h : Word64) : Nat := (bits h 31 16 + 2 ^ 16 - bits h 15 0) % 2 ^ 16
/-- Free slots. -/
def handleFree (h : Word64) : Nat := handleSlots h - handleFilled h
/-- A value that HSET may write (R181). -/
def handleValid (h : Word64) : Bool := bits h 63 48 == 0 && 1 ≤ handleSlots h && handleFilled h ≤ handleSlots h
/-- A handle that is set. -/
def handleSet (h : Word64) : Bool := handleSlots h != 0

/-- A handle after an advance of its producer or consumer count; none where R182 refuses it. -/
def handleAdvance (h : Word64) (prod : Bool) (c : Nat) : Option Word64 :=
  if (if prod then handleFree h else handleFilled h) < c then none
  else
    let p := bits h 31 16
    let q := bits h 15 0
    some (w64 (handleSlots h * 2 ^ 32 + (if prod then (p + c) % 2 ^ 16 else p) * 2 ^ 16 +
      (if prod then q else (q + c) % 2 ^ 16)))

/-- A handle replaced: handles change in one order with the engine's advances. -/
def State.setHandle (s : State) (h : HReg) (v : Word64) : State :=
  s.modCur fun k => { k with h := vset k.h h.toNat v }

/-- HSET. What w2 of its fault names, R201 does not say, nor R181 for the others: the number of the handle (DESIGN CHOICE: log entry 139). -/
def execHset (h : HReg) (v : SReg) (s : State) : Out :=
  slotDone (if handleValid (s.rdS v) then .ok (s.setHandle h (s.rdS v)) else protFault s (h.setWidth 64))

/-- HSET.R. -/
def execHsetR (h : HReg) (d : SReg) (s : State) : Out := slotDone (.ok (s.putS d (s.cur.rdH h) 1))

/-- HWAIT in either form; its fault names the handle's number (log entry 139). -/
def handleWait (s : State) (h : HReg) (c : SReg) (room : Bool) : Except State State :=
  let v := s.cur.rdH h
  let n := (s.rdS c).toNat
  if !handleSet v || handleSlots v < n then protFault s (h.setWidth 64)
  else if (if room then handleFree v else handleFilled v) < n then slotWait s (.handle h.toNat n room)
  else .ok s

/-- HWAIT.DATA. -/
def execHwaitData (h : HReg) (c : SReg) (s : State) : Out := slotDone (handleWait s h c false)
/-- HWAIT.ROOM. -/
def execHwaitRoom (h : HReg) (c : SReg) (s : State) : Out := slotDone (handleWait s h c true)

/-- HADV in either form; its fault names the handle's number (log entry 139). -/
def handleStep (s : State) (h : HReg) (c : SReg) (prod : Bool) : Except State State :=
  let v := s.cur.rdH h
  if !handleSet v then protFault s (h.setWidth 64)
  else match handleAdvance v prod (s.rdS c).toNat with
    | some v' => .ok (s.setHandle h v')
    | none => .ok (s.putStat stHover)

/-- HADV.CONS. -/
def execHadvCons (h : HReg) (c : SReg) (s : State) : Out := slotDone (handleStep s h c false)
/-- HADV.PROD. -/
def execHadvProd (h : HReg) (c : SReg) (s : State) : Out := slotDone (handleStep s h c true)

end Sys2Proof.Machine
end

