-- ==== Sys2Proof/Machine/Governor.lean ====
section
/-! DEFINITION. The island governors (R9, R355, R404) and the cycle classes of the matrix engines (R261, R393, R394). -/

namespace Sys2Proof.Machine

/-! ### The products of a task (R270) -/

/-- Word n of a task's record. -/
def Task.word (t : Task) (n : Nat) : Word64 := t.words.getD n 0
/-- KT. -/
def Task.kt (t : Task) : Nat := bits (t.word 1) 31 16
/-- FMT. -/
def Task.fmt (t : Task) : Nat := bits (t.word 1) 7 0
/-- RM. -/
def Task.rm (t : Task) : Nat := bits (t.word 1) 10 8

/-- The array time of R258. -/
def MatOp.time (o : MatOp) : Nat := if o.sparse then 16 else match o.fmt with | 1 => 64 | 2 => 32 | _ => 16

/-- The product of a task's step: slots 124 and 126, or 125 and 127. -/
def Task.op (t : Task) (k : Nat) : MatOp :=
  { acc := taskTile, a := 124 + k % 2, b := 126 + k % 2, fmt := t.fmt, sparse := false, ncode := 0, bx := false, ua := false,
    ub := false, rm := t.rm, ctx := t.ctx, slot := slotM, pc := t.pc, task := true }

/-- The cycles that the products of a task take. -/
def Task.products (t : Task) : Nat := t.kt * (t.op 0).time

/-- The products of the task that runs on core g occupy its array. -/
def State.taskComputes (s : State) (g : Nat) : Bool :=
  match s.taskOn g with
  | some t => decide (s.engineClock g < t.startAt + t.products)
  | none => false

/-! ### Leave (R355, R404) -/

/-- A request for leave that is granted at once: in a deterministic launch always, else while the island's budget allows it and
nobody waits. -/
def State.leaveNow (s : State) (cl : Nat) : Bool :=
  s.det || ((s.cluster cl).asks.isEmpty && decide ((s.cluster cl).hold < (s.cluster cl).limit))

/-- One more holder of leave. -/
def State.holdLeave (s : State) (cl : Nat) : State := s.modCluster cl fun c => { c with hold := c.hold + 1 }

/-- One holder fewer. -/
def State.dropLeave (s : State) (cl : Nat) : State := s.modCluster cl fun c => { c with hold := c.hold - 1 }

/-- A deferred request joins those that wait. -/
def State.deferLeave (s : State) (cl : Nat) (a : LeaveAsk) : State :=
  s.modCluster cl fun c => { c with asks := c.asks ++ [a] }

/-- The leave of a granted request is marked where it was asked for. -/
def State.markLeave (s : State) (cl : Nat) (a : LeaveAsk) : State :=
  match a with
  | .engine g => s.modCore g fun c => { c with leave := true, leaveAsked := false }
  | .burst g n => s.modChan g n fun c => { c with leave := true, leaveAsked := false }
  | .task q id => s.modCluster cl fun c => c.setQueue q ((c.queue q).map fun (t : Task) =>
      if t.id == id then { t with leave := true, leaveAsked := false } else t)

/-- LEAVE_GRANT: the oldest deferred request of an island is granted. -/
def execLeaveGrant (island : Nat) (s : State) : Out :=
  let c := s.cluster island
  match c.asks with
  | [] => .next s
  | a :: rest =>
    if s.det || c.hold < c.limit then
      .next (((s.setCluster island { c with asks := rest }).holdLeave island).markLeave island a)
    else .next s

/-- Cycles without command after which an engine gives its leave back, and before which it needs none anew (R261, R404). -/
def leaveIdle : Nat := 64

/-- The engine of core g has no command: no operation or drain is queued, and none occupies the array (R261; log entry 83). -/
def State.noCommand (s : State) (g : Nat) : Bool :=
  (s.core g).queue.isEmpty && (s.core g).array.isNone && (s.core g).drains.isEmpty && !s.taskComputes g

/-- The engine's clock since which it has had no command; the products of the task that runs on it end later. -/
def State.idleFrom (s : State) (g : Nat) : Nat :=
  match s.taskOn g with
  | some t => max (s.core g).idleSince (t.startAt + t.products)
  | none => (s.core g).idleSince

/-- The engine has been without command for 64 or more cycles. -/
def State.longIdle (s : State) (g : Nat) : Bool := s.noCommand g && decide (s.idleFrom g + leaveIdle ≤ s.engineClock g)

/-- An engine that holds leave has been without command for 64 cycles. -/
def State.leaveOver (s : State) (g : Nat) : Bool := (s.core g).leave && s.longIdle g

/-- LEAVE_RELEASE. -/
def execLeaveRelease (g : Nat) (s : State) : Out :=
  let c := s.core g
  if s.leaveOver g then .next ((s.setCore g { c with leave := false }).dropLeave (clusterOf g)) else .next s

/-! ### Cycle classes (R261) -/

/-- Slots that hold the A operand of an operation. -/
def MatOp.aSlots (o : MatOp) : List Nat := if o.fmt = 0xB then (List.range 4).map (o.a + ·) else [o.a]

/-- Slots that hold the B operand of an operation; one slot may be both an A and a B slot. -/
def MatOp.bSlots (o : MatOp) : List Nat :=
  if o.sparse then (List.range (sparseFactor o.ncode)).map (o.b + ·) else [o.b]

/-- The slot of an operation's metadata. -/
def MatOp.metaSlots (o : MatOp) : List Nat := if o.sparse then [o.a + 1] else []

/-- A slot is filling. -/
def Core.filling (c : Core) (n : Nat) : Bool := (c.slot n).st == .filling

/-- The class of an engine's cycle, the bundle it is charged to and the leave sub-flag. `task` is the bundle of a task whose products occupy the
array, and `last` that of the last operation completed; `deferred` says that the dispatch of a task to this engine waits for leave (R9, R355).
Where only drains are left, the cycles are charged to the first of them as blocked on drain, and a head operation that waits for nothing R261
names leaves the engine without command (DEDUCED: log entry 83). The delay of a copy burst that waits for leave is charged to no engine with the
sub-flag: R9 and R355 do not say which engine's it would be (DEDUCED: log entry 83). -/
def Core.classNow (c : Core) (task : Option Word64) (last : Word64) (deferred : Bool) : Nat × Word64 × Bool :=
  match task, c.array, c.queue with
  | some pc, _, _ => (0, pc, false)
  | none, some (o, _), _ => (0, o.pc, false)
  | none, none, o :: _ =>
    if (c.drainOf o.acc).isSome then (1, o.pc, false)
    else if (o.bSlots ++ o.metaSlots).any c.filling then (2, o.pc, false)
    else if o.aSlots.any c.filling then (3, o.pc, false)
    else (4, last, c.leaveAsked || deferred)
  | none, none, [] => match c.drains with
    | d :: _ => (1, d.pc, false)
    | [] => (4, last, deferred)

/-- A task waits for leave to be dispatched to core g's engine. -/
def State.dispatchDeferred (s : State) (g : Nat) : Bool :=
  (s.cluster (clusterOf g)).tasks.toList.flatten.any fun t => t.leaveAsked && !t.dispatched && t.host == coreOf g

/-- PROF is on and the log is written (R392). -/
def State.profiling (s : State) : Bool := bit s.logctl 17 && s.logRec

/-- The record of a class run of core g that ends now (R393). -/
def State.classRecord (s : State) (g : Nat) : State :=
  let c := s.core g
  let n := s.cycle - c.clsAt
  if n = 0 then s
  else s.logAppend (.matrix g) s.frameNo (s.record 0x03 [c.clsPc,
    w64 (n % 2 ^ 48 * 2 ^ 16 + g * 2 ^ 5 + flag c.clsLeave 4 + c.cls)])

/-- The class of core g's cycle that ends: a change of class, of charged bundle or of sub-flag ends the run (R394). -/
def State.reclass (s : State) (g : Nat) : State :=
  let c := s.core g
  let task := (s.taskOn g).map Task.pc
  let (cls, pc, lv) := c.classNow (if s.taskComputes g then task else none) (task.getD c.lastPc) (s.dispatchDeferred g)
  if cls = c.cls ∧ pc = c.clsPc ∧ lv = c.clsLeave then s
  else
    let s := if s.profiling then s.classRecord g else s
    s.modCore g fun c => { c with cls, clsPc := pc, clsLeave := lv, clsAt := s.cycle }

/-- Cycles after which a class run is written although it goes on (R394). -/
def classRunMax : Nat := 2 ^ 48 - 1

/-- A class run has its longest length. -/
def State.classRunOver (s : State) (g : Nat) : Bool := s.profiling && decide ((s.core g).clsAt + classRunMax ≤ s.cycle)

/-- CLASS_RUN_EXPIRY. -/
def execClassRunExpiry (g : Nat) (s : State) : Out :=
  if s.classRunOver g then .next ((s.classRecord g).modCore g fun c => { c with clsAt := s.cycle }) else .next s

end Sys2Proof.Machine
end

