-- ==== Sys2Proof/Machine/Matrix.lean ====
section
/-! DEFINITION. The matrix engine's arithmetic, its command queue and its array: MMA, MMAS, MMAT, ACLR and AWAIT, and the
start and end of a matrix operation (R251 to R265, R268). -/

namespace Sys2Proof.Machine

/-! ### Arithmetic (R253 to R256) -/

/-- A value rounded to odd into the extended format, with its flags. -/
def rtoE (x : Num) : Num × BitVec 6 :=
  let (b, fl) := roundF fpE 5 false x
  (decodeF fpE b, fl)

/-- One node of the tree: a sum rounded to odd. -/
def nodeE (a b : Num × BitVec 6) : Num × BitVec 6 :=
  let (x, f1) := fAdd 5 a.1 b.1
  let (y, f2) := rtoE x
  (y, a.2 ||| b.2 ||| f1 ||| f2)

/-- Neighbours of a level summed. -/
def pairUp : List (Num × BitVec 6) → List (Num × BitVec 6)
  | a :: b :: l => nodeE a b :: pairUp l
  | l => l

/-- A level reduced `n` times: the root of a tree of 2^n leaves. -/
def treeRoot : Nat → List (Num × BitVec 6) → Num × BitVec 6
  | 0, l => l.headD (.fin false 0 0, 0)
  | n + 1, l => treeRoot n (pairUp l)

/-- The leaf of a product. -/
def leafE (ab : Num × Num) : Num × BitVec 6 :=
  let (x, f1) := mulNum ab.1 ab.2
  let (y, f2) := rtoE x
  (y, f1 ||| f2)

/-- Operands of a cell in the order in which R256 looks for a NaN. -/
def cellOperands (cell : Num) (l : List (Num × Num)) : List Num := cell :: l.flatMap fun ab => [ab.1, ab.2]

/-- The flags of a cell one of whose operands is a NaN: the steps that meet no NaN give theirs, and INVALID comes from signalling NaNs alone, since
a NaN operand supplies the result (R235, R256). -/
def besideNan (ops : List Num) (fl : BitVec 6) : BitVec 6 := nanFlags ops ||| (fl &&& ~~~fInvalid)

/-- EModeCell over the pairs of a cell, 2^k of them: the new cell and its flags (R253, R256). -/
def eModeCell (cell : Nat) (l : List (Num × Num)) : Nat × BitVec 6 :=
  let c := decodeF fpE cell
  let ops := cellOperands c l
  let root := treeRoot l.length.log2 (l.map leafE)
  let (x, f1) := fAdd 5 c root.1
  let (b, f2) := roundF fpE 5 false x
  let fl := root.2 ||| f1 ||| f2
  match firstNan ops with
  | some n => ((roundF fpE 5 false n).1, besideNan ops fl)
  | none => (b, fl)

/-- One fused multiply-add of a chain. -/
def fmaStep (rm : Nat) (acc : Nat × BitVec 6) (ab : Num × Num) : Nat × BitVec 6 :=
  let (x, f1) := fFma rm ab.1 ab.2 (decodeF fp64 acc.1)
  let (b, f2) := roundF fp64 rm false x
  (b, acc.2 ||| f1 ||| f2)

/-- A cell in FP64 mode (R254, R256). -/
def fp64Cell (rm cell : Nat) (l : List (Num × Num)) : Nat × BitVec 6 :=
  let ops := cellOperands (decodeF fp64 cell) l
  let r := l.foldl (fmaStep rm) (cell, 0)
  match firstNan ops with
  | some n => ((roundF fp64 rm false n).1, besideNan ops r.2)
  | none => r

/-- A cell in INT64 mode (R255). -/
def int64Cell (cell : Nat) (l : List (Int × Int)) : Nat := wrapTo 64 (cell + (l.map fun ab => ab.1 * ab.2).sum)

/-! ### Operands (R251, R255, R257) -/

/-- Operand formats that an operation gives its A and its B (R263, R264). -/
def MatOp.aCode (o : MatOp) : Nat := if o.fmt = 0xB then 7 else o.fmt
/-- The format of B: the other KF8 format with BX, TERN2 for MMAT. -/
def MatOp.bCode (o : MatOp) : Nat := if o.fmt = 0xB then 0xB else if o.bx then 11 - o.fmt else o.fmt
/-- The MODE that an operation requires. -/
def MatOp.mode (o : MatOp) : Nat := if o.fmt = 1 then 1 else if o.fmt = 7 ∨ o.fmt = 0xB then 2 else 0
/-- Elements of a slot's block: K of R251. -/
def tileK (code : Nat) : Nat := if code = 0xB then 256 else 512 / codeBits code

/-- The bits of element k of block r of a slot; a poisoned slot reads as zero (R256). -/
def OSlot.elem (o : OSlot) (code r k : Nat) : Nat :=
  if isPoison o.desc then 0 else laneOf (codeBits code) (o.data.getD r 0) k

/-- The scale of a slot. -/
def OSlot.scale (o : OSlot) : Int := if isPoison o.desc then 0 else scaleOf o.desc

/-- The value of an element. -/
def OSlot.num (o : OSlot) (code r k : Nat) : Num := (elementNum code (o.elem code r k)).scale o.scale

/-- An INT8 element as an integer, signed or unsigned. -/
def OSlot.int8 (o : OSlot) (u : Bool) (r k : Nat) : Int :=
  let n := o.elem 7 r k
  if u then n else signedOf 8 n

/-- The ternary weight that a 2-bit code stands for (R229). -/
def ternary (code : Nat) : Int := match code with | 1 => 1 | 3 => -1 | _ => 0

/-- Code t of a ternary block. -/
def tileTernCode (b : Block) (t : Nat) : Nat := laneOf 2 b t

/-- The block r of a slot, zero where the slot is poisoned. -/
def OSlot.row (o : OSlot) (r : Nat) : Block := if isPoison o.desc then 0 else o.data.getD r 0

/-- Codes 0b10 of a B tile (R255). -/
def ternBad (o : OSlot) : Nat :=
  ((List.range 32).map fun c => ((List.range 256).filter fun t => tileTernCode (o.row c) t == 2).length).sum

/-- Stored values in each group of 32 positions. -/
def sparseN (ncode : Nat) : Nat := 4 * 2 ^ ncode

/-- Field j of a metadata block. -/
def metaField (b : Block) (j : Nat) : Nat := b.toNat / 2 ^ (5 * j) % 32

/-- Groups of a row: dense positions by 32. -/
def MatOp.groups (o : MatOp) : Nat := tileK o.fmt * sparseFactor o.ncode / 32

/-- The first group of a metadata block that R257 makes illegal: fields that do not rise, or, in the group after the last, a field
beyond the row's count or a bit above the fields. -/
def MatOp.metaBad (o : MatOp) (b : Block) : Option Nat :=
  let n := sparseN o.ncode
  let gs := o.groups
  match (List.range gs).find? fun g => (List.range (n - 1)).any fun j =>
      decide (metaField b (g * n + j + 1) ≤ metaField b (g * n + j)) with
  | some g => some g
  | none => if b.toNat / 2 ^ (5 * n * gs) = 0 then none else
      let j := ((List.range 103).find? fun j => decide (n * gs ≤ j) && b.toNat / 2 ^ (5 * j) % 32 != 0).getD 102
      some (j / n)

/-- Dense position that value v of row r stands at. -/
def MatOp.position (o : MatOp) (b : Block) (v : Nat) : Nat := 32 * (v / sparseN o.ncode) + metaField b v

/-- The value number that stands at a dense position of a row, if one does. -/
def MatOp.valueAt (o : MatOp) (b : Block) (k : Nat) : Option Nat :=
  let n := sparseN o.ncode
  ((List.range n).map (k / 32 * n + ·)).find? fun v => o.position b v == k

/-- The A element of an operation at row r and position k: its slot and its element; none for a position that no value names. -/
def Core.aAt (c : Core) (o : MatOp) (r k : Nat) : Option (OSlot × Nat) :=
  if o.sparse then (o.valueAt ((c.slot (o.a + 1)).row r) k).map fun v => (c.slot o.a, v)
  else if o.fmt = 0xB then some (c.slot (o.a + k / 64), k % 64)
  else some (c.slot o.a, k)

/-- The B slot and element of an operation at position k. -/
def Core.bAt (c : Core) (o : MatOp) (k : Nat) : OSlot × Nat :=
  if o.sparse then (c.slot (o.b + k / tileK o.fmt), k % tileK o.fmt) else (c.slot o.b, k)

/-- Positions that an operation covers. -/
def MatOp.depth (o : MatOp) : Nat := if o.sparse then 32 * o.groups else tileK o.bCode

/-- The pairs of a cell's product, in floating point. A position that no value names gives an exact zero. -/
def Core.floatPairs (c : Core) (o : MatOp) (row col : Nat) : List (Num × Num) :=
  (List.range o.depth).map fun k =>
    match c.aAt o row k with
    | none => (.fin false 0 0, .fin false 0 0)
    | some (sl, e) =>
      let (bs, f) := c.bAt o k
      (sl.num o.aCode row e, bs.num o.bCode col f)

/-- The pairs of a cell's product, in integers. -/
def Core.intPairs (c : Core) (o : MatOp) (row col : Nat) : List (Int × Int) :=
  (List.range o.depth).map fun k =>
    match c.aAt o row k with
    | none => (0, 0)
    | some (sl, e) =>
      let (bs, f) := c.bAt o k
      (sl.int8 o.ua row e, if o.fmt = 0xB then ternary (tileTernCode (bs.row col) f) else bs.int8 o.ub col f)

/-- The new contents of a cell, with its flags (R264). -/
def Core.newCell (c : Core) (o : MatOp) (old row col : Nat) : Nat × BitVec 6 :=
  match o.mode with
  | 0 => eModeCell old (c.floatPairs o row col)
  | 1 => fp64Cell o.rm old (c.floatPairs o row col)
  | _ => (int64Cell old (c.intPairs o row col), 0)

/-! ### Tiles as memory (R175) -/

/-- The physical address of a cell. -/
def cellPa (g t row col : Nat) : Nat := accPa g (cellOffset t row col)

/-- A cell's contents. -/
def State.cell (s : State) (g t row col : Nat) : Nat := getBytes s.mem (cellPa g t row col) 8

/-- Rows and columns of a tile. -/
def tileCells : List (Nat × Nat) := (List.range 32).flatMap fun r => (List.range 32).map fun c => (r, c)

/-- Every cell of a tile replaced, with the flags of all. -/
def State.mapTile (s : State) (g t : Nat) (f : Nat → Nat → Nat → Nat × BitVec 6) : State × BitVec 6 :=
  let new := tileCells.map fun (r, c) => (cellPa g t r c, f (s.cell g t r c) r c)
  ({ s with
      mem := new.foldl (fun m (pa, v, _) => putBytes m pa 8 v) s.mem,
      poisoned := s.poisoned.filter fun p => !(decide (cellPa g t 0 0 ≤ p) && decide (p < cellPa g t 0 0 + tileBytes)) },
    (new.map fun e => e.2.2).foldl (· ||| ·) 0)

/-- The bytes of a tile zeroed, and its poisoned cells unmarked. -/
def State.zeroTile (s : State) (g t : Nat) : State :=
  let lo := cellPa g t 0 0
  { s with
    mem := s.mem.filter (fun c : Host.Cell => !(decide (lo ≤ c.1) && decide (c.1 < lo + tileBytes))),
    poisoned := s.poisoned.filter fun p => !(decide (lo ≤ p) && decide (p < lo + tileBytes)) }

/-- A tile reset to a mode (R252, R265). -/
def State.resetTile (s : State) (g t mode : Nat) : State :=
  (s.zeroTile g t).modCore g fun c => c.setTile t { mode }

/-! ### Starting (R264) -/

/-- A fault of a matrix operation that starts: it names the bundle that issued it, or the tile task (R374). -/
def State.matFault (s : State) (g : Nat) (o : MatOp) (code : Nat) (w2 w3 w4 : Word64) : State :=
  if o.task then s.raise { code, w2, w3, w4, agent := 3, agentNo := clusterOf g, src := .host g }
  else s.raise { code, gcore := g, ctx := o.ctx, rep := o.rep, slot := o.slot, pc := o.pc, w2, w3, w4, src := .array g }

/-- A descriptor that an operand slot may carry. -/
def operandDescOk (code : Nat) (d : Desc) : Bool := d == 0 || isPoison d || descFmt d == code

/-- The first named slot whose descriptor is refused. -/
def Core.badOperand (c : Core) (o : MatOp) : Option Nat :=
  match o.aSlots.find? fun n => !operandDescOk o.aCode (c.slot n).desc with
  | some n => some n
  | none => o.bSlots.find? fun n => !operandDescOk o.bCode (c.slot n).desc

/-- The first A slot of an MMAT whose scale differs from the first's; poisoned slots have none. -/
def Core.unevenScale (c : Core) (o : MatOp) : Option Nat :=
  if o.fmt = 0xB then
    let live := o.aSlots.filter fun n => !isPoison (c.slot n).desc
    match live with
    | [] => none
    | m :: l => l.find? fun n => (c.slot n).scale != (c.slot m).scale
  else none

/-- The first row and group of the metadata slot that R257 makes illegal; a descriptor that is refused stands for group 0. -/
def Core.badMeta (c : Core) (o : MatOp) : Option (Nat × Nat) :=
  if o.sparse then
    let m := c.slot (o.a + 1)
    if !(m.desc == 0 || descFmt m.desc == 0xC) then some (0, 0)
    else (List.range 32).findSome? fun r => (o.metaBad (m.data.getD r 0)).map fun g => (r, g)
  else none

/-- Some slot that an operation names is poisoned (R256). -/
def Core.poisonedOperand (c : Core) (o : MatOp) : Bool := o.slots.any fun n => isPoison (c.slot n).desc

/-- The scale of an integer operation: the sum of its operands' (R255). -/
def Core.scaleSum (c : Core) (o : MatOp) : Int :=
  ((o.aSlots.head?.map fun n => (c.slot n).scale).getD 0) + (c.slot o.b).scale

/-- The tile's scale does not fit an integer operation; an operation with a poisoned slot has no scale of its own. -/
def Core.scaleClash (c : Core) (o : MatOp) : Bool :=
  o.mode == 2 && !c.poisonedOperand o && (c.tile o.acc).tset && (c.tile o.acc).tscale != c.scaleSum o

/-- The fault of an operation at its start, if there is one (R264): nothing has changed then. -/
def State.startFault (s : State) (g : Nat) (o : MatOp) : Option State :=
  let c := s.core g
  match c.badOperand o, c.unevenScale o, c.badMeta o with
  | some n, _, _ => some (s.matFault g o cDesc (w64 n) ((c.slot n).desc.setWidth 64) 0)
  | none, some n, _ => some (s.matFault g o cDesc (w64 n) ((c.slot n).desc.setWidth 64) 0)
  | none, none, some (r, gr) => some (s.matFault g o cSparse (w64 (o.a + 1)) (w64 r) (w64 gr))
  | none, none, none =>
    if (c.tile o.acc).mode ≠ o.mode ∨ c.scaleClash o then
      let (n, s) := s.takeFree
      some (s.matFault g o cDesc (w64 o.acc) (((Config.openWord n).setWidth 16).setWidth 64) 0)
    else none

/-- The tile takes the scale of the first integer operation after a reset (R255). -/
def Core.fixScale (c : Core) (o : MatOp) : Core :=
  let t := c.tile o.acc
  if o.mode = 2 ∧ !t.tset ∧ !c.poisonedOperand o then c.setTile o.acc { t with tset := true, tscale := c.scaleSum o } else c

/-! ### The array (R258, R260) -/

/-- The head operation meets a slot that is filling, or a drain owns its tile. -/
def Core.headBlocked (c : Core) (o : MatOp) : Bool := o.slots.any c.filling || (c.drainOf o.acc).isSome

/-- The moment at which the head operation could start: after the cycle of its issue, with the array free and no task. -/
def State.headDue (s : State) (g : Nat) : Bool :=
  let c := s.core g
  match c.queue with
  | o :: _ => c.array.isNone && decide (o.at_ < s.engineClock g) && (s.taskOn g).isNone && !s.engineFrozen g && s.soundSrc (.array g)
  | [] => false

/-- A start needs leave first: the operation was issued after 64 or more cycles without command (R261). -/
def Core.needsLeave (c : Core) (o : MatOp) : Bool := !c.leave && o.cold

/-- MATRIX_OP_START has something to do: the head operation starts, meets an overrun or a fault, or asks for leave. -/
def State.headReady (s : State) (g : Nat) : Bool :=
  let c := s.core g
  s.headDue g && (match c.queue with
    | o :: _ => if c.headBlocked o then s.det else !c.needsLeave o || s.leaveNow (clusterOf g) || !c.leaveAsked
    | [] => false)

/-- MATRIX_OP_START: the head operation of a core starts, asks for leave, or in a deterministic launch overruns. -/
def execMatrixOpStart (g : Nat) (s : State) : Out :=
  let c := s.core g
  match c.queue with
  | [] => .next s
  | o :: rest =>
    if !s.headDue g then .next s
    else if c.headBlocked o then
      if s.det then .next (s.matFault g o cOverrun o.pc (w64 s.sclk) 0) else .next s
    else if c.needsLeave o && !s.leaveNow (clusterOf g) then
      if c.leaveAsked then .next s
      else .next ((s.setCore g { c with leaveAsked := true }).deferLeave (clusterOf g) (.engine g))
    else match s.startFault g o with
      | some s => .next s
      | none =>
        let s := if c.leave then s else s.holdLeave (clusterOf g)
        let c := c.fixScale o
        .next (s.setCore g { c with leave := true, queue := rest, array := some (o, s.engineClock g + o.time) })

/-- The flags and poison that a matrix operation leaves in its tile. -/
def Core.markTile (c : Core) (t : Nat) (fl : BitVec 6) (bad : Bool) : Core :=
  let k := c.tile t
  c.setTile t { k with flags := k.flags ||| fl, poison := k.poison || bad }

/-- TERN2 codes 0b10 counted into kstat of the context that issued an MMAT (R255, R308). -/
def State.countTern (s : State) (g : Nat) (o : MatOp) : State :=
  if o.fmt = 0xB && o.live && !o.task then
    s.modCtx g o.ctx fun k => k.apply (.ternbad (ternBad ((s.core g).slot o.b)))
  else s

/-- The products of an operation summed into its tile. -/
def State.multiply (s : State) (g : Nat) (o : MatOp) : State :=
  let c := s.core g
  let (s1, fl) := s.mapTile g o.acc (c.newCell o)
  s1.modCore g fun c => c.markTile o.acc fl (c.poisonedOperand o)

/-- The array time of core g's operation is over. -/
def State.arrayDue (s : State) (g : Nat) : Bool :=
  match (s.core g).array with
  | some (_, n) => decide (n ≤ s.engineClock g) && !s.engineFrozen g
  | none => false

/-- MATRIX_OP_COMPLETE. -/
def execMatrixOpComplete (g : Nat) (s : State) : Out :=
  match (s.core g).array with
  | some (o, _) =>
    if s.arrayDue g then
      let s := (s.countTern g o).multiply g o
      .next (s.modCore g fun c => { c with array := none, lastPc := o.pc, idleSince := s.engineClock g })
    else .next s
  | none => .next s

/-! ### The instructions (R262 to R265) -/

/-- Entries of the command queue. -/
def queueSize : Nat := 8

/-- Entries held: matrix operations and drains that have not started (R258). -/
def Core.queued (c : Core) : Nat := c.queue.length + c.drains.length

/-- A free entry of the command queue, or the wait for one. -/
def needEntry (s : State) : Except State Unit :=
  if queueSize ≤ (s.core s.iss.g).queued then slotWait s .matQueue else .ok ()

/-- A slot is held by a context of the core. -/
def Core.heldByCtx (c : Core) (n : Nat) : Bool := (c.slot n).st != .free && decide ((c.slot n).holder < 4)

/-- The operation of the bundle that issues. -/
def State.matOp (s : State) (acc : TileNo) (a b : SlotNo) (fmt : Nat) : MatOp :=
  { acc := acc.toNat, a := a.toNat, b := b.toNat, fmt, sparse := false, ncode := 0, bx := false, ua := false, ub := false,
    rm := 0, ctx := s.iss.x, slot := s.iss.slot, pc := s.iss.pc, rep := s.iss.rep, at_ := s.engineClock s.iss.g, cold := s.longIdle s.iss.g }

/-- A matrix operation enters the queue (R264). -/
def matIssue (s : State) (o : MatOp) : Except State State :=
  match o.slots.find? fun n => !(s.core s.iss.g).heldByCtx n with
  | some n => protFault s (w64 n)
  | none => do
    needEntry s
    .ok (s.modCore s.iss.g fun c => { c with queue := c.queue ++ [o] })

/-- MMA.FP64. -/
def execMmaFp64 (acc : TileNo) (a b : SlotNo) (rm : BitVec 3) (s : State) : Out :=
  slotDone (matIssue s { s.matOp acc a b 1 with rm := rm.toNat })

/-- MMA.FP32, MMA.BF16 and MMA.FP16. -/
def execMmaFloat (acc : TileNo) (a b : SlotNo) (fmt : BitVec 4) (s : State) : Out :=
  slotDone (matIssue s (s.matOp acc a b fmt.toNat))

/-- MMA.KF8A and MMA.KF8B. -/
def execMmaKf8 (acc : TileNo) (a b : SlotNo) (fmt : BitVec 4) (bx : Bool) (s : State) : Out :=
  slotDone (matIssue s { s.matOp acc a b fmt.toNat with bx })

/-- MMA.INT8. -/
def execMmaInt8 (acc : TileNo) (a b : SlotNo) (ua ub : Bool) (s : State) : Out :=
  slotDone (matIssue s { s.matOp acc a b 7 with ua, ub })

/-- MMAS. -/
def execMmas (acc : TileNo) (a b : SlotNo) (fmt : BitVec 4) (ncode : BitVec 2) (bx : Bool) (s : State) : Out :=
  slotDone (matIssue s { s.matOp acc a b fmt.toNat with sparse := true, ncode := ncode.toNat, bx })

/-- MMAT. -/
def execMmat (acc : TileNo) (a b : SlotNo) (ua : Bool) (s : State) : Out :=
  slotDone (matIssue s { s.matOp acc a b 0xB with ua })

/-- ACLR: the tiles are zeroed at the issue; nothing happens where one of them is owned. -/
def execAclr (acc : TileNo) (n1 : BitVec 4) (mode : BitVec 2) (s : State) : Out :=
  slotDone (
    let ts := (List.range (n1.toNat + 1)).map (acc.toNat + ·)
    match ts.findSome? fun t => (s.tileOwner s.iss.g t).map fun o => (t, o) with
    | some (t, o) => busyTrap s t o
    | none => .ok (ts.foldl (fun s t => s.resetTile s.iss.g t mode.toNat) s))

/-! ### AWAIT (R268) -/

/-- Some tile of a mask is owned. -/
def State.anyOwned (s : State) (g mask : Nat) : Bool := (List.range 16).any fun t => mask.testBit t && s.owned g t

/-- The engine holds no operation of its own: queue empty, array free, drain port idle. -/
def Core.engineIdle (c : Core) : Bool := c.queue.isEmpty && c.drains.isEmpty && c.array.isNone && c.port.isNone

/-- The whole engine is idle (R268): a task that runs on it occupies its array and its drain port. -/
def State.matrixIdle (s : State) (g : Nat) : Bool := (s.core g).engineIdle && (s.taskOn g).isNone

/-- A wait for the tiles of a mask. -/
def awaitTiles (s : State) (mask : Nat) : Except State State :=
  if s.anyOwned s.iss.g mask then slotWait s (.tiles mask) else .ok s

/-- AWAIT. -/
def execAwait (acc : TileNo) (s : State) : Out := slotDone (awaitTiles s (2 ^ acc.toNat))
/-- AWAIT.M. -/
def execAwaitM (m : SReg) (s : State) : Out := slotDone (awaitTiles s ((s.rdS m).toNat % 2 ^ 16))
/-- AWAIT.ALL. -/
def execAwaitAll (s : State) : Out :=
  slotDone (if s.matrixIdle s.iss.g then .ok s else slotWait s .engineIdle)

end Sys2Proof.Machine
end

