-- ==== Sys2Proof/Machine/OpStore.lean ====
section
/-! DEFINITION. The operand-store instructions OCLAIM, OFREE, OLOAD, OREAD and OSTAT, and the end of a fill (R179, R180,
R195 to R199). -/

namespace Sys2Proof.Machine

/-- Blocks of a slot (R179). -/
def slotBlocks : Nat := 32

/-- Slots of a core's operand store. -/
def slotCount : Nat := 128

/-- Block b of a slot's data; blocks of a slot not filled since its claim are zero. -/
def OSlot.block (o : OSlot) (b : Nat) : Block := o.data.getD b 0

/-- The range of slots that OCLAIM and OFREE name, or the fault where it passes slot 127 (R196). -/
def slotRange (s : State) (f : SReg) (n1 : BitVec 7) : Except State (List Nat) :=
  let first := (s.rdS f).toNat
  if slotCount ≤ first + n1.toNat then protFault s (s.rdS f)
  else .ok ((List.range (n1.toNat + 1)).map (first + ·))

/-- A slot as OCLAIM leaves it. -/
def claimedSlot (x : Nat) : OSlot := { st := .ready, holder := x }

/-- OCLAIM. -/
def execOclaim (f : SReg) (n1 : BitVec 7) (s : State) : Out :=
  slotDone (do
    let r ← slotRange s f n1
    let c := s.core s.iss.g
    if r.any fun n => (c.slot n).st != .free then .ok (s.putStat stObusy)
    else .ok (s.setCore s.iss.g (r.foldl (fun c n => c.setSlot n (claimedSlot s.iss.x)) c)))

/-- The context that issues holds a slot of its core. -/
def State.holdsSlot (s : State) (n : Nat) : Bool :=
  let o := (s.core s.iss.g).slot n
  o.st != .free && o.holder == s.iss.x

/-- OFREE: every held slot of the range is waited for, then all are freed. -/
def execOfree (f : SReg) (n1 : BitVec 7) (s : State) : Out :=
  slotDone (do
    let r ← slotRange s f n1
    let held := r.filter s.holdsSlot
    match held.find? fun n => !(s.core s.iss.g).slotIdle n with
    | some n => slotWait s (.slotIdle n)
    | none =>
      let s' := s.modCore s.iss.g fun c => held.foldl (fun c n => c.setSlot n {}) c
      .ok (if held.length < r.length then s'.putStat stOnone else s'))

/-- The blocks of an OLOAD, each checked, translated and read in order, with its declared latency and place (R88, R197). -/
def loadBlocks (s : State) (va : Nat) : Nat → Except State (List (VVal × Nat × Loc))
  | 0 => .ok []
  | n + 1 => do
    let l ← slotAccess s reachMemory .read (w64 va) 64
    let (b, _) ← slotBlock s l va
    let rest ← loadBlocks s (va + 64) n
    .ok ((b, s.latencyOf s.iss.g va l, l) :: rest)

/-- OLOAD: the blocks are read at the issue, and the slot becomes ready when the fill ends. -/
def execOload (slot : SlotNo) (base : AReg) (off : Off9) (s : State) : Out :=
  slotDone (do
    let n := slot.toNat
    let va := s.ea base off 2048
    let bs ← loadBlocks s va.toNat slotBlocks
    if !s.holdsSlot n then protFault s (w64 n)
    let c := s.core s.iss.g
    if !c.slotIdle n then slotWait s (.slotIdle n)
    let s ← fillOnTime s (bs.map (·.2.2))
    let lat := (bs.map (·.2.1)).foldl max 0
    let job : FillJob := ⟨va, s.iss.x, s.iss.pc, s.iss.rep, bs.map (·.1), s.engineClock s.iss.g + lat⟩
    .ok ((s.setCore s.iss.g (c.setSlot n { c.slot n with st := .filling, job := some job })).note va.toNat 2048 false lat))

/-- The common descriptor of a fill's blocks, poison aside, 0x0000 matching any; or the first that differs. -/
def fillDesc : List VVal → Desc → Except Desc Desc
  | [], d => .ok d
  | b :: bs, d =>
    if b.desc = 0 || isPoison b.desc then fillDesc bs d
    else if d = 0 || d = b.desc then fillDesc bs b.desc
    else .error b.desc

/-- A slot filled with blocks: a poisoned one makes the whole slot poisoned. -/
def OSlot.filled (o : OSlot) (bs : List VVal) (d : Desc) : OSlot :=
  if bs.any fun b => isPoison b.desc then { o with st := .ready, desc := poisonDesc, data := [], job := none }
  else { o with st := .ready, desc := d, data := bs.map VVal.data, job := none }

/-- OLOAD_FILL_COMPLETE: the fill of a slot ends (R197); a descriptor that differs ends the launch, naming the slot. -/
def execOloadFillComplete (g slot : Nat) (s : State) : Out :=
  let c := s.core g
  match (c.slot slot).job with
  | none => .next s
  | some j =>
    if s.engineFrozen g || !s.soundSrc (.fill g slot) then .next s
    else match fillDesc j.blocks 0 with
      | .ok d => .next (s.setCore g (c.setSlot slot ((c.slot slot).filled j.blocks d)))
      | .error d => .next (s.raise { code := cDesc, gcore := g, ctx := j.ctx, rep := j.rep, slot := slotM, pc := j.pc,
                                     w2 := w64 slot, w3 := d.setWidth 64, src := .fill g slot })

/-- OREAD: an access without an address, which no range of a fence holds (R314, R330). -/
def execOread (d : VRegNo) (base : AReg) (off : Off9) (s : State) : Out :=
  slotDone (do
    let j := s.ea base off 1
    if 4096 ≤ j.toNat then protFault s j
    let o := (s.core s.iss.g).slot (j.toNat / slotBlocks)
    match o.st with
    | .free => protFault s j
    | .filling => slotWait s (.slotReady (j.toNat / slotBlocks))
    | .ready =>
      .ok ((s.putV d (if isPoison o.desc then poisonVal else ⟨o.block (j.toNat % slotBlocks), o.desc⟩) 5).note 0 0 false 5))

/-- The code of a slot's state (R179). -/
def SlotFill.code : SlotFill → Nat
  | .free => 0
  | .ready => 1
  | .filling => 2

/-- OSTAT. A slot that the task scheduler holds has no holder context: the field is 0 then (DESIGN CHOICE: log entry 125). -/
def execOstat (d sl : SReg) (s : State) : Out :=
  slotDone (do
    let n := (s.rdS sl).toNat
    if slotCount ≤ n then protFault s (s.rdS sl)
    let c := s.core s.iss.g
    let o := c.slot n
    .ok (s.putS d (w64 (o.st.code + o.holder % 4 * 2 ^ 3 + flag (c.namesSlot n) 5 + o.desc.toNat * 2 ^ 16)) 4))

end Sys2Proof.Machine
end

