-- ==== Sys2Proof/Machine/Drains.lean ====
section
/-! DEFINITION. ADRAIN: its checks at issue, the drain port, and the writes of a drain (R258, R266, R267). -/

namespace Sys2Proof.Machine

/-! ### The control word (R266) -/

/-- PITCH. -/
def ctlPitch (c : Word64) : Nat := bits c 47 32
/-- ZERO. -/
def ctlZero (c : Word64) : Bool := bit c 17
/-- CL. -/
def ctlCl (c : Word64) : Bool := bit c 16
/-- SCALE. -/
def ctlScale (c : Word64) : Int := (c.extractLsb' 8 8).toInt
/-- DFMT. -/
def ctlFmt (c : Word64) : Nat := bits c 7 0

/-- A control word that breaks the table; `rows` where PITCH applies. -/
def ctlBad (c : Word64) (rows : Bool) : Bool :=
  bits c 63 48 != 0 || bits c 31 18 != 0 || ctlFmt c == 0 || decide (10 < ctlFmt c) ||
    (rows && (ctlPitch c % 64 != 0 || decide (ctlPitch c < max 64 (32 * (codeBits (ctlFmt c) / 8)))))

/-! ### Destinations (R267) -/

/-- Blocks of a drain: rows of 32 elements, or two rows to a block for one-byte elements. For each, the first tile row and
column that it holds. -/
def drainBlocks (fmt : Nat) : List (Nat × Nat) :=
  let e := codeBits fmt / 8
  if e = 1 then (List.range 16).map fun j => (2 * j, 0)
  else (List.range 32).flatMap fun r => (List.range (e / 2)).map fun i => (r, i * (64 / e))

/-- The address of a block of a drain. -/
def drainAddr (base : Word64) (c : Word64) (b : Nat × Nat) : Word64 :=
  let e := codeBits (ctlFmt c) / 8
  let row := if e = 1 then b.1 / 2 else b.1
  base + w64 (row * ctlPitch c + b.2 * e)

/-- The addresses of every block of a drain. -/
def drainAddrs (base : Word64) (c : Word64) : List Word64 := (drainBlocks (ctlFmt c)).map (drainAddr base c)

/-! ### Values (R267) -/

/-- A cell as a value: E, FP64, or an integer times 2^TSCALE. -/
def Tile.value (t : Tile) (cell : Nat) : Num :=
  match t.mode with
  | 0 => decodeF fpE cell
  | 1 => decodeF fp64 cell
  | _ => (intNum (signedOf 64 cell)).scale t.tscale

/-- A value rounded into an integer between two limits, with its flags. -/
def toIntegral (w : Nat) (lo hi : Int) (x : Num) : Nat × BitVec 6 :=
  match x with
  | .nan .. => (0, fInvalid)
  | .inf s => (wrapTo w (if s then lo else hi), fClamp)
  | .fin s m e =>
    let (n, ch) := roundAt 0 s m e 0
    let i : Int := if s then -(n : Int) else n
    if hi < i then (wrapTo w hi, fIf ch fInexact ||| fClamp)
    else if i < lo then (wrapTo w lo, fIf ch fInexact ||| fClamp)
    else (wrapTo w i, fIf ch fInexact)

/-- A value rounded once into a format of code 0x01 to 0x0A. -/
def drainValue (fmt : Nat) (cl : Bool) (x : Num) : Nat × BitVec 6 :=
  match fmtOfCode fmt with
  | some f => roundF f 0 cl x
  | none =>
    let w := codeBits fmt
    toIntegral w (-(2 ^ (w - 1))) (2 ^ (w - 1) - 1) x

/-- A value rounded once under the clamp of a frame (R103, R267). -/
def FrameRec.drainValue (r : FrameRec) (cl : Bool) (x : Num) : Nat × BitVec 6 :=
  match fmtOfCode r.fmt with
  | some f => if !f.narrow && !r.clampen then roundF f 0 cl x else r.fit x
  | none =>
    let w := r.width
    let hi : Int := if r.clamp = 0 then 2 ^ (w - 1) - 1 else r.clamp.toNat
    toIntegral w (if r.clamp = 0 then -(2 ^ (w - 1)) else -hi) hi x

/-- One block of a drain as it is written, with its flags: a poisoned tile gives poison. -/
def State.drainBlock (s : State) (g : Nat) (d : Drain) (round : Num → Nat × BitVec 6) (b : Nat × Nat) :
    VVal × BitVec 6 :=
  let t := (s.core g).tile d.acc
  let w := codeBits (ctlFmt d.ctl)
  let lanes := (List.range (512 / w)).map fun i =>
    round ((t.value (s.cell g d.acc (b.1 + (b.2 + i) / 32) ((b.2 + i) % 32))).scale (-(ctlScale d.ctl)))
  let fl := (lanes.map (·.2)).foldl (· ||| ·) 0
  if t.poison then (poisonVal, fl)
  else (⟨ofLanes w (lanes.map (·.1)), mkDesc (ctlFmt d.ctl) (ctlScale d.ctl)⟩, fl)

/-! ### Issue (R266, R267) -/

/-- The tile is not owned, or the trap. -/
def drainTile (s : State) (acc : TileNo) : Except State Unit := needUnowned s s.iss.g acc.toNat

/-- The drain of the bundle that issues. -/
def State.drainOp (s : State) (acc : TileNo) (dst : DrainDst) (ctl : Word64) : Drain :=
  { acc := acc.toNat, dst, ctl, ctx := s.iss.x, slot := s.iss.slot, pc := s.iss.pc, rep := s.iss.rep }

/-- A drain enters the queue and owns its tile. -/
def enterDrain (s : State) (d : Drain) : State := s.modCore s.iss.g fun c => { c with drains := c.drains ++ [d] }

/-- The storage keys of a drain's blocks, each checked and translated now. -/
def drainKeys (s : State) : List Word64 → Except State (List Nat)
  | [] => .ok []
  | va :: vas => do
    let l ← slotAccess s reachMemory .write va 64
    plainOnly s l va
    let ks ← drainKeys s vas
    .ok (l.key :: ks)

/-- ADRAIN to memory. -/
def execAdrain (acc : TileNo) (a c : SReg) (s : State) : Out :=
  slotDone (do
    let ctl := s.rdS c
    if ctlBad ctl true then protFault s (c.setWidth 64)
    drainTile s acc
    let keys ← drainKeys s (drainAddrs (s.rdS a) ctl)
    needEntry s
    .ok (enterDrain s { s.drainOp acc (.mem (s.rdS a)) ctl with keys }))

/-- ADRAIN.O. -/
def execAdrainO (acc : TileNo) (a c : SReg) (s : State) : Out :=
  slotDone (do
    let ctl := s.rdS c
    let f := ctlFmt ctl
    if ctlBad ctl false || !(f == 3 || f == 4 || f == 8) then protFault s (c.setWidth 64)
    drainTile s acc
    let n := (s.rdS a).toNat % 128
    if !s.holdsSlot n then protFault s (w64 n)
    needEntry s
    .ok (enterDrain s (s.drainOp acc (.slot n) ctl)))

/-- Every block of a drain into a frame lies in its extent, on its pages (R112). -/
def drainPaneOk (s : State) (fr : Frame) : List Word64 → Except State Unit
  | [] => .ok ()
  | va :: vas => do
    let _ ← paneLoc s fr va 64
    drainPaneOk s fr vas

/-- ADRAIN.P: footprint blocks are allocated at the issue, and written when the drain completes. -/
def execAdrainP (acc : TileNo) (a c : SReg) (f : FReg) (s : State) : Out :=
  slotDone (do
    let (pa, fr) ← boundOf s f
    let ctl := s.rdS c
    if ctlBad ctl true || ctlFmt ctl != fr.info.fmt then protFault s (c.setWidth 64)
    drainTile s acc
    let vas := drainAddrs (s.rdS a) ctl
    drainPaneOk s fr vas
    paneGate s pa fr
    let p ← openPane s pa fr false
    let bs := vas.map fun va => (va.toNat - fr.info.base) / 64
    needArena s pa fr (p.needFor bs)
    needEntry s
    let p ← touchBlocks s fr.info true p bs
    .ok (enterDrain (s.changeFrame pa (fr.setLoose p)) { s.drainOp acc (.pane (s.rdS a) pa) ctl with paneName := p.name }))

/-! ### The drain port -/

/-- Cycles in which a drain reads its tile (R267). -/
def drainTime : Nat := 32

/-- The slot that a drain aims at lets it start (R180); one freed meanwhile no longer holds it up. -/
def Core.drainReady (c : Core) (d : Drain) : Bool :=
  match d.dst with
  | .slot n => (c.slot n).st == .free || c.slotIdle n
  | _ => true

/-- The destination that a drain keeps when it starts: a slot freed or claimed by another context meanwhile is given up. -/
def Core.drainTarget (c : Core) (d : Drain) : DrainDst :=
  match d.dst with
  | .slot n => if (c.slot n).st == .ready && ((c.slot n).holder == d.ctx || d.task) then .slot n else .slot 128
  | x => x

/-- The slot of a drain becomes filling when the drain starts. -/
def Core.beginFill (c : Core) (d : DrainDst) : Core :=
  match d with
  | .slot n => if n < 128 then c.setSlot n { c.slot n with st := .filling } else c
  | _ => c

/-- The declared latency of a drain's writes in a deterministic launch (R88). -/
def drainLatency (g : Nat) (d : Drain) : Nat :=
  match d.dst with
  | .mem a => ((drainAddrs a d.ctl).map fun va => if untranslated va.toNat then declaredLatency g (spaceOf va.toNat) none
      else declaredLatency g .main none).foldl max 0
  | .pane .. => declaredLatency g .main none
  | .slot _ => 0

/-- The products of the task that runs on core g are done, and its own drain uses the port. -/
def State.taskDrains (s : State) (g : Nat) : Bool :=
  (s.taskOn g).isSome && !s.taskComputes g

/-- The head drain of core g may start: the port is free. -/
def State.drainMayStart (s : State) (g : Nat) : Bool :=
  let c := s.core g
  match c.drains with
  | d :: _ => c.port.isNone && c.drainReady d && !s.taskDrains g && !s.engineFrozen g
  | [] => false

/-- DRAIN_START. -/
def execDrainStart (g : Nat) (s : State) : Out :=
  let c := s.core g
  match c.drains with
  | d :: rest =>
    if s.drainMayStart g then
      let dst := c.drainTarget d
      let n := s.engineClock g + drainTime + (if s.det then drainLatency g d else 0)
      .next (s.setCore g { c.beginFill dst with drains := rest, port := some ({ d with dst }, n), idleSince := s.engineClock g })
    else .next s
  | [] => .next s

/-- The storage keys that a drain of core g writes at an address now, re-striping included (R84), as its cluster translates it (R73); the key taken
at the issue where the page is gone. -/
def State.writeKeys (s : State) (g va key : Nat) : List Nat :=
  if untranslated va then [va]
  else match s.lookup (clusterOf g) va with
    | .leaf e level _ => (s.leafLoc va e level).wkeys
    | _ => [key]

/-- The blocks of a drain written to memory, with their flags. -/
def State.drainMem (s : State) (g : Nat) (d : Drain) (a : Word64) : State × BitVec 6 :=
  let round := drainValue (ctlFmt d.ctl) (ctlCl d.ctl)
  ((drainBlocks (ctlFmt d.ctl)).zip d.keys).foldl (fun (acc : State × BitVec 6) (b, key) =>
    let (v, fl) := s.drainBlock g d round b
    (acc.1.writeBlock (s.writeKeys g (drainAddr a d.ctl b).toNat key) v, acc.2 ||| fl)) (s, 0)

/-- The rows of a drain written into an operand slot, which becomes ready. -/
def State.drainSlot (s : State) (g : Nat) (d : Drain) (n : Nat) : State × BitVec 6 :=
  let bs := (drainBlocks (ctlFmt d.ctl)).map (s.drainBlock g d (drainValue (ctlFmt d.ctl) (ctlCl d.ctl)))
  let fl := (bs.map (·.2)).foldl (· ||| ·) 0
  let bad := ((s.core g).tile d.acc).poison
  if n < 128 then
    (s.modCore g fun c => c.setSlot n { c.slot n with
      st := .ready, desc := if bad then poisonDesc else mkDesc (ctlFmt d.ctl) (ctlScale d.ctl),
      data := bs.map fun b => b.1.data }, fl)
  else (s, fl)

/-- The blocks of a drain written into its pane as ST.G.BLK writes them; a pane that is gone or applied takes nothing. -/
def State.drainPane (s : State) (g : Nat) (d : Drain) (a : Word64) (pa : Nat) : State × BitVec 6 :=
  let fr := s.frame pa
  let bs := (drainBlocks (ctlFmt d.ctl)).map fun b =>
    (((drainAddr a d.ctl b).toNat - fr.info.base) / 64, s.drainBlock g d (fr.info.drainValue (ctlCl d.ctl)) b)
  let fl := (bs.map (·.2.2)).foldl (· ||| ·) 0
  match fr.loose.find? fun p => p.name == d.paneName with
  | none => (s, fl)
  | some p =>
    let p := bs.foldl (fun p (i, v, _) => match p.block? i with
      | some k => p.setBlock (k.storeBlock fr.info false v).1
      | none => p) p
    (s.changeFrame pa (fr.setLoose p), fl)

/-- The writes of a drain with their flags. -/
def State.drainWrite (s : State) (g : Nat) (d : Drain) : State × BitVec 6 :=
  match d.dst with
  | .mem a => s.drainMem g d a
  | .slot n => s.drainSlot g d n
  | .pane a pa => s.drainPane g d a pa

/-- The drain of core g may complete: its 32 cycles are over. -/
def State.drainDue (s : State) (g : Nat) : Bool :=
  match (s.core g).port with
  | some (_, n) => decide (n ≤ s.engineClock g) && !s.engineFrozen g
  | none => false

/-- DRAIN_COMPLETE: the writes, the flags into kflags of the issuing context, and the tile's reset with ZERO. -/
def execDrainComplete (g : Nat) (s : State) : Out :=
  match (s.core g).port with
  | some (d, _) =>
    if s.drainDue g then
      let t := (s.core g).tile d.acc
      let (s, fl) := s.drainWrite g d
      let s := if d.live then s.modCtx g d.ctx fun k => k.apply (.flagsOr (t.flags ||| fl)) else s
      let s := if ctlZero d.ctl then s.resetTile g d.acc t.mode else s
      .next (s.modCore g fun c => { c with port := none, lastPc := d.pc })
    else .next s
  | none => .next s

end Sys2Proof.Machine
end

