-- ==== Sys2Proof/Machine/Upcall.lean ====
section
/-! DEFINITION. Page upcalls: who faults, the pending-fault slots and the pager's records (R77 to R80). -/

namespace Sys2Proof.Machine

/-! ### Who faults (R78) -/

/-- The record that an engine works on: the running one, or the next, whose signal it awaits. -/
def CollEngine.current (e : CollEngine) : Option CollJob := match e.running with | some j => some j | none => e.jobs.head?

/-- The cluster whose translation unit serves an agent; a collective engine translates for the core that posted its record. -/
def State.whoCluster (s : State) : Who → Nat
  | .ctx g _ => clusterOf g
  | .chan g _ => clusterOf g
  | .task cl _ _ => cl
  | .coll d => match (s.coll d).current with
    | some j => clusterOf j.core
    | none => 4 * d

/-- Change the record that an engine works on. -/
def CollEngine.modCurrent (e : CollEngine) (f : CollJob → CollJob) : CollEngine :=
  match e.running, e.jobs with
  | some j, _ => { e with running := some (f j) }
  | none, j :: js => { e with jobs := f j :: js }
  | none, [] => e

/-- Replace a task of a queue. -/
def Cluster.modTask (c : Cluster) (q id : Nat) (f : Task → Task) : Cluster :=
  c.setQueue q ((c.queue q).map fun (t : Task) => if t.id == id then f t else t)

/-- An agent waits for a pending fault, or waits no longer. -/
def State.setWaits (s : State) (w : Who) (f : Option (Nat × Nat)) : State :=
  match w with
  | .ctx g x => s.modCtx g x fun k => { k with waitsFault := f }
  | .chan g c => s.modChan g c fun k => { k with fault := f }
  | .task cl q id => s.modCluster cl fun c => c.modTask q id fun t => { t with fault := f.map (·.2) }
  | .coll d =>
    s.setColl d ((s.coll d).modCurrent fun j => { j with fault := f.map (·.2) })

/-- The words w1 and, of w3, core and context of a pager record (R78). For a copy channel the manual does not say whose core and context these are:
the channel's core and the context that started it (DESIGN CHOICE: log entry 76). -/
def State.whoWords (s : State) : Who → Word64 × Nat
  | .ctx g x => ((s.ctx g x).k.kwork, coreOf g * 2 ^ 8 + x * 2 ^ 16)
  | .chan g c => (0, coreOf g * 2 ^ 8 + (s.chan g c).issuer % 4 * 2 ^ 16)
  | .task .. | .coll _ => (0, 0xFF * 2 ^ 8)

/-- A fault of an agent that is named by an address (R374). -/
def State.whoFault (s : State) (w : Who) (slot code : Nat) (w2 w3 : Word64) : State :=
  match w with
  | .ctx g x => s.raise { code, gcore := g, ctx := x, rep := (s.ctx g x).rep, slot, pc := (s.ctx g x).pc, w2, w3 }
  | .chan g c => s.raise { code, w2, w3, agent := 1, agentNo := c, src := .chan g c }
  | .task cl _ _ => s.raise { code, w2, w3, agent := 3, agentNo := cl }
  | .coll d => s.raise { code, w2, w3, agent := 2, agentNo := d, src := .coll d }

/-! ### The upcall (R77 to R80) -/

/-- Word n of a region's entry in the pager table. -/
def State.pagerWord (s : State) (region n : Nat) : Word64 :=
  w64 (s.readPhys ((s.launchWord 2).toNat + 16 * region + 8 * n) 8)

/-- Pending-fault slots of a cluster. -/
def faultSlots : Nat := 64

/-- A pending fault on the same range: the walks ended at the same entry. -/
def Cluster.sameRange (c : Cluster) (m : PageMiss) : Option Nat :=
  (List.range faultSlots).find? fun n => (c.fault n).valid && (c.fault n).entry == m.entry

/-- A free pending-fault slot. Which one a new fault takes the manual does not say, though it shows in the tag: the lowest-numbered (DESIGN CHOICE:
log entry 84). -/
def Cluster.freeFault (c : Cluster) : Option Nat := (List.range faultSlots).find? fun n => !(c.fault n).valid

/-- The tag of a pending fault. -/
def faultTag (cl n gen : Nat) : Nat := gen % 2 ^ 16 * 2 ^ 16 + cl * 2 ^ 6 + n

/-- The pager record of a fault (R78). -/
def State.pagerRecord (s : State) (w : Who) (m : PageMiss) (tag : Nat) : List Word64 :=
  let (wid, who) := s.whoWords w
  [w64 ((s.pagerWord m.region 0).toNat / 4 * 4 + 3), wid, m.va, w64 (m.cls + m.level * 2 ^ 4 + who),
   s.pagerWord m.region 1, w64 tag, 0, 0]

/-- A pager record as the queue holds it: priority 3, cluster scope (R344). -/
def pagerQRec (words : List Word64) (now : Nat) : QRec := ⟨words, 3, now, now, true, .cluster, false⟩

/-- The pending fault whose kept record entered its slot first. -/
def Cluster.oldestKept (c : Cluster) : Option Nat :=
  (c.faults.filter fun e => e.2.record.isSome).foldl (fun (b : Option Nat) (n, f) =>
    match b with
    | some m => if ((f.record.map QRec.since).getD 0) < (((c.fault m).record.map QRec.since).getD 0) then some n else b
    | none => some n) none

/-- A kept record may enter the queue: it does as soon as there is room, before any newer one (R78). -/
def State.recordDue (s : State) (cl : Nat) : Option Nat :=
  if (s.cluster cl).conts.length < contQueueSize then (s.cluster cl).oldestKept else none

/-- A new fault in slot n of a cluster: the host is told, or the pager's record is queued, or kept until there is room for it and for the records
that are kept already. -/
def State.openFault (s : State) (cl n : Nat) (w : Who) (m : PageMiss) : State :=
  let c := s.cluster cl
  let f := c.fault n
  let words := s.pagerRecord w m (faultTag cl n f.gen)
  let f := { f with valid := true, va := m.va, entry := m.entry, level := m.level, waiters := [w], record := none }
  if s.hostDoes 0 then
    (s.setCluster cl (c.setFault n f)).message ((words.drop 2).take 4)
  else if c.conts.length < contQueueSize && c.oldestKept.isNone then
    s.setCluster cl { c.setFault n f with conts := c.conts ++ [pagerQRec words s.cycle] }
  else s.setCluster cl (c.setFault n { f with record := some (pagerQRec words s.cycle) })

/-- An agent joins the waiters of a pending fault, once. -/
def PFault.join (f : PFault) (w : Who) : PFault := if f.waiters.contains w then f else { f with waiters := f.waiters ++ [w] }

/-- A page upcall: the agent joins a fault on the same range, opens a new one, or waits for a free slot. A region whose enable bit
is 0 has none. -/
def State.pageUpcall (s : State) (w : Who) (m : PageMiss) : State :=
  let cl := s.whoCluster w
  let c := s.cluster cl
  match c.sameRange m with
  | some n => (s.setCluster cl (c.setFault n ((c.fault n).join w))).setWaits w (some (cl, n))
  | none =>
    if !bit (s.pagerWord m.region 0) 0 then s.whoFault w m.slot cProt m.va 0
    else match c.freeFault with
      | some n => (s.openFault cl n w m).setWaits w (some (cl, n))
      | none => (s.setCluster cl { c with blocked := c.blocked ++ [(w, m)] }).setWaits w (some (cl, faultSlots))

/-- The context takes a page upcall: it is held, and outside deterministic launches its results go to the snapshot (R78). A
pager's or a trap handler's context faults instead (R79, R368). -/
def State.ctxUpcall (s : State) (g x : Nat) (m : PageMiss) : State :=
  let k := s.ctx g x
  if k.k.trapIn then s.whoFault (.ctx g x) m.slot cProt k.k.tpc 0
  else if k.pager then s.whoFault (.ctx g x) m.slot cProt m.va 0
  else
    let s := if s.det then s else s.setCore g ((s.core g).toSnapshot x (match k.resume with | some i => i.issue | none => k.issueNo - 1))
    let s := s.modCtx g x fun k => { k with run := .held, walks := [m], release := k.release || !s.det, stopped := k.stopped || (s.preempting && !s.det) }
    let s := if s.det then s else s.modCore g Core.select
    (s.pageUpcall (.ctx g x) m).annotate 7 g x m.va

end Sys2Proof.Machine
end

