-- ==== Sys2Proof/Machine/Begin.lean ====
section
/-! DEFINITION. How an issue begins, from fetch and decode to the latch, and what it asks for when its last slot has executed (R16 to R30, R37,
R370). -/

namespace Sys2Proof.Machine

/-! ### The end of an attempt (R370) -/

/-- The wait of a slot that has executed in this attempt; the others went on from an earlier one. -/
def Iss.newWait (i : Iss) (w : Nat × WaitCond) : Bool := i.work.any fun e => e.1 == w.1

/-- The waits that an issue gives up to execute its slots anew: those counted in a latch's WAIT leave it (R346). -/
def State.leaveWaits (s : State) (i : Iss) : State := s.countWaits (i.waits.filter fun w => !i.newWait w) false

/-- No fault of a context of core g waits for the shutter; other cores, and the engines, still go on in the cycle of a fault (R375). -/
def State.sound (s : State) (g : Nat) : Bool := s.faults.all fun f => !(f.gcore == g && f.src == .other)

/-- The trace records of an attempt's slots, and of those that committed before a walk. -/
def State.traceAttempt (s : State) (i : Iss) : State :=
  let slots := i.work.foldl (fun l e => insertSlot e l) i.unlogged
  s.trace i slots fun n => !(i.undone.any fun u => u.1 == n)

/-- Walks of an issue begin: its core's clock domain freezes, and the slots that have stopped short are to execute again (R74). -/
def State.beginWalks (s : State) (i : Iss) : State :=
  let i := i.rewind
  let c := s.core i.g
  let k := { c.ctx i.x with walks := i.walks ++ i.absent, resume := some { i.leftover with unlogged := i.committed } }
  (s.setCore i.g { c.setCtx i.x k with frozen := c.frozen ++ [.walk i.x], frozenAt := s.cycle }).leaveWaits i

/-- The context takes the page upcall of an issue whose other slots have committed (R370). -/
def State.holdForPage (s : State) (i : Iss) (m : PageMiss) : State :=
  let i := i.rewind
  (((s.traceAttempt i).modCtx i.g i.x fun k => { k with resume := some i.leftover }).leaveWaits i).ctxUpcall i.g i.x m

/-- The last slot has executed: what the issue has asked for takes effect in the order of R370. The trace records of an issue that walks or waits are
written when it has ended, one for each slot in slot order (R394; DEDUCED: log entry 129). -/
def State.finishIssue (s : State) : State :=
  let i := s.iss
  let s := { s with iss := {} }
  if !s.sound i.g then s
  else if !i.walks.isEmpty then s.beginWalks i
  else match i.absent with
  | m :: _ => s.holdForPage i m
  | [] =>
    let i := if i.glazeHold.isSome || !i.waits.isEmpty then i.rewind else i
    match i.glazeHold with
    | some _ =>
      let s := s.traceAttempt i
      let c := (s.core i.g).toSnapshot i.x i.issue
      let k := c.ctx i.x
      let k := { k with run := .held, resume := some i.leftover, release := true, stopped := k.stopped || (s.preempting && !s.det) }
      (s.setCore i.g (c.setCtx i.x k).select).leaveWaits i
    | none =>
      if !i.waits.isEmpty then
        let c := s.core i.g
        let k := { c.ctx i.x with run := .waiting, resume := some { i.leftover with waits := i.waits, unlogged := i.committed }, waitAt := s.cycle }
        let k := if !s.det && i.waits.any fun w => w.2.isCheckpoint then k.checkpoint c.clock s.preempting else k
        ((s.setCore i.g (c.setCtx i.x k).select).countWaits (i.waits.filter i.newWait) true).snapStopped i.g i.x
      else
        let s := s.traceAttempt i
        let i := { i with unlogged := [] }
        match lowestTrap i.traps with
        | some t => s.takeTrap i t
        | none => (s.completeIssue i).snapStopped i.g i.x

/-! ### Fetch and decode (R16, R17, R37) -/

/-- How a fetch comes out. -/
inductive Fetched (α : Type) where
  | got (x : α)
  /-- The word lies on a page that the TLB does not hold (R74). -/
  | walk (va : Word64)
  /-- A fault with its code and words w2 and w3; the slot it names, 7 for none. -/
  | fault (code : Nat) (w2 w3 : Word64) (slot : Nat)
deriving DecidableEq, Repr, Inhabited

/-- One word of a bundle, through the translation of core g's cluster (R17), read as a load of it reads: through the chain on a frame or adjoint
page, and as 0 from a poisoned block (R94, R168, R416); flags of a read-through go nowhere. Bundles come from main memory and
scratchpads; the windows of R157 and accumulators are refused. -/
def State.fetchWord (s : State) (g : Nat) (va : Word64) : Fetched Word32 :=
  match s.xlat (clusterOf g) va.toNat with
  | .barred => .fault cProt va 0 7
  | .walk => .walk va
  | .loc l =>
    let o := va.toNat % 64
    let fetched : Fetched Word32 :=
      match s.blockAt { l with key := l.key - o } (va.toNat - o) with
      | .ok b _ => .got (b.data.extractLsb' (8 * o) 32)
      | .noExtent => .fault cProt va 0 7
      | .badFormat d => .fault cDesc (va - w64 o) (d.setWidth 64) 7
    match l.space with
    | .main => if l.xe then fetched else .fault cProt va 0 7
    | .spad _ off => if off + 4 ≤ latchBase then fetched else .fault cProt va 0 7
    | _ => .fault cProt va 0 7

/-- The `n` words from an address up. -/
def State.fetchWords (s : State) (g : Nat) : Nat → Word64 → Fetched (List Word32)
  | 0, _ => .got []
  | n + 1, va =>
    match s.fetchWord g va with
    | .got w => match s.fetchWords g n (va + 4) with
      | .got ws => .got (w :: ws)
      | .walk a => .walk a
      | .fault c a b d => .fault c a b d
    | .walk a => .walk a
    | .fault c a b d => .fault c a b d

/-- The header at an address, checked on its own before any further word is fetched (R17). In a deterministic launch a stamp out of range makes every
bundle illegal, also where R354 or R372 says that the context's stamps are ignored (R29; DESIGN CHOICE: log entry 131). -/
def State.fetchHeader (s : State) (g : Nat) (pc : Word64) : Fetched Word32 :=
  match s.fetchWord g pc with
  | .got h =>
    match headerCheck h s.det with
    | .ok _ => .got h
    | .error _ => .fault cBundle pc (h.setWidth 64) 7
  | .walk a => .walk a
  | .fault c a b d => .fault c a b d

/-- The address after a bundle (R16). -/
def afterBundle (pc : Word64) (h : Word32) : Word64 := pc + w64 (4 * (1 + headerWords h))

/-- A bundle fetched and checked whole (R17, R37). -/
def State.fetchBundle (s : State) (g : Nat) (pc : Word64) : Fetched Bundle :=
  match s.fetchHeader g pc with
  | .got h =>
    match s.fetchWords g (headerWords h) (pc + 4) with
    | .got ws =>
      let sl := bundleWords (headerSlots h) ws
      match firstBadSlot (headerRep h) 0 sl with
      | some (n, _) =>
        let w := match sl.getD n none with | some sw => sw.word | none => 0
        .fault cSlot pc (w.setWidth 64) n
      | none => .got ⟨h, sl, afterBundle pc h⟩
    | .walk a => .walk a
    | .fault c a b d => .fault c a b d
  | .walk a => .walk a
  | .fault c a b d => .fault c a b d

/-- The bundle holds what the body of a nest may not hold (R301). Control transfers, NEST and SPAWN stand in slot S. -/
def bodyBarred (b : Bundle) : Bool :=
  match b.slots.getD 0 none with
  | some sw => match decodeSlot .S sw.word sw.ext with
    | .ok i => i.barredFromNest
    | .error _ => false
  | none => false

/-- NEST and a control transfer stand both in slot S, so no bundle holds two of them; a NEST with REP above 0 fails R37. -/
def nestBundle (b : Bundle) : Bool :=
  match b.slots.getD 0 none with
  | some sw => match decodeSlot .S sw.word sw.ext with
    | .ok i => i.isNest
    | .error _ => false
  | none => false

/-! ### Starting an issue -/

/-- The index of a nest's level at a point (R302): level 0 fastest, reversed by counting from the last point. -/
def Nest.index (n : Nest) (level : Nat) : Nat :=
  if level < n.depth then
    let m := if n.rev then n.points - 1 - n.point else n.point
    m / ((List.range level).map fun j => n.counts.getD j 0).prod % max (n.counts.getD level 0) 1
  else 0

/-- The value of an iterator target at a point (R302). -/
def Nest.value (n : Nest) (r : Nat) (base : Word64) : Word64 :=
  base + ((n.iters.filter fun t => t.target.toNat == r).map fun t => t.stride * w64 (n.index t.level)).foldl (· + ·) 0

/-- The targets of a nest's iterators, each once. -/
def Nest.targets (n : Nest) : List Nat := (n.iters.map fun t => t.target.toNat).dedup

/-- The first issue of a point: bases are taken at the first point, and every target gets its value (R302, R303). -/
def Ctx.enterPoint (k : Ctx) (n : Nest) : Ctx :=
  let n := if n.based then n
    else { n with based := true, bases := n.targets.map fun r => (r, if r = 0 then 0 else vget 0 k.a r) }
  let k := { k with nest := some n }
  n.bases.foldl (fun k (r, v) => k.apply (.a r (n.value r v))) k

/-- The slots that execute in an issue, with the a-registers that step (R20, R23 to R25). `first` is the first issue of a
nest point, in which no slot re-issues. -/
def issueSlots (k : Ctx) (b : Bundle) (first : Bool) (redo : Option (BitVec 5)) :
    List (Nat × SlotWord) × List Nat × List Nat × Bool :=
  let states := headerSlots b.hdr
  (List.range 5).foldl (fun (acc : List (Nat × SlotWord) × List Nat × List Nat × Bool) n =>
    let (run, fresh, step, none_) := acc
    let skip := match redo with | some m => m.getLsbD n | none => false
    let stepOf (sw : SlotWord) : List Nat :=
      match decodeSlot (Slot.ofIndex n) sw.word sw.ext with
      | .ok i => match i.baseReg with | some r => [r.toNat] | none => []
      | .error _ => []
    if skip then acc
    else match states.getD n .idle with
      | .fresh => match b.slots.getD n none with
        | some sw => (run ++ [(n, sw)], fresh ++ [n], if k.rep > 0 then step ++ stepOf sw else step, none_)
        | none => acc
      | .sticky => match vget none k.sticky n with
        | some sw => (run ++ [(n, sw)], fresh, if first then step else step ++ stepOf sw, none_)
        | none => (run, fresh, step, true)
      | _ => acc) ([], [], [], false)

/-- Advance base registers by their strides, each once (R24). -/
def Ctx.stepBases (k : Ctx) (regs : List Nat) : Ctx :=
  regs.dedup.foldl (fun k r => k.apply (.a r (vget 0 k.a r + vget 0 k.stride r))) k

/-- SHAPE writes whose moment has come: the writing context issues its issue i + 3 (R134). -/
def ShapeSet.put (t : ShapeSet) (field : Nat) (v : Word64) : ShapeSet :=
  match field with
  | 0 => { t with dims := v }
  | 1 => { t with stride0 := v }
  | 2 => { t with stride1 := v }
  | 3 => { t with stride2 := v }
  | 4 => { t with stride3 := v }
  | _ => { t with layout := v.setWidth 32 }

/-- Apply the SHAPE writes of context x that are due at its issue n. The issues of a trap handler count like any other: the trap rules move
results and landings alone (R134, R371; DESIGN CHOICE: log entry 136). -/
def Core.applyShapes (c : Core) (x n : Nat) : Core :=
  let due := c.shapeWrites.filter fun w => w.ctx == x && w.at_ ≤ n
  { c with
    shapes := due.foldl (fun v w => vset v w.set ((vget {} v w.set).put w.field w.value)) c.shapes,
    shapeWrites := c.shapeWrites.filter (fun w : ShapeWrite => !(w.ctx == x && w.at_ ≤ n)) }

/-- A context whose bundles are stamped. -/
def State.stamped (s : State) (g x : Nat) : Bool := s.det && computing g && !(s.ctx g x).unstamped && !(s.ctx g x).k.trapIn

/-- Slots of an issue as bits of a number. -/
def slotMask (l : List (Nat × SlotWord)) : Nat := ((List.range 5).map fun n => if l.any fun e => e.1 == n then 2 ^ n else 0).sum

/-- The free values that a stamped issue takes depend on the launch, the schedule clock, the context and the slots that it has left to execute, so
that a freeze that lasts longer in a second run changes none of them (R397; DESIGN CHOICE: log entry 128). -/
def State.rekey (s : State) (g x part : Nat) : State :=
  if s.stamped g x then { s with free := Config.detDraw s.launchSeed s.sclk (4 * g + x + 8192 * part) } else s

/-- A bundle issues (R20, R24, R27, R30): results due become visible, iterator targets and base registers move, and the
latch takes the slots that execute. The slots that a done mask re-issues execute whatever the guard now reads, as they had passed it at the trapped
issue (DESIGN CHOICE: log entry 110). The manual gives no time for STICKYNONE: the next issue sees it (R23; DESIGN CHOICE: log entry 126). -/
def State.beginIssue (s : State) (g x : Nat) (b : Bundle) : State :=
  let s := s.rekey g x (match (s.ctx g x).redo with | some m => 1 + m.toNat | none => 0)
  let c := s.core g
  let k := c.ctx x
  let n := k.issueNo
  let c := c.setCtx x { k with issueNo := n + 1, dueFrom := s.sclk + 1 }
  let c := if k.release then c.releaseSnapshot x n else c
  let c := c.applyShapes x n
  let k := (c.ctx x).deliver n
  let first := k.rep == 0 && k.redo.isNone && (match k.nest with | some t => t.body == k.pc | none => false)
  let k := if first then (match k.nest with | some t => k.enterPoint t | none => k) else k
  let on := k.redo.isSome || k.rdP (headerGuard b.hdr)
  let (run, fresh, step, empty) := if on then issueSlots k b first k.redo else ([], [], [], false)
  let k := if k.redo.isSome then k else k.stepBases step
  let saved := match k.redo, k.savedIss with
    | some _, some i => if i.pc == k.pc then some i else none
    | _, _ => none
  let i : Iss := {
    active := true, g, x, hdr := b.hdr, pc := k.pc, next := b.next, rep := k.rep, issue := n, pending := run, work := run,
    fresh, target := saved.bind (fun i => i.target), empties := (saved.map (fun i => i.empties)).getD false,
    ends := saved.bind (fun i => i.ends), nest := saved.bind (fun i => i.nest), endRecord := saved.bind (fun i => i.endRecord) }
  let k := { k with redo := none, savedIss := if k.redo.isSome then none else k.savedIss, decoded := some (k.pc, b), landed := [] }
  let k := if empty then k.queue (n + 1) n 5 (.statOr stStickyNone) else k
  let c := { c.setCtx x k with issuedAt := some s.cycle, issuedPc := i.pc }
  let s := { s.setCore g c.countIssue with iss := i }
  let s := if on then s else s.trace i (issueSlots k b first none).1 fun _ => false
  if run.isEmpty then s.finishIssue else s

/-- Take up an issue that waited or was held: its slots not yet committed execute, without stepping (R25). The first issue after the release of a
snapshot counts as the next one, and what is due at it becomes visible (R371). -/
def State.resumeIssue (s : State) (g x : Nat) (i : Iss) : State :=
  let s := s.rekey g x (33 + slotMask i.pending)
  let c := s.core g
  let k := c.ctx x
  let n := k.issueNo
  let c := { c.setCtx x { k with resume := none } with issuedAt := some s.cycle, issuedPc := i.pc }
  let (c, i) :=
    if k.release then
      let c := ((c.setCtx x { c.ctx x with issueNo := n + 1 }).releaseSnapshot x n).applyShapes x n
      ((c.setCtx x { (c.ctx x).deliver n with landed := [] }).countIssue, { i with issue := n, revAs := none })
    else (c, i)
  let s := { s.setCore g c with iss := { i with active := true, work := i.pending } }
  if i.pending.isEmpty then s.finishIssue else s

/-- The context before its next fetch, when the bundle at its pc, whose header is h, is finished or does not issue: RETT with every DONE bit set to
another address than the trapped bundle's (R391), and a nest with a count of 0 (R302). -/
def Ctx.skip (k : Ctx) (h : Word32) : Option Ctx :=
  let next := afterBundle k.pc h
  match k.redo with
  | some m => if m = 31 then some ({ k with redo := none, savedIss := none }.advance h k.pc next (k.issueNo - 1)) else none
  | none =>
    match k.nest with
    | some n => if n.body == k.pc && n.points == 0 then some { k with nest := none, pc := next } else none
    | none => none

/-- Bundles that a context may pass over at one issue: a finished one after RETT, and an empty nest (R302, R391). -/
def skipFuel : Nat := 8

/-- The context at its next bundle that issues, and that bundle's header, as `fetch` reads headers; the number bounds the bundles passed over. -/
def Ctx.nextHeader (fetch : Word64 → Fetched Word32) : Nat → Ctx → Ctx × Fetched Word32
  | 0, k => (k, fetch k.pc)
  | n + 1, k =>
    match fetch k.pc with
    | .got h => match k.skip h with
      | some k' => k'.nextHeader fetch n
      | none => (k, .got h)
    | f => (k, f)

/-- A context of core g fetches from a page that the TLB does not hold: its clock domain freezes for the walk (R74). -/
def State.fetchWalk (s : State) (g x : Nat) (va : Word64) : State :=
  let c := s.core g
  let k := { c.ctx x with walks := [⟨7, va, 2, 0, 0, 0⟩] }
  s.setCore g { c.setCtx x k with frozen := c.frozen ++ [.walk x], frozenAt := s.cycle }

/-- A fault found when a bundle is fetched or decoded (R37). -/
def State.fetchFault (s : State) (g x code : Nat) (pc w2 w3 : Word64) (slot : Nat) : State :=
  s.raise { code, gcore := g, ctx := x, rep := (s.ctx g x).rep, slot, pc, w2, w3 }

/-- The bundle whose further repetition the context issues next, as it was decoded before its first one (R37). -/
def Ctx.repeats (k : Ctx) : Option Bundle :=
  match k.decoded with
  | some (pc, b) => if 0 < k.rep && pc == k.pc && k.redo.isNone then some b else none
  | none => none

/-- Fetch, check and issue the first repetition of the context's next bundle, issue a further one of the same bundle, or take up the rest of an
issue. -/
def State.issueNext (s : State) (g x : Nat) : State :=
  let k := s.ctx g x
  match k.resume, k.repeats with
  | some i, _ => s.resumeIssue g x i
  | none, some b => s.beginIssue g x b
  | none, none =>
    let (k, h) := k.nextHeader (s.fetchHeader g) skipFuel
    let s := s.setCtx g x k
    match h with
    | .walk va => s.fetchWalk g x va
    | .fault c w2 w3 sl => s.fetchFault g x c k.pc w2 w3 sl
    | .got _ =>
      match s.fetchBundle g k.pc with
      | .walk va => s.fetchWalk g x va
      | .fault c w2 w3 sl => s.fetchFault g x c k.pc w2 w3 sl
      | .got b =>
        let inBody := match k.nest with | some n => n.body == k.pc | none => false
        if inBody && bodyBarred b then s.fetchFault g x cBundle k.pc k.pc (b.hdr.setWidth 64) 7
        else s.beginIssue g x b

end Sys2Proof.Machine
end

