-- ==== Sys2Proof/Machine/Paging.lean ====
section
/-! DEFINITION. The end of a walk, PGRES, the host's page service and the retry of released waiters (R74 to R82). -/

namespace Sys2Proof.Machine

/-! ### The end of a walk (R74) -/

/-- What a fresh walk finds for an access that missed. -/
inductive Looked where
  | found (e : Word64) (level : Nat)
  | absent (m : PageMiss)
  | bad (level : Nat)
deriving DecidableEq, Repr, Inhabited

/-- A walk for a miss. -/
def State.look (s : State) (m : PageMiss) : Looked :=
  match s.walk m.va.toNat with
  | .leaf e level _ => .found e level
  | .invalid level pa region => .absent { m with level, entry := pa, region }
  | .malformed level => .bad level

/-- The TLB takes the leaves that the walks of a list found. -/
def State.fillAll (s : State) (cl : Nat) (l : List PageMiss) : State :=
  l.foldl (fun s m => match s.look m with
    | .found e level => s.tlbFill cl m.va.toNat e level
    | _ => s) s

/-- The first malformed walk of a list. -/
def State.firstBad (s : State) (l : List PageMiss) : Option (PageMiss × Nat) :=
  l.findSome? fun m => match s.look m with
    | .bad level => some (m, level)
    | _ => none

/-- The first absent page of a list. -/
def State.firstAbsent (s : State) (l : List PageMiss) : Option PageMiss :=
  l.findSome? fun m => match s.look m with
    | .absent m => some m
    | _ => none

/-- A context whose pages are all present goes on: the rest of its issue executes where the core is not frozen otherwise, and a
fetch is made again by its next issue. -/
def State.goOnAfterWalk (s : State) (g x : Nat) : State :=
  let s := s.modCtx g x fun k => { k with walks := [], waitsFault := none }
  match (s.ctx g x).resume with
  | some i => if s.coreFrozen g then s else s.resumeIssue g x i
  | none => s

/-- The absent pages of a list of walks. -/
def State.allAbsent (s : State) (l : List PageMiss) : List PageMiss :=
  l.filterMap fun m => match s.look m with
    | .absent m => some m
    | _ => none

/-- A context some of whose pages are absent: the slots that have found theirs commit before it is held (R370). -/
def State.upcallAfterWalk (s : State) (g x : Nat) (l : List PageMiss) (m : PageMiss) : State :=
  match (s.ctx g x).resume with
  | none => s.ctxUpcall g x m
  | some i =>
    let stays (e : Nat × SlotWord) : Bool := l.any fun n => n.slot == e.1
    let i := { i with pending := i.pending.filter (fun e => !stays e), undone := i.pending.filter stays, absent := l }
    (s.modCtx g x fun k => { k with walks := [] }).resumeIssue g x i

/-- The walks of a context have ended: the freeze ends, and the context goes on, takes a page upcall or faults. -/
def State.ctxWalked (s : State) (g x : Nat) : State :=
  let l := (s.ctx g x).walks
  let c := s.core g
  let s := (s.setCore g { c with frozen := c.frozen.filter (· != .walk x) }).annotate 0x11 g x (w64 (s.cycle - c.frozenAt))
  match s.firstBad l with
  | some (m, level) => s.whoFault (.ctx g x) m.slot cProt m.va (w64 level)
  | none =>
    let s := s.fillAll (clusterOf g) l
    match s.allAbsent l with
    | m :: ms => s.upcallAfterWalk g x (m :: ms) m
    | [] => s.goOnAfterWalk g x

/-- The storage keys of a record's block, as the translation unit of core g's cluster gives them to the engine; none where the page has gone or does
not let the write through. -/
def State.recordKeys (s : State) (g rec : Nat) : List Nat := s.reachedKeys rec (s.reachRecord (clusterOf g) rec)

/-- Word n of the record that a channel of core g stands on, written in memory. -/
def State.putRecord (s : State) (g rec n v : Nat) : State := s.writePart ((s.recordKeys g rec).map (· + 8 * n)) 8 v

/-- A channel that is to write its record first waits for the record's page, or faults where the page does not let the write through (R66, R67). -/
def State.recordGone (s : State) (g c : Nat) : State :=
  let rec_ := (s.chan g c).record
  match s.reachRecord (clusterOf g) rec_ with
  | .absent .. => s.modChan g c fun k => { k with walk := some (w64 rec_, 4), walkAt := s.cycle }
  | .barred level => s.whoFault (.chan g c) 7 cProt (w64 rec_) (w64 level)
  | .page .. | .window => s

/-- A page upcall of a channel leaves in w6 the sectors that are completed, and STATUS started (R128). -/
def State.chanProgress (s : State) (g c : Nat) : State :=
  let k := s.chan g c
  match k.words with
  | some _ => if (s.recordKeys g k.record).isEmpty then s.recordGone g c else s.putRecord g k.record 6 (k.sector * 2 ^ 32 + 1)
  | none => s

/-- A channel takes a page upcall, once w6 of its record says how far it has come: where the record's own page is absent, the upcall is for that page
first, and the channel meets the other again when it goes on. -/
def State.chanUpcall (s : State) (g c : Nat) (va : Word64) (m : PageMiss) : State :=
  let s := s.chanProgress g c
  let k := s.chan g c
  if !s.soundSrc (.chan g c) then s
  else match k.walk with
  | some (r, cls) => match s.walk r.toNat with
    | .invalid level pa region =>
      ((s.modChan g c fun k => { k with walk := none, st := .pageWait }).pageUpcall (.chan g c) ⟨7, r, cls, level, pa, region⟩).annotate 7 g k.issuer r
    | _ => s
  | none =>
    ((s.modChan g c fun k => { k with st := .pageWait }).pageUpcall (.chan g c) m).annotate 7 g k.issuer va

/-- The freeze that a channel's walk makes of a deterministic launch's computing cores ends, with its annotation (R350, R394). -/
def State.chanFreeze (s : State) (g c : Nat) : State :=
  if s.det then s.annotate 0x11 g (s.chan g c).issuer (w64 (s.cycle - (s.chan g c).walkAt)) else s

/-- The walk of a channel has ended (R74, R79). -/
def State.chanWalked (s : State) (g c : Nat) : State :=
  let k := s.chan g c
  match k.walk with
  | none => s
  | some (va, cls) =>
    let m : PageMiss := ⟨7, va, cls, 0, 0, 0⟩
    let s := s.chanFreeze g c
    let t := s.modChan g c fun k => { k with walk := none }
    match s.look m with
    | .found e level =>
      let t := t.tlbFill (clusterOf g) va.toNat e level
      if k.st == .pageWait then t.chanProgress g c else t
    | .bad level => t.whoFault (.chan g c) 7 cProt va (w64 level)
    | .absent m => t.chanUpcall g c va m

/-- WALK_COMPLETE. -/
def execWalkComplete (who : Who) (s : State) : Out :=
  match who with
  | .ctx g x => if (s.core g).frozen.contains (.walk x) then .next (s.ctxWalked g x) else .next s
  | .chan g c => .next (s.chanWalked g c)
  | _ => .next s

/-! ### Release and retry (R82) -/

/-- A waiter released by a PGRES retries its translation. -/
def State.retry (s : State) (w : Who) : State :=
  match w with
  | .ctx g x =>
    let k := s.ctx g x
    match s.firstBad k.walks with
    | some (m, level) => s.whoFault w m.slot cProt m.va (w64 level)
    | none =>
      match s.firstAbsent k.walks with
      | some m => (s.pageUpcall w m).annotate 7 g x m.va
      | none =>
        let s := s.fillAll (clusterOf g) k.walks
        let s := s.modCtx g x fun k => { k with run := .running, walks := [], waitsFault := none }
        if s.det then s.goOnAfterWalk g x else s.modCore g Core.select
  | .chan g c => s.modChan g c fun k => { k with fault := none, st := if k.st == .pageWait then .walking else k.st }
  | .task .. | .coll _ => s.setWaits w none

/-- WAITER_RETRY. -/
def execWaiterRetry (who : Who) (s : State) : Out :=
  let cl := s.whoCluster who
  let c := s.cluster cl
  if c.released.contains who then .next ((s.setCluster cl { c with released := c.released.erase who }).retry who) else .next s

/-- PAGER_RECORD_ENQUEUE (R78): the oldest kept record enters the queue. -/
def execPagerRecordEnqueue (cluster slot : Nat) (s : State) : Out :=
  let c := s.cluster cluster
  match (c.fault slot).record with
  | some r =>
    if s.recordDue cluster = some slot then
      .next (s.setCluster cluster { c.setFault slot { c.fault slot with record := none } with
        conts := c.conts ++ [{ r with since := s.cycle, ready := s.cycle }] })
    else .next s
  | none => .next s

/-- Requesters that waited for a free slot ask again. -/
def State.admitBlocked (s : State) (cl : Nat) : State :=
  let l := (s.cluster cl).blocked
  l.foldl (fun s (w, m) => s.pageUpcall w m) (s.modCluster cl fun c => { c with blocked := [] })

/-- A waiter of a fault still waits for it: a channel may have been cancelled, or wait for another page by now (R122, R144). -/
def State.stillWaits (s : State) (cl n : Nat) (w : Who) : Bool :=
  match w with
  | .chan g c => (s.chan g c).fault == some (cl, n)
  | _ => true

/-- A pending fault ends: TLB entries that meet its range are dropped, its waiters released, its generation advanced. -/
def State.closeFault (s : State) (cl n : Nat) : State :=
  let f := (s.cluster cl).fault n
  let s := s.tlbDropRange f.va.toNat f.level
  let go := f.waiters.filter (s.stillWaits cl n)
  let s := s.modCluster cl fun c =>
    { c.setFault n { f with valid := false, gen := (f.gen + 1) % 2 ^ 16, waiters := [], record := none } with
      released := c.released ++ go }
  s.admitBlocked cl

/-- The cluster and slot of a tag that names a pending fault; none for a stale one. -/
def State.faultOf (s : State) (t : Word64) : Option (Nat × Nat) :=
  let cl := bits t 9 6
  let n := bits t 5 0
  let f := (s.cluster cl).fault n
  if t.toNat == faultTag cl n (bits t 31 16) && f.valid && f.gen == bits t 31 16 then some (cl, n) else none

/-- PGRES. -/
def execPgres (t : SReg) (s : State) : Out :=
  slotDone (match s.faultOf (s.rdS t) with
    | none => .ok (s.putStat stPgStale)
    | some (cl, n) => .ok (s.closeFault cl n))

/-- PGRES.FAIL. -/
def execPgresFail (t : SReg) (s : State) : Out :=
  slotDone (match s.faultOf (s.rdS t) with
    | none => .ok (s.putStat stPgStale)
    | some (cl, n) => protFault s ((s.cluster cl).fault n).va)

/-- PGRES.INV. -/
def execPgresInv (t : SReg) (s : State) : Out :=
  slotDone (.ok (if translated (s.rdS t).toNat then s.tlbDrop (s.rdS t).toNat else s))

/-! ### Host-assisted page service (R80) -/

/-- PGHOST with FAIL = 0. -/
def execPghost (v : Word64) (s : State) : Out :=
  if !s.hostReaches then .next s
  else match s.faultOf (w64 (bits v 62 0)) with
  | some (cl, n) => .next (s.closeFault cl n)
  | none => .next s

/-- PGHOST with FAIL = 1. -/
def execPghostFail (v : Word64) (s : State) : Out :=
  if !s.hostReaches then .next s
  else match s.faultOf (w64 (bits v 62 0)) with
  | some (cl, n) => .next (s.raise { code := cProt, w2 := ((s.cluster cl).fault n).va, agent := 4, agentNo := cl })
  | none => .next s

end Sys2Proof.Machine
end

