-- ==== Sys2Proof/Machine/Tasks.lean ====
section
/-! DEFINITION. Extent tables (R76) and tile tasks: TTASK, TWAIT, dispatch, run and completion (R269 to R272, R345). -/

namespace Sys2Proof.Machine

/-! ### Extent tables (R76) -/

/-- How the translation of a range comes out. -/
inductive Built where
  | ok (l : List Extent)
  | missing (m : PageMiss)
  /-- A malformed entry, a page that does not permit the access, or an address that is not translated. -/
  | bad (va level : Nat)
deriving DecidableEq, Repr, Inhabited

/-- A page's leaf lets a range's access through; a range written must lie on plain pages. -/
def extentOk (e : Word64) (wr : Bool) : Bool := if wr then bit e 5 && leafKind e == 0 else bit e 4

/-- The pages of a range from an address up, each translated by the unit of a cluster; `fuel` bounds their number. -/
def State.extentsFrom (s : State) (cl cls : Nat) (wr : Bool) (va stop : Nat) : Nat → Built
  | 0 => .ok []
  | fuel + 1 =>
    if stop ≤ va then .ok []
    else if !translated va then .bad va 0
    else match s.lookup cl va with
      | .leaf e level _ =>
        if !extentOk e wr then .bad va 0
        else
          let next := (va / levelSpan level + 1) * levelSpan level
          match s.extentsFrom cl cls wr next stop fuel with
          | .ok l => .ok (⟨va, min next stop - va, e, level⟩ :: l)
          | r => r
      | .invalid level pa region => .missing ⟨7, w64 va, cls, level, pa, region⟩
      | .malformed level => .bad va level

/-- A range of virtual addresses that is read or written. -/
structure VRange where
  va : Nat
  len : Nat
  wr : Bool
deriving DecidableEq, Repr, Inhabited

/-- The pages of several ranges. -/
def State.extents (s : State) (cl cls : Nat) : List VRange → Built
  | [] => .ok []
  | r :: rs =>
    match s.extentsFrom cl cls r.wr r.va (r.va + r.len) (r.len / 2 ^ 16 + 2) with
    | .ok l => match s.extents cl cls rs with
      | .ok l' => .ok (l ++ l')
      | x => x
    | x => x

/-- The page that a piece of a range lies on. -/
def Extent.page (x : Extent) : Nat := x.va / levelSpan x.level * levelSpan x.level

/-- Two pieces, in the order of their addresses, lie in one extent: on one page or on two that follow each other, with one kind, one D bit, one
placement, and addresses that run on (R76). What lies between the two belongs to the same pages. -/
def State.joins (s : State) (a b : Extent) : Bool :=
  let pa (x : Extent) : Nat := leafPa x.entry + x.va % levelSpan x.level
  (a.page == b.page || a.page + levelSpan a.level == b.page) && pa a + b.va == pa b + a.va && leafKind a.entry == leafKind b.entry &&
    bit a.entry 7 == bit b.entry 7 && s.geoWord (leafGeo a.entry) == s.geoWord (leafGeo b.entry)

/-- Insert a piece by its address. -/
def insertExtent (e : Extent) : List Extent → List Extent
  | [] => [e]
  | f :: fs => if e.va < f.va then e :: f :: fs else f :: insertExtent e fs

/-- Extents that a list of pieces in the order of their addresses needs. -/
def State.extentRuns (s : State) : List Extent → Nat
  | [] => 0
  | [_] => 1
  | a :: b :: l => (if s.joins a b then 0 else 1) + s.extentRuns (b :: l)

/-- Extents that the pieces of a table need. -/
def State.extentCount (s : State) (l : List Extent) : Nat := s.extentRuns (l.foldl (fun acc e => insertExtent e acc) [])

/-- Extents of a table. -/
def extentMax : Nat := 32

/-- The location of an address under an extent table. -/
def State.extentLoc (s : State) (l : List Extent) (va : Nat) : Loc :=
  if untranslated va then windowLoc va
  else match l.find? fun e => e.va ≤ va && va < e.va + e.len with
    | some e => s.leafLoc va e.entry e.level
    | none => windowLoc va

/-- A range that lies in scratchpads below their latch areas, every block of it. -/
def rangeInSpads (va len : Nat) : Bool :=
  match spaceOf va with
  | .spad _ off => off + len ≤ latchBase
  | _ => false

/-! ### Task records (R269) -/

/-- TAG. -/
def Task.tag (t : Task) : Nat := bits (t.word 0) 63 48
/-- BAR. -/
def Task.bar (t : Task) : Bool := bit (t.word 0) 13
/-- A malformed record (R271). -/
def taskBad (ws : List Word64) : Bool :=
  let w (n : Nat) : Word64 := ws.getD n 0
  let fmt := bits (w 1) 7 0
  let rm := bits (w 1) 10 8
  bits (w 0) 11 9 != 0 || bits (w 1) 62 57 != 0 || bits (w 1) 47 32 != 0 || bits (w 1) 15 11 != 0 || w 7 != 0 ||
    fmt == 0 || decide (7 < fmt) || bits (w 1) 31 16 == 0 || (if fmt = 1 then decide (5 < rm) else rm != 0) ||
    (w 2).toNat % 2048 != 0 || (w 3).toNat % 2048 != 0 || ctlBad (w 5) true

/-- Records of a task queue. -/
def taskQueueSize : Nat := 64

/-- Tasks of a queue that have not been dispatched. -/
def Cluster.waitingTasks (c : Cluster) (q : Nat) : List Task := (c.queue q).filter fun t => !t.dispatched

/-- A queue has room and a tag is not pending (R271). -/
def Cluster.taskRoom (c : Cluster) (q tag : Nat) : Bool :=
  !c.tags.contains tag && decide ((c.waitingTasks q).length < taskQueueSize)

/-- TTASK, enqueue. -/
def execTtask (r : SReg) (q : BitVec 2) (s : State) : Out :=
  slotDone (do
    let va := s.rdS r
    let l ← slotRecord s va false
    if l.space != .main || !l.wr then protFault s va
    let ws := s.blockWords l.key
    if taskBad ws then protFault s va
    if bits (ws.getD 6 0) 7 0 ≠ 0 then .ok (s.putStat stTtBusy)
    else
      let cl := clusterOf s.iss.g
      let tag := bits (ws.getD 0 0) 63 48
      if !(s.cluster cl).taskRoom q.toNat tag then slotWait s (.taskRoom q.toNat tag)
      needReleased s
      let t : Task := { id := (s.cluster cl).taskNo, words := ws, addr := va.toNat, core := s.iss.g, ctx := s.iss.x, pc := s.iss.pc }
      let s := s.writePart (l.wkeys.map (· + 48)) 8 1
      .ok (s.modCluster cl fun c => { c.setQueue q.toNat (c.queue q.toNat ++ [t]) with tags := c.tags ++ [tag], taskNo := c.taskNo + 1 }))

/-- The slots that a hosting core lends (R271). -/
def hostSlots : List Nat := [124, 125, 126, 127]

/-- The holder that stands for the task scheduler. -/
def schedulerHolder : Nat := 4

/-- TTASK.HOST. -/
def execTtaskHost (s : State) : Out :=
  slotDone (
    let c := s.core s.iss.g
    if hostSlots.any fun n => (c.slot n).st != .free then .ok (s.putStat stObusy)
    else .ok (s.setCore s.iss.g { hostSlots.foldl (fun c n => c.setSlot n { st := .ready, holder := schedulerHolder }) c with
      hosting := true }))

/-- A task has been dispatched to core g and is not done. -/
def State.taskAt (s : State) (g : Nat) : Bool :=
  (s.cluster (clusterOf g)).tasks.toList.flatten.any fun t => t.dispatched && !t.done && t.host == coreOf g

/-- TTASK.UNHOST. -/
def execTtaskUnhost (s : State) : Out :=
  slotDone (
    if s.taskAt s.iss.g then slotWait s .noTask
    else
      let s := s.modCore s.iss.g fun c =>
        { hostSlots.foldl (fun c n => c.setSlot n {}) c with hosting := false }
      .ok (s.resetTile s.iss.g taskTile 0))

/-- TWAIT. -/
def execTwait (t : SReg) (s : State) : Out :=
  slotDone (
    let tag := (s.rdS t).toNat % 2 ^ 16
    if (s.cluster (clusterOf s.iss.g)).tags.contains tag then slotWait s (.tag tag) else .ok s)

/-! ### Dispatch (R270) -/

/-- The first task of a queue that has not been dispatched, with those before it. -/
def headTask : List Task → List Task → Option (Task × List Task)
  | _, [] => none
  | before, t :: ts => if t.dispatched then headTask (before ++ [t]) ts else some (t, before)

/-- A task's predecessors, latch and barriers let it go. -/
def State.taskReady (s : State) (c : Cluster) (t : Task) (before : List Task) : Bool :=
  let w := t.word 0
  !(bit w 15 && c.tags.contains (bits w 47 32)) && !(bit w 14 && c.tags.contains (bits w 31 16)) &&
    (!bit w 12 || s.latchDone t.core (bits w 8 0)) &&
    (if t.bar then before.isEmpty else !before.any Task.bar)

/-- A free host engine: its core is hosting, it is idle and has no task. -/
def State.hostFree (s : State) (g : Nat) : Bool :=
  (s.core g).hosting && (s.core g).engineIdle && !s.taskAt g

/-- The free host engine of the lowest-numbered core of a cluster. -/
def State.freeHost (s : State) (cl : Nat) : Option Nat := (List.range 96).find? fun n => s.hostFree (96 * cl + n)

/-- A fault of a task, naming its record or an address (R374). -/
def State.taskFault (s : State) (g code : Nat) (w2 w3 : Word64) : State :=
  s.raise { code, w2, w3, agent := 3, agentNo := clusterOf g, src := .host g }

/-- The page of a task's record, as its cluster translates it for w6; where the page is absent the task takes a page upcall first (R78), and a
malformed entry, or a page that may not be written, ends the launch (R66, R67). -/
def State.taskHome (s : State) (cl q : Nat) (t : Task) : Except State Extent :=
  match s.reachRecord cl t.addr with
  | .page e level => .ok ⟨t.addr, 64, e, level⟩
  | .absent level pa region =>
    .error ((s.pageUpcall (.task cl q t.id) ⟨7, w64 t.addr, 4, level, pa, region⟩).annotate 7 t.core t.ctx (w64 t.addr))
  | .barred level => .error (s.taskFault (96 * cl) cProt (w64 t.addr) (w64 level))
  | .window => .error (s.taskFault (96 * cl) cProt (w64 t.addr) 0)

/-- w6 of a record written through a translation of its page. -/
def State.putState (s : State) (e : Extent) (v : Nat) : State := s.writePart ((s.leafLoc e.va e.entry e.level).wkeys.map (· + 48)) 8 v

/-- What an engine's work leaves. -/
def engineNext (r : Except State State) : Out :=
  match r with
  | .ok s => .next s
  | .error s => .next s

/-- The head task of a queue may be dispatched. -/
def State.dispatchable (s : State) (cl q : Nat) : Option (Task × Nat) :=
  let c := s.cluster cl
  if s.preempting then none
  else match headTask [] (c.queue q), s.freeHost cl with
    | some (t, before), some n => if t.fault.isNone && s.taskReady c t before then some (t, n) else none
    | _, _ => none

/-- TASK_DISPATCH: the head task asks for leave, or goes to the free host engine of the lowest-numbered core. -/
def execTaskDispatch (cluster queue : Nat) (s : State) : Out :=
  match s.dispatchable cluster queue with
  | none => .next s
  | some (t, n) =>
    if t.leave || s.leaveNow cluster then
      engineNext (do
        let home ← s.taskHome cluster queue t
        let s := if t.leave then s else s.holdLeave cluster
        let s := s.modCluster cluster fun c => c.modTask queue t.id fun t => { t with dispatched := true, host := n, leave := true }
        .ok (s.putState home 2))
    else if t.leaveAsked then .next s
    else .next ((s.modCluster cluster fun c => c.modTask queue t.id fun t => { t with leaveAsked := true, host := n }).deferLeave
      cluster (.task queue t.id))

/-! ### Running (R270) -/

/-- The drain that a task performs, into rows at DST. -/
def Task.drain (t : Task) : Drain :=
  { acc := taskTile, dst := .mem (t.word 4), ctl := t.word 5, ctx := t.ctx, slot := slotM, pc := t.pc, task := true }

/-- Every block that a task writes, as a range of its own. -/
def Task.rows (t : Task) : List VRange := (drainAddrs (t.word 4) (t.word 5)).map fun a => ⟨a.toNat, 64, true⟩

/-- The ranges that a task's extent table translates: the operands, and the rows that it writes. -/
def Task.declared (t : Task) : List VRange :=
  let len := 2048 * t.kt
  (([⟨(t.word 2).toNat, len, false⟩, ⟨(t.word 3).toNat, len, false⟩] : List VRange) ++ t.rows).filter fun r => !untranslated r.va

/-- An untranslated range of a task lies outside the scratchpads. -/
def Task.outside (t : Task) : Option Nat :=
  let len := 2048 * t.kt
  ((([⟨(t.word 2).toNat, len, false⟩, ⟨(t.word 3).toNat, len, false⟩] : List VRange) ++ t.rows).find? fun r =>
    untranslated r.va && !rangeInSpads r.va r.len).map VRange.va

/-- The queue and the task that core g has been given and not yet started. -/
def Cluster.givenTo (c : Cluster) (n : Nat) : Option (Nat × Task) :=
  (List.range 4).findSome? fun q => ((c.queue q).find? fun t => t.dispatched && !t.built && t.host == n).map fun t => (q, t)

/-- The queue and the task that runs on core n of a cluster. -/
def Cluster.runningOn (c : Cluster) (n : Nat) : Option (Nat × Task) :=
  (List.range 4).findSome? fun q => ((c.queue q).find? fun t => t.dispatched && t.built && t.host == n).map fun t => (q, t)

/-- The array and the drain port of a task's host are free when it starts running: matrix operations that the core has issued since the dispatch
come first. -/
def State.runMayStart (s : State) (g : Nat) (t : Task) : Bool :=
  t.fault.isNone && s.soundSrc (.host g) && !s.engineFrozen g && (s.core g).array.isNone && (s.core g).port.isNone

/-- TASK_RUN_START: the extent table is built, or a page upcall delays the task; then the host resets tile 15. A task that lacks a page waits
dispatched, as R270 has it, and keeps its host and its leave, where R76 has it wait undispatched (DESIGN CHOICE: log entry 115). The page of its
record is translated with the operands, so that it never faults in flight (R12). -/
def execTaskRunStart (cluster g : Nat) (s : State) : Out :=
  match (s.cluster cluster).givenTo (coreOf g) with
  | none => .next s
  | some (q, t) =>
    if !s.runMayStart g t then .next s
    else if (t.word 4).toNat % 64 ≠ 0 then .next (s.taskFault g cAlign (t.word 4) 64)
    else match t.outside with
      | some va => .next (s.taskFault g cProt (w64 va) 0)
      | none =>
        match s.extents cluster 5 t.declared with
        | .missing m => .next ((s.pageUpcall (.task cluster q t.id) m).annotate 7 g t.ctx m.va)
        | .bad va level => .next (s.taskFault g cProt (w64 va) (w64 level))
        | .ok l =>
          if extentMax < s.extentCount l then .next (s.taskFault g cProt (w64 t.addr) 0)
          else engineNext (do
            let home ← s.taskHome cluster q t
            let s := s.modCluster cluster fun c => c.modTask q t.id fun t =>
              { t with built := true, extents := l, home := some home, startAt := s.engineClock g }
            .ok ((s.putState home 3).resetTile g taskTile (t.op 0).mode))

/-- The 32 blocks of a tile in memory, read through an extent table; or the address and descriptor of one that R100 or R416
refuses. -/
def State.tileBlocks (s : State) (l : List Extent) (va : Nat) : Nat → Except (Nat × Desc × Bool) (List VVal)
  | 0 => .ok []
  | n + 1 =>
    match s.blockAt (s.extentLoc l va) va with
    | .ok v _ => match s.tileBlocks l (va + 64) n with
      | .ok vs => .ok (v :: vs)
      | .error e => .error e
    | .noExtent => .error (va, 0, true)
    | .badFormat d => .error (va, d, false)

/-- A slot filled from a tile in memory, or the fault. -/
def State.taskFill (s : State) (g : Nat) (t : Task) (n va : Nat) : Except State State :=
  match s.tileBlocks t.extents va slotBlocks with
  | .error (va, d, prot) => .error (s.taskFault g (if prot then cProt else cDesc) (w64 va) (d.setWidth 64))
  | .ok bs =>
    match fillDesc bs 0 with
    | .error d => .error (s.taskFault g cDesc (w64 n) (d.setWidth 64))
    | .ok d => .ok (s.modCore g fun c => c.setSlot n ((c.slot n).filled bs d))

/-- The steps of a task from step k on. -/
def State.taskSteps (s : State) (g : Nat) (t : Task) (k : Nat) : Nat → Except State State
  | 0 => .ok s
  | n + 1 => do
    let s ← s.taskFill g t (124 + k % 2) ((t.word 2).toNat + 2048 * k)
    let s ← s.taskFill g t (126 + k % 2) ((t.word 3).toNat + 2048 * k)
    match s.startFault g (t.op k) with
    | some s => .error s
    | none => ((s.modCore g fun c => c.fixScale (t.op k)).multiply g (t.op k)).taskSteps g t (k + 1) n

/-- The rows of a task's drain written under its extent table, with the drain's flags. -/
def State.taskDrain (s : State) (g : Nat) (t : Task) : State × BitVec 6 :=
  let d := t.drain
  let round := drainValue (ctlFmt d.ctl) (ctlCl d.ctl)
  (drainBlocks (ctlFmt d.ctl)).foldl (fun (acc : State × BitVec 6) b =>
    let (v, fl) := s.drainBlock g d round b
    (acc.1.writeBlock (s.extentLoc t.extents (drainAddr (t.word 4) d.ctl b).toNat).wkeys v, acc.2 ||| fl)) (s, 0)

/-- The cycles that a task takes at least: its array time and the drain's 32 cycles. -/
def Task.time (t : Task) : Nat := t.products + drainTime

/-- The task on core g of a cluster may complete: a drain of the core's own that holds the port comes first. -/
def State.taskDue (s : State) (cluster g : Nat) : Bool :=
  match (s.cluster cluster).runningOn (coreOf g) with
  | some (_, t) => t.fault.isNone && s.soundSrc (.host g) && decide (t.startAt + t.time ≤ s.engineClock g) && !s.engineFrozen g && (s.core g).port.isNone
  | none => false

/-- w6 of a task that is done (R269). -/
def taskResult (host : Nat) (poison : Bool) (fl : BitVec 6) : Nat :=
  host * 2 ^ 32 + flag poison 22 + fl.toNat * 2 ^ 16 + 4

/-- An arrival of one at a latch by an engine, or the protection fault that names it (R347). -/
def State.arrive (s : State) (g n : Nat) (f : FaultRec) : State :=
  match s.latchAdd g n 1 with
  | some s => s
  | none => s.raise { f with code := cProt, w2 := w64 (latchPa g n) }

/-- TASK_COMPLETE: KT products into tile 15, the drain, w6, the tag, and the arrival. -/
def execTaskComplete (cluster g : Nat) (s : State) : Out :=
  match (s.cluster cluster).runningOn (coreOf g) with
  | none => .next s
  | some (q, t) =>
    if !s.taskDue cluster g then .next s
    else engineNext (do
        let s ← (match s.taskSteps g t 0 t.kt with
          | .ok s => .ok s
          | .error e => .error { s with faults := e.faults })
        let tile := (s.core g).tile taskTile
        let (s, fl) := s.taskDrain g t
        let result := taskResult (coreOf g) tile.poison (tile.flags ||| fl)
        let s := match t.home with | some e => s.putState e result | none => s
        let s := if ctlZero (t.word 5) then s.resetTile g taskTile tile.mode else s
        let s := s.modCluster cluster fun c =>
          { c.setQueue q ((c.queue q).filter fun (u : Task) => u.id != t.id) with
            tags := c.tags.erase t.tag }
        let s := (s.dropLeave cluster).modCore g fun c => { c with lastPc := t.pc, idleSince := max c.idleSince (t.startAt + t.products) }
        .ok (if bit (t.word 1) 63 then
          s.arrive t.core (bits (t.word 1) 56 48) { code := cProt, agent := 3, agentNo := cluster }
        else s))

end Sys2Proof.Machine
end

