-- ==== Sys2Proof/Machine/CopyEngine.lean ====
section
/-! DEFINITION. The copy engine: channels, transfer records, sectors, watermarks, shape sets, knocks and re-striping (R83 to R86,
R122 to R147). -/

namespace Sys2Proof.Machine

/-! ### Transfer records (R124, R125) -/

/-- Word n of the record that a channel stands on. -/
def Chan.word (c : Chan) (n : Nat) : Word64 := (c.words.getD []).getD n 0

/-- KIND. -/
def recKind (ws : List Word64) : Nat := bits (ws.getD 1 0) 3 0
/-- The sector size in bytes. -/
def recSector (ws : List Word64) : Nat := 64 * 2 ^ bits (ws.getD 1 0) 11 8
/-- LEN. -/
def recLen (ws : List Word64) : Nat := bits (ws.getD 4 0) 31 0
/-- SSEN. -/
def recSsen (ws : List Word64) : Bool := bit (ws.getD 1 0) 35
/-- DSEN. -/
def recDsen (ws : List Word64) : Bool := bit (ws.getD 1 0) 39
/-- SSET. -/
def recSset (ws : List Word64) : Nat := bits (ws.getD 1 0) 34 32
/-- DSET. -/
def recDset (ws : List Word64) : Nat := bits (ws.getD 1 0) 38 36
/-- ADDT. -/
def recAddt (ws : List Word64) : Nat := bits (ws.getD 1 0) 17 16
/-- SRC. -/
def recSrc (ws : List Word64) : Word64 := ws.getD 2 0
/-- DST. -/
def recDst (ws : List Word64) : Word64 := ws.getD 3 0
/-- STATUS. -/
def recStatus (ws : List Word64) : Nat := bits (ws.getD 6 0) 7 0
/-- PROG. -/
def recProg (ws : List Word64) : Nat := bits (ws.getD 6 0) 63 32

/-! ### Shape sets (R133 to R136) -/

/-- Dimension j of a shape set; 0 is read as 1. -/
def ShapeSet.dim (t : ShapeSet) (j : Nat) : Nat := max (bits t.dims (16 * j + 15) (16 * j)) 1
/-- The stride of dimension j. -/
def ShapeSet.strideOf (t : ShapeSet) (j : Nat) : Word64 :=
  match j with | 0 => t.stride0 | 1 => t.stride1 | 2 => t.stride2 | _ => t.stride3
/-- TLOG. -/
def ShapeSet.tlog (t : ShapeSet) : Nat := t.layout.toNat / 2 ^ 20 % 16
/-- ELOG. -/
def ShapeSet.elog (t : ShapeSet) : Nat := t.layout.toNat / 2 ^ 16 % 4
/-- TRANS. -/
def ShapeSet.trans (t : ShapeSet) : Bool := t.layout.getLsbD 8
/-- MODE. -/
def ShapeSet.mode (t : ShapeSet) : Nat := t.layout.toNat % 4
/-- Elements that a shape set covers. -/
def ShapeSet.count (t : ShapeSet) : Nat := t.dim 0 * t.dim 1 * t.dim 2 * t.dim 3

/-- A layout word that breaks the table of R135. -/
def layoutBad (w : BitVec 32) : Bool :=
  let n := w.toNat
  let tlog := n / 2 ^ 20 % 16
  let mode := n % 4
  n / 2 ^ 24 != 0 || n / 2 ^ 18 % 4 != 0 || n / 2 ^ 9 % 128 != 0 || n / 4 % 64 != 0 || decide (1 < mode) ||
    (mode == 0 && (w.getLsbD 8 || tlog != 0)) || (mode == 1 && (decide (tlog < 2) || decide (10 < tlog)))

/-- A shape set that a record may not name (R127, R135). -/
def ShapeSet.bad (t : ShapeSet) : Bool :=
  layoutBad t.layout || (List.range 4).any fun j => (t.strideOf j).toNat % 2 ^ t.elog != 0

/-- Bits of two numbers interleaved: bit j of the first to bit 2j, of the second to bit 2j + 1. -/
def interleave (a b : Nat) : Nat → Nat
  | 0 => 0
  | n + 1 => a % 2 + 2 * (b % 2) + 4 * interleave (a / 2) (b / 2) n

/-- The byte address of element (i0, i1, i2, i3) above a base (R136). -/
def ShapeSet.addr (t : ShapeSet) (base : Word64) (i0 i1 i2 i3 : Nat) : Word64 :=
  let outer := w64 i2 * t.stride2 + w64 i3 * t.stride3
  if t.mode = 0 then base + w64 i0 * t.stride0 + w64 i1 * t.stride1 + outer
  else
    let side := 2 ^ t.tlog
    let (r, c, w) := if t.trans then (i0, i1, t.dim 1) else (i1, i0, t.dim 0)
    let tile := r / side * ((w + side - 1) / side) + c / side
    let leaf := r % side % 4 * 4 + c % side % 4
    let m := interleave (c % side / 4) (r % side / 4) 8
    base + w64 ((tile * side * side + m * 16 + leaf) * 2 ^ t.elog) + outer

/-- The address of element number k in element order. -/
def ShapeSet.nth (t : ShapeSet) (base : Word64) (k : Nat) : Word64 :=
  t.addr base (k % t.dim 0) (k / t.dim 0 % t.dim 1) (k / t.dim 0 / t.dim 1 % t.dim 2)
    (k / t.dim 0 / t.dim 1 / t.dim 2 % t.dim 3)

/-- A shape set of a walk. -/
def Chan.shape (c : Chan) (n : Nat) : ShapeSet := vget {} c.shapes n

/-! ### Malformed records (R127) -/

/-- The places that a record's source or destination may name, by its first address; `beyond` is no place, and an access there faults naming the
address (R61). -/
inductive RecPlace where
  | main | spad | acc | window | other | beyond
deriving DecidableEq, Repr, Inhabited

/-- The place of an address of a record. -/
def recPlace (va : Nat) : RecPlace :=
  if untranslated va then
    match spaceOf va with
    | .spad .. => .spad
    | .acc .. => .acc
    | .host _ | .peer .. => .window
    | _ => .other
  else if translated va then .main else if 2 ^ 56 ≤ va then .beyond else .other

/-- A place that a record may read. -/
def RecPlace.readable : RecPlace → Bool
  | .main | .spad | .acc => true
  | _ => false

/-- A source or destination of a record lies wholly where `ok` says it may: every 64-byte block of `n` bytes from its address up, or every element
that its shape set gives it, of `2 ^ elog` bytes (R127). An address at or above 2^56 is left to the access, which faults naming it (R61). -/
def placedOk (ok : RecPlace → Bool) (base : Word64) (n elog : Nat) : Option ShapeSet → Bool
  | some t => (List.range (n / 2 ^ elog)).all fun i =>
    (t.nth base i).toNat % 2 ^ elog == 0 && (let p := recPlace (t.nth base i).toNat; ok p || p == .beyond)
  | none => (List.range ((n + 63) / 64)).all fun i => let p := recPlace (base.toNat + 64 * i); ok p || p == .beyond

/-- The slots that an operand fill names. -/
def recSlots (ws : List Word64) : List Nat := (List.range (recLen ws / 2048)).map ((recDst ws).toNat + ·)

/-- A must-be-0 field of a record is not 0, LEN is 0, or a field has a reserved value. R125 gives SECT the values 0 to 10 and R124 gives KCORE those
up to 1,535, and R127 does not name the others: that they make a record malformed is the model's choice (log entry 89). R127 takes no kind out of
'LEN is 0': a re-stripe to geometry 0 is malformed (log entry 90). -/
def recFieldsBad (ws : List Word64) : Bool :=
  let w (n : Nat) : Word64 := ws.getD n 0
  bits (w 0) 4 0 != 0 || bits (w 1) 62 57 != 0 || bits (w 1) 46 44 != 0 || bits (w 1) 31 18 != 0 || bits (w 1) 15 12 != 0 ||
    bits (w 1) 7 4 != 0 || bits (w 4) 63 32 != 0 || bits (w 5) 1 0 != 0 || (!bit (w 5) 63 && w 5 != 0) || w 7 != 0 ||
    decide (5 < recKind ws) || recAddt ws == 3 || decide (10 < bits (w 1) 11 8) ||
    (bit (w 5) 63 && decide (1535 < bits (w 5) 62 52)) ||
    recLen ws == 0 || (recKind ws == 4 && bits (w 4) 31 8 != 0)

/-- LEN, shapes, alignment and places break R126 and R127. A shaped operand fill may have any LEN that is a multiple of 2,048: elements beyond the
shape's count begin again with its first, which the manual does not say (log entry 88). An element has the source set's size; that a destination set
of another size makes a record malformed only where it places an element unaligned is the model's choice (log entry 105). -/
def recShapeBad (c : Chan) (ws : List Word64) : Bool :=
  let len := recLen ws
  let src := (recSrc ws).toNat
  let dst := (recDst ws).toNat
  let sset := c.shape (recSset ws)
  let dset := c.shape (recDset ws)
  let shapesBad := (recSsen ws && (sset.bad || src % 2 ^ sset.elog != 0)) || (recDsen ws && (dset.bad || dst % 2 ^ dset.elog != 0))
  let blocksBad := len % 64 != 0 || recSsen ws || recDsen ws || src % 64 != 0 || dst % 64 != 0
  let srcOk := placedOk RecPlace.readable (recSrc ws) len sset.elog (if recSsen ws then some sset else none)
  let dstOk (ok : RecPlace → Bool) := placedOk ok (recDst ws) len sset.elog (if recDsen ws then some dset else none)
  match recKind ws with
  | 0 => blocksBad || !srcOk || !dstOk RecPlace.readable
  | 1 => blocksBad || !srcOk || !dstOk (· == .acc)
  | 2 => len % 2048 != 0 || recDsen ws || shapesBad || !(recSsen ws || src % 64 == 0) || !srcOk
  | 3 => !recSsen ws || shapesBad || len != sset.count * 2 ^ sset.elog || (!recDsen ws && dst % 64 != 0) || !srcOk ||
      !dstOk RecPlace.readable
  | 4 => recSsen ws || recDsen ws
  | _ => blocksBad || !srcOk || !dstOk (· == .window)

/-- An operand fill names a slot above 127, or one that no context of the core holds. -/
def Core.recSlotsBad (c : Core) (ws : List Word64) : Bool :=
  recKind ws == 2 && (recSlots ws).any fun n => decide (127 < n) || !c.heldByCtx n

/-! ### Stops of a channel -/

/-- A fault of a channel (R374). -/
def chanFault {α : Type} (s : State) (g c code : Nat) (w2 w3 w4 : Word64) : Except State α :=
  .error (s.raise { code, w2, w3, w4, agent := 1, agentNo := c, src := .chan g c })

/-- A protection fault that names the channel's record. -/
def recFault {α : Type} (s : State) (g c : Nat) : Except State α := chanFault s g c cProt (w64 (s.chan g c).record) 0 0

/-- A channel misses the TLB: a walk begins (R74). -/
def State.chanMiss (s : State) (g c va cls : Nat) : State := s.modChan g c fun k => { k with walk := some (w64 va, cls), walkAt := s.cycle }

/-- The place of `size` bytes that a channel reads or writes: reach, translation, permission (R67, R74, R126, R169). A channel
that misses waits for a walk without freezing a core. -/
def chanLoc (s : State) (g c va size : Nat) (wr : Bool) : Except State Loc := do
  if untranslated va then
    match spaceOf va with
    | .spad _ off => if latchBase < off + size then chanFault s g c cProt (w64 va) 0 0
    | .acc .. => pure ()
    | _ => chanFault s g c cProt (w64 va) 0 0
  match s.xlat (clusterOf g) va with
  | .barred => chanFault s g c cProt (w64 va) 0 0
  | .walk => .error (s.chanMiss g c va (if wr then 4 else 3))
  | .loc l =>
    if !l.permits (if wr then .write else .read) || (wr && l.space == .main && l.kind != 0) then
      chanFault s g c cProt (w64 va) 0 0
    else match l.space with
      | .acc h off => if s.owned h (off / tileBytes) then .error s else .ok l
      | _ => .ok l

/-- The record that a channel reaches: on a plain page of main memory that may be read, or in the own scratchpad (R123). -/
def recLoc (s : State) (g c : Nat) : Except State Loc := do
  let va := (s.chan g c).record
  if va % 64 ≠ 0 || (untranslated va && !reachOwn.allows g 64 (spaceOf va)) then recFault s g c
  match s.xlat (clusterOf g) va with
  | .barred => recFault s g c
  | .walk => .error (s.chanMiss g c va 3)
  | .loc l => if (l.space == .main && l.kind != 0) || !l.rd then recFault s g c else .ok l

/-! ### Sectors that have issued their writes (R131) -/

/-- The low `n` bytes of two numbers, those that a mask names from the first. -/
def mergeBytes (a b : Nat) (mask : Word64) : Nat → Nat
  | 0 => 0
  | n + 1 => (if mask.getLsbD 0 then a else b) % 256 + 256 * mergeBytes (a / 256) (b / 256) (mask >>> 1) n

/-- The descriptor of a partly written block, unless the block is poisoned. -/
def State.putBlockDesc (s : State) (keys : List Nat) (d : Desc) : State :=
  keys.foldl (fun s key => if isPoison (s.descAt key) then s else
    if isPoison d then s.writeBlock1 (key / 64 * 64) ⟨0, poisonDesc⟩ else { s with desc := putDesc s.desc (key / 64) d }) s

/-- Bytes of a sector written with their descriptor: accumulator cells by their bytes alone; a whole block; or part of a block (R57, R58, R137). A
poisoned block of a copy or gather leaves marked cells of zeros and raises no fault: R132 states what poison does for an add-copy alone (R126, R178;
DESIGN CHOICE: log entry 137). -/
def State.putFlight (s : State) (f : Flight) : State :=
  let key := f.keys.headD 0
  if f.acc then
    if isPoison f.desc then
      let s := s.writeCells key f.n 0
      { s with poisoned := s.poisoned ++ (cellsOf key f.n).filter fun c => !s.poisoned.contains c }
    else s.writeCells key f.n f.val
  else if f.n = 64 then s.writeBlock f.keys ⟨BitVec.ofNat 512 f.val, f.desc⟩
  else if isPoison f.desc then s.writeBlock (f.keys.map fun key => key / 64 * 64) ⟨0, poisonDesc⟩
  else (s.writePart f.keys f.n f.val).putBlockDesc f.keys f.desc

/-- A byte that another agent writes while the sector is under way ends with either value, byte by byte (R131): of the bytes in flight a free
choice is written at once, and none where the writer or the place is poisoned. -/
def State.putEarly (s : State) (f : Flight) : Flight × State :=
  if isPoison f.desc || (f.acc && (cellsOf (f.keys.headD 0) f.n).any s.poisoned.contains) ||
      (!f.acc && f.keys.any fun key => isPoison (s.descAt key)) then (f, s)
  else
    let (n, s) := s.takeFree
    let mask := Config.openWord n
    ({ f with early := mask }, { s with
      mem := f.keys.foldl (fun m key => putBytes m key f.n (mergeBytes f.val (getBytes m key f.n) mask f.n)) s.mem })

/-- The rest of the bytes in flight is written: those written early keep what the place holds now, which another agent may have written since. -/
def State.putLate (s : State) (f : Flight) : State :=
  if !f.acc && f.keys.any fun key => isPoison (s.descAt key) then s.putFlight f
  else s.putFlight { f with val := mergeBytes (getBytes s.mem (f.keys.headD 0) f.n) f.val f.early f.n }

/-- The sector of a channel issues its writes. -/
def State.takeOff (s : State) (g c : Nat) (fs : List Flight) : State :=
  let (s, fs) := fs.foldl (fun ((s, l) : State × List Flight) f => let (f, s) := s.putEarly f; (s, l ++ [f])) (s, [])
  s.modChan g c fun k => { k with flight := fs }

/-- The bytes that a record covers: LEN, or the page of a re-stripe. -/
def State.recBytes (s : State) (c : Chan) (ws : List Word64) : Nat :=
  if recKind ws = 4 then
    match c.restripe.bind fun va => s.migrations.find? fun m => m.va == va with
    | some m => levelSpan m.level
    | none => 0
  else recLen ws

/-- Sectors of a record. -/
def State.recSectors (s : State) (c : Chan) (ws : List Word64) : Nat :=
  (s.recBytes c ws + recSector ws - 1) / recSector ws

/-! ### Watermarks (R130) -/

/-- The end of a watch range; one that wraps ends at 2^64 - 1 (R141). -/
def Chan.watchEnd (c : Chan) : Nat := min (c.wbase + c.wlen) (2 ^ 64 - 1)

/-- The watermark moved over the ranges written, as far as they join on. -/
def advanceMark (ranges : List (Nat × Nat)) (stop m : Nat) : Nat → Nat
  | 0 => m
  | n + 1 => match ranges.find? fun r => r.1 ≤ m && m < r.2 with
    | some r => advanceMark ranges stop (min r.2 stop) n
    | none => m

/-- Ranges of bytes written by a channel: the watermark moves over the contiguous prefix of the watch range. -/
def Chan.wrote (c : Chan) (rs : List (Nat × Nat)) : Chan :=
  let all := (c.written ++ rs).filter fun r => c.wmk < r.2 && r.1 < c.watchEnd
  let m := advanceMark all c.watchEnd c.wmk (all.length + 1)
  { c with wmk := if c.wlen = 0 then c.wmk else m, written := all.filter fun r => m < r.2 }

/-- The bytes of a sector: offset in the record and length. -/
def State.sectorSpan (s : State) (k : Chan) : Nat × Nat :=
  let ws := k.words.getD []
  let lo := k.sector * recSector ws
  (lo, min (recSector ws) (s.recBytes k ws - lo))

/-- The ranges of bytes that the channel's sector writes at its destination. A re-stripe writes its page at a physical address, which R130 does not
place in a watch range: it moves no watermark (DESIGN CHOICE: log entry 112). -/
def State.sectorRanges (s : State) (k : Chan) : List (Nat × Nat) :=
  let ws := k.words.getD []
  let (lo, len) := s.sectorSpan k
  if recKind ws = 2 || recKind ws = 4 then []
  else if recKind ws = 3 && recDsen ws then
    let e := 2 ^ (k.shape (recSset ws)).elog
    (List.range (len / e)).map fun i =>
      let va := ((k.shape (recDset ws)).nth (recDst ws) (lo / e + i)).toNat
      (va, va + e)
  else [((recDst ws).toNat + lo, (recDst ws).toNat + lo + len)]

/-- The sector of a channel has completed: the watermark moves, and the next sector is its successor (R128, R130). -/
def State.sectorDone (s : State) (g c : Nat) : State :=
  let rs := s.sectorRanges (s.chan g c)
  s.modChan g c fun k => { k.wrote rs with sector := k.sector + 1 }

/-- Bytes in flight to cells of a tile that an in-flight operation owns: they wait (R259). -/
def State.flightOwned (s : State) (f : Flight) : Bool :=
  f.acc && (match spaceOf (f.keys.headD 0) with | .acc g off => s.owned g (off / tileBytes) | _ => false)

/-- The bytes in flight of a channel's sector are written, but for those to cells of an owned tile; when every byte of it has been written, the sector
completes (R131, R259). -/
def State.endFlight (s : State) (g c : Nat) : State :=
  let k := s.chan g c
  if k.flight.isEmpty then s
  else
    let held := k.flight.filter s.flightOwned
    let t := (k.flight.filter fun f => !s.flightOwned f).foldl State.putLate s
    (if held.isEmpty then t.sectorDone g c else t).modChan g c fun k => { k with flight := held }

/-- Every sector in flight completes: the bytes of an issued sector are written before a page changes its placement, at the shutter and at a save
(R86, R139, R380). -/
def State.landFlights (s : State) : State :=
  s.cores.foldl (fun s (e : Nat × Core) => (List.range 4).foldl (fun s c => s.endFlight e.1 c) s) s

/-! ### Re-striping: the start (R83) -/

/-- Pages that may be in migration at once. -/
def migrationMax : Nat := 16

/-- The page that a re-stripe moves: its leaf, level and the entry's own address. The page must let itself be read (R67, R126). The manual does
not say what a re-stripe does that names an invalid geometry, or a page beyond main memory or beyond the placement's reach: it is taken as
malformed, with the protection fault that names the record (log entry 91). -/
def restripePage (s : State) (g c : Nat) (ws : List Word64) : Except State (Word64 × Nat × Nat) := do
  let va := (recSrc ws).toNat
  if 2 ^ 56 ≤ va then chanFault s g c cProt (w64 va) 0 0
  if !translated va then recFault s g c
  match s.walk va with
  | .leaf e level pa =>
    if !bit e 4 then chanFault s g c cProt (w64 va) 0 0
    let geo := s.geoWord (recLen ws % 256)
    let dst := (recDst ws).toNat
    if va % levelSpan level ≠ 0 || dst % levelSpan level ≠ 0 || mainSize < dst + levelSpan level || !geoValid geo ||
        geoReach geo < dst + levelSpan level then recFault s g c
    else .ok (e, level, pa)
  | .invalid .. | .malformed _ => .error (s.chanMiss g c va 3)

/-- The channel that a migration belongs to has left it: a cancelled re-stripe may be resumed on any channel (R128). -/
def State.migrationLeft (s : State) (m : Migration) : Bool :=
  let k := s.chan m.g m.chan
  !((k.st == .walking || k.st == .pageWait) && k.restripe == some m.va)

/-- The PTE writes and the drops of a re-stripe may be made: by the engine, or by the host where the function modes select host-assisted
re-striping (R87, R405). The manual names no device register for them: they are the same events, and wait while the host does not reach the device
(log entry 99). -/
def State.moverReaches (s : State) : Bool := !s.hostDoes 5 || s.hostReaches

/-- A re-stripe begins, or goes on after a cancellation: the entry is tagged, and the page's TLB entries are dropped. It waits
while the table is full, another record moves the page, or the host that tags the entry does not reach the device. A record that takes up a page which
a cancelled record has left migrating goes on to that record's placement, whatever its own DST and geometry (DESIGN CHOICE: log entry 113). -/
def beginRestripe (s : State) (g c : Nat) (ws : List Word64) : Except State State := do
  let (e, level, pa) ← restripePage s g c ws
  let va := (recSrc ws).toNat
  let mark (s : State) : State := s.modChan g c fun k => { k with restripe := some va, waitsPage := false }
  match s.migrations.find? fun m => m.va == va with
  | some m =>
    if s.migrationLeft m then
      .ok (mark { s with migrations := s.migrations.map fun n => if n.va == va then { n with g, chan := c } else n })
    else .error s
  | none =>
    if migrationMax ≤ s.migrations.length || !s.moverReaches then .error s
    else
      let m : Migration := ⟨va, level, pa, e, (recDst ws).toNat, recLen ws % 256, false, 0, false, g, c⟩
      let s := s.landFlights.writePhys pa 8 (e.toNat % 2 ^ 62 + 2 ^ 62)
      .ok (mark ({ s with migrations := s.migrations ++ [m] }.tlbDrop va))

/-! ### CHANNEL_RECORD_READ -/

/-- A channel reaches a record: not owned, it parks; malformed, the launch ends; else STATUS becomes 0x01 and the sectors begin, at
PROG for a record that was cancelled (R122, R127, R128). A re-stripe that has been read may still wait for its page. -/
def readRecord (s : State) (g c : Nat) : Except State State := do
  let l ← recLoc s g c
  let k := s.chan g c
  let ws := s.blockWords l.key
  if !bit (ws.getD 0 0) 5 then .ok (s.setChan g c { k with st := .parked })
  else
    if !l.wr || recFieldsBad ws || recShapeBad k ws || (s.core g).recSlotsBad ws then recFault s g c
    let first := if recStatus ws = 3 then recProg ws else 0
    let s := (s.putRecord g k.record 6 (first * 2 ^ 32 + 1)).modChan g c fun k => { k with
      words := some ws, sector := first, sent := first, saved := false, waitsPage := recKind ws == 4,
      agreed := if first = 0 then [] else mget [] s.halted k.record }
    if recKind ws = 4 then beginRestripe s g c ws else .ok s

/-- A channel's events may happen: it walks, no walk of the translation unit is under way for it, and no knock of its last record. -/
def Chan.active (c : Chan) : Bool := c.st == .walking && c.walk.isNone && c.sending.isNone

/-- The state that a channel's work leaves. -/
def chanNext (r : Except State State) : Out :=
  match r with
  | .ok s => .next s
  | .error s => .next s

/-- CHANNEL_RECORD_READ. -/
def execChannelRecordRead (g c : Nat) (s : State) : Out :=
  let k := s.chan g c
  if !k.active then .next s
  else match k.words with
    | none => chanNext (readRecord s g c)
    | some ws => if k.waitsPage then chanNext (beginRestripe s g c ws) else .next s

/-! ### Sources and destinations of a sector -/

/-- A source block, read through on a frame; or the fault: the address that is read, `named`, where no extent holds it (R416). -/
def sourceBlock (s : State) (g c : Nat) (l : Loc) (va named : Nat) : Except State VVal :=
  match l.space with
  | .acc .. => .ok ⟨BitVec.ofNat 512 (getBytes s.mem l.key 64),
      if (cellsOf l.key 64).any s.poisoned.contains then poisonDesc else 0⟩
  | _ => match s.blockAt l va with
    | .ok v _ => .ok v
    | .noExtent => chanFault s g c cProt (w64 named) 0 0
    | .badFormat d => chanFault s g c cDesc (w64 va) (d.setWidth 64) 0

/-- The locations of `n` blocks from an address up. -/
def blockLocs (s : State) (g c va : Nat) (wr : Bool) : Nat → Except State (List (Nat × Loc))
  | 0 => .ok []
  | n + 1 => do
    let l ← chanLoc s g c va 64 wr
    let ls ← blockLocs s g c (va + 64) wr n
    .ok ((va, l) :: ls)

/-- The blocks at locations. -/
def sourceBlocks (s : State) (g c : Nat) : List (Nat × Loc) → Except State (List VVal)
  | [] => .ok []
  | (va, l) :: ls => do
    let v ← sourceBlock s g c l va va
    let vs ← sourceBlocks s g c ls
    .ok (v :: vs)

/-- The locations of elements at addresses. -/
def elemLocs (s : State) (g c e : Nat) (wr : Bool) : List Word64 → Except State (List (Nat × Loc))
  | [] => .ok []
  | va :: vas => do
    let l ← chanLoc s g c va.toNat e wr
    let ls ← elemLocs s g c e wr vas
    .ok ((va.toNat, l) :: ls)

/-- Elements at locations: the bits, and the descriptor of the block that holds each. -/
def sourceElems (s : State) (g c e : Nat) : List (Nat × Loc) → Except State (List (Nat × Desc))
  | [] => .ok []
  | (va, l) :: ls => do
    let b ← sourceBlock s g c { l with key := l.key - va % 64 } (va / 64 * 64) va
    let rest ← sourceElems s g c e ls
    .ok ((bytesOf b.data (va % 64) e, b.desc) :: rest)

/-- The write of `n` bytes by a channel at a place. -/
def Loc.flight (l : Loc) (n val : Nat) (desc : Desc) : Flight :=
  match l.space with
  | .acc .. => { acc := true, keys := [l.key], n, val, desc }
  | _ => { acc := false, keys := l.wkeys, n, val, desc }

/-- Descriptors that agree: the untyped matches any, and so does poison (R137). -/
def agreeing : List Desc → Desc → Except Desc Desc
  | [], d => .ok d
  | x :: xs, d =>
    if descFmt x = 0 || isPoison x then agreeing xs d
    else if descFmt d = 0 || x = d then agreeing xs x
    else .error x

/-- The descriptor that source blocks give a destination: the common one, untyped blocks and poison aside, and whether one of them
is poisoned; or the descriptor that differs. `old` is what earlier blocks have given. -/
def feedDesc (ds : List Desc) (old : Desc × Bool) : Except Desc (Desc × Bool) :=
  match agreeing ds old.1 with
  | .error d => .error d
  | .ok d => .ok (d, old.2 || ds.any isPoison)

/-- The descriptor that is written. -/
def fedDesc (f : Desc × Bool) : Desc := if f.2 then poisonDesc else f.1

/-! ### One sector of each kind (R126, R128) -/

/-- The sector of a copy. -/
def copySector (s : State) (g c : Nat) : Except State State := do
  let k := s.chan g c
  let ws := k.words.getD []
  let (lo, len) := s.sectorSpan k
  let src ← blockLocs s g c ((recSrc ws).toNat + lo) false (len / 64)
  let dst ← blockLocs s g c ((recDst ws).toNat + lo) true (len / 64)
  let vs ← sourceBlocks s g c src
  .ok (s.takeOff g c ((dst.zip vs).map fun ((_, l), v) => l.flight 64 v.data.toNat v.desc))

/-- A source descriptor that ADDT allows (R132). The additions are those of AWR.ADD, so an INT64 block has scale 0 (R194; log entry 106). -/
def addDescOk (addt : Nat) (d : Desc) : Bool :=
  isPoison d || descFmt d == 0 || (addt == 0 && d == mkDesc 10 0) || (addt == 1 && descFmt d == 1)

/-- The new contents of a cell of an add-copy. -/
def addCell (addt old : Nat) (v : VVal) (i : Nat) : Nat :=
  match addt with
  | 0 => (old + laneOf 64 v.data i) % 2 ^ 64
  | 1 => (roundF fp64 0 false (fAdd 0 (decodeF fp64 old) (laneNum 1 v i)).1).1
  | _ => (roundF fpE 0 false (fAdd 0 (decodeF fpE old) (decodeF fpE (laneOf 64 v.data i))).1).1

/-- One block of an add-copy. -/
def addBlock (s : State) (g c addt va : Nat) (l : Loc) (v : VVal) : Except State State :=
  if !addDescOk addt v.desc then chanFault s g c cDesc (w64 va) (v.desc.setWidth 64) 0
  else if isPoison v.desc then
    chanFault { s with poisoned := s.poisoned ++ (cellsOf l.key 64).filter (fun p => !s.poisoned.contains p) } g c cEcc
      (w64 l.key) 0 0
  else match (cellsOf l.key 64).find? s.poisoned.contains with
    | some p => chanFault s g c cEcc (w64 p) 0 0
    | none =>
      let old := getBytes s.mem l.key 64
      .ok (s.writeCells l.key 64 (joinLanes 64 ((List.range 8).map fun i => addCell addt (old / 2 ^ (64 * i) % 2 ^ 64) v i)))

/-- The blocks of an add-copy, one after the other. -/
def addBlocks (s : State) (g c addt : Nat) : List (Nat × Loc × VVal) → Except State State
  | [] => .ok s
  | (va, l, v) :: rest => do
    let s ← addBlock s g c addt va l v
    addBlocks s g c addt rest

/-- The sector of an add-copy. -/
def addSector (s : State) (g c : Nat) : Except State State := do
  let k := s.chan g c
  let ws := k.words.getD []
  let (lo, len) := s.sectorSpan k
  let src ← blockLocs s g c ((recSrc ws).toNat + lo) false (len / 64)
  let dst ← blockLocs s g c ((recDst ws).toNat + lo) true (len / 64)
  let vs ← sourceBlocks s g c src
  let s ← addBlocks s g c (recAddt ws) ((src.zip (dst.zip vs)).map fun ((va, _), ((_, l), v)) => (va, l, v))
  .ok (s.sectorDone g c)

/-- The bytes that a sector takes from its source: contiguous blocks, or elements of a shape set. Each 64-byte block of the
result has its bytes and the descriptors of the source blocks that feed it. -/
def sectorSource (s : State) (g c : Nat) : Except State (List (Nat × List Desc)) := do
  let k := s.chan g c
  let ws := k.words.getD []
  let (lo, len) := s.sectorSpan k
  if recSsen ws then
    let t := k.shape (recSset ws)
    let e := 2 ^ t.elog
    let ls ← elemLocs s g c e false ((List.range (len / e)).map fun i => t.nth (recSrc ws) (lo / e + i))
    let es ← sourceElems s g c e ls
    .ok ((List.range ((len + 63) / 64)).map fun b =>
      let mine := (es.drop (b * (64 / e))).take (64 / e)
      (joinLanes (8 * e) (mine.map (·.1)), mine.map (·.2)))
  else
    let ls ← blockLocs s g c ((recSrc ws).toNat + lo) false (len / 64)
    let vs ← sourceBlocks s g c ls
    .ok (vs.map fun v => (v.data.toNat, [v.desc]))

/-- What has been agreed so far, from its number: the descriptor, and poison in bit 16. -/
def agreedOf (v : Nat) : Desc × Bool := (BitVec.ofNat 16 v, v.testBit 16)
/-- The number of what has been agreed. -/
def agreedNo (f : Desc × Bool) : Nat := f.1.toNat + flag f.2 16

/-- Block b of a slot's data replaced; blocks before it that the slot does not hold are zero. -/
def putAt (l : List Block) (b : Nat) (x : Block) : List Block := (List.range b).map (l.getD · 0) ++ x :: l.drop (b + 1)

/-- One block of an operand fill: block b of slot n takes bytes, and the slot its descriptor; it becomes ready with its last
block (R137, R179). -/
def fillBlock (s : State) (g c n b : Nat) (x : Nat × List Desc) : Except State State := do
  let o := (s.core g).slot n
  match feedDesc x.2 (if b = 0 then (0, false) else agreedOf o.agreed) with
  | .error d => chanFault s g c cDesc (w64 (s.chan g c).record) (d.setWidth 64) (w64 n)
  | .ok f =>
    let data := putAt (if b = 0 then [] else o.data) b (if x.2.any isPoison then 0 else BitVec.ofNat 512 x.1)
    let o := if b = 31 then { o with st := .ready, desc := fedDesc f, data := if f.2 then [] else data, agreed := 0 }
      else { o with st := .filling, data, agreed := agreedNo f }
    .ok (s.modCore g fun c => c.setSlot n o)

/-- The blocks of an operand fill from block number j on. -/
def fillBlocks (s : State) (g c first j : Nat) : List (Nat × List Desc) → Except State State
  | [] => .ok s
  | x :: xs => do
    let s ← fillBlock s g c (first + j / 32) (j % 32) x
    fillBlocks s g c first (j + 1) xs

/-- The slots that a channel's sector fills. -/
def State.sectorSlots (s : State) (k : Chan) : List Nat :=
  let (lo, len) := s.sectorSpan k
  ((List.range (len / 64)).map fun i => (recDst (k.words.getD [])).toNat + (lo / 64 + i) / 32).dedup

/-- The sector of an operand fill. A slot whose fill begins in it must be idle, or the channel waits (R180). A slot that has been freed since the
record was read leaves the free state by OCLAIM alone (R179): the record then names a slot that no context holds (R127; DEDUCED: log entry 114).
-/
def fillSector (s : State) (g c : Nat) : Except State State := do
  let k := s.chan g c
  let ws := k.words.getD []
  let (lo, len) := s.sectorSpan k
  let first := (recDst ws).toNat
  let starts := ((List.range (len / 64)).filter fun i => (lo / 64 + i) % 32 == 0).map fun i => first + (lo / 64 + i) / 32
  if (s.sectorSlots k).any fun n => !(s.core g).heldByCtx n then recFault s g c
  if starts.any fun n => !(s.core g).slotIdle n then .error s
  let xs ← sectorSource s g c
  let s ← fillBlocks s g c first (lo / 64) xs
  .ok (s.sectorDone g c)

/-- The writes of gathered blocks to a contiguous destination: whole blocks, but for the first bytes of one in which the record ends. -/
def gatherFlights (s : State) (g c rec left : Nat) : List ((Nat × Loc) × (Nat × List Desc)) → Except State (List Flight)
  | [] => .ok []
  | ((_, l), (v, ds)) :: rest =>
    match feedDesc ds (0, false) with
    | .error d => chanFault s g c cDesc (w64 rec) (d.setWidth 64) 0
    | .ok f => do
      let fs ← gatherFlights s g c rec (left - 64) rest
      .ok (l.flight (min 64 left) v (fedDesc f) :: fs)

/-- The writes of elements to the places that a shape set gives them, with the agreement of R137 in every block: what it is after them. -/
def scatterFlights (s : State) (g c rec e : Nat) (agreed : List (Nat × Nat)) :
    List ((Nat × Loc) × (Nat × Desc)) → Except State (List Flight × List (Nat × Nat))
  | [] => .ok ([], agreed)
  | ((va, l), (v, d)) :: rest =>
    match feedDesc [d] (agreedOf (mget 0 agreed (va / 64))) with
    | .error d => chanFault s g c cDesc (w64 rec) (d.setWidth 64) 0
    | .ok f => do
      let (fs, agreed) ← scatterFlights s g c rec e (mset agreed (va / 64) (agreedNo f)) rest
      .ok (l.flight e v (fedDesc f) :: fs, agreed)

/-- The sector of a shaped gather (R126, R137). -/
def gatherSector (s : State) (g c : Nat) : Except State State := do
  let k := s.chan g c
  let ws := k.words.getD []
  let (lo, len) := s.sectorSpan k
  let dst := (recDst ws).toNat
  if recDsen ws then
    let t := k.shape (recSset ws)
    let u := k.shape (recDset ws)
    let e := 2 ^ t.elog
    let at_ := (List.range (len / e)).map (lo / e + ·)
    let src ← elemLocs s g c e false (at_.map (t.nth (recSrc ws)))
    let places ← elemLocs s g c e true (at_.map (u.nth (recDst ws)))
    let es ← sourceElems s g c e src
    let (fs, agreed) ← scatterFlights s g c k.record e k.agreed (places.zip es)
    .ok ((s.takeOff g c fs).modChan g c fun k => { k with agreed })
  else
    let xs ← sectorSource s g c
    let places ← blockLocs s g c (dst + lo) true ((len + 63) / 64)
    let fs ← gatherFlights s g c k.record len (places.zip xs)
    .ok (s.takeOff g c fs)

/-- One block of a page copied to its new placement; poison is copied as poison (R84, R85). -/
def State.moveBlock (s : State) (m : Migration) (off : Nat) : State :=
  let old := s.paKey (leafGeo m.oldEntry) (leafPa m.oldEntry + off)
  s.writeBlock1 (s.paKey m.newGeo (m.newPa + off)) (s.readBlock old)

/-- The sector of a re-stripe. -/
def restripeSector (s : State) (g c : Nat) : Except State State :=
  let k := s.chan g c
  let (lo, len) := s.sectorSpan k
  match k.restripe.bind fun va => s.migrations.find? fun m => m.va == va with
  | none => .ok s
  | some m => .ok (((List.range (len / 64)).foldl (fun s i => s.moveBlock m (lo + 64 * i)) s).sectorDone g c)

/-- The write packets of blocks at a window offset, four blocks to a packet; `last` when the record ends with them. -/
def remotePackets (off : Nat) (last : Bool) : List VVal → Nat → List Packet
  | [], _ => []
  | _, 0 => []
  | vs, n + 1 =>
    let rest := vs.drop 4
    writePacket off (vs.take 4) (last && rest.isEmpty) :: remotePackets (off + 256) last rest n

/-- A port's fault of a record (R156). -/
def portFault {α : Type} (s : State) (g c rec q : Nat) : Except State α :=
  .error (s.raise { code := cProt, w2 := w64 rec, w3 := w64 q, agent := 5, agentNo := q, src := .chan g c })

/-- A packet of a channel's record. -/
def Origin.isChan (o : Origin) (g c : Nat) : Bool := match o with | .chan h d _ => h == g && d == c | _ => false

/-- A write packet of a channel's record whose first block lies in [lo, hi) of its window. -/
def OutPacket.carries (o : OutPacket) (g c lo hi : Nat) : Bool :=
  o.origin.isChan g c && o.p.ty == 1 && lo ≤ o.p.addr && o.p.addr < hi

/-- Blocks that lie one after the other in one window: its port, the first one's offset, and how many. -/
structure WindowRun where
  port : Nat
  off : Nat
  n : Nat
deriving DecidableEq, Repr, Inhabited

/-- A run that begins with a block, or the runs after it where they do not join on. -/
def WindowRun.before (q off : Nat) : List WindowRun → List WindowRun
  | r :: rs => if r.port = q && r.off = off + 64 then ⟨q, off, r.n + 1⟩ :: rs else ⟨q, off, 1⟩ :: r :: rs
  | [] => [⟨q, off, 1⟩]

/-- The runs of `n` blocks from an address up: at the end of a window the next one begins (R148). -/
def windowRuns (va : Nat) : Nat → List WindowRun
  | 0 => []
  | n + 1 => match windowPort (spaceOf va) with
    | some (q, off) => WindowRun.before q off (windowRuns (va + 64) n)
    | none => windowRuns (va + 64) n

/-- The runs of sector n of a remote copy. -/
def remoteRuns (ws : List Word64) (n : Nat) : List WindowRun :=
  let lo := n * recSector ws
  windowRuns ((recDst ws).toNat + lo) (min (recSector ws) (recLen ws - lo) / 64)

/-- The packets of blocks given to the ports of their runs. -/
def State.sendRuns (s : State) (o : Origin) (last : Bool) (vs : List VVal) : List WindowRun → State
  | [] => s
  | r :: rs =>
    let s := (remotePackets r.off (last && rs.isEmpty) (vs.take r.n) r.n).foldl (fun s p => s.enqueue r.port ⟨p, o, false⟩) s
    s.sendRuns o last (vs.drop r.n) rs

/-- The first of `n` blocks from an address up that lies at or above 2^56 (R61). -/
def firstBeyond (va n : Nat) : Option Nat := ((List.range n).map fun i => va + 64 * i).find? fun a => decide (2 ^ 56 ≤ a)

/-- The packets of sector n of a remote copy are given to the port (R157, R159, R415). -/
def remoteSend (s : State) (g c n : Nat) : Except State State := do
  let k := s.chan g c
  let ws := k.words.getD []
  let lo := n * recSector ws
  let len := min (recSector ws) (recLen ws - lo)
  match firstBeyond ((recDst ws).toNat + lo) (len / 64) with
  | some va => chanFault s g c cProt (w64 va) 0 0
  | none => pure ()
  let runs := remoteRuns ws n
  match runs.find? fun r => s.portDown r.port with
  | some r => portFault s g c k.record r.port
  | none =>
    let src ← blockLocs s g c ((recSrc ws).toNat + lo) false (len / 64)
    let vs ← sourceBlocks s g c src
    let vs := vs.map fun v => if isPoison v.desc then ⟨0, poisonDesc⟩ else v
    .ok ((s.sendRuns (.chan g c k.record) (lo + len == recLen ws) vs runs).modChan g c fun k => { k with sent := n + 1 })

/-- A packet with bytes of a run waits to be sent or acknowledged. -/
def State.runOutstanding (s : State) (g c : Nat) (r : WindowRun) : Bool :=
  let p := s.port r.port
  (p.sendq.any fun o => o.carries g c r.off (r.off + 64 * r.n)) || p.unacked.any fun e => e.2.carries g c r.off (r.off + 64 * r.n)

/-- The sector of a remote copy is complete: the far end has acknowledged every packet with its bytes (R415). -/
def State.remoteAcked (s : State) (g c : Nat) : Bool :=
  let k := s.chan g c
  recKind (k.words.getD []) == 5 && decide (k.sector < k.sent) &&
    (remoteRuns (k.words.getD []) k.sector).all fun r => !s.runOutstanding g c r

/-- A remote copy's oldest sector under way has completed; a channel in page-wait says so in w6 (R128). -/
def State.remoteDone (s : State) (g c : Nat) : State :=
  let s := s.sectorDone g c
  if (s.chan g c).st == .pageWait then s.chanProgress g c else s

/-! ### Knocks (R138) -/

/-- Knocks that a core's queue holds. -/
def knockMax : Nat := 8

/-- A knock joins the queue of its core; a ninth ends the launch. -/
def State.queueKnock (s : State) (g : Nat) (k : Knock) : State :=
  if (s.core g).knocks.length < knockMax then s.modCore g fun c => { c with knocks := c.knocks ++ [k] }
  else s.raise { code := cKnock, gcore := g, w2 := w64 g, w3 := w64 (k.kpc * 4), w4 := w64 k.karg }

/-- A knock reaches a core: it starts the lowest-numbered armed dormant context, or joins the queue. -/
def State.deliverKnock (s : State) (g : Nat) (k : Knock) : State :=
  match (s.core g).armedCtx with
  | some x => if s.preempting then s.queueKnock g k else s.startByKnock g x k
  | none => s.queueKnock g k

/-- A channel goes on to its next record, or its chain ends (R129). -/
def Chan.goOn (c : Chan) : Chan :=
  { c with sending := none, st := if c.next = 0 then .idle else c.st, record := if c.next = 0 then c.record else c.next }

/-- The channel that waits for a knock to be delivered, the first of them, goes on. -/
def Core.knockSent (c : Core) (k : Nat × Knock) : Option Core :=
  ((List.range 4).find? fun n => (c.chan n).sending == some k).map fun n => c.setChan n (c.chan n).goOn

/-- Of the cores in order, the first with a channel that waits for a knock. -/
def knockSent (k : Nat × Knock) : List (Nat × Core) → List (Nat × Core)
  | [] => []
  | (g, c) :: cs => match c.knockSent k with
    | some c => (g, c) :: cs
    | none => (g, c) :: knockSent k cs

/-- A knock that a record of this device sent reaches its core, and the channel of the record goes on. -/
def State.ownKnock (s : State) (g : Nat) (k : Knock) : State :=
  if s.knocksOut.contains (g, k) then
    ({ s with knocksOut := s.knocksOut.erase (g, k), cores := knockSent (g, k) s.cores }).deliverKnock g k
  else s

/-! ### Cancellation (R128, R144, R380) -/

/-- A channel walks or waits for a page. -/
def Chan.busy (c : Chan) : Bool := c.st == .walking || c.st == .pageWait

/-- Sectors whose accesses have been issued have not all completed. -/
def Chan.underWay (c : Chan) : Bool := !c.flight.isEmpty || (recKind (c.words.getD []) == 5 && decide (c.sector < c.sent))

/-- A channel's deferred request for leave is withdrawn (R404). -/
def State.dropAsk (s : State) (g c : Nat) : State :=
  s.modCluster (clusterOf g) fun k => { k with asks := k.asks.filter fun (a : LeaveAsk) => a != .burst g c }

/-- A channel waits no longer for any fault of its cluster, nor is it released by one (R122, R144). -/
def State.leaveFaults (s : State) (g c : Nat) : State :=
  let others (w : Who) : Bool := w != .chan g c
  s.modCluster (clusterOf g) fun k =>
    { k with
      faults := k.faults.map fun ((n, f) : Nat × PFault) => (n, { f with waiters := f.waiters.filter others }),
      released := k.released.filter others, blocked := k.blocked.filter fun e => others e.1 }

/-- The cancellation of a channel, every issued sector having completed: w6 says how far the record has come, and its agreement is kept for the
channel that resumes it. The page of the record may have gone: the channel then waits for it. It waits for no page that its walk lacked, but for
one that a save keeps (R144, R380). -/
def State.endCancel (s : State) (g c cause : Nat) (saved : Bool) : State :=
  let k := s.chan g c
  let s := if saved then s else s.leaveFaults g c
  let stop (s : State) : State :=
    ((if k.leave then s.dropLeave (clusterOf g) else s).dropAsk g c).modChan g c fun k => { k with
      st := .cancelled, words := none, walk := none, leave := false, leaveAsked := false, waitsPage := false, stopping := none, saved,
      fault := if saved then k.fault else none }
  if k.words.isNone then stop s
  else if (s.recordKeys g k.record).isEmpty then
    (s.modChan g c fun k => { k with st := .walking, stopping := some (cause, saved) }).recordGone g c
  else
    stop { s.putRecord g k.record 6 (k.sector * 2 ^ 32 + cause * 2 ^ 8 + 3) with halted := mset s.halted k.record k.agreed }

/-- A channel that walks or waits for a page is cancelled with a cause: it issues no further sector, and the sectors that it has issued complete
first, as does the knock of a record that has completed. -/
def State.cancelChan (s : State) (g c cause : Nat) (saved : Bool) : State :=
  let s := s.endFlight g c
  let s := match (s.chan g c).sending with | some (h, k) => s.ownKnock h k | none => s
  let k := s.chan g c
  if !k.busy then s
  else if k.underWay then s.modChan g c fun k => { k with stopping := some (cause, saved), walk := none }
  else s.endCancel g c cause saved

/-- A cancellation may end. -/
def Chan.mayStop (c : Chan) : Bool := c.stopping.isSome && c.busy && c.walk.isNone && !c.underWay

/-- LEN above which a record's first sector asks for leave (R355). -/
def burstBytes : Nat := 16384

/-- A record of an action that asks for leave before its first sector. -/
def needsBurst (ws : List Word64) : Bool := recKind ws != 4 && decide (burstBytes < recLen ws)

/-- The accesses of the next sector of a channel are issued, after the leave of a long record (R128, R355). -/
def sectorIssue (s : State) (g c : Nat) : Except State State := do
  let k := s.chan g c
  let ws := k.words.getD []
  let cl := clusterOf g
  if needsBurst ws && !k.leave && !s.leaveNow cl then
    if k.leaveAsked then .error s
    else .error ((s.setChan g c { k with leaveAsked := true }).deferLeave cl (.burst g c))
  else
    let s := if needsBurst ws && !k.leave then (s.holdLeave cl).setChan g c { k with leave := true } else s
    match recKind ws with
    | 0 => copySector s g c
    | 1 => addSector s g c
    | 2 => fillSector s g c
    | 3 => gatherSector s g c
    | 4 => restripeSector s g c
    | _ => remoteSend s g c k.sent

/-- A channel has a sector whose accesses may be issued. -/
def State.sectorWaits (s : State) (g c : Nat) : Bool :=
  let k := s.chan g c
  k.active && !k.waitsPage && k.stopping.isNone && (match k.words with
    | some ws => decide ((if recKind ws = 5 then k.sent else k.sector) < s.recSectors k ws)
    | none => false)

/-- A channel's work on its sectors may go on. -/
def State.sectorLeft (s : State) (g c : Nat) : Bool :=
  let k := s.chan g c
  !k.flight.isEmpty || (k.busy && s.remoteAcked g c) || k.mayStop || s.sectorWaits g c

/-- A channel's work on its sectors goes on: the sector under way completes, a cancellation ends, or the next sector is issued. -/
def sectorStep (s : State) (g c : Nat) : Except State State :=
  let k := s.chan g c
  if !k.flight.isEmpty then .ok (s.endFlight g c)
  else if k.busy && s.remoteAcked g c then .ok (s.remoteDone g c)
  else match k.stopping with
    | some (cause, saved) => .ok (if k.mayStop then s.endCancel g c cause saved else s)
    | none => if s.sectorWaits g c then sectorIssue s g c else .ok s

/-- SECTOR_COMPLETE. -/
def execSectorComplete (g c : Nat) (s : State) : Out :=
  if s.sectorLeft g c then chanNext (sectorStep s g c) else .next s

/-! ### Re-striping: cutover and stable (R83) -/

/-- The migration of a page, by its virtual address. -/
def State.migrationAt (s : State) (va : Nat) : Option Migration := s.migrations.find? fun m => m.va == va

/-- Replace a migration. -/
def State.setMigration (s : State) (m : Migration) : State :=
  { s with migrations := s.migrations.map fun n => if n.va == m.va then m else n }

/-- Every sector of a re-stripe's page has been copied. -/
def State.pageCopied (s : State) (m : Migration) : Bool :=
  let k := s.chan m.g m.chan
  k.st == .walking && k.restripe == some m.va && (match k.words with
    | some ws => decide (s.recSectors k ws ≤ k.sector)
    | none => false)

/-- The leaf of a page at its new placement with a state tag. -/
def movedEntry (m : Migration) (rs : Nat) : Nat :=
  let e := m.oldEntry.toNat
  rs * 2 ^ 62 + e / 2 ^ 56 % 2 ^ 6 * 2 ^ 56 + m.newGeo % 256 * 2 ^ 48 + m.newPa / 2 ^ 16 * 2 ^ 12 % 2 ^ 48 + e % 2 ^ 12

/-- RESTRIPE_CUTOVER: every write accepted before has completed at both placements. -/
def execRestripeCutover (page : Nat) (s : State) : Out :=
  match s.migrationAt page with
  | some m =>
    if !m.cutover && s.pageCopied m && s.moverReaches then
      .next ((s.landFlights.writePhys m.entryPa 8 (movedEntry m 2)).setMigration { m with cutover := true })
    else .next s
  | none => .next s

/-- A page of an extent table overlaps a page in migration. -/
def Extent.names (e : Extent) (m : Migration) : Bool := decide (e.va < m.va + levelSpan m.level) && decide (m.va < e.va + e.len)

/-- The extent table of a dispatched task or of a running collective names a page (R12, R163). A task whose extent table has not been built yet
names none: R76 calls it undispatched, R270 dispatched (DESIGN CHOICE: log entry 115). -/
def State.taskNames (s : State) (m : Migration) : Bool :=
  (s.clusters.any fun ((_, c) : Nat × Cluster) => c.tasks.toList.flatten.any fun t => t.built && (t.extents ++ t.home.toList).any fun e => e.names m) ||
  s.colls.any fun ((_, e) : Nat × CollEngine) => match e.running with
    | some j => j.built && j.extents.any fun e => e.names m
    | none => false

/-- RESTRIPE_STABLE: every TLB entry of the page is dropped, no dispatched task names it, and the entry loses its tag. -/
def execRestripeStable (page : Nat) (s : State) : Out :=
  match s.migrationAt page with
  | some m =>
    if m.cutover && !s.taskNames m && s.moverReaches then
      let s := (s.landFlights.tlbDrop m.va).writePhys m.entryPa 8 (movedEntry m 0)
      let s := { s with migrations := s.migrations.filter fun n => n.va != m.va }
      .next (s.modChan m.g m.chan fun k => if k.restripe = some m.va then { k with restripe := none } else k)
    else .next s
  | none => .next s

/-! ### Completion (R129) -/

/-- Every packet of a channel's record has been acknowledged. -/
def State.packetsDone (s : State) (g c : Nat) : Bool :=
  s.ports.all fun ((_, p) : Nat × Port) =>
    !(p.sendq.any fun o => o.origin.isChan g c) && !(p.unacked.any fun e => e.2.origin.isChan g c)

/-- Every sector of the record is done, and every write of it has completed. -/
def State.recordDone (s : State) (g c : Nat) : Bool :=
  let k := s.chan g c
  k.active && (match k.words with
    | some ws => k.flight.isEmpty && k.stopping.isNone && !k.waitsPage &&
        (if recKind ws = 4 then k.restripe.isNone else decide (s.recSectors k ws ≤ k.sector)) && s.packetsDone g c
    | none => false)

/-- The handle of the issuing context advances by one slot, as HADV advances it; the advance is discarded once that context has ended (R129, R182,
R358). -/
def advanceHandle (s : State) (g c x h : Nat) : Except State State :=
  let v := vget 0 (s.ctx g x).h h
  if (s.chan g c).orphan then .ok s
  else if !handleSet v then chanFault s g c cProt (w64 h) 0 0
  else match handleAdvance v true 1 with
    | some v' => .ok (s.modCtx g x fun k => { k with h := vset k.h h v' })
    | none => .ok (s.modCtx g x fun k => k.apply (.statOr stHover))

/-- An arrival by a channel, or the protection fault that names the latch. -/
def chanArrive (s : State) (g c n : Nat) : Except State State :=
  match s.latchAdd g n 1 with
  | some s => .ok s
  | none => chanFault s g c cProt (w64 (latchPa g n)) 0 0

/-- The knock of a record sets out: to a core of this device, for which the channel waits, or in a packet to the device that holds the destination
(R138, R159). -/
def sendKnock (s : State) (g c : Nat) (ws : List Word64) : Except State State :=
  let w := ws.getD 5 0
  if recKind ws = 5 then
    match windowPort (spaceOf (recDst ws).toNat) with
    | some (q, _) =>
      if s.portDown q then portFault s g c (s.chan g c).record q
      else .ok (s.enqueue q ⟨knockPacket w.toNat (recDst ws), .chan g c (s.chan g c).record, true⟩)
    | none => .ok s
  else
    let k : Nat × Knock := (bits w 62 52, ⟨bits w 31 2, bits w 51 32, recDst ws⟩)
    .ok ({ s with knocksOut := s.knocksOut ++ [k] }.modChan g c fun h => { h with sending := some k })

/-- The completion of a record, action after action; then the next record, or the end of the chain (R129). Where the page of the record has gone, the
channel waits for it first (R78). -/
def completeRecord (s : State) (g c : Nat) : Except State State := do
  let k := s.chan g c
  if (s.recordKeys g k.record).isEmpty then .error (s.recordGone g c)
  let ws := k.words.getD []
  let w1 := ws.getD 1 0
  let next := (ws.getD 0 0).toNat / 64 * 64
  let n := if recKind ws = 4 then k.sector else s.recSectors k ws
  let s := (s.putRecord g k.record 6 (n * 2 ^ 32 + 2)).putRecord g k.record 0 next
  let s ← (if bit w1 47 then advanceHandle s g c k.issuer (bits w1 43 40) else .ok s)
  let s ← (if bit w1 63 then chanArrive s g c (bits w1 56 48) else .ok s)
  let s ← (if bit (ws.getD 5 0) 63 then sendKnock s g c ws else .ok s)
  let s := if k.leave then s.dropLeave (clusterOf g) else s
  .ok (s.modChan g c fun k =>
    let k := { k with words := none, sector := 0, leave := false, leaveAsked := false, lastDone := k.record, next }
    if k.sending.isSome then k else k.goOn)

/-- RECORD_COMPLETION. -/
def execRecordCompletion (g c : Nat) (s : State) : Out :=
  if s.recordDone g c then chanNext (completeRecord s g c) else .next s

/-! ### The instructions (R140 to R147) -/

/-- CHEAD. -/
def execChead (h w l : SReg) (c : BitVec 2) (s : State) : Out :=
  slotDone (
    let k := s.chan s.iss.g c.toNat
    let a := s.rdS h
    if k.busy then .ok (s.putStat stChBusy)
    else if a.toNat % 64 ≠ 0 then alignFault s a 64
    else do
      needReleased s
      let base := (s.rdS w).toNat
      .ok (s.setChan s.iss.g c.toNat { k with
        wbase := base, wlen := (s.rdS l).toNat, wmk := base, written := [], shapes := (s.core s.iss.g).shapes,
        issuer := s.iss.x, orphan := false, words := none, sector := 0, restripe := none, walk := none, fault := none, saved := false,
        st := if a = 0 then .idle else .walking, record := if a = 0 then k.record else a.toNat }))

/-- The code of a channel's state (R122). -/
def ChanState.code : ChanState → Nat
  | .idle => 0 | .walking => 1 | .parked => 2 | .pageWait => 3 | .cancelled => 4

/-- The record that CSTAT names: the one that the channel stands on, or the last that an idle channel has completed (R142). -/
def Chan.shown (c : Chan) : Nat := if c.st == .idle then c.lastDone else c.record

/-- CSTAT. -/
def execCstat (d : SReg) (c : BitVec 2) (s : State) : Out :=
  let k := s.chan s.iss.g c.toNat
  slotDone (.ok (s.putS d (w64 (k.shown / 64 * 64 + k.st.code)) 4))

/-- CWMK. -/
def execCwmk (d : SReg) (c : BitVec 2) (s : State) : Out :=
  slotDone (.ok (s.putS d (w64 (s.chan s.iss.g c.toNat).wmk) 4))

/-- A wait for a watermark is over: it has reached the address or the range's end, or the channel has stopped (R143). -/
def Chan.reached (c : Chan) (a : Nat) : Bool :=
  c.wlen == 0 || !c.busy || decide (min a c.watchEnd ≤ c.wmk)

/-- CWMK.W. -/
def execCwmkW (a : SReg) (c : BitVec 2) (s : State) : Out :=
  slotDone (
    let n := (s.rdS a).toNat
    if (s.chan s.iss.g c.toNat).reached n then .ok s else slotWait s (.mark c.toNat n))

/-- Channels of a mask. -/
def maskChans (mask : Nat) : List Nat := (List.range 4).filter mask.testBit

/-- CCANCEL. -/
def execCcancel (mask : BitVec 4) (s : State) : Out :=
  slotDone (.ok ((maskChans mask.toNat).foldl (fun s c => s.cancelChan s.iss.g c 1 false) s))

/-- No channel of a mask walks or waits for a page. -/
def Core.quiet (c : Core) (mask : Nat) : Bool :=
  (maskChans mask).all fun n => !(c.chan n).busy

/-- QJOIN. -/
def execQjoin (mask : BitVec 4) (s : State) : Out :=
  slotDone (if (s.core s.iss.g).quiet mask.toNat then .ok s else slotWait s (.chansQuiet mask.toNat))

/-- SHAPE: the field changes when this context issues its third issue from now (R134). -/
def execShape (v : SReg) (set field : BitVec 3) (s : State) : Out :=
  slotDone (.ok (s.modCore s.iss.g fun c => { c with
    shapeWrites := c.shapeWrites ++ [⟨s.iss.x, s.iss.issue + 3, set.toNat, field.toNat, s.rdS v⟩] }))

/-- KNARM: an armed dormant context starts at once where a knock is queued. -/
def execKnarm (x : BitVec 2) (s : State) : Out :=
  slotDone (.ok ((s.modCtx s.iss.g x.toNat fun k => { k with armed := true }).serveKnock s.iss.g))

/-- KNARM.D. -/
def execKnarmD (x : BitVec 2) (s : State) : Out :=
  slotDone (.ok (s.modCtx s.iss.g x.toNat fun k =>
    { k with armed := false, idleAt := if k.armed && k.run == .dormant then s.cycle else k.idleAt }))

end Sys2Proof.Machine
end

