-- ==== Sys2Proof/Machine/Links.lean ====
section
/-! DEFINITION. The ports: sequence numbers, acknowledgement and replay, the arbiter, lane loss and retraining, apertures, and what
arrives (R148 to R159, R413, R414). -/

namespace Sys2Proof.Machine

/-- Lanes of a port (R148). -/
def laneCount (q : Nat) : Nat := if q = hostPort then 32 else 16
/-- Packets that a sender keeps at most (R152). -/
def replayWindow : Nat := 256
/-- 8 microseconds of 1.5 GHz (R152, R414). -/
def replayCycles : Nat := 12000
/-- 2 microseconds (R154). -/
def retrainCycles : Nat := 3000
/-- Cycles after which a held acknowledgement is sent (R413). -/
def idleCycles : Nat := 1500

/-! ### Faults of ports (R156, R158) -/

/-- The address of the record that an origin names; 0 for a packet of no record. -/
def Origin.record : Origin → Nat
  | .chan _ _ r | .coll _ r => r
  | _ => 0

/-- The packet was sent by a record of a channel or of a collective engine. -/
def Origin.named : Origin → Bool
  | .chan .. | .coll .. => true
  | _ => false

/-- A channel's record that uses a port: a remote copy under way to its window, or a packet of the channel that waits on it. -/
def State.chanUses (s : State) (q g c : Nat) : Option Nat :=
  let k := s.chan g c
  let to_ := match windowPort (spaceOf (recDst (k.words.getD [])).toNat) with | some (p, _) => p == q | none => false
  if k.busy && recKind (k.words.getD []) == 5 && to_ then some k.record
  else ((s.port q).sendq.find? fun o => o.origin.isChan g c).map fun o => o.origin.record

/-- A collective engine's record that uses a port: the one that sends or receives on it, or one with a packet that waits on it. -/
def State.collUses (s : State) (q d : Nat) : Option Nat :=
  match (s.coll d).running with
  | some j => if [bits (j.words.getD 0 0) 39 36, bits (j.words.getD 0 0) 35 32].contains q then some j.addr else none
  | none => ((s.port q).sendq.find? fun o => match o.origin with | .coll e _ => e == d | _ => false).map fun o => o.origin.record

/-- The record that a port's failure names (R156): that of the oldest packet of a record still unacknowledged; else the first that was waiting on the
port, channels by core and channel before collective engines; 0 where no record used the port. A record between two sectors, and a collective that
only receives on the port, use it. -/
def State.failedRecord (s : State) (q : Nat) : Nat :=
  match (s.port q).unacked.find? fun e => e.2.origin.named with
  | some (_, o) => o.origin.record
  | none => match s.cores.findSome? fun (g, _) => (List.range 4).findSome? fun c => s.chanUses q g c with
    | some r => r
    | none => ((List.range 4).findSome? fun d => s.collUses q d).getD 0

/-- A fault of this launch, where one runs. -/
def State.launchFault (s : State) (f : FaultRec) : State := if s.run && !s.shuttingDown then s.raise f else s

/-- A port goes down: the launch ends with a fault that names it, and nothing more is sent (R156). While no launch can end of it, the event goes into
the error log (R406). -/
def State.portGoesDown (s : State) (q : Nat) : State :=
  let p := s.port q
  let r := w64 (s.failedRecord q)
  let s := if s.run && !s.shuttingDown then s.raise { code := cProt, w2 := r, w3 := w64 q, agent := 5, agentNo := q }
    else s.errorLog cProt 0x7FF 0 r
  s.setPort q { p with
    st := .down, width := 0, half := 0, sendq := [], unacked := [], resend := [], fresh := false, awaitHand := false, episodes := 0 }

/-- The far end has refused a packet (R158): the fault names the record or the access, with the window address. -/
def State.refused (s : State) (q : Nat) (o : OutPacket) : State :=
  let va := w64 (windowBase q + o.p.addr)
  match o.origin with
  | .chan g c r => s.launchFault { code := cProt, w2 := w64 r, w3 := va, agent := 1, agentNo := c, src := .chan g c }
  | .coll d r => s.launchFault { code := cProt, w2 := w64 r, w3 := va, agent := 2, agentNo := d, src := .coll d }
  | .ctx g x pc addr => s.launchFault { code := cProt, gcore := g, ctx := x, pc := w64 pc, w2 := w64 addr }
  | .none => s

/-! ### Sending -/

/-- The last sequence number accepted in order; 0 while none has been (R152, R413). -/
def Port.ackSeq (p : Port) : Nat := if p.ackv then (p.expected + 4095) % 4096 else 0

/-- A packet put on the lanes with the port's acknowledgement fields (R151, R413). -/
def Port.transmit (p : Port) (now seq : Nat) (k : Packet) (nak err : Bool) : Port :=
  let k := k.stamp seq p.ackSeq p.ackv nak err
  { p with wire := p.wire ++ [k],
           sinceAck := if p.ackv then 0 else p.sinceAck, sentAt := if p.ackv then now else p.sentAt }

/-- An acknowledgement-only packet, which carries the sender's next number without consuming it. -/
def State.sendAck (s : State) (q : Nat) (nak err : Bool) : State :=
  s.modPort q fun p => p.transmit s.uptime p.seq ⟨header 0 0 false 0 0 0, []⟩ nak err

/-- A replay begins, or the port goes down after 16 without progress. REPLAYS counts the episode with its first packet (R152). -/
def State.startReplay (s : State) (q : Nat) : State :=
  let p := s.port q
  if p.unacked.isEmpty then s
  else if 16 ≤ p.episodes then s.portGoesDown q
  else s.setPort q { p with
    resend := p.unacked, episodes := p.episodes + 1, fresh := true, progressAt := s.uptime }

/-! ### The arbiter (R150) -/

/-- A packet of the collective engine. -/
def OutPacket.isColl (o : OutPacket) : Bool := match o.origin with | .coll .. => true | _ => false

/-- Where a copy packet stands in channel order; the accesses of contexts and read responses follow the channels. -/
def OutPacket.turn (o : OutPacket) : Nat :=
  match o.origin with
  | .chan g c _ => 4 * g + c
  | .ctx g x .. => 4 * 1536 + 4 * g + x
  | _ => 8 * 1536

/-- The turns that wait, and the next of them after the last one granted. -/
def Port.nextTurn (p : Port) : Option Nat :=
  let turns := (p.sendq.filter fun o => !o.isColl && !o.prio).map OutPacket.turn
  let pick (l : List Nat) : Option Nat := match l with | [] => none | t :: ts => some (ts.foldl min t)
  match pick (turns.filter fun t => p.lastChan < t) with
  | some t => some t
  | none => pick turns

/-- The weights in force: both 1 where both are 0. -/
def Port.weights (p : Port) : Nat × Nat := if p.cwt = 0 ∧ p.dwt = 0 then (1, 1) else (p.cwt, p.dwt)

/-- A new round, with the weights written meanwhile. -/
def Port.newRound (p : Port) : Port :=
  match p.arbNext with
  | some (c, d) => { p with cwt := c, dwt := d, arbNext := none, grantC := 0, grantD := 0 }
  | none => { p with grantC := 0, grantD := 0 }

/-- The port with the round that its next grant belongs to; `c` and `d` say which classes wait. -/
def Port.inRound (p : Port) (c d : Bool) : Port :=
  let (cw, dw) := p.weights
  if (c && p.grantC < cw) || (d && p.grantD < dw) then p else p.newRound

/-- The class that is granted: collective traffic first within a round; a class of weight 0 only when it waits alone. -/
def Port.grantsColl (p : Port) (c d : Bool) : Bool :=
  let (cw, _) := p.weights
  c && (!d || p.grantC < cw)

/-- The first packet for which a test holds, and the others. -/
def takeFirst (t : OutPacket → Bool) : List OutPacket → Option (OutPacket × List OutPacket)
  | [] => none
  | o :: os => if t o then some (o, os) else (takeFirst t os).map fun (x, r) => (x, o :: r)

/-- The next packet to be sent for the first time. -/
def Port.arbitrate (p : Port) : Option (OutPacket × Port) :=
  match takeFirst OutPacket.prio p.sendq with
  | some (o, rest) => some (o, { p with sendq := rest })
  | none =>
    let c := p.sendq.any OutPacket.isColl
    let d := p.sendq.any fun o => !o.isColl
    let p := p.inRound c d
    if p.grantsColl c d then
      (takeFirst OutPacket.isColl p.sendq).map fun (o, rest) => (o, { p with sendq := rest, grantC := p.grantC + 1 })
    else match p.nextTurn with
      | none => none
      | some t => (takeFirst (fun o => !o.isColl && o.turn == t) p.sendq).map fun (o, rest) =>
          (o, { p with sendq := rest, grantD := p.grantD + 1, lastChan := t })

/-- The port can send a packet now. -/
def Port.canSend (p : Port) : Bool :=
  p.st == .up && !p.awaitHand && (!p.resend.isEmpty || (p.unacked.length < replayWindow && !p.sendq.isEmpty))

/-- The port's next packet: one of a replay, or a new one, which is numbered and kept (R150, R152). -/
def Port.sendNext (p : Port) (now : Nat) : Port :=
  match p.resend with
  | (n, o) :: rest =>
    { p with resend := rest, fresh := false, replays := if p.fresh then min (p.replays + 1) 0xFFFF_FFFF else p.replays }.transmit
      now n o.p false false
  | [] => match p.arbitrate with
    | none => p
    | some (o, p) =>
      { (p.transmit now p.seq o.p false false) with
        seq := (p.seq + 1) % 4096, unacked := p.unacked ++ [(p.seq, o)],
        progressAt := if p.unacked.isEmpty then now else p.progressAt }

/-- PACKET_SEND. -/
def execPacketSend (port : Nat) (s : State) : Out :=
  if (s.port port).canSend then .next (s.modPort port fun p => p.sendNext s.uptime) else .next s

/-! ### Receiving (R151, R152, R158, R413) -/

/-- The replay entries up to a sequence number, and those after it; none where no entry has the number. -/
def splitAcked (n : Nat) : List (Nat × OutPacket) → Option (List (Nat × OutPacket) × List (Nat × OutPacket))
  | [] => none
  | e :: es => if e.1 = n then some ([e], es) else (splitAcked n es).map fun (a, b) => (e :: a, b)

/-- ACKSEQ frees replay entries; a refused packet ends the launch. -/
def State.takeAckSeq (s : State) (q : Nat) (p : Packet) : State :=
  let t := s.port q
  if !p.ackV then s
  else match splitAcked p.ackSeq t.unacked with
    | none => s
    | some (freed, rest) =>
      let s := s.setPort q { t with
        unacked := rest, resend := t.resend.filter (fun (e : Nat × OutPacket) => rest.any fun r => r.1 == e.1), episodes := 0,
        progressAt := s.uptime }
      match p.err, freed.getLast? with
      | true, some (_, o) => s.refused q o
      | _, _ => s

/-- The acknowledgement fields of a packet take effect: ACKSEQ, the awaited handshake, or NAK, upon which the sender sends again from ACKSEQ + 1. -/
def State.takeAck (s : State) (q : Nat) (p : Packet) : State :=
  let s := s.takeAckSeq q p
  if (s.port q).awaitHand && p.ty == 0 then (s.modPort q fun t => { t with awaitHand := false }).startReplay q
  else if p.nak then (if (s.port q).resend.isEmpty then s.startReplay q else s.modPort q fun t => { t with resend := t.unacked }) else s

/-- A packet has been taken in sequence; an acknowledgement follows at once for a refused one, and after 16. -/
def State.accepted (s : State) (q : Nat) (refused : Bool) : State :=
  let s := s.modPort q fun t => { t with
    expected := (t.expected + 1) % 4096, ackv := true, sinceAck := t.sinceAck + 1,
    sentAt := if t.ackv then t.sentAt else s.uptime }
  if refused then s.sendAck q false true
  else if 16 ≤ (s.port q).sinceAck then s.sendAck q false false
  else s

/-- A packet of TYPE `ty` comes off the lanes of a port. A packet that R151 discards is answered with NAK, whatever its TYPE field
says. `apply` gives the state with the packet applied and whether it was refused, or none to withhold its acknowledgement. -/
def State.receive (s : State) (q : Nat) (p : Packet) (ty : Nat) (apply : State → Option (State × Bool)) : State :=
  if (s.port q).st != .up then s
  else if p.discarded then s.sendAck q true false
  else if p.ty != ty then s
  else
    let s := s.takeAck q p
    if (s.port q).st != .up || ty == 0 then s
    else
      let d := (p.seq + 4096 - (s.port q).expected) % 4096
      if d = 0 then
        match apply s with
        | none => s
        | some (s, refused) => s.accepted q refused
      else if d ≤ 255 then s.sendAck q true false else s

/-- ACK_ONLY_PACKET. -/
def execAckOnlyPacket (port : Nat) (p : Packet) (s : State) : Out := .next (s.receive port p 0 fun s => some (s, false))

/-! ### Apertures (R158) -/

/-- An aperture entry of a peer port. -/
def State.aperture (s : State) (q e : Nat) : Word64 := mget 0 s.apertures (64 * q + e)

/-- Where a block at a window offset lands: its storage key, or none where the aperture refuses it: the 64 entries of a port map 2^40 bytes, and a
later block of a packet may lie above them. An offset that is not a multiple of 64 is refused too, of a peer port as of the host link: the manual
does not name it (R151, R158; DESIGN CHOICE: log entry 43). The host link has no aperture table: its offsets name main memory under geometry 0. -/
def State.inboundKey (s : State) (q off : Nat) (wr : Bool) : Option Nat :=
  if q = hostPort then (if off % 64 = 0 && off + 64 ≤ mainSize then some (s.paKey 0 off) else none)
  else
    let e := s.aperture q (off / 2 ^ 34)
    let pa := bits e 17 0 * 2 ^ 34 + off % 2 ^ 34
    let geo := s.geoWord (bits e 55 48)
    if 2 ^ 40 < off + 64 || off % 64 ≠ 0 || !bit e 63 || !(if wr then bit e 62 else bit e 61) then none
    else match spaceOf pa with
      | .main => if geoValid geo && pa + 64 ≤ geoReach geo then some (mainKey geo pa) else none
      | .spad _ o => if o + 64 ≤ latchBase then some pa else none
      | _ => none

/-- The keys of `n` blocks from an offset up, or none where one of them is refused. -/
def State.inboundKeys (s : State) (q off : Nat) (wr : Bool) : Nat → Option (List Nat)
  | 0 => some []
  | n + 1 => match s.inboundKey q off wr, s.inboundKeys q (off + 64) wr n with
    | some k, some ks => some (k :: ks)
    | _, _ => none

/-- Blocks applied by a port in this frame (R394). -/
def State.digestBlocks (s : State) (q : Nat) (vs : List VVal) : State :=
  if s.det && s.logRec then s.modPort q fun t => { t with digest := t.digest ++ vs } else s

/-- A write packet applied whole, or refused whole. -/
def State.applyWrite (s : State) (q : Nat) (p : Packet) : State × Bool :=
  match s.inboundKeys q p.addr true p.blockCount with
  | none => (s, true)
  | some ks => (((ks.zip p.blocks).foldl (fun s (k, v) => s.writeBlock1 k v) s).digestBlocks q p.blocks, false)

/-- INBOUND_WRITE. -/
def execInboundWrite (port : Nat) (p : Packet) (s : State) : Out := .next (s.receive port p 1 fun s => some (s.applyWrite port p))

/-- The block that answers a read request, and whether the request is refused. -/
def State.readReply (s : State) (q off : Nat) : VVal × Bool :=
  match s.inboundKey q off false with
  | some k => (s.readBlock k, false)
  | none => (poisonVal, true)

/-- INBOUND_READ_REQUEST. -/
def execInboundReadRequest (port : Nat) (p : Packet) (s : State) : Out :=
  .next (s.receive port p 2 fun s =>
    let (v, bad) := s.readReply port p.addr
    some (s.enqueue port ⟨responsePacket p.addr [v], .none, false⟩, bad))

/-! ### Read responses (R157) -/

/-- Updates of a landing with the data that has come: the register takes the block. -/
def replyUpdates (us : List Upd) (v : VVal) : List Upd :=
  us.map fun u => match u with
    | .v r _ => .v r v
    | u => u

/-- The first landing that waits for a response, with its data. -/
def fillLandings (q off : Nat) (v : VVal) : List Landing → Option (List Landing)
  | [] => none
  | l :: ls => if l.await = some (q, off) then some ({ l with upd := replyUpdates l.upd v, await := none } :: ls)
    else (fillLandings q off v ls).map fun r => l :: r

/-- The first landing of a snapshot that waits for a response, with its data. -/
def fillSnap (q off : Nat) (v : VVal) : List SnapLanding → Option (List SnapLanding)
  | [] => none
  | l :: ls => if l.await = some (q, off) then some ({ l with upd := replyUpdates l.upd v, await := none } :: ls)
    else (fillSnap q off v ls).map fun r => l :: r

/-- A snapshot with the data of a response that one of its landings waits for. -/
def Snapshot.fillReply (n : Snapshot) (q off : Nat) (v : VVal) : Option Snapshot :=
  (fillSnap q off v n.landings).map fun l => { n with landings := l }

/-- A context that waits for a response, or one of whose snapshots does, with the data; none where it waits for nothing. -/
def Ctx.fillReply (k : Ctx) (q off : Nat) (v : VVal) : Option Ctx :=
  let asked (i : Iss) : Bool := i.reply.isNone && i.waits.any fun w => w.2 == .response q off
  match k.resume.filter asked with
  | some i => some { k with resume := some { i with reply := some v } }
  | none => match k.snap.bind fun n => n.fillReply q off v with
    | some n => some { k with snap := some n }
    | none => (k.handlerSnap.bind fun n => n.fillReply q off v).map fun n => { k with handlerSnap := some n }

/-- A core one of whose landings or contexts takes the response. -/
def Core.fillReply (c : Core) (q off : Nat) (v : VVal) : Option Core :=
  match fillLandings q off v c.sill with
  | some l => some { c with sill := l }
  | none => (List.range 4).findSome? fun x => ((c.ctx x).fillReply q off v).map fun k => c.setCtx x k

/-- The first core in number order that takes the response. -/
def fillCores (q off : Nat) (v : VVal) : List (Nat × Core) → List (Nat × Core)
  | [] => []
  | (g, c) :: cs => match c.fillReply q off v with
    | some c => (g, c) :: cs
    | none => (g, c) :: fillCores q off v cs

/-- READ_RESPONSE: the data comes back to the load that requested it. -/
def execReadResponse (port : Nat) (p : Packet) (s : State) : Out :=
  .next (s.receive port p 3 fun s =>
    some ({ s with cores := fillCores port (p.addr / 64 * 64) (p.block 0) s.cores }, false))

/-! ### Knocks (R138, R151) -/

/-- A knock packet reaches its core. While no launch runs, or the launch ends, it starts nothing and is not kept. -/
def State.packetKnock (s : State) (p : Packet) : State :=
  let w := w64 p.addr
  if s.run && !s.ending && bits w 62 52 < 1536 then s.deliverKnock (bits w 62 52) ⟨bits w 31 2, bits w 51 32, w64 p.descs⟩ else s

/-- KNOCK_DELIVERY. -/
def execKnockDelivery (k : KnockSource) (s : State) : Out :=
  match k with
  | .own g kpc karg dst => .next (s.ownKnock g ⟨kpc, karg, dst⟩)
  | .packet q p => .next (s.receive q p 4 fun s => some (s.packetKnock p, false))

/-! ### Timers (R152, R413) -/

/-- REPLAY_TIMEOUT. -/
def execReplayTimeout (port : Nat) (s : State) : Out :=
  let p := s.port port
  if p.st == .up && !p.awaitHand && !p.unacked.isEmpty && replayCycles ≤ s.uptime - p.progressAt then
    .next (s.startReplay port)
  else .next s

/-- ACK_IDLE_TIMER. -/
def execAckIdleTimer (port : Nat) (s : State) : Out :=
  let p := s.port port
  if p.st == .up && 0 < p.sinceAck && idleCycles ≤ s.uptime - p.sentAt then .next (s.sendAck port false false) else .next s

/-! ### Lane loss (R154, R155, R414) -/

/-- The HALF code of the half that holds a lane: 1 lower, 2 upper. -/
def halfOf (q lane : Nat) : Nat := if lane < laneCount q / 2 then 1 else 2

/-- A port enters retraining to the half that does not hold the failed lane; every flit on the lanes is lost. Where the duty is the
host's, the event goes to it as an error-log message, and it chooses the half (R155). No rule gives the cause code of the event: it is open. -/
def State.retrain (s : State) (q lane : Nat) : State :=
  let s := s.modPort q fun p => { p with
    st := .retraining, wire := [], resend := [], fresh := false, since := s.uptime, awaitHand := false,
    targetHalf := if s.hostDoes 4 then 0 else 3 - halfOf q lane }
  let (n, s) := s.takeFree
  let cause := (Config.openWord n).toNat
  let s := s.errorLog cause 0x7FF 0 (w64 q)
  if s.hostDoes 4 && !s.hostDoes 3 then s.message (s.errorEntry cause 0x7FF 0 (w64 q)) else s

/-- The flits on a port's lanes are lost (R414). -/
def State.loseWire (s : State) (q : Nat) : State := s.modPort q fun p => { p with wire := [] }

/-- LANE_FAIL. -/
def execLaneFail (port lane : Nat) (s : State) : Out :=
  let p := s.port port
  if laneCount port ≤ lane || p.failmask.testBit lane then .next s
  else
    let s := s.setPort port { p with failmask := p.failmask + 2 ^ lane }
    match p.st with
    | .up =>
      if p.half = 0 then .next (s.retrain port lane)
      else if halfOf port lane = p.half then .next ((s.portGoesDown port).loseWire port)
      else .next s
    | .retraining => if halfOf port lane = p.targetHalf then .next ((s.portGoesDown port).loseWire port) else .next s
    | _ => .next s

/-- A half of a port holds a failed lane. -/
def Port.halfFailed (p : Port) (q half : Nat) : Bool := (List.range (laneCount q)).any fun n => p.failmask.testBit n && halfOf q n == half

/-- Halves without a failed lane. -/
def Port.goodHalves (p : Port) (q : Nat) : List Nat := [1, 2].filter fun h => !p.halfFailed q h

/-- The half that a retraining ends on. The host chooses it by the port's training registers, of which the manual gives no address or layout: its
choice is a free value among the halves without a failed lane; where both hold one the port stays in retraining (R155; log entry 46). -/
def State.chosenHalf (s : State) (q : Nat) : Option Nat × State :=
  let p := s.port q
  if p.targetHalf = 0 then
    let (n, s) := s.takeFree
    ((p.goodHalves q)[(Config.openWord n).toNat % (p.goodHalves q).length]?, s)
  else (some p.targetHalf, s)

/-- RETRAIN_COMPLETE: the port is up at half width and sends its handshake. -/
def execRetrainComplete (port : Nat) (s : State) : Out :=
  if (s.port port).st == .retraining then
    match s.chosenHalf port with
    | (none, s) => .next s
    | (some half, s) =>
      let s := s.setPort port { s.port port with st := .up, width := laneCount port / 2, half, awaitHand := true, since := s.uptime }
      .next (s.sendAck port false false)
  else .next s

/-- HANDSHAKE_TIMEOUT. -/
def execHandshakeTimeout (port : Nat) (s : State) : Out :=
  let p := s.port port
  if p.st == .up && p.awaitHand && replayCycles ≤ s.uptime - p.since then
    .next ((s.setPort port { p with awaitHand := false }).startReplay port)
  else .next s

/-- PEER_END_DOWN. -/
def execPeerEndDown (port : Nat) (s : State) : Out :=
  if (s.port port).st == .down then .next s else .next (s.portGoesDown port)

end Sys2Proof.Machine
end

