-- ==== Sys2Proof/Machine/Collective.lean ====
section
/-! DEFINITION. Collective records, the ring sums of the dies' engines, and their packets (R160 to R165, R412, R417). -/

namespace Sys2Proof.Machine

/-! ### Records (R160) -/

/-- CTAG. -/
def collTag (ws : List Word64) : Nat := bits (ws.getD 0 0) 63 48
/-- RXP. -/
def collRxp (ws : List Word64) : Nat := bits (ws.getD 0 0) 39 36
/-- TXP. -/
def collTxp (ws : List Word64) : Nat := bits (ws.getD 0 0) 35 32
/-- POS. -/
def collPos (ws : List Word64) : Nat := bits (ws.getD 0 0) 31 24
/-- N. -/
def collN (ws : List Word64) : Nat := bits (ws.getD 0 0) 23 16
/-- FMT. -/
def collFmt (ws : List Word64) : Nat := bits (ws.getD 0 0) 15 8
/-- OP. -/
def collOp (ws : List Word64) : Nat := bits (ws.getD 0 0) 3 0
/-- LEN. -/
def collLen (ws : List Word64) : Nat := bits (ws.getD 3 0) 31 0
/-- Bytes of a chunk. -/
def collChunk (ws : List Word64) : Nat := collLen ws / collN ws
/-- SIG. -/
def collSig (ws : List Word64) : Nat := (ws.getD 4 0).toNat

/-- A malformed record (R160, R165). -/
def collBad (ws : List Word64) : Bool :=
  let w (n : Nat) : Word64 := ws.getD n 0
  bits (w 0) 47 40 != 0 || bits (w 0) 7 4 != 0 || bits (w 3) 63 32 != 0 || bits (w 6) 62 57 != 0 || bits (w 6) 47 0 != 0 ||
    decide (2 < collOp ws) || !([1, 2, 3, 4, 9, 10].contains (collFmt ws)) || decide (collN ws < 2) || decide (64 < collN ws) ||
    decide (collN ws ≤ collPos ws) || decide (11 < collTxp ws) || decide (11 < collRxp ws) || collTxp ws == collRxp ws ||
    collLen ws == 0 || collLen ws % (64 * collN ws) != 0 || (w 1).toNat % 64 != 0 || (w 2).toNat % 64 != 0 ||
    collSig ws % 8 != 0

/-- Records that an engine holds, the running one counted (R163). -/
def collMax : Nat := 16

/-- The engine of a die has room for a record. -/
def State.collRoom (s : State) (d : Nat) : Bool :=
  (s.coll d).jobs.length + (if (s.coll d).running.isSome then 1 else 0) < collMax

/-- COLL. -/
def execColl (r : SReg) (s : State) : Out :=
  slotDone (do
    let va := s.rdS r
    let l ← slotRecord s va false
    if l.space != .main || !l.wr then protFault s va
    let ws := s.blockWords l.key
    if collBad ws then protFault s va
    if bits (ws.getD 7 0) 7 0 ≠ 0 then .ok (s.putStat stCollBusy)
    else
      let d := dieOf s.iss.g
      if !s.collRoom d then slotWait s .collRoom
      needReleased s
      let e := s.coll d
      let j : CollJob := { words := ws, addr := va.toNat, core := s.iss.g, ctx := s.iss.x }
      .ok ((s.writePart (l.wkeys.map (· + 56)) 8 1).setColl d { e with jobs := e.jobs ++ [j] }))

/-- A fault of a collective engine that names its record (R163). -/
def State.collFault (s : State) (d code : Nat) (j : CollJob) (w3 : Word64) : State :=
  s.raise { code, w2 := w64 j.addr, w3, agent := 2, agentNo := d, src := .coll d }

/-- A protection fault of a collective engine at an address (R67, R374). -/
def State.collProt (s : State) (d va level : Nat) : State :=
  s.raise { code := cProt, w2 := w64 va, w3 := w64 level, agent := 2, agentNo := d, src := .coll d }

/-- w7 of a record in memory, through the translation unit of the posting core's cluster; a page that has gone takes a page upcall, and the engine
writes after its PGRES; a page that may not be written ends the launch (R66, R67, R78). -/
def State.putCollStatus (s : State) (d : Nat) (j : CollJob) (v : Nat) : Except State State :=
  match s.reachRecord (clusterOf j.core) j.addr with
  | .page e level => .ok (s.writePart ((s.leafLoc j.addr e level).wkeys.map (· + 56)) 8 v)
  | .absent level pa region =>
    .error ((s.pageUpcall (.coll d) ⟨7, w64 j.addr, 4, level, pa, region⟩).annotate 7 0x7FF 0 (w64 j.addr))
  | .barred level => .error (s.collProt d j.addr level)
  | .window => .error (s.collProt d j.addr 0)

/-! ### Sums (R161) -/

/-- INVALID of a record's flags. -/
def kInvalid : BitVec 4 := 1
/-- OVERFLOW. -/
def kOverflow : BitVec 4 := 2
/-- INEXACT. -/
def kInexact : BitVec 4 := 4
/-- POISON. -/
def kPoison : BitVec 4 := 8

/-- A NaN made quiet with its payload kept; any other element as it is. -/
def quietElem (fmt v : Nat) : Nat :=
  match fmtOfCode fmt with
  | some f => if (decodeF f v).isNan then (roundF f 0 false (decodeF f v)).1 else v
  | none => v

/-- CollAdd on the bits of two elements: the result, its made mark, and flags. -/
def collAdd (fmt a : Nat) (made : Bool) (b : Nat) : Nat × Bool × BitVec 4 :=
  match fmtOfCode fmt with
  | none => ((a + b) % 2 ^ codeBits fmt, false, 0)
  | some f =>
    let x := decodeF f a
    let y := decodeF f b
    if x.isNan && !made then (a, false, 0)
    else if y.isNan then (quietElem fmt b, false, 0)
    else if x.isNan then (a, true, 0)
    else if x.isInf && y.isInf && x.neg? != y.neg? then (packF f false (f.nanBits 0), true, kInvalid)
    else if x.isInf then (a, false, 0)
    else if y.isInf then (b, false, 0)
    else
      let (r, fl) := roundF f 0 false (addNum 0 x y).1
      (r, false, (if fl &&& fInexact = 0 then 0 else kInexact) |||
        (if fl &&& (fOverflow ||| fClamp) = 0 then 0 else kOverflow ||| kInexact))

/-- Elements of a block under a record's format. -/
def collLanes (fmt : Nat) : Nat := 512 / codeBits fmt

/-- A block made quiet: how position c starts chunk c. -/
def quietBlock (fmt : Nat) (v : VVal) : VVal :=
  if isPoison v.desc then poisonVal
  else ⟨ofLanes (codeBits fmt) ((List.range (collLanes fmt)).map fun i => quietElem fmt (laneOf (codeBits fmt) v.data i)), v.desc⟩

/-- A partial block plus the own source block: the result, the made marks of its elements, and flags. -/
def addBlocksColl (fmt : Nat) (part : VVal) (made : Nat) (own : VVal) : VVal × Nat × BitVec 4 :=
  if isPoison part.desc || isPoison own.desc then (poisonVal, 0, kPoison)
  else
    let w := codeBits fmt
    let r := (List.range (collLanes fmt)).map fun i =>
      collAdd fmt (laneOf w part.data i) (made.testBit i) (laneOf w own.data i)
    (⟨ofLanes w (r.map (·.1)), mkDesc fmt 0⟩, joinLanes 1 (r.map fun e => if e.2.1 then 1 else 0),
      (r.map (·.2.2)).foldl (· ||| ·) 0)

/-! ### Packets (R417) -/

/-- A collective data packet. -/
def collPacket (tag c step off : Nat) (vs : List VVal) (made : Nat) (fl : BitVec 4) (last : Bool) : Packet :=
  ⟨header 5 (2 * vs.length + 1) last tag (c + step * 2 ^ 8 + off * 2 ^ 16) (descField vs),
    vs.flatMap blockFlits ++ [BitVec.ofNat 256 (made % 2 ^ 96 + fl.toNat * 2 ^ 96)]⟩

/-- Chunk. -/
def pktChunk (p : Packet) : Nat := p.addr % 256
/-- Step. -/
def pktStep (p : Packet) : Nat := p.addr / 2 ^ 8 % 256
/-- Byte offset in the chunk. -/
def pktOff (p : Packet) : Nat := p.addr / 2 ^ 16 % 2 ^ 32
/-- Made marks. -/
def pktMade (p : Packet) : Nat := p.side.toNat % 2 ^ 96
/-- Flags. -/
def pktFlags (p : Packet) : BitVec 4 := BitVec.ofNat 4 (p.side.toNat / 2 ^ 96)

/-- A packet of a record waits on its send port. -/
def State.collSend (s : State) (d : Nat) (j : CollJob) (p : Packet) : State :=
  s.enqueue (collTxp j.words) ⟨p, .coll d j.addr, false⟩

/-- The blocks of a chunk sent as a step, three to a packet. -/
def State.sendChunk (s : State) (d : Nat) (j : CollJob) (c step off : Nat) (vs : List VVal) : Nat → State
  | 0 => s
  | fuel + 1 =>
    if vs.isEmpty then s
    else
      let rest := vs.drop 3
      let p := collPacket (collTag j.words) c step off (vs.take 3) 0 (if (vs.take 3).any fun v => isPoison v.desc then kPoison else 0)
        rest.isEmpty
      (s.collSend d j p).sendChunk d j c step (off + 192) rest fuel

/-! ### Buffers (R76, R163) -/

/-- The blocks of SRC from an offset up, read through the extent table; or the fault (R160). -/
def State.collSource (s : State) (d : Nat) (j : CollJob) (off : Nat) : Nat → Except State (List VVal)
  | 0 => .ok []
  | n + 1 =>
    let va := (j.words.getD 1 0).toNat + off
    match s.blockAt (s.extentLoc j.extents va) va with
    | .noExtent => .error (s.raise { code := cProt, w2 := w64 va, agent := 2, agentNo := d, src := .coll d })
    | .badFormat e => .error (s.collFault d cDesc j (e.setWidth 64))
    | .ok v _ =>
      if !isPoison v.desc && v.desc != 0 && v.desc != mkDesc (collFmt j.words) 0 then
        .error (s.collFault d cDesc j (v.desc.setWidth 64))
      else match s.collSource d j (off + 64) n with
        | .ok vs => .ok (v :: vs)
        | .error e => .error e

/-- Blocks written to DST from an offset up. -/
def State.collWrite (s : State) (j : CollJob) (off : Nat) : List VVal → State
  | [] => s
  | v :: vs =>
    let va := (j.words.getD 2 0).toNat + off
    (s.writeBlock (s.extentLoc j.extents va).wkeys v).collWrite j (off + 64) vs

/-- The parts of SRC and DST that a record reads and writes, in main memory. -/
def collRanges (ws : List Word64) (wr : Bool) : List VRange :=
  let va := if wr then (ws.getD 2 0).toNat else (ws.getD 1 0).toNat
  if untranslated va then [] else [⟨va, collLen ws, wr⟩]

/-- An untranslated buffer lies outside the scratchpads. -/
def collOutside (ws : List Word64) : Option Nat :=
  [(ws.getD 1 0).toNat, (ws.getD 2 0).toNat].find? fun va => untranslated va && !rangeInSpads va (collLen ws)

/-! ### Taking data (R412, R417) -/

/-- The steps that a device receives under an operation. -/
def collSteps (ws : List Word64) : List Nat :=
  let n := collN ws
  match collOp ws with
  | 0 => (List.range (n - 1)).map (· + 1)
  | 1 => (List.range (n - 1)).map (· + n)
  | _ => (List.range (2 * n - 2)).map (· + 1)

/-- A packet fits the record that takes it: END tells the last packet of a step for a chunk, so that a packet of another LEN ÷ N does not. -/
def collFits (ws : List Word64) (q : Nat) (p : Packet) : Bool :=
  q == collRxp ws && decide (pktChunk p < collN ws) && (collSteps ws).contains (pktStep p) &&
    (pktChunk p + pktStep p) % collN ws == collPos ws && pktOff p % 64 == 0 &&
    decide (pktOff p + 64 * p.blockCount ≤ collChunk ws) && p.last == (pktOff p + 64 * p.blockCount == collChunk ws) &&
    p.blocks.all fun v => isPoison v.desc || v.desc == 0 || v.desc == mkDesc (collFmt ws) 0

/-- Blocks of a packet added to the own source, block after block: results, made marks and flags. -/
def addPacket (fmt : Nat) : List (VVal × VVal) → Nat → List VVal × Nat × BitVec 4
  | [], _ => ([], 0, 0)
  | (part, own) :: rest, made =>
    let n := collLanes fmt
    let (v, m, fl) := addBlocksColl fmt part (made % 2 ^ n) own
    let (vs, ms, fls) := addPacket fmt rest (made / 2 ^ n)
    (v :: vs, m + ms * 2 ^ n, fl ||| fls)

/-- Blocks counted for a step. -/
def CollJob.count (j : CollJob) (step n : Nat) : CollJob := { j with got := mset j.got step (mget 0 j.got step + n) }

/-- The running record of a die takes a packet: it adds or stores the blocks and passes them on. -/
def State.collTake (s : State) (d : Nat) (j : CollJob) (q : Nat) (p : Packet) : Except State State := do
  let ws := j.words
  if !collFits ws q p then .error (s.collFault d cProt j 0)
  let c := pktChunk p
  let step := pktStep p
  let off := c * collChunk ws + pktOff p
  let n := collN ws
  let j := j.count step p.blockCount
  if step < n then
    let own ← s.collSource d j off p.blockCount
    let (vs, made, fl) := addPacket (collFmt ws) (p.blocks.zip own) (pktMade p)
    let fl := fl ||| pktFlags p
    if step < n - 1 then
      .ok ((s.collSend d j (collPacket (collTag ws) c (step + 1) (pktOff p) vs made fl p.last)).setColl d
        { s.coll d with running := some j })
    else
      let s := s.collWrite j off vs
      let s := if collOp ws = 2 then s.collSend d j (collPacket (collTag ws) c n (pktOff p) vs 0 fl p.last) else s
      .ok (s.setColl d { s.coll d with running := some { j with flags := j.flags ||| fl } })
  else
    let s := s.collWrite j off p.blocks
    let s := if step < 2 * n - 2 then
        s.collSend d j (collPacket (collTag ws) c (step + 1) (pktOff p) p.blocks 0 (pktFlags p) p.last)
      else s
    .ok (s.setColl d { s.coll d with running := some { j with flags := j.flags ||| pktFlags p } })

/-- Bytes of the reduction SRAM. -/
def reductionBytes : Nat := 256 * 1024

/-- Bytes of the held packets' blocks. -/
def CollEngine.heldBytes (e : CollEngine) : Nat := (e.held.map fun h => 64 * h.2.blockCount).sum

/-- Bytes that a running record uses: one chunk, or all of the SRAM where the chunk is larger. -/
def CollEngine.usedBytes (e : CollEngine) : Nat :=
  match e.running with
  | some j => min (collChunk j.words) reductionBytes
  | none => 0

/-- The die whose engine has a record of a tag under way and built. -/
def State.collRunner (s : State) (tag : Nat) : Option Nat :=
  (List.range 4).find? fun d => match (s.coll d).running with
    | some j => j.built && collTag j.words == tag
    | none => false

/-- The die whose engine holds data of a tag that no record takes yet (R412). -/
def State.collHolder (s : State) (q tag : Nat) : Nat :=
  match (List.range 4).find? fun d => ((s.coll d).jobs ++ (s.coll d).running.toList).any fun j => collTag j.words == tag with
  | some d => d
  | none => q / 3

/-- A collective data packet is taken or held; none while the holding area is full. -/
def State.collArrive (s : State) (q : Nat) (p : Packet) : Option State :=
  let s := s.digestBlocks q p.blocks
  match s.collRunner p.ctag with
  | some d =>
    match (s.coll d).running with
    | some j => match s.collTake d j q p with
      | .ok s => some s
      | .error s => some s
    | none => some s
  | none =>
    let d := s.collHolder q p.ctag
    let e := s.coll d
    if reductionBytes < e.heldBytes + e.usedBytes + 64 * p.blockCount then none
    else some (s.setColl d { e with held := e.held ++ [(q, p)] })

/-- COLLECTIVE_DATA. -/
def execCollectiveData (port : Nat) (p : Packet) (s : State) : Out :=
  .next (s.receive port p 5 fun s => (s.collArrive port p).map fun s => (s, false))

/-! ### The engine (R163) -/

/-- The record that an engine comes to next: the head of its queue, while nothing runs. It alone awaits its signal, in STATE 2, and the records behind
it stay in STATE 1 (DESIGN CHOICE: log entry 123). -/
def State.collNext (s : State) (d : Nat) : Option CollJob :=
  if (s.coll d).running.isSome then none else (s.coll d).jobs.head?

/-- The signal word of a record, read as a load of the die's engine reads it: translated, permitted, and through the frame where its page is one's; a
missing page takes a page upcall of class 3 (R61, R66, R67, R94, R163). -/
def State.collSignalWord (s : State) (d : Nat) (j : CollJob) : Except State Nat :=
  let va := collSig j.words
  if untranslated va then
    if rangeInSpads va 8 then .ok (getBytes s.mem va 8) else .error (s.collProt d va 0)
  else if !translated va then .error (s.collProt d va 0)
  else match s.lookup (clusterOf j.core) va with
    | .malformed level => .error (s.collProt d va level)
    | .invalid level pa region => .error ((s.pageUpcall (.coll d) ⟨7, w64 va, 3, level, pa, region⟩).annotate 7 0x7FF 0 (w64 va))
    | .leaf e level _ =>
      let l := s.leafLoc va e level
      if !l.rd then .error (s.collProt d va 0)
      else match s.blockAt { l with key := l.key - va % 64 } (va / 64 * 64) with
        | .ok v _ => .ok (bytesOf v.data (va % 64) 8)
        | .noExtent => .error (s.collProt d va 0)
        | .badFormat f => .error (s.collFault d cDesc j (f.setWidth 64))

/-- The engine may read the signal word of the record that comes next: for the first time, to find it at least SIGV, or to meet what keeps it from
reading. -/
def State.signalDue (s : State) (d : Nat) : Bool :=
  match s.collNext d with
  | some j => collSig j.words != 0 && !j.signalled && j.fault.isNone && s.soundSrc (.coll d) && (!j.waitsSig || (match s.collSignalWord d j with
    | .ok v => decide ((j.words.getD 5 0).toNat ≤ v)
    | .error _ => true))
  | none => false

/-- The engine reads the signal word: the record awaits its signal (STATE 2), or has it. -/
def collSignal (s : State) (d : Nat) (j : CollJob) : Except State State := do
  let s ← (if j.waitsSig then .ok s else s.putCollStatus d j 2)
  let s := s.setColl d ((s.coll d).modCurrent fun j => { j with waitsSig := true })
  let v ← s.collSignalWord d j
  .ok (s.setColl d ((s.coll d).modCurrent fun k => { k with signalled := decide ((j.words.getD 5 0).toNat ≤ v) }))

/-- COLL_SIGNAL. -/
def execCollSignal (die : Nat) (s : State) : Out :=
  match s.collNext die with
  | none => .next s
  | some j => if s.signalDue die then chanNext (collSignal s die j) else .next s

/-- A port that a record needs is down (R156). -/
def State.collPortDown (s : State) (ws : List Word64) : Option Nat :=
  [collTxp ws, collRxp ws].find? fun q => s.portDown q

/-- The extent table of a record: SRC as class 3, DST as class 4. -/
def State.collExtents (s : State) (cl : Nat) (ws : List Word64) : Built :=
  match s.extents cl 3 (collRanges ws false) with
  | .ok l => match s.extents cl 4 (collRanges ws true) with
    | .ok l' => .ok (l ++ l')
    | x => x
  | x => x

/-- Held packets of a tag, taken from every die's engine in turn. -/
def State.takeHeld (s : State) (tag : Nat) : List (Nat × Packet) × State :=
  let mine := s.colls.flatMap fun ((_, e) : Nat × CollEngine) => e.held.filter fun h => h.2.ctag == tag
  (mine, { s with colls := s.colls.map fun ((d, e) : Nat × CollEngine) =>
    (d, { e with held := e.held.filter fun (h : Nat × Packet) => h.2.ctag != tag }) })

/-- Held packets arrive at the record that has started. -/
def State.takeAll (s : State) (d : Nat) : List (Nat × Packet) → State
  | [] => s
  | (q, p) :: rest =>
    match (s.coll d).running with
    | none => s
    | some j => match s.collTake d j q p with
      | .ok s => s.takeAll d rest
      | .error s => s

/-- The record begins to send: its own chunk of SRC, written as well under an all-gather, whose poison enters w7 (R160, R417). -/
def State.collBegin (s : State) (d : Nat) (j : CollJob) : Except State State := do
  let ws := j.words
  let n := collN ws
  let nb := collChunk ws / 64
  if collOp ws = 1 then
    let c := (collPos ws + 1) % n
    let vs ← s.collSource d j (c * collChunk ws) nb
    let s := s.collWrite j (c * collChunk ws) vs
    let fl := if vs.any fun v => isPoison v.desc then kPoison else 0
    .ok ((s.setColl d { s.coll d with running := some { j with flags := j.flags ||| fl } }).sendChunk d j c n 0 vs (nb + 1))
  else
    let c := collPos ws
    let vs ← s.collSource d j (c * collChunk ws) nb
    .ok (s.sendChunk d j c 1 0 (vs.map (quietBlock (collFmt ws))) (nb + 1))

/-- The extent table of the started record is built, or a page upcall delays it; then it sends, and takes what is held. -/
def State.collBuild (s : State) (d : Nat) (j : CollJob) : State :=
  match collOutside j.words with
  | some va => s.raise { code := cProt, w2 := w64 va, agent := 2, agentNo := d, src := .coll d }
  | none =>
    match s.collExtents (clusterOf j.core) j.words with
    | .missing m => (s.pageUpcall (.coll d) m).annotate 7 0x7FF 0 m.va
    | .bad va level => s.raise { code := cProt, w2 := w64 va, w3 := w64 level, agent := 2, agentNo := d, src := .coll d }
    | .ok l =>
      if extentMax < s.extentCount l then s.collFault d cProt j 0
      else
        let j := { j with built := true, extents := l }
        match (s.setColl d { s.coll d with running := some j }).collBegin d j with
        | .error s => s
        | .ok s =>
          let (mine, s) := s.takeHeld (collTag j.words)
          s.takeAll d mine

/-- The engine of a die may start its next record, or go on with the translation of the one it has started. -/
def State.startDueColl (s : State) (d : Nat) : Bool :=
  match (s.coll d).running with
  | some j => !j.built && j.fault.isNone && s.soundSrc (.coll d)
  | none => !s.preempting && (match (s.coll d).jobs.head? with
    | some j => (collSig j.words == 0 || j.signalled) && j.fault.isNone && s.soundSrc (.coll d)
    | none => false)

/-- COLL_START. -/
def execCollStart (die : Nat) (s : State) : Out :=
  if !s.startDueColl die then .next s
  else match (s.coll die).running with
    | some j => .next (s.collBuild die j)
    | none => match (s.coll die).jobs with
      | [] => .next s
      | j :: rest =>
        match s.collPortDown j.words with
        | some q => .next (s.raise { code := cProt, w2 := w64 j.addr, w3 := w64 q, agent := 5, agentNo := q, src := .coll die })
        | none =>
          match s.putCollStatus die j 3 with
          | .error s => .next s
          | .ok s => .next ((s.setColl die { s.coll die with jobs := rest, running := some j }).collBuild die j)

/-- Steps of which every block has come. -/
def CollJob.stepsDone (j : CollJob) : Nat :=
  ((collSteps j.words).filter fun n => decide (collChunk j.words / 64 ≤ mget 0 j.got n)).length

/-- A packet of a die's record waits to be sent or acknowledged. -/
def State.collPending (s : State) (d : Nat) : Bool :=
  s.ports.any fun ((_, p) : Nat × Port) =>
    let mine (o : OutPacket) : Bool := match o.origin with | .coll e _ => e == d | _ => false
    (p.sendq.any mine) || p.unacked.any fun e => mine e.2

/-- The running record of a die may complete. -/
def State.collDone (s : State) (d : Nat) : Bool :=
  match (s.coll d).running with
  | some j => j.built && j.fault.isNone && j.stepsDone == (collSteps j.words).length && !s.collPending d
  | none => false

/-- COLL_COMPLETE. -/
def execCollComplete (die : Nat) (s : State) : Out :=
  if !s.collDone die then .next s
  else match (s.coll die).running with
    | none => .next s
    | some j =>
      match s.putCollStatus die j (j.stepsDone * 2 ^ 32 + j.flags.toNat * 2 ^ 8 + 4) with
      | .error s => .next s
      | .ok s =>
        let s := s.setColl die { s.coll die with running := none }
        let w6 := j.words.getD 6 0
        .next (if bit w6 63 then s.arrive j.core (bits w6 56 48) { code := cProt, agent := 2, agentNo := die } else s)

/-! ### Aborts (R163) -/

/-- The record of a tag that an engine holds or runs. -/
def State.collOfTag (s : State) (tag : Nat) : Option (Nat × CollJob) :=
  (List.range 4).findSome? fun d =>
    (((s.coll d).running.toList ++ (s.coll d).jobs).find? fun j => collTag j.words == tag).map fun j => (d, j)

/-- ABORT_PACKET: the launch ends as for the packet of a record that disagrees. -/
def execAbortPacket (port : Nat) (p : Packet) (s : State) : Out :=
  .next (s.receive port p 6 fun s =>
    let (d, w2) := match s.collOfTag p.ctag with
      | some (d, j) => (d, j.addr)
      | none => (port / 3, p.ctag)
    some (s.launchFault { code := cProt, w2 := w64 w2, agent := 2, agentNo := d, src := .coll d }, false))

/-- An abort packet of a tag on a port that carries traffic. -/
def State.abortVia (s : State) (q tag : Nat) (o : Origin) : State := if s.portDown q then s else s.enqueue q ⟨abortPacket tag, o, false⟩

/-- The abort packets of a record on both its ring ports. -/
def State.sendAborts (s : State) (d : Nat) (j : CollJob) : State :=
  [collTxp j.words, collRxp j.words].foldl (fun s q => s.abortVia q (collTag j.words) (.coll d j.addr)) s

/-- The abort packets of held data that no record has taken: on the ports by which data of its tag has come. No record says which the other port
of the ring is (R163; DEDUCED: log entry 138). -/
def State.abortStray (s : State) (tag : Nat) : State :=
  ((s.colls.flatMap fun ((_, e) : Nat × CollEngine) => (e.held.filter fun h => h.2.ctag == tag).map (·.1)).dedup).foldl
    (fun s q => s.abortVia q tag .none) s

end Sys2Proof.Machine
end

