-- ==== Sys2Proof/Machine/Control.lean ====
section
/-! DEFINITION. Control transfers, loops, the nest sequencer, work-ID fields, system registers, SPAWN, SUSPEND, EXIT,
CHKPT, TRAP, BRK, RETT and LSCALE (R293 to R311, R291, R356 to R359, R388 to R391, R398, R399). -/

namespace Sys2Proof.Machine

/-! ### Transfers of control (R293 to R295) -/

/-- The bundle that issues takes its transfer to a target (R293). -/
def State.transferTo (s : State) (target : Word64) (empties : Bool) : State :=
  s.modIss fun i => { i with target := some target, empties, transferred := true }

/-- The target of a branch: the offset counts words from the bundle's header (R294). -/
def State.branchTarget (s : State) (v : Word64) : Word64 := s.iss.pc + 4 * v

/-- BR (R294). -/
def execBr (p : PReg) (neg : Bool) (v : Word64) (s : State) : Out :=
  transferDone (.ok (if s.rdP p != neg then s.transferTo (s.branchTarget v) true else s))

/-- BRL (R294): a31 is written only when the branch is taken. -/
def execBrl (p : PReg) (neg : Bool) (v : Word64) (s : State) : Out :=
  transferDone (.ok (if s.rdP p != neg then (s.transferTo (s.branchTarget v) true).putA 31 s.iss.next 1 else s))

/-- JMP (R295). -/
def execJmp (a : AReg) (v : Word64) (s : State) : Out :=
  let t := s.rdA a + v
  transferDone (if t.toNat % 4 ≠ 0 then alignFault s t 4 else .ok (s.transferTo t true))

/-- JMPL (R295). -/
def execJmpl (d a : AReg) (v : Word64) (s : State) : Out :=
  let t := s.rdA a + v
  transferDone (if t.toNat % 4 ≠ 0 then alignFault s t 4 else .ok ((s.transferTo t true).putA d s.iss.next 1))

/-! ### Rotation and pipelined loops (R296 to R300) -/

/-- rs after one rotation (R296). -/
def rotRs (n : Nat) : Nat := (n + 15) % 16
/-- rp after one rotation. -/
def rotRp (n : Nat) : Nat := (n + 7) % 8
/-- rv after one rotation. -/
def rotRv (n : Nat) : Nat := (n + 7) % 8

/-- Write the offsets of the enabled files from the next issue on: rotated once, or 0 (R296, R299). -/
def State.rotate (s : State) (en : BitVec 3) (zero : Bool) : State :=
  let k := s.cur.k
  let s := if en.getLsbD 0 then s.putK .rs (w64 (if zero then 0 else rotRs k.rs)) else s
  let s := if en.getLsbD 1 then s.putK .rp (w64 (if zero then 0 else rotRp k.rp)) else s
  if en.getLsbD 2 then s.putK .rv (w64 (if zero then 0 else rotRv k.rv)) else s

/-- Write p8 under the name that holds after a BLOOP's own rotation (R298). -/
def State.putStage (s : State) (en : BitVec 3) (b : Bool) : State :=
  let rp := s.cur.k.rp
  s.emit (.p (physP (if en.getLsbD 1 then rotRp rp else rp) 8) b) 1

/-- BLOOP (R298). -/
def execBloop (en : BitVec 3) (v : Word64) (s : State) : Out :=
  let k := s.cur.k
  let target := s.branchTarget v
  transferDone (.ok (
    if 0 < k.lc then (((s.putK .lc (w64 (k.lc - 1))).rotate en false).putStage en true).transferTo target false
    else if 1 < k.ec then (((s.putK .ec (w64 (k.ec - 1))).rotate en false).putStage en false).transferTo target false
    else if k.ec = 1 then ((s.putK .ec 0).rotate en false).putStage en false
    else s))

/-- ROTB (R299). -/
def execRotb (z : Bool) (en : BitVec 3) (s : State) : Out := slotDone (.ok (s.rotate en z))

/-- SETN (R300): n0 to n3, LC or EC. -/
def execSetn (dst : BitVec 3) (a : SReg) (imm : BitVec 14) (s : State) : Out :=
  let v := s.rdS a + imm.signExtend 64
  slotDone (.ok (
    if dst.toNat < 4 then s.emit (.count dst.toNat (v.toNat % 2 ^ 32)) 1
    else if dst.toNat = 4 then s.putK .lc v
    else s.putK .ec v))

/-! ### Nests (R301 to R304) -/

/-- The iterators of a mask that are bound (R301, R302). -/
def Ctx.maskIters (k : Ctx) (mask : BitVec 8) : List Iter :=
  ((List.range 8).filter fun j => mask.getLsbD j).filterMap fun j =>
    let t := vget ({} : Iter) k.it j
    if t.target = 0 then none else some t

/-- A nest read from the counts and iterators in force (R302). -/
def Ctx.readNest (k : Ctx) (rev : Bool) (depth1 : BitVec 2) (mask : BitVec 8) : Nest where
  rev := rev
  depth := depth1.toNat + 1
  counts := (List.range (depth1.toNat + 1)).map fun j => (vget (0 : BitVec 32) k.n j).toNat
  iters := k.maskIters mask
  body := 0
  based := false
  bases := []
  point := 0
  done := 0

/-- The issues of a nest whose body has header h, and the stamp of its last one (R304). -/
def nestOverruns (n : Nest) (h : Word32) : Bool := 2048 < headerStamp h + (headerRep h + 1) * n.points

/-- An overrun fault of the slot that executes (R365). -/
def overrunFault {α : Type} (s : State) : Except State α := slotFault s cOverrun s.iss.pc (w64 s.sclk) 0

/-- NEST in either order: the bundle that follows becomes the body (R302). In a deterministic launch the stamps of its
issues must fit one frame (R304); they are known once the body's header has been fetched. -/
def State.startNest (s : State) (rev : Bool) (depth1 : BitVec 2) (mask : BitVec 8) : Except State State :=
  let n := s.cur.readNest rev depth1 mask
  let go := s.modIss fun i => { i with nest := some n }
  if s.det && computing s.iss.g && !s.cur.unstamped && !s.cur.k.trapIn then
    match s.fetchHeader s.iss.g s.iss.next with
    | .walk va => slotWalk s va 2
    | .got h => if nestOverruns n h then overrunFault s else .ok go
    | .fault .. => .ok go
  else .ok go

/-- NEST (R301, R302). -/
def execNest (depth1 : BitVec 2) (mask : BitVec 8) (s : State) : Out := slotDone (s.startNest false depth1 mask)
/-- NEST.R (R302). -/
def execNestR (depth1 : BitVec 2) (mask : BitVec 8) (s : State) : Out := slotDone (s.startNest true depth1 mask)

/-! ### Work-ID fields (R339, R359) -/

/-- Width j of WIDTHS. -/
def State.workWidth (s : State) (j : Nat) : Nat := if j < 6 then bits (s.launchWord 4) (8 * j + 7) (8 * j) else 0
/-- The number of fields, F: the non-zero widths. -/
def State.workFields (s : State) : Nat := ((List.range 6).filter fun j => s.workWidth j != 0).length
/-- O_j: the lowest bit of field j, and for j at or above F the bit above the last field. -/
def State.workBase (s : State) (j : Nat) : Nat := ((List.range (min j s.workFields)).map s.workWidth).sum

/-- WFLD.GET on a work ID. -/
def State.workGet (s : State) (x : Word64) (j : Nat) : Word64 :=
  if j < s.workFields then w64 (x.toNat / 2 ^ s.workBase j % 2 ^ s.workWidth j) else 0
/-- WFLD.SET on a work ID. -/
def State.workSet (s : State) (x y : Word64) (j : Nat) : Word64 :=
  if j < s.workFields then bfi64 (s.workWidth j) (s.workBase j) x y else x
/-- WFLD.LVL on a work ID. -/
def State.workLevel (s : State) (x : Word64) (j : Nat) : Word64 :=
  w64 (x.toNat / 2 ^ s.workBase j * 2 ^ s.workBase j)

/-- WFLD.GET (R359). -/
def execWfldGet (d a : SReg) (j : BitVec 3) (s : State) : Out := scalarResult d (s.workGet (s.rdS a) j.toNat) 1 s
/-- WFLD.SET (R359). -/
def execWfldSet (d a b : SReg) (j : BitVec 3) (s : State) : Out :=
  scalarResult d (s.workSet (s.rdS a) (s.rdS b) j.toNat) 1 s
/-- WFLD.LVL (R359). -/
def execWfldLvl (d a : SReg) (j : BitVec 3) (s : State) : Out := scalarResult d (s.workLevel (s.rdS a) j.toNat) 1 s

/-! ### System registers (R306 to R310) -/

/-- kctx (R307). -/
def kctxWord (g x : Nat) : Word64 := w64 (dieOf g * 2 ^ 30 + clusterOf g * 2 ^ 24 + g * 2 ^ 8 + x)
/-- kstat (R308). -/
def KRegs.statWord (k : KRegs) : Word64 := w64 (k.ternbad * 2 ^ 48) ||| k.stat
/-- kloop (R297). -/
def KRegs.loopWord (k : KRegs) : Word64 := w64 (k.ec * 2 ^ 32 + k.lc)
/-- krot (R296). -/
def KRegs.rotWord (k : KRegs) : Word64 := w64 (k.rv * 2 ^ 8 + k.rp * 2 ^ 4 + k.rs)
/-- knest (R305). -/
def nestWord (n : Option Nest) : Word64 :=
  match n with
  | some n => w64 (2 ^ 63 + flag n.rev 62 + (n.depth - 1) * 2 ^ 60 + n.done % 2 ^ 60)
  | none => 0
/-- kwany (R349). -/
def KRegs.wanyWord (k : KRegs) : Word64 := w64 (k.wpos * 2 ^ 32 + k.lb * 2 ^ 23 + k.ldm1 * 2 ^ 16 + k.lrot)
/-- kframe (R352): the schedule clock, or outside deterministic launches the core's unfrozen cycles. -/
def State.frameWord (s : State) (g : Nat) : Word64 :=
  let n := if s.det then s.sclk else (s.core g).clock
  w64 (n / 2048 % 2 ^ 32 * 2 ^ 32 + n % 2048)
/-- kdiff (R277). -/
def KRegs.diffWord (k : KRegs) : Word64 := w64 (flag k.tapeOn 1 + flag k.rev 0)
/-- ktrap (R367). -/
def KRegs.trapWord (k : KRegs) : Word64 :=
  w64 (flag k.trapIn 63 + k.trapRep * 2 ^ 35 + k.trapDone.toNat * 2 ^ 30 + k.trapSlot * 2 ^ 27 + k.trapCause)

/-- The value of a k-register of the context that issues (R306); the reserved numbers 0x24 to 0x2F read 0 (R367). -/
def State.kRead (s : State) (n : Nat) : Word64 :=
  let k := s.cur.k
  match n with
  | 0x00 => kctxWord s.iss.g s.iss.x
  | 0x01 => k.kwork
  | 0x02 => k.statWord
  | 0x03 => k.flags.setWidth 64
  | 0x04 => k.loopWord
  | 0x05 => k.rotWord
  | 0x06 => nestWord s.cur.nest
  | 0x07 => w64 (flag s.det 0)
  | 0x08 => k.wanyWord
  | 0x09 => s.frameWord s.iss.g
  | 0x10 => k.spill
  | 0x11 => k.spovf
  | 0x18 => k.diffWord
  | 0x19 => k.tape
  | 0x1A => k.tlim
  | 0x1B => k.tpos
  | 0x1C => k.dreg
  | 0x1D => k.lscale
  | 0x20 => k.trapWord
  | 0x21 => k.tpc
  | 0x22 => k.targ0
  | 0x23 => k.targ1
  | _ => 0

/-- KRD (R310). -/
def execKrd (d : SReg) (k : BitVec 6) (s : State) : Out := scalarResult d (s.kRead k.toNat) 2 s

/-- The low 4 bits of a tape register are read-only 0 (R277). -/
def tapeBits (v : Word64) : Word64 := w64 (v.toNat / 16 * 16)

/-- A tape register written: at once while TAPE or REV is 1, otherwise at the next issue (R289, R310). -/
def State.putTape (s : State) (f : KField) (v : Word64) : State :=
  let k := s.cur.k
  if k.tapeOn || s.reverse then (s.modCur fun c => c.apply (.k f (tapeBits v))).emit (.keepK f) 1 else s.putK f (tapeBits v)

/-- A k-register written by KWR: its RO bits ignore the value, and the W1C bits of kstat are cleared by ones (R310). The spill registers hold
multiples of 64 (R170), so that a KWR leaves their lower bits 0 (DEDUCED: log entry 118). -/
def State.kWrite (s : State) (n : Nat) (v : Word64) : State :=
  match n with
  | 0x02 => (s.emit (.statClear (v &&& 0x1FFE)) 1).putK .ternbad (w64 (bits v 63 48))
  | 0x03 => s.putK .flags v
  | 0x04 => (s.putK .lc (w64 (bits v 31 0))).putK .ec (w64 (bits v 39 32))
  | 0x05 => ((s.putK .rs (w64 (bits v 3 0))).putK .rp (w64 (bits v 6 4))).putK .rv (w64 (bits v 10 8))
  | 0x08 =>
    (((s.putK .wpos (w64 (bits v 34 32))).putK .lb (w64 (bits v 31 23))).putK .ldm1 (w64 (bits v 22 16))).putK .lrot
      (w64 (bits v 6 0))
  | 0x10 => s.putK .spill (w64 (bits v 43 30 * 2 ^ 30 + bits v 19 6 * 2 ^ 6))
  | 0x11 => s.putK .spovf (w64 (v.toNat / 64 * 64))
  | 0x19 => s.putTape .tape v
  | 0x1A => s.putTape .tlim v
  | 0x1B => s.putTape .tpos v
  | 0x1C => s.putK .dreg (v &&& ~~~(0x20 : Word64))
  | 0x1D => s.putK .lscale (v &&& ~~~(w64 (0x7F * 2 ^ 56)))
  | 0x20 => (s.putK .trapDone (w64 (bits v 34 30))).putK .trapRep (w64 (bits v 39 35))
  | 0x21 => s.putK .tpc (w64 (v.toNat / 4 * 4))
  | _ => s

/-- KWR (R310). -/
def execKwr (k : BitVec 6) (a : SReg) (s : State) : Out := slotDone (.ok (s.kWrite k.toNat (s.rdS a)))

/-! ### Continuations and the end of a context (R342, R354, R357, R358) -/

/-- A continuation record that R342 makes malformed. -/
def contMalformed (ws : List Word64) : Bool :=
  let w6 := ws.getD 6 0
  let w7 := ws.getD 7 0
  bits w6 25 11 != 0 || bit w6 7 || 512 < bits w6 63 55 + bits w6 54 48 + 1 || bits w6 54 48 < bits w6 47 41
    || (bit w7 7 && 95 < bits w7 6 0)

/-- A record that a deterministic launch does not let SPAWN enqueue (R354). -/
def State.spawnBarred (s : State) (ws : List Word64) : Bool :=
  s.det && (!bit (ws.getD 7 0) 7 || bits (ws.getD 7 0) 6 0 == 95)

/-- When a spawned record may be taken: at once, or in a deterministic launch 64 or 320 cycles of the schedule clock after
the issue of the SPAWN, however long it has waited for the queue (R354). -/
def State.spawnReady (s : State) (cl : Nat) : Nat :=
  if s.det then s.cur.dueFrom - 1 + (if cl = clusterOf s.iss.g then 64 else 320) else s.cycle

/-- SPAWN (R357). -/
def execSpawn (r : SReg) (own : Bool) (cl : BitVec 4) (s : State) : Out :=
  let va := s.rdS r
  let q := if own then clusterOf s.iss.g else cl.toNat
  slotDone (do
    let l ← slotRecord s va true
    let ws := s.blockWords l.key
    if contMalformed ws || s.spawnBarred ws then protFault s va
    if contQueueSize ≤ (s.cluster q).conts.length then slotWait s (.contRoom q)
    needReleased s
    .ok (s.enqueueCont q ws false (pickupScope (headerScope s.iss.hdr)) (s.spawnReady q) false))

/-- SUSPEND (R358): its record is read now, and the context ends when the bundle's slots have executed. -/
def execSuspend (prio : BitVec 2) (s : State) : Out :=
  let ws := suspendRecord s.cur s.iss.next prio.toNat s.det s.iss.g
  transferDone (.ok (s.modIss fun i => { i with ends := some (.suspend prio.toNat), endRecord := some ws }))

/-- EXIT (R358). -/
def execExit (s : State) : Out := transferDone (.ok (s.modIss fun i => { i with ends := some .exit }))

/-! ### Checkpoints, traps and breakpoints (R388 to R391, R398, R399) -/

/-- CHKPT (R389). -/
def execChkpt (a : SReg) (v : Word64) (s : State) : Out :=
  let t := s.rdS a + v
  slotDone (
    if t.toNat % 256 ≠ 0 then alignFault s t 256
    else .ok ((s.modCur fun k => { k with ckpt := t, ckptAt := (s.core s.iss.g).clock }).modIss
      fun i => { i with stops := i.stops || s.preempting }))

/-- A trap of a slot that commits all the same (R369, R390). -/
def State.trapAfter (s : State) (cause : Nat) (a0 a1 : Word64) : State :=
  s.modIss fun i => { i with traps := i.traps ++ [⟨i.slot, cause, a0, a1⟩] }

/-- TRAP (R390). -/
def execTrap (v : Word64) (s : State) : Out := slotDone (.ok (s.trapAfter 5 v 0))

/-- The slots that a BRK's hold bits name: bit j holds slot j + 1 (R398). -/
def holdsSlot (holds : BitVec 4) (n : Nat) : Bool := 1 ≤ n && holds.getLsbD (n - 1)

/-- BRK (R399): slots held leave the issue without executing, and the trap is taken with SLOT 0. -/
def execBrk (holds : BitVec 4) (id : BitVec 15) (s : State) : Out :=
  slotDone (.ok ((s.modIss fun i =>
    { i with
      undone := i.undone ++ i.pending.filter (fun e => holdsSlot holds e.1),
      pending := i.pending.filter (fun e => !holdsSlot holds e.1) }).trapAfter 6 (id.setWidth 64) (holds.setWidth 64)))

/-- RETT (R391): the return itself follows when the bundle has completed. -/
def execRett (s : State) : Out :=
  transferDone (if s.cur.k.trapIn then .ok (s.modIss fun i => { i with rett := true }) else protFault s s.iss.pc)

/-! ### The loss scale (R290, R291) -/

/-- klscale by field (R290). -/
structure LossScale where
  floor : Bool
  grow : Nat
  clean : Nat
  emax : Int
  emin : Int
  exp : Int
deriving DecidableEq, Repr, Inhabited

/-- The fields of klscale. -/
def lossOf (w : Word64) : LossScale where
  floor := bit w 63
  grow := bits w 55 40
  clean := bits w 39 24
  emax := (w.extractLsb' 16 8).toInt
  emin := (w.extractLsb' 8 8).toInt
  exp := (w.extractLsb' 0 8).toInt

/-- klscale from its fields. -/
def lossWord (l : LossScale) : Word64 :=
  w64 (flag l.floor 63 + l.grow * 2 ^ 40 + l.clean % 2 ^ 16 * 2 ^ 24 + wrapTo 8 l.emax * 2 ^ 16 + wrapTo 8 l.emin * 2 ^ 8 +
    wrapTo 8 l.exp)

/-- A klscale that LSCALE refuses (R291). -/
def LossScale.bad (l : LossScale) : Bool :=
  l.grow == 0 || l.emax < l.emin || l.exp < l.emin || l.emax < l.exp || l.grow < l.clean

/-- One step of the loss scale (R291). -/
def LossScale.step (l : LossScale) (ov : Bool) : LossScale :=
  if ov then
    if l.emin < l.exp then { l with clean := 0, exp := l.exp - 1 } else { l with clean := 0, floor := true }
  else if l.exp = l.emax then { l with clean := min (l.clean + 1) l.grow }
  else if l.clean + 1 = l.grow then { l with exp := l.exp + 1, clean := 0 }
  else { l with clean := l.clean + 1 }

/-- The number by which KRD and KWR name klscale (R306). -/
def kNumLscale : Word64 := 0x1D

/-- LSCALE with the overflow condition as read (R291); both results are visible at the next issue. -/
def lossStep (d : PReg) (ov : Bool) (s : State) : Except State State :=
  let l := lossOf s.cur.k.lscale
  if l.bad then protFault s kNumLscale
  else .ok ((s.putP d (!ov) 1).putK .lscale (lossWord (l.step ov)))

/-- LSCALE (R291). -/
def execLscale (d : PReg) (a : SReg) (s : State) : Out := slotDone (lossStep d (s.rdS a != 0) s)
/-- LSCALE.P (R291). -/
def execLscaleP (d a : PReg) (s : State) : Out := slotDone (lossStep d (s.rdP a) s)

end Sys2Proof.Machine
end

