-- ==== Sys2Proof/Machine/VInt.lean ====
section
/-! DEFINITION. Vector integer and vector data instructions, and lane masks (R205, R206, R213, R215 to R226). -/

namespace Sys2Proof.Machine

/-! ### Integer lanes (R217, R218) -/

/-- A lane read unsigned or signed. -/
def laneInt (u : Bool) (w n : Nat) : Int := if u then n else signedOf w n

/-- The lower limit of a lane of `w` bits. -/
def laneLo (u : Bool) (w : Nat) : Int := if u then 0 else -(2 ^ (w - 1))
/-- The upper limit of a lane of `w` bits. -/
def laneHi (u : Bool) (w : Nat) : Int := if u then 2 ^ w - 1 else 2 ^ (w - 1) - 1

/-- An exact result clamped, with clamp-hit where that changes it. -/
def saturate (u : Bool) (w : Nat) (x : Int) : Nat × BitVec 6 :=
  if x < laneLo u w then (wrapTo w (laneLo u w), fClamp)
  else if laneHi u w < x then (wrapTo w (laneHi u w), fClamp)
  else (wrapTo w x, 0)

/-- An exact result, saturated or wrapped. -/
def laneResult (sat u : Bool) (w : Nat) (x : Int) : Nat × BitVec 6 := if sat then saturate u w x else (wrapTo w x, 0)

/-- Sources of the arithmetic forms are checked (R217); `scales` asks that scales agree. -/
def intSources (s : State) (w : Nat) (a b : VVal) (scales : Bool) : Except State Unit := do
  needFormat s (intCode w) [a, b]
  if scales then needScales s a b

/-- A lane operation of two checked integer sources under a write mask (R217, R218). -/
def intLanes (s : State) (d a b : VRegNo) (m : MReg) (sz : BitVec 2) (f : Nat → Nat → Nat → Nat × BitVec 6) : Out :=
  let x := s.rdV a
  let y := s.rdV b
  let w := sizeBits sz
  slotDone (vUnlessPoison s d 2 [x, y] (do
    intSources s w x y true
    .ok (s.putLanes d (s.rdM m) w (intResult w x y) 2 fun k => f w (laneOf w x.data k) (laneOf w y.data k))))

/-- A shift of lanes: scales are not compared, and the result takes va's descriptor (R217). -/
def shiftLanes (s : State) (d a b : VRegNo) (m : MReg) (sz : BitVec 2) (f : Nat → Nat → Nat → Nat) : Out :=
  let x := s.rdV a
  let y := s.rdV b
  let w := sizeBits sz
  slotDone (vUnlessPoison s d 2 [x, y] (do
    intSources s w x y false
    .ok (s.putLanes d (s.rdM m) w x.desc 2 fun k => (f w (laneOf w x.data k) (laneOf w y.data k), 0))))

/-- A bitwise lane operation: any descriptor but 0xFF, and the result takes va's (R218). -/
def bitLanes (s : State) (d a b : VRegNo) (m : MReg) (sz : BitVec 2) (f : Nat → Nat → Nat) : Out :=
  let x := s.rdV a
  let y := s.rdV b
  let w := sizeBits sz
  slotDone (vUnlessPoison s d 2 [x, y] (
    .ok (s.putLanes d (s.rdM m) w x.desc 2 fun k => (f (laneOf w x.data k) (laneOf w y.data k), 0))))

/-- VADD. -/
def execVadd (d a b : VRegNo) (m : MReg) (sz : BitVec 2) (sat u : Bool) (s : State) : Out :=
  intLanes s d a b m sz fun w x y => laneResult sat u w (laneInt u w x + laneInt u w y)
/-- VSUB. -/
def execVsub (d a b : VRegNo) (m : MReg) (sz : BitVec 2) (sat u : Bool) (s : State) : Out :=
  intLanes s d a b m sz fun w x y => laneResult sat u w (laneInt u w x - laneInt u w y)
/-- VMUL. -/
def execVmul (d a b : VRegNo) (m : MReg) (sz : BitVec 2) (sat u hi : Bool) (s : State) : Out :=
  intLanes s d a b m sz fun w x y =>
    let p := laneInt u w x * laneInt u w y
    if hi then (wrapTo w (p / 2 ^ w), 0) else laneResult sat u w p
/-- VMIN. -/
def execVmin (d a b : VRegNo) (m : MReg) (sz : BitVec 2) (u : Bool) (s : State) : Out :=
  intLanes s d a b m sz fun w x y => (if laneInt u w y < laneInt u w x then y else x, 0)
/-- VMAX. -/
def execVmax (d a b : VRegNo) (m : MReg) (sz : BitVec 2) (u : Bool) (s : State) : Out :=
  intLanes s d a b m sz fun w x y => (if laneInt u w x < laneInt u w y then y else x, 0)
/-- VAND. -/
def execVand (d a b : VRegNo) (m : MReg) (sz : BitVec 2) (s : State) : Out := bitLanes s d a b m sz fun x y => x &&& y
/-- VOR. -/
def execVor (d a b : VRegNo) (m : MReg) (sz : BitVec 2) (s : State) : Out := bitLanes s d a b m sz fun x y => x ||| y
/-- VXOR. -/
def execVxor (d a b : VRegNo) (m : MReg) (sz : BitVec 2) (s : State) : Out := bitLanes s d a b m sz fun x y => x ^^^ y
/-- VSHL. -/
def execVshl (d a b : VRegNo) (m : MReg) (sz : BitVec 2) (s : State) : Out :=
  shiftLanes s d a b m sz fun w x y => if w ≤ y then 0 else x * 2 ^ y % 2 ^ w
/-- VSHR. -/
def execVshr (d a b : VRegNo) (m : MReg) (sz : BitVec 2) (s : State) : Out :=
  shiftLanes s d a b m sz fun w x y => if w ≤ y then 0 else x / 2 ^ y
/-- VSAR. -/
def execVsar (d a b : VRegNo) (m : MReg) (sz : BitVec 2) (s : State) : Out :=
  shiftLanes s d a b m sz fun w x y => wrapTo w (signedOf w x / 2 ^ (min y w))

/-! ### Compare and select (R213, R219, R220) -/

/-- A condition of R213 on two lanes. -/
def laneCond (cc : BitVec 3) (w x y : Nat) : Bool :=
  match cc.toNat with
  | 0 => x == y
  | 1 => x != y
  | 2 => decide (signedOf w x < signedOf w y)
  | 3 => decide (signedOf w x ≤ signedOf w y)
  | 4 => decide (x < y)
  | _ => decide (x ≤ y)

/-- A mask whose bit k is set for the lanes of a mask that satisfy a condition. -/
def maskWhere (lanes : Nat) (m : Word64) (f : Nat → Bool) : Word64 :=
  w64 (joinLanes 1 ((List.range lanes).map fun k => if inMask m k && f k then 1 else 0))

/-- VCMP (R219). -/
def execVcmp (d : MReg) (a b : VRegNo) (m : MReg) (sz : BitVec 2) (cc : BitVec 3) (s : State) : Out :=
  let x := s.rdV a
  let y := s.rdV b
  let w := sizeBits sz
  slotDone (mUnlessPoison s d 2 [x, y] (do
    intSources s w x y true
    .ok (s.putM d (maskWhere (512 / w) (s.rdM m) fun k => laneCond cc w (laneOf w x.data k) (laneOf w y.data k)) 2)))

/-- VSEL (R220): the mask selects, every lane is written. Of two descriptors that differ, the fault record names vb's (DESIGN CHOICE: log entry
127). -/
def execVsel (d a b : VRegNo) (m : MReg) (sz : BitVec 2) (s : State) : Out :=
  let x := s.rdV a
  let y := s.rdV b
  let w := sizeBits sz
  let sel := s.rdM m
  slotDone (vUnlessPoison s d 2 [x, y] (
    if x.desc ≠ y.desc ∧ x.desc ≠ 0 ∧ y.desc ≠ 0 then descFault s y.desc
    else
      let lanes := (List.range (512 / w)).map fun k => if inMask sel k then laneOf w x.data k else laneOf w y.data k
      .ok (s.putV d ⟨ofLanes w lanes, if x.desc = 0 then y.desc else x.desc⟩ 2)))

/-- VMOV (R220). -/
def execVmov (d a : VRegNo) (m : MReg) (sz : BitVec 2) (s : State) : Out :=
  let x := s.rdV a
  let w := sizeBits sz
  slotDone (vUnlessPoison s d 2 [x] (.ok (s.putLanes d (s.rdM m) w x.desc 2 fun k => (laneOf w x.data k, 0))))

/-- VPERM (R220). -/
def execVperm (d a b : VRegNo) (m : MReg) (sz : BitVec 2) (s : State) : Out :=
  let x := s.rdV a
  let y := s.rdV b
  let w := sizeBits sz
  slotDone (vUnlessPoison s d 3 [x, y] (
    .ok (s.putLanes d (s.rdM m) w x.desc 3 fun k =>
      let i := laneOf w y.data k
      (if i < 512 / w then laneOf w x.data i else 0, 0))))

/-! ### Scalars and lanes (R221, R222) -/

/-- VBCAST. -/
def execVbcast (d : VRegNo) (a : SReg) (sz : BitVec 2) (fmt : BitVec 5) (s : State) : Out :=
  let w := if fmt = 0 then sizeBits sz else codeBits fmt.toNat
  let x := (s.rdS a).toNat
  slotDone (.ok (s.putV d ⟨ofLanes w (List.replicate (512 / w) x), mkDesc fmt.toNat 0⟩ 2))

/-- VINS: the old destination is a source (R216). -/
def execVins (d : VRegNo) (a : SReg) (lane : BitVec 6) (sz : BitVec 2) (s : State) : Out :=
  let old := s.rdV d
  let w := sizeBits sz
  slotDone (vUnlessPoison s d 2 [old] (
    .ok (s.putV d ⟨setLane w old.data lane.toNat ((s.rdS a).toNat % 2 ^ w), old.desc⟩ 2)))

/-- VEXT. -/
def execVext (d : SReg) (a : VRegNo) (lane : BitVec 6) (sz : BitVec 2) (sx : Bool) (s : State) : Out :=
  let x := s.rdV a
  let w := sizeBits sz
  let v := laneOf w x.data lane.toNat
  slotDone (.ok (
    if isPoison x.desc then (s.putS d 0 2).putStat stPoison
    else s.putS d (if sx then BitVec.ofInt 64 (signedOf w v) else w64 v) 2))

/-! ### Descriptors (R223) -/

/-- A descriptor that VDESC may write. -/
def newDesc (s : State) (d : VRegNo) (data : Block) (desc : Desc) : Out :=
  slotDone (if 0x0D < descFmt desc then descFault s desc else .ok (s.putV d ⟨data, desc⟩ 2))

/-- VDESC.COPY. -/
def execVdescCopy (d a b : VRegNo) (s : State) : Out := newDesc s d (s.rdV a).data (s.rdV b).desc
/-- VDESC.SET. -/
def execVdescSet (d a b : VRegNo) (s : State) : Out := newDesc s d (s.rdV a).data ((s.rdV b).data.setWidth 16)
/-- VDESC.GET. -/
def execVdescGet (d a : VRegNo) (s : State) : Out :=
  slotDone (.ok (s.putV d ⟨(s.rdV a).desc.setWidth 512, 0⟩ 2))

/-! ### Packing and unpacking (R224, R225) -/

/-- The scale that an integer result takes: that of the source that carries a format, va first (R217, R224). -/
def sourceScale (a b : VVal) : Int := if descFmt a.desc ≠ 0 then descScale a.desc else scaleOf b.desc

/-- VPACK of lanes of `2w` bits into lanes of `w` bits. -/
def packLanes (s : State) (d a b : VRegNo) (w : Nat) (sat : Bool) : Out :=
  let x := s.rdV a
  let y := s.rdV b
  slotDone (vUnlessPoison s d 2 [x, y] (do
    intSources s (2 * w) x y true
    let r := (lanesOf (2 * w) x.data ++ lanesOf (2 * w) y.data).map fun v =>
      laneResult sat false w (signedOf (2 * w) v)
    .ok ((s.putV d ⟨ofLanes w (r.map (·.1)), mkDesc (intCode w) (sourceScale x y)⟩ 2).putFlags
      ((r.map (·.2)).foldl (· ||| ·) 0) 2)))

/-- VPACK.H2B. -/
def execVpackH2b (d a b : VRegNo) (sat : Bool) (s : State) : Out := packLanes s d a b 8 sat
/-- VPACK.W2H. -/
def execVpackW2h (d a b : VRegNo) (sat : Bool) (s : State) : Out := packLanes s d a b 16 sat
/-- VPACK.D2W. -/
def execVpackD2w (d a b : VRegNo) (sat : Bool) (s : State) : Out := packLanes s d a b 32 sat

/-- The TERN2 code of a signed value. -/
def ternCode (w : Int) : Nat := if w = 0 then 0 else if 0 < w then 1 else 3

/-- VPACK.T2: the other half of v[d] is kept, so v[d] is a source (R216). -/
def execVpackT2 (d a b : VRegNo) (half : Bool) (s : State) : Out :=
  let x := s.rdV a
  let y := s.rdV b
  let old := s.rdV d
  slotDone (vUnlessPoison s d 2 [x, y, old] (do
    intSources s 8 x y true
    let vals := (lanesOf 8 x.data ++ lanesOf 8 y.data).map (signedOf 8)
    let codes := vals.map ternCode
    let keep := lanesOf 2 old.data
    let lanes := if half then keep.take 128 ++ codes else codes ++ keep.drop 128
    .ok ((s.putV d ⟨ofLanes 2 lanes, mkDesc 0x0B (sourceScale x y)⟩ 2).putFlags
      (fIf (vals.any fun v => v < -1 || 1 < v) fClamp) 2)))

/-- VUNPACK of lanes of `w` bits into lanes of `2w` bits. -/
def unpackLanes (s : State) (d a : VRegNo) (w : Nat) (part u : Bool) : Out :=
  let x := s.rdV a
  let n := 256 / w
  slotDone (vUnlessPoison s d 2 [x] (do
    needFormat s (intCode w) [x]
    let src := (List.range n).map fun k => laneOf w x.data (k + if part then n else 0)
    .ok (s.putV d ⟨ofLanes (2 * w) (src.map fun v => wrapTo (2 * w) (laneInt u w v)),
      mkDesc (intCode (2 * w)) (scaleOf x.desc)⟩ 2)))

/-- VUNPACK.B2H. -/
def execVunpackB2h (d a : VRegNo) (part u : Bool) (s : State) : Out := unpackLanes s d a 8 part u
/-- VUNPACK.H2W. -/
def execVunpackH2w (d a : VRegNo) (part u : Bool) (s : State) : Out := unpackLanes s d a 16 part u
/-- VUNPACK.W2D. -/
def execVunpackW2d (d a : VRegNo) (part u : Bool) (s : State) : Out := unpackLanes s d a 32 part u

/-- The weight that a TERN2 code stands for (R225, R229). -/
def ternWeight (c : Nat) : Int := match c with | 1 => 1 | 3 => -1 | _ => 0

/-- VUNPACK.T2. Its count is seen from the next issue on (DESIGN CHOICE: log entry 126). -/
def execVunpackT2 (d a : VRegNo) (part : BitVec 2) (s : State) : Out :=
  let x := s.rdV a
  slotDone (vUnlessPoison s d 2 [x] (do
    needFormat s 0x0B [x]
    let codes := (List.range 64).map fun k => laneOf 2 x.data (64 * part.toNat + k)
    .ok ((s.putV d ⟨ofLanes 8 (codes.map fun c => wrapTo 8 (ternWeight c)), mkDesc 7 (scaleOf x.desc)⟩ 2).putTernbad
      (codes.filter (· == 2)).length 1)))

/-! ### Lane masks (R226) -/

/-- A mask result. -/
def maskResult (d : MReg) (v : Word64) (s : State) : Out := slotDone (.ok (s.putM d v 2))

/-- MLOG.AND. -/
def execMlogAnd (d a b : MReg) (s : State) : Out := maskResult d (s.rdM a &&& s.rdM b) s
/-- MLOG.OR. -/
def execMlogOr (d a b : MReg) (s : State) : Out := maskResult d (s.rdM a ||| s.rdM b) s
/-- MLOG.XOR. -/
def execMlogXor (d a b : MReg) (s : State) : Out := maskResult d (s.rdM a ^^^ s.rdM b) s
/-- MLOG.ANDN. -/
def execMlogAndn (d a b : MReg) (s : State) : Out := maskResult d (s.rdM a &&& ~~~s.rdM b) s
/-- MLOG.NOT. -/
def execMlogNot (d a : MReg) (s : State) : Out := maskResult d (~~~s.rdM a) s
/-- MLOG.FROMV. -/
def execMlogFromv (d : MReg) (a : VRegNo) (s : State) : Out :=
  let x := s.rdV a
  slotDone (mUnlessPoison s d 2 [x] (.ok (s.putM d (x.data.setWidth 64) 2)))
/-- MLOG.TOV. -/
def execMlogTov (d : VRegNo) (a : MReg) (s : State) : Out := slotDone (.ok (s.putV d ⟨(s.rdM a).setWidth 512, 0⟩ 2))
/-- MLOG.ISO. -/
def execMlogIso (d a : MReg) (s : State) : Out := maskResult d (s.rdM a &&& -(s.rdM a)) s

end Sys2Proof.Machine
end

