-- ==== Sys2Proof/Machine/VFloat.lean ====
section
/-! DEFINITION. Vector floating-point arithmetic, sign, compare, classify, conversion, scales, reductions and exact sums
(R237 to R239, R242 to R250). -/

namespace Sys2Proof.Machine

/-! ### Shared forms (R237 to R239) -/

/-- Element width of an FMT field. -/
def fmtBits (f : BitVec 2) : Nat := codeBits (fmtCode f)

/-- A latency that FP64 does not share with the narrower formats (R238). -/
def fmtLat (f : BitVec 2) (wide narrow : Nat) : Nat := if f = 0 then wide else narrow

/-- The lanes of a floating-point result: each value rounded once into the format (R239). -/
def roundLane (f : BitVec 2) (rm : BitVec 3) (cl : Bool) (r : Num × BitVec 6) : Nat × BitVec 6 :=
  let (v, fl) := roundF (fmtOf f) rm.toNat cl r.1
  (v, r.2 ||| fl)

/-- A lane-wise floating-point operation on checked sources (R216, R237). -/
def floatLanes (s : State) (d : VRegNo) (m : MReg) (f : BitVec 2) (lat : Nat) (src : List VVal)
    (op : Nat → Nat × BitVec 6) : Out :=
  slotDone (vUnlessPoison s d lat src (do
    needFloat s (fmtCode f) src
    .ok (s.putLanes d (s.rdM m) (fmtBits f) (mkDesc (fmtCode f) 0) lat op)))

/-- Two-source arithmetic. -/
def float2 (s : State) (d a b : VRegNo) (m : MReg) (rm : BitVec 3) (cl : Bool) (f : BitVec 2) (lat : Nat)
    (op : Num → Num → Num × BitVec 6) : Out :=
  let x := s.rdV a
  let y := s.rdV b
  floatLanes s d m f lat [x, y] fun k =>
    roundLane f rm cl (op (laneNum (fmtCode f) x k) (laneNum (fmtCode f) y k))

/-- Multiply-add forms, whose third source is v[d] (R238). -/
def float3 (s : State) (d a b : VRegNo) (m : MReg) (rm : BitVec 3) (cl : Bool) (f : BitVec 2)
    (op : Num → Num → Num → Num × BitVec 6) : Out :=
  let x := s.rdV a
  let y := s.rdV b
  let z := s.rdV d
  floatLanes s d m f (fmtLat f 6 4) [x, y, z] fun k =>
    roundLane f rm cl (op (laneNum (fmtCode f) x k) (laneNum (fmtCode f) y k) (laneNum (fmtCode f) z k))

/-- VFADD. -/
def execVfadd (d a b : VRegNo) (m : MReg) (rm : BitVec 3) (cl : Bool) (fmt : BitVec 2) (s : State) : Out :=
  float2 s d a b m rm cl fmt (fmtLat fmt 6 4) fun x y => fAdd rm.toNat x y
/-- VFSUB. -/
def execVfsub (d a b : VRegNo) (m : MReg) (rm : BitVec 3) (cl : Bool) (fmt : BitVec 2) (s : State) : Out :=
  float2 s d a b m rm cl fmt (fmtLat fmt 6 4) fun x y => fAdd rm.toNat x y.negate
/-- VFMUL. -/
def execVfmul (d a b : VRegNo) (m : MReg) (rm : BitVec 3) (cl : Bool) (fmt : BitVec 2) (s : State) : Out :=
  float2 s d a b m rm cl fmt (fmtLat fmt 6 4) fMul
/-- VFDIV. -/
def execVfdiv (d a b : VRegNo) (m : MReg) (rm : BitVec 3) (cl : Bool) (fmt : BitVec 2) (s : State) : Out :=
  float2 s d a b m rm cl fmt (fmtLat fmt 20 12) fDiv
/-- VFMA. -/
def execVfma (d a b : VRegNo) (m : MReg) (rm : BitVec 3) (cl : Bool) (fmt : BitVec 2) (s : State) : Out :=
  float3 s d a b m rm cl fmt fun x y z => fFma rm.toNat x y z
/-- VFMS. -/
def execVfms (d a b : VRegNo) (m : MReg) (rm : BitVec 3) (cl : Bool) (fmt : BitVec 2) (s : State) : Out :=
  float3 s d a b m rm cl fmt fun x y z => fFma rm.toNat x y z.negate
/-- VFNMA. -/
def execVfnma (d a b : VRegNo) (m : MReg) (rm : BitVec 3) (cl : Bool) (fmt : BitVec 2) (s : State) : Out :=
  float3 s d a b m rm cl fmt fun x y z => fFma rm.toNat x.negate y z

/-- VFSQRT. -/
def execVfsqrt (d a : VRegNo) (m : MReg) (rm : BitVec 3) (cl : Bool) (fmt : BitVec 2) (s : State) : Out :=
  let x := s.rdV a
  floatLanes s d m fmt (fmtLat fmt 20 12) [x] fun k => roundLane fmt rm cl (fSqrt (laneNum (fmtCode fmt) x k))

/-- A lane of VFMIN or VFMAX: invalid is its only flag (R239). -/
def pickLane (f : BitVec 2) (r : Num × BitVec 6) : Nat × BitVec 6 :=
  ((roundF (fmtOf f) 0 false r.1).1, r.2 &&& fInvalid)

/-- VFMIN. -/
def execVfmin (d a b : VRegNo) (m : MReg) (fmt : BitVec 2) (s : State) : Out :=
  let x := s.rdV a
  let y := s.rdV b
  floatLanes s d m fmt 2 [x, y] fun k => pickLane fmt (fMin (laneNum (fmtCode fmt) x k) (laneNum (fmtCode fmt) y k))
/-- VFMAX. -/
def execVfmax (d a b : VRegNo) (m : MReg) (fmt : BitVec 2) (s : State) : Out :=
  let x := s.rdV a
  let y := s.rdV b
  floatLanes s d m fmt 2 [x, y] fun k => pickLane fmt (fMax (laneNum (fmtCode fmt) x k) (laneNum (fmtCode fmt) y k))

/-- VFRINT: invalid and inexact are its only flags (R239). -/
def execVfrint (d a : VRegNo) (m : MReg) (rm : BitVec 3) (fmt : BitVec 2) (s : State) : Out :=
  let x := s.rdV a
  floatLanes s d m fmt 4 [x] fun k =>
    let (v, fl) := roundLane fmt rm false (fRint rm.toNat (laneNum (fmtCode fmt) x k))
    (v, fl &&& (fInvalid ||| fInexact))

/-! ### Signs, compare, classify (R242 to R244) -/

/-- Bits of an element with another sign. -/
def withSign (w v : Nat) (neg : Bool) : Nat := v % 2 ^ (w - 1) + if neg then 2 ^ (w - 1) else 0

/-- VFSGN with a rule for the sign. -/
def signLanes (s : State) (d a b : VRegNo) (m : MReg) (f : BitVec 2) (op : Bool → Bool → Bool) : Out :=
  let x := s.rdV a
  let y := s.rdV b
  let w := fmtBits f
  slotDone (vUnlessPoison s d 2 [x, y] (do
    needFloat s (fmtCode f) [x, y]
    .ok (s.putLanes d (s.rdM m) w (if x.desc = 0 then mkDesc (fmtCode f) 0 else x.desc) 2 fun k =>
      let u := laneOf w x.data k
      (withSign w u (op (u.testBit (w - 1)) ((laneOf w y.data k).testBit (w - 1))), 0))))

/-- VFSGN.COPY. -/
def execVfsgnCopy (d a b : VRegNo) (m : MReg) (fmt : BitVec 2) (s : State) : Out :=
  signLanes s d a b m fmt fun _ y => y
/-- VFSGN.NEG. -/
def execVfsgnNeg (d a b : VRegNo) (m : MReg) (fmt : BitVec 2) (s : State) : Out :=
  signLanes s d a b m fmt fun _ y => !y
/-- VFSGN.XOR. -/
def execVfsgnXor (d a b : VRegNo) (m : MReg) (fmt : BitVec 2) (s : State) : Out :=
  signLanes s d a b m fmt fun x y => x != y

/-- A condition of R243. -/
def floatCond (cc : BitVec 3) (x y : Num) : Bool :=
  let un := x.isNan || y.isNan
  match cc.toNat with
  | 0 => !un && cmpNum x y == .eq
  | 1 => un || cmpNum x y != .eq
  | 2 => !un && cmpNum x y == .lt
  | 3 => !un && cmpNum x y != .gt
  | _ => un

/-- The flag of one compared pair. -/
def compareFlag (sg : Bool) (x y : Num) : BitVec 6 :=
  fIf (x.isSignalling || y.isSignalling || (sg && (x.isNan || y.isNan))) fInvalid

/-- VFCMP. -/
def execVfcmp (d : MReg) (a b : VRegNo) (m : MReg) (cc : BitVec 3) (sg : Bool) (fmt : BitVec 2) (s : State) : Out :=
  let x := s.rdV a
  let y := s.rdV b
  let n := 512 / fmtBits fmt
  let code := fmtCode fmt
  slotDone (mUnlessPoison s d 2 [x, y] (do
    needFloat s code [x, y]
    let named := (List.range n).filter (inMask (s.rdM m))
    let fl := (named.map fun k => compareFlag sg (laneNum code x k) (laneNum code y k)).foldl (· ||| ·) 0
    .ok ((s.putM d (maskWhere n (s.rdM m) fun k => floatCond cc (laneNum code x k) (laneNum code y k)) 2).putFlags fl 2)))

/-- The class bit of an element (R244). -/
def classOf (f : FFmt) (v : Nat) : Nat :=
  match decodeF f v with
  | .nan _ _ q => if q then 9 else 8
  | .inf s => if s then 0 else 7
  | .fin s m e =>
    if m = 0 then (if s then 3 else 4)
    else if topExp m e < f.emin then (if s then 2 else 5)
    else (if s then 1 else 6)

/-- VFCLASS. -/
def execVfclass (d a : VRegNo) (m : MReg) (fmt : BitVec 2) (s : State) : Out :=
  let x := s.rdV a
  let w := fmtBits fmt
  slotDone (vUnlessPoison s d 2 [x] (do
    needFloat s (fmtCode fmt) [x]
    .ok (s.putLanes d (s.rdM m) w (mkDesc (intCode w) 0) 2 fun k => (2 ^ classOf (fmtOf fmt) (laneOf w x.data k), 0))))

/-! ### Conversion (R246) -/

/-- A value converted to integers of `w` bits. -/
def convertInt (w : Nat) (fromFloat : Bool) (rm : Nat) (x : Num) : Nat × BitVec 6 :=
  let out := if fromFloat then fInvalid else fClamp
  match x with
  | .nan .. => (0, fInvalid)
  | .inf s => (wrapTo w (if s then laneLo false w else laneHi false w), out)
  | .fin s m e =>
    let (n, ch) := roundAt rm s m e 0
    let q : Int := if s then -(n : Int) else n
    if q < laneLo false w then (wrapTo w (laneLo false w), out)
    else if laneHi false w < q then (wrapTo w (laneHi false w), out)
    else (wrapTo w q, fIf ch fInexact)

/-- Cvt of R246. -/
def convert (src dst rm : Nat) (cl : Bool) (x : Num) : Nat × BitVec 6 :=
  match fmtOfCode dst with
  | some f => roundF f rm cl x
  | none => convertInt (codeBits dst) (fmtOfCode src).isSome rm x

/-- VFCVT. -/
def execVfcvt (d a : VRegNo) (cl : Bool) (src : BitVec 4) (rm part : BitVec 3) (dst : BitVec 5) (s : State) : Out :=
  let x := s.rdV a
  let old := s.rdV d
  let ws := codeBits src.toNat
  let wd := codeBits dst.toNat
  let narrows := decide (wd < ws)
  slotDone (vUnlessPoison s d 4 (if narrows then [x, old] else [x]) (do
    if (fmtOfCode src.toNat).isSome then needFloat s src.toNat [x] else needFormat s src.toNat [x]
    let n := 512 / max ws wd
    let first := if narrows then part.toNat * n else 0
    let from_ := if narrows then 0 else part.toNat * n
    let r := (List.range n).map fun j => convert src.toNat dst.toNat rm.toNat cl (laneNum src.toNat x (from_ + j))
    let lanes := (List.range (512 / wd)).map fun k =>
      if first ≤ k ∧ k < first + n then (r.getD (k - first) (0, 0)).1 else laneOf wd old.data k
    .ok ((s.putV d ⟨ofLanes wd lanes, mkDesc dst.toNat 0⟩ 4).putFlags ((r.map (·.2)).foldl (· ||| ·) 0) 4)))

/-! ### Scales (R247) -/

/-- VSCALE.REL. -/
def execVscaleRel (d a b : VRegNo) (s : State) : Out :=
  let x := s.rdV a
  let y := s.rdV b
  slotDone (vUnlessPoison s d 2 [x, y] (do
    let f := descFmt x.desc
    if f == 0 || 0x0B < f then descFault s x.desc
    let k := descScale x.desc + signedOf 8 (laneOf 8 y.data 0)
    if k < -128 || 127 < k then descFault s x.desc
    .ok (s.putV d ⟨x.data, mkDesc f k⟩ 2)))

/-- The least t with q at most g * 2^t, for positive finite q and g. -/
def fitScale (mq : Nat) (eq : Int) (mg : Nat) (eg : Int) : Int :=
  let t := topExp mq eq - topExp mg eg
  if (addFin false mq eq true mg (eg + t)).1 ≤ 0 then t else t + 1

/-- The larger of two magnitudes. -/
def maxMag (x y : Nat × Int) : Nat × Int := if 0 < (addFin false y.1 y.2 true x.1 x.2).1 then y else x

/-- The magnitude of a finite value other than zero. -/
def Num.magnitude : Num → Option (Nat × Int)
  | .fin _ m e => if m = 0 then none else some (m, e)
  | _ => none

/-- VSCALE.FIT. -/
def execVscaleFit (d a : VRegNo) (m : MReg) (fmt : BitVec 5) (s : State) : Out :=
  let x := s.rdV a
  slotDone (vUnlessPoison s d 2 [x] (do
    let c := descFmt x.desc
    if c == 0 || 6 < c then descFault s x.desc
    let mags := ((List.range (512 / codeBits c)).filter (inMask (s.rdM m))).filterMap fun k =>
      (laneNum c x k).magnitude
    let (t, fl) : Int × BitVec 6 := match mags, fmtOfCode fmt.toNat with
      | q :: qs, some f =>
        let (mq, eq) := qs.foldl maxMag q
        match decodeF f (packF f false f.maxBits) with
        | .fin _ mg eg =>
          let t := fitScale mq eq mg eg
          if t < -128 then (-128, fClamp) else if 127 < t then (127, fClamp) else (t, 0)
        | _ => (0, 0)
      | _, _ => (0, 0)
    .ok ((s.putV d ⟨BitVec.ofNat 512 (wrapTo 8 t), mkDesc 7 0⟩ 2).putFlags fl 2)))

/-! ### Reductions (R248) -/

/-- The operation of a reduction. -/
inductive RedOp where
  | add | min | max
deriving DecidableEq, Repr, Inhabited

/-- One step: an addition is rounded into the format. -/
def redStep (op : RedOp) (f : FFmt) (rm : Nat) (a b : Num) : Num × BitVec 6 :=
  match op with
  | .add =>
    let (r, f1) := fAdd rm a b
    let (v, f2) := roundF f rm false r
    (decodeF f v, f1 ||| f2)
  | .min => fMin a b
  | .max => fMax a b

/-- The value of an empty reduction. -/
def RedOp.empty : RedOp → Num
  | .add => .fin false 0 0
  | .min => .inf false
  | .max => .inf true

/-- The steps in sequence. -/
def redSeq (op : RedOp) (f : FFmt) (rm : Nat) : List Num → Num × BitVec 6
  | [] => (op.empty, 0)
  | x :: xs => xs.foldl (fun (a, fl) y => let (r, g) := redStep op f rm a y; (r, fl ||| g)) (x, 0)

/-- One level of the tree: positions 2i and 2i + 1. -/
def redLevel (op : RedOp) (f : FFmt) (rm : Nat) : List (Option Num) → List (Option Num) × BitVec 6
  | a :: b :: l =>
    let (r, fl) := redLevel op f rm l
    match a, b with
    | some x, some y => let (z, g) := redStep op f rm x y; (some z :: r, fl ||| g)
    | some x, none => (some x :: r, fl)
    | none, y => (y :: r, fl)
  | [a] => ([a], 0)
  | [] => ([], 0)

/-- The levels of the tree. -/
def redTree (op : RedOp) (f : FFmt) (rm : Nat) : Nat → List (Option Num) → Num × BitVec 6
  | 0, l => ((l.head?.join).getD op.empty, 0)
  | n + 1, l =>
    let (l', fl) := redLevel op f rm l
    let (r, fl') := redTree op f rm n l'
    (r, fl ||| fl')

/-- VRED: rm rounds the ADD steps, and MIN and MAX round as VFMIN and VFMAX do, under RNE. A reduction of one lane takes no step: that its value
is brought into the format under rm for ADD and under RNE otherwise is the model's choice (log entry 80). -/
def reduce (op : RedOp) (d a : VRegNo) (m : MReg) (rm : BitVec 3) (t : Bool) (fmt : BitVec 2) (s : State) : Out :=
  let x := s.rdV a
  let f := fmtOf fmt
  let w := fmtBits fmt
  slotDone (vUnlessPoison s d 8 [x] (do
    needFloat s (fmtCode fmt) [x]
    let lanes := (List.range (512 / w)).map fun k => if inMask (s.rdM m) k then some (laneNum (fmtCode fmt) x k) else none
    let (r, fl) := if t then redTree op f rm.toNat 5 lanes else redSeq op f rm.toNat (lanes.filterMap id)
    let (v, fl') := roundF f (if op = .add then rm.toNat else 0) false r
    let fl := fl ||| fl'
    .ok ((s.putV d ⟨BitVec.ofNat 512 v, mkDesc (fmtCode fmt) 0⟩ 8).putFlags
      (if op = .add then fl else fl &&& fInvalid) 8)))

/-- VRED.ADD. -/
def execVredAdd (d a : VRegNo) (m : MReg) (rm : BitVec 3) (t : Bool) (fmt : BitVec 2) (s : State) : Out :=
  reduce .add d a m rm t fmt s
/-- VRED.MIN. -/
def execVredMin (d a : VRegNo) (m : MReg) (rm : BitVec 3) (t : Bool) (fmt : BitVec 2) (s : State) : Out :=
  reduce .min d a m rm t fmt s
/-- VRED.MAX. -/
def execVredMax (d a : VRegNo) (m : MReg) (rm : BitVec 3) (t : Bool) (fmt : BitVec 2) (s : State) : Out :=
  reduce .max d a m rm t fmt s

/-! ### Exact sums (R249, R250) -/

/-- A finite FP32 value as a multiple of 2^-149. -/
def fixedOf (x : Num) : Int :=
  match x with
  | .fin s m e => let n : Int := shiftNat m (e + 149); if s then -n else n
  | _ => 0

/-- Limb i of the nine-limb representation (R249). -/
def limb (n : Int) (i : Nat) : Int :=
  let d : Int := n.natAbs / 2 ^ (32 * i) % 2 ^ 32
  if n < 0 then -d else d

/-- The lanes of a SPLIT source. -/
def splitLanes (s : State) (a : VRegNo) (m : MReg) : List Num :=
  ((List.range 16).filter (inMask (s.rdM m))).map (laneNum 2 (s.rdV a))

/-- A SPLIT with its eight result lanes (R250). -/
def splitSum (s : State) (d a : VRegNo) (m : MReg) (f : List Num → List Int) : Out :=
  let x := s.rdV a
  slotDone (vUnlessPoison s d 4 [x] (
    if x.desc ≠ 0 ∧ x.desc ≠ mkDesc 2 0 then descFault s x.desc
    else .ok (s.putV d ⟨ofLanes 64 ((f (splitLanes s a m)).map (wrapTo 64)), mkDesc 0x0A 0⟩ 4)))

/-- VFXS.SPLIT.LO. -/
def execVfxsSplitLo (d a : VRegNo) (m : MReg) (s : State) : Out :=
  splitSum s d a m fun l =>
    let n := (l.map fixedOf).sum
    (List.range 8).map (limb n)

/-- VFXS.SPLIT.HI. -/
def execVfxsSplitHi (d a : VRegNo) (m : MReg) (s : State) : Out :=
  splitSum s d a m fun l =>
    [limb (l.map fixedOf).sum 8, (l.filter fun x => x.isInf && !x.neg?).length,
      (l.filter fun x => x.isInf && x.neg?).length, (l.filter Num.isNan).length, 0, 0, 0, 0]

/-- A descriptor that JOIN accepts. -/
def joinable (d : Desc) : Bool := d == mkDesc 0x0A 0 || d == mkDesc 0x0D 0 || d == 0

/-- The exact sum that JOIN rounds, with its flags (R250). -/
def joinSum (x y : VVal) (rm : Nat) : Num × BitVec 6 :=
  let lane (v : VVal) (k : Nat) : Int := signedOf 64 (laneOf 64 v.data k)
  let pos := decide (0 < lane y 1)
  let neg := decide (0 < lane y 2)
  if 0 < lane y 3 then (canonNan, 0)
  else if pos && neg then (canonNan, fInvalid)
  else if pos then (.inf false, 0)
  else if neg then (.inf true, 0)
  else
    let n := ((List.range 8).map fun i => lane x i * 2 ^ (32 * i)).sum + lane y 0 * 2 ^ 256
    if n = 0 then (.fin (rm == 2) 0 0, 0) else (.fin (n < 0) n.natAbs (-149), 0)

/-- VFXS.JOIN. -/
def execVfxsJoin (d a b : VRegNo) (rm : BitVec 3) (cl : Bool) (s : State) : Out :=
  let x := s.rdV a
  let y := s.rdV b
  slotDone (vUnlessPoison s d 6 [x, y] (do
    if !joinable x.desc then descFault s x.desc
    if !joinable y.desc then descFault s y.desc
    let (r, fl) := joinSum x y rm.toNat
    let (v, fl') := roundF fp32 rm.toNat cl r
    .ok ((s.putV d ⟨BitVec.ofNat 512 v, mkDesc 2 0⟩ 6).putFlags (fl ||| fl') 6)))

end Sys2Proof.Machine
end

