-- ==== Sys2Proof/Machine/Functions.lean ====
section
/-! DEFINITION. The function instructions (R240, R241). A value is computed in fixed point, far more precisely than any
format holds, with a sticky last bit because it is never exact; BF16 and FP16 results are rounded from it, and for FP64 and
FP32 any value within the bound may result, which `Config.functionPick` chooses (log entry 17). -/

namespace Sys2Proof.Machine

/-! ### Fixed-point series -/

/-- Fraction bits of the series. -/
def fxBits : Nat := 512
/-- 1 in fixed point. -/
def fxOne : Int := 2 ^ fxBits

/-- Σ z^(2i+1) / (2i+1) with signs all equal, for `n` terms from the term `t` = z^(2i+1) on, with z2 = z². -/
def atanhTerms (bits_ : Nat) (z2 : Int) : Nat → Nat → Int → Int
  | 0, _, _ => 0
  | n + 1, i, t => t / (2 * i + 1) + atanhTerms bits_ z2 n (i + 1) (t * z2 / 2 ^ bits_)

/-- Artanh of a fixed-point number of small magnitude. -/
def fxAtanh (z : Int) : Int := atanhTerms fxBits (z * z / fxOne) 170 0 z

/-- ln 2, twice the artanh of 1/3. -/
def fxLn2 : Int := 2 * fxAtanh (fxOne / 3)

/-- Σ r^i / i! for `n` terms from the term `t` = r^i / i! on. -/
def expTerms (r : Int) : Nat → Nat → Int → Int
  | 0, _, _ => 0
  | n + 1, i, t => t + expTerms r n (i + 1) (t * r / fxOne / (i + 1))

/-- e^r for r in [0, 1). -/
def fxExp (r : Int) : Int := expTerms r 130 0 fxOne

/-- Terms of sine and cosine: every second term of the exponential series, with alternating sign. -/
def trigTerms (r2 : Int) : Nat → Nat → Int → Int
  | 0, _, _ => 0
  | n + 1, i, t => t + trigTerms r2 n (i + 2) (-(t * r2 / fxOne / ((i + 1) * (i + 2))))

/-- sin r for r in [-1, 1]. -/
def fxSin (r : Int) : Int := trigTerms (r * r / fxOne) 65 1 r
/-- cos r for r in [-1, 1]. -/
def fxCos (r : Int) : Int := trigTerms (r * r / fxOne) 65 0 fxOne

/-- Fraction bits of pi: enough to reduce the largest argument exactly. -/
def piBits : Nat := 1536

/-- Arctangent of 1/k in `piBits`. -/
def fxAtanInv (k : Int) : Int := atanhTerms piBits (-(2 ^ piBits / (k * k))) 360 0 (2 ^ piBits / k)

/-- Half of pi in `piBits`, by Machin's formula. -/
def halfPi : Int := 2 * (4 * fxAtanInv 5 - fxAtanInv 239)

/-! ### Inexact values -/

/-- A value just below (`up` false) or above a finite one. -/
def besides (m : Nat) (e : Int) (up : Bool) : Nat × Int :=
  (if up then m * 2 ^ 400 + 1 else m * 2 ^ 400 - 1, e - 400)

/-- A fixed-point magnitude with a sticky last bit. -/
def stickyFx (x : Int) (k : Int) : Nat × Int := (2 * x.natAbs + 1, k - fxBits - 1)

/-- m * 2^e with a sign in fixed point. -/
def toFx (neg : Bool) (m : Nat) (e : Int) : Int :=
  let n : Int := shiftNat m (e + fxBits)
  if neg then -n else n

/-- e^x for a finite x other than 0. -/
def expValue (neg : Bool) (m : Nat) (e : Int) : Nat × Int :=
  if 12 ≤ topExp m e then (1, if neg then -5000 else 5000)
  else if topExp m e < -200 then besides 1 0 (!neg)
  else
    let x := toFx neg m e
    let k := x / fxLn2
    stickyFx (fxExp (x - k * fxLn2)) k

/-- 2^x for a finite x that is no integer, or out of range. -/
def exp2Value (neg : Bool) (m : Nat) (e : Int) : Nat × Int :=
  if 12 ≤ topExp m e then (1, if neg then -5000 else 5000)
  else if topExp m e < -200 then besides 1 0 (!neg)
  else
    let x := toFx neg m e
    let k := x / fxOne
    stickyFx (fxExp ((x - k * fxOne) * fxLn2 / fxOne)) k

/-- ln x for a positive finite x other than 1, in fixed point. -/
def lnFx (m : Nat) (e : Int) : Int :=
  let top := topExp m e
  let f := toFx false m (e - top)
  let (f, k) := if 2 * f < 3 * fxOne then (f, top) else (f / 2, top + 1)
  k * fxLn2 + 2 * fxAtanh ((f - fxOne) * fxOne / (f + fxOne))

/-- The sine or cosine of a finite x: sign, and magnitude. -/
def trigValue (cosine : Bool) (neg : Bool) (m : Nat) (e : Int) : Bool × (Nat × Int) :=
  if topExp m e < -200 then (if cosine then (false, besides 1 0 false) else (neg, besides m e false))
  else
    let x : Int := m * 2 ^ (e + piBits).toNat
    let n := (2 * x + halfPi) / (2 * halfPi)
    let r := (x - n * halfPi) / 2 ^ (piBits - fxBits)
    let q := (n + if cosine then 1 else 0) % 4
    let v := if q % 2 = 0 then fxSin r else fxCos r
    let v := if 2 ≤ q then -v else v
    ((v < 0) != (neg && !cosine), stickyFx v 0)

/-- tanh of a finite positive x. -/
def tanhValue (m : Nat) (e : Int) : Nat × Int :=
  if topExp m e < -100 then besides m e false
  else if 8 ≤ topExp m e then besides 1 0 false
  else
    let x := 2 * toFx false m e
    let k := x / fxLn2
    let s := fxExp (x - k * fxLn2) * 2 ^ k.toNat
    stickyFx ((s - fxOne) * fxOne / (s + fxOne)) 0

/-! ### Results within a bound (R241) -/

/-- n * 2^(q - 1) is a value of a format with significands of `p` bits when 2^q is the spacing at the result. -/
def onGrid (p n : Nat) : Bool := (n ≤ 2 ^ p || n % 2 == 0) && (n ≤ 2 ^ (p + 1) || n % 4 == 0)

/-- The values of a format within `b` ulp of m * 2^e, as multiples of a power of 2 (magnitudes only). -/
def withinUlp (f : FFmt) (b m : Nat) (e : Int) : List Nat × Int :=
  let q := max (topExp m e) f.emin - f.fbits
  let fine := decide (f.emin - (f.fbits : Int) < q)
  let q' := if fine then q - 1 else q
  let w := if fine then 2 * b else b
  let (a, rest) : Nat × Bool := match e - q' with
    | .ofNat k => (m * 2 ^ k, false)
    | .negSucc k => (m / 2 ^ (k + 1), m % 2 ^ (k + 1) != 0)
  let lo := if rest then a + 1 - w else a - w
  (((List.range (a + w + 1 - lo)).map (lo + ·)).filter (onGrid f.prec), q')

/-- The result of a function whose value is sign and m * 2^e: rounded for BF16 and FP16, otherwise picked within `b` ulp; a
function bounded by 1 never exceeds it. The result is inexact even where the format holds the value, and then underflows where it is tiny
(R234, R240). -/
def functionResult (fmt : BitVec 2) (cl bounded : Bool) (b key : Nat) (neg : Bool) (m : Nat) (e : Int) :
    Nat × BitVec 6 :=
  let f := fmtOf fmt
  if 2 ≤ fmt.toNat then
    let (v, fl) := roundF f 0 cl (.fin neg m e)
    (v, fl ||| fInexact ||| fIf (fl == 0 && topExp m e < f.emin) fUnderflow)
  else
    let (l, q) := withinUlp f b m e
    let l := if bounded then l.filter fun n => cmpNum (.fin false n q) (.fin false 1 0) != .gt else l
    let n := l.getD (Config.functionPick key % max l.length 1) 0
    let (v, fl) := roundF f 0 cl (.fin neg n q)
    (v, fl ||| fInexact ||| fIf (n == 0 || topExp n q < f.emin) fUnderflow)

/-- The functions of R240. -/
inductive Fn where
  | exp | exp2 | log | log2 | sin | cos | tanh | rcp | rsq
deriving DecidableEq, Repr, Inhabited

/-- A number for a function, to tell choices apart. -/
def Fn.index : Fn → Nat
  | .exp => 0 | .exp2 => 1 | .log => 2 | .log2 => 3 | .sin => 4 | .cos => 5 | .tanh => 6 | .rcp => 7 | .rsq => 8

/-- The function never exceeds 1. -/
def Fn.bounded : Fn → Bool
  | .sin | .cos | .tanh => true
  | _ => false

/-- The bound of R241 in ulp for an argument of magnitude m * 2^e. -/
def Fn.ulp (g : Fn) (m : Nat) (e : Int) : Nat :=
  match g with
  | .tanh => 2
  | .sin | .cos => if cmpNum (.fin false m e) (.fin false 1 20) == .gt then 2 else 1
  | _ => 1

/-- The special values of R240, and the exact cases of exp2 and log2. -/
def Fn.special (g : Fn) (x : Num) : Option (Num × BitVec 6) :=
  match g, x with
  | .exp, .inf s | .exp2, .inf s => some (if s then .fin false 0 0 else .inf false, 0)
  | .exp, .fin _ 0 _ | .exp2, .fin _ 0 _ => some (.fin false 1 0, 0)
  | .exp2, .fin s m e =>
    match e with
    | .ofNat k => if 12 ≤ topExp m e then none else
        let n : Int := m * 2 ^ k
        some (.fin false 1 (if s then -n else n), 0)
    | .negSucc k => if 12 ≤ topExp m e || m % 2 ^ (k + 1) ≠ 0 then none else
        let n : Int := m / 2 ^ (k + 1)
        some (.fin false 1 (if s then -n else n), 0)
  | .log, .inf s | .log2, .inf s => some (if s then (canonNan, fInvalid) else (.inf false, 0))
  | .log, .fin _ 0 _ | .log2, .fin _ 0 _ => some (.inf true, fDivzero)
  | .log, .fin true _ _ | .log2, .fin true _ _ => some (canonNan, fInvalid)
  | .log, .fin false m e => if cmpNum (.fin false m e) (.fin false 1 0) == .eq then some (.fin false 0 0, 0) else none
  | .log2, .fin false m e =>
    if m = 2 ^ m.log2 then
      let n := topExp m e
      some (.fin (n < 0) n.natAbs 0, 0)
    else none
  | .sin, .inf _ | .cos, .inf _ => some (canonNan, fInvalid)
  | .sin, .fin _ 0 _ | .tanh, .fin _ 0 _ => some (x, 0)
  | .cos, .fin _ 0 _ => some (.fin false 1 0, 0)
  | .tanh, .inf s => some (.fin s 1 0, 0)
  | .rcp, .inf s => some (.fin s 0 0, 0)
  | .rcp, .fin s 0 _ => some (.inf s, fDivzero)
  | .rsq, .inf s => some (if s then (canonNan, fInvalid) else (.fin false 0 0, 0))
  | .rsq, .fin s 0 _ => some (.inf s, fDivzero)
  | .rsq, .fin true _ _ => some (canonNan, fInvalid)
  | _, .nan s p _ => some (.nan s p true, nanFlags [x])
  | _, _ => none

/-- The value of a function of a finite argument that is no special case: sign and magnitude. -/
def Fn.value (g : Fn) (s : Bool) (m : Nat) (e : Int) : Bool × (Nat × Int) :=
  match g with
  | .exp => (false, expValue s m e)
  | .exp2 => (false, exp2Value s m e)
  | .log => let l := lnFx m e; (l < 0, stickyFx l 0)
  | .log2 => let l := lnFx m e; (l < 0, stickyFx (l * fxOne / fxLn2) 0)
  | .sin => trigValue false s m e
  | .cos => trigValue true s m e
  | .tanh => (s, tanhValue m e)
  | .rcp => (s, divFin 1 0 m e)
  | .rsq => let (q, k) := divFin 1 0 m e; (false, sqrtFin q k)

/-- One lane of a function instruction: the bits of the result and its flags. -/
def Fn.lane (g : Fn) (fmt : BitVec 2) (cl : Bool) (v : VVal) (k : Nat) : Nat × BitVec 6 :=
  let x := laneNum (fmtCode fmt) v k
  match g.special x with
  | some (r, fl) =>
    let (b, fl') := roundF (fmtOf fmt) 0 cl r
    (b, fl ||| fl')
  | none =>
    match x with
    | .fin s m e =>
      let key := (laneOf (fmtBits fmt) v.data k * 256 + wrapTo 8 (scaleOf v.desc)) * 64 + g.index * 4 + fmt.toNat
      let (neg, m', e') := g.value s m e
      functionResult fmt cl g.bounded (g.ulp m e) key neg m' e'
    | _ => (0, 0)

/-- A function instruction (R238, R240). -/
def functionLanes (g : Fn) (d a : VRegNo) (m : MReg) (cl : Bool) (fmt : BitVec 2) (s : State) : Out :=
  let x := s.rdV a
  floatLanes s d m fmt 16 [x] (g.lane fmt cl x)

/-- VFEXP. -/
def execVfexp (d a : VRegNo) (m : MReg) (cl : Bool) (fmt : BitVec 2) (s : State) : Out := functionLanes .exp d a m cl fmt s
/-- VFEXP2. -/
def execVfexp2 (d a : VRegNo) (m : MReg) (cl : Bool) (fmt : BitVec 2) (s : State) : Out := functionLanes .exp2 d a m cl fmt s
/-- VFLOG. -/
def execVflog (d a : VRegNo) (m : MReg) (cl : Bool) (fmt : BitVec 2) (s : State) : Out := functionLanes .log d a m cl fmt s
/-- VFLOG2. -/
def execVflog2 (d a : VRegNo) (m : MReg) (cl : Bool) (fmt : BitVec 2) (s : State) : Out := functionLanes .log2 d a m cl fmt s
/-- VFSIN. -/
def execVfsin (d a : VRegNo) (m : MReg) (cl : Bool) (fmt : BitVec 2) (s : State) : Out := functionLanes .sin d a m cl fmt s
/-- VFCOS. -/
def execVfcos (d a : VRegNo) (m : MReg) (cl : Bool) (fmt : BitVec 2) (s : State) : Out := functionLanes .cos d a m cl fmt s
/-- VFTANH. -/
def execVftanh (d a : VRegNo) (m : MReg) (cl : Bool) (fmt : BitVec 2) (s : State) : Out := functionLanes .tanh d a m cl fmt s
/-- VFRCP. -/
def execVfrcp (d a : VRegNo) (m : MReg) (cl : Bool) (fmt : BitVec 2) (s : State) : Out := functionLanes .rcp d a m cl fmt s
/-- VFRSQ. -/
def execVfrsq (d a : VRegNo) (m : MReg) (cl : Bool) (fmt : BitVec 2) (s : State) : Out := functionLanes .rsq d a m cl fmt s

end Sys2Proof.Machine
end

