-- ==== Sys2Proof/Machine/Codec.lean ====
section
/-! DEFINITION. How a save image writes what the machine holds as 64-bit words and reads it back (R381, R383, R384). The manual names what is saved and
leaves its form to the device: this form is the model's (DESIGN CHOICE: log entry 119). -/

namespace Sys2Proof.Machine

/-! ### Words -/

/-- A form of values as words: how one is written, and how one is read from the front of a list of words. -/
structure Codec (α : Type) where
  put : α → List Word64
  get : List Word64 → Option (α × List Word64)

/-- A word. -/
def Codec.word : Codec Word64 where
  put w := [w]
  get
    | [] => none
    | w :: ws => some (w, ws)

/-- A value written as another. -/
def Codec.iso {α β : Type} (c : Codec α) (f : β → α) (g : α → β) : Codec β where
  put x := c.put (f x)
  get ws := (c.get ws).map fun e => (g e.1, e.2)

/-- Two values, one after the other. -/
def Codec.pair {α β : Type} (a : Codec α) (b : Codec β) : Codec (α × β) where
  put x := a.put x.1 ++ b.put x.2
  get ws := (a.get ws).bind fun e => (b.get e.2).map fun f => ((e.1, f.1), f.2)

/-- `n` values. -/
def Codec.times {α : Type} (c : Codec α) : Nat → List Word64 → Option (List α × List Word64)
  | 0, ws => some ([], ws)
  | n + 1, ws => (c.get ws).bind fun e => (c.times n e.2).map fun f => (e.1 :: f.1, f.2)

/-- A number below 2^64 - 1 as one word, another as its digits, with as many words of ones and a word of zeros before them. -/
def Codec.nat : Codec Nat where
  put n :=
    if n < 2 ^ 64 - 1 then [w64 n]
    else
      let k := n.log2 / 64 + 1
      List.replicate k (BitVec.allOnes 64) ++ 0 :: (List.range k).map fun i => w64 (n / 2 ^ (64 * i))
  get ws :=
    let k := (ws.takeWhile (· == BitVec.allOnes 64)).length
    match ws.drop k with
    | [] => none
    | w :: ws => if k = 0 then some (w.toNat, ws) else (Codec.word.times k ws).map fun e => (joinLanes 64 (e.1.map BitVec.toNat), e.2)

/-- A word of at most 64 bits. -/
def Codec.bits (n : Nat) : Codec (BitVec n) := Codec.word.iso (fun x => x.setWidth 64) (fun w => w.setWidth n)

/-- A truth value. -/
def Codec.bool : Codec Bool := Codec.word.iso (fun b => if b then 1 else 0) (fun w => w != 0)

/-- An integer: the even numbers stand for those from 0 up. -/
def Codec.int : Codec Int :=
  Codec.nat.iso (fun i => if 0 ≤ i then 2 * i.toNat else 2 * (-i - 1).toNat + 1) (fun n => if n % 2 = 0 then (n / 2 : Nat) else -((n / 2 : Nat) : Int) - 1)

/-- A block: its eight words. -/
def Codec.block : Codec Block where
  put b := (lanesOf 64 b).map w64
  get ws := (Codec.word.times 8 ws).map fun e => (ofLanes 64 (e.1.map BitVec.toNat), e.2)

/-- A value of a finite set, by its number. -/
def Codec.enum {α : Type} [DecidableEq α] (l : List α) : Codec α where
  put x := [w64 (l.idxOf x)]
  get
    | [] => none
    | w :: ws => l[w.toNat]?.map fun x => (x, ws)

/-- A list: its length, then its values. -/
def Codec.list {α : Type} (c : Codec α) : Codec (List α) where
  put l := Codec.nat.put l.length ++ l.flatMap c.put
  get ws := (Codec.nat.get ws).bind fun e => c.times e.1 e.2

/-- A value or none. -/
def Codec.option {α : Type} (c : Codec α) : Codec (Option α) where
  put
    | none => [0]
    | some x => 1 :: c.put x
  get
    | [] => none
    | w :: ws => if w = 0 then some (none, ws) else (c.get ws).map fun e => (some e.1, e.2)

/-- A register file. -/
def Codec.vector {α : Type} (c : Codec α) (n : Nat) : Codec (Vector α n) where
  put v := v.toList.flatMap c.put
  get ws := (c.times n ws).bind fun e => if h : e.1.length = n then some (⟨e.1.toArray, by simpa using h⟩, e.2) else none

/-! ### Contexts (R381) -/

/-- A slot word with the words that widen it. -/
def SlotWord.codec : Codec SlotWord := Codec.iso ((Codec.bits 32).pair <| (Codec.list (Codec.bits 32)))
  (fun x => (x.word, x.ext))
  (fun (x0, x1) => { word := x0, ext := x1 })

/-- A vector register. -/
def VVal.codec : Codec VVal := Codec.iso (Codec.block.pair <| (Codec.bits 16))
  (fun x => (x.data, x.desc))
  (fun (x0, x1) => { data := x0, desc := x1 })

/-- An iterator. -/
def Iter.codec : Codec Iter := Codec.iso ((Codec.bits 5).pair <| Codec.nat.pair <| Codec.word)
  (fun x => (x.target, x.level, x.stride))
  (fun (x0, x1, x2) => { target := x0, level := x1, stride := x2 })

/-- A field of a k-register. -/
def KField.codec : Codec KField := Codec.enum [.lc, .ec, .rs, .rp, .rv, .wpos, .lb, .ldm1, .lrot, .spill, .spovf, .tape, .tlim, .tpos, .dreg, .lscale, .flags, .trapDone, .trapRep, .tpc, .ternbad]

/-- A delayed effect. -/
def Upd.codec : Codec Upd where
  put
    | .s x0 x1 => 0 :: (Codec.pair Codec.nat Codec.word).put (x0, x1)
    | .a x0 x1 => 1 :: (Codec.pair Codec.nat Codec.word).put (x0, x1)
    | .stride x0 x1 => 2 :: (Codec.pair Codec.nat Codec.word).put (x0, x1)
    | .v x0 x1 => 3 :: (Codec.pair Codec.nat VVal.codec).put (x0, x1)
    | .lanes x0 x1 x2 => 4 :: (Codec.pair Codec.nat (Codec.pair Codec.block VVal.codec)).put (x0, x1, x2)
    | .keepV x0 => 5 :: (Codec.nat).put x0
    | .keepK x0 => 6 :: (KField.codec).put x0
    | .p x0 x1 => 7 :: (Codec.pair Codec.nat Codec.bool).put (x0, x1)
    | .m x0 x1 => 8 :: (Codec.pair Codec.nat Codec.word).put (x0, x1)
    | .iter x0 x1 => 9 :: (Codec.pair Codec.nat Iter.codec).put (x0, x1)
    | .count x0 x1 => 10 :: (Codec.pair Codec.nat Codec.nat).put (x0, x1)
    | .k x0 x1 => 11 :: (Codec.pair KField.codec Codec.word).put (x0, x1)
    | .statClear x0 => 12 :: (Codec.word).put x0
    | .flagsOr x0 => 13 :: (Codec.bits 6).put x0
    | .statOr x0 => 14 :: (Codec.word).put x0
    | .ternbad x0 => 15 :: (Codec.nat).put x0
    | .bind x0 x1 => 16 :: (Codec.pair Codec.nat (Codec.option Codec.nat)).put (x0, x1)
  get
    | [] => none
    | w :: ws => match w.toNat with
      | 0 => ((Codec.pair Codec.nat Codec.word).get ws).map fun ((x0, x1), ws) => (.s x0 x1, ws)
      | 1 => ((Codec.pair Codec.nat Codec.word).get ws).map fun ((x0, x1), ws) => (.a x0 x1, ws)
      | 2 => ((Codec.pair Codec.nat Codec.word).get ws).map fun ((x0, x1), ws) => (.stride x0 x1, ws)
      | 3 => ((Codec.pair Codec.nat VVal.codec).get ws).map fun ((x0, x1), ws) => (.v x0 x1, ws)
      | 4 => ((Codec.pair Codec.nat (Codec.pair Codec.block VVal.codec)).get ws).map fun ((x0, x1, x2), ws) => (.lanes x0 x1 x2, ws)
      | 5 => ((Codec.nat).get ws).map fun (x0, ws) => (.keepV x0, ws)
      | 6 => ((KField.codec).get ws).map fun (x0, ws) => (.keepK x0, ws)
      | 7 => ((Codec.pair Codec.nat Codec.bool).get ws).map fun ((x0, x1), ws) => (.p x0 x1, ws)
      | 8 => ((Codec.pair Codec.nat Codec.word).get ws).map fun ((x0, x1), ws) => (.m x0 x1, ws)
      | 9 => ((Codec.pair Codec.nat Iter.codec).get ws).map fun ((x0, x1), ws) => (.iter x0 x1, ws)
      | 10 => ((Codec.pair Codec.nat Codec.nat).get ws).map fun ((x0, x1), ws) => (.count x0 x1, ws)
      | 11 => ((Codec.pair KField.codec Codec.word).get ws).map fun ((x0, x1), ws) => (.k x0 x1, ws)
      | 12 => ((Codec.word).get ws).map fun (x0, ws) => (.statClear x0, ws)
      | 13 => ((Codec.bits 6).get ws).map fun (x0, ws) => (.flagsOr x0, ws)
      | 14 => ((Codec.word).get ws).map fun (x0, ws) => (.statOr x0, ws)
      | 15 => ((Codec.nat).get ws).map fun (x0, ws) => (.ternbad x0, ws)
      | 16 => ((Codec.pair Codec.nat (Codec.option Codec.nat)).get ws).map fun ((x0, x1), ws) => (.bind x0 x1, ws)
      | _ => none

/-- A result in flight. -/
def Inflight.codec : Codec Inflight := Codec.iso (Codec.nat.pair <| Codec.nat.pair <| Codec.nat.pair <| Upd.codec)
  (fun x => (x.due, x.issue, x.slot, x.upd))
  (fun (x0, x1, x2, x3) => { due := x0, issue := x1, slot := x2, upd := x3 })

/-- A result of the snapshot registers. -/
def SnapResult.codec : Codec SnapResult := Codec.iso (Codec.nat.pair <| Codec.nat.pair <| Codec.nat.pair <| Upd.codec)
  (fun x => (x.left, x.issueBack, x.slot, x.upd))
  (fun (x0, x1, x2, x3) => { left := x0, issueBack := x1, slot := x2, upd := x3 })

/-- A landing of the snapshot registers. -/
def SnapLanding.codec : Codec SnapLanding := Codec.iso (Codec.nat.pair <| Codec.nat.pair <| Codec.nat.pair <| (Codec.list Upd.codec).pair <|
    Codec.bool.pair <| (Codec.option (Codec.pair Codec.nat Codec.nat)))
  (fun x => (x.left, x.issueBack, x.slot, x.upd, x.late, x.await))
  (fun (x0, x1, x2, x3, x4, x5) => { left := x0, issueBack := x1, slot := x2, upd := x3, late := x4, await := x5 })

/-- Snapshot registers. -/
def Snapshot.codec : Codec Snapshot := Codec.iso ((Codec.list SnapResult.codec).pair <| (Codec.list SnapLanding.codec))
  (fun x => (x.results, x.landings))
  (fun (x0, x1) => { results := x0, landings := x1 })

/-- A bundle. -/
def Bundle.codec : Codec Bundle := Codec.iso ((Codec.bits 32).pair <| (Codec.list (Codec.option SlotWord.codec)).pair <| Codec.word)
  (fun x => (x.hdr, x.slots, x.next))
  (fun (x0, x1, x2) => { hdr := x0, slots := x1, next := x2 })

/-- A state of R340. -/
def RunState.codec : Codec RunState := Codec.enum [.dormant, .running, .waiting, .held]

/-- A nest in progress. -/
def Nest.codec : Codec Nest := Codec.iso (Codec.bool.pair <| Codec.nat.pair <| (Codec.list Codec.nat).pair <| (Codec.list Iter.codec).pair <|
    Codec.word.pair <| Codec.bool.pair <| (Codec.list (Codec.pair Codec.nat Codec.word)).pair <| Codec.nat.pair <| Codec.nat)
  (fun x => (x.rev, x.depth, x.counts, x.iters, x.body, x.based, x.bases, x.point, x.done))
  (fun (x0, x1, x2, x3, x4, x5, x6, x7, x8) =>
    { rev := x0, depth := x1, counts := x2, iters := x3, body := x4, based := x5, bases := x6, point := x7, done := x8 })

/-- The condition of a wait. -/
def WaitCond.codec : Codec WaitCond where
  put
    | .performed => [0]
    | .acked x0 x1 x2 x3 => 1 :: (Codec.pair Codec.nat (Codec.pair Codec.nat (Codec.pair Codec.bool Codec.bool))).put (x0, x1, x2, x3)
    | .clock x0 => 2 :: (Codec.nat).put x0
    | .response x0 x1 => 3 :: (Codec.pair Codec.nat Codec.nat).put (x0, x1)
    | .sill => [4]
    | .watermark x0 x1 x2 => 5 :: (Codec.pair Codec.nat (Codec.pair Codec.nat Codec.nat)).put (x0, x1, x2)
    | .wheel x0 => 6 :: (Codec.bool).put x0
    | .matQueue => [7]
    | .slotReady x0 => 8 :: (Codec.nat).put x0
    | .slotIdle x0 => 9 :: (Codec.nat).put x0
    | .tiles x0 => 10 :: (Codec.nat).put x0
    | .engineIdle => [11]
    | .taskRoom x0 x1 => 12 :: (Codec.pair Codec.nat Codec.nat).put (x0, x1)
    | .noTask => [13]
    | .tag x0 => 14 :: (Codec.nat).put x0
    | .chansQuiet x0 => 15 :: (Codec.nat).put x0
    | .mark x0 x1 => 16 :: (Codec.pair Codec.nat Codec.nat).put (x0, x1)
    | .latch x0 x1 x2 => 17 :: (Codec.pair Codec.nat (Codec.pair Codec.nat Codec.bool)).put (x0, x1, x2)
    | .anyLatch x0 x1 x2 => 18 :: (Codec.pair Codec.nat (Codec.pair (Codec.list (Codec.pair Codec.nat Codec.nat)) Codec.bool)).put (x0, x1, x2)
    | .handle x0 x1 x2 => 19 :: (Codec.pair Codec.nat (Codec.pair Codec.nat Codec.bool)).put (x0, x1, x2)
    | .contRoom x0 => 20 :: (Codec.nat).put x0
    | .collRoom => [21]
    | .glazeDone x0 => 22 :: (Codec.nat).put x0
  get
    | [] => none
    | w :: ws => match w.toNat with
      | 0 => some (.performed, ws)
      | 1 => ((Codec.pair Codec.nat (Codec.pair Codec.nat (Codec.pair Codec.bool Codec.bool))).get ws).map fun ((x0, x1, x2, x3), ws) => (.acked x0 x1 x2 x3, ws)
      | 2 => ((Codec.nat).get ws).map fun (x0, ws) => (.clock x0, ws)
      | 3 => ((Codec.pair Codec.nat Codec.nat).get ws).map fun ((x0, x1), ws) => (.response x0 x1, ws)
      | 4 => some (.sill, ws)
      | 5 => ((Codec.pair Codec.nat (Codec.pair Codec.nat Codec.nat)).get ws).map fun ((x0, x1, x2), ws) => (.watermark x0 x1 x2, ws)
      | 6 => ((Codec.bool).get ws).map fun (x0, ws) => (.wheel x0, ws)
      | 7 => some (.matQueue, ws)
      | 8 => ((Codec.nat).get ws).map fun (x0, ws) => (.slotReady x0, ws)
      | 9 => ((Codec.nat).get ws).map fun (x0, ws) => (.slotIdle x0, ws)
      | 10 => ((Codec.nat).get ws).map fun (x0, ws) => (.tiles x0, ws)
      | 11 => some (.engineIdle, ws)
      | 12 => ((Codec.pair Codec.nat Codec.nat).get ws).map fun ((x0, x1), ws) => (.taskRoom x0 x1, ws)
      | 13 => some (.noTask, ws)
      | 14 => ((Codec.nat).get ws).map fun (x0, ws) => (.tag x0, ws)
      | 15 => ((Codec.nat).get ws).map fun (x0, ws) => (.chansQuiet x0, ws)
      | 16 => ((Codec.pair Codec.nat Codec.nat).get ws).map fun ((x0, x1), ws) => (.mark x0 x1, ws)
      | 17 => ((Codec.pair Codec.nat (Codec.pair Codec.nat Codec.bool)).get ws).map fun ((x0, x1, x2), ws) => (.latch x0 x1 x2, ws)
      | 18 => ((Codec.pair Codec.nat (Codec.pair (Codec.list (Codec.pair Codec.nat Codec.nat)) Codec.bool)).get ws).map fun ((x0, x1, x2), ws) => (.anyLatch x0 x1 x2, ws)
      | 19 => ((Codec.pair Codec.nat (Codec.pair Codec.nat Codec.bool)).get ws).map fun ((x0, x1, x2), ws) => (.handle x0 x1 x2, ws)
      | 20 => ((Codec.nat).get ws).map fun (x0, ws) => (.contRoom x0, ws)
      | 21 => some (.collRoom, ws)
      | 22 => ((Codec.nat).get ws).map fun (x0, ws) => (.glazeDone x0, ws)
      | _ => none

/-- A trap that a slot raises. -/
def TrapReq.codec : Codec TrapReq := Codec.iso (Codec.nat.pair <| Codec.nat.pair <| Codec.word.pair <| Codec.word)
  (fun x => (x.slot, x.cause, x.arg0, x.arg1))
  (fun (x0, x1, x2, x3) => { slot := x0, cause := x1, arg0 := x2, arg1 := x3 })

/-- A page that a slot lacks. -/
def PageMiss.codec : Codec PageMiss := Codec.iso (Codec.nat.pair <| Codec.word.pair <| Codec.nat.pair <| Codec.nat.pair <| Codec.nat.pair <|
    Codec.nat)
  (fun x => (x.slot, x.va, x.cls, x.level, x.entry, x.region))
  (fun (x0, x1, x2, x3, x4, x5) => { slot := x0, va := x1, cls := x2, level := x3, entry := x4, region := x5 })

/-- How an issue ends a context. -/
def EndKind.codec : Codec EndKind where
  put
    | .exit => [0]
    | .suspend x0 => 1 :: (Codec.nat).put x0
  get
    | [] => none
    | w :: ws => match w.toNat with
      | 0 => some (.exit, ws)
      | 1 => ((Codec.nat).get ws).map fun (x0, ws) => (.suspend x0, ws)
      | _ => none

/-- A region of the table of R275. -/
def Region.codec : Codec Region := Codec.iso (Codec.nat.pair <| Codec.nat.pair <| Codec.nat.pair <| Codec.nat)
  (fun x => (x.fmt, x.base, x.len, x.adj))
  (fun (x0, x1, x2, x3) => { fmt := x0, base := x1, len := x2, adj := x3 })

/-- An access with its declared completion. -/
def Trail.codec : Codec Trail := Codec.iso (Codec.nat.pair <| Codec.nat.pair <| Codec.bool.pair <| Codec.nat.pair <| Codec.bool)
  (fun x => (x.lo, x.hi, x.wr, x.due, x.grad))
  (fun (x0, x1, x2, x3, x4) => { lo := x0, hi := x1, wr := x2, due := x3, grad := x4 })

/-- The fields of a frame record. -/
def FrameRec.codec : Codec FrameRec := Codec.iso (Codec.nat.pair <| Codec.nat.pair <| Codec.word.pair <| (Codec.bits 32).pair <| Codec.bool.pair <|
    Codec.bool.pair <| Codec.bool.pair <| Codec.bool.pair <| Codec.nat.pair <| Codec.nat.pair <| Codec.word.pair <| Codec.nat.pair <| Codec.nat.pair
    <| Codec.nat.pair <| Codec.nat.pair <| Codec.bool)
  (fun x => (x.va, x.base, x.dims, x.layout, x.clampen, x.hglaze, x.addok, x.diff, x.maxdepth, x.fmt, x.clamp, x.arena, x.arenalen, x.adj, x.adjPa,
    x.adjoint))
  (fun (x0, x1, x2, x3, x4, x5, x6, x7, x8, x9, x10, x11, x12, x13, x14, x15) =>
    { va := x0, base := x1, dims := x2, layout := x3, clampen := x4, hglaze := x5, addok := x6, diff := x7, maxdepth := x8, fmt := x9, clamp := x10,
      arena := x11, arenalen := x12, adj := x13, adjPa := x14, adjoint := x15 })

/-- The state of a pane. -/
def PaneState.codec : Codec PaneState where
  put
    | .opened x0 x1 => 0 :: (Codec.pair Codec.nat Codec.nat).put (x0, x1)
    | .sealed => [1]
    | .applied => [2]
  get
    | [] => none
    | w :: ws => match w.toNat with
      | 0 => ((Codec.pair Codec.nat Codec.nat).get ws).map fun ((x0, x1), ws) => (.opened x0 x1, ws)
      | 1 => some (.sealed, ws)
      | 2 => some (.applied, ws)
      | _ => none

/-- A footprint block of a pane. -/
def PaneBlock.codec : Codec PaneBlock := Codec.iso (Codec.nat.pair <| Codec.block.pair <| Codec.int.pair <| (Codec.bits 64).pair <| (Codec.bits
    64).pair <| Codec.bool.pair <| (Codec.option Codec.block).pair <| Codec.int.pair <| Codec.bool)
  (fun x => (x.idx, x.data, x.scale, x.present, x.cleared, x.poison, x.pre, x.preScale, x.prePoison))
  (fun (x0, x1, x2, x3, x4, x5, x6, x7, x8) =>
    { idx := x0, data := x1, scale := x2, present := x3, cleared := x4, poison := x5, pre := x6, preScale := x7, prePoison := x8 })

/-- A pane. -/
def Pane.codec : Codec Pane := Codec.iso (Codec.nat.pair <| Codec.bool.pair <| PaneState.codec.pair <| (Codec.list PaneBlock.codec).pair <|
    Codec.bool.pair <| Codec.bool.pair <| Codec.bool.pair <| Codec.bool.pair <| Codec.bool.pair <| Codec.bool)
  (fun x => (x.name, x.ow, x.st, x.blocks, x.negated, x.glazed, x.inexact, x.old, x.settle, x.implicit))
  (fun (x0, x1, x2, x3, x4, x5, x6, x7, x8, x9) =>
    { name := x0, ow := x1, st := x2, blocks := x3, negated := x4, glazed := x5, inexact := x6, old := x7, settle := x8, implicit := x9 })

/-- A frame. -/
def Frame.codec : Codec Frame := Codec.iso (FrameRec.codec.pair <| (Codec.list Pane.codec).pair <| (Codec.list Pane.codec).pair <| Codec.nat.pair <|
    Codec.bool.pair <| (Codec.list (Codec.pair Codec.nat Pane.codec)).pair <| (Codec.list (Codec.pair Codec.nat Codec.nat)).pair <| (Codec.option
    (Codec.pair Codec.nat Codec.nat)).pair <| Codec.bool.pair <| Codec.nat)
  (fun x => (x.info, x.loose, x.chain, x.zombie, x.inDir, x.kept, x.held, x.glazeWait, x.settleAll, x.settleLost))
  (fun (x0, x1, x2, x3, x4, x5, x6, x7, x8, x9) =>
    { info := x0, loose := x1, chain := x2, zombie := x3, inDir := x4, kept := x5, held := x6, glazeWait := x7, settleAll := x8, settleLost := x9 })

/-- An issue, as far as it has come. -/
def Iss.codec : Codec Iss := Codec.iso (Codec.bool.pair <| Codec.nat.pair <| Codec.nat.pair <| (Codec.bits 32).pair <| Codec.word.pair <|
    Codec.word.pair <| Codec.nat.pair <| Codec.nat.pair <| Codec.nat.pair <| SlotWord.codec.pair <| (Codec.list (Codec.pair Codec.nat
    SlotWord.codec)).pair <| (Codec.list Codec.nat).pair <| (Codec.list (Codec.pair Codec.nat SlotWord.codec)).pair <| (Codec.list (Codec.pair
    Codec.nat SlotWord.codec)).pair <| (Codec.list Codec.nat).pair <| (Codec.list Codec.nat).pair <| (Codec.list TrapReq.codec).pair <| (Codec.option
    (Codec.pair Codec.nat Codec.nat)).pair <| (Codec.list PageMiss.codec).pair <| (Codec.list (Codec.pair Codec.nat WaitCond.codec)).pair <|
    (Codec.option Codec.word).pair <| Codec.bool.pair <| Codec.bool.pair <| (Codec.option EndKind.codec).pair <| Codec.bool.pair <| (Codec.option
    Nest.codec).pair <| Codec.bool.pair <| (Codec.option Codec.nat).pair <| (Codec.list Codec.nat).pair <| (Codec.option VVal.codec).pair <|
    (Codec.list (Codec.pair Codec.nat Codec.nat)).pair <| (Codec.option Codec.nat).pair <| (Codec.option (Codec.list Codec.word)).pair <| (Codec.list
    PageMiss.codec).pair <| (Codec.list (Codec.pair Codec.nat SlotWord.codec)).pair <| (Codec.option Codec.bool).pair <| (Codec.option (Codec.list
    (Codec.pair Codec.nat Frame.codec))))
  (fun x => (x.active, x.g, x.x, x.hdr, x.pc, x.next, x.rep, x.issue, x.slot, x.cur, x.pending, x.done, x.undone, x.work, x.fresh, x.granted, x.traps,
    x.brk, x.walks, x.waits, x.target, x.transferred, x.empties, x.ends, x.stops, x.nest, x.rett, x.glazeHold, x.glazeOk, x.reply, x.chosen, x.padded,
    x.endRecord, x.absent, x.unlogged, x.revAs, x.chains))
  (fun (x0, x1, x2, x3, x4, x5, x6, x7, x8, x9, x10, x11, x12, x13, x14, x15, x16, x17, x18, x19, x20, x21, x22, x23, x24, x25, x26, x27, x28, x29,
    x30, x31, x32, x33, x34, x35, x36) =>
    { active := x0, g := x1, x := x2, hdr := x3, pc := x4, next := x5, rep := x6, issue := x7, slot := x8, cur := x9, pending := x10, done := x11,
      undone := x12, work := x13, fresh := x14, granted := x15, traps := x16, brk := x17, walks := x18, waits := x19, target := x20,
      transferred := x21, empties := x22, ends := x23, stops := x24, nest := x25, rett := x26, glazeHold := x27, glazeOk := x28, reply := x29,
      chosen := x30, padded := x31, endRecord := x32, absent := x33, unlogged := x34, revAs := x35, chains := x36 })

/-- The k-registers of a context. -/
def KRegs.codec : Codec KRegs := Codec.iso (Codec.word.pair <| Codec.word.pair <| Codec.nat.pair <| (Codec.bits 6).pair <| Codec.nat.pair <|
    Codec.nat.pair <| Codec.nat.pair <| Codec.nat.pair <| Codec.nat.pair <| Codec.nat.pair <| Codec.nat.pair <| Codec.nat.pair <| Codec.nat.pair <|
    Codec.word.pair <| Codec.word.pair <| Codec.bool.pair <| Codec.bool.pair <| Codec.word.pair <| Codec.word.pair <| Codec.word.pair <|
    Codec.word.pair <| Codec.word.pair <| Codec.bool.pair <| Codec.nat.pair <| (Codec.bits 5).pair <| Codec.nat.pair <| Codec.nat.pair <|
    Codec.word.pair <| Codec.word.pair <| Codec.word)
  (fun x => (x.kwork, x.stat, x.ternbad, x.flags, x.lc, x.ec, x.rs, x.rp, x.rv, x.wpos, x.lb, x.ldm1, x.lrot, x.spill, x.spovf, x.rev, x.tapeOn,
    x.tape, x.tlim, x.tpos, x.dreg, x.lscale, x.trapIn, x.trapRep, x.trapDone, x.trapSlot, x.trapCause, x.tpc, x.targ0, x.targ1))
  (fun (x0, x1, x2, x3, x4, x5, x6, x7, x8, x9, x10, x11, x12, x13, x14, x15, x16, x17, x18, x19, x20, x21, x22, x23, x24, x25, x26, x27, x28, x29) =>
    { kwork := x0, stat := x1, ternbad := x2, flags := x3, lc := x4, ec := x5, rs := x6, rp := x7, rv := x8, wpos := x9, lb := x10, ldm1 := x11,
      lrot := x12, spill := x13, spovf := x14, rev := x15, tapeOn := x16, tape := x17, tlim := x18, tpos := x19, dreg := x20, lscale := x21,
      trapIn := x22, trapRep := x23, trapDone := x24, trapSlot := x25, trapCause := x26, tpc := x27, targ0 := x28, targ1 := x29 })

/-! ### Cores -/

/-- A shape set. -/
def ShapeSet.codec : Codec ShapeSet := Codec.iso (Codec.word.pair <| Codec.word.pair <| Codec.word.pair <| Codec.word.pair <| Codec.word.pair <|
    (Codec.bits 32))
  (fun x => (x.dims, x.stride0, x.stride1, x.stride2, x.stride3, x.layout))
  (fun (x0, x1, x2, x3, x4, x5) => { dims := x0, stride0 := x1, stride1 := x2, stride2 := x3, stride3 := x4, layout := x5 })

/-- A write of a shape set. -/
def ShapeWrite.codec : Codec ShapeWrite := Codec.iso (Codec.nat.pair <| Codec.nat.pair <| Codec.nat.pair <| Codec.nat.pair <| Codec.word)
  (fun x => (x.ctx, x.at_, x.set, x.field, x.value))
  (fun (x0, x1, x2, x3, x4) => { ctx := x0, at_ := x1, set := x2, field := x3, value := x4 })

/-- A state of R122. -/
def ChanState.codec : Codec ChanState := Codec.enum [.idle, .walking, .parked, .pageWait, .cancelled]

/-- A queued knock. -/
def Knock.codec : Codec Knock := Codec.iso (Codec.nat.pair <| Codec.nat.pair <| Codec.word)
  (fun x => (x.kpc, x.karg, x.dst))
  (fun (x0, x1, x2) => { kpc := x0, karg := x1, dst := x2 })

/-- A sector under way. -/
def Flight.codec : Codec Flight := Codec.iso (Codec.bool.pair <| (Codec.list Codec.nat).pair <| Codec.nat.pair <| Codec.nat.pair <| (Codec.bits
    16).pair <| Codec.word)
  (fun x => (x.acc, x.keys, x.n, x.val, x.desc, x.early))
  (fun (x0, x1, x2, x3, x4, x5) => { acc := x0, keys := x1, n := x2, val := x3, desc := x4, early := x5 })

/-- A channel. -/
def Chan.codec : Codec Chan := Codec.iso (ChanState.codec.pair <| Codec.nat.pair <| Codec.nat.pair <| (Codec.option (Codec.list Codec.word)).pair <|
    Codec.nat.pair <| Codec.bool.pair <| Codec.nat.pair <| Codec.nat.pair <| (Codec.list (Codec.pair Codec.nat Codec.nat)).pair <| Codec.bool.pair <|
    (Codec.list Flight.codec).pair <| (Codec.option (Codec.pair Codec.nat Codec.bool)).pair <| Codec.nat.pair <| Codec.nat.pair <| Codec.nat.pair <|
    (Codec.list (Codec.pair Codec.nat Codec.nat)).pair <| (Codec.vector ShapeSet.codec 8).pair <| (Codec.option (Codec.pair Codec.word
    Codec.nat)).pair <| Codec.nat.pair <| (Codec.option (Codec.pair Codec.nat Codec.nat)).pair <| Codec.bool.pair <| Codec.bool.pair <|
    Codec.bool.pair <| (Codec.option Codec.nat).pair <| (Codec.option (Codec.pair Codec.nat Knock.codec)).pair <| Codec.nat)
  (fun x => (x.st, x.record, x.lastDone, x.words, x.issuer, x.orphan, x.sector, x.sent, x.agreed, x.waitsPage, x.flight, x.stopping, x.wbase, x.wlen,
    x.wmk, x.written, x.shapes, x.walk, x.walkAt, x.fault, x.saved, x.leave, x.leaveAsked, x.restripe, x.sending, x.next))
  (fun (x0, x1, x2, x3, x4, x5, x6, x7, x8, x9, x10, x11, x12, x13, x14, x15, x16, x17, x18, x19, x20, x21, x22, x23, x24, x25) =>
    { st := x0, record := x1, lastDone := x2, words := x3, issuer := x4, orphan := x5, sector := x6, sent := x7, agreed := x8, waitsPage := x9,
      flight := x10, stopping := x11, wbase := x12, wlen := x13, wmk := x14, written := x15, shapes := x16, walk := x17, walkAt := x18, fault := x19,
      saved := x20, leave := x21, leaveAsked := x22, restripe := x23, sending := x24, next := x25 })

/-- The state of an operand slot. -/
def SlotFill.codec : Codec SlotFill := Codec.enum [.free, .ready, .filling]

/-- An OLOAD in progress. -/
def FillJob.codec : Codec FillJob := Codec.iso (Codec.word.pair <| Codec.nat.pair <| Codec.word.pair <| Codec.nat.pair <| (Codec.list VVal.codec).pair
    <| Codec.nat)
  (fun x => (x.addr, x.ctx, x.pc, x.rep, x.blocks, x.due))
  (fun (x0, x1, x2, x3, x4, x5) => { addr := x0, ctx := x1, pc := x2, rep := x3, blocks := x4, due := x5 })

/-- An operand slot. -/
def OSlot.codec : Codec OSlot := Codec.iso (SlotFill.codec.pair <| Codec.nat.pair <| (Codec.bits 16).pair <| (Codec.list Codec.block).pair <|
    Codec.nat.pair <| (Codec.option FillJob.codec))
  (fun x => (x.st, x.holder, x.desc, x.data, x.agreed, x.job))
  (fun (x0, x1, x2, x3, x4, x5) => { st := x0, holder := x1, desc := x2, data := x3, agreed := x4, job := x5 })

/-- An accumulator tile, but for its cells. -/
def Tile.codec : Codec Tile := Codec.iso (Codec.nat.pair <| Codec.int.pair <| Codec.bool.pair <| (Codec.bits 6).pair <| Codec.bool)
  (fun x => (x.mode, x.tscale, x.tset, x.flags, x.poison))
  (fun (x0, x1, x2, x3, x4) => { mode := x0, tscale := x1, tset := x2, flags := x3, poison := x4 })

/-- A core, but for its contexts and for what has run to completion (R380). -/
def Core.codec : Codec Core := Codec.iso (Codec.nat.pair <| Codec.nat.pair <| Codec.nat.pair <| (Codec.vector Chan.codec 4).pair <| (Codec.vector
    ShapeSet.codec 8).pair <| (Codec.list ShapeWrite.codec).pair <| (Codec.list Knock.codec).pair <| (Codec.list (Codec.pair Codec.nat
    OSlot.codec)).pair <| (Codec.vector Tile.codec 16).pair <| Codec.bool.pair <| Codec.nat.pair <| Codec.word.pair <| Codec.bool.pair <|
    Codec.nat.pair <| Codec.word.pair <| Codec.nat)
  (fun x => (x.clock, x.cur, x.quantum, x.chans, x.shapes, x.shapeWrites, x.knocks, x.slots, x.tiles, x.hosting, x.cls, x.clsPc, x.clsLeave, x.clsAt,
    x.lastPc, x.idleSince))
  (fun (x0, x1, x2, x3, x4, x5, x6, x7, x8, x9, x10, x11, x12, x13, x14, x15) =>
    { clock := x0, cur := x1, quantum := x2, chans := x3, shapes := x4, shapeWrites := x5, knocks := x6, slots := x7, tiles := x8, hosting := x9,
      cls := x10, clsPc := x11, clsLeave := x12, clsAt := x13, lastPc := x14, idleSince := x15 })

/-! ### Clusters and dies -/

/-- A scope. -/
def Scope.codec : Codec Scope := Codec.enum [.core, .cluster, .device, .system]

/-- An agent. -/
def Who.codec : Codec Who where
  put
    | .ctx x0 x1 => 0 :: (Codec.pair Codec.nat Codec.nat).put (x0, x1)
    | .chan x0 x1 => 1 :: (Codec.pair Codec.nat Codec.nat).put (x0, x1)
    | .task x0 x1 x2 => 2 :: (Codec.pair Codec.nat (Codec.pair Codec.nat Codec.nat)).put (x0, x1, x2)
    | .coll x0 => 3 :: (Codec.nat).put x0
  get
    | [] => none
    | w :: ws => match w.toNat with
      | 0 => ((Codec.pair Codec.nat Codec.nat).get ws).map fun ((x0, x1), ws) => (.ctx x0 x1, ws)
      | 1 => ((Codec.pair Codec.nat Codec.nat).get ws).map fun ((x0, x1), ws) => (.chan x0 x1, ws)
      | 2 => ((Codec.pair Codec.nat (Codec.pair Codec.nat Codec.nat)).get ws).map fun ((x0, x1, x2), ws) => (.task x0 x1 x2, ws)
      | 3 => ((Codec.nat).get ws).map fun (x0, ws) => (.coll x0, ws)
      | _ => none

/-- A continuation record in its queue. -/
def QRec.codec : Codec QRec := Codec.iso ((Codec.list Codec.word).pair <| Codec.nat.pair <| Codec.nat.pair <| Codec.nat.pair <| Codec.bool.pair <|
    Scope.codec.pair <| Codec.bool)
  (fun x => (x.words, x.prio, x.since, x.ready, x.pager, x.scope, x.suspended))
  (fun (x0, x1, x2, x3, x4, x5, x6) => { words := x0, prio := x1, since := x2, ready := x3, pager := x4, scope := x5, suspended := x6 })

/-- A pending-fault slot. -/
def PFault.codec : Codec PFault := Codec.iso (Codec.bool.pair <| Codec.nat.pair <| Codec.word.pair <| Codec.nat.pair <| Codec.nat.pair <|
    (Codec.option QRec.codec).pair <| (Codec.list Who.codec))
  (fun x => (x.valid, x.gen, x.va, x.entry, x.level, x.record, x.waiters))
  (fun (x0, x1, x2, x3, x4, x5, x6) => { valid := x0, gen := x1, va := x2, entry := x3, level := x4, record := x5, waiters := x6 })

/-- Who asks for leave. -/
def LeaveAsk.codec : Codec LeaveAsk where
  put
    | .engine x0 => 0 :: (Codec.nat).put x0
    | .task x0 x1 => 1 :: (Codec.pair Codec.nat Codec.nat).put (x0, x1)
    | .burst x0 x1 => 2 :: (Codec.pair Codec.nat Codec.nat).put (x0, x1)
  get
    | [] => none
    | w :: ws => match w.toNat with
      | 0 => ((Codec.nat).get ws).map fun (x0, ws) => (.engine x0, ws)
      | 1 => ((Codec.pair Codec.nat Codec.nat).get ws).map fun ((x0, x1), ws) => (.task x0 x1, ws)
      | 2 => ((Codec.pair Codec.nat Codec.nat).get ws).map fun ((x0, x1), ws) => (.burst x0 x1, ws)
      | _ => none

/-- An extent. -/
def Extent.codec : Codec Extent := Codec.iso (Codec.nat.pair <| Codec.nat.pair <| Codec.word.pair <| Codec.nat)
  (fun x => (x.va, x.len, x.entry, x.level))
  (fun (x0, x1, x2, x3) => { va := x0, len := x1, entry := x2, level := x3 })

/-- A tile task. -/
def Task.codec : Codec Task := Codec.iso (Codec.nat.pair <| (Codec.list Codec.word).pair <| Codec.nat.pair <| Codec.nat.pair <| Codec.nat.pair <|
    Codec.word.pair <| Codec.bool.pair <| Codec.bool.pair <| Codec.nat.pair <| (Codec.list Extent.codec).pair <| (Codec.option Extent.codec).pair <|
    Codec.bool.pair <| Codec.nat.pair <| Codec.bool.pair <| Codec.bool.pair <| (Codec.option Codec.nat))
  (fun x => (x.id, x.words, x.addr, x.core, x.ctx, x.pc, x.dispatched, x.done, x.host, x.extents, x.home, x.built, x.startAt, x.leave, x.leaveAsked,
    x.fault))
  (fun (x0, x1, x2, x3, x4, x5, x6, x7, x8, x9, x10, x11, x12, x13, x14, x15) =>
    { id := x0, words := x1, addr := x2, core := x3, ctx := x4, pc := x5, dispatched := x6, done := x7, host := x8, extents := x9, home := x10,
      built := x11, startAt := x12, leave := x13, leaveAsked := x14, fault := x15 })

/-- A cluster; its island keeps its limit. -/
def Cluster.codec : Codec Cluster := Codec.iso ((Codec.list (Codec.pair Codec.nat PFault.codec)).pair <| (Codec.list (Codec.pair Who.codec
    PageMiss.codec)).pair <| (Codec.list Who.codec).pair <| (Codec.list QRec.codec).pair <| (Codec.vector (Codec.list Task.codec) 4).pair <|
    Codec.nat.pair <| (Codec.list Codec.nat).pair <| (Codec.list LeaveAsk.codec).pair <| Codec.nat.pair <| (Codec.option Codec.nat))
  (fun x => (x.faults, x.blocked, x.released, x.conts, x.tasks, x.taskNo, x.tags, x.asks, x.hold, x.droopAt))
  (fun (x0, x1, x2, x3, x4, x5, x6, x7, x8, x9) =>
    { faults := x0, blocked := x1, released := x2, conts := x3, tasks := x4, taskNo := x5, tags := x6, asks := x7, hold := x8, droopAt := x9 })

/-- A collective record. -/
def CollJob.codec : Codec CollJob := Codec.iso ((Codec.list Codec.word).pair <| Codec.nat.pair <| Codec.nat.pair <| Codec.nat.pair <| Codec.bool.pair
    <| Codec.bool.pair <| (Codec.list Extent.codec).pair <| Codec.bool.pair <| (Codec.bits 4).pair <| (Codec.option Codec.nat).pair <| (Codec.list
    (Codec.pair Codec.nat Codec.nat)))
  (fun x => (x.words, x.addr, x.core, x.ctx, x.waitsSig, x.signalled, x.extents, x.built, x.flags, x.fault, x.got))
  (fun (x0, x1, x2, x3, x4, x5, x6, x7, x8, x9, x10) =>
    { words := x0, addr := x1, core := x2, ctx := x3, waitsSig := x4, signalled := x5, extents := x6, built := x7, flags := x8, fault := x9,
      got := x10 })

/-- A collective engine; the data that it holds goes with its reduction SRAM. -/
def CollEngine.codec : Codec CollEngine := Codec.iso ((Codec.list CollJob.codec).pair <| (Codec.option CollJob.codec))
  (fun x => (x.jobs, x.running))
  (fun (x0, x1) => { jobs := x0, running := x1 })

/-! ### The launch -/

/-- A page in migration. -/
def Migration.codec : Codec Migration := Codec.iso (Codec.nat.pair <| Codec.nat.pair <| Codec.nat.pair <| Codec.word.pair <| Codec.nat.pair <|
    Codec.nat.pair <| Codec.bool.pair <| Codec.nat.pair <| Codec.bool.pair <| Codec.nat.pair <| Codec.nat)
  (fun x => (x.va, x.level, x.entryPa, x.oldEntry, x.newPa, x.newGeo, x.cutover, x.copied, x.done, x.g, x.chan))
  (fun (x0, x1, x2, x3, x4, x5, x6, x7, x8, x9, x10) =>
    { va := x0, level := x1, entryPa := x2, oldEntry := x3, newPa := x4, newGeo := x5, cutover := x6, copied := x7, done := x8, g := x9,
      chan := x10 })

/-- A launch, but for its header and for what a resume makes anew. -/
def Launch.codec : Codec Launch := Codec.iso ((Codec.option Codec.nat).pair <| Codec.nat.pair <| Codec.bool.pair <| Codec.nat.pair <| Codec.nat.pair
    <| Codec.bool.pair <| (Codec.option (Codec.pair Codec.nat Codec.nat)).pair <| Codec.nat.pair <| (Codec.list (Codec.pair Codec.nat Frame.codec)))
  (fun x => (x.noreplay, x.framesEnded, x.logStall, x.stallAt, x.logDropped, x.tail, x.freeBefore, x.seed, x.snaps))
  (fun (x0, x1, x2, x3, x4, x5, x6, x7, x8) =>
    { noreplay := x0, framesEnded := x1, logStall := x2, stallAt := x3, logDropped := x4, tail := x5, freeBefore := x6, seed := x7, snaps := x8,
      words := [], hdrAddr := 0 })

/-- What the device state holds of a frame (R381, R416): its directory entry, which panes are not of an earlier launch and whether a settle of them is
asked for, and what the launch has asked and made of it. -/
structure FrameMark where
  info : FrameRec
  panes : List (Nat × Bool × Bool)
  zombie : Nat
  inDir : Bool
  glazeWait : Option (Nat × Nat)
  settleAll : Bool
  settleLost : Nat
deriving DecidableEq, Repr, Inhabited

/-- The device state of an image (R381): the launch, the cores without their contexts, which dormant contexts wait for a knock and since when they have
been idle, the words of context blocks that are longer than 8 KiB, the clusters and dies, the descriptors and poisoned cells of what the ranges and the
latch areas hold, the migration table, gathers that were cancelled, the frame directory, the ports' digests of the unfinished frame, and the counters
of a deterministic launch's free values. -/
structure DeviceImage where
  launch : Launch
  cores : List (Nat × Core)
  idle : List ((Nat × Nat) × Bool × Nat)
  rest : List (List Word64)
  clusters : List (Nat × Cluster)
  colls : List (Nat × CollEngine)
  descs : List (Nat × Desc)
  poisoned : List Nat
  migrations : List Migration
  halted : List (Nat × List (Nat × Nat))
  frames : List (Nat × FrameMark)
  digests : List (Nat × List VVal)
  free : Nat
  pick : Nat
deriving DecidableEq, Repr, Inhabited

/-- What a context block holds (R381, R383): a context with its done mask, its open panes by frame and name, and its core and context numbers. -/
structure CtxImage where
  ctx : Ctx
  done : Word64
  panes : List (Nat × Nat)
  core : Nat
  no : Nat
deriving DecidableEq, Repr, Inhabited

/-- A mark of a frame. -/
def FrameMark.codec : Codec FrameMark := Codec.iso (FrameRec.codec.pair <| (Codec.list (Codec.pair Codec.nat (Codec.pair Codec.bool Codec.bool))).pair
    <| Codec.nat.pair <| Codec.bool.pair <| (Codec.option (Codec.pair Codec.nat Codec.nat)).pair <| Codec.bool.pair <| Codec.nat)
  (fun x => (x.info, x.panes, x.zombie, x.inDir, x.glazeWait, x.settleAll, x.settleLost))
  (fun (x0, x1, x2, x3, x4, x5, x6) => { info := x0, panes := x1, zombie := x2, inDir := x3, glazeWait := x4, settleAll := x5, settleLost := x6 })

/-- The device state. -/
def DeviceImage.codec : Codec DeviceImage := Codec.iso (Launch.codec.pair <| (Codec.list (Codec.pair Codec.nat Core.codec)).pair <| (Codec.list
    (Codec.pair (Codec.pair Codec.nat Codec.nat) (Codec.pair Codec.bool Codec.nat))).pair <| (Codec.list (Codec.list Codec.word)).pair <| (Codec.list
    (Codec.pair Codec.nat Cluster.codec)).pair <| (Codec.list (Codec.pair Codec.nat CollEngine.codec)).pair <| (Codec.list (Codec.pair Codec.nat
    (Codec.bits 16))).pair <| (Codec.list Codec.nat).pair <| (Codec.list Migration.codec).pair <| (Codec.list (Codec.pair Codec.nat (Codec.list
    (Codec.pair Codec.nat Codec.nat)))).pair <| (Codec.list (Codec.pair Codec.nat FrameMark.codec)).pair <| (Codec.list (Codec.pair Codec.nat
    (Codec.list VVal.codec))).pair <| Codec.nat.pair <| Codec.nat)
  (fun x => (x.launch, x.cores, x.idle, x.rest, x.clusters, x.colls, x.descs, x.poisoned, x.migrations, x.halted, x.frames, x.digests, x.free,
    x.pick))
  (fun (x0, x1, x2, x3, x4, x5, x6, x7, x8, x9, x10, x11, x12, x13) =>
    { launch := x0, cores := x1, idle := x2, rest := x3, clusters := x4, colls := x5, descs := x6, poisoned := x7, migrations := x8, halted := x9,
      frames := x10, digests := x11, free := x12, pick := x13 })

/-- A context block, in the order of the first row of R381: registers, place, sticky memories, snapshot registers, k-registers, handle, iterator and nest
state, bindings, open panes, and the state with the slots that are to be issued again. -/
def CtxImage.codec : Codec CtxImage := Codec.iso ((Codec.vector Codec.word 64).pair <| (Codec.vector Codec.word 32).pair <| (Codec.vector Codec.word
    32).pair <| (Codec.vector VVal.codec 32).pair <| (Codec.vector Codec.bool 16).pair <| (Codec.vector Codec.word 8).pair <| Codec.word.pair <|
    Codec.nat.pair <| Codec.word.pair <| (Codec.vector (Codec.option SlotWord.codec) 5).pair <| (Codec.vector (Codec.option SlotWord.codec) 5).pair <|
    (Codec.option Snapshot.codec).pair <| (Codec.option Snapshot.codec).pair <| KRegs.codec.pair <| (Codec.vector Codec.word 16).pair <| (Codec.vector
    Iter.codec 8).pair <| (Codec.vector (Codec.bits 32) 4).pair <| (Codec.option Nest.codec).pair <| (Codec.option Nest.codec).pair <| (Codec.vector
    (Codec.option Codec.nat) 8).pair <| (Codec.list (Codec.pair Codec.nat Codec.nat)).pair <| Codec.nat.pair <| Codec.nat.pair <| RunState.codec.pair
    <| Codec.nat.pair <| (Codec.list Inflight.codec).pair <| (Codec.list (Codec.pair (Codec.pair Codec.nat Codec.nat) Codec.nat)).pair <|
    (Codec.option (Codec.pair Codec.word Bundle.codec)).pair <| (Codec.option Iss.codec).pair <| (Codec.option (Codec.bits 5)).pair <| (Codec.option
    Iss.codec).pair <| Codec.bool.pair <| (Codec.list PageMiss.codec).pair <| Codec.word.pair <| Codec.nat.pair <| Codec.bool.pair <| Codec.nat.pair
    <| Codec.bool.pair <| Codec.bool.pair <| (Codec.option (Codec.pair Codec.nat Codec.nat)).pair <| Codec.bool.pair <| Codec.nat.pair <|
    Codec.nat.pair <| (Codec.list Codec.nat).pair <| (Codec.list Region.codec).pair <| (Codec.list Trail.codec))
  (fun x => (x.ctx.s, x.ctx.a, x.ctx.stride, x.ctx.v, x.ctx.p, x.ctx.m, x.ctx.pc, x.ctx.rep, x.done, x.ctx.sticky, x.ctx.savedSticky, x.ctx.snap,
    x.ctx.handlerSnap, x.ctx.k, x.ctx.h, x.ctx.it, x.ctx.n, x.ctx.nest, x.ctx.savedNest, x.ctx.f, x.panes, x.core, x.no, x.ctx.run, x.ctx.issueNo,
    x.ctx.inflight, x.ctx.landed, x.ctx.decoded, x.ctx.savedIss, x.ctx.redo, x.ctx.resume, x.ctx.release, x.ctx.walks, x.ctx.ckpt, x.ctx.ckptAt,
    x.ctx.armed, x.ctx.idleAt, x.ctx.stopped, x.ctx.pager, x.ctx.waitsFault, x.ctx.unstamped, x.ctx.dueFrom, x.ctx.waitAt, x.ctx.implicit,
    x.ctx.regions, x.ctx.trail))
  (fun (x0, x1, x2, x3, x4, x5, x6, x7, x8, x9, x10, x11, x12, x13, x14, x15, x16, x17, x18, x19, x20, x21, x22, x23, x24, x25, x26, x27, x28, x29,
    x30, x31, x32, x33, x34, x35, x36, x37, x38, x39, x40, x41, x42, x43, x44, x45) =>
    { ctx := { s := x0, a := x1, stride := x2, v := x3, p := x4, m := x5, pc := x6, rep := x7, sticky := x9, savedSticky := x10, snap := x11,
                handlerSnap := x12, k := x13, h := x14, it := x15, n := x16, nest := x17, savedNest := x18, f := x19, run := x23, issueNo := x24,
                inflight := x25, landed := x26, decoded := x27, savedIss := x28, redo := x29, resume := x30, release := x31, walks := x32,
                ckpt := x33, ckptAt := x34, armed := x35, idleAt := x36, stopped := x37, pager := x38, waitsFault := x39, unstamped := x40,
                dueFrom := x41, waitAt := x42, implicit := x43, regions := x44, trail := x45 },
      done := x8, panes := x20, core := x21, no := x22 })

end Sys2Proof.Machine
end

