-- ==== Sys2Proof/Machine/Crypto.lean ====
section
/-! DEFINITION. SHA3-256, by which the log digests inbound blocks (R393) and the attestation report digests the geometry table
(R403). The manual names the function and does not give it: it is FIPS 202's (log entry 18). -/

namespace Sys2Proof.Machine

/-- The lanes in the order in which they are given their rotation, from (x, y) on, with the counts: the `t`-th visited lane turns by the
triangular number of t. -/
def rotWalk (x y t : Nat) : Nat → List (Nat × Nat)
  | 0 => []
  | n + 1 => (x + 5 * y, t * (t + 1) / 2 % 64) :: rotWalk y ((2 * x + 3 * y) % 5) (t + 1) n

/-- The rotation of the lane at index x + 5 y; lane (0, 0) is not visited and does not turn. -/
def rotOf (i : Nat) : Nat := ((rotWalk 1 0 1 24).lookup i).getD 0

/-- Successive states of the shift register whose low bit makes the round constants: x^8 + x^6 + x^5 + x^4 + 1. -/
def rcStates (r : Nat) : Nat → List Nat
  | 0 => []
  | n + 1 => r :: rcStates (if r < 128 then 2 * r else (2 * r - 256) ^^^ 0x71) n

/-- The constant of a round from the seven register states that it takes: the j-th gives bit 2^j - 1. -/
def rcOf (states : List Nat) : Nat := (states.zipIdx.map fun e => e.1 % 2 * 2 ^ (2 ^ e.2 - 1)).sum

/-- The constants of `n` rounds. -/
def rcRounds (states : List Nat) : Nat → List Nat
  | 0 => []
  | n + 1 => rcOf (states.take 7) :: rcRounds (states.drop 7) n

/-- Lane (x, y) of a state. -/
def lane (a : List Word64) (x y : Nat) : Word64 := a.getD (x % 5 + 5 * (y % 5)) 0

/-- A state from its lanes. -/
def lanesBy (f : Nat → Nat → Word64) : List Word64 := (List.range 25).map fun i => f (i % 5) (i / 5)

/-- One round. -/
def keccakRound (a : List Word64) (rc : Nat) : List Word64 :=
  let c := (List.range 5).map fun x => lane a x 0 ^^^ lane a x 1 ^^^ lane a x 2 ^^^ lane a x 3 ^^^ lane a x 4
  let d := (List.range 5).map fun x => c.getD ((x + 4) % 5) 0 ^^^ (c.getD ((x + 1) % 5) 0).rotateLeft 1
  let a := lanesBy fun x y => lane a x y ^^^ d.getD x 0
  let r := lanesBy fun x y => (lane a x y).rotateLeft (rotOf (x + 5 * y))
  let b := lanesBy fun x y => lane r ((x + 3 * y) % 5) x
  lanesBy fun x y =>
    let v := lane b x y ^^^ (~~~(lane b (x + 1) y) &&& lane b (x + 2) y)
    if x = 0 ∧ y = 0 then v ^^^ BitVec.ofNat 64 rc else v

/-- The permutation: 24 rounds. -/
def keccak (a : List Word64) : List Word64 := (rcRounds (rcStates 1 168) 24).foldl keccakRound a

/-- Eight bytes as a lane, the first lowest. -/
def laneOfBytes : List Byte → Nat
  | [] => 0
  | b :: bs => b.toNat + 256 * laneOfBytes bs

/-- A block of 136 bytes absorbed. -/
def absorb (a : List Word64) (blk : List Byte) : List Word64 :=
  keccak ((List.range 25).map fun i => a.getD i 0 ^^^ BitVec.ofNat 64 (laneOfBytes ((blk.drop (8 * i)).take 8)))

/-- The message with its padding to a multiple of 136 bytes. -/
def sha3Pad (m : List Byte) : List Byte :=
  let n := 135 - m.length % 136
  if n = 0 then m ++ [0x86] else m ++ 0x06 :: List.replicate (n - 1) 0 ++ [0x80]

/-- `n` blocks absorbed in turn. -/
def absorbAll (a : List Word64) (m : List Byte) : Nat → List Word64
  | 0 => a
  | n + 1 => absorbAll (absorb a (m.take 136)) (m.drop 136) n

/-- The four words of the SHA3-256 digest of a message: word 0 holds bytes 0 to 7, byte 0 lowest. -/
def sha3 (m : List Byte) : List Word64 :=
  let p := sha3Pad m
  (absorbAll (List.replicate 25 0) p (p.length / 136)).take 4

end Sys2Proof.Machine
end

