-- ==== Sys2Proof/Machine/Ordered.lean ====
section
/-! DEFINITION. LD.ACQ, ST.REL, LD.SC, ST.SC and FENCE.R (R326 to R331): each waits first and acts when its wait has
ended. -/

namespace Sys2Proof.Machine

/-- The cycles that the SC figure of R331 pads the wheel wait to. -/
def wheelBound : Nat := 6144

/-- The latest declared completion, at least the next cycle, of the accesses of a context that satisfy a condition (R331). -/
def State.latestDue (s : State) (p : Trail → Bool) : Nat :=
  ((s.cur.trail.filter p).map Trail.due).foldl max ((s.core s.iss.g).clock + 1)

/-- The wait of R331 in a deterministic launch, else the wait for a condition; nothing when it has ended. -/
def waitFor (s : State) (det : Nat) (c : WaitCond) : Except State Unit :=
  if s.granted then .ok () else slotWait s (if s.det then .clock det else c)

/-- Where the four may aim (R326, R331). -/
def reachOrdered (det sc : Bool) : Reach := if sc then reachMemory else reachTimed det

/-- The value of a loaded scalar delivered at the next issue, with read-through flags and poison (R326, R328). -/
def State.putLoaded (s : State) (d : SReg) (sx : Bool) (n v : Nat) (fl : BitVec 6) (bad : Bool) : State :=
  let s := (s.putS d (extend64 sx n v) 1).putFlags fl 1
  if bad then s.putStat stPoison else s

/-- A read of a window, through a request and its response (R157, R158); of a poisoned one it reads 0 (R168, R326). -/
def windowAcquire (s : State) (d : SReg) (va : Word64) (q o n : Nat) (sx : Bool) : Except State State :=
  match s.iss.reply with
  | some b =>
    if s.granted then .ok (s.putLoaded d sx n (if isPoison b.desc then 0 else bytesOf b.data (va.toNat % 64) n) 0 (isPoison b.desc))
    else slotWait s (.response q (o / 64 * 64))
  | none => do
    slotPort s va q
    slotWait (s.requestWindow q o va) (.response q (o / 64 * 64))

/-- What a release waits for before it acts (R316). -/
def State.releaseCond (s : State) : WaitCond := relWait s.sysScope

/-- An SC access (R329): it waits for its order point on the wheel and acts there. In a deterministic launch the wait goes on to the padded figure
of R331, counted from the issue; `act` is the access, with what a load has read, and `fin` what is visible at the next issue. -/
def scAccess (s : State) (lat : Nat) (act : State → Except State (State × VVal)) (fin : State → VVal → State) : Except State State :=
  match s.iss.reply, s.iss.padded with
  | some v, some n => if s.granted then .ok (fin (s.modIss fun i => { i with reply := none, padded := none }) v) else slotWait s (.clock n)
  | _, _ =>
    if s.granted then do
      let (s, v) ← act s
      match s.iss.padded with
      | some n => slotWait (s.modIss fun i => { i with reply := some v }) (.clock n)
      | none => .ok (fin s v)
    else
      let now := (s.core s.iss.g).clock
      let padded := now + max (s.latestDue (fun _ => true) - now) wheelBound + lat
      slotWait (if s.det && s.iss.padded.isNone then s.modIss fun i => { i with padded := some padded } else s) (.wheel s.sysScope)

/-- LD.ACQ (R328). -/
def execLdAcq (d : SReg) (base : AReg) (off : Off9) (sz : BitVec 2) (sx : Bool) (s : State) : Out :=
  slotDone (do
    let n := sizeBytes sz
    let va := s.ea base off n
    let l ← slotAccess s (reachOrdered s.det false) .read va n
    match windowPort l.space with
    | some (q, o) => windowAcquire s d va q o n sx
    | none => do
      waitFor s ((s.core s.iss.g).clock + s.latencyOf s.iss.g va.toNat l) .performed
      let s ← needOnTime s l
      let (v, fl, bad) ← slotScalar s l va.toNat n
      .ok (s.putLoaded d sx n v fl bad))

/-- A load's scalar with its read-through flags and poison, as a block that the end of its wait delivers. -/
def heldScalar (r : Nat × BitVec 6 × Bool) : VVal := ⟨BitVec.ofNat 512 (r.1 + r.2.1.toNat * 2 ^ 64), if r.2.2 then poisonDesc else 0⟩

/-- LD.SC (R329). -/
def execLdSc (d : SReg) (base : AReg) (off : Off9) (sz : BitVec 2) (sx : Bool) (s : State) : Out :=
  slotDone (do
    let n := sizeBytes sz
    let va := s.ea base off n
    let l ← slotAccess s (reachOrdered s.det true) .read va n
    scAccess s (s.latencyOf s.iss.g va.toNat l)
      (fun s => do
        let s ← needOnTime s l
        let r ← slotScalar s l va.toNat n
        .ok (s, heldScalar r))
      fun s b => s.putLoaded d sx n (b.data.toNat % 2 ^ 64) (b.data.extractLsb' 64 6) (isPoison b.desc))

/-- A differentiable address refuses the ordered stores while the context records or reverses (R326). -/
def untaped (s : State) (l : Loc) (va : Word64) : Except State Unit :=
  if (s.reverse || s.cur.k.tapeOn) && s.differentiable l va.toNat then protFault s va else .ok ()

/-- ST.REL (R328). -/
def execStRel (d : SReg) (base : AReg) (off : Off9) (sz : BitVec 2) (s : State) : Out :=
  slotDone (do
    let n := sizeBytes sz
    let va := s.ea base off n
    let l ← slotAccess s (reachOrdered s.det false) .write va n
    match windowPort l.space with
    | some (q, o) =>
      slotPort s va q
      waitFor s 0 s.releaseCond
      .ok (s.storeWindow q o n (s.rdS d).toNat va)
    | none => do
      plainOnly s l va
      untaped s l va
      waitFor s (s.latestDue fun _ => true) s.releaseCond
      .ok (s.storeScalar s.iss.g va.toNat l n (s.rdS d).toNat))

/-- ST.SC (R329). -/
def execStSc (d : SReg) (base : AReg) (off : Off9) (sz : BitVec 2) (s : State) : Out :=
  slotDone (do
    let n := sizeBytes sz
    let va := s.ea base off n
    let l ← slotAccess s (reachOrdered s.det true) .write va n
    plainOnly s l va
    untaped s l va
    scAccess s (s.latencyOf s.iss.g va.toNat l) (fun s => .ok (s.writePart l.wkeys n (s.rdS d).toNat, {})) fun s _ => s)

/-- The end of a fence's range; a length that wraps ends at 2^64 - 1 (R330). -/
def fenceEnd (a len : Word64) : Nat := if 2 ^ 64 ≤ a.toNat + len.toNat then 2 ^ 64 - 1 else a.toNat + len.toNat

/-- An earlier access that a fence waits for: of its kinds, and touching its range; nothing touches an empty one (R323, R330). -/
def Trail.fenced (t : Trail) (lo hi : Nat) (kinds : BitVec 2) : Bool :=
  (if t.wr then kinds.getLsbD 0 else kinds.getLsbD 1) && lo < hi && t.lo < hi && lo < t.hi

/-- FENCE.R (R323, R330): it waits for the reads of windows that it selects whatever its scope, for the writes at system scope. -/
def execFenceR (a : AReg) (b : SReg) (kinds : BitVec 2) (s : State) : Out :=
  slotDone (do
    let lo := s.rdA a
    let hi := fenceEnd lo (s.rdS b)
    waitFor s (s.latestDue fun t => t.fenced lo.toNat hi kinds)
      (.acked lo.toNat hi (s.sysScope && kinds.getLsbD 0) (kinds.getLsbD 1))
    .ok s)

end Sys2Proof.Machine
end

