-- ==== Sys2Proof/Machine/Sched.lean ====
section
/-! DEFINITION. When contexts issue, what their landings and waits do, the SC wheel, pickup, and the deterministic schedule (R171 to
R174, R319, R340 to R344, R350 to R354, R386). -/

namespace Sys2Proof.Machine

/-! ### Issue outside the schedule (R20, R341, R354) -/

/-- The context issues unstamped: in a deterministic launch, on the service core, after a knock, or in its trap handler (R343, R354,
R372). -/
def State.unstampedCtx (s : State) (g x : Nat) : Bool := !computing g || (s.ctx g x).unstamped || (s.ctx g x).k.trapIn

/-- A context may issue as far as it and its core go. -/
def State.mayRun (s : State) (g x : Nat) : Bool :=
  let k := s.ctx g x
  s.run && !s.iss.active && s.sound g && x < 4 && k.run == .running && !k.stopped && k.walks.isEmpty &&
    (s.core g).issuedAt != some s.cycle && (!s.coreFrozen g || s.mayIssueFrozen g x)

/-- The rest of an issue of the context may execute. -/
def State.resumeDue (s : State) (g x : Nat) : Bool := (s.ctx g x).resume.isSome && s.mayRun g x

/-- The context whose turn it is: the selector's; in a deterministic launch one with the rest of an issue to execute, or among unstamped
ones the lowest-numbered that may issue. -/
def State.hasTurn (s : State) (g x : Nat) : Bool :=
  if s.det && computing g then
    (s.ctx g x).resume.isSome ||
      (s.unstampedCtx g x && ((List.range x).all fun y => !(s.unstampedCtx g y && s.mayRun g y)))
  else (s.core g).cur == x

/-- BUNDLE_ISSUE may happen. -/
def State.issueDue (s : State) (g x : Nat) : Bool := s.mayRun g x && s.hasTurn g x

/-- BUNDLE_ISSUE. -/
def execBundleIssue (g x : Nat) (s : State) : Out := if s.issueDue g x then .next (s.issueNext g x) else .next s

/-- Some result of the context is due at its next issue, and the context is between two issues. -/
def Ctx.resultsDue (k : Ctx) : Bool :=
  k.run == .running && k.resume.isNone && !k.release && k.inflight.any fun e => decide (e.due ≤ k.issueNo)

/-- What the next issue would deliver is delivered, and remembered against landings of earlier issues (R32, R174). -/
def Ctx.deliverDue (k : Ctx) : Ctx :=
  let due := k.inflight.filter fun e => decide (e.due ≤ k.issueNo)
  { k.deliver k.issueNo with landed := k.landed ++ due.filterMap fun e => e.upd.dest.map fun d => (d, e.issue) }

/-- RESULT_DELIVERY: what the next issue would deliver becomes visible to it (R30). -/
def execResultDelivery (g x : Nat) (s : State) : Out :=
  if (s.ctx g x).resultsDue then .next (s.modCtx g x Ctx.deliverDue) else .next s

/-! ### Landings (R171 to R174) -/

/-- A landing whose data has come may deliver. -/
def Landing.ready (l : Landing) : Bool := l.dead || (!l.late && l.await.isNone)

/-- Insert a landing behind those of the same or earlier issues. -/
def insertLanding (l : Landing) : List Landing → List Landing
  | [] => [l]
  | m :: ms => if l.issue < m.issue then l :: m :: ms else m :: insertLanding l ms

/-- The landings of a list bring their updates, the latest issue last (R32). -/
def Core.landAll (c : Core) (ls : List Landing) : Core :=
  (ls.foldl (fun acc l => insertLanding l acc) []).foldl (fun (c : Core) l =>
    if l.dead then c else c.setCtx l.ctx (l.upd.foldl (fun k u => k.receive l.issue l.slot u) (c.ctx l.ctx))) c

/-- The landings that are due. -/
def Core.dueLandings (c : Core) : List Landing := c.sill.filter fun l => decide (l.due ≤ c.clock)

/-- The landings that are due and ready deliver; their sill entries are free. -/
def Core.deliverLandings (c : Core) : Core :=
  { c.landAll (c.dueLandings.filter Landing.ready) with
    sill := c.sill.filter fun (l : Landing) => !(decide (l.due ≤ c.clock) && l.ready) }

/-- LANDING_DELIVERY may happen: a landing is due, and the core runs. -/
def State.landingDue (s : State) (g : Nat) : Bool := !(s.core g).dueLandings.isEmpty && !s.coreFrozen g

/-- LANDING_DELIVERY: data that has not come freezes the core (R173). -/
def execLandingDelivery (g : Nat) (s : State) : Out :=
  if !s.landingDue g then .next s
  else
    let c := (s.core g).deliverLandings
    .next (s.setCore g (if c.dueLandings.isEmpty then c else { c with frozen := c.frozen ++ [.late], frozenAt := s.cycle }))

/-- The late data of a frozen core may arrive: no response of a window is outstanding. -/
def Core.lateMayArrive (c : Core) : Bool := c.frozen.contains Freeze.late && c.dueLandings.all fun l => l.dead || l.await.isNone

/-- LATE_DATA_ARRIVAL. -/
def execLateDataArrival (g : Nat) (s : State) : Out :=
  let c := s.core g
  if !c.lateMayArrive then .next s
  else
    let c := { c with
      sill := c.sill.map fun (l : Landing) => if l.due ≤ c.clock then { l with late := false } else l,
      frozen := c.frozen.filter (· != Freeze.late) }
    .next ((s.setCore g c.deliverLandings).annotate 0x10 g 0 (w64 (s.cycle - (s.core g).frozenAt)))

/-! ### Engine waits (R340) -/

/-- The condition of a wait of context x of core g holds; the wheel serves in an event of its own. -/
def State.waitOver (s : State) (g x : Nat) (i : Iss) : WaitCond → Bool
  | .performed => true
  | .acked lo hi wr rd => !s.outstanding g x lo hi wr rd
  | .clock n => decide (n ≤ (s.core g).clock)
  | .response .. => i.reply.isSome
  | .sill => decide ((s.core g).sillUsed < sillSize)
  | .watermark n lo hi => !(s.chan g n).stalls lo hi
  | .wheel _ => false
  | .matQueue => decide ((s.core g).queued < queueSize)
  | .slotReady n => ((s.core g).slot n).st != .filling
  | .slotIdle n => (s.core g).slotIdle n
  | .tiles mask => !s.anyOwned g mask
  | .engineIdle => s.matrixIdle g
  | .taskRoom q tag => (s.cluster (clusterOf g)).taskRoom q tag
  | .noTask => !s.taskAt g
  | .tag t => !(s.cluster (clusterOf g)).tags.contains t
  | .chansQuiet mask => (s.core g).quiet mask
  | .mark n a => (s.chan g n).reached a
  | .latch h n _ => s.latchDone h n
  | .anyLatch h ns _ => ns.any fun n => s.latchDone h n.2
  | .handle n c room =>
    let v := vget 0 (s.ctx g x).h n
    decide (c ≤ if room then handleFree v else handleFilled v)
  | .contRoom cl => decide ((s.cluster cl).conts.length < contQueueSize)
  | .collRoom => s.collRoom (dieOf g)
  | .glazeDone pa => (s.frame pa).glazeWait.isNone

/-- A wait whose end lets the slot act without testing again. -/
def WaitCond.grants : WaitCond → Bool
  | .performed | .acked .. | .clock _ | .wheel _ | .response .. | .latch .. | .anyLatch .. => true
  | _ => false

/-- The rest of an issue some of whose waits are over: their slots are to execute, the others go on waiting. -/
def Iss.woken (i : Iss) (ended : WaitCond → Bool) : Iss :=
  let still := i.waits.filter fun w => !ended w.2
  let stays (n : Nat) : Bool := still.any fun w => w.1 == n
  { i with
    waits := still, granted := (i.waits.filter fun w => ended w.2 && w.2.grants).map (·.1),
    pending := i.pending.filter (fun (e : Nat × SlotWord) => !stays e.1),
    undone := i.undone ++ i.pending.filter fun (e : Nat × SlotWord) => stays e.1 }

/-- The waits of a context end as far as they are over: it is running again, and in a deterministic launch acts at once. -/
def State.wake (s : State) (g x : Nat) (i : Iss) (ended : WaitCond → Bool) (now : Bool) : State :=
  let (s, i) := s.observeAll g x i (i.waits.filter fun w => ended w.2)
  let i := i.woken ended
  let s := s.setCore g (((s.core g).setCtx x { s.ctx g x with run := .running, resume := some i }).select)
  if now then s.resumeIssue g x i else s

/-- An engine wait of the context is over. -/
def State.wakeDue (s : State) (g x : Nat) : Bool :=
  let k := s.ctx g x
  k.run == .waiting && !k.stopped && !s.iss.active && s.sound g && !s.coreFrozen g &&
    (match k.resume with | some i => i.waits.any fun w => s.waitOver g x i w.2 | none => false)

/-- A wait of fixed length. -/
def WaitCond.isFigure : WaitCond → Bool
  | .clock _ => true
  | _ => false

/-- In a deterministic launch a wait of the context has reached its figure, on a service core too (R331). -/
def State.figureOver (s : State) (g x : Nat) : Bool :=
  s.det && s.wakeDue g x && (match (s.ctx g x).resume with | some i => i.waits.any fun w => w.2.isFigure && s.waitOver g x i w.2 | none => false)

/-- ENGINE_WAIT_END. -/
def execEngineWaitEnd (g x : Nat) (s : State) : Out :=
  if !s.wakeDue g x then .next s
  else match (s.ctx g x).resume with
    | none => .next s
    | some i => .next (s.wake g x i (s.waitOver g x i) (s.det && computing g || s.figureOver g x))

/-! ### The wheel (R319) -/

/-- A wait for the wheel. -/
def WaitCond.onWheel : WaitCond → Bool
  | .wheel _ => true
  | _ => false

/-- A wait for the wheel that may end: the earlier accesses of the context have completed at its scope (R329). -/
def State.wheelReady (s : State) (g x : Nat) : WaitCond → Bool
  | .wheel sys => !s.unreleased g x sys
  | _ => false

/-- The context waits for the wheel, since an earlier cycle. -/
def State.waitsWheel (s : State) (g x : Nat) : Bool :=
  let k := s.ctx g x
  k.run == .waiting && !k.stopped && decide (k.waitAt < s.cycle) &&
    (match k.resume with | some i => i.waits.any fun w => s.wheelReady g x w.2 | none => false)

/-- The waiting context that the wheel serves next. -/
def State.wheelNext (s : State) (g : Nat) : Option Nat :=
  ([1, 2, 3, 4].map fun d => ((s.core g).scLast + d) % 4).find? fun x => s.waitsWheel g x

/-- The wheel stands at core g in this cycle and has a context to serve; no freeze holds the wheel up (R319). -/
def State.wheelDue (s : State) (g : Nat) : Bool :=
  s.cycle % 1536 == g && (s.core g).scAt != some s.cycle && !s.iss.active && s.sound g && (s.wheelNext g).isSome

/-- SC_ORDER_POINT: the access acts at once. -/
def execScOrderPoint (g : Nat) (s : State) : Out :=
  if !s.wheelDue g then .next s
  else match s.wheelNext g with
    | none => .next s
    | some x => match (s.ctx g x).resume with
      | none => .next s
      | some i =>
        let s := s.modCore g fun c => { c with scLast := x, scAt := some s.cycle }
        .next (s.wake g x i (WaitCond.onWheel) true)

/-! ### Pickup (R343, R344, R354) -/

/-- An idle context: dormant and not armed. -/
def Ctx.idle (k : Ctx) : Bool := k.run == .dormant && !k.armed

/-- The lowest-numbered idle context of core g; where a pickup comes in the cycle after, one that was idle before this cycle (R343). -/
def State.idleCtx (s : State) (g : Nat) (now : Bool) : Option Nat :=
  (List.range 4).find? fun x => (s.ctx g x).idle && (now || decide ((s.ctx g x).idleAt < s.cycle))

/-- The core that a record names, as a number in its cluster. -/
def QRec.target (r : QRec) : Option Nat := if bit (r.words.getD 7 0) 7 then some (bits (r.words.getD 7 0) 6 0) else none

/-- The record belongs to the schedule of a computing core of a deterministic launch. -/
def QRec.scheduled (r : QRec) : Bool := !r.pager && (match r.target with | some n => n != 95 | none => true)

/-- The record is taken at its ready time itself, and not in the cycle after: one that SPAWN has enqueued in a deterministic launch (R354). -/
def State.spawned (s : State) (r : QRec) : Bool := s.det && r.scheduled && !r.suspended

/-- The cores of a cluster that may take a record: all, the one that it names, or the service core for a page upcall of a
deterministic launch. -/
def QRec.cores (r : QRec) (det : Bool) : List Nat :=
  match r.target with
  | some n => [n]
  | none => if det then (if r.pager then [95] else []) else List.range 96

/-- The record may be taken by now: after the cycle of its enqueueing, and in a deterministic launch from its ready time on. -/
def State.recReady (s : State) (r : QRec) : Bool :=
  if s.det && r.scheduled then (if r.suspended then decide (r.ready < s.sclk) else decide (r.ready ≤ s.sclk))
  else decide (r.ready < s.cycle)

/-- The context that takes a record: of the lowest-numbered core with an idle context, its lowest-numbered one. A frozen core takes
none. -/
def State.taker (s : State) (cl : Nat) (r : QRec) : Option (Nat × Nat) :=
  (r.cores s.det).findSome? fun n =>
    let g := 96 * cl + n
    if s.coreFrozen g then none else (s.idleCtx g (s.spawned r)).map fun x => (g, x)

/-- Of two records in queue order, the one that is taken first. -/
def QRec.before (r q : QRec) : Bool := decide (q.prio ≤ r.prio)

/-- The records that a context may take now, with their place in the queue. -/
def State.takeable (s : State) (cl : Nat) : List (Nat × QRec × Nat × Nat) :=
  let l := (s.cluster cl).conts
  ((List.range l.length).zip l).filterMap fun (n, r) =>
    if s.recReady r then (s.taker cl r).map fun (g, x) => (n, r, g, x) else none

/-- Of records in queue order, one of the highest priority, the oldest first. -/
def highest : List (Nat × QRec × Nat × Nat) → Option (Nat × QRec × Nat × Nat)
  | [] => none
  | e :: es => match highest es with
    | none => some e
    | some f => if e.2.1.before f.2.1 then some e else some f

/-- The record that is taken (R343). On a deterministic schedule priorities do not act: its records are taken oldest first, and no record of the
service core stands in their way (R354). -/
def bestRec (det : Bool) (l : List (Nat × QRec × Nat × Nat)) : Option (Nat × QRec × Nat × Nat) :=
  match l.find? fun e => det && e.2.1.scheduled with
  | some e => some e
  | none => highest l

/-- A spawned record of a deterministic launch that is ready while its core has no idle context (R354). -/
def State.spawnLate (s : State) (cl : Nat) : Option QRec :=
  (s.cluster cl).conts.find? fun r =>
    s.spawned r && s.recReady r && (match r.target with | some n => s.sound (96 * cl + n) && (s.idleCtx (96 * cl + n) true).isNone | none => false)

/-- A context as a record starts it (R344). -/
def Ctx.carry (k : Ctx) (ws : List Word64) : Ctx :=
  let w (n : Nat) : Word64 := ws.getD n 0
  let k := { k with
    s := vset (vset (vset (vset k.s 1 (w 2)) 2 (w 3)) 3 (w 4)) 4 (w 5),
    p := (List.range 15).foldl (fun p j => vset p (j + 1) (bit (w 6) (26 + j))) k.p,
    ckpt := w64 ((w 7).toNat / 256 * 256),
    k := { k.k with lb := bits (w 6) 63 55, ldm1 := bits (w 6) 54 48, lrot := bits (w 6) 47 41, wpos := 0,
                    rs := bits (w 6) 3 0, rp := bits (w 6) 6 4, rv := bits (w 6) 10 8 } }
  k

/-- A context takes a record. -/
def State.pickUp (s : State) (cl n : Nat) (r : QRec) (g x : Nat) : State :=
  let s := s.modCluster cl fun c => { c with conts := c.conts.eraseIdx n }
  let s := s.startCtx g x (w64 ((r.words.getD 0 0).toNat / 4 * 4)) (r.words.getD 1 0)
  s.modCtx g x fun k => { k.carry r.words with pager := r.pager, unstamped := s.det && !computing g }

/-- PICKUP may happen. -/
def State.pickupDue (s : State) (cl : Nat) : Bool :=
  s.run && !s.ending && !s.iss.active && !s.preempting && (!(s.takeable cl).isEmpty || (s.spawnLate cl).isSome)

/-- PICKUP; in a deterministic launch a record that finds no idle context ends the launch (R354). -/
def execPickup (cluster : Nat) (s : State) : Out :=
  if !s.pickupDue cluster then .next s
  else match bestRec s.det (s.takeable cluster) with
    | some (n, r, g, x) => .next (s.pickUp cluster n r g x)
    | none => match s.spawnLate cluster with
      | some r => .next (s.raise {
          code := cOverrun, gcore := 96 * cluster + r.target.getD 0, w2 := w64 ((r.words.getD 0 0).toNat / 4 * 4), w3 := w64 s.sclk })
      | none => .next s

/-- Cycles after which a waiting record rises (R343). -/
def agingCycles : Nat := 65536

/-- The record rises now. -/
def State.ages (s : State) (r : QRec) : Bool :=
  decide (r.prio < 3) && decide (r.since + agingCycles ≤ s.cycle) && !(s.det && r.scheduled)

/-- The record one priority higher, where it rises now. -/
def State.aged (s : State) (r : QRec) : QRec := if s.ages r then { r with prio := r.prio + 1, since := r.since + agingCycles } else r

/-- PRIORITY_AGING. -/
def execPriorityAging (cluster : Nat) (s : State) : Out :=
  if (s.cluster cluster).conts.any s.ages then
    .next (s.modCluster cluster fun c => { c with conts := c.conts.map s.aged })
  else .next s

/-! ### The selector's quantum (R341) -/

/-- Consecutive issues after which the selector passes on. -/
def quantumIssues : Nat := 65536

/-- SELECTOR_QUANTUM may happen: the current bundle's last repetition has issued. -/
def State.quantumOver (s : State) (g : Nat) : Bool :=
  let c := s.core g
  s.run && !s.det && !s.iss.active && decide (quantumIssues ≤ c.quantum) && (c.ctx c.cur).rep == 0 &&
    (c.ctx c.cur).resume.isNone && (c.nextRunning c.cur).isSome

/-- SELECTOR_QUANTUM. -/
def execSelectorQuantum (g : Nat) (s : State) : Out :=
  if !s.quantumOver g then .next s
  else match (s.core g).nextRunning (s.core g).cur with
    | some y => .next (s.modCore g fun c => { c with cur := y, quantum := 0 })
    | none => .next s

/-! ### The deterministic schedule (R350 to R353) -/

/-- The context's next issue follows the previous one in the next cycle: a repetition, or a later point of a nest (R29, R304). -/
def Ctx.consecutive (k : Ctx) : Bool :=
  decide (0 < k.rep) || (match k.nest with | some n => n.body == k.pc && decide (0 < n.point) | none => false)

/-- The frame position (R350). -/
def State.framePos (s : State) : Nat := s.sclk % 2048

/-- A header's bundle is due now, at or after the first cycle at which it may be. -/
def State.stampDue (s : State) (k : Ctx) (h : Word32) : Bool :=
  decide (k.dueFrom ≤ s.sclk) && (k.consecutive || headerStamp h == s.framePos)

/-- The next issue of a context is due now, as `fetch` reads headers: that of the first bundle that it does not pass over. -/
def State.headerDue (s : State) (fetch : Word64 → Fetched Word32) (k : Ctx) : Bool :=
  match k.repeats with
  | some b => s.stampDue k b.hdr
  | none => match k.nextHeader fetch skipFuel with
    | (k, .got h) => s.stampDue k h
    | _ => false

/-- A stamped context that runs, between two issues, in a cycle at which its bundle may be due. -/
def State.betweenIssues (s : State) (g x : Nat) : Bool :=
  let k := s.ctx g x
  s.stamped g x && k.run == .running && k.resume.isNone && decide (k.dueFrom ≤ s.sclk)

/-- The bundle of a running stamped context is due now. -/
def State.bundleDue (s : State) (g x : Nat) : Bool := s.betweenIssues g x && s.headerDue (s.fetchHeader g) (s.ctx g x)

/-- The header of a stamped context's next bundle is not to be had yet: it lies on a page that the TLB lacks, which is looked up as soon as the cycle
of the previous issue is over, or its fetch faults. -/
def State.headerMissing (s : State) (g x : Nat) : Bool :=
  s.betweenIssues g x && (s.ctx g x).repeats.isNone && (match ((s.ctx g x).nextHeader (s.fetchHeader g) skipFuel).2 with
    | .got _ => false
    | _ => true)

/-- A header as memory holds it, its page looked up in the tables where the TLB lacks it: what the schedule tests a waiting context against. -/
def State.peekHeader (s : State) (g : Nat) (pc : Word64) : Fetched Word32 :=
  match s.fetchHeader g pc with
  | .walk va => match s.walk va.toNat with
    | .leaf e level _ => (s.tlbFill (clusterOf g) va.toNat e level).fetchHeader g pc
    | _ => .walk va
  | f => f

/-- The context as it goes on when what it waits in is over. -/
def Ctx.later (k : Ctx) : Ctx :=
  match k.resume with
  | some i => { k.goOn i with resume := none }
  | none => k

/-- The context waits, but not to end, or has stopped between two issues. -/
def Ctx.holdsUp (k : Ctx) : Bool :=
  match k.run, k.resume with
  | .waiting, some i => i.ends.isNone
  | .running, none => k.stopped
  | _, _ => false

/-- The next bundle of a context that waits or has stopped is due now (R353, R385). -/
def State.heldBundleDue (s : State) (g x : Nat) : Bool :=
  let k := s.ctx g x
  s.stamped g x && decide (k.dueFrom ≤ s.sclk) && k.holdsUp && s.headerDue (s.peekHeader g) k.later

/-- Another stamped context of the core has a bundle due in this cycle, or has issued one in it. -/
def State.dueTwin (s : State) (g x : Nat) : Option Nat :=
  (List.range 4).find? fun y => y != x && (s.bundleDue g y || (s.core g).stampedAt == some (s.cycle, y))

/-- SCHEDULE_DUE has something to do for a context: a header to fetch, before any bundle of the core is judged, or a bundle that is due. -/
def State.scheduleReady (s : State) (g x : Nat) : Bool :=
  s.run && !s.iss.active && s.sound g && x < 4 && !s.coreFrozen g &&
    (s.headerMissing g x || (((List.range 4).all fun y => !s.headerMissing g y) &&
      ((s.bundleDue g x && !(s.ctx g x).stopped) || s.heldBundleDue g x)))

/-- The address of the bundle of a context that is due in this cycle, or that has issued in it. -/
def State.dueAddress (s : State) (g x : Nat) : Word64 :=
  if (s.core g).stampedAt == some (s.cycle, x) then (s.core g).issuedPc
  else ((s.ctx g x).later.nextHeader (s.peekHeader g) skipFuel).1.pc

/-- An overrun fault of a context (R353). -/
def State.overrun (s : State) (g x : Nat) (pc : Word64) : State := s.ctxFault g x cOverrun pc pc (w64 s.sclk)

/-- SCHEDULE_DUE. -/
def execScheduleDue (g x : Nat) (s : State) : Out :=
  if !s.scheduleReady g x then .next s
  else if s.headerMissing g x then .next (s.issueNext g x)
  else if s.heldBundleDue g x then .next (s.overrun g x (s.dueAddress g x))
  else match s.dueTwin g x with
    | some y => .next (s.overrun g (max x y) (s.dueAddress g (max x y)))
    | none => .next ((s.issueNext g x).modCore g fun c => { c with stampedAt := some (s.cycle, x) })

/-- CKPTMAX. -/
def State.ckptMax (s : State) : Nat := bits (s.launchWord 9) 47 0

/-- Cycles since the context last reached a checkpoint or started (R386). -/
def State.sinceCkpt (s : State) (g x : Nat) : Nat := (s.core g).clock - (s.ctx g x).ckptAt

/-- No fault of a context waits for the shutter. -/
def State.soundCtx (s : State) (g x : Nat) : Bool := s.faults.all fun f => !(f.gcore == g && f.ctx == x && f.src == .other)

/-- CKPTMAX is exceeded by a context. -/
def State.ckptOver (s : State) (g x : Nat) : Bool :=
  s.run && s.soundCtx g x && s.ckptMax != 0 && decide (s.ckptMax < s.sinceCkpt g x) && x < 4

/-- CKPTMAX_OVERRUN may happen. -/
def State.ckptOverrun (s : State) (g x : Nat) : Bool :=
  s.det && s.ckptOver g x && (s.ctx g x).run != .dormant && !(s.ctx g x).stopped

/-- CKPTMAX_OVERRUN. -/
def execCkptmaxOverrun (g x : Nat) (s : State) : Out :=
  if s.ckptOverrun g x then .next (s.overrun g x (s.ctx g x).pc) else .next s

/-- PREEMPTION_TIMEOUT may happen. -/
def State.timeoutDue (s : State) (g x : Nat) : Bool :=
  !s.det && s.preempting && s.ckptOver g x && (s.ctx g x).run == .running && !(s.ctx g x).stopped

/-- PREEMPTION_TIMEOUT. -/
def execPreemptionTimeout (g x : Nat) (s : State) : Out :=
  if s.timeoutDue g x then .next (s.ctxFault g x cTimeout (s.ctx g x).pc (s.ctx g x).pc (w64 (s.sinceCkpt g x))) else .next s

end Sys2Proof.Machine
end

