-- ==== Sys2Proof/Machine/Launch.lean ====
section
/-! DEFINITION. A launch from the launch register to its end: start, retirement with its settles, the shutter, and what is written at
schedule frames, droops and scrubs (R59, R86, R106, R107, R120, R332 to R337, R373 to R376, R394, R396, R397). -/

namespace Sys2Proof.Machine

/-! ### The launch register (R332, R333) -/

/-- The launch queue is empty. -/
def State.queueEmpty (s : State) : Bool := s.lqhead == s.lqtail

/-- RUN: a launch is running, or its start is under way. -/
def State.running (s : State) : Bool := s.run || s.startDue

/-- A launch-register write is discarded. -/
def State.lose (s : State) : State := { s with lost := true }

/-- A held value of the launch register starts the next header, as the write itself would: nothing is held while the queue is empty. -/
def State.svecWrite (s : State) (v : Nat) : State :=
  if !s.ready || s.pend.isSome then s.lose
  else if s.running then { s with pend := some v }
  else if s.queueEmpty then s.lose
  else { s with svec := v, startDue := true }

/-- LAUNCH_REGISTER. -/
def execLaunchRegister (v : Word64) (s : State) : Out := .next (if s.hostReaches then s.svecWrite (bits v 51 6 * 64) else s)

/-! ### The header (R334, R335) -/

/-- Words read from a physical address up. -/
def State.physWords (s : State) (pa n : Nat) : List Word64 := (List.range n).map fun i => w64 (s.readPhys (pa + 8 * i) 8)

/-- Width j of WIDTHS. -/
def widthOf (w4 : Word64) (j : Nat) : Nat := bits w4 (8 * j + 7) (8 * j)

/-- A width above 64, a non-zero width after a zero one, or a sum above 64. -/
def widthsBad (w4 : Word64) : Bool :=
  (List.range 6).any (fun j => decide (64 < widthOf w4 j)) ||
    (List.range 5).any (fun j => widthOf w4 j == 0 && widthOf w4 (j + 1) != 0) ||
    decide (64 < ((List.range 6).map (widthOf w4)).sum)

/-- A header's own words are malformed. -/
def headerBad (ws : List Word64) : Bool :=
  let w (n : Nat) : Word64 := ws.getD n 0
  let off (n k : Nat) : Bool := (w n).toNat % k != 0
  bits (w 0) 47 35 != 0 || bits (w 0) 31 6 != 0 || off 1 65536 || bits (w 1) 63 52 != 0 || off 2 64 || off 3 4 ||
    bits (w 4) 63 48 != 0 || widthsBad (w 4) || bits (w 6) 63 44 != 0 || bits (w 6) 23 20 != 0 ||
    bits (w 6) 43 24 % 64 != 0 || bits (w 6) 19 0 % 64 != 0 || off 7 64 || bits (w 8) 63 32 != 0 || off 8 64 ||
    bits (w 9) 63 48 != 0 || off 10 64 || bits (w 11) 63 32 != 0 || off 11 64 || off 12 64 ||
    ((List.range 15).any fun i => w (13 + i) != 0) ||
    decide (latchBase < bits (w 6) 19 0 + 4 * bits (w 6) 43 24)

/-- A start vector holds an entry with bit 1 or bit 0 set; the service cores' entries of a deterministic launch have a fault of their
own. -/
def vectorBad (det : Bool) (vec : List Word64) : Bool :=
  ((List.range 1536).zip vec).any fun e => e.2.toNat % 4 != 0 && !(det && e.1 % 96 == 95)

/-- An entry for a service core, which a deterministic launch must not have (R10). -/
def serviceEntry (vec : List Word64) : Option Word64 :=
  (List.range 16).findSome? fun c => let e := vec.getD (96 * c + 95) 0; if e = 0 then none else some e

/-! ### Buffers (R376) -/

/-- Storage keys from here up are those of scratchpads and accumulators. -/
def bufferKeys : Nat := 0x0800_0000_0000

/-- Every scratchpad and accumulator cell of the device is zeroed. -/
def State.zeroBuffers (s : State) : State :=
  { s with mem := s.mem.filter (fun (c : Host.Cell) => decide (c.1 < bufferKeys)),
           desc := s.desc.filter (fun (d : Nat × Desc) => decide (d.1 < bufferKeys / 64)), poisoned := [] }

/-- What a cluster keeps from launch to launch: the limit of its island, and the one that the next start brings (R404). -/
def Cluster.emptied (c : Cluster) : Cluster := { limit := c.limit, limitNext := c.limitNext }

/-- The limit that was written while a launch ran takes effect (R404). -/
def Cluster.atStart (c : Cluster) : Cluster := { c with limit := c.limitNext.getD c.limit, limitNext := none }

/-- A packet of a launch that has ended: nothing of the next launch is named by it. -/
def OutPacket.orphan (o : OutPacket) : OutPacket := { o with origin := .none }

/-- A port at the end of a launch: what it has been given is still sent, but for reads, and its digest has been written or kept (R394). -/
def Port.orphan (p : Port) : Port :=
  let old (l : List (Nat × OutPacket)) : List (Nat × OutPacket) := l.map fun e => (e.1, e.2.orphan)
  { p with sendq := (p.sendq.filter fun (o : OutPacket) => o.p.ty != 2).map OutPacket.orphan,
           unacked := old p.unacked, resend := old p.resend, digest := [] }

/-- A frame at the end of a launch: blocks kept until then are free, and nothing waits for the host (R98, R407). -/
def Frame.rest (f : Frame) : Frame := { f with zombie := 0, glazeWait := none }

/-- Cores, queues and engines without anything of a launch; their memories are zeroed. -/
def State.clearLaunch (s : State) : State :=
  { s.zeroBuffers with
    iss := {}, cores := [], colls := [], faults := [], struck := [], halted := [], knocksOut := [], logNow := [],
    clusters := s.clusters.map (fun ((n, c) : Nat × Cluster) => (n, c.emptied)),
    ports := s.ports.map (fun ((q, p) : Nat × Port) => (q, p.orphan)),
    frames := s.frames.map (fun ((a, f) : Nat × Frame) => (a, f.rest)) }

/-! ### Start (R336) -/

/-- A frame at the start of a launch: the directory is empty, no settle is asked for, and every pane is of an earlier launch. -/
def Frame.atStart (f : Frame) : Frame :=
  let old (p : Pane) : Pane := { p with old := true, settle := false }
  { f.rest with loose := f.loose.map old, chain := f.chain.map old, inDir := false, settleAll := false, settleLost := 0 }

/-- Register writes that waited for a launch start take effect (R392, R404, R405). -/
def State.applyNext (s : State) : State :=
  { s with
    logctl := s.logctlNext.getD s.logctl, logctlNext := none,
    replayref := s.replayrefNext.getD s.replayref, replayrefNext := none,
    fmdev := s.fmdevNext.getD s.fmdev, fmdevNext := none,
    clusters := s.clusters.map (fun ((n, c) : Nat × Cluster) => (n, c.atStart)) }

/-- The function modes of a header: a duty is the host's by FMODE or by FMDEV (R405). -/
def State.modesOf (s : State) (ws : List Word64) : Nat := bits (ws.getD 0 0) 5 0 ||| s.fmdev

/-- Context 0 of every core whose entry is non-zero starts. -/
def State.startAll (s : State) (vec : List Word64) : State :=
  ((List.range 1536).zip vec).foldl (fun (s : State) (e : Nat × Word64) =>
    if e.2 = 0 then s else s.startCtx e.1 0 e.2 (s.launchWord 5 + w64 e.1)) s

/-- The machine with a launch's clocks at 0 and its header in force; a pre-emption request made since the start was asked for is pending (R378). -/
def State.begin (s : State) (ws : List Word64) (pa : Nat) : State :=
  { s.clearLaunch with
    frames := s.frames.map (fun ((a, f) : Nat × Frame) => (a, f.atStart)),
    startDue := false, geolock := true, cycle := 0, sclk := 0, sclkHold := false, logwr := 0, logrd := 0, saveWaits := none,
    launch := some { words := ws, hdrAddr := pa, fmode := s.modesOf ws, preempt := s.saveWaits.isSome, savePa := s.saveWaits.getD 0 } }

/-- The counters of a deterministic launch where a cycle of the schedule begins: what the engines draw in it, and the choice among its events. -/
def State.draw (s : State) : State :=
  { s with free := Config.detDraw s.launchSeed s.sclk 6144, pick := Config.detDraw s.launchSeed s.sclk 6145 }

/-- The free values of a deterministic launch are those of its header and start vector: run again, it makes the same choices (R397; that what the
manual leaves open is drawn so is a DESIGN CHOICE: log entry 128). -/
def State.seed (s : State) (ws : List Word64) : State :=
  if s.det then (s.modLaunch fun l => { l with freeBefore := some (s.free, s.pick), seed := Config.detSeed ws }).draw else s

/-- A launch starts from a header and a start vector. -/
def State.startLaunch (s : State) : State :=
  let s := s.applyNext
  let pa := s.lqbase + 256 * s.lqhead
  let ws := s.physWords pa 32
  let vec := s.physWords s.svec 1536
  let s := ((s.writePhys (pa + 224) 8 1).begin ws pa).seed (ws.take 28 ++ vec)
  if headerBad ws || vectorBad s.det vec then s.raise { code := cProt, w2 := w64 pa, agent := 7 }
  else match (if s.det then serviceEntry vec else none) with
    | some e =>
      let (n, s) := s.takeFree
      s.raise { code := cBundle, w2 := e, w3 := Config.openWord n, agent := 7 }
    | none => s.startAll vec

/-- LAUNCH_START. -/
def execLaunchStart (s : State) : Out := if s.startDue && !s.run then .next s.startLaunch else .next s

/-! ### Inbound digests (R394, R397) -/

/-- The bytes that a digest covers: of every block its data, then its descriptor. -/
def digestBytes (vs : List VVal) : List Byte :=
  vs.flatMap fun v => (List.range 64).map (fun i => v.data.extractLsb' (8 * i) 8) ++
    [v.desc.extractLsb' 0 8, v.desc.extractLsb' 8 8]

/-- Records of a log in memory, up to its tail: type, w2 and the words from w4 on. -/
def State.logRecords (s : State) (pa : Nat) : Nat → List (Nat × Word64 × List Word64)
  | 0 => []
  | fuel + 1 =>
    let w0 := w64 (s.readPhys pa 8)
    let ty := bits w0 63 56
    let len := bits w0 55 48
    if len = 0 || ty = 6 then []
    else (ty, w64 (s.readPhys (pa + 16) 8), s.physWords (pa + 32) 4) :: s.logRecords (pa + 32 * len) fuel

/-- Records that a reference log can hold. -/
def logFuel : Nat := 2 ^ 27

/-- The digests of the reference log: port, frame number and digest. -/
def State.refDigests (s : State) : List (Nat × Nat × List Word64) :=
  if s.replayref = 0 then []
  else (s.logRecords s.replayref logFuel).filterMap fun r =>
    if r.1 = 5 then some (bits r.2.1 3 0, bits r.2.1 63 32, r.2.2) else none

/-- The digest of each port that has applied inbound blocks in the frame. -/
def State.frameDigests (s : State) : List (Nat × List Word64) :=
  if !s.det || !s.logRec then [] else s.ports.filterMap fun ((q, p) : Nat × Port) =>
    if p.digest.isEmpty then none else some (q, sha3 (digestBytes p.digest))

/-- The digests of a frame are those of the reference log. -/
def digestsAgree (ref : List (Nat × Nat × List Word64)) (frame : Nat) (mine : List (Nat × List Word64)) : Bool :=
  (mine.all fun m => ref.any fun r => r == (m.1, frame, m.2)) && ref.all fun r => r.2.1 != frame || mine.any fun m => m.1 == r.1

/-- The end of frame n: digests are written and compared. -/
def State.endFrame (s : State) (n : Nat) : State :=
  let mine := s.frameDigests
  let s := mine.foldl (fun (s : State) (m : Nat × List Word64) =>
    s.logAppend (.port m.1) n (s.record 0x05 ([w64 (m.1 + n * 2 ^ 32), 0] ++ m.2))) s
  let s := { s with ports := s.ports.map fun ((q, p) : Nat × Port) => (q, { p with digest := [] }) }
  let s := s.modLaunch fun l => { l with framesEnded := n + 1 }
  if s.replayref = 0 || digestsAgree s.refDigests n mine then s else s.markNoReplay n

/-- The schedule clock has passed the end of a frame. -/
def State.frameEndDue (s : State) : Bool :=
  s.det && (match s.launch with | some l => decide (l.framesEnded < s.frameNo) | none => false)

/-- Under the stall policy a full log stops the schedule at the frame's end (R396). -/
def State.stallForLog (s : State) : State :=
  if s.logRec && !s.logMarks && s.putCycle.logFull then s.modLaunch fun l => { l with logStall := true, stallAt := s.cycle } else s

/-- FRAME_END. -/
def execFrameEnd (s : State) : Out :=
  match s.launch with
  | some l => if s.frameEndDue then .next (s.endFrame l.framesEnded).stallForLog else .next s
  | none => .next s

/-- Digests of the launch's last frame, and those that only the reference log holds of later frames. -/
def State.endFrames (s : State) : State :=
  if !s.det then s
  else
    let n := s.frameNo
    let s := s.endFrame n
    let more := (s.refDigests.map fun r => r.2.1).filter fun f => decide (n < f)
    match more with
    | [] => s
    | f :: fs => s.markNoReplay (fs.foldl min f)

/-! ### Status and end (R334, R374 to R376) -/

/-- w30: the frame number from which the run is not replayable, or all ones; 0 outside deterministic launches. -/
def State.noReplayWord (s : State) : Word64 :=
  if !s.det then 0 else match s.launch with
    | some l => (match l.noreplay with | some n => w64 n | none => BitVec.allOnes 64)
    | none => 0

/-- The held value of the launch register starts the next header. -/
def State.startHeld (s : State) : State :=
  match s.pend with
  | some v => { s with pend := none }.svecWrite v
  | none => s

/-- The launch ends with a status: buffers are zeroed, the status is written, and the queue advances, for a resumed launch too (log entry 53). A save
that it leaves undone has failed. -/
def State.finish (s : State) (status setdrop : Nat) : State :=
  match s.launch with
  | none => s
  | some l =>
    let s := s.settleLog.writeTail
    let w30 := s.noReplayWord
    let s := s.clearLaunch
    let s := s.putWords (l.hdrAddr + 224) [w64 (status + min setdrop 0xFFFF * 2 ^ 16), w64 s.cycle, w30]
    let (free, pick) := l.freeBefore.getD (s.free, s.pick)
    { s with launch := none, lqhead := (s.lqhead + 1) % 64, free, pick,
             pstate := if s.pstate == PState.saving then .failed else s.pstate }.startHeld

/-! ### Settles (R107, R120) -/

/-- A block with the lanes of a mask taken from another. -/
def mergeLanes (w : Nat) (present : BitVec 64) (new old : Block) : Block :=
  ofLanes w ((List.range (512 / w)).map fun i => if present.getLsbD i then laneOf w new i else laneOf w old i)

/-- The location of frame block b by a fresh walk, for a settle: a page that lets writes through. -/
def State.settleLoc (s : State) (r : FrameRec) (b : Nat) : Option Loc :=
  let va := r.base + 64 * b
  match s.walk va with
  | .leaf e level _ => if bit e 5 then some (s.leafLoc va e level) else none
  | _ => none

/-- Frame block b with a chain settled into it; none where the settle fails. `part` gives the lanes that are written. R120 gives the descriptor for a
settle of the whole chain alone: one that a single settle leaves on a block without one is the frame's format and scale, and under a poisoned pane
block it is poison (DESIGN CHOICE: log entry 121). -/
def State.settleBlock (s : State) (r : FrameRec) (chain : List Pane) (b : Nat) (part : Option (BitVec 64)) : Option (Loc × VVal) :=
  match s.settleLoc r b with
  | none => none
  | some l =>
    let fb := s.readBlock l.key
    match r.readThrough chain fb b with
    | .badFormat _ => none
    | .ok v _ =>
      match part with
      | none => some (l, v)
      | some m => some (l, if isPoison v.desc then v else ⟨mergeLanes r.width m v.data fb.data, v.desc⟩)

/-- Several blocks of a settle, or none where one of them fails. -/
def State.settleBlocks (s : State) (r : FrameRec) (chain : List Pane) :
    List (Nat × Option (BitVec 64)) → Option (List (Loc × VVal))
  | [] => some []
  | (b, m) :: rest =>
    match s.settleBlock r chain b m, s.settleBlocks r chain rest with
    | some x, some xs => some (x :: xs)
    | _, _ => none

/-- The blocks of a settle are written. -/
def State.writeSettled (s : State) (bs : List (Loc × VVal)) : State :=
  bs.foldl (fun (s : State) (e : Loc × VVal) => s.writeBlock e.1.wkeys e.2) s

/-- A settle that is not performed goes to the error log, with a cause that the manual does not name. -/
def State.settleFails (s : State) (pa : Nat) : State :=
  let (n, s) := s.takeFree
  s.errorLog (Config.openWord n).toNat 0x7FF 0 (w64 pa)

/-- A settle of a whole chain; the number of settles dropped. -/
def State.settleWhole (s : State) (pa : Nat) (f : Frame) : State × Nat :=
  match s.settleBlocks f.info f.chain ((unionFoot f.chain).map fun b => (b, none)) with
  | some bs => ((s.writeSettled bs).setFrame pa { f with chain := [], settleAll := false }, 0)
  | none => ((s.settleFails pa).setFrame pa { f with settleAll := false }, 1)

/-- A pane commutes with every pane below position i of a chain. -/
def commutesDown (chain : List Pane) (i : Nat) (p : Pane) : Bool := (chain.take i).all fun q => commutes p q

/-- A pane of a chain is settled, where it commutes with those below it; the number of settles dropped. -/
def State.settleOne (s : State) (pa name : Nat) : State × Nat :=
  let f := s.frame pa
  match f.position name with
  | none => (s, 1)
  | some i =>
    let p := f.chain.getD i default
    let stays := f.chain.map fun (q : Pane) => if q.name == name then { q with settle := false } else q
    if !commutesDown f.chain i p then (s.setFrame pa { f with chain := stays }, 1)
    else match s.settleBlocks f.info [p] (p.blocks.map fun k => (k.idx, some k.present)) with
      | some bs => ((s.writeSettled bs).setFrame pa { f with chain := f.chain.eraseIdx i }, 0)
      | none => ((s.settleFails pa).setFrame pa { f with chain := stays }, 1)

/-- The settles of a frame: all of it, or the requested panes from the lowest position upward. -/
def State.settleFrame (s : State) (pa : Nat) : State × Nat :=
  let f := s.frame pa
  if f.settleAll then s.settleWhole pa f
  else
    let lost := f.settleLost + (f.loose.filter fun p => p.settle).length
    ((f.chain.filter fun p => p.settle).map Pane.name).foldl (fun (acc : State × Nat) (n : Nat) =>
      let (s, k) := acc.1.settleOne pa n
      (s, acc.2 + k)) (s, lost)

/-- Every requested settle, and how many were dropped. -/
def State.settleFrames (s : State) : State × Nat :=
  (s.frames.map (·.1)).foldl (fun (acc : State × Nat) (pa : Nat) =>
    let (s, k) := acc.1.settleFrame pa
    (s, acc.2 + k)) (s, 0)

/-- Open panes are dropped (R106). -/
def Frame.dropAllOpen (f : Frame) : Frame :=
  { f with loose := f.loose.filter fun (p : Pane) => match p.st with | .opened .. => false | _ => true }

/-! ### Retirement (R337) -/

/-- Nothing of the launch is left to run on a core. -/
def Core.retired (c : Core) : Bool :=
  c.ctxs.toList.all (fun k => k.run == .dormant) && c.quiet 0xF && c.drains.isEmpty && c.port.isNone

/-- Queues and pending faults of a cluster are empty. -/
def Cluster.retired (c : Cluster) : Bool :=
  c.conts.isEmpty && c.tasks.toList.all List.isEmpty && c.blocked.isEmpty && c.faults.all fun (_, f) => !f.valid

/-- Every write that the launch made has completed: no write packet of it waits to be sent or acknowledged (R324). -/
def State.writesDone (s : State) : Bool :=
  s.ports.all fun ((_, p) : Nat × Port) =>
    let mine (o : OutPacket) : Bool := o.p.ty == 1 && o.origin != .none
    !(p.sendq.any mine) && !(p.unacked.any fun e => mine e.2)

/-- The conditions of R337 hold: the launch retires. -/
def State.retireDue (s : State) : Bool :=
  s.run && !s.ending && !s.iss.active && s.faults.isEmpty && s.struck.isEmpty && (s.cores.all fun ((_, c) : Nat × Core) => c.retired) &&
    (s.clusters.all fun ((_, c) : Nat × Cluster) => c.retired) &&
    (s.colls.all fun ((_, e) : Nat × CollEngine) => e.jobs.isEmpty && e.running.isNone) && !s.logWaits

/-- Collective data that no record has taken: its tag and the die that holds it (R412). -/
def State.strayData (s : State) : Option (Nat × Nat) :=
  s.colls.findSome? fun ((d, e) : Nat × CollEngine) => e.held.head?.map fun h => (d, h.2.ctag)

/-- Re-stripes in progress when a launch ends: a page that still migrates goes back to the old placement, one in cutover on to the new one (R86). A
retirement ends them as the shutter does (DEDUCED: log entry 117). -/
def State.endMigrations (s : State) : State :=
  { s.migrations.foldl (fun (s : State) (m : Migration) =>
      s.writePhys m.entryPa 8 (if m.cutover then movedEntry m 0 else m.oldEntry.toNat)) s with migrations := [] }

/-- The launch retires: its writes have completed (R324). -/
def State.retire (s : State) : State :=
  let (s, dropped) := s.settleFrames
  let s := { s.endMigrations with frames := s.frames.map fun ((a, f) : Nat × Frame) => (a, f.dropAllOpen) }
  s.endFrames.finish 2 dropped

/-- The launch retires and its writes have completed. -/
def State.retired (s : State) : Bool := s.faults.isEmpty && s.writesDone && (match s.launch with | some l => l.retiring | none => false)

/-- LAUNCH_RETIRE: from the first cycle in which nothing of the launch is left (R337), and done once its writes have completed. -/
def execLaunchRetire (s : State) : Out :=
  if s.retired then .next s.retire
  else if !s.retireDue then .next s
  else match s.strayData with
    | some (d, tag) => .next ((s.abortStray tag).raise { code := cProt, w2 := w64 tag, agent := 2, agentNo := d })
    | none => .next (if s.writesDone then s.retire else s.modLaunch fun l => { l with retiring := true })

/-! ### The shutter (R373 to R375) -/

/-- Of two faults, the one that the record names: the earlier cycle, then the lower core, context and slot. -/
def FaultRec.key (f : FaultRec) : Nat := ((f.cycle * 2 ^ 11 + f.gcore) * 4 + f.ctx) * 8 + f.slot

/-- The fault that the record names. -/
def firstFault : List FaultRec → Option FaultRec
  | [] => none
  | f :: fs => match firstFault fs with
    | some g => if g.key < f.key then some g else some f
    | none => some f

/-- The fault record (R374). -/
def State.faultWords (s : State) (lid : Nat) (f : FaultRec) (more : Nat) : List Word64 :=
  [w64 (lid * 2 ^ 48 + min more 0xFFFF * 2 ^ 32 + f.gcore % 2 ^ 11 * 2 ^ 18 + f.ctx % 4 * 2 ^ 16 + f.rep % 32 * 2 ^ 11 +
      f.slot % 8 * 2 ^ 8 + f.code),
   f.pc, f.w2, f.w3, f.w4, w64 f.cycle, w64 s.logClock, w64 (f.agentNo % 256 * 2 ^ 8 + f.agent)]

/-- Abort packets of every record that a die's engine holds or runs (R163). -/
def State.abortAll (s : State) : State :=
  s.colls.foldl (fun (s : State) (x : Nat × CollEngine) =>
    (x.2.running.toList ++ x.2.jobs).foldl (fun (s : State) (j : CollJob) => s.sendAborts x.1 j) s) s

/-- Frames that the launch has changed return to their snapshots (R106); what other, saved launches hold in their arenas stays. -/
def State.restoreFrames (s : State) : State :=
  match s.launch with
  | some l => l.snaps.foldl (fun (s : State) (e : Nat × Frame) =>
      s.setFrame e.1 { e.2 with kept := (s.frame e.1).kept, held := (s.frame e.1).held }) s
  | none => s

/-- Steps 1 and 2 of R373: cores, channels, queues and engines stop. Bytes that sectors have issued are written; write packets stay with their
ports. -/
def State.stopAll (s : State) : State :=
  let s := s.settleLog.landFlights.abortAll
  { s with iss := {}, cores := [], colls := [], faults := [], struck := [], knocksOut := [], logNow := [],
           clusters := s.clusters.map (fun ((n, c) : Nat × Cluster) => (n, c.emptied)) }

/-- Steps 4 to 7 of R373, on a fault with `more` others of its cycle: every write issued has completed. -/
def State.shut (s : State) (f : FaultRec) (more : Nat) : State :=
  let s := s.endMigrations.restoreFrames
  let s := s.putWords (s.launchWord 12).toNat (s.faultWords (bits (s.launchWord 0) 63 48) f more)
  s.endFrames.finish 3 0

/-- The shutter has stopped everything, and writes that were issued have completed. -/
def State.shutDue (s : State) : Bool := s.shuttingDown && s.writesDone

/-- Every fault raised is an error event (R406; what an entry holds: log entry 57). -/
def State.logFaults (s : State) : State :=
  s.faults.foldl (fun (s : State) (f : FaultRec) => s.errorLog f.code f.gcore f.ctx f.w2) s

/-- The shutter begins to act on a fault (R373), and ends at once where no write is outstanding. -/
def State.beginShut (s : State) (f : FaultRec) (more : Nat) : State :=
  let s := s.logFaults.stopAll
  if s.writesDone then s.shut f more else s.modLaunch fun l => { l with shutting := some (f, more), retiring := false }

/-- SHUTTER: it acts on the first fault once, and goes on when the writes issued before have completed (R324). -/
def execShutter (s : State) : Out :=
  match s.launch with
  | none => .next { s.logFaults with faults := [] }
  | some l =>
    match l.shutting, firstFault s.faults with
    | some (f, more), _ => .next (if s.writesDone then s.shut f more else { s.logFaults with faults := [] })
    | none, some f => .next (s.beginShut f ((s.faults.filter fun g => g.cycle == f.cycle).length - 1))
    | none, none => .next s

/-! ### Samples and the scrub (R59, R394) -/

/-- Cycles after a droop sample in which an island writes no other. -/
def droopGap : Nat := 65536

/-- An island that falls below its threshold now writes a sample. -/
def State.droopDue (s : State) (island : Nat) : Bool :=
  s.run && !s.ending && island < 16 && bit s.logctl 16 && s.logRec && (match (s.cluster island).droopAt with
    | some n => decide (n + droopGap < s.cycle)
    | none => true)

/-- DROOP_SAMPLE. -/
def execDroopSample (island : Nat) (s : State) : Out :=
  if !s.droopDue island then .next s
  else
    .next ((s.modCluster island fun c => { c with droopAt := some s.cycle }).logSample island)

/-- The storage key of the block at a channel offset. -/
def scrubKey (stack channel offset : Nat) : Nat := (stack * 128 + channel) * 2 ^ 30 + offset / 64 * 64

/-- One more corrected error of a stack, saturating (R57, R59). -/
def State.countCorrected (s : State) (stack : Nat) : State :=
  { s with mecor := vset s.mecor stack (min (vget 0 s.mecor stack + 1) 0xFFFF_FFFF) }

/-- SCRUB: the place is written into the annotation and the error log in a form that the manual leaves open. -/
def execScrub (stack channel offset : Nat) (finding : EccFinding) (s : State) : Out :=
  if 12 ≤ stack || 128 ≤ channel || channelBytes ≤ offset then .next s
  else
    let (n, s) := s.takeFree
    match finding with
    | .corrected => .next ((s.countCorrected stack).annotate 0x12 0x7FF 0 (Config.openWord n))
    | .uncorrectable =>
      let (m, s) := s.takeFree
      .next ((s.writeBlock1 (scrubKey stack channel offset) ⟨0, poisonDesc⟩).errorLog (Config.openWord m).toNat 0x7FF 0 (Config.openWord n))

/-! ### Errors that a read meets (R57, R85, R168, R178, R377, R384) -/

/-- Whose read has met an uncorrectable error is drawn with it: a context's, an engine's, or, in the cycle in which the launch was started or
resumed, the start's own. -/
def State.reader (s : State) (n : Nat) : FaultRec :=
  let r (i : Nat) : Nat := (Config.openWord (n + i)).toNat
  let g := r 1 % 1536
  let x := r 2 % 4
  let starts := match s.launch with | some l => l.beganAt == s.cycle | none => false
  match r 0 % 7 with
  | 1 => { code := cEcc, agent := 1, agentNo := x, src := .chan g x }
  | 2 => { code := cEcc, agent := 2, agentNo := x, src := .coll x }
  | 3 => { code := cEcc, agent := 3, agentNo := clusterOf g, src := .host g }
  | 4 => { code := cEcc, agent := 4, agentNo := clusterOf g }
  | 5 => { code := cEcc, agent := 5, agentNo := r 3 % 13 }
  | 6 => if starts then { code := cEcc, agent := 7 } else { code := cEcc, agent := 4, agentNo := clusterOf g }
  | _ => { code := cEcc, gcore := g, ctx := x, rep := (s.ctx g x).rep, slot := r 3 % 8, pc := (s.ctx g x).pc }

/-- The launch ends for an uncorrectable error, once the cycle of the read is over: until then the read delivers its poison. -/
def State.strike (s : State) (f : FaultRec) : State :=
  if s.run && !s.ending then { s with struck := s.struck ++ [f] } else s

/-- A block whose error is uncorrectable is rewritten as poison, so that the destination of the read receives descriptor 0xFF. Where no launch runs,
or the re-stripe engine reads, no launch ends, and the event goes into the error log in a form that the manual leaves open. -/
def State.blockError (s : State) (n key : Nat) (w2 w3 : Word64) (moved : Bool) : State :=
  let s := s.writeBlock1 key ⟨0, poisonDesc⟩
  if s.run && !moved then s.strike { s.reader n with w2, w3 } else s.errorLog (Config.openWord n).toNat 0x7FF 0 w2

/-- A corrected error writes an annotation in the launch that reads (R394): whose read it was, and the address, are drawn with it. -/
def State.noteCorrected (s : State) (n : Nat) : State :=
  let f := s.reader n
  s.annotate 0x12 f.gcore f.ctx (Config.openWord (n + 9))

/-- A read meets symbols in error. When and where storage fails is not the machine's to know: the place is a free value (log entry 73). An error
that the code corrects is counted; another poisons the block, or ends the launch, naming the address with its placement or the register with its
class. A cell is marked: the accumulator instruction that reads it ends the launch (R178). -/
def State.readError (s : State) : Out :=
  let n := s.free
  let r (i : Nat) : Nat := (Config.openWord (n + i)).toNat
  let s := { s with free := n + 10 }
  let place := r 6
  match r 5 % 6 with
  | 0 => .next ((s.countCorrected (place % 12)).noteCorrected n)
  | 1 => .next ((s.countCorrected 0).noteCorrected n)
  | 2 =>
    let geo := place % 256
    let pa := r 7 % mainSize / 64 * 64
    if !geoValid (s.geoWord geo) || geoReach (s.geoWord geo) < pa + 64 then .next s
    else .next (s.blockError n (s.paKey geo pa) (w64 pa) ((s.geoWord geo).setWidth 64) (!s.migrations.isEmpty && r 8 % 2 == 1))
  | 3 =>
    let pa := spadPa (place % 1536) (r 7 % spadSize / 64 * 64)
    .next (s.blockError n pa (w64 pa) 0 false)
  | 4 =>
    let pa := accPa (place % 1536) (r 7 % 0x2_0000 / 8 * 8)
    .next (if s.run && !s.poisoned.contains pa then { s with poisoned := s.poisoned ++ [pa] } else s)
  | _ =>
    let g := r 1 % 1536
    let x := r 2 % 4
    .next (s.strike { code := cEcc, gcore := g, ctx := x, rep := (s.ctx g x).rep, slot := r 3 % 8, pc := (s.ctx g x).pc,
                      w2 := w64 (place % 8 * 256 + r 7 % 256) })

/-- Reads may meet errors: a launch runs, or the module is ready. -/
def State.mayErr (s : State) : Bool := s.run || s.ready

/-- The errors met in this cycle become faults. -/
def State.raiseStruck (s : State) : State := s.struck.foldl State.raise { s with struck := [] }

end Sys2Proof.Machine
end

