-- ==== Sys2Proof/Machine/Image.lean ====
section
/-! DEFINITION. A save image in memory: its sections, how they are written, and what is read back from them (R381, R383, R384, R410). The manual gives
the contents of the sections, in order, and the sizes of two of them; where a word lies within a section is the model's choice, and the words left over
are free values (DESIGN CHOICE: log entries 60 and 119). -/

namespace Sys2Proof.Machine

/-- A word of the image that holds nothing. -/
def imageWord (id i : Nat) : Word64 := w64 (joinLanes 8 ((List.range 8).map fun j => (Config.imageByte id (8 * i + j)).toNat))

/-- A list of words brought to a length with free ones, of which the first is number i. -/
def padWords (id i n : Nat) (ws : List Word64) : List Word64 :=
  ws.take n ++ (List.range (n - ws.length)).map fun j => imageWord id (i + j)

/-- A list of words brought to whole blocks. -/
def padBlocks (id i : Nat) (ws : List Word64) : List Word64 := padWords id (i + ws.length) ((ws.length + 7) / 8 * 8) ws

/-- One block of an image: it is written whole, which clears poison, with descriptor 0x0000 (R58); one outside main memory and the core memories is
lost. -/
def State.putImageBlock (s : State) (pa : Nat) (b : Block) : State :=
  match spaceOf pa with
  | .main | .spad .. | .acc .. => s.writeBlock1 (s.paKey 0 pa) ⟨b, 0⟩
  | _ => s

/-- Words of an image from a physical address up, block by block. -/
def State.putImage (s : State) (pa : Nat) : List Word64 → State
  | a :: b :: c :: d :: e :: f :: g :: h :: ws =>
    (s.putImageBlock pa (ofLanes 64 ([a, b, c, d, e, f, g, h].map BitVec.toNat))).putImage (pa + 64) ws
  | _ => s

/-- `n` words of a core's memory from a storage key up. -/
def State.keyWords (s : State) (key n : Nat) : List Word64 := (List.range n).map fun i => w64 (getBytes s.mem (key + 8 * i) 8)

/-! ### Context blocks (R381, R383) -/

/-- Bytes of a context block. -/
def ctxBlock : Nat := 8192
/-- Words of a context block. -/
def ctxWords : Nat := 1024

/-- The done mask of the bundle that a context stands in: a slot that is not left to execute is done, an idle one too (R369). -/
def Ctx.doneWord (k : Ctx) : Word64 := match k.resume with
  | some i => w64 (joinLanes 1 ((List.range 5).map fun n => if (i.pending ++ i.undone).any fun e => e.1 == n then 0 else 1))
  | none => (k.redo.getD 0).setWidth 64

/-- A context under a done mask: slots that it gives as done are not issued again. -/
def Ctx.underMask (k : Ctx) (w : Word64) : Ctx :=
  let left (l : List (Nat × SlotWord)) : List (Nat × SlotWord) := l.filter fun e => !bit w e.1
  match k.resume with
  | some i => { k with resume := some { i with pending := left i.pending, undone := left i.undone } }
  | none => { k with redo := if k.redo.isSome || w != 0 then some (w.setWidth 5) else none }

/-- Registers that are hard-wired hold what they hold (R202). -/
def Ctx.wired (k : Ctx) : Ctx :=
  { k with s := k.s.set 0 0, a := k.a.set 0 0, p := k.p.set 0 true, m := k.m.set 0 (BitVec.allOnes 64) }

/-- The open panes of context x of core g, by frame and name. -/
def State.openPanes (s : State) (g x : Nat) : List (Nat × Nat) :=
  s.frames.flatMap fun ((pa, f) : Nat × Frame) => (f.loose.filter fun p => p.st == .opened g x).map fun p => (pa, p.name)

/-- What the block of context x of core g holds, the context as given. -/
def State.ctxImage (s : State) (g x : Nat) (k : Ctx) : CtxImage :=
  { ctx := k, done := k.doneWord, panes := s.openPanes g x, core := g, no := x }

/-! ### The directory (R383) -/

/-- Where the ranges of an image begin: after the header copy, the directory and the context blocks. -/
def rangesAt (contexts : Nat) : Nat := 512 + ctxBlock * contexts

/-- Where the latch areas begin: on the next 64-byte boundary after the ranges, each of which has its base and length before it. -/
def latchesAt (contexts : Nat) (rs : List (Nat × Nat)) : Nat := rangesAt contexts + ((rs.map fun r => 16 + r.2).sum + 63) / 64 * 64

/-- Bytes of all latch areas. -/
def latchAreas : Nat := 1536 * 4096

/-- The directory's words: the image length in 64-byte blocks, the schedule clock, the device cycle, then the offset and the count of each later
section: context blocks, ranges, latch areas and the blocks of the device state. -/
def directoryWords (blocks sclk cycle : Nat) (sections : List (Nat × Nat)) : List Word64 :=
  [w64 blocks, w64 sclk, w64 cycle] ++ sections.flatMap fun e => [w64 e.1, w64 e.2]

/-! ### Sections -/

/-- The ranges, each after its base and length; in a host-assisted save the host copies their bytes (R387). -/
def State.rangeWords (s : State) (id at_ : Nat) (byHost : Bool) (rs : List (Nat × Nat)) : List Word64 :=
  padBlocks id at_ (rs.flatMap fun r =>
    [w64 r.1, w64 r.2] ++ if byHost then (List.range (r.2 / 8)).map fun i => imageWord id (at_ + r.1 + i) else s.keyWords r.1 (r.2 / 8))

/-- The latch areas of an image, core after core. -/
def State.putLatches (s : State) (pa : Nat) : State :=
  (List.range 1536).foldl (fun (s : State) (g : Nat) => s.putImage (pa + 4096 * g) (s.keyWords (latchPa g 0) 512)) s

/-- The last block of the device state, which is written when the save is complete: the time of the save and the recording-log position. -/
def State.endWords (s : State) (id : Nat) : List Word64 := padWords id 0 8 [w64 s.uptime, w64 s.logwr, w64 s.logrd]

/-! ### Reading an image -/

/-- A range lies in a scratchpad below its latch area, or in an accumulator window (R382). -/
def rangeOk (base len : Nat) : Bool :=
  base % 64 == 0 && len % 64 == 0 && (match spaceOf base with
    | .spad _ o => decide (o + len ≤ latchBase)
    | .acc _ o => decide (o + len ≤ 0x2_0000)
    | _ => false)

/-- The ranges of an image as they stand in memory: base, length and where their bytes lie. -/
def State.imageRanges (s : State) (pa : Nat) : Nat → List (Nat × Nat × Nat)
  | 0 => []
  | n + 1 =>
    let len := s.readPhys (pa + 8) 8 % 2 ^ 32
    (s.readPhys pa 8, len, pa + 16) :: s.imageRanges (pa + 16 + len) n

/-- A save image as it is read back. -/
structure SaveImage where
  sclk : Nat
  cycle : Nat
  ctxs : List CtxImage
  ranges : List (Nat × Nat × Nat)
  /-- Where its latch areas lie. -/
  latches : Nat
  device : DeviceImage
  /-- When it was saved, and the recording-log position. -/
  savedAt : Nat
  logwr : Nat
  logrd : Nat
deriving DecidableEq, Repr, Inhabited

/-- The context blocks from a physical address up, each with the words that it has beyond 8 KiB. -/
def State.readContexts (s : State) (pa : Nat) : List (List Word64) → Option (List CtxImage)
  | [] => some []
  | r :: rs => (CtxImage.codec.get (s.physWords pa ctxWords ++ r)).bind fun e =>
    if 1536 ≤ e.1.core || 4 ≤ e.1.no then none else (s.readContexts (pa + ctxBlock) rs).map fun l => e.1 :: l

/-- The image that stands at a physical address: none where its directory does not fit its sections, a range is one that no table may name, or the
context blocks or the device state are not what a save writes. -/
def State.imageAt (s : State) (pa : Nat) : Option SaveImage :=
  let d (i : Nat) : Nat := s.readPhys (pa + 256 + 8 * i) 8
  let (n, ra, rn, la, dev, dn) := (d 4, d 5, d 6, d 7, d 9, d 10)
  if d 3 != 512 || decide (6144 < n) || ra != rangesAt n || decide (la < ra + 16 * rn) || d 8 != 1536 || dev != la + latchAreas || dn == 0 ||
      64 * d 0 != dev + 64 * dn || decide (2 ^ 32 ≤ d 0) then none
  else
    let rs := s.imageRanges (pa + ra) rn
    if la != latchesAt n (rs.map fun r => (r.1, r.2.1)) || rs.any fun r => !rangeOk r.1 r.2.1 then none
    else (DeviceImage.codec.get (s.physWords (pa + dev) (8 * (dn - 1)))).bind fun e =>
      if e.1.rest.length != n then none
      else (s.readContexts (pa + 512) e.1.rest).map fun ctxs =>
        let last (i : Nat) : Nat := s.readPhys (pa + 64 * (d 0 - 1) + 8 * i) 8
        { sclk := d 1, cycle := d 2, ctxs, ranges := rs, latches := pa + la, device := e.1, savedAt := last 0, logwr := last 1 % 2 ^ 32,
          logrd := last 2 % 2 ^ 32 }

end Sys2Proof.Machine
end

