-- ==== Sys2Proof/Machine/Preempt.lean ====
section
/-! DEFINITION. Pre-emption: the request, the save, the finish of a host-assisted save, and the resume (R378 to R387), and the log's
release by the host (R396). -/

namespace Sys2Proof.Machine

/-! ### The request (R378, R379) -/

/-- A context that waits in LWAIT, HWAIT, WAITANY or AWAIT. -/
def Ctx.waitsAtCheckpoint (k : Ctx) : Bool :=
  k.run == .waiting && (match k.resume with | some i => i.waits.any fun w => w.2.isCheckpoint | none => false)

/-- A context that already waits at an implicit checkpoint, or is held, stops. -/
def State.stopWaiting (s : State) (g x : Nat) : State :=
  if (s.ctx g x).waitsAtCheckpoint || (s.ctx g x).run == .held then (s.modCtx g x fun k => { k with stopped := true }).snapStopped g x else s

/-- Every core and context that something has happened to. -/
def State.allCtxs (s : State) : List (Nat × Nat) := s.cores.flatMap fun (g, _) => (List.range 4).map fun x => (g, x)

/-- A pre-emption request (R379); in a deterministic launch only CHKPT is a checkpoint (R385). -/
def State.requestSave (s : State) (pa : Nat) : State :=
  let s := { s.modLaunch fun l => { l with preempt := true, savePa := pa } with pstate := .saving }
  if s.det then s else s.allCtxs.foldl (fun (s : State) (e : Nat × Nat) => s.stopWaiting e.1 e.2) s

/-- A frame whose launch is saved: its open panes and the blocks that only its retirement frees stay in the arena for the resume (R95, R98, R381); the
time of the save tells them from those of another save (log entry 140). -/
def Frame.keep (now : Nat) (f : Frame) : Frame :=
  let isOpen (p : Pane) : Bool := match p.st with | .opened .. => true | _ => false
  { f with loose := f.loose.filter fun p => !isOpen p, kept := f.kept ++ (f.loose.filter isOpen).map fun p => (now, p), zombie := 0,
           held := f.held ++ if f.zombie = 0 then [] else [(now, f.zombie)] }

/-- The save is complete: the records of the cycle are written, the image ends with the log position, the launch ends with STATE 4, IMGLEN is written,
and PSTATE is 2 (R383). -/
def State.endSave (s : State) : State :=
  match s.launch with
  | some l =>
    let s := s.settleLog
    let (id, s) := s.takeFree
    let s := s.putImage (l.savePa + 64 * (l.imgBlocks - 1)) (s.endWords id)
    ({ s with frames := s.frames.map (fun ((a, f) : Nat × Frame) => (a, f.keep s.uptime)), pstate := .saved, imglen := l.imgBlocks } : State).finish 4 0
  | none => s

/-- A PSAVE write: it asks for a save, of a launch whose start is under way too, finishes one that the host assists, or is discarded. -/
def State.psaveWrite (s : State) (v : Word64) : State :=
  let pa := bits v 51 12 * 4096
  match s.launch with
  | none => if s.startDue && s.pstate != .saving then { s with saveWaits := some pa, pstate := .saving } else s.lose
  | some l =>
    if l.awaitFinish then s.endSave
    else if s.pstate == .saving then s.lose
    else s.requestSave pa

/-- PSAVE. -/
def execPsave (v : Word64) (s : State) : Out := .next (if s.hostReaches then s.psaveWrite v else s)

/-- PSAVE_FINISH: the host's second write. -/
def execPsaveFinish (v : Word64) (s : State) : Out := .next (if s.hostReaches then s.psaveWrite v else s)

/-! ### When a save may begin (R380) -/

/-- A context holds nothing that still runs: it is dormant, stopped, or held outside a deterministic launch. -/
def Ctx.still (k : Ctx) (det : Bool) : Bool :=
  k.run == .dormant || k.stopped || (!det && k.run == .held)

/-- No landing of the snapshots waits for a response. -/
def Ctx.noReply (k : Ctx) : Bool := (k.snap.toList ++ k.handlerSnap.toList).all fun (n : Snapshot) => n.landings.all fun l => l.await.isNone

/-- A core at rest: contexts stopped, nothing frozen or in flight, and its matrix engine drained. A slot that an OLOAD fills completes first; one
that a channel fills does not, since the channel is to be cancelled (R380). -/
def Core.still (c : Core) (det : Bool) : Bool :=
  c.ctxs.toList.all (fun k => k.still det && k.noReply) && c.frozen.isEmpty && (c.sill.all fun l => l.dead) && c.engineIdle &&
    c.slots.all fun (_, o) => o.job.isNone

/-- A cluster at rest: no tile task runs. A dispatched task that a page upcall delays is kept as it stands. -/
def Cluster.still (c : Cluster) : Bool :=
  c.tasks.toList.flatten.all (fun t => !t.dispatched || (!t.built && t.fault.isSome)) && c.released.isEmpty

/-- A collective engine at rest. -/
def CollEngine.still (e : CollEngine) : Bool := match e.running with | some j => !j.built && j.fault.isSome | none => true

/-- Every context has stopped and every engine is at rest, but for its copy channels. -/
def State.saveDue (s : State) : Bool :=
  s.preempting && !s.ending && (match s.launch with | some l => !l.awaitFinish | none => false) && s.faults.isEmpty && s.struck.isEmpty &&
    !s.iss.active && (s.cores.all fun ((_, c) : Nat × Core) => c.still s.det) &&
    (s.clusters.all fun ((_, c) : Nat × Cluster) => c.still) && (s.colls.all fun ((_, e) : Nat × CollEngine) => e.still) && !s.logWaits

/-- Channels that walk or wait for a page. -/
def State.activeChans (s : State) : List (Nat × Nat) :=
  s.cores.flatMap fun (g, c) => ((List.range 4).filter fun n => (c.chan n).busy).map fun n => (g, n)

/-- Those of them that have not been cancelled: a cancellation may wait for sectors issued before (R128). -/
def State.goingChans (s : State) : List (Nat × Nat) := s.activeChans.filter fun (g, n) => (s.chan g n).stopping.isNone

/-! ### Checkpoint tables (R382) -/

/-- Why a checkpoint table cannot be used. -/
inductive TableError where
  /-- A page of it is absent (R66). -/
  | absent (m : PageMiss)
  /-- The walk to a word of it is malformed: the word's address and the level (R66). -/
  | malformed (va level : Nat)
  /-- A page that is not readable or not plain, a place where no table lies, or a field (R67, R382). -/
  | bad
deriving DecidableEq, Repr, Inhabited

/-- A word of a checkpoint table: in a scratchpad below its latch area, or in main memory on a plain page (R61, R169, R382). -/
def State.tableWord (s : State) (va : Nat) : Except TableError Word64 :=
  if untranslated va then
    match spaceOf va with
    | .spad _ o => if o + 8 ≤ latchBase then .ok (w64 (getBytes s.mem va 8)) else .error .bad
    | _ => .error .bad
  else if !translated va then .error .bad
  else match s.walk va with
    | .leaf e level _ => if bit e 4 && leafKind e == 0 then .ok (w64 (getBytes s.mem (s.leafLoc va e level).key 8)) else .error .bad
    | .invalid level pa region => .error (.absent ⟨7, w64 va, 3, level, pa, region⟩)
    | .malformed level => .error (.malformed va level)

/-- The words of a table, or why one of them cannot be read. -/
def State.tableWords (s : State) (va : Nat) : Nat → Except TableError (List Word64)
  | 0 => .ok []
  | n + 1 => do
    let w ← s.tableWord va
    let ws ← s.tableWords (va + 8) n
    .ok (w :: ws)

/-- The ranges of a table: base and length. -/
def tableRanges (ws : List Word64) : List (Nat × Nat) :=
  (List.range (bits (ws.getD 3 0) 4 0)).map fun j => ((ws.getD (8 + 2 * j) 0).toNat, bits (ws.getD (9 + 2 * j) 0) 31 0)

/-- A table keeps its fields. -/
def tableOk (ws : List Word64) : Bool :=
  bits (ws.getD 2 0) 63 52 == 0 && bits (ws.getD 3 0) 63 5 == 0 && decide (bits (ws.getD 3 0) 4 0 ≤ 16) &&
    ((List.range 4).all fun i => ws.getD (4 + i) 0 == 0) &&
    ((List.range (bits (ws.getD 3 0) 4 0)).all fun j => bits (ws.getD (9 + 2 * j) 0) 63 32 == 0) &&
    (tableRanges ws).all fun r => rangeOk r.1 r.2

/-- The table at an address, where it can be read and keeps its fields. -/
def State.table (s : State) (va : Nat) : Except TableError (List Word64) := do
  let ws ← s.tableWords va 40
  if tableOk ws then .ok ws else .error .bad

/-- The words of the table at an address; none where it cannot be used. -/
def State.tableOf (s : State) (va : Nat) : List Word64 := match s.table va with | .ok ws => ws | .error _ => []

/-- A table that the save reads: the context that it belongs to, or none for a queued record's, the cluster that translates it, and its address. -/
abbrev SaveTable := Option (Nat × Nat) × Nat × Nat

/-- Tables that the save reads: those of stopped contexts, then those of queued records. -/
def State.saveTables (s : State) : List SaveTable :=
  (s.allCtxs.filterMap fun (g, x) =>
    let k := s.ctx g x
    if k.run != .dormant && k.ckpt != 0 then some (some (g, x), clusterOf g, k.ckpt.toNat) else none) ++
  s.clusters.flatMap fun (n, c) => c.conts.filterMap fun r =>
    let t := (r.words.getD 7 0).toNat / 256 * 256
    if r.pager || t = 0 then none else some (none, n, t)

/-- The first table that cannot be used, and why. -/
def State.badTable (s : State) : Option (SaveTable × TableError) :=
  s.saveTables.findSome? fun e => match s.table e.2.2 with
    | .ok _ => none
    | .error m => some (e, m)

/-- The fault of a table that cannot be used. -/
def State.tableRaise (s : State) (e : SaveTable) (w2 w3 : Nat) : State :=
  match e.1 with
  | some (g, x) => s.raise { code := cProt, gcore := g, ctx := x, rep := (s.ctx g x).rep, pc := (s.ctx g x).pc, w2 := w64 w2, w3 := w64 w3 }
  | none => s.raise { code := cProt, w2 := w64 w2, w3 := w64 w3 }

/-- It names the table (R382). -/
def State.tableFault (s : State) (e : SaveTable) : State := s.tableRaise e e.2.2 0

/-- A page upcall for a table on an absent page (R66). The save reads it, and no agent waits for the fault: the record names none, the save goes
on once the page is there, and until then it waits (DEDUCED: log entry 120). -/
def State.tableUpcall (s : State) (e : SaveTable) (m : PageMiss) : State :=
  let cl := e.2.1
  if ((s.cluster cl).sameRange m).isSome then s
  else if !bit (s.pagerWord m.region 0) 0 then s.tableFault e
  else match (s.cluster cl).freeFault with
    | some n =>
      let s := s.openFault cl n (.task cl 0 0) m
      let (g, x) := e.1.getD (0x7FF, 0)
      (s.modCluster cl fun c => c.setFault n { c.fault n with waiters := [] }).annotate 7 g x m.va
    | none => s

/-- What a save does about a table that it cannot use: an upcall for an absent page, a fault that names the address and the level of a malformed walk
(R66), or one that names the table. -/
def State.tableFails (s : State) (e : SaveTable) : TableError → State
  | .absent m => s.tableUpcall e m
  | .malformed va level => s.tableRaise e va level
  | .bad => s.tableFault e

/-- The scratchpad or accumulator window that a range lies in. -/
def windowNo (base : Nat) : Nat × Bool :=
  match spaceOf base with
  | .spad g _ => (g, false)
  | .acc g _ => (g, true)
  | _ => (1536, false)

/-- Two ranges of one window touch or meet. -/
def rangesMeet (r q : Nat × Nat) : Bool := windowNo r.1 == windowNo q.1 && decide (q.1 ≤ r.1 + r.2) && decide (r.1 ≤ q.1 + q.2)

/-- A range joined to ranges that lie apart, in rising order; ranges of different windows stay apart. -/
def joinRange (r : Nat × Nat) : List (Nat × Nat) → List (Nat × Nat)
  | [] => [r]
  | q :: qs =>
    if !rangesMeet r q then (if r.1 < q.1 then r :: q :: qs else q :: joinRange r qs)
    else joinRange (min r.1 q.1, max (r.1 + r.2) (q.1 + q.2) - min r.1 q.1) qs

/-- The union of the ranges of every table, as ranges that lie apart, in rising order (log entry 60). -/
def State.saveRanges (s : State) : List (Nat × Nat) :=
  (s.saveTables.flatMap fun e => (tableRanges (s.tableOf e.2.2)).filter fun r => r.2 != 0).foldl (fun l r => joinRange r l) []

/-! ### What is kept (R381) -/

/-- A context's registers under a mask: the others hold their values at context start (R409). -/
def Ctx.masked (k : Ctx) (ws : List Word64) : Ctx :=
  let w (i : Nat) : Word64 := ws.getD i 0
  let start : Ctx := {}
  { k with
    s := Vector.ofFn fun i => if bit (w 0) i.val then k.s[i] else start.s[i],
    a := Vector.ofFn fun i => if bit (w 1) i.val then k.a[i] else start.a[i],
    stride := Vector.ofFn fun i => if bit (w 1) i.val then k.stride[i] else start.stride[i],
    v := Vector.ofFn fun i => if bit (w 1) (32 + i.val) then k.v[i] else start.v[i],
    p := Vector.ofFn fun i => if bit (w 2) i.val then k.p[i] else start.p[i],
    m := Vector.ofFn fun i => if bit (w 2) (16 + i.val) then k.m[i] else start.m[i],
    h := Vector.ofFn fun i => if bit (w 2) (24 + i.val) then k.h[i] else start.h[i],
    it := Vector.ofFn fun i => if bit (w 2) (40 + i.val) then k.it[i] else start.it[i],
    n := Vector.ofFn fun i => if bit (w 2) (48 + i.val) then k.n[i] else start.n[i] }

/-- A context as the image holds it: a table's mask applied, all of it without a table. -/
def State.savedCtx (s : State) (g x : Nat) : Ctx :=
  let k := s.ctx g x
  if k.run == .dormant || k.ckpt = 0 then k else k.masked (s.tableOf k.ckpt.toNat)

/-- A storage key lies in a range of a list. -/
def inRanges (rs : List (Nat × Nat)) (key : Nat) : Bool := rs.any fun r => decide (r.1 ≤ key) && decide (key < r.1 + r.2)

/-- A storage key lies in a latch area. -/
def inLatches (key : Nat) : Bool := match spaceOf key with | .spad _ o => decide (latchBase ≤ o) | _ => false

/-- A tile that a range touches. -/
def tileSaved (rs : List (Nat × Nat)) (g t : Nat) : Bool :=
  rs.any fun r => decide (r.1 < accPa g (tileBytes * (t + 1))) && decide (accPa g (tileBytes * t) < r.1 + r.2)

/-- A held slot holds zero data after a resume. -/
def OSlot.emptied (o : OSlot) : OSlot := { o with st := .ready, desc := 0, data := [], job := none }

/-- A core as the image holds it, but for its contexts. -/
def Core.saved (c : Core) (g : Nat) (rs : List (Nat × Nat)) : Core :=
  { c with
    slots := (c.slots.filter fun (e : Nat × OSlot) => e.2.st != .free).map fun (e : Nat × OSlot) => (e.1, e.2.emptied),
    tiles := Vector.ofFn fun t => if tileSaved rs g t.val then c.tiles[t] else {} }

/-- A cluster as the image holds it: queues, scoreboard and pending faults, and the leave of the tasks that wait for a page. -/
def Cluster.saved (c : Cluster) : Cluster :=
  { c with asks := c.asks.filter (fun (a : LeaveAsk) => match a with | .task .. => true | _ => false),
           hold := (c.tasks.toList.flatten.filter fun t => t.leave).length }

/-- A frame as the image holds it. -/
def Frame.mark (f : Frame) : FrameMark :=
  { info := f.info, panes := (f.loose ++ f.chain).map fun p => (p.name, p.old, p.settle), zombie := f.zombie, inDir := f.inDir, glazeWait := f.glazeWait,
    settleAll := f.settleAll, settleLost := f.settleLost }

/-- Waits of stopped contexts are not counted while the launch is away: their instructions are issued again (R381, R384). -/
def State.uncountWaits (s : State) : State :=
  s.allCtxs.foldl (fun (s : State) (e : Nat × Nat) =>
    match (s.ctx e.1 e.2).resume with
    | some i => (s.countWaits i.waits false).modCtx e.1 e.2 fun k => { k with resume := some { i with waits := [] } }
    | none => s) s

/-! ### The image (R383) -/

/-- Contexts that the image holds. -/
def State.savedBlocks (s : State) : List (Nat × Nat) := s.allCtxs.filter fun (g, x) => (s.ctx g x).run != .dormant

/-- Dormant contexts: whether they wait for a knock, and since when they have been idle. -/
def State.idleMarks (s : State) : List ((Nat × Nat) × Bool × Nat) :=
  (s.allCtxs.filter fun (g, x) => (s.ctx g x).run == .dormant).map fun (g, x) => ((g, x), (s.ctx g x).armed, (s.ctx g x).idleAt)

/-- The header copy of an image: the words that the launch was started with, and the status words as they stand (R334, R383). -/
def State.headerCopy (s : State) (l : Launch) : List Word64 := l.words.take 28 ++ s.physWords (l.hdrAddr + 224) 4

/-- The words of every context block, however many they are. -/
def State.ctxStreams (s : State) : List (List Word64) :=
  s.savedBlocks.map fun (g, x) => CtxImage.codec.put (s.ctxImage g x (s.savedCtx g x))

/-- The device state of a save with given ranges. -/
def State.deviceImage (s : State) (l : Launch) (rs : List (Nat × Nat)) : DeviceImage :=
  { launch := l, cores := s.cores.map (fun ((g, c) : Nat × Core) => (g, c.saved g rs)), idle := s.idleMarks,
    rest := s.ctxStreams.map (List.drop ctxWords),
    clusters := s.clusters.map (fun ((n, c) : Nat × Cluster) => (n, c.saved)), colls := s.colls,
    descs := s.desc.filter (fun (d : Nat × Desc) => inRanges rs (64 * d.1) || inLatches (64 * d.1)), poisoned := s.poisoned.filter (inRanges rs),
    migrations := s.migrations, halted := s.halted, frames := s.frames.map (fun ((a, f) : Nat × Frame) => (a, f.mark)),
    digests := s.ports.map (fun ((q, p) : Nat × Port) => (q, p.digest)), free := s.free, pick := s.pick }

/-- The sections of an image but for the latch areas, each with its physical address and its words; the last block of the device state is written when
the save is complete. In a host-assisted save the host copies the bytes of the ranges (R387). Then where the latch areas lie, and the length of the
image in blocks. -/
def State.imageSections (s : State) (l : Launch) (id : Nat) : List (Nat × List Word64) × Nat × Nat :=
  let rs := s.saveRanges
  let blocks := s.ctxStreams
  let (ra, la) := (rangesAt blocks.length, latchesAt blocks.length rs)
  let dev := padBlocks id ((la + latchAreas) / 8) (DeviceImage.codec.put (s.deviceImage l rs))
  let n := dev.length / 8 + 1
  let all := (la + latchAreas) / 64 + n
  let dir := directoryWords all s.sclk s.cycle [(512, blocks.length), (ra, rs.length), (la, 1536), (la + latchAreas, n)]
  ([(l.savePa, s.headerCopy l), (l.savePa + 256, padWords id 32 32 dir)] ++
    ((List.range blocks.length).map fun i => (l.savePa + 512 + ctxBlock * i, padWords id (64 + ctxWords * i) ctxWords (blocks.getD i []))) ++
    [(l.savePa + ra, s.rangeWords id (ra / 8) (s.hostDoes 2) rs), (l.savePa + la + latchAreas, dev)], la, all)

/-- The image is made in the save area, section after section; the migration table goes with it. In a host-assisted save the host copies the latch
areas too (R387). -/
def State.makeImage (s : State) (l : Launch) : State :=
  let (id, s) := s.uncountWaits.takeFree
  let (sections, la, blocks) := s.imageSections l id
  let s := sections.foldl (fun (s : State) (e : Nat × List Word64) => s.putImage e.1 e.2) s
  let s := if s.hostDoes 2 then s else s.putLatches (l.savePa + la)
  { s.modLaunch (fun l => { l with imgBlocks := blocks }) with migrations := [] }

/-- The save: channels are cancelled first, and once every write has completed the tables are read and the image is written (R380,
R382, R383). In a host-assisted save the host is told, and finishes it (R387). -/
def State.save (s : State) (l : Launch) : State :=
  if !s.activeChans.isEmpty then s.goingChans.foldl (fun (s : State) (e : Nat × Nat) => s.cancelChan e.1 e.2 2 true) s
  else match s.badTable with
    | some (e, m) => s.tableFails e m
    | none =>
      let s := s.makeImage l
      if s.hostDoes 2 then (s.modLaunch fun l => { l with awaitFinish := true }).message [w64 l.savePa, 0, 0, 0] else s.endSave

/-- PREEMPT_SAVE may happen: a channel is to be cancelled, or every channel has stopped and every write has completed. -/
def State.preemptSaveDue (s : State) : Bool := s.saveDue && (!s.goingChans.isEmpty || (s.activeChans.isEmpty && s.writesDone))

/-- PREEMPT_SAVE. -/
def execPreemptSave (s : State) : Out :=
  match s.launch with
  | some l => if s.preemptSaveDue then .next (s.save l) else .next s
  | none => .next s

/-! ### The resume (R384) -/

/-- A context goes on from the image: waiting ones issue their wait again, held ones stay held, and its own snapshot is released; one in its handler
keeps that of the trapped code until RETT (R371). -/
def Ctx.resumed (k : Ctx) : Ctx :=
  { k with stopped := false, run := if k.run == .waiting then .running else k.run, release := k.release || k.ownSnap.isSome }

/-- A channel goes on from the image: cancelled for the save it walks on from PROG, or waits for its page again. -/
def Chan.resumed (k : Chan) : Chan :=
  if k.st == .cancelled && k.saved then
    { k with st := if k.fault.isSome then .pageWait else .walking, sent := k.sector, saved := false }
  else k

/-- A core goes on from the image. -/
def Core.resumed (c : Core) : Core := ({ c with ctxs := c.ctxs.map Ctx.resumed, chans := c.chans.map Chan.resumed } : Core).select

/-- A cluster goes on from the image: pager records come first, at priority 3. -/
def Cluster.resumed (c : Cluster) (now : Nat) : Cluster :=
  let first (r : QRec) : QRec := { r with prio := 3, since := now, ready := now }
  { c with
    faults := c.faults.map (fun ((n, f) : Nat × PFault) => (n, { f with record := none })),
    conts := (c.conts.filter (fun (r : QRec) => r.pager)).map first ++
      (c.faults.filterMap fun ((_, f) : Nat × PFault) => f.record.map first) ++ c.conts.filter fun (r : QRec) => !r.pager }

/-- A frame takes back what the image holds of it: its entry, what this launch has asked and made of it, and the open panes that stay in its arena for
the launch saved at `at_` and stand in a context block. -/
def Frame.rejoin (f : Frame) (saved : FrameMark) (at_ : Nat) (names : List Nat) : Frame :=
  let own (p : Pane) : Pane := match saved.panes.find? fun q => q.1 == p.name with
    | some q => { p with old := q.2.1, settle := q.2.2 }
    | none => p
  let mine := f.kept.filter fun e => e.1 == at_
  { f with info := if saved.inDir then saved.info else f.info, inDir := saved.inDir,
           loose := (f.loose ++ (mine.filter fun e => names.contains e.2.name).map (·.2)).map own, chain := f.chain.map own,
           kept := f.kept.filter (fun e => e.1 != at_), held := f.held.filter (fun e => e.1 != at_), zombie := saved.zombie,
           glazeWait := saved.glazeWait, settleAll := saved.settleAll, settleLost := saved.settleLost }

/-- A resume that fails: the fault record names the image, the event goes into the error log (R406), and no launch runs. -/
def State.resumeFails (s : State) (pa : Nat) : State :=
  let w (n : Nat) : Word64 := w64 (s.readPhys (pa + 8 * n) 8)
  { (s.errorLog cProt 0x7FF 0 (w64 pa)).putWords (w 12).toNat (s.faultWords (bits (w 0) 63 48)
      { code := cProt, w2 := w64 pa, agent := 7, cycle := s.cycle } 0) with pstate := .failed }

/-- A cluster takes back what the image holds of it; its island keeps its limit. -/
def State.rejoinCluster (s : State) (now n : Nat) (c : Cluster) : State :=
  let old := s.cluster n
  s.setCluster n { c.resumed now with limit := old.limit, limitNext := old.limitNext }

/-- Words copied from a physical address to scratchpads or accumulators. -/
def State.copyOut (s : State) (key pa n : Nat) : State :=
  (List.range n).foldl (fun (s : State) (i : Nat) => { s with mem := putBytes s.mem (key + 8 * i) 8 (s.readPhys (pa + 8 * i) 8) }) s

/-- The memories of an image: its ranges and latch areas as they stand in memory, with the descriptors that it holds. -/
def State.rejoinMemory (s : State) (m : SaveImage) : State :=
  let s := { s with desc := m.device.descs.foldl (fun (t : List (Nat × Desc)) (d : Nat × Desc) => putDesc t d.1 d.2) s.desc,
                    poisoned := m.device.poisoned }
  let s := m.ranges.foldl (fun (s : State) (r : Nat × Nat × Nat) => s.copyOut r.1 r.2.2 (r.2.1 / 8)) s
  (List.range 1536).foldl (fun (s : State) (g : Nat) => s.copyOut (latchPa g 0) (m.latches + 4096 * g) 512) s

/-- The contexts of an image in their cores: those of its blocks, each under its done mask, and the dormant ones. -/
def SaveImage.cores (m : SaveImage) : List (Nat × Core) :=
  let idle := m.device.idle.foldl (fun (t : List (Nat × Core)) (e : (Nat × Nat) × Bool × Nat) =>
    mset t e.1.1 ((mget {} t e.1.1).setCtx e.1.2 { armed := e.2.1, idleAt := e.2.2 })) m.device.cores
  m.ctxs.foldl (fun (t : List (Nat × Core)) (e : CtxImage) =>
    mset t e.core ((mget {} t e.core).setCtx e.no (e.ctx.wired.underMask e.done))) idle

/-- The names of a frame's open panes in the context blocks of an image. -/
def SaveImage.paneNames (m : SaveImage) (pa : Nat) : List Nat :=
  m.ctxs.flatMap fun e => (e.panes.filter fun p => p.1 == pa).map (·.2)

/-- Queued knocks start the dormant contexts of core g that wait for them. -/
def State.serveKnocks (s : State) (g : Nat) : State := (List.range 4).foldl (fun (s : State) (_ : Nat) => s.serveKnock g) s

/-- The ports take back the inbound blocks of the unfinished frame (R394). -/
def State.rejoinDigests (s : State) (m : SaveImage) : State :=
  m.device.digests.foldl (fun (s : State) (e : Nat × List VVal) => s.modPort e.1 fun p => { p with digest := e.2 }) s

/-- Frames as the resumed launch finds them: the directory is that of the image, not that of a launch run meanwhile (R416). -/
def State.rejoinFrames (s : State) (m : SaveImage) : State :=
  let s := { s with frames := s.frames.map fun ((a, f) : Nat × Frame) => (a, f.atStart) }
  m.device.frames.foldl (fun (s : State) (e : Nat × FrameMark) => s.setFrame e.1 ((s.frame e.1).rejoin e.2 m.savedAt (m.paneNames e.1))) s

/-- The launch of an image at `pa` runs on, under the header copy that stands there. -/
def State.resumeImage (s : State) (pa : Nat) (m : SaveImage) : State :=
  let ws := s.physWords pa 32
  let before := (s.free, s.pick)
  let d := m.device
  let det := d.launch.freeBefore.isSome
  let s := ((s.applyNext.clearLaunch.rejoinMemory m).rejoinDigests m).rejoinFrames m
  let s := d.clusters.foldl (fun (s : State) (e : Nat × Cluster) => s.rejoinCluster m.cycle e.1 e.2) s
  let s := { s with
    cores := m.cores.map (fun ((g, c) : Nat × Core) => (g, c.resumed)),
    colls := d.colls, migrations := d.migrations, halted := d.halted, cycle := m.cycle, sclk := m.sclk, logwr := m.logwr, logrd := m.logrd,
    geolock := true,
    launch := some { d.launch with words := ws, hdrAddr := pa, beganAt := m.cycle, fmode := s.modesOf ws,
                                   freeBefore := if det then some before else none },
    free := if det then d.free else before.1, pick := if det then d.pick else before.2 }
  (m.cores.foldl (fun (s : State) (e : Nat × Core) => s.serveKnocks e.1) s).annotate 0x13 0x7FF 0 (w64 (s.uptime - m.savedAt))

/-- A PRES write. -/
def State.presWrite (s : State) (v : Word64) : State :=
  let pa := bits v 51 12 * 4096
  if s.running || s.pend.isSome then s.lose
  else if headerBad (s.physWords pa 32) then s.resumeFails pa
  else match s.imageAt pa with
    | some m => s.resumeImage pa m
    | none => s.resumeFails pa

/-- PRES. -/
def execPres (v : Word64) (s : State) : Out := .next (if s.hostReaches then s.presWrite v else s)

/-! ### LOGRD (R396) -/

/-- A core none of whose records waits any more goes on, with the annotation of its freeze for the log. -/
def State.endLogFreeze (s : State) (g : Nat) : State :=
  let c := s.core g
  if c.frozen.contains Freeze.log && c.logq.isEmpty then
    (s.setCore g { c with frozen := c.frozen.filter (· != Freeze.log) }).annotate 0x14 g 0 (w64 (s.cycle - c.frozenAt))
  else s

/-- The waiting records are written while there is room, and the cores that have written all of theirs go on. -/
def State.flushLog (s : State) : State :=
  let s := s.writeWaiting false s.waitingRecords
  s.cores.foldl (fun (s : State) (e : Nat × Core) => s.endLogFreeze e.1) s

/-- A stalled schedule goes on once 16 KiB are free. -/
def State.endStall (s : State) : State :=
  match s.launch with
  | some l =>
    if l.logStall && !s.logFull then
      (s.modLaunch fun l => { l with logStall := false }).annotate 0x14 0x7FF 0 (w64 (s.cycle - l.stallAt))
    else s
  | none => s

/-- LOGRD. -/
def execLogrd (v : Word64) (s : State) : Out :=
  if !s.hostReaches then .next s
  else
  let s := { s with logrd := bits v 31 0 }.endStall
  .next (if s.run then s.flushLog else s)

end Sys2Proof.Machine
end

