-- ==== Sys2Proof/Machine/Host.lean ====
section
/-! DEFINITION. What the host and the board do: device registers, the geometry table, host glazing, bring-up, rail faults and attestation
(R60, R68, R72, R149, R158, R332, R392, R400 to R407). -/

namespace Sys2Proof.Machine

/-! ### Host glazing (R407) -/

/-- The apply that waits on a frame is performed, with the glaze of R101, and its context goes on; one that pre-emption has stopped performs it when
the launch is resumed (R379). -/
def State.glazeDone (s : State) (pa : Nat) : State :=
  let f := s.frame pa
  match f.glazeWait with
  | none => s
  | some (g, x) =>
    match (s.ctx g x).resume with
    | none => s
    | some i =>
      if s.iss.active then s
      else
        let s := s.setFrame pa { f with glazeWait := none }
        let i := { i with glazeOk := i.glazeOk ++ [pa] }
        if (s.ctx g x).run != .held || !(s.ctx g x).walks.isEmpty then s.modCtx g x fun k => { k with resume := some i }
        else
        let s := (s.modCtx g x fun k => { k with run := .running, resume := some i }).modCore g Core.select
        if (s.ctx g x).stopped then s else s.resumeIssue g x i

/-- GLZDONE. -/
def execGlzdone (v : Word64) (s : State) : Out := .next (if s.hostReaches then s.glazeDone v.toNat else s)

/-! ### Bring-up (R400 to R402) -/

/-- Numbers of the bits of a mask of 12. -/
def maskBits (m : BitVec 12) : List Nat := (List.range 12).filter fun i => m.getLsbD i

/-- A port trained at full width. -/
def trainedPort (q now : Nat) : Port := { st := .up, width := laneCount q, progressAt := now, sentAt := now, since := now }

/-- Steps 4 to 6: the stacks and main memory, the peer ports, and every island and the module READY. -/
def State.firmware (s : State) (badStacks badPorts : BitVec 12) : State :=
  if badStacks != 0 then { s with stage := 2, badstk := badStacks.toNat }
  else
    let s := { s with mem := s.mem.filter (fun (c : Host.Cell) => decide (bufferKeys ≤ c.1)),
                      desc := s.desc.filter (fun (d : Nat × Desc) => decide (bufferKeys / 64 ≤ d.1)) }
    let s := ((List.range 12).filter fun q => !(maskBits badPorts).contains q).foldl
      (fun (s : State) (q : Nat) => s.setPort q (trainedPort q s.uptime)) s
    { s with stage := 5, ready := true, islandsReady := true }

/-- The module has not been brought up since its reset. -/
def State.unpowered (s : State) : Bool := s.stage == 0 && !s.ready && !s.sigfail && s.badstk == 0 && !s.run

/-- POWER_ON: the masks name the stacks and the peer ports that do not train. -/
def execPowerOn (badStacks badPorts : BitVec 12) (signatureOk : Bool) (s : State) : Out :=
  if !s.unpowered then .next s
  else
    let s := { s.setPort hostPort (trainedPort hostPort s.uptime) with stage := 1 }
    .next (if signatureOk then s.firmware badStacks badPorts else { s with sigfail := true })

/-- The module as a rail fault leaves it: reset, with main memory as it stood (R401). -/
def State.railReset (s : State) : State :=
  { State.reset with
    free := s.free, inputs := s.inputs, messages := s.messages,
    mem := s.mem.filter (fun (c : Host.Cell) => decide (c.1 < bufferKeys)),
    desc := s.desc.filter (fun (d : Nat × Desc) => decide (d.1 < bufferKeys / 64)), frames := s.frames }

/-- RAIL_FAULT. -/
def execRailFault (s : State) : Out := .next s.railReset

/-! ### Attestation (R403) -/

/-- ATREQ; an address that breaks the alignment requests nothing. -/
def execAtreq (v : Word64) (s : State) : Out :=
  .next (if !s.hostReaches then s else if s.running then s.lose else if v.toNat % 64 = 0 then { s with atreq := some v.toNat } else s)

/-- The low `n` bytes of a number, byte 0 first. -/
def byteList (n v : Nat) : List Byte := (List.range n).map fun i => BitVec.ofNat 8 (v / 2 ^ (8 * i))

/-- The bytes of a digest. -/
def wordBytes (ws : List Word64) : List Byte := ws.flatMap fun w => byteList 8 w.toNat

/-- The geometry table as bytes. -/
def State.geoBytes (s : State) : List Byte := (List.range 256).flatMap fun i => byteList 4 (s.geoWord i).toNat

/-- Bytes 0 to 135 of the report. -/
def State.reportHead (s : State) : List Byte :=
  wordBytes s.atnonce.toList ++ byteList 32 Config.firmwareDigest.toNat ++ byteList 32 Config.fusedKeyDigest.toNat ++
    byteList 8 s.fmdev ++ wordBytes (sha3 s.geoBytes)

/-- The report with its signature. -/
def State.report (s : State) : List Byte :=
  let d := BitVec.ofNat 256 (laneOfBytes (wordBytes (sha3 s.reportHead)))
  s.reportHead ++ (List.range 2420).map fun i => Config.deviceSignature d i

/-- Bytes written one after the other at a physical address. -/
def State.putByteList (s : State) (pa : Nat) : List Byte → State
  | [] => s
  | b :: bs => (s.writePhys pa 1 b.toNat).putByteList (pa + 1) bs

/-- ATTEST_REPORT_DONE. -/
def execAttestReportDone (s : State) : Out :=
  match s.atreq with
  | some pa => .next { s.putByteList pa s.report with atdone := true, atreq := none }
  | none => .next s

/-! ### The geometry table and the apertures (R68, R72, R158) -/

/-- Bits of an aperture entry that are not reserved. -/
def apertureMask : Word64 := 0xE0FF_0000_0003_FFFF

/-- A write of an offset in the device registers, of a table that is locked while a launch runs. -/
def State.tableWrite (s : State) (off : Nat) (v : Word64) : State :=
  if s.running then { s with geolock := true }
  else if 0x1_0000 ≤ off ∧ off < 0x1_0400 ∧ off % 4 = 0 then
    { s with geo := mset s.geo ((off - 0x1_0000) / 4) (v.setWidth 32) }
  else if 0xC000 ≤ off ∧ off < 0xF000 ∧ off % 16 = 0 then
    { s with apertures := mset s.apertures ((off - 0xC000) / 16) (v &&& apertureMask) }
  else s

/-- Where the device registers begin (R60). -/
def deviceBase : Nat := 0x0A00_0000_0000

/-- GEO_TABLE_WRITE. -/
def execGeoTableWrite (addr : Nat) (v : Word64) (s : State) : Out :=
  let off := addr - deviceBase
  if s.hostReaches ∧ ((0x1_0000 ≤ off ∧ off < 0x1_0400) ∨ (0xC000 ≤ off ∧ off < 0xF000)) then .next (s.tableWrite off v) else .next s

/-! ### The other device registers -/

/-- LOGCTL's fields. -/
def logctlMask : Word64 := 0xFFFF_F000

/-- A port's arbitration register and its count of replays (R149, R150). -/
def State.portWrite (s : State) (q r : Nat) (v : Word64) : State :=
  match r with
  | 0x08 =>
    let w := (bits v 7 4, bits v 3 0)
    s.modPort q fun p => if s.running then { p with arbNext := some w } else { p with cwt := w.1, dwt := w.2, arbNext := none }
  | 0x10 => s.modPort q fun p => { p with replays := (BitVec.ofNat 32 p.replays &&& ~~~(v.setWidth 32)).toNat }
  | _ => s

/-- STATE of the islands (R404): 0 OFF, 1 READY, 2 RUN. -/
def State.islandState (s : State) : Nat := if !s.islandsReady then 0 else if s.run then 2 else 1

/-- The register of island n (R404). -/
def State.islandWord (s : State) (n : Nat) : Word64 :=
  w64 ((s.cluster n).limit % 2 ^ 7 * 2 ^ 9 + (s.cluster n).hold % 2 ^ 7 * 2 ^ 2 + s.islandState)

/-- LIMIT of an island; 0 is read as 1 (R404). -/
def State.limitWrite (s : State) (n : Nat) (v : Word64) : State :=
  let l := max 1 (bits v 15 9)
  s.modCluster n fun c => if s.running then { c with limitNext := some l } else { c with limit := l, limitNext := none }

/-- The launch queue's, the log's and the mode registers (R332, R392, R405). -/
def State.queueWrite (s : State) (off : Nat) (v : Word64) : State :=
  match off with
  | 0x00 => if s.running || s.pend.isSome then s else { s with lqbase := bits v 51 14 * 16384 }
  | 0x08 => { s with lqtail := bits v 5 0 }
  | 0x20 => if bit v 2 then { s with lost := false } else s
  | 0x40 => if s.running then { s with logctlNext := some (v &&& logctlMask) } else { s with logctl := v &&& logctlMask, logctlNext := none }
  | 0x58 => if s.running then { s with replayrefNext := some (bits v 51 6 * 64) } else { s with replayref := bits v 51 6 * 64, replayrefNext := none }
  | 0x60 => if s.running then { s with fmdevNext := some (bits v 5 0) } else { s with fmdev := bits v 5 0, fmdevNext := none }
  | _ => s

/-- Error counts, locks and attestation (R59, R72, R403). -/
def State.miscWrite (s : State) (off : Nat) (v : Word64) : State :=
  if 0x3000 ≤ off ∧ off < 0x3060 ∧ off % 8 = 0 then { s with mecor := vset s.mecor ((off - 0x3000) / 8) (bits v 31 0) }
  else if off = 0x3100 then (if bit v 0 then { s with geolock := false } else s)
  else if 0x7000 ≤ off ∧ off < 0x7020 ∧ off % 8 = 0 then { s with atnonce := vset s.atnonce ((off - 0x7000) / 8) v }
  else if off = 0x7028 then (if bit v 0 then { s with atdone := false } else s)
  else s

/-- DEVICE_REGISTER_WRITE: registers that only read, and places without a register, ignore the value. -/
def execDeviceRegisterWrite (addr : Nat) (v : Word64) (s : State) : Out :=
  let off := addr - deviceBase
  if addr < deviceBase || !s.hostReaches then .next s
  else if off < 0x1000 then .next (s.queueWrite off v)
  else if 0x4000 ≤ off ∧ off < 0x4000 + 0x40 * 13 then .next (s.portWrite ((off - 0x4000) / 0x40) (off % 0x40) v)
  else if 0x6000 ≤ off ∧ off < 0x6080 ∧ off % 8 = 0 then .next (s.limitWrite ((off - 0x6000) / 8) v)
  else .next (s.miscWrite off v)

end Sys2Proof.Machine
end

