-- ==== Sys2Proof/Machine/PaneOps.lean ====
section
/-! DEFINITION. The pane instructions: binding, opening, sealing, applying, inverting, moving, merging, transplanting, settling and
reading panes (R91 to R106, R108 to R121, R416). -/

namespace Sys2Proof.Machine

/-! ### FBIND (R91, R113, R274, R416) -/

/-- The extent and the arena of a record lie on pages of one kind. -/
def State.frameKindOk (s : State) (r : FrameRec) (kind : Nat) : Bool :=
  s.pagesAll r.base r.extent (fun e => leafKind e == kind) && s.pagesAll r.arena (64 * r.arenalen) (fun e => leafKind e == kind)

/-- The record has the fields of an adjoint frame (R274). -/
def FrameRec.adjointFields (r : FrameRec) : Bool := r.fmt == 2 && r.addok && !r.diff && r.adj == 0

/-- The record that an agent's context reads at an address: its physical address and words, or the fault that names `name`. -/
def recordAt (s : State) (va name : Word64) : Except State (Nat × List Word64) := do
  if va.toNat % 64 ≠ 0 || untranslated va.toNat then protFault s name
  match s.xlat (clusterOf s.iss.g) va.toNat with
  | .barred => protFault s name
  | .walk => slotWalk s va 0
  | .loc l => if l.kind != 0 || !l.rd then protFault s name else .ok (l.pa, s.blockWords l.key)

/-- The adjoint frame record at an address, checked (R91, R274): its physical address and fields. -/
def adjointAt (s : State) (va name : Word64) : Except State (Nat × FrameRec) := do
  let (pa, ws) ← recordAt s va name
  let r := { frameRecOf va.toNat ws with adjoint := true }
  if frameRecBad ws r || !r.adjointFields || !s.frameKindOk r 2 then protFault s name
  .ok (pa, r)

/-- The frame of a record as a binding finds it: its chain lies in its arena, so a record that names another arena begins with an
empty chain (R92). -/
def Frame.under (f : Frame) (r : FrameRec) : Frame := if f.info.arena = r.arena then f else {}

/-- The first control block of a record's arena, which a binding reads and writes (R67): it waits for its page (log entry 97). -/
def arenaLoc (s : State) (r : FrameRec) (name : Word64) : Except State Loc :=
  if !translated r.arena then protFault s name
  else match s.xlat (clusterOf s.iss.g) r.arena with
    | .barred => protFault s name
    | .walk => slotWalk s (w64 r.arena) 1
    | .loc l => if l.permits .both then .ok l else protFault s name

/-- What a bound arena's first control block holds: the record's values (R92). Its layout is the device's own (R93), and this one the model's (DESIGN
CHOICE: log entry 97). It is never zero, so that a zeroed arena is known. -/
def controlBlock (r : FrameRec) : Block :=
  BitVec.ofNat 512 (joinLanes 64 [r.base, r.dims.toNat, r.layout.toNat, r.fmt, r.arena, r.arenalen, r.adj, flag r.addok 0 + flag r.diff 1])

/-- A record is entered in the frame directory (R113, R416). A zeroed arena is a frame with an empty chain, whatever it held before (R93). -/
def enterRecord (s : State) (pa : Nat) (r : FrameRec) (name : Word64) : Except State State := do
  let l ← arenaLoc s r name
  let v := s.readBlock l.key
  let f := if v.data = 0 && !isPoison v.desc then { inDir := (s.frame pa).inDir } else (s.frame pa).under r
  if f.hasPanes && !f.info.agrees r then protFault s name
  if !(s.frame pa).inDir && directorySize ≤ s.directoryCount then protFault s name
  .ok ((s.writeBlock l.wkeys ⟨controlBlock r, 0⟩).setFrame pa { f with info := r, inDir := true })

/-- Binding or unbinding a register whose frame holds an open pane of this context is a pane conflict that names the pane twice. -/
def unbindCheck (s : State) (f : FReg) : Except State Unit :=
  match vget none s.cur.f f.toNat with
  | none => .ok ()
  | some pa => match (s.frame pa).openOf s.iss.g s.iss.x with
    | some p => paneFault s pa p.name p.name
    | none => .ok ()

/-- FBIND: the kind of the arena's page tells a frame from an adjoint frame (R93, R274). A register whose frame holds an open pane of the context
is found before the record is read: the pane conflict is then raised whatever the record is (R113; DESIGN CHOICE: log entry 133). -/
def execFbind (r : SReg) (f : FReg) (s : State) : Out :=
  slotDone (do
    let va := s.rdS r
    unbindCheck s f
    let (pa, ws) ← recordAt s va va
    let q := frameRecOf va.toNat ws
    if frameRecBad ws q then protFault s va
    let l ← arenaLoc s q va
    if l.kind = 1 && s.frameKindOk q 1 then
      let (q, s) ← (if !q.diff then .ok (q, s) else do
        let (apa, a) ← adjointAt s (w64 q.adj) va
        if adjointMismatch q a then protFault s va
        let s ← (if (s.frame apa).inDir then .ok s else enterRecord s apa a va)
        .ok ({ q with adjPa := apa }, s))
      let s ← enterRecord s pa q va
      .ok (s.emit (.bind f.toNat (some pa)) 1)
    else if l.kind = 2 && q.adjointFields && s.frameKindOk q 2 then
      let s ← enterRecord s pa { q with adjoint := true } va
      .ok (s.emit (.bind f.toNat (some pa)) 1)
    else protFault s va)

/-- FBIND.U. -/
def execFbindU (f : FReg) (s : State) : Out :=
  slotDone (do
    unbindCheck s f
    .ok (s.emit (.bind f.toNat none) 1))

/-! ### Shared parts (R96, R108) -/

/-- A pane name. -/
def State.paneName (s : State) (r : SReg) : Nat := bits (s.rdS r) 15 0

/-- The frame of a bound register, with the wait of R407 where the host glazes it for another context. -/
def gatedFrame (s : State) (f : FReg) : Except State (Nat × Frame) := do
  let (pa, fr) ← boundOf s f
  paneGate s pa fr
  .ok (pa, fr)

/-- A reserved name for a pane that would be created (R96). PINV, PXPL and PGLAZE test it before they look for the panes that they name, so that
the fault comes before PANENONE: the manual does not order the two (DESIGN CHOICE: log entry 132). -/
def nameFree (s : State) (pa n : Nat) : Except State Unit := if 0xE800 ≤ n then protFault s (w64 pa) else .ok ()

/-- kstat.PANENONE and nothing else (R108). -/
def State.paneNone (s : State) : State := s.putStat stPaneNone

/-! ### POPEN, PSEAL, PDROP (R114) -/

/-- POPEN of either kind (R114). Where several of its faults hold, the first of these is raised: a reserved name, an open pane of the context, a
name in use, ADD on a frame that does not allow it. The conflict with the open pane names that pane first. The manual gives neither order (DESIGN
CHOICE: log entry 134). -/
def openPaneOn (s : State) (n : SReg) (f : FReg) (ow : Bool) : Except State State := do
  let (pa, fr) ← boundOf s f
  let name := s.paneName n
  nameFree s pa name
  match fr.openOf s.iss.g s.iss.x with
  | some p => paneFault s pa p.name name
  | none =>
    if fr.nameUsed name then paneFault s pa name name
    if !ow && !fr.info.addok then protFault s (w64 pa)
    needArena s pa fr 1
    .ok (s.changeFrame pa { fr with loose := fr.loose ++ [{ name, ow, st := .opened s.iss.g s.iss.x }] })

/-- POPEN.OW. -/
def execPopenOw (n : SReg) (f : FReg) (s : State) : Out := slotDone (openPaneOn s n f true)

/-- POPEN.ADD. -/
def execPopenAdd (n : SReg) (f : FReg) (s : State) : Out := slotDone (openPaneOn s n f false)

/-- PSEAL. -/
def execPseal (f : FReg) (s : State) : Out :=
  slotDone (do
    let (pa, fr) ← gatedFrame s f
    match fr.openOf s.iss.g s.iss.x with
    | none => .ok s.paneNone
    | some p => .ok (s.changeFrame pa (fr.setLoose { p with st := .sealed })))

/-- A pane that PDROP may discard: the context's own open pane or a sealed one. -/
def Frame.droppable (f : Frame) (g x n : Nat) : Option Pane :=
  f.loose.find? fun p => p.name == n && !p.implicit && (p.st == .sealed || p.st == .opened g x)

/-- PDROP. -/
def execPdrop (p : SReg) (f : FReg) (s : State) : Out :=
  slotDone (do
    let (pa, fr) ← gatedFrame s f
    match fr.droppable s.iss.g s.iss.x (s.paneName p) with
    | none => .ok s.paneNone
    | some q => .ok (s.changeFrame pa (((fr.dropLoose q.name).freed q q.arenaBlocks).loseSettle q)))

/-! ### PAPPLY, PAPPLY.G (R115) -/

/-- PAPPLY. -/
def execPapply (n : SReg) (f : FReg) (s : State) : Out :=
  slotDone (do
    let (pa, fr) ← boundOf s f
    match fr.sealedPane (s.paneName n) with
    | none => do
      paneGate s pa fr
      .ok s.paneNone
    | some p => do
      needReleased s
      let (fs, fl) ← applyAll s [(pa, p)]
      .ok ((s.changeFrames fs).putFlags fl 1))

/-- The frame registers and names of PAPPLY.G, pane by pane. -/
def groupPanes (s : State) (names frames : SReg) (count : Nat) : List (Nat × FReg) :=
  (List.range count).map fun j =>
    (bits (s.rdS names) (16 * j + 15) (16 * j), BitVec.ofNat 3 (bits (s.rdS frames) (4 * j + 2) (4 * j)))

/-- The panes of PAPPLY.G checked and applied in order; none where one of them does not exist. `seen` are the frames and names before. -/
def applyGroup (s : State) (seen : List (Nat × Nat)) :
    List (Nat × FReg) → Except State (Option (List (Nat × Frame) × BitVec 6))
  | [] => .ok (some ([], 0))
  | (n, f) :: rest => do
    let (pa, fr) ← boundOf s f
    match seen.find? fun e => e.1 == pa with
    | some e => paneFault s pa e.2 n
    | none =>
      match fr.sealedPane n with
      | none => .ok none
      | some p =>
        let (fs, fl) ← applyAll s [(pa, p)]
        let r ← applyGroup s (seen ++ [(pa, n)]) rest
        .ok (r.map fun (gs, gl) => (fs ++ gs, fl ||| gl))

/-- PAPPLY.G. -/
def execPapplyG (names frames : SReg) (count1 : BitVec 2) (s : State) : Out :=
  slotDone (do
    let r ← applyGroup s [] (groupPanes s names frames (count1.toNat + 1))
    match r with
    | none => .ok s.paneNone
    | some (fs, fl) => do
      needReleased s
      .ok ((s.changeFrames fs).putFlags fl 1))

/-! ### PINV (R116, R281) -/

/-- The pre-image of a block under the scale of its deltas. -/
def PaneBlock.preLane (k : PaneBlock) (r : FrameRec) (i : Nat) : Nat :=
  let old := (k.pre.getD 0)
  if k.preScale = k.scale then laneOf r.width old i
  else (r.fit ((laneNum r.fmt ⟨old, mkDesc r.fmt k.preScale⟩ i).scale (-k.scale))).1

/-- A block of an inverse. -/
def PaneBlock.inverse (k : PaneBlock) (r : FrameRec) (ow : Bool) : PaneBlock :=
  let bare := { k with pre := none, preScale := 0, prePoison := false }
  if ow then
    if k.prePoison then { bare with data := 0, poison := true, present := fullMask r.perBlock }
    else { bare with data := k.pre.getD 0, scale := k.preScale, poison := false }
  else if k.cleared = 0 then bare
  else if k.prePoison then { bare with data := 0, poison := true, present := fullMask r.perBlock }
  else { bare with data := ofLanes r.width ((List.range r.perBlock).map fun i =>
    if k.cleared.getLsbD i then k.preLane r i else laneOf r.width k.data i) }

/-- The inverse of an applied pane, under a new name. -/
def Pane.inverse (p : Pane) (r : FrameRec) (name : Nat) : Pane :=
  { name, ow := p.ow, st := .sealed, blocks := p.blocks.map fun k => k.inverse r p.ow, negated := !p.ow && !p.negated }

/-- PINV. -/
def execPinv (p new : SReg) (f : FReg) (s : State) : Out :=
  slotDone (do
    let (pa, fr) ← gatedFrame s f
    let name := s.paneName new
    nameFree s pa name
    match fr.chain.find? fun q => q.name == s.paneName p with
    | none => .ok s.paneNone
    | some q =>
      if fr.nameUsed name then .ok s.paneNone
      else do
        needReleased s
        let n := q.inverse fr.info name
        let (fr', fl) ← applyOne s pa fr n n.ownBlocks
        .ok ((s.changeFrame pa fr').putFlags fl 1))

/-! ### PCOMM, PLIFT (R104, R117) -/

/-- The first pane of a list that does not commute with a pane. -/
def firstConflict (p : Pane) (l : List Pane) : Option Pane := l.find? fun q => !commutes p q

/-- PCOMM. That a pane lies neither above nor below itself, so that PCOMM of a pane with itself finds no pair (PANENONE), is the model's choice
(DESIGN CHOICE: log entry 86). -/
def execPcomm (p q : SReg) (f : FReg) (s : State) : Out :=
  slotDone (do
    let (pa, fr) ← gatedFrame s f
    match fr.position (s.paneName p), fr.position (s.paneName q) with
    | some i, some j =>
      if i ≤ j then .ok s.paneNone
      else
        let x := fr.chain.getD i default
        match firstConflict x ((fr.chain.drop j).take (i - j)) with
        | some y => paneFault s pa x.name y.name
        | none =>
          let rest := fr.chain.eraseIdx i
          .ok (s.changeFrame pa { fr with chain := rest.take j ++ x :: rest.drop j })
    | _, _ => .ok s.paneNone)

/-- PLIFT. -/
def execPlift (p : SReg) (f : FReg) (s : State) : Out :=
  slotDone (do
    let (pa, fr) ← gatedFrame s f
    match fr.position (s.paneName p) with
    | none => .ok s.paneNone
    | some i =>
      let x := fr.chain.getD i default
      match firstConflict x (fr.chain.drop (i + 1)) with
      | some y => paneFault s pa x.name y.name
      | none => do
        needReleased s
        let fr := { fr with chain := fr.chain.eraseIdx i, loose := fr.loose ++ [{ x.dropPre with st := .sealed }] }
        .ok (s.changeFrame pa (fr.freed x x.preBlocks)))

/-! ### PGLAZE, PXPL (R118, R119) -/

/-- PGLAZE. -/
def execPglaze (l t new : SReg) (f : FReg) (s : State) : Out :=
  slotDone (do
    let (pa, fr) ← gatedFrame s f
    let name := s.paneName new
    nameFree s pa name
    match fr.position (s.paneName l), fr.position (s.paneName t) with
    | some i, some j =>
      if j < i || fr.nameUsed name then .ok s.paneNone
      else do
        needReleased s
        let (p, fl) ← glazePane s pa fr i j name
        .ok ((s.changeFrame pa (fr.glazed i j p)).putFlags fl 1)
    | _, _ => .ok s.paneNone)

/-- A sealed or applied pane. -/
def Frame.copyable (f : Frame) (n : Nat) : Option Pane := (f.loose ++ f.chain).find? fun p =>
  p.name == n && (p.st == .sealed || p.st == .applied)

/-- Two records between which a pane may be moved. -/
def FrameRec.sameShape (r q : FrameRec) : Bool :=
  r.fmt == q.fmt && r.layout == q.layout && r.sameDims q

/-- PXPL (R119). A transplant mismatch, and an ADD pane that the destination does not allow, are found before a name in use, so that the fault
comes before PANENONE: the manual does not order them (DESIGN CHOICE: log entry 135). -/
def execPxpl (p new : SReg) (f g : FReg) (s : State) : Out :=
  slotDone (do
    let (pa, fr) ← gatedFrame s f
    let (qa, dst) ← gatedFrame s g
    let name := s.paneName new
    nameFree s qa name
    match fr.copyable (s.paneName p) with
    | none => .ok s.paneNone
    | some x =>
      if !fr.info.sameShape dst.info then slotFault s cTransplant (w64 pa) (w64 qa) (w64 x.name)
      if !x.ow && !dst.info.addok then protFault s (w64 qa)
      if dst.nameUsed name then .ok s.paneNone
      else
        let y := { x.dropPre with name, st := .sealed, old := false, settle := false, implicit := false }
        needArena s qa dst y.ownBlocks
        needReleased s
        .ok (s.changeFrame qa { dst with loose := dst.loose ++ [y] }))

/-! ### PSETTLE (R120) -/

/-- PSETTLE. -/
def execPsettle (p : SReg) (f : FReg) (s : State) : Out :=
  slotDone (do
    let (pa, fr) ← gatedFrame s f
    match fr.position (s.paneName p) with
    | none => .ok s.paneNone
    | some i =>
      let x := fr.chain.getD i default
      match firstConflict x (fr.chain.take i).reverse with
      | some y => paneFault s pa x.name y.name
      | none => .ok (s.changeFrame pa { fr with chain := lset fr.chain i { x with settle := true } }))

/-- PSETTLE.ALL. -/
def execPsettleAll (f : FReg) (s : State) : Out :=
  slotDone (do
    let (pa, fr) ← gatedFrame s f
    .ok (s.changeFrame pa { fr with settleAll := true }))

/-! ### PSTAT (R121) -/

/-- The state code of a pane. -/
def PaneState.code : PaneState → Nat
  | .opened .. => 1
  | .sealed => 2
  | .applied => 3

/-- The owner field of a pane. -/
def PaneState.owner : PaneState → Nat
  | .opened g x => x * 2 ^ 43 + g * 2 ^ 32
  | _ => 0

/-- The word of PSTAT.P. Whether PSETTLE.ALL sets bit 7 on the panes the manual does not say: only a PSETTLE that names the pane does (DESIGN
CHOICE: log entry 98). -/
def Frame.paneWord (f : Frame) (p : Pane) : Nat :=
  p.st.owner + min p.blocks.length 0xFFFF * 2 ^ 16 + ((f.position p.name).getD 0) * 2 ^ 8 + flag p.settle 7 +
    flag p.inexact 6 + flag p.negated 5 + flag p.glazed 4 + flag (!p.ow) 3 + p.st.code

/-- The word of PSTAT.F. -/
def Frame.chainWord (f : Frame) : Nat :=
  flag f.chain.isEmpty 32 + (match f.chain.getLast? with | some p => p.name | none => 0) * 2 ^ 16 + f.info.maxdepth * 2 ^ 8 +
    f.chain.length

/-- The word of PSTAT.A. -/
def Frame.arenaWord (f : Frame) : Nat := f.capacity * 2 ^ 32 + (f.capacity - f.used)

/-- PSTAT.P. -/
def execPstatP (d p : SReg) (f : FReg) (s : State) : Out :=
  slotDone (do
    let (_, fr) ← boundOf s f
    match (fr.loose ++ fr.chain).find? fun q => q.name == s.paneName p with
    | none => .ok (s.putS d 0 8)
    | some q => .ok (if q.implicit then (s.putS d 0 8).paneNone else s.putS d (w64 (fr.paneWord q)) 8))

/-- PSTAT.F. -/
def execPstatF (d : SReg) (f : FReg) (s : State) : Out :=
  slotDone (do
    let (_, fr) ← boundOf s f
    .ok (s.putS d (w64 fr.chainWord) 8))

/-- PSTAT.A. -/
def execPstatA (d : SReg) (f : FReg) (s : State) : Out :=
  slotDone (do
    let (_, fr) ← boundOf s f
    .ok (s.putS d (w64 fr.arenaWord) 8))

end Sys2Proof.Machine
end

