-- ==== Sys2Proof/Machine/TapeOps.lean ====
section
/-! DEFINITION. DMODE and TAPE: entering and leaving reverse mode, the region table, and the tape's control (R275, R277, R280,
R288, R289). -/

namespace Sys2Proof.Machine

/-! ### The region table (R275) -/

/-- Address of the region table. -/
def KRegs.tableAddr (k : KRegs) : Nat := k.dreg.toNat / 64 * 64
/-- Entries of the region table. -/
def KRegs.tableCount (k : KRegs) : Nat := k.dreg.toNat % 32

/-- The words of `n` blocks from an address up, on plain pages; a fault names the table. -/
def tableWords (s : State) (name : Word64) : Nat → Nat → Except State (List Word64)
  | 0, _ => .ok []
  | n + 1, va => do
    let (_, ws) ← recordAt s (w64 va) name
    let rest ← tableWords s name n (va + 64)
    .ok (ws ++ rest)

/-- The words of an entry keep to their limits. -/
def regionFieldsOk (w0 w1 w3 : Word64) : Bool :=
  1 ≤ bits w0 63 56 && bits w0 63 56 ≤ 4 && bits w0 55 0 % 64 == 0 && w1.toNat % 64 == 0 && w1 != 0 && w3 == 0

/-- The adjoint frame that an entry names holds an element for each element of the region. An adjoint frame of the directory keeps
its entry; another is known from its record from now on. -/
def regionAdjoint (s : State) (name adjr : Word64) (elems : Nat) : Except State (Nat × State) := do
  let (pa, r) ← adjointAt s adjr name
  if r.count < elems then protFault s name
  if (s.frame pa).inDir then .ok (pa, s)
  else
    let f := (s.frame pa).under r
    if f.hasPanes && !f.info.agrees r then protFault s name
    .ok (pa, s.setFrame pa { f with info := r })

/-- The entries of a region table, checked. -/
def readRegions (s : State) (name : Word64) (ws : List Word64) : Nat → Except State (List Region × State)
  | 0 => .ok ([], s)
  | n + 1 => do
    let (rs, s) ← readRegions s name ws n
    let w (j : Nat) : Word64 := ws.getD (4 * n + j) 0
    if !regionFieldsOk (w 0) (w 1) (w 3) then protFault s name
    let fmt := bits (w 0) 63 56
    let (pa, s) ← regionAdjoint s name (w 2) ((w 1).toNat / (codeBits fmt / 8))
    .ok (rs ++ [⟨fmt, bits (w 0) 55 0, (w 1).toNat, pa⟩], s)

/-! ### DMODE (R288) -/

/-- The slots of this issue that are still to execute do so in the mode before a DMODE, which applies from the next issue on (R288). -/
def State.keepMode (s : State) (rev : Bool) : State := s.modIss fun i => { i with revAs := some rev }

/-- DMODE.REV waits until every earlier push, and every earlier store of the context to a differentiable address, has completed: each has acted at its
own issue, and in a deterministic launch completes at its declared figure (R288, R331). -/
def needPushed (s : State) : Except State Unit :=
  let now := (s.core s.iss.g).clock
  let due := ((s.cur.trail.filter Trail.grad).map Trail.due).foldl max now
  if now < due && !s.granted then slotWait s (.clock due) else .ok ()

/-- DMODE.REV. -/
def execDmodeRev (s : State) : Out :=
  slotDone (do
    let k := s.cur.k
    if k.rev then .ok s
    else
      needPushed s
      let name := w64 k.tableAddr
      if 16 < k.tableCount then protFault s name
      let ws ← tableWords s name ((k.tableCount + 1) / 2) k.tableAddr
      let (rs, s) ← readRegions s name ws k.tableCount
      .ok ((s.modCur fun c => { c with regions := rs, implicit := [], k := { c.k with rev := true } }).keepMode false))

/-- The open implicit panes of the issuing context, with their adjoint frames. -/
def State.implicitPanes (s : State) : List (Nat × Pane) :=
  s.cur.implicit.filterMap fun pa => ((s.frame pa).implicitOf s.iss.g s.iss.x).map fun p => (pa, p)

/-- Empty implicit panes are dropped with their header blocks. -/
def State.dropEmptyPanes (s : State) (l : List (Nat × Pane)) : State :=
  (l.filter fun e => e.2.blocks.isEmpty).foldl (fun s (pa, p) => s.changeFrame pa ((s.frame pa).dropLoose p.name)) s

/-- DMODE.FWD: the implicit panes are sealed and applied as one event. -/
def execDmodeFwd (s : State) : Out :=
  slotDone (
    if !s.cur.k.rev then .ok s
    else do
      needReleased s
      let l := s.implicitPanes
      let (fs, fl) ← applyAll s (l.filter fun e => !e.2.blocks.isEmpty)
      let s := (s.changeFrames fs).dropEmptyPanes l
      .ok (((s.putFlags fl 1).modCur fun c => { c with implicit := [], k := { c.k with rev := false } }).keepMode true))

/-! ### TAPE (R277, R289) -/

/-- The bytes of the tape lie in the own scratchpad below the latch area, or on plain pages with D = 0. -/
def State.tapePlaceOk (s : State) (g lo hi : Nat) : Bool :=
  match spaceOf lo, untranslated lo with
  | .spad h _, true => h == g && lo + (latchBase - lo % 2 ^ 20) ≥ hi
  | _, true => false
  | _, false =>
    (hi ≤ 0x0800_0000_0000 || (0x1800_0000_0000 ≤ lo && hi ≤ 2 ^ 56)) &&
      s.pagesAll lo (hi - lo) (fun e => leafKind e == 0 && !bit e 7)

/-- The tape registers satisfy R277. -/
def State.tapeOk (s : State) : Bool :=
  let k := s.cur.k
  let lo := k.tape.toNat
  let hi := k.tlim.toNat
  lo ≤ k.tpos.toNat && k.tpos.toNat ≤ hi && lo + 512 ≤ hi && s.tapePlaceOk s.iss.g lo hi

/-- TAPE.ON. -/
def execTapeOn (s : State) : Out :=
  slotDone (if s.tapeOk then .ok (s.modCur fun c => { c with k := { c.k with tapeOn := true } }) else protFault s kNumTpos)

/-- TAPE.OFF. -/
def execTapeOff (s : State) : Out := slotDone (.ok (s.modCur fun c => { c with k := { c.k with tapeOn := false } }))

/-- A TAPE instruction has written ktpos at once: it names the register as a destination, and a KWR of ktpos in its issue is a lower slot's write
(R31; DEDUCED: log entry 111). -/
def State.wroteTpos (s : State) : State := s.emit (.keepK .tpos) 1

/-- TAPE.MARK. A mark belongs to no store: what the tape-overflow trap puts into ktarg1 is open. -/
def execTapeMark (v : SReg) (s : State) : Out :=
  slotDone (
    let (n, s) := s.takeFree
    (pushTape s (Config.openWord n) (markEntry (s.rdS v))).map State.wroteTpos)

/-- TAPE.UNMARK. -/
def execTapeUnmark (d : SReg) (s : State) : Out :=
  slotDone (do
    let (h0, h1, l) ← topEntry s
    if bits h0 63 60 ≠ 4 then protFault s kNumTpos
    needSill s
    let pos := s.cur.k.tpos.toNat - 16
    let lat := s.latencyOf s.iss.g pos l
    .ok (((s.popTape 16).wroteTpos.land [.s (physS s.cur.k.rs d) h1] lat false).note pos 16 false lat))

/-- TAPE.RESET. -/
def execTapeReset (s : State) : Out := slotDone (.ok (s.modCur fun c => { c with k := { c.k with tpos := c.k.tape } }).wroteTpos)

end Sys2Proof.Machine
end

