-- ==== Sys2Proof/Machine/Dispatch.lean ====
section
/-! DEFINITION. Every step of the machine has one arm, a direct call of its meaning. -/

namespace Sys2Proof.Machine

/-- The effect of one instruction or event on the machine. -/
def exec (i : Instr) (s : State) : Host.Outcome State Fault Refusal :=
  match i with
  | .nop => Sys2Proof.Machine.execNop s
  | .add d a b => Sys2Proof.Machine.execAdd d a b s
  | .sub d a b => Sys2Proof.Machine.execSub d a b s
  | .and d a b => Sys2Proof.Machine.execAnd d a b s
  | .or d a b => Sys2Proof.Machine.execOr d a b s
  | .xor d a b => Sys2Proof.Machine.execXor d a b s
  | .andn d a b => Sys2Proof.Machine.execAndn d a b s
  | .shl d a b => Sys2Proof.Machine.execShl d a b s
  | .shr d a b => Sys2Proof.Machine.execShr d a b s
  | .sar d a b => Sys2Proof.Machine.execSar d a b s
  | .rotl d a b => Sys2Proof.Machine.execRotl d a b s
  | .min d a b u => Sys2Proof.Machine.execMin d a b u s
  | .max d a b u => Sys2Proof.Machine.execMax d a b u s
  | .mul d a b part => Sys2Proof.Machine.execMul d a b part s
  | .div d a b u => Sys2Proof.Machine.execDiv d a b u s
  | .rem d a b u => Sys2Proof.Machine.execRem d a b u s
  | .addi d a v => Sys2Proof.Machine.execAddi d a v s
  | .andi d a v => Sys2Proof.Machine.execAndi d a v s
  | .ori d a v => Sys2Proof.Machine.execOri d a v s
  | .xori d a v => Sys2Proof.Machine.execXori d a v s
  | .shli d a n => Sys2Proof.Machine.execShli d a n s
  | .shri d a n => Sys2Proof.Machine.execShri d a n s
  | .sari d a n => Sys2Proof.Machine.execSari d a n s
  | .movi d v => Sys2Proof.Machine.execMovi d v s
  | .clz d a w => Sys2Proof.Machine.execClz d a w s
  | .ctz d a w => Sys2Proof.Machine.execCtz d a w s
  | .popc d a w => Sys2Proof.Machine.execPopc d a w s
  | .sext d a sz => Sys2Proof.Machine.execSext d a sz s
  | .zext d a sz => Sys2Proof.Machine.execZext d a sz s
  | .bfx d a u width1 pos => Sys2Proof.Machine.execBfx d a u width1 pos s
  | .bfi d a width1 pos => Sys2Proof.Machine.execBfi d a width1 pos s
  | .sel d a b c => Sys2Proof.Machine.execSel d a b c s
  | .cmp d a b cc => Sys2Proof.Machine.execCmp d a b cc s
  | .cmpi d a cc v => Sys2Proof.Machine.execCmpi d a cc v s
  | .pand d a b => Sys2Proof.Machine.execPand d a b s
  | .por d a b => Sys2Proof.Machine.execPor d a b s
  | .pxor d a b => Sys2Proof.Machine.execPxor d a b s
  | .pandn d a b => Sys2Proof.Machine.execPandn d a b s
  | .br p neg v => Sys2Proof.Machine.execBr p neg v s
  | .brl p neg v => Sys2Proof.Machine.execBrl p neg v s
  | .jmp a v => Sys2Proof.Machine.execJmp a v s
  | .jmpl d a v => Sys2Proof.Machine.execJmpl d a v s
  | .bloop en v => Sys2Proof.Machine.execBloop en v s
  | .nest depth1 mask => Sys2Proof.Machine.execNest depth1 mask s
  | .nestR depth1 mask => Sys2Proof.Machine.execNestR depth1 mask s
  | .setn dst a imm => Sys2Proof.Machine.execSetn dst a imm s
  | .rotb z en => Sys2Proof.Machine.execRotb z en s
  | .wfldGet d a j => Sys2Proof.Machine.execWfldGet d a j s
  | .wfldSet d a b j => Sys2Proof.Machine.execWfldSet d a b j s
  | .wfldLvl d a j => Sys2Proof.Machine.execWfldLvl d a j s
  | .krd d k => Sys2Proof.Machine.execKrd d k s
  | .kwr k a => Sys2Proof.Machine.execKwr k a s
  | .spawn r own cl => Sys2Proof.Machine.execSpawn r own cl s
  | .suspend prio => Sys2Proof.Machine.execSuspend prio s
  | .exit => Sys2Proof.Machine.execExit s
  | .chkpt a v => Sys2Proof.Machine.execChkpt a v s
  | .trap v => Sys2Proof.Machine.execTrap v s
  | .brk holds id => Sys2Proof.Machine.execBrk holds id s
  | .rett => Sys2Proof.Machine.execRett s
  | .lscale d a => Sys2Proof.Machine.execLscale d a s
  | .lscaleP d a => Sys2Proof.Machine.execLscaleP d a s
  | .adda d a b => Sys2Proof.Machine.execAdda d a b s
  | .addai d a v => Sys2Proof.Machine.execAddai d a v s
  | .mova d a => Sys2Proof.Machine.execMova d a s
  | .movaToS d a => Sys2Proof.Machine.execMovaToS d a s
  | .setstep d a v => Sys2Proof.Machine.execSetstep d a v s
  | .itset n k t v => Sys2Proof.Machine.execItset n k t v s
  | .ld d base off sz sx => Sys2Proof.Machine.execLd d base off sz sx s
  | .st d base off sz => Sys2Proof.Machine.execSt d base off sz s
  | .ldV d base off => Sys2Proof.Machine.execLdV d base off s
  | .stV d base off => Sys2Proof.Machine.execStV d base off s
  | .ldL d base off land => Sys2Proof.Machine.execLdL d base off land s
  | .stG d base off f acc => Sys2Proof.Machine.execStG d base off f acc s
  | .stGBlk d base off f acc => Sys2Proof.Machine.execStGBlk d base off f acc s
  | .ldD d base off => Sys2Proof.Machine.execLdD d base off s
  | .stD d base off => Sys2Proof.Machine.execStD d base off s
  | .gath d a b dw m => Sys2Proof.Machine.execGath d a b dw m s
  | .scat d a b dw m => Sys2Proof.Machine.execScat d a b dw m s
  | .awrOw d base off w fl blk => Sys2Proof.Machine.execAwrOw d base off w fl blk s
  | .awrAdd d base off w fl blk => Sys2Proof.Machine.execAwrAdd d base off w fl blk s
  | .axadd d base off w fl => Sys2Proof.Machine.execAxadd d base off w fl s
  | .axchg d base off w => Sys2Proof.Machine.execAxchg d base off w s
  | .acas d a b w => Sys2Proof.Machine.execAcas d a b w s
  | .amin d base off w fl u => Sys2Proof.Machine.execAmin d base off w fl u s
  | .amax d base off w fl u => Sys2Proof.Machine.execAmax d base off w fl u s
  | .aand d base off w => Sys2Proof.Machine.execAand d base off w s
  | .aor d base off w => Sys2Proof.Machine.execAor d base off w s
  | .ald d base off w blk => Sys2Proof.Machine.execAld d base off w blk s
  | .ast d base off => Sys2Proof.Machine.execAst d base off s
  | .ldAcq d base off sz sx => Sys2Proof.Machine.execLdAcq d base off sz sx s
  | .stRel d base off sz => Sys2Proof.Machine.execStRel d base off sz s
  | .ldSc d base off sz sx => Sys2Proof.Machine.execLdSc d base off sz sx s
  | .stSc d base off sz => Sys2Proof.Machine.execStSc d base off sz s
  | .fenceR a b kinds => Sys2Proof.Machine.execFenceR a b kinds s
  | .spill cls d base off => Sys2Proof.Machine.execSpill cls d base off s
  | .fill cls d base off => Sys2Proof.Machine.execFill cls d base off s
  | .vadd d a b m sz sat u => Sys2Proof.Machine.execVadd d a b m sz sat u s
  | .vsub d a b m sz sat u => Sys2Proof.Machine.execVsub d a b m sz sat u s
  | .vmul d a b m sz sat u hi => Sys2Proof.Machine.execVmul d a b m sz sat u hi s
  | .vmin d a b m sz u => Sys2Proof.Machine.execVmin d a b m sz u s
  | .vmax d a b m sz u => Sys2Proof.Machine.execVmax d a b m sz u s
  | .vand d a b m sz => Sys2Proof.Machine.execVand d a b m sz s
  | .vor d a b m sz => Sys2Proof.Machine.execVor d a b m sz s
  | .vxor d a b m sz => Sys2Proof.Machine.execVxor d a b m sz s
  | .vshl d a b m sz => Sys2Proof.Machine.execVshl d a b m sz s
  | .vshr d a b m sz => Sys2Proof.Machine.execVshr d a b m sz s
  | .vsar d a b m sz => Sys2Proof.Machine.execVsar d a b m sz s
  | .vcmp d a b m sz cc => Sys2Proof.Machine.execVcmp d a b m sz cc s
  | .vsel d a b m sz => Sys2Proof.Machine.execVsel d a b m sz s
  | .vfadd d a b m rm cl fmt => Sys2Proof.Machine.execVfadd d a b m rm cl fmt s
  | .vfsub d a b m rm cl fmt => Sys2Proof.Machine.execVfsub d a b m rm cl fmt s
  | .vfmul d a b m rm cl fmt => Sys2Proof.Machine.execVfmul d a b m rm cl fmt s
  | .vfma d a b m rm cl fmt => Sys2Proof.Machine.execVfma d a b m rm cl fmt s
  | .vfms d a b m rm cl fmt => Sys2Proof.Machine.execVfms d a b m rm cl fmt s
  | .vfnma d a b m rm cl fmt => Sys2Proof.Machine.execVfnma d a b m rm cl fmt s
  | .vfdiv d a b m rm cl fmt => Sys2Proof.Machine.execVfdiv d a b m rm cl fmt s
  | .vfsqrt d a m rm cl fmt => Sys2Proof.Machine.execVfsqrt d a m rm cl fmt s
  | .vfmin d a b m fmt => Sys2Proof.Machine.execVfmin d a b m fmt s
  | .vfmax d a b m fmt => Sys2Proof.Machine.execVfmax d a b m fmt s
  | .vfsgnCopy d a b m fmt => Sys2Proof.Machine.execVfsgnCopy d a b m fmt s
  | .vfsgnNeg d a b m fmt => Sys2Proof.Machine.execVfsgnNeg d a b m fmt s
  | .vfsgnXor d a b m fmt => Sys2Proof.Machine.execVfsgnXor d a b m fmt s
  | .vfcmp d a b m cc sg fmt => Sys2Proof.Machine.execVfcmp d a b m cc sg fmt s
  | .vfcvt d a cl src rm part dst => Sys2Proof.Machine.execVfcvt d a cl src rm part dst s
  | .vfrint d a m rm fmt => Sys2Proof.Machine.execVfrint d a m rm fmt s
  | .vfclass d a m fmt => Sys2Proof.Machine.execVfclass d a m fmt s
  | .vfexp d a m cl fmt => Sys2Proof.Machine.execVfexp d a m cl fmt s
  | .vfexp2 d a m cl fmt => Sys2Proof.Machine.execVfexp2 d a m cl fmt s
  | .vflog d a m cl fmt => Sys2Proof.Machine.execVflog d a m cl fmt s
  | .vflog2 d a m cl fmt => Sys2Proof.Machine.execVflog2 d a m cl fmt s
  | .vfsin d a m cl fmt => Sys2Proof.Machine.execVfsin d a m cl fmt s
  | .vfcos d a m cl fmt => Sys2Proof.Machine.execVfcos d a m cl fmt s
  | .vftanh d a m cl fmt => Sys2Proof.Machine.execVftanh d a m cl fmt s
  | .vfrcp d a m cl fmt => Sys2Proof.Machine.execVfrcp d a m cl fmt s
  | .vfrsq d a m cl fmt => Sys2Proof.Machine.execVfrsq d a m cl fmt s
  | .vperm d a b m sz => Sys2Proof.Machine.execVperm d a b m sz s
  | .vbcast d a sz fmt => Sys2Proof.Machine.execVbcast d a sz fmt s
  | .vins d a lane sz => Sys2Proof.Machine.execVins d a lane sz s
  | .vext d a lane sz sx => Sys2Proof.Machine.execVext d a lane sz sx s
  | .vredAdd d a m rm t fmt => Sys2Proof.Machine.execVredAdd d a m rm t fmt s
  | .vredMin d a m rm t fmt => Sys2Proof.Machine.execVredMin d a m rm t fmt s
  | .vredMax d a m rm t fmt => Sys2Proof.Machine.execVredMax d a m rm t fmt s
  | .vdescCopy d a b => Sys2Proof.Machine.execVdescCopy d a b s
  | .vdescSet d a b => Sys2Proof.Machine.execVdescSet d a b s
  | .vdescGet d a => Sys2Proof.Machine.execVdescGet d a s
  | .vscaleRel d a b => Sys2Proof.Machine.execVscaleRel d a b s
  | .vscaleFit d a m fmt => Sys2Proof.Machine.execVscaleFit d a m fmt s
  | .vpackH2b d a b sat => Sys2Proof.Machine.execVpackH2b d a b sat s
  | .vpackW2h d a b sat => Sys2Proof.Machine.execVpackW2h d a b sat s
  | .vpackD2w d a b sat => Sys2Proof.Machine.execVpackD2w d a b sat s
  | .vpackT2 d a b half => Sys2Proof.Machine.execVpackT2 d a b half s
  | .vunpackB2h d a part u => Sys2Proof.Machine.execVunpackB2h d a part u s
  | .vunpackH2w d a part u => Sys2Proof.Machine.execVunpackH2w d a part u s
  | .vunpackW2d d a part u => Sys2Proof.Machine.execVunpackW2d d a part u s
  | .vunpackT2 d a part => Sys2Proof.Machine.execVunpackT2 d a part s
  | .vfxsSplitLo d a m => Sys2Proof.Machine.execVfxsSplitLo d a m s
  | .vfxsSplitHi d a m => Sys2Proof.Machine.execVfxsSplitHi d a m s
  | .vfxsJoin d a b rm cl => Sys2Proof.Machine.execVfxsJoin d a b rm cl s
  | .vmov d a m sz => Sys2Proof.Machine.execVmov d a m sz s
  | .mlogAnd d a b => Sys2Proof.Machine.execMlogAnd d a b s
  | .mlogOr d a b => Sys2Proof.Machine.execMlogOr d a b s
  | .mlogXor d a b => Sys2Proof.Machine.execMlogXor d a b s
  | .mlogAndn d a b => Sys2Proof.Machine.execMlogAndn d a b s
  | .mlogNot d a => Sys2Proof.Machine.execMlogNot d a s
  | .mlogFromv d a => Sys2Proof.Machine.execMlogFromv d a s
  | .mlogTov d a => Sys2Proof.Machine.execMlogTov d a s
  | .mlogIso d a => Sys2Proof.Machine.execMlogIso d a s
  | .oclaim f n1 => Sys2Proof.Machine.execOclaim f n1 s
  | .ofree f n1 => Sys2Proof.Machine.execOfree f n1 s
  | .oload slot base off => Sys2Proof.Machine.execOload slot base off s
  | .oread d base off => Sys2Proof.Machine.execOread d base off s
  | .mmaFp64 acc a b rm => Sys2Proof.Machine.execMmaFp64 acc a b rm s
  | .mmaFloat acc a b fmt => Sys2Proof.Machine.execMmaFloat acc a b fmt s
  | .mmaKf8 acc a b fmt bx => Sys2Proof.Machine.execMmaKf8 acc a b fmt bx s
  | .mmaInt8 acc a b ua ub => Sys2Proof.Machine.execMmaInt8 acc a b ua ub s
  | .mmas acc a b fmt ncode bx => Sys2Proof.Machine.execMmas acc a b fmt ncode bx s
  | .mmat acc a b ua => Sys2Proof.Machine.execMmat acc a b ua s
  | .aclr acc n1 mode => Sys2Proof.Machine.execAclr acc n1 mode s
  | .adrain acc a c => Sys2Proof.Machine.execAdrain acc a c s
  | .adrainO acc a c => Sys2Proof.Machine.execAdrainO acc a c s
  | .adrainP acc a c f => Sys2Proof.Machine.execAdrainP acc a c f s
  | .await acc => Sys2Proof.Machine.execAwait acc s
  | .awaitM m => Sys2Proof.Machine.execAwaitM m s
  | .awaitAll => Sys2Proof.Machine.execAwaitAll s
  | .ttask r q => Sys2Proof.Machine.execTtask r q s
  | .ttaskHost => Sys2Proof.Machine.execTtaskHost s
  | .ttaskUnhost => Sys2Proof.Machine.execTtaskUnhost s
  | .twait t => Sys2Proof.Machine.execTwait t s
  | .ostat d src => Sys2Proof.Machine.execOstat d src s
  | .chead h w l c => Sys2Proof.Machine.execChead h w l c s
  | .cstat d c => Sys2Proof.Machine.execCstat d c s
  | .cwmk d c => Sys2Proof.Machine.execCwmk d c s
  | .cwmkW a c => Sys2Proof.Machine.execCwmkW a c s
  | .ccancel mask => Sys2Proof.Machine.execCcancel mask s
  | .qjoin mask => Sys2Proof.Machine.execQjoin mask s
  | .shape v set field => Sys2Proof.Machine.execShape v set field s
  | .knarm x => Sys2Proof.Machine.execKnarm x s
  | .knarmD x => Sys2Proof.Machine.execKnarmD x s
  | .fbind r f => Sys2Proof.Machine.execFbind r f s
  | .fbindU f => Sys2Proof.Machine.execFbindU f s
  | .popenOw n f => Sys2Proof.Machine.execPopenOw n f s
  | .popenAdd n f => Sys2Proof.Machine.execPopenAdd n f s
  | .pseal f => Sys2Proof.Machine.execPseal f s
  | .papply n f => Sys2Proof.Machine.execPapply n f s
  | .papplyG names frames count1 => Sys2Proof.Machine.execPapplyG names frames count1 s
  | .pinv p new f => Sys2Proof.Machine.execPinv p new f s
  | .pcomm p q f => Sys2Proof.Machine.execPcomm p q f s
  | .pxpl p new f g => Sys2Proof.Machine.execPxpl p new f g s
  | .pglaze l t new f => Sys2Proof.Machine.execPglaze l t new f s
  | .plift p f => Sys2Proof.Machine.execPlift p f s
  | .pdrop p f => Sys2Proof.Machine.execPdrop p f s
  | .psettle p f => Sys2Proof.Machine.execPsettle p f s
  | .psettleAll f => Sys2Proof.Machine.execPsettleAll f s
  | .pstatP d p f => Sys2Proof.Machine.execPstatP d p f s
  | .pstatF d f => Sys2Proof.Machine.execPstatF d f s
  | .pstatA d f => Sys2Proof.Machine.execPstatA d f s
  | .larr l rot => Sys2Proof.Machine.execLarr l rot s
  | .larrN l v rot => Sys2Proof.Machine.execLarrN l v rot s
  | .larrSet l v rot => Sys2Proof.Machine.execLarrSet l v rot s
  | .larrRd l d rot => Sys2Proof.Machine.execLarrRd l d rot s
  | .lwait l re rot => Sys2Proof.Machine.execLwait l re rot s
  | .lbaseSet b n => Sys2Proof.Machine.execLbaseSet b n s
  | .lbaseStep => Sys2Proof.Machine.execLbaseStep s
  | .waitany d l re rot mask => Sys2Proof.Machine.execWaitany d l re rot mask s
  | .hset h v => Sys2Proof.Machine.execHset h v s
  | .hsetR h d => Sys2Proof.Machine.execHsetR h d s
  | .hwaitData h c => Sys2Proof.Machine.execHwaitData h c s
  | .hwaitRoom h c => Sys2Proof.Machine.execHwaitRoom h c s
  | .hadvCons h c => Sys2Proof.Machine.execHadvCons h c s
  | .hadvProd h c => Sys2Proof.Machine.execHadvProd h c s
  | .dmodeRev => Sys2Proof.Machine.execDmodeRev s
  | .dmodeFwd => Sys2Proof.Machine.execDmodeFwd s
  | .tapeOn => Sys2Proof.Machine.execTapeOn s
  | .tapeOff => Sys2Proof.Machine.execTapeOff s
  | .tapeMark v => Sys2Proof.Machine.execTapeMark v s
  | .tapeUnmark d => Sys2Proof.Machine.execTapeUnmark d s
  | .tapeReset => Sys2Proof.Machine.execTapeReset s
  | .coll r => Sys2Proof.Machine.execColl r s
  | .pgres t => Sys2Proof.Machine.execPgres t s
  | .pgresFail t => Sys2Proof.Machine.execPgresFail t s
  | .pgresInv t => Sys2Proof.Machine.execPgresInv t s
  | .bundleIssue g x => Sys2Proof.Machine.execBundleIssue g x s
  | .resultDelivery g x => Sys2Proof.Machine.execResultDelivery g x s
  | .waiterRetry who => Sys2Proof.Machine.execWaiterRetry who s
  | .pagerRecordEnqueue cluster slot => Sys2Proof.Machine.execPagerRecordEnqueue cluster slot s
  | .walkComplete who => Sys2Proof.Machine.execWalkComplete who s
  | .landingDelivery g => Sys2Proof.Machine.execLandingDelivery g s
  | .lateDataArrival g => Sys2Proof.Machine.execLateDataArrival g s
  | .engineWaitEnd g x => Sys2Proof.Machine.execEngineWaitEnd g x s
  | .scOrderPoint g => Sys2Proof.Machine.execScOrderPoint g s
  | .channelRecordRead g c => Sys2Proof.Machine.execChannelRecordRead g c s
  | .sectorComplete g c => Sys2Proof.Machine.execSectorComplete g c s
  | .recordCompletion g c => Sys2Proof.Machine.execRecordCompletion g c s
  | .knockDelivery k => Sys2Proof.Machine.execKnockDelivery k s
  | .oloadFillComplete g slot => Sys2Proof.Machine.execOloadFillComplete g slot s
  | .matrixOpStart g => Sys2Proof.Machine.execMatrixOpStart g s
  | .matrixOpComplete g => Sys2Proof.Machine.execMatrixOpComplete g s
  | .drainStart g => Sys2Proof.Machine.execDrainStart g s
  | .drainComplete g => Sys2Proof.Machine.execDrainComplete g s
  | .leaveGrant island => Sys2Proof.Machine.execLeaveGrant island s
  | .leaveRelease g => Sys2Proof.Machine.execLeaveRelease g s
  | .classRunExpiry g => Sys2Proof.Machine.execClassRunExpiry g s
  | .taskDispatch cluster queue => Sys2Proof.Machine.execTaskDispatch cluster queue s
  | .taskRunStart cluster g => Sys2Proof.Machine.execTaskRunStart cluster g s
  | .taskComplete cluster g => Sys2Proof.Machine.execTaskComplete cluster g s
  | .collSignal die => Sys2Proof.Machine.execCollSignal die s
  | .collStart die => Sys2Proof.Machine.execCollStart die s
  | .collComplete die => Sys2Proof.Machine.execCollComplete die s
  | .restripeCutover page => Sys2Proof.Machine.execRestripeCutover page s
  | .restripeStable page => Sys2Proof.Machine.execRestripeStable page s
  | .pickup cluster => Sys2Proof.Machine.execPickup cluster s
  | .priorityAging cluster => Sys2Proof.Machine.execPriorityAging cluster s
  | .selectorQuantum g => Sys2Proof.Machine.execSelectorQuantum g s
  | .scheduleDue g x => Sys2Proof.Machine.execScheduleDue g x s
  | .ckptmaxOverrun g x => Sys2Proof.Machine.execCkptmaxOverrun g x s
  | .preemptionTimeout g x => Sys2Proof.Machine.execPreemptionTimeout g x s
  | .frameEnd => Sys2Proof.Machine.execFrameEnd s
  | .droopSample island => Sys2Proof.Machine.execDroopSample island s
  | .scrub stack channel offset finding => Sys2Proof.Machine.execScrub stack channel offset finding s
  | .launchStart => Sys2Proof.Machine.execLaunchStart s
  | .launchRetire => Sys2Proof.Machine.execLaunchRetire s
  | .shutter => Sys2Proof.Machine.execShutter s
  | .preemptSave => Sys2Proof.Machine.execPreemptSave s
  | .powerOn badStacks badPorts signatureOk => Sys2Proof.Machine.execPowerOn badStacks badPorts signatureOk s
  | .railFault => Sys2Proof.Machine.execRailFault s
  | .laneFail port lane => Sys2Proof.Machine.execLaneFail port lane s
  | .retrainComplete port => Sys2Proof.Machine.execRetrainComplete port s
  | .handshakeTimeout port => Sys2Proof.Machine.execHandshakeTimeout port s
  | .packetSend port => Sys2Proof.Machine.execPacketSend port s
  | .ackOnlyPacket port p => Sys2Proof.Machine.execAckOnlyPacket port p s
  | .inboundWrite port p => Sys2Proof.Machine.execInboundWrite port p s
  | .inboundReadRequest port p => Sys2Proof.Machine.execInboundReadRequest port p s
  | .readResponse port p => Sys2Proof.Machine.execReadResponse port p s
  | .collectiveData port p => Sys2Proof.Machine.execCollectiveData port p s
  | .abortPacket port p => Sys2Proof.Machine.execAbortPacket port p s
  | .replayTimeout port => Sys2Proof.Machine.execReplayTimeout port s
  | .ackIdleTimer port => Sys2Proof.Machine.execAckIdleTimer port s
  | .launchRegister v => Sys2Proof.Machine.execLaunchRegister v s
  | .pghost v => Sys2Proof.Machine.execPghost v s
  | .pghostFail v => Sys2Proof.Machine.execPghostFail v s
  | .psave v => Sys2Proof.Machine.execPsave v s
  | .psaveFinish v => Sys2Proof.Machine.execPsaveFinish v s
  | .pres v => Sys2Proof.Machine.execPres v s
  | .glzdone v => Sys2Proof.Machine.execGlzdone v s
  | .atreq v => Sys2Proof.Machine.execAtreq v s
  | .attestReportDone => Sys2Proof.Machine.execAttestReportDone s
  | .logrd v => Sys2Proof.Machine.execLogrd v s
  | .geoTableWrite addr v => Sys2Proof.Machine.execGeoTableWrite addr v s
  | .deviceRegisterWrite addr v => Sys2Proof.Machine.execDeviceRegisterWrite addr v s
  | .peerEndDown port => Sys2Proof.Machine.execPeerEndDown port s

end Sys2Proof.Machine
end

