-- ==== Sys2Proof/Machine/Events.lean ====
section
/-! DEFINITION. What may happen next: the events that their cycle demands, the events that may happen in any order, the tick of the
clocks, and the slots of the issue in progress (R11, R20, R171, R319, R350, R375). -/

namespace Sys2Proof.Machine

/-- Something that may happen now. -/
abbrev Event := State → Out

/-- An event, where its condition holds. -/
def may (c : Bool) (e : Event) : List Event := if c then [e] else []

/-! ### The slots of an issue (R20, R369) -/

/-- The instruction of a slot word, where its slot's map takes it. -/
def slotInstr (n : Nat) (w : SlotWord) : Option Instr :=
  match decodeSlot (Slot.ofIndex n) w.word w.ext with
  | .ok i => some i
  | .error _ => none

/-- The chains as slot X finds them, kept where a lower slot has been left to execute after it (R408). -/
def Iss.keepChains (i : Iss) (n : Nat) (frames : List (Nat × Frame)) : Option (List (Nat × Frame)) :=
  if n == 4 && !i.undone.isEmpty && i.chains.isNone then some frames else i.chains

/-- The issue latch turned to a slot, with the others still to execute. -/
def State.latched (s : State) (n : Nat) (w : SlotWord) (rest : List (Nat × SlotWord)) : State :=
  s.modIss fun i => { i with slot := n, cur := w, pending := rest, chains := i.keepChains n s.frames }

/-- After the last slot the issue is finished. -/
def State.afterSlot (s : State) : State := if s.iss.pending.isEmpty then s.finishIssue else s

/-- An outcome, with its next state carried on. -/
def carryOn (o : Out) (f : State → State) : Out :=
  match o with
  | .next s => .next (f s)
  | .fault r => .fault r
  | .refused r => .refused r

/-- A pane instruction of slot X, which a store by ST.G in slot A of its issue precedes (R105). -/
def paneEvent : Instr → Bool
  | .popenOw .. | .popenAdd .. | .pseal .. | .papply .. | .papplyG .. | .pinv .. | .pcomm .. | .pxpl .. | .pglaze .. | .plift .. | .pdrop .. => true
  | .psettle .. | .psettleAll .. => true
  | _ => false

/-- ST.G. -/
def paneStore : Instr → Bool
  | .stG .. | .stGBlk .. => true
  | _ => false

/-- DMODE.FWD, which seals and applies the panes that the reversed access in slot A of its issue touches (R288). -/
def endsReverse : Instr → Bool
  | .dmodeFwd .. => true
  | _ => false

/-- Slot A of the issue is left to execute until its walk or wait is over, or with `page` until its page is there. -/
def Iss.aLater (i : Iss) (page : Bool) : Bool :=
  (i.walks.any fun m => m.slot == 1) || (i.waits.any fun w => w.1 == 1) || (page && i.absent.any fun m => m.slot == 1)

/-- The instruction in slot X waits for slot A, which it follows: a walk only freezes the core (R74, R105, R288). Before a page upcall slot X commits
(R370), but for DMODE.FWD, whose pane events are to take in what slot A still does (DEDUCED: log entry 130). -/
def Iss.heldBack (i : Iss) (x : Instr) : Bool :=
  (i.undone.any fun e => e.1 == 1 && match slotInstr 1 e.2 with
    | some a => (paneStore a && paneEvent x && i.aLater false) || (endsReverse x && i.aLater true)
    | none => false)

/-- The next slot of the issue in progress executes, or is left until the slot that it follows has executed. -/
def stepSlot (n : Nat) (w : SlotWord) (rest : List (Nat × SlotWord)) (s : State) : Out :=
  match slotInstr n w with
  | some i =>
    if n == 4 && s.iss.heldBack i then
      .next (s.modIss fun i => { i with pending := rest, undone := i.undone ++ [(n, w)] }).afterSlot
    else carryOn (exec i (s.latched n w rest)) State.afterSlot
  | none => .fault .badLatch

/-! ### Events of a core -/

/-- The contexts of a core. -/
def ctxNos : List Nat := [0, 1, 2, 3]

/-- The slots of core g whose fills end now: their engine's clock has reached the declared figure (R88, R198). -/
def State.fillsDue (s : State) (g : Nat) : List Nat :=
  if s.det && !s.engineFrozen g then
    ((s.core g).slots.filter fun (e : Nat × OSlot) => match e.2.job with | some j => decide (j.due ≤ s.engineClock g) | none => false).map (·.1)
  else []

/-- Events of core g that its cycle demands: completions first, then what follows from them. The engines start what may start at once (R258). -/
def State.coreTimed (s : State) (g : Nat) : List Event :=
  may (s.landingDue g) (execLandingDelivery g) ++ (s.fillsDue g).map (execOloadFillComplete g) ++
    may (s.arrayDue g) (execMatrixOpComplete g) ++ may (s.drainDue g) (execDrainComplete g) ++
    may (s.taskDue (clusterOf g) g) (execTaskComplete (clusterOf g) g) ++
    may (s.leaveOver g) (execLeaveRelease g) ++ may (s.classRunOver g) (execClassRunExpiry g) ++
    may (s.quantumOver g) (execSelectorQuantum g) ++ may (s.wheelDue g) (execScOrderPoint g) ++
    (ctxNos.flatMap fun x => may (s.ckptOverrun g x) (execCkptmaxOverrun g x) ++ may (s.timeoutDue g x) (execPreemptionTimeout g x)) ++
    may (s.drainMayStart g) (execDrainStart g) ++ may (s.headDue g) (execMatrixOpStart g) ++
    (if s.det && computing g then
      ctxNos.flatMap fun x => may (s.resumeDue g x) (execBundleIssue g x) ++ may (s.wakeDue g x) (execEngineWaitEnd g x) ++
        may (s.scheduleReady g x) (execScheduleDue g x)
    else ctxNos.flatMap fun x => may (s.figureOver g x) (execEngineWaitEnd g x))

/-- Events of a channel. -/
def State.chanEvents (s : State) (g n : Nat) : List Event :=
  let k := s.chan g n
  if !s.soundSrc (.chan g n) then []
  else
    may k.walk.isSome (execWalkComplete (.chan g n)) ++
      may (k.active && (k.words.isNone || k.waitsPage)) (execChannelRecordRead g n) ++
      may (s.sectorLeft g n) (execSectorComplete g n) ++ may (s.recordDone g n) (execRecordCompletion g n)

/-- Events of a context. -/
def State.ctxEvents (s : State) (g x : Nat) : List Event :=
  may (s.issueDue g x) (execBundleIssue g x) ++ may (s.ctx g x).resultsDue (execResultDelivery g x) ++
    may (s.wakeDue g x) (execEngineWaitEnd g x) ++ may ((s.core g).frozen.contains (.walk x)) (execWalkComplete (.ctx g x))

/-- A dispatched task may start running on core g. -/
def State.runDue (s : State) (g : Nat) : Bool :=
  match (s.cluster (clusterOf g)).givenTo (coreOf g) with
  | some (_, t) => s.runMayStart g t
  | none => false

/-- Events of core g that may happen in any order. -/
def State.coreEvents (s : State) (g : Nat) : List Event :=
  ctxNos.flatMap (s.ctxEvents g) ++ ctxNos.flatMap (s.chanEvents g) ++
    may (s.core g).lateMayArrive (execLateDataArrival g) ++
    ((s.core g).slots.flatMap fun (n, o) => may (o.job.isSome && !s.det && s.soundSrc (.fill g n)) (execOloadFillComplete g n)) ++
    may (s.runDue g) (execTaskRunStart (clusterOf g) g)

/-! ### Events of clusters, dies, ports and the device -/

/-- Events of a cluster that its cycle demands: a pager record enters as soon as there is room (R78), and pickup comes in the cycle after the record
and the context are there (R343). -/
def State.clusterTimed (s : State) (cl : Nat) : List Event :=
  (match s.recordDue cl with | some n => [execPagerRecordEnqueue cl n] | none => []) ++
    may ((s.cluster cl).conts.any s.ages) (execPriorityAging cl) ++ may (s.pickupDue cl) (execPickup cl)

/-- The head of an island's requests may be granted. -/
def State.grantDue (s : State) (cl : Nat) : Bool :=
  !(s.cluster cl).asks.isEmpty && (s.det || decide ((s.cluster cl).hold < (s.cluster cl).limit))

/-- Events of a cluster that may happen in any order. -/
def State.clusterEvents (s : State) (cl : Nat) : List Event :=
  may (s.grantDue cl) (execLeaveGrant cl) ++ (s.cluster cl).released.map execWaiterRetry ++
    ctxNos.flatMap fun q => may (s.dispatchable cl q).isSome (execTaskDispatch cl q)

/-- Events of a die's collective engine. -/
def State.dieEvents (s : State) (d : Nat) : List Event :=
  may (s.signalDue d) (execCollSignal d) ++ may (s.startDueColl d) (execCollStart d) ++ may (s.collDone d) (execCollComplete d)

/-- Events of a re-stripe. -/
def State.migrationEvents (s : State) (m : Migration) : List Event :=
  may (!m.cutover && s.pageCopied m && s.moverReaches) (execRestripeCutover m.va) ++
    may (m.cutover && !s.taskNames m && s.moverReaches) (execRestripeStable m.va)

/-- Timers of a port, by the core clock since power was raised (R152, R154, R413, R414). -/
def State.portTimed (s : State) (q : Nat) : List Event :=
  let p := s.port q
  may (p.st == .up && !p.awaitHand && !p.unacked.isEmpty && decide (replayCycles ≤ s.uptime - p.progressAt)) (execReplayTimeout q) ++
    may (p.st == .up && decide (0 < p.sinceAck) && decide (idleCycles ≤ s.uptime - p.sentAt)) (execAckIdleTimer q) ++
    may (p.st == .up && p.awaitHand && decide (replayCycles ≤ s.uptime - p.since)) (execHandshakeTimeout q) ++
    may (p.st == .retraining && !s.hostDoes 4 && decide (retrainCycles ≤ s.uptime - p.since)) (execRetrainComplete q)

/-- Events of a port; a retraining that the host does ends by its own word (R155). -/
def State.portEvents (s : State) (q : Nat) : List Event :=
  let p := s.port q
  may p.canSend (execPacketSend q) ++ may (p.st == .retraining && !s.hostDoes 4) (execRetrainComplete q)

/-- Events that this cycle demands, in the order in which they happen; also in the cycle of a fault, whose record names every fault of it
(R375). -/
def State.demanded (s : State) : List Event :=
  may (s.startDue && !s.run) execLaunchStart ++ may (s.frameEndDue && !s.ending) execFrameEnd ++
    (s.clusters.flatMap fun (cl, _) => s.clusterTimed cl) ++ (s.cores.flatMap fun (g, _) => s.coreTimed g) ++
    (s.ports.flatMap fun (q, _) => s.portTimed q) ++ may (s.retireDue || s.retired) execLaunchRetire ++ may s.shutDue execShutter

/-- Events that may happen now in any order, an error that a read meets among them (R57). -/
def State.possible (s : State) : List Event :=
  (s.cores.flatMap fun (g, _) => s.coreEvents g) ++ (s.clusters.flatMap fun (cl, _) => s.clusterEvents cl) ++
    ([0, 1, 2, 3].flatMap s.dieEvents) ++ s.migrations.flatMap s.migrationEvents ++
    (s.ports.flatMap fun (q, _) => s.portEvents q) ++
    (s.knocksOut.map fun (g, k) => execKnockDelivery (.own g k.kpc k.karg k.dst)) ++
    may s.preemptSaveDue execPreemptSave ++ may s.atreq.isSome execAttestReportDone ++ may s.mayErr State.readError

/-! ### The tick -/

/-- Every computing context is dormant or stopped for a save: the schedule clock stops (R385). -/
def State.allStopped (s : State) : Bool :=
  s.preempting && s.cores.all fun (g, c) => !computing g || c.ctxs.toList.all fun k => k.run == .dormant || k.stopped

/-- The schedule clock counts the cycle that ends (R350, R372, R385). -/
def State.sclkRuns (s : State) : Bool := s.det && !s.detFrozen && !s.sclkHold && !s.allStopped && !s.ending

/-- Core g's clock counts the cycle that ends. -/
def State.clockRuns (s : State) (g : Nat) : Bool := if s.det && computing g then s.sclkRuns else !s.coreFrozen g

/-- The classes of the cycle that ends, and the clocks of the cores. -/
def State.tickCores (s : State) : State :=
  let run := s.cores.map fun ((g, _) : Nat × Core) => (g, s.clockRuns g)
  run.foldl (fun (s : State) (e : Nat × Bool) =>
    let s := s.reclass e.1
    if e.2 then s.modCore e.1 fun c => { c with clock := c.clock + 1 } else s) s

/-- A cycle ends: its records go into the log, and the clocks go on. -/
def State.tick (s : State) : State :=
  let sc := if s.sclkRuns then s.sclk + 1 else s.sclk
  let s := { s with uptime := s.uptime + 1 }
  if s.run then
    let t := { s.tickCores.putCycle with cycle := s.cycle + 1, sclk := sc, sclkHold := false }
    if s.sclkRuns then t.draw else t
  else s

/-- The end of a cycle: errors that reads met in it become faults (R57), and the shutter acts on the faults of the cycle (R373). -/
def State.endCycle (s : State) : Out :=
  if !s.struck.isEmpty then .next s.raiseStruck else if s.faults.isEmpty then .next s.tick else execShutter s

/-- The first event of a list that has something to do. -/
def firstActing (s : State) : List Event → Option Out
  | [] => none
  | e :: es => match e s with
    | .next t => if t = s then firstActing s es else some (.next t)
    | o => some o

/-- What happens when no issue is in progress and the world outside has nothing in store: an event that the cycle demands, or one of those
that may happen now, or the end of the cycle. -/
def State.advance (s : State) : Out :=
  match firstActing s s.demanded with
  | some o => o
  | none =>
    let es := s.possible
    let t := { s with pick := s.pick + 1 }
    match es[Config.pickEvent s.pick % (es.length + 1)]? with
    | some e => e t
    | none => t.endCycle

end Sys2Proof.Machine
end

