-- ==== Sys2Proof/Machine/Step.lean ====
section
/-! DEFINITION. One step of the Kurel: the next slot of the issue in progress, the next event that the world outside has in store, or
what may happen by itself. -/

namespace Sys2Proof.Machine

/-- One step. -/
def step (s : State) : Host.Outcome State Fault Refusal :=
  match s.iss.pending, s.inputs with
  | (n, w) :: rest, _ => stepSlot n w rest s
  | [], i :: rest => exec i { s with inputs := rest }
  | [], [] => s.advance

/-- The slot whose map takes a word first, in template order; the S slot where none does. -/
def fetchSlot (w : SlotWord) : Nat :=
  match firstSlotOf w.word w.ext with
  | some (sl, _) => sl.index
  | none => 0

/-- The state with a slot word in the issue latch, as the next to execute, in an issue of context 0 of core 0. -/
def State.withFetchWord (s : State) (nbits w : Nat) : State :=
  let sw : SlotWord := ⟨BitVec.ofNat 32 w, upperWords nbits w⟩
  { s with iss := { active := true, pending := [(fetchSlot sw, sw)], work := [(fetchSlot sw, sw)] } }

end Sys2Proof.Machine
end

