-- ==== Sys2Proof/Safety.lean ====
section
/-! DEFINITION. What a safe run of the Kurel is: steps that neither fault nor refuse, from a state whose memory keeps its canonical
form. -/

namespace Sys2Proof.Machine

/-- The step from a state is to a next state. -/
def State.goesOn (s : State) : Prop := ∃ t, step s = .next t

/-- The next state of a step, the state itself where there is none. -/
def State.after (s : State) : State :=
  match step s with
  | .next t => t
  | _ => s

/-- A run of n steps meets neither a fault nor a refusal, and every state on it has a memory in canonical form. -/
def State.safeFor (s : State) : Nat → Prop
  | 0 => Memory.wf s.mem
  | n + 1 => Memory.wf s.mem ∧ s.goesOn ∧ s.after.safeFor n

/-- A register carries the format of a code, or 0x00 (R217). -/
def Carries (v : VVal) (code : Nat) : Prop := descFmt v.desc = code ∨ descFmt v.desc = 0

/-- A register carries the floating-point format of a code, with any scale, or the descriptor 0x0000 (R237). -/
def CarriesFloat (v : VVal) (code : Nat) : Prop := descFmt v.desc = code ∨ v.desc = 0

/-- Two sources carry the same scale, or one of them no format (R217). -/
def ScalesAgree (x y : VVal) : Prop := descFmt x.desc = 0 ∨ descFmt y.desc = 0 ∨ descScale x.desc = descScale y.desc

/-- The instruction commits in its slot: its DONE bit and its sticky memory are the only changes besides those that `t` holds. -/
def Completes (i : Instr) (s t : State) : Prop := exec i s = .next (t.commitSlot false)

/-- The control transfer commits in its slot, and the slot's sticky memory is empty afterwards. -/
def Transfers (i : Instr) (s t : State) : Prop := exec i s = .next (t.commitSlot true)

/-- The slot raises a fault that names its place in the bundle (R370, R374), and changes nothing else. -/
def Faults (i : Instr) (s : State) (code : Nat) (w2 w3 w4 : Word64) : Prop :=
  exec i s = .next { s with faults := addFault s.faults {
    code, gcore := s.iss.g, ctx := s.iss.x, rep := s.iss.rep, slot := s.iss.slot, pc := s.iss.pc, w2, w3, w4, cycle := s.cycle } }

/-- The event happens, and leaves `t`. -/
def Happens (i : Instr) (s t : State) : Prop := exec i s = .next t

/-- The register that an instruction of slots S, A and V writes as its only result, by the class and number of `Upd.dest`: the physical
register that its name selects in a context (R202, R204). Instructions with another effect have none here. -/
def resultOf (c : Ctx) : Instr → Option (Nat × Nat)
  | .add d .. | .sub d .. | .and d .. | .or d .. | .xor d .. | .andn d .. | .shl d .. | .shr d .. | .sar d .. | .rotl d .. | .min d ..
  | .max d .. | .mul d .. | .div d .. | .rem d .. | .addi d .. | .andi d .. | .ori d .. | .xori d .. | .shli d .. | .shri d ..
  | .sari d .. | .movi d .. | .clz d .. | .ctz d .. | .popc d .. | .sext d .. | .zext d .. | .bfx d .. | .bfi d .. | .sel d ..
  | .wfldGet d .. | .wfldSet d .. | .wfldLvl d .. | .krd d .. | .movaToS d .. | .vext d .. => some (0, physS c.k.rs d)
  | .cmp d .. | .cmpi d .. | .pand d .. | .por d .. | .pxor d .. | .pandn d .. => some (3, physP c.k.rp d)
  | .adda d .. | .addai d .. | .mova d .. => some (1, d.toNat)
  | .setstep d .. => some (9, d.toNat)
  | .itset n .. => some (5, n.toNat)
  | .vadd d .. | .vsub d .. | .vmul d .. | .vmin d .. | .vmax d .. | .vand d .. | .vor d .. | .vxor d .. | .vshl d .. | .vshr d ..
  | .vsar d .. | .vsel d .. | .vfadd d .. | .vfsub d .. | .vfmul d .. | .vfma d .. | .vfms d .. | .vfnma d .. | .vfdiv d .. | .vfsqrt d ..
  | .vfmin d .. | .vfmax d .. | .vfsgnCopy d .. | .vfsgnNeg d .. | .vfsgnXor d .. | .vfcvt d .. | .vfrint d .. | .vfclass d .. | .vfexp d ..
  | .vfexp2 d .. | .vflog d .. | .vflog2 d .. | .vfsin d .. | .vfcos d .. | .vftanh d .. | .vfrcp d .. | .vfrsq d .. | .vperm d ..
  | .vbcast d .. | .vins d .. | .vredAdd d .. | .vredMin d .. | .vredMax d .. | .vdescCopy d .. | .vdescSet d .. | .vdescGet d ..
  | .vscaleRel d .. | .vscaleFit d .. | .vpackH2b d .. | .vpackW2h d .. | .vpackD2w d .. | .vpackT2 d .. | .vunpackB2h d ..
  | .vunpackH2w d .. | .vunpackW2d d .. | .vunpackT2 d .. | .vfxsSplitLo d .. | .vfxsSplitHi d .. | .vfxsJoin d .. | .vmov d ..
  | .mlogTov d .. => some (2, physV c.k.rv d)
  | .vcmp d .. | .vfcmp d .. | .mlogAnd d .. | .mlogOr d .. | .mlogXor d .. | .mlogAndn d .. | .mlogNot d .. | .mlogFromv d ..
  | .mlogIso d .. => some (4, d.toNat)
  | _ => none

/-- Every register file of every context of every core is the same in two states, strides, iterators, nest counts and frame registers
among them. -/
def SameRegisters (s t : State) : Prop := ∀ g x, x < 4 →
  let k := s.ctx g x
  let j := t.ctx g x
  j.s = k.s ∧ j.a = k.a ∧ j.stride = k.stride ∧ j.v = k.v ∧ j.p = k.p ∧ j.m = k.m ∧ j.it = k.it ∧ j.n = k.n ∧ j.f = k.f

/-- A release need not wait: every read of a window that the context has asked for has been answered and, at system scope, every write of it through a
port acknowledged (R313, R316, R325). That an instruction whose entry names no engine wait then waits as one is the model's choice (log entry 81); no
statement rests on it. -/
def Released (s : State) : Prop := s.unreleased s.iss.g s.iss.x s.sysScope = false

/-- An access to a location lands at its declared figure: outside deterministic launches nothing is refused, and in one no other cores can crowd the
location's channels (R89). -/
def OnTime (s : State) (l : Loc) : Prop := s.det = true → l.mayCrowd = false

/-- An instruction that may write a byte of memory in its slot: stores, the accumulator instructions that replace cells, tile resets, the
instructions that arrive on or set a latch or take arrivals from it, pushes on a tape, and those that write a status word of a record or a control
block. -/
def mayStore : Instr → Bool
  | .st .. | .stV .. | .stD .. | .stG .. | .stGBlk .. | .scat .. | .stRel .. | .stSc .. | .spill .. => true
  | .awrOw .. | .awrAdd .. | .axadd .. | .axchg .. | .acas .. | .amin .. | .amax .. | .aand .. | .aor .. | .ast .. | .aclr .. => true
  | .larr .. | .larrN .. | .larrSet .. | .lwait .. | .waitany .. | .tapeMark .. | .ttask .. | .ttaskUnhost | .coll .. | .ccancel .. | .fbind .. => true
  | _ => false

/-- A key lies outside every run of `n` bytes that starts at one of some keys. -/
def Outside (ks : List Nat) (n key : Nat) : Prop := ∀ k ∈ ks, key < k ∨ k + n ≤ key

/-- Every byte outside the runs of `n` bytes at some keys reads the same in two states. -/
def OnlyAt (ks : List Nat) (n : Nat) (s t : State) : Prop := ∀ key, Outside ks n key → t.byte key = s.byte key

/-- A flag of kflags may be raised by an instruction with one result (R236). -/
def raisesFlags : Instr → Bool
  | .vadd _ _ _ _ _ sat _ | .vsub _ _ _ _ _ sat _ | .vmul _ _ _ _ _ sat _ _ => sat
  | .vpackH2b _ _ _ sat | .vpackW2h _ _ _ sat | .vpackD2w _ _ _ sat => sat
  | .vfadd .. | .vfsub .. | .vfmul .. | .vfma .. | .vfms .. | .vfnma .. | .vfdiv .. | .vfsqrt .. | .vfmin .. | .vfmax .. | .vfcmp ..
  | .vfcvt .. | .vfrint .. | .vfexp .. | .vfexp2 .. | .vflog .. | .vflog2 .. | .vfsin .. | .vfcos .. | .vftanh .. | .vfrcp ..
  | .vfrsq .. | .vredAdd .. | .vredMin .. | .vredMax .. | .vscaleFit .. | .vpackT2 .. | .vfxsJoin .. => true
  | _ => false

end Sys2Proof.Machine
end

