-- ==== Sys2Proof/Certificates/Slice0/Obligations.lean ====
section
/-! DEFINITION. The statements for the provers. Results are stated as the state in which a slot commits (`Completes`, `Transfers`) or
that an event leaves (`Happens`). -/

open Sys2Proof Sys2Proof.Machine

/-! ### Scalar instructions -/

/-- The scalar arithmetic and logic of R209, for every register and every operand value: what each slot queues for s[d], and that the
result is exposed one issue later. -/
def Statements.ScalarArithmetic : Prop := ∀ (s : State) (d a b : SReg),
  Completes .nop s s ∧
  Completes (.add d a b) s (s.putS d (s.rdS a + s.rdS b) 1) ∧
  Completes (.sub d a b) s (s.putS d (s.rdS a - s.rdS b) 1) ∧
  Completes (.and d a b) s (s.putS d (s.rdS a &&& s.rdS b) 1) ∧
  Completes (.or d a b) s (s.putS d (s.rdS a ||| s.rdS b) 1) ∧
  Completes (.xor d a b) s (s.putS d (s.rdS a ^^^ s.rdS b) 1) ∧
  Completes (.andn d a b) s (s.putS d (s.rdS a &&& ~~~s.rdS b) 1) ∧
  Completes (.shl d a b) s (s.putS d (s.rdS a <<< (s.rdS b).toNat) 1) ∧
  Completes (.shr d a b) s (s.putS d (s.rdS a >>> (s.rdS b).toNat) 1) ∧
  Completes (.sar d a b) s (s.putS d ((s.rdS a).sshiftRight (s.rdS b).toNat) 1) ∧
  Completes (.rotl d a b) s (s.putS d ((s.rdS a).rotateLeft ((s.rdS b).toNat % 64)) 1) ∧
  Completes (.min d a b false) s (s.putS d (BitVec.ofInt 64 (min (s.rdS a).toInt (s.rdS b).toInt)) 1) ∧
  Completes (.min d a b true) s (s.putS d (BitVec.ofNat 64 (min (s.rdS a).toNat (s.rdS b).toNat)) 1) ∧
  Completes (.max d a b false) s (s.putS d (BitVec.ofInt 64 (max (s.rdS a).toInt (s.rdS b).toInt)) 1) ∧
  Completes (.max d a b true) s (s.putS d (BitVec.ofNat 64 (max (s.rdS a).toNat (s.rdS b).toNat)) 1) ∧
  Completes (.mul d a b 0) s (s.putS d (s.rdS a * s.rdS b) 3) ∧
  Completes (.mul d a b 1) s (s.putS d (BitVec.ofInt 64 ((s.rdS a).toInt * (s.rdS b).toInt / 2 ^ 64)) 3) ∧
  Completes (.mul d a b 2) s (s.putS d (BitVec.ofNat 64 ((s.rdS a).toNat * (s.rdS b).toNat / 2 ^ 64)) 3)

/-- DIV and REM of R210: truncation toward zero, 24 issues of latency, a zero divisor giving quotient 0, the dividend as remainder and
kstat.DIVZ, and the wrap of the most negative dividend by -1. -/
def Statements.ScalarDivision : Prop := ∀ (s : State) (d a b : SReg),
  (s.rdS b = 0 → ∀ u,
    Completes (.div d a b u) s ((s.putS d 0 24).putStat (BitVec.ofNat 64 (2 ^ 9))) ∧
    Completes (.rem d a b u) s ((s.putS d (s.rdS a) 24).putStat (BitVec.ofNat 64 (2 ^ 9)))) ∧
  (s.rdS b ≠ 0 →
    Completes (.div d a b true) s (s.putS d (BitVec.ofNat 64 ((s.rdS a).toNat / (s.rdS b).toNat)) 24) ∧
    Completes (.rem d a b true) s (s.putS d (BitVec.ofNat 64 ((s.rdS a).toNat % (s.rdS b).toNat)) 24) ∧
    Completes (.div d a b false) s (s.putS d (BitVec.ofInt 64 ((s.rdS a).toInt.tdiv (s.rdS b).toInt)) 24) ∧
    Completes (.rem d a b false) s (s.putS d (BitVec.ofInt 64 ((s.rdS a).toInt.tmod (s.rdS b).toInt)) 24)) ∧
  (s.rdS a = BitVec.intMin 64 → s.rdS b = BitVec.allOnes 64 →
    Completes (.div d a b false) s (s.putS d (BitVec.intMin 64) 24) ∧ Completes (.rem d a b false) s (s.putS d 0 24))

/-- The immediate, extension, bit-count and bit-field forms of R209, R211 and R212. The count forms are stated by what the count means:
the position of the highest and of the lowest one bit, and the number of one bits, of the 64 or the low 32 bits. -/
def Statements.ScalarFields : Prop := ∀ (s : State) (d a : SReg) (v : Word64) (n : BitVec 6),
  Completes (.addi d a v) s (s.putS d (s.rdS a + v) 1) ∧
  Completes (.andi d a v) s (s.putS d (s.rdS a &&& v) 1) ∧
  Completes (.ori d a v) s (s.putS d (s.rdS a ||| v) 1) ∧
  Completes (.xori d a v) s (s.putS d (s.rdS a ^^^ v) 1) ∧
  Completes (.shli d a n) s (s.putS d (s.rdS a <<< n.toNat) 1) ∧
  Completes (.shri d a n) s (s.putS d (s.rdS a >>> n.toNat) 1) ∧
  Completes (.sari d a n) s (s.putS d ((s.rdS a).sshiftRight n.toNat) 1) ∧
  Completes (.movi d v) s (s.putS d v 1) ∧
  Completes (.sext d a 0) s (s.putS d (((s.rdS a).setWidth 8).signExtend 64) 1) ∧
  Completes (.sext d a 1) s (s.putS d (((s.rdS a).setWidth 16).signExtend 64) 1) ∧
  Completes (.sext d a 2) s (s.putS d (((s.rdS a).setWidth 32).signExtend 64) 1) ∧
  Completes (.zext d a 0) s (s.putS d (((s.rdS a).setWidth 8).setWidth 64) 1) ∧
  Completes (.zext d a 1) s (s.putS d (((s.rdS a).setWidth 16).setWidth 64) 1) ∧
  Completes (.zext d a 2) s (s.putS d (((s.rdS a).setWidth 32).setWidth 64) 1) ∧
  (∀ w : Bool, ∃ c e o : Nat,
    Completes (.clz d a w) s (s.putS d (BitVec.ofNat 64 c) 1) ∧
    Completes (.ctz d a w) s (s.putS d (BitVec.ofNat 64 e) 1) ∧
    Completes (.popc d a w) s (s.putS d (BitVec.ofNat 64 o) 1) ∧
    (let width := if w then 32 else 64
     let x := (s.rdS a).toNat % 2 ^ width
     c ≤ width ∧ x < 2 ^ (width - c) ∧ (c < width → 2 ^ (width - c - 1) ≤ x) ∧
     e ≤ width ∧ x % 2 ^ e = 0 ∧ (e < width → x / 2 ^ e % 2 = 1) ∧
     o = ((List.range width).filter fun k => x.testBit k).length)) ∧
  (∀ (u : Bool) (w p : BitVec 6), w.toNat + p.toNat + 1 ≤ 64 →
    (let f := (s.rdS a).toNat / 2 ^ p.toNat % 2 ^ (w.toNat + 1)
     Completes (.bfx d a u w p) s (s.putS d (if u then BitVec.ofNat 64 f else (BitVec.ofNat (w.toNat + 1) f).signExtend 64) 1)) ∧
    ∃ r : Word64, Completes (.bfi d a w p) s (s.putS d r 1) ∧
      ∀ k < 64, r.getLsbD k =
        if p.toNat ≤ k ∧ k ≤ p.toNat + w.toNat then (s.rdS a).getLsbD (k - p.toNat) else (s.rdS d).getLsbD k)

/-- Compares, predicate logic and the select of R213 and R214: the condition codes 0 to 5, and that each predicate is exposed one issue
later. -/
def Statements.Predicates : Prop := ∀ (s : State) (d a b : PReg) (x y r : SReg) (v : Word64),
  (∀ (cc : BitVec 3) (c : Word64 → Word64 → Bool),
    (cc, c) ∈ [((0 : BitVec 3), fun p q : Word64 => decide (p = q)), (1, fun p q => decide (p ≠ q)), (2, fun p q => decide (p.toInt < q.toInt)),
      (3, fun p q => decide (p.toInt ≤ q.toInt)), (4, fun p q => decide (p.toNat < q.toNat)), (5, fun p q => decide (p.toNat ≤ q.toNat))] →
    Completes (.cmp d x y cc) s (s.putP d (c (s.rdS x) (s.rdS y)) 1) ∧
    Completes (.cmpi d x cc v) s (s.putP d (c (s.rdS x) v) 1)) ∧
  Completes (.pand d a b) s (s.putP d (s.rdP a && s.rdP b) 1) ∧
  Completes (.por d a b) s (s.putP d (s.rdP a || s.rdP b) 1) ∧
  Completes (.pxor d a b) s (s.putP d (xor (s.rdP a) (s.rdP b)) 1) ∧
  Completes (.pandn d a b) s (s.putP d (s.rdP a && !s.rdP b) 1) ∧
  Completes (.sel r x y a) s (s.putS r (if s.rdP a then s.rdS x else s.rdS y) 1)

/-! ### Vector instructions -/

/-- The integer lane arithmetic of R217 and R218 on sources that carry the element format or 0x00, with agreeing scales: exact results
wrapped, or clamped with clamp-hit; the high half of VMUL.H; and the descriptor of whichever source carries a format. -/
def Obligations.VectorIntegerArithmetic : Prop := ∀ (s : State) (d a b : VRegNo) (m : MReg) (sz : BitVec 2),
  let w := sizeBits sz
  let x := s.rdV a
  let y := s.rdV b
  Carries x (intCode w) → Carries y (intCode w) → ScalesAgree x y →
  let si (n : Nat) : Int := (BitVec.ofNat w n).toInt
  let wrap (v : Int) : Nat × BitVec 6 := ((v % 2 ^ w).toNat, 0)
  let clamp (lo hi v : Int) : Nat × BitVec 6 :=
    if v < lo then ((lo % 2 ^ w).toNat, 0x20) else if hi < v then ((hi % 2 ^ w).toNat, 0x20) else wrap v
  let signed := clamp (-(2 ^ (w - 1))) (2 ^ (w - 1) - 1)
  let unsigned := clamp 0 (2 ^ w - 1)
  let go (f : Nat → Nat → Nat × BitVec 6) : State :=
    s.putLanes d (s.rdM m) w (intResult w x y) 2 fun k => f (laneOf w x.data k) (laneOf w y.data k)
  Completes (.vadd d a b m sz false false) s (go fun p q => wrap (si p + si q)) ∧
  Completes (.vadd d a b m sz true false) s (go fun p q => signed (si p + si q)) ∧
  Completes (.vadd d a b m sz true true) s (go fun p q => unsigned (p + q)) ∧
  Completes (.vsub d a b m sz false false) s (go fun p q => wrap (si p - si q)) ∧
  Completes (.vsub d a b m sz true false) s (go fun p q => signed (si p - si q)) ∧
  Completes (.vsub d a b m sz true true) s (go fun p q => unsigned ((p : Int) - q)) ∧
  Completes (.vmul d a b m sz false false false) s (go fun p q => wrap (si p * si q)) ∧
  Completes (.vmul d a b m sz true false false) s (go fun p q => signed (si p * si q)) ∧
  Completes (.vmul d a b m sz true true false) s (go fun p q => unsigned (p * q)) ∧
  Completes (.vmul d a b m sz false false true) s (go fun p q => wrap (si p * si q / 2 ^ w)) ∧
  Completes (.vmul d a b m sz false true true) s (go fun p q => wrap ((p : Int) * q / 2 ^ w)) ∧
  Completes (.vmin d a b m sz false) s (go fun p q => (if si q < si p then q else p, 0)) ∧
  Completes (.vmin d a b m sz true) s (go fun p q => (min p q, 0)) ∧
  Completes (.vmax d a b m sz false) s (go fun p q => (if si p < si q then q else p, 0)) ∧
  Completes (.vmax d a b m sz true) s (go fun p q => (max p q, 0))

/-- Bitwise lanes, shifts and moves of R217, R218 and R220: bitwise forms and moves take any descriptor but 0xFF, shifts the element format
or 0x00, and the result takes va's descriptor. -/
def Obligations.VectorBitsAndMoves : Prop := ∀ (s : State) (d a b : VRegNo) (m : MReg) (sz : BitVec 2),
  let w := sizeBits sz
  let x := s.rdV a
  let y := s.rdV b
  isPoison x.desc = false → isPoison y.desc = false →
  let go (lat : Nat) (f : Nat → Nat) : State := s.putLanes d (s.rdM m) w x.desc lat fun k => (f k, 0)
  let p := laneOf w x.data
  let q := laneOf w y.data
  Completes (.vand d a b m sz) s (go 2 fun k => p k &&& q k) ∧
  Completes (.vor d a b m sz) s (go 2 fun k => p k ||| q k) ∧
  Completes (.vxor d a b m sz) s (go 2 fun k => p k ^^^ q k) ∧
  (Carries x (intCode w) → Carries y (intCode w) →
    Completes (.vshl d a b m sz) s (go 2 fun k => if w ≤ q k then 0 else p k * 2 ^ q k % 2 ^ w) ∧
    Completes (.vshr d a b m sz) s (go 2 fun k => if w ≤ q k then 0 else p k / 2 ^ q k) ∧
    Completes (.vsar d a b m sz) s (go 2 fun k => (((BitVec.ofNat w (p k)).toInt / 2 ^ (min (q k) w)) % 2 ^ w).toNat)) ∧
  Completes (.vmov d a m sz) s (go 2 p) ∧
  Completes (.vperm d a b m sz) s (go 3 fun k => if q k < 512 / w then p (q k) else 0) ∧
  (x.desc = y.desc ∨ x.desc = 0 ∨ y.desc = 0 →
    Completes (.vsel d a b m sz) s (s.putV d
      ⟨ofLanes w ((List.range (512 / w)).map fun k => if (s.rdM m).getLsbD k then p k else q k), if x.desc = 0 then y.desc else x.desc⟩ 2))

/-- Compares to a mask (R213, R219): bits of lanes that the write mask leaves out, and bits above the lane count, are 0. -/
def Statements.VectorCompares : Prop := ∀ (s : State) (d : MReg) (a b : VRegNo) (m : MReg) (sz : BitVec 2),
  let w := sizeBits sz
  let x := s.rdV a
  let y := s.rdV b
  Carries x (intCode w) → Carries y (intCode w) → ScalesAgree x y →
  let si (n : Nat) : Int := (BitVec.ofNat w n).toInt
  ∀ (cc : BitVec 3) (c : Nat → Nat → Bool),
    (cc, c) ∈ [((0 : BitVec 3), fun p q : Nat => decide (p = q)), (1, fun p q => decide (p ≠ q)), (2, fun p q => decide (si p < si q)),
      (3, fun p q => decide (si p ≤ si q)), (4, fun p q => decide (p < q)), (5, fun p q => decide (p ≤ q))] →
    ∃ r : Word64, Completes (.vcmp d a b m sz cc) s (s.putM d r 2) ∧
      ∀ k < 64, r.getLsbD k = (decide (k < 512 / w) && (s.rdM m).getLsbD k && c (laneOf w x.data k) (laneOf w y.data k))

/-- Scalars, lanes and descriptors (R221 to R223). That the next issue sees kstat.POISON after VEXT of a poisoned source is the model's choice (log
entry 126: R216 gives no time). -/
def Obligations.VectorScalarsAndDescriptors : Prop := ∀ (s : State) (d a b : VRegNo) (r : SReg) (lane : BitVec 6) (sz : BitVec 2),
  let w := sizeBits sz
  let x := s.rdV a
  let old := s.rdV d
  Completes (.vbcast d r sz 0) s (s.putV d ⟨ofLanes w (List.replicate (512 / w) (s.rdS r).toNat), 0⟩ 2) ∧
  (∀ fmt : BitVec 5, 1 ≤ fmt.toNat → fmt.toNat ≤ 10 →
    let w := codeBits fmt.toNat
    Completes (.vbcast d r 0 fmt) s (s.putV d ⟨ofLanes w (List.replicate (512 / w) (s.rdS r).toNat), fmt.setWidth 16⟩ 2)) ∧
  (isPoison old.desc = false → lane.toNat < 512 / w → ∃ v : Block,
    Completes (.vins d r lane sz) s (s.putV d ⟨v, old.desc⟩ 2) ∧
    ∀ k < 512 / w, laneOf w v k = if k = lane.toNat then (s.rdS r).toNat % 2 ^ w else laneOf w old.data k) ∧
  (isPoison x.desc = false →
    Completes (.vext r a lane sz false) s (s.putS r (BitVec.ofNat 64 (laneOf w x.data lane.toNat)) 2) ∧
    Completes (.vext r a lane sz true) s (s.putS r ((BitVec.ofNat w (laneOf w x.data lane.toNat)).signExtend 64) 2)) ∧
  (isPoison x.desc = true → ∀ sx,
    Completes (.vext r a lane sz sx) s ((s.putS r 0 2).putStat (BitVec.ofNat 64 (2 ^ 7)))) ∧
  (descFmt (s.rdV b).desc ≤ 0x0D → Completes (.vdescCopy d a b) s (s.putV d ⟨x.data, (s.rdV b).desc⟩ 2)) ∧
  (descFmt ((s.rdV b).data.setWidth 16) ≤ 0x0D →
    Completes (.vdescSet d a b) s (s.putV d ⟨x.data, (s.rdV b).data.setWidth 16⟩ 2)) ∧
  Completes (.vdescGet d a) s (s.putV d ⟨x.desc.setWidth 512, 0⟩ 2)

/-- Packing and unpacking (R224, R225): lane k of each result, in wrapped and in saturated form, and the TERN2 forms with their clamp flag and their
count of codes 0b10. That kstat.TERNBAD shows at the next issue is the model's choice (log entry 126). -/
def Obligations.VectorPacking : Prop := ∀ (s : State) (d a b : VRegNo),
  let x := s.rdV a
  let y := s.rdV b
  let old := s.rdV d
  let si (w n : Nat) : Int := (BitVec.ofNat w n).toInt
  let scale := if descFmt x.desc ≠ 0 then descScale x.desc else if descFmt y.desc ≠ 0 then descScale y.desc else 0
  let src (w k : Nat) : Int := si w (if k < 512 / w then laneOf w x.data k else laneOf w y.data (k - 512 / w))
  (∀ (w : Nat) (f : Bool → Instr),
    (w, f) ∈ [(8, Instr.vpackH2b d a b), (16, Instr.vpackW2h d a b), (32, Instr.vpackD2w d a b)] →
    Carries x (intCode (2 * w)) → Carries y (intCode (2 * w)) → ScalesAgree x y →
    let lo : Int := -(2 ^ (w - 1))
    let hi : Int := 2 ^ (w - 1) - 1
    ∃ u v : Block,
      Completes (f false) s (s.putV d ⟨u, mkDesc (intCode w) scale⟩ 2) ∧
      (∀ k < 512 / w, laneOf w u k = (src (2 * w) k % 2 ^ w).toNat) ∧
      Completes (f true) s ((s.putV d ⟨v, mkDesc (intCode w) scale⟩ 2).putFlags
        (if (List.range (512 / w)).any fun k => decide (src (2 * w) k < lo ∨ hi < src (2 * w) k) then 0x20 else 0) 2) ∧
      (∀ k < 512 / w, laneOf w v k = (max lo (min hi (src (2 * w) k)) % 2 ^ w).toNat)) ∧
  (∀ (w : Nat) (f : Bool → Bool → Instr),
    (w, f) ∈ [(8, Instr.vunpackB2h d a), (16, Instr.vunpackH2w d a), (32, Instr.vunpackW2d d a)] →
    Carries x (intCode w) →
    ∀ part u : Bool, ∃ v : Block,
      Completes (f part u) s (s.putV d ⟨v, mkDesc (intCode (2 * w)) (if descFmt x.desc ≠ 0 then descScale x.desc else 0)⟩ 2) ∧
      ∀ k < 256 / w,
        let e := laneOf w x.data (k + if part then 256 / w else 0)
        laneOf (2 * w) v k = ((if u then (e : Int) else si w e) % 2 ^ (2 * w)).toNat) ∧
  (Carries x 7 → Carries y 7 → ScalesAgree x y → isPoison old.desc = false → ∀ half : Bool, ∃ v : Block,
    Completes (.vpackT2 d a b half) s ((s.putV d ⟨v, mkDesc 0x0B scale⟩ 2).putFlags
      (if (List.range 128).any fun k => decide (src 8 k < -1 ∨ 1 < src 8 k) then 0x20 else 0) 2) ∧
    ∀ k < 256, laneOf 2 v k =
      if half = decide (128 ≤ k) then
        (let e := src 8 (k % 128); if e = 0 then 0 else if 0 < e then 1 else 3)
      else laneOf 2 old.data k) ∧
  (Carries x 0x0B → ∀ part : BitVec 2, ∃ v : Block,
    Completes (.vunpackT2 d a part) s
      ((s.putV d ⟨v, mkDesc 7 (if descFmt x.desc ≠ 0 then descScale x.desc else 0)⟩ 2).putTernbad
        ((List.range 64).filter fun k => laneOf 2 x.data (64 * part.toNat + k) == 2).length 1) ∧
    ∀ k < 64, laneOf 8 v k =
      match laneOf 2 x.data (64 * part.toNat + k) with | 1 => 1 | 3 => 255 | _ => 0)

/-- Lane masks (R226). That the next issue sees kstat.POISON after MLOG.FROMV of a poisoned source is the model's choice (log entry 126: R216 gives
no time). -/
def Statements.LaneMasks : Prop := ∀ (s : State) (d a b : MReg) (v : VRegNo),
  Completes (.mlogAnd d a b) s (s.putM d (s.rdM a &&& s.rdM b) 2) ∧
  Completes (.mlogOr d a b) s (s.putM d (s.rdM a ||| s.rdM b) 2) ∧
  Completes (.mlogXor d a b) s (s.putM d (s.rdM a ^^^ s.rdM b) 2) ∧
  Completes (.mlogAndn d a b) s (s.putM d (s.rdM a &&& ~~~s.rdM b) 2) ∧
  Completes (.mlogNot d a) s (s.putM d (~~~s.rdM a) 2) ∧
  Completes (.mlogTov v a) s (s.putV v ⟨(s.rdM a).setWidth 512, 0⟩ 2) ∧
  (isPoison (s.rdV v).desc = false → Completes (.mlogFromv d v) s (s.putM d ((s.rdV v).data.setWidth 64) 2)) ∧
  (isPoison (s.rdV v).desc = true → Completes (.mlogFromv d v) s ((s.putM d 0 2).putStat (BitVec.ofNat 64 (2 ^ 7)))) ∧
  ∃ r : Word64, Completes (.mlogIso d a) s (s.putM d r 2) ∧
    ∀ k < 64, r.getLsbD k = ((s.rdM a).getLsbD k && (List.range k).all fun j => !(s.rdM a).getLsbD j)

/-- Floating-point arithmetic on sources that carry the format or the descriptor 0x0000 (R237 to R239): the exact operation on the scaled values,
rounded once into the format with scale 0, at the latency of R238. -/
def Obligations.FloatArithmetic : Prop := ∀ (s : State) (d a b : VRegNo) (m : MReg) (rm : BitVec 3) (cl : Bool) (fmt : BitVec 2),
  let c := fmtCode fmt
  let x := laneNum c (s.rdV a)
  let y := laneNum c (s.rdV b)
  let z := laneNum c (s.rdV d)
  let go (lat : Nat) (f : Nat → Nat × BitVec 6) : State := s.putLanes d (s.rdM m) (codeBits c) (mkDesc c 0) lat f
  let round (r : Machine.Num × BitVec 6) : Nat × BitVec 6 :=
    ((roundF (fmtOf fmt) rm.toNat cl r.1).1, r.2 ||| (roundF (fmtOf fmt) rm.toNat cl r.1).2)
  let pick (r : Machine.Num × BitVec 6) : Nat × BitVec 6 := ((roundF (fmtOf fmt) 0 false r.1).1, r.2 &&& 1)
  let lat := if fmt = 0 then 6 else 4
  let slow := if fmt = 0 then 20 else 12
  CarriesFloat (s.rdV a) c →
  Completes (.vfsqrt d a m rm cl fmt) s (go slow fun k => round (fSqrt (x k))) ∧
  Completes (.vfrint d a m rm fmt) s (go 4 fun k =>
    ((roundF (fmtOf fmt) rm.toNat false (fRint rm.toNat (x k)).1).1,
      ((fRint rm.toNat (x k)).2 ||| (roundF (fmtOf fmt) rm.toNat false (fRint rm.toNat (x k)).1).2) &&& 0x11)) ∧
  Completes (.vfclass d a m fmt) s (s.putLanes d (s.rdM m) (codeBits c) (mkDesc (intCode (codeBits c)) 0) 2 fun k =>
    (2 ^ classOf (fmtOf fmt) (laneOf (codeBits c) (s.rdV a).data k), 0)) ∧
  (CarriesFloat (s.rdV b) c →
    Completes (.vfadd d a b m rm cl fmt) s (go lat fun k => round (fAdd rm.toNat (x k) (y k))) ∧
    Completes (.vfsub d a b m rm cl fmt) s (go lat fun k => round (fAdd rm.toNat (x k) (y k).negate)) ∧
    Completes (.vfmul d a b m rm cl fmt) s (go lat fun k => round (fMul (x k) (y k))) ∧
    Completes (.vfdiv d a b m rm cl fmt) s (go slow fun k => round (fDiv (x k) (y k))) ∧
    Completes (.vfmin d a b m fmt) s (go 2 fun k => pick (fMin (x k) (y k))) ∧
    Completes (.vfmax d a b m fmt) s (go 2 fun k => pick (fMax (x k) (y k))) ∧
    (CarriesFloat (s.rdV d) c →
      Completes (.vfma d a b m rm cl fmt) s (go lat fun k => round (fFma rm.toNat (x k) (y k) (z k))) ∧
      Completes (.vfms d a b m rm cl fmt) s (go lat fun k => round (fFma rm.toNat (x k) (y k) (z k).negate)) ∧
      Completes (.vfnma d a b m rm cl fmt) s (go lat fun k => round (fFma rm.toNat (x k).negate (y k) (z k)))))

/-- Signs, compares and conversions (R242, R243, R245, R246). -/
def Statements.FloatSignsAndConversions : Prop := ∀ (s : State) (d a b : VRegNo) (q m : MReg) (fmt : BitVec 2),
  let c := fmtCode fmt
  let w := codeBits c
  let x := s.rdV a
  let y := s.rdV b
  CarriesFloat x c → CarriesFloat y c →
  (let go (f : Bool → Bool → Bool) : State :=
    s.putLanes d (s.rdM m) w (if x.desc = 0 then mkDesc c 0 else x.desc) 2 fun k =>
      (laneOf w x.data k % 2 ^ (w - 1) +
        if f ((laneOf w x.data k).testBit (w - 1)) ((laneOf w y.data k).testBit (w - 1)) then 2 ^ (w - 1) else 0, 0)
   Completes (.vfsgnCopy d a b m fmt) s (go fun _ t => t) ∧
   Completes (.vfsgnNeg d a b m fmt) s (go fun _ t => !t) ∧
   Completes (.vfsgnXor d a b m fmt) s (go fun u t => xor u t)) ∧
  (∀ (cc : BitVec 3) (sg : Bool), cc.toNat ≤ 4 → ∃ (r : Word64) (fl : BitVec 6),
    Completes (.vfcmp q a b m cc sg fmt) s ((s.putM q r 2).putFlags fl 2) ∧
    (∀ k < 64, r.getLsbD k = (decide (k < 512 / w) && (s.rdM m).getLsbD k && floatCond cc (laneNum c x k) (laneNum c y k))) ∧
    (fl = 0 ∨ fl = 1) ∧
    (fl = 1 ↔ ∃ k < 512 / w, (s.rdM m).getLsbD k = true ∧
      let u := laneNum c x k
      let t := laneNum c y k
      (u.isSignalling = true ∨ t.isSignalling = true ∨ (sg = true ∧ (u.isNan = true ∨ t.isNan = true)))))

/-- VFCVT (R245, R246): the part of the block that a conversion between element widths reads or writes, and each lane converted once. -/
def Statements.FloatConversion : Prop := ∀ (s : State) (d a : VRegNo) (cl : Bool) (src : BitVec 4) (rm part : BitVec 3) (dst : BitVec 5),
  Instr.WF (.vfcvt d a cl src rm part dst) →
  let x := s.rdV a
  let ws := codeBits src.toNat
  let wd := codeBits dst.toNat
  let n := 512 / max ws wd
  (if 1 ≤ src.toNat ∧ src.toNat ≤ 6 then CarriesFloat x src.toNat else Carries x src.toNat) → (wd < ws → isPoison (s.rdV d).desc = false) →
  ∃ v : Block,
    Completes (.vfcvt d a cl src rm part dst) s ((s.putV d ⟨v, mkDesc dst.toNat 0⟩ 4).putFlags
      (((List.range n).map fun j =>
        (convert src.toNat dst.toNat rm.toNat cl (laneNum src.toNat x ((if wd < ws then 0 else part.toNat * n) + j))).2).foldl (· ||| ·) 0) 4) ∧
    ∀ k < 512 / wd, laneOf wd v k =
      let first := if wd < ws then part.toNat * n else 0
      if first ≤ k ∧ k < first + n then
        (convert src.toNat dst.toNat rm.toNat cl (laneNum src.toNat x ((if wd < ws then 0 else part.toNat * n) + (k - first)))).1 % 2 ^ wd
      else laneOf wd (s.rdV d).data k

/-- Scales, reductions and exact sums (R247 to R250). The scale that VSCALE.FIT writes is the least t with every finite magnitude that the mask
names at most G * 2^t, 0 where none is above zero, and the nearer limit, with the clamp-hit flag, where it lies outside a byte. -/
def Obligations.ScalesReductionsExactSums : Prop := ∀ (s : State) (d a b : VRegNo) (m : MReg) (rm : BitVec 3) (cl t : Bool) (fmt : BitVec 2),
  let x := s.rdV a
  let y := s.rdV b
  let f := descFmt x.desc
  let k := descScale x.desc + (BitVec.ofNat 8 (laneOf 8 y.data 0)).toInt
  (1 ≤ f → f ≤ 0x0B → isPoison y.desc = false → -128 ≤ k → k ≤ 127 →
    Completes (.vscaleRel d a b) s (s.putV d ⟨x.data, mkDesc f k⟩ 2)) ∧
  (1 ≤ f → f ≤ 6 → ∀ g : BitVec 5, ∃ (v : Int) (fl : BitVec 6), -128 ≤ v ∧ v ≤ 127 ∧ (fl = 0 ∨ fl = 0x20) ∧
    Completes (.vscaleFit d a m g) s ((s.putV d ⟨(BitVec.ofInt 8 v).setWidth 512, mkDesc 7 0⟩ 2).putFlags fl 2)) ∧
  (1 ≤ f → f ≤ 6 → ∀ (g : BitVec 5) (h : FFmt) (mg : Nat) (eg : Int), fmtOfCode g.toNat = some h →
    decodeF h (packF h false h.maxBits) = .fin false mg eg →
    let mags := ((List.range (512 / codeBits f)).filter fun j => (s.rdM m).getLsbD j).filterMap fun j => (laneNum f x j).magnitude
    let fitted (t : Int) : Prop := Completes (.vscaleFit d a m g) s
      ((s.putV d ⟨(BitVec.ofInt 8 (max (-128) (min 127 t))).setWidth 512, mkDesc 7 0⟩ 2).putFlags
        (if t < -128 ∨ 127 < t then 0x20 else 0) 2)
    (mags = [] → fitted 0) ∧
    (∀ t : Int, (∀ q ∈ mags, (q.1 : ℚ) * 2 ^ q.2 ≤ mg * 2 ^ (eg + t)) → (∃ q ∈ mags, (mg : ℚ) * 2 ^ (eg + t - 1) < q.1 * 2 ^ q.2) →
      fitted t)) ∧
  (CarriesFloat x (fmtCode fmt) → ∀ (op : RedOp) (i : Instr),
    (op, i) ∈ [(.add, Instr.vredAdd d a m rm t fmt), (.min, .vredMin d a m rm t fmt), (.max, .vredMax d a m rm t fmt)] →
    let all := (List.range (512 / codeBits (fmtCode fmt))).map fun j =>
      if (s.rdM m).getLsbD j then some (laneNum (fmtCode fmt) x j) else none
    let r := if t then redTree op (fmtOf fmt) rm.toNat 5 all else redSeq op (fmtOf fmt) rm.toNat (all.filterMap id)
    let z := roundF (fmtOf fmt) (if op = .add then rm.toNat else 0) false r.1
    Completes i s ((s.putV d ⟨BitVec.ofNat 512 z.1, mkDesc (fmtCode fmt) 0⟩ 8).putFlags
      (if op = .add then r.2 ||| z.2 else (r.2 ||| z.2) &&& 1) 8)) ∧
  (x.desc = 0 ∨ x.desc = 2 →
    let all := ((List.range 16).filter fun j => (s.rdM m).getLsbD j).map (laneNum 2 x)
    let n := (all.map fixedOf).sum
    let out (l : List Int) : State := s.putV d ⟨ofLanes 64 (l.map fun e => (e % 2 ^ 64).toNat), 0x0A⟩ 4
    Completes (.vfxsSplitLo d a m) s (out ((List.range 8).map fun i => n.sign * (n.natAbs / 2 ^ (32 * i) % 2 ^ 32 : Nat))) ∧
    Completes (.vfxsSplitHi d a m) s (out [n.sign * (n.natAbs / 2 ^ 256 % 2 ^ 32 : Nat), (all.filter (· == .inf false)).length,
      (all.filter (· == .inf true)).length, (all.filter Machine.Num.isNan).length, 0, 0, 0, 0])) ∧
  (joinable x.desc = true → joinable y.desc = true →
    let r := joinSum x y rm.toNat
    let z := roundF fp32 rm.toNat cl r.1
    Completes (.vfxsJoin d a b rm cl) s ((s.putV d ⟨BitVec.ofNat 512 z.1, 2⟩ 6).putFlags (r.2 ||| z.2) 6))

/-- The extreme of the lanes that a mask names, the scale that fits them into a format, and the high limbs of their exact sum complete for every
source that R247, R248 and R250 admit, a poisoned one among them (R216): VRED.MIN and VRED.MAX, whose value is the least or the greatest of the
lanes and is rounded under RNE whatever RM is, VSCALE.FIT and VFXS.SPLIT.HI. What a reduction of one lane does is the model's choice (log
entry 80). -/
def Obligations.ExtremesFitAndHighLimbs : Prop := ∀ (s : State) (d a : VRegNo) (m : MReg) (rm : BitVec 3) (t : Bool) (fmt : BitVec 2)
    (g : BitVec 5),
  let x := s.rdV a
  let c := fmtCode fmt
  let lanes := (List.range (512 / codeBits c)).map fun k => if (s.rdM m).getLsbD k then some (laneNum c x k) else none
  let out (r : Machine.Num × BitVec 6) : State :=
    (s.putV d ⟨BitVec.ofNat 512 (roundF (fmtOf fmt) 0 false r.1).1, mkDesc c 0⟩ 8).putFlags
      ((r.2 ||| (roundF (fmtOf fmt) 0 false r.1).2) &&& 1) 8
  let reduced (op : RedOp) := if t then redTree op (fmtOf fmt) rm.toNat 5 lanes else redSeq op (fmtOf fmt) rm.toNat (lanes.filterMap id)
  let sums := ((List.range 16).filter fun j => (s.rdM m).getLsbD j).map (laneNum 2 x)
  let n := (sums.map fixedOf).sum
  (CarriesFloat x c → Completes (.vredMin d a m rm t fmt) s (out (reduced .min))) ∧
  (CarriesFloat x c → Completes (.vredMax d a m rm t fmt) s (out (reduced .max))) ∧
  (1 ≤ descFmt x.desc → descFmt x.desc ≤ 6 → ∃ (v : Int) (fl : BitVec 6), -128 ≤ v ∧ v ≤ 127 ∧ (fl = 0 ∨ fl = 0x20) ∧
    Completes (.vscaleFit d a m g) s ((s.putV d ⟨(BitVec.ofInt 8 v).setWidth 512, mkDesc 7 0⟩ 2).putFlags fl 2) ∧
    ((∀ k < 512 / codeBits (descFmt x.desc), (s.rdM m).getLsbD k = true → ∀ sg mg e, laneNum (descFmt x.desc) x k = .fin sg mg e → mg = 0) →
      v = 0 ∧ fl = 0)) ∧
  (x.desc = 0 ∨ x.desc = 2 → Completes (.vfxsSplitHi d a m) s
    (s.putV d ⟨ofLanes 64 (([n.sign * (n.natAbs / 2 ^ 256 % 2 ^ 32 : Nat), (sums.filter (· == .inf false)).length,
      (sums.filter (· == .inf true)).length, (sums.filter Machine.Num.isNan).length, 0, 0, 0, 0] : List Int).map fun e => (e % 2 ^ 64).toNat),
      0x0A⟩ 4)) ∧
  (isPoison x.desc = true →
    Completes (.vredMin d a m rm t fmt) s (s.putV d ⟨0, 0x00FF⟩ 8) ∧ Completes (.vredMax d a m rm t fmt) s (s.putV d ⟨0, 0x00FF⟩ 8) ∧
    Completes (.vscaleFit d a m g) s (s.putV d ⟨0, 0x00FF⟩ 2) ∧ Completes (.vfxsSplitHi d a m) s (s.putV d ⟨0, 0x00FF⟩ 4))

/-- Function instructions (R238, R240): 16 issues of latency; NaNs, and zeros, infinities, one and negative arguments as the table of R240 has
them. What an FP64 or FP32 lane holds within its bound is a free value
(log entry 17), and no clause rests on it. -/
def Obligations.FunctionInstructions : Prop := ∀ (s : State) (d a : VRegNo) (m : MReg) (cl : Bool) (fmt : BitVec 2),
  let c := fmtCode fmt
  let w := codeBits c
  let x := laneNum c (s.rdV a)
  let f := fmtOf fmt
  CarriesFloat (s.rdV a) c →
  ∀ (g : Fn) (i : Instr),
    (g, i) ∈ [(.exp, Instr.vfexp d a m cl fmt), (.exp2, .vfexp2 d a m cl fmt), (.log, .vflog d a m cl fmt), (.log2, .vflog2 d a m cl fmt),
      (.sin, .vfsin d a m cl fmt), (.cos, .vfcos d a m cl fmt), (.tanh, .vftanh d a m cl fmt), (.rcp, .vfrcp d a m cl fmt),
      (.rsq, .vfrsq d a m cl fmt)] →
    ∃ r : Nat → Nat × BitVec 6,
      Completes i s (s.putLanes d (s.rdM m) w (mkDesc c 0) 16 r) ∧
      (∀ k sg p q, x k = .nan sg p q → decodeF f (r k).1 = .nan sg (p / 2 ^ (52 - f.fbits) * 2 ^ (52 - f.fbits)) true ∧
        (r k).2 = if q then 0 else 1) ∧
      (∀ k sg e, x k = .fin sg 0 e →
        match g with
        | .exp | .exp2 | .cos => (r k) = (f.bias * 2 ^ f.fbits, 0)
        | .log | .log2 => (r k) = (packF f true f.infBits, 2)
        | .sin | .tanh => (r k) = (packF f sg 0, 0)
        | .rcp | .rsq => (r k) = (packF f sg f.infBits, 2)) ∧
      (∀ k sg, x k = .inf sg →
        match g with
        | .exp | .exp2 => (r k) = (packF f false (if sg then 0 else f.infBits), 0)
        | .log | .log2 => (r k) = if sg then (packF f false (f.nanBits 0), 1) else (packF f false f.infBits, 0)
        | .sin | .cos => (r k) = (packF f false (f.nanBits 0), 1)
        | .tanh => (r k) = (packF f sg (f.bias * 2 ^ f.fbits), 0)
        | .rcp => (r k) = (packF f sg 0, 0)
        | .rsq => (r k) = if sg then (packF f false (f.nanBits 0), 1) else (packF f false 0, 0)) ∧
      (∀ (k n : Nat), x k = .fin false (2 ^ n) (-(n : Int)) → (g = .log ∨ g = .log2) → (r k) = (packF f false 0, 0)) ∧
      (∀ k e mg, mg ≠ 0 → x k = .fin true mg e → (g = .log ∨ g = .log2 ∨ g = .rsq) → (r k) = (packF f false (f.nanBits 0), 1))

/-- R216: an instruction with a poisoned source delivers a poisoned register at its latency, and neither faults nor raises a flag: whichever source
it is, va, vb, or an old destination that the instruction reads. That kstat.POISON shows at the next issue is the model's choice (log entry 126). -/
def Obligations.PoisonedSources : Prop := ∀ (s : State) (d a b : VRegNo) (m : MReg) (sz : BitVec 2) (fmt : BitVec 2) (rm : BitVec 3) (cl f g : Bool),
  let gives (i : Instr) (lat : Nat) : Prop := Completes i s (s.putV d ⟨0, 0x00FF⟩ lat)
  let fused := if fmt = 0 then 6 else 4
  let slow := if fmt = 0 then 20 else 12
  (isPoison (s.rdV a).desc = true →
    (∀ (i : Instr) (lat : Nat), (i, lat) ∈
      [(Instr.vmov d a m sz, 2), (.vunpackB2h d a f g, 2), (.vunpackH2w d a f g, 2), (.vunpackW2d d a f g, 2), (.vunpackT2 d a sz, 2),
       (.vfsqrt d a m rm cl fmt, slow), (.vfrint d a m rm fmt, 4), (.vfclass d a m fmt, 2),
       (.vfexp d a m cl fmt, 16), (.vfexp2 d a m cl fmt, 16), (.vflog d a m cl fmt, 16), (.vflog2 d a m cl fmt, 16), (.vfsin d a m cl fmt, 16),
       (.vfcos d a m cl fmt, 16), (.vftanh d a m cl fmt, 16), (.vfrcp d a m cl fmt, 16), (.vfrsq d a m cl fmt, 16),
       (.vredAdd d a m rm f fmt, 8), (.vredMin d a m rm f fmt, 8), (.vredMax d a m rm f fmt, 8), (.vfxsSplitLo d a m, 4), (.vfxsSplitHi d a m, 4)] →
      gives i lat)) ∧
  (isPoison (s.rdV a).desc = true ∨ isPoison (s.rdV b).desc = true →
    (∀ (i : Instr) (lat : Nat), (i, lat) ∈
      [(Instr.vadd d a b m sz f g, 2), (.vsub d a b m sz f g, 2), (.vmul d a b m sz f g cl, 2), (.vmin d a b m sz f, 2), (.vmax d a b m sz f, 2),
       (.vand d a b m sz, 2), (.vor d a b m sz, 2), (.vxor d a b m sz, 2), (.vshl d a b m sz, 2), (.vshr d a b m sz, 2), (.vsar d a b m sz, 2),
       (.vsel d a b m sz, 2), (.vperm d a b m sz, 3), (.vpackH2b d a b f, 2), (.vpackW2h d a b f, 2), (.vpackD2w d a b f, 2), (.vpackT2 d a b f, 2),
       (.vfadd d a b m rm cl fmt, fused), (.vfsub d a b m rm cl fmt, fused), (.vfmul d a b m rm cl fmt, fused), (.vfdiv d a b m rm cl fmt, slow),
       (.vfmin d a b m fmt, 2), (.vfmax d a b m fmt, 2), (.vfma d a b m rm cl fmt, fused), (.vfms d a b m rm cl fmt, fused),
       (.vfnma d a b m rm cl fmt, fused), (.vfsgnCopy d a b m fmt, 2), (.vfsgnNeg d a b m fmt, 2), (.vfsgnXor d a b m fmt, 2),
       (.vscaleRel d a b, 2), (.vfxsJoin d a b rm cl, 6)] →
      gives i lat) ∧
    (∀ (q : MReg) (cc : BitVec 3),
      Completes (.vcmp q a b m sz cc) s ((s.putM q 0 2).putStat (BitVec.ofNat 64 (2 ^ 7))) ∧
      Completes (.vfcmp q a b m cc f fmt) s ((s.putM q 0 2).putStat (BitVec.ofNat 64 (2 ^ 7))))) ∧
  (isPoison (s.rdV d).desc = true →
    gives (.vpackT2 d a b f) 2 ∧ gives (.vfma d a b m rm cl fmt) fused ∧ gives (.vfms d a b m rm cl fmt) fused ∧
    gives (.vfnma d a b m rm cl fmt) fused ∧ (∀ (r : SReg) (lane : BitVec 6), gives (.vins d r lane sz) 2) ∧
    (∀ (src : BitVec 4) (part : BitVec 3) (dst : BitVec 5), codeBits dst.toNat < codeBits src.toNat → gives (.vfcvt d a cl src rm part dst) 4)) ∧
  (isPoison (s.rdV a).desc = true → ∀ (src : BitVec 4) (part : BitVec 3) (dst : BitVec 5), gives (.vfcvt d a cl src rm part dst) 4)

/-- A finite element of every format is returned unchanged and without a flag by a rounding into its own format, in every mode, clamped or
not (R232, R239). -/
def Obligations.RoundingKeepsRepresentableValues : Prop := ∀ (f : FFmt), f ∈ [fp64, fp32, bf16, fp16, kf8a, kf8b] →
  ∀ (v rm : Nat) (cl : Bool), v < 2 ^ f.width → (∃ sg mg e, decodeF f v = .fin sg mg e) → roundF f rm cl (decodeF f v) = (v, 0)

/-! ### Control transfers, loops, system registers, contexts -/

/-- Branches and jumps (R293 to R295): the offset counts words from the header of the branch's bundle, a link register is written only when
the transfer is taken, and the S slot's sticky memory is empty afterwards. A jump to an address that is no multiple of 4 raises an
alignment fault. -/
def Obligations.ControlTransfers : Prop := ∀ (s : State) (p : PReg) (d a : AReg) (v : Word64) (neg : Bool),
  let go (t : Word64) : State := { s with iss := { s.iss with target := some t, empties := true, transferred := true } }
  let next := s.iss.next
  let near := s.iss.pc + 4 * v
  let far := s.rdA a + v
  (s.rdP p = !neg → Transfers (.br p neg v) s (go near) ∧ Transfers (.brl p neg v) s ((go near).putA 31 next 1)) ∧
  (s.rdP p = neg → Transfers (.br p neg v) s s ∧ Transfers (.brl p neg v) s s) ∧
  (far.toNat % 4 = 0 → Transfers (.jmp a v) s (go far) ∧ Transfers (.jmpl d a v) s ((go far).putA d next 1)) ∧
  (far.toNat % 4 ≠ 0 →
    Faults (.jmp a v) s cAlign far 4 0 ∧ Faults (.jmpl d a v) s cAlign far 4 0)

/-- Pipelined loops (R296 to R300): BLOOP by the values of LC and EC before it, the rotation of the files it enables, and p8 written under
the name after that rotation; ROTB; SETN. -/
def Statements.PipelinedLoops : Prop := ∀ (s : State) (en : BitVec 3) (v : Word64) (r : SReg) (imm : BitVec 14) (dst : BitVec 3),
  let k := s.cur.k
  let back (t : State) : State :=
    { t with iss := { t.iss with target := some (s.iss.pc + 4 * v), empties := false, transferred := true } }
  let turn (t : State) (rs rp rv : Nat) : State :=
    let t := if en.getLsbD 0 then t.putK .rs (BitVec.ofNat 64 rs) else t
    let t := if en.getLsbD 1 then t.putK .rp (BitVec.ofNat 64 rp) else t
    if en.getLsbD 2 then t.putK .rv (BitVec.ofNat 64 rv) else t
  let rotated (t : State) : State := turn t ((k.rs + 15) % 16) ((k.rp + 7) % 8) ((k.rv + 7) % 8)
  let stage (b : Bool) (t : State) : State := t.emit (.p (8 + if en.getLsbD 1 then (k.rp + 7) % 8 else k.rp) b) 1
  (k.rp < 8 → k.lc ≠ 0 →
    Transfers (.bloop en v) s (back (stage true (rotated (s.putK .lc (BitVec.ofNat 64 (k.lc - 1))))))) ∧
  (k.rp < 8 → k.lc = 0 → 1 < k.ec →
    Transfers (.bloop en v) s (back (stage false (rotated (s.putK .ec (BitVec.ofNat 64 (k.ec - 1))))))) ∧
  (k.rp < 8 → k.lc = 0 → k.ec = 1 → Transfers (.bloop en v) s (stage false (rotated (s.putK .ec 0)))) ∧
  (k.lc = 0 → k.ec = 0 → Transfers (.bloop en v) s s) ∧
  Completes (.rotb false en) s (rotated s) ∧
  Completes (.rotb true en) s (turn s 0 0 0) ∧
  (let n := s.rdS r + imm.signExtend 64
   (dst.toNat < 4 → Completes (.setn dst r imm) s (s.emit (.count dst.toNat (n.toNat % 2 ^ 32)) 1)) ∧
   Completes (.setn 4 r imm) s (s.putK .lc n) ∧ Completes (.setn 5 r imm) s (s.putK .ec n))

/-- NEST and NEST.R outside deterministic launches (R301, R302): the counts n0 up to the depth and the bound iterators of the mask are
read now, and the nest waits for its body. -/
def Statements.NestStart : Prop := ∀ (s : State) (depth1 : BitVec 2) (mask : BitVec 8), s.det = false →
  let nest (rev : Bool) : Nest := {
    rev, depth := depth1.toNat + 1
    counts := (List.range (depth1.toNat + 1)).map fun j => (vget 0 s.cur.n j).toNat
    iters := ((List.range 8).filter fun j => mask.getLsbD j).filterMap fun j =>
      let t := vget {} s.cur.it j
      if t.target = 0 then none else some t
    body := 0, based := false, bases := [], point := 0, done := 0 }
  Completes (.nest depth1 mask) s { s with iss := { s.iss with nest := some (nest false) } } ∧
  Completes (.nestR depth1 mask) s { s with iss := { s.iss with nest := some (nest true) } }

/-- Work-ID fields (R339, R359): field j of a work ID lies above the widths of the fields below it. -/
def Statements.WorkIdFields : Prop := ∀ (s : State) (d a b : SReg) (j : BitVec 3), j.toNat < 6 →
  let width (i : Nat) : Nat := (s.launchWord 4).toNat / 2 ^ (8 * i) % 256
  let count := ((List.range 6).filter fun i => width i ≠ 0).length
  let base (i : Nat) : Nat := ((List.range (min i count)).map width).sum
  let j := j.toNat
  let x := (s.rdS a).toNat
  Completes (.wfldGet d a j) s (s.putS d (BitVec.ofNat 64 (if j < count then x / 2 ^ base j % 2 ^ width j else 0)) 1) ∧
  Completes (.wfldLvl d a j) s (s.putS d (BitVec.ofNat 64 (x / 2 ^ base j * 2 ^ base j)) 1) ∧
  ∃ r : Word64, Completes (.wfldSet d a b j) s (s.putS d r 1) ∧
    ∀ k < 64, r.getLsbD k =
      if j < count ∧ base j ≤ k ∧ k < base j + width j then (s.rdS b).getLsbD (k - base j) else (s.rdS a).getLsbD k

/-- System registers (R306 to R310): KRD delivers the register after two issues, KWR writes its writable bits from the next issue on, ones written
to kstat clear its conditions, and the tape registers are written at once while TAPE or REV is 1. That such a KWR keeps its place among the
results of its issue that name the same register is the model's reading (log entry 111). That the spill registers keep the lower bits of their
multiples of 64 at 0 is log entry 118. -/
def Statements.SystemRegisters : Prop := ∀ (s : State) (d a : SReg) (n : BitVec 6),
  let k := s.cur.k
  let v := s.rdS a
  let f (hi lo : Nat) : Word64 := BitVec.ofNat 64 (v.toNat / 2 ^ lo % 2 ^ (hi - lo + 1))
  Completes (.krd d n) s (s.putS d (s.kRead n.toNat) 2) ∧
  (s.kRead 0x00 = BitVec.ofNat 64 (s.iss.g / 384 * 2 ^ 30 + s.iss.g / 96 * 2 ^ 24 + s.iss.g * 2 ^ 8 + s.iss.x) ∧
   s.kRead 0x01 = k.kwork ∧ s.kRead 0x03 = k.flags.setWidth 64 ∧ s.kRead 0x07 = (if s.det then 1 else 0) ∧
   s.kRead 0x22 = k.targ0 ∧ s.kRead 0x23 = k.targ1 ∧ (∀ r, 0x24 ≤ r → r ≤ 0x2F → s.kRead r = 0)) ∧
  Completes (.kwr 0x02 a) s ((s.emit (.statClear (v &&& 0x1FFE)) 1).putK .ternbad (f 63 48)) ∧
  Completes (.kwr 0x03 a) s (s.putK .flags v) ∧
  Completes (.kwr 0x04 a) s ((s.putK .lc (f 31 0)).putK .ec (f 39 32)) ∧
  Completes (.kwr 0x05 a) s (((s.putK .rs (f 3 0)).putK .rp (f 6 4)).putK .rv (f 10 8)) ∧
  Completes (.kwr 0x08 a) s ((((s.putK .wpos (f 34 32)).putK .lb (f 31 23)).putK .ldm1 (f 22 16)).putK .lrot (f 6 0)) ∧
  Completes (.kwr 0x10 a) s (s.putK .spill (v &&& 0x00000FFFC00FFFC0)) ∧
  Completes (.kwr 0x11 a) s (s.putK .spovf (v &&& ~~~63)) ∧
  (k.tapeOn = false → s.reverse = false →
    Completes (.kwr 0x19 a) s (s.putK .tape (v &&& ~~~15)) ∧ Completes (.kwr 0x1A a) s (s.putK .tlim (v &&& ~~~15)) ∧
    Completes (.kwr 0x1B a) s (s.putK .tpos (v &&& ~~~15))) ∧
  (k.tapeOn = true ∨ s.reverse = true →
    Completes (.kwr 0x19 a) s ((s.modCur fun c => { c with k := { c.k with tape := v &&& ~~~15 } }).emit (.keepK .tape) 1) ∧
    Completes (.kwr 0x1A a) s ((s.modCur fun c => { c with k := { c.k with tlim := v &&& ~~~15 } }).emit (.keepK .tlim) 1) ∧
    Completes (.kwr 0x1B a) s ((s.modCur fun c => { c with k := { c.k with tpos := v &&& ~~~15 } }).emit (.keepK .tpos) 1)) ∧
  Completes (.kwr 0x1C a) s (s.putK .dreg (v &&& ~~~0x20)) ∧
  Completes (.kwr 0x1D a) s (s.putK .lscale (v &&& 0x80FFFFFFFFFFFFFF)) ∧
  Completes (.kwr 0x20 a) s ((s.putK .trapDone (f 34 30)).putK .trapRep (f 39 35)) ∧
  Completes (.kwr 0x21 a) s (s.putK .tpc (v &&& ~~~3))

/-- The ends of a context, checkpoints, traps, breakpoints and the return (R356 to R358, R388 to R391, R398, R399): what each slot asks of
the issue that it belongs to; SUSPEND with the record of the registers that it reads, and CHKPT with the stop where a pre-emption is requested. RETT
outside a trap handler is a protection fault, as is a checkpoint table off its 256-byte boundary an alignment fault. -/
def Statements.ContextInstructions : Prop := ∀ (s : State) (a : SReg) (v : Word64) (prio : BitVec 2) (holds : BitVec 4) (id : BitVec 15),
  let ask (i : Iss) : State := { s with iss := i }
  let table := s.rdS a + v
  let held (n : Nat) : Bool := decide (1 ≤ n) && holds.getLsbD (n - 1)
  Transfers .exit s (ask { s.iss with ends := some .exit }) ∧
  (∃ ws : List Word64, Transfers (.suspend prio) s (ask { s.iss with ends := some (.suspend prio.toNat), endRecord := some ws }) ∧
    ws.getD 0 0 = BitVec.ofNat 64 (s.iss.next.toNat / 4 * 4 + prio.toNat) ∧ ws.getD 1 0 = s.cur.k.kwork ∧
    ws.getD 2 0 = s.rdS 1 ∧ ws.getD 3 0 = s.rdS 2 ∧ ws.getD 4 0 = s.rdS 3 ∧ ws.getD 5 0 = s.rdS 4 ∧
    ws.getD 7 0 = BitVec.ofNat 64 (s.cur.ckpt.toNat / 256 * 256 + if s.det then 2 ^ 7 + s.iss.g % 96 else 0)) ∧
  (s.cur.k.trapIn = true → Transfers .rett s (ask { s.iss with rett := true })) ∧
  (s.cur.k.trapIn = false → Faults .rett s cProt s.iss.pc 0 0) ∧
  (table.toNat % 256 = 0 → Completes (.chkpt a v) s
    { (s.modCur fun k => { k with ckpt := table, ckptAt := (s.core s.iss.g).clock }) with
      iss := { s.iss with stops := s.iss.stops || s.preempting } }) ∧
  (table.toNat % 256 ≠ 0 → Faults (.chkpt a v) s cAlign table 256 0) ∧
  Completes (.trap v) s (ask { s.iss with traps := s.iss.traps ++ [⟨s.iss.slot, 5, v, 0⟩] }) ∧
  Completes (.brk holds id) s (ask { s.iss with
    undone := s.iss.undone ++ s.iss.pending.filter fun e => held e.1
    pending := s.iss.pending.filter fun e => !held e.1
    traps := s.iss.traps ++ [⟨s.iss.slot, 6, id.setWidth 64, holds.setWidth 64⟩] })

/-- SPAWN (R342, R343, R357) outside deterministic launches: a legal record joins the cluster's queue with its priority, at once, where its release
need not wait. -/
def Statements.SpawnEnqueues : Prop := ∀ (s : State) (r : SReg) (own : Bool) (cl : BitVec 4) (l : Loc),
  slotRecord s (s.rdS r) true = .ok l → s.det = false → Released s →
  let ws := s.blockWords l.key
  let q := if own then s.iss.g / 96 else cl.toNat
  contMalformed ws = false → (s.cluster q).conts.length < 256 →
  ∃ sc, Completes (.spawn r own cl) s (s.modCluster q fun c => { c with
    conts := c.conts ++ [⟨ws, (ws.getD 0 0).toNat % 4, s.cycle, s.cycle, false, sc, false⟩] })

/-- The loss scale (R290, R291): one step of EXP, CLEAN and FLOOR by the overflow condition, the predicate saying that there was none; a
klscale outside its rules is a protection fault naming klscale. -/
def Obligations.LossScaleStep : Prop := ∀ (s : State) (d p : PReg) (r : SReg),
  let l := lossOf s.cur.k.lscale
  let after (ov : Bool) : LossScale :=
    if ov then (if l.emin < l.exp then { l with clean := 0, exp := l.exp - 1 } else { l with clean := 0, floor := true })
    else if l.exp = l.emax then { l with clean := min (l.clean + 1) l.grow }
    else if l.clean + 1 = l.grow then { l with exp := l.exp + 1, clean := 0 }
    else { l with clean := l.clean + 1 }
  let done (ov : Bool) : State := (s.putP d (!ov) 1).putK .lscale (lossWord (after ov))
  (l.grow ≠ 0 → l.emin ≤ l.exp → l.exp ≤ l.emax → l.clean ≤ l.grow →
    Completes (.lscale d r) s (done (s.rdS r != 0)) ∧ Completes (.lscaleP d p) s (done (s.rdP p))) ∧
  (l.grow = 0 ∨ l.exp < l.emin ∨ l.emax < l.exp ∨ l.grow < l.clean →
    Faults (.lscale d r) s cProt 0x1D 0 0 ∧ Faults (.lscaleP d p) s cProt 0x1D 0 0)

/-! ### Address registers, loads and stores -/

/-- Address registers, strides and iterators (R184): each result is exposed one issue later. -/
def Statements.AddressRegisters : Prop := ∀ (s : State) (d a : AReg) (r : SReg) (v : Word64) (n : BitVec 3) (level : BitVec 2),
  Completes (.adda d a r) s (s.putA d (s.rdA a + s.rdS r) 1) ∧
  Completes (.addai d a v) s (s.putA d (s.rdA a + v) 1) ∧
  Completes (.mova d r) s (s.putA d (s.rdS r) 1) ∧
  Completes (.movaToS r a) s (s.putS r (s.rdA a) 1) ∧
  Completes (.setstep d r v) s (s.emit (.stride d.toNat (s.rdS r + v)) 1) ∧
  Completes (.itset n level d v) s (s.emit (.iter n.toNat ⟨d, level.toNat, v⟩) 1)

/-- Loads from the own scratchpad (R166, R168, R169, R183, R186): the value, extended as the form says, with latency 5; a poisoned block reads as 0
in a scalar load and sets kstat.POISON; another core's scratchpad, the latch area and translated addresses are protection faults, and an address off
its size is an alignment fault. That LD.D of a poisoned block returns its descriptor and sets no condition is the model's reading (log entry 124). -/
def Statements.ScratchpadLoads : Prop := ∀ (s : State) (d : SReg) (v : VRegNo) (base : AReg) (off : Off9) (sz : BitVec 2) (sx : Bool),
  let n := 2 ^ sz.toNat
  let va := s.ea base off n
  let vb := s.ea base off 64
  let at_ := va.toNat
  let place (w : Word64) (size o : Nat) : Prop :=
    spaceOf w.toNat = .spad s.iss.g o ∧ o + size ≤ 0xBF000 ∧ w.toNat % size = 0 ∧
      s.stallingChan s.iss.g w.toNat (w.toNat + size) = none
  let barred (w : Word64) (size : Nat) : Prop :=
    untranslated w.toNat = false ∨ (∀ g o, spaceOf w.toNat = .spad g o → g ≠ s.iss.g ∨ 0xBF000 < o + size)
  let got := getBytes s.mem at_ n
  let x : Word64 := if sx then (BitVec.ofNat (8 * n) got).signExtend 64 else BitVec.ofNat 64 got
  (∀ o, place va n o →
    (isPoison (s.descAt at_) = false → Completes (.ld d base off sz sx) s ((s.putS d x 5).note at_ n false 5)) ∧
    (isPoison (s.descAt at_) = true →
      Completes (.ld d base off sz sx) s (((s.putS d 0 5).note at_ n false 5).putStat (BitVec.ofNat 64 (2 ^ 7))))) ∧
  (∀ o, place vb 64 o →
    Completes (.ldV v base off) s ((s.putV v (s.readBlock vb.toNat) 5).note vb.toNat 64 false 5) ∧
    Completes (.ldD d base off) s ((s.putS d ((s.descAt vb.toNat).setWidth 64) 5).note vb.toNat 64 false 5)) ∧
  (barred va n → Faults (.ld d base off sz sx) s cProt va 0 0) ∧
  (barred vb 64 → Faults (.ldV v base off) s cProt vb 0 0 ∧ Faults (.ldD d base off) s cProt vb 0 0) ∧
  (∀ o, spaceOf va.toNat = .spad s.iss.g o → o + n ≤ 0xBF000 → at_ % n ≠ 0 →
    Faults (.ld d base off sz sx) s cAlign va (BitVec.ofNat 64 n) 0) ∧
  (∀ o, spaceOf vb.toNat = .spad s.iss.g o → o + 64 ≤ 0xBF000 → vb.toNat % 64 ≠ 0 →
    Faults (.ldV v base off) s cAlign vb 64 0 ∧ Faults (.ldD d base off) s cAlign vb 64 0)

/-- Stores (R58, R84, R157, R186, R279): outside reverse mode a store reaches every placement of its bytes; a tape records the old value first where
the address is differentiable; a store through a window becomes a write packet of the port, with open bytes around the stored ones in a scalar form
(the model's choice, log entry 15). A descriptor above 0x0D is refused by ST.D. That a store acts in the step of its issue, outside the own
scratchpad too, is the model's choice (log entry 20: R314 lets a relaxed access be performed later). -/
def Obligations.Stores : Prop := ∀ (s : State) (d : SReg) (v : VRegNo) (base : AReg) (off : Off9) (sz : BitVec 2) (l : Loc),
  let n := 2 ^ sz.toNat
  let va := s.ea base off n
  let vb := s.ea base off 64
  let g := s.iss.g
  let plain (w : Word64) : Prop := windowPort l.space = none ∧ (l.space = .main → l.kind = 0) ∧
    ¬(s.reverse = true ∧ s.differentiable l w.toNat = true)
  let taped (w : Word64) : Bool := s.cur.k.tapeOn && s.differentiable l w.toNat
  (slotAccess s reachStore .write va n = .ok l → plain va →
    (taped va = false →
      Completes (.st d base off sz) s
        ((s.writePart l.wkeys n (s.rdS d).toNat).note va.toNat n true (s.latencyOf g va.toNat l) (s.differentiable l va.toNat))) ∧
    (taped va = true → l.rd = true → ∀ t,
      pushTape s va (scalarEntry sz.toNat va.toNat (if isPoison (s.descAt l.key) then 0 else getBytes s.mem l.key n)) = .ok t →
      Completes (.st d base off sz) s
        ((t.writePart l.wkeys n (s.rdS d).toNat).note va.toNat n true (t.latencyOf t.iss.g va.toNat l) (t.differentiable l va.toNat)))) ∧
  (slotAccess s reachStore .write vb 64 = .ok l → plain vb →
    (taped vb = false →
      Completes (.stV v base off) s
        ((s.writeBlock l.wkeys (s.rdV v)).note vb.toNat 64 true (s.latencyOf g vb.toNat l) (s.differentiable l vb.toNat))) ∧
    (taped vb = true → l.rd = true → ∀ t, pushTape s vb (blockEntry vb.toNat (s.readBlock l.key)) = .ok t →
      Completes (.stV v base off) s
        ((t.writeBlock l.wkeys (s.rdV v)).note vb.toNat 64 true (t.latencyOf t.iss.g vb.toNat l) (t.differentiable l vb.toNat)))) ∧
  (slotAccess s reachMemory .write vb 64 = .ok l → (l.space = .main → l.kind = 0) →
    let e : Desc := (s.rdS d).setWidth 16
    (descFmt e ≤ 0x0D → ((s.reverse || s.cur.k.tapeOn) && s.differentiable l vb.toNat) = false →
      Completes (.stD d base off) s
        ((s.writeDesc l.wkeys e).note vb.toNat 64 true (s.latencyOf g vb.toNat l) (s.differentiable l vb.toNat))) ∧
    (0x0D < descFmt e → Faults (.stD d base off) s cDesc vb (e.setWidth 64) 0)) ∧
  (∀ q o, slotAccess s reachStore .write va n = .ok l → windowPort l.space = some (q, o) → (s.port q).st ≠ .down →
    Completes (.st d base off sz) s (s.storeWindow q o n (s.rdS d).toNat va)) ∧
  (∀ q o, slotAccess s reachStore .write vb 64 = .ok l → windowPort l.space = some (q, o) → (s.port q).st ≠ .down →
    Completes (.stV v base off) s (s.storeBlockWindow q o (s.rdV v) vb))

/-- Timed loads (R88, R171 to R173, R187, R188): outside reverse mode the block lands in its register the cycles named after its issue. A
deterministic launch refuses fewer cycles than the declared latency, and an access that cannot keep it because other cores crowd its channels (R89;
whether they do is a free value: log entry 87); elsewhere data may be late. A window is read by a request whose response fills the landing. That the
block is the one that stands at its place at the issue is the model's choice (log entry 20: R314 leaves the cycle open). -/
def Statements.TimedLoads : Prop := ∀ (s : State) (v : VRegNo) (base : AReg) (off : Off9) (land : Nat) (l : Loc),
  let va := s.ea base off 64
  let g := s.iss.g
  let r := physV s.cur.k.rv v
  let lat := s.latencyOf g va.toNat l
  slotAccess s (reachTimed s.det) .read va 64 = .ok l → (s.core g).sillUsed < 256 →
  (windowPort l.space = none → ¬(s.reverse = true ∧ s.differentiable l va.toNat = true) → s.det = true → lat ≤ land → l.mayCrowd = true →
    ∀ b fl, s.chainView.blockAt l va.toNat = .ok b fl →
    let u : State := { s with free := s.free + 1 }
    Completes (.ldL v base off land) s
      ((u.land ([.v r b] ++ (if fl = 0 then [] else [.flagsOr fl])) land false).note va.toNat 64 false lat) ∨
    exec (.ldL v base off land) s = .next (u.raise {
      code := cOverrun, gcore := s.iss.g, ctx := s.iss.x, rep := s.iss.rep, slot := s.iss.slot, pc := s.iss.pc, w2 := s.iss.pc, w3 := BitVec.ofNat 64 s.sclk })) ∧
  (windowPort l.space = none → ¬(s.reverse = true ∧ s.differentiable l va.toNat = true) → (s.det = true → lat ≤ land) → OnTime s l →
    ∀ b fl, s.chainView.blockAt l va.toNat = .ok b fl →
    Completes (.ldL v base off land) s
      (((s.drawLate land lat).2.land ([.v r b] ++ (if fl = 0 then [] else [.flagsOr fl])) land (s.drawLate land lat).1).note
        va.toNat 64 false lat)) ∧
  (windowPort l.space = none → ¬(s.reverse = true ∧ s.differentiable l va.toNat = true) → s.det = true → land < lat →
    Faults (.ldL v base off land) s cOverrun s.iss.pc (BitVec.ofNat 64 s.sclk) 0) ∧
  (∀ q o, windowPort l.space = some (q, o) → (s.port q).st ≠ .down →
    Completes (.ldL v base off land) s ((s.requestWindow q o va).land [.v r {}] land false (some (q, o))))

/-- Differentiable loads and stores in reverse mode (R281 to R283): each commits in the state that the reversal gives, an ST.G only
where the frame it binds is differentiable. -/
def Statements.ReverseAccesses : Prop := ∀ (s t : State) (d : SReg) (v : VRegNo) (base : AReg) (off : Off9) (sz : BitVec 2) (f : FReg)
    (land : Nat) (acc : Bool) (l : Loc),
  s.reverse = true →
  let va := s.ea base off (2 ^ sz.toNat)
  let vb := s.ea base off 64
  (slotAccess s reachStore .write va (2 ^ sz.toNat) = .ok l → l.space = .main → l.kind = 0 → s.differentiable l va.toNat = true →
    reverseStore s (.scalar d sz.toNat) va l = .ok t → Completes (.st d base off sz) s t) ∧
  (slotAccess s reachStore .write vb 64 = .ok l → l.space = .main → l.kind = 0 → s.differentiable l vb.toNat = true →
    reverseStore s (.block v) vb l = .ok t → Completes (.stV v base off) s t) ∧
  (slotAccess s (reachTimed s.det) .read vb 64 = .ok l → l.space = .main → s.differentiable l vb.toNat = true →
    reverseLoad s v vb l = .ok t → Completes (.ldL v base off land) s t) ∧
  (∀ pa fr, boundOf s f = .ok (pa, fr) → fr.info.diff = true → paneLoc s fr (s.ea base off fr.info.elem) fr.info.elem = .ok l →
    reverseStore s (.paneElem d pa) (s.ea base off fr.info.elem) l = .ok t → Completes (.stG d base off f acc) s t) ∧
  (∀ pa fr, boundOf s f = .ok (pa, fr) → fr.info.diff = true → paneLoc s fr vb 64 = .ok l →
    reverseStore s (.paneBlock v pa) vb l = .ok t → Completes (.stGBlk v base off f acc) s t)

/-- What a reversed access does (R276, R278, R281 to R283, R411). A load adds the elements of its register, or of a pair, into the adjoints at the
positions of its block: each takes the exact sum rounded and clamped by the adjoint frame, or the element alone where none was present, and no
other element of the implicit pane changes; a poisoned block of it stays as it is. A store reads the adjoints at its positions through the chain
and the context's implicit pane, delivers them 1,024 + 32 * MAXDEPTH cycles after its issue, clears them there unless its entry is that of an
accumulating pane store, restores the old value, and takes its entry off the tape. Elements of one byte, for which no registers are named, deliver an
open value (log entry 12). -/
def Statements.ReverseEffects : Prop := ∀ (s t : State) (d : VRegNo) (va : Word64) (l : Loc) (form : StoreForm),
  (reverseLoad s d va l = .ok t → ∃ (a : AdjRef) (f : Frame) (p0 p : Pane) (fresh : Bool) (fl : BitVec 6),
    s.adjointOf s.cur l va.toNat = some a ∧
    let v := s.rdV d
    let code := if v.desc = 0 then 2 else descFmt v.desc
    let lanes := 512 / codeBits code
    let n := 512 / codeBits a.fmt
    let js := ((List.range n).map (a.j + ·)).filter fun j => decide (4 * j < (s.frame a.adj).info.extent)
    let u (j : Nat) : Machine.Num :=
      if j - a.j < lanes then laneNum code v (j - a.j) else laneNum code ⟨(s.rdV (d + 1)).data, v.desc⟩ (j - a.j - lanes)
    1 ≤ code ∧ code ≤ 4 ∧ n ≤ 2 * lanes ∧ (lanes < n → d.toNat % 2 = 0 ∧ d.toNat < 31) ∧
    touchAdjoint s a.adj js = .ok (f, p0, fresh) ∧ t = (s.putAdjoint a.adj f p fresh).putFlags fl 1 ∧
    (f.info.fmt = 2 → ∀ b k0, p0.block? b = some k0 →
      (k0.poison = true → p.block? b = some k0) ∧
      (k0.poison = false → ∃ k, p.block? b = some k ∧ k.poison = false ∧ k.scale = k0.scale ∧ k.cleared = k0.cleared ∧ ∀ i < 16,
        let j := 16 * b + i
        let old := laneNum 2 ⟨k0.data, mkDesc 2 k0.scale⟩ i
        if j ∈ js then k.present.getLsbD i = true ∧ laneOf 32 k.data i =
          (f.info.fit ((if k0.present.getLsbD i then (fAdd 0 old (u j)).1 else u j).scale (-k0.scale))).1 % 2 ^ 32
        else k.present.getLsbD i = k0.present.getLsbD i ∧ laneOf 32 k.data i = laneOf 32 k0.data i))) ∧
  (s.iss.x < 4 → reverseStore s form va l = .ok t → ∃ (a : AdjRef) (h0 h1 : Word64) (at_ : Loc) (ys : List Nat) (fl : BitVec 6) (bad : Bool) (u : State)
      (us : List Upd) (lat : Nat),
    topEntry s = .ok (h0, h1, at_) ∧ form.entryMatches h0 h1 va.toNat = true ∧ s.adjointOf s.cur l va.toNat = some a ∧
    let fr := s.frame a.adj
    let own := if s.cur.implicit.contains a.adj then fr.implicitOf s.iss.g s.iss.x else none
    let js := (List.range (if form.isBlock then 512 / codeBits a.fmt else 1)).map (a.j + ·)
    let within (j : Nat) : Bool := decide (4 * j < fr.info.extent)
    let y (v : Nat) : Nat := if codeBits a.fmt = 64 then (roundF fp64 0 false (decodeF fp32 v)).1 else v
    let r (n : VRegNo) : Nat := physV s.cur.k.rv n
    readAdjoints s fr own js = .ok (ys, fl, bad) ∧ ys.length = js.length ∧
    (bad = false → ∀ (i j : Nat), js[i]? = some j → ys[i]? = some (if within j then
      match frameRaw s fr.info (j / 16) with
      | .ok fb => (fr.info.fit (fr.info.paneSum (fr.chain ++ own.toList) fb (j / 16) (j % 16)).1).1
      | .error _ => 0
      else 0)) ∧
    t = (u.land (us ++ if fl = 0 then [] else [.flagsOr fl]) (1024 + 32 * fr.info.maxdepth) false).note
      (fr.info.base + 4 * a.j) (4 * js.length) false lat ∧ lat = 1024 + 32 * fr.info.maxdepth ∧
    (match form with
     | .scalar d _ | .paneElem d _ =>
       us = .s (physS s.cur.k.rs d) (if bad then 0 else BitVec.ofNat 64 (y (ys.headD 0))) ::
         if bad then [.statOr (BitVec.ofNat 64 (2 ^ 7))] else []
     | .block d | .paneBlock d _ =>
       (codeBits a.fmt = 64 → us = [.v (r d) (if bad then ⟨0, 0x00FF⟩ else ⟨ofLanes 64 (ys.map y), mkDesc 1 0⟩)]) ∧
       (codeBits a.fmt = 32 → us = [.v (r d) (if bad then ⟨0, 0x00FF⟩ else ⟨ofLanes 32 ys, mkDesc 2 0⟩)]) ∧
       (codeBits a.fmt = 16 → d.toNat % 2 = 0 ∧ d.toNat < 31 ∧ us =
         if bad then [.v (r d) ⟨0, 0x00FF⟩, .v (r (d + 1)) ⟨0, 0x00FF⟩]
         else [.v (r d) ⟨ofLanes 32 (ys.take 16), mkDesc 2 0⟩, .v (r (d + 1)) ⟨ofLanes 32 (ys.drop 16), mkDesc 2 0⟩])) ∧
    (u.ctx s.iss.g s.iss.x).k.tpos = BitVec.ofNat 64 (s.cur.k.tpos.toNat - match form with | .block _ => 80 | _ => 16) ∧
    (match form with
     | .scalar _ lsz => u.mem = (s.writePart l.wkeys (2 ^ lsz) h1.toNat).mem ∧ u.desc = s.desc
     | .block _ => ∃ old, topBlock s h1 = .ok old ∧ u.mem = (s.writeBlock l.wkeys old).mem ∧ u.desc = (s.writeBlock l.wkeys old).desc
     | _ => u.mem = s.mem ∧ u.desc = s.desc) ∧
    (if h0.toNat / 2 ^ 60 = 3 ∧ h1.getLsbD 47 = true then u.frames = s.frames
     else ∃ (f : Frame) (p0 p : Pane) (fresh : Bool), touchAdjoint s a.adj (js.filter within) = .ok (f, p0, fresh) ∧
      (∀ pa, u.frame pa = if pa = a.adj then f.setLoose p else s.frame pa) ∧
      ∀ b k0, p0.block? b = some k0 → ∃ k, p.block? b = some k ∧ k.scale = k0.scale ∧ k.poison = k0.poison ∧ ∀ i < 16,
        if 16 * b + i ∈ js.filter within then k.present.getLsbD i = true ∧ k.cleared.getLsbD i = true ∧ laneOf 32 k.data i = 0
        else k.present.getLsbD i = k0.present.getLsbD i ∧ k.cleared.getLsbD i = k0.cleared.getLsbD i ∧
          laneOf 32 k.data i = laneOf 32 k0.data i))

/-- Stores into panes (R98, R100, R105, R112): with the block of the store allocated and the tape's entry made, an element is put or added into
the open pane, and a block replaces or is added to the pane's; a frame register that binds nothing is a protection fault naming it. The pane is
the one that the context has open; of a store that executes after the slot X of its issue, the one that was open before it. -/
def Obligations.PaneStores : Prop := ∀ (s : State) (d : SReg) (v : VRegNo) (base : AReg) (off : Off9) (f : FReg) (acc : Bool),
  let bound := vget none s.cur.f f.toNat
  (bound = none → Faults (.stG d base off f acc) s cProt (f.setWidth 64) 0 0 ∧ Faults (.stGBlk v base off f acc) s cProt (f.setWidth 64) 0 0) ∧
  (∀ pa, bound = some pa → let fr := s.frame pa
    (s.iss.chains = none → ∀ p, fr.openOf s.iss.g s.iss.x = some p → ¬(acc = true ∧ p.ow = true) → openPane s pa fr acc = .ok p) ∧
    (∀ fs p, s.iss.chains = some fs → s.iss.slot < 4 → (mget ({} : Frame) fs pa).openOf s.iss.g s.iss.x = some p → ¬(acc = true ∧ p.ow = true) →
      openPane s pa fr acc = .ok ((fr.paneNamed p.name).getD p)) ∧
    (¬(s.reverse = true ∧ fr.info.diff = true) → fr.glazeWait = none → ∀ p q k l t, openPane s pa fr acc = .ok p →
    (let e := fr.info.elem
     let va := s.ea base off e
     let o := va.toNat - fr.info.base
     paneLoc s fr va e = .ok l → touchFor s pa fr false p (o / 64) = .ok q → q.block? (o / 64) = some k →
     pushPane s pa fr va q.name acc false = .ok t →
     let r := k.storeElem fr.info acc (o % 64 / e) ((t.rdS d).toNat % 2 ^ fr.info.width)
     Completes (.stG d base off f acc) s ((t.changeFrame pa (fr.setStored (q.setBlock r.1))).putFlags r.2 1)) ∧
    (let va := s.ea base off 64
     let b := (va.toNat - fr.info.base) / 64
     paneLoc s fr va 64 = .ok l → touchFor s pa fr (!acc) p b = .ok q → q.block? b = some k →
     ((k.poison = true ∧ acc = true) ∨ isPoison (s.rdV v).desc = true ∨ fr.info.formatOk (s.rdV v).desc = true) → pushPane s pa fr va q.name acc true = .ok t →
     let r := k.storeBlock fr.info acc (s.rdV v)
     Completes (.stGBlk v base off f acc) s ((t.changeFrame pa (fr.setStored (q.setBlock r.1))).putFlags r.2 1))))

/-- Indexed access (R189, R190): every active lane is checked, a gather of blocks with one common descriptor fills the active lanes and keeps the
others, one that meets a poisoned block gives poison unless the descriptors of the others differ, which is a descriptor format fault, and a scatter
writes the active lanes (descriptors of poisoned blocks are not compared: the model's reading, log entry 16); the accesses of the lanes count among
those that a release waits for in a deterministic launch (R331). The lanes are read and written in the step of the issue (log entry 20). -/
def Statements.IndexedAccess : Prop := ∀ (s : State) (d b : VRegNo) (a : AReg) (dw : Bool) (m : MReg) (lanes : List (Nat × Loc)),
  let e := if dw then 8 else 4
  let checked (k : Access) : Prop := gatherLanes s (s.rdA a) (s.rdV b).data e k (s.rdM m) (List.range (64 / e)) = .ok lanes
  let descs := lanes.map fun x : Nat × Loc => s.descAt x.2.key
  let t := s.noteLanes e false 8 lanes
  (checked .read → lanes ≠ [] → ∀ c : Desc, (∀ x ∈ descs, isPoison x = false ∧ (x = 0 ∨ x = c)) → (c = 0 ∨ c ∈ descs) →
    ∃ v : Block, Completes (.gath d a b dw m) s (t.putPart d (maskKeep (8 * e) (s.rdM m)) ⟨v, c⟩ 8) ∧
      ∀ k < 64 / e, laneOf (8 * e) v k =
        match lanes.find? (fun x : Nat × Loc => x.1 == k) with
        | some x => getBytes s.mem x.2.key e
        | none => 0) ∧
  (checked .read → lanes = [] → Completes (.gath d a b dw m) s (s.emit (.keepV (physV s.cur.k.rv d)) 8)) ∧
  (checked .read → ∀ c : Desc, (∀ x ∈ descs, isPoison x = true ∨ x = 0 ∨ x = c) → (∃ x ∈ descs, isPoison x = true) →
    Completes (.gath d a b dw m) s (t.putV d ⟨0, 0x00FF⟩ 8)) ∧
  (checked .read → (∃ x ∈ descs, ∃ y ∈ descs, isPoison x = false ∧ isPoison y = false ∧ x ≠ 0 ∧ y ≠ 0 ∧ x ≠ y) →
    ∃ block met : Word64, exec (.gath d a b dw m) s = .next (t.raise {
      code := cDesc, gcore := s.iss.g, ctx := s.iss.x, rep := s.iss.rep, slot := s.iss.slot, pc := s.iss.pc, w2 := block, w3 := met })) ∧
  (checked .write → (∀ x ∈ descs, isPoison x = true ∨ x = 0 ∨ (s.rdV d).desc = 0 ∨ x = (s.rdV d).desc) →
    Completes (.scat d a b dw m) s
      ((lanes.foldl (fun t x => t.writePart x.2.wkeys e (laneOf (8 * e) (s.rdV d).data x.1)) s).noteLanes e true 5 lanes))

/-- Spill space (R191, R192): an offset within SPILLLEN lies in the carve-out of the own scratchpad, a later one in the overflow area in main
memory, and an address in the carve-out that is no multiple of the access size is an alignment fault (R183); a fill from the carve-out has latency
5, one from the overflow area is a landing after 1,024 cycles, which a deterministic launch refuses where other cores crowd the access (R89, log
entry 87). That a FILL from the overflow area delivers what stands there at its issue, and that a SPILL into it writes at its issue, is the model's
choice (log entry 20). -/
def Statements.SpillSpace : Prop := ∀ (s : State) (cls : BitVec 2) (d : SReg) (base : AReg) (off : Off9) (l : Loc) (us : List Upd) (va : Nat),
  let n := if cls = 2 then 64 else 8
  let o := s.ea base off n
  let len := s.cur.k.spill.toNat / 2 ^ 24 % 2 ^ 20
  let start := s.cur.k.spill.toNat % 2 ^ 20
  let stored : State :=
    if cls = 2 then s.writeBlock l.wkeys (s.rdV (d.setWidth 5))
    else s.writePart l.wkeys 8 (if cls = 0 then (s.rdS d).toNat else (s.rdA (d.setWidth 5)).toNat)
  0 ≤ o.toInt → o.toNat % n = 0 →
  (o.toNat + n ≤ len → va = spadPa s.iss.g 0 + (start + o.toNat) → va < 2 ^ 64 → start + o.toNat + n ≤ 0xBF000 → va % n ≠ 0 →
    Faults (.spill cls d base off) s cAlign (BitVec.ofNat 64 va) (BitVec.ofNat 64 n) 0 ∧
    Faults (.fill cls d base off) s cAlign (BitVec.ofNat 64 va) (BitVec.ofNat 64 n) 0) ∧
  (o.toNat + n ≤ len → va = spadPa s.iss.g 0 + (start + o.toNat) → va < 2 ^ 64 → start + o.toNat + n ≤ 0xBF000 → va % n = 0 →
    s.stallingChan s.iss.g va (va + n) = none → l = windowLoc va →
    Completes (.spill cls d base off) s (stored.note va n true 5) ∧
    (fillUpdates s cls d l va = .ok us →
      Completes (.fill cls d base off) s ((us.foldl (fun t u => t.emit u (if u.accumulates then 1 else 5)) s).note va n false 5))) ∧
  (len < o.toNat + n → va = (s.cur.k.spovf + BitVec.ofNat 64 (o.toNat - len)).toNat →
    (slotAccess s ({ main := true } : Reach) .write (BitVec.ofNat 64 va) n = .ok l → (l.space = .main → l.kind = 0) →
      Completes (.spill cls d base off) s (stored.note va n true 1024)) ∧
    (slotAccess s ({ main := true } : Reach) .read (BitVec.ofNat 64 va) n = .ok l → (s.core s.iss.g).sillUsed < 256 →
      (OnTime s l → fillUpdates s cls d l va = .ok us → Completes (.fill cls d base off) s ((s.land us 1024 false).note va n false 1024)) ∧
      (s.det = true → l.mayCrowd = true → let u : State := { s with free := s.free + 1 }
        fillUpdates u cls d l va = .ok us →
        Completes (.fill cls d base off) s ((u.land us 1024 false).note va n false 1024) ∨
        exec (.fill cls d base off) s = .next (u.raise {
          code := cOverrun, gcore := s.iss.g, ctx := s.iss.x, rep := s.iss.rep, slot := s.iss.slot, pc := s.iss.pc, w2 := s.iss.pc, w3 := BitVec.ofNat 64 s.sclk }))))

/-- Accumulator instructions on cells that nothing owns and none of which is poisoned (R175 to R178, R193, R194): the new contents, and the old word
returned with latency 8 from the own window and as a landing after 48 cycles from another core's; each is a release, which need not wait (R316,
R320), and an instruction that returns the old word counts as a read and a write of it (R315). Integer forms. That an atomic acts on its cells in
the step of its issue, on another core's too, is the model's choice (log entry 20). -/
def Statements.Atomics : Prop := ∀ (s : State) (d b : SReg) (a base : AReg) (off : Off9) (w : Bool) (l : Loc),
  let n := if w then 4 else 8
  let va := s.ea base off n
  let x := (s.rdS d).toNat % 2 ^ (8 * n)
  let own := l.accOf.1 = s.iss.g
  let old := getBytes s.mem l.key n
  let si (v : Nat) : Int := (BitVec.ofNat (8 * n) v).toInt
  let wrote (va : Word64) (v : Nat) : State := (s.writeCells l.key n v).note va.toNat n true (if own then 8 else 48)
  let back (va : Word64) (t : State) : State :=
    let u : Upd := .s (physS s.cur.k.rs d) (BitVec.ofNat 64 old)
    let t := t.note va.toNat n false (if own then 8 else 48)
    if own then t.emit u 8 else t.land [u] 48 false
  let ready (va : Word64) : Prop := slotAccess s reachAcc .both va n = .ok l ∧
    s.tileOwner l.accOf.1 (l.accOf.2 / 0x2000) = none ∧ ∀ c ∈ cellsOf l.key n, c ∉ s.poisoned
  let room : Prop := own ∨ (s.core s.iss.g).sillUsed < 256
  Released s →
  (∀ fl, slotAccess s reachAcc .both va n = .ok l → s.tileOwner l.accOf.1 (l.accOf.2 / 0x2000) = none →
    (w = true → ∀ c ∈ cellsOf l.key n, c ∉ s.poisoned) → Completes (.awrOw d base off w fl false) s (wrote va x)) ∧
  (ready va →
    Completes (.awrAdd d base off w false false) s (wrote va ((old + x) % 2 ^ (8 * n)))) ∧
  (ready va → room →
    Completes (.axadd d base off w false) s (back va (wrote va ((old + x) % 2 ^ (8 * n)))) ∧
    Completes (.axchg d base off w) s (back va (wrote va x)) ∧
    Completes (.amin d base off w false false) s (back va (wrote va (if si x < si old then x else old))) ∧
    Completes (.amin d base off w false true) s (back va (wrote va (min x old))) ∧
    Completes (.amax d base off w false false) s (back va (wrote va (if si old < si x then x else old))) ∧
    Completes (.amax d base off w false true) s (back va (wrote va (max x old))) ∧
    Completes (.aand d base off w) s (back va (wrote va (old &&& x))) ∧
    Completes (.aor d base off w) s (back va (wrote va (old ||| x))) ∧
    (let t := s.note va.toNat n false (if own then 6 else 48)
     let u : Upd := .s (physS s.cur.k.rs d) (BitVec.ofNat 64 old)
     Completes (.ald d base off w false) s (if own then t.emit u 6 else t.land [u] 48 false))) ∧
  (ready (s.rdA a) → room →
    Completes (.acas d a b w) s (back (s.rdA a) (wrote (s.rdA a) (if old = x then (s.rdS b).toNat % 2 ^ (8 * n) else old))))

/-- Accumulator instructions in their block and floating-point forms (R178, R193, R194): AWR.V overwrites whole words, with the integer or the
floating-point descriptor of its words or none (that F alone decides how they are read is the model's choice: log entry 78), ALD.V reads a block
with descriptor 0x0000, a floating-point sum is rounded to nearest even once, a poisoned source poisons the cells and ends the launch, a poisoned
cell ends it where it is read and delivers poison, and an owned tile traps. Each acts in the step of its issue (log entry 20). -/
def Statements.AtomicBlocks : Prop := ∀ (s : State) (d : SReg) (v : VRegNo) (base : AReg) (off : Off9) (w fl : Bool) (l : Loc),
  let n := if w then 4 else 8
  let va := s.ea base off 64
  let ve := s.ea base off n
  let own := l.accOf.1 = s.iss.g
  let x := s.rdV (d.setWidth 5)
  let lat := if own then 8 else 48
  let f := if w then fp32 else fp64
  Released s →
  (slotAccess s reachAcc .both va 64 = .ok l → s.tileOwner l.accOf.1 (l.accOf.2 / 0x2000) = none →
    (isPoison x.desc = false → (x.desc = 0 ∨ x.desc = mkDesc (if w then 9 else 10) 0 ∨ descFmt x.desc = (if w then 2 else 1)) →
      Completes (.awrOw d base off w false true) s ((s.writeCells l.key 64 x.data.toNat).note va.toNat 64 true lat)) ∧
    (isPoison x.desc = true → ∀ fl, exec (.awrOw d base off w fl true) s = .next
      (({ s with poisoned := s.poisoned ++ (cellsOf l.key 64).filter fun c => !s.poisoned.contains c } : State).raise {
        code := cEcc, gcore := s.iss.g, ctx := s.iss.x, rep := s.iss.rep, slot := s.iss.slot, pc := s.iss.pc,
        w2 := BitVec.ofNat 64 l.key })) ∧
    ((∀ c ∈ cellsOf l.key 64, c ∉ s.poisoned) → (own ∨ (s.core s.iss.g).sillUsed < 256) →
      let t := s.note va.toNat 64 false (if own then 6 else 48)
      let u : Upd := .v (physV s.cur.k.rv (d.setWidth 5)) ⟨BitVec.ofNat 512 (getBytes s.mem l.key 64), 0⟩
      Completes (.ald d base off w true) s (if own then t.emit u 6 else t.land [u] 48 false)) ∧
    (∀ c, (cellsOf l.key 64).find? (s.poisoned.contains ·) = some c → (own ∨ (s.core s.iss.g).sillUsed < 256) →
      let u : Upd := .v (physV s.cur.k.rv (d.setWidth 5)) ⟨0, 0x00FF⟩
      exec (.ald d base off w true) s = .next ((if own then s.emit u 6 else s.land [u] 48 false).raise {
        code := cEcc, gcore := s.iss.g, ctx := s.iss.x, rep := s.iss.rep, slot := s.iss.slot, pc := s.iss.pc, w2 := BitVec.ofNat 64 c }))) ∧
  (slotAccess s reachAcc .both ve n = .ok l → s.tileOwner l.accOf.1 (l.accOf.2 / 0x2000) = none →
    (∀ c ∈ cellsOf l.key n, c ∉ s.poisoned) →
    let old := getBytes s.mem l.key n
    let sum := fAdd 0 (decodeF f old) (decodeF f ((s.rdS d).toNat % 2 ^ (8 * n)))
    let r := roundF f 0 false sum.1
    Completes (.awrAdd d base off w true false) s (((s.writeCells l.key n r.1).putFlags (sum.2 ||| r.2) 1).note ve.toNat n true lat)) ∧
  (∀ o, slotAccess s reachAcc .both ve n = .ok l → s.tileOwner l.accOf.1 (l.accOf.2 / 0x2000) = some o →
    ∃ arg : Word64, exec (.awrAdd d base off w fl false) s =
      .next (s.modIss fun i => { i.keep with traps := i.traps ++ [⟨i.slot, 4, arg, o.pc⟩] }) ∧
      arg.toNat % 16 = l.accOf.2 / 0x2000 % 16) ∧
  (let y := s.rdV v
   let vw := s.ea base off 8
   let c := descFmt y.desc
   1 ≤ c → c ≤ 10 → let m := 512 / codeBits c
   slotAccess s reachAcc .both vw (8 * m) = .ok l → s.tileOwner l.accOf.1 (l.accOf.2 / 0x2000) = none →
   ∃ (r : Nat) (fs : BitVec 6),
     Completes (.ast v base off) s (((s.writeCells l.key (8 * m) r).putFlags fs 1).note vw.toNat (8 * m) true lat) ∧
     ∀ k < m, r / 2 ^ (64 * k) % 2 ^ 64 = (roundF fpE 0 false (laneNum c y k)).1 % 2 ^ 64)

/-- The values of the floating-point atomics and of the block additions (R194, R236). AXADD, AMIN and AMAX with F return the old word with the
flags of their arithmetic: the sum is rounded to nearest even, and the extremes order -0 below +0 and take the first NaN. AWR.ADD.V adds each word
of the block, as an integer modulo its width or as a float with its scale, and F alone decides which (log entry 78). That the cells are changed in
the step of the issue is log entry 20. -/
def Statements.FloatAtomics : Prop := ∀ (s : State) (d : SReg) (base : AReg) (off : Off9) (w u : Bool) (l : Loc),
  let n := if w then 4 else 8
  let f := if w then fp32 else fp64
  let va := s.ea base off n
  let vb := s.ea base off 64
  let own := l.accOf.1 = s.iss.g
  let lat := if own then 8 else 48
  let word := getBytes s.mem l.key n
  let x := decodeF f ((s.rdS d).toNat % 2 ^ (8 * n))
  let back (v : Nat) (fl : BitVec 6) : State :=
    let t := ((s.writeCells l.key n v).note va.toNat n true lat).note va.toNat n false lat
    let r : Upd := .s (physS s.cur.k.rs d) (BitVec.ofNat 64 word)
    if own then (t.emit r 8).putFlags fl 8 else t.land ([r] ++ if fl = 0 then [] else [.flagsOr fl]) 48 false
  Released s →
  (slotAccess s reachAcc .both va n = .ok l → s.tileOwner l.accOf.1 (l.accOf.2 / 0x2000) = none →
    (∀ c ∈ cellsOf l.key n, c ∉ s.poisoned) → (own ∨ (s.core s.iss.g).sillUsed < 256) →
    (let sum := fAdd 0 (decodeF f word) x
     let r := roundF f 0 false sum.1
     Completes (.axadd d base off w true) s (back r.1 (sum.2 ||| r.2))) ∧
    (let r := fMin (decodeF f word) x
     Completes (.amin d base off w true u) s (back (roundF f 0 false r.1).1 r.2)) ∧
    (let r := fMax (decodeF f word) x
     Completes (.amax d base off w true u) s (back (roundF f 0 false r.1).1 r.2))) ∧
  (let y := s.rdV (d.setWidth 5)
   slotAccess s reachAcc .both vb 64 = .ok l → s.tileOwner l.accOf.1 (l.accOf.2 / 0x2000) = none →
   (∀ c ∈ cellsOf l.key 64, c ∉ s.poisoned) →
   isPoison y.desc = false → (y.desc = 0 ∨ y.desc = mkDesc (if w then 9 else 10) 0 ∨ descFmt y.desc = (if w then 2 else 1)) →
   let old (k : Nat) := getBytes s.mem l.key 64 / 2 ^ (8 * n * k) % 2 ^ (8 * n)
   let out (v : Nat → Nat) (fl : BitVec 6) : State :=
     ((s.writeCells l.key 64 (joinLanes (8 * n) ((List.range (64 / n)).map v))).putFlags fl 1).note vb.toNat 64 true lat
   let sum (k : Nat) := fAdd 0 (decodeF f (old k)) (laneNum (if w then 2 else 1) y k)
   let r (k : Nat) := roundF f 0 false (sum k).1
   Completes (.awrAdd d base off w false true) s (out (fun k => (old k + laneOf (8 * n) y.data k) % 2 ^ (8 * n)) 0) ∧
   Completes (.awrAdd d base off w true true) s
     (out (fun k => (r k).1) (((List.range (64 / n)).map fun k => (sum k).2 ||| (r k).2).foldl (· ||| ·) 0)) ∧
   let z (k : Nat) : Nat × BitVec 6 :=
     if scaleOf y.desc = 0 then (laneOf (8 * n) y.data k, 0) else roundF f 0 false (laneNum (if w then 2 else 1) y k)
   Completes (.awrOw d base off w true true) s
     (out (fun k => (z k).1) (((List.range (64 / n)).map fun k => (z k).2).foldl (· ||| ·) 0)))

/-- Ordered accesses and the fence outside deterministic launches (R157, R316, R323, R326 to R330): each makes an engine wait first and acts when it
has ended: LD.ACQ for its access, through a window for the response, of which a poisoned block reads as 0 (R168); ST.REL and FENCE.R for the context's
earlier reads of windows, and at system scope for its writes through the ports; LD.SC and ST.SC for the wheel. -/
def Obligations.OrderedAccesses : Prop := ∀ (s : State) (d : SReg) (base a : AReg) (off : Off9) (sz kinds : BitVec 2) (sx : Bool) (l : Loc),
  let n := 2 ^ sz.toNat
  let va := s.ea base off n
  let g := s.iss.g
  let lat := s.latencyOf g va.toNat l
  let waitsAt (i : Instr) (t : State) (c : WaitCond) : Prop :=
    Happens i s (t.modIss fun j => { j.keep with waits := j.waits ++ [(j.slot, c)] })
  let waits (i : Instr) (c : WaitCond) : Prop := waitsAt i s c
  let untaped : Prop := ((s.reverse || s.cur.k.tapeOn) && s.differentiable l va.toNat) = false
  let ported : WaitCond := .acked 0 (2 ^ 64) s.sysScope true
  let fenced : WaitCond := .acked (s.rdA a).toNat (min (2 ^ 64 - 1) ((s.rdA a).toNat + (s.rdS d).toNat))
    (s.sysScope && kinds.getLsbD 0) (kinds.getLsbD 1)
  s.det = false → s.iss.padded = none →
  (s.iss.granted.contains s.iss.slot = false →
    (slotAccess s (reachTimed false) .read va n = .ok l → windowPort l.space = none → waits (.ldAcq d base off sz sx) .performed) ∧
    (∀ q o, slotAccess s (reachTimed false) .read va n = .ok l → windowPort l.space = some (q, o) → (s.port q).st ≠ .down → s.iss.reply = none →
      waitsAt (.ldAcq d base off sz sx) (s.requestWindow q o va) (.response q (o / 64 * 64))) ∧
    (slotAccess s reachMemory .read va n = .ok l → waits (.ldSc d base off sz sx) (.wheel s.sysScope)) ∧
    (slotAccess s (reachTimed false) .write va n = .ok l → windowPort l.space = none → (l.space = .main → l.kind = 0) →
      untaped → waits (.stRel d base off sz) ported) ∧
    (∀ q o, slotAccess s (reachTimed false) .write va n = .ok l → windowPort l.space = some (q, o) → (s.port q).st ≠ .down →
      waits (.stRel d base off sz) ported) ∧
    (slotAccess s reachMemory .write va n = .ok l → (l.space = .main → l.kind = 0) → untaped →
      waits (.stSc d base off sz) (.wheel s.sysScope)) ∧
    waits (.fenceR a d kinds) fenced) ∧
  (s.iss.granted.contains s.iss.slot = true →
    let loaded (x : Nat) (fl : BitVec 6) (bad : Bool) : State :=
      let v : Word64 := if sx then (BitVec.ofNat (8 * n) x).signExtend 64 else BitVec.ofNat 64 x
      let t := (s.putS d v 1).putFlags fl 1
      if bad then t.putStat (BitVec.ofNat 64 (2 ^ 7)) else t
    (∀ x fl bad, slotScalar s l va.toNat n = .ok (x, fl, bad) →
      (slotAccess s (reachTimed false) .read va n = .ok l → windowPort l.space = none →
        Completes (.ldAcq d base off sz sx) s (loaded x fl bad)) ∧
      (slotAccess s reachMemory .read va n = .ok l → Completes (.ldSc d base off sz sx) s (loaded x fl bad))) ∧
    (∀ q o b, slotAccess s (reachTimed false) .read va n = .ok l → windowPort l.space = some (q, o) → s.iss.reply = some b →
      Completes (.ldAcq d base off sz sx) s
        (loaded (if isPoison b.desc then 0 else b.data.toNat / 2 ^ (8 * (va.toNat % 64)) % 2 ^ (8 * n)) 0 (isPoison b.desc))) ∧
    ((l.space = .main → l.kind = 0) → untaped →
      let t := s.writePart l.wkeys n (s.rdS d).toNat
      (slotAccess s (reachTimed false) .write va n = .ok l → windowPort l.space = none →
        Completes (.stRel d base off sz) s (t.note va.toNat n true lat (s.differentiable l va.toNat))) ∧
      (slotAccess s reachMemory .write va n = .ok l → Completes (.stSc d base off sz) s t)) ∧
    (∀ q o, slotAccess s (reachTimed false) .write va n = .ok l → windowPort l.space = some (q, o) → (s.port q).st ≠ .down →
      Completes (.stRel d base off sz) s (s.storeWindow q o n (s.rdS d).toNat va)) ∧
    Completes (.fenceR a d kinds) s s)

/-- The operand store (R179, R180, R195 to R199): claims are all or nothing, slots that the context holds are freed, a fill reads its 32 blocks (a
deterministic launch refuses one that other cores crowd: R89, log entry 87), a ready slot's block is delivered with latency 5, and OSTAT reports
state, holder, use and descriptor (for a slot of the task scheduler the holder field is the model's choice: log entry 125); an OLOAD's blocks are
read at its issue (the model's choice: log entry 21). -/
def Statements.OperandStore : Prop := ∀ (s : State) (f d : SReg) (v : VRegNo) (n1 : BitVec 7) (n : SlotNo) (base : AReg) (off : Off9),
  let g := s.iss.g
  let c := s.core g
  let first := (s.rdS f).toNat
  let range := (List.range (n1.toNat + 1)).map (first + ·)
  (128 ≤ first + n1.toNat → Faults (.oclaim f n1) s cProt (s.rdS f) 0 0 ∧ Faults (.ofree f n1) s cProt (s.rdS f) 0 0) ∧
  (first + n1.toNat < 128 →
    ((∀ i ∈ range, (c.slot i).st = .free) → Completes (.oclaim f n1) s
      (s.setCore g (range.foldl (fun c i => c.setSlot i { st := .ready, holder := s.iss.x }) c))) ∧
    ((∃ i ∈ range, (c.slot i).st ≠ .free) → Completes (.oclaim f n1) s (s.putStat (BitVec.ofNat 64 (2 ^ 10)))) ∧
    (let held := range.filter s.holdsSlot
     (∀ i ∈ held, c.slotIdle i = true) →
       let t := s.modCore g fun c => held.foldl (fun c i => c.setSlot i {}) c
       Completes (.ofree f n1) s (if held.length < range.length then t.putStat (BitVec.ofNat 64 (2 ^ 11)) else t))) ∧
  (∀ bs u, loadBlocks s (s.ea base off 2048).toNat 32 = .ok bs → s.holdsSlot n.toNat = true → c.slotIdle n.toNat = true →
    fillOnTime s (bs.map fun b : VVal × Nat × Loc => b.2.2) = .ok u →
    let lat := (bs.map fun b : VVal × Nat × Loc => b.2.1).foldl max 0
    Completes (.oload n base off) s ((u.setCore g (c.setSlot n.toNat { c.slot n.toNat with
      st := .filling, job := some ⟨s.ea base off 2048, s.iss.x, s.iss.pc, s.iss.rep, bs.map (·.1), s.engineClock g + lat⟩ })).note
        (s.ea base off 2048).toNat 2048 false lat)) ∧
  (let j := s.ea base off 1
   let o := c.slot (j.toNat / 32)
   (4096 ≤ j.toNat → Faults (.oread v base off) s cProt j 0 0) ∧
   (j.toNat < 4096 → o.st = .free → Faults (.oread v base off) s cProt j 0 0) ∧
   (j.toNat < 4096 → o.st = .ready → Completes (.oread v base off) s
     ((s.putV v (if isPoison o.desc then ⟨0, 0x00FF⟩ else ⟨o.data.getD (j.toNat % 32) 0, o.desc⟩) 5).note 0 0 false 5))) ∧
  (128 ≤ first → Faults (.ostat d f) s cProt (s.rdS f) 0 0) ∧
  (first < 128 → ∃ r : Word64, Completes (.ostat d f) s (s.putS d r 4) ∧
    let o := c.slot first
    r.toNat % 8 = (match o.st with | .free => 0 | .ready => 1 | .filling => 2) ∧
    r.toNat / 8 % 4 = o.holder % 4 ∧ r.getLsbD 5 = c.namesSlot first ∧ r.toNat / 2 ^ 16 = o.desc.toNat)

/-! ### The matrix engine and tile tasks -/

/-- Matrix instructions (R258, R259, R264, R265, R268): an operation whose slots are all held by contexts of the core joins the queue while
it has room, ACLR resets tiles that nothing owns, and the waits end at once where nothing they wait for is under way, a tile task that the
core hosts among it. A slot that is
not held is a protection fault naming it. -/
def Statements.MatrixIssue : Prop := ∀ (s : State) (acc : TileNo) (a b : SlotNo) (rm : BitVec 3) (fmt n1 : BitVec 4) (nc mode : BitVec 2)
    (bx ua ub : Bool) (m : SReg),
  let g := s.iss.g
  let op (fmt : Nat) : MatOp := {
    acc := acc.toNat, a := a.toNat, b := b.toNat, fmt, sparse := false, ncode := 0, bx := false, ua := false, ub := false, rm := 0,
    ctx := s.iss.x, slot := s.iss.slot, pc := s.iss.pc, rep := s.iss.rep, at_ := s.engineClock g, cold := s.longIdle g }
  let enters (i : Instr) (o : MatOp) : Prop :=
    ((∀ n ∈ o.slots, (s.core g).heldByCtx n = true) → (s.core g).queued < 8 →
      Completes i s (s.modCore g fun c => { c with queue := c.queue ++ [o] })) ∧
    (∀ n, o.slots.find? (fun k => !(s.core g).heldByCtx k) = some n → Faults i s cProt (BitVec.ofNat 64 n) 0 0)
  enters (.mmaFp64 acc a b rm) { op 1 with rm := rm.toNat } ∧
  enters (.mmaFloat acc a b fmt) (op fmt.toNat) ∧
  enters (.mmaKf8 acc a b fmt bx) { op fmt.toNat with bx } ∧
  enters (.mmaInt8 acc a b ua ub) { op 7 with ua, ub } ∧
  enters (.mmas acc a b fmt nc bx) { op fmt.toNat with sparse := true, ncode := nc.toNat, bx } ∧
  enters (.mmat acc a b ua) { op 0xB with ua } ∧
  (let tiles := (List.range (n1.toNat + 1)).map (acc.toNat + ·)
   (∀ t ∈ tiles, s.tileOwner g t = none) →
     Completes (.aclr acc n1 mode) s (tiles.foldl (fun s t => s.resetTile g t mode.toNat) s)) ∧
  (s.owned g acc.toNat = false → Completes (.await acc) s s) ∧
  ((∀ t < 16, (s.rdS m).getLsbD t = true → s.owned g t = false) → Completes (.awaitM m) s s) ∧
  ((s.core g).engineIdle = true → s.taskOn g = none → Completes .awaitAll s s)

/-- One matrix operation on the array (R253 to R255, R264): every cell of its tile becomes the old cell plus its products, in the mode that
the format asks for, the tile's flags take those of its cells, and its poison that of an operand slot. The other tiles keep their cells and their
state. A start fixes the scale of a tile that has none since its reset, for an integer operation without poisoned operands (R255): the sum of its
operands' scales. -/
def Statements.MatrixProducts : Prop := ∀ (s : State) (g : Nat) (o : MatOp) (n : Nat), (s.core g).array = some (o, n) →
  s.arrayDue g = true → o.acc < 16 → g < 1536 →
  ∃ t, Happens (.matrixOpComplete g) s t ∧ (t.core g).array = none ∧ (t.core g).queue = (s.core g).queue ∧
    (∀ tile row col, tile < 16 → row < 32 → col < 32 →
      t.cell g tile row col =
        if tile = o.acc then ((s.core g).newCell o (s.cell g tile row col) row col).1 % 2 ^ 64 else s.cell g tile row col) ∧
    ∀ tile < 16, let k := (s.core g).tile tile
      let raised := (List.range 32).flatMap fun row => (List.range 32).map fun col =>
        ((s.core g).newCell o (s.cell g o.acc row col) row col).2
      (t.core g).tile tile = if tile = o.acc then
        { k with flags := k.flags ||| raised.foldl (· ||| ·) 0
                 poison := k.poison || o.slots.any fun n => isPoison ((s.core g).slot n).desc } else k

/-- The scale of a tile at the start of an operation (R255): an integer operation whose slots are not poisoned fixes it where none is fixed since the
tile's reset, to the sum of its operands' scales; nothing else changes a tile's state. -/
def Statements.MatrixScales : Prop := ∀ (s : State) (g : Nat) (o : MatOp) (rest : List MatOp), (s.core g).queue = o :: rest →
  s.headDue g = true → (s.core g).headBlocked o = false → (s.core g).leave = true → s.startFault g o = none → o.acc < 16 →
  ∃ t, Happens (.matrixOpStart g) s t ∧ (t.core g).queue = rest ∧ (t.core g).array = some (o, s.engineClock g + o.time) ∧
    ∀ tile < 16, let k := (s.core g).tile tile
      (t.core g).tile tile =
        if tile = o.acc ∧ o.mode = 2 ∧ k.tset = false ∧ (s.core g).poisonedOperand o = false then
          { k with tset := true, tscale := ((s.core g).slot o.a).scale + ((s.core g).slot o.b).scale } else k

/-- Drains at issue (R266, R267): with a control word that keeps the table, a tile that nothing owns, a destination that the drain may
write and room in the queue, the drain enters it; a control word that breaks the table is a protection fault naming its register. -/
def Statements.DrainIssue : Prop := ∀ (s : State) (acc : TileNo) (a c : SReg) (f : FReg),
  let g := s.iss.g
  let ctl := s.rdS c
  let d (dst : DrainDst) : Drain := {
    acc := acc.toNat, dst, ctl, ctx := s.iss.x, slot := s.iss.slot, pc := s.iss.pc, rep := s.iss.rep }
  let enter (t : State) (d : Drain) : State := t.modCore t.iss.g fun k => { k with drains := k.drains ++ [d] }
  let free : Prop := s.tileOwner g acc.toNat = none ∧ (s.core g).queued < 8
  let fmt := ctl.toNat % 256
  (ctlBad ctl true = true → Faults (.adrain acc a c) s cProt (c.setWidth 64) 0 0) ∧
  (ctlBad ctl true = false → free → ∀ keys, drainKeys s (drainAddrs (s.rdS a) ctl) = .ok keys →
    Completes (.adrain acc a c) s (enter s { d (.mem (s.rdS a)) with keys })) ∧
  (ctlBad ctl false = false → (fmt = 3 ∨ fmt = 4 ∨ fmt = 8) → free → s.holdsSlot ((s.rdS a).toNat % 128) = true →
    Completes (.adrainO acc a c) s (enter s (d (.slot ((s.rdS a).toNat % 128))))) ∧
  (∀ pa fr p q, boundOf s f = .ok (pa, fr) → ctlBad ctl true = false → fmt = fr.info.fmt → free →
    drainPaneOk s fr (drainAddrs (s.rdS a) ctl) = .ok () → fr.glazeWait = none → fr.openOf g s.iss.x = some p →
    let bs := (drainAddrs (s.rdS a) ctl).map fun va => (va.toNat - fr.info.base) / 64
    fr.used + p.needFor bs ≤ fr.capacity → touchBlocks s fr.info true p bs = .ok q →
    Completes (.adrainP acc a c f) s
      (enter (s.changeFrame pa (fr.setLoose q)) { d (.pane (s.rdS a) pa) with paneName := q.name }))

/-- Tile tasks at issue (R269 to R272): a record that is not yet posted and whose tag is free joins its queue with STATE 1 once the
bundle's release is done, HOST lends the
slots 124 to 127, UNHOST takes them back and resets tile 15, and TWAIT ends at once for a tag that is not pending. -/
def Statements.TileTasks : Prop := ∀ (s : State) (r : SReg) (q : BitVec 2) (l : Loc),
  let g := s.iss.g
  let cl := g / 96
  let ws := s.blockWords l.key
  let w (n : Nat) : Nat := (ws.getD n 0).toNat
  let tag := w 0 / 2 ^ 48
  (slotRecord s (s.rdS r) false = .ok l → l.space = .main → l.wr = true → taskBad ws = false →
    (w 6 % 256 ≠ 0 → Completes (.ttask r q) s (s.putStat (BitVec.ofNat 64 (2 ^ 12)))) ∧
    (w 6 % 256 = 0 → (s.cluster cl).taskRoom q.toNat tag = true → Released s →
      let t : Task := {
        id := (s.cluster cl).taskNo, words := ws, addr := (s.rdS r).toNat, core := g, ctx := s.iss.x, pc := s.iss.pc }
      Completes (.ttask r q) s ((s.writePart (l.wkeys.map (· + 48)) 8 1).modCluster cl fun c =>
        { c.setQueue q.toNat (c.queue q.toNat ++ [t]) with tags := c.tags ++ [tag], taskNo := c.taskNo + 1 }))) ∧
  ((∀ n ∈ [124, 125, 126, 127], ((s.core g).slot n).st = .free) → Completes .ttaskHost s
    (s.setCore g { [124, 125, 126, 127].foldl (fun c n => c.setSlot n { st := .ready, holder := 4 }) (s.core g) with hosting := true })) ∧
  ((∃ n ∈ [124, 125, 126, 127], ((s.core g).slot n).st ≠ .free) → Completes .ttaskHost s (s.putStat (BitVec.ofNat 64 (2 ^ 10)))) ∧
  (s.taskAt g = false → Completes .ttaskUnhost s
    ((s.modCore g fun c => { [124, 125, 126, 127].foldl (fun c n => c.setSlot n {}) c with hosting := false }).resetTile g 15 0)) ∧
  ((s.rdS r).toNat % 2 ^ 16 ∉ (s.cluster cl).tags → Completes (.twait r) s s)

/-! ### The copy engine -/

/-- Copy-engine instructions (R122, R133, R134, R138, R141 to R147): CHEAD on a channel that walks is refused with CHBUSY, else it releases at its
bundle's scope and takes the watch range and a snapshot of the shape sets; an idle channel shows the last record that it completed; the reads of
state and watermark have latency 4; a shape write waits for the third next issue of its context; an armed context that a knock waits for starts at
once. That CHEAD leaves the record to the first record read is the model's reading (log entry 34). -/
def Obligations.CopyInstructions : Prop := ∀ (s : State) (h w d : SReg) (n : BitVec 2) (mask : BitVec 4) (set field : BitVec 3),
  let g := s.iss.g
  let k := s.chan g n.toNat
  let a := s.rdS h
  let base := (s.rdS w).toNat
  let busy : Prop := k.st = .walking ∨ k.st = .pageWait
  (busy → Completes (.chead h w d n) s (s.putStat (BitVec.ofNat 64 (2 ^ 5)))) ∧
  (¬busy → a.toNat % 64 ≠ 0 → Faults (.chead h w d n) s cAlign a 64 0) ∧
  (¬busy → a.toNat % 64 = 0 → Released s → Completes (.chead h w d n) s (s.setChan g n.toNat { k with
    wbase := base, wlen := (s.rdS d).toNat, wmk := base, written := [], shapes := (s.core g).shapes, issuer := s.iss.x, orphan := false,
    words := none, sector := 0, restripe := none, walk := none, fault := none, saved := false
    st := if a = 0 then .idle else .walking, record := if a = 0 then k.record else a.toNat })) ∧
  Completes (.cstat d n) s (s.putS d (BitVec.ofNat 64 ((if k.st = .idle then k.lastDone else k.record) / 64 * 64 +
    match k.st with | .idle => 0 | .walking => 1 | .parked => 2 | .pageWait => 3 | .cancelled => 4)) 4) ∧
  Completes (.cwmk d n) s (s.putS d (BitVec.ofNat 64 k.wmk) 4) ∧
  (k.wlen = 0 ∨ ¬busy ∨ min a.toNat k.watchEnd ≤ k.wmk → Completes (.cwmkW h n) s s) ∧
  Completes (.ccancel mask) s (((List.range 4).filter mask.toNat.testBit).foldl (fun t c => t.cancelChan t.iss.g c 1 false) s) ∧
  ((∀ i < 4, mask.getLsbD i = true → (s.chan g i).st ≠ .walking ∧ (s.chan g i).st ≠ .pageWait) → Completes (.qjoin mask) s s) ∧
  Completes (.shape h set field) s (s.modCore g fun c =>
    { c with shapeWrites := c.shapeWrites ++ [⟨s.iss.x, s.iss.issue + 3, set.toNat, field.toNat, s.rdS h⟩] }) ∧
  Completes (.knarm n) s ((s.modCtx g n.toNat fun k => { k with armed := true }).serveKnock g) ∧
  Completes (.knarmD n) s (s.modCtx g n.toNat fun k =>
    { k with armed := false, idleAt := if k.armed = true ∧ k.run = .dormant then s.cycle else k.idleAt })

/-! ### Frames and panes -/

/-- Binding frame registers (R91, R93, R113, R274, R416): a sound record of a frame without an adjoint on pages of kind frame, or of an adjoint
frame, enters the directory, and the register binds it one issue later; with an adjoint, both records enter. The page of the arena tells the two
kinds apart. -/
def Statements.FrameBinding : Prop := ∀ (s : State) (r : SReg) (f : FReg) (pa : Nat) (ws : List Word64) (l : Loc),
  let va := s.rdS r
  let q := frameRecOf va.toNat ws
  let closed : Prop := ∀ old, vget none s.cur.f f.toNat = some old → (s.frame old).openOf s.iss.g s.iss.x = none
  (closed → Completes (.fbindU f) s (s.emit (.bind f.toNat none) 1)) ∧
  (closed → recordAt s va va = .ok (pa, ws) → frameRecBad ws q = false → arenaLoc s q va = .ok l →
    (l.kind = 1 → s.frameKindOk q 1 = true → q.diff = false → ∀ t, enterRecord s pa q va = .ok t →
      Completes (.fbind r f) s (t.emit (.bind f.toNat (some pa)) 1)) ∧
    (l.kind = 1 → s.frameKindOk q 1 = true → q.diff = true → ∀ apa a t u, adjointAt s (BitVec.ofNat 64 q.adj) va = .ok (apa, a) →
      adjointMismatch q a = false → (if (s.frame apa).inDir then .ok s else enterRecord s apa a va) = .ok t →
      enterRecord t pa { q with adjPa := apa } va = .ok u → Completes (.fbind r f) s (u.emit (.bind f.toNat (some pa)) 1)) ∧
    (l.kind = 2 → q.adjointFields = true → s.frameKindOk q 2 = true → ∀ t,
      enterRecord s pa { q with adjoint := true } va = .ok t → Completes (.fbind r f) s (t.emit (.bind f.toNat (some pa)) 1)))

/-- Opening, sealing, dropping and reading panes (R95 to R98, R108, R114, R121): a new pane is empty and open, a pane that is not there
leaves only kstat.PANENONE, and the reads have latency 8. -/
def Statements.PaneStates : Prop := ∀ (s : State) (n d : SReg) (f : FReg) (pa : Nat),
  let fr := s.frame pa
  let g := s.iss.g
  let x := s.iss.x
  let name := (s.rdS n).toNat % 2 ^ 16
  let none_ := s.putStat (BitVec.ofNat 64 (2 ^ 4))
  let fresh : Prop := name < 0xE800 ∧ fr.openOf g x = none ∧ fr.nameUsed name = false ∧ fr.used + 1 ≤ fr.capacity
  let opened (ow : Bool) : State := s.changeFrame pa { fr with loose := fr.loose ++ [{ name, ow, st := .opened g x }] }
  vget none s.cur.f f.toNat = some pa →
  (fresh → Completes (.popenOw n f) s (opened true)) ∧
  (fresh → fr.info.addok = true → Completes (.popenAdd n f) s (opened false)) ∧
  (fr.glazeWait = none →
    (fr.openOf g x = none → Completes (.pseal f) s none_) ∧
    (∀ p, fr.openOf g x = some p → Completes (.pseal f) s (s.changeFrame pa (fr.setLoose { p with st := .sealed }))) ∧
    (fr.droppable g x name = none → Completes (.pdrop n f) s none_) ∧
    (∀ p, fr.droppable g x name = some p →
      Completes (.pdrop n f) s (s.changeFrame pa (((fr.dropLoose p.name).freed p p.arenaBlocks).loseSettle p))) ∧
    Completes (.psettleAll f) s (s.changeFrame pa { fr with settleAll := true })) ∧
  (let found := (fr.loose ++ fr.chain).find? fun q => q.name == name
   (found = none → Completes (.pstatP d n f) s (s.putS d 0 8)) ∧
   (∀ p, found = some p → p.implicit = false → Completes (.pstatP d n f) s (s.putS d (BitVec.ofNat 64 (fr.paneWord p)) 8))) ∧
  Completes (.pstatF d f) s (s.putS d (BitVec.ofNat 64 ((if fr.chain = [] then 2 ^ 32 else 0) +
    (match fr.chain.getLast? with | some p => p.name | none => 0) * 2 ^ 16 + fr.info.maxdepth * 2 ^ 8 + fr.chain.length)) 8) ∧
  Completes (.pstatA d f) s (s.putS d (BitVec.ofNat 64 ((fr.info.arenalen - 5) * 2 ^ 32 + (fr.info.arenalen - 5 - fr.used))) 8)

/-- Applying and merging panes, and their inverses (R99 to R101, R115, R116, R118): with the pane events that the chain, its room and the arena
allow, and the bundle's release done, the results of the chain operations are committed as one change of each frame, with their flags. The inverse
of a pane with cleared elements, whose pre-images come back at the delta's scale, is the model's reading (log entry 59). -/
def Statements.PaneEvents : Prop := ∀ (s : State) (a b c : SReg) (f : FReg) (count1 : BitVec 2) (fs : List (Nat × Frame)) (fl : BitVec 6)
    (pa : Nat),
  let fr := s.frame pa
  let name (r : SReg) : Nat := (s.rdS r).toNat % 2 ^ 16
  let none_ := s.putStat (BitVec.ofNat 64 (2 ^ 4))
  (Released s → applyGroup s [] (groupPanes s a b (count1.toNat + 1)) = .ok (some (fs, fl)) →
    Completes (.papplyG a b count1) s ((s.changeFrames fs).putFlags fl 1)) ∧
  (applyGroup s [] (groupPanes s a b (count1.toNat + 1)) = .ok none → Completes (.papplyG a b count1) s none_) ∧
  (vget none s.cur.f f.toNat = some pa → fr.glazeWait = none →
    (fr.sealedPane (name a) = none → Completes (.papply a f) s none_) ∧
    (∀ p, Released s → fr.sealedPane (name a) = some p → applyAll s [(pa, p)] = .ok (fs, fl) →
      Completes (.papply a f) s ((s.changeFrames fs).putFlags fl 1)) ∧
    (name b < 0xE800 → fr.chain.find? (fun q => q.name == name a) = none → Completes (.pinv a b f) s none_) ∧
    (∀ p t, Released s → name b < 0xE800 → fr.chain.find? (fun q => q.name == name a) = some p → fr.nameUsed (name b) = false →
      (let n := p.inverse fr.info (name b)
       applyOne s pa fr n n.ownBlocks = .ok (t, fl)) → Completes (.pinv a b f) s ((s.changeFrame pa t).putFlags fl 1)) ∧
    (∀ i j p, name c < 0xE800 → fr.position (name a) = some i → fr.position (name b) = some j →
      (j < i → Completes (.pglaze a b c f) s none_) ∧
      (i ≤ j → fr.nameUsed (name c) = false → Released s → glazePane s pa fr i j (name c) = .ok (p, fl) →
        Completes (.pglaze a b c f) s ((s.changeFrame pa (fr.glazed i j p)).putFlags fl 1))))

/-- What an apply, an inverse and a glaze leave (R98, R99, R101, R102, R115, R116, R118, R281). An applied pane stands on top of the chain, in a
full chain after the merge of the two lowest under the lower one's name; the blocks that reset the chain, all of an OW pane and those with cleared
elements of another, hold what the chain below reads as. The inverse of an ADD pane negates its terms and turns cleared elements back into what
stood below, that of an OW pane holds its pre-image, and a poisoned pre-image gives poison. A merge takes the place of its run: it is an ADD pane
where the whole run is, each present element the rounded sum of the run's terms at the scale of the frame's own block (what a poisoned block of
the run gives is the model's choice: log entry 94), else an OW pane that holds the reads through the chain up to the run's top and up to its foot.
-/
def Statements.ChainsAfterPaneEvents : Prop := ∀ (s : State) (pa : Nat) (f t : Frame) (p g : Pane) (extra lo hi name : Nat) (fl : BitVec 6),
  (applyOne s pa f p extra = .ok (t, fl) → ∃ (f0 : Frame) (q : Pane),
    (f.chain.length < f.info.maxdepth → f0 = f ∧ fl = 0) ∧
    (f.info.maxdepth ≤ f.chain.length → ∃ (l m : Pane) (above : List Pane) (g : Pane), f.chain = l :: m :: above ∧ f.info.hglaze = true ∧
      l.ow = false ∧ m.ow = false ∧ glazePane s pa f 0 1 l.name = .ok (g, fl) ∧ f0 = f.glazed 0 1 g) ∧
    f0.used + (extra + p.preNeeded) ≤ f0.capacity ∧
    t.chain = f0.chain ++ [q] ∧ t.loose = f0.loose.filter (fun l => l.name != p.name) ∧ t.info = f.info ∧ t.glazeWait = none ∧
    q = { p with st := .applied, implicit := false, blocks := q.blocks } ∧ q.blocks.length = p.blocks.length ∧
    ∀ (i : Nat) (k : PaneBlock), p.blocks[i]? = some k →
      if p.ow = true ∨ k.cleared ≠ 0 then ∃ v fl', frameRead s f.info f0.chain k.idx = .ok (v, fl') ∧
        q.blocks[i]? = some { k with pre := some v.data, preScale := scaleOf v.desc, prePoison := isPoison v.desc }
      else q.blocks[i]? = some k) ∧
  (∀ fs, applyAll s [(pa, p)] = .ok (fs, fl) → ∃ u, fs = [(pa, u)] ∧ applyOne s pa (s.frame pa) p 0 = .ok (u, fl)) ∧
  (∀ (panes : List (Nat × FReg)) fs, applyGroup s [] panes = .ok (some (fs, fl)) →
    fs.length = panes.length ∧ (fs.map (·.1)).Nodup ∧ ∀ (i n : Nat) (r : FReg), panes[i]? = some (n, r) → ∃ qa p u fl',
      vget none s.cur.f r.toNat = some qa ∧ (s.frame qa).sealedPane n = some p ∧ applyOne s qa (s.frame qa) p 0 = .ok (u, fl') ∧
      fs[i]? = some (qa, u)) ∧
  (let r := f.info
   let q := p.inverse r name
   q.name = name ∧ q.ow = p.ow ∧ q.st = .sealed ∧ q.negated = (!p.ow && !p.negated) ∧ q.blocks.length = p.blocks.length ∧
   (∀ (i : Nat) (k : PaneBlock), p.blocks[i]? = some k → ∃ j : PaneBlock, q.blocks[i]? = some j ∧ j.idx = k.idx ∧ j.pre = none ∧
     (k.prePoison = true → (p.ow = true ∨ k.cleared ≠ 0) → j.poison = true ∧ j.data = 0 ∧ j.present = fullMask r.perBlock) ∧
     (k.prePoison = false → p.ow = true →
       j.poison = false ∧ j.data = k.pre.getD 0 ∧ j.scale = k.preScale ∧ j.present = k.present) ∧
     (p.ow = false → k.cleared = 0 → j.data = k.data ∧ j.scale = k.scale ∧ j.present = k.present ∧ j.poison = k.poison ∧ j.cleared = 0) ∧
     (p.ow = false → k.cleared ≠ 0 → k.prePoison = false →
       j.scale = k.scale ∧ j.present = k.present ∧ j.cleared = k.cleared ∧ ∀ e < r.perBlock, laneOf r.width j.data e =
         if k.cleared.getLsbD e = true then
           (if k.preScale = k.scale then laneOf r.width (k.pre.getD 0) e
            else (r.fit ((laneNum r.fmt ⟨k.pre.getD 0, mkDesc r.fmt k.preScale⟩ e).scale (-k.scale))).1 % 2 ^ r.width)
         else laneOf r.width k.data e)) ∧
   (p.ow = false → (∀ k ∈ p.blocks, k.cleared = 0) → ∀ b i, q.termAt r.fmt b i =
     match p.termAt r.fmt b i with
     | .term v => .term v.negate
     | x => x)) ∧
  (glazePane s pa f lo hi name = .ok (g, fl) → 1 ≤ f.info.fmt → f.info.fmt ≤ 10 →
    let r := f.info
    let below := f.chain.take lo
    let run := (f.chain.drop lo).take (hi + 1 - lo)
    let u := f.glazed lo hi g
    g.name = name ∧ g.st = .applied ∧ g.glazed = true ∧ g.negated = false ∧ (g.ow = true ↔ ∃ q ∈ run, q.resets = true) ∧
    (g.inexact = true ↔ fl &&& 0x10 ≠ 0) ∧
    (g.blocks.map PaneBlock.idx).Pairwise (· < ·) ∧ (∀ b, b ∈ g.blocks.map PaneBlock.idx ↔ ∃ q ∈ run, b ∈ q.blocks.map PaneBlock.idx) ∧
    (g.ow = false → ∀ k ∈ g.blocks, ∃ fb, frameRaw s r k.idx = .ok fb ∧ k.scale = blockScale fb.desc ∧ k.pre = none ∧
      (k.poison = true ↔ ∃ q ∈ run, ∃ j, q.block? k.idx = some j ∧ j.poison = true) ∧
      ∀ e < r.perBlock, let terms := run.filterMap fun q => match q.termAt r.fmt k.idx e with | .term v => some v | _ => none
        (k.present.getLsbD e = true ↔ terms ≠ []) ∧
        (k.poison = false → laneOf r.width k.data e =
          if terms = [] then 0 else (r.fit ((sumTerms terms).1.scale (-k.scale))).1 % 2 ^ r.width)) ∧
    (g.ow = true → ∀ k ∈ g.blocks, ∃ v pre fv fp, frameRead s r (below ++ run) k.idx = .ok (v, fv) ∧ frameRead s r below k.idx = .ok (pre, fp) ∧
      k = { idx := k.idx, data := v.data, scale := scaleOf v.desc, present := fullMask r.perBlock, poison := isPoison v.desc,
            pre := some pre.data, preScale := scaleOf pre.desc, prePoison := isPoison pre.desc }) ∧
    u.chain = below ++ g :: f.chain.drop (hi + 1) ∧ u.loose = f.loose ∧ u.info = f.info ∧
    u.zombie = f.zombie + ((run.filter (·.old)).map Pane.arenaBlocks).sum)

/-- Moving panes along a chain, off it and to another frame, and asking for a settle (R104, R117, R119, R120): each needs that the pane
commutes with those that it passes, and a pane that does not is a pane conflict naming both. -/
def Statements.PaneMoves : Prop := ∀ (s : State) (a b : SReg) (f h : FReg) (pa qa : Nat),
  let fr := s.frame pa
  let dst := s.frame qa
  let name (r : SReg) : Nat := (s.rdS r).toNat % 2 ^ 16
  let conflict (p q : Pane) (i : Instr) : Prop := Faults i s cPane (BitVec.ofNat 64 pa) 0 (BitVec.ofNat 64 (q.name * 2 ^ 16 + p.name))
  vget none s.cur.f f.toNat = some pa → fr.glazeWait = none →
  (∀ i j, fr.position (name a) = some i → fr.position (name b) = some j → j < i →
    let p := fr.chain.getD i default
    ((∀ q ∈ (fr.chain.drop j).take (i - j), commutes p q = true) → Completes (.pcomm a b f) s
      (s.changeFrame pa { fr with chain := (fr.chain.eraseIdx i).take j ++ p :: (fr.chain.eraseIdx i).drop j })) ∧
    (∀ q, ((fr.chain.drop j).take (i - j)).find? (fun q => !commutes p q) = some q → conflict p q (.pcomm a b f))) ∧
  (∀ i, fr.position (name a) = some i →
    let p := fr.chain.getD i default
    ((∀ q ∈ fr.chain.drop (i + 1), commutes p q = true) → Released s → Completes (.plift a f) s (s.changeFrame pa
      (({ fr with chain := fr.chain.eraseIdx i, loose := fr.loose ++ [{ p.dropPre with st := .sealed }] } : Frame).freed p p.preBlocks))) ∧
    (∀ q, (fr.chain.drop (i + 1)).find? (fun q => !commutes p q) = some q → conflict p q (.plift a f)) ∧
    ((∀ q ∈ fr.chain.take i, commutes p q = true) →
      Completes (.psettle a f) s (s.changeFrame pa { fr with chain := fr.chain.set i { p with settle := true } }))) ∧
  (fr.position (name a) = none → Completes (.plift a f) s (s.putStat (BitVec.ofNat 64 (2 ^ 4))) ∧
    Completes (.psettle a f) s (s.putStat (BitVec.ofNat 64 (2 ^ 4)))) ∧
  (vget none s.cur.f h.toNat = some qa → dst.glazeWait = none → name b < 0xE800 → ∀ p, fr.copyable (name a) = some p →
    fr.info.fmt = dst.info.fmt → fr.info.layout = dst.info.layout → (∀ j < 4, fr.info.dim j = dst.info.dim j) →
    (p.ow = true ∨ dst.info.addok = true) → dst.nameUsed (name b) = false →
    let q : Pane := { p.dropPre with name := name b, st := .sealed, old := false, settle := false, implicit := false }
    dst.used + q.ownBlocks ≤ dst.capacity → Released s →
    Completes (.pxpl a b f h) s (s.changeFrame qa { dst with loose := dst.loose ++ [q] }))

/-! ### Latches, handles, tapes, collectives, page service -/

/-- Latches (R346 to R349, R360 to R363): arrivals count up to 0xFFFF and one more faults, a set latch keeps WAIT, a complete latch ends the wait at
once, with re-arm EXPECTED arrivals are consumed, a wait that has ended in an event of its own consumes none again, and the rotation is written
within its bounds. That the fault of LBASE.SET names the value of s[op2] in w2 is the model's choice (log entry 139: R362 names nothing). -/
def Statements.Latches : Prop := ∀ (s : State) (l v d : SReg) (rot re : Bool) (mask : BitVec 8),
  (∀ g n, latchName s (s.rdS l) rot = .ok (g, n) →
    let w := s.latch g n
    let expected := w.toNat % 2 ^ 16
    let arrived := w.toNat / 2 ^ 16 % 2 ^ 16
    let waiting := w.toNat / 2 ^ 48
    let put (a e : Nat) : State := s.setLatch g n (waiting * 2 ^ 48 + a * 2 ^ 16 + e)
    let more := (s.rdS v).toNat % 2 ^ 16
    (arrived < 0xFFFF → Released s → Completes (.larr l rot) s (put (arrived + 1) expected)) ∧
    (arrived = 0xFFFF → Released s → Faults (.larr l rot) s cProt (BitVec.ofNat 64 (latchPa g n)) 0 0) ∧
    (arrived + more ≤ 0xFFFF → Released s → Completes (.larrN l v rot) s (put (arrived + more) expected)) ∧
    (Released s → Completes (.larrSet l v rot) s (put 0 more)) ∧
    (g = s.iss.g → Completes (.larrRd l d rot) s (s.putS d w 8)) ∧
    (g ≠ s.iss.g → (s.core s.iss.g).sillUsed < 256 →
      Completes (.larrRd l d rot) s (s.land [.s (physS s.cur.k.rs d) w] 64 false)) ∧
    (s.granted = true → Completes (.lwait l re rot) s s) ∧
    (s.granted = false → expected ≤ arrived → Completes (.lwait l re rot) s (if re then put (arrived - expected) expected else s)) ∧
    (s.granted = false → arrived < expected →
      Happens (.lwait l re rot) s (s.modIss fun i => { i.keep with waits := i.waits ++ [(i.slot, .latch g n re)] }))) ∧
  (∀ g named j n, latchCore s (s.rdS l) = .ok g →
    maskLatches s (s.rdS l) rot ((List.range 8).filter fun j => mask.getLsbD j) = .ok named →
    let found (t : State) (j : Nat) : State := (t.putS d (BitVec.ofNat 64 j) 1).putK .wpos (BitVec.ofNat 64 ((j + 1) % 8))
    (s.iss.choice = some j → Completes (.waitany d l re rot mask) s (found s j)) ∧
    (s.iss.choice = none →
      ((List.range 8).map fun i => (s.cur.k.wpos + i) % 8).findSome? (fun j => named.find? fun e => e.1 == j && s.latchDone g e.2) =
        some (j, n) →
      Completes (.waitany d l re rot mask) s (found (if re then s.latchConsume g n else s) j)) ∧
    (s.iss.choice = none → (∀ e ∈ named, s.latchDone g e.2 = false) →
      Happens (.waitany d l re rot mask) s (s.modIss fun i => { i.keep with waits := i.waits ++ [(i.slot, .anyLatch g named re)] }))) ∧
  (let base := (s.rdS l).toNat % 2 ^ 9
   let depth := (s.rdS v).toNat
   (1 ≤ depth → depth ≤ 128 → base + depth ≤ 512 → Completes (.lbaseSet l v) s
     (((s.putK .lb (BitVec.ofNat 64 base)).putK .ldm1 (BitVec.ofNat 64 (depth - 1))).putK .lrot 0)) ∧
   (depth = 0 ∨ 128 < depth ∨ 512 < base + depth → Faults (.lbaseSet l v) s cProt (s.rdS v) 0 0)) ∧
  Completes .lbaseStep s (s.putK .lrot (BitVec.ofNat 64 ((s.cur.k.lrot + 1) % (s.cur.k.ldm1 + 1))))

/-- Handles (R181, R182, R201): only a valid handle is written, a wait ends at once where enough slots are filled or free, and an advance past what
is there leaves the handle and sets kstat.HOVER. That the faults name the handle's number in w2 is the model's choice (log entry 139: R181 and R201
name nothing). -/
def Statements.Handles : Prop := ∀ (s : State) (h : HReg) (r : SReg),
  let v := s.cur.rdH h
  let slots (v : Word64) : Nat := v.toNat / 2 ^ 32 % 2 ^ 16
  let prod := v.toNat / 2 ^ 16 % 2 ^ 16
  let cons := v.toNat % 2 ^ 16
  let filled (v : Word64) : Nat := (v.toNat / 2 ^ 16 % 2 ^ 16 + 2 ^ 16 - v.toNat % 2 ^ 16) % 2 ^ 16
  let n := (s.rdS r).toNat
  let put (w : Word64) : State := s.modCur fun k => { k with h := vset k.h h.toNat w }
  (let w := s.rdS r
   let valid := w.toNat < 2 ^ 48 ∧ 1 ≤ slots w ∧ filled w ≤ slots w
   (valid → Completes (.hset h r) s (put w)) ∧ (¬valid → Faults (.hset h r) s cProt (h.setWidth 64) 0 0)) ∧
  Completes (.hsetR h r) s (s.putS r v 1) ∧
  (slots v ≠ 0 →
    (n ≤ slots v → n ≤ filled v → Completes (.hwaitData h r) s s) ∧
    (n ≤ slots v → n ≤ slots v - filled v → Completes (.hwaitRoom h r) s s) ∧
    (n ≤ filled v → Completes (.hadvCons h r) s (put (BitVec.ofNat 64 (slots v * 2 ^ 32 + prod * 2 ^ 16 + (cons + n) % 2 ^ 16)))) ∧
    (n ≤ slots v - filled v →
      Completes (.hadvProd h r) s (put (BitVec.ofNat 64 (slots v * 2 ^ 32 + (prod + n) % 2 ^ 16 * 2 ^ 16 + cons)))) ∧
    (filled v < n → Completes (.hadvCons h r) s (s.putStat (BitVec.ofNat 64 (2 ^ 8)))) ∧
    (slots v - filled v < n → Completes (.hadvProd h r) s (s.putStat (BitVec.ofNat 64 (2 ^ 8))))) ∧
  (slots v = 0 → Faults (.hwaitData h r) s cProt (h.setWidth 64) 0 0 ∧ Faults (.hwaitRoom h r) s cProt (h.setWidth 64) 0 0 ∧
    Faults (.hadvCons h r) s cProt (h.setWidth 64) 0 0 ∧ Faults (.hadvProd h r) s cProt (h.setWidth 64) 0 0)

/-- Reverse mode and the tape's control (R275, R277, R279, R280, R288, R289): entering waits for the context's
pushes and differentiable stores and reads the region table, leaving seals and applies the
implicit panes as one event, pushes are enabled only on a sound tape (pages that no walk finds are left to the accesses: the model's choice, log
entry 11), a mark is pushed and popped (what the overflow trap names for it is a free value: log entry 39), and the tape is emptied. The other slots
of an issue keep the mode before it, and MARK, UNMARK and RESET count as writes of ktpos (log entry 111). -/
def Obligations.ReverseModeAndTape : Prop := ∀ (s t : State) (r : SReg) (ws : List Word64) (rs : List Region) (fs : List (Nat × Frame))
    (fl : BitVec 6),
  let k := s.cur.k
  let named (t : State) : State := t.emit (.keepK .tpos) 1
  (k.rev = true → Completes .dmodeRev s s) ∧
  (k.rev = false → (∀ e ∈ s.cur.trail, e.grad = true → e.due ≤ (s.core s.iss.g).clock) → k.dreg.toNat % 32 ≤ 16 →
    let name := BitVec.ofNat 64 (k.dreg.toNat / 64 * 64)
    tableWords s name ((k.dreg.toNat % 32 + 1) / 2) (k.dreg.toNat / 64 * 64) = .ok ws → readRegions s name ws (k.dreg.toNat % 32) = .ok (rs, t) →
    Completes .dmodeRev s ((t.modCur fun c => { c with regions := rs, implicit := [], k := { c.k with rev := true } }).modIss
      fun i => { i with revAs := some false })) ∧
  (k.rev = false → Completes .dmodeFwd s s) ∧
  (k.rev = true → Released s → applyAll s (s.implicitPanes.filter fun e => !e.2.blocks.isEmpty) = .ok (fs, fl) →
    Completes .dmodeFwd s (((((s.changeFrames fs).dropEmptyPanes s.implicitPanes).putFlags fl 1).modCur fun c =>
      { c with implicit := [], k := { c.k with rev := false } }).modIss fun i => { i with revAs := some true })) ∧
  (s.tapeOk = true → Completes .tapeOn s (s.modCur fun c => { c with k := { c.k with tapeOn := true } })) ∧
  (s.tapeOk = false → Faults .tapeOn s cProt 0x1B 0 0) ∧
  Completes .tapeOff s (s.modCur fun c => { c with k := { c.k with tapeOn := false } }) ∧
  (pushTape { s with free := s.free + 1 } (Config.openWord s.free) [(BitVec.ofNat 64 (4 * 2 ^ 60), s.rdS r)] = .ok t →
    Completes (.tapeMark r) s (named t)) ∧
  (∀ h0 h1 l, topEntry s = .ok (h0, h1, l) → (s.core s.iss.g).sillUsed < 256 →
    (h0.toNat / 2 ^ 60 = 4 →
      let pos := k.tpos.toNat - 16
      let lat := s.latencyOf s.iss.g pos l
      Completes (.tapeUnmark r) s (((named (s.popTape 16)).land [.s (physS s.cur.k.rs r) h1] lat false).note pos 16 false lat)) ∧
    (h0.toNat / 2 ^ 60 ≠ 4 → Faults (.tapeUnmark r) s cProt 0x1B 0 0)) ∧
  Completes .tapeReset s (named (s.modCur fun c => { c with k := { c.k with tpos := c.k.tape } }))

/-- Posting a collective record and serving a page fault (R82, R163, R165): a sound record that is not yet posted joins the die's engine
with STATE 1, a stale tag leaves only kstat.PGSTALE, and PGRES.INV drops a page from every TLB. -/
def Statements.CollectivesAndPageService : Prop := ∀ (s : State) (r : SReg) (l : Loc),
  let d := s.iss.g / 96 / 4
  let ws := s.blockWords l.key
  let state := (ws.getD 7 0).toNat % 256
  (slotRecord s (s.rdS r) false = .ok l → l.space = .main → l.wr = true → collBad ws = false →
    (state ≠ 0 → Completes (.coll r) s (s.putStat (BitVec.ofNat 64 (2 ^ 6)))) ∧
    (state = 0 → s.collRoom d = true → Released s → Completes (.coll r) s ((s.writePart (l.wkeys.map (· + 56)) 8 1).setColl d { s.coll d with
      jobs := (s.coll d).jobs ++ [{ words := ws, addr := (s.rdS r).toNat, core := s.iss.g, ctx := s.iss.x }] }))) ∧
  (s.faultOf (s.rdS r) = none →
    Completes (.pgres r) s (s.putStat (BitVec.ofNat 64 (2 ^ 3))) ∧ Completes (.pgresFail r) s (s.putStat (BitVec.ofNat 64 (2 ^ 3)))) ∧
  (∀ cl n, s.faultOf (s.rdS r) = some (cl, n) → Completes (.pgres r) s (s.closeFault cl n) ∧
    Faults (.pgresFail r) s cProt ((s.cluster cl).fault n).va 0 0) ∧
  (translated (s.rdS r).toNat = true → Completes (.pgresInv r) s { s with clusters := s.clusters.map fun e : Nat × Cluster =>
    (e.1, { e.2 with tlb := e.2.tlb.filter fun t : TlbEntry =>
      (s.rdS r).toNat / levelSpan t.level * levelSpan t.level != t.va }) })

/-! ### Events of contexts -/

/-- Issue, delivery and waits (R11, R20, R30, R78, R82, R171, R173, R319, R340, R341): what each event of a context or its core leaves where its
condition holds. A bundle issues outside a nest's body, a page that a waiter asked for is looked up again. That a repetition begins with the bundle
kept from its first fetch, without a new one, is the model's reading (log entry 79). -/
def Statements.ContextEvents : Prop := ∀ (s : State) (g x : Nat),
  let c := s.core g
  let k := s.ctx g x
  let u := s.setCtx g x k
  (∀ b, s.issueDue g x = true → k.resume = none → k.repeats = some b → Happens (.bundleIssue g x) s (s.beginIssue g x b)) ∧
  (∀ h b, s.issueDue g x = true → k.resume = none → k.repeats = none → s.fetchHeader g k.pc = .got h → k.skip h = none → k.nest = none →
    u.fetchBundle g k.pc = .got b → Happens (.bundleIssue g x) s (u.beginIssue g x b)) ∧
  (∀ i, s.issueDue g x = true → k.resume = some i → Happens (.bundleIssue g x) s (s.resumeIssue g x i)) ∧
  (∀ code w2 w3 n, s.issueDue g x = true → k.resume = none → k.repeats = none → s.fetchHeader g k.pc = .fault code w2 w3 n →
    Happens (.bundleIssue g x) s (u.fetchFault g x code k.pc w2 w3 n)) ∧
  (k.resultsDue = true → Happens (.resultDelivery g x) s (s.setCtx g x { k.deliver k.issueNo with
    landed := k.landed ++ (k.inflight.filter fun e => decide (e.due ≤ k.issueNo)).filterMap fun e => e.upd.dest.map fun d => (d, e.issue) })) ∧
  (s.landingDue g = true →
    ((∀ l ∈ c.dueLandings, l.ready = true) → Happens (.landingDelivery g) s (s.setCore g c.deliverLandings)) ∧
    ((∃ l ∈ c.dueLandings, l.ready = false) → Happens (.landingDelivery g) s
      (s.setCore g { c.deliverLandings with frozen := c.frozen ++ [.late], frozenAt := s.cycle }))) ∧
  (c.lateMayArrive = true → Happens (.lateDataArrival g) s
    ((s.setCore g ({ c with
      sill := c.sill.map fun l : Landing => if l.due ≤ c.clock then { l with late := false } else l
      frozen := c.frozen.filter fun f : Freeze => f != .late } : Core).deliverLandings).annotate 0x10 g 0
        (BitVec.ofNat 64 (s.cycle - c.frozenAt)))) ∧
  (∀ i, s.wakeDue g x = true → k.resume = some i →
    Happens (.engineWaitEnd g x) s (s.wake g x i (s.waitOver g x i) (s.det && g % 96 != 95 || s.figureOver g x))) ∧
  (∀ y i, s.wheelDue g = true → s.wheelNext g = some y → (s.ctx g y).resume = some i →
    Happens (.scOrderPoint g) s ((s.setCore g { c with scLast := y, scAt := some s.cycle }).wake g y i WaitCond.onWheel true)) ∧
  (.walk x ∈ c.frozen → Happens (.walkComplete (.ctx g x)) s (s.ctxWalked g x)) ∧
  Happens (.walkComplete (.chan g x)) s (s.chanWalked g x) ∧
  (∀ y, s.quantumOver g = true → c.nextRunning c.cur = some y →
    Happens (.selectorQuantum g) s (s.setCore g { c with cur := y, quantum := 0 }))

/-- The deterministic schedule (R351 to R354, R386): a header that is not to be had is looked up, a stamped bundle issues at its moment, one that
comes due while its context waits or beside another of its core is an overrun, and the checkpoint distance is watched. That a repetition needs no
new fetch is the model's reading (log entry 79). -/
def Statements.ScheduleEvents : Prop := ∀ (s : State) (g x : Nat),
  let k := s.ctx g x
  let u := s.setCtx g x k
  let sclk := BitVec.ofNat 64 s.sclk
  let late (i : Instr) (code ctx : Nat) (pc w3 : Word64) : Prop := Happens i s { s with faults := addFault s.faults {
    code, gcore := g, ctx, rep := (s.ctx g ctx).rep, slot := 7, pc, w2 := pc, w3, cycle := s.cycle } }
  (s.scheduleReady g x = true → s.headerMissing g x = true → Happens (.scheduleDue g x) s (s.issueNext g x)) ∧
  (s.scheduleReady g x = true → s.headerMissing g x = false →
    (s.heldBundleDue g x = true → late (.scheduleDue g x) cOverrun x (s.dueAddress g x) sclk) ∧
    (∀ y, s.heldBundleDue g x = false → s.dueTwin g x = some y →
      late (.scheduleDue g x) cOverrun (max x y) (s.dueAddress g (max x y)) sclk) ∧
    (s.heldBundleDue g x = false → s.dueTwin g x = none → k.resume = none →
      let issued (t : State) : Prop :=
        Happens (.scheduleDue g x) s (t.modCore g fun c => { c with stampedAt := some (s.cycle, x) })
      (∀ b, k.repeats = some b → issued (s.beginIssue g x b)) ∧
      (∀ h b, k.repeats = none → s.fetchHeader g k.pc = .got h → k.skip h = none → k.nest = none → u.fetchBundle g k.pc = .got b →
        issued (u.beginIssue g x b)))) ∧
  (s.ckptOverrun g x = true → late (.ckptmaxOverrun g x) cOverrun x k.pc sclk) ∧
  (s.timeoutDue g x = true →
    late (.preemptionTimeout g x) cTimeout x k.pc (BitVec.ofNat 64 ((s.core g).clock - k.ckptAt)))

/-- Page service and continuation queues (R78, R80, R82, R343, R344): a released waiter retries, the oldest kept pager record enters as soon as
there is room, the host releases a pending fault or ends the launch with it, a record starts the context that takes it, and waiting records rise
every 65,536 cycles. That the fault of PGHOST with FAIL names agent 4 is the model's reading (log entry 33). -/
def Statements.QueueEvents : Prop := ∀ (s : State) (cl n : Nat) (who : Who) (v : Word64),
  let c := s.cluster cl
  ((s.cluster (s.whoCluster who)).released.contains who = true → Happens (.waiterRetry who) s
    ((s.modCluster (s.whoCluster who) fun c => { c with released := c.released.erase who }).retry who)) ∧
  (∀ r, (c.fault n).record = some r → s.recordDue cl = some n → Happens (.pagerRecordEnqueue cl n) s (s.setCluster cl
    { c.setFault n { c.fault n with record := none } with conts := c.conts ++ [{ r with since := s.cycle, ready := s.cycle }] })) ∧
  (∀ c' n', s.hostReaches = true → s.faultOf (BitVec.ofNat 64 (v.toNat % 2 ^ 63)) = some (c', n') →
    Happens (.pghost v) s (s.closeFault c' n') ∧
    Happens (.pghostFail v) s { s with faults := addFault s.faults {
      code := cProt, w2 := ((s.cluster c').fault n').va, agent := 4, agentNo := c', cycle := s.cycle } }) ∧
  (∀ i r g x, s.pickupDue cl = true → bestRec s.det (s.takeable cl) = some (i, r, g, x) →
    let w (j : Nat) : Word64 := r.words.getD j 0
    ∃ t, Happens (.pickup cl) s t ∧ (t.cluster cl).conts = c.conts.eraseIdx i ∧ (t.ctx g x).run = .running ∧
      (t.ctx g x).pc = BitVec.ofNat 64 ((w 0).toNat / 4 * 4) ∧ (t.ctx g x).k.kwork = w 1 ∧
      (∀ j : Nat, 1 ≤ j → j ≤ 4 → vget 0 (t.ctx g x).s j = w (j + 1)) ∧
      (∀ j < 15, vget false (t.ctx g x).p (j + 1) = (w 6).getLsbD (26 + j)) ∧
      (t.ctx g x).k.rs = (w 6).toNat % 16 ∧ (t.ctx g x).k.rp = (w 6).toNat / 16 % 8 ∧ (t.ctx g x).k.rv = (w 6).toNat / 256 % 8 ∧
      (t.ctx g x).k.lb = (w 6).toNat / 2 ^ 55 ∧ (t.ctx g x).k.ldm1 = (w 6).toNat / 2 ^ 48 % 128 ∧
      (t.ctx g x).k.lrot = (w 6).toNat / 2 ^ 41 % 128 ∧ (t.ctx g x).k.wpos = 0 ∧
      (t.ctx g x).ckpt = BitVec.ofNat 64 ((w 7).toNat / 256 * 256) ∧ (t.ctx g x).inflight = []) ∧
  ((∃ r ∈ c.conts, s.ages r = true) → Happens (.priorityAging cl) s (s.setCluster cl { c with
    conts := c.conts.map fun r : QRec =>
      if s.ages r then { r with prio := r.prio + 1, since := r.since + 65536 } else r }))

/-! ### Events of the engines -/

/-- Channels (R83, R86, R122, R127 to R129, R138): a channel that reaches a record not owned parks, a sound one sets STATUS 1 and begins with its
first sector or at PROG, and what is left to do of a sector is done; a record without further actions completes with STATUS 2, gives its own bit
back and goes on; a knock starts an armed context or is queued, and a ninth one ends the launch. Which fields make a record malformed beyond the
manual's list (log entries 89, 90), and that a gather takes up what it had agreed on before a cancellation (log entry 101), are the model's. -/
def Statements.ChannelEvents : Prop := ∀ (s t : State) (g c : Nat),
  let k := s.chan g c
  let ws := k.words.getD []
  (∀ l, k.active = true → k.words = none → recLoc s g c = .ok l →
    let ws := s.blockWords l.key
    let first := if (ws.getD 6 0).toNat % 256 = 3 then (ws.getD 6 0).toNat / 2 ^ 32 else 0
    ((ws.getD 0 0).getLsbD 5 = false → Happens (.channelRecordRead g c) s (s.setChan g c { k with st := .parked })) ∧
    ((ws.getD 0 0).getLsbD 5 = true → l.wr = true → recFieldsBad ws = false → recShapeBad k ws = false → (s.core g).recSlotsBad ws = false →
      recKind ws ≠ 4 → Happens (.channelRecordRead g c) s ((s.putRecord g k.record 6 (first * 2 ^ 32 + 1)).modChan g c fun k =>
        { k with words := some ws, sector := first, sent := first, saved := false, waitsPage := false
                 agreed := if first = 0 then [] else mget [] s.halted k.record })) ∧
    ((ws.getD 0 0).getLsbD 5 = true → (l.wr = false ∨ recFieldsBad ws = true) →
      Happens (.channelRecordRead g c) s { s with faults := addFault s.faults {
        code := cProt, w2 := BitVec.ofNat 64 k.record, agent := 1, agentNo := c, src := .chan g c, cycle := s.cycle } })) ∧
  (s.sectorLeft g c = true → sectorStep s g c = .ok t → Happens (.sectorComplete g c) s t) ∧
  (s.recordDone g c = true → recKind ws ≠ 4 → (ws.getD 1 0).getLsbD 47 = false → (ws.getD 1 0).getLsbD 63 = false →
    (ws.getD 5 0).getLsbD 63 = false → k.leave = false → s.recordKeys g k.record ≠ [] →
    let next := (ws.getD 0 0).toNat / 64 * 64
    Happens (.recordCompletion g c) s (((s.putRecord g k.record 6 (s.recSectors k ws * 2 ^ 32 + 2)).putRecord g k.record 0 next).modChan g c
      fun k => { k with words := none, sector := 0, leave := false, leaveAsked := false, lastDone := k.record, next, sending := none
                        st := if next = 0 then .idle else .walking, record := if next = 0 then k.record else next })) ∧
  (∀ kpc karg dst, (g, (⟨kpc, karg, dst⟩ : Knock)) ∈ s.knocksOut →
    let kn : Knock := ⟨kpc, karg, dst⟩
    let u : State := { s with knocksOut := s.knocksOut.erase (g, kn), cores := knockSent (g, kn) s.cores }
    (∀ x, (u.core g).armedCtx = some x → s.preempting = false → Happens (.knockDelivery (.own g kpc karg dst)) s (u.startByKnock g x kn)) ∧
    ((u.core g).armedCtx = none → (u.core g).knocks.length < 8 → Happens (.knockDelivery (.own g kpc karg dst)) s
      (u.modCore g fun c => { c with knocks := c.knocks ++ [kn] })) ∧
    ((u.core g).armedCtx = none → 8 ≤ (u.core g).knocks.length → Happens (.knockDelivery (.own g kpc karg dst)) s
      { u with faults := addFault u.faults {
        code := cKnock, gcore := g, w2 := BitVec.ofNat 64 g, w3 := BitVec.ofNat 64 (kpc * 4), w4 := BitVec.ofNat 64 karg
        cycle := s.cycle } })) ∧
  (∀ m, s.moverReaches = true → s.migrationAt g = some m →
    (m.cutover = false → s.pageCopied m = true → Happens (.restripeCutover g) s
      ((s.landFlights.writePhys m.entryPa 8 (movedEntry m 2)).setMigration { m with cutover := true })) ∧
    (m.cutover = true → s.taskNames m = false → ∃ u, Happens (.restripeStable g) s u ∧ ∀ n ∈ u.migrations, n.va ≠ m.va))

/-- A sector of a plain copy (R57, R58, R126, R128, R130, R131): the locations of its blocks are found and the blocks read, each to be written with
its descriptor at every placement of its destination; when they have been written, the watermark and the sector count move. Bytes to cells of a tile
that is owned then wait until it is not (R259). Bytes that another agent
writes in between end with either value (log entry 24). -/
def Statements.CopySector : Prop := ∀ (s : State) (g c : Nat) (src dst : List (Nat × Loc)) (vs : List VVal),
  let k := s.chan g c
  let ws := k.words.getD []
  let lo := k.sector * (64 * 2 ^ ((ws.getD 1 0).toNat / 256 % 16))
  let len := min (64 * 2 ^ ((ws.getD 1 0).toNat / 256 % 16)) ((ws.getD 4 0).toNat % 2 ^ 32 - lo)
  let from_ := (ws.getD 2 0).toNat + lo
  let to_ := (ws.getD 3 0).toNat + lo
  (ws.getD 1 0).toNat % 16 = 0 →
  (k.flight = [] → s.sectorWaits g c = true → (ws.getD 4 0).toNat % 2 ^ 32 ≤ 16384 →
    blockLocs s g c from_ false (len / 64) = .ok src → blockLocs s g c to_ true (len / 64) = .ok dst → sourceBlocks s g c src = .ok vs →
    Happens (.sectorComplete g c) s (s.takeOff g c ((dst.zip vs).map fun x => x.1.2.flight 64 x.2.data.toNat x.2.desc))) ∧
  (k.flight ≠ [] →
    let held := k.flight.filter s.flightOwned
    let t := (k.flight.filter fun f => !s.flightOwned f).foldl State.putLate s
    (held = [] → Happens (.sectorComplete g c) s
      ((t.modChan g c fun k => { k.wrote [(to_, to_ + len)] with sector := k.sector + 1 }).modChan g c fun k => { k with flight := [] })) ∧
    (held ≠ [] → Happens (.sectorComplete g c) s (t.modChan g c fun k => { k with flight := held })))

/-- The ends of fills and drains, the starts of matrix operations, and leave (R9, R180, R197, R258, R261, R267, R355, R394, R404). That a fill ends
with the blocks read at the issue of its OLOAD (log entry 21), that the drain issued first starts first (log entry 22) and that HOLD counts every
holder of leave (log entry 31) are the model's. -/
def Obligations.EngineEvents : Prop := ∀ (s : State) (g n : Nat),
  let c := s.core g
  (∀ j d, (c.slot n).job = some j → s.engineFrozen g = false → s.soundSrc (.fill g n) = true → fillDesc j.blocks 0 = .ok d →
    Happens (.oloadFillComplete g n) s (s.setCore g (c.setSlot n ((c.slot n).filled j.blocks d)))) ∧
  (∀ o rest, c.queue = o :: rest → s.headDue g = true → c.headBlocked o = false → s.startFault g o = none →
    (c.leave = true → Happens (.matrixOpStart g) s
      (s.setCore g { c.fixScale o with leave := true, queue := rest, array := some (o, s.engineClock g + o.time) })) ∧
    (c.leave = false → (c.needsLeave o = false ∨ s.leaveNow (g / 96) = true) → Happens (.matrixOpStart g) s
      ((s.holdLeave (g / 96)).setCore g { c.fixScale o with leave := true, queue := rest, array := some (o, s.engineClock g + o.time) })) ∧
    (c.needsLeave o = true → s.leaveNow (g / 96) = false → c.leaveAsked = false → Happens (.matrixOpStart g) s
      ((s.setCore g { c with leaveAsked := true }).modCluster (g / 96) fun k => { k with asks := k.asks ++ [.engine g] }))) ∧
  (∀ d rest, c.drains = d :: rest → s.drainMayStart g = true → s.det = false → Happens (.drainStart g) s
    (s.setCore g { c.beginFill (c.drainTarget d) with
      drains := rest, port := some ({ d with dst := c.drainTarget d }, s.engineClock g + 32), idleSince := s.engineClock g })) ∧
  (∀ d e, c.port = some (d, e) → s.drainDue g = true →
    let w := s.drainWrite g d
    let t := c.tile d.acc
    let u := if d.live then w.1.modCtx g d.ctx fun k => k.apply (.flagsOr (t.flags ||| w.2)) else w.1
    Happens (.drainComplete g) s
      ((if d.ctl.getLsbD 17 then u.resetTile g d.acc t.mode else u).modCore g fun c => { c with port := none, lastPc := d.pc })) ∧
  (∀ a rest, (s.cluster n).asks = a :: rest → (s.det = true ∨ (s.cluster n).hold < (s.cluster n).limit) →
    Happens (.leaveGrant n) s (((s.setCluster n { s.cluster n with asks := rest }).holdLeave n).markLeave n a)) ∧
  (c.leave = true → c.queue = [] → c.array = none → c.drains = [] → s.taskOn g = none → c.idleSince + 64 ≤ s.engineClock g → Happens (.leaveRelease g) s
    ((s.setCore g { c with leave := false }).modCluster (g / 96) fun k => { k with hold := k.hold - 1 })) ∧
  (s.classRunOver g = true → Happens (.classRunExpiry g) s ((s.classRecord g).modCore g fun c => { c with clsAt := s.cycle }))

/-- Tile tasks (R12, R269, R270, R345), where the page of the record is present: with leave the head task goes to the lowest-numbered free host, a
run starts with its extent table built, the record's page among it, and tile 15 reset, and its completion writes the result word through that table,
frees the tag and gives the leave back. That a task reads its operands and writes its rows in the event that completes it is the model's reading
(log entry 100). That the dispatch and the end of a task move the island's HOLD is the model's reading (log entry 31). -/
def Statements.TaskEvents : Prop := ∀ (s : State) (cl q g n : Nat) (t : Task) (home : Extent),
  (s.taskHome cl q t = .ok home → s.dispatchable cl q = some (t, n) →
    let sent (u : State) : State :=
      (u.modCluster cl fun c => c.modTask q t.id fun t => { t with dispatched := true, host := n, leave := true }).putState home 2
    (t.leave = true → Happens (.taskDispatch cl q) s (sent s)) ∧
    (t.leave = false → s.leaveNow cl = true → Happens (.taskDispatch cl q) s (sent (s.holdLeave cl)))) ∧
  (∀ l, (s.cluster cl).givenTo (g % 96) = some (q, t) → s.runMayStart g t = true → (t.word 4).toNat % 64 = 0 → t.outside = none →
    s.extents cl 5 t.declared = .ok l → s.extentCount l ≤ 32 → s.taskHome cl q t = .ok home → Happens (.taskRunStart cl g) s
      (((s.modCluster cl fun c => c.modTask q t.id fun t =>
        { t with built := true, extents := l, home := some home, startAt := s.engineClock g }).putState home 3).resetTile g 15 (t.op 0).mode)) ∧
  (∀ u, (s.cluster cl).runningOn (g % 96) = some (q, t) → s.taskDue cl g = true → s.taskSteps g t 0 t.kt = .ok u → t.home = some home →
    (t.word 5).getLsbD 17 = false → (t.word 1).getLsbD 63 = false →
    let tile := (u.core g).tile 15
    let w := u.taskDrain g t
    let v := (w.1.putState home (taskResult (g % 96) tile.poison (tile.flags ||| w.2))).modCluster cl fun c =>
      { c.setQueue q ((c.queue q).filter fun (u : Task) => u.id != t.id) with tags := c.tags.erase t.tag }
    Happens (.taskComplete cl g) s ((v.dropLeave cl).modCore g fun c =>
      { c with lastPc := t.pc, idleSince := max c.idleSince (t.startAt + t.products) }))

/-- Collective engines (R163): the signal word is awaited with STATE 2, a record whose ports are up starts with STATE 3, and one whose steps have
all come completes with STATE 4, its flags and the steps received, the page of the record being present. That STEPS is written at completion (log
entry 48) and that only the head of a queue awaits its signal (log entry 123) are the model's. -/
def Statements.CollectiveEvents : Prop := ∀ (s u : State) (d : Nat) (j : CollJob) (rest : List CollJob),
  let e := s.coll d
  (∀ v, e.running = none → e.jobs = j :: rest → s.signalDue d = true → (if j.waitsSig then .ok s else s.putCollStatus d j 2) = .ok u →
    let w := u.setColl d ((u.coll d).modCurrent fun j => { j with waitsSig := true })
    w.collSignalWord d j = .ok v → Happens (.collSignal d) s
      (w.setColl d ((w.coll d).modCurrent fun k => { k with signalled := decide ((j.words.getD 5 0).toNat ≤ v) }))) ∧
  (e.running = none → e.jobs = j :: rest → s.startDueColl d = true → s.collPortDown j.words = none → s.putCollStatus d j 3 = .ok u →
    Happens (.collStart d) s ((u.setColl d { u.coll d with jobs := rest, running := some j }).collBuild d j)) ∧
  (e.running = some j → s.collDone d = true → (j.words.getD 6 0).getLsbD 63 = false →
    s.putCollStatus d j (j.stepsDone * 2 ^ 32 + j.flags.toNat * 2 ^ 8 + 4) = .ok u →
    Happens (.collComplete d) s (u.setColl d { u.coll d with running := none }))

/-! ### Events of a launch -/

/-- The launch register, start and retirement (R332, R333, R336, R337): a write starts the header at LQHEAD, is held behind a running
launch, or is lost; a sound header's start vector starts context 0 of every core that it names; a launch of which nothing is left
settles its frames and ends with status 2, once its writes have completed. That a malformed header faults with w2 its own address, and that a
retiring launch is marked while its writes complete, are readings of the model (log entries 55, 56). -/
def Obligations.LaunchEvents : Prop := ∀ (s : State) (v : Word64),
  let at_ := v.toNat / 64 % 2 ^ 46 * 64
  (s.hostReaches = true → s.ready = true → s.pend = none → s.run = false → s.startDue = false →
    (s.lqhead = s.lqtail → Happens (.launchRegister v) s { s with lost := true }) ∧
    (s.lqhead ≠ s.lqtail → Happens (.launchRegister v) s { s with svec := at_, startDue := true })) ∧
  (s.hostReaches = true → s.ready = true → s.pend = none → (s.run = true ∨ s.startDue = true) → Happens (.launchRegister v) s { s with pend := some at_ }) ∧
  (s.hostReaches = true → s.ready = false ∨ s.pend ≠ none → Happens (.launchRegister v) s { s with lost := true }) ∧
  (s.startDue = true → s.run = false →
    let u := s.applyNext
    let pa := u.lqbase + 256 * u.lqhead
    let ws := u.physWords pa 32
    let vec := u.physWords u.svec 1536
    let w := ((u.writePhys (pa + 224) 8 1).begin ws pa).seed (ws.take 28 ++ vec)
    (headerBad ws = false → vectorBad w.det vec = false → (w.det = false ∨ serviceEntry vec = none) →
      Happens .launchStart s (w.startAll vec)) ∧
    (headerBad ws = true → Happens .launchStart s (w.raise { code := cProt, w2 := BitVec.ofNat 64 pa, agent := 7 }))) ∧
  (s.retireDue = true → s.strayData = none →
    (s.writesDone = true → Happens .launchRetire s s.retire) ∧
    (s.writesDone = false → Happens .launchRetire s (s.modLaunch fun l => { l with retiring := true }))) ∧
  (s.retired = true → Happens .launchRetire s s.retire)

/-- The shutter (R86, R106, R324, R373 to R376): on the fault of the earliest cycle, then of the lowest core, context and slot, everything of the
launch stops; at once or when the writes issued before have completed the launch ends, and no re-stripe is in progress, no core holds anything of it,
its scratchpads and accumulators are zeroed, and no launch runs. That every fault is an error event, with its code, core, context and w2, and that
everything stops at once while the end waits for the writes, are readings of the model (log entries 57, 56). -/
def Obligations.ShutterEndsLaunch : Prop := ∀ (s : State) (f : FaultRec) (l : Launch), s.launch = some l →
  (l.shutting = none → firstFault s.faults = some f →
    let more := (s.faults.filter fun h => h.cycle == f.cycle).length - 1
    let u := s.logFaults.stopAll
    f ∈ s.faults ∧ (∀ h ∈ s.faults, f.key ≤ h.key) ∧ u.cores = [] ∧ u.knocksOut = [] ∧
    (u.writesDone = true → Happens .shutter s (u.shut f more)) ∧
    (u.writesDone = false → Happens .shutter s (u.modLaunch fun l => { l with shutting := some (f, more), retiring := false }))) ∧
  (∀ more, l.shutting = some (f, more) → s.writesDone = true → Happens .shutter s (s.shut f more)) ∧
  (∀ more, s.pend = none → l.hdrAddr + 256 ≤ 0x012000000000 →
    let t := s.shut f more
    t.launch = none ∧ t.cores = [] ∧ t.faults = [] ∧ t.migrations = [] ∧ t.poisoned = [] ∧ t.iss.active = false ∧
    ∀ key, 0x080000000000 ≤ key → t.byte key = 0)

/-- Samples and the scrub (R59, R394, R396, R397): the end of a frame puts one record of type 5 for every port that has applied blocks, with their
digest, into the log, begins new digests, and marks the launch not replayable from that frame where they differ from the reference; a droop puts a
record of type 4, which takes the bundles that the island's cores issue in this cycle when the cycle is over; a scrub counts what it corrects and
poisons what it cannot. The places that a scrub names are the model's free values (log entry 40). -/
def Statements.SampleEvents : Prop := ∀ (s : State) (n a b c : Nat),
  (∀ l, s.launch = some l → s.frameEndDue = true →
    let frame := l.framesEnded
    let mine := if s.logRec then s.ports.filterMap fun e : Nat × Port =>
      if e.2.digest = [] then none else some (e.1, sha3 (digestBytes e.2.digest)) else []
    let w := mine.foldl (fun (u : State) m => u.logAppend (.port m.1) frame
      (u.record 0x05 ([BitVec.ofNat 64 (m.1 + frame * 2 ^ 32), 0] ++ m.2))) s
    let t := ({ w with ports := w.ports.map fun e : Nat × Port => (e.1, { e.2 with digest := [] }) } : State).modLaunch
      fun l => { l with framesEnded := frame + 1 }
    Happens .frameEnd s (if s.replayref = 0 ∨ digestsAgree s.refDigests frame mine = true then t else t.markNoReplay frame).stallForLog) ∧
  (s.droopDue n = true →
    let u := s.modCluster n fun c => { c with droopAt := some s.cycle }
    let bundle (g : Nat) : Word64 := if (s.core g).issuedAt = some s.cycle then (s.core g).issuedPc else 0
    let sample := s.record 0x04 ([BitVec.ofNat 64 n, 0] ++ (List.range 96).map fun i => bundle (96 * n + i))
    Happens (.droopSample n) s (u.logEntry {
      core := none, rank := (LogSrc.island n).rank, frame := s.frameNo, words := sample.take 4, sample := some n }) ∧
    ∀ e : LogEntry, e.sample = some n → e.words = sample.take 4 → (s.filled e).words = sample) ∧
  (a < 12 → b < 128 → c < 805306368 →
    (∃ t, Happens (.scrub a b c .corrected) s t ∧ vget 0 t.mecor a = min (vget 0 s.mecor a + 1) 0xFFFFFFFF) ∧
    (∃ t, Happens (.scrub a b c .uncorrectable) s t ∧ t.descAt ((a * 128 + b) * 2 ^ 30 + c / 64 * 64) = 0x00FF))

/-- Pre-emption, resume, log release and host glazing (R378, R380, R382 to R384, R387, R396, R407). A save cancels channels with cause 2; when none
goes on it takes an upcall or a fault for a table that it cannot read, or makes the image and ends the launch with STATE 4, or tells the host and
waits for it. That a request is held while a start is under way is the model's reading (log entry 102), as is what GLZDONE acts on (log entry 41).
That a save takes an upcall for an absent page of a table is its reading (log entry 120), and so is that the fault of a bad table names the table
(log entry 54). -/
def Statements.ServiceEvents : Prop := ∀ (s : State) (v : Word64),
  let pa := v.toNat / 4096 % 2 ^ 40 * 4096
  (∀ l, s.launch = some l → s.preemptSaveDue = true →
    (s.goingChans ≠ [] → Happens .preemptSave s (s.goingChans.foldl (fun u e => u.cancelChan e.1 e.2 2 true) s)) ∧
    (s.activeChans = [] →
      (∀ e m, s.badTable = some (e, .absent m) → Happens .preemptSave s (s.tableUpcall e m)) ∧
      (∀ e, s.badTable = some (e, .bad) → Happens .preemptSave s (s.tableFault e) ∧
        ∃ f ∈ (s.tableFault e).faults, f.code = cProt ∧ f.w2 = BitVec.ofNat 64 e.2.2) ∧
      (∀ e va level, s.badTable = some (e, .malformed va level) → ∃ t, Happens .preemptSave s t ∧
        ∃ f ∈ t.faults, f.code = cProt ∧ f.w2 = BitVec.ofNat 64 va ∧ f.w3 = BitVec.ofNat 64 level) ∧
      (s.badTable = none →
        let made := s.makeImage l
        let id := s.uncountWaits.takeFree.1
        let u := s.uncountWaits.takeFree.2
        let image := u.imageSections l id
        let t := image.1.foldl (fun (t : State) (e : Nat × List Word64) => t.putImage e.1 e.2) u
        made = { (if t.hostDoes 2 then t else t.putLatches (l.savePa + image.2.1)).modLaunch (fun l => { l with imgBlocks := image.2.2 }) with
          migrations := [] } ∧
        image.1[0]? = some (l.savePa, l.words.take 28 ++ u.physWords (l.hdrAddr + 224) 4) ∧
        (∃ rest, image.1[1]? = some (l.savePa + 256, [BitVec.ofNat 64 image.2.2, BitVec.ofNat 64 u.sclk, BitVec.ofNat 64 u.cycle] ++ rest) ∧
          rest.length = 29) ∧
        (∀ i e, u.savedBlocks[i]? = some e → ∃ ws : List Word64, image.1[2 + i]? = some (l.savePa + 512 + 8192 * i, ws) ∧ ws.length = 1024 ∧
          let k := u.savedCtx e.1 e.2
          ws.take 128 = k.s.toList ++ k.a.toList ++ k.stride.toList) ∧
        (s.hostDoes 2 = true → Happens .preemptSave s
          ((made.modLaunch fun l => { l with awaitFinish := true }).message [BitVec.ofNat 64 l.savePa, 0, 0, 0])) ∧
        (s.hostDoes 2 = false → Happens .preemptSave s made.endSave ∧
          (s.pend = none → made.endSave.launch = none ∧ made.endSave.pstate = .saved))))) ∧
  (∀ l, s.hostReaches = true → s.launch = some l → l.awaitFinish = false → s.pstate ≠ .saving → s.det = true → Happens (.psave v) s
    { s.modLaunch (fun l => { l with preempt := true, savePa := pa }) with pstate := .saving }) ∧
  (s.hostReaches = true → s.launch = none → s.startDue = false → Happens (.psave v) s { s with lost := true }) ∧
  (s.hostReaches = true → s.launch = none → s.startDue = true → s.pstate ≠ .saving → Happens (.psave v) s
    { s with saveWaits := some pa, pstate := .saving }) ∧
  (∀ l, s.hostReaches = true → s.launch = some l → l.awaitFinish = true → Happens (.psaveFinish v) s
    s.endSave ∧
    let u := s.settleLog.takeFree.2
    let w := u.putImage (l.savePa + 64 * (l.imgBlocks - 1)) (u.endWords s.settleLog.takeFree.1)
    s.endSave = ({ w with
      frames := w.frames.map fun e : Nat × Frame => (e.1, e.2.keep w.uptime), pstate := .saved, imglen := l.imgBlocks } : State).finish 4 0) ∧
  (s.hostReaches = true → s.running = false → s.pend = none →
    (∀ m, s.imageAt pa = some m → headerBad (s.physWords pa 32) = false → Happens (.pres v) s (s.resumeImage pa m)) ∧
    (s.imageAt pa = none ∨ headerBad (s.physWords pa 32) = true → Happens (.pres v) s (s.resumeFails pa) ∧
      (s.resumeFails pa).pstate = .failed ∧ (s.resumeFails pa).launch = s.launch)) ∧
  (s.hostReaches = true → s.running = true → Happens (.pres v) s { s with lost := true }) ∧
  (s.hostReaches = true → s.run = false → Happens (.logrd v) s ({ s with logrd := v.toNat % 2 ^ 32 } : State)) ∧
  (∀ g x i, s.hostReaches = true → (s.frame v.toNat).glazeWait = some (g, x) → (s.ctx g x).resume = some i → s.iss.active = false →
    (s.ctx g x).run = .held → (s.ctx g x).walks = [] →
    let j := { i with glazeOk := i.glazeOk ++ [v.toNat] }
    let u := ((s.setFrame v.toNat { s.frame v.toNat with glazeWait := none }).modCtx g x
      fun k => { k with run := .running, resume := some j }).modCore g Core.select
    Happens (.glzdone v) s (if (u.ctx g x).stopped then u else u.resumeIssue g x j))

/-! ### Events of the board, the ports and the host -/

/-- Bring-up and the rail fault (R400 to R402): a signature that fails sets SIGFAIL, a stack that fails stops the firmware, else main memory
is zeroed, the trained ports are up, every island is READY and READY is set; a rail fault resets the module and keeps main memory. That main memory
survives, while scratchpads and accumulators do not, is the model's reading (log entry 65). -/
def Statements.PowerEvents : Prop := ∀ (s : State) (bad lost : BitVec 12),
  (s.stage = 0 → s.ready = false → s.sigfail = false → s.badstk = 0 → s.run = false →
    (∃ t, Happens (.powerOn bad lost false) s t ∧ t.sigfail = true ∧ t.ready = false) ∧
    (bad ≠ 0 → ∃ t, Happens (.powerOn bad lost true) s t ∧ t.badstk = bad.toNat ∧ t.ready = false ∧ t.stage = 2) ∧
    (bad = 0 → ∃ t, Happens (.powerOn bad lost true) s t ∧ t.ready = true ∧ t.stage = 5 ∧ t.islandState = 1 ∧
      (∀ key < 0x080000000000, t.byte key = 0) ∧
      (∀ q < 12, lost.getLsbD q = false → (t.port q).st = .up ∧ (t.port q).width = 16) ∧
      (t.port 12).st = .up ∧ (t.port 12).width = 32)) ∧
  (∃ t, Happens .railFault s t ∧ t.launch = none ∧ t.cores = [] ∧ t.ready = false ∧
    (∀ key < 0x080000000000, t.byte key = s.byte key) ∧ ∀ key, 0x080000000000 ≤ key → t.byte key = 0)

/-- Lanes, timers and sending (R150, R152, R154, R156, R413, R414): the first lane that fails on a port at full width starts retraining to the
half that does not hold it, where the host does not choose, and one of the half in use takes the port down with what is on its lanes; the end of
retraining, the acknowledgement timers, the replay and the far end's failure act as stated; a packet is sent while fewer than 256 wait for
acknowledgement. That REPLAYS counts the first packet sent again is the model's reading (log entry 70), and so is that the host chooses among the
halves without a failed lane and that a port without one stays in retraining (log entry 46). -/
def Obligations.PortEvents : Prop := ∀ (s : State) (q lane : Nat),
  let p := s.port q
  let lanes := if q = 12 then 32 else 16
  (lane < lanes → p.failmask.testBit lane = false → p.st = .up → p.half = 0 → s.hostDoes 4 = false →
    ∃ t, Happens (.laneFail q lane) s t ∧ (t.port q).st = .retraining ∧ (t.port q).failmask = p.failmask + 2 ^ lane ∧
      (t.port q).targetHalf = if lane < lanes / 2 then 2 else 1) ∧
  (lane < lanes → p.failmask.testBit lane = false → p.st = .up → p.half = (if lane < lanes / 2 then 1 else 2) →
    ∃ t, Happens (.laneFail q lane) s t ∧ (t.port q).st = .down ∧ (t.port q).wire = []) ∧
  (p.st = .retraining →
    let up (half : Nat) : Prop := ∃ t, Happens (.retrainComplete q) s t ∧ (t.port q).st = .up ∧ (t.port q).width = lanes / 2 ∧
      (t.port q).half = half ∧ (t.port q).awaitHand = true
    let failed (half : Nat) : Prop :=
      ∃ n < lanes / 2, p.failmask.testBit (if half = 1 then n else lanes / 2 + n) = true
    (p.targetHalf ≠ 0 → up p.targetHalf) ∧
    (p.targetHalf = 0 → ¬ (failed 1 ∧ failed 2) → (up 1 ∧ ¬ failed 1) ∨ (up 2 ∧ ¬ failed 2)) ∧
    (p.targetHalf = 0 → failed 1 → failed 2 → Happens (.retrainComplete q) s { s with free := s.free + 1 })) ∧
  (p.st = .up → p.awaitHand = true → 12000 ≤ s.uptime - p.since →
    Happens (.handshakeTimeout q) s ((s.setPort q { p with awaitHand := false }).startReplay q)) ∧
  (p.st = .up → p.awaitHand = false → p.unacked ≠ [] → 12000 ≤ s.uptime - p.progressAt → p.episodes < 16 →
    Happens (.replayTimeout q) s (s.setPort q { p with
      resend := p.unacked, episodes := p.episodes + 1, fresh := true, progressAt := s.uptime })) ∧
  (∀ e rest, p.st = .up → p.awaitHand = false → p.resend = e :: rest → ∃ t, Happens (.packetSend q) s t ∧ (t.port q).resend = rest ∧
    (t.port q).replays = (if p.fresh then min (p.replays + 1) 0xFFFFFFFF else p.replays) ∧ (t.port q).unacked = p.unacked) ∧
  (p.st = .up → 0 < p.sinceAck → 1500 ≤ s.uptime - p.sentAt → Happens (.ackIdleTimer q) s (s.sendAck q false false)) ∧
  (p.st ≠ .down → Happens (.peerEndDown q) s (s.portGoesDown q)) ∧
  (p.st = .up → p.awaitHand = false → p.resend = [] → p.unacked.length < 256 → p.sendq ≠ [] →
    ∃ t o, Happens (.packetSend q) s t ∧ o ∈ p.sendq ∧ (t.port q).unacked = p.unacked ++ [(p.seq, o)] ∧
      (t.port q).seq = (p.seq + 1) % 4096 ∧ (t.port q).sendq.length + 1 = p.sendq.length)

/-- Packets that arrive in sequence at a port that is up, without an acknowledgement of their own and with no acknowledgement due (R151, R157,
R158, R412, R413), and what an acknowledgement-only packet does at a port that is up (R152, R158, R413, R414): ACKSEQ frees the replay entries up
to it, ERR refuses the packet that it names, the awaited handshake ends and the rest is sent again, and so it is on NAK, up to 16 times without
progress. Otherwise a write is applied whole or refused whole, a read is answered, a response goes to the load that asked, collective data is
taken or held, and an abort ends the launch. A packet that fails the receiver's tests, or that comes after a gap of at most 255, is answered with
NAK alone, and any other packet out of sequence is a duplicate, which is discarded without an answer (R152). That a read is answered by one block
is the model's reading (log entry 14), as is the record that an abort names (log entry 49). -/
def Obligations.PacketEvents : Prop := ∀ (s : State) (q : Nat) (p : Packet),
  let t := s.port q
  let done (u : State) : State := u.modPort q fun t => { t with
    expected := (t.expected + 1) % 4096, ackv := true, sinceAck := t.sinceAck + 1, sentAt := if t.ackv then t.sentAt else u.uptime }
  let inSequence (ty : Nat) : Prop := p.discarded = false ∧ p.ty = ty ∧ p.ackV = false ∧ p.nak = false ∧ p.seq = t.expected ∧
    t.expected < 4096 ∧ t.awaitHand = false ∧ t.sinceAck + 1 < 16
  t.st = .up →
  (p.discarded = true →
    Happens (.inboundWrite q p) s (s.sendAck q true false) ∧ Happens (.ackOnlyPacket q p) s (s.sendAck q true false)) ∧
  (∀ n e, (n, e) ∈ [(1, Instr.inboundWrite q p), (2, .inboundReadRequest q p), (3, .readResponse q p), (4, .knockDelivery (.packet q p)),
      (5, .collectiveData q p), (6, .abortPacket q p)] →
    p.discarded = false → p.ty = n → p.ackV = false → p.nak = false → t.awaitHand = false →
    let d := (p.seq + 4096 - t.expected) % 4096
    (1 ≤ d → d ≤ 255 → Happens e s (s.sendAck q true false)) ∧ (255 < d → Happens e s s)) ∧
  (p.discarded = false → p.ty = 0 → p.ackV = false → p.nak = false → t.awaitHand = false → Happens (.ackOnlyPacket q p) s s) ∧
  (p.discarded = false → p.ty = 0 → Happens (.ackOnlyPacket q p) s (s.takeAck q p) ∧
    let acked (rest : List (Nat × OutPacket)) : State := s.setPort q { t with
      unacked := rest, resend := t.resend.filter fun e => rest.any fun r => r.1 == e.1, episodes := 0, progressAt := s.uptime }
    (p.nak = false → t.awaitHand = false → p.ackV = true →
      (∀ fs o rest, t.unacked = fs ++ (p.ackSeq, o) :: rest → (∀ e ∈ fs, e.1 ≠ p.ackSeq) →
        s.takeAck q p = if p.err then (acked rest).refused q o else acked rest) ∧
      ((∀ e ∈ t.unacked, e.1 ≠ p.ackSeq) → s.takeAck q p = s)) ∧
    (p.ackV = false → t.awaitHand = true → s.takeAck q p = (s.setPort q { t with awaitHand := false }).startReplay q) ∧
    (p.ackV = false → t.awaitHand = false → p.nak = true →
      (t.resend = [] → t.unacked = [] → s.takeAck q p = s) ∧
      (t.resend = [] → t.unacked ≠ [] → t.episodes < 16 → s.takeAck q p = s.setPort q { t with
        resend := t.unacked, episodes := t.episodes + 1, fresh := true, progressAt := s.uptime }) ∧
      (t.resend = [] → t.unacked ≠ [] → 16 ≤ t.episodes → s.takeAck q p = s.portGoesDown q) ∧
      (t.resend ≠ [] → s.takeAck q p = s.setPort q { t with resend := t.unacked }))) ∧
  (inSequence 1 → (s.applyWrite q p).2 = false → Happens (.inboundWrite q p) s (done (s.applyWrite q p).1)) ∧
  (inSequence 1 → s.inboundKeys q p.addr true p.blockCount = none →
    Happens (.inboundWrite q p) s ((done s).sendAck q false true)) ∧
  (inSequence 2 → (s.readReply q p.addr).2 = false → Happens (.inboundReadRequest q p) s
    (done (s.enqueue q ⟨responsePacket p.addr [(s.readReply q p.addr).1], .none, false⟩))) ∧
  (inSequence 3 → Happens (.readResponse q p) s
    (done { s with cores := fillCores q (p.addr / 64 * 64) (p.block 0) s.cores })) ∧
  (inSequence 4 → Happens (.knockDelivery (.packet q p)) s (done (s.packetKnock p))) ∧
  (∀ u, inSequence 5 → s.collArrive q p = some u → (u.port q).sinceAck + 1 < 16 → Happens (.collectiveData q p) s (done u)) ∧
  (inSequence 6 → s.run = true → s.shuttingDown = false → ∀ d j, s.collOfTag p.ctag = some (d, j) → Happens (.abortPacket q p) s
    (done (s.raise { code := cProt, w2 := BitVec.ofNat 64 j.addr, agent := 2, agentNo := d })))

/-- Writes of the host (R68, R72, R149, R332, R392, R403 to R405): which register takes the value, at once or from the next launch start on. The
geometry table and the apertures are locked while a launch runs. Writes arrive on port 12 while it is up, and not otherwise, which is the model's
choice (R148; log entry 92). -/
def Statements.HostWrites : Prop := ∀ (s : State) (v : Word64) (i : Nat),
  let base := 0x0A0000000000
  (∀ pa, s.atreq = some pa → Happens .attestReportDone s { s.putByteList pa s.report with atdone := true, atreq := none }) ∧
  (s.hostReaches = false → Happens (.atreq v) s s ∧ Happens (.geoTableWrite (base + i) v) s s ∧
    Happens (.deviceRegisterWrite (base + i) v) s s ∧ Happens (.launchRegister v) s s) ∧
  (s.hostReaches = true →
  (s.running = false →
    (v.toNat % 64 = 0 → Happens (.atreq v) s { s with atreq := some v.toNat }) ∧
    (i < 256 → Happens (.geoTableWrite (base + 0x10000 + 4 * i) v) s { s with geo := mset s.geo i (v.setWidth 32) }) ∧
    (i < 768 → Happens (.geoTableWrite (base + 0xC000 + 16 * i) v) s { s with apertures := mset s.apertures i (v &&& 0xE0FF00000003FFFF) }) ∧
    Happens (.deviceRegisterWrite (base + 0x40) v) s { s with logctl := v &&& 0xFFFFF000, logctlNext := none } ∧
    Happens (.deviceRegisterWrite (base + 0x58) v) s { s with replayref := v.toNat / 64 % 2 ^ 46 * 64, replayrefNext := none } ∧
    Happens (.deviceRegisterWrite (base + 0x60) v) s { s with fmdev := v.toNat % 64, fmdevNext := none }) ∧
  (s.running = true →
    Happens (.atreq v) s { s with lost := true } ∧
    (i < 256 → Happens (.geoTableWrite (base + 0x10000 + 4 * i) v) s { s with geolock := true }) ∧
    Happens (.deviceRegisterWrite (base + 0x40) v) s { s with logctlNext := some (v &&& 0xFFFFF000) } ∧
    Happens (.deviceRegisterWrite (base + 0x60) v) s { s with fmdevNext := some (v.toNat % 64) }) ∧
  Happens (.deviceRegisterWrite (base + 0x08) v) s { s with lqtail := v.toNat % 64 } ∧
  (i < 16 → s.running = false → Happens (.deviceRegisterWrite (base + 0x6000 + 8 * i) v) s
    (s.modCluster i fun c => { c with limit := max 1 (v.toNat / 2 ^ 9 % 2 ^ 7), limitNext := none })) ∧
  (i < 12 → Happens (.deviceRegisterWrite (base + 0x3000 + 8 * i) v) s { s with mecor := vset s.mecor i (v.toNat % 2 ^ 32) }) ∧
  (i < 4 → Happens (.deviceRegisterWrite (base + 0x7000 + 8 * i) v) s { s with atnonce := vset s.atnonce i v }))

/-! ### The encoding -/

/-- Decoding the encoded word of a well-formed instruction, with its surrendered words, in its own slot gives the instruction back. -/
def Obligations.EncodedInstructionsDecode : Prop := ∀ (i : Instr) (sl : Slot) (w : Word32) (ext : List Word32),
  i.wellFormed = true → encode i = some (sl, w, ext) → decodeSlot sl w ext = .ok i

/-- The decoder gives only well-formed instructions, and it ignores no bit of a word: an instruction other than NOP that a lone word decodes
to encodes to that word in that slot. The NOP word is 0 in every slot (R311). -/
def Obligations.DecoderReadsEveryBit : Prop := ∀ (sl : Slot) (w : Word32) (ext : List Word32) (i : Instr),
  decodeSlot sl w ext = .ok i →
  i.wellFormed = true ∧ (i = .nop → w = 0 ∧ ext = []) ∧ (i ≠ .nop → ext = [] → encode i = some (sl, w, []))

/-- Words that the manual prints in its examples, of every slot: MOVI with a surrendered word (R34), BR back by four words on a false predicate,
SEL and CMPI (R214), LD and AWR.ADD.V, VFMA (R238) and VFCVT, MMA.BF16 and ADRAIN, CHEAD, PGLAZE and LARR, each with the instruction that its
example names; ADD (R208); a word with a reserved bit set is refused. -/
def Obligations.WordsOfTheManualDecode : Prop :=
  decodeSlot .S 0x5C556789#32 [0x1234#32] = .ok (.movi 5 0x123456789) ∧
  decodeSlot .S 0x807FFFFC#32 [] = .ok (.br 1 true (-4)) ∧
  decodeSlot .S 0x70704204#32 [] = .ok (.sel 7 1 2 4) ∧
  decodeSlot .S 0x78405064#32 [] = .ok (.cmpi 4 1 2 100) ∧
  decodeSlot .S 0x04304200#32 [] = .ok (.add 3 1 2) ∧
  decodeSlot .A 0x1B010003#32 [] = .ok (.ld 48 2 0 3 false) ∧
  decodeSlot .A 0x40118009#32 [] = .ok (.awrAdd 1 3 0 false false true) ∧
  decodeSlot .V 0x4C611001#32 [] = .ok (.vfma 3 1 2 0 0 false 1) ∧
  decodeSlot .V 0x71241045#32 [] = .ok (.vfcvt 9 4 false 2 0 2 5) ∧
  decodeSlot .M 0x14000098#32 [] = .ok (.mmaFloat 0 0 1 3) ∧
  decodeSlot .M 0x24010500#32 [] = .ok (.adrain 0 4 5) ∧
  decodeSlot .X 0x04A2CC00#32 [] = .ok (.chead 10 11 12 0) ∧
  decodeSlot .X 0x40108400#32 [] = .ok (.pglaze 1 2 4 0) ∧
  decodeSlot .X 0x54200000#32 [] = .ok (.larr 2 false) ∧
  (∃ e, decodeSlot .S 0x04304201#32 [] = .error e)

/-! ### The step -/

/-- A slot word in the issue latch that its slot's map takes is executed as the instruction that it decodes to, with the latch turned to its slot,
and after the last slot the issue is finished; an input of the world outside is executed when no slot is left; a word that no map takes stops the
model. A pane instruction of slot X that a store of slot A left for a walk precedes, and a DMODE.FWD that follows a reversed access, is left with
it (R105, R288; log entry 130), and the frames as slot X finds them are kept where a lower slot is left (R408). The word that `withFetchWord`
places is the next to execute, and decodes as the table's word does. That inputs come before the device's own events, the stop on a word that no
map takes, the placing of a word and a step for each slot are the model's choices (log entries 6, 75, 71, 72). -/
def Obligations.StepRunsDecodedInstruction : Prop :=
  (∀ (s : State) (n : Nat) (w : SlotWord) (rest : List (Nat × SlotWord)) (i : Instr), s.iss.pending = (n, w) :: rest →
    decodeSlot (Slot.ofIndex n) w.word w.ext = .ok i →
    let chains := if n = 4 ∧ s.iss.undone ≠ [] ∧ s.iss.chains = none then some s.frames else s.iss.chains
    (n ≠ 4 ∨ s.iss.heldBack i = false →
      ∀ t, exec i { s with iss := { s.iss with slot := n, cur := w, pending := rest, chains } } = .next t →
        step s = .next (if t.iss.pending = [] then t.finishIssue else t)) ∧
    (n = 4 → s.iss.heldBack i = true →
      let t : State := { s with iss := { s.iss with pending := rest, undone := s.iss.undone ++ [(4, w)] } }
      step s = .next (if t.iss.pending = [] then t.finishIssue else t))) ∧
  (∀ (s : State) (n : Nat) (w : SlotWord) (rest : List (Nat × SlotWord)) (e : DecodeError), s.iss.pending = (n, w) :: rest →
    decodeSlot (Slot.ofIndex n) w.word w.ext = .error e → step s = .fault .badLatch) ∧
  (∀ (s : State) (i : Instr) (rest : List Instr), s.iss.pending = [] → s.inputs = i :: rest → step s = exec i { s with inputs := rest }) ∧
  (∀ (s : State) (nbits w : Nat) (i : Instr), decodeTableWord nbits w = some i → ∃ n v,
    (s.withFetchWord nbits w).iss.pending = [(n, v)] ∧ v.word = BitVec.ofNat 32 w ∧ decodeSlot (Slot.ofIndex n) v.word v.ext = .ok i)

/-- Nothing stops the machine: every instruction and every event answers a next state in every state, and a step stops only on a latch that
holds a word which its slot's map does not take. -/
def Obligations.NothingStops : Prop :=
  (∀ (i : Instr) (s : State), ∃ t, exec i s = .next t) ∧
  (∀ s : State, (∀ e ∈ s.iss.pending, (slotInstr e.1 e.2).isSome = true) → ∃ t, step s = .next t)

/-! ### Memory -/

/-- Bytes written are read back, no other byte changes, and the canonical form is kept. -/
def Obligations.WrittenBytesReadBack : Prop := ∀ (m : List Host.Cell) (key n v : Nat), Memory.wf m →
  Memory.wf (putBytes m key n v) ∧ getBytes (putBytes m key n v) key n = v % 256 ^ n ∧
  ∀ k, (k < key ∨ key + n ≤ k) → mget unlistedByte (putBytes m key n v) k = mget unlistedByte m k

/-- Every step keeps the canonical form of memory. -/
def Obligations.StepKeepsMemoryCanonical : Prop := ∀ s t : State, Memory.wf s.mem → step s = .next t → Memory.wf t.mem

/-- The state right after reset: memory is in canonical form with nothing listed; no launch runs and the queue is empty; BOOTST is 0 (R401);
geometry word 0 is 0xFFF70000 and every other one 0 (R68); every port is down with both weights 1 (R149); every island's LIMIT is 96 (R404); and the
context that a launch starts first holds the registers of R202. That the context registers hold at reset what R202 gives them at a context start,
and that no memory is listed, are the model's choices (log entries 1, 7). -/
def Obligations.ResetValues : Prop :=
  let s := State.reset
  Memory.wf s.mem ∧ s.mem = [] ∧ s.desc = [] ∧ s.launch = none ∧ s.pend = none ∧ s.lost = false ∧ s.lqbase = 0 ∧ s.lqhead = 0 ∧
  s.lqtail = 0 ∧ s.badstk = 0 ∧ s.ready = false ∧ s.sigfail = false ∧ s.stage = 0 ∧ s.geolock = false ∧
  s.geoWord 0 = 0xFFF70000 ∧ (∀ i, i ≠ 0 → s.geoWord i = 0) ∧
  (∀ q, (s.port q).st = .down ∧ (s.port q).failmask = 0 ∧ (s.port q).cwt = 1 ∧ (s.port q).dwt = 1 ∧ (s.port q).replays = 0) ∧
  (∀ c, (s.cluster c).limit = 96 ∧ (s.cluster c).hold = 0) ∧
  (∀ g x, x < 4 → (s.ctx g x).run = .dormant ∧ (∀ r, (s.ctx g x).rdS r = 0) ∧ (∀ r, (s.ctx g x).rdA r = 0) ∧
    (∀ r, (s.ctx g x).rdP r = decide (r = 0)) ∧ (∀ r, (s.ctx g x).rdM r = if r = 0 then BitVec.allOnes 64 else 0) ∧
    (∀ r, (s.ctx g x).rdV r = ⟨0, 0⟩))

/-- Under a valid placement word the bytes within its reach have places of their own: the stack is one that the word uses, the channel is
below 128, the offset lies within the channel's 768 MiB, and two addresses never share a place (R55, R68 to R71). -/
def Obligations.PlacementSeparatesBytes : Prop := ∀ (w : BitVec 32) (a b : Nat), geoValid w = true → a < geoReach w → b < geoReach w →
  (place w a).1 ∈ geoStacks w ∧ (place w a).2.1 < 128 ∧ (place w a).2.2 < 805306368 ∧
  (place w a = place w b → a = b) ∧ (mainKey w a = mainKey w b → a = b)

/-! ### Registers and results in flight -/

/-- R203: reads of s0, a0, p0 and m0 return their fixed values, and writes to them, and a stride for a0, are discarded without a clash. -/
def Obligations.HardwiredRegisters : Prop := ∀ (k : Ctx) (due issue slot : Nat) (v : Word64) (b : Bool),
  k.rdS 0 = 0 ∧ k.rdA 0 = 0 ∧ k.rdP 0 = true ∧ k.rdM 0 = BitVec.allOnes 64 ∧
  (∀ u : Upd, u ∈ [Upd.s (physS k.k.rs 0) v, .a 0 v, .p (physP k.k.rp 0) b, .m 0 v, .stride 0 v] →
    k.queue due issue slot u = k ∧ k.apply u = k)

/-- R30 and R32: the delivery at issue n leaves what is due later in flight, and of the results due it gives a register that of the latest
issue; a register that none of them names keeps its value, and kstat changes by the conditions in flight alone. -/
def Obligations.DeliveryKeepsTheLatestIssue : Prop := ∀ (k : Ctx) (n : Nat),
  let t := k.deliver n
  let due := k.inflight.filter fun e => decide (e.due ≤ n)
  let latest (e : Inflight) (r : Nat × Nat) : Prop :=
    e ∈ due ∧ e.upd.dest = some r ∧ ∀ f ∈ due, f.upd.dest = some r → f ≠ e → f.issue < e.issue
  let untouched (r : Nat × Nat) : Prop := ∀ e ∈ due, e.upd.dest ≠ some r
  t.inflight = k.inflight.filter (fun e => decide (n < e.due)) ∧
  (∀ r : Nat, r < 64 →
    (∀ e v, latest e (0, r) → e.upd = .s r v → vget 0 t.s r = v) ∧ (untouched (0, r) → vget 0 t.s r = vget 0 k.s r)) ∧
  (∀ r : Nat, r < 32 →
    (∀ e v, latest e (1, r) → e.upd = .a r v → vget 0 t.a r = v) ∧ (untouched (1, r) → vget 0 t.a r = vget 0 k.a r) ∧
    (∀ e x, latest e (2, r) → e.upd = .v r x → vget {} t.v r = x) ∧ (untouched (2, r) → vget {} t.v r = vget {} k.v r)) ∧
  (∀ r : Nat, r < 16 →
    (∀ e b, latest e (3, r) → e.upd = .p r b → vget false t.p r = b) ∧ (untouched (3, r) → vget false t.p r = vget false k.p r)) ∧
  (∀ r : Nat, r < 8 →
    (∀ e v, latest e (4, r) → e.upd = .m r v → vget 0 t.m r = v) ∧ (untouched (4, r) → vget 0 t.m r = vget 0 k.m r)) ∧
  (∀ e r v, latest e (9, r) → r < 32 → e.upd = .stride r v → vget 0 t.stride r = v) ∧
  (∀ e r x, latest e (5, r) → r < 8 → e.upd = .iter r x → vget {} t.it r = x) ∧
  (∀ e r v, latest e (6, r) → r < 4 → e.upd = .count r v → vget 0 t.n r = BitVec.ofNat 32 v) ∧
  (∀ e r pa, latest e (8, r) → r < 8 → e.upd = .bind r pa → vget none t.f r = pa) ∧
  (∀ e f v, latest e (7, f.index) → f ≠ .flags → f ≠ .ternbad → e.upd = .k f v → t.k.setField f v = t.k) ∧
  ((∀ e ∈ due, ∀ b, e.upd ≠ .statOr b ∧ e.upd ≠ .statClear b) → t.k.stat = k.k.stat)

/-- R31, within one queue of results: of two slots of one issue that name one destination the higher wins, whatever their latencies, and
kstat.WCLASH is queued for the next issue; without such a rival the result joins the queue as it is. Each field of a k-register is a destination of
its own, kwany's too, which is the model's choice (log entry 109). -/
def Obligations.HigherSlotWinsAClash : Prop := ∀ (k : Ctx) (due issue slot : Nat) (u : Upd) (r : Nat × Nat),
  u.dest = some r → u.discarded = false →
  let mine : Inflight := ⟨due, issue, slot, u⟩
  let wclash : Inflight := ⟨issue + 1, issue, slot, .statOr 2⟩
  let rival (e : Inflight) : Bool := e.issue == issue && e.slot != slot && e.upd.dest == some r
  let t := k.queue due issue slot u
  ((∀ e ∈ k.inflight, rival e = false) → t.inflight = k.inflight ++ [mine]) ∧
  ((∃ e ∈ k.inflight, rival e = true) → (∀ e ∈ k.inflight, rival e = true → e.slot < slot) →
    t.inflight = k.inflight.filter (fun e => !rival e) ++ [mine, wclash]) ∧
  ((∃ e ∈ k.inflight, rival e = true ∧ slot < e.slot) → t.inflight = k.inflight ++ [wclash])

/-! ### Frames -/

/-- What an instruction with one result leaves: everything but the issuing context's results in flight, its slot's sticky memory, the
issue's own bookkeeping, a fault that it raises, and landings that it overtakes. What it queues names its destination, or
accumulates into kflags, where it raises flags, or kstat. -/
def Obligations.RegisterResultFrame : Prop := ∀ (i : Instr) (s t : State) (r : Nat × Nat),
  resultOf s.cur i = some r → s.iss.x < 4 → exec i s = .next t →
  let c := s.core s.iss.g
  let d := t.core s.iss.g
  t = { s with cores := t.cores, iss := t.iss, faults := t.faults, free := t.free } ∧
  (∀ g, g ≠ s.iss.g → t.core g = s.core g) ∧
  d = { c with ctxs := d.ctxs, sill := d.sill } ∧
  (∀ x < 4, x ≠ s.iss.x → d.ctx x = c.ctx x) ∧
  (∃ q : Landing → Landing, d.sill = c.sill.map q ∧ ∀ l, q l = { l with upd := (q l).upd } ∧
    ∀ u, (u ∈ (q l).upd → u ∈ l.upd) ∧ (u ∈ l.upd → u ∉ (q l).upd → u.dest = some r)) ∧
  (let k := c.ctx s.iss.x
   let j := d.ctx s.iss.x
   j = { k with inflight := j.inflight, sticky := j.sticky } ∧
   (∀ n, n ≠ s.iss.slot → vget none j.sticky n = vget none k.sticky n) ∧
   (∀ e ∈ k.inflight, e ∉ j.inflight → e.upd.dest = some r) ∧
   (∀ e ∈ j.inflight, e ∈ k.inflight ∨ (e.issue = s.iss.issue ∧ e.slot = s.iss.slot ∧
     (e.upd.dest = some r ∨ (∃ f, e.upd = .flagsOr f ∧ raisesFlags i = true) ∨ (∃ b, e.upd = .statOr b) ∨ ∃ n, e.upd = .ternbad n))))

/-- R30: no slot changes a register of any context at its own issue, whatever it does else; results wait for their delivery. KNARM may
start a context for which a knock waits, and CCANCEL one for which the knock of a record that has completed is under way: they are the exceptions. -/
def Obligations.SlotsChangeNoRegisterAtIssue : Prop := ∀ (i : Instr) (s t : State),
  (encode i).isSome = true → (∀ x, i ≠ .knarm x) → (∀ m, i ≠ .ccancel m) → exec i s = .next t → SameRegisters s t

/-- An instruction that stores nothing leaves every byte of memory, every descriptor and every mark of a poisoned cell. That the pane and settle
instructions leave every byte rests on the model's choice that panes stand in State.frames and not in the bytes of the arena (log entry 97). -/
def Obligations.InstructionsThatStoreNothing : Prop := ∀ (i : Instr) (s t : State),
  (encode i).isSome = true → mayStore i = false → exec i s = .next t → t.mem = s.mem ∧ t.desc = s.desc ∧ t.poisoned = s.poisoned

/-- What a store leaves: every byte outside the bytes that it stores, at the placements of the address that the form computes; a store
that stops short leaves every byte, and a store that pushes on a tape leaves what the push has left. -/
def Statements.StoreFrame : Prop := ∀ (s t u : State) (d : SReg) (v b : VRegNo) (base : AReg) (off : Off9) (sz : BitVec 2) (dw : Bool)
    (m : MReg) (l : Loc) (lanes : List (Nat × Loc)),
  let n := 2 ^ sz.toNat
  let va := s.ea base off n
  let vb := s.ea base off 64
  let plain (w : Word64) : Prop := ((s.cur.k.rev || s.cur.k.tapeOn) && s.differentiable l w.toNat) = false
  let taped (w : Word64) : Prop := s.cur.k.rev = false ∧ s.cur.k.tapeOn = true ∧ s.differentiable l w.toNat = true
  let scalar (r : Reach) (i : Instr) : Prop := exec i s = .next t →
    (slotAccess s r .write va n = .error u → t.mem = s.mem) ∧
    (slotAccess s r .write va n = .ok l → plain va → OnlyAt l.wkeys n s t ∧ t.desc = s.desc)
  scalar reachStore (.st d base off sz) ∧
  scalar (reachOrdered s.det false) (.stRel d base off sz) ∧
  scalar (reachOrdered s.det true) (.stSc d base off sz) ∧
  (exec (.st d base off sz) s = .next t → slotAccess s reachStore .write va n = .ok l → windowPort l.space = none → taped va →
    plainOnly s l va = .ok () → l.rd = true →
    pushTape s va (scalarEntry sz.toNat va.toNat (if isPoison (s.descAt l.key) then 0 else getBytes s.mem l.key n)) = .ok u →
    OnlyAt l.wkeys n u t) ∧
  (exec (.stV v base off) s = .next t →
    (slotAccess s reachStore .write vb 64 = .error u → t.mem = s.mem) ∧
    (slotAccess s reachStore .write vb 64 = .ok l → plain vb → OnlyAt l.wkeys 64 s t) ∧
    (slotAccess s reachStore .write vb 64 = .ok l → windowPort l.space = none → taped vb → plainOnly s l vb = .ok () → l.rd = true →
      pushTape s vb (blockEntry vb.toNat (s.readBlock l.key)) = .ok u → OnlyAt l.wkeys 64 u t)) ∧
  (exec (.stD d base off) s = .next t → t.mem = s.mem ∧
    (slotAccess s reachMemory .write vb 64 = .ok l → ∀ key, (∀ k ∈ l.wkeys, key / 64 ≠ k / 64) → t.descAt key = s.descAt key)) ∧
  (exec (.scat v base b dw m) s = .next t →
    let e := if dw then 8 else 4
    (gatherLanes s (s.rdA base) (s.rdV b).data e .write (s.rdM m) (List.range (64 / e)) = .error u → t.mem = s.mem) ∧
    (gatherLanes s (s.rdA base) (s.rdV b).data e .write (s.rdM m) (List.range (64 / e)) = .ok lanes →
      OnlyAt (lanes.flatMap fun x => x.2.wkeys) e s t ∧ t.desc = s.desc))

/-- What the accumulator instructions, the spills, the tile reset and the arrivals on latches leave: every byte outside the cells, the spill
place, the tiles or the latch word that they write. -/
def Statements.CellSpillAndLatchFrame : Prop := ∀ (s t u : State) (d : SReg) (v : VRegNo) (a base : AReg) (off : Off9) (w fl blk un rot : Bool)
    (l : Loc) (acc : TileNo) (n1 : BitVec 4) (mode cls : BitVec 2) (x y : SReg) (g n : Nat) (mask : BitVec 8) (named : List (Nat × Nat)),
  let size := if w then 4 else 8
  let cells (i : Instr) (va : Word64) (size : Nat) : Prop := exec i s = .next t →
    (slotAccess s reachAcc .both va size = .error u → t.mem = s.mem) ∧
    (slotAccess s reachAcc .both va size = .ok l → OnlyAt [l.key] size s t)
  (∀ i ∈ [Instr.awrOw d base off w fl false, .awrAdd d base off w fl false, .axadd d base off w fl, .axchg d base off w,
      .amin d base off w fl un, .amax d base off w fl un, .aand d base off w, .aor d base off w], cells i (s.ea base off size) size) ∧
  cells (.acas d a x w) (s.rdA a) size ∧
  (∀ i ∈ [Instr.awrOw d base off w fl true, .awrAdd d base off w fl true], cells i (s.ea base off 64) 64) ∧
  (exec (.ald d base off w blk) s = .next t → t.mem = s.mem) ∧
  (∀ c, descFmt (s.rdV v).desc = c → 1 ≤ c → c ≤ 10 → cells (.ast v base off) (s.ea base off 8) (8 * (512 / codeBits c))) ∧
  (exec (.spill cls d base off) s = .next t →
    let size := if cls = 2 then 64 else 8
    (spillPlace s (s.ea base off size) size .write = .error u → t.mem = s.mem) ∧
    (∀ va, spillPlace s (s.ea base off size) size .write = .ok (.carve l va) ∨
        spillPlace s (s.ea base off size) size .write = .ok (.over l va) → OnlyAt l.wkeys size s t)) ∧
  (exec (.aclr acc n1 mode) s = .next t →
    OnlyAt ((List.range (n1.toNat + 1)).map fun j => accPa s.iss.g ((acc.toNat + j) * 0x2000)) 0x2000 s t) ∧
  (∀ i ∈ [Instr.larr x rot, .larrN x y rot, .larrSet x y rot, .lwait x un rot], exec i s = .next t →
    (latchName s (s.rdS x) rot = .error u → t.mem = s.mem) ∧
    (latchName s (s.rdS x) rot = .ok (g, n) → OnlyAt [latchPa g n] 8 s t)) ∧
  (exec (.waitany d x un rot mask) s = .next t →
    (latchCore s (s.rdS x) = .error u → t.mem = s.mem) ∧
    (latchCore s (s.rdS x) = .ok g → let bits := (List.range 8).filter fun j => mask.getLsbD j
      (maskLatches s (s.rdS x) rot bits = .error u → t.mem = s.mem) ∧
      (maskLatches s (s.rdS x) rot bits = .ok named →
        (un = false ∨ s.iss.choice ≠ none ∨ s.firstLatch s.cur.k.wpos g named = none → t.mem = s.mem) ∧
        (∀ j, s.firstLatch s.cur.k.wpos g named = some (j, n) → OnlyAt [latchPa g n] 8 s t))))

/-- What the stores into panes and the instructions that push on a tape, post a record, cancel a channel or bind a frame leave (R112, R113, R144,
R163, R270, R277, R279, R289): every byte outside the 16 bytes that the tape takes, word 6 of a task record, word 7 of a collective record, the
tile of tasks, the control blocks of the arenas that a binding enters, or word 6 of the record of the channel. A channel's sector in flight has
its late bytes to write first, and those are its own stores. That panes stand in no byte of memory, and where a control block stands, is the
model's choice (log entry 97). -/
def Statements.PaneAndRecordFrame : Prop := ∀ (s t e : State) (d x : SReg) (v : VRegNo) (base : AReg) (off : Off9) (f : FReg) (acc : Bool) (pa : Nat)
    (fr : Frame) (l la : Loc) (ls : List Loc) (q : BitVec 2) (mask : BitVec 4) (c : Nat),
  let paneStore (i : Instr) (size : Nat) : Prop := exec i s = .next t →
    (boundOf s f = .error e → t.mem = s.mem) ∧
    (boundOf s f = .ok (pa, fr) →
      (paneLoc s fr (s.ea base off size) size = .error e → t.mem = s.mem) ∧
      (s.reverse = true ∨ s.cur.k.tapeOn = false ∨ fr.info.diff = false → t.mem = s.mem) ∧
      (tapeLocs s .write 1 s.cur.k.tpos.toNat = .error e → t.mem = s.mem) ∧
      (tapeLocs s .write 1 s.cur.k.tpos.toNat = .ok ls → OnlyAt (ls.flatMap fun m => m.wkeys) 16 s t))
  (exec (.stG d base off f acc) s = .next t → boundOf s f = .error e → t.mem = s.mem) ∧
  (boundOf s f = .ok (pa, fr) → paneStore (.stG d base off f acc) fr.info.elem) ∧
  paneStore (.stGBlk v base off f acc) 64 ∧
  (exec (.tapeMark x) s = .next t → let u := s.takeFree.2
    (tapeLocs u .write 1 u.cur.k.tpos.toNat = .error e → t.mem = s.mem) ∧
    (tapeLocs u .write 1 u.cur.k.tpos.toNat = .ok ls → OnlyAt (ls.flatMap fun m => m.wkeys) 16 s t)) ∧
  (exec (.ttask x q) s = .next t →
    (slotRecord s (s.rdS x) false = .error e → t.mem = s.mem) ∧
    (slotRecord s (s.rdS x) false = .ok l → OnlyAt (l.wkeys.map (· + 48)) 8 s t)) ∧
  (exec .ttaskUnhost s = .next t → OnlyAt [accPa s.iss.g (15 * 0x2000)] 0x2000 s t) ∧
  (exec (.coll x) s = .next t →
    (slotRecord s (s.rdS x) false = .error e → t.mem = s.mem) ∧
    (slotRecord s (s.rdS x) false = .ok l → OnlyAt (l.wkeys.map (· + 56)) 8 s t)) ∧
  (exec (.fbind x f) s = .next t → let va := s.rdS x
    (recordAt s va va = .error e → t.mem = s.mem) ∧
    (∀ (p : Nat) (ws : List Word64), recordAt s va va = .ok (p, ws) → let r := frameRecOf va.toNat ws
      (arenaLoc s r va = .error e → t.mem = s.mem) ∧
      (arenaLoc s r va = .ok l →
        (r.diff = false → OnlyAt l.wkeys 64 s t) ∧
        (r.diff = true → (adjointAt s (w64 r.adj) va = .error e → t.mem = s.mem) ∧
          ∀ (apa : Nat) (a : FrameRec), adjointAt s (w64 r.adj) va = .ok (apa, a) →
            ((s.frame apa).inDir = true → OnlyAt l.wkeys 64 s t) ∧
            ((s.frame apa).inDir = false → (arenaLoc s a va = .error e → t.mem = s.mem) ∧ (arenaLoc s a va = .ok la →
              (enterRecord s apa a va = .error e → t.mem = s.mem) ∧
              ∀ u, enterRecord s apa a va = .ok u →
                (arenaLoc u r va = .error e → OnlyAt la.wkeys 64 s t) ∧
                (∀ lb, arenaLoc u r va = .ok lb → OnlyAt (la.wkeys ++ lb.wkeys) 64 s t))))))) ∧
  (exec (.ccancel mask) s = .next t →
    t.mem = (((List.range 4).filter fun c => mask.getLsbD c).foldl (fun s c => s.cancelChan s.iss.g c 1 false) s).mem) ∧
  (let g := s.iss.g
   let u := s.endFlight g c
   let w := match (u.chan g c).sending with | some (h, k) => u.ownKnock h k | none => u
   ((s.chan g c).flight = [] → u.mem = s.mem) ∧ w.mem = u.mem ∧
   OnlyAt ((w.recordKeys g (w.chan g c).record).map (· + 48)) 8 u (s.cancelChan g c 1 false))

/-! ### Traps -/

/-- Taking a trap and returning from it (R366 to R369, R391): an issue in which slots trapped, and nothing of it faults, walks or waits,
leaves the trap registers of its lowest-numbered trap, the results in flight in the snapshot, the sticky memories and the nest
saved, and the next issue at TRAPH with empty sticky memories; a trap within the handler is a protection fault naming ktpc; RETT
goes back to ktpc with the repetition and the done mask of ktrap and the sticky memories and nest that were saved, and on from the trapped issue at
once where every slot of it is done. -/
def Obligations.TrapEntryAndReturn : Prop := ∀ (s : State) (r : TrapReq),
  let i := s.iss
  let k := s.ctx i.g i.x
  i.x < 4 → s.faults = [] → i.walks = [] → i.absent = [] → i.glazeHold = none → i.waits = [] →
  let t := s.finishIssue
  let j := t.ctx i.g i.x
  (lowestTrap i.traps = some r → k.k.trapIn = false →
    r ∈ i.traps ∧ (∀ q ∈ i.traps, r.slot ≤ q.slot) ∧
    j.k.trapIn = true ∧ j.k.trapRep = i.rep ∧ j.k.trapSlot = r.slot ∧ j.k.trapCause = r.cause ∧ j.k.targ0 = r.arg0 ∧ j.k.targ1 = r.arg1 ∧
    j.k.tpc = BitVec.ofNat 64 (i.pc.toNat / 4 * 4) ∧
    (∀ n < 5, j.k.trapDone.getLsbD n = !i.undone.any fun e => e.1 == n) ∧
    j.pc = s.launchWord 3 ∧ j.rep = 0 ∧ j.nest = none ∧ (∀ n < 5, vget none j.sticky n = none) ∧
    j.savedSticky = k.sticky ∧ j.savedNest = k.nest ∧ j.inflight = [] ∧
    (∀ e ∈ k.inflight, ∃ n, j.snap = some n ∧ ⟨e.due - i.issue, i.issue - e.issue, e.slot, e.upd⟩ ∈ n.results) ∧
    (∀ l ∈ (t.core i.g).sill, l.ctx = i.x → l.dead = true) ∧
    j.s = k.s ∧ j.a = k.a ∧ j.v = k.v ∧ j.p = k.p ∧ j.m = k.m) ∧
  (lowestTrap i.traps = some r → k.k.trapIn = true → ∃ f ∈ t.faults, f.code = cProt ∧ f.w2 = k.k.tpc) ∧
  (i.traps = [] → i.rett = true → i.ends = none → i.stops = false → k.stopped = false → k.k.trapDone ≠ 31 →
    j.k.trapIn = false ∧ j.pc = BitVec.ofNat 64 (k.k.tpc.toNat / 4 * 4) ∧ j.rep = k.k.trapRep ∧ j.redo = some k.k.trapDone ∧
    j.sticky = k.savedSticky ∧ j.nest = k.savedNest ∧ j.release = true) ∧
  (∀ q, i.traps = [] → i.rett = true → i.ends = none → i.stops = false → k.stopped = false → k.k.trapDone = 31 → k.savedIss = some q →
    q.pc = BitVec.ofNat 64 (k.k.tpc.toNat / 4 * 4) → q.ends = none → q.stops = false →
    let back := k.returnFromTrap.goOn { q with issue := k.issueNo - 1 }
    j.k.trapIn = false ∧ j.pc = back.pc ∧ j.rep = back.rep ∧ j.nest = back.nest ∧ j.redo = none ∧ j.savedIss = none ∧ j.release = true)

/-! ### Statements of several parts -/

/-- Scalar results: arithmetic and logic, division, immediates, counts and fields (R209 to R212) -/
def Obligations.ScalarIntegerResults : Prop :=
  Statements.ScalarArithmetic ∧ Statements.ScalarDivision ∧ Statements.ScalarFields

/-- Compares to predicates and masks, predicate logic, SEL and MLOG complete with their results. -/
def Obligations.ComparesPredicatesAndMasks : Prop :=
  Statements.Predicates ∧ Statements.VectorCompares ∧ Statements.LaneMasks

/-- Signs, compares and conversions complete with the results of their entries. -/
def Obligations.FloatSignsComparesConversions : Prop :=
  Statements.FloatSignsAndConversions ∧ Statements.FloatConversion

/-- Loops and nests: BLOOP, ROTB, SETN, NEST (R296 to R302) -/
def Obligations.LoopsAndNests : Prop :=
  Statements.PipelinedLoops ∧ Statements.NestStart

/-- System registers and work-ID fields (R306 to R310, R359). That a KWR of a tape register written at once keeps its place among the results of
its issue is the reading of the model (log entry 111). -/
def Obligations.SystemRegistersAndWorkIds : Prop :=
  Statements.SystemRegisters ∧ Statements.WorkIdFields

/-- Contexts: EXIT, SUSPEND, RETT, CHKPT, TRAP, BRK and SPAWN -/
def Obligations.ContextInstructions : Prop :=
  Statements.ContextInstructions ∧ Statements.SpawnEnqueues

/-- Address registers, and loads from the own scratchpad (R184, R186) -/
def Obligations.AddressRegistersAndLoads : Prop :=
  Statements.AddressRegisters ∧ Statements.ScratchpadLoads

/-- Timed loads, and the accesses that reverse mode turns round (R188, R281 to R283). That the block delivered is the one at the issue is the
choice of the model (log entry 20). -/
def Obligations.TimedLoadsAndReverseAccesses : Prop :=
  Statements.TimedLoads ∧ Statements.ReverseAccesses ∧ Statements.ReverseEffects

/-- Indexed access and spill space (R189 to R192). That overflow spills and fills act at their issue is the choice of the model (log entry 20). -/
def Obligations.IndexedAndSpillAccess : Prop :=
  Statements.IndexedAccess ∧ Statements.SpillSpace

/-- Accumulator instructions (R175 to R178, R193, R194). That an atomic acts on its cells in the step of its issue, on those of another core too,
whose old word lands 48 cycles later, is the model's choice (log entry 20). -/
def Obligations.AccumulatorInstructions : Prop :=
  Statements.Atomics ∧ Statements.AtomicBlocks ∧ Statements.FloatAtomics

/-- The operand store, and what the matrix engine is given (R195 to R199, R258 to R268) -/
def Obligations.MatrixEngineIssue : Prop :=
  Statements.OperandStore ∧ Statements.MatrixIssue ∧ Statements.DrainIssue

/-- What an operation of the matrix engine leaves in its tile (R259 to R265) -/
def Obligations.MatrixProducts : Prop :=
  Statements.MatrixProducts ∧ Statements.MatrixScales

/-- Tile tasks, collectives and page service, as instructions (R82, R165, R271, R272) -/
def Obligations.TasksAndPageServiceInstructions : Prop :=
  Statements.TileTasks ∧ Statements.CollectivesAndPageService

/-- Frames bound, and the states of panes (R113, R114, R120, R121) -/
def Obligations.FramesAndPaneStates : Prop :=
  Statements.FrameBinding ∧ Statements.PaneStates

/-- Panes applied, merged and moved (R99 to R104, R115 to R120). The inverse of a pane with cleared elements is the reading of the model (log
entry 59). -/
def Obligations.PaneEventsAndMoves : Prop :=
  Statements.PaneEvents ∧ Statements.ChainsAfterPaneEvents ∧ Statements.PaneMoves

/-- Latches and handles (R181, R182, R201, R346 to R349, R360 to R363). That the faults of LBASE.SET name s[op2] and those of HSET, HWAIT and HADV
the number of the handle in w2 is the choice of the model (log entry 139). -/
def Obligations.LatchesAndHandles : Prop :=
  Statements.Latches ∧ Statements.Handles

/-- Events of contexts, of the deterministic schedule and of a cluster's queues. That a repetition begins with the bundle kept from its first
fetch is the reading of the model (log entry 79). -/
def Obligations.ContextEvents : Prop :=
  Statements.ContextEvents ∧ Statements.ScheduleEvents ∧ Statements.QueueEvents

/-- Channels of the copy engine, sectors of a plain copy, knocks and re-stripes -/
def Obligations.ChannelEvents : Prop :=
  Statements.ChannelEvents ∧ Statements.CopySector

/-- Tile tasks and collective engines, as events (R163, R269, R270). That tasks count in HOLD is the reading of the model (log entry 31). -/
def Obligations.TaskAndCollectiveEvents : Prop :=
  Statements.TaskEvents ∧ Statements.CollectiveEvents

/-- Samples, pre-emption and the services of the host. The upcall for an absent page of a table (log entry 120) and the table named in the fault
of a bad one (log entry 54) are its readings. -/
def Obligations.ServiceEvents : Prop :=
  Statements.SampleEvents ∧ Statements.ServiceEvents

/-- The board and the host (R68, R72, R400 to R405) -/
def Obligations.BoardAndHostEvents : Prop :=
  Statements.PowerEvents ∧ Statements.HostWrites

/-- What stores leave: scalar, block, ordered and indexed stores, cells, spills, tiles, latches, panes, tapes, records and control blocks -/
def Obligations.StoreFrames : Prop :=
  Statements.StoreFrame ∧ Statements.CellSpillAndLatchFrame ∧ Statements.PaneAndRecordFrame
end

