-- ==== Sys2Proof/Laws/Codec.lean ====
section
/-! SUPPORT. What a save image holds is read back as it was written: every form of Machine/Codec.lean reads what it has put, and leaves the words that
follow (R381, R384). -/

namespace Sys2Proof.Machine

/-- A form reads what it has put, and leaves what follows. -/
def Codec.Faithful {α : Type} (c : Codec α) : Prop := ∀ x ws, c.get (c.put x ++ ws) = some (x, ws)

/-- The digits of a number joined again. -/
theorem joinLanes_digits (w k n : Nat) : joinLanes w ((List.range k).map fun i => n / 2 ^ (w * i) % 2 ^ w) = n % 2 ^ (w * k) := by
  induction k generalizing n with
  | zero => simp [joinLanes, Nat.mod_one]
  | succ k ih =>
    have h : ∀ i, n / 2 ^ (w * (i + 1)) = n / 2 ^ w / 2 ^ (w * i) := fun i => by rw [Nat.div_div_eq_div_mul, ← Nat.pow_add, Nat.mul_add, Nat.mul_one, Nat.add_comm]
    have e : w * (k + 1) = w + w * k := by ring
    simp only [List.range_succ_eq_map, List.map_cons, List.map_map, joinLanes, Function.comp_def, Nat.succ_eq_add_one, h, ih, e, Nat.pow_add, Nat.mod_mul]
    simp

theorem Codec.word_ok : Codec.word.Faithful := fun _ _ => rfl

theorem Codec.iso_ok {α β : Type} {c : Codec α} {f : β → α} {g : α → β} (h : c.Faithful) (e : ∀ x, g (f x) = x) : (c.iso f g).Faithful := fun x ws => by
  simp [Codec.iso, h _ _, e]

theorem Codec.pair_ok {α β : Type} {a : Codec α} {b : Codec β} (ha : a.Faithful) (hb : b.Faithful) : (a.pair b).Faithful := fun x ws => by
  simp [Codec.pair, List.append_assoc, ha _ _, hb _ _]

theorem Codec.times_ok {α : Type} {c : Codec α} (h : c.Faithful) (l : List α) (ws : List Word64) :
    c.times l.length (l.flatMap c.put ++ ws) = some (l, ws) := by
  induction l with
  | nil => rfl
  | cons x l ih => simp [Codec.times, List.append_assoc, h _ _, ih]

theorem Codec.bits_ok {n : Nat} (h : n ≤ 64) : (Codec.bits n).Faithful :=
  Codec.iso_ok Codec.word_ok fun x => by simp [BitVec.setWidth_setWidth_of_le x h]

theorem Codec.bool_ok : Codec.bool.Faithful := Codec.iso_ok Codec.word_ok fun x => by cases x <;> rfl

theorem Codec.words_put (l : List Word64) : l.flatMap Codec.word.put = l := by induction l <;> simp_all [Codec.word]

theorem Codec.words_ok (l ws : List Word64) : Codec.word.times l.length (l ++ ws) = some (l, ws) := by
  simpa [Codec.words_put] using Codec.times_ok Codec.word_ok l ws

theorem Codec.nat_ok : Codec.nat.Faithful := fun n ws => by
  by_cases h : n < 2 ^ 64 - 1
  · have e : n % 2 ^ 64 = n := Nat.mod_eq_of_lt (by omega)
    have b : (w64 n == BitVec.allOnes 64) = false := by
      simp only [beq_eq_false_iff_ne, ne_eq, w64, ← BitVec.toNat_inj, BitVec.toNat_ofNat, BitVec.toNat_allOnes]; omega
    simp only [Codec.nat, if_pos h, List.cons_append, List.nil_append, List.takeWhile_cons, b]
    simpa [w64] using e
  · have t : ∀ k ds, ((List.replicate k (BitVec.allOnes 64) ++ 0 :: ds).takeWhile (· == BitVec.allOnes 64)).length = k := fun k ds => by
      induction k with
      | zero => rfl
      | succ k ih => simp [List.replicate_succ]
    have d : (List.range (n.log2 / 64 + 1)).map (fun i => (w64 (n / 2 ^ (64 * i))).toNat) =
        (List.range (n.log2 / 64 + 1)).map fun i => n / 2 ^ (64 * i) % 2 ^ 64 := by simp [w64]
    have big : n < 2 ^ (64 * (n.log2 / 64 + 1)) := lt_of_lt_of_le Nat.lt_log2_self (Nat.pow_le_pow_right (by norm_num) (by omega))
    have w := Codec.words_ok ((List.range (n.log2 / 64 + 1)).map fun i => w64 (n / 2 ^ (64 * i))) ws
    rw [List.length_map, List.length_range] at w
    simp only [Codec.nat, if_neg h, List.append_assoc, List.cons_append, t, List.drop_append_of_le_length, List.length_replicate, le_refl]
    have q := (joinLanes_digits 64 (n.log2 / 64 + 1) n).trans (Nat.mod_eq_of_lt big)
    simpa [w, Function.comp_def, d] using q

theorem Codec.int_ok : Codec.int.Faithful := Codec.iso_ok Codec.nat_ok fun x => by
  split <;> split <;> omega

theorem Codec.block_ok : Codec.block.Faithful := fun b ws => by
  have e := Codec.words_ok ((lanesOf 64 b).map w64) ws
  rw [List.length_map, show (lanesOf 64 b).length = 8 by simp [lanesOf]] at e
  have d : ((lanesOf 64 b).map w64).map BitVec.toNat = (List.range 8).map fun i => b.toNat / 2 ^ (64 * i) % 2 ^ 64 := by
    simp [lanesOf, laneOf, w64, Function.comp_def]
  have q : BitVec.ofNat 512 (joinLanes 64 (((lanesOf 64 b).map w64).map BitVec.toNat)) = b := by
    rw [d, joinLanes_digits, show 64 * 8 = 512 from rfl, Nat.mod_eq_of_lt b.isLt, BitVec.ofNat_toNat, BitVec.setWidth_eq]
  simp only [Codec.block, e, ofLanes, Option.map_some, q]

theorem Codec.enum_ok {α : Type} [DecidableEq α] {l : List α} (h : ∀ x, x ∈ l) (n : l.length < 2 ^ 64) : (Codec.enum l).Faithful := fun x ws => by
  have e : l.idxOf x < l.length := List.idxOf_lt_length_of_mem (h x)
  have m : (w64 (l.idxOf x)).toNat = l.idxOf x := Nat.mod_eq_of_lt (by omega)
  simp [Codec.enum, m, List.getElem?_eq_getElem e]

theorem Codec.list_ok {α : Type} {c : Codec α} (h : c.Faithful) : c.list.Faithful := fun l ws => by
  simp [Codec.list, List.append_assoc, Codec.nat_ok _ _, Codec.times_ok h]

theorem Codec.option_ok {α : Type} {c : Codec α} (h : c.Faithful) : c.option.Faithful := fun x ws => by
  cases x <;> simp [Codec.option, h _ _]

theorem Codec.vector_ok {α : Type} {c : Codec α} (h : c.Faithful) (n : Nat) : (c.vector n).Faithful := fun v ws => by
  have e := Codec.times_ok h v.toList ws
  have m : v.toList.length = n := by simp
  rw [m] at e
  simp only [Codec.vector, e, Option.bind_some, dif_pos m]
  rfl

/-! ### What a form leaves out -/

/-- A form reads of what it has put what `f` keeps, and leaves what follows. -/
def Codec.Reads {α : Type} (c : Codec α) (f : α → α) : Prop := ∀ x ws, c.get (c.put x ++ ws) = some (f x, ws)

theorem Codec.Faithful.reads {α : Type} {c : Codec α} (h : c.Faithful) : c.Reads id := h

theorem Codec.iso_reads {α β : Type} {c : Codec α} {k : α → α} {f : β → α} {g : α → β} (h : c.Reads k) : (c.iso f g).Reads fun x => g (k (f x)) :=
  fun x ws => by simp [Codec.iso, h _ _]

theorem Codec.pair_reads {α β : Type} {a : Codec α} {b : Codec β} {f : α → α} {g : β → β} (ha : a.Reads f) (hb : b.Reads g) :
    (a.pair b).Reads fun x => (f x.1, g x.2) := fun x ws => by
  simp [Codec.pair, List.append_assoc, ha _ _, hb _ _]

theorem Codec.times_reads {α : Type} {c : Codec α} {f : α → α} (h : c.Reads f) (l : List α) (ws : List Word64) :
    c.times l.length (l.flatMap c.put ++ ws) = some (l.map f, ws) := by
  induction l with
  | nil => rfl
  | cons x l ih => simp [Codec.times, List.append_assoc, h _ _, ih]

theorem Codec.list_reads {α : Type} {c : Codec α} {f : α → α} (h : c.Reads f) : c.list.Reads (List.map f) := fun l ws => by
  simp [Codec.list, List.append_assoc, Codec.nat_ok _ _, Codec.times_reads h]

/-! ### The forms of an image -/

theorem SlotWord.codec_ok : SlotWord.codec.Faithful := Codec.iso_ok (Codec.pair_ok (Codec.bits_ok (show 32 ≤ 64 by decide)) (Codec.list_ok
  (Codec.bits_ok (show 32 ≤ 64 by decide)))) fun _ => rfl

theorem VVal.codec_ok : VVal.codec.Faithful := Codec.iso_ok (Codec.pair_ok Codec.block_ok (Codec.bits_ok (show 16 ≤ 64 by decide))) fun _ => rfl

theorem Iter.codec_ok : Iter.codec.Faithful := Codec.iso_ok (Codec.pair_ok (Codec.bits_ok (show 5 ≤ 64 by decide)) (Codec.pair_ok Codec.nat_ok
  (Codec.word_ok))) fun _ => rfl

theorem KField.codec_ok : KField.codec.Faithful := Codec.enum_ok (fun x => by cases x <;> decide) (by decide)

theorem Upd.codec_ok : Upd.codec.Faithful := fun x ws => by
  cases x
  case s => simp [Upd.codec, (Codec.pair_ok Codec.nat_ok Codec.word_ok) _ _]
  case a => simp [Upd.codec, (Codec.pair_ok Codec.nat_ok Codec.word_ok) _ _]
  case stride => simp [Upd.codec, (Codec.pair_ok Codec.nat_ok Codec.word_ok) _ _]
  case v => simp [Upd.codec, (Codec.pair_ok Codec.nat_ok VVal.codec_ok) _ _]
  case lanes => simp [Upd.codec, (Codec.pair_ok Codec.nat_ok (Codec.pair_ok Codec.block_ok VVal.codec_ok)) _ _]
  case keepV => simp [Upd.codec, Codec.nat_ok _ _]
  case keepK => simp [Upd.codec, KField.codec_ok _ _]
  case p => simp [Upd.codec, (Codec.pair_ok Codec.nat_ok Codec.bool_ok) _ _]
  case m => simp [Upd.codec, (Codec.pair_ok Codec.nat_ok Codec.word_ok) _ _]
  case iter => simp [Upd.codec, (Codec.pair_ok Codec.nat_ok Iter.codec_ok) _ _]
  case count => simp [Upd.codec, (Codec.pair_ok Codec.nat_ok Codec.nat_ok) _ _]
  case k => simp [Upd.codec, (Codec.pair_ok KField.codec_ok Codec.word_ok) _ _]
  case statClear => simp [Upd.codec, Codec.word_ok _ _]
  case flagsOr => simp [Upd.codec, (Codec.bits_ok (show 6 ≤ 64 by decide)) _ _]
  case statOr => simp [Upd.codec, Codec.word_ok _ _]
  case ternbad => simp [Upd.codec, Codec.nat_ok _ _]
  case bind => simp [Upd.codec, (Codec.pair_ok Codec.nat_ok (Codec.option_ok Codec.nat_ok)) _ _]

theorem Inflight.codec_ok : Inflight.codec.Faithful := Codec.iso_ok (Codec.pair_ok Codec.nat_ok (Codec.pair_ok Codec.nat_ok (Codec.pair_ok
  Codec.nat_ok (Upd.codec_ok)))) fun _ => rfl

theorem SnapResult.codec_ok : SnapResult.codec.Faithful := Codec.iso_ok (Codec.pair_ok Codec.nat_ok (Codec.pair_ok Codec.nat_ok (Codec.pair_ok
  Codec.nat_ok (Upd.codec_ok)))) fun _ => rfl

theorem SnapLanding.codec_ok : SnapLanding.codec.Faithful := Codec.iso_ok (Codec.pair_ok Codec.nat_ok (Codec.pair_ok Codec.nat_ok (Codec.pair_ok
  Codec.nat_ok (Codec.pair_ok (Codec.list_ok Upd.codec_ok) (Codec.pair_ok Codec.bool_ok (Codec.option_ok (Codec.pair_ok Codec.nat_ok
  Codec.nat_ok))))))) fun _ => rfl

theorem Snapshot.codec_ok : Snapshot.codec.Faithful := Codec.iso_ok (Codec.pair_ok (Codec.list_ok SnapResult.codec_ok) (Codec.list_ok
  SnapLanding.codec_ok)) fun _ => rfl

theorem Bundle.codec_ok : Bundle.codec.Faithful := Codec.iso_ok (Codec.pair_ok (Codec.bits_ok (show 32 ≤ 64 by decide)) (Codec.pair_ok (Codec.list_ok
  (Codec.option_ok SlotWord.codec_ok)) (Codec.word_ok))) fun _ => rfl

theorem RunState.codec_ok : RunState.codec.Faithful := Codec.enum_ok (fun x => by cases x <;> decide) (by decide)

theorem Nest.codec_ok : Nest.codec.Faithful := Codec.iso_ok (Codec.pair_ok Codec.bool_ok (Codec.pair_ok Codec.nat_ok (Codec.pair_ok (Codec.list_ok
  Codec.nat_ok) (Codec.pair_ok (Codec.list_ok Iter.codec_ok) (Codec.pair_ok Codec.word_ok (Codec.pair_ok Codec.bool_ok (Codec.pair_ok (Codec.list_ok
  (Codec.pair_ok Codec.nat_ok Codec.word_ok)) (Codec.pair_ok Codec.nat_ok (Codec.nat_ok))))))))) fun _ => rfl

theorem WaitCond.codec_ok : WaitCond.codec.Faithful := fun x ws => by
  cases x
  case performed => rfl
  case acked => simp [WaitCond.codec, (Codec.pair_ok Codec.nat_ok (Codec.pair_ok Codec.nat_ok (Codec.pair_ok Codec.bool_ok Codec.bool_ok))) _ _]
  case clock => simp [WaitCond.codec, Codec.nat_ok _ _]
  case response => simp [WaitCond.codec, (Codec.pair_ok Codec.nat_ok Codec.nat_ok) _ _]
  case sill => rfl
  case watermark => simp [WaitCond.codec, (Codec.pair_ok Codec.nat_ok (Codec.pair_ok Codec.nat_ok Codec.nat_ok)) _ _]
  case wheel => simp [WaitCond.codec, Codec.bool_ok _ _]
  case matQueue => rfl
  case slotReady => simp [WaitCond.codec, Codec.nat_ok _ _]
  case slotIdle => simp [WaitCond.codec, Codec.nat_ok _ _]
  case tiles => simp [WaitCond.codec, Codec.nat_ok _ _]
  case engineIdle => rfl
  case taskRoom => simp [WaitCond.codec, (Codec.pair_ok Codec.nat_ok Codec.nat_ok) _ _]
  case noTask => rfl
  case tag => simp [WaitCond.codec, Codec.nat_ok _ _]
  case chansQuiet => simp [WaitCond.codec, Codec.nat_ok _ _]
  case mark => simp [WaitCond.codec, (Codec.pair_ok Codec.nat_ok Codec.nat_ok) _ _]
  case latch => simp [WaitCond.codec, (Codec.pair_ok Codec.nat_ok (Codec.pair_ok Codec.nat_ok Codec.bool_ok)) _ _]
  case anyLatch => simp [WaitCond.codec, (Codec.pair_ok Codec.nat_ok (Codec.pair_ok (Codec.list_ok (Codec.pair_ok Codec.nat_ok Codec.nat_ok)) Codec.bool_ok)) _ _]
  case handle => simp [WaitCond.codec, (Codec.pair_ok Codec.nat_ok (Codec.pair_ok Codec.nat_ok Codec.bool_ok)) _ _]
  case contRoom => simp [WaitCond.codec, Codec.nat_ok _ _]
  case collRoom => rfl
  case glazeDone => simp [WaitCond.codec, Codec.nat_ok _ _]

theorem TrapReq.codec_ok : TrapReq.codec.Faithful := Codec.iso_ok (Codec.pair_ok Codec.nat_ok (Codec.pair_ok Codec.nat_ok (Codec.pair_ok Codec.word_ok
  (Codec.word_ok)))) fun _ => rfl

theorem PageMiss.codec_ok : PageMiss.codec.Faithful := Codec.iso_ok (Codec.pair_ok Codec.nat_ok (Codec.pair_ok Codec.word_ok (Codec.pair_ok
  Codec.nat_ok (Codec.pair_ok Codec.nat_ok (Codec.pair_ok Codec.nat_ok (Codec.nat_ok)))))) fun _ => rfl

theorem EndKind.codec_ok : EndKind.codec.Faithful := fun x ws => by
  cases x
  case exit => rfl
  case suspend => simp [EndKind.codec, Codec.nat_ok _ _]

theorem Region.codec_ok : Region.codec.Faithful := Codec.iso_ok (Codec.pair_ok Codec.nat_ok (Codec.pair_ok Codec.nat_ok (Codec.pair_ok Codec.nat_ok
  (Codec.nat_ok)))) fun _ => rfl

theorem Trail.codec_ok : Trail.codec.Faithful := Codec.iso_ok (Codec.pair_ok Codec.nat_ok (Codec.pair_ok Codec.nat_ok (Codec.pair_ok Codec.bool_ok
  (Codec.pair_ok Codec.nat_ok (Codec.bool_ok))))) fun _ => rfl

theorem FrameRec.codec_ok : FrameRec.codec.Faithful := Codec.iso_ok (Codec.pair_ok Codec.nat_ok (Codec.pair_ok Codec.nat_ok (Codec.pair_ok
  Codec.word_ok (Codec.pair_ok (Codec.bits_ok (show 32 ≤ 64 by decide)) (Codec.pair_ok Codec.bool_ok (Codec.pair_ok Codec.bool_ok (Codec.pair_ok
  Codec.bool_ok (Codec.pair_ok Codec.bool_ok (Codec.pair_ok Codec.nat_ok (Codec.pair_ok Codec.nat_ok (Codec.pair_ok Codec.word_ok (Codec.pair_ok
  Codec.nat_ok (Codec.pair_ok Codec.nat_ok (Codec.pair_ok Codec.nat_ok (Codec.pair_ok Codec.nat_ok (Codec.bool_ok)))))))))))))))) fun _ => rfl

theorem PaneState.codec_ok : PaneState.codec.Faithful := fun x ws => by
  cases x
  case opened => simp [PaneState.codec, (Codec.pair_ok Codec.nat_ok Codec.nat_ok) _ _]
  case sealed => rfl
  case applied => rfl

theorem PaneBlock.codec_ok : PaneBlock.codec.Faithful := Codec.iso_ok (Codec.pair_ok Codec.nat_ok (Codec.pair_ok Codec.block_ok (Codec.pair_ok
  Codec.int_ok (Codec.pair_ok (Codec.bits_ok (show 64 ≤ 64 by decide)) (Codec.pair_ok (Codec.bits_ok (show 64 ≤ 64 by decide)) (Codec.pair_ok
  Codec.bool_ok (Codec.pair_ok (Codec.option_ok Codec.block_ok) (Codec.pair_ok Codec.int_ok (Codec.bool_ok))))))))) fun _ => rfl

theorem Pane.codec_ok : Pane.codec.Faithful := Codec.iso_ok (Codec.pair_ok Codec.nat_ok (Codec.pair_ok Codec.bool_ok (Codec.pair_ok PaneState.codec_ok
  (Codec.pair_ok (Codec.list_ok PaneBlock.codec_ok) (Codec.pair_ok Codec.bool_ok (Codec.pair_ok Codec.bool_ok (Codec.pair_ok Codec.bool_ok
  (Codec.pair_ok Codec.bool_ok (Codec.pair_ok Codec.bool_ok (Codec.bool_ok)))))))))) fun _ => rfl

theorem Frame.codec_ok : Frame.codec.Faithful := Codec.iso_ok (Codec.pair_ok FrameRec.codec_ok (Codec.pair_ok (Codec.list_ok Pane.codec_ok)
  (Codec.pair_ok (Codec.list_ok Pane.codec_ok) (Codec.pair_ok Codec.nat_ok (Codec.pair_ok Codec.bool_ok (Codec.pair_ok (Codec.list_ok (Codec.pair_ok
  Codec.nat_ok Pane.codec_ok)) (Codec.pair_ok (Codec.list_ok (Codec.pair_ok Codec.nat_ok Codec.nat_ok)) (Codec.pair_ok (Codec.option_ok (Codec.pair_ok
  Codec.nat_ok Codec.nat_ok)) (Codec.pair_ok Codec.bool_ok (Codec.nat_ok)))))))))) fun _ => rfl

theorem Iss.codec_ok : Iss.codec.Faithful := Codec.iso_ok (Codec.pair_ok Codec.bool_ok (Codec.pair_ok Codec.nat_ok (Codec.pair_ok Codec.nat_ok
  (Codec.pair_ok (Codec.bits_ok (show 32 ≤ 64 by decide)) (Codec.pair_ok Codec.word_ok (Codec.pair_ok Codec.word_ok (Codec.pair_ok Codec.nat_ok
  (Codec.pair_ok Codec.nat_ok (Codec.pair_ok Codec.nat_ok (Codec.pair_ok SlotWord.codec_ok (Codec.pair_ok (Codec.list_ok (Codec.pair_ok Codec.nat_ok
  SlotWord.codec_ok)) (Codec.pair_ok (Codec.list_ok Codec.nat_ok) (Codec.pair_ok (Codec.list_ok (Codec.pair_ok Codec.nat_ok SlotWord.codec_ok))
  (Codec.pair_ok (Codec.list_ok (Codec.pair_ok Codec.nat_ok SlotWord.codec_ok)) (Codec.pair_ok (Codec.list_ok Codec.nat_ok) (Codec.pair_ok
  (Codec.list_ok Codec.nat_ok) (Codec.pair_ok (Codec.list_ok TrapReq.codec_ok) (Codec.pair_ok (Codec.option_ok (Codec.pair_ok Codec.nat_ok
  Codec.nat_ok)) (Codec.pair_ok (Codec.list_ok PageMiss.codec_ok) (Codec.pair_ok (Codec.list_ok (Codec.pair_ok Codec.nat_ok WaitCond.codec_ok))
  (Codec.pair_ok (Codec.option_ok Codec.word_ok) (Codec.pair_ok Codec.bool_ok (Codec.pair_ok Codec.bool_ok (Codec.pair_ok (Codec.option_ok
  EndKind.codec_ok) (Codec.pair_ok Codec.bool_ok (Codec.pair_ok (Codec.option_ok Nest.codec_ok) (Codec.pair_ok Codec.bool_ok (Codec.pair_ok
  (Codec.option_ok Codec.nat_ok) (Codec.pair_ok (Codec.list_ok Codec.nat_ok) (Codec.pair_ok (Codec.option_ok VVal.codec_ok) (Codec.pair_ok
  (Codec.list_ok (Codec.pair_ok Codec.nat_ok Codec.nat_ok)) (Codec.pair_ok (Codec.option_ok Codec.nat_ok) (Codec.pair_ok (Codec.option_ok
  (Codec.list_ok Codec.word_ok)) (Codec.pair_ok (Codec.list_ok PageMiss.codec_ok) (Codec.pair_ok (Codec.list_ok (Codec.pair_ok Codec.nat_ok
  SlotWord.codec_ok)) (Codec.pair_ok (Codec.option_ok Codec.bool_ok) (Codec.option_ok (Codec.list_ok (Codec.pair_ok Codec.nat_ok
  Frame.codec_ok))))))))))))))))))))))))))))))))))))))) fun _ => rfl

theorem KRegs.codec_ok : KRegs.codec.Faithful := Codec.iso_ok (Codec.pair_ok Codec.word_ok (Codec.pair_ok Codec.word_ok (Codec.pair_ok Codec.nat_ok
  (Codec.pair_ok (Codec.bits_ok (show 6 ≤ 64 by decide)) (Codec.pair_ok Codec.nat_ok (Codec.pair_ok Codec.nat_ok (Codec.pair_ok Codec.nat_ok
  (Codec.pair_ok Codec.nat_ok (Codec.pair_ok Codec.nat_ok (Codec.pair_ok Codec.nat_ok (Codec.pair_ok Codec.nat_ok (Codec.pair_ok Codec.nat_ok
  (Codec.pair_ok Codec.nat_ok (Codec.pair_ok Codec.word_ok (Codec.pair_ok Codec.word_ok (Codec.pair_ok Codec.bool_ok (Codec.pair_ok Codec.bool_ok
  (Codec.pair_ok Codec.word_ok (Codec.pair_ok Codec.word_ok (Codec.pair_ok Codec.word_ok (Codec.pair_ok Codec.word_ok (Codec.pair_ok Codec.word_ok
  (Codec.pair_ok Codec.bool_ok (Codec.pair_ok Codec.nat_ok (Codec.pair_ok (Codec.bits_ok (show 5 ≤ 64 by decide)) (Codec.pair_ok Codec.nat_ok
  (Codec.pair_ok Codec.nat_ok (Codec.pair_ok Codec.word_ok (Codec.pair_ok Codec.word_ok (Codec.word_ok)))))))))))))))))))))))))))))) fun _ => rfl

theorem ShapeSet.codec_ok : ShapeSet.codec.Faithful := Codec.iso_ok (Codec.pair_ok Codec.word_ok (Codec.pair_ok Codec.word_ok (Codec.pair_ok
  Codec.word_ok (Codec.pair_ok Codec.word_ok (Codec.pair_ok Codec.word_ok (Codec.bits_ok (show 32 ≤ 64 by decide))))))) fun _ => rfl

theorem ShapeWrite.codec_ok : ShapeWrite.codec.Faithful := Codec.iso_ok (Codec.pair_ok Codec.nat_ok (Codec.pair_ok Codec.nat_ok (Codec.pair_ok
  Codec.nat_ok (Codec.pair_ok Codec.nat_ok (Codec.word_ok))))) fun _ => rfl

theorem ChanState.codec_ok : ChanState.codec.Faithful := Codec.enum_ok (fun x => by cases x <;> decide) (by decide)

theorem Knock.codec_ok : Knock.codec.Faithful := Codec.iso_ok (Codec.pair_ok Codec.nat_ok (Codec.pair_ok Codec.nat_ok (Codec.word_ok))) fun _ => rfl

theorem Flight.codec_ok : Flight.codec.Faithful := Codec.iso_ok (Codec.pair_ok Codec.bool_ok (Codec.pair_ok (Codec.list_ok Codec.nat_ok)
  (Codec.pair_ok Codec.nat_ok (Codec.pair_ok Codec.nat_ok (Codec.pair_ok (Codec.bits_ok (show 16 ≤ 64 by decide)) (Codec.word_ok)))))) fun _ => rfl

theorem Chan.codec_ok : Chan.codec.Faithful := Codec.iso_ok (Codec.pair_ok ChanState.codec_ok (Codec.pair_ok Codec.nat_ok (Codec.pair_ok Codec.nat_ok
  (Codec.pair_ok (Codec.option_ok (Codec.list_ok Codec.word_ok)) (Codec.pair_ok Codec.nat_ok (Codec.pair_ok Codec.bool_ok (Codec.pair_ok Codec.nat_ok
  (Codec.pair_ok Codec.nat_ok (Codec.pair_ok (Codec.list_ok (Codec.pair_ok Codec.nat_ok Codec.nat_ok)) (Codec.pair_ok Codec.bool_ok (Codec.pair_ok
  (Codec.list_ok Flight.codec_ok) (Codec.pair_ok (Codec.option_ok (Codec.pair_ok Codec.nat_ok Codec.bool_ok)) (Codec.pair_ok Codec.nat_ok
  (Codec.pair_ok Codec.nat_ok (Codec.pair_ok Codec.nat_ok (Codec.pair_ok (Codec.list_ok (Codec.pair_ok Codec.nat_ok Codec.nat_ok)) (Codec.pair_ok
  (Codec.vector_ok ShapeSet.codec_ok 8) (Codec.pair_ok (Codec.option_ok (Codec.pair_ok Codec.word_ok Codec.nat_ok)) (Codec.pair_ok Codec.nat_ok
  (Codec.pair_ok (Codec.option_ok (Codec.pair_ok Codec.nat_ok Codec.nat_ok)) (Codec.pair_ok Codec.bool_ok (Codec.pair_ok Codec.bool_ok (Codec.pair_ok
  Codec.bool_ok (Codec.pair_ok (Codec.option_ok Codec.nat_ok) (Codec.pair_ok (Codec.option_ok (Codec.pair_ok Codec.nat_ok Knock.codec_ok))
  (Codec.nat_ok)))))))))))))))))))))))))) fun _ => rfl

theorem SlotFill.codec_ok : SlotFill.codec.Faithful := Codec.enum_ok (fun x => by cases x <;> decide) (by decide)

theorem FillJob.codec_ok : FillJob.codec.Faithful := Codec.iso_ok (Codec.pair_ok Codec.word_ok (Codec.pair_ok Codec.nat_ok (Codec.pair_ok
  Codec.word_ok (Codec.pair_ok Codec.nat_ok (Codec.pair_ok (Codec.list_ok VVal.codec_ok) (Codec.nat_ok)))))) fun _ => rfl

theorem OSlot.codec_ok : OSlot.codec.Faithful := Codec.iso_ok (Codec.pair_ok SlotFill.codec_ok (Codec.pair_ok Codec.nat_ok (Codec.pair_ok
  (Codec.bits_ok (show 16 ≤ 64 by decide)) (Codec.pair_ok (Codec.list_ok Codec.block_ok) (Codec.pair_ok Codec.nat_ok (Codec.option_ok
  FillJob.codec_ok)))))) fun _ => rfl

theorem Tile.codec_ok : Tile.codec.Faithful := Codec.iso_ok (Codec.pair_ok Codec.nat_ok (Codec.pair_ok Codec.int_ok (Codec.pair_ok Codec.bool_ok
  (Codec.pair_ok (Codec.bits_ok (show 6 ≤ 64 by decide)) (Codec.bool_ok))))) fun _ => rfl

theorem Scope.codec_ok : Scope.codec.Faithful := Codec.enum_ok (fun x => by cases x <;> decide) (by decide)

theorem Who.codec_ok : Who.codec.Faithful := fun x ws => by
  cases x
  case ctx => simp [Who.codec, (Codec.pair_ok Codec.nat_ok Codec.nat_ok) _ _]
  case chan => simp [Who.codec, (Codec.pair_ok Codec.nat_ok Codec.nat_ok) _ _]
  case task => simp [Who.codec, (Codec.pair_ok Codec.nat_ok (Codec.pair_ok Codec.nat_ok Codec.nat_ok)) _ _]
  case coll => simp [Who.codec, Codec.nat_ok _ _]

theorem QRec.codec_ok : QRec.codec.Faithful := Codec.iso_ok (Codec.pair_ok (Codec.list_ok Codec.word_ok) (Codec.pair_ok Codec.nat_ok (Codec.pair_ok
  Codec.nat_ok (Codec.pair_ok Codec.nat_ok (Codec.pair_ok Codec.bool_ok (Codec.pair_ok Scope.codec_ok (Codec.bool_ok))))))) fun _ => rfl

theorem PFault.codec_ok : PFault.codec.Faithful := Codec.iso_ok (Codec.pair_ok Codec.bool_ok (Codec.pair_ok Codec.nat_ok (Codec.pair_ok Codec.word_ok
  (Codec.pair_ok Codec.nat_ok (Codec.pair_ok Codec.nat_ok (Codec.pair_ok (Codec.option_ok QRec.codec_ok) (Codec.list_ok Who.codec_ok))))))) fun _ =>
  rfl

theorem LeaveAsk.codec_ok : LeaveAsk.codec.Faithful := fun x ws => by
  cases x
  case engine => simp [LeaveAsk.codec, Codec.nat_ok _ _]
  case task => simp [LeaveAsk.codec, (Codec.pair_ok Codec.nat_ok Codec.nat_ok) _ _]
  case burst => simp [LeaveAsk.codec, (Codec.pair_ok Codec.nat_ok Codec.nat_ok) _ _]

theorem Extent.codec_ok : Extent.codec.Faithful := Codec.iso_ok (Codec.pair_ok Codec.nat_ok (Codec.pair_ok Codec.nat_ok (Codec.pair_ok Codec.word_ok
  (Codec.nat_ok)))) fun _ => rfl

theorem Task.codec_ok : Task.codec.Faithful := Codec.iso_ok (Codec.pair_ok Codec.nat_ok (Codec.pair_ok (Codec.list_ok Codec.word_ok) (Codec.pair_ok
  Codec.nat_ok (Codec.pair_ok Codec.nat_ok (Codec.pair_ok Codec.nat_ok (Codec.pair_ok Codec.word_ok (Codec.pair_ok Codec.bool_ok (Codec.pair_ok
  Codec.bool_ok (Codec.pair_ok Codec.nat_ok (Codec.pair_ok (Codec.list_ok Extent.codec_ok) (Codec.pair_ok (Codec.option_ok Extent.codec_ok)
  (Codec.pair_ok Codec.bool_ok (Codec.pair_ok Codec.nat_ok (Codec.pair_ok Codec.bool_ok (Codec.pair_ok Codec.bool_ok (Codec.option_ok
  Codec.nat_ok)))))))))))))))) fun _ => rfl

theorem CollJob.codec_ok : CollJob.codec.Faithful := Codec.iso_ok (Codec.pair_ok (Codec.list_ok Codec.word_ok) (Codec.pair_ok Codec.nat_ok
  (Codec.pair_ok Codec.nat_ok (Codec.pair_ok Codec.nat_ok (Codec.pair_ok Codec.bool_ok (Codec.pair_ok Codec.bool_ok (Codec.pair_ok (Codec.list_ok
  Extent.codec_ok) (Codec.pair_ok Codec.bool_ok (Codec.pair_ok (Codec.bits_ok (show 4 ≤ 64 by decide)) (Codec.pair_ok (Codec.option_ok Codec.nat_ok)
  (Codec.list_ok (Codec.pair_ok Codec.nat_ok Codec.nat_ok)))))))))))) fun _ => rfl

theorem Migration.codec_ok : Migration.codec.Faithful := Codec.iso_ok (Codec.pair_ok Codec.nat_ok (Codec.pair_ok Codec.nat_ok (Codec.pair_ok
  Codec.nat_ok (Codec.pair_ok Codec.word_ok (Codec.pair_ok Codec.nat_ok (Codec.pair_ok Codec.nat_ok (Codec.pair_ok Codec.bool_ok (Codec.pair_ok
  Codec.nat_ok (Codec.pair_ok Codec.bool_ok (Codec.pair_ok Codec.nat_ok (Codec.nat_ok))))))))))) fun _ => rfl

theorem FrameMark.codec_ok : FrameMark.codec.Faithful := Codec.iso_ok (Codec.pair_ok FrameRec.codec_ok (Codec.pair_ok (Codec.list_ok (Codec.pair_ok
  Codec.nat_ok (Codec.pair_ok Codec.bool_ok Codec.bool_ok))) (Codec.pair_ok Codec.nat_ok (Codec.pair_ok Codec.bool_ok (Codec.pair_ok (Codec.option_ok
  (Codec.pair_ok Codec.nat_ok Codec.nat_ok)) (Codec.pair_ok Codec.bool_ok (Codec.nat_ok))))))) fun _ => rfl

/-- What an image keeps. -/
def Core.imaged (x : Core) : Core :=
  { clock := x.clock, cur := x.cur, quantum := x.quantum, chans := x.chans, shapes := x.shapes, shapeWrites := x.shapeWrites, knocks := x.knocks,
    slots := x.slots, tiles := x.tiles, hosting := x.hosting, cls := x.cls, clsPc := x.clsPc, clsLeave := x.clsLeave, clsAt := x.clsAt,
    lastPc := x.lastPc, idleSince := x.idleSince }

theorem Core.codec_reads : Core.codec.Reads Core.imaged := Codec.iso_reads (Codec.Faithful.reads (Codec.pair_ok Codec.nat_ok (Codec.pair_ok
  Codec.nat_ok (Codec.pair_ok Codec.nat_ok (Codec.pair_ok (Codec.vector_ok Chan.codec_ok 4) (Codec.pair_ok (Codec.vector_ok ShapeSet.codec_ok 8)
  (Codec.pair_ok (Codec.list_ok ShapeWrite.codec_ok) (Codec.pair_ok (Codec.list_ok Knock.codec_ok) (Codec.pair_ok (Codec.list_ok (Codec.pair_ok
  Codec.nat_ok OSlot.codec_ok)) (Codec.pair_ok (Codec.vector_ok Tile.codec_ok 16) (Codec.pair_ok Codec.bool_ok (Codec.pair_ok Codec.nat_ok
  (Codec.pair_ok Codec.word_ok (Codec.pair_ok Codec.bool_ok (Codec.pair_ok Codec.nat_ok (Codec.pair_ok Codec.word_ok Codec.nat_ok))))))))))))))))

/-- What an image keeps. -/
def Cluster.imaged (x : Cluster) : Cluster :=
  { faults := x.faults, blocked := x.blocked, released := x.released, conts := x.conts, tasks := x.tasks, taskNo := x.taskNo, tags := x.tags,
    asks := x.asks, hold := x.hold, droopAt := x.droopAt }

theorem Cluster.codec_reads : Cluster.codec.Reads Cluster.imaged := Codec.iso_reads (Codec.Faithful.reads (Codec.pair_ok (Codec.list_ok (Codec.pair_ok
  Codec.nat_ok PFault.codec_ok)) (Codec.pair_ok (Codec.list_ok (Codec.pair_ok Who.codec_ok PageMiss.codec_ok)) (Codec.pair_ok (Codec.list_ok
  Who.codec_ok) (Codec.pair_ok (Codec.list_ok QRec.codec_ok) (Codec.pair_ok (Codec.vector_ok (Codec.list_ok Task.codec_ok) 4) (Codec.pair_ok
  Codec.nat_ok (Codec.pair_ok (Codec.list_ok Codec.nat_ok) (Codec.pair_ok (Codec.list_ok LeaveAsk.codec_ok) (Codec.pair_ok Codec.nat_ok
  (Codec.option_ok Codec.nat_ok)))))))))))

/-- What an image keeps. -/
def CollEngine.imaged (x : CollEngine) : CollEngine :=
  { jobs := x.jobs, running := x.running }

theorem CollEngine.codec_reads : CollEngine.codec.Reads CollEngine.imaged := Codec.iso_reads (Codec.Faithful.reads (Codec.pair_ok (Codec.list_ok
  CollJob.codec_ok) (Codec.option_ok CollJob.codec_ok)))

/-- What an image keeps. -/
def Launch.imaged (x : Launch) : Launch :=
  { noreplay := x.noreplay, framesEnded := x.framesEnded, logStall := x.logStall, stallAt := x.stallAt, logDropped := x.logDropped, tail := x.tail,
    freeBefore := x.freeBefore, seed := x.seed, snaps := x.snaps, words := [], hdrAddr := 0 }

theorem Launch.codec_reads : Launch.codec.Reads Launch.imaged := Codec.iso_reads (Codec.Faithful.reads (Codec.pair_ok (Codec.option_ok Codec.nat_ok)
  (Codec.pair_ok Codec.nat_ok (Codec.pair_ok Codec.bool_ok (Codec.pair_ok Codec.nat_ok (Codec.pair_ok Codec.nat_ok (Codec.pair_ok Codec.bool_ok
  (Codec.pair_ok (Codec.option_ok (Codec.pair_ok Codec.nat_ok Codec.nat_ok)) (Codec.pair_ok Codec.nat_ok (Codec.list_ok (Codec.pair_ok Codec.nat_ok
  Frame.codec_ok)))))))))))

/-- What an image keeps of a device state. -/
def DeviceImage.imaged (x : DeviceImage) : DeviceImage :=
  { x with
    launch := x.launch.imaged,
    cores := x.cores.map fun e => (id e.1, e.2.imaged),
    clusters := x.clusters.map fun e => (id e.1, e.2.imaged),
    colls := x.colls.map fun e => (id e.1, e.2.imaged) }

theorem DeviceImage.codec_reads : DeviceImage.codec.Reads DeviceImage.imaged := Codec.iso_reads (Codec.pair_reads Launch.codec_reads (Codec.pair_reads
  (Codec.list_reads (Codec.pair_reads (Codec.nat_ok).reads Core.codec_reads)) (Codec.pair_reads ((Codec.list_ok (Codec.pair_ok (Codec.pair_ok
  Codec.nat_ok Codec.nat_ok) (Codec.pair_ok Codec.bool_ok Codec.nat_ok)))).reads (Codec.pair_reads ((Codec.list_ok (Codec.list_ok
  Codec.word_ok))).reads (Codec.pair_reads (Codec.list_reads (Codec.pair_reads (Codec.nat_ok).reads Cluster.codec_reads)) (Codec.pair_reads
  (Codec.list_reads (Codec.pair_reads (Codec.nat_ok).reads CollEngine.codec_reads)) (Codec.pair_reads ((Codec.list_ok (Codec.pair_ok Codec.nat_ok
  (Codec.bits_ok (show 16 ≤ 64 by decide))))).reads (Codec.pair_reads ((Codec.list_ok Codec.nat_ok)).reads (Codec.pair_reads ((Codec.list_ok
  Migration.codec_ok)).reads (Codec.pair_reads ((Codec.list_ok (Codec.pair_ok Codec.nat_ok (Codec.list_ok (Codec.pair_ok Codec.nat_ok
  Codec.nat_ok))))).reads (Codec.pair_reads ((Codec.list_ok (Codec.pair_ok Codec.nat_ok FrameMark.codec_ok))).reads (Codec.pair_reads ((Codec.list_ok
  (Codec.pair_ok Codec.nat_ok (Codec.list_ok VVal.codec_ok)))).reads (Codec.pair_reads (Codec.nat_ok).reads (Codec.nat_ok).reads)))))))))))))

theorem CtxImage.codec_ok : CtxImage.codec.Faithful := Codec.iso_ok (Codec.pair_ok (Codec.vector_ok Codec.word_ok 64) (Codec.pair_ok (Codec.vector_ok
  Codec.word_ok 32) (Codec.pair_ok (Codec.vector_ok Codec.word_ok 32) (Codec.pair_ok (Codec.vector_ok VVal.codec_ok 32) (Codec.pair_ok
  (Codec.vector_ok Codec.bool_ok 16) (Codec.pair_ok (Codec.vector_ok Codec.word_ok 8) (Codec.pair_ok Codec.word_ok (Codec.pair_ok Codec.nat_ok
  (Codec.pair_ok Codec.word_ok (Codec.pair_ok (Codec.vector_ok (Codec.option_ok SlotWord.codec_ok) 5) (Codec.pair_ok (Codec.vector_ok (Codec.option_ok
  SlotWord.codec_ok) 5) (Codec.pair_ok (Codec.option_ok Snapshot.codec_ok) (Codec.pair_ok (Codec.option_ok Snapshot.codec_ok) (Codec.pair_ok
  KRegs.codec_ok (Codec.pair_ok (Codec.vector_ok Codec.word_ok 16) (Codec.pair_ok (Codec.vector_ok Iter.codec_ok 8) (Codec.pair_ok (Codec.vector_ok
  (Codec.bits_ok (show 32 ≤ 64 by decide)) 4) (Codec.pair_ok (Codec.option_ok Nest.codec_ok) (Codec.pair_ok (Codec.option_ok Nest.codec_ok)
  (Codec.pair_ok (Codec.vector_ok (Codec.option_ok Codec.nat_ok) 8) (Codec.pair_ok (Codec.list_ok (Codec.pair_ok Codec.nat_ok Codec.nat_ok))
  (Codec.pair_ok Codec.nat_ok (Codec.pair_ok Codec.nat_ok (Codec.pair_ok RunState.codec_ok (Codec.pair_ok Codec.nat_ok (Codec.pair_ok (Codec.list_ok
  Inflight.codec_ok) (Codec.pair_ok (Codec.list_ok (Codec.pair_ok (Codec.pair_ok Codec.nat_ok Codec.nat_ok) Codec.nat_ok)) (Codec.pair_ok
  (Codec.option_ok (Codec.pair_ok Codec.word_ok Bundle.codec_ok)) (Codec.pair_ok (Codec.option_ok Iss.codec_ok) (Codec.pair_ok (Codec.option_ok
  (Codec.bits_ok (show 5 ≤ 64 by decide))) (Codec.pair_ok (Codec.option_ok Iss.codec_ok) (Codec.pair_ok Codec.bool_ok (Codec.pair_ok (Codec.list_ok
  PageMiss.codec_ok) (Codec.pair_ok Codec.word_ok (Codec.pair_ok Codec.nat_ok (Codec.pair_ok Codec.bool_ok (Codec.pair_ok Codec.nat_ok (Codec.pair_ok
  Codec.bool_ok (Codec.pair_ok Codec.bool_ok (Codec.pair_ok (Codec.option_ok (Codec.pair_ok Codec.nat_ok Codec.nat_ok)) (Codec.pair_ok Codec.bool_ok
  (Codec.pair_ok Codec.nat_ok (Codec.pair_ok Codec.nat_ok (Codec.pair_ok (Codec.list_ok Codec.nat_ok) (Codec.pair_ok (Codec.list_ok Region.codec_ok)
  (Codec.list_ok Trail.codec_ok)))))))))))))))))))))))))))))))))))))))))))))) fun _ => rfl

end Sys2Proof.Machine
end

