-- ==== Sys2Proof/Laws/Map.lean ====
section
/-! SUPPORT. Read after write for the sparse tables, and that writes keep their keys in rising order. -/

namespace Sys2Proof.Machine

/-! ### Read after write -/

@[simp] theorem mget_nil {α : Type} (d : α) (k : Nat) : mget d [] k = d := rfl

@[simp] theorem mget_mset_self {α : Type} (d : α) (m : List (Nat × α)) (k : Nat) (v : α) : mget d (mset m k v) k = v := by
  induction m with
  | nil => simp [mset, mget]
  | cons e m ih =>
    unfold mset
    split
    · simp [mget]
    · split
      · simp [mget]
      · simp only [mget, ih]
        split <;> simp_all

theorem mget_mset_ne {α : Type} (d : α) (m : List (Nat × α)) {k j : Nat} (v : α) (h : j ≠ k) :
    mget d (mset m k v) j = mget d m j := by
  induction m with
  | nil => simp [mset, mget, h]
  | cons e m ih =>
    unfold mset
    split
    · simp [mget, h]
    · split
      · subst_vars
        simp [mget, h]
      · simp [mget, ih]

theorem mget_mset {α : Type} (d : α) (m : List (Nat × α)) (k j : Nat) (v : α) :
    mget d (mset m k v) j = if j = k then v else mget d m j := by
  split
  · subst_vars
    exact mget_mset_self d m _ v
  · exact mget_mset_ne d m v ‹_›

theorem mget_merase_ne {α : Type} (d : α) (m : List (Nat × α)) {k j : Nat} (h : j ≠ k) :
    mget d (merase m k) j = mget d m j := by
  induction m with
  | nil => rfl
  | cons e m ih =>
    unfold merase
    split
    · subst_vars
      simp [mget, h]
    · simp [mget, ih]

/-! ### Rising keys -/

theorem mrising_of_le {α : Type} {lo lo' : Nat} {m : List (Nat × α)} (h : lo' ≤ lo) (r : mrising lo m = true) :
    mrising lo' m = true := by
  cases m with
  | nil => rfl
  | cons e m =>
    simp only [mrising, Bool.and_eq_true, decide_eq_true_eq] at r ⊢
    exact ⟨by omega, r.2⟩

/-- A key below a rising table stands in none of its entries. -/
theorem mget_of_mrising {α : Type} (d : α) {lo k : Nat} {m : List (Nat × α)} (r : mrising lo m = true) (h : k < lo) :
    mget d m k = d := by
  induction m generalizing lo with
  | nil => rfl
  | cons e m ih =>
    simp only [mrising, Bool.and_eq_true, decide_eq_true_eq] at r
    have : k ≠ e.1 := by omega
    simp only [mget, this, if_false]
    exact ih r.2 (by omega)

theorem mget_merase_self {α : Type} (d : α) {lo : Nat} {m : List (Nat × α)} (r : mrising lo m = true) (k : Nat) :
    mget d (merase m k) k = d := by
  induction m generalizing lo with
  | nil => rfl
  | cons e m ih =>
    simp only [mrising, Bool.and_eq_true, decide_eq_true_eq] at r
    unfold merase
    split
    · subst_vars
      exact mget_of_mrising d r.2 (by omega)
    · simp only [mget]
      rw [if_neg ‹_›]
      exact ih r.2

theorem mrising_mset {α : Type} {lo : Nat} {m : List (Nat × α)} (r : mrising lo m = true) {k : Nat} (h : lo ≤ k) (v : α) :
    mrising lo (mset m k v) = true := by
  induction m generalizing lo with
  | nil => simp [mset, mrising, h]
  | cons e m ih =>
    simp only [mrising, Bool.and_eq_true, decide_eq_true_eq] at r
    unfold mset
    split
    · simp only [mrising, Bool.and_eq_true, decide_eq_true_eq]
      exact ⟨h, by omega, r.2⟩
    · split
      · subst_vars
        simp only [mrising, Bool.and_eq_true, decide_eq_true_eq]
        exact ⟨h, r.2⟩
      · simp only [mrising, Bool.and_eq_true, decide_eq_true_eq]
        exact ⟨r.1, ih r.2 (by omega)⟩

theorem mrising_merase {α : Type} {lo : Nat} {m : List (Nat × α)} (r : mrising lo m = true) (k : Nat) :
    mrising lo (merase m k) = true := by
  induction m generalizing lo with
  | nil => rfl
  | cons e m ih =>
    simp only [mrising, Bool.and_eq_true, decide_eq_true_eq] at r
    unfold merase
    split
    · exact mrising_of_le (by omega) r.2
    · simp only [mrising, Bool.and_eq_true, decide_eq_true_eq]
      exact ⟨r.1, ih r.2⟩

theorem mrising_filter {α : Type} {lo : Nat} {m : List (Nat × α)} (r : mrising lo m = true) (p : Nat × α → Bool) :
    mrising lo (m.filter p) = true := by
  induction m generalizing lo with
  | nil => rfl
  | cons e m ih =>
    simp only [mrising, Bool.and_eq_true, decide_eq_true_eq] at r
    rw [List.filter_cons]
    split
    · simp only [mrising, Bool.and_eq_true, decide_eq_true_eq]
      exact ⟨r.1, ih r.2⟩
    · exact mrising_of_le (by omega) (ih r.2)

/-! ### What every entry satisfies -/

theorem all_mset {α : Type} {p : Nat × α → Bool} {m : List (Nat × α)} (h : m.all p = true) {k : Nat} {v : α} (hv : p (k, v) = true) :
    (mset m k v).all p = true := by
  induction m with
  | nil => simp [mset, hv]
  | cons e m ih =>
    simp only [List.all_cons, Bool.and_eq_true] at h
    unfold mset
    split
    · simp [hv, h]
    · split
      · simp [hv, h]
      · simp [ih h.2, h.1]

theorem all_merase {α : Type} {p : Nat × α → Bool} {m : List (Nat × α)} (h : m.all p = true) (k : Nat) :
    (merase m k).all p = true := by
  induction m with
  | nil => rfl
  | cons e m ih =>
    simp only [List.all_cons, Bool.and_eq_true] at h
    unfold merase
    split
    · exact h.2
    · simp [ih h.2, h.1]

theorem all_filter {α : Type} {p q : Nat × α → Bool} {m : List (Nat × α)} (h : m.all p = true) : (m.filter q).all p = true := by
  simp only [List.all_eq_true, List.mem_filter] at h ⊢
  exact fun x hx => h x hx.1

end Sys2Proof.Machine
end

