-- ==== Sys2Proof/Laws/Memory.lean ====
section
/-! SUPPORT. Every operation on memory keeps its canonical form, and what a write leaves alone. -/

namespace Sys2Proof.Machine

/-! ### One byte -/

theorem putByte_wf {m : List Host.Cell} (h : Memory.wf m) (key : Nat) (b : Byte) : Memory.wf (putByte m key b) := by
  unfold putByte
  split
  · exact ⟨mrising_merase h.1 key, all_merase h.2 key⟩
  · exact ⟨mrising_mset h.1 (Nat.zero_le _) b, all_mset h.2 (by simpa using ‹_›)⟩

/-- The byte at a key after a write there. -/
theorem mget_putByte_self {m : List Host.Cell} (h : Memory.wf m) (key : Nat) (b : Byte) :
    mget unlistedByte (putByte m key b) key = b := by
  unfold putByte
  split
  · subst_vars
    exact mget_merase_self _ h.1 key
  · exact mget_mset_self ..

/-- The byte at another key after a write. -/
theorem mget_putByte_ne (m : List Host.Cell) {key k : Nat} (b : Byte) (h : k ≠ key) :
    mget unlistedByte (putByte m key b) k = mget unlistedByte m k := by
  unfold putByte
  split
  · exact mget_merase_ne _ m h
  · exact mget_mset_ne _ m b h

/-! ### Runs of bytes -/

theorem putBytes_wf {m : List Host.Cell} (h : Memory.wf m) (key n v : Nat) : Memory.wf (putBytes m key n v) := by
  induction n generalizing m key v with
  | zero => exact h
  | succ n ih => exact ih (putByte_wf h key _) (key + 1) (v / 256)

theorem mget_putBytes_outside (m : List Host.Cell) (key n v : Nat) {k : Nat} (h : k < key ∨ key + n ≤ k) :
    mget unlistedByte (putBytes m key n v) k = mget unlistedByte m k := by
  induction n generalizing m key v with
  | zero => rfl
  | succ n ih =>
    unfold putBytes
    rw [ih _ _ _ (by omega), mget_putByte_ne _ _ (by omega)]

theorem filter_wf {m : List Host.Cell} (h : Memory.wf m) (p : Host.Cell → Bool) : Memory.wf (m.filter p) :=
  ⟨mrising_filter h.1 p, all_filter h.2⟩

/-- A fold of steps that keep the canonical form keeps it. -/
theorem foldl_wf {α : Type} {f : State → α → State} (hf : ∀ s a, Memory.wf s.mem → Memory.wf (f s a).mem) (l : List α) {s : State}
    (h : Memory.wf s.mem) : Memory.wf (l.foldl f s).mem := by
  induction l generalizing s with
  | nil => exact h
  | cons a l ih => exact ih (hf s a h)

theorem foldl_putByte_wf (l : List Host.Cell) {m : List Host.Cell} (h : Memory.wf m) :
    Memory.wf (l.foldl (fun (m : List Host.Cell) (c : Host.Cell) => putByte m c.1 c.2) m) := by
  induction l generalizing m with
  | nil => exact h
  | cons c l ih => exact ih (putByte_wf h c.1 c.2)

/-! ### Blocks (R57, R58) -/

theorem writeBlock1_wf {s : State} (h : Memory.wf s.mem) (key : Nat) (b : VVal) : Memory.wf (s.writeBlock1 key b).mem :=
  putBytes_wf h ..

theorem writePart1_wf {s : State} (h : Memory.wf s.mem) (key n v : Nat) : Memory.wf (s.writePart1 key n v).mem := by
  unfold State.writePart1
  split
  · exact h
  · exact putBytes_wf h ..

theorem writeBlock_wf {s : State} (h : Memory.wf s.mem) (keys : List Nat) (b : VVal) : Memory.wf (s.writeBlock keys b).mem :=
  foldl_wf (fun _ k hs => writeBlock1_wf hs k b) keys h

theorem writePart_wf {s : State} (h : Memory.wf s.mem) (keys : List Nat) (n v : Nat) : Memory.wf (s.writePart keys n v).mem :=
  foldl_wf (fun _ k hs => writePart1_wf hs k n v) keys h

/-- A partial write keeps every descriptor (R58). -/
theorem writePart1_desc (s : State) (key n v : Nat) : (s.writePart1 key n v).desc = s.desc := by
  unfold State.writePart1
  split <;> rfl

/-- A partial write into a poisoned block is discarded (R58). -/
theorem writePart1_poisoned {s : State} {key : Nat} (h : isPoison (s.descAt key) = true) (n v : Nat) : s.writePart1 key n v = s := by
  simp [State.writePart1, h]

theorem mget_putDesc_self {m : List (Nat × Desc)} (h : mrising 0 m = true) (blk : Nat) (d : Desc) : mget 0 (putDesc m blk d) blk = d := by
  unfold putDesc
  split
  · subst_vars
    exact mget_merase_self _ h blk
  · exact mget_mset_self ..

theorem mget_putDesc_ne (m : List (Nat × Desc)) {blk k : Nat} (d : Desc) (h : k ≠ blk) : mget 0 (putDesc m blk d) k = mget 0 m k := by
  unfold putDesc
  split
  · exact mget_merase_ne _ m h
  · exact mget_mset_ne _ m d h

/-- A whole block written carries its descriptor, and clears poison (R58). -/
theorem writeBlock1_descAt {s : State} (h : mrising 0 s.desc = true) (key : Nat) (b : VVal) :
    (s.writeBlock1 key b).descAt key = if isPoison b.desc then poisonDesc else b.desc :=
  mget_putDesc_self h ..

/-- A whole block written leaves the descriptors of other blocks. -/
theorem writeBlock1_descAt_ne (s : State) {key k : Nat} (b : VVal) (h : k / 64 ≠ key / 64) :
    (s.writeBlock1 key b).descAt k = s.descAt k :=
  mget_putDesc_ne _ _ h

end Sys2Proof.Machine
end

