-- ==== Sys2Proof/Laws/State.lean ====
section
/-! SUPPORT. What each update of the state leaves alone, field by field, and read after write for cores, contexts, clusters, engines,
ports and frames. -/

namespace Sys2Proof.Machine

/-! ### State.setCore -/

@[simp] theorem State.setCore_cycle (s : State) (g : Nat) (c : Core) : (s.setCore g c).cycle = s.cycle := rfl
@[simp] theorem State.setCore_sclk (s : State) (g : Nat) (c : Core) : (s.setCore g c).sclk = s.sclk := rfl
@[simp] theorem State.setCore_uptime (s : State) (g : Nat) (c : Core) : (s.setCore g c).uptime = s.uptime := rfl
@[simp] theorem State.setCore_sclkHold (s : State) (g : Nat) (c : Core) : (s.setCore g c).sclkHold = s.sclkHold := rfl
@[simp] theorem State.setCore_free (s : State) (g : Nat) (c : Core) : (s.setCore g c).free = s.free := rfl
@[simp] theorem State.setCore_pick (s : State) (g : Nat) (c : Core) : (s.setCore g c).pick = s.pick := rfl
@[simp] theorem State.setCore_inputs (s : State) (g : Nat) (c : Core) : (s.setCore g c).inputs = s.inputs := rfl
@[simp] theorem State.setCore_iss (s : State) (g : Nat) (c : Core) : (s.setCore g c).iss = s.iss := rfl
@[simp] theorem State.setCore_clusters (s : State) (g : Nat) (c : Core) : (s.setCore g c).clusters = s.clusters := rfl
@[simp] theorem State.setCore_colls (s : State) (g : Nat) (c : Core) : (s.setCore g c).colls = s.colls := rfl
@[simp] theorem State.setCore_ports (s : State) (g : Nat) (c : Core) : (s.setCore g c).ports = s.ports := rfl
@[simp] theorem State.setCore_mem (s : State) (g : Nat) (c : Core) : (s.setCore g c).mem = s.mem := rfl
@[simp] theorem State.setCore_desc (s : State) (g : Nat) (c : Core) : (s.setCore g c).desc = s.desc := rfl
@[simp] theorem State.setCore_poisoned (s : State) (g : Nat) (c : Core) : (s.setCore g c).poisoned = s.poisoned := rfl
@[simp] theorem State.setCore_frames (s : State) (g : Nat) (c : Core) : (s.setCore g c).frames = s.frames := rfl
@[simp] theorem State.setCore_launch (s : State) (g : Nat) (c : Core) : (s.setCore g c).launch = s.launch := rfl
@[simp] theorem State.setCore_logNow (s : State) (g : Nat) (c : Core) : (s.setCore g c).logNow = s.logNow := rfl
@[simp] theorem State.setCore_faults (s : State) (g : Nat) (c : Core) : (s.setCore g c).faults = s.faults := rfl
@[simp] theorem State.setCore_migrations (s : State) (g : Nat) (c : Core) : (s.setCore g c).migrations = s.migrations := rfl
@[simp] theorem State.setCore_halted (s : State) (g : Nat) (c : Core) : (s.setCore g c).halted = s.halted := rfl
@[simp] theorem State.setCore_struck (s : State) (g : Nat) (c : Core) : (s.setCore g c).struck = s.struck := rfl
@[simp] theorem State.setCore_saveWaits (s : State) (g : Nat) (c : Core) : (s.setCore g c).saveWaits = s.saveWaits := rfl
@[simp] theorem State.setCore_knocksOut (s : State) (g : Nat) (c : Core) : (s.setCore g c).knocksOut = s.knocksOut := rfl
@[simp] theorem State.setCore_lqbase (s : State) (g : Nat) (c : Core) : (s.setCore g c).lqbase = s.lqbase := rfl
@[simp] theorem State.setCore_lqtail (s : State) (g : Nat) (c : Core) : (s.setCore g c).lqtail = s.lqtail := rfl
@[simp] theorem State.setCore_lqhead (s : State) (g : Nat) (c : Core) : (s.setCore g c).lqhead = s.lqhead := rfl
@[simp] theorem State.setCore_svec (s : State) (g : Nat) (c : Core) : (s.setCore g c).svec = s.svec := rfl
@[simp] theorem State.setCore_pend (s : State) (g : Nat) (c : Core) : (s.setCore g c).pend = s.pend := rfl
@[simp] theorem State.setCore_startDue (s : State) (g : Nat) (c : Core) : (s.setCore g c).startDue = s.startDue := rfl
@[simp] theorem State.setCore_lost (s : State) (g : Nat) (c : Core) : (s.setCore g c).lost = s.lost := rfl
@[simp] theorem State.setCore_imglen (s : State) (g : Nat) (c : Core) : (s.setCore g c).imglen = s.imglen := rfl
@[simp] theorem State.setCore_pstate (s : State) (g : Nat) (c : Core) : (s.setCore g c).pstate = s.pstate := rfl
@[simp] theorem State.setCore_logctl (s : State) (g : Nat) (c : Core) : (s.setCore g c).logctl = s.logctl := rfl
@[simp] theorem State.setCore_logctlNext (s : State) (g : Nat) (c : Core) : (s.setCore g c).logctlNext = s.logctlNext := rfl
@[simp] theorem State.setCore_logwr (s : State) (g : Nat) (c : Core) : (s.setCore g c).logwr = s.logwr := rfl
@[simp] theorem State.setCore_logrd (s : State) (g : Nat) (c : Core) : (s.setCore g c).logrd = s.logrd := rfl
@[simp] theorem State.setCore_replayref (s : State) (g : Nat) (c : Core) : (s.setCore g c).replayref = s.replayref := rfl
@[simp] theorem State.setCore_replayrefNext (s : State) (g : Nat) (c : Core) : (s.setCore g c).replayrefNext = s.replayrefNext := rfl
@[simp] theorem State.setCore_fmdev (s : State) (g : Nat) (c : Core) : (s.setCore g c).fmdev = s.fmdev := rfl
@[simp] theorem State.setCore_fmdevNext (s : State) (g : Nat) (c : Core) : (s.setCore g c).fmdevNext = s.fmdevNext := rfl
@[simp] theorem State.setCore_badstk (s : State) (g : Nat) (c : Core) : (s.setCore g c).badstk = s.badstk := rfl
@[simp] theorem State.setCore_ready (s : State) (g : Nat) (c : Core) : (s.setCore g c).ready = s.ready := rfl
@[simp] theorem State.setCore_sigfail (s : State) (g : Nat) (c : Core) : (s.setCore g c).sigfail = s.sigfail := rfl
@[simp] theorem State.setCore_stage (s : State) (g : Nat) (c : Core) : (s.setCore g c).stage = s.stage := rfl
@[simp] theorem State.setCore_islandsReady (s : State) (g : Nat) (c : Core) : (s.setCore g c).islandsReady = s.islandsReady := rfl
@[simp] theorem State.setCore_geolock (s : State) (g : Nat) (c : Core) : (s.setCore g c).geolock = s.geolock := rfl
@[simp] theorem State.setCore_mecor (s : State) (g : Nat) (c : Core) : (s.setCore g c).mecor = s.mecor := rfl
@[simp] theorem State.setCore_geo (s : State) (g : Nat) (c : Core) : (s.setCore g c).geo = s.geo := rfl
@[simp] theorem State.setCore_apertures (s : State) (g : Nat) (c : Core) : (s.setCore g c).apertures = s.apertures := rfl
@[simp] theorem State.setCore_atnonce (s : State) (g : Nat) (c : Core) : (s.setCore g c).atnonce = s.atnonce := rfl
@[simp] theorem State.setCore_atreq (s : State) (g : Nat) (c : Core) : (s.setCore g c).atreq = s.atreq := rfl
@[simp] theorem State.setCore_atdone (s : State) (g : Nat) (c : Core) : (s.setCore g c).atdone = s.atdone := rfl
@[simp] theorem State.setCore_errors (s : State) (g : Nat) (c : Core) : (s.setCore g c).errors = s.errors := rfl
@[simp] theorem State.setCore_messages (s : State) (g : Nat) (c : Core) : (s.setCore g c).messages = s.messages := rfl
@[simp] theorem State.setCore_cluster (s : State) (g : Nat) (c : Core) (n' : Nat) : (s.setCore g c).cluster n' = s.cluster n' := rfl
@[simp] theorem State.setCore_coll (s : State) (g : Nat) (c : Core) (n' : Nat) : (s.setCore g c).coll n' = s.coll n' := rfl
@[simp] theorem State.setCore_port (s : State) (g : Nat) (c : Core) (q' : Nat) : (s.setCore g c).port q' = s.port q' := rfl
@[simp] theorem State.setCore_frame (s : State) (g : Nat) (c : Core) (a' : Nat) : (s.setCore g c).frame a' = s.frame a' := rfl
@[simp] theorem State.setCore_byte (s : State) (g : Nat) (c : Core) (k' : Nat) : (s.setCore g c).byte k' = s.byte k' := rfl
@[simp] theorem State.setCore_descAt (s : State) (g : Nat) (c : Core) (k' : Nat) : (s.setCore g c).descAt k' = s.descAt k' := rfl
@[simp] theorem State.setCore_launchWord (s : State) (g : Nat) (c : Core) (n' : Nat) : (s.setCore g c).launchWord n' = s.launchWord n' := rfl
@[simp] theorem State.setCore_det (s : State) (g : Nat) (c : Core)  : (s.setCore g c).det = s.det := rfl

/-! ### State.setCluster -/

@[simp] theorem State.setCluster_cycle (s : State) (n : Nat) (k : Cluster) : (s.setCluster n k).cycle = s.cycle := rfl
@[simp] theorem State.setCluster_sclk (s : State) (n : Nat) (k : Cluster) : (s.setCluster n k).sclk = s.sclk := rfl
@[simp] theorem State.setCluster_uptime (s : State) (n : Nat) (k : Cluster) : (s.setCluster n k).uptime = s.uptime := rfl
@[simp] theorem State.setCluster_sclkHold (s : State) (n : Nat) (k : Cluster) : (s.setCluster n k).sclkHold = s.sclkHold := rfl
@[simp] theorem State.setCluster_free (s : State) (n : Nat) (k : Cluster) : (s.setCluster n k).free = s.free := rfl
@[simp] theorem State.setCluster_pick (s : State) (n : Nat) (k : Cluster) : (s.setCluster n k).pick = s.pick := rfl
@[simp] theorem State.setCluster_inputs (s : State) (n : Nat) (k : Cluster) : (s.setCluster n k).inputs = s.inputs := rfl
@[simp] theorem State.setCluster_iss (s : State) (n : Nat) (k : Cluster) : (s.setCluster n k).iss = s.iss := rfl
@[simp] theorem State.setCluster_cores (s : State) (n : Nat) (k : Cluster) : (s.setCluster n k).cores = s.cores := rfl
@[simp] theorem State.setCluster_colls (s : State) (n : Nat) (k : Cluster) : (s.setCluster n k).colls = s.colls := rfl
@[simp] theorem State.setCluster_ports (s : State) (n : Nat) (k : Cluster) : (s.setCluster n k).ports = s.ports := rfl
@[simp] theorem State.setCluster_mem (s : State) (n : Nat) (k : Cluster) : (s.setCluster n k).mem = s.mem := rfl
@[simp] theorem State.setCluster_desc (s : State) (n : Nat) (k : Cluster) : (s.setCluster n k).desc = s.desc := rfl
@[simp] theorem State.setCluster_poisoned (s : State) (n : Nat) (k : Cluster) : (s.setCluster n k).poisoned = s.poisoned := rfl
@[simp] theorem State.setCluster_frames (s : State) (n : Nat) (k : Cluster) : (s.setCluster n k).frames = s.frames := rfl
@[simp] theorem State.setCluster_launch (s : State) (n : Nat) (k : Cluster) : (s.setCluster n k).launch = s.launch := rfl
@[simp] theorem State.setCluster_logNow (s : State) (n : Nat) (k : Cluster) : (s.setCluster n k).logNow = s.logNow := rfl
@[simp] theorem State.setCluster_faults (s : State) (n : Nat) (k : Cluster) : (s.setCluster n k).faults = s.faults := rfl
@[simp] theorem State.setCluster_migrations (s : State) (n : Nat) (k : Cluster) : (s.setCluster n k).migrations = s.migrations := rfl
@[simp] theorem State.setCluster_halted (s : State) (n : Nat) (k : Cluster) : (s.setCluster n k).halted = s.halted := rfl
@[simp] theorem State.setCluster_struck (s : State) (n : Nat) (k : Cluster) : (s.setCluster n k).struck = s.struck := rfl
@[simp] theorem State.setCluster_saveWaits (s : State) (n : Nat) (k : Cluster) : (s.setCluster n k).saveWaits = s.saveWaits := rfl
@[simp] theorem State.setCluster_knocksOut (s : State) (n : Nat) (k : Cluster) : (s.setCluster n k).knocksOut = s.knocksOut := rfl
@[simp] theorem State.setCluster_lqbase (s : State) (n : Nat) (k : Cluster) : (s.setCluster n k).lqbase = s.lqbase := rfl
@[simp] theorem State.setCluster_lqtail (s : State) (n : Nat) (k : Cluster) : (s.setCluster n k).lqtail = s.lqtail := rfl
@[simp] theorem State.setCluster_lqhead (s : State) (n : Nat) (k : Cluster) : (s.setCluster n k).lqhead = s.lqhead := rfl
@[simp] theorem State.setCluster_svec (s : State) (n : Nat) (k : Cluster) : (s.setCluster n k).svec = s.svec := rfl
@[simp] theorem State.setCluster_pend (s : State) (n : Nat) (k : Cluster) : (s.setCluster n k).pend = s.pend := rfl
@[simp] theorem State.setCluster_startDue (s : State) (n : Nat) (k : Cluster) : (s.setCluster n k).startDue = s.startDue := rfl
@[simp] theorem State.setCluster_lost (s : State) (n : Nat) (k : Cluster) : (s.setCluster n k).lost = s.lost := rfl
@[simp] theorem State.setCluster_imglen (s : State) (n : Nat) (k : Cluster) : (s.setCluster n k).imglen = s.imglen := rfl
@[simp] theorem State.setCluster_pstate (s : State) (n : Nat) (k : Cluster) : (s.setCluster n k).pstate = s.pstate := rfl
@[simp] theorem State.setCluster_logctl (s : State) (n : Nat) (k : Cluster) : (s.setCluster n k).logctl = s.logctl := rfl
@[simp] theorem State.setCluster_logctlNext (s : State) (n : Nat) (k : Cluster) : (s.setCluster n k).logctlNext = s.logctlNext := rfl
@[simp] theorem State.setCluster_logwr (s : State) (n : Nat) (k : Cluster) : (s.setCluster n k).logwr = s.logwr := rfl
@[simp] theorem State.setCluster_logrd (s : State) (n : Nat) (k : Cluster) : (s.setCluster n k).logrd = s.logrd := rfl
@[simp] theorem State.setCluster_replayref (s : State) (n : Nat) (k : Cluster) : (s.setCluster n k).replayref = s.replayref := rfl
@[simp] theorem State.setCluster_replayrefNext (s : State) (n : Nat) (k : Cluster) : (s.setCluster n k).replayrefNext = s.replayrefNext := rfl
@[simp] theorem State.setCluster_fmdev (s : State) (n : Nat) (k : Cluster) : (s.setCluster n k).fmdev = s.fmdev := rfl
@[simp] theorem State.setCluster_fmdevNext (s : State) (n : Nat) (k : Cluster) : (s.setCluster n k).fmdevNext = s.fmdevNext := rfl
@[simp] theorem State.setCluster_badstk (s : State) (n : Nat) (k : Cluster) : (s.setCluster n k).badstk = s.badstk := rfl
@[simp] theorem State.setCluster_ready (s : State) (n : Nat) (k : Cluster) : (s.setCluster n k).ready = s.ready := rfl
@[simp] theorem State.setCluster_sigfail (s : State) (n : Nat) (k : Cluster) : (s.setCluster n k).sigfail = s.sigfail := rfl
@[simp] theorem State.setCluster_stage (s : State) (n : Nat) (k : Cluster) : (s.setCluster n k).stage = s.stage := rfl
@[simp] theorem State.setCluster_islandsReady (s : State) (n : Nat) (k : Cluster) : (s.setCluster n k).islandsReady = s.islandsReady := rfl
@[simp] theorem State.setCluster_geolock (s : State) (n : Nat) (k : Cluster) : (s.setCluster n k).geolock = s.geolock := rfl
@[simp] theorem State.setCluster_mecor (s : State) (n : Nat) (k : Cluster) : (s.setCluster n k).mecor = s.mecor := rfl
@[simp] theorem State.setCluster_geo (s : State) (n : Nat) (k : Cluster) : (s.setCluster n k).geo = s.geo := rfl
@[simp] theorem State.setCluster_apertures (s : State) (n : Nat) (k : Cluster) : (s.setCluster n k).apertures = s.apertures := rfl
@[simp] theorem State.setCluster_atnonce (s : State) (n : Nat) (k : Cluster) : (s.setCluster n k).atnonce = s.atnonce := rfl
@[simp] theorem State.setCluster_atreq (s : State) (n : Nat) (k : Cluster) : (s.setCluster n k).atreq = s.atreq := rfl
@[simp] theorem State.setCluster_atdone (s : State) (n : Nat) (k : Cluster) : (s.setCluster n k).atdone = s.atdone := rfl
@[simp] theorem State.setCluster_errors (s : State) (n : Nat) (k : Cluster) : (s.setCluster n k).errors = s.errors := rfl
@[simp] theorem State.setCluster_messages (s : State) (n : Nat) (k : Cluster) : (s.setCluster n k).messages = s.messages := rfl
@[simp] theorem State.setCluster_core (s : State) (n : Nat) (k : Cluster) (g' : Nat) : (s.setCluster n k).core g' = s.core g' := rfl
@[simp] theorem State.setCluster_coll (s : State) (n : Nat) (k : Cluster) (n' : Nat) : (s.setCluster n k).coll n' = s.coll n' := rfl
@[simp] theorem State.setCluster_port (s : State) (n : Nat) (k : Cluster) (q' : Nat) : (s.setCluster n k).port q' = s.port q' := rfl
@[simp] theorem State.setCluster_frame (s : State) (n : Nat) (k : Cluster) (a' : Nat) : (s.setCluster n k).frame a' = s.frame a' := rfl
@[simp] theorem State.setCluster_byte (s : State) (n : Nat) (k : Cluster) (k' : Nat) : (s.setCluster n k).byte k' = s.byte k' := rfl
@[simp] theorem State.setCluster_descAt (s : State) (n : Nat) (k : Cluster) (k' : Nat) : (s.setCluster n k).descAt k' = s.descAt k' := rfl
@[simp] theorem State.setCluster_launchWord (s : State) (n : Nat) (k : Cluster) (n' : Nat) : (s.setCluster n k).launchWord n' = s.launchWord n' := rfl
@[simp] theorem State.setCluster_det (s : State) (n : Nat) (k : Cluster)  : (s.setCluster n k).det = s.det := rfl

/-! ### State.setColl -/

@[simp] theorem State.setColl_cycle (s : State) (n : Nat) (e : CollEngine) : (s.setColl n e).cycle = s.cycle := rfl
@[simp] theorem State.setColl_sclk (s : State) (n : Nat) (e : CollEngine) : (s.setColl n e).sclk = s.sclk := rfl
@[simp] theorem State.setColl_uptime (s : State) (n : Nat) (e : CollEngine) : (s.setColl n e).uptime = s.uptime := rfl
@[simp] theorem State.setColl_sclkHold (s : State) (n : Nat) (e : CollEngine) : (s.setColl n e).sclkHold = s.sclkHold := rfl
@[simp] theorem State.setColl_free (s : State) (n : Nat) (e : CollEngine) : (s.setColl n e).free = s.free := rfl
@[simp] theorem State.setColl_pick (s : State) (n : Nat) (e : CollEngine) : (s.setColl n e).pick = s.pick := rfl
@[simp] theorem State.setColl_inputs (s : State) (n : Nat) (e : CollEngine) : (s.setColl n e).inputs = s.inputs := rfl
@[simp] theorem State.setColl_iss (s : State) (n : Nat) (e : CollEngine) : (s.setColl n e).iss = s.iss := rfl
@[simp] theorem State.setColl_cores (s : State) (n : Nat) (e : CollEngine) : (s.setColl n e).cores = s.cores := rfl
@[simp] theorem State.setColl_clusters (s : State) (n : Nat) (e : CollEngine) : (s.setColl n e).clusters = s.clusters := rfl
@[simp] theorem State.setColl_ports (s : State) (n : Nat) (e : CollEngine) : (s.setColl n e).ports = s.ports := rfl
@[simp] theorem State.setColl_mem (s : State) (n : Nat) (e : CollEngine) : (s.setColl n e).mem = s.mem := rfl
@[simp] theorem State.setColl_desc (s : State) (n : Nat) (e : CollEngine) : (s.setColl n e).desc = s.desc := rfl
@[simp] theorem State.setColl_poisoned (s : State) (n : Nat) (e : CollEngine) : (s.setColl n e).poisoned = s.poisoned := rfl
@[simp] theorem State.setColl_frames (s : State) (n : Nat) (e : CollEngine) : (s.setColl n e).frames = s.frames := rfl
@[simp] theorem State.setColl_launch (s : State) (n : Nat) (e : CollEngine) : (s.setColl n e).launch = s.launch := rfl
@[simp] theorem State.setColl_logNow (s : State) (n : Nat) (e : CollEngine) : (s.setColl n e).logNow = s.logNow := rfl
@[simp] theorem State.setColl_faults (s : State) (n : Nat) (e : CollEngine) : (s.setColl n e).faults = s.faults := rfl
@[simp] theorem State.setColl_migrations (s : State) (n : Nat) (e : CollEngine) : (s.setColl n e).migrations = s.migrations := rfl
@[simp] theorem State.setColl_halted (s : State) (n : Nat) (e : CollEngine) : (s.setColl n e).halted = s.halted := rfl
@[simp] theorem State.setColl_struck (s : State) (n : Nat) (e : CollEngine) : (s.setColl n e).struck = s.struck := rfl
@[simp] theorem State.setColl_saveWaits (s : State) (n : Nat) (e : CollEngine) : (s.setColl n e).saveWaits = s.saveWaits := rfl
@[simp] theorem State.setColl_knocksOut (s : State) (n : Nat) (e : CollEngine) : (s.setColl n e).knocksOut = s.knocksOut := rfl
@[simp] theorem State.setColl_lqbase (s : State) (n : Nat) (e : CollEngine) : (s.setColl n e).lqbase = s.lqbase := rfl
@[simp] theorem State.setColl_lqtail (s : State) (n : Nat) (e : CollEngine) : (s.setColl n e).lqtail = s.lqtail := rfl
@[simp] theorem State.setColl_lqhead (s : State) (n : Nat) (e : CollEngine) : (s.setColl n e).lqhead = s.lqhead := rfl
@[simp] theorem State.setColl_svec (s : State) (n : Nat) (e : CollEngine) : (s.setColl n e).svec = s.svec := rfl
@[simp] theorem State.setColl_pend (s : State) (n : Nat) (e : CollEngine) : (s.setColl n e).pend = s.pend := rfl
@[simp] theorem State.setColl_startDue (s : State) (n : Nat) (e : CollEngine) : (s.setColl n e).startDue = s.startDue := rfl
@[simp] theorem State.setColl_lost (s : State) (n : Nat) (e : CollEngine) : (s.setColl n e).lost = s.lost := rfl
@[simp] theorem State.setColl_imglen (s : State) (n : Nat) (e : CollEngine) : (s.setColl n e).imglen = s.imglen := rfl
@[simp] theorem State.setColl_pstate (s : State) (n : Nat) (e : CollEngine) : (s.setColl n e).pstate = s.pstate := rfl
@[simp] theorem State.setColl_logctl (s : State) (n : Nat) (e : CollEngine) : (s.setColl n e).logctl = s.logctl := rfl
@[simp] theorem State.setColl_logctlNext (s : State) (n : Nat) (e : CollEngine) : (s.setColl n e).logctlNext = s.logctlNext := rfl
@[simp] theorem State.setColl_logwr (s : State) (n : Nat) (e : CollEngine) : (s.setColl n e).logwr = s.logwr := rfl
@[simp] theorem State.setColl_logrd (s : State) (n : Nat) (e : CollEngine) : (s.setColl n e).logrd = s.logrd := rfl
@[simp] theorem State.setColl_replayref (s : State) (n : Nat) (e : CollEngine) : (s.setColl n e).replayref = s.replayref := rfl
@[simp] theorem State.setColl_replayrefNext (s : State) (n : Nat) (e : CollEngine) : (s.setColl n e).replayrefNext = s.replayrefNext := rfl
@[simp] theorem State.setColl_fmdev (s : State) (n : Nat) (e : CollEngine) : (s.setColl n e).fmdev = s.fmdev := rfl
@[simp] theorem State.setColl_fmdevNext (s : State) (n : Nat) (e : CollEngine) : (s.setColl n e).fmdevNext = s.fmdevNext := rfl
@[simp] theorem State.setColl_badstk (s : State) (n : Nat) (e : CollEngine) : (s.setColl n e).badstk = s.badstk := rfl
@[simp] theorem State.setColl_ready (s : State) (n : Nat) (e : CollEngine) : (s.setColl n e).ready = s.ready := rfl
@[simp] theorem State.setColl_sigfail (s : State) (n : Nat) (e : CollEngine) : (s.setColl n e).sigfail = s.sigfail := rfl
@[simp] theorem State.setColl_stage (s : State) (n : Nat) (e : CollEngine) : (s.setColl n e).stage = s.stage := rfl
@[simp] theorem State.setColl_islandsReady (s : State) (n : Nat) (e : CollEngine) : (s.setColl n e).islandsReady = s.islandsReady := rfl
@[simp] theorem State.setColl_geolock (s : State) (n : Nat) (e : CollEngine) : (s.setColl n e).geolock = s.geolock := rfl
@[simp] theorem State.setColl_mecor (s : State) (n : Nat) (e : CollEngine) : (s.setColl n e).mecor = s.mecor := rfl
@[simp] theorem State.setColl_geo (s : State) (n : Nat) (e : CollEngine) : (s.setColl n e).geo = s.geo := rfl
@[simp] theorem State.setColl_apertures (s : State) (n : Nat) (e : CollEngine) : (s.setColl n e).apertures = s.apertures := rfl
@[simp] theorem State.setColl_atnonce (s : State) (n : Nat) (e : CollEngine) : (s.setColl n e).atnonce = s.atnonce := rfl
@[simp] theorem State.setColl_atreq (s : State) (n : Nat) (e : CollEngine) : (s.setColl n e).atreq = s.atreq := rfl
@[simp] theorem State.setColl_atdone (s : State) (n : Nat) (e : CollEngine) : (s.setColl n e).atdone = s.atdone := rfl
@[simp] theorem State.setColl_errors (s : State) (n : Nat) (e : CollEngine) : (s.setColl n e).errors = s.errors := rfl
@[simp] theorem State.setColl_messages (s : State) (n : Nat) (e : CollEngine) : (s.setColl n e).messages = s.messages := rfl
@[simp] theorem State.setColl_core (s : State) (n : Nat) (e : CollEngine) (g' : Nat) : (s.setColl n e).core g' = s.core g' := rfl
@[simp] theorem State.setColl_cluster (s : State) (n : Nat) (e : CollEngine) (n' : Nat) : (s.setColl n e).cluster n' = s.cluster n' := rfl
@[simp] theorem State.setColl_port (s : State) (n : Nat) (e : CollEngine) (q' : Nat) : (s.setColl n e).port q' = s.port q' := rfl
@[simp] theorem State.setColl_frame (s : State) (n : Nat) (e : CollEngine) (a' : Nat) : (s.setColl n e).frame a' = s.frame a' := rfl
@[simp] theorem State.setColl_byte (s : State) (n : Nat) (e : CollEngine) (k' : Nat) : (s.setColl n e).byte k' = s.byte k' := rfl
@[simp] theorem State.setColl_descAt (s : State) (n : Nat) (e : CollEngine) (k' : Nat) : (s.setColl n e).descAt k' = s.descAt k' := rfl
@[simp] theorem State.setColl_launchWord (s : State) (n : Nat) (e : CollEngine) (n' : Nat) : (s.setColl n e).launchWord n' = s.launchWord n' := rfl
@[simp] theorem State.setColl_det (s : State) (n : Nat) (e : CollEngine)  : (s.setColl n e).det = s.det := rfl

/-! ### State.setPort -/

@[simp] theorem State.setPort_cycle (s : State) (q : Nat) (p : Port) : (s.setPort q p).cycle = s.cycle := rfl
@[simp] theorem State.setPort_sclk (s : State) (q : Nat) (p : Port) : (s.setPort q p).sclk = s.sclk := rfl
@[simp] theorem State.setPort_uptime (s : State) (q : Nat) (p : Port) : (s.setPort q p).uptime = s.uptime := rfl
@[simp] theorem State.setPort_sclkHold (s : State) (q : Nat) (p : Port) : (s.setPort q p).sclkHold = s.sclkHold := rfl
@[simp] theorem State.setPort_free (s : State) (q : Nat) (p : Port) : (s.setPort q p).free = s.free := rfl
@[simp] theorem State.setPort_pick (s : State) (q : Nat) (p : Port) : (s.setPort q p).pick = s.pick := rfl
@[simp] theorem State.setPort_inputs (s : State) (q : Nat) (p : Port) : (s.setPort q p).inputs = s.inputs := rfl
@[simp] theorem State.setPort_iss (s : State) (q : Nat) (p : Port) : (s.setPort q p).iss = s.iss := rfl
@[simp] theorem State.setPort_cores (s : State) (q : Nat) (p : Port) : (s.setPort q p).cores = s.cores := rfl
@[simp] theorem State.setPort_clusters (s : State) (q : Nat) (p : Port) : (s.setPort q p).clusters = s.clusters := rfl
@[simp] theorem State.setPort_colls (s : State) (q : Nat) (p : Port) : (s.setPort q p).colls = s.colls := rfl
@[simp] theorem State.setPort_mem (s : State) (q : Nat) (p : Port) : (s.setPort q p).mem = s.mem := rfl
@[simp] theorem State.setPort_desc (s : State) (q : Nat) (p : Port) : (s.setPort q p).desc = s.desc := rfl
@[simp] theorem State.setPort_poisoned (s : State) (q : Nat) (p : Port) : (s.setPort q p).poisoned = s.poisoned := rfl
@[simp] theorem State.setPort_frames (s : State) (q : Nat) (p : Port) : (s.setPort q p).frames = s.frames := rfl
@[simp] theorem State.setPort_launch (s : State) (q : Nat) (p : Port) : (s.setPort q p).launch = s.launch := rfl
@[simp] theorem State.setPort_logNow (s : State) (q : Nat) (p : Port) : (s.setPort q p).logNow = s.logNow := rfl
@[simp] theorem State.setPort_faults (s : State) (q : Nat) (p : Port) : (s.setPort q p).faults = s.faults := rfl
@[simp] theorem State.setPort_migrations (s : State) (q : Nat) (p : Port) : (s.setPort q p).migrations = s.migrations := rfl
@[simp] theorem State.setPort_halted (s : State) (q : Nat) (p : Port) : (s.setPort q p).halted = s.halted := rfl
@[simp] theorem State.setPort_struck (s : State) (q : Nat) (p : Port) : (s.setPort q p).struck = s.struck := rfl
@[simp] theorem State.setPort_saveWaits (s : State) (q : Nat) (p : Port) : (s.setPort q p).saveWaits = s.saveWaits := rfl
@[simp] theorem State.setPort_knocksOut (s : State) (q : Nat) (p : Port) : (s.setPort q p).knocksOut = s.knocksOut := rfl
@[simp] theorem State.setPort_lqbase (s : State) (q : Nat) (p : Port) : (s.setPort q p).lqbase = s.lqbase := rfl
@[simp] theorem State.setPort_lqtail (s : State) (q : Nat) (p : Port) : (s.setPort q p).lqtail = s.lqtail := rfl
@[simp] theorem State.setPort_lqhead (s : State) (q : Nat) (p : Port) : (s.setPort q p).lqhead = s.lqhead := rfl
@[simp] theorem State.setPort_svec (s : State) (q : Nat) (p : Port) : (s.setPort q p).svec = s.svec := rfl
@[simp] theorem State.setPort_pend (s : State) (q : Nat) (p : Port) : (s.setPort q p).pend = s.pend := rfl
@[simp] theorem State.setPort_startDue (s : State) (q : Nat) (p : Port) : (s.setPort q p).startDue = s.startDue := rfl
@[simp] theorem State.setPort_lost (s : State) (q : Nat) (p : Port) : (s.setPort q p).lost = s.lost := rfl
@[simp] theorem State.setPort_imglen (s : State) (q : Nat) (p : Port) : (s.setPort q p).imglen = s.imglen := rfl
@[simp] theorem State.setPort_pstate (s : State) (q : Nat) (p : Port) : (s.setPort q p).pstate = s.pstate := rfl
@[simp] theorem State.setPort_logctl (s : State) (q : Nat) (p : Port) : (s.setPort q p).logctl = s.logctl := rfl
@[simp] theorem State.setPort_logctlNext (s : State) (q : Nat) (p : Port) : (s.setPort q p).logctlNext = s.logctlNext := rfl
@[simp] theorem State.setPort_logwr (s : State) (q : Nat) (p : Port) : (s.setPort q p).logwr = s.logwr := rfl
@[simp] theorem State.setPort_logrd (s : State) (q : Nat) (p : Port) : (s.setPort q p).logrd = s.logrd := rfl
@[simp] theorem State.setPort_replayref (s : State) (q : Nat) (p : Port) : (s.setPort q p).replayref = s.replayref := rfl
@[simp] theorem State.setPort_replayrefNext (s : State) (q : Nat) (p : Port) : (s.setPort q p).replayrefNext = s.replayrefNext := rfl
@[simp] theorem State.setPort_fmdev (s : State) (q : Nat) (p : Port) : (s.setPort q p).fmdev = s.fmdev := rfl
@[simp] theorem State.setPort_fmdevNext (s : State) (q : Nat) (p : Port) : (s.setPort q p).fmdevNext = s.fmdevNext := rfl
@[simp] theorem State.setPort_badstk (s : State) (q : Nat) (p : Port) : (s.setPort q p).badstk = s.badstk := rfl
@[simp] theorem State.setPort_ready (s : State) (q : Nat) (p : Port) : (s.setPort q p).ready = s.ready := rfl
@[simp] theorem State.setPort_sigfail (s : State) (q : Nat) (p : Port) : (s.setPort q p).sigfail = s.sigfail := rfl
@[simp] theorem State.setPort_stage (s : State) (q : Nat) (p : Port) : (s.setPort q p).stage = s.stage := rfl
@[simp] theorem State.setPort_islandsReady (s : State) (q : Nat) (p : Port) : (s.setPort q p).islandsReady = s.islandsReady := rfl
@[simp] theorem State.setPort_geolock (s : State) (q : Nat) (p : Port) : (s.setPort q p).geolock = s.geolock := rfl
@[simp] theorem State.setPort_mecor (s : State) (q : Nat) (p : Port) : (s.setPort q p).mecor = s.mecor := rfl
@[simp] theorem State.setPort_geo (s : State) (q : Nat) (p : Port) : (s.setPort q p).geo = s.geo := rfl
@[simp] theorem State.setPort_apertures (s : State) (q : Nat) (p : Port) : (s.setPort q p).apertures = s.apertures := rfl
@[simp] theorem State.setPort_atnonce (s : State) (q : Nat) (p : Port) : (s.setPort q p).atnonce = s.atnonce := rfl
@[simp] theorem State.setPort_atreq (s : State) (q : Nat) (p : Port) : (s.setPort q p).atreq = s.atreq := rfl
@[simp] theorem State.setPort_atdone (s : State) (q : Nat) (p : Port) : (s.setPort q p).atdone = s.atdone := rfl
@[simp] theorem State.setPort_errors (s : State) (q : Nat) (p : Port) : (s.setPort q p).errors = s.errors := rfl
@[simp] theorem State.setPort_messages (s : State) (q : Nat) (p : Port) : (s.setPort q p).messages = s.messages := rfl
@[simp] theorem State.setPort_core (s : State) (q : Nat) (p : Port) (g' : Nat) : (s.setPort q p).core g' = s.core g' := rfl
@[simp] theorem State.setPort_cluster (s : State) (q : Nat) (p : Port) (n' : Nat) : (s.setPort q p).cluster n' = s.cluster n' := rfl
@[simp] theorem State.setPort_coll (s : State) (q : Nat) (p : Port) (n' : Nat) : (s.setPort q p).coll n' = s.coll n' := rfl
@[simp] theorem State.setPort_frame (s : State) (q : Nat) (p : Port) (a' : Nat) : (s.setPort q p).frame a' = s.frame a' := rfl
@[simp] theorem State.setPort_byte (s : State) (q : Nat) (p : Port) (k' : Nat) : (s.setPort q p).byte k' = s.byte k' := rfl
@[simp] theorem State.setPort_descAt (s : State) (q : Nat) (p : Port) (k' : Nat) : (s.setPort q p).descAt k' = s.descAt k' := rfl
@[simp] theorem State.setPort_launchWord (s : State) (q : Nat) (p : Port) (n' : Nat) : (s.setPort q p).launchWord n' = s.launchWord n' := rfl
@[simp] theorem State.setPort_det (s : State) (q : Nat) (p : Port)  : (s.setPort q p).det = s.det := rfl

/-! ### State.setFrame -/

@[simp] theorem State.setFrame_cycle (s : State) (a : Nat) (f : Frame) : (s.setFrame a f).cycle = s.cycle := rfl
@[simp] theorem State.setFrame_sclk (s : State) (a : Nat) (f : Frame) : (s.setFrame a f).sclk = s.sclk := rfl
@[simp] theorem State.setFrame_uptime (s : State) (a : Nat) (f : Frame) : (s.setFrame a f).uptime = s.uptime := rfl
@[simp] theorem State.setFrame_sclkHold (s : State) (a : Nat) (f : Frame) : (s.setFrame a f).sclkHold = s.sclkHold := rfl
@[simp] theorem State.setFrame_free (s : State) (a : Nat) (f : Frame) : (s.setFrame a f).free = s.free := rfl
@[simp] theorem State.setFrame_pick (s : State) (a : Nat) (f : Frame) : (s.setFrame a f).pick = s.pick := rfl
@[simp] theorem State.setFrame_inputs (s : State) (a : Nat) (f : Frame) : (s.setFrame a f).inputs = s.inputs := rfl
@[simp] theorem State.setFrame_iss (s : State) (a : Nat) (f : Frame) : (s.setFrame a f).iss = s.iss := rfl
@[simp] theorem State.setFrame_cores (s : State) (a : Nat) (f : Frame) : (s.setFrame a f).cores = s.cores := rfl
@[simp] theorem State.setFrame_clusters (s : State) (a : Nat) (f : Frame) : (s.setFrame a f).clusters = s.clusters := rfl
@[simp] theorem State.setFrame_colls (s : State) (a : Nat) (f : Frame) : (s.setFrame a f).colls = s.colls := rfl
@[simp] theorem State.setFrame_ports (s : State) (a : Nat) (f : Frame) : (s.setFrame a f).ports = s.ports := rfl
@[simp] theorem State.setFrame_mem (s : State) (a : Nat) (f : Frame) : (s.setFrame a f).mem = s.mem := rfl
@[simp] theorem State.setFrame_desc (s : State) (a : Nat) (f : Frame) : (s.setFrame a f).desc = s.desc := rfl
@[simp] theorem State.setFrame_poisoned (s : State) (a : Nat) (f : Frame) : (s.setFrame a f).poisoned = s.poisoned := rfl
@[simp] theorem State.setFrame_launch (s : State) (a : Nat) (f : Frame) : (s.setFrame a f).launch = s.launch := rfl
@[simp] theorem State.setFrame_logNow (s : State) (a : Nat) (f : Frame) : (s.setFrame a f).logNow = s.logNow := rfl
@[simp] theorem State.setFrame_faults (s : State) (a : Nat) (f : Frame) : (s.setFrame a f).faults = s.faults := rfl
@[simp] theorem State.setFrame_migrations (s : State) (a : Nat) (f : Frame) : (s.setFrame a f).migrations = s.migrations := rfl
@[simp] theorem State.setFrame_halted (s : State) (a : Nat) (f : Frame) : (s.setFrame a f).halted = s.halted := rfl
@[simp] theorem State.setFrame_struck (s : State) (a : Nat) (f : Frame) : (s.setFrame a f).struck = s.struck := rfl
@[simp] theorem State.setFrame_saveWaits (s : State) (a : Nat) (f : Frame) : (s.setFrame a f).saveWaits = s.saveWaits := rfl
@[simp] theorem State.setFrame_knocksOut (s : State) (a : Nat) (f : Frame) : (s.setFrame a f).knocksOut = s.knocksOut := rfl
@[simp] theorem State.setFrame_lqbase (s : State) (a : Nat) (f : Frame) : (s.setFrame a f).lqbase = s.lqbase := rfl
@[simp] theorem State.setFrame_lqtail (s : State) (a : Nat) (f : Frame) : (s.setFrame a f).lqtail = s.lqtail := rfl
@[simp] theorem State.setFrame_lqhead (s : State) (a : Nat) (f : Frame) : (s.setFrame a f).lqhead = s.lqhead := rfl
@[simp] theorem State.setFrame_svec (s : State) (a : Nat) (f : Frame) : (s.setFrame a f).svec = s.svec := rfl
@[simp] theorem State.setFrame_pend (s : State) (a : Nat) (f : Frame) : (s.setFrame a f).pend = s.pend := rfl
@[simp] theorem State.setFrame_startDue (s : State) (a : Nat) (f : Frame) : (s.setFrame a f).startDue = s.startDue := rfl
@[simp] theorem State.setFrame_lost (s : State) (a : Nat) (f : Frame) : (s.setFrame a f).lost = s.lost := rfl
@[simp] theorem State.setFrame_imglen (s : State) (a : Nat) (f : Frame) : (s.setFrame a f).imglen = s.imglen := rfl
@[simp] theorem State.setFrame_pstate (s : State) (a : Nat) (f : Frame) : (s.setFrame a f).pstate = s.pstate := rfl
@[simp] theorem State.setFrame_logctl (s : State) (a : Nat) (f : Frame) : (s.setFrame a f).logctl = s.logctl := rfl
@[simp] theorem State.setFrame_logctlNext (s : State) (a : Nat) (f : Frame) : (s.setFrame a f).logctlNext = s.logctlNext := rfl
@[simp] theorem State.setFrame_logwr (s : State) (a : Nat) (f : Frame) : (s.setFrame a f).logwr = s.logwr := rfl
@[simp] theorem State.setFrame_logrd (s : State) (a : Nat) (f : Frame) : (s.setFrame a f).logrd = s.logrd := rfl
@[simp] theorem State.setFrame_replayref (s : State) (a : Nat) (f : Frame) : (s.setFrame a f).replayref = s.replayref := rfl
@[simp] theorem State.setFrame_replayrefNext (s : State) (a : Nat) (f : Frame) : (s.setFrame a f).replayrefNext = s.replayrefNext := rfl
@[simp] theorem State.setFrame_fmdev (s : State) (a : Nat) (f : Frame) : (s.setFrame a f).fmdev = s.fmdev := rfl
@[simp] theorem State.setFrame_fmdevNext (s : State) (a : Nat) (f : Frame) : (s.setFrame a f).fmdevNext = s.fmdevNext := rfl
@[simp] theorem State.setFrame_badstk (s : State) (a : Nat) (f : Frame) : (s.setFrame a f).badstk = s.badstk := rfl
@[simp] theorem State.setFrame_ready (s : State) (a : Nat) (f : Frame) : (s.setFrame a f).ready = s.ready := rfl
@[simp] theorem State.setFrame_sigfail (s : State) (a : Nat) (f : Frame) : (s.setFrame a f).sigfail = s.sigfail := rfl
@[simp] theorem State.setFrame_stage (s : State) (a : Nat) (f : Frame) : (s.setFrame a f).stage = s.stage := rfl
@[simp] theorem State.setFrame_islandsReady (s : State) (a : Nat) (f : Frame) : (s.setFrame a f).islandsReady = s.islandsReady := rfl
@[simp] theorem State.setFrame_geolock (s : State) (a : Nat) (f : Frame) : (s.setFrame a f).geolock = s.geolock := rfl
@[simp] theorem State.setFrame_mecor (s : State) (a : Nat) (f : Frame) : (s.setFrame a f).mecor = s.mecor := rfl
@[simp] theorem State.setFrame_geo (s : State) (a : Nat) (f : Frame) : (s.setFrame a f).geo = s.geo := rfl
@[simp] theorem State.setFrame_apertures (s : State) (a : Nat) (f : Frame) : (s.setFrame a f).apertures = s.apertures := rfl
@[simp] theorem State.setFrame_atnonce (s : State) (a : Nat) (f : Frame) : (s.setFrame a f).atnonce = s.atnonce := rfl
@[simp] theorem State.setFrame_atreq (s : State) (a : Nat) (f : Frame) : (s.setFrame a f).atreq = s.atreq := rfl
@[simp] theorem State.setFrame_atdone (s : State) (a : Nat) (f : Frame) : (s.setFrame a f).atdone = s.atdone := rfl
@[simp] theorem State.setFrame_errors (s : State) (a : Nat) (f : Frame) : (s.setFrame a f).errors = s.errors := rfl
@[simp] theorem State.setFrame_messages (s : State) (a : Nat) (f : Frame) : (s.setFrame a f).messages = s.messages := rfl
@[simp] theorem State.setFrame_core (s : State) (a : Nat) (f : Frame) (g' : Nat) : (s.setFrame a f).core g' = s.core g' := rfl
@[simp] theorem State.setFrame_cluster (s : State) (a : Nat) (f : Frame) (n' : Nat) : (s.setFrame a f).cluster n' = s.cluster n' := rfl
@[simp] theorem State.setFrame_coll (s : State) (a : Nat) (f : Frame) (n' : Nat) : (s.setFrame a f).coll n' = s.coll n' := rfl
@[simp] theorem State.setFrame_port (s : State) (a : Nat) (f : Frame) (q' : Nat) : (s.setFrame a f).port q' = s.port q' := rfl
@[simp] theorem State.setFrame_byte (s : State) (a : Nat) (f : Frame) (k' : Nat) : (s.setFrame a f).byte k' = s.byte k' := rfl
@[simp] theorem State.setFrame_descAt (s : State) (a : Nat) (f : Frame) (k' : Nat) : (s.setFrame a f).descAt k' = s.descAt k' := rfl
@[simp] theorem State.setFrame_launchWord (s : State) (a : Nat) (f : Frame) (n' : Nat) : (s.setFrame a f).launchWord n' = s.launchWord n' := rfl
@[simp] theorem State.setFrame_det (s : State) (a : Nat) (f : Frame)  : (s.setFrame a f).det = s.det := rfl

/-! ### State.modIss -/

@[simp] theorem State.modIss_cycle (s : State) (f : Iss → Iss) : (s.modIss f).cycle = s.cycle := rfl
@[simp] theorem State.modIss_sclk (s : State) (f : Iss → Iss) : (s.modIss f).sclk = s.sclk := rfl
@[simp] theorem State.modIss_uptime (s : State) (f : Iss → Iss) : (s.modIss f).uptime = s.uptime := rfl
@[simp] theorem State.modIss_sclkHold (s : State) (f : Iss → Iss) : (s.modIss f).sclkHold = s.sclkHold := rfl
@[simp] theorem State.modIss_free (s : State) (f : Iss → Iss) : (s.modIss f).free = s.free := rfl
@[simp] theorem State.modIss_pick (s : State) (f : Iss → Iss) : (s.modIss f).pick = s.pick := rfl
@[simp] theorem State.modIss_inputs (s : State) (f : Iss → Iss) : (s.modIss f).inputs = s.inputs := rfl
@[simp] theorem State.modIss_cores (s : State) (f : Iss → Iss) : (s.modIss f).cores = s.cores := rfl
@[simp] theorem State.modIss_clusters (s : State) (f : Iss → Iss) : (s.modIss f).clusters = s.clusters := rfl
@[simp] theorem State.modIss_colls (s : State) (f : Iss → Iss) : (s.modIss f).colls = s.colls := rfl
@[simp] theorem State.modIss_ports (s : State) (f : Iss → Iss) : (s.modIss f).ports = s.ports := rfl
@[simp] theorem State.modIss_mem (s : State) (f : Iss → Iss) : (s.modIss f).mem = s.mem := rfl
@[simp] theorem State.modIss_desc (s : State) (f : Iss → Iss) : (s.modIss f).desc = s.desc := rfl
@[simp] theorem State.modIss_poisoned (s : State) (f : Iss → Iss) : (s.modIss f).poisoned = s.poisoned := rfl
@[simp] theorem State.modIss_frames (s : State) (f : Iss → Iss) : (s.modIss f).frames = s.frames := rfl
@[simp] theorem State.modIss_launch (s : State) (f : Iss → Iss) : (s.modIss f).launch = s.launch := rfl
@[simp] theorem State.modIss_logNow (s : State) (f : Iss → Iss) : (s.modIss f).logNow = s.logNow := rfl
@[simp] theorem State.modIss_faults (s : State) (f : Iss → Iss) : (s.modIss f).faults = s.faults := rfl
@[simp] theorem State.modIss_migrations (s : State) (f : Iss → Iss) : (s.modIss f).migrations = s.migrations := rfl
@[simp] theorem State.modIss_halted (s : State) (f : Iss → Iss) : (s.modIss f).halted = s.halted := rfl
@[simp] theorem State.modIss_struck (s : State) (f : Iss → Iss) : (s.modIss f).struck = s.struck := rfl
@[simp] theorem State.modIss_saveWaits (s : State) (f : Iss → Iss) : (s.modIss f).saveWaits = s.saveWaits := rfl
@[simp] theorem State.modIss_knocksOut (s : State) (f : Iss → Iss) : (s.modIss f).knocksOut = s.knocksOut := rfl
@[simp] theorem State.modIss_lqbase (s : State) (f : Iss → Iss) : (s.modIss f).lqbase = s.lqbase := rfl
@[simp] theorem State.modIss_lqtail (s : State) (f : Iss → Iss) : (s.modIss f).lqtail = s.lqtail := rfl
@[simp] theorem State.modIss_lqhead (s : State) (f : Iss → Iss) : (s.modIss f).lqhead = s.lqhead := rfl
@[simp] theorem State.modIss_svec (s : State) (f : Iss → Iss) : (s.modIss f).svec = s.svec := rfl
@[simp] theorem State.modIss_pend (s : State) (f : Iss → Iss) : (s.modIss f).pend = s.pend := rfl
@[simp] theorem State.modIss_startDue (s : State) (f : Iss → Iss) : (s.modIss f).startDue = s.startDue := rfl
@[simp] theorem State.modIss_lost (s : State) (f : Iss → Iss) : (s.modIss f).lost = s.lost := rfl
@[simp] theorem State.modIss_imglen (s : State) (f : Iss → Iss) : (s.modIss f).imglen = s.imglen := rfl
@[simp] theorem State.modIss_pstate (s : State) (f : Iss → Iss) : (s.modIss f).pstate = s.pstate := rfl
@[simp] theorem State.modIss_logctl (s : State) (f : Iss → Iss) : (s.modIss f).logctl = s.logctl := rfl
@[simp] theorem State.modIss_logctlNext (s : State) (f : Iss → Iss) : (s.modIss f).logctlNext = s.logctlNext := rfl
@[simp] theorem State.modIss_logwr (s : State) (f : Iss → Iss) : (s.modIss f).logwr = s.logwr := rfl
@[simp] theorem State.modIss_logrd (s : State) (f : Iss → Iss) : (s.modIss f).logrd = s.logrd := rfl
@[simp] theorem State.modIss_replayref (s : State) (f : Iss → Iss) : (s.modIss f).replayref = s.replayref := rfl
@[simp] theorem State.modIss_replayrefNext (s : State) (f : Iss → Iss) : (s.modIss f).replayrefNext = s.replayrefNext := rfl
@[simp] theorem State.modIss_fmdev (s : State) (f : Iss → Iss) : (s.modIss f).fmdev = s.fmdev := rfl
@[simp] theorem State.modIss_fmdevNext (s : State) (f : Iss → Iss) : (s.modIss f).fmdevNext = s.fmdevNext := rfl
@[simp] theorem State.modIss_badstk (s : State) (f : Iss → Iss) : (s.modIss f).badstk = s.badstk := rfl
@[simp] theorem State.modIss_ready (s : State) (f : Iss → Iss) : (s.modIss f).ready = s.ready := rfl
@[simp] theorem State.modIss_sigfail (s : State) (f : Iss → Iss) : (s.modIss f).sigfail = s.sigfail := rfl
@[simp] theorem State.modIss_stage (s : State) (f : Iss → Iss) : (s.modIss f).stage = s.stage := rfl
@[simp] theorem State.modIss_islandsReady (s : State) (f : Iss → Iss) : (s.modIss f).islandsReady = s.islandsReady := rfl
@[simp] theorem State.modIss_geolock (s : State) (f : Iss → Iss) : (s.modIss f).geolock = s.geolock := rfl
@[simp] theorem State.modIss_mecor (s : State) (f : Iss → Iss) : (s.modIss f).mecor = s.mecor := rfl
@[simp] theorem State.modIss_geo (s : State) (f : Iss → Iss) : (s.modIss f).geo = s.geo := rfl
@[simp] theorem State.modIss_apertures (s : State) (f : Iss → Iss) : (s.modIss f).apertures = s.apertures := rfl
@[simp] theorem State.modIss_atnonce (s : State) (f : Iss → Iss) : (s.modIss f).atnonce = s.atnonce := rfl
@[simp] theorem State.modIss_atreq (s : State) (f : Iss → Iss) : (s.modIss f).atreq = s.atreq := rfl
@[simp] theorem State.modIss_atdone (s : State) (f : Iss → Iss) : (s.modIss f).atdone = s.atdone := rfl
@[simp] theorem State.modIss_errors (s : State) (f : Iss → Iss) : (s.modIss f).errors = s.errors := rfl
@[simp] theorem State.modIss_messages (s : State) (f : Iss → Iss) : (s.modIss f).messages = s.messages := rfl
@[simp] theorem State.modIss_core (s : State) (f : Iss → Iss) (g' : Nat) : (s.modIss f).core g' = s.core g' := rfl
@[simp] theorem State.modIss_cluster (s : State) (f : Iss → Iss) (n' : Nat) : (s.modIss f).cluster n' = s.cluster n' := rfl
@[simp] theorem State.modIss_coll (s : State) (f : Iss → Iss) (n' : Nat) : (s.modIss f).coll n' = s.coll n' := rfl
@[simp] theorem State.modIss_port (s : State) (f : Iss → Iss) (q' : Nat) : (s.modIss f).port q' = s.port q' := rfl
@[simp] theorem State.modIss_frame (s : State) (f : Iss → Iss) (a' : Nat) : (s.modIss f).frame a' = s.frame a' := rfl
@[simp] theorem State.modIss_byte (s : State) (f : Iss → Iss) (k' : Nat) : (s.modIss f).byte k' = s.byte k' := rfl
@[simp] theorem State.modIss_descAt (s : State) (f : Iss → Iss) (k' : Nat) : (s.modIss f).descAt k' = s.descAt k' := rfl
@[simp] theorem State.modIss_launchWord (s : State) (f : Iss → Iss) (n' : Nat) : (s.modIss f).launchWord n' = s.launchWord n' := rfl
@[simp] theorem State.modIss_det (s : State) (f : Iss → Iss)  : (s.modIss f).det = s.det := rfl

/-! ### State.raise -/

@[simp] theorem State.raise_cycle (s : State) (f : FaultRec) : (s.raise f).cycle = s.cycle := rfl
@[simp] theorem State.raise_sclk (s : State) (f : FaultRec) : (s.raise f).sclk = s.sclk := rfl
@[simp] theorem State.raise_uptime (s : State) (f : FaultRec) : (s.raise f).uptime = s.uptime := rfl
@[simp] theorem State.raise_sclkHold (s : State) (f : FaultRec) : (s.raise f).sclkHold = s.sclkHold := rfl
@[simp] theorem State.raise_free (s : State) (f : FaultRec) : (s.raise f).free = s.free := rfl
@[simp] theorem State.raise_pick (s : State) (f : FaultRec) : (s.raise f).pick = s.pick := rfl
@[simp] theorem State.raise_inputs (s : State) (f : FaultRec) : (s.raise f).inputs = s.inputs := rfl
@[simp] theorem State.raise_iss (s : State) (f : FaultRec) : (s.raise f).iss = s.iss := rfl
@[simp] theorem State.raise_cores (s : State) (f : FaultRec) : (s.raise f).cores = s.cores := rfl
@[simp] theorem State.raise_clusters (s : State) (f : FaultRec) : (s.raise f).clusters = s.clusters := rfl
@[simp] theorem State.raise_colls (s : State) (f : FaultRec) : (s.raise f).colls = s.colls := rfl
@[simp] theorem State.raise_ports (s : State) (f : FaultRec) : (s.raise f).ports = s.ports := rfl
@[simp] theorem State.raise_mem (s : State) (f : FaultRec) : (s.raise f).mem = s.mem := rfl
@[simp] theorem State.raise_desc (s : State) (f : FaultRec) : (s.raise f).desc = s.desc := rfl
@[simp] theorem State.raise_poisoned (s : State) (f : FaultRec) : (s.raise f).poisoned = s.poisoned := rfl
@[simp] theorem State.raise_frames (s : State) (f : FaultRec) : (s.raise f).frames = s.frames := rfl
@[simp] theorem State.raise_launch (s : State) (f : FaultRec) : (s.raise f).launch = s.launch := rfl
@[simp] theorem State.raise_logNow (s : State) (f : FaultRec) : (s.raise f).logNow = s.logNow := rfl
@[simp] theorem State.raise_migrations (s : State) (f : FaultRec) : (s.raise f).migrations = s.migrations := rfl
@[simp] theorem State.raise_halted (s : State) (f : FaultRec) : (s.raise f).halted = s.halted := rfl
@[simp] theorem State.raise_struck (s : State) (f : FaultRec) : (s.raise f).struck = s.struck := rfl
@[simp] theorem State.raise_saveWaits (s : State) (f : FaultRec) : (s.raise f).saveWaits = s.saveWaits := rfl
@[simp] theorem State.raise_knocksOut (s : State) (f : FaultRec) : (s.raise f).knocksOut = s.knocksOut := rfl
@[simp] theorem State.raise_lqbase (s : State) (f : FaultRec) : (s.raise f).lqbase = s.lqbase := rfl
@[simp] theorem State.raise_lqtail (s : State) (f : FaultRec) : (s.raise f).lqtail = s.lqtail := rfl
@[simp] theorem State.raise_lqhead (s : State) (f : FaultRec) : (s.raise f).lqhead = s.lqhead := rfl
@[simp] theorem State.raise_svec (s : State) (f : FaultRec) : (s.raise f).svec = s.svec := rfl
@[simp] theorem State.raise_pend (s : State) (f : FaultRec) : (s.raise f).pend = s.pend := rfl
@[simp] theorem State.raise_startDue (s : State) (f : FaultRec) : (s.raise f).startDue = s.startDue := rfl
@[simp] theorem State.raise_lost (s : State) (f : FaultRec) : (s.raise f).lost = s.lost := rfl
@[simp] theorem State.raise_imglen (s : State) (f : FaultRec) : (s.raise f).imglen = s.imglen := rfl
@[simp] theorem State.raise_pstate (s : State) (f : FaultRec) : (s.raise f).pstate = s.pstate := rfl
@[simp] theorem State.raise_logctl (s : State) (f : FaultRec) : (s.raise f).logctl = s.logctl := rfl
@[simp] theorem State.raise_logctlNext (s : State) (f : FaultRec) : (s.raise f).logctlNext = s.logctlNext := rfl
@[simp] theorem State.raise_logwr (s : State) (f : FaultRec) : (s.raise f).logwr = s.logwr := rfl
@[simp] theorem State.raise_logrd (s : State) (f : FaultRec) : (s.raise f).logrd = s.logrd := rfl
@[simp] theorem State.raise_replayref (s : State) (f : FaultRec) : (s.raise f).replayref = s.replayref := rfl
@[simp] theorem State.raise_replayrefNext (s : State) (f : FaultRec) : (s.raise f).replayrefNext = s.replayrefNext := rfl
@[simp] theorem State.raise_fmdev (s : State) (f : FaultRec) : (s.raise f).fmdev = s.fmdev := rfl
@[simp] theorem State.raise_fmdevNext (s : State) (f : FaultRec) : (s.raise f).fmdevNext = s.fmdevNext := rfl
@[simp] theorem State.raise_badstk (s : State) (f : FaultRec) : (s.raise f).badstk = s.badstk := rfl
@[simp] theorem State.raise_ready (s : State) (f : FaultRec) : (s.raise f).ready = s.ready := rfl
@[simp] theorem State.raise_sigfail (s : State) (f : FaultRec) : (s.raise f).sigfail = s.sigfail := rfl
@[simp] theorem State.raise_stage (s : State) (f : FaultRec) : (s.raise f).stage = s.stage := rfl
@[simp] theorem State.raise_islandsReady (s : State) (f : FaultRec) : (s.raise f).islandsReady = s.islandsReady := rfl
@[simp] theorem State.raise_geolock (s : State) (f : FaultRec) : (s.raise f).geolock = s.geolock := rfl
@[simp] theorem State.raise_mecor (s : State) (f : FaultRec) : (s.raise f).mecor = s.mecor := rfl
@[simp] theorem State.raise_geo (s : State) (f : FaultRec) : (s.raise f).geo = s.geo := rfl
@[simp] theorem State.raise_apertures (s : State) (f : FaultRec) : (s.raise f).apertures = s.apertures := rfl
@[simp] theorem State.raise_atnonce (s : State) (f : FaultRec) : (s.raise f).atnonce = s.atnonce := rfl
@[simp] theorem State.raise_atreq (s : State) (f : FaultRec) : (s.raise f).atreq = s.atreq := rfl
@[simp] theorem State.raise_atdone (s : State) (f : FaultRec) : (s.raise f).atdone = s.atdone := rfl
@[simp] theorem State.raise_errors (s : State) (f : FaultRec) : (s.raise f).errors = s.errors := rfl
@[simp] theorem State.raise_messages (s : State) (f : FaultRec) : (s.raise f).messages = s.messages := rfl
@[simp] theorem State.raise_core (s : State) (f : FaultRec) (g' : Nat) : (s.raise f).core g' = s.core g' := rfl
@[simp] theorem State.raise_cluster (s : State) (f : FaultRec) (n' : Nat) : (s.raise f).cluster n' = s.cluster n' := rfl
@[simp] theorem State.raise_coll (s : State) (f : FaultRec) (n' : Nat) : (s.raise f).coll n' = s.coll n' := rfl
@[simp] theorem State.raise_port (s : State) (f : FaultRec) (q' : Nat) : (s.raise f).port q' = s.port q' := rfl
@[simp] theorem State.raise_frame (s : State) (f : FaultRec) (a' : Nat) : (s.raise f).frame a' = s.frame a' := rfl
@[simp] theorem State.raise_byte (s : State) (f : FaultRec) (k' : Nat) : (s.raise f).byte k' = s.byte k' := rfl
@[simp] theorem State.raise_descAt (s : State) (f : FaultRec) (k' : Nat) : (s.raise f).descAt k' = s.descAt k' := rfl
@[simp] theorem State.raise_launchWord (s : State) (f : FaultRec) (n' : Nat) : (s.raise f).launchWord n' = s.launchWord n' := rfl
@[simp] theorem State.raise_det (s : State) (f : FaultRec)  : (s.raise f).det = s.det := rfl

/-! ### State.modLaunch -/

@[simp] theorem State.modLaunch_cycle (s : State) (f : Launch → Launch) : (s.modLaunch f).cycle = s.cycle := rfl
@[simp] theorem State.modLaunch_sclk (s : State) (f : Launch → Launch) : (s.modLaunch f).sclk = s.sclk := rfl
@[simp] theorem State.modLaunch_uptime (s : State) (f : Launch → Launch) : (s.modLaunch f).uptime = s.uptime := rfl
@[simp] theorem State.modLaunch_sclkHold (s : State) (f : Launch → Launch) : (s.modLaunch f).sclkHold = s.sclkHold := rfl
@[simp] theorem State.modLaunch_free (s : State) (f : Launch → Launch) : (s.modLaunch f).free = s.free := rfl
@[simp] theorem State.modLaunch_pick (s : State) (f : Launch → Launch) : (s.modLaunch f).pick = s.pick := rfl
@[simp] theorem State.modLaunch_inputs (s : State) (f : Launch → Launch) : (s.modLaunch f).inputs = s.inputs := rfl
@[simp] theorem State.modLaunch_iss (s : State) (f : Launch → Launch) : (s.modLaunch f).iss = s.iss := rfl
@[simp] theorem State.modLaunch_cores (s : State) (f : Launch → Launch) : (s.modLaunch f).cores = s.cores := rfl
@[simp] theorem State.modLaunch_clusters (s : State) (f : Launch → Launch) : (s.modLaunch f).clusters = s.clusters := rfl
@[simp] theorem State.modLaunch_colls (s : State) (f : Launch → Launch) : (s.modLaunch f).colls = s.colls := rfl
@[simp] theorem State.modLaunch_ports (s : State) (f : Launch → Launch) : (s.modLaunch f).ports = s.ports := rfl
@[simp] theorem State.modLaunch_mem (s : State) (f : Launch → Launch) : (s.modLaunch f).mem = s.mem := rfl
@[simp] theorem State.modLaunch_desc (s : State) (f : Launch → Launch) : (s.modLaunch f).desc = s.desc := rfl
@[simp] theorem State.modLaunch_poisoned (s : State) (f : Launch → Launch) : (s.modLaunch f).poisoned = s.poisoned := rfl
@[simp] theorem State.modLaunch_frames (s : State) (f : Launch → Launch) : (s.modLaunch f).frames = s.frames := rfl
@[simp] theorem State.modLaunch_logNow (s : State) (f : Launch → Launch) : (s.modLaunch f).logNow = s.logNow := rfl
@[simp] theorem State.modLaunch_faults (s : State) (f : Launch → Launch) : (s.modLaunch f).faults = s.faults := rfl
@[simp] theorem State.modLaunch_migrations (s : State) (f : Launch → Launch) : (s.modLaunch f).migrations = s.migrations := rfl
@[simp] theorem State.modLaunch_halted (s : State) (f : Launch → Launch) : (s.modLaunch f).halted = s.halted := rfl
@[simp] theorem State.modLaunch_struck (s : State) (f : Launch → Launch) : (s.modLaunch f).struck = s.struck := rfl
@[simp] theorem State.modLaunch_saveWaits (s : State) (f : Launch → Launch) : (s.modLaunch f).saveWaits = s.saveWaits := rfl
@[simp] theorem State.modLaunch_knocksOut (s : State) (f : Launch → Launch) : (s.modLaunch f).knocksOut = s.knocksOut := rfl
@[simp] theorem State.modLaunch_lqbase (s : State) (f : Launch → Launch) : (s.modLaunch f).lqbase = s.lqbase := rfl
@[simp] theorem State.modLaunch_lqtail (s : State) (f : Launch → Launch) : (s.modLaunch f).lqtail = s.lqtail := rfl
@[simp] theorem State.modLaunch_lqhead (s : State) (f : Launch → Launch) : (s.modLaunch f).lqhead = s.lqhead := rfl
@[simp] theorem State.modLaunch_svec (s : State) (f : Launch → Launch) : (s.modLaunch f).svec = s.svec := rfl
@[simp] theorem State.modLaunch_pend (s : State) (f : Launch → Launch) : (s.modLaunch f).pend = s.pend := rfl
@[simp] theorem State.modLaunch_startDue (s : State) (f : Launch → Launch) : (s.modLaunch f).startDue = s.startDue := rfl
@[simp] theorem State.modLaunch_lost (s : State) (f : Launch → Launch) : (s.modLaunch f).lost = s.lost := rfl
@[simp] theorem State.modLaunch_imglen (s : State) (f : Launch → Launch) : (s.modLaunch f).imglen = s.imglen := rfl
@[simp] theorem State.modLaunch_pstate (s : State) (f : Launch → Launch) : (s.modLaunch f).pstate = s.pstate := rfl
@[simp] theorem State.modLaunch_logctl (s : State) (f : Launch → Launch) : (s.modLaunch f).logctl = s.logctl := rfl
@[simp] theorem State.modLaunch_logctlNext (s : State) (f : Launch → Launch) : (s.modLaunch f).logctlNext = s.logctlNext := rfl
@[simp] theorem State.modLaunch_logwr (s : State) (f : Launch → Launch) : (s.modLaunch f).logwr = s.logwr := rfl
@[simp] theorem State.modLaunch_logrd (s : State) (f : Launch → Launch) : (s.modLaunch f).logrd = s.logrd := rfl
@[simp] theorem State.modLaunch_replayref (s : State) (f : Launch → Launch) : (s.modLaunch f).replayref = s.replayref := rfl
@[simp] theorem State.modLaunch_replayrefNext (s : State) (f : Launch → Launch) : (s.modLaunch f).replayrefNext = s.replayrefNext := rfl
@[simp] theorem State.modLaunch_fmdev (s : State) (f : Launch → Launch) : (s.modLaunch f).fmdev = s.fmdev := rfl
@[simp] theorem State.modLaunch_fmdevNext (s : State) (f : Launch → Launch) : (s.modLaunch f).fmdevNext = s.fmdevNext := rfl
@[simp] theorem State.modLaunch_badstk (s : State) (f : Launch → Launch) : (s.modLaunch f).badstk = s.badstk := rfl
@[simp] theorem State.modLaunch_ready (s : State) (f : Launch → Launch) : (s.modLaunch f).ready = s.ready := rfl
@[simp] theorem State.modLaunch_sigfail (s : State) (f : Launch → Launch) : (s.modLaunch f).sigfail = s.sigfail := rfl
@[simp] theorem State.modLaunch_stage (s : State) (f : Launch → Launch) : (s.modLaunch f).stage = s.stage := rfl
@[simp] theorem State.modLaunch_islandsReady (s : State) (f : Launch → Launch) : (s.modLaunch f).islandsReady = s.islandsReady := rfl
@[simp] theorem State.modLaunch_geolock (s : State) (f : Launch → Launch) : (s.modLaunch f).geolock = s.geolock := rfl
@[simp] theorem State.modLaunch_mecor (s : State) (f : Launch → Launch) : (s.modLaunch f).mecor = s.mecor := rfl
@[simp] theorem State.modLaunch_geo (s : State) (f : Launch → Launch) : (s.modLaunch f).geo = s.geo := rfl
@[simp] theorem State.modLaunch_apertures (s : State) (f : Launch → Launch) : (s.modLaunch f).apertures = s.apertures := rfl
@[simp] theorem State.modLaunch_atnonce (s : State) (f : Launch → Launch) : (s.modLaunch f).atnonce = s.atnonce := rfl
@[simp] theorem State.modLaunch_atreq (s : State) (f : Launch → Launch) : (s.modLaunch f).atreq = s.atreq := rfl
@[simp] theorem State.modLaunch_atdone (s : State) (f : Launch → Launch) : (s.modLaunch f).atdone = s.atdone := rfl
@[simp] theorem State.modLaunch_errors (s : State) (f : Launch → Launch) : (s.modLaunch f).errors = s.errors := rfl
@[simp] theorem State.modLaunch_messages (s : State) (f : Launch → Launch) : (s.modLaunch f).messages = s.messages := rfl
@[simp] theorem State.modLaunch_cluster (s : State) (f : Launch → Launch) (n' : Nat) : (s.modLaunch f).cluster n' = s.cluster n' := rfl
@[simp] theorem State.modLaunch_coll (s : State) (f : Launch → Launch) (n' : Nat) : (s.modLaunch f).coll n' = s.coll n' := rfl
@[simp] theorem State.modLaunch_port (s : State) (f : Launch → Launch) (q' : Nat) : (s.modLaunch f).port q' = s.port q' := rfl
@[simp] theorem State.modLaunch_frame (s : State) (f : Launch → Launch) (a' : Nat) : (s.modLaunch f).frame a' = s.frame a' := rfl
@[simp] theorem State.modLaunch_byte (s : State) (f : Launch → Launch) (k' : Nat) : (s.modLaunch f).byte k' = s.byte k' := rfl
@[simp] theorem State.modLaunch_descAt (s : State) (f : Launch → Launch) (k' : Nat) : (s.modLaunch f).descAt k' = s.descAt k' := rfl

/-! ### State.writeBlock1 -/

@[simp] theorem State.writeBlock1_cycle (s : State) (key : Nat) (b : VVal) : (s.writeBlock1 key b).cycle = s.cycle := rfl
@[simp] theorem State.writeBlock1_sclk (s : State) (key : Nat) (b : VVal) : (s.writeBlock1 key b).sclk = s.sclk := rfl
@[simp] theorem State.writeBlock1_uptime (s : State) (key : Nat) (b : VVal) : (s.writeBlock1 key b).uptime = s.uptime := rfl
@[simp] theorem State.writeBlock1_sclkHold (s : State) (key : Nat) (b : VVal) : (s.writeBlock1 key b).sclkHold = s.sclkHold := rfl
@[simp] theorem State.writeBlock1_free (s : State) (key : Nat) (b : VVal) : (s.writeBlock1 key b).free = s.free := rfl
@[simp] theorem State.writeBlock1_pick (s : State) (key : Nat) (b : VVal) : (s.writeBlock1 key b).pick = s.pick := rfl
@[simp] theorem State.writeBlock1_inputs (s : State) (key : Nat) (b : VVal) : (s.writeBlock1 key b).inputs = s.inputs := rfl
@[simp] theorem State.writeBlock1_iss (s : State) (key : Nat) (b : VVal) : (s.writeBlock1 key b).iss = s.iss := rfl
@[simp] theorem State.writeBlock1_cores (s : State) (key : Nat) (b : VVal) : (s.writeBlock1 key b).cores = s.cores := rfl
@[simp] theorem State.writeBlock1_clusters (s : State) (key : Nat) (b : VVal) : (s.writeBlock1 key b).clusters = s.clusters := rfl
@[simp] theorem State.writeBlock1_colls (s : State) (key : Nat) (b : VVal) : (s.writeBlock1 key b).colls = s.colls := rfl
@[simp] theorem State.writeBlock1_ports (s : State) (key : Nat) (b : VVal) : (s.writeBlock1 key b).ports = s.ports := rfl
@[simp] theorem State.writeBlock1_poisoned (s : State) (key : Nat) (b : VVal) : (s.writeBlock1 key b).poisoned = s.poisoned := rfl
@[simp] theorem State.writeBlock1_frames (s : State) (key : Nat) (b : VVal) : (s.writeBlock1 key b).frames = s.frames := rfl
@[simp] theorem State.writeBlock1_launch (s : State) (key : Nat) (b : VVal) : (s.writeBlock1 key b).launch = s.launch := rfl
@[simp] theorem State.writeBlock1_logNow (s : State) (key : Nat) (b : VVal) : (s.writeBlock1 key b).logNow = s.logNow := rfl
@[simp] theorem State.writeBlock1_faults (s : State) (key : Nat) (b : VVal) : (s.writeBlock1 key b).faults = s.faults := rfl
@[simp] theorem State.writeBlock1_migrations (s : State) (key : Nat) (b : VVal) : (s.writeBlock1 key b).migrations = s.migrations := rfl
@[simp] theorem State.writeBlock1_halted (s : State) (key : Nat) (b : VVal) : (s.writeBlock1 key b).halted = s.halted := rfl
@[simp] theorem State.writeBlock1_struck (s : State) (key : Nat) (b : VVal) : (s.writeBlock1 key b).struck = s.struck := rfl
@[simp] theorem State.writeBlock1_saveWaits (s : State) (key : Nat) (b : VVal) : (s.writeBlock1 key b).saveWaits = s.saveWaits := rfl
@[simp] theorem State.writeBlock1_knocksOut (s : State) (key : Nat) (b : VVal) : (s.writeBlock1 key b).knocksOut = s.knocksOut := rfl
@[simp] theorem State.writeBlock1_lqbase (s : State) (key : Nat) (b : VVal) : (s.writeBlock1 key b).lqbase = s.lqbase := rfl
@[simp] theorem State.writeBlock1_lqtail (s : State) (key : Nat) (b : VVal) : (s.writeBlock1 key b).lqtail = s.lqtail := rfl
@[simp] theorem State.writeBlock1_lqhead (s : State) (key : Nat) (b : VVal) : (s.writeBlock1 key b).lqhead = s.lqhead := rfl
@[simp] theorem State.writeBlock1_svec (s : State) (key : Nat) (b : VVal) : (s.writeBlock1 key b).svec = s.svec := rfl
@[simp] theorem State.writeBlock1_pend (s : State) (key : Nat) (b : VVal) : (s.writeBlock1 key b).pend = s.pend := rfl
@[simp] theorem State.writeBlock1_startDue (s : State) (key : Nat) (b : VVal) : (s.writeBlock1 key b).startDue = s.startDue := rfl
@[simp] theorem State.writeBlock1_lost (s : State) (key : Nat) (b : VVal) : (s.writeBlock1 key b).lost = s.lost := rfl
@[simp] theorem State.writeBlock1_imglen (s : State) (key : Nat) (b : VVal) : (s.writeBlock1 key b).imglen = s.imglen := rfl
@[simp] theorem State.writeBlock1_pstate (s : State) (key : Nat) (b : VVal) : (s.writeBlock1 key b).pstate = s.pstate := rfl
@[simp] theorem State.writeBlock1_logctl (s : State) (key : Nat) (b : VVal) : (s.writeBlock1 key b).logctl = s.logctl := rfl
@[simp] theorem State.writeBlock1_logctlNext (s : State) (key : Nat) (b : VVal) : (s.writeBlock1 key b).logctlNext = s.logctlNext := rfl
@[simp] theorem State.writeBlock1_logwr (s : State) (key : Nat) (b : VVal) : (s.writeBlock1 key b).logwr = s.logwr := rfl
@[simp] theorem State.writeBlock1_logrd (s : State) (key : Nat) (b : VVal) : (s.writeBlock1 key b).logrd = s.logrd := rfl
@[simp] theorem State.writeBlock1_replayref (s : State) (key : Nat) (b : VVal) : (s.writeBlock1 key b).replayref = s.replayref := rfl
@[simp] theorem State.writeBlock1_replayrefNext (s : State) (key : Nat) (b : VVal) : (s.writeBlock1 key b).replayrefNext = s.replayrefNext := rfl
@[simp] theorem State.writeBlock1_fmdev (s : State) (key : Nat) (b : VVal) : (s.writeBlock1 key b).fmdev = s.fmdev := rfl
@[simp] theorem State.writeBlock1_fmdevNext (s : State) (key : Nat) (b : VVal) : (s.writeBlock1 key b).fmdevNext = s.fmdevNext := rfl
@[simp] theorem State.writeBlock1_badstk (s : State) (key : Nat) (b : VVal) : (s.writeBlock1 key b).badstk = s.badstk := rfl
@[simp] theorem State.writeBlock1_ready (s : State) (key : Nat) (b : VVal) : (s.writeBlock1 key b).ready = s.ready := rfl
@[simp] theorem State.writeBlock1_sigfail (s : State) (key : Nat) (b : VVal) : (s.writeBlock1 key b).sigfail = s.sigfail := rfl
@[simp] theorem State.writeBlock1_stage (s : State) (key : Nat) (b : VVal) : (s.writeBlock1 key b).stage = s.stage := rfl
@[simp] theorem State.writeBlock1_islandsReady (s : State) (key : Nat) (b : VVal) : (s.writeBlock1 key b).islandsReady = s.islandsReady := rfl
@[simp] theorem State.writeBlock1_geolock (s : State) (key : Nat) (b : VVal) : (s.writeBlock1 key b).geolock = s.geolock := rfl
@[simp] theorem State.writeBlock1_mecor (s : State) (key : Nat) (b : VVal) : (s.writeBlock1 key b).mecor = s.mecor := rfl
@[simp] theorem State.writeBlock1_geo (s : State) (key : Nat) (b : VVal) : (s.writeBlock1 key b).geo = s.geo := rfl
@[simp] theorem State.writeBlock1_apertures (s : State) (key : Nat) (b : VVal) : (s.writeBlock1 key b).apertures = s.apertures := rfl
@[simp] theorem State.writeBlock1_atnonce (s : State) (key : Nat) (b : VVal) : (s.writeBlock1 key b).atnonce = s.atnonce := rfl
@[simp] theorem State.writeBlock1_atreq (s : State) (key : Nat) (b : VVal) : (s.writeBlock1 key b).atreq = s.atreq := rfl
@[simp] theorem State.writeBlock1_atdone (s : State) (key : Nat) (b : VVal) : (s.writeBlock1 key b).atdone = s.atdone := rfl
@[simp] theorem State.writeBlock1_errors (s : State) (key : Nat) (b : VVal) : (s.writeBlock1 key b).errors = s.errors := rfl
@[simp] theorem State.writeBlock1_messages (s : State) (key : Nat) (b : VVal) : (s.writeBlock1 key b).messages = s.messages := rfl
@[simp] theorem State.writeBlock1_core (s : State) (key : Nat) (b : VVal) (g' : Nat) : (s.writeBlock1 key b).core g' = s.core g' := rfl
@[simp] theorem State.writeBlock1_cluster (s : State) (key : Nat) (b : VVal) (n' : Nat) : (s.writeBlock1 key b).cluster n' = s.cluster n' := rfl
@[simp] theorem State.writeBlock1_coll (s : State) (key : Nat) (b : VVal) (n' : Nat) : (s.writeBlock1 key b).coll n' = s.coll n' := rfl
@[simp] theorem State.writeBlock1_port (s : State) (key : Nat) (b : VVal) (q' : Nat) : (s.writeBlock1 key b).port q' = s.port q' := rfl
@[simp] theorem State.writeBlock1_frame (s : State) (key : Nat) (b : VVal) (a' : Nat) : (s.writeBlock1 key b).frame a' = s.frame a' := rfl
@[simp] theorem State.writeBlock1_launchWord (s : State) (key : Nat) (b : VVal) (n' : Nat) : (s.writeBlock1 key b).launchWord n' = s.launchWord n' := rfl
@[simp] theorem State.writeBlock1_det (s : State) (key : Nat) (b : VVal)  : (s.writeBlock1 key b).det = s.det := rfl

/-! ### State.modCur -/

@[simp] theorem State.modCur_cycle (s : State) (f : Ctx → Ctx) : (s.modCur f).cycle = s.cycle := rfl
@[simp] theorem State.modCur_sclk (s : State) (f : Ctx → Ctx) : (s.modCur f).sclk = s.sclk := rfl
@[simp] theorem State.modCur_uptime (s : State) (f : Ctx → Ctx) : (s.modCur f).uptime = s.uptime := rfl
@[simp] theorem State.modCur_sclkHold (s : State) (f : Ctx → Ctx) : (s.modCur f).sclkHold = s.sclkHold := rfl
@[simp] theorem State.modCur_free (s : State) (f : Ctx → Ctx) : (s.modCur f).free = s.free := rfl
@[simp] theorem State.modCur_pick (s : State) (f : Ctx → Ctx) : (s.modCur f).pick = s.pick := rfl
@[simp] theorem State.modCur_inputs (s : State) (f : Ctx → Ctx) : (s.modCur f).inputs = s.inputs := rfl
@[simp] theorem State.modCur_iss (s : State) (f : Ctx → Ctx) : (s.modCur f).iss = s.iss := rfl
@[simp] theorem State.modCur_clusters (s : State) (f : Ctx → Ctx) : (s.modCur f).clusters = s.clusters := rfl
@[simp] theorem State.modCur_colls (s : State) (f : Ctx → Ctx) : (s.modCur f).colls = s.colls := rfl
@[simp] theorem State.modCur_ports (s : State) (f : Ctx → Ctx) : (s.modCur f).ports = s.ports := rfl
@[simp] theorem State.modCur_mem (s : State) (f : Ctx → Ctx) : (s.modCur f).mem = s.mem := rfl
@[simp] theorem State.modCur_desc (s : State) (f : Ctx → Ctx) : (s.modCur f).desc = s.desc := rfl
@[simp] theorem State.modCur_poisoned (s : State) (f : Ctx → Ctx) : (s.modCur f).poisoned = s.poisoned := rfl
@[simp] theorem State.modCur_frames (s : State) (f : Ctx → Ctx) : (s.modCur f).frames = s.frames := rfl
@[simp] theorem State.modCur_launch (s : State) (f : Ctx → Ctx) : (s.modCur f).launch = s.launch := rfl
@[simp] theorem State.modCur_logNow (s : State) (f : Ctx → Ctx) : (s.modCur f).logNow = s.logNow := rfl
@[simp] theorem State.modCur_faults (s : State) (f : Ctx → Ctx) : (s.modCur f).faults = s.faults := rfl
@[simp] theorem State.modCur_migrations (s : State) (f : Ctx → Ctx) : (s.modCur f).migrations = s.migrations := rfl
@[simp] theorem State.modCur_halted (s : State) (f : Ctx → Ctx) : (s.modCur f).halted = s.halted := rfl
@[simp] theorem State.modCur_struck (s : State) (f : Ctx → Ctx) : (s.modCur f).struck = s.struck := rfl
@[simp] theorem State.modCur_saveWaits (s : State) (f : Ctx → Ctx) : (s.modCur f).saveWaits = s.saveWaits := rfl
@[simp] theorem State.modCur_knocksOut (s : State) (f : Ctx → Ctx) : (s.modCur f).knocksOut = s.knocksOut := rfl
@[simp] theorem State.modCur_lqbase (s : State) (f : Ctx → Ctx) : (s.modCur f).lqbase = s.lqbase := rfl
@[simp] theorem State.modCur_lqtail (s : State) (f : Ctx → Ctx) : (s.modCur f).lqtail = s.lqtail := rfl
@[simp] theorem State.modCur_lqhead (s : State) (f : Ctx → Ctx) : (s.modCur f).lqhead = s.lqhead := rfl
@[simp] theorem State.modCur_svec (s : State) (f : Ctx → Ctx) : (s.modCur f).svec = s.svec := rfl
@[simp] theorem State.modCur_pend (s : State) (f : Ctx → Ctx) : (s.modCur f).pend = s.pend := rfl
@[simp] theorem State.modCur_startDue (s : State) (f : Ctx → Ctx) : (s.modCur f).startDue = s.startDue := rfl
@[simp] theorem State.modCur_lost (s : State) (f : Ctx → Ctx) : (s.modCur f).lost = s.lost := rfl
@[simp] theorem State.modCur_imglen (s : State) (f : Ctx → Ctx) : (s.modCur f).imglen = s.imglen := rfl
@[simp] theorem State.modCur_pstate (s : State) (f : Ctx → Ctx) : (s.modCur f).pstate = s.pstate := rfl
@[simp] theorem State.modCur_logctl (s : State) (f : Ctx → Ctx) : (s.modCur f).logctl = s.logctl := rfl
@[simp] theorem State.modCur_logctlNext (s : State) (f : Ctx → Ctx) : (s.modCur f).logctlNext = s.logctlNext := rfl
@[simp] theorem State.modCur_logwr (s : State) (f : Ctx → Ctx) : (s.modCur f).logwr = s.logwr := rfl
@[simp] theorem State.modCur_logrd (s : State) (f : Ctx → Ctx) : (s.modCur f).logrd = s.logrd := rfl
@[simp] theorem State.modCur_replayref (s : State) (f : Ctx → Ctx) : (s.modCur f).replayref = s.replayref := rfl
@[simp] theorem State.modCur_replayrefNext (s : State) (f : Ctx → Ctx) : (s.modCur f).replayrefNext = s.replayrefNext := rfl
@[simp] theorem State.modCur_fmdev (s : State) (f : Ctx → Ctx) : (s.modCur f).fmdev = s.fmdev := rfl
@[simp] theorem State.modCur_fmdevNext (s : State) (f : Ctx → Ctx) : (s.modCur f).fmdevNext = s.fmdevNext := rfl
@[simp] theorem State.modCur_badstk (s : State) (f : Ctx → Ctx) : (s.modCur f).badstk = s.badstk := rfl
@[simp] theorem State.modCur_ready (s : State) (f : Ctx → Ctx) : (s.modCur f).ready = s.ready := rfl
@[simp] theorem State.modCur_sigfail (s : State) (f : Ctx → Ctx) : (s.modCur f).sigfail = s.sigfail := rfl
@[simp] theorem State.modCur_stage (s : State) (f : Ctx → Ctx) : (s.modCur f).stage = s.stage := rfl
@[simp] theorem State.modCur_islandsReady (s : State) (f : Ctx → Ctx) : (s.modCur f).islandsReady = s.islandsReady := rfl
@[simp] theorem State.modCur_geolock (s : State) (f : Ctx → Ctx) : (s.modCur f).geolock = s.geolock := rfl
@[simp] theorem State.modCur_mecor (s : State) (f : Ctx → Ctx) : (s.modCur f).mecor = s.mecor := rfl
@[simp] theorem State.modCur_geo (s : State) (f : Ctx → Ctx) : (s.modCur f).geo = s.geo := rfl
@[simp] theorem State.modCur_apertures (s : State) (f : Ctx → Ctx) : (s.modCur f).apertures = s.apertures := rfl
@[simp] theorem State.modCur_atnonce (s : State) (f : Ctx → Ctx) : (s.modCur f).atnonce = s.atnonce := rfl
@[simp] theorem State.modCur_atreq (s : State) (f : Ctx → Ctx) : (s.modCur f).atreq = s.atreq := rfl
@[simp] theorem State.modCur_atdone (s : State) (f : Ctx → Ctx) : (s.modCur f).atdone = s.atdone := rfl
@[simp] theorem State.modCur_errors (s : State) (f : Ctx → Ctx) : (s.modCur f).errors = s.errors := rfl
@[simp] theorem State.modCur_messages (s : State) (f : Ctx → Ctx) : (s.modCur f).messages = s.messages := rfl
@[simp] theorem State.modCur_cluster (s : State) (f : Ctx → Ctx) (n' : Nat) : (s.modCur f).cluster n' = s.cluster n' := rfl
@[simp] theorem State.modCur_coll (s : State) (f : Ctx → Ctx) (n' : Nat) : (s.modCur f).coll n' = s.coll n' := rfl
@[simp] theorem State.modCur_port (s : State) (f : Ctx → Ctx) (q' : Nat) : (s.modCur f).port q' = s.port q' := rfl
@[simp] theorem State.modCur_frame (s : State) (f : Ctx → Ctx) (a' : Nat) : (s.modCur f).frame a' = s.frame a' := rfl
@[simp] theorem State.modCur_byte (s : State) (f : Ctx → Ctx) (k' : Nat) : (s.modCur f).byte k' = s.byte k' := rfl
@[simp] theorem State.modCur_descAt (s : State) (f : Ctx → Ctx) (k' : Nat) : (s.modCur f).descAt k' = s.descAt k' := rfl
@[simp] theorem State.modCur_launchWord (s : State) (f : Ctx → Ctx) (n' : Nat) : (s.modCur f).launchWord n' = s.launchWord n' := rfl
@[simp] theorem State.modCur_det (s : State) (f : Ctx → Ctx)  : (s.modCur f).det = s.det := rfl

/-! ### State.takeFree -/

@[simp] theorem State.takeFree_cycle (s : State) : s.takeFree.2.cycle = s.cycle := rfl
@[simp] theorem State.takeFree_sclk (s : State) : s.takeFree.2.sclk = s.sclk := rfl
@[simp] theorem State.takeFree_uptime (s : State) : s.takeFree.2.uptime = s.uptime := rfl
@[simp] theorem State.takeFree_sclkHold (s : State) : s.takeFree.2.sclkHold = s.sclkHold := rfl
@[simp] theorem State.takeFree_pick (s : State) : s.takeFree.2.pick = s.pick := rfl
@[simp] theorem State.takeFree_inputs (s : State) : s.takeFree.2.inputs = s.inputs := rfl
@[simp] theorem State.takeFree_iss (s : State) : s.takeFree.2.iss = s.iss := rfl
@[simp] theorem State.takeFree_cores (s : State) : s.takeFree.2.cores = s.cores := rfl
@[simp] theorem State.takeFree_clusters (s : State) : s.takeFree.2.clusters = s.clusters := rfl
@[simp] theorem State.takeFree_colls (s : State) : s.takeFree.2.colls = s.colls := rfl
@[simp] theorem State.takeFree_ports (s : State) : s.takeFree.2.ports = s.ports := rfl
@[simp] theorem State.takeFree_mem (s : State) : s.takeFree.2.mem = s.mem := rfl
@[simp] theorem State.takeFree_desc (s : State) : s.takeFree.2.desc = s.desc := rfl
@[simp] theorem State.takeFree_poisoned (s : State) : s.takeFree.2.poisoned = s.poisoned := rfl
@[simp] theorem State.takeFree_frames (s : State) : s.takeFree.2.frames = s.frames := rfl
@[simp] theorem State.takeFree_launch (s : State) : s.takeFree.2.launch = s.launch := rfl
@[simp] theorem State.takeFree_logNow (s : State) : s.takeFree.2.logNow = s.logNow := rfl
@[simp] theorem State.takeFree_faults (s : State) : s.takeFree.2.faults = s.faults := rfl
@[simp] theorem State.takeFree_migrations (s : State) : s.takeFree.2.migrations = s.migrations := rfl
@[simp] theorem State.takeFree_halted (s : State) : s.takeFree.2.halted = s.halted := rfl
@[simp] theorem State.takeFree_struck (s : State) : s.takeFree.2.struck = s.struck := rfl
@[simp] theorem State.takeFree_saveWaits (s : State) : s.takeFree.2.saveWaits = s.saveWaits := rfl
@[simp] theorem State.takeFree_knocksOut (s : State) : s.takeFree.2.knocksOut = s.knocksOut := rfl
@[simp] theorem State.takeFree_lqbase (s : State) : s.takeFree.2.lqbase = s.lqbase := rfl
@[simp] theorem State.takeFree_lqtail (s : State) : s.takeFree.2.lqtail = s.lqtail := rfl
@[simp] theorem State.takeFree_lqhead (s : State) : s.takeFree.2.lqhead = s.lqhead := rfl
@[simp] theorem State.takeFree_svec (s : State) : s.takeFree.2.svec = s.svec := rfl
@[simp] theorem State.takeFree_pend (s : State) : s.takeFree.2.pend = s.pend := rfl
@[simp] theorem State.takeFree_startDue (s : State) : s.takeFree.2.startDue = s.startDue := rfl
@[simp] theorem State.takeFree_lost (s : State) : s.takeFree.2.lost = s.lost := rfl
@[simp] theorem State.takeFree_imglen (s : State) : s.takeFree.2.imglen = s.imglen := rfl
@[simp] theorem State.takeFree_pstate (s : State) : s.takeFree.2.pstate = s.pstate := rfl
@[simp] theorem State.takeFree_logctl (s : State) : s.takeFree.2.logctl = s.logctl := rfl
@[simp] theorem State.takeFree_logctlNext (s : State) : s.takeFree.2.logctlNext = s.logctlNext := rfl
@[simp] theorem State.takeFree_logwr (s : State) : s.takeFree.2.logwr = s.logwr := rfl
@[simp] theorem State.takeFree_logrd (s : State) : s.takeFree.2.logrd = s.logrd := rfl
@[simp] theorem State.takeFree_replayref (s : State) : s.takeFree.2.replayref = s.replayref := rfl
@[simp] theorem State.takeFree_replayrefNext (s : State) : s.takeFree.2.replayrefNext = s.replayrefNext := rfl
@[simp] theorem State.takeFree_fmdev (s : State) : s.takeFree.2.fmdev = s.fmdev := rfl
@[simp] theorem State.takeFree_fmdevNext (s : State) : s.takeFree.2.fmdevNext = s.fmdevNext := rfl
@[simp] theorem State.takeFree_badstk (s : State) : s.takeFree.2.badstk = s.badstk := rfl
@[simp] theorem State.takeFree_ready (s : State) : s.takeFree.2.ready = s.ready := rfl
@[simp] theorem State.takeFree_sigfail (s : State) : s.takeFree.2.sigfail = s.sigfail := rfl
@[simp] theorem State.takeFree_stage (s : State) : s.takeFree.2.stage = s.stage := rfl
@[simp] theorem State.takeFree_islandsReady (s : State) : s.takeFree.2.islandsReady = s.islandsReady := rfl
@[simp] theorem State.takeFree_geolock (s : State) : s.takeFree.2.geolock = s.geolock := rfl
@[simp] theorem State.takeFree_mecor (s : State) : s.takeFree.2.mecor = s.mecor := rfl
@[simp] theorem State.takeFree_geo (s : State) : s.takeFree.2.geo = s.geo := rfl
@[simp] theorem State.takeFree_apertures (s : State) : s.takeFree.2.apertures = s.apertures := rfl
@[simp] theorem State.takeFree_atnonce (s : State) : s.takeFree.2.atnonce = s.atnonce := rfl
@[simp] theorem State.takeFree_atreq (s : State) : s.takeFree.2.atreq = s.atreq := rfl
@[simp] theorem State.takeFree_atdone (s : State) : s.takeFree.2.atdone = s.atdone := rfl
@[simp] theorem State.takeFree_errors (s : State) : s.takeFree.2.errors = s.errors := rfl
@[simp] theorem State.takeFree_messages (s : State) : s.takeFree.2.messages = s.messages := rfl
@[simp] theorem State.takeFree_free (s : State) : s.takeFree.2.free = s.free + 1 := rfl

/-! ### Read after write -/

@[simp] theorem State.core_setCore_self (s : State) (g : Nat) (c : Core) : (s.setCore g c).core g = c := mget_mset_self ..

theorem State.core_setCore_ne (s : State) {g j : Nat} (c : Core) (h : j ≠ g) : (s.setCore g c).core j = s.core j := mget_mset_ne _ _ _ h

@[simp] theorem State.cluster_setCluster_self (s : State) (n : Nat) (k : Cluster) : (s.setCluster n k).cluster n = k := mget_mset_self ..

theorem State.cluster_setCluster_ne (s : State) {n j : Nat} (k : Cluster) (h : j ≠ n) : (s.setCluster n k).cluster j = s.cluster j :=
  mget_mset_ne _ _ _ h

@[simp] theorem State.coll_setColl_self (s : State) (n : Nat) (e : CollEngine) : (s.setColl n e).coll n = e := mget_mset_self ..

theorem State.coll_setColl_ne (s : State) {n j : Nat} (e : CollEngine) (h : j ≠ n) : (s.setColl n e).coll j = s.coll j :=
  mget_mset_ne _ _ _ h

@[simp] theorem State.port_setPort_self (s : State) (q : Nat) (p : Port) : (s.setPort q p).port q = p := mget_mset_self ..

theorem State.port_setPort_ne (s : State) {q j : Nat} (p : Port) (h : j ≠ q) : (s.setPort q p).port j = s.port j := mget_mset_ne _ _ _ h

@[simp] theorem State.frame_setFrame_self (s : State) (a : Nat) (f : Frame) : (s.setFrame a f).frame a = f := mget_mset_self ..

theorem State.frame_setFrame_ne (s : State) {a j : Nat} (f : Frame) (h : j ≠ a) : (s.setFrame a f).frame j = s.frame j :=
  mget_mset_ne _ _ _ h

/-! ### Contexts -/

@[simp] theorem Core.ctx_setCtx_self (c : Core) {x : Nat} (h : x < 4) (k : Ctx) : (c.setCtx x k).ctx x = k := by
  simp [Core.ctx, Core.setCtx, h]

theorem Core.ctx_setCtx_ne (c : Core) {x y : Nat} (hx : x < 4) (hy : y < 4) (h : y ≠ x) (k : Ctx) : (c.setCtx x k).ctx y = c.ctx y := by
  simp [Core.ctx, Core.setCtx, hx, hy, Ne.symm h]

@[simp] theorem State.ctx_modCtx_self (s : State) (g : Nat) {x : Nat} (h : x < 4) (f : Ctx → Ctx) :
    (s.modCtx g x f).ctx g x = f (s.ctx g x) := by
  simp [State.modCtx, State.setCtx, State.ctx, h]

/-- The context whose issue is in progress after a change of it. -/
@[simp] theorem State.cur_modCur (s : State) (h : s.iss.x < 4) (f : Ctx → Ctx) : (s.modCur f).cur = f s.cur :=
  State.ctx_modCtx_self s _ h f

/-! ### Registers -/

@[simp] theorem vget_vset_self {α : Type} {n : Nat} (d : α) (v : Vector α n) {i : Nat} (h : i < n) (x : α) : vget d (vset v i x) i = x := by
  simp [vget, vset, h]

theorem vget_vset_ne {α : Type} {n : Nat} (d : α) (v : Vector α n) {i j : Nat} (h : j ≠ i) (x : α) :
    vget d (vset v i x) j = vget d v j := by
  by_cases hj : j < n <;> by_cases hi : i < n <;> simp [vget, vset, hj, hi, Ne.symm h]

end Sys2Proof.Machine
end

