-- ==== Sys2Proof/Laws/Ops.lean ====
section
/-! SUPPORT. What the shared operations of a slot can do: how a slot ends, how it stops short, and what queueing a result, noting an
access or starting a landing changes. -/

namespace Sys2Proof.Machine

/-! ### How a slot ends -/

/-- A slot's outcome is always a next state. -/
theorem slotDone_next (r : Except State State) : ∃ t, slotDone r = .next t := by
  cases r <;> exact ⟨_, rfl⟩

theorem transferDone_next (r : Except State State) : ∃ t, transferDone r = .next t := by
  cases r <;> exact ⟨_, rfl⟩

/-- A slot commits the state its work gives, or leaves the state in which it stopped short. -/
theorem slotDone_cases {r : Except State State} {t : State} (h : slotDone r = .next t) :
    (∃ u, r = .ok u ∧ t = u.commitSlot false) ∨ r = .error t := by
  cases r with
  | ok u => exact .inl ⟨u, rfl, by simpa [slotDone] using h.symm⟩
  | error u => exact .inr (by simpa [slotDone] using h)

theorem transferDone_cases {r : Except State State} {t : State} (h : transferDone r = .next t) :
    (∃ u, r = .ok u ∧ t = u.commitSlot true) ∨ r = .error t := by
  cases r with
  | ok u => exact .inl ⟨u, rfl, by simpa [transferDone] using h.symm⟩
  | error u => exact .inr (by simpa [transferDone] using h)

/-- Committing a slot changes sticky memories and the latch's DONE list only. -/
theorem commitSlot_only (s : State) (b : Bool) :
    ∃ cs, s.commitSlot b = { s with cores := cs, iss := { s.iss with done := s.iss.done ++ [s.iss.slot] } } := by
  unfold State.commitSlot
  dsimp only
  split
  · exact ⟨_, rfl⟩
  · split
    · exact ⟨_, rfl⟩
    · exact ⟨s.cores, rfl⟩

/-! ### How a slot stops short (R369, R370) -/

/-- A slot that stops short has raised a fault, or asked its issue for a trap, a walk or a wait; nothing else has changed. -/
def StopsShort (s u : State) : Prop := ∃ i fs n, u = { s with iss := i, faults := fs, free := n }

theorem StopsShort.mem {s u : State} (h : StopsShort s u) : u.mem = s.mem := by obtain ⟨_, _, _, rfl⟩ := h; rfl
theorem StopsShort.desc {s u : State} (h : StopsShort s u) : u.desc = s.desc := by obtain ⟨_, _, _, rfl⟩ := h; rfl
theorem StopsShort.cores {s u : State} (h : StopsShort s u) : u.cores = s.cores := by obtain ⟨_, _, _, rfl⟩ := h; rfl

theorem slotFault_stops {α : Type} {s u : State} {code : Nat} {a b c : Word64} (h : (slotFault s code a b c : Except State α) = .error u) :
    StopsShort s u := by
  cases h
  exact ⟨_, _, _, rfl⟩

theorem protFault_stops {α : Type} {s u : State} {a : Word64} (h : (protFault s a : Except State α) = .error u) : StopsShort s u :=
  slotFault_stops h

theorem alignFault_stops {α : Type} {s u : State} {a : Word64} {n : Nat} (h : (alignFault s a n : Except State α) = .error u) :
    StopsShort s u :=
  slotFault_stops h

theorem slotTrap_stops {α : Type} {s u : State} {c : Nat} {a b : Word64} (h : (slotTrap s c a b : Except State α) = .error u) :
    StopsShort s u := by
  cases h
  exact ⟨_, _, _, rfl⟩

theorem slotWalk_stops {α : Type} {s u : State} {va : Word64} {c : Nat} (h : (slotWalk s va c : Except State α) = .error u) :
    StopsShort s u := by
  cases h
  exact ⟨_, _, _, rfl⟩

theorem slotWait_stops {α : Type} {s u : State} {c : WaitCond} (h : (slotWait s c : Except State α) = .error u) : StopsShort s u := by
  cases h
  exact ⟨_, _, _, rfl⟩

theorem descFault_stops {α : Type} {s u : State} {d : Desc} (h : (descFault s d : Except State α) = .error u) : StopsShort s u := by
  cases h
  exact ⟨_, _, _, rfl⟩

/-! ### The checks of an access and of source descriptors -/

/-- Reach, alignment and translation give the place that the translation unit gives, with its permission; or the slot stops short. -/
theorem slotLoc_ok {s : State} {r : Reach} {a : Access} {va : Word64} {size : Nat} {l : Loc} (h : slotLoc s r a va size = .ok l) :
    s.xlat (clusterOf s.iss.g) va.toNat = .loc l ∧ l.permits a = true ∧ va.toNat % size = 0 ∧
      (untranslated va.toNat = true → r.allows s.iss.g size (spaceOf va.toNat) = true) ∧ (untranslated va.toNat = false → r.main = true) := by
  simp only [slotLoc, protFault, alignFault, slotFault, slotWalk, bind, Except.bind] at h
  split at h
  · cases h
  · split at h
    · cases h
    · split at h
      · cases h
      · split at h
        · cases h
        · cases h
        · split at h
          · cases h
            refine ⟨‹_›, ‹_›, by simpa using ‹¬ va.toNat % size ≠ 0›, ?_, ?_⟩ <;> simp_all
          · cases h

theorem slotLoc_stops {s u : State} {r : Reach} {a : Access} {va : Word64} {size : Nat} (h : slotLoc s r a va size = .error u) :
    StopsShort s u := by
  simp only [slotLoc, protFault, alignFault, slotFault, slotWalk, bind, Except.bind] at h
  repeat' (split at h)
  all_goals first
    | (cases h; done)
    | (cases h; exact ⟨_, _, _, rfl⟩)

theorem slotMark_stops {s u : State} {va : Word64} {size : Nat} (h : slotMark s va size = .error u) : StopsShort s u := by
  unfold slotMark at h
  split at h
  · exact slotWait_stops h
  · cases h

/-- An access is done at the place that its translation gives, when no watermark holds it. -/
theorem slotAccess_ok {s : State} {r : Reach} {a : Access} {va : Word64} {size : Nat} {l : Loc} (h : slotAccess s r a va size = .ok l) :
    slotLoc s r a va size = .ok l ∧ s.stallingChan s.iss.g va.toNat (va.toNat + size) = none := by
  simp only [slotAccess, bind, Except.bind] at h
  split at h
  · cases h
  · split at h
    · cases h
    · rename_i hm
      unfold slotMark at hm
      split at hm
      · cases hm
      · cases h
        exact ⟨‹_›, ‹_›⟩

theorem slotAccess_stops {s u : State} {r : Reach} {a : Access} {va : Word64} {size : Nat} (h : slotAccess s r a va size = .error u) :
    StopsShort s u := by
  simp only [slotAccess, bind, Except.bind] at h
  split at h
  · cases h
    exact slotLoc_stops ‹_›
  · split at h
    · cases h
      exact slotMark_stops ‹_›
    · cases h

theorem needFormat_stops {s u : State} {code : Nat} {l : List VVal} (h : needFormat s code l = .error u) : StopsShort s u := by
  induction l with
  | nil => cases h
  | cons v l ih =>
    unfold needFormat at h
    split at h
    · exact ih h
    · exact descFault_stops h

/-- The check of formats passes when every source carries the format or none. -/
theorem needFormat_ok_iff {s : State} {code : Nat} {l : List VVal} :
    needFormat s code l = .ok () ↔ ∀ v ∈ l, descFmt v.desc = code ∨ descFmt v.desc = 0 := by
  induction l with
  | nil => simp [needFormat]
  | cons v l ih =>
    unfold needFormat
    split
    · simp [ih, ‹descFmt v.desc = code ∨ descFmt v.desc = 0›]
    · simp [descFault, slotFault, ‹¬ (descFmt v.desc = code ∨ descFmt v.desc = 0)›]

theorem needFloat_stops {s u : State} {code : Nat} {l : List VVal} (h : needFloat s code l = .error u) : StopsShort s u := by
  induction l with
  | nil => cases h
  | cons v l ih =>
    unfold needFloat at h
    split at h
    · exact ih h
    · exact descFault_stops h

/-- The check of floating-point formats passes when every source carries the format, with any scale, or 0x0000. -/
theorem needFloat_ok_iff {s : State} {code : Nat} {l : List VVal} :
    needFloat s code l = .ok () ↔ ∀ v ∈ l, descFmt v.desc = code ∨ v.desc = 0 := by
  induction l with
  | nil => simp [needFloat]
  | cons v l ih =>
    unfold needFloat
    split
    · rw [ih, List.forall_mem_cons]
      exact (and_iff_right ‹_›).symm
    · exact ⟨fun h => by simp [descFault, slotFault] at h, fun h => absurd (h v List.mem_cons_self) ‹_›⟩

theorem needScales_stops {s u : State} {a b : VVal} (h : needScales s a b = .error u) : StopsShort s u := by
  unfold needScales at h
  split at h
  · exact descFault_stops h
  · cases h

/-! ### Queueing a result -/

/-- What a result of an issue suppresses in the sill changes cores only. -/
theorem quietLandings_only (s : State) (u : Upd) : ∃ cs, s.quietLandings u = { s with cores := cs } := by
  unfold State.quietLandings
  dsimp only
  split <;> exact ⟨_, rfl⟩

/-- Queueing a result changes cores only: a context's results in flight, and landings that the result suppresses. -/
theorem emit_only (s : State) (u : Upd) (lat : Nat) : ∃ cs, s.emit u lat = { s with cores := cs } := by
  obtain ⟨cs, h⟩ := quietLandings_only s u
  unfold State.emit
  rw [h]
  split <;> exact ⟨_, rfl⟩

theorem emit_mem (s : State) (u : Upd) (lat : Nat) : (s.emit u lat).mem = s.mem := by
  obtain ⟨cs, h⟩ := emit_only s u lat
  rw [h]

theorem emit_iss (s : State) (u : Upd) (lat : Nat) : (s.emit u lat).iss = s.iss := by
  obtain ⟨cs, h⟩ := emit_only s u lat
  rw [h]

/-- An update of a register that discards its writes changes nothing of the results in flight (R203). -/
theorem queue_discarded {u : Upd} (h : u.discarded = true) (k : Ctx) (due issue slot : Nat) : k.queue due issue slot u = k := by
  simp [Ctx.queue, h]

/-- A result without a rival in its issue joins the results in flight. -/
theorem queue_alone {u : Upd} {k : Ctx} {issue slot : Nat} (hd : u.discarded = false)
    (h : (k.inflight.filter (clashes u issue slot)).isEmpty = true) (due : Nat) :
    k.queue due issue slot u = { k with inflight := k.inflight ++ [⟨due, issue, slot, u⟩] } := by
  simp [Ctx.queue, hd, h]

/-- Queueing changes the results in flight and nothing else of a context. -/
theorem queue_only (k : Ctx) (due issue slot : Nat) (u : Upd) : ∃ l, k.queue due issue slot u = { k with inflight := l } := by
  unfold Ctx.queue
  split
  · exact ⟨_, rfl⟩
  · dsimp only
    split
    · exact ⟨_, rfl⟩
    · split <;> exact ⟨_, rfl⟩

/-- Remembering an access changes cores only. -/
theorem note_only (s : State) (va n : Nat) (wr : Bool) (lat : Nat) : ∃ cs, s.note va n wr lat = { s with cores := cs } := by
  unfold State.note
  split <;> exact ⟨_, rfl⟩

theorem note_mem (s : State) (va n : Nat) (wr : Bool) (lat : Nat) : (s.note va n wr lat).mem = s.mem := by
  obtain ⟨cs, h⟩ := note_only s va n wr lat
  rw [h]

/-- A landing changes cores only. -/
theorem land_only (s : State) (us : List Upd) (lat : Nat) (late : Bool) (w : Option (Nat × Nat)) :
    ∃ cs, s.land us lat late w = { s with cores := cs } := by
  have hf : ∀ (us : List Upd) (s : State), ∃ cs, us.foldl State.quietLandings s = { s with cores := cs } := fun us => by
    induction us with
    | nil => exact fun s => ⟨_, rfl⟩
    | cons u us ih =>
      intro s
      obtain ⟨cs, h⟩ := quietLandings_only s u
      obtain ⟨cs', h'⟩ := ih (s.quietLandings u)
      exact ⟨cs', by rw [List.foldl_cons, h', h]⟩
  have hr : ∃ cs, s.quietResults us = { s with cores := cs } := by
    unfold State.quietResults
    dsimp only
    split <;> exact ⟨_, rfl⟩
  obtain ⟨cs, h⟩ := hr
  obtain ⟨cs', h'⟩ := hf us (s.quietResults us)
  unfold State.land
  dsimp only
  rw [h', h]
  exact ⟨_, rfl⟩

/-! ### Writes -/

/-- Writing part of a block changes memory only. -/
theorem writePart1_only (s : State) (key n v : Nat) : ∃ m, s.writePart1 key n v = { s with mem := m } := by
  unfold State.writePart1
  split <;> exact ⟨_, rfl⟩

theorem writePart_only (s : State) (keys : List Nat) (n v : Nat) : ∃ m, s.writePart keys n v = { s with mem := m } := by
  unfold State.writePart
  induction keys generalizing s with
  | nil => exact ⟨_, rfl⟩
  | cons k keys ih =>
    obtain ⟨m, h⟩ := writePart1_only s k n v
    obtain ⟨m', h'⟩ := ih (s.writePart1 k n v)
    exact ⟨m', by rw [List.foldl_cons, h', h]⟩

/-- Writing a block changes memory and descriptors only. -/
theorem writeBlock_only (s : State) (keys : List Nat) (b : VVal) : ∃ m d, s.writeBlock keys b = { s with mem := m, desc := d } := by
  unfold State.writeBlock
  induction keys generalizing s with
  | nil => exact ⟨_, _, rfl⟩
  | cons k keys ih =>
    obtain ⟨m', d', h'⟩ := ih (s.writeBlock1 k b)
    exact ⟨m', d', by rw [List.foldl_cons, h']; rfl⟩

end Sys2Proof.Machine
end

