-- ==== Sys2Proof/Laws/Packets.lean ====
section
/-! SUPPORT. Signing a packet: its CRC passes the receiver's test, and no other field of its header changes (R151). -/

namespace Sys2Proof

/-- Signing keeps the low 224 bits of the header. -/
theorem sign_low (p : Packet) : p.sign.hdr.extractLsb' 0 224 = p.hdr.extractLsb' 0 224 := by
  show (p.crc ++ p.hdr.extractLsb' 0 224).extractLsb' 0 224 = _
  rw [BitVec.extractLsb'_append_eq_right]

/-- A run of bits within the low 224 depends on those alone. -/
theorem bits_low (x : BitVec 256) (hi lo : Nat) (h : hi < 224) :
    x.toNat / 2 ^ lo % 2 ^ (hi + 1 - lo) = (x.extractLsb' 0 224).toNat / 2 ^ lo % 2 ^ (hi + 1 - lo) := by
  have e : (x.extractLsb' 0 224).toNat = x.toNat % 2 ^ 224 := by simp [BitVec.extractLsb'_toNat]
  rw [e]
  by_cases g : lo ≤ hi + 1
  · have d : 224 = lo + (224 - lo) := by omega
    rw [d, pow_add, Nat.mod_mul_right_div_self, Nat.mod_mod_of_dvd]
    exact pow_dvd_pow 2 (by omega)
  · have z : hi + 1 - lo = 0 := by omega
    simp [z, Nat.mod_one]

/-- Signing keeps every field of the header below the CRC. -/
@[simp] theorem sign_bits (p : Packet) (hi lo : Nat) (h : hi < 224) : p.sign.bits hi lo = p.bits hi lo := by
  unfold Packet.bits
  rw [bits_low _ _ _ h, sign_low, ← bits_low _ _ _ h]

/-- The first 28 bytes of a flit depend on its low 224 bits alone. -/
theorem flitBytes_low (x y : BitVec 256) (h : x.extractLsb' 0 224 = y.extractLsb' 0 224) : flitBytes 28 x = flitBytes 28 y := by
  unfold flitBytes
  refine List.map_congr_left fun i hi => ?_
  have b (z : BitVec 256) : z.extractLsb' (8 * i) 8 = (z.extractLsb' 0 224).extractLsb' (8 * i) 8 := by
    have : i < 28 := by simpa using hi
    rw [BitVec.extractLsb'_extractLsb'_of_le (by omega)]
  rw [b x, b y, h]

/-- A signed packet passes the CRC test, where it has as many data flits as its header says. -/
theorem sign_crcOk (p : Packet) (h : p.data.length = p.nData) : p.sign.crcOk = true := by
  have c : p.sign.crc = p.crc := by
    show (~~~_ : BitVec 32) = ~~~_
    rw [flitBytes_low p.sign.hdr p.hdr (sign_low p)]
    rfl
  have t : p.sign.hdr.extractLsb' 224 32 = p.crc := by
    show (p.crc ++ p.hdr.extractLsb' 0 224).extractLsb' 224 32 = _
    rw [BitVec.extractLsb'_append_eq_left]
  have n : p.sign.nData = p.nData := sign_bits p 35 32 (by decide)
  have l : p.sign.data.length = p.nData := h
  simp [Packet.crcOk, c, t, n, l]

/-- Signing keeps every bit of the header below the CRC. -/
theorem sign_getLsbD (p : Packet) (n : Nat) (h : n < 224) : p.sign.hdr.getLsbD n = p.hdr.getLsbD n := by
  have b (x : BitVec 256) : x.getLsbD n = (x.extractLsb' 0 224).getLsbD n := by simp [h]
  rw [b, sign_low, ← b]

/-- A signed packet is discarded only where its own fields break the rules of R151 and R417. -/
theorem sign_discarded (p : Packet) (h : p.data.length = p.nData) : p.sign.discarded = !(p.nDataOk && p.zerosOk) := by
  have e : p.sign.nDataOk = p.nDataOk ∧ p.sign.zerosOk = p.zerosOk := by
    constructor
    · simp [Packet.nDataOk, Packet.ty, Packet.nData, sign_bits]
    · simp [Packet.zerosOk, Packet.ty, Packet.ctag, Packet.addr, Packet.side, sign_bits]
      rfl
  simp [Packet.discarded, sign_crcOk p h, e]

end Sys2Proof
end

