-- ==== Sys2Proof/Laws/Scale.lean ====
section
/-! SUPPORT. The scale that fits magnitudes into a format (R247): the comparison of two magnitudes, the largest of a list, and the least
exponent. -/

namespace Sys2Proof.Machine

/-- A magnitude as a number. -/
def magnitudeValue (x : Nat × Int) : ℚ := x.1 * 2 ^ x.2

theorem shiftNat_value (m : Nat) {e e0 : Int} (h : e0 ≤ e) : ((shiftNat m (e - e0) : Nat) : ℚ) * 2 ^ e0 = m * 2 ^ e := by
  obtain ⟨n, hn⟩ := Int.eq_ofNat_of_zero_le (sub_nonneg.2 h)
  have he : e = (n : Int) + e0 := by omega
  rw [hn, he, zpow_add₀ (by norm_num)]
  simp [shiftNat, mul_assoc]

/-- The difference of two magnitudes has the sign of the difference of their values. -/
theorem addFin_sub_value (m1 m2 : Nat) (e1 e2 : Int) :
    ((addFin false m1 e1 true m2 e2).1 : ℚ) * 2 ^ min e1 e2 = magnitudeValue (m1, e1) - magnitudeValue (m2, e2) := by
  have h1 := shiftNat_value m1 (min_le_left e1 e2)
  have h2 := shiftNat_value m2 (min_le_right e1 e2)
  simp only [addFin, Bool.false_eq_true, if_false, if_true, magnitudeValue, Int.cast_add, Int.cast_neg, Int.cast_natCast, add_mul, neg_mul]
  rw [h1, h2, sub_eq_add_neg]

theorem addFin_nonpos (m1 m2 : Nat) (e1 e2 : Int) :
    (addFin false m1 e1 true m2 e2).1 ≤ 0 ↔ magnitudeValue (m1, e1) ≤ magnitudeValue (m2, e2) := by
  have h := addFin_sub_value m1 m2 e1 e2
  have hp : (0 : ℚ) < 2 ^ min e1 e2 := by positivity
  rw [← sub_nonpos (a := magnitudeValue (m1, e1)), ← h, ← Int.cast_nonpos (R := ℚ)]
  exact ⟨fun k => mul_nonpos_of_nonpos_of_nonneg k hp.le, fun k => le_of_mul_le_mul_right (by simpa using k) hp⟩

/-- The larger of two magnitudes is one of them and as large as both. -/
theorem maxMag_spec (x y : Nat × Int) : (maxMag x y = x ∨ maxMag x y = y) ∧
    magnitudeValue x ≤ magnitudeValue (maxMag x y) ∧ magnitudeValue y ≤ magnitudeValue (maxMag x y) := by
  have h := addFin_nonpos y.1 x.1 y.2 x.2
  unfold maxMag
  split
  · next k => exact ⟨.inr rfl, by have := mt h.2 (by omega); exact (not_le.1 this).le, le_rfl⟩
  · next k => exact ⟨.inl rfl, le_rfl, h.1 (by omega)⟩

/-- The largest magnitude of a list is one of them and as large as all. -/
theorem foldl_maxMag_spec (xs : List (Nat × Int)) (x : Nat × Int) : xs.foldl maxMag x ∈ x :: xs ∧
    ∀ y ∈ x :: xs, magnitudeValue y ≤ magnitudeValue (xs.foldl maxMag x) := by
  induction xs generalizing x with
  | nil => simp
  | cons z zs ih =>
    obtain ⟨hm, hl⟩ := ih (maxMag x z)
    obtain ⟨h1, h2, h3⟩ := maxMag_spec x z
    have hz := hl _ List.mem_cons_self
    refine ⟨?_, ?_⟩
    · simp only [List.foldl_cons, List.mem_cons] at hm ⊢
      rcases hm with hm | hm
      · rw [hm]; rcases h1 with h | h <;> simp [h]
      · exact .inr (.inr hm)
    · intro y hy
      simp only [List.foldl_cons, List.mem_cons] at hy ⊢
      rcases hy with rfl | rfl | hy
      · exact h2.trans hz
      · exact h3.trans hz
      · exact hl _ (List.mem_cons_of_mem _ hy)

/-- A magnitude lies between the powers of two that its top exponent names. -/
theorem magnitudeValue_between {m : Nat} (h : 0 < m) (e : Int) :
    (2 : ℚ) ^ topExp m e ≤ magnitudeValue (m, e) ∧ magnitudeValue (m, e) < 2 ^ (topExp m e + 1) := by
  have hp : (0 : ℚ) < 2 ^ e := by positivity
  have h1 : ((2 ^ m.log2 : Nat) : ℚ) ≤ m := by exact_mod_cast Nat.log2_self_le h.ne'
  have h2 : (m : ℚ) < ((2 ^ (m.log2 + 1) : Nat) : ℚ) := by exact_mod_cast Nat.lt_log2_self
  constructor
  · rw [topExp, zpow_add₀ (by norm_num), magnitudeValue]
    exact mul_le_mul_of_nonneg_right (by simpa using h1) hp.le
  · rw [topExp, show ((m.log2 : Int) + e + 1) = ((m.log2 + 1 : Nat) : Int) + e by push_cast; ring, zpow_add₀ (by norm_num), magnitudeValue]
    exact mul_lt_mul_of_pos_right (by rw [zpow_natCast]; exact_mod_cast h2) hp

/-- The fitted exponent is the least t with q at most g * 2^t (R247). -/
theorem fitScale_iff {mq mg : Nat} (hq : 0 < mq) (hg : 0 < mg) (eq eg t : Int) :
    fitScale mq eq mg eg ≤ t ↔ magnitudeValue (mq, eq) ≤ magnitudeValue (mg, eg + t) := by
  obtain ⟨q1, q2⟩ := magnitudeValue_between hq eq
  have mono : ∀ {a b : Int}, a ≤ b → magnitudeValue (mg, eg + a) ≤ magnitudeValue (mg, eg + b) := fun {a b} h =>
    mul_le_mul_of_nonneg_left (zpow_le_zpow_right₀ (by norm_num) (by omega)) (by positivity)
  have top : ∀ a, topExp mg (eg + a) = topExp mg eg + a := fun a => by simp only [topExp]; ring
  unfold fitScale
  set t0 := topExp mq eq - topExp mg eg with h0
  have low : ∀ a, a < t0 → magnitudeValue (mg, eg + a) < magnitudeValue (mq, eq) := fun a ha =>
    ((magnitudeValue_between hg (eg + a)).2.trans_le (zpow_le_zpow_right₀ (by norm_num) (by rw [top]; omega))).trans_le q1
  have high : magnitudeValue (mq, eq) ≤ magnitudeValue (mg, eg + (t0 + 1)) :=
    (q2.le.trans (zpow_le_zpow_right₀ (by norm_num) (by rw [top]; omega))).trans (magnitudeValue_between hg (eg + (t0 + 1))).1
  simp only [addFin_nonpos]
  split
  · next h => exact ⟨fun k => h.trans (mono k), fun k => not_lt.1 fun l => (low t l).not_ge k⟩
  · next h => exact ⟨fun k => high.trans (mono k), fun k => not_lt.1 fun l => h (k.trans (mono (by omega)))⟩

end Sys2Proof.Machine
end

