-- ==== Sys2Proof/Tests/Slice0.lean ====
section
/-! SUPPORT. Tests: words that the manual prints and a word of every slot instruction written out from its encoding, ill-formed terms for
every check of WellFormed, single steps against the manual's tables, and for every statement with premises a state and operands that
meet them. -/

section Tests

/-! Theorems are elaborated one after another here: a thread for each would need more threads than the memory limit of the check allows. -/

set_option Elab.async false

open Sys2Proof Sys2Proof.Machine

/-! ### Words that the manual prints in its examples -/

theorem test_manual_words_1 :
    decodeSlot .S 0x5C556789#32 [0x1234#32] = .ok (.movi 5 0x123456789) ∧
    decodeSlot .S 0x5C100001#32 [] = .ok (.movi 1 1) ∧
    decodeSlot .X 0x21400000#32 [] = .ok (.fbind 20 0) ∧
    decodeSlot .A 0x2C310000#32 [] = .ok (.stG 3 2 0 0 false) ∧
    decodeSlot .X 0x40108400#32 [] = .ok (.pglaze 1 2 4 0) ∧
    decodeSlot .X 0x04A2CC00#32 [] = .ok (.chead 10 11 12 0) ∧
    decodeSlot .A 0x28110002#32 [] = .ok (.ldL 1 2 0 32) ∧
    decodeSlot .A 0x40118009#32 [] = .ok (.awrAdd 1 3 0 false false true) ∧
    decodeSlot .A 0x44618040#32 [] = .ok (.axadd 6 3 1 false false) ∧
    decodeSlot .S 0x5C2FFFFF#32 [] = .ok (.movi 2 (-1)) ∧
    decodeSlot .V 0xC4104007#32 [] = .ok (.vbcast 1 1 0 7) ∧
    decodeSlot .V 0xDC611008#32 [] = .ok (.vpackT2 3 1 2 false) := by decide

theorem test_manual_words_2 :
    decodeSlot .V 0xCC614880#32 [] = .ok (.vext 6 5 8 0 true) ∧
    decodeSlot .S 0x5C100000#32 [0x4B8#32] = .ok (.movi 1 0x4B800000) ∧
    decodeSlot .V 0xC4100002#32 [] = .ok (.vbcast 1 0 0 2) ∧
    decodeSlot .V 0xD0410001#32 [] = .ok (.vredAdd 2 1 0 0 false 1) ∧
    decodeSlot .V 0xE4A32002#32 [] = .ok (.vfxsJoin 5 3 4 0 false) ∧
    decodeSlot .M 0x14000098#32 [] = .ok (.mmaFloat 0 0 1 3) ∧
    decodeSlot .M 0x28000000#32 [] = .ok (.await 0) ∧
    decodeSlot .M 0x24010500#32 [] = .ok (.adrain 0 4 5) ∧
    decodeSlot .S 0x439C8001#32 [] = .ok (.addi 57 50 1) ∧
    decodeSlot .A 0x1B010003#32 [] = .ok (.ld 48 2 0 3 false) ∧
    decodeSlot .A 0x1F910183#32 [] = .ok (.st 57 2 6 3) ∧
    decodeSlot .S 0x903FFFFB#32 [] = .ok (.bloop 3 (-5)) := by decide

theorem test_manual_words_3 :
    decodeSlot .A 0x08208008#32 [] = .ok (.addai 2 2 8) ∧
    decodeSlot .A 0x6C310203#32 [] = .ok (.stRel 3 2 8 3) ∧
    decodeSlot .A 0x68410203#32 [] = .ok (.ldAcq 4 2 8 3 false) ∧
    decodeSlot .S 0x78110001#32 [] = .ok (.cmpi 1 4 0 1) ∧
    decodeSlot .S 0x807FFFFC#32 [] = .ok (.br 1 true (-4)) ∧
    decodeSlot .S 0x78405064#32 [] = .ok (.cmpi 4 1 2 100) ∧
    decodeSlot .S 0x70704204#32 [] = .ok (.sel 7 1 2 4) ∧
    decodeSlot .V 0x4C611001#32 [] = .ok (.vfma 3 1 2 0 0 false 1) ∧
    decodeSlot .V 0x71241045#32 [] = .ok (.vfcvt 9 4 false 2 0 2 5) ∧
    decodeSlot .S 0x5D400000#32 [0x2000#32] = .ok (.movi 20 0x200000000) ∧
    decodeSlot .X 0x54108002#32 [] = .ok (.larrSet 1 2 false) ∧
    decodeSlot .S 0xAD400010#32 [] = .ok (.spawn 20 true 0) := by decide

theorem test_manual_words_4 :
    decodeSlot .X 0x58100000#32 [] = .ok (.lwait 1 false false) ∧
    decodeSlot .S 0xA0510000#32 [] = .ok (.wfldGet 5 4 0) ∧
    decodeSlot .S 0xBC000007#32 [] = .ok (.trap 7) ∧
    decodeSlot .A 0x1C310003#32 [] = .ok (.st 3 2 0 3) ∧
    decodeSlot .S 0xA4A00020#32 [] = .ok (.krd 10 0x20) ∧
    decodeSlot .S 0xC4000000#32 [] = .ok (.rett) ∧
    decodeSlot .S 0xC0010012#32 [] = .ok (.brk 1 0x12) ∧
    decodeSlot .V 0xC410C00A#32 [] = .ok (.vbcast 1 3 0 10) ∧
    decodeSlot .A 0x0C254000#32 [] = .ok (.mova 2 21) ∧
    decodeSlot .A 0x2CC101C0#32 [] = .ok (.stG 12 2 7 0 false) ∧
    decodeSlot .X 0x34110000#32 [] = .ok (.pinv 1 4 0) ∧
    decodeSlot .X 0x38408000#32 [] = .ok (.pcomm 4 2 0) := by decide

theorem test_manual_words_5 :
    decodeSlot .V 0xE4610020#32 [] = .ok (.vfxsSplitLo 3 1 1) ∧
    decodeSlot .S 0xB8010000#32 [] = .ok (.chkpt 4 0) ∧
    decodeSlot .A 0x40418049#32 [] = .ok (.awrAdd 4 3 1 false false true) ∧
    decodeSlot .X 0x54200000#32 [] = .ok (.larr 2 false) ∧
    decodeSlot .A 0x2C730011#32 [] = .ok (.stGBlk 7 6 0 2 false) ∧
    decodeSlot .S 0x98000002#32 [] = .ok (.setn 0 0 2) ∧
    decodeSlot .V 0x6C403201#32 [] = .ok (.vfcmp 2 0 6 0 2 false 1) ∧
    decodeSlot .M 0x0C028000#32 [] = .ok (.oload 0 5 0) ∧
    decodeSlot .S 0x94400001#32 [] = .ok (.nestR 0 1) ∧
    decodeSlot .S 0x94100003#32 [] = .ok (.nest 1 3) ∧
    decodeSlot .S 0x94500003#32 [] = .ok (.nestR 1 3) ∧
    decodeSlot .X 0x78100000#32 [] = .ok (.coll 1) := by decide

theorem test_manual_words_6 :
    decodeSlot .X 0x78900000#32 [] = .ok (.coll 9) ∧
    decodeSlot .V 0xC4824002#32 [] = .ok (.vbcast 8 9 0 2) ∧
    decodeSlot .X 0x30E3C002#32 [] = .ok (.papplyG 14 15 2) ∧
    decodeSlot .A 0x24110000#32 [] = .ok (.stV 1 2 0) ∧
    decodeSlot .X 0x1C000001#32 [] = .ok (.knarm 1) ∧
    decodeSlot .X 0x7C100000#32 [] = .ok (.pgres 1) ∧
    decodeSlot .X 0x7C100001#32 [] = .ok (.pgresFail 1) ∧
    decodeSlot .X 0x7C100002#32 [] = .ok (.pgresInv 1) ∧
    decodeSlot .A 0x78008620#32 [] = .ok (.fenceR 2 6 1) ∧
    decodeSlot .X 0x6030410F#32 [] = .ok (.waitany 3 1 true false 0x0F) := by decide

/-! ### A word of every slot instruction, written out from the encodings -/

theorem test_words_scalar_1 :
    decodeSlot .S 0x00000000#32 [] = .ok (.nop) ∧
    decodeSlot .S 0x06546A00#32 [] = .ok (.add 37 17 42) ∧
    decodeSlot .S 0x0A546A00#32 [] = .ok (.sub 37 17 42) ∧
    decodeSlot .S 0x0E546A00#32 [] = .ok (.and 37 17 42) ∧
    decodeSlot .S 0x12546A00#32 [] = .ok (.or 37 17 42) ∧
    decodeSlot .S 0x16546A00#32 [] = .ok (.xor 37 17 42) ∧
    decodeSlot .S 0x1A546A00#32 [] = .ok (.andn 37 17 42) ∧
    decodeSlot .S 0x1E546A00#32 [] = .ok (.shl 37 17 42) ∧
    decodeSlot .S 0x22546A00#32 [] = .ok (.shr 37 17 42) ∧
    decodeSlot .S 0x26546A00#32 [] = .ok (.sar 37 17 42) := by decide

theorem test_words_scalar_2 :
    decodeSlot .S 0x2A546A00#32 [] = .ok (.rotl 37 17 42) ∧
    decodeSlot .S 0x2E546A20#32 [] = .ok (.min 37 17 42 true) ∧
    decodeSlot .S 0x32546A20#32 [] = .ok (.max 37 17 42 true) ∧
    decodeSlot .S 0x36546A40#32 [] = .ok (.mul 37 17 42 2) ∧
    decodeSlot .S 0x3A546A20#32 [] = .ok (.div 37 17 42 true) ∧
    decodeSlot .S 0x3E546A20#32 [] = .ok (.rem 37 17 42 true) ∧
    decodeSlot .S 0x42547FFD#32 [] = .ok (.addi 37 17 (-3)) ∧
    decodeSlot .S 0x46547FFD#32 [] = .ok (.andi 37 17 (-3)) ∧
    decodeSlot .S 0x4A547FFD#32 [] = .ok (.ori 37 17 (-3)) ∧
    decodeSlot .S 0x4E547FFD#32 [] = .ok (.xori 37 17 (-3)) := by decide

theorem test_words_scalar_3 :
    decodeSlot .S 0x5254402A#32 [] = .ok (.shli 37 17 42) ∧
    decodeSlot .S 0x5654402A#32 [] = .ok (.shri 37 17 42) ∧
    decodeSlot .S 0x5A54402A#32 [] = .ok (.sari 37 17 42) ∧
    decodeSlot .S 0x5E5FFFFD#32 [] = .ok (.movi 37 (-3)) ∧
    decodeSlot .S 0x62544020#32 [] = .ok (.clz 37 17 true) ∧
    decodeSlot .S 0x62544021#32 [] = .ok (.ctz 37 17 true) ∧
    decodeSlot .S 0x62544022#32 [] = .ok (.popc 37 17 true) ∧
    decodeSlot .S 0x66544040#32 [] = .ok (.sext 37 17 2) ∧
    decodeSlot .S 0x66544021#32 [] = .ok (.zext 37 17 1) ∧
    decodeSlot .S 0x6A545509#32 [] = .ok (.bfx 37 17 true 20 9) := by decide

theorem test_words_scalar_4 :
    decodeSlot .S 0x6E544509#32 [] = .ok (.bfi 37 17 20 9) ∧
    decodeSlot .S 0x72546A0B#32 [] = .ok (.sel 37 17 42 11) ∧
    decodeSlot .S 0x74B95104#32 [] = .ok (.cmp 11 37 17 4) ∧
    decodeSlot .S 0x78B95FFD#32 [] = .ok (.cmpi 11 37 3 (-3)) ∧
    decodeSlot .S 0x7CB18D00#32 [] = .ok (.pand 11 6 13) ∧
    decodeSlot .S 0x7CB18D01#32 [] = .ok (.por 11 6 13) ∧
    decodeSlot .S 0x7CB18D02#32 [] = .ok (.pxor 11 6 13) ∧
    decodeSlot .S 0x7CB18D03#32 [] = .ok (.pandn 11 6 13) ∧
    decodeSlot .S 0x82FFFFFD#32 [] = .ok (.br 11 true (-3)) ∧
    decodeSlot .S 0x86FFFFFD#32 [] = .ok (.brl 11 true (-3)) := by decide

theorem test_words_scalar_5 :
    decodeSlot .S 0x88057FFD#32 [] = .ok (.jmp 21 (-3)) ∧
    decodeSlot .S 0x8D527FFD#32 [] = .ok (.jmpl 21 9 (-3)) ∧
    decodeSlot .S 0x904FFFFD#32 [] = .ok (.bloop 4 (-3)) ∧
    decodeSlot .S 0x94200085#32 [] = .ok (.nest 2 133) ∧
    decodeSlot .S 0x94600085#32 [] = .ok (.nestR 2 133) ∧
    decodeSlot .S 0x98244000#32 [] = .ok (.setn 2 17 0) ∧
    decodeSlot .S 0x9CC00000#32 [] = .ok (.rotb true 4) ∧
    decodeSlot .S 0xA2544004#32 [] = .ok (.wfldGet 37 17 4) ∧
    decodeSlot .S 0xA2546A25#32 [] = .ok (.wfldSet 37 17 42 5) ∧
    decodeSlot .S 0xA2544043#32 [] = .ok (.wfldLvl 37 17 3) := by decide

theorem test_words_scalar_6 :
    decodeSlot .S 0xA650001D#32 [] = .ok (.krd 37 29) ∧
    decodeSlot .S 0xA8094008#32 [] = .ok (.kwr 8 37) ∧
    decodeSlot .S 0xAE50000B#32 [] = .ok (.spawn 37 false 11) ∧
    decodeSlot .S 0xB0000002#32 [] = .ok (.suspend 2) ∧
    decodeSlot .S 0xB4000000#32 [] = .ok (.exit) ∧
    decodeSlot .S 0xB8097FFD#32 [] = .ok (.chkpt 37 (-3)) ∧
    decodeSlot .S 0xBC0FFFFD#32 [] = .ok (.trap (-3)) ∧
    decodeSlot .S 0xC0091234#32 [] = .ok (.brk 9 4660) ∧
    decodeSlot .S 0xC4000000#32 [] = .ok (.rett) ∧
    decodeSlot .S 0xC8B94000#32 [] = .ok (.lscale 11 37) := by decide

theorem test_words_scalar_7 :
    decodeSlot .S 0xC8B18020#32 [] = .ok (.lscaleP 11 6) := by decide

theorem test_words_access_1 :
    decodeSlot .A 0x05526500#32 [] = .ok (.adda 21 9 37) ∧
    decodeSlot .A 0x09527FFD#32 [] = .ok (.addai 21 9 (-3)) ∧
    decodeSlot .A 0x0D594000#32 [] = .ok (.mova 21 37) ∧
    decodeSlot .A 0x0E554020#32 [] = .ok (.movaToS 37 21) ∧
    decodeSlot .A 0x11597FFD#32 [] = .ok (.setstep 21 37 (-3)) ∧
    decodeSlot .A 0x15457FFD#32 [] = .ok (.itset 4 2 21 (-3)) ∧
    decodeSlot .A 0x1A5AFC45#32 [] = .ok (.ld 37 21 (-15) 1 true) ∧
    decodeSlot .A 0x1E5AFC42#32 [] = .ok (.st 37 21 (-15) 2) ∧
    decodeSlot .A 0x21BAFC40#32 [] = .ok (.ldV 27 21 (-15)) ∧
    decodeSlot .A 0x25BAFC40#32 [] = .ok (.stV 27 21 (-15)) := by decide

theorem test_words_access_2 :
    decodeSlot .A 0x29BAFC54#32 [] = .ok (.ldL 27 21 (-15) 320) ∧
    decodeSlot .A 0x2E5AFC74#32 [] = .ok (.stG 37 21 (-15) 6 true) ∧
    decodeSlot .A 0x2DBAFC75#32 [] = .ok (.stGBlk 27 21 (-15) 6 true) ∧
    decodeSlot .A 0x325AFC40#32 [] = .ok (.ldD 37 21 (-15)) ∧
    decodeSlot .A 0x365AFC40#32 [] = .ok (.stD 37 21 (-15)) ∧
    decodeSlot .A 0x39B54D25#32 [] = .ok (.gath 27 21 13 true 5) ∧
    decodeSlot .A 0x3DB54D25#32 [] = .ok (.scat 27 21 13 true 5) ∧
    decodeSlot .A 0x425AFC42#32 [] = .ok (.awrOw 37 21 (-15) true false false) ∧
    decodeSlot .A 0x425AFC45#32 [] = .ok (.awrAdd 37 21 (-15) false true false) ∧
    decodeSlot .A 0x465AFC46#32 [] = .ok (.axadd 37 21 (-15) true true) := by decide

theorem test_words_access_3 :
    decodeSlot .A 0x4A5AFC42#32 [] = .ok (.axchg 37 21 (-15) true) ∧
    decodeSlot .A 0x4E555120#32 [] = .ok (.acas 37 21 17 true) ∧
    decodeSlot .A 0x525AFC52#32 [] = .ok (.amin 37 21 (-15) true false true) ∧
    decodeSlot .A 0x565AFC52#32 [] = .ok (.amax 37 21 (-15) true false true) ∧
    decodeSlot .A 0x5A5AFC42#32 [] = .ok (.aand 37 21 (-15) true) ∧
    decodeSlot .A 0x5E5AFC42#32 [] = .ok (.aor 37 21 (-15) true) ∧
    decodeSlot .A 0x625AFC42#32 [] = .ok (.ald 37 21 (-15) true false) ∧
    decodeSlot .A 0x65BAFC40#32 [] = .ok (.ast 27 21 (-15)) ∧
    decodeSlot .A 0x6A5AFC46#32 [] = .ok (.ldAcq 37 21 (-15) 2 true) ∧
    decodeSlot .A 0x6E5AFC42#32 [] = .ok (.stRel 37 21 (-15) 2) := by decide

theorem test_words_access_4 :
    decodeSlot .A 0x725AFC46#32 [] = .ok (.ldSc 37 21 (-15) 2 true) ∧
    decodeSlot .A 0x765AFC42#32 [] = .ok (.stSc 37 21 (-15) 2) ∧
    decodeSlot .A 0x78056540#32 [] = .ok (.fenceR 21 37 2) ∧
    decodeSlot .A 0x7D5AFC50#32 [] = .ok (.spill 1 21 21 (-15)) ∧
    decodeSlot .A 0x81BAFC60#32 [] = .ok (.fill 2 27 21 (-15)) := by decide

theorem test_words_vector_1 :
    decodeSlot .V 0x076D30AE#32 [] = .ok (.vadd 27 13 6 5 2 true true) ∧
    decodeSlot .V 0x0B6D30AE#32 [] = .ok (.vsub 27 13 6 5 2 true true) ∧
    decodeSlot .V 0x0F6D30BA#32 [] = .ok (.vmul 27 13 6 5 2 false true true) ∧
    decodeSlot .V 0x136D30AA#32 [] = .ok (.vmin 27 13 6 5 2 true) ∧
    decodeSlot .V 0x176D30AA#32 [] = .ok (.vmax 27 13 6 5 2 true) ∧
    decodeSlot .V 0x1B6D30A2#32 [] = .ok (.vand 27 13 6 5 2) ∧
    decodeSlot .V 0x1F6D30A2#32 [] = .ok (.vor 27 13 6 5 2) ∧
    decodeSlot .V 0x236D30A2#32 [] = .ok (.vxor 27 13 6 5 2) ∧
    decodeSlot .V 0x276D30A2#32 [] = .ok (.vshl 27 13 6 5 2) ∧
    decodeSlot .V 0x2B6D30A2#32 [] = .ok (.vshr 27 13 6 5 2) := by decide

theorem test_words_vector_2 :
    decodeSlot .V 0x2F6D30A2#32 [] = .ok (.vsar 27 13 6 5 2) ∧
    decodeSlot .V 0x30BB6C62#32 [] = .ok (.vcmp 5 27 13 3 2 4) ∧
    decodeSlot .V 0x376D30A2#32 [] = .ok (.vsel 27 13 6 5 2) ∧
    decodeSlot .V 0x436D34A6#32 [] = .ok (.vfadd 27 13 6 5 4 true 2) ∧
    decodeSlot .V 0x476D34A6#32 [] = .ok (.vfsub 27 13 6 5 4 true 2) ∧
    decodeSlot .V 0x4B6D34A6#32 [] = .ok (.vfmul 27 13 6 5 4 true 2) ∧
    decodeSlot .V 0x4F6D34A6#32 [] = .ok (.vfma 27 13 6 5 4 true 2) ∧
    decodeSlot .V 0x536D34A6#32 [] = .ok (.vfms 27 13 6 5 4 true 2) ∧
    decodeSlot .V 0x576D34A6#32 [] = .ok (.vfnma 27 13 6 5 4 true 2) ∧
    decodeSlot .V 0x5B6D34A6#32 [] = .ok (.vfdiv 27 13 6 5 4 true 2) := by decide

theorem test_words_vector_3 :
    decodeSlot .V 0x5F6D02A6#32 [] = .ok (.vfsqrt 27 13 5 2 true 2) ∧
    decodeSlot .V 0x636D30A2#32 [] = .ok (.vfmin 27 13 6 5 2) ∧
    decodeSlot .V 0x676D30A2#32 [] = .ok (.vfmax 27 13 6 5 2) ∧
    decodeSlot .V 0x6B6D30A2#32 [] = .ok (.vfsgnCopy 27 13 6 5 2) ∧
    decodeSlot .V 0x6B6D30AA#32 [] = .ok (.vfsgnNeg 27 13 6 5 2) ∧
    decodeSlot .V 0x6B6D30B2#32 [] = .ok (.vfsgnXor 27 13 6 5 2) ∧
    decodeSlot .V 0x6CBB6B66#32 [] = .ok (.vfcmp 5 27 13 3 3 true 2) ∧
    decodeSlot .V 0x736D9165#32 [] = .ok (.vfcvt 27 13 true 2 1 3 5) ∧
    decodeSlot .V 0x776D04A2#32 [] = .ok (.vfrint 27 13 5 4 2) ∧
    decodeSlot .V 0x7B6D00A2#32 [] = .ok (.vfclass 27 13 5 2) := by decide

theorem test_words_vector_4 :
    decodeSlot .V 0x836D00A6#32 [] = .ok (.vfexp 27 13 5 true 2) ∧
    decodeSlot .V 0x876D00A6#32 [] = .ok (.vfexp2 27 13 5 true 2) ∧
    decodeSlot .V 0x8B6D00A6#32 [] = .ok (.vflog 27 13 5 true 2) ∧
    decodeSlot .V 0x8F6D00A6#32 [] = .ok (.vflog2 27 13 5 true 2) ∧
    decodeSlot .V 0x936D00A6#32 [] = .ok (.vfsin 27 13 5 true 2) ∧
    decodeSlot .V 0x976D00A6#32 [] = .ok (.vfcos 27 13 5 true 2) ∧
    decodeSlot .V 0x9B6D00A6#32 [] = .ok (.vftanh 27 13 5 true 2) ∧
    decodeSlot .V 0x9F6D00A6#32 [] = .ok (.vfrcp 27 13 5 true 2) ∧
    decodeSlot .V 0xA36D00A6#32 [] = .ok (.vfrsq 27 13 5 true 2) ∧
    decodeSlot .V 0xC36D30A2#32 [] = .ok (.vperm 27 13 6 5 2) := by decide

theorem test_words_vector_5 :
    decodeSlot .V 0xC5B94003#32 [] = .ok (.vbcast 27 37 0 3) ∧
    decodeSlot .V 0xC9B94540#32 [] = .ok (.vins 27 37 5 2) ∧
    decodeSlot .V 0xCE56C5C0#32 [] = .ok (.vext 37 27 5 2 true) ∧
    decodeSlot .V 0xD36D03A6#32 [] = .ok (.vredAdd 27 13 5 3 true 2) ∧
    decodeSlot .V 0xD36D00AA#32 [] = .ok (.vredMin 27 13 5 0 false 2) ∧
    decodeSlot .V 0xD36D00B2#32 [] = .ok (.vredMax 27 13 5 0 false 2) ∧
    decodeSlot .V 0xD76D3000#32 [] = .ok (.vdescCopy 27 13 6) ∧
    decodeSlot .V 0xD76D3001#32 [] = .ok (.vdescSet 27 13 6) ∧
    decodeSlot .V 0xD76D0002#32 [] = .ok (.vdescGet 27 13) ∧
    decodeSlot .V 0xDB6D3000#32 [] = .ok (.vscaleRel 27 13 6) := by decide

theorem test_words_vector_6 :
    decodeSlot .V 0xDB6D20A1#32 [] = .ok (.vscaleFit 27 13 5 4) ∧
    decodeSlot .V 0xDF6D3001#32 [] = .ok (.vpackH2b 27 13 6 true) ∧
    decodeSlot .V 0xDF6D3003#32 [] = .ok (.vpackW2h 27 13 6 true) ∧
    decodeSlot .V 0xDF6D3005#32 [] = .ok (.vpackD2w 27 13 6 true) ∧
    decodeSlot .V 0xDF6D3108#32 [] = .ok (.vpackT2 27 13 6 true) ∧
    decodeSlot .V 0xE36D0101#32 [] = .ok (.vunpackB2h 27 13 true true) ∧
    decodeSlot .V 0xE36D0103#32 [] = .ok (.vunpackH2w 27 13 true true) ∧
    decodeSlot .V 0xE36D0105#32 [] = .ok (.vunpackW2d 27 13 true true) ∧
    decodeSlot .V 0xE36D0208#32 [] = .ok (.vunpackT2 27 13 2) ∧
    decodeSlot .V 0xE76D00A0#32 [] = .ok (.vfxsSplitLo 27 13 5) := by decide

theorem test_words_vector_7 :
    decodeSlot .V 0xE76D00A1#32 [] = .ok (.vfxsSplitHi 27 13 5) ∧
    decodeSlot .V 0xE76D3403#32 [] = .ok (.vfxsJoin 27 13 6 4 true) ∧
    decodeSlot .V 0xEB6D00A2#32 [] = .ok (.vmov 27 13 5 2) ∧
    decodeSlot .V 0xECA33000#32 [] = .ok (.mlogAnd 5 3 6) ∧
    decodeSlot .V 0xECA33001#32 [] = .ok (.mlogOr 5 3 6) ∧
    decodeSlot .V 0xECA33002#32 [] = .ok (.mlogXor 5 3 6) ∧
    decodeSlot .V 0xECA33003#32 [] = .ok (.mlogAndn 5 3 6) ∧
    decodeSlot .V 0xECA30004#32 [] = .ok (.mlogNot 5 3) ∧
    decodeSlot .V 0xECBB0005#32 [] = .ok (.mlogFromv 5 27) ∧
    decodeSlot .V 0xEF650006#32 [] = .ok (.mlogTov 27 5) := by decide

theorem test_words_vector_8 :
    decodeSlot .V 0xECA30007#32 [] = .ok (.mlogIso 5 3) := by decide

theorem test_words_matrix_1 :
    decodeSlot .M 0x06500054#32 [] = .ok (.oclaim 37 84) ∧
    decodeSlot .M 0x0A500054#32 [] = .ok (.ofree 37 84) ∧
    decodeSlot .M 0x0CDAFC41#32 [] = .ok (.oload 77 21 (-15)) ∧
    decodeSlot .M 0x11BAFC40#32 [] = .ok (.oread 27 21 (-15)) ∧
    decodeSlot .M 0x1533730C#32 [] = .ok (.mmaFp64 9 77 102 4) ∧
    decodeSlot .M 0x15337318#32 [] = .ok (.mmaFloat 9 77 102 3) ∧
    decodeSlot .M 0x15337331#32 [] = .ok (.mmaKf8 9 77 102 6 true) ∧
    decodeSlot .M 0x1533733E#32 [] = .ok (.mmaInt8 9 77 102 true true) ∧
    decodeSlot .M 0x19337336#32 [] = .ok (.mmas 9 77 102 6 2 true) ∧
    decodeSlot .M 0x1D337359#32 [] = .ok (.mmat 9 77 102 true) := by decide

theorem test_words_matrix_2 :
    decodeSlot .M 0x2120C002#32 [] = .ok (.aclr 9 3 2) ∧
    decodeSlot .M 0x24995100#32 [] = .ok (.adrain 9 37 17) ∧
    decodeSlot .M 0x24995101#32 [] = .ok (.adrainO 9 37 17) ∧
    decodeSlot .M 0x2499511A#32 [] = .ok (.adrainP 9 37 17 6) ∧
    decodeSlot .M 0x28000009#32 [] = .ok (.await 9) ∧
    decodeSlot .M 0x2A500010#32 [] = .ok (.awaitM 37) ∧
    decodeSlot .M 0x28000020#32 [] = .ok (.awaitAll) ∧
    decodeSlot .M 0x2E500002#32 [] = .ok (.ttask 37 2) ∧
    decodeSlot .M 0x2C000004#32 [] = .ok (.ttaskHost) ∧
    decodeSlot .M 0x2C000008#32 [] = .ok (.ttaskUnhost) := by decide

theorem test_words_matrix_3 :
    decodeSlot .M 0x32500000#32 [] = .ok (.twait 37) ∧
    decodeSlot .M 0x36544000#32 [] = .ok (.ostat 37 17) := by decide

theorem test_words_auxiliary_1 :
    decodeSlot .X 0x06546A02#32 [] = .ok (.chead 37 17 42 2) ∧
    decodeSlot .X 0x0A500002#32 [] = .ok (.cstat 37 2) ∧
    decodeSlot .X 0x0E500002#32 [] = .ok (.cwmk 37 2) ∧
    decodeSlot .X 0x0E500006#32 [] = .ok (.cwmkW 37 2) ∧
    decodeSlot .X 0x1000000A#32 [] = .ok (.ccancel 10) ∧
    decodeSlot .X 0x1400000A#32 [] = .ok (.qjoin 10) ∧
    decodeSlot .X 0x1A50001E#32 [] = .ok (.shape 37 6 3) ∧
    decodeSlot .X 0x1C000002#32 [] = .ok (.knarm 2) ∧
    decodeSlot .X 0x1C000006#32 [] = .ok (.knarmD 2) ∧
    decodeSlot .X 0x22500006#32 [] = .ok (.fbind 37 6) := by decide

theorem test_words_auxiliary_2 :
    decodeSlot .X 0x2000000E#32 [] = .ok (.fbindU 6) ∧
    decodeSlot .X 0x26500006#32 [] = .ok (.popenOw 37 6) ∧
    decodeSlot .X 0x2650000E#32 [] = .ok (.popenAdd 37 6) ∧
    decodeSlot .X 0x28000006#32 [] = .ok (.pseal 6) ∧
    decodeSlot .X 0x2E500006#32 [] = .ok (.papply 37 6) ∧
    decodeSlot .X 0x32544002#32 [] = .ok (.papplyG 37 17 2) ∧
    decodeSlot .X 0x36544006#32 [] = .ok (.pinv 37 17 6) ∧
    decodeSlot .X 0x3A544006#32 [] = .ok (.pcomm 37 17 6) ∧
    decodeSlot .X 0x3E54401E#32 [] = .ok (.pxpl 37 17 6 3) ∧
    decodeSlot .X 0x42546A06#32 [] = .ok (.pglaze 37 17 42 6) := by decide

theorem test_words_auxiliary_3 :
    decodeSlot .X 0x46500006#32 [] = .ok (.plift 37 6) ∧
    decodeSlot .X 0x4A500006#32 [] = .ok (.pdrop 37 6) ∧
    decodeSlot .X 0x4E500006#32 [] = .ok (.psettle 37 6) ∧
    decodeSlot .X 0x4C00000E#32 [] = .ok (.psettleAll 6) ∧
    decodeSlot .X 0x52544006#32 [] = .ok (.pstatP 37 17 6) ∧
    decodeSlot .X 0x5250000E#32 [] = .ok (.pstatF 37 6) ∧
    decodeSlot .X 0x52500016#32 [] = .ok (.pstatA 37 6) ∧
    decodeSlot .X 0x56500004#32 [] = .ok (.larr 37 true) ∧
    decodeSlot .X 0x56544005#32 [] = .ok (.larrN 37 17 true) ∧
    decodeSlot .X 0x56544006#32 [] = .ok (.larrSet 37 17 true) := by decide

theorem test_words_auxiliary_4 :
    decodeSlot .X 0x56544007#32 [] = .ok (.larrRd 37 17 true) ∧
    decodeSlot .X 0x5A500003#32 [] = .ok (.lwait 37 true true) ∧
    decodeSlot .X 0x5E544000#32 [] = .ok (.lbaseSet 37 17) ∧
    decodeSlot .X 0x5C000001#32 [] = .ok (.lbaseStep) ∧
    decodeSlot .X 0x625443A5#32 [] = .ok (.waitany 37 17 true true 165) ∧
    decodeSlot .X 0x64D94000#32 [] = .ok (.hset 13 37) ∧
    decodeSlot .X 0x64D94001#32 [] = .ok (.hsetR 13 37) ∧
    decodeSlot .X 0x68D94000#32 [] = .ok (.hwaitData 13 37) ∧
    decodeSlot .X 0x68D94001#32 [] = .ok (.hwaitRoom 13 37) ∧
    decodeSlot .X 0x6CD94000#32 [] = .ok (.hadvCons 13 37) := by decide

theorem test_words_auxiliary_5 :
    decodeSlot .X 0x6CD94001#32 [] = .ok (.hadvProd 13 37) ∧
    decodeSlot .X 0x70000000#32 [] = .ok (.dmodeRev) ∧
    decodeSlot .X 0x70000001#32 [] = .ok (.dmodeFwd) ∧
    decodeSlot .X 0x74000000#32 [] = .ok (.tapeOn) ∧
    decodeSlot .X 0x74000001#32 [] = .ok (.tapeOff) ∧
    decodeSlot .X 0x76500002#32 [] = .ok (.tapeMark 37) ∧
    decodeSlot .X 0x76500003#32 [] = .ok (.tapeUnmark 37) ∧
    decodeSlot .X 0x74000004#32 [] = .ok (.tapeReset) ∧
    decodeSlot .X 0x7A500000#32 [] = .ok (.coll 37) ∧
    decodeSlot .X 0x7E500000#32 [] = .ok (.pgres 37) := by decide

theorem test_words_auxiliary_6 :
    decodeSlot .X 0x7E500001#32 [] = .ok (.pgresFail 37) ∧
    decodeSlot .X 0x7E500002#32 [] = .ok (.pgresInv 37) := by decide

/-! ### Ill-formed terms, one for each check -/

theorem test_illFormed_scalar :
    ∀ i ∈ ([.mul 1 2 3 3, .sext 1 2 3, .zext 1 2 3, .bfx 1 2 false 60 4, .bfi 1 2 63 1, .cmp 1 2 3 6, .cmpi 1 2 7 0, .setn 6 1 0, .rotb false 0, .wfldGet 1 2 6, .wfldSet 1 2 3 6, .wfldLvl 1 2 7, .krd 1 0x0A, .krd 1 0x30, .kwr 0x12 1, .kwr 0x00 1, .kwr 0x22 1, .spawn 1 true 3] : List Instr), i.wellFormed = false := by decide

theorem test_illFormed_access :
    ∀ i ∈ ([.ld 1 2 3 3 true, .ldAcq 1 2 3 3 true, .ldSc 1 2 3 3 true, .ldL 1 2 3 9223372036854775808, .awrOw 32 1 0 false false true, .awrAdd 63 1 0 true false true, .amin 1 2 0 false true true, .amax 1 2 0 true true true, .ald 1 2 0 true true, .ald 32 2 0 false true, .fenceR 1 2 0, .spill 3 1 2 0, .spill 1 32 2 0, .fill 3 1 2 0, .fill 2 32 2 0] : List Instr), i.wellFormed = false := by decide

theorem test_illFormed_vectorArithmetic :
    ∀ i ∈ ([.vadd 1 2 3 0 0 false true, .vsub 1 2 3 0 0 false true, .vmul 1 2 3 0 0 true false true, .vmul 1 2 3 0 0 false true false, .vcmp 1 2 3 0 0 6, .vfadd 1 2 3 0 6 false 0, .vfsub 1 2 3 0 7 false 0, .vfmul 1 2 3 0 6 false 0, .vfma 1 2 3 0 6 false 0, .vfms 1 2 3 0 6 false 0, .vfnma 1 2 3 0 6 false 0, .vfdiv 1 2 3 0 6 false 0, .vfsqrt 1 2 0 6 false 0, .vfcmp 1 2 3 0 5 false 0, .vfrint 1 2 0 6 0, .vredAdd 1 2 0 6 false 0, .vredMin 1 2 0 6 false 0, .vredMax 1 2 0 7 false 0, .vfxsJoin 1 2 3 6 false] : List Instr), i.wellFormed = false := by decide

theorem test_illFormed_vectorForms :
    ∀ i ∈ ([.vfcvt 1 2 false 0 0 0 1, .vfcvt 1 2 false 11 0 0 1, .vfcvt 1 2 false 1 0 0 0, .vfcvt 1 2 false 1 0 0 11, .vfcvt 1 2 false 1 6 0 2, .vfcvt 1 2 false 1 0 2 2, .vfcvt 1 2 false 2 0 1 2, .vbcast 1 2 0 11, .vbcast 1 2 1 2, .vins 1 2 8 3, .vins 1 2 32 1, .vext 1 2 16 2 false, .vext 1 2 0 3 true, .vscaleFit 1 2 0 0, .vscaleFit 1 2 0 7, .vmov 1 2 0 2] : List Instr), i.wellFormed = false := by decide

theorem test_illFormed_matrixAndCopy :
    ∀ i ∈ ([.mmaFp64 1 2 3 6, .mmaFloat 1 2 3 1, .mmaFloat 1 2 3 5, .mmaKf8 1 2 3 4 false, .mmaKf8 1 2 3 7 false, .mmas 1 2 3 2 0 false, .mmas 1 2 3 8 0 false, .mmas 1 2 3 3 3 false, .mmas 1 2 3 3 0 true, .mmas 1 127 3 3 0 false, .mmas 1 2 125 3 0 false, .mmas 1 2 127 3 2 false, .mmat 1 125 2 false, .aclr 15 1 0, .aclr 0 0 3, .shape 1 2 6, .ccancel 0, .qjoin 0, .waitany 1 2 false false 0] : List Instr), i.wellFormed = false := by decide

theorem test_wellFormed_boundsScalar :
    ∀ i ∈ ([.mul 1 2 3 2, .bfx 1 2 false 59 4, .cmp 1 2 3 5, .setn 5 1 0, .wfldGet 1 2 5, .krd 1 0x2F, .kwr 0x1D 1, .spawn 1 true 0, .ld 1 2 3 2 true, .ldL 1 2 3 9223372036854775807, .awrOw 31 1 0 false false true, .spill 2 31 2 0] : List Instr), i.wellFormed = true := by decide

theorem test_wellFormed_boundsVector :
    ∀ i ∈ ([.vadd 1 2 3 0 0 true true, .vmul 1 2 3 0 0 false true true, .vfadd 1 2 3 0 5 false 0, .vfcvt 1 2 false 1 5 1 2, .vins 1 2 7 3, .vmov 1 2 0 3, .mmas 1 126 124 7 0 false, .mmas 1 2 126 3 2 false, .mmat 1 124 2 false, .aclr 15 0 2, .shape 1 2 5, .waitany 1 2 false false 128] : List Instr), i.wellFormed = true := by decide

/-! ### States for the tests -/

/-- A context whose registers have taken some updates. -/
def holding (l : List Upd) : Ctx := l.foldl Ctx.apply {}

/-- Core 0 executes slot `n` of issue 5 of its context 0. -/
def inSlot (n : Nat) (k : Ctx) : State :=
  State.setCtx { iss := { active := true, issue := 5, slot := n, pc := 0x1000, next := 0x1008 } } 0 0 k

/-- The work comes to a value that passes a test. -/
def okWith {ε α : Type} (e : Except ε α) (p : α → Bool) : Bool :=
  match e with
  | .ok a => p a
  | .error _ => false

/-- A page of 64 KiB at its own physical address, readable and writable, of a kind and with the D bit. -/
def page (va kind : Nat) (d : Bool) : TlbEntry :=
  ⟨va, BitVec.ofNat 64 (va / 2 ^ 16 * 2 ^ 12 + kind * 2 ^ 8 + (if d then 0x80 else 0) + 0x31), 0⟩

/-- Main memory as cluster 0 knows it: a plain page at 0x100000, a differentiable one at 0x200000, a page of kind frame at 0x300000 and
one of kind adjoint at 0x400000. -/
def paged (s : State) : State :=
  s.setCluster 0 { tlb := [page 0x100000 0 false, page 0x200000 0 true, page 0x300000 1 false, page 0x400000 2 false] }

/-- Words at consecutive physical addresses. -/
def withWords (s : State) (pa : Nat) (ws : List Word64) : State :=
  (ws.zipIdx).foldl (fun s e => s.writePhys (pa + 8 * e.2) 8 e.1.toNat) s

/-- The outcome is a next state. -/
def goes (o : Host.Outcome State Fault Refusal) : Bool :=
  match o with
  | .next _ => true
  | _ => false

/-! ### Single steps against the tables and rules of the spec -/

/-- Context 0 of core 0 after an instruction in slot `n`, its results delivered. -/
def after (n : Nat) (k : Ctx) (i : Instr) : Ctx :=
  match exec i (inSlot n k) with
  | .next t => (t.ctx 0 0).deliver 1000
  | _ => {}

/-- s3 after an instruction whose sources s1 and s2 hold two values. -/
def scalar (x y : Word64) (i : Instr) : Word64 := ((after 0 (holding [.s 1 x, .s 2 y]) i).rdS 3)

/-- The table of results at the borders that follows R212. -/
theorem test_scalar_borders :
    scalar 1 64 (.shl 3 1 2) = 0 ∧
    scalar 0x8000000000000000 200 (.sar 3 1 2) = 0xFFFFFFFFFFFFFFFF ∧
    scalar 1 65 (.rotl 3 1 2) = 2 ∧
    scalar (-7) 2 (.div 3 1 2 false) = -3 ∧ scalar (-7) 2 (.rem 3 1 2 false) = -1 ∧
    scalar 0x8000000000000000 (-1) (.div 3 1 2 false) = 0x8000000000000000 ∧
    scalar 0x8000000000000000 (-1) (.rem 3 1 2 false) = 0 ∧
    scalar 5 0 (.div 3 1 2 false) = 0 ∧ scalar 5 0 (.rem 3 1 2 false) = 5 ∧
    scalar 0xFFFFFFFFFFFFFFFF 2 (.div 3 1 2 true) = 0x7FFFFFFFFFFFFFFF ∧
    scalar (-1) (-1) (.mul 3 1 2 1) = 0 ∧
    scalar 0xFFFFFFFFFFFFFFFF 0xFFFFFFFFFFFFFFFF (.mul 3 1 2 2) = 0xFFFFFFFFFFFFFFFE ∧
    scalar 0x100000000 0 (.clz 3 1 true) = 32 := by decide +kernel

/-- R212 on a field of three bits that ends in a set bit, and on its insertion over the old destination. -/
theorem test_scalar_fields :
    scalar 0xF0 0 (.bfx 3 1 false 2 5) = 0xFFFFFFFFFFFFFFFF ∧ scalar 0xF0 0 (.bfx 3 1 true 2 5) = 7 ∧
    ((after 0 (holding [.s 1 2, .s 3 0xFF]) (.bfi 3 1 2 4)).rdS 3) = 0xAF := by decide +kernel

/-- R213, R214: the immediate is sign-extended also under LTU; SEL takes s[a] where the predicate is true. -/
theorem test_compare_select :
    (after 0 (holding [.s 1 5]) (.cmpi 4 1 4 (BitVec.allOnes 64))).rdP 4 = true ∧
    (after 0 (holding [.s 1 5, .p 4 true]) (.cmpi 4 1 2 (BitVec.allOnes 64))).rdP 4 = false ∧
    scalar 7 9 (.sel 3 1 2 0) = 7 ∧ scalar 7 9 (.sel 3 1 2 4) = 9 := by decide +kernel

/-- The data and descriptor of v3 after an instruction in the V slot. -/
def vector (l : List Upd) (i : Instr) : Nat × Nat :=
  let v := (after 2 (holding l) i).rdV 3
  (v.data.toNat, v.desc.toNat)

/-- R218 on bytes with both limits, and R217's choice of va's scale for the result. -/
theorem test_vector_saturates :
    vector [.v 1 ⟨0x8001807F, mkDesc 7 3⟩, .v 2 ⟨0x7F01FF01, 0⟩] (.vadd 3 1 2 0 0 true false) = (0xFF02807F, 0x0307) ∧
    vector [.v 1 ⟨0x8001807F, mkDesc 7 3⟩, .v 2 ⟨0x7F01FF01, 0⟩] (.vadd 3 1 2 0 0 false false) = (0xFF027F80, 0x0307) ∧
    vector [.v 1 ⟨0xFF, 0⟩, .v 2 ⟨0x02, 0⟩] (.vmul 3 1 2 0 0 true true false) = (0xFF, 0) := by decide +kernel

/-- The row of R232: FP32 0x3F808000 to BF16 under the six modes. -/
theorem test_round_row :
    let bf (rm : BitVec 3) : Nat := (vector [.v 1 ⟨0x3F808000, mkDesc 2 0⟩] (.vfcvt 3 1 false 2 rm 0 3)).1 % 2 ^ 16
    bf 0 = 0x3F80 ∧ bf 1 = 0x3F80 ∧ bf 2 = 0x3F80 ∧ bf 3 = 0x3F81 ∧ bf 4 = 0x3F81 ∧ bf 5 = 0x3F81 := by decide +kernel

/-- The example of R230: FP16 0x3E00 under the descriptor 0xFD04 is 0.1875, FP32 0x3E400000. -/
theorem test_scaled_element :
    (vector [.v 1 ⟨0x3E00, 0xFD04⟩] (.vfcvt 3 1 false 4 0 0 2)).1 % 2 ^ 32 = 0x3E400000 := by decide +kernel

/-- One lane of FP32: 1 - 1 is +0 but -0 under RDN (R234); a signalling NaN is quieted with its payload (R235); 0 × inf is the canonical
NaN whatever the addend is (R239); an overflow under RTZ stays at the largest number (R233). -/
theorem test_float_lanes :
    let lane (x y z : Nat) (i : Instr) : Nat := (vector [.v 1 ⟨BitVec.ofNat 512 x, 2⟩, .v 2 ⟨BitVec.ofNat 512 y, 2⟩, .v 3 ⟨BitVec.ofNat 512 z, 2⟩] i).1 % 2 ^ 32
    lane 0x3F800000 0xBF800000 0 (.vfadd 3 1 2 0 0 false 1) = 0 ∧
    lane 0x3F800000 0xBF800000 0 (.vfadd 3 1 2 0 2 false 1) = 0x80000000 ∧
    lane 0x3F800000 0xFF800123 0 (.vfadd 3 1 2 0 0 false 1) = 0xFFC00123 ∧
    lane 0 0x7F800000 0x3F800000 (.vfma 3 1 2 0 0 false 1) = 0x7FC00000 ∧
    lane 0x7F7FFFFF 0x7F7FFFFF 0 (.vfadd 3 1 2 0 1 false 1) = 0x7F7FFFFF ∧
    lane 0x7F7FFFFF 0x7F7FFFFF 0 (.vfadd 3 1 2 0 0 false 1) = 0x7F800000 := by decide +kernel

/-- R236 with R233: the overflow of the last lane sets overflow and inexact, and under CL clamp-hit and inexact. -/
theorem test_float_flags :
    let flags (cl : Bool) : Nat :=
      (after 2 (holding [.v 1 ⟨0x7F7FFFFF, 2⟩]) (.vfadd 3 1 1 0 0 cl 1)).k.flags.toNat
    flags false = 0x14 ∧ flags true = 0x30 := by decide +kernel

/-- R216: a poisoned source poisons the whole result whatever the mask, and VEXT delivers 0. -/
theorem test_poison :
    vector [.v 1 ⟨5, 0x00FF⟩, .v 2 ⟨1, 0⟩, .v 3 ⟨9, 0⟩, .m 1 0] (.vadd 3 1 2 1 3 false false) = (0, 0x00FF) ∧
    (after 2 (holding [.v 1 ⟨5, 0x00FF⟩, .s 3 9]) (.vext 3 1 0 3 false)).rdS 3 = 0 := by decide +kernel

/-- R237: the descriptor 0x0000 passes as any format, a scale without a format is a descriptor fault. -/
theorem test_scale_without_format :
    let faults (d : Desc) : List Nat :=
      match exec (.vfadd 3 1 1 0 0 false 1) (inSlot 2 (holding [.v 1 ⟨0, d⟩])) with
      | .next t => t.faults.map fun f => f.code
      | _ => []
    faults 0 = [] ∧ faults 0x0500 = [cDesc] := by decide +kernel

/-- R240 with R234: VFRCP of the FP16 number 2^15 is the subnormal 2^-15, which it makes inexact and tiny. -/
theorem test_function_underflow :
    let k := after 2 (holding [.v 1 ⟨0x7800, 4⟩, .m 1 1]) (.vfrcp 3 1 1 false 3)
    (k.rdV 3).data.toNat % 2 ^ 16 = 0x0200 ∧ k.k.flags.toNat = 0x18 := by decide +kernel

/-- R248: the least of lanes is rounded to nearest even whatever RM is: an FP32 lane of scale 0 is itself. -/
theorem test_reduction_min :
    (vector [.v 1 ⟨0x40000000BF8000013F800000, 2⟩, .m 1 7] (.vredMin 3 1 1 3 true 1)) = (0xBF800001, 2) := by decide +kernel

/-- The worked example before R14: core 17 of cluster 5. -/
theorem test_addresses :
    clusterOf 497 = 5 ∧ coreOf 497 = 17 ∧ spadPa 497 0 = 0x080051100000 ∧ spadPa 497 latchBase = 0x0800511BF000 ∧ latchPa 497 511 = 0x0800511BFFF8 ∧
    accPa 497 0 = 0x090050220000 := by decide +kernel

/-! ### Premises of the statements: scalar and vector instructions -/

/-- s1 is the most negative number, s2 is -1, s3 is 7; p1 is true, p2 false. -/
def scalarState : State :=
  inSlot 0 (holding [.s 1 (BitVec.intMin 64), .s 2 (BitVec.allOnes 64), .s 3 7, .p 1 true])

theorem test_premises_scalarDivision :
    scalarState.rdS 0 = 0 ∧ scalarState.rdS 3 ≠ 0 ∧ scalarState.rdS 1 = BitVec.intMin 64 ∧ scalarState.rdS 2 = BitVec.allOnes 64 := by decide +kernel

theorem test_premises_bitFields : (63#6).toNat + (0#6).toNat + 1 ≤ 64 ∧ (0#6).toNat + (63#6).toNat + 1 ≤ 64 := by decide +kernel

/-- Vector registers with INT8 of scale 3, INT8 of scale 3, no format, poison, TERN2, FP32, FP32, and FP64 of scale 127. -/
def vectorState : State :=
  inSlot 2 (holding [.v 1 ⟨0x80FF7F01, mkDesc 7 3⟩, .v 2 ⟨0x0102FF80, mkDesc 7 3⟩, .v 3 ⟨5, 0⟩, .v 4 ⟨0, 0x00FF⟩, .v 5 ⟨0xB, mkDesc 0xB 0⟩,
    .v 6 ⟨0x7F8000007FC000003F800000, 2⟩, .v 7 ⟨0xBF800000, 2⟩, .v 8 ⟨0x3FF0000000000000, mkDesc 1 127⟩, .v 9 ⟨1, mkDesc 8 0⟩,
    .v 10 ⟨0xFF, 0⟩, .v 11 ⟨0x7FA0000080000000BF800000, 2⟩, .m 1 5])

theorem test_premises_vectorIntegers :
    (Carries (vectorState.rdV 1) (intCode (sizeBits 0)) ∧ Carries (vectorState.rdV 2) (intCode (sizeBits 0)) ∧
      ScalesAgree (vectorState.rdV 1) (vectorState.rdV 2)) ∧
    (Carries (vectorState.rdV 3) (intCode (sizeBits 3)) ∧ ScalesAgree (vectorState.rdV 3) (vectorState.rdV 3)) ∧
    isPoison (vectorState.rdV 1).desc = false ∧ (vectorState.rdV 3).desc = 0 := by
  unfold Carries ScalesAgree; decide +kernel

theorem test_premises_vectorScalars :
    (1 ≤ (10#5).toNat ∧ (10#5).toNat ≤ 10) ∧ (isPoison (vectorState.rdV 1).desc = false ∧ (63#6).toNat < 512 / sizeBits 0) ∧
    isPoison (vectorState.rdV 4).desc = true ∧ descFmt (vectorState.rdV 5).desc ≤ 0x0D ∧
    descFmt ((vectorState.rdV 3).data.setWidth 16) ≤ 0x0D := by decide +kernel

theorem test_premises_vectorPacking :
    (Carries (vectorState.rdV 9) (intCode 16) ∧ ScalesAgree (vectorState.rdV 9) (vectorState.rdV 9)) ∧
    (Carries (vectorState.rdV 1) (intCode 8)) ∧ (Carries (vectorState.rdV 1) 7 ∧ Carries (vectorState.rdV 2) 7) ∧
    Carries (vectorState.rdV 5) 0x0B ∧ isPoison (vectorState.rdV 5).desc = false := by
  unfold Carries ScalesAgree; decide +kernel

theorem test_premises_floats :
    CarriesFloat (vectorState.rdV 6) (fmtCode 1) ∧ CarriesFloat (vectorState.rdV 7) (fmtCode 1) ∧ ¬CarriesFloat ⟨0, 0x0500⟩ (fmtCode 0) ∧
    (4#3).toNat ≤ 4 := by
  unfold CarriesFloat; decide +kernel

theorem test_premises_conversion :
    Instr.WF (.vfcvt 12 6 false 2 5 1 1) ∧ CarriesFloat (vectorState.rdV 6) (2#4).toNat ∧
    Instr.WF (.vfcvt 5 8 true 1 0 7 5) ∧ CarriesFloat (vectorState.rdV 8) (1#4).toNat ∧ isPoison (vectorState.rdV 5).desc = false ∧
    Instr.WF (.vfcvt 5 1 false 7 0 0 2) ∧ Carries (vectorState.rdV 1) (7#4).toNat := by
  unfold Carries CarriesFloat; decide +kernel

theorem test_premises_scalesAndReductions :
    (let f := descFmt (vectorState.rdV 8).desc
     let k := descScale (vectorState.rdV 8).desc + (BitVec.ofNat 8 (laneOf 8 (vectorState.rdV 10).data 0)).toInt
     1 ≤ f ∧ f ≤ 6 ∧ isPoison (vectorState.rdV 10).desc = false ∧ -128 ≤ k ∧ k ≤ 127) ∧
    CarriesFloat (vectorState.rdV 6) (fmtCode 1) ∧ (vectorState.rdV 6).desc = 2 ∧ joinable (vectorState.rdV 3).desc = true ∧
    joinable 0x0A = true ∧
    (1 ≤ descFmt (vectorState.rdV 6).desc ∧ descFmt (vectorState.rdV 6).desc ≤ 6 ∧ isPoison (vectorState.rdV 4).desc = true ∧
      ∀ k < 16, (vectorState.rdM 3).getLsbD k = true → ∀ sg mg e, laneNum 2 (vectorState.rdV 6) k = .fin sg mg e → mg = 0) := by
  have h : ∀ k < 16, (vectorState.rdM 3).getLsbD k = false := by decide +kernel
  refine ⟨by decide +kernel, by unfold CarriesFloat; decide +kernel, by decide +kernel, by decide +kernel, by decide +kernel, by decide +kernel,
    by decide +kernel, by decide +kernel, fun k hk g => absurd (g.symm.trans (h k hk)) (by decide)⟩

/-- The manual's example of a fit: a lane of 3,000 into KF8A, whose largest value is 224, takes scale 4 (R247). -/
theorem test_scaleFit :
    (laneNum 2 ⟨0x453B8000, 2⟩ 0).magnitude = some (12288000, -12) ∧ fmtOfCode 5 = some kf8a ∧
    decodeF kf8a (packF kf8a false kf8a.maxBits) = .fin false 14 4 ∧ fitScale 12288000 (-12) 14 4 = 4 ∧
    (12288000 : ℚ) * 2 ^ (-12 : Int) ≤ 14 * 2 ^ ((4 : Int) + 4) ∧ (14 : ℚ) * 2 ^ ((4 : Int) + 4 - 1) < 12288000 * 2 ^ (-12 : Int) := by
  refine ⟨by decide +kernel, by decide +kernel, by decide +kernel, by decide +kernel, by norm_num, by norm_num⟩

/-- Lanes of v6 hold 1, a NaN and an infinity; lanes of v11 hold -1, -0 and a signalling NaN. -/
theorem test_premises_functions :
    laneNum 2 (vectorState.rdV 6) 1 = .nan false 0 true ∧ laneNum 2 (vectorState.rdV 6) 3 = .fin false 0 (-149) ∧
    (laneNum 2 (vectorState.rdV 11) 1 = .fin true 0 (-149)) ∧ laneNum 2 (vectorState.rdV 11) 0 = .fin true (2 ^ 23) (-23) ∧
    laneNum 2 (vectorState.rdV 6) 2 = .inf false ∧ laneNum 2 (vectorState.rdV 6) 0 = .fin false (2 ^ 23) (-(23 : Nat)) := by decide +kernel

theorem test_premises_poison : isPoison (vectorState.rdV 4).desc = true ∧ codeBits (2#5).toNat < codeBits (1#4).toNat := by decide +kernel

theorem test_premises_rounding :
    fp64 ∈ [fp64, fp32, bf16, fp16, kf8a, kf8b] ∧ 0xFFEFFFFFFFFFFFFF < 2 ^ fp64.width ∧
    decodeF fp64 0xFFEFFFFFFFFFFFFF = .fin true (2 ^ 53 - 1) 971 ∧ kf8a ∈ [fp64, fp32, bf16, fp16, kf8a, kf8b] ∧
    1 < 2 ^ kf8a.width ∧ decodeF kf8a 1 = .fin false 1 (-10) := by decide +kernel

/-! ### Premises: control transfers, loops, system registers, contexts -/

/-- p1 is true, a1 is a multiple of 4 and a2 is not; LC is 1. -/
def loopState : State :=
  inSlot 0 (holding [.p 1 true, .a 1 0x2000, .a 2 0x2001, .k .lc 1, .k .rp 7, .s 1 0x300, .s 2 5])

theorem test_premises_transfers :
    loopState.rdP 1 = !false ∧ loopState.rdP 2 = false ∧ (loopState.rdA 1 + 4).toNat % 4 = 0 ∧ (loopState.rdA 2 + 0).toNat % 4 ≠ 0 := by decide +kernel

theorem test_premises_loops :
    (loopState.cur.k.rp < 8 ∧ loopState.cur.k.lc ≠ 0) ∧
    (let k := (inSlot 0 (holding [.k .ec 2])).cur.k; k.rp < 8 ∧ k.lc = 0 ∧ 1 < k.ec) ∧
    (let k := (inSlot 0 (holding [.k .ec 1])).cur.k; k.rp < 8 ∧ k.lc = 0 ∧ k.ec = 1) ∧
    (let k := (inSlot 0 {}).cur.k; k.lc = 0 ∧ k.ec = 0) ∧ (3#3).toNat < 4 ∧ loopState.det = false := by decide +kernel

theorem test_premises_systemRegisters :
    (loopState.cur.k.tapeOn = false ∧ loopState.cur.k.rev = false) ∧
    (inSlot 0 { k := { tapeOn := true } }).cur.k.tapeOn = true ∧ (5#3).toNat < 6 := by decide +kernel

theorem test_premises_contexts :
    loopState.cur.k.trapIn = false ∧ (inSlot 0 { k := { trapIn := true } }).cur.k.trapIn = true ∧
    (loopState.rdS 1 + 0).toNat % 256 = 0 ∧ (loopState.rdS 2 + 0).toNat % 256 ≠ 0 := by decide +kernel

/-- The own scratchpad holds a record that starts at 0x1000 with priority 3, in its block 1. -/
def spawnState : State :=
  { inSlot 0 (holding [.s 1 (BitVec.ofNat 64 (spadPa 0 64))]) with mem := putBytes [] (spadPa 0 64) 8 0x1003 }

theorem test_premises_spawn : ∃ l, slotRecord spawnState (spawnState.rdS 1) true = .ok l ∧ spawnState.det = false ∧
    contMalformed (spawnState.blockWords l.key) = false ∧ (spawnState.cluster 0).conts.length < 256 :=
  ⟨windowLoc (spadPa 0 64), by rfl, by decide +kernel⟩

theorem test_premises_lossScale :
    (let l := lossOf (inSlot 0 (holding [.k .lscale (lossWord ⟨false, 10, 10, 4, -4, 4⟩)])).cur.k.lscale
     l.grow ≠ 0 ∧ l.emin ≤ l.exp ∧ l.exp ≤ l.emax ∧ l.clean ≤ l.grow) ∧ (lossOf loopState.cur.k.lscale).grow = 0 := by decide +kernel

/-! ### Premises: address registers, loads and stores -/

/-- a1 to a5 name the last block of the own scratchpad below the latch area, the plain page, the differentiable page, a window of the
first peer and core 1's scratchpad; the own scratchpad's block 0 is poisoned. -/
def accessCtx : Ctx := holding [.a 1 (BitVec.ofNat 64 (spadPa 0 0xBEFC0)), .a 2 0x100000, .a 3 0x200000, .a 4 0x0C0000000000,
  .a 5 (BitVec.ofNat 64 (spadPa 1 0)), .a 6 (BitVec.ofNat 64 (spadPa 0 0)), .a 7 (BitVec.ofNat 64 (spadPa 0 4)), .s 1 0x0D, .s 2 0x0E]

def accessState : State :=
  { (paged (inSlot 1 accessCtx)) with desc := [(spadPa 0 0 / 64, 0x00FF)], ports := [(0, { st := .up })] }

theorem test_premises_scratchpadLoads :
    (let w := accessState.ea 1 0 64
     spaceOf w.toNat = .spad 0 0xBEFC0 ∧ 0xBEFC0 + 64 ≤ 0xBF000 ∧ w.toNat % 64 = 0 ∧
       accessState.stallingChan 0 w.toNat (w.toNat + 64) = none ∧ isPoison (accessState.descAt w.toNat) = false) ∧
    (let w := accessState.ea 6 0 8
     spaceOf w.toNat = .spad 0 0 ∧ w.toNat % 8 = 0 ∧ accessState.stallingChan 0 w.toNat (w.toNat + 8) = none ∧
       isPoison (accessState.descAt w.toNat) = true) ∧
    untranslated (accessState.ea 2 0 8).toNat = false ∧ spaceOf (accessState.ea 5 0 64).toNat = .spad 1 0 ∧
    spaceOf (accessState.ea 1 1 64).toNat = .spad 0 0xBF000 ∧
    (spaceOf (accessState.ea 7 0 8).toNat = .spad 0 4 ∧ (accessState.ea 7 0 8).toNat % 8 ≠ 0) := by decide +kernel

theorem test_premises_stores :
    okWith (slotAccess accessState reachStore .write (accessState.ea 2 0 8) 8) (fun l => windowPort l.space == none && l.kind == 0 &&
      !accessState.differentiable l 0x100000) = true ∧
    okWith (slotAccess accessState reachStore .write (accessState.ea 5 0 64) 64) (fun l => windowPort l.space == none) = true ∧
    okWith (slotAccess accessState reachMemory .write (accessState.ea 2 0 64) 64) (fun l => l.kind == 0) = true ∧
    descFmt ((accessState.rdS 1).setWidth 16) ≤ 0x0D ∧ 0x0D < descFmt ((accessState.rdS 2).setWidth 16) ∧
    okWith (slotAccess accessState reachStore .write (accessState.ea 4 0 64) 64) (fun l =>
      windowPort l.space == some (0, 0) && (accessState.port 0).st != .down) = true := by decide +kernel

/-- The context records a tape in its own scratchpad. -/
def tapeState : State := paged (inSlot 1 { accessCtx with
  k := { tapeOn := true, tape := BitVec.ofNat 64 (spadPa 0 0x1000), tpos := BitVec.ofNat 64 (spadPa 0 0x1000),
         tlim := BitVec.ofNat 64 (spadPa 0 0x2000) } })

theorem test_premises_tapedStores :
    okWith (slotAccess tapeState reachStore .write 0x200000 8) (fun l => l.rd && tapeState.differentiable l 0x200000 &&
      okWith (pushTape tapeState 0x200000 (scalarEntry 3 0x200000 0)) (fun t => t.cur.k.tpos == tapeState.cur.k.tpos + 16)) = true ∧
    okWith (slotAccess tapeState reachStore .write 0x200000 64) (fun l => l.rd && tapeState.differentiable l 0x200000 &&
      okWith (pushTape tapeState 0x200000 (blockEntry 0x200000 {})) (fun t => t.cur.k.tpos == tapeState.cur.k.tpos + 80)) = true := by
  decide +kernel

/-- A deterministic launch. -/
def detState (s : State) : State := { s with launch := some { words := [BitVec.ofNat 64 (2 ^ 32)], hdrAddr := 0 } }

theorem test_premises_timedLoads :
    okWith (slotAccess accessState (reachTimed false) .read 0x100000 64) (fun l => windowPort l.space == none &&
      (match accessState.blockAt l 0x100000 with | .ok _ _ => true | _ => false)) = true ∧ (accessState.core 0).sillUsed < 256 ∧
    okWith (slotAccess (detState accessState) (reachTimed true) .read 0x100000 64) (fun l => windowPort l.space == none &&
      decide (1023 < (detState accessState).latencyOf 0 0x100000 l) && decide ((detState accessState).latencyOf 0 0x100000 l ≤ 1024)) = true ∧
    okWith (slotAccess accessState (reachTimed false) .read 0x0C0000000000 64) (fun l => windowPort l.space == some (0, 0)) = true := by
  decide +kernel

/-- The same launch over one stack's channels, which many cores may crowd. -/
def crowdedState (s : State) : State := { detState s with geo := [(0, 0x00100000)] }

theorem test_premises_crowding :
    okWith (slotAccess (crowdedState accessState) (reachTimed true) .read 0x100000 64) (fun l => windowPort l.space == none && l.mayCrowd &&
      decide ((crowdedState accessState).latencyOf 0 0x100000 l ≤ 4096) &&
      (match (crowdedState accessState).blockAt l 0x100000 with | .ok _ _ => true | _ => false)) = true ∧
    okWith (slotAccess (detState accessState) (reachTimed true) .read 0x100000 64) (fun l => !l.mayCrowd) = true ∧
    (crowdedState accessState).det = true ∧ ((crowdedState accessState).core 0).sillUsed < 256 := by
  decide +kernel

/-- Reverse mode with a region of FP32 over the differentiable page, whose adjoint is the frame of record 0x1000; f0 binds the frame of
record 0x2000, which is differentiable too; the tape holds one entry. -/
def reverseState (h0 h1 : Word64) : State :=
  let pos := spadPa 0 0x1000 + 80
  let s := paged (inSlot 1 { accessCtx with
    f := (Vector.replicate 8 none).set 0 (some 0x2000), regions := [⟨2, 0x200000, 0x1000, 0x1000⟩]
    k := { rev := true, tape := BitVec.ofNat 64 (spadPa 0 0x1000), tpos := BitVec.ofNat 64 (pos + 16), tlim := BitVec.ofNat 64 (spadPa 0 0x2000) } })
  { s with
    mem := putBytes (putBytes [] pos 8 h0.toNat) (pos + 8) 8 h1.toNat
    frames := [(0x1000, { info := { base := 0x400000, dims := 64, fmt := 2, addok := true, maxdepth := 4, arenalen := 100, adjoint := true },
                          inDir := true }),
               (0x2000, { info := { base := 0x300000, dims := 64, fmt := 2, addok := true, maxdepth := 4, arenalen := 100, diff := true,
                                    adj := 1, adjPa := 0x1000 }, inDir := true })] }

theorem test_premises_reversedScalarStore :
    let s := reverseState (tapeHead 1 2 0x200000) 7
    okWith (slotAccess s reachStore .write 0x200000 4) (fun l => l.space == .main && l.kind == 0 && s.differentiable l 0x200000 &&
      okWith (reverseStore s (.scalar 3 2) 0x200000 l) (fun _ => true)) = true := by decide +kernel

theorem test_premises_reversedBlockStore :
    let s := reverseState (tapeHead 2 0 0x200000) 2
    okWith (slotAccess s reachStore .write 0x200000 64) (fun l => l.space == .main && l.kind == 0 && s.differentiable l 0x200000 &&
      okWith (reverseStore s (.block 3) 0x200000 l) (fun _ => true)) = true := by decide +kernel

theorem test_premises_reversedLoad :
    let s := reverseState 0 0
    okWith (slotAccess s (reachTimed false) .read 0x200000 64) (fun l => s.differentiable l 0x200000 &&
      okWith (reverseLoad s 3 0x200000 l) (fun _ => true)) = true := by decide +kernel

theorem test_premises_reversedPaneStores :
    (let s := reverseState (tapeHead 3 0 0x300000) (BitVec.ofNat 64 (0x2000 / 64))
     okWith (boundOf s 0) (fun e => e.2.info.diff && okWith (paneLoc s e.2 0x300000 4) (fun l =>
       okWith (reverseStore s (.paneElem 3 0x2000) 0x300000 l) (fun _ => true))) = true) ∧
    (let s := reverseState (tapeHead 3 0 0x300000) (BitVec.ofNat 64 (2 ^ 46 + 0x2000 / 64))
     okWith (boundOf s 0) (fun e => e.2.info.diff && okWith (paneLoc s e.2 0x300000 64) (fun l =>
       okWith (reverseStore s (.paneBlock 3 0x2000) 0x300000 l) (fun _ => true))) = true) := by decide +kernel

/-- f0 binds a frame of FP32 elements on which the context has ADD pane 9 open; f1 binds nothing. -/
def paneState : State :=
  { (paged (inSlot 1 { accessCtx with f := (Vector.replicate 8 none).set 0 (some 0x2000) })) with
    frames := [(0x2000, { info := { base := 0x300000, dims := 64, fmt := 2, addok := true, maxdepth := 4, arenalen := 100 }, inDir := true,
                          loose := [{ name := 9, ow := false, st := .opened 0 0 }] })] }

/-- A store of a slot below X that executes after the pane has been sealed by it: the pane that was open stands in the kept chains. -/
theorem test_premises_storesAfterX :
    let fr := paneState.frame 0x2000
    let sealed_ : State := (paneState.setFrame 0x2000 { fr with loose := [{ name := 9, ow := false, st := .sealed }] }).modIss fun i =>
      { i with chains := some paneState.frames }
    sealed_.iss.chains = some paneState.frames ∧ sealed_.iss.slot < 4 ∧ paneState.iss.chains = none ∧
    (mget ({} : Frame) paneState.frames 0x2000).openOf 0 0 = some { name := 9, ow := false, st := .opened 0 0 } ∧
    okWith (openPane sealed_ 0x2000 (sealed_.frame 0x2000) true) (fun p => p.st == .sealed) = true := by decide +kernel

theorem test_premises_paneStores :
    vget none paneState.cur.f 1 = none ∧
    (let fr := paneState.frame 0x2000
     vget none paneState.cur.f 0 = some 0x2000 ∧ paneState.cur.k.rev = false ∧ fr.glazeWait = none ∧ (fr.openOf 0 0).isSome ∧
     okWith (paneLoc paneState fr 0x3000FC 4) (fun _ => true) = true ∧
     okWith (touchFor paneState 0x2000 fr false { name := 9, ow := false, st := .opened 0 0 } 3) (fun q => (q.block? 3).isSome &&
       okWith (pushPane paneState 0x2000 fr 0x3000FC q.name true false) (fun _ => true)) = true ∧
     okWith (paneLoc paneState fr 0x3000C0 64) (fun _ => true) = true ∧ fr.info.formatOk (paneState.rdV 1).desc = true ∧
     okWith (touchFor paneState 0x2000 fr true { name := 9, ow := false, st := .opened 0 0 } 3) (fun q => (q.block? 3).isSome) = true) := by
  decide +kernel

/-! ### Premises: indexed access, spills, accumulators, ordered access -/

/-- a1 is the own scratchpad, v1 holds the indices 0 and 64 in doubleword lanes, v2 one lane in block 0; block 0 carries INT64, block 1
nothing and block 2 poison. -/
def indexState (i0 i1 : Nat) : State :=
  { inSlot 1 (holding [.a 1 (BitVec.ofNat 64 (spadPa 0 0)), .v 1 ⟨ofLanes 64 [i0, i1], 0⟩, .v 2 ⟨0, 10⟩, .m 1 3]) with
    desc := [(spadPa 0 0 / 64, 10), (spadPa 0 128 / 64, 0x00FF)] }

theorem test_premises_indexed :
    (let s := indexState 0 64
     okWith (gatherLanes s (s.rdA 1) (s.rdV 1).data 8 .read (s.rdM 1) (List.range 8)) (fun ls => ls.map (·.1) == [0, 1] &&
       (ls.map fun x => s.descAt x.2.key) == [10, 0]) = true ∧
     okWith (gatherLanes s (s.rdA 1) (s.rdV 1).data 8 .read (s.rdM 2) (List.range 8)) (fun ls => ls.isEmpty) = true ∧
     okWith (gatherLanes s (s.rdA 1) (s.rdV 1).data 8 .write (s.rdM 1) (List.range 8)) (fun ls =>
       (ls.map fun x => s.descAt x.2.key) == [(s.rdV 2).desc, 0]) = true) ∧
    (let s := indexState 0 128
     okWith (gatherLanes s (s.rdA 1) (s.rdV 1).data 8 .read (s.rdM 1) (List.range 8)) (fun ls =>
       ls.any fun x => isPoison (s.descAt x.2.key)) = true) ∧
    (let s := { indexState 0 64 with desc := [(spadPa 0 0 / 64, 10), (spadPa 0 64 / 64, 9)] }
     okWith (gatherLanes s (s.rdA 1) (s.rdV 1).data 8 .read (s.rdM 1) (List.range 8)) (fun ls =>
       (ls.map fun x => s.descAt x.2.key) == [10, 9]) = true) := by decide +kernel

/-- A carve-out of 128 bytes at the end of the scratchpad that spills may use, and overflow on the plain page; a1 is 64. -/
def spillState : State :=
  paged (inSlot 1 (holding [.a 1 64, .k .spill (BitVec.ofNat 64 (128 * 2 ^ 24 + 0xBEF80)), .k .spovf 0x100000]))

theorem test_premises_spills :
    (let o := spillState.ea 1 0 64
     0 ≤ o.toInt ∧ o.toNat % 64 = 0 ∧ o.toNat + 64 ≤ spillState.cur.k.spill.toNat / 2 ^ 24 % 2 ^ 20 ∧
       spillState.cur.k.spill.toNat % 2 ^ 20 + o.toNat + 64 ≤ 0xBF000 ∧
       spillState.stallingChan 0 (spadPa 0 0xBEFC0) (spadPa 0 0xBF000) = none ∧
       okWith (fillUpdates spillState 2 3 (windowLoc (spadPa 0 0xBEFC0)) (spadPa 0 0xBEFC0)) (fun us => us.length == 1) = true) ∧
    (let s := paged (inSlot 1 (holding [.a 1 64, .k .spill (BitVec.ofNat 64 (128 * 2 ^ 24 + 0xBEF08))]))
     let o := s.ea 1 0 64
     let start := s.cur.k.spill.toNat % 2 ^ 20
     0 ≤ o.toInt ∧ o.toNat % 64 = 0 ∧ o.toNat + 64 ≤ s.cur.k.spill.toNat / 2 ^ 24 % 2 ^ 20 ∧ start + o.toNat + 64 ≤ 0xBF000 ∧
       (spadPa 0 0 + (start + o.toNat)) % 64 ≠ 0) ∧
    (let o := spillState.ea 1 1 64
     spillState.cur.k.spill.toNat / 2 ^ 24 % 2 ^ 20 < o.toNat + 64 ∧
       okWith (slotAccess spillState ({ main := true } : Reach) .write 0x100000 64) (fun l => l.kind == 0) = true ∧
       okWith (slotAccess spillState ({ main := true } : Reach) .read 0x100000 64) (fun l =>
         okWith (fillUpdates spillState 2 3 l 0x100000) (fun us => us.length == 1)) = true ∧ (spillState.core 0).sillUsed < 256 ∧
       spillState.det = false ∧
       (let s := crowdedState spillState
        s.det = true ∧ okWith (slotAccess s ({ main := true } : Reach) .read 0x100000 64) (fun l => l.mayCrowd &&
          okWith (fillUpdates { s with free := s.free + 1 } 2 3 l 0x100000) (fun us => us.length == 1)) = true)) := by
  decide +kernel

/-- A matrix operation of BF16 on tile 1 with slots 0 and 1. -/
def bf16Op : MatOp :=
  { acc := 1, a := 0, b := 1, fmt := 3, sparse := false, ncode := 0, bx := false, ua := false, ub := false, rm := 0, ctx := 0, slot := 3,
    pc := 0, rep := 0 }

/-- a1 and a2 name accumulator cells of core 0 and of core 95, a3 cells of tile 1, which a queued operation owns, a4 a poisoned cell. -/
def cellState : State :=
  let k := holding [.a 1 (BitVec.ofNat 64 (accPa 0 0)), .a 2 (BitVec.ofNat 64 (accPa 95 0x1FFC0)), .a 3 (BitVec.ofNat 64 (accPa 0 0x2000)),
    .a 4 (BitVec.ofNat 64 (accPa 0 0x4000)), .v 1 ⟨1, mkDesc 10 0⟩, .v 2 ⟨0, 0x00FF⟩, .v 3 ⟨0x3F800000, 2⟩, .v 4 ⟨1, mkDesc 9 0⟩]
  let s := (inSlot 1 k).modCore 0 fun c => { c with queue := [bf16Op] }
  { s with poisoned := [accPa 0 0x4000] }

theorem test_premises_cells :
    (okWith (slotAccess cellState reachAcc .both (cellState.ea 1 0 8) 8) (fun l => l.accOf.1 == 0 &&
      cellState.tileOwner l.accOf.1 (l.accOf.2 / 0x2000) == none && (cellsOf l.key 8).all fun c => !cellState.poisoned.contains c) = true) ∧
    (okWith (slotAccess cellState reachAcc .both (cellState.ea 2 0 4) 4) (fun l => l.accOf.1 == 95 &&
      cellState.tileOwner l.accOf.1 (l.accOf.2 / 0x2000) == none && (cellsOf l.key 4).all fun c => !cellState.poisoned.contains c) = true ∧
      (cellState.core 0).sillUsed < 256) ∧
    (okWith (slotAccess cellState reachAcc .both (cellState.rdA 1) 8) (fun l => l.accOf.1 == 0) = true) := by decide +kernel

theorem test_premises_cellBlocks :
    (okWith (slotAccess cellState reachAcc .both (cellState.ea 1 0 64) 64) (fun l =>
      cellState.tileOwner l.accOf.1 (l.accOf.2 / 0x2000) == none && (cellsOf l.key 64).all fun c => !cellState.poisoned.contains c) = true) ∧
    descFmt (cellState.rdV 3).desc = 2 ∧ isPoison (cellState.rdV 3).desc = false ∧ isPoison (cellState.rdV 1).desc = false ∧ (cellState.rdV 1).desc = mkDesc 10 0 ∧ (cellState.rdV 4).desc = mkDesc 9 0 ∧
    isPoison (cellState.rdV 2).desc = true ∧
    (okWith (slotAccess cellState reachAcc .both (cellState.ea 4 0 64) 64) (fun l =>
      (cellsOf l.key 64).find? (cellState.poisoned.contains ·) == some (accPa 0 0x4000)) = true) ∧
    (okWith (slotAccess cellState reachAcc .both (cellState.ea 3 0 8) 8) (fun l =>
      (cellState.tileOwner l.accOf.1 (l.accOf.2 / 0x2000)).isSome) = true) ∧
    (let c := descFmt (cellState.rdV 3).desc
     1 ≤ c ∧ c ≤ 10 ∧ okWith (slotAccess cellState reachAcc .both (cellState.ea 1 0 8) (8 * (512 / codeBits c))) (fun _ => true) = true) := by
  decide +kernel

/-- Core 0 issues at system scope with a write packet of its context unacknowledged at port 0, or with none. -/
def systemState (wrote : Bool) : State :=
  let sent : List (Nat × OutPacket) := [(0, ⟨writePacket 0x1000 [{}] false, .ctx 0 0 0x1000 0x0C0000001000, false⟩)]
  let port : Port := { st := .up, unacked := if wrote then sent else [] }
  { accessState.modIss (fun i => { i with hdr := 0x18000 }) with ports := [(0, port)] }

/-- A release of a narrower scope, and one at system scope with nothing outstanding, need not wait; one with a write outstanding waits. -/
theorem test_premises_released :
    Released cellState ∧ Released accessState ∧ accessState.sysScope = false ∧ Released (systemState false) ∧ (systemState false).sysScope = true ∧
    ¬Released (systemState true) := by
  unfold Released; decide +kernel

theorem test_premises_ordered :
    accessState.det = false ∧ accessState.iss.granted.contains accessState.iss.slot = false ∧
    okWith (slotAccess accessState (reachTimed false) .read (accessState.ea 2 0 8) 8) (fun l => windowPort l.space == none) = true ∧
    okWith (slotAccess accessState reachMemory .read (accessState.ea 1 0 8) 8) (fun _ => true) = true ∧
    okWith (slotAccess accessState (reachTimed false) .write (accessState.ea 2 0 8) 8) (fun l => windowPort l.space == none && l.kind == 0 &&
      !accessState.differentiable l 0x100000) = true ∧
    okWith (slotAccess accessState reachMemory .write (accessState.ea 2 0 8) 8) (fun l => l.kind == 0) = true ∧
    (let s := accessState.modIss fun i => { i with granted := [1] }
     s.iss.granted.contains s.iss.slot = true ∧
     s.iss.padded = none ∧
     okWith (slotAccess s reachMemory .read (s.ea 2 0 8) 8) (fun l => okWith (slotScalar s l 0x100000 8) fun _ => true) = true) ∧
    okWith (slotAccess accessState (reachTimed false) .read (accessState.ea 4 0 8) 8) (fun l => windowPort l.space == some (0, 0)) = true ∧
    okWith (slotAccess accessState (reachTimed false) .write (accessState.ea 4 0 8) 8) (fun l => windowPort l.space == some (0, 0)) = true ∧
    (accessState.port 0).st ≠ .down ∧ accessState.iss.reply = none ∧ accessState.iss.padded = none ∧
    (accessState.modIss fun i => { i with granted := [1], reply := some {} }).iss.reply = some {} := by
  decide +kernel

/-! ### Premises: operand store, matrix engine, tasks, copy engine -/

/-- Slots 0 and 1 are held by the context that issues and ready, slot 126 is filling; s1 to s5 are 0, 120, 127, a control word for FP32
rows of 128 bytes, and one with a reserved bit; a1 is the own scratchpad. -/
def slotsState : State :=
  (inSlot 3 (holding [.s 1 0, .s 2 120, .s 3 127, .s 4 (BitVec.ofNat 64 (128 * 2 ^ 32 + 2)), .s 5 (BitVec.ofNat 64 (2 ^ 48 + 2)),
    .s 6 3, .s 7 128, .s 8 (BitVec.ofNat 64 (spadPa 0 0)), .a 1 (BitVec.ofNat 64 (spadPa 0 0)), .a 2 4095, .a 3 4096, .a 4 31])).modCore 0 fun c =>
    { c with slots := [(0, { st := .ready }), (1, { st := .ready, desc := 0x00FF }), (126, { st := .filling })] }

theorem test_premises_operandStore :
    128 ≤ (slotsState.rdS 2).toNat + (8#7).toNat ∧ (slotsState.rdS 2).toNat + (7#7).toNat < 128 ∧
    (let c := slotsState.core 0
     (∀ i ∈ (List.range 6).map (120 + ·), (c.slot i).st = .free) ∧ (∃ i ∈ (List.range 8).map (120 + ·), (c.slot i).st ≠ .free) ∧
     (∀ i ∈ ((List.range 3).map (0 + ·)).filter slotsState.holdsSlot, c.slotIdle i = true) ∧ slotsState.holdsSlot 0 = true) ∧
    okWith (loadBlocks slotsState (slotsState.ea 1 0 2048).toNat 32) (fun bs => bs.length == 32 &&
      okWith (fillOnTime slotsState (bs.map fun b => b.2.2)) fun _ => true) = true ∧
    4096 ≤ (slotsState.ea 3 0 1).toNat ∧
    ((slotsState.ea 2 0 1).toNat < 4096 ∧ ((slotsState.core 0).slot ((slotsState.ea 2 0 1).toNat / 32)).st = .free) ∧
    ((slotsState.ea 4 0 1).toNat < 4096 ∧ ((slotsState.core 0).slot ((slotsState.ea 4 0 1).toNat / 32)).st = .ready) ∧
    128 ≤ (slotsState.rdS 7).toNat ∧ (slotsState.rdS 3).toNat < 128 := by decide +kernel

theorem test_premises_matrixIssue :
    (∀ n ∈ bf16Op.slots, (slotsState.core 0).heldByCtx n = true) ∧ (slotsState.core 0).queued < 8 ∧
    ({ bf16Op with fmt := 0xB, b := 5 } : MatOp).slots.find? (fun k => !(slotsState.core 0).heldByCtx k) = some 5 ∧
    (∀ t ∈ (List.range 16).map (0 + ·), slotsState.tileOwner 0 t = none) ∧ slotsState.owned 0 15 = false ∧
    (∀ t < 16, (slotsState.rdS 1).getLsbD t = true → slotsState.owned 0 t = false) ∧ (slotsState.core 0).engineIdle = true ∧ slotsState.taskOn 0 = none := by
  decide +kernel

theorem test_premises_matrixProducts :
    let s := slotsState.modCore 0 fun c => { c with array := some (bf16Op, 0) }
    (s.core 0).array = some (bf16Op, 0) ∧ s.arrayDue 0 = true ∧ bf16Op.acc < 16 := by decide +kernel

/-- An INT8 operation on two slots of scales 3 and -1, in tile 1, whose mode is integer and which has no scale. -/
theorem test_premises_matrixScales :
    let o := { bf16Op with fmt := 7, ua := false }
    let s := (inSlot 3 {}).modCore 0 fun c => ({ c with
      queue := [o], clock := 9, leave := true
      slots := [(0, { st := .ready, desc := mkDesc 7 3 }), (1, { st := .ready, desc := mkDesc 7 (-1) })] } : Core).setTile 1 { mode := 2 }
    (s.core 0).queue = [o] ∧ s.headDue 0 = true ∧ (s.core 0).headBlocked o = false ∧ (s.core 0).leave = true ∧ s.startFault 0 o = none ∧
      o.mode = 2 ∧ ((s.core 0).tile 1).tset = false ∧ (s.core 0).poisonedOperand o = false := by decide +kernel

/-- f0 binds a frame of 1024 FP32 elements on which the context has pane 9 open; s1 is its base, s2 the control word. -/
def drainState : State :=
  { (paged (inSlot 3 { holding [.s 1 0x300000, .s 2 (BitVec.ofNat 64 (128 * 2 ^ 32 + 2))] with f := (Vector.replicate 8 none).set 0 (some 0x2000) })) with
    frames := [(0x2000, { info := { base := 0x300000, dims := 1024, fmt := 2, addok := true, maxdepth := 4, arenalen := 100 }, inDir := true,
                          loose := [{ name := 9, ow := false, st := .opened 0 0 }] })] }

theorem test_premises_drains :
    ctlBad (slotsState.rdS 5) true = true ∧ ctlBad (slotsState.rdS 4) true = false ∧
    (slotsState.tileOwner 0 0 = none ∧ (slotsState.core 0).queued < 8) ∧
    okWith (drainKeys slotsState (drainAddrs (slotsState.rdS 8) (slotsState.rdS 4))) (fun ks => ks.length == 64) = true ∧
    (ctlBad (slotsState.rdS 6) false = false ∧ (slotsState.rdS 6).toNat % 256 = 3 ∧ slotsState.holdsSlot ((slotsState.rdS 1).toNat % 128) = true) ∧
    okWith (boundOf drainState 0) (fun e => ctlBad (drainState.rdS 2) true == false && (drainState.rdS 2).toNat % 256 == e.2.info.fmt &&
      okWith (drainPaneOk drainState e.2 (drainAddrs (drainState.rdS 1) (drainState.rdS 2))) (fun _ => true) && e.2.glazeWait.isNone &&
      okWith (touchBlocks drainState e.2.info true { name := 9, ow := false, st := .opened 0 0 }
        ((drainAddrs (drainState.rdS 1) (drainState.rdS 2)).map fun va => (va.toNat - e.2.info.base) / 64)) (fun p => p.blocks.length == 64) &&
      e.2.openOf 0 0 == some { name := 9, ow := false, st := .opened 0 0 } &&
      decide (e.2.used + ({ name := 9, ow := false, st := .opened 0 0 } : Pane).needFor ((drainAddrs (drainState.rdS 1) (drainState.rdS 2)).map fun va => (va.toNat - e.2.info.base) / 64) ≤ e.2.capacity)) = true := by
  decide +kernel

/-- A task record: tag 7 on the plain page, FP64, KT 1, sources and control word sound; then one already posted, and one of a collective. -/
def recordState : State :=
  let task (state : Word64) : List Word64 := [BitVec.ofNat 64 (7 * 2 ^ 48), BitVec.ofNat 64 (2 ^ 16 + 1), 0x100000, 0x100800, 0,
    BitVec.ofNat 64 (128 * 2 ^ 32 + 2), state, 0]
  let coll (state : Word64) : List Word64 := [BitVec.ofNat 64 (5 * 2 ^ 48 + 2 ^ 32 + 2 * 2 ^ 16 + 2 * 2 ^ 8), 0x100000, 0x101000, 128, 0, 0, 0, state]
  withWords (withWords (withWords (withWords (paged (inSlot 3 (holding [.s 1 0x100000, .s 2 0x100040, .s 3 0x100080, .s 4 0x1000C0])))
    0x100000 (task 0)) 0x100040 (task 1)) 0x100080 (coll 0)) 0x1000C0 (coll 1)

theorem test_premises_tasks :
    okWith (slotRecord recordState 0x100000 false) (fun l => l.space == .main && l.wr && taskBad (recordState.blockWords l.key) == false &&
      ((recordState.blockWords l.key).getD 6 0).toNat % 256 == 0 && (recordState.cluster 0).taskRoom 3 7) = true ∧
    okWith (slotRecord recordState 0x100040 false) (fun l => l.space == .main && l.wr && taskBad (recordState.blockWords l.key) == false &&
      ((recordState.blockWords l.key).getD 6 0).toNat % 256 != 0) = true ∧
    (∀ n ∈ [124, 125, 126, 127], ((recordState.core 0).slot n).st = .free) ∧
    (∃ n ∈ [124, 125, 126, 127], ((slotsState.core 0).slot n).st ≠ .free) ∧ recordState.taskAt 0 = false ∧ Released recordState ∧
    (recordState.rdS 1).toNat % 2 ^ 16 ∉ (recordState.cluster 0).tags := by
  unfold Released; decide +kernel

theorem test_premises_collectivesAndPages :
    okWith (slotRecord recordState 0x100080 false) (fun l => l.space == .main && l.wr && collBad (recordState.blockWords l.key) == false &&
      ((recordState.blockWords l.key).getD 7 0).toNat % 256 == 0 && recordState.collRoom 0) = true ∧
    okWith (slotRecord recordState 0x1000C0 false) (fun l => collBad (recordState.blockWords l.key) == false &&
      ((recordState.blockWords l.key).getD 7 0).toNat % 256 != 0) = true ∧
    recordState.faultOf (recordState.rdS 1) = none ∧
    (recordState.setCluster 2 ((recordState.cluster 2).setFault 5 { valid := true, gen := 9 })).faultOf (BitVec.ofNat 64 (faultTag 2 5 9)) = some (2, 5) ∧
    translated (recordState.rdS 1).toNat = true := by decide +kernel

theorem test_premises_copyEngine :
    (let s := slotsState.modChan 0 3 fun k => { k with st := .walking, wlen := 64, wbase := 64, wmk := 128 }
     (s.chan 0 3).st = .walking ∧ (s.chan 0 2).st ≠ .walking ∧ (s.chan 0 2).st ≠ .pageWait ∧ min 128 (s.chan 0 3).watchEnd ≤ (s.chan 0 3).wmk ∧
     (s.chan 0 2).wlen = 0 ∧ Released s) ∧ (slotsState.rdS 1).toNat % 64 = 0 ∧ (slotsState.rdS 2).toNat % 64 ≠ 0 ∧
    (∀ i < 4, (15#4).getLsbD i = true → (slotsState.chan 0 i).st ≠ .walking ∧ (slotsState.chan 0 i).st ≠ .pageWait) := by
  unfold Released; decide +kernel

/-! ### Premises: frames and panes -/

/-- A pane of ADD kind with one footprint block. -/
def addPane (name idx : Nat) (st : PaneState) : Pane := { name, ow := false, st, blocks := [{ idx, data := 1, scale := 0, present := 1 }] }

/-- f0 binds a frame with sealed pane 9, panes 1, 2 and 3 applied, and an OW pane 4 above them on block 0; f1 binds a frame of the same
shape without panes. s1 to s5 hold the names 9, 1, 2, 3 and 4, s6 a free name, s7 names and s8 the frames of PAPPLY.G. -/
def chainState : State :=
  let info (base : Nat) : FrameRec := { base, dims := 64, fmt := 2, addok := true, maxdepth := 8, arenalen := 100 }
  { (paged (inSlot 4 { holding [.s 1 9, .s 2 1, .s 3 2, .s 4 3, .s 5 4, .s 6 77, .s 7 9, .s 8 0, .s 9 5] with
      f := ((Vector.replicate 8 none).set 0 (some 0x2000)).set 1 (some 0x3000) })) with
    frames := [(0x2000, { info := info 0x300000, inDir := true, loose := [addPane 9 3 .sealed],
                          chain := [addPane 1 0 .applied, addPane 2 1 .applied, addPane 3 1 .applied,
                            { addPane 4 0 .applied with ow := true }] }),
               (0x3000, { info := info 0x300100, inDir := true })] }

theorem test_premises_paneEvents :
    Released chainState ∧
    (let fr := chainState.frame 0x2000
     fr.glazeWait = none ∧ fr.sealedPane 77 = none ∧ fr.sealedPane 9 = some (addPane 9 3 .sealed) ∧
     okWith (applyAll chainState [(0x2000, addPane 9 3 .sealed)]) (fun _ => true) = true ∧
     fr.chain.find? (fun q => q.name == 9) = none ∧ fr.chain.find? (fun q => q.name == 2) = some (addPane 2 1 .applied) ∧ fr.nameUsed 77 = false ∧
     (let n := (addPane 2 1 .applied).inverse fr.info 77
      okWith (applyOne chainState 0x2000 fr n n.ownBlocks) (fun _ => true) = true) ∧
     fr.position 1 = some 0 ∧ fr.position 3 = some 2 ∧ okWith (glazePane chainState 0x2000 fr 0 2 77) (fun e => e.1.blocks.length == 2) = true) ∧
    okWith (applyGroup chainState [] (groupPanes chainState 7 8 1)) (fun r => r.isSome) = true ∧
    okWith (applyGroup chainState [] (groupPanes chainState 9 8 1)) (fun r => r.isNone) = true := by
  unfold Released; decide +kernel

/-- An OW pane with a pre-image, one whose pre-image is poisoned, and ADD panes with a cleared element and with none. -/
theorem test_premises_chains :
    (let fr := chainState.frame 0x2000
     let ow := { addPane 9 3 .sealed with ow := true }
     okWith (applyOne chainState 0x2000 fr ow 0) (fun r => r.1.chain.length == 5) = true ∧
     (let full := { fr with info := { fr.info with maxdepth := 4, hglaze := true } }
      full.info.maxdepth ≤ full.chain.length ∧ okWith (applyOne chainState 0x2000 full (addPane 9 3 .sealed) 0) (fun r => r.1.chain.length == 4) = true) ∧
     okWith (glazePane chainState 0x2000 fr 0 2 77) (fun r => !r.1.ow) = true ∧ okWith (glazePane chainState 0x2000 fr 1 3 77) (fun r => r.1.ow) = true ∧
     1 ≤ fr.info.fmt ∧ fr.info.fmt ≤ 10) ∧
    (let k : PaneBlock := { idx := 0, data := 1, scale := 0, present := 1, pre := some 5, preScale := 2 }
     ({ k with prePoison := true }.prePoison = true ∧ k.prePoison = false ∧ k.cleared = 0) ∧
     ({ k with cleared := 1 }.cleared ≠ 0 ∧ { k with cleared := 1 }.prePoison = false)) := by decide +kernel

theorem test_premises_paneMoves :
    let fr := chainState.frame 0x2000
    (fr.position 3 = some 2 ∧ fr.position 1 = some 0 ∧ ∀ q ∈ (fr.chain.drop 0).take (2 - 0), commutes (addPane 3 1 .applied) q = true) ∧
    (fr.position 4 = some 3 ∧
      ((fr.chain.drop 0).take (3 - 0)).find? (fun q => !commutes { addPane 4 0 .applied with ow := true } q) = some (addPane 1 0 .applied)) ∧
    (∀ q ∈ fr.chain.drop (1 + 1), commutes (addPane 2 1 .applied) q = true) ∧
    (fr.chain.drop (0 + 1)).find? (fun q => !commutes (addPane 1 0 .applied) q) = some { addPane 4 0 .applied with ow := true } ∧
    (∀ q ∈ fr.chain.take 1, commutes (addPane 2 1 .applied) q = true) ∧ fr.position 9 = none ∧
    (let dst := chainState.frame 0x3000
     fr.copyable 2 = some (addPane 2 1 .applied) ∧ dst.glazeWait = none ∧ fr.info.fmt = dst.info.fmt ∧ fr.info.layout = dst.info.layout ∧
     (∀ j < 4, fr.info.dim j = dst.info.dim j) ∧ dst.info.addok = true ∧ dst.nameUsed 77 = false ∧
     dst.used + (addPane 2 1 .applied).ownBlocks ≤ dst.capacity) := by decide +kernel

theorem test_premises_paneStates :
    (let fr := chainState.frame 0x3000
     77 < 0xE800 ∧ fr.openOf 0 0 = none ∧ fr.nameUsed 77 = false ∧ fr.used + 1 ≤ fr.capacity ∧ fr.info.addok = true ∧ fr.glazeWait = none ∧
     fr.droppable 0 0 77 = none ∧ vget none chainState.cur.f 1 = some 0x3000 ∧ (addPane 2 1 .applied).implicit = false ∧ (fr.loose ++ fr.chain).find? (fun q => q.name == 77) = none) ∧
    ((paneState.frame 0x2000).openOf 0 0).isSome = true ∧
    (let fr := chainState.frame 0x2000
     fr.droppable 0 0 9 = some (addPane 9 3 .sealed) ∧
     (fr.loose ++ fr.chain).find? (fun q => q.name == 2) = some (addPane 2 1 .applied)) := by decide +kernel

/-- Frame records on the plain page: without an adjoint, with the adjoint record at 0x100080, and the adjoint record itself. The walk of
0x400000 finds a level-3 leaf of kind adjoint in `adjointPages`, and no page elsewhere. -/
def bindState : State :=
  let rec_ (base fl adj : Nat) : List Word64 := [BitVec.ofNat 64 base, 64, BitVec.ofNat 64 (fl * 2 ^ 16 + 8 * 2 ^ 8 + 2), 0,
    BitVec.ofNat 64 (base + 0x1000), 100, BitVec.ofNat 64 adj, 0]
  withWords (withWords (withWords (paged (inSlot 4 (holding [.s 1 0x100000, .s 2 0x100040, .s 3 0x100080])))
    0x100000 (rec_ 0x300000 2 0)) 0x100040 (rec_ 0x300000 3 0x100080)) 0x100080 (rec_ 0x400000 2 0)

/-- The state with a translation root whose first 1 GiB is one leaf of kind adjoint. -/
def adjointPages (s : State) : State :=
  withWords (withWords { s with launch := some { words := [0, 0x10000], hdrAddr := 0 } }
    0x10000 [BitVec.ofNat 64 (0x20000 + 9)]) 0x20000 [BitVec.ofNat 64 (3 * 2 ^ 10 + 2 * 2 ^ 8 + 0x31)]

theorem test_premises_frameBinding :
    vget none bindState.cur.f 0 = none ∧
    okWith (recordAt bindState 0x100000 0x100000) (fun e => let q := frameRecOf 0x100000 e.2
      frameRecBad e.2 q == false && okWith (arenaLoc bindState q 0x100000) (fun l => l.kind == 1) && bindState.frameKindOk q 1 && !q.diff && okWith (enterRecord bindState e.1 q 0x100000) (fun _ => true)) = true ∧
    okWith (recordAt bindState 0x100040 0x100040) (fun e => let q := frameRecOf 0x100040 e.2
      frameRecBad e.2 q == false && okWith (arenaLoc bindState q 0x100040) (fun l => l.kind == 1) && bindState.frameKindOk q 1 && q.diff && okWith (adjointAt bindState (BitVec.ofNat 64 q.adj) 0x100040) (fun a =>
        adjointMismatch q a.2 == false && !(bindState.frame a.1).inDir && okWith (enterRecord bindState a.1 a.2 0x100040) (fun t =>
          okWith (enterRecord t e.1 { q with adjPa := a.1 } 0x100040) fun _ => true))) = true ∧
    (let s := adjointPages bindState
     okWith (recordAt s 0x100080 0x100080) (fun e => let q := frameRecOf 0x100080 e.2
      frameRecBad e.2 q == false && okWith (arenaLoc s q 0x100080) (fun l => l.kind == 2) && q.adjointFields && s.frameKindOk q 2 &&
        okWith (enterRecord s e.1 { q with adjoint := true } 0x100080) (fun _ => true)) = true) := by decide +kernel

/-! ### Premises: latches, handles, tapes -/

/-- s1 names latch 511, s2 latch 1 of core 2, s3 latch 0 under rotation, s4 to s7 hold 0, 128, 129 and 385; latch 511 expects 2 and has 2
arrivals, latch 1 of core 2 expects 1 and has none. -/
def latchState : State :=
  { inSlot 4 (holding [.s 1 511, .s 2 (BitVec.ofNat 64 (2 ^ 16 + 2 * 2 ^ 9 + 1)), .s 3 0, .s 5 128, .s 6 129, .s 7 385, .k .lb 384, .k .ldm1 127, .k .lrot 127]) with
    mem := putBytes (putBytes [] (latchPa 0 511) 8 0x20002) (latchPa 2 1) 8 1 }

theorem test_premises_latches :
    Released latchState ∧ latchState.granted = false ∧ latchState.iss.choice = none ∧
    (latchState.modIss fun i => { i with granted := [4] }).granted = true ∧
    (latchState.modIss fun i => { i with chosen := [(4, 3)] }).iss.choice = some 3 ∧
    okWith (latchName latchState (latchState.rdS 1) false) (fun e => e == (0, 511) &&
      ((latchState.latch e.1 e.2).toNat % 2 ^ 16 == 2 && (latchState.latch e.1 e.2).toNat / 2 ^ 16 % 2 ^ 16 == 2)) = true ∧
    okWith (latchName latchState (latchState.rdS 2) false) (fun e => e == (2, 1) &&
      ((latchState.latch e.1 e.2).toNat % 2 ^ 16 == 1 && (latchState.latch e.1 e.2).toNat / 2 ^ 16 % 2 ^ 16 == 0)) = true ∧
    okWith (latchName latchState (latchState.rdS 3) true) (fun e => e == (0, 511)) = true ∧ (latchState.core 0).sillUsed < 256 ∧
    okWith (latchCore latchState (latchState.rdS 1)) (fun g => g == 0 &&
      okWith (maskLatches latchState (latchState.rdS 1) false ((List.range 8).filter fun j => (1#8).getLsbD j)) (fun named =>
        ((List.range 8).map fun i => (latchState.cur.k.wpos + i) % 8).findSome? (fun j => named.find? fun e =>
          e.1 == j && latchState.latchDone g e.2) == some (0, 511))) = true ∧
    okWith (latchCore latchState (latchState.rdS 2)) (fun g => g == 2 &&
      okWith (maskLatches latchState (latchState.rdS 2) false ((List.range 8).filter fun j => (1#8).getLsbD j)) (fun named =>
        named.all fun e => !latchState.latchDone g e.2)) = true ∧
    ((latchState.rdS 5).toNat ≤ 128 ∧ (latchState.rdS 1).toNat % 2 ^ 9 + 1 ≤ 512 ∧ (latchState.rdS 4).toNat = 0 ∧ 128 < (latchState.rdS 6).toNat ∧
      512 < (latchState.rdS 7).toNat % 2 ^ 9 + (latchState.rdS 5).toNat) := by
  unfold Released; decide +kernel

theorem test_premises_latchOverflow :
    (let s : State := { latchState with mem := putBytes [] (latchPa 0 511) 8 0xFFFF0002 }
     (s.latch 0 511).toNat / 2 ^ 16 % 2 ^ 16 = 0xFFFF) := by decide +kernel

/-- h1 has 4 slots, of which 3 are filled across the wrap of its counts. -/
def handleState : State :=
  inSlot 4 { holding [.s 1 3, .s 2 4, .s 3 (BitVec.ofNat 64 (4 * 2 ^ 32 + 2 * 2 ^ 16 + 0xFFFF)), .s 4 1, .s 5 2] with
    h := (Vector.replicate 16 0).set 1 (BitVec.ofNat 64 (4 * 2 ^ 32 + 2 * 2 ^ 16 + 0xFFFF)) }

theorem test_premises_handles :
    let slots (v : Word64) : Nat := v.toNat / 2 ^ 32 % 2 ^ 16
    let filled (v : Word64) : Nat := (v.toNat / 2 ^ 16 % 2 ^ 16 + 2 ^ 16 - v.toNat % 2 ^ 16) % 2 ^ 16
    let v := handleState.cur.rdH 1
    ((handleState.rdS 3).toNat < 2 ^ 48 ∧ 1 ≤ slots (handleState.rdS 3) ∧ filled (handleState.rdS 3) ≤ slots (handleState.rdS 3)) ∧
    slots (handleState.rdS 1) = 0 ∧ slots v ≠ 0 ∧ (handleState.rdS 1).toNat ≤ filled v ∧ (handleState.rdS 4).toNat ≤ slots v - filled v ∧
    filled v < (handleState.rdS 2).toNat ∧ slots v - filled v < (handleState.rdS 5).toNat ∧ slots (handleState.cur.rdH 2) = 0 := by decide +kernel

/-- kdreg names a table of one region at 0x100100, whose adjoint is the record at 0x100080. -/
def regionState : State :=
  withWords (bindState.modCur fun k => k.apply (.k .dreg 0x100101)) 0x100100 [BitVec.ofNat 64 (2 * 2 ^ 56 + 0x200000), 64, 0x100080, 0]

theorem test_premises_reverseMode :
    regionState.cur.k.rev = false ∧ regionState.cur.trail = [] ∧ Released (reverseState 0 0) ∧ regionState.cur.k.dreg.toNat % 32 ≤ 16 ∧
    okWith (tableWords regionState 0x100100 1 0x100100) (fun ws => okWith (readRegions regionState 0x100100 ws 1) fun e => e.1.length == 1) = true ∧
    (reverseState 0 0).cur.k.rev = true ∧
    okWith (applyAll (reverseState 0 0) ((reverseState 0 0).implicitPanes.filter fun e => !e.2.blocks.isEmpty)) (fun _ => true) = true ∧
    tapeState.tapeOk = true ∧ regionState.tapeOk = false ∧
    okWith (pushTape { tapeState with free := 1 } (Config.openWord 0) [(BitVec.ofNat 64 (4 * 2 ^ 60), 5)]) (fun _ => true) = true ∧
    okWith (topEntry (reverseState (BitVec.ofNat 64 (4 * 2 ^ 60)) 5)) (fun e => e.1.toNat / 2 ^ 60 == 4) = true ∧
    okWith (topEntry (reverseState 0 5)) (fun e => e.1.toNat / 2 ^ 60 != 4) = true := by
  unfold Released; decide +kernel

/-! ### Premises: events of contexts, queues and channels -/

/-- A launch with some header words runs, at device cycle 3000; core 0 has contexts as given. Code at offset 0x1000 of its scratchpad is
bundles of idle slots. -/
def runState (words : List Word64) (c : Core) : State :=
  { ({} : State).setCore 0 c with launch := some { words, hdrAddr := 0 }, cycle := 3000, sclk := 4096 }

/-- A running context at the code of `runState`. -/
def codeCtx : Ctx := { run := .running, pc := BitVec.ofNat 64 (spadPa 0 0x1000) }

/-- A core with two contexts. -/
def coreWith (k0 k1 : Ctx) : Core := { ctxs := ((Vector.replicate 4 {}).set 0 k0).set 1 k1 }

theorem test_premises_bundleIssue :
    (let s := runState [] (coreWith codeCtx {})
     s.issueDue 0 0 = true ∧ (s.ctx 0 0).resume = none ∧ (s.ctx 0 0).repeats = none ∧ s.fetchHeader 0 (s.ctx 0 0).pc = .got 0 ∧ (s.ctx 0 0).skip 0 = none ∧ (s.ctx 0 0).nest = none ∧
     s.fetchBundle 0 (s.ctx 0 0).pc = .got ⟨0, [none, none, none, none, none], (s.ctx 0 0).pc + 4⟩) ∧
    (let s := runState [] (coreWith { codeCtx with rep := 1, decoded := some (codeCtx.pc, default) } {})
     s.issueDue 0 0 = true ∧ (s.ctx 0 0).resume = none ∧ (s.ctx 0 0).repeats = some default) ∧
    (let s := runState [] (coreWith { codeCtx with resume := some {} } {})
     s.issueDue 0 0 = true ∧ (s.ctx 0 0).resume = some {}) ∧
    (let s := runState [] (coreWith { codeCtx with pc := BitVec.ofNat 64 (spadPa 0 0xBF000) } {})
     s.issueDue 0 0 = true ∧ (s.ctx 0 0).resume = none ∧ (s.ctx 0 0).repeats = none ∧ s.fetchHeader 0 (s.ctx 0 0).pc = .fault cProt (BitVec.ofNat 64 (spadPa 0 0xBF000)) 0 7) := by decide +kernel

theorem test_premises_deliveries :
    ({ codeCtx with issueNo := 7, inflight := [⟨7, 6, 0, .s 1 1⟩] } : Ctx).resultsDue = true ∧
    (let l : Landing := ⟨0, 5, 1, 1, [.v 1 {}], false, false, none⟩
     let s := runState [] { coreWith codeCtx {} with clock := 5, sill := [l] }
     s.landingDue 0 = true ∧ (∀ l ∈ (s.core 0).dueLandings, l.ready = true) ∧
     (let s := runState [] { coreWith codeCtx {} with clock := 5, sill := [l, { l with late := true }] }
      s.landingDue 0 = true ∧ ∃ l ∈ (s.core 0).dueLandings, l.ready = false) ∧
     ({ coreWith codeCtx {} with clock := 5, sill := [{ l with late := true }], frozen := [.late] } : Core).lateMayArrive = true) := by decide +kernel

theorem test_premises_waits :
    (let s := runState [] (coreWith { codeCtx with run := .waiting, resume := some { waits := [(3, .engineIdle)] } } {})
     s.wakeDue 0 0 = true ∧ (s.ctx 0 0).resume = some { waits := [(3, .engineIdle)] }) ∧
    (let s := { runState [] (coreWith { codeCtx with run := .waiting, waitAt := 5, resume := some { waits := [(1, .wheel false)] } } {}) with cycle := 3072 }
     s.wheelDue 0 = true ∧ s.wheelNext 0 = some 0 ∧ (s.ctx 0 0).resume = some { waits := [(1, .wheel false)] }) ∧
    Freeze.walk 0 ∈ ({ coreWith codeCtx {} with frozen := [.walk 0] } : Core).frozen ∧
    (let s := runState [] { coreWith codeCtx codeCtx with quantum := 65536 }
     s.quantumOver 0 = true ∧ (s.core 0).nextRunning (s.core 0).cur = some 1) := by decide +kernel

/-- The header words of a deterministic launch with CKPTMAX 100. -/
def detWords : List Word64 := [BitVec.ofNat 64 (2 ^ 32), 0, 0, 0, 0, 0, 0, 0, 0, 100]

theorem test_premises_schedule :
    (let s := runState detWords (coreWith codeCtx {})
     s.scheduleReady 0 0 = true ∧ s.headerMissing 0 0 = false ∧ (s.ctx 0 0).resume = none ∧ (s.ctx 0 0).repeats = none ∧
     (s.ctx 0 0).nest = none ∧ s.fetchBundle 0 (s.ctx 0 0).pc = .got ⟨0, [none, none, none, none, none], (s.ctx 0 0).pc + 4⟩ ∧
     s.heldBundleDue 0 0 = false ∧ s.dueTwin 0 0 = none ∧ s.fetchHeader 0 (s.ctx 0 0).pc = .got 0 ∧
     (s.ctx 0 0).skip 0 = none) ∧
    (let s := runState detWords (coreWith { codeCtx with pc := 0x100000 } {})
     s.scheduleReady 0 0 = true ∧ s.headerMissing 0 0 = true) ∧
    (let s := runState detWords (coreWith { codeCtx with rep := 1, decoded := some (codeCtx.pc, default) } {})
     s.scheduleReady 0 0 = true ∧ s.headerMissing 0 0 = false ∧ s.heldBundleDue 0 0 = false ∧ s.dueTwin 0 0 = none ∧
     (s.ctx 0 0).repeats = some default) ∧
    (let s := runState detWords (coreWith codeCtx codeCtx)
     s.scheduleReady 0 0 = true ∧ s.headerMissing 0 0 = false ∧ s.heldBundleDue 0 0 = false ∧ s.dueTwin 0 0 = some 1) ∧
    (let s := runState detWords (coreWith { codeCtx with run := .waiting, resume := some { next := codeCtx.pc } } {})
     s.scheduleReady 0 0 = true ∧ s.headerMissing 0 0 = false ∧ s.heldBundleDue 0 0 = true) ∧
    (runState detWords { coreWith codeCtx {} with clock := 101 }).ckptOverrun 0 0 = true ∧
    (let s := runState [0, 0, 0, 0, 0, 0, 0, 0, 0, 100] { coreWith codeCtx {} with clock := 101 }
     (s.modLaunch fun l => { l with preempt := true }).timeoutDue 0 0 = true) := by decide +kernel

/-- A continuation record of priority 2, enqueued in cycle 5. -/
def record2 : QRec := ⟨[0x1000, 7, 0, 0, 0, 0, 0, 0], 2, 5, 5, false, .cluster, false⟩

theorem test_premises_queues :
    (let s := (runState [] {}).setCluster 0 { released := [.ctx 0 0], conts := [record2] }
     (s.cluster (s.whoCluster (.ctx 0 0))).released.contains (.ctx 0 0) = true ∧ s.pickupDue 0 = true ∧
     bestRec s.det (s.takeable 0) = some (0, record2, 0, 0) ∧ s.ages record2 = false ∧ ({ s with cycle := 65541 } : State).ages record2 = true) ∧
    (let c : Cluster := ({} : Cluster).setFault 5 { valid := true, gen := 9, record := some record2 }
     let s := { (runState [] {}).setCluster 2 c with ports := [(12, { st := .up })] }
     (c.fault 5).record = some record2 ∧ s.recordDue 2 = some 5 ∧ s.hostReaches = true ∧
     s.faultOf (BitVec.ofNat 64 ((BitVec.ofNat 64 (faultTag 2 5 9)).toNat % 2 ^ 63)) = some (2, 5)) := by decide +kernel

/-- Channel 1 of core 0 stands on the record at offset 0x2000 of its scratchpad: a plain copy of 128 bytes within the scratchpad, in
sectors of 64 bytes, owned by the channel or not. -/
def copyWords (own : Bool) (kind : Nat) : List Word64 :=
  [if own then 0x20 else 0, BitVec.ofNat 64 kind, BitVec.ofNat 64 (spadPa 0 0x3000), BitVec.ofNat 64 (spadPa 0 0x4000), 128, 0, 0, 0]

def channelState (own : Bool) (kind : Nat) (k : Chan) : State :=
  { (runState [] (({} : Core).setChan 1 { k with st := .walking, record := spadPa 0 0x2000 })) with
    mem := ((copyWords own kind).zipIdx).foldl (fun m e => putBytes m (spadPa 0 0x2000 + 8 * e.2) 8 e.1.toNat) [] }

theorem test_premises_channels :
    (let s := channelState false 0 {}
     (s.chan 0 1).active = true ∧ (s.chan 0 1).words = none ∧ okWith (recLoc s 0 1) (fun l => !((s.blockWords l.key).getD 0 0).getLsbD 5) = true) ∧
    (let s := channelState true 0 {}
     okWith (recLoc s 0 1) (fun l => let ws := s.blockWords l.key
       (ws.getD 0 0).getLsbD 5 && l.wr && !recFieldsBad ws && !recShapeBad (s.chan 0 1) ws && !(s.core 0).recSlotsBad ws && recKind ws == 0) = true) ∧
    (let s := channelState true 6 {}
     okWith (recLoc s 0 1) (fun l => ((s.blockWords l.key).getD 0 0).getLsbD 5 && recFieldsBad (s.blockWords l.key)) = true) ∧
    (let s := channelState true 0 { words := some (copyWords true 0), sector := 1 }
     s.sectorLeft 0 1 = true ∧ (s.chan 0 1).flight = [] ∧ s.sectorWaits 0 1 = true ∧ okWith (sectorStep s 0 1) (fun _ => true) = true ∧
     okWith (blockLocs s 0 1 (spadPa 0 0x3040) false 1) (fun ls => okWith (sourceBlocks s 0 1 ls) fun vs => vs.length == 1) = true ∧
     okWith (blockLocs s 0 1 (spadPa 0 0x4040) true 1) (fun ls => ls.length == 1) = true) ∧
    (let s := channelState true 0 { words := some (copyWords true 0), sector := 2 }
     s.recordDone 0 1 = true ∧ (s.chan 0 1).leave = false ∧ s.recordKeys 0 (s.chan 0 1).record ≠ []) ∧
    (channelState true 0 { words := some (copyWords true 0), flight := [⟨false, [spadPa 0 0x4000], 64, 1, 0, 0⟩] }).sectorLeft 0 1 = true ∧
    ((channelState true 0 { words := some (copyWords true 0), flight := [⟨false, [spadPa 0 0x4000], 64, 1, 0, 0⟩] }).chan 0 1).flight ≠ [] ∧
    (let f : Flight := ⟨true, [accPa 0 0x2000], 64, 1, 0, 0⟩
     let s := (channelState true 0 { words := some (copyWords true 0), flight := [f] }).modCore 0 fun c => { c with queue := [bf16Op] }
     s.flightOwned f = true ∧ (s.chan 0 1).flight.filter s.flightOwned = [f]) := by decide +kernel

theorem test_premises_knocksAndRestripes :
    (let kn : Knock := ⟨1, 2, 3⟩
     let s := { runState [] {} with knocksOut := [(0, kn)] }
     (0, kn) ∈ s.knocksOut ∧ (s.core 0).armedCtx = none ∧ (s.core 0).knocks.length < 8 ∧ s.preempting = false ∧
     (coreWith { armed := true } {}).armedCtx = some 0 ∧ 8 ≤ ({ knocks := List.replicate 8 kn } : Core).knocks.length) ∧
    (let m : Migration := ⟨0x10000, 0, 0x2000, 0x11, 0x20000, 0, false, 0, false, 0, 1⟩
     let s := { channelState true 0 { words := some (copyWords true 0), sector := 2, restripe := some 0x10000 } with migrations := [m] }
     s.moverReaches = true ∧ s.migrationAt 0x10000 = some m ∧ m.cutover = false ∧ s.pageCopied m = true ∧ s.taskNames { m with cutover := true } = false) := by decide +kernel

/-! ### Premises: engines, tasks, collectives -/

theorem test_premises_fillsAndDrains :
    (let j : FillJob := ⟨0, 0, 0, 0, List.replicate 32 ⟨1, 2⟩, 0⟩
     let s := runState [] (({} : Core).setSlot 4 { st := .filling, job := some j })
     ((s.core 0).slot 4).job = some j ∧ s.engineFrozen 0 = false ∧ s.soundSrc (.fill 0 4) = true ∧ okWith (fillDesc j.blocks 0) (fun d => d == 2) = true) ∧
    (let d : Drain := { acc := 1, dst := .mem 0, ctl := 2, ctx := 0, slot := 3, pc := 0 }
     let s := runState [] { ({} : Core) with drains := [d], clock := 9 }
     (s.core 0).drains = [d] ∧ s.drainMayStart 0 = true ∧ s.det = false ∧
     (let s := runState [] { ({} : Core) with port := some (d, 9), clock := 9 }
      (s.core 0).port = some (d, 9) ∧ s.drainDue 0 = true)) := by decide +kernel

theorem test_premises_matrixStart :
    (let s := runState [] { ({} : Core) with queue := [bf16Op], clock := 9, leave := true, slots := [(0, { st := .ready }), (1, { st := .ready })] }
     (s.core 0).queue = [bf16Op] ∧ s.headDue 0 = true ∧ (s.core 0).headBlocked bf16Op = false ∧ s.startFault 0 bf16Op = none ∧
       (s.core 0).leave = true ∧ ({ s.core 0 with leave := false }.needsLeave bf16Op = false)) ∧
    (let o := { bf16Op with at_ := 64, cold := true }
     let s := (runState [] { ({} : Core) with queue := [o], clock := 99, slots := [(0, { st := .ready }), (1, { st := .ready })] }).setCluster 0
       { asks := [.engine 5] }
     s.headDue 0 = true ∧ (s.core 0).headBlocked o = false ∧ s.startFault 0 o = none ∧ (s.core 0).needsLeave o = true ∧
       s.leaveNow 0 = false ∧ (s.core 0).leaveAsked = false ∧ (s.cluster 0).asks = [.engine 5] ∧ (s.cluster 0).hold < (s.cluster 0).limit) ∧
    (let s := runState [] { leave := true, clock := 64 }
     (s.core 0).leave = true ∧ (s.core 0).queue = [] ∧ (s.core 0).array = none ∧ (s.core 0).drains = [] ∧ s.taskOn 0 = none ∧ (s.core 0).idleSince + 64 ≤ s.engineClock 0) ∧
    ({ runState [BitVec.ofNat 64 (2 ^ 33)] {} with logctl := BitVec.ofNat 64 (2 ^ 17), cycle := 2 ^ 48 } : State).classRunOver 0 = true := by
  decide +kernel

/-- A task of FP64 with two tiles of operands and its rows in scratchpad 0. -/
def task1 : Task :=
  { words := [BitVec.ofNat 64 (7 * 2 ^ 48), BitVec.ofNat 64 (2 ^ 16 + 1), BitVec.ofNat 64 (spadPa 0 0), BitVec.ofNat 64 (spadPa 0 0x1000),
      BitVec.ofNat 64 (spadPa 0 0x2000), BitVec.ofNat 64 (256 * 2 ^ 32 + 1), 0, 0], addr := 0x100000, core := 0, ctx := 0, pc := 0 }

/-- A task in queue 2 of cluster 0, which core 5 hosts. -/
def taskState (t : Task) : State :=
  ({ ({} : State).setCore 5 { hosting := true, clock := 10000 } with launch := some { words := [], hdrAddr := 0 }, cycle := 10000 }).setCluster 0
    { ({} : Cluster).setQueue 2 [t] with tlb := [page 0x100000 0 false] }

/-- The page of `task1`'s record, as cluster 0 holds it. -/
def taskPage : Extent := ⟨0x100000, 64, (page 0x100000 0 false).entry, 0⟩

theorem test_premises_taskEvents :
    okWith ((taskState task1).taskHome 0 2 task1) (fun e => e == taskPage) = true ∧ (taskState task1).leaveNow 0 = true ∧
    (taskState task1).dispatchable 0 2 = some (task1, 5) ∧
    (taskState { task1 with leave := true }).dispatchable 0 2 = some ({ task1 with leave := true }, 5) ∧
    (let t := { task1 with dispatched := true, host := 5 }
     let s := taskState t
     okWith (s.taskHome 0 2 t) (fun e => e == taskPage) = true ∧
     (s.cluster 0).givenTo (5 % 96) = some (2, t) ∧ s.runMayStart 5 t = true ∧ (t.word 4).toNat % 64 = 0 ∧ t.outside = none ∧
     s.extents 0 5 t.declared = .ok [] ∧ s.extentCount [] ≤ 32) ∧
    (let t := { task1 with dispatched := true, built := true, host := 5, home := some taskPage }
     let s := (taskState t).modCore 5 fun c => c.setTile 15 { mode := 1 }
     t.home = some taskPage ∧
     (s.cluster 0).runningOn (5 % 96) = some (2, t) ∧ s.taskDue 0 5 = true ∧ (t.word 5).getLsbD 17 = false ∧ (t.word 1).getLsbD 63 = false ∧
     okWith (s.taskSteps 5 t 0 t.kt) (fun _ => true) = true) := by decide +kernel

/-- A collective record of two participants with 128 bytes of FP32, sent by port 1 and received by port 0, with or without a signal. -/
def collJob (sig : Word64) : CollJob :=
  { words := [BitVec.ofNat 64 (5 * 2 ^ 48 + 2 ^ 32 + 2 * 2 ^ 16 + 2 * 2 ^ 8), 0x100000, 0x101000, 128, sig, 0, 0, 0], addr := 0x100000, core := 0,
    ctx := 0 }

theorem test_premises_collectiveEvents :
    (let j := collJob 0x102000
     let s := (paged {}).setColl 0 { jobs := [j] }
     (s.coll 0).running = none ∧ (s.coll 0).jobs = [j] ∧ s.signalDue 0 = true ∧ j.waitsSig = false ∧
     okWith (s.putCollStatus 0 j 2) (fun u => okWith ((u.setColl 0 ((u.coll 0).modCurrent fun j => { j with waitsSig := true })).collSignalWord 0 j)
       fun _ => true) = true) ∧
    (let j := collJob 0
     let s := { (paged {}).setColl 0 { jobs := [j] } with ports := [(0, { st := .up }), (1, { st := .up })] }
     (s.coll 0).running = none ∧ s.startDueColl 0 = true ∧ s.collPortDown j.words = none ∧
     okWith (s.putCollStatus 0 j 3) (fun _ => true) = true) ∧
    (let j := { collJob 0 with built := true, got := [(1, 1)] }
     let s := (paged {}).setColl 0 { running := some j }
     okWith (s.putCollStatus 0 j 4) (fun _ => true) = true ∧ (s.coll 0).running = some j ∧ s.collDone 0 = true ∧ (j.words.getD 6 0).getLsbD 63 = false) := by decide +kernel

/-! ### Premises: launches, service, board, ports -/

theorem test_premises_launchRegister :
    (let s : State := { ready := true, ports := [(12, { st := .up })] }
     s.hostReaches = true ∧ s.ready = true ∧ s.pend = none ∧ s.run = false ∧ s.startDue = false ∧ s.lqhead = s.lqtail ∧
     ({ s with lqtail := 1 } : State).lqhead ≠ ({ s with lqtail := 1 } : State).lqtail ∧ ({ s with startDue := true } : State).startDue = true ∧ ({ s with ready := false } : State).hostReaches = true ∧
     ({ s with pend := some 0 } : State).pend ≠ none) ∧ ({} : State).hostReaches = false := by
  decide +kernel

/-- The header at LQHEAD and the start vector are all zeros; then a header with a reserved bit. -/
theorem test_premises_launchStart :
    let u : State := { ready := true, startDue := true, lqtail := 1 }
    u.startDue = true ∧ u.run = false ∧ u.applyNext = u ∧ headerBad (u.physWords 0 32) = false ∧
    headerBad ((withWords u 0 [0x40]).physWords 0 32) = true ∧ serviceEntry (List.replicate 1536 0) = none ∧
    vectorBad false (List.replicate 1536 4) = false := by decide +kernel

/-- Port 0 is up, with a write packet of channel 1 of core 0 unacknowledged or with none. -/
def endingState (s : State) (wrote : Bool) : State :=
  let sent : List (Nat × OutPacket) := [(0, ⟨writePacket 0x1000 [{}] true, .chan 0 1 0x2000, false⟩)]
  let port : Port := { st := .up, unacked := if wrote then sent else [] }
  { s with ports := [(0, port)] }

theorem test_premises_launchEnd :
    (let s := endingState (runState [] {}) false
     s.retireDue = true ∧ s.strayData = none ∧ s.writesDone = true ∧ (s.modLaunch fun l => { l with retiring := true }).retired = true) ∧
    (let s := endingState (runState [] {}) true
     s.retireDue = true ∧ s.strayData = none ∧ s.writesDone = false) ∧
    (let f : FaultRec := { code := cProt, gcore := 1, cycle := 5 }
     let l : Launch := { words := [], hdrAddr := 0 }
     let s := { runState [] {} with faults := [{ f with cycle := 6, gcore := 0 }, f] }
     s.launch = some l ∧ l.shutting = none ∧ firstFault s.faults = some f ∧ s.pend = none ∧ l.hdrAddr + 256 ≤ 0x012000000000 ∧
     s.logFaults.stopAll.writesDone = true ∧ (endingState s true).logFaults.stopAll.writesDone = false ∧
     (let k := { l with shutting := some (f, 0) }
      let t := { s with launch := some k }
      t.launch = some k ∧ k.shutting = some (f, 0) ∧ t.writesDone = true)) := by decide +kernel

/-- A device that the host reaches. -/
def linkHost : State := { ports := [(12, { st := .up })] }

/-- An image without contexts, ranges and cores at 0x3000: the header copy and the directory, and the device state after latch areas of zeros. -/
def imageState : State :=
  let dev := DeviceImage.codec.put (({} : State).deviceImage { words := [], hdrAddr := 0, seed := 5 } [])
  let n := (dev.length + 7) / 8 + 1
  withWords (withWords {} 0x3100 ((directoryWords ((512 + latchAreas) / 64 + n) 7 9 [(512, 0), (512, 0), (512, 1536), (512 + latchAreas, n)])))
    (0x3000 + 512 + latchAreas) dev

/-- What the image holds is what was put into it. -/
theorem test_imageReadsBack : (imageState.imageAt 0x3000).map (fun m => (m.sclk, m.cycle, m.ctxs.length, m.device.launch.seed, m.device.cores.length)) =
    some (7, 9, 0, 5, 0) := by decide +kernel

theorem test_premises_services :
    (runState detWords {}).frameEndDue = true ∧
    ({ runState [BitVec.ofNat 64 (2 ^ 33)] {} with logctl := BitVec.ofNat 64 (2 ^ 16), cycle := 3000 } : State).droopDue 15 = true ∧
    (let l : Launch := { words := detWords, hdrAddr := 0 }
     linkHost.hostReaches = true ∧ (runState detWords {}).launch = some l ∧ { l with awaitFinish := true }.awaitFinish = true ∧ l.awaitFinish = false ∧ (runState detWords {}).pstate ≠ .saving ∧ (runState detWords {}).det = true) ∧
    (let s : State := { linkHost with mem := imageState.mem }
     s.hostReaches = true ∧ s.launch = none ∧ s.startDue = false ∧ ({ s with startDue := true } : State).startDue = true ∧ s.pstate ≠ .saving ∧
     s.running = false ∧ s.pend = none ∧ (s.imageAt 0x3000).isSome = true ∧ headerBad (s.physWords 0x3000 32) = false ∧
     linkHost.imageAt 0x3000 = none ∧ headerBad ((withWords s 0x3000 [0x40]).physWords 0x3000 32) = true) ∧
    (let s := (runState [] (coreWith { run := .held, resume := some {} } {})).setFrame 0x2000 { glazeWait := some (0, 0) }
     (s.frame 0x2000).glazeWait = some (0, 0) ∧ (s.ctx 0 0).resume = some {} ∧ s.iss.active = false ∧ (s.ctx 0 0).run = .held ∧ (s.ctx 0 0).walks = []) := by decide +kernel

/-- A save is due: context 0 has stopped with a checkpoint table. -/
def savingState (ckpt : Nat) : State :=
  (runState [] (coreWith { run := .running, stopped := true, ckpt := BitVec.ofNat 64 ckpt } {})).modLaunch fun l => { l with preempt := true }

/-- No table; one that cannot be read, in an accumulator window; one on an absent page; one whose walk is malformed; a channel to be cancelled. -/
theorem test_premises_save :
    (let s := savingState 0
     s.preemptSaveDue = true ∧ s.activeChans = [] ∧ s.badTable = none ∧ s.hostDoes 2 = false ∧ s.pend = none ∧
     (s.modLaunch fun l => { l with fmode := 4 }).hostDoes 2 = true) ∧
    (let s := savingState (accPa 0 0)
     s.preemptSaveDue = true ∧ s.badTable = some ((some (0, 0), 0, accPa 0 0), .bad)) ∧
    (let s := savingState 0x100000
     s.preemptSaveDue = true ∧ (s.badTable.map fun b => match b.2 with | .absent _ => true | _ => false) = some true) ∧
    (let s := withWords (savingState 0x100000) 0 [BitVec.allOnes 64]
     s.preemptSaveDue = true ∧ (s.badTable.map fun b => match b.2 with | .malformed va _ => va == 0x100000 | _ => false) = some true) ∧
    (let s := (channelState true 0 {}).modLaunch fun l => { l with preempt := true }
     s.preemptSaveDue = true ∧ s.goingChans = [(0, 1)]) := by decide +kernel

theorem test_premises_ports :
    (let p : Port := { st := .up, width := 16 }
     p.failmask.testBit 15 = false ∧ p.half = 0 ∧ ({ p with half := 2 } : Port).half = (if 15 < 16 / 2 then 1 else 2)) ∧
    (let s : State := { uptime := 12000, ports := [(0, { st := .up, awaitHand := true }), (1, { st := .up, unacked := [(0, ⟨readPacket 0, .none, false⟩)] }),
      (2, { st := .up, sinceAck := 1 }), (3, { st := .up, sendq := [⟨readPacket 0, .none, false⟩] }), (4, { st := .retraining })] }
     (s.port 0).awaitHand = true ∧ (s.port 1).awaitHand = false ∧ (s.port 3).awaitHand = false ∧ s.hostDoes 4 = false ∧ (s.port 4).targetHalf = 0 ∧
     (let p : Port := { st := .retraining, targetHalf := 1, failmask := 2 ^ 15 }
      p.targetHalf ≠ 0 ∧ p.failmask.testBit (8 + 7) = true ∧ (∀ n < 8, p.failmask.testBit n = false) ∧
      (let m := 2 ^ 7 + 2 ^ 15
       m.testBit 7 = true ∧ m.testBit (8 + 7) = true)) ∧
     ({ st := .up, resend := [(0, ⟨readPacket 0, .none, false⟩)] } : Port).resend = [(0, ⟨readPacket 0, .none, false⟩)] ∧ 12000 ≤ s.uptime - (s.port 0).since ∧ (s.port 1).unacked ≠ [] ∧ 12000 ≤ s.uptime - (s.port 1).progressAt ∧
     (s.port 1).episodes < 16 ∧ 0 < (s.port 2).sinceAck ∧ 1500 ≤ s.uptime - (s.port 2).sentAt ∧ (s.port 3).sendq ≠ [] ∧ (s.port 3).resend = [] ∧
     (s.port 3).unacked.length < 256 ∧ (s.port 4).st = .retraining) := by decide +kernel

/-- Port 12 is up: packets to main memory pass. -/
def linkState : State := { ports := [(12, { st := .up }), (0, { st := .up })] }

/-- A packet is in sequence at a fresh port, or bears another number, and of a type. -/
def inOrder (ty : Nat) (p : Packet) (seq : Nat := 0) : Bool :=
  !p.discarded && p.ty == ty && !p.ackV && !p.nak && p.seq == seq

/-- A signed packet is in order where its own fields are. -/
theorem inOrder_sign {ty seq : Nat} {p : Packet} (h : p.data.length = p.nData)
    (g : (p.nDataOk && p.zerosOk && p.ty == ty && !p.ackV && !p.nak && p.seq == seq) = true) : inOrder ty p.sign seq = true := by
  have e1 : p.sign.ty = p.ty := sign_bits p 15 12 (by decide)
  have e2 : p.sign.seq = p.seq := sign_bits p 11 0 (by decide)
  have e3 : p.sign.ackV = p.ackV := sign_getLsbD p 28 (by decide)
  have e4 : p.sign.nak = p.nak := sign_getLsbD p 29 (by decide)
  simpa [inOrder, sign_discarded p h, e1, e2, e3, e4] using g

theorem test_premises_packetOrder :
    inOrder 0 (Packet.sign ⟨header 0 0 false 0 0 0, []⟩) = true ∧ inOrder 1 (writePacket 0x1000 [{}] true).sign = true ∧
    inOrder 2 (readPacket 0x1000).sign = true ∧ inOrder 3 (responsePacket 0 [{}]).sign = true ∧ inOrder 4 (knockPacket 0 0).sign = true ∧
    inOrder 5 (Packet.sign ⟨header 5 3 true 9 0 0, [0, 0, 0]⟩) = true ∧ inOrder 6 (abortPacket 5).sign = true := by
  refine ⟨?_, ?_, ?_, ?_, ?_, ?_, ?_⟩
  all_goals exact inOrder_sign (by decide +kernel) (by decide +kernel)

/-- Acknowledgements: one that takes a packet, one that takes none, NAK, and the end of a handshake. -/
theorem test_premises_acks :
    (let p := Packet.sign ⟨header 0 0 false 0 0 0 + 2 ^ 28 + 3 * 2 ^ 16, []⟩
     p.discarded = false ∧ p.ty = 0 ∧ p.ackV = true ∧ p.nak = false ∧ p.ackSeq = 3) ∧
    (let p := Packet.sign ⟨header 0 0 false 0 0 0 + 2 ^ 29, []⟩
     p.discarded = false ∧ p.ty = 0 ∧ p.ackV = false ∧ p.nak = true) ∧
    (let o : OutPacket := ⟨readPacket 0, .none, false⟩
     let t : Port := { st := .up, unacked := [(2, o), (3, o)] }
     t.st = .up ∧ t.awaitHand = false ∧ t.unacked = [(2, o)] ++ (3, o) :: [] ∧ (∀ e ∈ [(2, o)], e.1 ≠ 3) ∧ t.resend = [] ∧ t.unacked ≠ [] ∧
     t.episodes < 16 ∧ 16 ≤ ({ t with episodes := 16 } : Port).episodes ∧ ({ t with resend := [(2, o)] } : Port).resend ≠ [] ∧
     ({ t with awaitHand := true } : Port).awaitHand = true ∧ (∀ e ∈ ({ st := .up } : Port).unacked, e.1 ≠ 3)) := by
  refine ⟨?_, ?_, by decide +kernel⟩
  · refine ⟨(sign_discarded _ (by decide +kernel)).trans (by decide +kernel), (sign_bits _ 15 12 (by decide)).trans (by decide +kernel),
      (sign_getLsbD _ 28 (by decide)).trans (by decide +kernel), (sign_getLsbD _ 29 (by decide)).trans (by decide +kernel),
      (sign_bits _ 27 16 (by decide)).trans (by decide +kernel)⟩
  · refine ⟨(sign_discarded _ (by decide +kernel)).trans (by decide +kernel), (sign_bits _ 15 12 (by decide)).trans (by decide +kernel),
      (sign_getLsbD _ 28 (by decide)).trans (by decide +kernel), (sign_getLsbD _ 29 (by decide)).trans (by decide +kernel)⟩

/-- After a gap of 255, and a duplicate: a fresh port expects 0. -/
theorem test_premises_packetsOutOfOrder :
    inOrder 1 (Packet.sign ⟨header 1 2 true 0 0x1000 0 + 255, [0, 0]⟩) 255 = true ∧ inOrder 2 (Packet.sign ⟨header 2 0 false 0 0x1000 0 + 1, []⟩) 1 = true ∧
    inOrder 3 (Packet.sign ⟨header 3 2 false 0 0 0 + 1, [0, 0]⟩) 1 = true ∧ inOrder 4 (Packet.sign ⟨header 4 0 false 0 0 0 + 1, []⟩) 1 = true ∧
    inOrder 5 (Packet.sign ⟨header 5 3 true 9 0 0 + 256, [0, 0, 0]⟩) 256 = true ∧
    inOrder 6 (Packet.sign ⟨header 6 0 false 5 0 0 + 4095, []⟩) 4095 = true := by
  refine ⟨?_, ?_, ?_, ?_, ?_, ?_⟩
  all_goals exact inOrder_sign (by decide +kernel) (by decide +kernel)

/-- A packet whose CRC is 0 is discarded. -/
theorem test_premises_packets :
    (readPacket 0).discarded = true ∧ (linkState.applyWrite 12 (writePacket 0x1000 [{}] true)).2 = false ∧
    (linkState.readReply 12 0x1000).2 = false ∧ linkState.inboundKeys 0 0x1000 true 1 = none ∧
    (linkState.collArrive 0 ⟨header 5 3 true 9 0 0, [0, 0, 0]⟩).isSome = true ∧
    ((runState [] {}).setColl 0 { jobs := [collJob 0] }).collOfTag 5 = some (0, collJob 0) ∧ (runState [] {}).shuttingDown = false ∧
    (linkState.port 12).st = .up ∧ (linkState.port 12).expected = 0 ∧ (linkState.port 12).awaitHand = false ∧
    (linkState.port 12).sinceAck + 1 < 16 := by decide +kernel

theorem test_premises_host :
    linkHost.hostReaches = true ∧ linkHost.running = false ∧ ({} : State).hostReaches = false ∧
    (let s := { runState [] {} with ports := linkHost.ports }
     s.hostReaches = true ∧ s.running = true) ∧ ({ atreq := some 64 } : State).atreq = some 64 ∧
    (({} : State).stage = 0 ∧ ({} : State).ready = false ∧ ({} : State).sigfail = false ∧ ({} : State).badstk = 0 ∧ ({} : State).run = false) := by
  decide +kernel

/-! ### Premises: encoding, the step, memory, results in flight, frames, traps -/

theorem test_premises_encoding :
    (Instr.add 3 1 2).wellFormed = true ∧ encode (.add 3 1 2) = some (.S, 0x04304200, []) ∧
    (Instr.movi 5 0x123456789).wellFormed = true ∧ encode (.movi 5 0x123456789) = some (.S, 0x5C556789, [0x1234]) ∧
    decodeSlot .S 0x04304200#32 [] = .ok (.add 3 1 2) ∧ decodeSlot .S 0#32 [] = .ok .nop := by decide +kernel

theorem test_premises_step :
    (let w : SlotWord := ⟨0x04304200, []⟩
     let s : State := (inSlot 0 {}).modIss fun i => { i with pending := [(0, w)] }
     decodeSlot (Slot.ofIndex 0) w.word w.ext = .ok (.add 3 1 2) ∧ (∀ e ∈ s.iss.pending, (slotInstr e.1 e.2).isSome = true) ∧ goes (step s) = true ∧
       goes (exec (.add 3 1 2) { s with iss := { s.iss with slot := 0, cur := w, pending := [] } }) = true ∧ Memory.wf s.mem) ∧
    decodeSlot (Slot.ofIndex 0) 0x04304201#32 [] = .error .reservedValue ∧
    (({ inputs := [.railFault] } : State).iss.pending = [] ∧ ({ inputs := [.railFault] } : State).inputs = [.railFault]) ∧
    decodeTableWord 32 0x04304200 = some (.add 3 1 2) := by decide +kernel

/-- ST.G in slot A waits for a walk, and PSEAL in slot X for it; a reversed load waits for its page, and DMODE.FWD for it. -/
theorem test_premises_heldBack :
    (let a : SlotWord := (encode (.stG 1 2 0 0 false)).elim default fun e => ⟨e.2.1, e.2.2⟩
     let s : State := (inSlot 1 {}).modIss fun i => { i with pending := [(4, default)], undone := [(1, a)], walks := [⟨1, 0, 1, 0, 0, 0⟩] }
     s.iss.undone ≠ [] ∧ s.iss.chains = none ∧ s.iss.heldBack (.pseal 0) = true ∧ s.iss.heldBack (.larr 1 false) = false) ∧
    (let a : SlotWord := (encode (.ldL 1 2 0 40)).elim default fun e => ⟨e.2.1, e.2.2⟩
     let s : State := (inSlot 1 {}).modIss fun i => { i with pending := [(4, default)], undone := [(1, a)], absent := [⟨1, 0, 0, 0, 0, 0⟩] }
     s.iss.heldBack .dmodeFwd = true ∧ s.iss.heldBack (.pseal 0) = false) := by decide +kernel

theorem test_premises_memory :
    Memory.wf [(3, 1), (7, 255)] ∧ geoValid 0xFFF70000 = true ∧ 0 < geoReach 0xFFF70000 ∧ geoReach 0xFFF70000 - 1 < geoReach 0xFFF70000 ∧
    geoValid 0x00100000 = true ∧ 805306367 < geoReach 0x00100000 := by decide +kernel

theorem test_premises_delivery :
    (let e : Inflight := ⟨5, 4, 0, .s 3 7⟩
     let f : Inflight := ⟨5, 2, 0, .s 3 9⟩
     let due := ({ inflight := [e, f, ⟨6, 4, 0, .a 3 7⟩] } : Ctx).inflight.filter fun e => decide (e.due ≤ 5)
     (e ∈ due ∧ e.upd.dest = some (0, 3) ∧ ∀ g ∈ due, g.upd.dest = some (0, 3) → g ≠ e → g.issue < e.issue) ∧
     (∀ g ∈ due, g.upd.dest ≠ some (1, 3)) ∧ (∀ g ∈ due, ∀ b, g.upd ≠ .statOr b ∧ g.upd ≠ .statClear b)) ∧
    (let low : Inflight := ⟨9, 4, 0, .s 3 7⟩
     let u : Upd := .s 3 9
     let rival (e : Inflight) (slot : Nat) : Bool := e.issue == 4 && e.slot != slot && e.upd.dest == some (0, 3)
     u.dest = some (0, 3) ∧ u.discarded = false ∧ rival low 0 = false ∧ rival low 1 = true ∧ low.slot < 1 ∧
       (rival { low with slot := 2 } 1 = true ∧ 1 < ({ low with slot := 2 } : Inflight).slot)) := by
  refine ⟨⟨by decide +kernel, by decide +kernel, ?_⟩, by decide +kernel⟩
  intro g hg b
  simp at hg
  obtain rfl | rfl := hg <;> simp

theorem test_premises_frames :
    resultOf (inSlot 0 {}).cur (.add 3 1 2) = some (0, 3) ∧ resultOf (inSlot 2 {}).cur (.vadd 31 1 2 0 0 true false) = some (2, 31) ∧
    (inSlot 0 {}).iss.x < 4 ∧ goes (exec (.add 3 1 2) (inSlot 0 {})) = true ∧ goes (exec (.vadd 31 1 2 0 0 true false) (inSlot 2 {})) = true ∧
    (encode (.add 3 1 2)).isSome = true ∧ mayStore (.add 3 1 2) = false := by decide +kernel

/-- The check of an access fails where it stops short. -/
theorem test_premises_storeFrames :
    okWith (slotAccess accessState reachStore .write (accessState.ea 7 0 8) 8) (fun _ => true) = false ∧
    goes (exec (.st 1 7 0 3) accessState) = true ∧ goes (exec (.st 1 2 0 3) accessState) = true ∧ goes (exec (.stV 1 2 0) accessState) = true ∧
    goes (exec (.stD 1 2 0) accessState) = true ∧ goes (exec (.st 1 3 0 3) tapeState) = true ∧ goes (exec (.stV 1 3 0) tapeState) = true ∧
    okWith (slotAccess tapeState reachStore .write 0x200000 8) (fun l => okWith (plainOnly tapeState l 0x200000) fun _ => true) = true ∧
    goes (exec (.scat 2 1 1 true 1) (indexState 0 64)) = true ∧
    okWith (gatherLanes (indexState 0 4) ((indexState 0 4).rdA 1) ((indexState 0 4).rdV 1).data 8 .write ((indexState 0 4).rdM 1) (List.range 8))
      (fun _ => true) = false ∧ goes (exec (.scat 2 1 1 true 1) (indexState 0 4)) = true := by decide +kernel

theorem test_premises_cellFrames :
    goes (exec (.awrOw 1 1 0 false false false) cellState) = true ∧ goes (exec (.awrAdd 1 1 0 false false true) cellState) = true ∧
    goes (exec (.acas 1 1 2 false) cellState) = true ∧ goes (exec (.ast 3 1 0) cellState) = true ∧ goes (exec (.spill 2 3 1 0) spillState) = true ∧
    okWith (spillPlace spillState 0 64 .write) (fun p => match p with | .carve .. => true | .over .. => false) = true ∧
    okWith (spillPlace spillState 128 64 .write) (fun p => match p with | .carve .. => false | .over .. => true) = true ∧
    okWith (spillPlace spillState 4 64 .write) (fun _ => true) = false ∧ goes (exec (.aclr 15 0 0) cellState) = true ∧
    goes (exec (.larr 1 false) latchState) = true ∧ okWith (latchName latchState (BitVec.ofNat 64 (2 ^ 16 + 96 * 2 ^ 9)) true) (fun _ => true) = false := by decide +kernel

/-- The latch that WAITANY chooses, a pane store with a tape and without, records, bindings and a channel that is cancelled. -/
theorem test_premises_recordFrames :
    goes (exec (.waitany 2 1 true false 1) latchState) = true ∧ goes (exec (.waitany 2 2 true false 1) latchState) = true ∧
    okWith (latchCore latchState (BitVec.ofNat 64 (2 ^ 16 + 96 * 2 ^ 9))) (fun _ => true) = false ∧
    goes (exec (.stG 1 3 0 0 false) paneState) = true ∧ goes (exec (.stGBlk 1 3 0 1 false) paneState) = true ∧
    okWith (boundOf paneState 1) (fun _ => true) = false ∧ okWith (paneLoc paneState (paneState.frame 0x2000) 0x100000 4) (fun _ => true) = false ∧
    okWith (tapeLocs tapeState .write 1 tapeState.cur.k.tpos.toNat) (fun ls => ls.length == 1) = true ∧
    okWith (tapeLocs paneState .write 1 paneState.cur.k.tpos.toNat) (fun _ => true) = false ∧
    goes (exec (.tapeMark 1) tapeState) = true ∧ goes (exec (.ttask 1 3) recordState) = true ∧ goes (exec (.coll 3) recordState) = true ∧
    okWith (slotRecord recordState 0x1000C1 false) (fun _ => true) = false ∧ goes (exec .ttaskUnhost recordState) = true ∧
    goes (exec (.fbind 1 0) bindState) = true ∧ goes (exec (.fbind 2 0) bindState) = true ∧
    okWith (recordAt bindState 1 1) (fun _ => true) = false ∧ goes (exec (.ccancel 2) (channelState true 0 {})) = true ∧
    ((channelState true 0 {}).chan 0 1).flight = [] := by decide +kernel

/-- An issue of context 0 in which slots 3 and 1 have trapped. -/
def trapState (k : KRegs) (ts : List TrapReq) (rett : Bool) : State :=
  (State.setCtx { iss := { active := true, issue := 5, pc := 0x1000, traps := ts, rett } } 0 0 { run := .running, k }).modLaunch id

theorem test_premises_traps :
    (let s := trapState {} [⟨3, 4, 1, 2⟩, ⟨1, 5, 7, 0⟩] false
     s.iss.x < 4 ∧ s.faults = [] ∧ s.iss.walks = [] ∧ s.iss.absent = [] ∧ s.iss.glazeHold = none ∧ s.iss.waits = [] ∧ lowestTrap s.iss.traps = some ⟨1, 5, 7, 0⟩ ∧
     (s.ctx 0 0).k.trapIn = false) ∧
    (let s := trapState { trapIn := true } [⟨1, 5, 7, 0⟩] false
     lowestTrap s.iss.traps = some ⟨1, 5, 7, 0⟩ ∧ (s.ctx 0 0).k.trapIn = true) ∧
    (let s := trapState { trapIn := true } [] true
     s.iss.traps = [] ∧ s.iss.rett = true ∧ s.iss.ends = none ∧ s.iss.stops = false ∧ (s.ctx 0 0).stopped = false ∧ (s.ctx 0 0).k.trapDone ≠ 31) ∧
    (let q : Iss := { pc := 0x2000, next := 0x2008 }
     let s := (trapState { trapIn := true, trapDone := 31, tpc := 0x2000 } [] true).modCtx 0 0 fun k => { k with savedIss := some q }
     s.iss.traps = [] ∧ s.iss.rett = true ∧ s.iss.ends = none ∧ s.iss.stops = false ∧ (s.ctx 0 0).stopped = false ∧
     (s.ctx 0 0).k.trapDone = 31 ∧ (s.ctx 0 0).savedIss = some q ∧ q.pc = BitVec.ofNat 64 ((s.ctx 0 0).k.tpc.toNat / 4 * 4) ∧ q.ends = none ∧
     q.stops = false) := by decide +kernel

end Tests
end

