-- ==== Sys2Proof/Proofs/Delivery.lean ====
section
/-! What the delivery of results in flight (R30 to R32) gives the registers that results name. -/

namespace Sys2Proof.Machine

/-- A stride set for a0 names a destination, unlike a write of a0 itself. -/
theorem Upd.dest_stride (r : Nat) (v : Word64) : (Upd.stride r v).dest = some (9, r) := rfl

/-- A stride set for a0 is discarded also where it is delivered (R184, R203). -/
theorem Ctx.apply_stride_zero (k : Ctx) (v : Word64) : k.apply (.stride 0 v) = k := rfl

/-- The result that refutes O54: a stride of 1 for a0, due at issue 0. -/
def strideForA0 : Inflight := ⟨0, 0, 0, .stride 0 1⟩

/-- A delivery of nothing but a stride for a0 empties the queue and changes no register. -/
theorem Ctx.deliver_strideForA0 (k : Ctx) (h : k.inflight = [strideForA0]) : k.deliver 0 = { k with inflight := [] } := by
  simp [Ctx.deliver, h, strideForA0, byIssue, insertResult, Upd.accumulates, Ctx.apply_stride_zero]

/-- Refutes O54, by its clause for strides, which does not except a0: a stride set for a0 has the destination `some (9, 0)`, so it is the
latest result for that register, and the delivery discards it all the same, as R184 asks. A context whose strides are 0 and that
holds `strideForA0` keeps 0 where the clause asks for 1. -/
theorem not_deliveryKeepsTheLatestIssue : ¬ Obligations.DeliveryKeepsTheLatestIssue := by
  unfold Obligations.DeliveryKeepsTheLatestIssue
  intro h
  let k : Ctx := { inflight := [strideForA0] }
  obtain ⟨-, -, -, -, -, hstride, -⟩ := h k 0
  have hlatest : ∀ f ∈ k.inflight.filter (fun e => decide (e.due ≤ 0)), f.upd.dest = some (9, 0) → f ≠ strideForA0 →
      f.issue < strideForA0.issue := by
    simp [k]
  have hwritten : vget 0 (k.deliver 0).stride 0 = 1 :=
    hstride strideForA0 0 1 ⟨by decide, Upd.dest_stride 0 1, hlatest⟩ (by decide) rfl
  have hkept : vget 0 (k.deliver 0).stride 0 = 0 := by
    rw [Ctx.deliver_strideForA0 k rfl]
    decide
  exact absurd (hkept.symm.trans hwritten) (by decide)

end Sys2Proof.Machine
end

