-- ==== Sys2Proof/Proofs/Hardwired.lean ====
section
/-! The hardwired registers s0, a0, p0 and m0 (R203): what reads of them return, and what becomes of writes to them. -/

namespace Sys2Proof.Machine

/-- The name s0 does not rotate (R204). -/
@[simp] theorem physS_zero (rs : Nat) : physS rs 0 = 0 := rfl

/-- The name p0 does not rotate (R204). -/
@[simp] theorem physP_zero (rp : Nat) : physP rp 0 = 0 := rfl

@[simp] theorem Ctx.rdS_zero (k : Ctx) : k.rdS 0 = 0 := by
  rw [Ctx.rdS, physS_zero, Ctx.sPhys, if_pos rfl]

@[simp] theorem Ctx.rdA_zero (k : Ctx) : k.rdA 0 = 0 := if_pos rfl

@[simp] theorem Ctx.rdP_zero (k : Ctx) : k.rdP 0 = true := if_pos rfl

@[simp] theorem Ctx.rdM_zero (k : Ctx) : k.rdM 0 = BitVec.allOnes 64 := if_pos rfl

/-- A discarded update changes nothing where it is performed either, be it a delivery or a landing; `queue_discarded` says the same of the
queue. -/
theorem Ctx.apply_discarded {u : Upd} (h : u.discarded = true) (k : Ctx) : k.apply u = k := by
  cases u with
  | s r _ | a r _ | p r _ | m r _ | stride r _ =>
    have hr : r = 0 := beq_iff_eq.mp h
    exact if_pos hr
  | _ => exact absurd h Bool.false_ne_true

/-- Settles O53: each of the five writes is one that `Upd.discarded` names, under every rotation, so neither queueing nor performing it
changes the context. -/
theorem hardwiredRegisters : Obligations.HardwiredRegisters := by
  unfold Obligations.HardwiredRegisters
  intro k due issue slot v b
  refine ⟨k.rdS_zero, k.rdA_zero, k.rdP_zero, k.rdM_zero, fun u hu => ?_⟩
  have hdiscarded : u.discarded = true := by
    simp only [physS_zero, physP_zero, List.mem_cons, List.not_mem_nil, or_false] at hu
    obtain rfl | rfl | rfl | rfl | rfl := hu <;> rfl
  exact ⟨queue_discarded hdiscarded k due issue slot, Ctx.apply_discarded hdiscarded k⟩

end Sys2Proof.Machine
end

