-- ==== Sys2Proof/Proofs/LossScale.lean ====
section
/-! The loss scale (R290, R291): which values of klscale LSCALE refuses, and what both of its forms do with the others. -/

namespace Sys2Proof.Machine

/-! ### How a slot ends, in the obligations' words -/

/-- A slot whose work gives a state completes with it (R22, R369). -/
theorem completes_of_exec_ok {i : Instr} {s t : State} (h : exec i s = slotDone (.ok t)) : Completes i s t := h

/-- A slot whose work ends in a protection fault records that fault and changes nothing else (R370, R374). -/
theorem faults_of_exec_protFault {i : Instr} {s : State} {w2 : Word64} (h : exec i s = slotDone (protFault s w2)) :
    Faults i s cProt w2 0 0 := h

/-! ### The values that LSCALE refuses -/

/-- The entry's four conditions without EMIN > EMAX: an interval that holds EXP is not empty. -/
theorem LossScale.bad_iff (l : LossScale) :
    l.bad = true ↔ l.grow = 0 ∨ l.exp < l.emin ∨ l.emax < l.exp ∨ l.grow < l.clean := by
  simp only [LossScale.bad, Bool.or_eq_true, beq_iff_eq, decide_eq_true_eq]
  omega

/-! ### The step, and the two forms of LSCALE -/

theorem lossStep_bad {s : State} (h : (lossOf s.cur.k.lscale).bad = true) (d : PReg) (ov : Bool) :
    lossStep d ov s = protFault s kNumLscale :=
  if_pos h

theorem lossStep_not_bad {s : State} (h : ¬ (lossOf s.cur.k.lscale).bad = true) (d : PReg) (ov : Bool) :
    lossStep d ov s = .ok ((s.putP d (!ov) 1).putK .lscale (lossWord ((lossOf s.cur.k.lscale).step ov))) :=
  if_neg h

/-- LSCALE steps by whether its source register is not 0 (R291, variant 0). -/
theorem exec_lscale (d : PReg) (r : SReg) (s : State) : exec (.lscale d r) s = slotDone (lossStep d (s.rdS r != 0) s) := rfl

/-- LSCALE.P steps by its source predicate (R291, variant 1). -/
theorem exec_lscaleP (d p : PReg) (s : State) : exec (.lscaleP d p) s = slotDone (lossStep d (s.rdP p) s) := rfl

/-- Settles O17: a klscale is refused exactly in the cases of the second clause (`LossScale.bad_iff`), and both forms are `lossStep` of the
overflow condition that they read. -/
theorem lossScaleStep : Obligations.LossScaleStep := by
  unfold Obligations.LossScaleStep
  intro s d p r l after complete
  have hstep (ov : Bool) : after ov = l.step ov := rfl
  refine ⟨fun hgrow hmin hmax hclean => ?_, fun hrefused => ?_⟩
  · have hgood : ¬ l.bad = true := by
      rw [l.bad_iff]
      omega
    have hok (ov : Bool) : lossStep d ov s = .ok (complete ov) := by
      rw [lossStep_not_bad hgood, ← hstep]
    exact ⟨completes_of_exec_ok ((exec_lscale d r s).trans (congrArg slotDone (hok _))),
      completes_of_exec_ok ((exec_lscaleP d p s).trans (congrArg slotDone (hok _)))⟩
  · have hfault (ov : Bool) : lossStep d ov s = protFault s 0x1D := lossStep_bad (l.bad_iff.mpr hrefused) d ov
    exact ⟨faults_of_exec_protFault ((exec_lscale d r s).trans (congrArg slotDone (hfault _))),
      faults_of_exec_protFault ((exec_lscaleP d p s).trans (congrArg slotDone (hfault _)))⟩

end Sys2Proof.Machine
end

