-- ==== Sys2Proof/Proofs/WordFields.lean ====
section
/-! The fields of a slot word (R33, R34): how each format and each field is cut, the values of narrow fields, and long immediates. -/

namespace Sys2Proof

/-! ### Fields of a word -/

/-- Two neighbouring fields of a word are the two parts of the field that they make up. -/
theorem fld_eq_append_iff {w : Word32} {lo m n : Nat} {x1 : BitVec m} {x2 : BitVec n} :
    fld w lo (m + n) = x1 ++ x2 ↔ fld w (lo + n) m = x1 ∧ fld w lo n = x2 := by
  have hparts : fld w lo (m + n) = fld w (lo + n) m ++ fld w lo n :=
    (BitVec.extractLsb'_append_extractLsb'_eq_extractLsb' rfl).symm
  rw [hparts]
  constructor
  · intro h
    exact ⟨by simpa only [BitVec.extractLsb'_append_eq_left] using congrArg (BitVec.extractLsb' n m) h,
      by simpa only [BitVec.extractLsb'_append_eq_right] using congrArg (BitVec.extractLsb' 0 n) h⟩
  · rintro ⟨rfl, rfl⟩
    rfl

theorem fld_eq_append3_iff {w : Word32} {lo l m n : Nat} {x1 : BitVec l} {x2 : BitVec m} {x3 : BitVec n} :
    fld w lo (l + m + n) = x1 ++ x2 ++ x3 ↔ fld w (lo + n + m) l = x1 ∧ fld w (lo + n) m = x2 ∧ fld w lo n = x3 := by
  rw [fld_eq_append_iff, fld_eq_append_iff, and_assoc]

theorem fld_eq_append4_iff {w : Word32} {lo k l m n : Nat} {x1 : BitVec k} {x2 : BitVec l} {x3 : BitVec m} {x4 : BitVec n} :
    fld w lo (k + l + m + n) = x1 ++ x2 ++ x3 ++ x4 ↔
      fld w (lo + n + m + l) k = x1 ∧ fld w (lo + n + m) l = x2 ∧ fld w (lo + n) m = x3 ∧ fld w lo n = x4 := by
  rw [fld_eq_append_iff, fld_eq_append3_iff, and_assoc, and_assoc]

theorem fld_all (w : Word32) : fld w 0 32 = w :=
  BitVec.extractLsb'_eq_self

section Formats
variable {w : Word32}

/-- The fields of format R. -/
theorem eq_wordR_iff {mj d a b : BitVec 6} {v : BitVec 3} {fn : BitVec 5} :
    w = wordR mj d a b v fn ↔ fld w 26 6 = mj ∧ fld w 20 6 = d ∧ fld w 14 6 = a ∧ fld w 8 6 = b ∧ fld w 5 3 = v ∧ fld w 0 5 = fn := by
  have h : w = wordR mj d a b v fn ↔ fld w 0 (6 + 6 + 6 + 6 + 3 + 5) = mj ++ d ++ a ++ b ++ v ++ fn := by rw [fld_all, wordR]
  rw [h]
  simp only [fld_eq_append_iff, and_assoc]

/-- The fields of format I. -/
theorem eq_wordI_iff {mj d a : BitVec 6} {imm : BitVec 14} :
    w = wordI mj d a imm ↔ fld w 26 6 = mj ∧ fld w 20 6 = d ∧ fld w 14 6 = a ∧ fld w 0 14 = imm := by
  have h : w = wordI mj d a imm ↔ fld w 0 (6 + 6 + 6 + 14) = mj ++ d ++ a ++ imm := by rw [fld_all, wordI]
  rw [h]
  simp only [fld_eq_append_iff, and_assoc]

/-- The fields of format IF. -/
theorem eq_wordIF_iff {mj d a : BitVec 6} {fn3 : BitVec 3} {imm : BitVec 11} :
    w = wordIF mj d a fn3 imm ↔ fld w 26 6 = mj ∧ fld w 20 6 = d ∧ fld w 14 6 = a ∧ fld w 11 3 = fn3 ∧ fld w 0 11 = imm := by
  have h : w = wordIF mj d a fn3 imm ↔ fld w 0 (6 + 6 + 6 + 3 + 11) = mj ++ d ++ a ++ fn3 ++ imm := by rw [fld_all, wordIF]
  rw [h]
  simp only [fld_eq_append_iff, and_assoc]

/-- The fields of format W. -/
theorem eq_wordW_iff {mj d : BitVec 6} {imm : BitVec 20} :
    w = wordW mj d imm ↔ fld w 26 6 = mj ∧ fld w 20 6 = d ∧ fld w 0 20 = imm := by
  have h : w = wordW mj d imm ↔ fld w 0 (6 + 6 + 20) = mj ++ d ++ imm := by rw [fld_all, wordW]
  rw [h]
  simp only [fld_eq_append_iff, and_assoc]

/-- The fields of format B. -/
theorem eq_wordB_iff {mj : BitVec 6} {p : BitVec 4} {neg : BitVec 1} {off : BitVec 21} :
    w = wordB mj p neg off ↔ fld w 26 6 = mj ∧ fld w 22 4 = p ∧ fld w 21 1 = neg ∧ fld w 0 21 = off := by
  have h : w = wordB mj p neg off ↔ fld w 0 (6 + 4 + 1 + 21) = mj ++ p ++ neg ++ off := by rw [fld_all, wordB]
  rw [h]
  simp only [fld_eq_append_iff, and_assoc]

/-- The fields of format M. -/
theorem eq_wordM_iff {mj d : BitVec 6} {base : BitVec 5} {off : BitVec 9} {ctl : BitVec 6} :
    w = wordM mj d base off ctl ↔ fld w 26 6 = mj ∧ fld w 20 6 = d ∧ fld w 15 5 = base ∧ fld w 6 9 = off ∧ fld w 0 6 = ctl := by
  have h : w = wordM mj d base off ctl ↔ fld w 0 (6 + 6 + 5 + 9 + 6) = mj ++ d ++ base ++ off ++ ctl := by rw [fld_all, wordM]
  rw [h]
  simp only [fld_eq_append_iff, and_assoc]

/-- The fields of format V. -/
theorem eq_wordV_iff {mj : BitVec 6} {d a b : BitVec 5} {rm m : BitVec 3} {fn : BitVec 5} :
    w = wordV mj d a b rm m fn ↔ fld w 26 6 = mj ∧ fld w 21 5 = d ∧ fld w 16 5 = a ∧ fld w 11 5 = b ∧ fld w 8 3 = rm ∧ fld w 5 3 = m ∧ fld w 0 5 = fn := by
  have h : w = wordV mj d a b rm m fn ↔ fld w 0 (6 + 5 + 5 + 5 + 3 + 3 + 5) = mj ++ d ++ a ++ b ++ rm ++ m ++ fn := by rw [fld_all, wordV]
  rw [h]
  simp only [fld_eq_append_iff, and_assoc]

/-- The fields of format T. -/
theorem eq_wordT_iff {mj : BitVec 6} {acc : BitVec 5} {a b : BitVec 7} {fmt : BitVec 4} {flags : BitVec 3} :
    w = wordT mj acc a b fmt flags ↔ fld w 26 6 = mj ∧ fld w 21 5 = acc ∧ fld w 14 7 = a ∧ fld w 7 7 = b ∧ fld w 3 4 = fmt ∧ fld w 0 3 = flags := by
  have h : w = wordT mj acc a b fmt flags ↔ fld w 0 (6 + 5 + 7 + 7 + 4 + 3) = mj ++ acc ++ a ++ b ++ fmt ++ flags := by rw [fld_all, wordT]
  rw [h]
  simp only [fld_eq_append_iff, and_assoc]

/-- The fields of format X. -/
theorem eq_wordX_iff {mj op1 op2 op3 : BitVec 6} {ctl : BitVec 8} :
    w = wordX mj op1 op2 op3 ctl ↔ fld w 26 6 = mj ∧ fld w 20 6 = op1 ∧ fld w 14 6 = op2 ∧ fld w 8 6 = op3 ∧ fld w 0 8 = ctl := by
  have h : w = wordX mj op1 op2 op3 ctl ↔ fld w 0 (6 + 6 + 6 + 6 + 8) = mj ++ op1 ++ op2 ++ op3 ++ ctl := by rw [fld_all, wordX]
  rw [h]
  simp only [fld_eq_append_iff, and_assoc]

/-- The fields that an immediate is cut into. -/
theorem fld_imm_iff :
    (∀ (x : BitVec 8) (y : BitVec 6), fld w 0 14 = x ++ y ↔ fld w 6 8 = x ∧ fld w 0 6 = y) ∧
    (∀ (x : BitVec 6) (y : BitVec 8), fld w 0 14 = x ++ y ↔ fld w 8 6 = x ∧ fld w 0 8 = y) ∧
    (∀ (x : BitVec 12) (y : BitVec 2), fld w 0 14 = x ++ y ↔ fld w 2 12 = x ∧ fld w 0 2 = y) ∧
    (∀ (x : BitVec 2) (y : BitVec 6) (z : BitVec 6), fld w 0 14 = x ++ y ++ z ↔ fld w 12 2 = x ∧ fld w 6 6 = y ∧ fld w 0 6 = z) ∧
    (∀ (x : BitVec 1) (y : BitVec 1) (z : BitVec 6) (t : BitVec 6),
        fld w 0 14 = x ++ y ++ z ++ t ↔ fld w 13 1 = x ∧ fld w 12 1 = y ∧ fld w 6 6 = z ∧ fld w 0 6 = t) ∧
    (∀ (x : BitVec 9) (y : BitVec 1) (z : BitVec 4), fld w 0 14 = x ++ y ++ z ↔ fld w 5 9 = x ∧ fld w 4 1 = y ∧ fld w 0 4 = z) ∧
    (∀ (x : BitVec 4) (y : BitVec 1) (z : BitVec 15), fld w 0 20 = x ++ y ++ z ↔ fld w 16 4 = x ∧ fld w 15 1 = y ∧ fld w 0 15 = z) :=
  ⟨fun x y => fld_eq_append_iff (x1 := x) (x2 := y),
    fun x y => fld_eq_append_iff (x1 := x) (x2 := y),
    fun x y => fld_eq_append_iff (x1 := x) (x2 := y),
    fun x y z => fld_eq_append3_iff (x1 := x) (x2 := y) (x3 := z),
    fun x y z t => fld_eq_append4_iff (x1 := x) (x2 := y) (x3 := z) (x4 := t),
    fun x y z => fld_eq_append3_iff (x1 := x) (x2 := y) (x3 := z),
    fun x y z => fld_eq_append3_iff (x1 := x) (x2 := y) (x3 := z)⟩

/-- The fields that a destination is cut into. -/
theorem fld_dst_iff :
    (∀ (x : BitVec 3) (y : BitVec 3), fld w 20 6 = x ++ y ↔ fld w 23 3 = x ∧ fld w 20 3 = y) ∧
    (∀ (x : BitVec 4) (y : BitVec 2), fld w 20 6 = x ++ y ↔ fld w 22 4 = x ∧ fld w 20 2 = y) ∧
    (∀ (x : BitVec 3) (y : BitVec 1) (z : BitVec 2), fld w 20 6 = x ++ y ++ z ↔ fld w 23 3 = x ∧ fld w 22 1 = y ∧ fld w 20 2 = z) ∧
    (∀ (x : BitVec 2) (y : BitVec 1) (z : BitVec 3), fld w 20 6 = x ++ y ++ z ↔ fld w 24 2 = x ∧ fld w 23 1 = y ∧ fld w 20 3 = z) ∧
    (∀ (x : BitVec 1) (y : BitVec 2) (z : BitVec 3), fld w 20 6 = x ++ y ++ z ↔ fld w 25 1 = x ∧ fld w 23 2 = y ∧ fld w 20 3 = z) :=
  ⟨fun x y => fld_eq_append_iff (x1 := x) (x2 := y),
    fun x y => fld_eq_append_iff (x1 := x) (x2 := y),
    fun x y z => fld_eq_append3_iff (x1 := x) (x2 := y) (x3 := z),
    fun x y z => fld_eq_append3_iff (x1 := x) (x2 := y) (x3 := z),
    fun x y z => fld_eq_append3_iff (x1 := x) (x2 := y) (x3 := z)⟩

/-- The fields that the control field of format M is cut into. -/
theorem fld_ctl_iff :
    (∀ (x : BitVec 4) (y : BitVec 2), fld w 0 6 = x ++ y ↔ fld w 2 4 = x ∧ fld w 0 2 = y) ∧
    (∀ (x : BitVec 2) (y : BitVec 4), fld w 0 6 = x ++ y ↔ fld w 4 2 = x ∧ fld w 0 4 = y) ∧
    (∀ (x : BitVec 5) (y : BitVec 1), fld w 0 6 = x ++ y ↔ fld w 1 5 = x ∧ fld w 0 1 = y) ∧
    (∀ (x : BitVec 3) (y : BitVec 1) (z : BitVec 2), fld w 0 6 = x ++ y ++ z ↔ fld w 3 3 = x ∧ fld w 2 1 = y ∧ fld w 0 2 = z) :=
  ⟨fun x y => fld_eq_append_iff (x1 := x) (x2 := y),
    fun x y => fld_eq_append_iff (x1 := x) (x2 := y),
    fun x y => fld_eq_append_iff (x1 := x) (x2 := y),
    fun x y z => fld_eq_append3_iff (x1 := x) (x2 := y) (x3 := z)⟩

/-- The control bits of the accumulator instructions (R193). -/
theorem fld_accCtl_iff {add wd fl blk u : Bool} : fld w 0 6 = accCtl add wd fl blk u ↔
    fld w 5 1 = 0#1 ∧ fld w 4 1 = bit1 u ∧ fld w 3 1 = bit1 blk ∧ fld w 2 1 = bit1 fl ∧ fld w 1 1 = bit1 wd ∧ fld w 0 1 = bit1 add := by
  have h : fld w 0 6 = accCtl add wd fl blk u ↔
      fld w 0 (1 + 1 + 1 + 1 + 1 + 1) = 0#1 ++ bit1 u ++ bit1 blk ++ bit1 fl ++ bit1 wd ++ bit1 add := Iff.rfl
  rw [h]
  simp only [fld_eq_append_iff, and_assoc]

/-- All of a word below its major is 0. -/
theorem fld_low26_iff : fld w 0 26 = 0#26 ↔
    fld w 20 6 = 0#6 ∧ fld w 14 6 = 0#6 ∧ fld w 8 6 = 0#6 ∧ fld w 5 3 = 0#3 ∧ fld w 0 5 = 0#5 := by
  have h : fld w 0 26 = 0#26 ↔ fld w 0 (6 + 6 + 6 + 3 + 5) = 0#6 ++ 0#6 ++ 0#6 ++ 0#3 ++ 0#5 := Iff.rfl
  rw [h]
  simp only [fld_eq_append_iff, and_assoc]

/-- A run of zero bits at the top of the control field of the accumulator instructions. -/
theorem fld_acc_iff :
    (fld w 2 4 = 0#4 ↔ fld w 3 3 = 0#3 ∧ fld w 2 1 = 0#1) ∧
    (fld w 3 3 = 0#3 ↔ fld w 4 2 = 0#2 ∧ fld w 3 1 = 0#1) ∧
    (fld w 4 2 = 0#2 ↔ fld w 5 1 = 0#1 ∧ fld w 4 1 = 0#1) :=
  ⟨fld_eq_append_iff (x1 := 0#3) (x2 := 0#1),
    fld_eq_append_iff (x1 := 0#2) (x2 := 0#1),
    fld_eq_append_iff (x1 := 0#1) (x2 := 0#1)⟩

/-- The fields that the function field of formats R and V, and the fields beside it, are cut into. -/
theorem fld_fn_iff :
    (∀ (x : BitVec 3) (y : BitVec 2), fld w 0 5 = x ++ y ↔ fld w 2 3 = x ∧ fld w 0 2 = y) ∧
    (∀ (x : BitVec 2) (y : BitVec 1) (z : BitVec 2), fld w 0 5 = x ++ y ++ z ↔ fld w 3 2 = x ∧ fld w 2 1 = y ∧ fld w 0 2 = z) ∧
    (∀ (x : BitVec 1) (y : BitVec 1) (z : BitVec 1) (t : BitVec 2),
        fld w 0 5 = x ++ y ++ z ++ t ↔ fld w 4 1 = x ∧ fld w 3 1 = y ∧ fld w 2 1 = z ∧ fld w 0 2 = t) ∧
    (∀ (x : BitVec 2) (y : BitVec 3), fld w 0 5 = x ++ y ↔ fld w 3 2 = x ∧ fld w 0 3 = y) ∧
    (∀ (x : BitVec 1) (y : BitVec 4), fld w 11 5 = x ++ y ↔ fld w 15 1 = x ∧ fld w 11 4 = y) ∧
    (∀ (x : BitVec 1) (y : BitVec 2), fld w 5 3 = x ++ y ↔ fld w 7 1 = x ∧ fld w 5 2 = y) :=
  ⟨fun x y => fld_eq_append_iff (x1 := x) (x2 := y),
    fun x y z => fld_eq_append3_iff (x1 := x) (x2 := y) (x3 := z),
    fun x y z t => fld_eq_append4_iff (x1 := x) (x2 := y) (x3 := z) (x4 := t),
    fun x y => fld_eq_append_iff (x1 := x) (x2 := y),
    fun x y => fld_eq_append_iff (x1 := x) (x2 := y),
    fun x y => fld_eq_append_iff (x1 := x) (x2 := y)⟩

/-- The fields that the source and flag fields of format T are cut into. -/
theorem fld_tile_iff :
    (∀ (x : BitVec 2) (y : BitVec 1), fld w 0 3 = x ++ y ↔ fld w 1 2 = x ∧ fld w 0 1 = y) ∧
    (∀ (x : BitVec 1) (y : BitVec 1) (z : BitVec 1), fld w 0 3 = x ++ y ++ z ↔ fld w 2 1 = x ∧ fld w 1 1 = y ∧ fld w 0 1 = z) ∧
    (∀ (x : BitVec 1) (y : BitVec 2), fld w 0 3 = x ++ y ↔ fld w 2 1 = x ∧ fld w 0 2 = y) ∧
    (∀ (x : BitVec 3) (y : BitVec 4), fld w 14 7 = x ++ y ↔ fld w 18 3 = x ∧ fld w 14 4 = y) :=
  ⟨fun x y => fld_eq_append_iff (x1 := x) (x2 := y),
    fun x y z => fld_eq_append3_iff (x1 := x) (x2 := y) (x3 := z),
    fun x y => fld_eq_append_iff (x1 := x) (x2 := y),
    fun x y => fld_eq_append_iff (x1 := x) (x2 := y)⟩

/-- The fields that the control field of format X is cut into. -/
theorem fld_ctl8_iff :
    (∀ (x : BitVec 1) (y : BitVec 7), fld w 0 8 = x ++ y ↔ fld w 7 1 = x ∧ fld w 0 7 = y) ∧
    (∀ (x : BitVec 6) (y : BitVec 2), fld w 0 8 = x ++ y ↔ fld w 2 6 = x ∧ fld w 0 2 = y) ∧
    (∀ (x : BitVec 4) (y : BitVec 4), fld w 0 8 = x ++ y ↔ fld w 4 4 = x ∧ fld w 0 4 = y) ∧
    (∀ (x : BitVec 5) (y : BitVec 3), fld w 0 8 = x ++ y ↔ fld w 3 5 = x ∧ fld w 0 3 = y) ∧
    (∀ (x : BitVec 2) (y : BitVec 3) (z : BitVec 3), fld w 0 8 = x ++ y ++ z ↔ fld w 6 2 = x ∧ fld w 3 3 = y ∧ fld w 0 3 = z) ∧
    (∀ (x : BitVec 3) (y : BitVec 3) (z : BitVec 2), fld w 0 8 = x ++ y ++ z ↔ fld w 5 3 = x ∧ fld w 2 3 = y ∧ fld w 0 2 = z) ∧
    (∀ (x : BitVec 5) (y : BitVec 1) (z : BitVec 2), fld w 0 8 = x ++ y ++ z ↔ fld w 3 5 = x ∧ fld w 2 1 = y ∧ fld w 0 2 = z) ∧
    (∀ (x : BitVec 6) (y : BitVec 1) (z : BitVec 1), fld w 0 8 = x ++ y ++ z ↔ fld w 2 6 = x ∧ fld w 1 1 = y ∧ fld w 0 1 = z) ∧
    (∀ (x : BitVec 4) (y : BitVec 1) (z : BitVec 1), fld w 8 6 = x ++ y ++ z ↔ fld w 10 4 = x ∧ fld w 9 1 = y ∧ fld w 8 1 = z) :=
  ⟨fun x y => fld_eq_append_iff (x1 := x) (x2 := y),
    fun x y => fld_eq_append_iff (x1 := x) (x2 := y),
    fun x y => fld_eq_append_iff (x1 := x) (x2 := y),
    fun x y => fld_eq_append_iff (x1 := x) (x2 := y),
    fun x y z => fld_eq_append3_iff (x1 := x) (x2 := y) (x3 := z),
    fun x y z => fld_eq_append3_iff (x1 := x) (x2 := y) (x3 := z),
    fun x y z => fld_eq_append3_iff (x1 := x) (x2 := y) (x3 := z),
    fun x y z => fld_eq_append3_iff (x1 := x) (x2 := y) (x3 := z),
    fun x y z => fld_eq_append3_iff (x1 := x) (x2 := y) (x3 := z)⟩

/-- The control field of format X with a code in its two low bits. -/
theorem fld_two_iff :
    (fld w 0 8 = 0#8 ↔ fld w 2 6 = 0#6 ∧ fld w 0 2 = 0#2) ∧
    (fld w 0 8 = 1#8 ↔ fld w 2 6 = 0#6 ∧ fld w 0 2 = 1#2) :=
  ⟨fld_eq_append_iff (x1 := 0#6) (x2 := 0#2),
    fld_eq_append_iff (x1 := 0#6) (x2 := 1#2)⟩

/-- The control field of the drains that name no frame. -/
theorem fld_drain_iff :
    (fld w 2 6 = 0#6 ↔ fld w 5 3 = 0#3 ∧ fld w 2 3 = 0#3) :=
  fld_eq_append_iff (x1 := 0#3) (x2 := 0#3)

/-- The control field of the forms of AWAIT. -/
theorem fld_await_iff :
    (fld w 0 8 = 16#8 ↔ fld w 4 4 = 1#4 ∧ fld w 0 4 = 0#4) ∧
    (fld w 0 8 = 32#8 ↔ fld w 4 4 = 2#4 ∧ fld w 0 4 = 0#4) ∧
    (fld w 4 4 = 0#4 ↔ fld w 6 2 = 0#2 ∧ fld w 4 2 = 0#2) ∧
    (fld w 4 4 = 1#4 ↔ fld w 6 2 = 0#2 ∧ fld w 4 2 = 1#2) ∧
    (fld w 4 4 = 2#4 ↔ fld w 6 2 = 0#2 ∧ fld w 4 2 = 2#2) :=
  ⟨fld_eq_append_iff (x1 := 1#4) (x2 := 0#4),
    fld_eq_append_iff (x1 := 2#4) (x2 := 0#4),
    fld_eq_append_iff (x1 := 0#2) (x2 := 0#2),
    fld_eq_append_iff (x1 := 0#2) (x2 := 1#2),
    fld_eq_append_iff (x1 := 0#2) (x2 := 2#2)⟩

/-- The control field of the forms of TTASK. -/
theorem fld_task_iff :
    (fld w 0 8 = 4#8 ↔ fld w 2 6 = 1#6 ∧ fld w 0 2 = 0#2) ∧
    (fld w 0 8 = 8#8 ↔ fld w 2 6 = 2#6 ∧ fld w 0 2 = 0#2) ∧
    (fld w 2 6 = 0#6 ↔ fld w 4 4 = 0#4 ∧ fld w 2 2 = 0#2) ∧
    (fld w 2 6 = 1#6 ↔ fld w 4 4 = 0#4 ∧ fld w 2 2 = 1#2) ∧
    (fld w 2 6 = 2#6 ↔ fld w 4 4 = 0#4 ∧ fld w 2 2 = 2#2) :=
  ⟨fld_eq_append_iff (x1 := 1#6) (x2 := 0#2),
    fld_eq_append_iff (x1 := 2#6) (x2 := 0#2),
    fld_eq_append_iff (x1 := 0#4) (x2 := 0#2),
    fld_eq_append_iff (x1 := 0#4) (x2 := 1#2),
    fld_eq_append_iff (x1 := 0#4) (x2 := 2#2)⟩

/-- A control field of format X with a code in bit 2. -/
theorem fld_mode2_iff :
    (fld w 2 6 = 0#6 ↔ fld w 3 5 = 0#5 ∧ fld w 2 1 = 0#1) ∧
    (fld w 2 6 = 1#6 ↔ fld w 3 5 = 0#5 ∧ fld w 2 1 = 1#1) :=
  ⟨fld_eq_append_iff (x1 := 0#5) (x2 := 0#1),
    fld_eq_append_iff (x1 := 0#5) (x2 := 1#1)⟩

/-- A control field of format X with a code in bit 3. -/
theorem fld_mode3_iff :
    (fld w 3 5 = 0#5 ↔ fld w 4 4 = 0#4 ∧ fld w 3 1 = 0#1) ∧
    (fld w 3 5 = 1#5 ↔ fld w 4 4 = 0#4 ∧ fld w 3 1 = 1#1) :=
  ⟨fld_eq_append_iff (x1 := 0#4) (x2 := 0#1),
    fld_eq_append_iff (x1 := 0#4) (x2 := 1#1)⟩

/-- A control field of format X with a code in bits 3 and 4. -/
theorem fld_mode34_iff :
    (fld w 3 5 = 0#5 ↔ fld w 5 3 = 0#3 ∧ fld w 3 2 = 0#2) ∧
    (fld w 3 5 = 1#5 ↔ fld w 5 3 = 0#3 ∧ fld w 3 2 = 1#2) ∧
    (fld w 3 5 = 2#5 ↔ fld w 5 3 = 0#3 ∧ fld w 3 2 = 2#2) :=
  ⟨fld_eq_append_iff (x1 := 0#3) (x2 := 0#2),
    fld_eq_append_iff (x1 := 0#3) (x2 := 1#2),
    fld_eq_append_iff (x1 := 0#3) (x2 := 2#2)⟩

end Formats

/-! ### Long immediates (R34) -/

/-- The operand of R34 is sign-extended from its field with the surrendered words above it. -/
theorem extImm_eq {n m : Nat} {f : BitVec n} {ext : List Word32} (hm : n + 32 * ext.length = m) (x : BitVec m)
    (h : f.toNat + 2 ^ n * extNat ext = x.toNat) : extImm f ext = x.signExtend 64 := by
  subst hm
  rw [extImm, h, BitVec.ofNat_toNat, BitVec.setWidth_eq]

theorem extImm_nil {n : Nat} (f : BitVec n) : extImm f [] = f.signExtend 64 :=
  extImm_eq (m := n) (by simp) f (by simp [extNat])

/-- The low n bits of a number and the m bits above them, joined again. -/
theorem mod_add_div_mod (x n m : Nat) : x % 2 ^ n + 2 ^ n * (x / 2 ^ n % 2 ^ m) = x % 2 ^ (n + m) := by
  rw [pow_add, Nat.mod_mul]

/-- A field below bit 64 reads the same after bits above 63 are dropped. -/
theorem mod_div_mod {n m : Nat} (x : Nat) (h : n + m ≤ 64) : x % 2 ^ 64 / 2 ^ n % 2 ^ m = x / 2 ^ n % 2 ^ m := by
  have hpow : 2 ^ 64 = 2 ^ n * 2 ^ (64 - n) := by
    rw [← pow_add]
    congr 1
    omega
  rw [hpow, Nat.mod_mul_right_div_self, Nat.mod_mod_of_dvd _ (pow_dvd_pow 2 (by omega))]

theorem setWidth_signExtend_of_le {m : Nat} (v : Word64) (h : 64 ≤ m) : ((v.signExtend 128).setWidth m).signExtend 64 = v := by
  apply BitVec.eq_of_getLsbD_eq
  intro i hi
  rw [BitVec.getLsbD_signExtend, decide_eq_true hi, Bool.true_and, if_pos (by omega), BitVec.getLsbD_setWidth,
    decide_eq_true (by omega), Bool.true_and, BitVec.getLsbD_signExtend, decide_eq_true (by omega), Bool.true_and, if_pos hi]

theorem encLow_extImm_encExt {n : Nat} (hn : n < 32) (v : Word64) : extImm (encLow n v) (encExt n v) = v := by
  unfold encExt
  split
  next h => rw [extImm_nil]; exact beq_iff_eq.mp h
  next =>
    split
    next h =>
      rw [extImm_eq (m := n + 32) rfl (v.setWidth (n + 32))]
      · exact beq_iff_eq.mp h
      · simp only [encLow, extNat, BitVec.toNat_setWidth, BitVec.toNat_ushiftRight, Nat.shiftRight_eq_div_pow, mul_zero, add_zero,
          mod_add_div_mod]
    next =>
      rw [extImm_eq (m := n + (32 + 32)) rfl ((v.signExtend 128).setWidth (n + (32 + 32))), setWidth_signExtend_of_le v (by omega)]
      have hv : v.toNat = (v.signExtend 128).toNat % 2 ^ 64 := by
        have hlow : (v.signExtend 128).setWidth 64 = v := by
          have h := setWidth_signExtend_of_le v le_rfl
          rwa [BitVec.signExtend_eq] at h
        rw [← BitVec.toNat_setWidth, hlow]
      generalize v.signExtend 128 = x at hv ⊢
      have hlow : v.toNat % 2 ^ n = x.toNat % 2 ^ n := by
        rw [hv, Nat.mod_mod_of_dvd _ (pow_dvd_pow 2 (by omega))]
      have hmid : v.toNat / 2 ^ n % 2 ^ 32 = x.toNat / 2 ^ n % 2 ^ 32 := by
        rw [hv, mod_div_mod _ (by omega)]
      simp only [encLow, extNat, BitVec.toNat_setWidth, BitVec.toNat_ushiftRight, Nat.shiftRight_eq_div_pow, mul_zero, add_zero,
          hlow, hmid, pow_add]
      rw [Nat.mod_mul, Nat.mod_mul, Nat.div_div_eq_div_mul]

/-- A number that the bits of the operand below the highest hold is its own sign extension. -/
theorem extImm_of_lt {n m land : Nat} {f : BitVec n} {ext : List Word32} (hm : n + 32 * ext.length = m)
    (h : f.toNat + 2 ^ n * extNat ext = land) (hland : land < 2 ^ (m - 1)) (h63 : land < 2 ^ 63) :
    (extImm f ext).toNat = land ∧ (extImm f ext).msb = false := by
  have hx : (BitVec.ofNat m land).toNat = land := Nat.mod_eq_of_lt (hland.trans_le (Nat.pow_le_pow_right (by decide) (by omega)))
  have hmsb : (BitVec.ofNat m land).msb = false := by
    rw [BitVec.msb_eq_decide, hx]
    exact decide_eq_false (by omega)
  have hval : (extImm f ext).toNat = land := by
    rw [extImm_eq hm (BitVec.ofNat m land) (by rw [h, hx]), BitVec.signExtend_eq_setWidth_of_msb_false hmsb, BitVec.toNat_setWidth, hx]
    omega
  refine ⟨hval, ?_⟩
  rw [BitVec.msb_eq_decide, hval]
  exact decide_eq_false (by omega)

theorem landCycles_extended {f : BitVec 6} {ext : List Word32} {land : Nat} (hext : ext.isEmpty = false)
    (h : (extImm f ext).toNat = land ∧ (extImm f ext).msb = false) : landCycles f ext = .ok land := by
  have hneg : extNegative f ext = false := h.2
  simp [landCycles, hext, hneg, h.1]

/-- The landing cycles of LD.L are read back (R34). -/
theorem landCycles_encLand {land : Nat} (h : land < 2 ^ 63) : landCycles (encLand land).1 (encLand land).2 = .ok land := by
  unfold encLand
  split
  next hland =>
    have hfld : (BitVec.ofNat 6 (land / 16)).toNat * 16 = land := by
      rw [BitVec.toNat_ofNat]
      omega
    simp only [landCycles, List.isEmpty_nil, if_true, hfld]
  next =>
    split
    next hland =>
      refine landCycles_extended rfl (extImm_of_lt (m := 38) rfl ?_ hland h)
      simp only [extNat, BitVec.toNat_ofNat]
      omega
    next =>
      refine landCycles_extended rfl (extImm_of_lt (m := 70) rfl ?_ (by omega) h)
      simp only [extNat, BitVec.toNat_ofNat]
      omega

/-! ### Lone words -/

theorem encLow_extImm_nil {n : Nat} (hn : n ≤ 64) (f : BitVec n) : encLow n (extImm f []) = f := by
  rw [extImm_nil, encLow]
  apply BitVec.eq_of_getLsbD_eq
  intro i hi
  rw [BitVec.getLsbD_setWidth, decide_eq_true hi, Bool.true_and, BitVec.getLsbD_signExtend, decide_eq_true (by omega), Bool.true_and, if_pos hi]

theorem encExt_extImm_nil {n : Nat} (hn : n ≤ 64) (f : BitVec n) : encExt n (extImm f []) = [] := by
  rw [encExt, if_pos]
  rw [beq_iff_eq]
  exact (extImm_nil _).symm.trans (by rw [← encLow, encLow_extImm_nil hn])

theorem encLand_field (f : BitVec 6) : encLand (f.toNat * 16) = (f, []) := by
  have h : f.toNat * 16 % 16 = 0 ∧ f.toNat * 16 / 16 < 64 := by omega
  rw [encLand, if_pos h, Nat.mul_div_cancel _ (by decide), BitVec.ofNat_toNat, BitVec.setWidth_eq]


/-! ### Values of narrow fields -/

theorem bit1_false : bit1 false = 0#1 := rfl

theorem bit1_true : bit1 true = 1#1 := rfl

theorem bit1_beq_one (b : Bool) : (bit1 b == 1#1) = b := by cases b <;> rfl

theorem bit1_eq_zero (b : Bool) : bit1 b = 0#1 ↔ b = false := by cases b <;> simp [bit1]

theorem bit1_eq_one (b : Bool) : bit1 b = 1#1 ↔ b = true := by cases b <;> simp [bit1]

theorem append_bit1_beq_one (b : Bool) : (0#2 ++ bit1 b == 1#3) = b := by cases b <;> rfl

theorem toNat_append_bit1 (b : Bool) : (0#2 ++ bit1 b).toNat = b.toNat := by cases b <;> rfl

theorem zero_append_two (x : BitVec 2) : (0#1 ++ x).toNat = x.toNat ∧ (0#1 ++ x).setWidth 2 = x := by
  revert x
  decide

theorem toNat_lt_16 (x : BitVec 4) : x.toNat < 16 := x.isLt

theorem toNat_le_3 (x : BitVec 2) : x.toNat ≤ 3 := Nat.le_of_lt_succ x.isLt

theorem slot_append (slot : SlotNo) : slot.extractLsb' 6 1 ++ slot.setWidth 6 = slot := by
  revert slot
  decide

theorem toNat_in5 {n : Nat} (hn : n ≤ 5) (r : BitVec n) : (in5 r).toNat = r.toNat :=
  BitVec.toNat_setWidth_of_le hn

theorem setWidth_in5 {n : Nat} (hn : n ≤ 5) (r : BitVec n) : (in5 r).setWidth n = r := by
  rw [in5, BitVec.setWidth_setWidth_of_le _ hn, BitVec.setWidth_eq]

theorem toNat_in6 {n : Nat} (hn : n ≤ 6) (r : BitVec n) : (in6 r).toNat = r.toNat :=
  BitVec.toNat_setWidth_of_le hn

theorem setWidth_in6 {n : Nat} (hn : n ≤ 6) (r : BitVec n) : (in6 r).setWidth n = r := by
  rw [in6, BitVec.setWidth_setWidth_of_le _ hn, BitVec.setWidth_eq]

/-- A narrow number in a field is the number below zero bits. -/
theorem in5_two (x : BitVec 2) : in5 x = 0#3 ++ x := by
  revert x
  decide

theorem in5_two_bit (x : BitVec 2) : in5 x = 0#2 ++ bit1 false ++ x := by
  revert x
  decide

theorem in5_three (x : BitVec 3) : in5 x = 0#2 ++ x := by
  revert x
  decide

theorem in6_two (x : BitVec 2) : in6 x = 0#4 ++ x := by
  revert x
  decide

theorem in6_two_bit (x : BitVec 2) : in6 x = 0#3 ++ 0#1 ++ x := by
  revert x
  decide

theorem in6_three (x : BitVec 3) : in6 x = 0#3 ++ x := by
  revert x
  decide

end Sys2Proof
end

