-- ==== Sys2Proof/Proofs/Encoding.lean ====
section
/-! Encoded instructions decode (R16 to R37): each check of the decoder passes on the fields that the encoder writes. -/

namespace Sys2Proof

/-! ### What a check of the decoder lets through -/

theorem noExt_bind {f : Unit → Except DecodeError Instr} : (noExt [] >>= f) = f () := rfl

theorem need_bind_eq_ok {c : Bool} {e : DecodeError} {f : Unit → Except DecodeError Instr} {i : Instr} :
    (need c e >>= f) = .ok i ↔ c = true ∧ f () = .ok i := by
  cases c <;> simp [need, bind, Except.bind]

theorem pure_eq_ok {i j : Instr} : (pure i : Except DecodeError Instr) = .ok j ↔ i = j := by
  simp [pure, Except.pure]

theorem limit_eq_ok {i j : Instr} : limit i = .ok j ↔ i.wellFormed = true ∧ i = j := by
  cases h : i.wellFormed <;> simp [limit, h]

theorem cls32_in6 (r : BitVec 5) : cls32 (in6 r) = .ok r := by
  have h : (in6 r).toNat < 32 := by
    simp [in6]
    omega
  rw [cls32, if_pos h]
  simp [in6]

theorem cls16_in6 (r : BitVec 4) : cls16 (in6 r) = .ok r := by
  have h : (in6 r).toNat < 16 := by
    simp [in6]
    omega
  rw [cls16, if_pos h]
  simp [in6]

theorem clsM_in5 (r : BitVec 3) : clsM (in5 r) = .ok r := by
  have h : (in5 r).toNat < 8 := by
    simp [in5]
    omega
  rw [clsM, if_pos h]
  simp [in5]

theorem clsT_in5 (r : BitVec 4) : clsT (in5 r) = .ok r := by
  have h : (in5 r).toNat < 16 := by
    simp [in5]
    omega
  rw [clsT, if_pos h]
  simp [in5]

theorem ok_bind {α β : Type} (x : α) {f : α → Except DecodeError β} : (Except.ok x >>= f) = f x := rfl

theorem rmode_bind_eq_ok {r : BitVec 3} {f : BitVec 3 → Except DecodeError Instr} {i : Instr} :
    (rmode r >>= f) = .ok i ↔ rmOk r = true ∧ f r = .ok i := by
  cases h : rmOk r <;> simp [rmode, h, bind, Except.bind]

/-! ### Encoded instructions decode -/

/-- An instruction is read back from its words. -/
def Decodes (i : Instr) : Prop :=
  ∀ sl w ext, i.wellFormed = true → encode i = some (sl, w, ext) → decodeSlot sl w ext = .ok i

theorem decodes_of {i : Instr} {sl : Slot} {w' : Word32} {ext : List Word32} (he : encode i = some (sl, w', ext))
    (hd : i.wellFormed = true → ∀ w, w = w' → decodeSlot sl w ext = .ok i) : Decodes i := by
  intro sl₁ w₁ ext₁ hwf he₁
  rw [he] at he₁
  cases he₁
  exact hd hwf w' rfl

/-- Scalar arithmetic, logic and shifts (R209). -/
theorem decodes_scalarArithmetic :
    (∀ d a b, Decodes (.add d a b)) ∧
    (∀ d a b, Decodes (.sub d a b)) ∧
    (∀ d a b, Decodes (.and d a b)) ∧
    (∀ d a b, Decodes (.or d a b)) ∧
    (∀ d a b, Decodes (.xor d a b)) ∧
    (∀ d a b, Decodes (.andn d a b)) ∧
    (∀ d a b, Decodes (.shl d a b)) ∧
    (∀ d a b, Decodes (.shr d a b)) ∧
    (∀ d a b, Decodes (.sar d a b)) ∧
    (∀ d a b, Decodes (.rotl d a b)) ∧
    (∀ d a n, Decodes (.shli d a n)) ∧
    (∀ d a n, Decodes (.shri d a n)) ∧
    (∀ d a n, Decodes (.sari d a n)) := by
  refine ⟨fun d a b => ?_, fun d a b => ?_, fun d a b => ?_, fun d a b => ?_, fun d a b => ?_, fun d a b => ?_, fun d a b => ?_, fun d a b => ?_,
      fun d a b => ?_, fun d a b => ?_, fun d a n => ?_, fun d a n => ?_, fun d a n => ?_⟩ <;>
    · refine decodes_of rfl fun hwf w hw => ?_
      simp only [eq_wordR_iff, eq_wordI_iff, fld_imm_iff, BitVec.ofNat_eq_ofNat] at hw
      simp [decodeSlot, decodeS, hw, noExt_bind, need_bind_eq_ok, pure_eq_ok, -bind_pure_comp]

/-- Scalar instructions with a signedness or a width (R209 to R211). -/
theorem decodes_scalarSigned :
    (∀ d a b u, Decodes (.min d a b u)) ∧
    (∀ d a b u, Decodes (.max d a b u)) ∧
    (∀ d a b u, Decodes (.div d a b u)) ∧
    (∀ d a b u, Decodes (.rem d a b u)) ∧
    (∀ d a u, Decodes (.clz d a u)) ∧
    (∀ d a u, Decodes (.ctz d a u)) ∧
    (∀ d a u, Decodes (.popc d a u)) := by
  refine ⟨fun d a b u => ?_, fun d a b u => ?_, fun d a b u => ?_, fun d a b u => ?_, fun d a u => ?_, fun d a u => ?_, fun d a u => ?_⟩ <;>
    · refine decodes_of rfl fun hwf w hw => ?_
      simp only [eq_wordR_iff, BitVec.ofNat_eq_ofNat] at hw
      simp [decodeSlot, decodeS, hw, noExt_bind, need_bind_eq_ok, pure_eq_ok, append_bit1_beq_one, toNat_append_bit1, Bool.toNat_le, -bind_pure_comp]

/-- Scalar instructions with a part, a size, a condition or a field that has a limit (R209 to R213). -/
theorem decodes_scalarLimited :
    (∀ d a b part, Decodes (.mul d a b part)) ∧
    (∀ d a sz, Decodes (.sext d a sz)) ∧
    (∀ d a sz, Decodes (.zext d a sz)) ∧
    (∀ d a u w p, Decodes (.bfx d a u w p)) ∧
    (∀ d a w p, Decodes (.bfi d a w p)) ∧
    (∀ d a b cc, Decodes (.cmp d a b cc)) ∧
    (∀ d a cc v, Decodes (.cmpi d a cc v)) ∧
    (∀ dst a imm, Decodes (.setn dst a imm)) ∧
    (∀ z en, Decodes (.rotb z en)) ∧
    (∀ d a j, Decodes (.wfldGet d a j)) ∧
    (∀ d a b j, Decodes (.wfldSet d a b j)) ∧
    (∀ d a j, Decodes (.wfldLvl d a j)) ∧
    (∀ d k, Decodes (.krd d k)) ∧
    (∀ k a, Decodes (.kwr k a)) ∧
    (∀ r own cl, Decodes (.spawn r own cl)) := by
  refine ⟨fun d a b part => ?_, fun d a sz => ?_, fun d a sz => ?_, fun d a u w p => ?_, fun d a w p => ?_, fun d a b cc => ?_, fun d a cc v => ?_,
      fun dst a imm => ?_, fun z en => ?_, fun d a j => ?_, fun d a b j => ?_, fun d a j => ?_, fun d k => ?_, fun k a => ?_, fun r own cl => ?_⟩ <;>
    · refine decodes_of rfl fun hwf w hw => ?_
      simp only [eq_wordR_iff, eq_wordI_iff, eq_wordIF_iff, fld_imm_iff, fld_dst_iff, BitVec.ofNat_eq_ofNat] at hw
      simpa [decodeSlot, decodeS, hw, noExt_bind, need_bind_eq_ok, pure_eq_ok, encLow_extImm_encExt, zero_append_two, limit_eq_ok, bit1_beq_one,
          Instr.wellFormed, toNat_in5, setWidth_in5, toNat_in6, setWidth_in6, cls16_in6, ok_bind, -bind_pure_comp] using hwf

/-- Instructions of slot S with a long immediate (R34). -/
theorem decodes_scalarImmediates :
    (∀ d a v, Decodes (.addi d a v)) ∧
    (∀ d a v, Decodes (.andi d a v)) ∧
    (∀ d a v, Decodes (.ori d a v)) ∧
    (∀ d a v, Decodes (.xori d a v)) ∧
    (∀ d v, Decodes (.movi d v)) ∧
    (∀ p neg v, Decodes (.br p neg v)) ∧
    (∀ p neg v, Decodes (.brl p neg v)) ∧
    (∀ a v, Decodes (.jmp a v)) ∧
    (∀ d a v, Decodes (.jmpl d a v)) ∧
    (∀ en v, Decodes (.bloop en v)) ∧
    (∀ a v, Decodes (.chkpt a v)) ∧
    (∀ v, Decodes (.trap v)) := by
  refine ⟨fun d a v => ?_, fun d a v => ?_, fun d a v => ?_, fun d a v => ?_, fun d v => ?_, fun p neg v => ?_, fun p neg v => ?_, fun a v => ?_,
      fun d a v => ?_, fun en v => ?_, fun a v => ?_, fun v => ?_⟩ <;>
    · refine decodes_of rfl fun hwf w hw => ?_
      simp only [eq_wordI_iff, eq_wordW_iff, eq_wordB_iff, eq_wordIF_iff, in6_three, fld_dst_iff, BitVec.ofNat_eq_ofNat] at hw
      simp [decodeSlot, decodeS, hw, noExt_bind, need_bind_eq_ok, pure_eq_ok, encLow_extImm_encExt, cls16_in6, cls32_in6, ok_bind, bit1_beq_one,
          -bind_pure_comp]

/-- Predicates, selects, nests, contexts and the loss scale (R213, R214, R290 to R301, R356 to R399). -/
theorem decodes_scalarControl :
    (∀ d a b, Decodes (.pand d a b)) ∧
    (∀ d a b, Decodes (.por d a b)) ∧
    (∀ d a b, Decodes (.pxor d a b)) ∧
    (∀ d a b, Decodes (.pandn d a b)) ∧
    (∀ d a b c, Decodes (.sel d a b c)) ∧
    (∀ depth1 mask, Decodes (.nest depth1 mask)) ∧
    (∀ depth1 mask, Decodes (.nestR depth1 mask)) ∧
    (∀ prio, Decodes (.suspend prio)) ∧
    Decodes .exit ∧
    (∀ holds id, Decodes (.brk holds id)) ∧
    Decodes .rett ∧
    (∀ d a, Decodes (.lscale d a)) ∧
    (∀ d a, Decodes (.lscaleP d a)) := by
  refine ⟨fun d a b => ?_, fun d a b => ?_, fun d a b => ?_, fun d a b => ?_, fun d a b c => ?_, fun depth1 mask => ?_, fun depth1 mask => ?_,
      fun prio => ?_, ?_, fun holds id => ?_, ?_, fun d a => ?_, fun d a => ?_⟩ <;>
    · refine decodes_of rfl fun hwf w hw => ?_
      simp only [eq_wordR_iff, eq_wordI_iff, eq_wordW_iff, fld_imm_iff, fld_dst_iff, in6_two_bit, BitVec.ofNat_eq_ofNat] at hw
      simp [decodeSlot, decodeS, hw, noExt_bind, need_bind_eq_ok, pure_eq_ok, toNat_lt_16, cls16_in6, ok_bind, toNat_in5, setWidth_in5, fld_low26_iff,
          -bind_pure_comp]

/-- Address registers (R184, R185). -/
theorem decodes_addresses :
    (∀ d a b, Decodes (.adda d a b)) ∧
    (∀ d a v, Decodes (.addai d a v)) ∧
    (∀ d a, Decodes (.mova d a)) ∧
    (∀ d a, Decodes (.movaToS d a)) ∧
    (∀ d a v, Decodes (.setstep d a v)) ∧
    (∀ n k t v, Decodes (.itset n k t v)) := by
  refine ⟨fun d a b => ?_, fun d a v => ?_, fun d a => ?_, fun d a => ?_, fun d a v => ?_, fun n k t v => ?_⟩ <;>
    · refine decodes_of rfl fun hwf w hw => ?_
      simp only [eq_wordR_iff, eq_wordI_iff, fld_dst_iff, BitVec.ofNat_eq_ofNat] at hw
      simp [decodeSlot, decodeA, hw, noExt_bind, need_bind_eq_ok, pure_eq_ok, encLow_extImm_encExt, cls32_in6, ok_bind, -bind_pure_comp]

/-- Loads and stores without a limit (R186 to R190, R327, R330). -/
theorem decodes_plainAccesses :
    (∀ d base off sz, Decodes (.st d base off sz)) ∧
    (∀ d base off sz, Decodes (.stRel d base off sz)) ∧
    (∀ d base off sz, Decodes (.stSc d base off sz)) ∧
    (∀ d base off, Decodes (.ldV d base off)) ∧
    (∀ d base off, Decodes (.stV d base off)) ∧
    (∀ d base off, Decodes (.ldD d base off)) ∧
    (∀ d base off, Decodes (.stD d base off)) ∧
    (∀ d base off, Decodes (.ast d base off)) ∧
    (∀ d base off f acc, Decodes (.stG d base off f acc)) ∧
    (∀ d base off f acc, Decodes (.stGBlk d base off f acc)) ∧
    (∀ d a b dw m, Decodes (.gath d a b dw m)) ∧
    (∀ d a b dw m, Decodes (.scat d a b dw m)) := by
  refine ⟨fun d base off sz => ?_, fun d base off sz => ?_, fun d base off sz => ?_, fun d base off => ?_, fun d base off => ?_, fun d base off => ?_,
      fun d base off => ?_, fun d base off => ?_, fun d base off f acc => ?_, fun d base off f acc => ?_, fun d a b dw m => ?_, fun d a b dw m => ?_⟩ <;>
    · refine decodes_of rfl fun hwf w hw => ?_
      simp only [eq_wordR_iff, eq_wordM_iff, fld_ctl_iff, fld_fn_iff, in6_two, in5_three, BitVec.ofNat_eq_ofNat] at hw
      simp [decodeSlot, decodeA, hw, noExt_bind, need_bind_eq_ok, pure_eq_ok, cls32_in6, ok_bind, append_bit1_beq_one, toNat_append_bit1,
          Bool.toNat_le, bit1_beq_one, -bind_pure_comp]

/-- Loads and fences with a limit (R186 to R192, R327 to R330). -/
theorem decodes_limitedAccesses :
    (∀ d base off sz sx, Decodes (.ld d base off sz sx)) ∧
    (∀ d base off sz sx, Decodes (.ldAcq d base off sz sx)) ∧
    (∀ d base off sz sx, Decodes (.ldSc d base off sz sx)) ∧
    (∀ a b kinds, Decodes (.fenceR a b kinds)) ∧
    (∀ cls d base off, Decodes (.spill cls d base off)) ∧
    (∀ cls d base off, Decodes (.fill cls d base off)) := by
  refine ⟨fun d base off sz sx => ?_, fun d base off sz sx => ?_, fun d base off sz sx => ?_, fun a b kinds => ?_, fun cls d base off => ?_,
      fun cls d base off => ?_⟩ <;>
    · refine decodes_of rfl fun hwf w hw => ?_
      simp only [eq_wordR_iff, eq_wordM_iff, fld_ctl_iff, BitVec.ofNat_eq_ofNat] at hw
      simpa [decodeSlot, decodeA, hw, noExt_bind, need_bind_eq_ok, pure_eq_ok, limit_eq_ok, cls32_in6, ok_bind, zero_append_two, toNat_le_3,
          bit1_beq_one, Instr.wellFormed, -bind_pure_comp] using hwf

/-- Accumulator instructions without a limit (R193). -/
theorem decodes_atomics :
    (∀ d base off w fl, Decodes (.axadd d base off w fl)) ∧
    (∀ d a b w, Decodes (.acas d a b w)) ∧
    (∀ d base off w, Decodes (.axchg d base off w)) ∧
    (∀ d base off w, Decodes (.aand d base off w)) ∧
    (∀ d base off w, Decodes (.aor d base off w)) := by
  refine ⟨fun d base off w fl => ?_, fun d a b w => ?_, fun d base off w => ?_, fun d base off w => ?_, fun d base off w => ?_⟩ <;>
    · refine decodes_of rfl fun hwf w hw => ?_
      simp only [eq_wordR_iff, eq_wordM_iff, fld_accCtl_iff, BitVec.ofNat_eq_ofNat] at hw
      simp [decodeSlot, decodeA, hw, noExt_bind, need_bind_eq_ok, pure_eq_ok, fld_acc_iff, bit1_eq_zero, cls32_in6, ok_bind, append_bit1_beq_one,
          toNat_append_bit1, Bool.toNat_le, bit1_beq_one, -bind_pure_comp]

/-- Accumulator instructions with a limit (R193). -/
theorem decodes_limitedAtomics :
    (∀ d base off w fl blk, Decodes (.awrOw d base off w fl blk)) ∧
    (∀ d base off w fl blk, Decodes (.awrAdd d base off w fl blk)) ∧
    (∀ d base off w fl u, Decodes (.amin d base off w fl u)) ∧
    (∀ d base off w fl u, Decodes (.amax d base off w fl u)) ∧
    (∀ d base off w blk, Decodes (.ald d base off w blk)) := by
  refine ⟨fun d base off w fl blk => ?_, fun d base off w fl blk => ?_, fun d base off w fl u => ?_, fun d base off w fl u => ?_,
      fun d base off w blk => ?_⟩ <;>
    · refine decodes_of rfl fun hwf w hw => ?_
      simp only [eq_wordM_iff, fld_accCtl_iff, BitVec.ofNat_eq_ofNat] at hw
      simpa [decodeSlot, decodeA, hw, noExt_bind, need_bind_eq_ok, pure_eq_ok, fld_acc_iff, bit1_eq_zero, limit_eq_ok, bit1_beq_one, Instr.wellFormed,
          -bind_pure_comp] using hwf

/-- The timed load, with its landing cycles (R34, R188). -/
theorem decodes_timedLoad : ∀ d base off land, Decodes (.ldL d base off land) := by
  intro d base off land
  refine decodes_of rfl fun hwf w hw => ?_
  have hland : land < 2 ^ 63 := of_decide_eq_true hwf
  simp only [eq_wordM_iff] at hw
  simp [decodeSlot, decodeA, hw, cls32_in6, ok_bind, landCycles_encLand hland, pure_eq_ok, -bind_pure_comp]

/-- Lane instructions whose function field holds a size alone (R215 to R220, R239 to R243). -/
theorem decodes_vectorPlain :
    (∀ d a b m sz, Decodes (.vand d a b m sz)) ∧
    (∀ d a b m sz, Decodes (.vor d a b m sz)) ∧
    (∀ d a b m sz, Decodes (.vxor d a b m sz)) ∧
    (∀ d a b m sz, Decodes (.vshl d a b m sz)) ∧
    (∀ d a b m sz, Decodes (.vshr d a b m sz)) ∧
    (∀ d a b m sz, Decodes (.vsar d a b m sz)) ∧
    (∀ d a b m sz, Decodes (.vsel d a b m sz)) ∧
    (∀ d a b m sz, Decodes (.vperm d a b m sz)) ∧
    (∀ d a b m fmt, Decodes (.vfmin d a b m fmt)) ∧
    (∀ d a b m fmt, Decodes (.vfmax d a b m fmt)) ∧
    (∀ d a m fmt, Decodes (.vfclass d a m fmt)) := by
  refine ⟨fun d a b m sz => ?_, fun d a b m sz => ?_, fun d a b m sz => ?_, fun d a b m sz => ?_, fun d a b m sz => ?_, fun d a b m sz => ?_,
      fun d a b m sz => ?_, fun d a b m sz => ?_, fun d a b m fmt => ?_, fun d a b m fmt => ?_, fun d a m fmt => ?_⟩ <;>
    · refine decodes_of rfl fun hwf w hw => ?_
      simp only [eq_wordV_iff, fld_fn_iff, in5_two, BitVec.ofNat_eq_ofNat] at hw
      simp [decodeSlot, decodeV, hw, noExt_bind, need_bind_eq_ok, pure_eq_ok, -bind_pure_comp]

/-- The sign instructions and the functions (R241, R242). -/
theorem decodes_vectorSigns :
    (∀ d a b m fmt, Decodes (.vfsgnCopy d a b m fmt)) ∧
    (∀ d a b m fmt, Decodes (.vfsgnNeg d a b m fmt)) ∧
    (∀ d a b m fmt, Decodes (.vfsgnXor d a b m fmt)) ∧
    (∀ d a m cl fmt, Decodes (.vfexp d a m cl fmt)) ∧
    (∀ d a m cl fmt, Decodes (.vfexp2 d a m cl fmt)) ∧
    (∀ d a m cl fmt, Decodes (.vflog d a m cl fmt)) ∧
    (∀ d a m cl fmt, Decodes (.vflog2 d a m cl fmt)) ∧
    (∀ d a m cl fmt, Decodes (.vfsin d a m cl fmt)) ∧
    (∀ d a m cl fmt, Decodes (.vfcos d a m cl fmt)) ∧
    (∀ d a m cl fmt, Decodes (.vftanh d a m cl fmt)) ∧
    (∀ d a m cl fmt, Decodes (.vfrcp d a m cl fmt)) ∧
    (∀ d a m cl fmt, Decodes (.vfrsq d a m cl fmt)) := by
  refine ⟨fun d a b m fmt => ?_, fun d a b m fmt => ?_, fun d a b m fmt => ?_, fun d a m cl fmt => ?_, fun d a m cl fmt => ?_, fun d a m cl fmt => ?_,
      fun d a m cl fmt => ?_, fun d a m cl fmt => ?_, fun d a m cl fmt => ?_, fun d a m cl fmt => ?_, fun d a m cl fmt => ?_, fun d a m cl fmt => ?_⟩ <;>
    · refine decodes_of rfl fun hwf w hw => ?_
      simp only [eq_wordV_iff, fld_fn_iff, in5_two_bit, BitVec.ofNat_eq_ofNat] at hw
      simp [decodeSlot, decodeV, hw, noExt_bind, need_bind_eq_ok, pure_eq_ok, bit1_beq_one, -bind_pure_comp]

/-- Integer lane arithmetic (R217, R218). -/
theorem decodes_vectorInteger :
    (∀ d a b m sz sat u, Decodes (.vadd d a b m sz sat u)) ∧
    (∀ d a b m sz sat u, Decodes (.vsub d a b m sz sat u)) ∧
    (∀ d a b m sz sat u hi, Decodes (.vmul d a b m sz sat u hi)) ∧
    (∀ d a b m sz cc, Decodes (.vcmp d a b m sz cc)) ∧
    (∀ d a m sz, Decodes (.vmov d a m sz)) := by
  refine ⟨fun d a b m sz sat u => ?_, fun d a b m sz sat u => ?_, fun d a b m sz sat u hi => ?_, fun d a b m sz cc => ?_, fun d a m sz => ?_⟩ <;>
    · refine decodes_of rfl fun hwf w hw => ?_
      simp only [eq_wordV_iff, fld_fn_iff, laneFn, in5_two, BitVec.ofNat_eq_ofNat] at hw
      simpa [decodeSlot, decodeV, hw, noExt_bind, need_bind_eq_ok, pure_eq_ok, limit_eq_ok, bit1_beq_one, bit1_eq_one, clsM_in5, ok_bind,
          Instr.wellFormed, -bind_pure_comp] using hwf

/-- Integer minimum and maximum of lanes (R218). -/
theorem decodes_vectorExtremes :
    (∀ d a b m sz u, Decodes (.vmin d a b m sz u)) ∧
    (∀ d a b m sz u, Decodes (.vmax d a b m sz u)) := by
  refine ⟨fun d a b m sz u => ?_, fun d a b m sz u => ?_⟩ <;>
    · refine decodes_of rfl fun hwf w hw => ?_
      simp only [eq_wordV_iff, fld_fn_iff, laneFn, BitVec.ofNat_eq_ofNat] at hw
      simp [decodeSlot, decodeV, hw, noExt_bind, need_bind_eq_ok, pure_eq_ok, bit1_beq_one, bit1_eq_one, -bind_pure_comp]

/-- Floating-point arithmetic and conversion (R238 to R246). -/
theorem decodes_floatArithmetic :
    (∀ d a b m rm cl fmt, Decodes (.vfadd d a b m rm cl fmt)) ∧
    (∀ d a b m rm cl fmt, Decodes (.vfsub d a b m rm cl fmt)) ∧
    (∀ d a b m rm cl fmt, Decodes (.vfmul d a b m rm cl fmt)) ∧
    (∀ d a b m rm cl fmt, Decodes (.vfma d a b m rm cl fmt)) ∧
    (∀ d a b m rm cl fmt, Decodes (.vfms d a b m rm cl fmt)) ∧
    (∀ d a b m rm cl fmt, Decodes (.vfnma d a b m rm cl fmt)) ∧
    (∀ d a b m rm cl fmt, Decodes (.vfdiv d a b m rm cl fmt)) ∧
    (∀ d a m rm cl fmt, Decodes (.vfsqrt d a m rm cl fmt)) ∧
    (∀ d a m rm fmt, Decodes (.vfrint d a m rm fmt)) ∧
    (∀ d a m rm t fmt, Decodes (.vredAdd d a m rm t fmt)) ∧
    (∀ d a m rm t fmt, Decodes (.vredMin d a m rm t fmt)) ∧
    (∀ d a m rm t fmt, Decodes (.vredMax d a m rm t fmt)) := by
  refine ⟨fun d a b m rm cl fmt => ?_, fun d a b m rm cl fmt => ?_, fun d a b m rm cl fmt => ?_, fun d a b m rm cl fmt => ?_,
      fun d a b m rm cl fmt => ?_, fun d a b m rm cl fmt => ?_, fun d a b m rm cl fmt => ?_, fun d a m rm cl fmt => ?_, fun d a m rm fmt => ?_,
      fun d a m rm t fmt => ?_, fun d a m rm t fmt => ?_, fun d a m rm t fmt => ?_⟩ <;>
    · refine decodes_of rfl fun hwf w hw => ?_
      simp only [eq_wordV_iff, fld_fn_iff, in5_two, BitVec.ofNat_eq_ofNat] at hw
      simpa [decodeSlot, decodeV, hw, noExt_bind, need_bind_eq_ok, pure_eq_ok, rmode_bind_eq_ok, bit1_beq_one, Instr.wellFormed, -bind_pure_comp] using hwf

/-- Compares, conversions and exact sums of floating-point lanes (R243 to R250). -/
theorem decodes_floatLimited :
    (∀ d a b m cc sg fmt, Decodes (.vfcmp d a b m cc sg fmt)) ∧
    (∀ d a m fmt, Decodes (.vscaleFit d a m fmt)) := by
  refine ⟨fun d a b m cc sg fmt => ?_, fun d a m fmt => ?_⟩ <;>
    · refine decodes_of rfl fun hwf w hw => ?_
      simp only [eq_wordV_iff, fld_fn_iff, BitVec.ofNat_eq_ofNat] at hw
      simpa [decodeSlot, decodeV, hw, noExt_bind, need_bind_eq_ok, pure_eq_ok, rmode_bind_eq_ok, limit_eq_ok, clsM_in5, ok_bind, bit1_beq_one,
          Instr.wellFormed, -bind_pure_comp] using hwf

/-- Broadcast and insertion (R221, R222). -/
theorem decodes_vectorScalars :
    (∀ d a sz fmt, Decodes (.vbcast d a sz fmt)) ∧
    (∀ d a lane sz, Decodes (.vins d a lane sz)) := by
  refine ⟨fun d a sz fmt => ?_, fun d a lane sz => ?_⟩ <;>
    · refine decodes_of rfl fun hwf w hw => ?_
      simp only [eq_wordR_iff, BitVec.ofNat_eq_ofNat] at hw
      simpa [decodeSlot, decodeV, hw, noExt_bind, need_bind_eq_ok, pure_eq_ok, limit_eq_ok, cls32_in6, ok_bind, zero_append_two, toNat_le_3,
          bit1_beq_one, Instr.wellFormed, -bind_pure_comp] using hwf

/-- Descriptors, packing, limbs and masks (R223 to R226, R250). -/
theorem decodes_vectorData :
    (∀ d a b, Decodes (.vdescCopy d a b)) ∧
    (∀ d a b, Decodes (.vdescSet d a b)) ∧
    (∀ d a b, Decodes (.vscaleRel d a b)) ∧
    (∀ d a b, Decodes (.mlogAnd d a b)) ∧
    (∀ d a b, Decodes (.mlogOr d a b)) ∧
    (∀ d a b, Decodes (.mlogXor d a b)) ∧
    (∀ d a b, Decodes (.mlogAndn d a b)) ∧
    (∀ d a, Decodes (.vdescGet d a)) ∧
    (∀ d a, Decodes (.mlogNot d a)) ∧
    (∀ d a, Decodes (.mlogFromv d a)) ∧
    (∀ d a, Decodes (.mlogTov d a)) ∧
    (∀ d a, Decodes (.mlogIso d a)) ∧
    (∀ d a b half, Decodes (.vpackT2 d a b half)) ∧
    (∀ d a part, Decodes (.vunpackT2 d a part)) ∧
    (∀ d a m, Decodes (.vfxsSplitLo d a m)) ∧
    (∀ d a m, Decodes (.vfxsSplitHi d a m)) := by
  refine ⟨fun d a b => ?_, fun d a b => ?_, fun d a b => ?_, fun d a b => ?_, fun d a b => ?_, fun d a b => ?_, fun d a b => ?_, fun d a => ?_,
      fun d a => ?_, fun d a => ?_, fun d a => ?_, fun d a => ?_, fun d a b half => ?_, fun d a part => ?_, fun d a m => ?_, fun d a m => ?_⟩ <;>
    · refine decodes_of rfl fun hwf w hw => ?_
      simp only [eq_wordV_iff, BitVec.ofNat_eq_ofNat] at hw
      simp [decodeSlot, decodeV, hw, noExt_bind, need_bind_eq_ok, pure_eq_ok, clsM_in5, ok_bind, append_bit1_beq_one, toNat_append_bit1, Bool.toNat_le,
          zero_append_two, toNat_le_3, -bind_pure_comp]

/-- Extraction of a lane (R222). -/
theorem decodes_vectorExtract : ∀ d a lane sz sx, Decodes (.vext d a lane sz sx) := by
  intro d a lane sz sx
  refine decodes_of rfl fun hwf w hw => ?_
  simp only [eq_wordR_iff, fld_fn_iff, BitVec.ofNat_eq_ofNat] at hw
  simpa [decodeSlot, decodeV, hw, noExt_bind, need_bind_eq_ok, pure_eq_ok, limit_eq_ok, cls32_in6, ok_bind, bit1_beq_one, Instr.wellFormed,
      -bind_pure_comp] using hwf

/-- Conversion between formats (R244, R245). -/
theorem decodes_conversion : ∀ d a cl src rm part dst, Decodes (.vfcvt d a cl src rm part dst) := by
  intro d a cl src rm part dst
  refine decodes_of rfl fun hwf w hw => ?_
  have hrm : rmOk rm = true := by
    simp only [Instr.wellFormed, Bool.and_eq_true] at hwf
    exact hwf.1.2
  simp only [eq_wordV_iff, fld_fn_iff, BitVec.ofNat_eq_ofNat] at hw
  simp [decodeSlot, decodeV, hw, noExt_bind, rmode_bind_eq_ok, limit_eq_ok, bit1_beq_one, hrm, hwf, -bind_pure_comp]

/-- Packing and unpacking: the function field holds the form and its flag (R224, R225). -/
theorem decodes_vectorPacking :
    (∀ d a b sat, Decodes (.vpackH2b d a b sat) ∧ Decodes (.vpackW2h d a b sat) ∧ Decodes (.vpackD2w d a b sat)) ∧
    (∀ d a part u, Decodes (.vunpackB2h d a part u) ∧ Decodes (.vunpackH2w d a part u) ∧ Decodes (.vunpackW2d d a part u)) := by
  refine ⟨fun d a b sat => ?_, fun d a part u => ?_⟩
  · cases sat <;> refine ⟨?_, ?_, ?_⟩ <;>
    · refine decodes_of rfl fun hwf w hw => ?_
      simp only [eq_wordV_iff, BitVec.ofNat_eq_ofNat] at hw
      simp [decodeSlot, decodeV, hw, bit1_false, bit1_true, noExt_bind, need_bind_eq_ok, pure_eq_ok, -bind_pure_comp]
  · cases u <;> refine ⟨?_, ?_, ?_⟩ <;>
    · refine decodes_of rfl fun hwf w hw => ?_
      simp only [eq_wordV_iff, BitVec.ofNat_eq_ofNat] at hw
      simp [decodeSlot, decodeV, hw, bit1_false, bit1_true, noExt_bind, need_bind_eq_ok, pure_eq_ok, bind_assoc, append_bit1_beq_one, toNat_append_bit1,
        Bool.toNat_le, -bind_pure_comp]

/-- The exact sum: the function field holds the clamp flag (R250). -/
theorem decodes_limbJoin : ∀ d a b rm cl, Decodes (.vfxsJoin d a b rm cl) := by
  intro d a b rm cl
  cases cl <;>
  · refine decodes_of rfl fun hwf w hw => ?_
    simp only [eq_wordV_iff, BitVec.ofNat_eq_ofNat] at hw
    simpa [decodeSlot, decodeV, hw, Instr.wellFormed, bit1_false, bit1_true, noExt_bind, need_bind_eq_ok, rmode_bind_eq_ok, pure_eq_ok,
        -bind_pure_comp] using hwf

/-- Operand-store slots (R195 to R197). -/
theorem decodes_operandSlots :
    (∀ f n1, Decodes (.oclaim f n1)) ∧
    (∀ f n1, Decodes (.ofree f n1)) ∧
    (∀ d base off, Decodes (.oread d base off)) ∧
    (∀ d s, Decodes (.ostat d s)) ∧
    (∀ t, Decodes (.twait t)) ∧
    (∀ slot base off, Decodes (.oload slot base off)) := by
  refine ⟨fun f n1 => ?_, fun f n1 => ?_, fun d base off => ?_, fun d s => ?_, fun t => ?_, fun slot base off => ?_⟩ <;>
    · refine decodes_of rfl fun hwf w hw => ?_
      simp only [eq_wordX_iff, eq_wordM_iff, fld_ctl8_iff, fld_ctl_iff, BitVec.ofNat_eq_ofNat] at hw
      simp [decodeSlot, decodeM, hw, noExt_bind, need_bind_eq_ok, pure_eq_ok, cls32_in6, ok_bind, slot_append, -bind_pure_comp]

/-- The integer products, and drains (R263, R265). -/
theorem decodes_matrixInt8 :
    (∀ acc a b ua ub, Decodes (.mmaInt8 acc a b ua ub)) ∧
    (∀ acc a c f, Decodes (.adrainP acc a c f)) ∧
    (∀ acc a c, Decodes (.adrain acc a c)) ∧
    (∀ acc a c, Decodes (.adrainO acc a c)) := by
  refine ⟨fun acc a b ua ub => ?_, fun acc a c f => ?_, fun acc a c => ?_, fun acc a c => ?_⟩ <;>
    · refine decodes_of rfl fun hwf w hw => ?_
      simp only [eq_wordT_iff, eq_wordX_iff, fld_tile_iff, fld_ctl8_iff, fld_two_iff, fld_drain_iff, BitVec.ofNat_eq_ofNat] at hw
      simp [decodeSlot, decodeM, hw, noExt_bind, need_bind_eq_ok, pure_eq_ok, clsT_in5, cls16_in6, ok_bind, bit1_beq_one, -bind_pure_comp]

/-- Products and tile resets with a limit (R263, R264). -/
theorem decodes_matrixLimited :
    (∀ acc a b rm, Decodes (.mmaFp64 acc a b rm)) ∧
    (∀ acc a b fmt ncode bx, Decodes (.mmas acc a b fmt ncode bx)) ∧
    (∀ acc a b ua, Decodes (.mmat acc a b ua)) ∧
    (∀ acc n1 mode, Decodes (.aclr acc n1 mode)) := by
  refine ⟨fun acc a b rm => ?_, fun acc a b fmt ncode bx => ?_, fun acc a b ua => ?_, fun acc n1 mode => ?_⟩ <;>
    · refine decodes_of rfl fun hwf w hw => ?_
      simp only [eq_wordT_iff, fld_tile_iff, BitVec.ofNat_eq_ofNat] at hw
      simpa [decodeSlot, decodeM, hw, noExt_bind, need_bind_eq_ok, pure_eq_ok, clsT_in5, ok_bind, rmode_bind_eq_ok, limit_eq_ok, bit1_beq_one,
          Instr.wellFormed, -bind_pure_comp] using hwf

/-- The products of floating-point tiles: the format field selects the form (R263). -/
theorem decodes_matrixFloat : (∀ acc a b fmt, Decodes (.mmaFloat acc a b fmt)) ∧ ∀ acc a b fmt bx, Decodes (.mmaKf8 acc a b fmt bx) := by
  refine ⟨fun acc a b fmt => decodes_of rfl fun hwf w hw => ?_, fun acc a b fmt bx => decodes_of rfl fun hwf w hw => ?_⟩
  · obtain rfl | rfl | rfl : fmt = 2 ∨ fmt = 3 ∨ fmt = 4 := by
      have hlim : 2 ≤ fmt.toNat ∧ fmt.toNat ≤ 4 := by simpa [Instr.wellFormed] using hwf
      clear hw hwf
      revert fmt
      decide
    all_goals
      simp only [eq_wordT_iff, BitVec.ofNat_eq_ofNat] at hw
      simp [decodeSlot, decodeM, hw, noExt_bind, need_bind_eq_ok, clsT_in5, ok_bind, pure_eq_ok, -bind_pure_comp]
  · obtain rfl | rfl : fmt = 5 ∨ fmt = 6 := by
      simpa [Instr.wellFormed] using hwf
    all_goals
      simp only [eq_wordT_iff, fld_tile_iff, BitVec.ofNat_eq_ofNat] at hw
      simp [decodeSlot, decodeM, hw, noExt_bind, need_bind_eq_ok, clsT_in5, ok_bind, pure_eq_ok, bit1_beq_one, -bind_pure_comp]

/-- Waits for tiles and engines, and tile tasks (R266 to R272). -/
theorem decodes_matrixWaits :
    (∀ acc, Decodes (.await acc)) ∧
    (∀ m, Decodes (.awaitM m)) ∧
    Decodes .awaitAll := by
  refine ⟨fun acc => ?_, fun m => ?_, ?_⟩ <;>
    · refine decodes_of rfl fun hwf w hw => ?_
      simp only [eq_wordX_iff, fld_ctl8_iff, fld_await_iff, BitVec.ofNat_eq_ofNat] at hw
      simp [decodeSlot, decodeM, hw, noExt_bind, need_bind_eq_ok, pure_eq_ok, -bind_pure_comp]

/-- Tile tasks (R269). -/
theorem decodes_tileTasks :
    (∀ r q, Decodes (.ttask r q)) ∧
    Decodes .ttaskHost ∧
    Decodes .ttaskUnhost := by
  refine ⟨fun r q => ?_, ?_, ?_⟩ <;>
    · refine decodes_of rfl fun hwf w hw => ?_
      simp only [eq_wordX_iff, fld_ctl8_iff, fld_task_iff, BitVec.ofNat_eq_ofNat] at hw
      simp [decodeSlot, decodeM, hw, noExt_bind, need_bind_eq_ok, pure_eq_ok, -bind_pure_comp]

/-- The copy engine and shapes (R140 to R146). -/
theorem decodes_channels :
    (∀ h w l c, Decodes (.chead h w l c)) ∧
    (∀ d c, Decodes (.cstat d c)) := by
  refine ⟨fun h w l c => ?_, fun d c => ?_⟩ <;>
    · refine decodes_of rfl fun hwf w hw => ?_
      simp only [eq_wordX_iff, fld_ctl8_iff, BitVec.ofNat_eq_ofNat] at hw
      simp [decodeSlot, decodeX, hw, noExt_bind, need_bind_eq_ok, pure_eq_ok, -bind_pure_comp]

/-- Watermarks and knocks (R143, R147). -/
theorem decodes_channelModes :
    (∀ d c, Decodes (.cwmk d c)) ∧
    (∀ a c, Decodes (.cwmkW a c)) ∧
    (∀ x, Decodes (.knarm x)) ∧
    (∀ x, Decodes (.knarmD x)) := by
  refine ⟨fun d c => ?_, fun a c => ?_, fun x => ?_, fun x => ?_⟩ <;>
    · refine decodes_of rfl fun hwf w hw => ?_
      simp only [eq_wordX_iff, fld_ctl8_iff, fld_mode2_iff, BitVec.ofNat_eq_ofNat] at hw
      simp [decodeSlot, decodeX, hw, noExt_bind, need_bind_eq_ok, pure_eq_ok, -bind_pure_comp]

/-- Instructions with a mask or a limit of slot X (R144 to R146, R349). -/
theorem decodes_channelMasks :
    (∀ mask, Decodes (.ccancel mask)) ∧
    (∀ mask, Decodes (.qjoin mask)) ∧
    (∀ v set field, Decodes (.shape v set field)) ∧
    (∀ d l re rot mask, Decodes (.waitany d l re rot mask)) := by
  refine ⟨fun mask => ?_, fun mask => ?_, fun v set field => ?_, fun d l re rot mask => ?_⟩ <;>
    · refine decodes_of rfl fun hwf w hw => ?_
      simp only [eq_wordX_iff, fld_ctl8_iff, BitVec.ofNat_eq_ofNat] at hw
      simpa [decodeSlot, decodeX, hw, noExt_bind, need_bind_eq_ok, pure_eq_ok, bind_assoc, pure_bind, limit_eq_ok, bit1_beq_one, Instr.wellFormed,
          -bind_pure_comp] using hwf

/-- Bindings and pane instructions with a code in bit 3 (R111 to R120). -/
theorem decodes_paneModes :
    (∀ r f, Decodes (.fbind r f)) ∧
    (∀ f, Decodes (.fbindU f)) ∧
    (∀ n f, Decodes (.popenOw n f)) ∧
    (∀ n f, Decodes (.popenAdd n f)) ∧
    (∀ p f, Decodes (.psettle p f)) ∧
    (∀ f, Decodes (.psettleAll f)) := by
  refine ⟨fun r f => ?_, fun f => ?_, fun n f => ?_, fun n f => ?_, fun p f => ?_, fun f => ?_⟩ <;>
    · refine decodes_of rfl fun hwf w hw => ?_
      simp only [eq_wordX_iff, fld_ctl8_iff, fld_mode3_iff, BitVec.ofNat_eq_ofNat] at hw
      simp [decodeSlot, decodeX, hw, noExt_bind, need_bind_eq_ok, pure_eq_ok, -bind_pure_comp]

/-- Pane instructions (R114 to R120). -/
theorem decodes_panes :
    (∀ f, Decodes (.pseal f)) ∧
    (∀ n f, Decodes (.papply n f)) ∧
    (∀ names frames count1, Decodes (.papplyG names frames count1)) ∧
    (∀ p new f, Decodes (.pinv p new f)) ∧
    (∀ p q f, Decodes (.pcomm p q f)) ∧
    (∀ p new f g, Decodes (.pxpl p new f g)) ∧
    (∀ l t new f, Decodes (.pglaze l t new f)) ∧
    (∀ p f, Decodes (.plift p f)) ∧
    (∀ p f, Decodes (.pdrop p f)) := by
  refine ⟨fun f => ?_, fun n f => ?_, fun names frames count1 => ?_, fun p new f => ?_, fun p q f => ?_, fun p new f g => ?_, fun l t new f => ?_,
      fun p f => ?_, fun p f => ?_⟩ <;>
    · refine decodes_of rfl fun hwf w hw => ?_
      simp only [eq_wordX_iff, fld_ctl8_iff, BitVec.ofNat_eq_ofNat] at hw
      simp [decodeSlot, decodeX, hw, noExt_bind, need_bind_eq_ok, pure_eq_ok, -bind_pure_comp]

/-- The states of panes, frames and arenas (R121). -/
theorem decodes_paneStates :
    (∀ d p f, Decodes (.pstatP d p f)) ∧
    (∀ d f, Decodes (.pstatF d f)) ∧
    (∀ d f, Decodes (.pstatA d f)) := by
  refine ⟨fun d p f => ?_, fun d f => ?_, fun d f => ?_⟩ <;>
    · refine decodes_of rfl fun hwf w hw => ?_
      simp only [eq_wordX_iff, fld_ctl8_iff, fld_mode34_iff, BitVec.ofNat_eq_ofNat] at hw
      simp [decodeSlot, decodeX, hw, noExt_bind, need_bind_eq_ok, pure_eq_ok, -bind_pure_comp]

/-- Latches (R346 to R348). -/
theorem decodes_latches :
    (∀ l rot, Decodes (.larr l rot)) ∧
    (∀ l v rot, Decodes (.larrN l v rot)) ∧
    (∀ l v rot, Decodes (.larrSet l v rot)) ∧
    (∀ l d rot, Decodes (.larrRd l d rot)) ∧
    (∀ l re rot, Decodes (.lwait l re rot)) ∧
    (∀ b n, Decodes (.lbaseSet b n)) ∧
    Decodes .lbaseStep := by
  refine ⟨fun l rot => ?_, fun l v rot => ?_, fun l v rot => ?_, fun l d rot => ?_, fun l re rot => ?_, fun b n => ?_, ?_⟩ <;>
    · refine decodes_of rfl fun hwf w hw => ?_
      simp only [eq_wordX_iff, fld_ctl8_iff, fld_two_iff, BitVec.ofNat_eq_ofNat] at hw
      simp [decodeSlot, decodeX, hw, noExt_bind, need_bind_eq_ok, pure_eq_ok, bit1_beq_one, -bind_pure_comp]

/-- Handles, the tape, collectives and page service (R81, R165, R200, R287, R288). -/
theorem decodes_handles :
    (∀ h v, Decodes (.hset h v)) ∧
    (∀ h d, Decodes (.hsetR h d)) ∧
    (∀ h c, Decodes (.hwaitData h c)) ∧
    (∀ h c, Decodes (.hwaitRoom h c)) ∧
    (∀ h c, Decodes (.hadvCons h c)) ∧
    (∀ h c, Decodes (.hadvProd h c)) ∧
    Decodes .dmodeRev ∧
    Decodes .dmodeFwd ∧
    Decodes .tapeOn ∧
    Decodes .tapeOff ∧
    Decodes .tapeReset ∧
    (∀ v, Decodes (.tapeMark v)) ∧
    (∀ d, Decodes (.tapeUnmark d)) ∧
    (∀ r, Decodes (.coll r)) ∧
    (∀ t, Decodes (.pgres t)) ∧
    (∀ t, Decodes (.pgresFail t)) ∧
    (∀ t, Decodes (.pgresInv t)) := by
  refine ⟨fun h v => ?_, fun h d => ?_, fun h c => ?_, fun h c => ?_, fun h c => ?_, fun h c => ?_, ?_, ?_, ?_, ?_, ?_, fun v => ?_, fun d => ?_,
      fun r => ?_, fun t => ?_, fun t => ?_, fun t => ?_⟩ <;>
    · refine decodes_of rfl fun hwf w hw => ?_
      simp only [eq_wordX_iff, BitVec.ofNat_eq_ofNat] at hw
      simp [decodeSlot, decodeX, hw, noExt_bind, need_bind_eq_ok, pure_eq_ok, cls16_in6, ok_bind, -bind_pure_comp]

theorem decodes_nop : Decodes .nop := decodes_of rfl fun _ w hw => by
  subst hw
  rfl

/-- An event of the device has no word. -/
theorem decodes_of_none {i : Instr} (h : encode i = none) : Decodes i := by
  intro sl w ext _ he
  rw [h] at he
  cases he

theorem decodes (i : Instr) : Decodes i := by
  cases i
  all_goals try exact decodes_of_none rfl
  all_goals
    simp only [decodes_nop, decodes_scalarArithmetic, decodes_scalarSigned, decodes_scalarLimited, decodes_scalarImmediates, decodes_scalarControl,
      decodes_addresses, decodes_plainAccesses, decodes_limitedAccesses, decodes_atomics, decodes_limitedAtomics, decodes_timedLoad,
      decodes_vectorPlain, decodes_vectorSigns, decodes_vectorInteger, decodes_vectorExtremes, decodes_floatArithmetic,
      decodes_floatLimited, decodes_vectorScalars, decodes_vectorData, decodes_vectorExtract, decodes_conversion, decodes_vectorPacking,
      decodes_limbJoin, decodes_operandSlots, decodes_matrixInt8, decodes_matrixLimited, decodes_matrixFloat, decodes_matrixWaits,
      decodes_tileTasks, decodes_channels, decodes_channelModes, decodes_channelMasks, decodes_paneModes, decodes_panes,
      decodes_paneStates, decodes_latches, decodes_handles]

/-- Settles O44, one family of instructions at a time: an encoded word's fields are the ones that the instruction was written from
(`eq_wordR_iff` and its like), and every check of the decoder passes on them. -/
theorem encodedInstructionsDecode : Obligations.EncodedInstructionsDecode := by
  unfold Obligations.EncodedInstructionsDecode
  exact fun i sl w ext hwf he => decodes i sl w ext hwf he

end Sys2Proof
end

