-- ==== Sys2Proof/Proofs/Decoding.lean ====
section
/-! The decoder gives only well-formed instructions and reads every bit of a word (R33 to R37). -/

namespace Sys2Proof

/-! ### The decoder reads every bit -/

/-- Whatever a decoding ends with has a property. -/
def Gives (m : Except DecodeError Instr) (P : Instr → Prop) : Prop := ∀ i, m = .ok i → P i

theorem gives_need {c : Bool} {e : DecodeError} {f : Unit → Except DecodeError Instr} {P : Instr → Prop} :
    Gives (need c e >>= f) P ↔ (c = true → Gives (f ()) P) := by
  simp only [Gives, need_bind_eq_ok, and_imp]
  exact forall_comm

theorem gives_noExt {ext : List Word32} {f : Unit → Except DecodeError Instr} {P : Instr → Prop} :
    Gives (noExt ext >>= f) P ↔ (ext = [] → Gives (f ()) P) := by
  rw [noExt, gives_need, List.isEmpty_iff]

theorem gives_pure {i : Instr} {P : Instr → Prop} : Gives (pure i) P ↔ P i := by
  simp [Gives, pure_eq_ok]

theorem gives_error {e : DecodeError} {P : Instr → Prop} : Gives (.error e) P :=
  nofun

theorem gives_limit {i : Instr} {P : Instr → Prop} : Gives (limit i) P ↔ (i.wellFormed = true → P i) := by
  simp [Gives, limit_eq_ok]

theorem gives_rmode {r : BitVec 3} {f : BitVec 3 → Except DecodeError Instr} {P : Instr → Prop} :
    Gives (rmode r >>= f) P ↔ (rmOk r = true → Gives (f r) P) := by
  simp only [Gives, rmode_bind_eq_ok, and_imp]
  exact forall_comm

theorem gives_cls32 {r : BitVec 6} {f : BitVec 5 → Except DecodeError Instr} {P : Instr → Prop} :
    Gives (cls32 r >>= f) P ↔ ∀ q, r = in6 q → Gives (f q) P := by
  constructor
  · rintro h q rfl
    rwa [cls32_in6, ok_bind] at h
  · intro h
    unfold cls32
    split
    next hlt =>
      refine h _ (BitVec.eq_of_toNat_eq ?_)
      rw [toNat_in6 (by decide), BitVec.toNat_setWidth, Nat.mod_eq_of_lt hlt]
    next => exact gives_error

theorem gives_cls16 {r : BitVec 6} {f : BitVec 4 → Except DecodeError Instr} {P : Instr → Prop} :
    Gives (cls16 r >>= f) P ↔ ∀ q, r = in6 q → Gives (f q) P := by
  constructor
  · rintro h q rfl
    rwa [cls16_in6, ok_bind] at h
  · intro h
    unfold cls16
    split
    next hlt =>
      refine h _ (BitVec.eq_of_toNat_eq ?_)
      rw [toNat_in6 (by decide), BitVec.toNat_setWidth, Nat.mod_eq_of_lt hlt]
    next => exact gives_error

theorem gives_clsM {r : BitVec 5} {f : BitVec 3 → Except DecodeError Instr} {P : Instr → Prop} :
    Gives (clsM r >>= f) P ↔ ∀ q, r = in5 q → Gives (f q) P := by
  constructor
  · rintro h q rfl
    rwa [clsM_in5, ok_bind] at h
  · intro h
    unfold clsM
    split
    next hlt =>
      refine h _ (BitVec.eq_of_toNat_eq ?_)
      rw [toNat_in5 (by decide), BitVec.toNat_setWidth, Nat.mod_eq_of_lt hlt]
    next => exact gives_error

theorem gives_clsT {r : BitVec 5} {f : BitVec 4 → Except DecodeError Instr} {P : Instr → Prop} :
    Gives (clsT r >>= f) P ↔ ∀ q, r = in5 q → Gives (f q) P := by
  constructor
  · rintro h q rfl
    rwa [clsT_in5, ok_bind] at h
  · intro h
    unfold clsT
    split
    next hlt =>
      refine h _ (BitVec.eq_of_toNat_eq ?_)
      rw [toNat_in5 (by decide), BitVec.toNat_setWidth, Nat.mod_eq_of_lt hlt]
    next => exact gives_error

/-- What a word decodes to is well formed, and a lone word is the one that it encodes to. -/
def ReadsAll (sl : Slot) (w : Word32) (ext : List Word32) (i : Instr) : Prop :=
  i.wellFormed = true ∧ (i = .nop → w = 0 ∧ ext = []) ∧ (i ≠ .nop → ext = [] → encode i = some (sl, w, []))

theorem readsAll_of {sl : Slot} {w w' : Word32} {ext ext' : List Word32} {i : Instr} (hne : i ≠ .nop)
    (he : encode i = some (sl, w', ext')) (hwf : i.wellFormed = true) (hw : ext = [] → w = w' ∧ ext' = []) : ReadsAll sl w ext i := by
  refine ⟨hwf, fun h => absurd h hne, fun _ hext => ?_⟩
  obtain ⟨rfl, rfl⟩ := hw hext
  exact he

theorem fld_sign_iff {w : Word32} :
    (fld w 2 3 = 0#3 ↔ fld w 3 2 = 0#2 ∧ fld w 2 1 = 0#1) ∧
    (fld w 2 3 = 2#3 ↔ fld w 3 2 = 1#2 ∧ fld w 2 1 = 0#1) ∧
    (fld w 2 3 = 4#3 ↔ fld w 3 2 = 2#2 ∧ fld w 2 1 = 0#1) :=
  ⟨fld_eq_append_iff (x1 := 0#2) (x2 := 0#1), fld_eq_append_iff (x1 := 1#2) (x2 := 0#1), fld_eq_append_iff (x1 := 2#2) (x2 := 0#1)⟩

theorem fld_nest_iff {w : Word32} :
    (fld w 22 4 = 0#4 ↔ fld w 23 3 = 0#3 ∧ fld w 22 1 = 0#1) ∧
    (fld w 22 4 = 1#4 ↔ fld w 23 3 = 0#3 ∧ fld w 22 1 = 1#1) :=
  ⟨fld_eq_append_iff (x1 := 0#3) (x2 := 0#1), fld_eq_append_iff (x1 := 0#3) (x2 := 1#1)⟩

theorem bit_ne_zero (x : BitVec 1) : (¬ x = 0#1) ↔ x = 1#1 := by
  revert x
  decide

theorem bit_ne_one (x : BitVec 1) : (¬ x = 1#1) ↔ x = 0#1 := by
  revert x
  decide

theorem eq_three {x : BitVec 2} (h0 : ¬ x = 0#2) (h1 : ¬ x = 1#2) (h2 : ¬ x = 2#2) : x = 3#2 := by
  revert x
  decide

theorem low_of_slot (x : BitVec 1) (y : BitVec 6) : (x ++ y).setWidth 6 = y ∧ (x ++ y).extractLsb' 6 1 = x := by
  revert x y
  decide

theorem bit1_beq_self (x : BitVec 1) : x = bit1 (x == 1#1) := by
  revert x
  decide

theorem eq_in5_four (v : BitVec 5) : v = in5 (v.setWidth 4) ↔ v.toNat < 16 := by
  revert v
  decide

theorem eq_in5_three (v : BitVec 5) : v = in5 (v.setWidth 3) ↔ v.toNat < 8 := by
  revert v
  decide

theorem eq_in6_three (v : BitVec 6) : v = in6 (v.setWidth 3) ↔ v.toNat < 8 := by
  revert v
  decide

theorem eq_append_bit1 (v : BitVec 3) : v = 0#2 ++ bit1 (v == 1#3) ↔ v.toNat ≤ 1 := by
  revert v
  decide

theorem eq_append_two (v : BitVec 3) : v = 0#1 ++ v.setWidth 2 ↔ v.toNat ≤ 3 := by
  revert v
  decide

theorem decodeNop_readsAll {sl : Slot} {w : Word32} {ext : List Word32} : Gives (decodeNop w ext) (ReadsAll sl w ext) := by
  simp only [decodeNop, gives_noExt, gives_need, gives_pure]
  intro hext hw
  exact ⟨rfl, fun _ => ⟨beq_iff_eq.mp hw, hext⟩, fun h => absurd rfl h⟩

/-! #### The map of slot S -/

/-- Scalar arithmetic and logic, the minimum and the maximum (R209). -/
theorem decodeS_scalarArithmetic {w : Word32} {ext : List Word32} (hm : (fld w 26 6).toNat ∈ [1, 2, 3, 4, 5, 6, 7, 8, 9, 10, 11, 12]) :
    Gives (decodeS w ext) (ReadsAll .S w ext) := by
  simp only [List.mem_cons, List.not_mem_nil, or_false] at hm
  rcases hm with hm | hm | hm | hm | hm | hm | hm | hm | hm | hm | hm | hm <;>
    · simp only [decodeS, hm, bind_assoc, pure_bind, gives_noExt, gives_need, gives_pure, gives_limit, gives_rmode, gives_cls32, gives_cls16,
          gives_clsM, gives_clsT]
      simp only [BitVec.toNat_eq_nat] at hm
      intros
      refine readsAll_of nofun rfl ?_ fun hext => ?_
      · simp_all [Instr.wellFormed]
      · simp_all [eq_wordR_iff, eq_append_bit1, bit_ne_zero, bit_ne_one]

/-- Division (R210). -/
theorem decodeS_division {w : Word32} {ext : List Word32} (hm : (fld w 26 6).toNat ∈ [14, 15]) :
    Gives (decodeS w ext) (ReadsAll .S w ext) := by
  simp only [List.mem_cons, List.not_mem_nil, or_false] at hm
  rcases hm with hm | hm <;>
    · simp only [decodeS, hm, bind_assoc, pure_bind, gives_noExt, gives_need, gives_pure, gives_limit, gives_rmode, gives_cls32, gives_cls16,
          gives_clsM, gives_clsT]
      simp only [BitVec.toNat_eq_nat] at hm
      intros
      refine readsAll_of nofun rfl ?_ fun hext => ?_
      · simp_all [Instr.wellFormed]
      · simp_all [eq_wordR_iff, eq_append_bit1, bit_ne_zero, bit_ne_one]

/-- Multiplication (R209). -/
theorem decodeS_multiplication {w : Word32} {ext : List Word32} (hm : (fld w 26 6).toNat ∈ [13]) :
    Gives (decodeS w ext) (ReadsAll .S w ext) := by
  simp only [List.mem_cons, List.not_mem_nil, or_false] at hm
  simp only [decodeS, hm, bind_assoc, pure_bind, gives_noExt, gives_need, gives_pure, gives_limit, gives_rmode, gives_cls32, gives_cls16, gives_clsM,
      gives_clsT]
  simp only [BitVec.toNat_eq_nat] at hm
  intros
  refine readsAll_of nofun rfl ?_ fun hext => ?_
  · simp_all [Instr.wellFormed] <;> omega
  · simp_all [eq_wordR_iff, eq_append_two, bit_ne_zero, bit_ne_one] <;> omega

/-- Instructions of slot S with a long immediate (R34). -/
theorem decodeS_scalarImmediates {w : Word32} {ext : List Word32} (hm : (fld w 26 6).toNat ∈ [16, 17, 18, 19, 23, 32, 33, 34, 35, 36, 46, 47]) :
    Gives (decodeS w ext) (ReadsAll .S w ext) := by
  simp only [List.mem_cons, List.not_mem_nil, or_false] at hm
  rcases hm with hm | hm | hm | hm | hm | hm | hm | hm | hm | hm | hm | hm <;>
    · simp only [decodeS, hm, bind_assoc, pure_bind, gives_noExt, gives_need, gives_pure, gives_limit, gives_rmode, gives_cls32, gives_cls16,
          gives_clsM, gives_clsT]
      simp only [BitVec.toNat_eq_nat] at hm
      intros
      refine readsAll_of nofun rfl ?_ fun hext => ?_
      · simp_all [Instr.wellFormed]
      · simp_all [eq_wordI_iff, eq_wordW_iff, eq_wordB_iff, encLow_extImm_nil, encExt_extImm_nil, ← bit1_beq_self, in6_three, fld_dst_iff, bit_ne_zero,
            bit_ne_one]

/-- The compare with an immediate (R213). -/
theorem decodeS_compareImmediate {w : Word32} {ext : List Word32} (hm : (fld w 26 6).toNat ∈ [30]) :
    Gives (decodeS w ext) (ReadsAll .S w ext) := by
  simp only [List.mem_cons, List.not_mem_nil, or_false] at hm
  simp only [decodeS, hm, bind_assoc, pure_bind, gives_noExt, gives_need, gives_pure, gives_limit, gives_rmode, gives_cls32, gives_cls16, gives_clsM,
      gives_clsT]
  simp only [BitVec.toNat_eq_nat] at hm
  intros
  refine readsAll_of nofun rfl ?_ fun hext => ?_
  · simp_all [Instr.wellFormed]
  · simp_all [eq_wordIF_iff, encLow_extImm_nil, encExt_extImm_nil, bit_ne_zero, bit_ne_one]

/-- Shifts by an immediate (R209). -/
theorem decodeS_shifts {w : Word32} {ext : List Word32} (hm : (fld w 26 6).toNat ∈ [20, 21, 22]) :
    Gives (decodeS w ext) (ReadsAll .S w ext) := by
  simp only [List.mem_cons, List.not_mem_nil, or_false] at hm
  rcases hm with hm | hm | hm <;>
    · simp only [decodeS, hm, bind_assoc, pure_bind, gives_noExt, gives_need, gives_pure, gives_limit, gives_rmode, gives_cls32, gives_cls16,
          gives_clsM, gives_clsT]
      simp only [BitVec.toNat_eq_nat] at hm
      intros
      refine readsAll_of nofun rfl ?_ fun hext => ?_
      · simp_all [Instr.wellFormed]
      · simp_all [eq_wordI_iff, fld_imm_iff, bit_ne_zero, bit_ne_one]

/-- Bit counts (R211). -/
theorem decodeS_counts {w : Word32} {ext : List Word32} (hm : (fld w 26 6).toNat ∈ [24]) :
    Gives (decodeS w ext) (ReadsAll .S w ext) := by
  simp only [List.mem_cons, List.not_mem_nil, or_false] at hm
  simp only [decodeS, hm, bind_assoc, pure_bind, gives_noExt, gives_need, gives_pure, gives_limit, gives_rmode, gives_cls32, gives_cls16, gives_clsM,
      gives_clsT]
  simp only [BitVec.toNat_eq_nat] at hm
  intros
  split
  all_goals try exact gives_error
  all_goals
    simp only [bind_assoc, pure_bind, gives_noExt, gives_need, gives_pure, gives_limit, gives_rmode, gives_cls32, gives_cls16, gives_clsM]
    refine readsAll_of nofun rfl ?_ fun hext => ?_
    · simp_all [Instr.wellFormed, BitVec.toNat_eq_nat]
    · simp_all [eq_wordR_iff, eq_append_bit1, bit_ne_zero, bit_ne_one, BitVec.toNat_eq_nat]

/-- Extensions (R209). -/
theorem decodeS_extensions {w : Word32} {ext : List Word32} (hm : (fld w 26 6).toNat ∈ [25]) :
    Gives (decodeS w ext) (ReadsAll .S w ext) := by
  simp only [List.mem_cons, List.not_mem_nil, or_false] at hm
  simp only [decodeS, hm, bind_assoc, pure_bind, gives_noExt, gives_need, gives_pure, gives_limit, gives_rmode, gives_cls32, gives_cls16, gives_clsM,
      gives_clsT]
  simp only [BitVec.toNat_eq_nat] at hm
  intros
  split
  all_goals try exact gives_error
  all_goals
    simp only [bind_assoc, pure_bind, gives_noExt, gives_need, gives_pure, gives_limit, gives_rmode, gives_cls32, gives_cls16, gives_clsM]
    refine readsAll_of nofun rfl ?_ fun hext => ?_
    · simp_all [Instr.wellFormed, BitVec.toNat_eq_nat] <;> omega
    · simp_all [eq_wordR_iff, eq_append_two, bit_ne_zero, bit_ne_one, BitVec.toNat_eq_nat] <;> omega

/-- Bit fields, system registers and the instructions of contexts (R212, R310, R356, R388, R398). -/
theorem decodeS_scalarFields {w : Word32} {ext : List Word32} (hm : (fld w 26 6).toNat ∈ [26, 27, 41, 42, 43, 44, 45, 48]) :
    Gives (decodeS w ext) (ReadsAll .S w ext) := by
  simp only [List.mem_cons, List.not_mem_nil, or_false] at hm
  rcases hm with hm | hm | hm | hm | hm | hm | hm | hm <;>
    · simp only [decodeS, hm, bind_assoc, pure_bind, gives_noExt, gives_need, gives_pure, gives_limit, gives_rmode, gives_cls32, gives_cls16,
          gives_clsM, gives_clsT]
      simp only [BitVec.toNat_eq_nat] at hm
      intros
      refine readsAll_of nofun rfl ?_ fun hext => ?_
      · simp_all [Instr.wellFormed]
      · simp_all [eq_wordI_iff, eq_wordW_iff, fld_imm_iff, ← bit1_beq_self, bit_ne_zero, bit_ne_one]

/-- Selects and compares (R213, R214). -/
theorem decodeS_selects {w : Word32} {ext : List Word32} (hm : (fld w 26 6).toNat ∈ [28, 29]) :
    Gives (decodeS w ext) (ReadsAll .S w ext) := by
  simp only [List.mem_cons, List.not_mem_nil, or_false] at hm
  rcases hm with hm | hm <;>
    · simp only [decodeS, hm, bind_assoc, pure_bind, gives_noExt, gives_need, gives_pure, gives_limit, gives_rmode, gives_cls32, gives_cls16,
          gives_clsM, gives_clsT]
      simp only [BitVec.toNat_eq_nat] at hm
      intros
      refine readsAll_of nofun rfl ?_ fun hext => ?_
      · simp_all [Instr.wellFormed] <;> omega
      · simp_all [eq_wordR_iff, eq_in5_four, eq_in5_three, bit_ne_zero, bit_ne_one] <;> omega

/-- Predicate logic (R214). -/
theorem decodeS_predicates {w : Word32} {ext : List Word32} (hm : (fld w 26 6).toNat ∈ [31]) :
    Gives (decodeS w ext) (ReadsAll .S w ext) := by
  simp only [List.mem_cons, List.not_mem_nil, or_false] at hm
  simp only [decodeS, hm, bind_assoc, pure_bind, gives_noExt, gives_need, gives_pure, gives_limit, gives_rmode, gives_cls32, gives_cls16, gives_clsM,
      gives_clsT]
  simp only [BitVec.toNat_eq_nat] at hm
  intros
  split
  all_goals try exact gives_error
  all_goals
    simp only [bind_assoc, pure_bind, gives_noExt, gives_need, gives_pure, gives_limit, gives_rmode, gives_cls32, gives_cls16, gives_clsM]
    refine readsAll_of nofun rfl ?_ fun hext => ?_
    · simp_all [Instr.wellFormed, BitVec.toNat_eq_nat]
    · simp_all [eq_wordR_iff, bit_ne_zero, bit_ne_one, BitVec.toNat_eq_nat]

/-- Nests (R301). -/
theorem decodeS_nests {w : Word32} {ext : List Word32} (hm : (fld w 26 6).toNat ∈ [37]) :
    Gives (decodeS w ext) (ReadsAll .S w ext) := by
  simp only [List.mem_cons, List.not_mem_nil, or_false] at hm
  simp only [decodeS, hm, bind_assoc, pure_bind, gives_noExt, gives_need, gives_pure, gives_limit, gives_rmode, gives_cls32, gives_cls16, gives_clsM,
      gives_clsT]
  simp only [BitVec.toNat_eq_nat] at hm
  intros
  split <;>
  · refine readsAll_of nofun rfl ?_ fun hext => ?_
    · simp_all [Instr.wellFormed]
    · simp_all [eq_wordI_iff, fld_imm_iff, fld_dst_iff, in6_two_bit, fld_nest_iff, bit_ne_zero, bit_ne_one]

/-- Counts and rotation (R300). -/
theorem decodeS_counters {w : Word32} {ext : List Word32} (hm : (fld w 26 6).toNat ∈ [38, 39]) :
    Gives (decodeS w ext) (ReadsAll .S w ext) := by
  simp only [List.mem_cons, List.not_mem_nil, or_false] at hm
  rcases hm with hm | hm <;>
    · simp only [decodeS, hm, bind_assoc, pure_bind, gives_noExt, gives_need, gives_pure, gives_limit, gives_rmode, gives_cls32, gives_cls16,
          gives_clsM, gives_clsT]
      simp only [BitVec.toNat_eq_nat] at hm
      intros
      refine readsAll_of nofun rfl ?_ fun hext => ?_
      · simp_all [Instr.wellFormed] <;> omega
      · simp_all [eq_wordI_iff, fld_dst_iff, eq_in6_three, ← bit1_beq_self, bit_ne_zero, bit_ne_one] <;> omega

/-- Work-ID fields (R359). -/
theorem decodeS_workFields {w : Word32} {ext : List Word32} (hm : (fld w 26 6).toNat ∈ [40]) :
    Gives (decodeS w ext) (ReadsAll .S w ext) := by
  simp only [List.mem_cons, List.not_mem_nil, or_false] at hm
  simp only [decodeS, hm, bind_assoc, pure_bind, gives_noExt, gives_need, gives_pure, gives_limit, gives_rmode, gives_cls32, gives_cls16, gives_clsM,
      gives_clsT]
  simp only [BitVec.toNat_eq_nat] at hm
  intros
  split
  all_goals try exact gives_error
  all_goals
    simp only [bind_assoc, pure_bind, gives_noExt, gives_need, gives_pure, gives_limit, gives_rmode, gives_cls32, gives_cls16, gives_clsM]
    intros
    refine readsAll_of nofun rfl ?_ fun hext => ?_
    · simp_all [Instr.wellFormed, BitVec.toNat_eq_nat] <;> omega
    · simp_all [eq_wordR_iff, eq_in5_three, bit_ne_zero, bit_ne_one, BitVec.toNat_eq_nat] <;> omega

/-- The return from a handler (R391). -/
theorem decodeS_return {w : Word32} {ext : List Word32} (hm : (fld w 26 6).toNat ∈ [49]) :
    Gives (decodeS w ext) (ReadsAll .S w ext) := by
  simp only [List.mem_cons, List.not_mem_nil, or_false] at hm
  simp only [decodeS, hm, bind_assoc, pure_bind, gives_noExt, gives_need, gives_pure, gives_limit, gives_rmode, gives_cls32, gives_cls16, gives_clsM,
      gives_clsT]
  simp only [BitVec.toNat_eq_nat] at hm
  intros
  refine readsAll_of nofun rfl ?_ fun hext => ?_
  · simp_all [Instr.wellFormed]
  · simp_all [eq_wordR_iff, fld_low26_iff, bit_ne_zero, bit_ne_one]

/-- The loss scale (R290). -/
theorem decodeS_lossScale {w : Word32} {ext : List Word32} (hm : (fld w 26 6).toNat ∈ [50]) :
    Gives (decodeS w ext) (ReadsAll .S w ext) := by
  simp only [List.mem_cons, List.not_mem_nil, or_false] at hm
  simp only [decodeS, hm, bind_assoc, pure_bind, gives_noExt, gives_need, gives_pure, gives_limit, gives_rmode, gives_cls32, gives_cls16, gives_clsM,
      gives_clsT]
  simp only [BitVec.toNat_eq_nat] at hm
  intros
  split
  all_goals try exact gives_error
  all_goals
    simp only [bind_assoc, pure_bind, gives_noExt, gives_need, gives_pure, gives_limit, gives_rmode, gives_cls32, gives_cls16, gives_clsM]
    intros
    refine readsAll_of nofun rfl ?_ fun hext => ?_
    · simp_all [Instr.wellFormed, BitVec.toNat_eq_nat]
    · simp_all [eq_wordR_iff, bit_ne_zero, bit_ne_one, BitVec.toNat_eq_nat]

theorem decodeS_unassigned {w : Word32} {ext : List Word32}
    (hm : (fld w 26 6).toNat ∈ [51, 52, 53, 54, 55, 56, 57, 58, 59, 60, 61, 62, 63]) : Gives (decodeS w ext) (ReadsAll .S w ext) := by
  generalize hn : (fld w 26 6).toNat = n at hm
  fin_cases hm <;>
    · simp only [decodeS, hn]
      exact gives_error

theorem decodeS_readsAll (w : Word32) (ext : List Word32) : Gives (decodeS w ext) (ReadsAll .S w ext) := by
  have hmajors : ∀ n < 64, n = 0 ∨ ∃ l ∈ [[51, 52, 53, 54, 55, 56, 57, 58, 59, 60, 61, 62, 63],
      [1, 2, 3, 4, 5, 6, 7, 8, 9, 10, 11, 12], [14, 15], [13], [16, 17, 18, 19, 23, 32, 33, 34, 35, 36, 46, 47], [30], [20, 21, 22],
      [24], [25], [26, 27, 41, 42, 43, 44, 45, 48], [28, 29], [31], [37], [38, 39], [40], [49], [50]], n ∈ l := by decide
  obtain h | ⟨l, hl, h⟩ := hmajors _ (fld w 26 6).isLt
  · simp only [decodeS, h]
    exact decodeNop_readsAll
  simp only [List.mem_cons, List.not_mem_nil, or_false] at hl
  obtain rfl | rfl | rfl | rfl | rfl | rfl | rfl | rfl | rfl | rfl | rfl | rfl | rfl | rfl | rfl | rfl | rfl := hl
  · exact decodeS_unassigned h
  · exact decodeS_scalarArithmetic h
  · exact decodeS_division h
  · exact decodeS_multiplication h
  · exact decodeS_scalarImmediates h
  · exact decodeS_compareImmediate h
  · exact decodeS_shifts h
  · exact decodeS_counts h
  · exact decodeS_extensions h
  · exact decodeS_scalarFields h
  · exact decodeS_selects h
  · exact decodeS_predicates h
  · exact decodeS_nests h
  · exact decodeS_counters h
  · exact decodeS_workFields h
  · exact decodeS_return h
  · exact decodeS_lossScale h

/-! #### The map of slot A -/

/-- The sum of an address and a register (R184). -/
theorem decodeA_addressSum {w : Word32} {ext : List Word32} (hm : (fld w 26 6).toNat ∈ [1]) :
    Gives (decodeA w ext) (ReadsAll .A w ext) := by
  simp only [List.mem_cons, List.not_mem_nil, or_false] at hm
  simp only [decodeA, hm, bind_assoc, pure_bind, gives_noExt, gives_need, gives_pure, gives_limit, gives_rmode, gives_cls32, gives_cls16, gives_clsM,
      gives_clsT]
  simp only [BitVec.toNat_eq_nat] at hm
  intros
  refine readsAll_of nofun rfl ?_ fun hext => ?_
  · simp_all [Instr.wellFormed]
  · simp_all [eq_wordR_iff, bit_ne_zero, bit_ne_one]

/-- Address instructions with an immediate (R184, R185). -/
theorem decodeA_addressImmediates {w : Word32} {ext : List Word32} (hm : (fld w 26 6).toNat ∈ [2, 4, 5]) :
    Gives (decodeA w ext) (ReadsAll .A w ext) := by
  simp only [List.mem_cons, List.not_mem_nil, or_false] at hm
  rcases hm with hm | hm | hm <;>
    · simp only [decodeA, hm, bind_assoc, pure_bind, gives_noExt, gives_need, gives_pure, gives_limit, gives_rmode, gives_cls32, gives_cls16,
          gives_clsM, gives_clsT]
      simp only [BitVec.toNat_eq_nat] at hm
      intros
      refine readsAll_of nofun rfl ?_ fun hext => ?_
      · simp_all [Instr.wellFormed]
      · simp_all [eq_wordI_iff, fld_dst_iff, encLow_extImm_nil, encExt_extImm_nil, bit_ne_zero, bit_ne_one]

/-- Moves of address registers (R184). -/
theorem decodeA_addressMoves {w : Word32} {ext : List Word32} (hm : (fld w 26 6).toNat ∈ [3]) :
    Gives (decodeA w ext) (ReadsAll .A w ext) := by
  simp only [List.mem_cons, List.not_mem_nil, or_false] at hm
  simp only [decodeA, hm, bind_assoc, pure_bind, gives_noExt, gives_need, gives_pure, gives_limit, gives_rmode, gives_cls32, gives_cls16, gives_clsM,
      gives_clsT]
  simp only [BitVec.toNat_eq_nat] at hm
  intros
  split
  all_goals try exact gives_error
  all_goals
    simp only [bind_assoc, pure_bind, gives_noExt, gives_need, gives_pure, gives_limit, gives_rmode, gives_cls32, gives_cls16, gives_clsM]
    intros
    refine readsAll_of nofun rfl ?_ fun hext => ?_
    · simp_all [Instr.wellFormed, BitVec.toNat_eq_nat]
    · simp_all [eq_wordR_iff, bit_ne_zero, bit_ne_one, BitVec.toNat_eq_nat]

/-- Scalar loads and stores (R186, R327, R330). -/
theorem decodeA_scalarAccesses {w : Word32} {ext : List Word32} (hm : (fld w 26 6).toNat ∈ [6, 7, 26, 27, 28, 29]) :
    Gives (decodeA w ext) (ReadsAll .A w ext) := by
  simp only [List.mem_cons, List.not_mem_nil, or_false] at hm
  rcases hm with hm | hm | hm | hm | hm | hm <;>
    · simp only [decodeA, hm, bind_assoc, pure_bind, gives_noExt, gives_need, gives_pure, gives_limit, gives_rmode, gives_cls32, gives_cls16,
          gives_clsM, gives_clsT]
      simp only [BitVec.toNat_eq_nat] at hm
      intros
      refine readsAll_of nofun rfl ?_ fun hext => ?_
      · simp_all [Instr.wellFormed]
      · simp_all [eq_wordM_iff, fld_ctl_iff, in6_two, ← bit1_beq_self, bit_ne_zero, bit_ne_one]

/-- Block and descriptor accesses (R186). -/
theorem decodeA_blockAccesses {w : Word32} {ext : List Word32} (hm : (fld w 26 6).toNat ∈ [8, 9, 12, 13, 25]) :
    Gives (decodeA w ext) (ReadsAll .A w ext) := by
  simp only [List.mem_cons, List.not_mem_nil, or_false] at hm
  rcases hm with hm | hm | hm | hm | hm <;>
    · simp only [decodeA, hm, bind_assoc, pure_bind, gives_noExt, gives_need, gives_pure, gives_limit, gives_rmode, gives_cls32, gives_cls16,
          gives_clsM, gives_clsT]
      simp only [BitVec.toNat_eq_nat] at hm
      intros
      refine readsAll_of nofun rfl ?_ fun hext => ?_
      · simp_all [Instr.wellFormed]
      · simp_all [eq_wordM_iff, bit_ne_zero, bit_ne_one]

/-- Stores into panes (R111). -/
theorem decodeA_paneStores {w : Word32} {ext : List Word32} (hm : (fld w 26 6).toNat ∈ [11]) :
    Gives (decodeA w ext) (ReadsAll .A w ext) := by
  simp only [List.mem_cons, List.not_mem_nil, or_false] at hm
  simp only [decodeA, hm, bind_assoc, pure_bind, gives_noExt, gives_need, gives_pure, gives_limit, gives_rmode, gives_cls32, gives_cls16, gives_clsM,
      gives_clsT]
  simp only [BitVec.toNat_eq_nat] at hm
  intros
  split
  all_goals try exact gives_error
  all_goals
    simp only [bind_assoc, pure_bind, gives_noExt, gives_need, gives_pure, gives_limit, gives_rmode, gives_cls32, gives_cls16, gives_clsM]
    intros
    refine readsAll_of nofun rfl ?_ fun hext => ?_
    · simp_all [Instr.wellFormed, BitVec.toNat_eq_nat]
    · simp_all [eq_wordM_iff, fld_ctl_iff, ← bit1_beq_self, bit_ne_zero, bit_ne_one, BitVec.toNat_eq_nat]

/-- Indexed accesses (R189). -/
theorem decodeA_indexedAccesses {w : Word32} {ext : List Word32} (hm : (fld w 26 6).toNat ∈ [14, 15]) :
    Gives (decodeA w ext) (ReadsAll .A w ext) := by
  simp only [List.mem_cons, List.not_mem_nil, or_false] at hm
  rcases hm with hm | hm <;>
    · simp only [decodeA, hm, bind_assoc, pure_bind, gives_noExt, gives_need, gives_pure, gives_limit, gives_rmode, gives_cls32, gives_cls16,
          gives_clsM, gives_clsT]
      simp only [BitVec.toNat_eq_nat] at hm
      intros
      refine readsAll_of nofun rfl ?_ fun hext => ?_
      · simp_all [Instr.wellFormed]
      · simp_all [eq_wordR_iff, fld_fn_iff, in5_three, eq_append_bit1, bit_ne_zero, bit_ne_one]

/-- Writes of accumulators (R193). -/
theorem decodeA_accumulatorWrites {w : Word32} {ext : List Word32} (hm : (fld w 26 6).toNat ∈ [16]) :
    Gives (decodeA w ext) (ReadsAll .A w ext) := by
  simp only [List.mem_cons, List.not_mem_nil, or_false] at hm
  simp only [decodeA, hm, bind_assoc, pure_bind, gives_noExt, gives_need, gives_pure, gives_rmode, gives_cls32, gives_cls16, gives_clsM, gives_clsT]
  simp only [BitVec.toNat_eq_nat] at hm
  intros
  split
  all_goals
    simp only [bind_assoc, pure_bind, gives_noExt, gives_need, gives_pure, gives_limit, gives_rmode, gives_cls32, gives_cls16, gives_clsM]
    intros
    refine readsAll_of nofun rfl ?_ fun hext => ?_
    · simp_all [Instr.wellFormed, BitVec.toNat_eq_nat]
    · simp_all [eq_wordM_iff, fld_accCtl_iff, fld_acc_iff, ← bit1_beq_self, bit1_false, bit1_true, bit_ne_zero, bit_ne_one, BitVec.toNat_eq_nat]

/-- Accumulator instructions of format M (R193). -/
theorem decodeA_atomics {w : Word32} {ext : List Word32} (hm : (fld w 26 6).toNat ∈ [17, 18, 20, 21, 22, 23, 24]) :
    Gives (decodeA w ext) (ReadsAll .A w ext) := by
  simp only [List.mem_cons, List.not_mem_nil, or_false] at hm
  rcases hm with hm | hm | hm | hm | hm | hm | hm <;>
    · simp only [decodeA, hm, bind_assoc, pure_bind, gives_noExt, gives_need, gives_pure, gives_limit, gives_rmode, gives_cls32, gives_cls16,
          gives_clsM, gives_clsT]
      simp only [BitVec.toNat_eq_nat] at hm
      intros
      refine readsAll_of nofun rfl ?_ fun hext => ?_
      · simp_all [Instr.wellFormed]
      · simp_all [eq_wordM_iff, fld_accCtl_iff, fld_acc_iff, ← bit1_beq_self, bit1_false, bit_ne_zero, bit_ne_one]

/-- The compare and swap (R193). -/
theorem decodeA_compareAndSwap {w : Word32} {ext : List Word32} (hm : (fld w 26 6).toNat ∈ [19]) :
    Gives (decodeA w ext) (ReadsAll .A w ext) := by
  simp only [List.mem_cons, List.not_mem_nil, or_false] at hm
  simp only [decodeA, hm, bind_assoc, pure_bind, gives_noExt, gives_need, gives_pure, gives_limit, gives_rmode, gives_cls32, gives_cls16, gives_clsM,
      gives_clsT]
  simp only [BitVec.toNat_eq_nat] at hm
  intros
  refine readsAll_of nofun rfl ?_ fun hext => ?_
  · simp_all [Instr.wellFormed]
  · simp_all [eq_wordR_iff, eq_append_bit1, bit_ne_zero, bit_ne_one]

/-- The range fence (R328). -/
theorem decodeA_rangeFence {w : Word32} {ext : List Word32} (hm : (fld w 26 6).toNat ∈ [30]) :
    Gives (decodeA w ext) (ReadsAll .A w ext) := by
  simp only [List.mem_cons, List.not_mem_nil, or_false] at hm
  simp only [decodeA, hm, bind_assoc, pure_bind, gives_noExt, gives_need, gives_pure, gives_limit, gives_rmode, gives_cls32, gives_cls16, gives_clsM,
      gives_clsT]
  simp only [BitVec.toNat_eq_nat] at hm
  intros
  refine readsAll_of nofun rfl ?_ fun hext => ?_
  · simp_all [Instr.wellFormed]
  · simp_all [eq_wordR_iff, eq_append_two, bit_ne_zero, bit_ne_one]

/-- Spills and fills (R192). -/
theorem decodeA_spills {w : Word32} {ext : List Word32} (hm : (fld w 26 6).toNat ∈ [31, 32]) :
    Gives (decodeA w ext) (ReadsAll .A w ext) := by
  simp only [List.mem_cons, List.not_mem_nil, or_false] at hm
  rcases hm with hm | hm <;>
    · simp only [decodeA, hm, bind_assoc, pure_bind, gives_noExt, gives_need, gives_pure, gives_limit, gives_rmode, gives_cls32, gives_cls16,
          gives_clsM, gives_clsT]
      simp only [BitVec.toNat_eq_nat] at hm
      intros
      refine readsAll_of nofun rfl ?_ fun hext => ?_
      · simp_all [Instr.wellFormed]
      · simp_all [eq_wordM_iff, fld_ctl_iff, bit_ne_zero, bit_ne_one]

/-- The landing cycles of LD.L are below 2^63, and those of a lone word are 16 times its field (R34). -/
theorem gives_landCycles {f : BitVec 6} {ext : List Word32} {g : Nat → Except DecodeError Instr} {P : Instr → Prop}
    (h : ∀ land, land < 2 ^ 63 → (ext = [] → land = f.toNat * 16) → Gives (g land) P) : Gives (landCycles f ext >>= g) P := by
  unfold landCycles
  split
  next hext =>
    refine h _ ?_ fun _ => rfl
    omega
  next hext =>
    split
    next => exact gives_error
    next hneg =>
      have hmsb : (extImm f ext).msb = false := Bool.eq_false_iff.mpr hneg
      rw [BitVec.msb_eq_decide, decide_eq_false_iff_not] at hmsb
      refine h _ (by omega) fun hnil => absurd (List.isEmpty_iff.mpr hnil) hext

/-- The timed load (R188). -/
theorem decodeA_timedLoad {w : Word32} {ext : List Word32} (hm : (fld w 26 6).toNat ∈ [10]) : Gives (decodeA w ext) (ReadsAll .A w ext) := by
  simp only [List.mem_cons, List.not_mem_nil, or_false] at hm
  simp only [decodeA, hm, gives_cls32]
  simp only [BitVec.toNat_eq_nat] at hm
  intro q hq
  refine gives_landCycles fun land hland hlone => gives_pure.mpr (readsAll_of nofun rfl (decide_eq_true hland) fun hext => ?_)
  rw [hlone hext, encLand_field]
  simp_all [eq_wordM_iff]

theorem decodeA_unassigned {w : Word32} {ext : List Word32}
    (hm : (fld w 26 6).toNat ∈ [33, 34, 35, 36, 37, 38, 39, 40, 41, 42, 43, 44, 45, 46, 47, 48, 49, 50, 51, 52, 53, 54, 55, 56, 57, 58, 59, 60, 61, 62,
        63]) : Gives (decodeA w ext) (ReadsAll .A w ext) := by
  generalize hn : (fld w 26 6).toNat = n at hm
  fin_cases hm <;>
    · simp only [decodeA, hn]
      exact gives_error

theorem decodeA_readsAll (w : Word32) (ext : List Word32) : Gives (decodeA w ext) (ReadsAll .A w ext) := by
  have hmajors : ∀ n < 64, n = 0 ∨ ∃ l ∈ [[33, 34, 35, 36, 37, 38, 39, 40, 41, 42, 43, 44, 45, 46, 47, 48, 49, 50, 51, 52, 53, 54, 55, 56, 57, 58, 59,
      60, 61, 62, 63],
      [1], [2, 4, 5], [3], [6, 7, 26, 27, 28, 29], [8, 9, 12, 13, 25], [11], [14, 15], [16], [17, 18, 20, 21, 22, 23, 24], [19], [30],
      [31, 32], [10]], n ∈ l := by decide
  obtain h | ⟨l, hl, h⟩ := hmajors _ (fld w 26 6).isLt
  · simp only [decodeA, h]
    exact decodeNop_readsAll
  simp only [List.mem_cons, List.not_mem_nil, or_false] at hl
  obtain rfl | rfl | rfl | rfl | rfl | rfl | rfl | rfl | rfl | rfl | rfl | rfl | rfl | rfl := hl
  · exact decodeA_unassigned h
  · exact decodeA_addressSum h
  · exact decodeA_addressImmediates h
  · exact decodeA_addressMoves h
  · exact decodeA_scalarAccesses h
  · exact decodeA_blockAccesses h
  · exact decodeA_paneStores h
  · exact decodeA_indexedAccesses h
  · exact decodeA_accumulatorWrites h
  · exact decodeA_atomics h
  · exact decodeA_compareAndSwap h
  · exact decodeA_rangeFence h
  · exact decodeA_spills h
  · exact decodeA_timedLoad h

/-! #### The map of slot V -/

/-- Lane instructions whose function field holds a size alone (R215). -/
theorem decodeV_plainLanes {w : Word32} {ext : List Word32} (hm : (fld w 26 6).toNat ∈ [6, 7, 8, 9, 10, 11, 13, 24, 25, 30, 48, 58]) :
    Gives (decodeV w ext) (ReadsAll .V w ext) := by
  simp only [List.mem_cons, List.not_mem_nil, or_false] at hm
  rcases hm with hm | hm | hm | hm | hm | hm | hm | hm | hm | hm | hm | hm <;>
    · simp only [decodeV, hm, bind_assoc, pure_bind, gives_noExt, gives_need, gives_pure, gives_limit, gives_rmode, gives_cls32, gives_cls16,
          gives_clsM, gives_clsT]
      simp only [BitVec.toNat_eq_nat] at hm
      intros
      refine readsAll_of nofun rfl ?_ fun hext => ?_
      · simp_all [Instr.wellFormed]
      · simp_all [eq_wordV_iff, fld_fn_iff, in5_two, bit_ne_zero, bit_ne_one]

/-- Integer lane arithmetic (R217, R218). -/
theorem decodeV_laneArithmetic {w : Word32} {ext : List Word32} (hm : (fld w 26 6).toNat ∈ [1, 2, 3, 4, 5]) :
    Gives (decodeV w ext) (ReadsAll .V w ext) := by
  simp only [List.mem_cons, List.not_mem_nil, or_false] at hm
  rcases hm with hm | hm | hm | hm | hm <;>
    · simp only [decodeV, hm, bind_assoc, pure_bind, gives_noExt, gives_need, gives_pure, gives_limit, gives_rmode, gives_cls32, gives_cls16,
          gives_clsM, gives_clsT]
      simp only [BitVec.toNat_eq_nat] at hm
      intros
      refine readsAll_of nofun rfl ?_ fun hext => ?_
      · simp_all [Instr.wellFormed]
      · simp_all [eq_wordV_iff, fld_fn_iff, laneFn, ← bit1_beq_self, bit1_false, bit_ne_zero, bit_ne_one]

/-- Compares of lanes (R219, R243). -/
theorem decodeV_laneCompares {w : Word32} {ext : List Word32} (hm : (fld w 26 6).toNat ∈ [12, 27]) :
    Gives (decodeV w ext) (ReadsAll .V w ext) := by
  simp only [List.mem_cons, List.not_mem_nil, or_false] at hm
  rcases hm with hm | hm <;>
    · simp only [decodeV, hm, bind_assoc, pure_bind, gives_noExt, gives_need, gives_pure, gives_limit, gives_rmode, gives_cls32, gives_cls16,
          gives_clsM, gives_clsT]
      simp only [BitVec.toNat_eq_nat] at hm
      intros
      refine readsAll_of nofun rfl ?_ fun hext => ?_
      · simp_all [Instr.wellFormed]
      · simp_all [eq_wordV_iff, fld_fn_iff, in5_two, ← bit1_beq_self, bit_ne_zero, bit_ne_one]

/-- Floating-point arithmetic (R238, R239). -/
theorem decodeV_floatArithmetic {w : Word32} {ext : List Word32} (hm : (fld w 26 6).toNat ∈ [16, 17, 18, 19, 20, 21, 22, 23, 29]) :
    Gives (decodeV w ext) (ReadsAll .V w ext) := by
  simp only [List.mem_cons, List.not_mem_nil, or_false] at hm
  rcases hm with hm | hm | hm | hm | hm | hm | hm | hm | hm <;>
    · simp only [decodeV, hm, bind_assoc, pure_bind, gives_noExt, gives_need, gives_pure, gives_limit, gives_rmode, gives_cls32, gives_cls16,
          gives_clsM, gives_clsT]
      simp only [BitVec.toNat_eq_nat] at hm
      intros
      refine readsAll_of nofun rfl ?_ fun hext => ?_
      · simp_all [Instr.wellFormed]
      · simp_all [eq_wordV_iff, fld_fn_iff, in5_two, ← bit1_beq_self, bit_ne_zero, bit_ne_one]

/-- Functions and conversion (R241, R244). -/
theorem decodeV_functions {w : Word32} {ext : List Word32} (hm : (fld w 26 6).toNat ∈ [32, 33, 34, 35, 36, 37, 38, 39, 40, 28]) :
    Gives (decodeV w ext) (ReadsAll .V w ext) := by
  simp only [List.mem_cons, List.not_mem_nil, or_false] at hm
  rcases hm with hm | hm | hm | hm | hm | hm | hm | hm | hm | hm <;>
    · simp only [decodeV, hm, bind_assoc, pure_bind, gives_noExt, gives_need, gives_pure, gives_limit, gives_rmode, gives_cls32, gives_cls16,
          gives_clsM, gives_clsT]
      simp only [BitVec.toNat_eq_nat] at hm
      intros
      refine readsAll_of nofun rfl ?_ fun hext => ?_
      · simp_all [Instr.wellFormed]
      · simp_all [eq_wordV_iff, fld_fn_iff, ← bit1_beq_self, bit_ne_zero, bit_ne_one]

/-- Sign instructions (R242). -/
theorem decodeV_signs {w : Word32} {ext : List Word32} (hm : (fld w 26 6).toNat ∈ [26]) :
    Gives (decodeV w ext) (ReadsAll .V w ext) := by
  simp only [List.mem_cons, List.not_mem_nil, or_false] at hm
  simp only [decodeV, hm, bind_assoc, pure_bind, gives_noExt, gives_need, gives_pure, gives_limit, gives_rmode, gives_cls32, gives_cls16, gives_clsM,
      gives_clsT]
  simp only [BitVec.toNat_eq_nat] at hm
  intros
  split
  all_goals try exact gives_error
  all_goals
    simp only [bind_assoc, pure_bind, gives_noExt, gives_need, gives_pure, gives_limit, gives_rmode, gives_cls32, gives_cls16, gives_clsM]
    refine readsAll_of nofun rfl ?_ fun hext => ?_
    · simp_all [Instr.wellFormed, BitVec.toNat_eq_nat]
    · simp_all [eq_wordV_iff, fld_fn_iff, in5_two_bit, bit1_false, fld_sign_iff, bit_ne_zero, bit_ne_one, BitVec.toNat_eq_nat]

/-- Broadcast and insertion (R221, R222). -/
theorem decodeV_laneScalars {w : Word32} {ext : List Word32} (hm : (fld w 26 6).toNat ∈ [49, 50]) :
    Gives (decodeV w ext) (ReadsAll .V w ext) := by
  simp only [List.mem_cons, List.not_mem_nil, or_false] at hm
  rcases hm with hm | hm <;>
    · simp only [decodeV, hm, bind_assoc, pure_bind, gives_noExt, gives_need, gives_pure, gives_limit, gives_rmode, gives_cls32, gives_cls16,
          gives_clsM, gives_clsT]
      simp only [BitVec.toNat_eq_nat] at hm
      intros
      refine readsAll_of nofun rfl ?_ fun hext => ?_
      · simp_all [Instr.wellFormed]
      · simp_all [eq_wordR_iff, eq_append_two, bit_ne_zero, bit_ne_one]

/-- Extraction (R222). -/
theorem decodeV_laneExtract {w : Word32} {ext : List Word32} (hm : (fld w 26 6).toNat ∈ [51]) :
    Gives (decodeV w ext) (ReadsAll .V w ext) := by
  simp only [List.mem_cons, List.not_mem_nil, or_false] at hm
  simp only [decodeV, hm, bind_assoc, pure_bind, gives_noExt, gives_need, gives_pure, gives_limit, gives_rmode, gives_cls32, gives_cls16, gives_clsM,
      gives_clsT]
  simp only [BitVec.toNat_eq_nat] at hm
  intros
  refine readsAll_of nofun rfl ?_ fun hext => ?_
  · simp_all [Instr.wellFormed]
  · simp_all [eq_wordR_iff, fld_fn_iff, ← bit1_beq_self, bit_ne_zero, bit_ne_one]

/-- Reductions (R248). -/
theorem decodeV_reductions {w : Word32} {ext : List Word32} (hm : (fld w 26 6).toNat ∈ [52]) :
    Gives (decodeV w ext) (ReadsAll .V w ext) := by
  simp only [List.mem_cons, List.not_mem_nil, or_false] at hm
  simp only [decodeV, hm, bind_assoc, pure_bind, gives_noExt, gives_need, gives_pure, gives_limit, gives_rmode, gives_cls32, gives_cls16, gives_clsM,
      gives_clsT]
  simp only [BitVec.toNat_eq_nat] at hm
  intros
  split
  all_goals try exact gives_error
  all_goals
    simp only [bind_assoc, pure_bind, gives_noExt, gives_need, gives_pure, gives_limit, gives_rmode, gives_cls32, gives_cls16, gives_clsM]
    refine readsAll_of nofun rfl ?_ fun hext => ?_
    · simp_all [Instr.wellFormed, BitVec.toNat_eq_nat]
    · simp_all [eq_wordV_iff, fld_fn_iff, ← bit1_beq_self, bit_ne_zero, bit_ne_one, BitVec.toNat_eq_nat]

/-- Descriptors and scales (R223, R247). -/
theorem decodeV_descriptors {w : Word32} {ext : List Word32} (hm : (fld w 26 6).toNat ∈ [53, 54]) :
    Gives (decodeV w ext) (ReadsAll .V w ext) := by
  simp only [List.mem_cons, List.not_mem_nil, or_false] at hm
  rcases hm with hm | hm <;>
    · simp only [decodeV, hm, bind_assoc, pure_bind, gives_noExt, gives_need, gives_pure, gives_limit, gives_rmode, gives_cls32, gives_cls16,
          gives_clsM, gives_clsT]
      simp only [BitVec.toNat_eq_nat] at hm
      intros
      split
      all_goals try exact gives_error
      all_goals
        simp only [bind_assoc, pure_bind, gives_noExt, gives_need, gives_pure, gives_limit, gives_rmode, gives_cls32, gives_cls16, gives_clsM]
        intros
        refine readsAll_of nofun rfl ?_ fun hext => ?_
        · simp_all [Instr.wellFormed, BitVec.toNat_eq_nat]
        · simp_all [eq_wordV_iff, bit_ne_zero, bit_ne_one, BitVec.toNat_eq_nat]

/-- Packing (R224). -/
theorem decodeV_packing {w : Word32} {ext : List Word32} (hm : (fld w 26 6).toNat ∈ [55]) :
    Gives (decodeV w ext) (ReadsAll .V w ext) := by
  simp only [List.mem_cons, List.not_mem_nil, or_false] at hm
  simp only [decodeV, hm, bind_assoc, pure_bind, gives_noExt, gives_need, gives_pure, gives_limit, gives_rmode, gives_cls32, gives_cls16, gives_clsM,
      gives_clsT]
  simp only [BitVec.toNat_eq_nat] at hm
  intros
  split
  all_goals try exact gives_error
  all_goals
    simp only [bind_assoc, pure_bind, gives_noExt, gives_need, gives_pure, gives_limit, gives_rmode, gives_cls32, gives_cls16, gives_clsM]
    intros
    refine readsAll_of nofun rfl ?_ fun hext => ?_
    · simp_all [Instr.wellFormed, BitVec.toNat_eq_nat]
    · simp_all [eq_wordV_iff, eq_append_bit1, bit1_false, bit1_true, bit_ne_zero, bit_ne_one, BitVec.toNat_eq_nat]

/-- Unpacking (R225). -/
theorem decodeV_unpacking {w : Word32} {ext : List Word32} (hm : (fld w 26 6).toNat ∈ [56]) :
    Gives (decodeV w ext) (ReadsAll .V w ext) := by
  simp only [List.mem_cons, List.not_mem_nil, or_false] at hm
  simp only [decodeV, hm, bind_assoc, pure_bind, gives_noExt, gives_need, gives_pure, gives_limit, gives_rmode, gives_cls32, gives_cls16, gives_clsM,
      gives_clsT]
  simp only [BitVec.toNat_eq_nat] at hm
  intros
  split
  all_goals try exact gives_error
  all_goals
    simp only [bind_assoc, pure_bind, gives_noExt, gives_need, gives_pure, gives_limit, gives_rmode, gives_cls32, gives_cls16, gives_clsM]
    intros
    refine readsAll_of nofun rfl ?_ fun hext => ?_
    · simp_all [Instr.wellFormed, BitVec.toNat_eq_nat]
    · simp_all [eq_wordV_iff, eq_append_bit1, eq_append_two, bit1_false, bit1_true, bit_ne_zero, bit_ne_one, BitVec.toNat_eq_nat]

/-- Limbs and exact sums (R249, R250). -/
theorem decodeV_limbs {w : Word32} {ext : List Word32} (hm : (fld w 26 6).toNat ∈ [57]) :
    Gives (decodeV w ext) (ReadsAll .V w ext) := by
  simp only [List.mem_cons, List.not_mem_nil, or_false] at hm
  simp only [decodeV, hm, bind_assoc, pure_bind, gives_noExt, gives_need, gives_pure, gives_limit, gives_rmode, gives_cls32, gives_cls16, gives_clsM,
      gives_clsT]
  simp only [BitVec.toNat_eq_nat] at hm
  intros
  split
  all_goals try exact gives_error
  all_goals
    simp only [bind_assoc, pure_bind, gives_noExt, gives_need, gives_pure, gives_limit, gives_rmode, gives_cls32, gives_cls16, gives_clsM]
    intros
    refine readsAll_of nofun rfl ?_ fun hext => ?_
    · simp_all [Instr.wellFormed, BitVec.toNat_eq_nat]
    · simp_all [eq_wordV_iff, bit1_false, bit1_true, bit_ne_zero, bit_ne_one, BitVec.toNat_eq_nat]

/-- Mask logic (R226). -/
theorem decodeV_masks {w : Word32} {ext : List Word32} (hm : (fld w 26 6).toNat ∈ [59]) :
    Gives (decodeV w ext) (ReadsAll .V w ext) := by
  simp only [List.mem_cons, List.not_mem_nil, or_false] at hm
  simp only [decodeV, hm, bind_assoc, pure_bind, gives_noExt, gives_need, gives_pure, gives_limit, gives_rmode, gives_cls32, gives_cls16, gives_clsM,
      gives_clsT]
  simp only [BitVec.toNat_eq_nat] at hm
  intros
  split
  all_goals try exact gives_error
  all_goals
    simp only [bind_assoc, pure_bind, gives_noExt, gives_need, gives_pure, gives_limit, gives_rmode, gives_cls32, gives_cls16, gives_clsM]
    intros
    refine readsAll_of nofun rfl ?_ fun hext => ?_
    · simp_all [Instr.wellFormed, BitVec.toNat_eq_nat]
    · simp_all [eq_wordV_iff, bit_ne_zero, bit_ne_one, BitVec.toNat_eq_nat]

theorem decodeV_unassigned {w : Word32} {ext : List Word32}
    (hm : (fld w 26 6).toNat ∈ [14, 15, 31, 41, 42, 43, 44, 45, 46, 47, 60, 61, 62, 63]) : Gives (decodeV w ext) (ReadsAll .V w ext) := by
  generalize hn : (fld w 26 6).toNat = n at hm
  fin_cases hm <;>
    · simp only [decodeV, hn]
      exact gives_error

theorem decodeV_readsAll (w : Word32) (ext : List Word32) : Gives (decodeV w ext) (ReadsAll .V w ext) := by
  have hmajors : ∀ n < 64, n = 0 ∨ ∃ l ∈ [[14, 15, 31, 41, 42, 43, 44, 45, 46, 47, 60, 61, 62, 63],
      [6, 7, 8, 9, 10, 11, 13, 24, 25, 30, 48, 58], [1, 2, 3, 4, 5], [12, 27], [16, 17, 18, 19, 20, 21, 22, 23, 29], [32, 33, 34, 35,
      36, 37, 38, 39, 40, 28], [26], [49, 50], [51], [52], [53, 54], [55], [56], [57], [59]], n ∈ l := by decide
  obtain h | ⟨l, hl, h⟩ := hmajors _ (fld w 26 6).isLt
  · simp only [decodeV, h]
    exact decodeNop_readsAll
  simp only [List.mem_cons, List.not_mem_nil, or_false] at hl
  obtain rfl | rfl | rfl | rfl | rfl | rfl | rfl | rfl | rfl | rfl | rfl | rfl | rfl | rfl | rfl := hl
  · exact decodeV_unassigned h
  · exact decodeV_plainLanes h
  · exact decodeV_laneArithmetic h
  · exact decodeV_laneCompares h
  · exact decodeV_floatArithmetic h
  · exact decodeV_functions h
  · exact decodeV_signs h
  · exact decodeV_laneScalars h
  · exact decodeV_laneExtract h
  · exact decodeV_reductions h
  · exact decodeV_descriptors h
  · exact decodeV_packing h
  · exact decodeV_unpacking h
  · exact decodeV_limbs h
  · exact decodeV_masks h

/-! #### The map of slot M -/

/-- Operand-store slots and task waits (R195, R271). -/
theorem decodeM_operandSlots {w : Word32} {ext : List Word32} (hm : (fld w 26 6).toNat ∈ [1, 2, 12, 13]) :
    Gives (decodeM w ext) (ReadsAll .M w ext) := by
  simp only [List.mem_cons, List.not_mem_nil, or_false] at hm
  rcases hm with hm | hm | hm | hm <;>
    · simp only [decodeM, hm, bind_assoc, pure_bind, gives_noExt, gives_need, gives_pure, gives_limit, gives_rmode, gives_cls32, gives_cls16,
          gives_clsM, gives_clsT]
      simp only [BitVec.toNat_eq_nat] at hm
      intros
      refine readsAll_of nofun rfl ?_ fun hext => ?_
      · simp_all [Instr.wellFormed]
      · simp_all [eq_wordX_iff, fld_ctl8_iff, bit_ne_zero, bit_ne_one]

/-- Operand blocks (R196). -/
theorem decodeM_operandBlocks {w : Word32} {ext : List Word32} (hm : (fld w 26 6).toNat ∈ [3, 4]) :
    Gives (decodeM w ext) (ReadsAll .M w ext) := by
  simp only [List.mem_cons, List.not_mem_nil, or_false] at hm
  rcases hm with hm | hm <;>
    · simp only [decodeM, hm, bind_assoc, pure_bind, gives_noExt, gives_need, gives_pure, gives_limit, gives_rmode, gives_cls32, gives_cls16,
          gives_clsM, gives_clsT]
      simp only [BitVec.toNat_eq_nat] at hm
      intros
      refine readsAll_of nofun rfl ?_ fun hext => ?_
      · simp_all [Instr.wellFormed]
      · simp_all [eq_wordM_iff, fld_ctl_iff, low_of_slot, bit_ne_zero, bit_ne_one]

/-- Products of tiles (R263). -/
theorem decodeM_products {w : Word32} {ext : List Word32} (hm : (fld w 26 6).toNat ∈ [5]) :
    Gives (decodeM w ext) (ReadsAll .M w ext) := by
  simp only [List.mem_cons, List.not_mem_nil, or_false] at hm
  simp only [decodeM, hm, bind_assoc, pure_bind, gives_noExt, gives_need, gives_pure, gives_limit, gives_rmode, gives_cls32, gives_cls16, gives_clsM,
      gives_clsT]
  simp only [BitVec.toNat_eq_nat] at hm
  intros
  split
  all_goals try exact gives_error
  all_goals
    simp only [bind_assoc, pure_bind, gives_noExt, gives_need, gives_pure, gives_limit, gives_rmode, gives_cls32, gives_cls16, gives_clsM]
    intros
    refine readsAll_of nofun rfl ?_ fun hext => ?_
    · simp_all [Instr.wellFormed, BitVec.toNat_eq_nat]
    · simp_all [eq_wordT_iff, fld_tile_iff, ← bit1_beq_self, bit_ne_zero, bit_ne_one, BitVec.toNat_eq_nat]

/-- Sparse and ternary products, and tile resets (R263, R264). -/
theorem decodeM_sparseProducts {w : Word32} {ext : List Word32} (hm : (fld w 26 6).toNat ∈ [6, 7, 8]) :
    Gives (decodeM w ext) (ReadsAll .M w ext) := by
  simp only [List.mem_cons, List.not_mem_nil, or_false] at hm
  rcases hm with hm | hm | hm <;>
    · simp only [decodeM, hm, bind_assoc, pure_bind, gives_noExt, gives_need, gives_pure, gives_limit, gives_rmode, gives_cls32, gives_cls16,
          gives_clsM, gives_clsT]
      simp only [BitVec.toNat_eq_nat] at hm
      intros
      refine readsAll_of nofun rfl ?_ fun hext => ?_
      · simp_all [Instr.wellFormed]
      · simp_all [eq_wordT_iff, fld_tile_iff, ← bit1_beq_self, bit_ne_zero, bit_ne_one]

/-- Drains (R265). -/
theorem decodeM_drains {w : Word32} {ext : List Word32} (hm : (fld w 26 6).toNat ∈ [9]) :
    Gives (decodeM w ext) (ReadsAll .M w ext) := by
  simp only [List.mem_cons, List.not_mem_nil, or_false] at hm
  simp only [decodeM, hm, bind_assoc, pure_bind, gives_noExt, gives_need, gives_pure, gives_limit, gives_rmode, gives_cls32, gives_cls16, gives_clsM,
      gives_clsT]
  simp only [BitVec.toNat_eq_nat] at hm
  intros
  split
  all_goals try exact gives_error
  all_goals
    simp only [bind_assoc, pure_bind, gives_noExt, gives_need, gives_pure, gives_limit, gives_rmode, gives_cls32, gives_cls16, gives_clsM]
    intros
    refine readsAll_of nofun rfl ?_ fun hext => ?_
    · simp_all [Instr.wellFormed, BitVec.toNat_eq_nat]
    · simp_all [eq_wordX_iff, fld_ctl8_iff, fld_two_iff, fld_drain_iff, bit_ne_zero, bit_ne_one, BitVec.toNat_eq_nat]

/-- Waits for tiles (R266). -/
theorem decodeM_tileWaits {w : Word32} {ext : List Word32} (hm : (fld w 26 6).toNat ∈ [10]) :
    Gives (decodeM w ext) (ReadsAll .M w ext) := by
  simp only [List.mem_cons, List.not_mem_nil, or_false] at hm
  simp only [decodeM, hm, bind_assoc, pure_bind, gives_noExt, gives_need, gives_pure, gives_limit, gives_rmode, gives_cls32, gives_cls16, gives_clsM,
      gives_clsT]
  simp only [BitVec.toNat_eq_nat] at hm
  intros
  split
  all_goals try exact gives_error
  all_goals
    simp only [bind_assoc, pure_bind, gives_noExt, gives_need, gives_pure, gives_limit, gives_rmode, gives_cls32, gives_cls16, gives_clsM]
    intros
    refine readsAll_of nofun rfl ?_ fun hext => ?_
    · simp_all [Instr.wellFormed, BitVec.toNat_eq_nat]
    · simp_all [eq_wordX_iff, fld_ctl8_iff, fld_await_iff, bit_ne_zero, bit_ne_one, BitVec.toNat_eq_nat]

/-- Tile tasks (R269). -/
theorem decodeM_tileTasks {w : Word32} {ext : List Word32} (hm : (fld w 26 6).toNat ∈ [11]) :
    Gives (decodeM w ext) (ReadsAll .M w ext) := by
  simp only [List.mem_cons, List.not_mem_nil, or_false] at hm
  simp only [decodeM, hm, bind_assoc, pure_bind, gives_noExt, gives_need, gives_pure, gives_limit, gives_rmode, gives_cls32, gives_cls16, gives_clsM,
      gives_clsT]
  simp only [BitVec.toNat_eq_nat] at hm
  intros
  split
  all_goals try exact gives_error
  all_goals
    simp only [bind_assoc, pure_bind, gives_noExt, gives_need, gives_pure, gives_limit, gives_rmode, gives_cls32, gives_cls16, gives_clsM]
    intros
    refine readsAll_of nofun rfl ?_ fun hext => ?_
    · simp_all [Instr.wellFormed, BitVec.toNat_eq_nat]
    · simp_all [eq_wordX_iff, fld_ctl8_iff, fld_task_iff, bit_ne_zero, bit_ne_one, BitVec.toNat_eq_nat]

theorem decodeM_unassigned {w : Word32} {ext : List Word32}
    (hm : (fld w 26 6).toNat ∈ [14, 15, 16, 17, 18, 19, 20, 21, 22, 23, 24, 25, 26, 27, 28, 29, 30, 31, 32, 33, 34, 35, 36, 37, 38, 39, 40, 41, 42, 43,
        44, 45, 46, 47, 48, 49, 50, 51, 52, 53, 54, 55, 56, 57, 58, 59, 60, 61, 62, 63]) : Gives (decodeM w ext) (ReadsAll .M w ext) := by
  generalize hn : (fld w 26 6).toNat = n at hm
  fin_cases hm <;>
    · simp only [decodeM, hn]
      exact gives_error

theorem decodeM_readsAll (w : Word32) (ext : List Word32) : Gives (decodeM w ext) (ReadsAll .M w ext) := by
  have hmajors : ∀ n < 64, n = 0 ∨ ∃ l ∈ [[14, 15, 16, 17, 18, 19, 20, 21, 22, 23, 24, 25, 26, 27, 28, 29, 30, 31, 32, 33, 34, 35, 36, 37, 38, 39, 40,
      41, 42, 43, 44, 45, 46, 47, 48, 49, 50, 51, 52, 53, 54, 55, 56, 57, 58, 59, 60, 61, 62, 63],
      [1, 2, 12, 13], [3, 4], [5], [6, 7, 8], [9], [10], [11]], n ∈ l := by decide
  obtain h | ⟨l, hl, h⟩ := hmajors _ (fld w 26 6).isLt
  · simp only [decodeM, h]
    exact decodeNop_readsAll
  simp only [List.mem_cons, List.not_mem_nil, or_false] at hl
  obtain rfl | rfl | rfl | rfl | rfl | rfl | rfl | rfl := hl
  · exact decodeM_unassigned h
  · exact decodeM_operandSlots h
  · exact decodeM_operandBlocks h
  · exact decodeM_products h
  · exact decodeM_sparseProducts h
  · exact decodeM_drains h
  · exact decodeM_tileWaits h
  · exact decodeM_tileTasks h

/-! #### The map of slot X -/

/-- Channels, shapes and WAITANY (R140, R349). -/
theorem decodeX_channels {w : Word32} {ext : List Word32} (hm : (fld w 26 6).toNat ∈ [1, 2, 6, 24]) :
    Gives (decodeX w ext) (ReadsAll .X w ext) := by
  simp only [List.mem_cons, List.not_mem_nil, or_false] at hm
  rcases hm with hm | hm | hm | hm <;>
    · simp only [decodeX, hm, bind_assoc, pure_bind, gives_noExt, gives_need, gives_pure, gives_limit, gives_rmode, gives_cls32, gives_cls16,
          gives_clsM, gives_clsT]
      simp only [BitVec.toNat_eq_nat] at hm
      intros
      refine readsAll_of nofun rfl ?_ fun hext => ?_
      · simp_all [Instr.wellFormed]
      · simp_all [eq_wordX_iff, fld_ctl8_iff, ← bit1_beq_self, bit_ne_zero, bit_ne_one]

/-- Channel masks (R144, R145). -/
theorem decodeX_channelMasks {w : Word32} {ext : List Word32} (hm : (fld w 26 6).toNat ∈ [4, 5]) :
    Gives (decodeX w ext) (ReadsAll .X w ext) := by
  simp only [List.mem_cons, List.not_mem_nil, or_false] at hm
  rcases hm with hm | hm <;>
    · simp only [decodeX, hm, bind_assoc, pure_bind, gives_noExt, gives_need, gives_pure, gives_limit, gives_rmode, gives_cls32, gives_cls16,
          gives_clsM, gives_clsT]
      simp only [BitVec.toNat_eq_nat] at hm
      intros
      refine readsAll_of nofun rfl ?_ fun hext => ?_
      · simp_all [Instr.wellFormed]
      · simp_all [eq_wordX_iff, fld_ctl8_iff, bit_ne_zero, bit_ne_one]

/-- Watermarks, knocks and openings of panes (R143, R147, R114). -/
theorem decodeX_channelModes {w : Word32} {ext : List Word32} (hm : (fld w 26 6).toNat ∈ [3, 7, 9]) :
    Gives (decodeX w ext) (ReadsAll .X w ext) := by
  simp only [List.mem_cons, List.not_mem_nil, or_false] at hm
  rcases hm with hm | hm | hm <;>
    · simp only [decodeX, hm, bind_assoc, pure_bind, gives_noExt, gives_need, gives_pure, gives_limit, gives_rmode, gives_cls32, gives_cls16,
          gives_clsM, gives_clsT]
      simp only [BitVec.toNat_eq_nat] at hm
      intros
      split <;>
      · refine readsAll_of nofun rfl ?_ fun hext => ?_
        · simp_all [Instr.wellFormed]
        · simp_all [eq_wordX_iff, fld_ctl8_iff, fld_mode2_iff, fld_mode3_iff, bit_ne_zero, bit_ne_one]

/-- Bindings and settlements (R111, R120). -/
theorem decodeX_bindings {w : Word32} {ext : List Word32} (hm : (fld w 26 6).toNat ∈ [8, 19]) :
    Gives (decodeX w ext) (ReadsAll .X w ext) := by
  simp only [List.mem_cons, List.not_mem_nil, or_false] at hm
  rcases hm with hm | hm <;>
    · simp only [decodeX, hm, bind_assoc, pure_bind, gives_noExt, gives_need, gives_pure, gives_limit, gives_rmode, gives_cls32, gives_cls16,
          gives_clsM, gives_clsT]
      simp only [BitVec.toNat_eq_nat] at hm
      intros
      split
      all_goals
        simp only [bind_assoc, pure_bind, gives_noExt, gives_need, gives_pure, gives_limit, gives_rmode, gives_cls32, gives_cls16, gives_clsM]
        intros
        refine readsAll_of nofun rfl ?_ fun hext => ?_
        · simp_all [Instr.wellFormed, BitVec.toNat_eq_nat]
        · simp_all [eq_wordX_iff, fld_ctl8_iff, fld_mode3_iff, bit_ne_zero, bit_ne_one, BitVec.toNat_eq_nat]

/-- Pane instructions (R114 to R120). -/
theorem decodeX_panes {w : Word32} {ext : List Word32} (hm : (fld w 26 6).toNat ∈ [10, 11, 12, 13, 14, 15, 16, 17, 18]) :
    Gives (decodeX w ext) (ReadsAll .X w ext) := by
  simp only [List.mem_cons, List.not_mem_nil, or_false] at hm
  rcases hm with hm | hm | hm | hm | hm | hm | hm | hm | hm <;>
    · simp only [decodeX, hm, bind_assoc, pure_bind, gives_noExt, gives_need, gives_pure, gives_limit, gives_rmode, gives_cls32, gives_cls16,
          gives_clsM, gives_clsT]
      simp only [BitVec.toNat_eq_nat] at hm
      intros
      refine readsAll_of nofun rfl ?_ fun hext => ?_
      · simp_all [Instr.wellFormed]
      · simp_all [eq_wordX_iff, fld_ctl8_iff, bit_ne_zero, bit_ne_one]

/-- The states of panes, frames and arenas (R121). -/
theorem decodeX_paneStates {w : Word32} {ext : List Word32} (hm : (fld w 26 6).toNat ∈ [20]) :
    Gives (decodeX w ext) (ReadsAll .X w ext) := by
  simp only [List.mem_cons, List.not_mem_nil, or_false] at hm
  simp only [decodeX, hm, bind_assoc, pure_bind, gives_noExt, gives_need, gives_pure, gives_limit, gives_rmode, gives_cls32, gives_cls16, gives_clsM,
      gives_clsT]
  simp only [BitVec.toNat_eq_nat] at hm
  intros
  split
  all_goals try exact gives_error
  all_goals
    simp only [bind_assoc, pure_bind, gives_noExt, gives_need, gives_pure, gives_limit, gives_rmode, gives_cls32, gives_cls16, gives_clsM]
    intros
    refine readsAll_of nofun rfl ?_ fun hext => ?_
    · simp_all [Instr.wellFormed, BitVec.toNat_eq_nat]
    · simp_all [eq_wordX_iff, fld_ctl8_iff, fld_mode34_iff, bit_ne_zero, bit_ne_one, BitVec.toNat_eq_nat]

/-- Arrivals on latches (R346). -/
theorem decodeX_latchArrivals {w : Word32} {ext : List Word32} (hm : (fld w 26 6).toNat ∈ [21]) :
    Gives (decodeX w ext) (ReadsAll .X w ext) := by
  simp only [List.mem_cons, List.not_mem_nil, or_false] at hm
  simp only [decodeX, hm, bind_assoc, pure_bind, gives_noExt, gives_need, gives_pure, gives_limit, gives_rmode, gives_cls32, gives_cls16, gives_clsM,
      gives_clsT]
  simp only [BitVec.toNat_eq_nat] at hm
  intros
  split
  all_goals
    simp only [bind_assoc, pure_bind, gives_noExt, gives_need, gives_pure, gives_limit, gives_rmode, gives_cls32, gives_cls16, gives_clsM]
    intros
    refine readsAll_of nofun rfl ?_ fun hext => ?_
    · simp_all [Instr.wellFormed, BitVec.toNat_eq_nat]
    · simp_all [eq_wordX_iff, fld_ctl8_iff, ← bit1_beq_self, eq_three, bit_ne_zero, bit_ne_one, BitVec.toNat_eq_nat]

/-- Waits for a latch, and collectives (R347, R165). -/
theorem decodeX_latchWaits {w : Word32} {ext : List Word32} (hm : (fld w 26 6).toNat ∈ [22, 30]) :
    Gives (decodeX w ext) (ReadsAll .X w ext) := by
  simp only [List.mem_cons, List.not_mem_nil, or_false] at hm
  rcases hm with hm | hm <;>
    · simp only [decodeX, hm, bind_assoc, pure_bind, gives_noExt, gives_need, gives_pure, gives_limit, gives_rmode, gives_cls32, gives_cls16,
          gives_clsM, gives_clsT]
      simp only [BitVec.toNat_eq_nat] at hm
      intros
      refine readsAll_of nofun rfl ?_ fun hext => ?_
      · simp_all [Instr.wellFormed]
      · simp_all [eq_wordX_iff, fld_ctl8_iff, ← bit1_beq_self, bit_ne_zero, bit_ne_one]

/-- The latch rotation (R348). -/
theorem decodeX_latchRotation {w : Word32} {ext : List Word32} (hm : (fld w 26 6).toNat ∈ [23]) :
    Gives (decodeX w ext) (ReadsAll .X w ext) := by
  simp only [List.mem_cons, List.not_mem_nil, or_false] at hm
  simp only [decodeX, hm, bind_assoc, pure_bind, gives_noExt, gives_need, gives_pure, gives_limit, gives_rmode, gives_cls32, gives_cls16, gives_clsM,
      gives_clsT]
  simp only [BitVec.toNat_eq_nat] at hm
  intros
  split
  all_goals try exact gives_error
  all_goals
    simp only [bind_assoc, pure_bind, gives_noExt, gives_need, gives_pure, gives_limit, gives_rmode, gives_cls32, gives_cls16, gives_clsM]
    intros
    refine readsAll_of nofun rfl ?_ fun hext => ?_
    · simp_all [Instr.wellFormed, BitVec.toNat_eq_nat]
    · simp_all [eq_wordX_iff, fld_ctl8_iff, fld_two_iff, bit_ne_zero, bit_ne_one, BitVec.toNat_eq_nat]

/-- Handles, reverse mode, the tape and page service (R200, R287, R288, R81). -/
theorem decodeX_handles {w : Word32} {ext : List Word32} (hm : (fld w 26 6).toNat ∈ [25, 26, 27, 28, 29, 31]) :
    Gives (decodeX w ext) (ReadsAll .X w ext) := by
  simp only [List.mem_cons, List.not_mem_nil, or_false] at hm
  rcases hm with hm | hm | hm | hm | hm | hm <;>
    · simp only [decodeX, hm, bind_assoc, pure_bind, gives_noExt, gives_need, gives_pure, gives_limit, gives_rmode, gives_cls32, gives_cls16,
          gives_clsM, gives_clsT]
      simp only [BitVec.toNat_eq_nat] at hm
      intros
      split
      all_goals try exact gives_error
      all_goals
        simp only [bind_assoc, pure_bind, gives_noExt, gives_need, gives_pure, gives_limit, gives_rmode, gives_cls32, gives_cls16, gives_clsM]
        intros
        refine readsAll_of nofun rfl ?_ fun hext => ?_
        · simp_all [Instr.wellFormed, BitVec.toNat_eq_nat]
        · simp_all [eq_wordX_iff, bit_ne_zero, bit_ne_one, BitVec.toNat_eq_nat]

theorem decodeX_unassigned {w : Word32} {ext : List Word32}
    (hm : (fld w 26 6).toNat ∈ [32, 33, 34, 35, 36, 37, 38, 39, 40, 41, 42, 43, 44, 45, 46, 47, 48, 49, 50, 51, 52, 53, 54, 55, 56, 57, 58, 59, 60, 61,
        62, 63]) : Gives (decodeX w ext) (ReadsAll .X w ext) := by
  generalize hn : (fld w 26 6).toNat = n at hm
  fin_cases hm <;>
    · simp only [decodeX, hn]
      exact gives_error

theorem decodeX_readsAll (w : Word32) (ext : List Word32) : Gives (decodeX w ext) (ReadsAll .X w ext) := by
  have hmajors : ∀ n < 64, n = 0 ∨ ∃ l ∈ [[32, 33, 34, 35, 36, 37, 38, 39, 40, 41, 42, 43, 44, 45, 46, 47, 48, 49, 50, 51, 52, 53, 54, 55, 56, 57, 58,
      59, 60, 61, 62, 63],
      [1, 2, 6, 24], [4, 5], [3, 7, 9], [8, 19], [10, 11, 12, 13, 14, 15, 16, 17, 18], [20], [21], [22, 30], [23], [25, 26, 27, 28, 29,
      31]], n ∈ l := by decide
  obtain h | ⟨l, hl, h⟩ := hmajors _ (fld w 26 6).isLt
  · simp only [decodeX, h]
    exact decodeNop_readsAll
  simp only [List.mem_cons, List.not_mem_nil, or_false] at hl
  obtain rfl | rfl | rfl | rfl | rfl | rfl | rfl | rfl | rfl | rfl | rfl := hl
  · exact decodeX_unassigned h
  · exact decodeX_channels h
  · exact decodeX_channelMasks h
  · exact decodeX_channelModes h
  · exact decodeX_bindings h
  · exact decodeX_panes h
  · exact decodeX_paneStates h
  · exact decodeX_latchArrivals h
  · exact decodeX_latchWaits h
  · exact decodeX_latchRotation h
  · exact decodeX_handles h

/-- Settles O45, one family of majors at a time: the checks of the decoder fix every field of the word that the instruction does not hold
(`eq_wordR_iff` and its like). -/
theorem decoderReadsEveryBit : Obligations.DecoderReadsEveryBit := by
  unfold Obligations.DecoderReadsEveryBit
  intro sl w ext i h
  cases sl with
  | S => exact decodeS_readsAll w ext i h
  | A => exact decodeA_readsAll w ext i h
  | V => exact decodeV_readsAll w ext i h
  | M => exact decodeM_readsAll w ext i h
  | X => exact decodeX_readsAll w ext i h

end Sys2Proof
end

