-- ==== Sys2Proof/Proofs/Outcomes.lean ====
section
/-! What a slot's outcome is, from the equation of its instruction: the ways from `exec` to `Completes`, `Transfers`, `Faults` and `Happens`. -/

namespace Sys2Proof.Machine

theorem completes_of_ok {i : Instr} {s t : State} (h : exec i s = slotDone (.ok t)) : Completes i s t := h

theorem transfers_of_ok {i : Instr} {s t : State} (h : exec i s = transferDone (.ok t)) : Transfers i s t := h

/-- A scalar instruction completes with the value that its computation gives. -/
theorem completes_scalar {i : Instr} {s : State} {d : SReg} {v w : Word64} {lat : Nat}
    (h : exec i s = scalarResult d v lat s) (hv : v = w) : Completes i s (s.putS d w lat) := by
  subst hv; exact h

/-- A predicate instruction completes with the truth value that its condition gives. -/
theorem completes_pred {i : Instr} {s : State} {d : PReg} {b c : Bool}
    (h : exec i s = predResult d b s) (hb : b = c) : Completes i s (s.putP d c 1) := by
  subst hb; exact h

end Sys2Proof.Machine
end

