-- ==== Sys2Proof/Proofs/ScalarResults.lean ====
section
/-! The scalar instructions (R207 to R214): what each computation of the model is in the words of the manual's entries. -/

namespace Sys2Proof.Machine

theorem shl64_eq (x y : Word64) : shl64 x y = x <<< y.toNat := by
  unfold shl64
  split
  case isTrue h => simp [BitVec.shiftLeft_eq_zero h]
  case isFalse => rfl

theorem shr64_eq (x y : Word64) : shr64 x y = x >>> y.toNat := by
  unfold shr64
  split
  case isTrue h => simp [BitVec.ushiftRight_eq_zero h]
  case isFalse => rfl

theorem sshiftRight_of_width_le (x : Word64) {n : Nat} (h : 64 ≤ n) :
    x.sshiftRight n = if x.msb then BitVec.allOnes 64 else 0 := by
  apply BitVec.eq_of_getLsbD_eq
  intro i hi
  have hn : ¬ n + i < 64 := by omega
  rw [BitVec.getLsbD_sshiftRight]
  cases hm : x.msb
  case false => simp [hn]
  case true => rw [if_neg hn, if_pos rfl, BitVec.getLsbD_allOnes, decide_eq_false (Nat.not_le.2 hi), decide_eq_true hi]; rfl

theorem sar64_eq (x y : Word64) : sar64 x y = x.sshiftRight y.toNat := by
  unfold sar64
  split
  case isTrue h => exact (sshiftRight_of_width_le x h).symm
  case isFalse => rfl

theorem min64_signed (x y : Word64) : min64 false x y = BitVec.ofInt 64 (min x.toInt y.toInt) := by
  unfold min64
  simp only [BitVec.slt, Bool.false_eq_true, if_false]
  split
  case isTrue h => rw [min_eq_left (by simpa using le_of_lt (of_decide_eq_true h)), BitVec.ofInt_toInt]
  case isFalse h => rw [min_eq_right (by simpa using h), BitVec.ofInt_toInt]

theorem max64_signed (x y : Word64) : max64 false x y = BitVec.ofInt 64 (max x.toInt y.toInt) := by
  unfold max64
  simp only [BitVec.slt, Bool.false_eq_true, if_false]
  split
  case isTrue h => rw [max_eq_right (by simpa using le_of_lt (of_decide_eq_true h)), BitVec.ofInt_toInt]
  case isFalse h => rw [max_eq_left (by simpa using h), BitVec.ofInt_toInt]

theorem min64_unsigned (x y : Word64) : min64 true x y = BitVec.ofNat 64 (min x.toNat y.toNat) := by
  unfold min64
  simp only [BitVec.ult, if_true]
  split
  case isTrue h => rw [min_eq_left (by simpa using le_of_lt (of_decide_eq_true h)), BitVec.ofNat_toNat, BitVec.setWidth_eq]
  case isFalse h => rw [min_eq_right (by simpa using h), BitVec.ofNat_toNat, BitVec.setWidth_eq]

theorem max64_unsigned (x y : Word64) : max64 true x y = BitVec.ofNat 64 (max x.toNat y.toNat) := by
  unfold max64
  simp only [BitVec.ult, if_true]
  split
  case isTrue h => rw [max_eq_right (by simpa using le_of_lt (of_decide_eq_true h)), BitVec.ofNat_toNat, BitVec.setWidth_eq]
  case isFalse h => rw [max_eq_left (by simpa using h), BitVec.ofNat_toNat, BitVec.setWidth_eq]

/-! ### The bit counts -/

theorem lt_two_pow_leadingZeros {w n : Nat} (h : n < 2 ^ w) : n < 2 ^ (w - leadingZeros w n) := by
  unfold leadingZeros
  split
  case isTrue h0 => simp [h0]
  case isFalse h0 =>
    have hlog : n.log2 < w := (Nat.log2_lt h0).2 h
    rw [show w - (w - 1 - n.log2) = n.log2 + 1 by omega]
    exact Nat.lt_log2_self

theorem leadingZeros_le (w n : Nat) : leadingZeros w n ≤ w := by
  unfold leadingZeros
  split <;> omega

theorem two_pow_le_of_leadingZeros_lt {w n : Nat} (h : n < 2 ^ w) (hc : leadingZeros w n < w) :
    2 ^ (w - leadingZeros w n - 1) ≤ n := by
  unfold leadingZeros at *
  split at hc
  case isTrue => omega
  case isFalse h0 =>
    have hlog : n.log2 < w := (Nat.log2_lt h0).2 h
    rw [if_neg h0, show w - (w - 1 - n.log2) - 1 = n.log2 by omega]
    exact Nat.log2_self_le h0

/-- The count of trailing zeros stops at the first one bit at or after `i`, or at the end of the `fuel` bits looked at. -/
theorem trailingZeros_spec (n : Nat) : ∀ fuel i, (∀ j < i, n.testBit j = false) →
    trailingZeros n fuel i ≤ i + fuel ∧ (∀ j < trailingZeros n fuel i, n.testBit j = false) ∧
    (trailingZeros n fuel i < i + fuel → n.testBit (trailingZeros n fuel i) = true)
  | 0, i, hi => by simpa [trailingZeros] using hi
  | fuel + 1, i, hi => by
    unfold trailingZeros
    split
    case isTrue h => exact ⟨by omega, hi, fun _ => h⟩
    case isFalse h =>
      have hi' : ∀ j < i + 1, n.testBit j = false := by
        intro j hj
        rcases Nat.lt_succ_iff_lt_or_eq.1 hj with hj | rfl
        · exact hi j hj
        · simpa using h
      obtain ⟨hle, hzero, hone⟩ := trailingZeros_spec n fuel (i + 1) hi'
      exact ⟨by omega, hzero, fun hlt => hone (by omega)⟩

theorem mod_two_pow_eq_zero_of_testBit {n e : Nat} (h : ∀ j < e, n.testBit j = false) : n % 2 ^ e = 0 := by
  apply Nat.eq_of_testBit_eq
  intro i
  rw [Nat.testBit_mod_two_pow, Nat.zero_testBit]
  by_cases hi : i < e
  · simp [h i hi]
  · simp [hi]

theorem oneBits_eq (n : Nat) : ∀ w, oneBits n w = ((List.range w).filter fun k => n.testBit k).length
  | 0 => rfl
  | w + 1 => by
    rw [oneBits, oneBits_eq n w, List.range_succ, List.filter_append, List.length_append]
    cases h : n.testBit w <;> simp [h]

theorem countOperand_eq (w : Bool) (x : Word64) :
    countOperand w x = (if w then 32 else 64, x.toNat % 2 ^ (if w then 32 else 64)) := by
  cases w
  · simp [countOperand, Nat.mod_eq_of_lt x.isLt]
  · rfl

theorem getLsbD_fieldMask (width pos k : Nat) (hk : k < 64) :
    (fieldMask width pos).getLsbD k = decide (pos ≤ k ∧ k < pos + width) := by
  rw [fieldMask, w64, BitVec.getLsbD_ofNat]
  simp only [hk, decide_true, Bool.true_and, Nat.testBit_mul_two_pow, Nat.testBit_two_pow_sub_one]
  by_cases h : pos ≤ k
  · simp [h]; omega
  · simp [h]


theorem getLsbD_bfi64 (width pos : Nat) (old x : Word64) (k : Nat) (hk : k < 64) :
    (bfi64 width pos old x).getLsbD k = if pos ≤ k ∧ k < pos + width then x.getLsbD (k - pos) else old.getLsbD k := by
  simp only [bfi64, BitVec.getLsbD_or, BitVec.getLsbD_and, BitVec.getLsbD_not, getLsbD_fieldMask _ _ _ hk, hk,
    BitVec.getLsbD_shiftLeft]
  by_cases h : pos ≤ k ∧ k < pos + width
  · simp [h, Nat.not_lt.2 h.1]
  · simp [h]

/-- BFX of a field within the register: the field's value, zero or sign extended. -/
theorem bfx64_eq (u : Bool) (width pos : Nat) (x : Word64) :
    bfx64 u width pos x =
      if u then BitVec.ofNat 64 (x.toNat / 2 ^ pos % 2 ^ width)
      else (BitVec.ofNat width (x.toNat / 2 ^ pos % 2 ^ width)).signExtend 64 := rfl

/-! ### The statements -/

theorem scalarArithmetic : Statements.ScalarArithmetic := by
  intro s d a b
  exact ⟨completes_of_ok rfl, completes_scalar rfl rfl, completes_scalar rfl rfl, completes_scalar rfl rfl, completes_scalar rfl rfl,
    completes_scalar rfl rfl, completes_scalar rfl rfl, completes_scalar rfl (shl64_eq _ _), completes_scalar rfl (shr64_eq _ _),
    completes_scalar rfl (sar64_eq _ _), completes_scalar rfl rfl, completes_scalar rfl (min64_signed _ _),
    completes_scalar rfl (min64_unsigned _ _), completes_scalar rfl (max64_signed _ _), completes_scalar rfl (max64_unsigned _ _),
    completes_scalar rfl rfl, completes_scalar rfl rfl, completes_scalar rfl rfl⟩

theorem completes_div {s t : State} {d a b : SReg} {u : Bool}
    (h : (s.putS d (div64 u (s.rdS a) (s.rdS b)) 24).putDivz (s.rdS b) = t) : Completes (.div d a b u) s t := by
  subst h; exact completes_of_ok rfl

theorem completes_rem {s t : State} {d a b : SReg} {u : Bool}
    (h : (s.putS d (rem64 u (s.rdS a) (s.rdS b)) 24).putDivz (s.rdS b) = t) : Completes (.rem d a b u) s t := by
  subst h; exact completes_of_ok rfl

theorem scalarDivision : Statements.ScalarDivision := by
  intro s d a b
  refine ⟨fun hb u => ⟨completes_div ?_, completes_rem ?_⟩,
    fun hb => ⟨completes_div ?_, completes_rem ?_, completes_div ?_, completes_rem ?_⟩,
    fun ha hb => ⟨completes_div ?_, completes_rem ?_⟩⟩
  · simp [State.putDivz, div64, hb, stDivz, statBit, w64]
  · simp [State.putDivz, rem64, hb, stDivz, statBit, w64]
  · simp only [State.putDivz, div64, if_neg hb, if_true, BitVec.udiv_eq, BitVec.udiv_def]
  · simp only [State.putDivz, rem64, if_neg hb, if_true, BitVec.umod_eq, BitVec.umod_def]
  · simp only [State.putDivz, div64, if_neg hb, Bool.false_eq_true, if_false]
  · simp only [State.putDivz, rem64, if_neg hb, Bool.false_eq_true, if_false]
  · simp only [ha, hb]
    rfl
  · simp only [ha, hb]
    rfl

theorem scalarFields : Statements.ScalarFields := by
  intro s d a v n
  have hn : (n.setWidth 64).toNat = n.toNat := by simp; omega
  refine ⟨completes_scalar rfl rfl, completes_scalar rfl rfl, completes_scalar rfl rfl, completes_scalar rfl rfl,
    completes_scalar rfl (by rw [shl64_eq, hn]), completes_scalar rfl (by rw [shr64_eq, hn]), completes_scalar rfl (by rw [sar64_eq, hn]),
    completes_scalar rfl rfl, completes_scalar rfl rfl, completes_scalar rfl rfl, completes_scalar rfl rfl, completes_scalar rfl rfl,
    completes_scalar rfl rfl, completes_scalar rfl rfl, ?_, ?_⟩
  · intro w
    let width := if w then 32 else 64
    let x := (s.rdS a).toNat % 2 ^ width
    have hx : x < 2 ^ width := Nat.mod_lt _ (Nat.two_pow_pos _)
    obtain ⟨hle, hzero, hone⟩ := trailingZeros_spec x width 0 (by simp)
    refine ⟨leadingZeros width x, trailingZeros x width 0, oneBits x width, completes_of_ok ?_, completes_of_ok ?_, completes_of_ok ?_,
      leadingZeros_le _ _, lt_two_pow_leadingZeros hx, two_pow_le_of_leadingZeros_lt hx, by simpa using hle,
      mod_two_pow_eq_zero_of_testBit hzero, fun hlt => ?_, oneBits_eq _ _⟩
    · simp only [exec, execClz, countOperand_eq]; rfl
    · simp only [exec, execCtz, countOperand_eq]; rfl
    · simp only [exec, execPopc, countOperand_eq]; rfl
    · have := hone (by simpa using hlt)
      rwa [Nat.testBit_eq_decide_div_mod_eq, decide_eq_true_eq] at this
  · intro u w p hwp
    refine ⟨completes_scalar rfl (bfx64_eq _ _ _ _), _, completes_scalar rfl rfl, fun k hk => ?_⟩
    rw [getLsbD_bfi64 _ _ _ _ _ hk]
    congr 1
    rw [← Nat.add_assoc, Nat.lt_succ_iff]

/-- Settles O1: each computation of the model is the entry's, and the division keeps its quotient and its condition bit apart. -/
theorem scalarIntegerResults : Obligations.ScalarIntegerResults :=
  ⟨scalarArithmetic, scalarDivision, scalarFields⟩

end Sys2Proof.Machine
end

