-- ==== Sys2Proof/Proofs/Lanes.lean ====
section
/-! Lanes of a block (R205): what a block built from lanes holds, and the bits of a mask built lane by lane. -/

namespace Sys2Proof.Machine

theorem laneOf_lt (w : Nat) (b : Block) (k : Nat) : laneOf w b k < 2 ^ w := Nat.mod_lt _ (Nat.two_pow_pos w)

theorem joinLanes_lt (w : Nat) : ∀ l : List Nat, joinLanes w l < 2 ^ (w * l.length)
  | [] => by simp [joinLanes]
  | x :: xs => by
    have hx : x % 2 ^ w < 2 ^ w := Nat.mod_lt _ (Nat.two_pow_pos w)
    have ih := joinLanes_lt w xs
    calc x % 2 ^ w + 2 ^ w * joinLanes w xs
        < 2 ^ w * (joinLanes w xs + 1) := by rw [Nat.mul_add]; omega
      _ ≤ 2 ^ w * 2 ^ (w * xs.length) := Nat.mul_le_mul_left _ ih
      _ = 2 ^ (w * (x :: xs).length) := by rw [← Nat.pow_add, List.length_cons, Nat.mul_add, Nat.mul_one, Nat.add_comm]

/-- The digits of the number that lanes make are the lanes; beyond them it is 0. -/
theorem joinLanes_digit (w : Nat) : ∀ (l : List Nat) (k : Nat), joinLanes w l / 2 ^ (w * k) % 2 ^ w = l.getD k 0 % 2 ^ w
  | [], k => by simp [joinLanes]
  | x :: xs, 0 => by simp [joinLanes]
  | x :: xs, k + 1 => by
    have hx : x % 2 ^ w < 2 ^ w := Nat.mod_lt _ (Nat.two_pow_pos w)
    rw [joinLanes, Nat.mul_add, Nat.mul_one, Nat.add_comm (w * k), Nat.pow_add, ← Nat.div_div_eq_div_mul,
      Nat.add_mul_div_left _ _ (Nat.two_pow_pos w), Nat.div_eq_of_lt hx, Nat.zero_add, joinLanes_digit w xs k]
    rfl

/-- A lane of a block built from lanes is the element of the list, reduced to the lane width. -/
theorem laneOf_ofLanes {w : Nat} {l : List Nat} (hl : w * l.length ≤ 512) (k : Nat) :
    laneOf w (ofLanes w l) k = l.getD k 0 % 2 ^ w := by
  have hlt : joinLanes w l < 2 ^ 512 := lt_of_lt_of_le (joinLanes_lt w l) (Nat.pow_le_pow_right Nat.two_pos hl)
  rw [laneOf, ofLanes, BitVec.toNat_ofNat, Nat.mod_eq_of_lt hlt, joinLanes_digit]

/-- The lanes of a whole block fit it. -/
theorem width_mul_lanes_le (w : Nat) : w * (512 / w) ≤ 512 := Nat.mul_div_le 512 w

theorem laneOf_ofLanes_map {w n : Nat} (hn : w * n ≤ 512) (f : Nat → Nat) {k : Nat} (hk : k < n) :
    laneOf w (ofLanes w ((List.range n).map f)) k = f k % 2 ^ w := by
  rw [laneOf_ofLanes (by simpa using hn)]
  simp [hk]

theorem laneOf_setLane (w : Nat) (b : Block) (i v : Nat) {k : Nat} (hk : k < 512 / w) :
    laneOf w (setLane w b i v) k = if k = i then v % 2 ^ w else laneOf w b k := by
  rw [setLane, laneOf_ofLanes_map (width_mul_lanes_le w) _ hk]
  split
  · rfl
  · exact Nat.mod_eq_of_lt (laneOf_lt w b k)

theorem testBit_joinLanes_one (l : List Nat) (k : Nat) : (joinLanes 1 l).testBit k = decide (l.getD k 0 % 2 = 1) := by
  have h := joinLanes_digit 1 l k
  rw [Nat.one_mul, Nat.pow_one] at h
  rw [Nat.testBit_eq_decide_div_mod_eq, h]

/-- A mask built lane by lane has the bit of a lane exactly where the lane lies in the mask and satisfies the condition. -/
theorem getLsbD_maskWhere (n : Nat) (m : Word64) (f : Nat → Bool) {k : Nat} (hk : k < 64) :
    (maskWhere n m f).getLsbD k = (decide (k < n) && m.getLsbD k && f k) := by
  rw [maskWhere, w64, BitVec.getLsbD_ofNat, testBit_joinLanes_one]
  by_cases hn : k < n
  · have hget : ((List.range n).map fun k => if (inMask m k && f k) = true then 1 else 0).getD k 0 =
        if (m.getLsbD k && f k) = true then 1 else 0 := by simp only [List.getD_eq_getElem?_getD, List.getElem?_map, List.getElem?_range hn]; rfl
    rw [hget]
    simp only [hk, hn, decide_true, Bool.true_and]
    cases m.getLsbD k && f k <;> rfl
  · simp [hn]

theorem sizeBits_cases (sz : BitVec 2) : sizeBits sz = 8 ∨ sizeBits sz = 16 ∨ sizeBits sz = 32 ∨ sizeBits sz = 64 := by
  have h : sz.toNat < 4 := sz.isLt
  simp only [sizeBits]
  interval_cases sz.toNat <;> simp

theorem intCode_lt (w : Nat) : intCode w < 0xFF := by
  unfold intCode
  split <;> omega

/-! ### Poison (R216) -/

theorem isPoison_eq_false {d : Desc} : isPoison d = false ↔ descFmt d ≠ 0xFF := by simp [isPoison]

theorem Carries.not_poison {v : VVal} {code : Nat} (h : Carries v code) (hc : code < 0xFF) : isPoison v.desc = false := by
  rw [isPoison_eq_false]
  rcases h with h | h <;> omega

theorem CarriesFloat.not_poison {v : VVal} {code : Nat} (h : CarriesFloat v code) (hc : code < 0xFF) : isPoison v.desc = false := by
  rw [isPoison_eq_false]
  rcases h with h | h
  · omega
  · simp [h, descFmt]

theorem vUnlessPoison_of_sound {s : State} {d : VRegNo} {lat : Nat} {src : List VVal} {k : Except State State}
    (h : anyPoison src = false) : vUnlessPoison s d lat src k = k := by simp [vUnlessPoison, h]

theorem vUnlessPoison_of_poison {s : State} {d : VRegNo} {lat : Nat} {src : List VVal} {k : Except State State}
    (h : anyPoison src = true) : vUnlessPoison s d lat src k = .ok (s.putV d poisonVal lat) := by simp [vUnlessPoison, h]

theorem mUnlessPoison_of_sound {s : State} {d : MReg} {lat : Nat} {src : List VVal} {k : Except State State}
    (h : anyPoison src = false) : mUnlessPoison s d lat src k = k := by simp [mUnlessPoison, h]

theorem mUnlessPoison_of_poison {s : State} {d : MReg} {lat : Nat} {src : List VVal} {k : Except State State}
    (h : anyPoison src = true) : mUnlessPoison s d lat src k = .ok ((s.putM d 0 lat).putStat stPoison) := by simp [mUnlessPoison, h]

/-! ### Source descriptors (R217, R237) -/

theorem needScales_ok {s : State} {x y : VVal} (h : ScalesAgree x y) : needScales s x y = .ok () := by
  unfold needScales
  rw [if_neg]
  rintro ⟨hx, hy, hne⟩
  rcases h with h | h | h
  · exact hx h
  · exact hy h
  · exact hne h

theorem intSources_ok {s : State} {w : Nat} {x y : VVal} {scales : Bool} (hx : Carries x (intCode w)) (hy : Carries y (intCode w))
    (hs : scales = true → ScalesAgree x y) : intSources s w x y scales = .ok () := by
  have hf : needFormat s (intCode w) [x, y] = .ok () := needFormat_ok_iff.2 (by simpa [Carries] using ⟨hx, hy⟩)
  unfold intSources
  cases scales
  · simp [hf, bind, Except.bind, pure, Except.pure]
  · simp [hf, bind, Except.bind, needScales_ok (hs rfl)]

theorem anyPoison_pair {x y : VVal} (hx : isPoison x.desc = false) (hy : isPoison y.desc = false) : anyPoison [x, y] = false := by
  simp [anyPoison, hx, hy]

theorem anyPoison_one {x : VVal} (hx : isPoison x.desc = false) : anyPoison [x] = false := by simp [anyPoison, hx]

end Sys2Proof.Machine
end

