-- ==== Sys2Proof/Proofs/VectorIntegers.lean ====
section
/-! The integer vector instructions (R213, R215 to R226): each family completes with the lanes that its computation gives, and the
computations are those of the entries. -/

namespace Sys2Proof.Machine

/-! ### Integer lanes (R217, R218) -/

/-- A lane operation of two sources of the element format completes with every lane of its operation. -/
theorem completes_intLanes {i : Instr} {s : State} {d a b : VRegNo} {m : MReg} {sz : BitVec 2} {f : Nat → Nat → Nat → Nat × BitVec 6}
    {g : Nat → Nat × BitVec 6} (h : exec i s = intLanes s d a b m sz f)
    (hx : Carries (s.rdV a) (intCode (sizeBits sz))) (hy : Carries (s.rdV b) (intCode (sizeBits sz)))
    (hs : ScalesAgree (s.rdV a) (s.rdV b))
    (hg : ∀ k, f (sizeBits sz) (laneOf (sizeBits sz) (s.rdV a).data k) (laneOf (sizeBits sz) (s.rdV b).data k) = g k) :
    Completes i s (s.putLanes d (s.rdM m) (sizeBits sz) (intResult (sizeBits sz) (s.rdV a) (s.rdV b)) 2 g) := by
  apply completes_of_ok
  rw [h, intLanes, vUnlessPoison_of_sound (anyPoison_pair (hx.not_poison (intCode_lt _)) (hy.not_poison (intCode_lt _))),
    intSources_ok hx hy fun _ => hs]
  simp only [bind, Except.bind, hg]

/-- A shift of lanes completes with every lane of its operation under va's descriptor. -/
theorem completes_shiftLanes {i : Instr} {s : State} {d a b : VRegNo} {m : MReg} {sz : BitVec 2} {f : Nat → Nat → Nat → Nat}
    {g : Nat → Nat} (h : exec i s = shiftLanes s d a b m sz f)
    (hx : Carries (s.rdV a) (intCode (sizeBits sz))) (hy : Carries (s.rdV b) (intCode (sizeBits sz)))
    (hg : ∀ k, f (sizeBits sz) (laneOf (sizeBits sz) (s.rdV a).data k) (laneOf (sizeBits sz) (s.rdV b).data k) = g k) :
    Completes i s (s.putLanes d (s.rdM m) (sizeBits sz) (s.rdV a).desc 2 fun k => (g k, 0)) := by
  apply completes_of_ok
  rw [h, shiftLanes, vUnlessPoison_of_sound (anyPoison_pair (hx.not_poison (intCode_lt _)) (hy.not_poison (intCode_lt _))),
    intSources_ok hx hy (by simp)]
  simp only [bind, Except.bind, hg]

/-- A bitwise lane operation completes with every lane of its operation under va's descriptor. -/
theorem completes_bitLanes {i : Instr} {s : State} {d a b : VRegNo} {m : MReg} {sz : BitVec 2} {f : Nat → Nat → Nat} {g : Nat → Nat}
    (h : exec i s = bitLanes s d a b m sz f) (hx : isPoison (s.rdV a).desc = false) (hy : isPoison (s.rdV b).desc = false)
    (hg : ∀ k, f (laneOf (sizeBits sz) (s.rdV a).data k) (laneOf (sizeBits sz) (s.rdV b).data k) = g k) :
    Completes i s (s.putLanes d (s.rdM m) (sizeBits sz) (s.rdV a).desc 2 fun k => (g k, 0)) := by
  apply completes_of_ok
  rw [h, bitLanes, vUnlessPoison_of_sound (anyPoison_pair hx hy)]
  simp only [hg]

/-- Of two lanes read unsigned the lesser and the greater are chosen as the numbers are ordered. -/
theorem unsigned_min_max (p q : Nat) : (if (q : Int) < p then q else p) = min p q ∧ (if (p : Int) < q then q else p) = max p q := by
  constructor <;> split <;> omega

theorem laneResult_wraps (u : Bool) (w : Nat) (v : Int) : laneResult false u w v = ((v % 2 ^ w).toNat, 0) := rfl

theorem laneResult_signed (w : Nat) (v : Int) :
    laneResult true false w v =
      if v < -(2 ^ (w - 1)) then ((-(2 ^ (w - 1)) % 2 ^ w : Int).toNat, 0x20)
      else if 2 ^ (w - 1) - 1 < v then (((2 ^ (w - 1) - 1) % 2 ^ w : Int).toNat, 0x20) else ((v % 2 ^ w).toNat, 0) := by
  simp only [laneResult, saturate, laneLo, laneHi, if_true, Bool.false_eq_true, if_false, wrapTo, fClamp]

theorem laneResult_unsigned (w : Nat) (v : Int) :
    laneResult true true w v =
      if v < 0 then ((0 % 2 ^ w : Int).toNat, 0x20)
      else if 2 ^ w - 1 < v then (((2 ^ w - 1) % 2 ^ w : Int).toNat, 0x20) else ((v % 2 ^ w).toNat, 0) := by
  simp only [laneResult, saturate, laneLo, laneHi, if_true, wrapTo, fClamp]

theorem exec_vadd (d a b : VRegNo) (m : MReg) (sz : BitVec 2) (sat u : Bool) (s : State) :
    exec (.vadd d a b m sz sat u) s = intLanes s d a b m sz fun w x y => laneResult sat u w (laneInt u w x + laneInt u w y) := rfl

theorem exec_vsub (d a b : VRegNo) (m : MReg) (sz : BitVec 2) (sat u : Bool) (s : State) :
    exec (.vsub d a b m sz sat u) s = intLanes s d a b m sz fun w x y => laneResult sat u w (laneInt u w x - laneInt u w y) := rfl

theorem exec_vmul (d a b : VRegNo) (m : MReg) (sz : BitVec 2) (sat u : Bool) (s : State) :
    exec (.vmul d a b m sz sat u false) s = intLanes s d a b m sz fun w x y => laneResult sat u w (laneInt u w x * laneInt u w y) := rfl

theorem exec_vmul_high (d a b : VRegNo) (m : MReg) (sz : BitVec 2) (sat u : Bool) (s : State) :
    exec (.vmul d a b m sz sat u true) s = intLanes s d a b m sz fun w x y =>
      (wrapTo w (laneInt u w x * laneInt u w y / 2 ^ w), 0) := rfl

theorem exec_vmin (d a b : VRegNo) (m : MReg) (sz : BitVec 2) (u : Bool) (s : State) :
    exec (.vmin d a b m sz u) s = intLanes s d a b m sz fun w x y => (if laneInt u w y < laneInt u w x then y else x, 0) := rfl

theorem exec_vmax (d a b : VRegNo) (m : MReg) (sz : BitVec 2) (u : Bool) (s : State) :
    exec (.vmax d a b m sz u) s = intLanes s d a b m sz fun w x y => (if laneInt u w x < laneInt u w y then y else x, 0) := rfl

/-- Settles O3: the lanes are the exact results wrapped or clamped, and a source that carries its format is not poisoned. -/
theorem vectorIntegerArithmetic : Obligations.VectorIntegerArithmetic := by
  intro s d a b m sz w x y hx hy hs si wrap clamp signed unsigned go
  refine ⟨completes_intLanes (exec_vadd ..) hx hy hs fun _ => laneResult_wraps _ _ _,
    completes_intLanes (exec_vadd ..) hx hy hs fun _ => laneResult_signed _ _,
    completes_intLanes (exec_vadd ..) hx hy hs fun _ => laneResult_unsigned _ _,
    completes_intLanes (exec_vsub ..) hx hy hs fun _ => laneResult_wraps _ _ _,
    completes_intLanes (exec_vsub ..) hx hy hs fun _ => laneResult_signed _ _,
    completes_intLanes (exec_vsub ..) hx hy hs fun _ => laneResult_unsigned _ _,
    completes_intLanes (exec_vmul ..) hx hy hs fun _ => laneResult_wraps _ _ _,
    completes_intLanes (exec_vmul ..) hx hy hs fun _ => laneResult_signed _ _,
    completes_intLanes (exec_vmul ..) hx hy hs fun _ => laneResult_unsigned _ _,
    completes_intLanes (exec_vmul_high ..) hx hy hs fun _ => rfl, completes_intLanes (exec_vmul_high ..) hx hy hs fun _ => rfl,
    completes_intLanes (exec_vmin ..) hx hy hs fun _ => rfl,
    completes_intLanes (exec_vmin ..) hx hy hs fun k => congrArg (·, 0) (unsigned_min_max _ _).1,
    completes_intLanes (exec_vmax ..) hx hy hs fun _ => rfl,
    completes_intLanes (exec_vmax ..) hx hy hs fun k => congrArg (·, 0) (unsigned_min_max _ _).2⟩

/-! ### Bitwise lanes, shifts, moves and selects (R217, R218, R220) -/

theorem exec_vand (d a b : VRegNo) (m : MReg) (sz : BitVec 2) (s : State) :
    exec (.vand d a b m sz) s = bitLanes s d a b m sz fun x y => x &&& y := rfl

theorem exec_vor (d a b : VRegNo) (m : MReg) (sz : BitVec 2) (s : State) :
    exec (.vor d a b m sz) s = bitLanes s d a b m sz fun x y => x ||| y := rfl

theorem exec_vxor (d a b : VRegNo) (m : MReg) (sz : BitVec 2) (s : State) :
    exec (.vxor d a b m sz) s = bitLanes s d a b m sz fun x y => x ^^^ y := rfl

theorem exec_vshl (d a b : VRegNo) (m : MReg) (sz : BitVec 2) (s : State) :
    exec (.vshl d a b m sz) s = shiftLanes s d a b m sz fun w x y => if w ≤ y then 0 else x * 2 ^ y % 2 ^ w := rfl

theorem exec_vshr (d a b : VRegNo) (m : MReg) (sz : BitVec 2) (s : State) :
    exec (.vshr d a b m sz) s = shiftLanes s d a b m sz fun w x y => if w ≤ y then 0 else x / 2 ^ y := rfl

theorem exec_vsar (d a b : VRegNo) (m : MReg) (sz : BitVec 2) (s : State) :
    exec (.vsar d a b m sz) s = shiftLanes s d a b m sz fun w x y => wrapTo w (signedOf w x / 2 ^ (min y w)) := rfl

theorem completes_vmov {s : State} {d a : VRegNo} (m : MReg) (sz : BitVec 2) (hx : isPoison (s.rdV a).desc = false) :
    Completes (.vmov d a m sz) s
      (s.putLanes d (s.rdM m) (sizeBits sz) (s.rdV a).desc 2 fun k => (laneOf (sizeBits sz) (s.rdV a).data k, 0)) :=
  completes_of_ok (congrArg slotDone (vUnlessPoison_of_sound (anyPoison_one hx)))

theorem completes_vperm {s : State} {d a b : VRegNo} (m : MReg) (sz : BitVec 2) (hx : isPoison (s.rdV a).desc = false)
    (hy : isPoison (s.rdV b).desc = false) :
    Completes (.vperm d a b m sz) s (s.putLanes d (s.rdM m) (sizeBits sz) (s.rdV a).desc 3 fun k =>
      (if laneOf (sizeBits sz) (s.rdV b).data k < 512 / sizeBits sz
        then laneOf (sizeBits sz) (s.rdV a).data (laneOf (sizeBits sz) (s.rdV b).data k) else 0, 0)) :=
  completes_of_ok (congrArg slotDone (vUnlessPoison_of_sound (anyPoison_pair hx hy)))

/-- VSEL writes every lane, under the descriptor of the source that carries one, va first. -/
theorem completes_vsel {s : State} {d a b : VRegNo} (m : MReg) (sz : BitVec 2) (hx : isPoison (s.rdV a).desc = false)
    (hy : isPoison (s.rdV b).desc = false) (hd : (s.rdV a).desc = (s.rdV b).desc ∨ (s.rdV a).desc = 0 ∨ (s.rdV b).desc = 0) :
    Completes (.vsel d a b m sz) s (s.putV d
      ⟨ofLanes (sizeBits sz) ((List.range (512 / sizeBits sz)).map fun k =>
        if (s.rdM m).getLsbD k then laneOf (sizeBits sz) (s.rdV a).data k else laneOf (sizeBits sz) (s.rdV b).data k),
        if (s.rdV a).desc = 0 then (s.rdV b).desc else (s.rdV a).desc⟩ 2) := by
  have hsame : ¬((s.rdV a).desc ≠ (s.rdV b).desc ∧ (s.rdV a).desc ≠ 0 ∧ (s.rdV b).desc ≠ 0) := by tauto
  exact completes_of_ok (congrArg slotDone ((vUnlessPoison_of_sound (anyPoison_pair hx hy)).trans (if_neg hsame)))

/-- Settles O4: each form is one of the shared lane operations on sources that are not poisoned. -/
theorem vectorBitsAndMoves : Obligations.VectorBitsAndMoves := by
  intro s d a b m sz w x y hx hy go p q
  exact ⟨completes_bitLanes (exec_vand ..) hx hy fun _ => rfl, completes_bitLanes (exec_vor ..) hx hy fun _ => rfl,
    completes_bitLanes (exec_vxor ..) hx hy fun _ => rfl,
    fun cx cy => ⟨completes_shiftLanes (exec_vshl ..) cx cy fun _ => rfl, completes_shiftLanes (exec_vshr ..) cx cy fun _ => rfl,
      completes_shiftLanes (exec_vsar ..) cx cy fun _ => rfl⟩,
    completes_vmov m sz hx, completes_vperm m sz hx hy, completes_vsel m sz hx hy⟩

end Sys2Proof.Machine
end

