-- ==== Sys2Proof/Proofs/MasksAndPacking.lean ====
section
/-! Predicates, lane masks, scalars of a vector, descriptors, and the packing forms (R213, R214, R216, R219, R221 to R226). -/

namespace Sys2Proof.Machine

/-! ### Conditions (R213) -/

theorem cond64_eq (cc : BitVec 3) (c : Word64 → Word64 → Bool)
    (h : (cc, c) ∈ [((0 : BitVec 3), fun p q : Word64 => decide (p = q)), (1, fun p q => decide (p ≠ q)),
      (2, fun p q => decide (p.toInt < q.toInt)), (3, fun p q => decide (p.toInt ≤ q.toInt)), (4, fun p q => decide (p.toNat < q.toNat)),
      (5, fun p q => decide (p.toNat ≤ q.toNat))]) (x y : Word64) : cond64 cc x y = c x y := by
  simp only [List.mem_cons, List.not_mem_nil, or_false, Prod.mk.injEq] at h
  rcases h with ⟨rfl, rfl⟩ | ⟨rfl, rfl⟩ | ⟨rfl, rfl⟩ | ⟨rfl, rfl⟩ | ⟨rfl, rfl⟩ | ⟨rfl, rfl⟩
  · rfl
  · by_cases hxy : x = y <;> simp [cond64, hxy]
  all_goals rfl

theorem laneCond_eq (w : Nat) (cc : BitVec 3) (c : Nat → Nat → Bool)
    (h : (cc, c) ∈ [((0 : BitVec 3), fun p q : Nat => decide (p = q)), (1, fun p q => decide (p ≠ q)),
      (2, fun p q => decide ((BitVec.ofNat w p).toInt < (BitVec.ofNat w q).toInt)),
      (3, fun p q => decide ((BitVec.ofNat w p).toInt ≤ (BitVec.ofNat w q).toInt)), (4, fun p q => decide (p < q)),
      (5, fun p q => decide (p ≤ q))]) (x y : Nat) : laneCond cc w x y = c x y := by
  simp only [List.mem_cons, List.not_mem_nil, or_false, Prod.mk.injEq] at h
  rcases h with ⟨rfl, rfl⟩ | ⟨rfl, rfl⟩ | ⟨rfl, rfl⟩ | ⟨rfl, rfl⟩ | ⟨rfl, rfl⟩ | ⟨rfl, rfl⟩
  · rfl
  · by_cases hxy : x = y <;> simp [laneCond, hxy]
  all_goals rfl

theorem predicates : Statements.Predicates := by
  intro s d a b x y r v
  refine ⟨fun cc c hc => ⟨completes_pred rfl (cond64_eq cc c hc _ _), completes_pred rfl (cond64_eq cc c hc _ _)⟩,
    completes_pred rfl rfl, completes_pred rfl rfl, completes_pred rfl ?_, completes_pred rfl rfl, completes_scalar rfl rfl⟩
  cases s.rdP a <;> cases s.rdP b <;> rfl

/-- VCMP of sources of the element format delivers the mask of the lanes that satisfy the condition. -/
theorem completes_vcmp {s : State} {d : MReg} {a b : VRegNo} {m : MReg} {sz : BitVec 2} (cc : BitVec 3)
    (hx : Carries (s.rdV a) (intCode (sizeBits sz))) (hy : Carries (s.rdV b) (intCode (sizeBits sz)))
    (hs : ScalesAgree (s.rdV a) (s.rdV b)) :
    Completes (.vcmp d a b m sz cc) s (s.putM d (maskWhere (512 / sizeBits sz) (s.rdM m) fun k =>
      laneCond cc (sizeBits sz) (laneOf (sizeBits sz) (s.rdV a).data k) (laneOf (sizeBits sz) (s.rdV b).data k)) 2) := by
  apply completes_of_ok
  show execVcmp d a b m sz cc s = _
  rw [execVcmp, mUnlessPoison_of_sound (anyPoison_pair (hx.not_poison (intCode_lt _)) (hy.not_poison (intCode_lt _))), intSources_ok hx hy fun _ => hs]
  rfl

theorem vectorCompares : Statements.VectorCompares := by
  intro s d a b m sz w x y hx hy hs si cc c hc
  refine ⟨_, completes_vcmp cc hx hy hs, fun k hk => ?_⟩
  rw [getLsbD_maskWhere _ _ _ hk, laneCond_eq (sizeBits sz) cc c hc]

/-! ### Lane masks (R226) -/

/-- The lowest one bit of a word is what it shares with its negation. -/
theorem getLsbD_and_neg {n : Nat} (x : BitVec n) {k : Nat} (hk : k < n) :
    (x &&& -x).getLsbD k = (x.getLsbD k && (List.range k).all fun j => !x.getLsbD j) := by
  rw [BitVec.getLsbD_and, BitVec.getLsbD_neg, decide_eq_true hk]
  have hany : (decide (∃ j < k, x.getLsbD j = true)) = !((List.range k).all fun j => !x.getLsbD j) := by
    rw [← Bool.not_inj_iff, Bool.not_not, eq_comm, ← Bool.coe_iff_coe]
    simp
  rw [hany]
  cases x.getLsbD k <;> simp

theorem laneMasks : Statements.LaneMasks := by
  intro s d a b v
  exact ⟨completes_of_ok rfl, completes_of_ok rfl, completes_of_ok rfl, completes_of_ok rfl, completes_of_ok rfl, completes_of_ok rfl,
    fun h => completes_of_ok (congrArg slotDone (mUnlessPoison_of_sound (anyPoison_one h))),
    fun h => completes_of_ok (congrArg slotDone (mUnlessPoison_of_poison (by simp [anyPoison, h]))),
    _, completes_of_ok rfl, fun _ hk => getLsbD_and_neg _ hk⟩

/-- Settles O2: the conditions of the manual are those of the model, bit for bit of a mask. -/
theorem comparesPredicatesAndMasks : Obligations.ComparesPredicatesAndMasks :=
  ⟨predicates, vectorCompares, laneMasks⟩

/-! ### Scalars, lanes and descriptors (R221 to R223) -/

theorem completes_vbcast (s : State) (d : VRegNo) (r : SReg) (sz : BitVec 2) (fmt : BitVec 5) :
    Completes (.vbcast d r sz fmt) s (s.putV d
      ⟨ofLanes (if fmt = 0 then sizeBits sz else codeBits fmt.toNat)
        (List.replicate (512 / if fmt = 0 then sizeBits sz else codeBits fmt.toNat) (s.rdS r).toNat), mkDesc fmt.toNat 0⟩ 2) :=
  completes_of_ok rfl

/-- A descriptor of a format with scale 0 is the format's code. -/
theorem mkDesc_zero_scale (fmt : BitVec 5) : mkDesc fmt.toNat 0 = fmt.setWidth 16 := by
  revert fmt
  decide

theorem completes_vins {s : State} {d : VRegNo} (r : SReg) (lane : BitVec 6) (sz : BitVec 2) (h : isPoison (s.rdV d).desc = false) :
    Completes (.vins d r lane sz) s (s.putV d
      ⟨setLane (sizeBits sz) (s.rdV d).data lane.toNat ((s.rdS r).toNat % 2 ^ sizeBits sz), (s.rdV d).desc⟩ 2) :=
  completes_of_ok (congrArg slotDone (vUnlessPoison_of_sound (anyPoison_one h)))

theorem completes_vext {s : State} {a : VRegNo} (r : SReg) (lane : BitVec 6) (sz : BitVec 2) (sx : Bool)
    (h : isPoison (s.rdV a).desc = false) :
    Completes (.vext r a lane sz sx) s (s.putS r (if sx then BitVec.ofInt 64 (signedOf (sizeBits sz)
      (laneOf (sizeBits sz) (s.rdV a).data lane.toNat)) else w64 (laneOf (sizeBits sz) (s.rdV a).data lane.toNat)) 2) := by
  apply completes_of_ok
  refine congrArg (fun t => slotDone (.ok t)) (if_neg ?_)
  simp [h]

theorem completes_newDesc {i : Instr} {s : State} {d : VRegNo} {b : Block} {t : Desc} (h : exec i s = newDesc s d b t)
    (ht : descFmt t ≤ 0x0D) : Completes i s (s.putV d ⟨b, t⟩ 2) := by
  apply completes_of_ok
  rw [h, newDesc, if_neg (by omega)]

/-- Settles O5: one lane is replaced or read, and a legal descriptor is written. -/
theorem vectorScalarsAndDescriptors : Obligations.VectorScalarsAndDescriptors := by
  intro s d a b r lane sz w x old
  refine ⟨completes_vbcast s d r sz 0, fun fmt hlo hhi => ?_, fun h hl => ⟨_, completes_vins r lane sz h, fun k hk => ?_⟩,
    fun h => ⟨completes_vext r lane sz false h, completes_vext r lane sz true h⟩,
    fun h sx => completes_of_ok (congrArg (fun t => slotDone (.ok t)) (if_pos h)),
    fun h => completes_newDesc rfl h, fun h => completes_newDesc rfl h, completes_of_ok rfl⟩
  · have hne : fmt ≠ 0 := by rintro rfl; simp at hlo
    have := completes_vbcast s d r 0 fmt
    rwa [if_neg hne, mkDesc_zero_scale] at this
  · rw [laneOf_setLane _ _ _ _ hk, Nat.mod_mod]

/-! ### Packing and unpacking (R224, R225) -/

/-- Lane k of two blocks of lanes, the second above the first. -/
def pairLane (w : Nat) (x y : Block) (k : Nat) : Nat := if k < 512 / w then laneOf w x k else laneOf w y (k - 512 / w)

theorem lanesOf_append (w : Nat) (x y : Block) :
    lanesOf w x ++ lanesOf w y = (List.range (2 * (512 / w))).map (pairLane w x y) := by
  apply List.ext_getElem
  · simp [lanesOf]; omega
  · intro k h1 h2
    simp only [List.getElem_append, lanesOf, List.length_map, List.length_range, List.getElem_map, List.getElem_range, pairLane, dite_eq_ite]

theorem wrapTo_mod (w : Nat) (v : Int) : wrapTo w v % 2 ^ w = wrapTo w v := by
  apply Nat.mod_eq_of_lt
  have hlt : v % 2 ^ w < 2 ^ w := Int.emod_lt_of_pos _ (by positivity)
  have hnn : 0 ≤ v % 2 ^ w := Int.emod_nonneg _ (by positivity)
  zify
  rw [wrapTo, Int.toNat_of_nonneg hnn]
  exact hlt

/-- Flags ORed over lanes that each raise one flag or none. -/
theorem foldl_or_if {α : Type} (f : BitVec 6) (p : α → Bool) (l : List α) (acc : BitVec 6) :
    (l.map fun a => if p a then f else 0).foldl (· ||| ·) acc = acc ||| (if l.any p then f else 0) := by
  induction l generalizing acc with
  | nil => simp
  | cons a l ih =>
    rw [List.map_cons, List.foldl_cons, ih, List.any_cons, BitVec.or_assoc]
    congr 1
    cases p a <;> cases l.any p <;> simp

theorem foldl_or_flag {α : Type} (f : BitVec 6) (p : α → Bool) (l : List α) :
    (l.map fun a => if p a then f else 0).foldl (· ||| ·) 0 = if l.any p then f else 0 := by
  rw [foldl_or_if]
  exact BitVec.zero_or

theorem sourceScale_eq (x y : VVal) :
    sourceScale x y = if descFmt x.desc ≠ 0 then descScale x.desc else if descFmt y.desc ≠ 0 then descScale y.desc else 0 := by
  simp only [sourceScale, scaleOf, ite_not]

/-- A value clamped to a lane: the nearest value within the limits, with clamp-hit where it lies outside them. -/
theorem saturate_signed (w : Nat) (v : Int) :
    saturate false w v = (wrapTo w (max (-(2 ^ (w - 1))) (min (2 ^ (w - 1) - 1) v)),
      if decide (v < -(2 ^ (w - 1)) ∨ 2 ^ (w - 1) - 1 < v) then 0x20 else 0) := by
  have hpos : (0 : Int) < 2 ^ (w - 1) := by positivity
  simp only [saturate, laneLo, laneHi, Bool.false_eq_true, if_false, fClamp]
  generalize (2 : Int) ^ (w - 1) = h at hpos
  by_cases hlo : v < -h
  · rw [if_pos hlo, max_eq_left (by omega), if_pos (by simp [hlo])]
  · by_cases hhi : h - 1 < v
    · rw [if_neg hlo, if_pos hhi, max_eq_right (by omega), min_eq_left (by omega), if_pos (by simp [hhi])]
    · rw [if_neg hlo, if_neg hhi, max_eq_right (by omega), min_eq_right (by omega), if_neg (by simp; omega)]

/-- VPACK of lanes of 2w bits completes with a lane for each lane of its sources, va's first. -/
theorem completes_packLanes {i : Instr} {s : State} {d a b : VRegNo} {w : Nat} {sat : Bool} (h : exec i s = packLanes s d a b w sat)
    (hx : Carries (s.rdV a) (intCode (2 * w))) (hy : Carries (s.rdV b) (intCode (2 * w))) (hs : ScalesAgree (s.rdV a) (s.rdV b)) :
    Completes i s ((s.putV d ⟨ofLanes w ((List.range (2 * (512 / (2 * w)))).map fun k =>
        (laneResult sat false w (signedOf (2 * w) (pairLane (2 * w) (s.rdV a).data (s.rdV b).data k))).1),
        mkDesc (intCode w) (sourceScale (s.rdV a) (s.rdV b))⟩ 2).putFlags
      (((List.range (2 * (512 / (2 * w)))).map fun k =>
        (laneResult sat false w (signedOf (2 * w) (pairLane (2 * w) (s.rdV a).data (s.rdV b).data k))).2).foldl (· ||| ·) 0) 2) := by
  apply completes_of_ok
  rw [h, packLanes, vUnlessPoison_of_sound (anyPoison_pair (hx.not_poison (intCode_lt _)) (hy.not_poison (intCode_lt _))),
    intSources_ok hx hy fun _ => hs]
  simp only [bind, Except.bind, lanesOf_append, List.map_map, Function.comp_def]

theorem foldl_or_zero {α : Type} (l : List α) : (l.map fun _ => (0 : BitVec 6)).foldl (· ||| ·) 0 = 0 := by
  simpa using foldl_or_if 0 (fun _ => false) l 0

theorem putFlags_zero (s : State) (lat : Nat) : s.putFlags 0 lat = s := by simp [State.putFlags]

/-- The narrowing forms (R224) for one lane width. -/
theorem completes_pack {f : Bool → Instr} {s : State} {d a b : VRegNo} {w : Nat} (hf : ∀ sat, exec (f sat) s = packLanes s d a b w sat)
    (hw : 2 * (512 / (2 * w)) = 512 / w)
    (hx : Carries (s.rdV a) (intCode (2 * w))) (hy : Carries (s.rdV b) (intCode (2 * w))) (hs : ScalesAgree (s.rdV a) (s.rdV b)) :
    ∃ u v : Block,
      Completes (f false) s (s.putV d ⟨u, mkDesc (intCode w) (sourceScale (s.rdV a) (s.rdV b))⟩ 2) ∧
      (∀ k < 512 / w, laneOf w u k = wrapTo w (signedOf (2 * w) (pairLane (2 * w) (s.rdV a).data (s.rdV b).data k))) ∧
      Completes (f true) s ((s.putV d ⟨v, mkDesc (intCode w) (sourceScale (s.rdV a) (s.rdV b))⟩ 2).putFlags
        (if (List.range (512 / w)).any fun k => decide
            (signedOf (2 * w) (pairLane (2 * w) (s.rdV a).data (s.rdV b).data k) < -(2 ^ (w - 1)) ∨
              2 ^ (w - 1) - 1 < signedOf (2 * w) (pairLane (2 * w) (s.rdV a).data (s.rdV b).data k)) then 0x20 else 0) 2) ∧
      (∀ k < 512 / w, laneOf w v k = wrapTo w (max (-(2 ^ (w - 1)))
        (min (2 ^ (w - 1) - 1) (signedOf (2 * w) (pairLane (2 * w) (s.rdV a).data (s.rdV b).data k))))) := by
  have hwrap := completes_packLanes (hf false) hx hy hs
  have hclamp := completes_packLanes (hf true) hx hy hs
  simp only [laneResult, Bool.false_eq_true, if_false, if_true, saturate_signed, foldl_or_zero, foldl_or_flag, putFlags_zero,
    hw] at hwrap hclamp
  refine ⟨_, _, hwrap, fun k hk => ?_, hclamp, fun k hk => ?_⟩
  · rw [laneOf_ofLanes_map (width_mul_lanes_le w) _ hk, wrapTo_mod]
  · rw [laneOf_ofLanes_map (width_mul_lanes_le w) _ hk, wrapTo_mod]

/-- The widening forms (R224) for one lane width. -/
theorem completes_unpack {f : Bool → Bool → Instr} {s : State} {d a : VRegNo} {w : Nat}
    (hf : ∀ part u, exec (f part u) s = unpackLanes s d a w part u) (hw : 2 * w * (256 / w) ≤ 512)
    (hx : Carries (s.rdV a) (intCode w)) (part u : Bool) :
    ∃ v : Block, Completes (f part u) s (s.putV d ⟨v, mkDesc (intCode (2 * w)) (scaleOf (s.rdV a).desc)⟩ 2) ∧
      ∀ k < 256 / w, laneOf (2 * w) v k = wrapTo (2 * w) (laneInt u w (laneOf w (s.rdV a).data (k + if part then 256 / w else 0))) := by
  have hfmt : needFormat s (intCode w) [s.rdV a] = .ok () := needFormat_ok_iff.2 (by simpa [Carries] using hx)
  refine ⟨ofLanes (2 * w) ((List.range (256 / w)).map fun k =>
    wrapTo (2 * w) (laneInt u w (laneOf w (s.rdV a).data (k + if part then 256 / w else 0)))), completes_of_ok ?_, fun k hk => ?_⟩
  · rw [hf, unpackLanes, vUnlessPoison_of_sound (anyPoison_one (hx.not_poison (intCode_lt _))), hfmt]
    simp only [bind, Except.bind, List.map_map, Function.comp_def]
  · rw [laneOf_ofLanes_map hw _ hk, wrapTo_mod]

/-- The lanes that VPACK.T2 writes: the codes in the half that it names, the old lanes in the other. -/
def ternLanes (half : Bool) (codes keep : List Nat) : List Nat := if half then keep.take 128 ++ codes else codes ++ keep.drop 128

theorem ternLanes_getD {half : Bool} (f g : Nat → Nat) {k : Nat} (hk : k < 256) :
    (ternLanes half ((List.range 128).map f) ((List.range 256).map g)).getD k 0 =
      if half = decide (128 ≤ k) then f (k % 128) else g k := by
  cases half
  · by_cases h : 128 ≤ k
    · have hlt : k - 128 < 256 - 128 := by omega
      simp [ternLanes, h, List.getElem?_append_right, List.getElem?_drop, hk, Nat.add_sub_cancel' h]
    · have hlt : k < 128 := by omega
      simp [ternLanes, h, List.getElem?_append_left, hlt, Nat.mod_eq_of_lt hlt]
  · by_cases h : 128 ≤ k
    · have hlt : k - 128 < 128 := by omega
      have hmod : k % 128 = k - 128 := by omega
      simp [ternLanes, h, List.getElem?_append_right, hlt, hmod]
    · have hlt : k < 128 := by omega
      simp [ternLanes, h, List.getElem?_append_left, hlt, List.getElem?_take, hk]

theorem ternLanes_length (half : Bool) (f g : Nat → Nat) :
    (ternLanes half ((List.range 128).map f) ((List.range 256).map g)).length = 256 := by
  cases half <;> simp [ternLanes]

theorem ternCode_lt (v : Int) : ternCode v < 2 ^ 2 := by
  unfold ternCode
  split
  · omega
  · split <;> omega

theorem completes_vpackT2 {s : State} {d a b : VRegNo} (half : Bool) (hx : Carries (s.rdV a) 7) (hy : Carries (s.rdV b) 7)
    (hs : ScalesAgree (s.rdV a) (s.rdV b)) (hd : isPoison (s.rdV d).desc = false) :
    Completes (.vpackT2 d a b half) s ((s.putV d
      ⟨ofLanes 2 (ternLanes half ((List.range 128).map fun k => ternCode (signedOf 8 (pairLane 8 (s.rdV a).data (s.rdV b).data k)))
        ((List.range 256).map fun k => laneOf 2 (s.rdV d).data k)), mkDesc 0x0B (sourceScale (s.rdV a) (s.rdV b))⟩ 2).putFlags
      (if (List.range 128).any fun k => decide (signedOf 8 (pairLane 8 (s.rdV a).data (s.rdV b).data k) < -1 ∨
        1 < signedOf 8 (pairLane 8 (s.rdV a).data (s.rdV b).data k)) then 0x20 else 0) 2) := by
  apply completes_of_ok
  have hp : anyPoison [s.rdV a, s.rdV b, s.rdV d] = false := by
    simp [anyPoison, hx.not_poison (by omega), hy.not_poison (by omega), hd]
  have hok : intSources s 8 (s.rdV a) (s.rdV b) true = .ok () := intSources_ok (w := 8) hx hy fun _ => hs
  show execVpackT2 d a b half s = _
  rw [execVpackT2, vUnlessPoison_of_sound hp, hok]
  simp only [bind, Except.bind, lanesOf_append, List.map_map, Function.comp_def, ternLanes, fIf, fClamp, List.any_map, Bool.decide_or]
  rfl

theorem completes_vunpackT2 {s : State} {d a : VRegNo} (part : BitVec 2) (hx : Carries (s.rdV a) 0x0B) :
    Completes (.vunpackT2 d a part) s ((s.putV d
      ⟨ofLanes 8 ((List.range 64).map fun k => wrapTo 8 (ternWeight (laneOf 2 (s.rdV a).data (64 * part.toNat + k)))),
        mkDesc 7 (scaleOf (s.rdV a).desc)⟩ 2).putTernbad
      ((List.range 64).filter fun k => laneOf 2 (s.rdV a).data (64 * part.toNat + k) == 2).length 1) := by
  apply completes_of_ok
  have hfmt : needFormat s 0x0B [s.rdV a] = .ok () := needFormat_ok_iff.2 (by simpa [Carries] using hx)
  show execVunpackT2 d a part s = _
  rw [execVunpackT2, vUnlessPoison_of_sound (anyPoison_one (hx.not_poison (by omega))), hfmt]
  simp only [bind, Except.bind, List.map_map, Function.comp_def, List.filter_map, List.length_map]

theorem ternWeight_wrapped : ∀ c : Nat, wrapTo 8 (ternWeight c) = match c with | 1 => 1 | 3 => 255 | _ => 0
  | 0 | 1 | 2 | 3 | _ + 4 => rfl

/-- Settles O6: the narrowing forms are one lane computation for three widths, and so are the widening forms. -/
theorem vectorPacking : Obligations.VectorPacking := by
  intro s d a b x y old si scale src
  refine ⟨fun w f hf hx hy hs => ?_, fun w f hf hx part u => ?_, fun hx hy hs hd half => ?_, fun hx part => ?_⟩
  · have hpack : (∀ sat, exec (f sat) s = packLanes s d a b w sat) ∧ 2 * (512 / (2 * w)) = 512 / w := by
      simp only [List.mem_cons, List.not_mem_nil, or_false, Prod.mk.injEq] at hf
      rcases hf with ⟨rfl, rfl⟩ | ⟨rfl, rfl⟩ | ⟨rfl, rfl⟩ <;> exact ⟨fun _ => rfl, rfl⟩
    have h := completes_pack hpack.1 hpack.2 hx hy hs
    rw [sourceScale_eq] at h
    exact h
  · have hunpack : (∀ part u, exec (f part u) s = unpackLanes s d a w part u) ∧ 2 * w * (256 / w) ≤ 512 := by
      simp only [List.mem_cons, List.not_mem_nil, or_false, Prod.mk.injEq] at hf
      rcases hf with ⟨rfl, rfl⟩ | ⟨rfl, rfl⟩ | ⟨rfl, rfl⟩ <;> exact ⟨fun _ _ => rfl, by decide⟩
    obtain ⟨v, hv, hlane⟩ := completes_unpack hunpack.1 hunpack.2 hx part u
    simp only [scaleOf, ← ite_not (descFmt _ = 0)] at hv
    exact ⟨v, hv, fun k hk => hlane k hk⟩
  · have h := completes_vpackT2 half hx hy hs hd
    rw [sourceScale_eq] at h
    refine ⟨_, h, fun k hk => ?_⟩
    rw [laneOf_ofLanes (by rw [ternLanes_length]), ternLanes_getD _ _ hk]
    split
    · exact Nat.mod_eq_of_lt (ternCode_lt _)
    · exact Nat.mod_eq_of_lt (laneOf_lt _ _ _)
  · have h := completes_vunpackT2 (d := d) part hx
    simp only [scaleOf, ← ite_not (descFmt _ = 0)] at h
    refine ⟨_, h, fun k hk => ?_⟩
    rw [laneOf_ofLanes_map (by omega) _ hk, wrapTo_mod]
    exact ternWeight_wrapped _

end Sys2Proof.Machine
end

