-- ==== Sys2Proof/Proofs/FloatLanes.lean ====
section
/-! Floating-point lanes (R237 to R239, R242 to R246): on sources that carry the format each instruction completes with the lanes of its
entry. -/

namespace Sys2Proof.Machine

theorem fmtCode_lt (f : BitVec 2) : fmtCode f < 0xFF := by
  have := f.isLt
  unfold fmtCode
  omega

theorem anyPoison_of_carriesFloat {c : Nat} {src : List VVal} (hc : c < 0xFF) (h : ∀ v ∈ src, CarriesFloat v c) : anyPoison src = false := by
  simp only [anyPoison, List.any_eq_false, Bool.not_eq_true]
  exact fun v hv => (h v hv).not_poison hc

theorem forall_mem_one {α : Type} {P : α → Prop} {x : α} (hx : P x) : ∀ v ∈ [x], P v := by simpa using hx

theorem forall_mem_pair {α : Type} {P : α → Prop} {x y : α} (hx : P x) (hy : P y) : ∀ v ∈ [x, y], P v := by simp [hx, hy]

theorem forall_mem_triple {α : Type} {P : α → Prop} {x y z : α} (hx : P x) (hy : P y) (hz : P z) : ∀ v ∈ [x, y, z], P v := by
  simp [hx, hy, hz]

/-- A lane-wise operation on sources that carry the format completes with every lane of the operation. -/
theorem completes_floatLanes {i : Instr} {s : State} {d : VRegNo} {m : MReg} {f : BitVec 2} {lat : Nat} {src : List VVal}
    {op : Nat → Nat × BitVec 6} (h : exec i s = floatLanes s d m f lat src op) (hsrc : ∀ v ∈ src, CarriesFloat v (fmtCode f)) :
    Completes i s (s.putLanes d (s.rdM m) (codeBits (fmtCode f)) (mkDesc (fmtCode f) 0) lat op) := by
  have hfmt : needFloat s (fmtCode f) src = .ok () := needFloat_ok_iff.2 hsrc
  apply completes_of_ok
  rw [h, floatLanes, vUnlessPoison_of_sound (anyPoison_of_carriesFloat (fmtCode_lt f) hsrc), hfmt]
  rfl

theorem completes_vfclass {s : State} {d a : VRegNo} {m : MReg} {f : BitVec 2} (hx : CarriesFloat (s.rdV a) (fmtCode f)) :
    Completes (.vfclass d a m f) s (s.putLanes d (s.rdM m) (fmtBits f) (mkDesc (intCode (fmtBits f)) 0) 2 fun k =>
      (2 ^ classOf (fmtOf f) (laneOf (fmtBits f) (s.rdV a).data k), 0)) := by
  have hfmt : needFloat s (fmtCode f) [s.rdV a] = .ok () := needFloat_ok_iff.2 (forall_mem_one hx)
  apply completes_of_ok
  show execVfclass d a m f s = _
  rw [execVfclass, vUnlessPoison_of_sound (anyPoison_one (hx.not_poison (fmtCode_lt f))), hfmt]
  rfl

/-- Settles O7: each instruction is the shared lane operation with its latency and its exact operation. -/
theorem floatArithmetic : Obligations.FloatArithmetic := by
  intro s d a b m rm cl fmt c x y z go round pick lat slow hx
  have h1 := forall_mem_one (P := (CarriesFloat · c)) hx
  refine ⟨completes_floatLanes rfl h1, completes_floatLanes rfl h1, completes_vfclass hx, fun hy => ?_⟩
  have h2 := forall_mem_pair (P := (CarriesFloat · c)) hx hy
  refine ⟨completes_floatLanes rfl h2, completes_floatLanes rfl h2, completes_floatLanes rfl h2, completes_floatLanes rfl h2,
    completes_floatLanes rfl h2, completes_floatLanes rfl h2, fun hz => ?_⟩
  have h3 := forall_mem_triple (P := (CarriesFloat · c)) hx hy hz
  exact ⟨completes_floatLanes rfl h3, completes_floatLanes rfl h3, completes_floatLanes rfl h3⟩

/-! ### Signs and compares (R242, R243) -/

theorem completes_signLanes {i : Instr} {s : State} {d a b : VRegNo} {m : MReg} {f : BitVec 2} {op : Bool → Bool → Bool}
    {g : Nat → Nat} (h : exec i s = signLanes s d a b m f op)
    (hx : CarriesFloat (s.rdV a) (fmtCode f)) (hy : CarriesFloat (s.rdV b) (fmtCode f))
    (hg : ∀ k, withSign (fmtBits f) (laneOf (fmtBits f) (s.rdV a).data k) (op ((laneOf (fmtBits f) (s.rdV a).data k).testBit (fmtBits f - 1))
      ((laneOf (fmtBits f) (s.rdV b).data k).testBit (fmtBits f - 1))) = g k) :
    Completes i s (s.putLanes d (s.rdM m) (fmtBits f) (if (s.rdV a).desc = 0 then mkDesc (fmtCode f) 0 else (s.rdV a).desc) 2
      fun k => (g k, 0)) := by
  have hfmt : needFloat s (fmtCode f) [s.rdV a, s.rdV b] = .ok () := needFloat_ok_iff.2 (forall_mem_pair hx hy)
  apply completes_of_ok
  rw [h, signLanes, vUnlessPoison_of_sound (anyPoison_of_carriesFloat (fmtCode_lt f) (forall_mem_pair hx hy)), hfmt]
  simp only [bind, Except.bind, hg]

theorem exec_vfsgnCopy (d a b : VRegNo) (m : MReg) (f : BitVec 2) (s : State) :
    exec (.vfsgnCopy d a b m f) s = signLanes s d a b m f fun _ y => y := rfl

theorem exec_vfsgnNeg (d a b : VRegNo) (m : MReg) (f : BitVec 2) (s : State) :
    exec (.vfsgnNeg d a b m f) s = signLanes s d a b m f fun _ y => !y := rfl

theorem exec_vfsgnXor (d a b : VRegNo) (m : MReg) (f : BitVec 2) (s : State) :
    exec (.vfsgnXor d a b m f) s = signLanes s d a b m f fun x y => x != y := rfl

/-- VFCMP delivers the mask of the lanes that satisfy the condition, and the flags of the lanes that the write mask names. -/
theorem completes_vfcmp {s : State} {q : MReg} {a b : VRegNo} {m : MReg} {f : BitVec 2} (cc : BitVec 3) (sg : Bool)
    (hx : CarriesFloat (s.rdV a) (fmtCode f)) (hy : CarriesFloat (s.rdV b) (fmtCode f)) :
    Completes (.vfcmp q a b m cc sg f) s ((s.putM q (maskWhere (512 / fmtBits f) (s.rdM m) fun k =>
        floatCond cc (laneNum (fmtCode f) (s.rdV a) k) (laneNum (fmtCode f) (s.rdV b) k)) 2).putFlags
      ((((List.range (512 / fmtBits f)).filter (inMask (s.rdM m))).map fun k =>
        compareFlag sg (laneNum (fmtCode f) (s.rdV a) k) (laneNum (fmtCode f) (s.rdV b) k)).foldl (· ||| ·) 0) 2) := by
  have hfmt : needFloat s (fmtCode f) [s.rdV a, s.rdV b] = .ok () := needFloat_ok_iff.2 (forall_mem_pair hx hy)
  apply completes_of_ok
  show execVfcmp q a b m cc sg f s = _
  rw [execVfcmp, mUnlessPoison_of_sound (anyPoison_of_carriesFloat (fmtCode_lt f) (forall_mem_pair hx hy)), hfmt]
  rfl

theorem floatSignsAndConversions : Statements.FloatSignsAndConversions := by
  intro s d a b q m fmt c w x y hx hy
  refine ⟨⟨completes_signLanes (exec_vfsgnCopy ..) hx hy fun _ => rfl, completes_signLanes (exec_vfsgnNeg ..) hx hy fun _ => rfl,
    completes_signLanes (exec_vfsgnXor ..) hx hy fun _ => rfl⟩, fun cc sg _ => ⟨_, _, completes_vfcmp cc sg hx hy, fun k hk => ?_, ?_, ?_⟩⟩
  · exact getLsbD_maskWhere _ _ _ hk
  · simp only [compareFlag, fIf, foldl_or_flag, fInvalid]
    split
    · exact .inr rfl
    · exact .inl rfl
  · simp only [compareFlag, fIf, foldl_or_flag, fInvalid]
    split
    case isTrue h =>
      refine iff_of_true rfl ?_
      obtain ⟨k, hk, hflag⟩ := List.any_eq_true.1 h
      simp only [List.mem_filter, List.mem_range, inMask] at hk
      refine ⟨k, hk.1, hk.2, ?_⟩
      simpa [or_assoc] using hflag
    case isFalse h =>
      refine iff_of_false (by decide) ?_
      rintro ⟨k, hk, hm, hflag⟩
      exact h (List.any_eq_true.2 ⟨k, List.mem_filter.2 ⟨List.mem_range.2 hk, hm⟩, by simpa [or_assoc] using hflag⟩)

/-! ### Conversion (R245, R246) -/

theorem fmtOfCode_isSome (c : Nat) : (fmtOfCode c).isSome = true ↔ 1 ≤ c ∧ c ≤ 6 := by
  by_cases h : c ≤ 6
  · interval_cases c <;> simp [fmtOfCode]
  · obtain ⟨j, rfl⟩ := Nat.exists_eq_add_of_lt (not_le.1 h)
    simp [fmtOfCode, show 6 + j + 1 = j + 7 by omega]

/-- The converted lanes of VFCVT, in the order in which it makes them. -/
def cvtLanes (cl : Bool) (src : BitVec 4) (rm part : BitVec 3) (dst : BitVec 5) (x : VVal) : List (Nat × BitVec 6) :=
  (List.range (512 / max (codeBits src.toNat) (codeBits dst.toNat))).map fun j => convert src.toNat dst.toNat rm.toNat cl (laneNum src.toNat x
    ((if codeBits dst.toNat < codeBits src.toNat then 0 else part.toNat * (512 / max (codeBits src.toNat) (codeBits dst.toNat))) + j))

theorem cvtLanes_getD (cl : Bool) (src : BitVec 4) (rm part : BitVec 3) (dst : BitVec 5) (x : VVal) {j : Nat}
    (hj : j < 512 / max (codeBits src.toNat) (codeBits dst.toNat)) :
    (cvtLanes cl src rm part dst x).getD j (0, 0) = convert src.toNat dst.toNat rm.toNat cl (laneNum src.toNat x
      ((if codeBits dst.toNat < codeBits src.toNat then 0 else part.toNat * (512 / max (codeBits src.toNat) (codeBits dst.toNat))) + j)) := by
  simp only [cvtLanes, List.getD_eq_getElem?_getD, List.getElem?_map, List.getElem?_range hj, Option.map_some, Option.getD_some]

/-- The first lane that VFCVT writes. -/
def cvtFirst (src : BitVec 4) (part : BitVec 3) (dst : BitVec 5) : Nat :=
  if codeBits dst.toNat < codeBits src.toNat then part.toNat * (512 / max (codeBits src.toNat) (codeBits dst.toNat)) else 0

theorem completes_vfcvt {s : State} {d a : VRegNo} (cl : Bool) (src : BitVec 4) (rm part : BitVec 3) (dst : BitVec 5)
    (hx : if 1 ≤ src.toNat ∧ src.toNat ≤ 6 then CarriesFloat (s.rdV a) src.toNat else Carries (s.rdV a) src.toNat)
    (hd : codeBits dst.toNat < codeBits src.toNat → isPoison (s.rdV d).desc = false) :
    Completes (.vfcvt d a cl src rm part dst) s ((s.putV d
      ⟨ofLanes (codeBits dst.toNat) ((List.range (512 / codeBits dst.toNat)).map fun k =>
        if cvtFirst src part dst ≤ k ∧ k < cvtFirst src part dst + 512 / max (codeBits src.toNat) (codeBits dst.toNat)
        then ((cvtLanes cl src rm part dst (s.rdV a)).getD (k - cvtFirst src part dst) (0, 0)).1
        else laneOf (codeBits dst.toNat) (s.rdV d).data k), mkDesc dst.toNat 0⟩ 4).putFlags
      (((cvtLanes cl src rm part dst (s.rdV a)).map (·.2)).foldl (· ||| ·) 0) 4) := by
  have hlt : src.toNat < 0xFF := by have := src.isLt; omega
  have ha : isPoison (s.rdV a).desc = false := by
    split at hx
    · exact hx.not_poison hlt
    · exact hx.not_poison hlt
  have hp : anyPoison (if decide (codeBits dst.toNat < codeBits src.toNat) = true then [s.rdV a, s.rdV d] else [s.rdV a]) = false := by
    split
    case isTrue h => exact anyPoison_pair ha (hd (of_decide_eq_true h))
    case isFalse => exact anyPoison_one ha
  apply completes_of_ok
  show execVfcvt d a cl src rm part dst s = _
  rw [execVfcvt, vUnlessPoison_of_sound hp]
  by_cases hf : (fmtOfCode src.toNat).isSome = true
  · have hok : needFloat s src.toNat [s.rdV a] = .ok () :=
      needFloat_ok_iff.2 (forall_mem_one (by rwa [if_pos ((fmtOfCode_isSome _).1 hf)] at hx))
    simp only [if_pos hf, hok, bind, Except.bind, decide_eq_true_eq, cvtLanes, cvtFirst]
    rfl
  · have hok : needFormat s src.toNat [s.rdV a] = .ok () :=
      needFormat_ok_iff.2 (forall_mem_one (by rwa [if_neg (mt (fmtOfCode_isSome _).2 hf)] at hx))
    simp only [if_neg hf, hok, bind, Except.bind, decide_eq_true_eq, cvtLanes, cvtFirst]
    rfl

theorem floatConversion : Statements.FloatConversion := by
  intro s d a cl src rm part dst _ x ws wd n hx hd
  have h := completes_vfcvt cl src rm part dst hx hd
  have hflags : (cvtLanes cl src rm part dst x).map (·.2) = (List.range n).map fun j =>
      (convert src.toNat dst.toNat rm.toNat cl (laneNum src.toNat x ((if wd < ws then 0 else part.toNat * n) + j))).2 := by
    simp only [cvtLanes, List.map_map, Function.comp_def]
    rfl
  rw [hflags] at h
  refine ⟨_, h, fun k hk => ?_⟩
  rw [laneOf_ofLanes_map (width_mul_lanes_le _) _ hk]
  change (if cvtFirst src part dst ≤ k ∧ k < cvtFirst src part dst + n then _ else _) % 2 ^ wd =
    if cvtFirst src part dst ≤ k ∧ k < cvtFirst src part dst + n then _ else _
  split
  case isTrue hin =>
    rw [cvtLanes_getD cl src rm part dst (s.rdV a) (show k - cvtFirst src part dst < n by omega)]
    rfl
  case isFalse => exact Nat.mod_eq_of_lt (laneOf_lt _ _ _)

/-- Settles O8: signs, compares and conversions lane by lane. -/
theorem floatSignsComparesConversions : Obligations.FloatSignsComparesConversions :=
  ⟨floatSignsAndConversions, floatConversion⟩

end Sys2Proof.Machine
end

