-- ==== Sys2Proof/Proofs/ScalesAndReductions.lean ====
section
/-! Scales, reductions and exact sums (R216, R247 to R250), and the poisoned sources of every vector instruction. -/

namespace Sys2Proof.Machine

/-! ### Scales (R247) -/

theorem completes_vscaleRel {s : State} {d a b : VRegNo} (hlo : 1 ≤ descFmt (s.rdV a).desc) (hhi : descFmt (s.rdV a).desc ≤ 0x0B)
    (hy : isPoison (s.rdV b).desc = false)
    (hk : -128 ≤ descScale (s.rdV a).desc + signedOf 8 (laneOf 8 (s.rdV b).data 0))
    (hk' : descScale (s.rdV a).desc + signedOf 8 (laneOf 8 (s.rdV b).data 0) ≤ 127) :
    Completes (.vscaleRel d a b) s (s.putV d ⟨(s.rdV a).data,
      mkDesc (descFmt (s.rdV a).desc) (descScale (s.rdV a).desc + signedOf 8 (laneOf 8 (s.rdV b).data 0))⟩ 2) := by
  have hx : isPoison (s.rdV a).desc = false := isPoison_eq_false.2 (by omega)
  apply completes_of_ok
  show execVscaleRel d a b s = _
  rw [execVscaleRel, vUnlessPoison_of_sound (anyPoison_pair hx hy)]
  have h1 : (descFmt (s.rdV a).desc == 0 || decide (0x0B < descFmt (s.rdV a).desc)) = false := by simp; omega
  have h2 : (decide (descScale (s.rdV a).desc + signedOf 8 (laneOf 8 (s.rdV b).data 0) < -128) ||
      decide (127 < descScale (s.rdV a).desc + signedOf 8 (laneOf 8 (s.rdV b).data 0))) = false := by simp; omega
  simp only [h1, h2, Bool.false_eq_true, if_false]

/-- The magnitudes other than zero of the lanes that a mask names (R247). -/
def maskMagnitudes (x : VVal) (m : Word64) : List (Nat × Int) :=
  ((List.range (512 / codeBits (descFmt x.desc))).filter (inMask m)).filterMap fun k => (laneNum (descFmt x.desc) x k).magnitude

/-- A scale brought into a byte, with clamp-hit where it lies outside one (R247). -/
def clampScale (t : Int) : Int × BitVec 6 := (max (-128) (min 127 t), if t < -128 ∨ 127 < t then 0x20 else 0)

/-- The scale and flag that VSCALE.FIT finds for some magnitudes in a format. -/
def fitted (mags : List (Nat × Int)) (f : Option FFmt) : Int × BitVec 6 :=
  match mags, f with
  | q :: qs, some f =>
    match decodeF f (packF f false f.maxBits) with
    | .fin _ mg eg => clampScale (fitScale (qs.foldl maxMag q).1 (qs.foldl maxMag q).2 mg eg)
    | _ => (0, 0)
  | _, _ => (0, 0)

theorem clampScale_eq (t : Int) : clampScale t = if t < -128 then (-128, 0x20) else if 127 < t then (127, 0x20) else (t, 0) := by
  unfold clampScale
  by_cases hlo : t < -128
  · rw [if_pos hlo, if_pos (.inl hlo), max_eq_left (by omega)]
  · by_cases hhi : 127 < t
    · rw [if_neg hlo, if_pos hhi, if_pos (.inr hhi), min_eq_left (by omega)]
      rfl
    · rw [if_neg hlo, if_neg hhi, if_neg (by omega), min_eq_right (by omega), max_eq_right (by omega)]

theorem clampScale_bounds (t : Int) : -128 ≤ (clampScale t).1 ∧ (clampScale t).1 ≤ 127 ∧ ((clampScale t).2 = 0 ∨ (clampScale t).2 = 0x20) := by
  refine ⟨le_max_left _ _, by simp only [clampScale]; omega, ?_⟩
  simp only [clampScale]
  split
  · exact .inr rfl
  · exact .inl rfl

theorem fitted_bounds (mags : List (Nat × Int)) (f : Option FFmt) :
    -128 ≤ (fitted mags f).1 ∧ (fitted mags f).1 ≤ 127 ∧ ((fitted mags f).2 = 0 ∨ (fitted mags f).2 = 0x20) := by
  unfold fitted
  split
  · split
    · exact clampScale_bounds _
    · simp
  · simp

/-- The least byte-sized scale with every magnitude at most the largest value of the format under it. -/
theorem fitted_eq {mags : List (Nat × Int)} {f : FFmt} {mg : Nat} {eg t : Int}
    (hg : decodeF f (packF f false f.maxBits) = .fin false mg eg) (hpos : ∀ q ∈ mags, 0 < q.1)
    (hle : ∀ q ∈ mags, (q.1 : ℚ) * 2 ^ q.2 ≤ mg * 2 ^ (eg + t)) (hlt : ∃ q ∈ mags, (mg : ℚ) * 2 ^ (eg + t - 1) < q.1 * 2 ^ q.2) :
    fitted mags (some f) = clampScale t := by
  obtain ⟨q, hq, hgt⟩ := hlt
  cases mags with
  | nil => cases hq
  | cons x xs =>
    obtain ⟨hmem, hmax⟩ := foldl_maxMag_spec xs x
    have hmg : 0 < mg := by
      by_contra h0
      have hle' := hle q hq
      rw [Nat.eq_zero_of_not_pos h0, Nat.cast_zero, zero_mul] at hle'
      exact absurd hle' (not_le.2 (mul_pos (by exact_mod_cast hpos q hq) (by positivity)))
    have hfit := fitScale_iff (hpos _ hmem) hmg (xs.foldl maxMag x).2 eg
    have h1 : fitScale (xs.foldl maxMag x).1 (xs.foldl maxMag x).2 mg eg ≤ t := (hfit t).2 (hle _ hmem)
    have h2 : ¬fitScale (xs.foldl maxMag x).1 (xs.foldl maxMag x).2 mg eg ≤ t - 1 := by
      rw [hfit]
      refine not_le.2 (lt_of_lt_of_le ?_ (hmax q hq))
      rwa [magnitudeValue, magnitudeValue, ← add_sub_assoc]
    simp only [fitted, hg]
    rw [show fitScale (xs.foldl maxMag x).1 (xs.foldl maxMag x).2 mg eg = t by omega]

theorem magnitude_pos {x : Num} {q : Nat × Int} (h : x.magnitude = some q) : 0 < q.1 := by
  cases x with
  | nan => cases h
  | inf => cases h
  | fin s m e =>
    simp only [Num.magnitude, Option.ite_none_left_eq_some, Option.some.injEq] at h
    rw [← h.2]
    exact Nat.pos_of_ne_zero h.1

theorem maskMagnitudes_pos {x : VVal} {m : Word64} {q : Nat × Int} (h : q ∈ maskMagnitudes x m) : 0 < q.1 := by
  obtain ⟨k, -, hk⟩ := List.mem_filterMap.1 h
  exact magnitude_pos hk

/-- No magnitude is above zero where every finite lane that the mask names is zero. -/
theorem maskMagnitudes_eq_nil {x : VVal} {m : Word64}
    (h : ∀ k < 512 / codeBits (descFmt x.desc), m.getLsbD k = true → ∀ sg mg e, laneNum (descFmt x.desc) x k = .fin sg mg e → mg = 0) :
    maskMagnitudes x m = [] := by
  rw [maskMagnitudes, List.filterMap_eq_nil_iff]
  intro k hk
  rw [List.mem_filter, List.mem_range] at hk
  cases hnum : laneNum (descFmt x.desc) x k with
  | nan => rfl
  | inf => rfl
  | fin s mg e => simp [Num.magnitude, h k hk.1 hk.2 s mg e hnum]

/-- A byte-sized scale as it stands in lane 0 of an INT8 block. -/
theorem ofNat_wrapTo_byte (v : Int) : BitVec.ofNat 512 (wrapTo 8 v) = (BitVec.ofInt 8 v).setWidth 512 := by
  apply BitVec.eq_of_toNat_eq
  rw [BitVec.toNat_ofNat, BitVec.toNat_setWidth, BitVec.toNat_ofInt]
  rfl

theorem completes_vscaleFit {s : State} {d a : VRegNo} (m : MReg) (g : BitVec 5) (hlo : 1 ≤ descFmt (s.rdV a).desc)
    (hhi : descFmt (s.rdV a).desc ≤ 6) :
    Completes (.vscaleFit d a m g) s ((s.putV d
      ⟨(BitVec.ofInt 8 (fitted (maskMagnitudes (s.rdV a) (s.rdM m)) (fmtOfCode g.toNat)).1).setWidth 512, mkDesc 7 0⟩ 2).putFlags
      (fitted (maskMagnitudes (s.rdV a) (s.rdM m)) (fmtOfCode g.toNat)).2 2) := by
  have hx : isPoison (s.rdV a).desc = false := isPoison_eq_false.2 (by omega)
  have h1 : (descFmt (s.rdV a).desc == 0 || decide (6 < descFmt (s.rdV a).desc)) = false := by simp; omega
  apply completes_of_ok
  show execVscaleFit d a m g s = _
  rw [execVscaleFit, vUnlessPoison_of_sound (anyPoison_one hx)]
  simp only [h1, Bool.false_eq_true, if_false, ← ofNat_wrapTo_byte, ← clampScale_eq, fClamp]
  rfl

/-! ### Reductions and exact sums (R248 to R250) -/

/-- The lanes that a reduction takes, absent where the mask leaves a lane out. -/
def reduceLanes (x : VVal) (m : Word64) (fmt : BitVec 2) : List (Option Num) :=
  (List.range (512 / codeBits (fmtCode fmt))).map fun j => if m.getLsbD j then some (laneNum (fmtCode fmt) x j) else none

/-- The value and flags of a reduction before it is brought into the format. -/
def reduced (op : RedOp) (x : VVal) (m : Word64) (rm : BitVec 3) (t : Bool) (fmt : BitVec 2) : Num × BitVec 6 :=
  if t then redTree op (fmtOf fmt) rm.toNat 5 (reduceLanes x m fmt) else redSeq op (fmtOf fmt) rm.toNat ((reduceLanes x m fmt).filterMap id)

theorem completes_reduce {i : Instr} {s : State} {op : RedOp} {d a : VRegNo} {m : MReg} {rm : BitVec 3} {t : Bool} {fmt : BitVec 2}
    (h : exec i s = reduce op d a m rm t fmt s) (hx : CarriesFloat (s.rdV a) (fmtCode fmt)) :
    Completes i s ((s.putV d ⟨BitVec.ofNat 512 (roundF (fmtOf fmt) (if op = .add then rm.toNat else 0) false
        (reduced op (s.rdV a) (s.rdM m) rm t fmt).1).1, mkDesc (fmtCode fmt) 0⟩ 8).putFlags
      (if op = .add then (reduced op (s.rdV a) (s.rdM m) rm t fmt).2 |||
          (roundF (fmtOf fmt) (if op = .add then rm.toNat else 0) false (reduced op (s.rdV a) (s.rdM m) rm t fmt).1).2
        else ((reduced op (s.rdV a) (s.rdM m) rm t fmt).2 |||
          (roundF (fmtOf fmt) (if op = .add then rm.toNat else 0) false (reduced op (s.rdV a) (s.rdM m) rm t fmt).1).2) &&& 1) 8) := by
  have hfmt : needFloat s (fmtCode fmt) [s.rdV a] = .ok () := needFloat_ok_iff.2 (forall_mem_one hx)
  apply completes_of_ok
  rw [h, reduce, vUnlessPoison_of_sound (anyPoison_one (hx.not_poison (fmtCode_lt fmt))), hfmt]
  rfl

/-- A limb carries the sign of the whole sum. -/
theorem limb_eq (n : Int) (i : Nat) : limb n i = n.sign * (n.natAbs / 2 ^ (32 * i) % 2 ^ 32 : Nat) := by
  unfold limb
  rcases lt_trichotomy n 0 with h | rfl | h
  · simp [h, Int.sign_eq_neg_one_of_neg h]
  · simp
  · simp [not_lt.2 h.le, Int.sign_eq_one_of_pos h]

theorem isInf_and_neg (x : Num) : ((x.isInf && !x.neg?) = (x == .inf false)) ∧ ((x.isInf && x.neg?) = (x == .inf true)) := by
  cases x with
  | nan s p q => simp [Num.isInf]
  | inf s => cases s <;> simp [Num.isInf, Num.neg?]
  | fin s m e => simp [Num.isInf]

theorem completes_splitSum {i : Instr} {s : State} {d a : VRegNo} {m : MReg} {f : List Num → List Int}
    (h : exec i s = splitSum s d a m f) (hx : (s.rdV a).desc = 0 ∨ (s.rdV a).desc = 2) :
    Completes i s (s.putV d ⟨ofLanes 64 ((f (splitLanes s a m)).map (wrapTo 64)), 0x0A⟩ 4) := by
  have hp : isPoison (s.rdV a).desc = false := by rcases hx with h | h <;> rw [h] <;> decide
  have hd : ¬((s.rdV a).desc ≠ 0 ∧ (s.rdV a).desc ≠ mkDesc 2 0) := by
    rintro ⟨h0, h2⟩
    exact hx.elim h0 h2
  apply completes_of_ok
  rw [h, splitSum, vUnlessPoison_of_sound (anyPoison_one hp), if_neg hd]
  rfl

theorem exec_vfxsSplitLo (d a : VRegNo) (m : MReg) (s : State) :
    exec (.vfxsSplitLo d a m) s = splitSum s d a m fun l => (List.range 8).map (limb (l.map fixedOf).sum) := rfl

theorem exec_vfxsSplitHi (d a : VRegNo) (m : MReg) (s : State) :
    exec (.vfxsSplitHi d a m) s = splitSum s d a m fun l =>
      [limb (l.map fixedOf).sum 8, (l.filter fun x => x.isInf && !x.neg?).length,
        (l.filter fun x => x.isInf && x.neg?).length, (l.filter Num.isNan).length, 0, 0, 0, 0] := rfl

/-- The upper limb of an exact sum and the counts of its infinities and NaNs. -/
def highLimbs (l : List Num) : List Int :=
  [(l.map fixedOf).sum.sign * ((l.map fixedOf).sum.natAbs / 2 ^ 256 % 2 ^ 32 : Nat), (l.filter (· == .inf false)).length,
    (l.filter (· == .inf true)).length, (l.filter Num.isNan).length, 0, 0, 0, 0]

theorem completes_vfxsSplitHi {s : State} {d a : VRegNo} {m : MReg} (hx : (s.rdV a).desc = 0 ∨ (s.rdV a).desc = 2) :
    Completes (.vfxsSplitHi d a m) s (s.putV d ⟨ofLanes 64 ((highLimbs (splitLanes s a m)).map (wrapTo 64)), 0x0A⟩ 4) := by
  have h := completes_splitSum (exec_vfxsSplitHi d a m s) hx
  simp only [limb_eq, (isInf_and_neg _).1, (isInf_and_neg _).2] at h
  exact h

theorem completes_vfxsJoin {s : State} {d a b : VRegNo} (rm : BitVec 3) (cl : Bool) (hx : joinable (s.rdV a).desc = true)
    (hy : joinable (s.rdV b).desc = true) :
    Completes (.vfxsJoin d a b rm cl) s ((s.putV d
      ⟨BitVec.ofNat 512 (roundF fp32 rm.toNat cl (joinSum (s.rdV a) (s.rdV b) rm.toNat).1).1, 2⟩ 6).putFlags
      ((joinSum (s.rdV a) (s.rdV b) rm.toNat).2 ||| (roundF fp32 rm.toNat cl (joinSum (s.rdV a) (s.rdV b) rm.toNat).1).2) 6) := by
  have hsound : ∀ d : Desc, joinable d = true → isPoison d = false := by
    intro d hd
    simp only [joinable, Bool.or_eq_true, beq_iff_eq] at hd
    rcases hd with (rfl | rfl) | rfl <;> decide
  apply completes_of_ok
  show execVfxsJoin d a b rm cl s = _
  rw [execVfxsJoin, vUnlessPoison_of_sound (anyPoison_pair (hsound _ hx) (hsound _ hy))]
  simp only [hx, hy, Bool.not_true, Bool.false_eq_true, if_false]
  rfl

/-- Settles O9: the scale by the largest magnitude, the reductions by their shared steps, the limbs by their sign and digits. -/
theorem scalesReductionsExactSums : Obligations.ScalesReductionsExactSums := by
  intro s d a b m rm cl t fmt x y f k
  refine ⟨completes_vscaleRel, fun hlo hhi g => ?_, fun hlo hhi g h mg eg hg hmax => ⟨fun hnil => ?_, fun u hle hlt => ?_⟩,
    fun hx op i hi => ?_, fun hx => ⟨?_, completes_vfxsSplitHi hx⟩, completes_vfxsJoin rm cl⟩
  · obtain ⟨h1, h2, h3⟩ := fitted_bounds (maskMagnitudes x (s.rdM m)) (fmtOfCode g.toNat)
    exact ⟨_, _, h1, h2, h3, completes_vscaleFit m g hlo hhi⟩
  · have hfit := completes_vscaleFit (s := s) (d := d) m g hlo hhi
    rw [show maskMagnitudes (s.rdV a) (s.rdM m) = [] from hnil] at hfit
    exact hfit
  · have hfit := completes_vscaleFit (s := s) (d := d) m g hlo hhi
    rw [hg, fitted_eq hmax (fun _ => maskMagnitudes_pos) hle hlt] at hfit
    exact hfit
  · simp only [List.mem_cons, List.not_mem_nil, or_false, Prod.mk.injEq] at hi
    rcases hi with ⟨rfl, rfl⟩ | ⟨rfl, rfl⟩ | ⟨rfl, rfl⟩
    · exact completes_reduce rfl hx
    · exact completes_reduce rfl hx
    · exact completes_reduce rfl hx
  · have h := completes_splitSum (exec_vfxsSplitLo d a m s) hx
    simp only [funext (limb_eq _)] at h
    exact h

/-! ### Poisoned sources (R216) -/

/-- An instruction whose work begins with the check for poison delivers a poisoned register. -/
theorem completes_of_poison {i : Instr} {s : State} {d : VRegNo} {lat : Nat} {src : List VVal} {k : Except State State}
    (h : exec i s = slotDone (vUnlessPoison s d lat src k)) (hp : anyPoison src = true) : Completes i s (s.putV d ⟨0, 0x00FF⟩ lat) := by
  apply completes_of_ok
  rw [h, vUnlessPoison_of_poison hp]
  rfl

theorem anyPoison_of_mem {src : List VVal} {x : VVal} (hx : x ∈ src) (h : isPoison x.desc = true) : anyPoison src = true :=
  List.any_eq_true.2 ⟨x, hx, h⟩

/-- Settles O10: VRED.MIN, VRED.MAX, VSCALE.FIT and VFXS.SPLIT.HI, with a poisoned source as well. -/
theorem extremesFitAndHighLimbs : Obligations.ExtremesFitAndHighLimbs := by
  intro s d a m rm t fmt g x c lanes out reduced sums n
  refine ⟨completes_reduce (op := .min) rfl, completes_reduce (op := .max) rfl, fun hlo hhi => ?_, completes_vfxsSplitHi, fun h => ?_⟩
  · obtain ⟨h1, h2, h3⟩ := fitted_bounds (maskMagnitudes x (s.rdM m)) (fmtOfCode g.toNat)
    refine ⟨_, _, h1, h2, h3, completes_vscaleFit m g hlo hhi, fun hz => ?_⟩
    rw [maskMagnitudes_eq_nil hz]
    exact ⟨rfl, rfl⟩
  · have hp : anyPoison [x] = true := anyPoison_of_mem (List.mem_singleton_self x) h
    exact ⟨completes_of_poison rfl hp, completes_of_poison rfl hp, completes_of_poison rfl hp, completes_of_poison rfl hp⟩

/-- The same for an instruction that delivers a mask. -/
theorem completes_of_poison_mask {i : Instr} {s : State} {q : MReg} {lat : Nat} {src : List VVal} {k : Except State State}
    (h : exec i s = slotDone (mUnlessPoison s q lat src k)) (hp : anyPoison src = true) :
    Completes i s ((s.putM q 0 lat).putStat (BitVec.ofNat 64 (2 ^ 7))) := by
  apply completes_of_ok
  rw [h, mUnlessPoison_of_poison hp]
  rfl

theorem forall_mem_pairs {α β : Type} {P : α → β → Prop} {l : List (α × β)} (h : ∀ e ∈ l, P e.1 e.2) : ∀ a b, (a, b) ∈ l → P a b :=
  fun a b hm => h (a, b) hm

/-- Settles O12: every instruction of the lists begins with the check for poison of the sources that it reads. -/
theorem poisonedSources : Obligations.PoisonedSources := by
  intro s d a b m sz fmt rm cl f g gives fused slow
  refine ⟨fun ha => forall_mem_pairs ?_, fun hab => ⟨forall_mem_pairs ?_, fun q cc => ?_⟩, fun hd => ?_, fun ha src part dst => ?_⟩
  · have hp : anyPoison [s.rdV a] = true := anyPoison_of_mem (List.mem_singleton_self _) ha
    simp only [List.forall_mem_cons, List.not_mem_nil, IsEmpty.forall_iff, implies_true, and_true]
    and_intros
    all_goals
      apply completes_of_poison (hp := hp)
      rfl
  · have hp : ∀ rest, anyPoison (s.rdV a :: s.rdV b :: rest) = true := fun rest =>
      hab.elim (anyPoison_of_mem List.mem_cons_self) (anyPoison_of_mem (List.mem_cons_of_mem _ List.mem_cons_self))
    simp only [List.forall_mem_cons, List.not_mem_nil, IsEmpty.forall_iff, implies_true, and_true]
    and_intros
    all_goals
      apply completes_of_poison (hp := hp _)
      rfl
  · have hp : anyPoison [s.rdV a, s.rdV b] = true :=
      hab.elim (anyPoison_of_mem List.mem_cons_self) (anyPoison_of_mem (List.mem_cons_of_mem _ List.mem_cons_self))
    exact ⟨completes_of_poison_mask rfl hp, completes_of_poison_mask rfl hp⟩
  · have hp : anyPoison [s.rdV a, s.rdV b, s.rdV d] = true := anyPoison_of_mem (by simp) hd
    refine ⟨completes_of_poison rfl hp, completes_of_poison rfl hp, completes_of_poison rfl hp, completes_of_poison rfl hp,
      fun r lane => completes_of_poison rfl (anyPoison_of_mem (List.mem_singleton_self _) hd), fun src part dst hw => ?_⟩
    refine completes_of_poison rfl ?_
    rw [decide_eq_true hw]
    exact anyPoison_of_mem (List.mem_cons_of_mem _ (List.mem_singleton_self _)) hd
  · refine completes_of_poison rfl ?_
    split
    · exact anyPoison_of_mem List.mem_cons_self ha
    · exact anyPoison_of_mem List.mem_cons_self ha

end Sys2Proof.Machine
end

