-- ==== Sys2Proof/Proofs/Rounding.lean ====
section
/-! Rounding a value that a format holds (R228, R232 to R234): the bits of a finite element are those that its value packs to. -/

namespace Sys2Proof.Machine

/-- The shape of the six formats of vector elements: sign, exponent and fraction fill the element. -/
structure FFmt.Plain (f : FFmt) : Prop where
  width : f.width = f.fbits + f.ebits + 1
  pad : f.pad = 0
  ebits : 1 < f.ebits
  kf8a : f.kf8a = true → f.ebits = 4 ∧ f.fbits = 3

theorem plain_of_mem {f : FFmt} (h : f ∈ [fp64, fp32, bf16, fp16, kf8a, kf8b]) : f.Plain := by
  simp only [List.mem_cons, List.not_mem_nil, or_false] at h
  rcases h with rfl | rfl | rfl | rfl | rfl | rfl
  all_goals constructor <;> decide

/-- The exponent field of a pattern. -/
def FFmt.expOf (f : FFmt) (v : Nat) : Nat := v / 2 ^ f.fbits % 2 ^ f.ebits
/-- The fraction field of a pattern. -/
def FFmt.fracOf (f : FFmt) (v : Nat) : Nat := v % 2 ^ f.fbits

theorem FFmt.expOf_lt (f : FFmt) (v : Nat) : f.expOf v < 2 ^ f.ebits := Nat.mod_lt _ (Nat.two_pow_pos _)
theorem FFmt.fracOf_lt (f : FFmt) (v : Nat) : f.fracOf v < 2 ^ f.fbits := Nat.mod_lt _ (Nat.two_pow_pos _)

/-- A pattern is its sign bit, its exponent and its fraction. -/
theorem FFmt.Plain.packF_fields {f : FFmt} (hf : f.Plain) {v : Nat} (hv : v < 2 ^ f.width) :
    packF f (v.testBit (f.width - 1)) (f.expOf v * 2 ^ f.fbits + f.fracOf v) = v := by
  have hw : f.width - 1 = f.fbits + f.ebits := by rw [hf.width]; omega
  have hlow : f.expOf v * 2 ^ f.fbits + f.fracOf v = v % 2 ^ (f.fbits + f.ebits) := by
    rw [FFmt.expOf, FFmt.fracOf, Nat.pow_add, Nat.mod_mul, Nat.mul_comm, Nat.add_comm]
  have htop : v / 2 ^ (f.fbits + f.ebits) < 2 := Nat.div_lt_of_lt_mul (by rwa [hf.width, Nat.pow_succ] at hv)
  have hsplit := Nat.div_add_mod v (2 ^ (f.fbits + f.ebits))
  rw [packF, hf.pad, hlow, Nat.sub_zero, hw, Nat.testBit_eq_decide_div_mod_eq, Nat.mod_eq_of_lt htop, Nat.pow_zero, Nat.mul_one]
  have hbit : v / 2 ^ (f.fbits + f.ebits) = 0 ∨ v / 2 ^ (f.fbits + f.ebits) = 1 :=
    Nat.le_one_iff_eq_zero_or_eq_one.1 (Nat.lt_succ_iff.1 htop)
  rcases hbit with h | h
  · rw [h, Nat.mul_zero] at hsplit
    simpa [h] using hsplit
  · rw [h, Nat.mul_one] at hsplit
    simpa [h] using hsplit

theorem FFmt.Plain.decodeF_eq {f : FFmt} (hf : f.Plain) {v : Nat} (hv : v < 2 ^ f.width) :
    decodeF f v =
      if f.kf8a then
        if f.expOf v = 15 ∧ f.fracOf v = 7 then .nan (v.testBit (f.width - 1)) 0 true
        else if f.expOf v = 0 then .fin (v.testBit (f.width - 1)) (f.fracOf v) (1 - f.bias - f.fbits)
        else .fin (v.testBit (f.width - 1)) (f.fracOf v + 2 ^ f.fbits) (f.expOf v - f.bias - f.fbits)
      else if f.expOf v = 2 ^ f.ebits - 1 then
        if f.fracOf v = 0 then .inf (v.testBit (f.width - 1))
        else .nan (v.testBit (f.width - 1)) (f.fracOf v % 2 ^ (f.fbits - 1) * 2 ^ (52 - f.fbits)) ((f.fracOf v).testBit (f.fbits - 1))
      else if f.expOf v = 0 then .fin (v.testBit (f.width - 1)) (f.fracOf v) (1 - f.bias - f.fbits)
      else .fin (v.testBit (f.width - 1)) (f.fracOf v + 2 ^ f.fbits) (f.expOf v - f.bias - f.fbits) := by
  have hraw : v / 2 ^ f.pad % 2 ^ f.width = v := by rw [hf.pad, Nat.pow_zero, Nat.div_one, Nat.mod_eq_of_lt hv]
  simp only [decodeF, hraw]
  rw [hf.pad, Nat.sub_zero]
  rfl

/-- What a pattern with a finite value decodes to: a subnormal number or zero, or a normal number that is at most the largest. -/
theorem FFmt.Plain.decodeF_fin {f : FFmt} (hf : f.Plain) {v : Nat} (hv : v < 2 ^ f.width) {sg : Bool} {mg : Nat} {e : Int}
    (h : decodeF f v = .fin sg mg e) :
    sg = v.testBit (f.width - 1) ∧
      ((f.expOf v = 0 ∧ mg = f.fracOf v ∧ e = 1 - f.bias - f.fbits) ∨
       (f.expOf v ≠ 0 ∧ mg = f.fracOf v + 2 ^ f.fbits ∧ e = f.expOf v - f.bias - f.fbits ∧
        f.expOf v * 2 ^ f.fbits + f.fracOf v ≤ f.maxBits)) := by
  have hfr := f.fracOf_lt v
  have hex := f.expOf_lt v
  rw [hf.decodeF_eq hv] at h
  split at h
  case isTrue hk =>
    obtain ⟨he4, hf3⟩ := hf.kf8a hk
    split at h
    · cases h
    · next hnan =>
      split at h
      · next h0 => cases h; exact ⟨rfl, .inl ⟨h0, rfl, rfl⟩⟩
      · next h0 =>
        cases h
        refine ⟨rfl, .inr ⟨h0, rfl, rfl, ?_⟩⟩
        rw [he4] at hex
        rw [hf3] at hfr
        simp only [FFmt.maxBits, hk, if_true, hf3]
        omega
  case isFalse hk =>
    split at h
    · split at h <;> cases h
    · next htop =>
      split at h
      · next h0 => cases h; exact ⟨rfl, .inl ⟨h0, rfl, rfl⟩⟩
      · next h0 =>
        cases h
        refine ⟨rfl, .inr ⟨h0, rfl, rfl, ?_⟩⟩
        have hmul : (f.expOf v + 1) * 2 ^ f.fbits ≤ (2 ^ f.ebits - 1) * 2 ^ f.fbits := Nat.mul_le_mul_right _ (by omega)
        rw [Nat.add_mul, Nat.one_mul] at hmul
        simp only [FFmt.maxBits, hk, Bool.false_eq_true, if_false, FFmt.infBits]
        omega

/-- A magnitude that is a multiple of the unit in its last place rounds to itself without a flag. -/
theorem roundFin_exact {f : FFmt} {m : Nat} {e : Int} (hm : m ≠ 0) (hq : max (topExp m e) f.emin - f.fbits = e)
    (hmax : f.fieldOf m e ≤ f.maxBits) (rm : Nat) (cl neg : Bool) : roundFin f rm cl neg m e = (f.fieldOf m e, 0) := by
  have hat : roundAt rm neg m e e = (m, false) := by
    have h0 : e - e = Int.ofNat 0 := by simp
    simp [roundAt, h0, Nat.mod_one]
  simp only [roundFin, if_neg hm, hq, hat, if_neg (not_lt.2 hmax), fIf, Bool.false_and, Bool.false_eq_true, if_false]
  rfl

theorem FFmt.Plain.fracOf_le_maxBits {f : FFmt} (hf : f.Plain) (v : Nat) : f.fracOf v ≤ f.maxBits := by
  have hfr := f.fracOf_lt v
  unfold FFmt.maxBits
  split
  case isTrue hk => rw [(hf.kf8a hk).2] at hfr; omega
  case isFalse =>
    have h2 : 2 ^ 1 < 2 ^ f.ebits := Nat.pow_lt_pow_right (by omega) hf.ebits
    have hmul : 1 * 2 ^ f.fbits ≤ (2 ^ f.ebits - 1) * 2 ^ f.fbits := Nat.mul_le_mul_right _ (by omega)
    rw [FFmt.infBits]
    omega

/-- The finite value of a pattern rounds to the pattern's exponent and fraction. -/
theorem FFmt.Plain.roundFin_decodeF {f : FFmt} (hf : f.Plain) {v : Nat} (hv : v < 2 ^ f.width) {sg : Bool} {mg : Nat} {e : Int}
    (h : decodeF f v = .fin sg mg e) (rm : Nat) (cl : Bool) :
    roundFin f rm cl sg mg e = (f.expOf v * 2 ^ f.fbits + f.fracOf v, 0) := by
  have hfr := f.fracOf_lt v
  obtain ⟨-, ⟨h0, rfl, rfl⟩ | ⟨h0, rfl, rfl, hmax⟩⟩ := hf.decodeF_fin hv h
  · by_cases hz : f.fracOf v = 0
    · simp [roundFin, hz, h0]
    · have hlog : (f.fracOf v).log2 < f.fbits := (Nat.log2_lt hz).2 hfr
      have hfield : f.fieldOf (f.fracOf v) (1 - f.bias - f.fbits) = f.fracOf v := by
        simp [FFmt.fieldOf, FFmt.emin]
      rw [roundFin_exact hz (by simp only [topExp, FFmt.emin]; omega) (by rw [hfield]; exact hf.fracOf_le_maxBits v), hfield, h0]
      simp
  · have hlog : (f.fracOf v + 2 ^ f.fbits).log2 = f.fbits :=
      (Nat.log2_eq_iff (by positivity)).2 ⟨by omega, by rw [Nat.pow_succ]; omega⟩
    have hexp : (f.expOf v - f.bias - f.fbits - (f.emin - f.fbits) : Int).toNat = f.expOf v - 1 := by
      simp only [FFmt.emin]
      omega
    have hfield : f.fieldOf (f.fracOf v + 2 ^ f.fbits) (f.expOf v - f.bias - f.fbits) = f.expOf v * 2 ^ f.fbits + f.fracOf v := by
      obtain ⟨n, hn⟩ := Nat.exists_eq_succ_of_ne_zero h0
      rw [FFmt.fieldOf, hexp, hn, Nat.succ_sub_one, Nat.succ_mul]
      omega
    rw [roundFin_exact (by positivity) (by simp only [topExp, FFmt.emin, hlog]; omega) (by rw [hfield]; exact hmax), hfield]

/-- Settles O13: a finite value of a format lies on the format's own grid at its own exponent. -/
theorem roundingKeepsRepresentableValues : Obligations.RoundingKeepsRepresentableValues := by
  rintro f hf v rm cl hv ⟨sg, mg, e, h⟩
  have hp := plain_of_mem hf
  obtain ⟨hsg, -⟩ := hp.decodeF_fin hv h
  rw [h, roundF, hp.roundFin_decodeF hv h, hsg]
  dsimp only
  rw [hp.packF_fields hv]

end Sys2Proof.Machine
end

