-- ==== Sys2Proof/Proofs/Functions.lean ====
section
/-! The function instructions (R238, R240, R241): the special values of their table, rounded into the format. -/

namespace Sys2Proof.Machine

/-! ### Fields of a packed pattern -/

/-- The sign, exponent and fraction of a packed pattern are those it was packed from. -/
theorem FFmt.Plain.fields_packF {f : FFmt} (hf : f.Plain) (sg : Bool) {ex fr : Nat} (hex : ex < 2 ^ f.ebits) (hfr : fr < 2 ^ f.fbits) :
    packF f sg (ex * 2 ^ f.fbits + fr) < 2 ^ f.width ∧ f.expOf (packF f sg (ex * 2 ^ f.fbits + fr)) = ex ∧
      f.fracOf (packF f sg (ex * 2 ^ f.fbits + fr)) = fr ∧ (packF f sg (ex * 2 ^ f.fbits + fr)).testBit (f.width - 1) = sg := by
  have hw : f.width - 1 = f.fbits + f.ebits := by rw [hf.width]; omega
  have hrest : ex * 2 ^ f.fbits + fr < 2 ^ (f.fbits + f.ebits) := by
    have hmul : (ex + 1) * 2 ^ f.fbits ≤ 2 ^ f.ebits * 2 ^ f.fbits := Nat.mul_le_mul_right _ hex
    rw [Nat.add_mul, Nat.one_mul] at hmul
    rw [Nat.add_comm f.fbits, Nat.pow_add]
    omega
  have hpack : packF f sg (ex * 2 ^ f.fbits + fr) = 2 ^ (f.fbits + f.ebits) * sg.toNat + (ex * 2 ^ f.fbits + fr) := by
    rw [packF, hf.pad, Nat.sub_zero, hw, Nat.pow_zero, Nat.mul_one]
    cases sg <;> simp
  have hsplit : packF f sg (ex * 2 ^ f.fbits + fr) = fr + 2 ^ f.fbits * (ex + 2 ^ f.ebits * sg.toNat) := by
    rw [hpack, Nat.pow_add]
    ring
  refine ⟨?_, ?_, ?_, ?_⟩
  · have hs : sg.toNat ≤ 1 := by cases sg <;> simp
    have hle : 2 ^ (f.fbits + f.ebits) * sg.toNat ≤ 2 ^ (f.fbits + f.ebits) := by
      simpa using Nat.mul_le_mul_left (2 ^ (f.fbits + f.ebits)) hs
    rw [hpack, hf.width, Nat.pow_succ]
    omega
  · rw [FFmt.expOf, hsplit, Nat.add_mul_div_left _ _ (Nat.two_pow_pos _), Nat.div_eq_of_lt hfr, Nat.zero_add, Nat.add_mul_mod_self_left,
      Nat.mod_eq_of_lt hex]
  · rw [FFmt.fracOf, hsplit, Nat.add_mul_mod_self_left, Nat.mod_eq_of_lt hfr]
  · rw [hpack, hw, Nat.testBit_eq_decide_div_mod_eq, Nat.mul_add_div (Nat.two_pow_pos _), Nat.div_eq_of_lt hrest]
    cases sg <;> rfl

/-- A quiet NaN packed with a payload decodes to that NaN, the payload cut to the bits that the format keeps. -/
theorem FFmt.Plain.decodeF_packF_nan {f : FFmt} (hf : f.Plain) (hk : f.kf8a = false) (hb : 1 ≤ f.fbits) (sg : Bool) {p : Nat}
    (hp : p / 2 ^ (52 - f.fbits) < 2 ^ (f.fbits - 1)) :
    decodeF f (packF f sg (f.nanBits p)) = .nan sg (p / 2 ^ (52 - f.fbits) * 2 ^ (52 - f.fbits)) true := by
  have hdouble : 2 ^ f.fbits = 2 * 2 ^ (f.fbits - 1) := by rw [← Nat.pow_succ', Nat.succ_eq_add_one, Nat.sub_add_cancel hb]
  have hone : 1 < 2 ^ f.ebits := Nat.one_lt_two_pow (by have := hf.ebits; omega)
  have hfr : 2 ^ (f.fbits - 1) + p / 2 ^ (52 - f.fbits) < 2 ^ f.fbits := by omega
  have hbits : f.nanBits p = (2 ^ f.ebits - 1) * 2 ^ f.fbits + (2 ^ (f.fbits - 1) + p / 2 ^ (52 - f.fbits)) := by
    rw [FFmt.nanBits, hk, FFmt.infBits, Nat.add_assoc]
    rfl
  obtain ⟨hlt, hexp, hfrac, hsign⟩ := hf.fields_packF sg (show 2 ^ f.ebits - 1 < 2 ^ f.ebits by omega) hfr
  have hne : 2 ^ (f.fbits - 1) + p / 2 ^ (52 - f.fbits) ≠ 0 := by positivity
  have hquiet : (2 ^ (f.fbits - 1) + p / 2 ^ (52 - f.fbits)).testBit (f.fbits - 1) = true := by
    rw [Nat.testBit_eq_decide_div_mod_eq, Nat.add_div_left _ (Nat.two_pow_pos _), Nat.div_eq_of_lt hp]
    rfl
  rw [hbits, hf.decodeF_eq hlt, hexp, hfrac, hsign, hk, if_neg (by decide), if_pos rfl, if_neg hne, hquiet, Nat.add_mod_left,
    Nat.mod_eq_of_lt hp]

/-! ### The formats of an FMT field -/

theorem fmtOf_mem (fmt : BitVec 2) : fmtOf fmt = fp64 ∨ fmtOf fmt = fp32 ∨ fmtOf fmt = bf16 ∨ fmtOf fmt = fp16 := by
  revert fmt
  decide

/-- What the proofs below use of a format that an FMT field names. -/
theorem fmtOf_plain (fmt : BitVec 2) : (fmtOf fmt).Plain ∧ (fmtOf fmt).kf8a = false ∧ 1 ≤ (fmtOf fmt).fbits ∧ (fmtOf fmt).fbits ≤ 52 := by
  rcases fmtOf_mem fmt with h | h | h | h <;> rw [h]
  all_goals exact ⟨plain_of_mem (by simp), rfl, by decide, by decide⟩

theorem fmtOfCode_fmtCode (fmt : BitVec 2) : fmtOfCode (fmtCode fmt) = some (fmtOf fmt) := by
  revert fmt
  decide

theorem codeBits_fmtCode (fmt : BitVec 2) : codeBits (fmtCode fmt) = (fmtOf fmt).width := by
  revert fmt
  decide

theorem scale_eq_nan {x : Num} {k : Int} {sg q : Bool} {p : Nat} (h : x.scale k = .nan sg p q) : x = .nan sg p q := by
  cases x with
  | nan => exact h
  | inf => exact h
  | fin => cases h

/-- The payload of a lane's NaN lies in the bits that the lane's format keeps. -/
theorem laneNum_payload {fmt : BitVec 2} {v : VVal} {k : Nat} {sg q : Bool} {p : Nat} (h : laneNum (fmtCode fmt) v k = .nan sg p q) :
    p / 2 ^ (52 - (fmtOf fmt).fbits) < 2 ^ ((fmtOf fmt).fbits - 1) := by
  obtain ⟨hf, hk, -, -⟩ := fmtOf_plain fmt
  have hlt := laneOf_lt (codeBits (fmtCode fmt)) v.data k
  rw [codeBits_fmtCode] at hlt
  have hnan := scale_eq_nan h
  simp only [elementNum, fmtOfCode_fmtCode, codeBits_fmtCode, hf.decodeF_eq hlt, hk, Bool.false_eq_true, if_false] at hnan
  split at hnan
  · split at hnan
    · cases hnan
    · cases hnan
      rw [Nat.mul_div_cancel _ (Nat.two_pow_pos _)]
      exact Nat.mod_lt _ (Nat.two_pow_pos _)
  · split at hnan <;> cases hnan

/-! ### Rounding of special values -/

theorem roundF_one (fmt : BitVec 2) (cl : Bool) :
    roundF (fmtOf fmt) 0 cl (.fin false 1 0) = ((fmtOf fmt).bias * 2 ^ (fmtOf fmt).fbits, 0) := by
  revert fmt cl
  decide

theorem roundF_signed_one (fmt : BitVec 2) (cl sg : Bool) :
    roundF (fmtOf fmt) 0 cl (.fin sg 1 0) = (packF (fmtOf fmt) sg ((fmtOf fmt).bias * 2 ^ (fmtOf fmt).fbits), 0) := by
  revert fmt cl sg
  decide

theorem roundF_zero (f : FFmt) (rm : Nat) (cl sg : Bool) (e : Int) : roundF f rm cl (.fin sg 0 e) = (packF f sg 0, 0) := rfl

theorem roundF_inf {f : FFmt} (hk : f.kf8a = false) (rm : Nat) (cl sg : Bool) : roundF f rm cl (.inf sg) = (packF f sg f.infBits, 0) := by
  simp [roundF, hk]

theorem roundF_quiet (f : FFmt) (rm : Nat) (cl sg : Bool) (p : Nat) : roundF f rm cl (.nan sg p true) = (packF f sg (f.nanBits p), 0) := rfl

/-- A lane with a special value holds it rounded, with its flags. -/
theorem lane_of_special {g : Fn} {fmt : BitVec 2} {cl : Bool} {v : VVal} {k : Nat} {r : Num} {fl fl' : BitVec 6} {b : Nat}
    (h : g.special (laneNum (fmtCode fmt) v k) = some (r, fl)) (hr : roundF (fmtOf fmt) 0 cl r = (b, fl')) :
    g.lane fmt cl v k = (b, fl ||| fl') := by
  simp only [Fn.lane, h, hr]

theorem special_nan (g : Fn) (sg q : Bool) (p : Nat) :
    g.special (.nan sg p q) = some (.nan sg p true, if q then 0 else 1) := by
  cases g <;> cases q <;> rfl

/-- A power of two times its inverse is compared equal to 1. -/
theorem cmpNum_one (n : Nat) : cmpNum (.fin false (2 ^ n) (-(n : Int))) (.fin false 1 0) = .eq := by
  have h := addFin_sub_value (2 ^ n) 1 (-(n : Int)) 0
  have hval : magnitudeValue (2 ^ n, -(n : Int)) = magnitudeValue (1, 0) := by simp [magnitudeValue]
  rw [hval, sub_self, mul_eq_zero] at h
  have hzero : (addFin false (2 ^ n) (-(n : Int)) true 1 0).1 = 0 := by
    rcases h with h | h
    · exact_mod_cast h
    · exact absurd h (by positivity)
  simp only [cmpNum, Bool.not_false, hzero]
  rfl

theorem special_log_one (n : Nat) : Fn.log.special (.fin false (2 ^ n) (-(n : Int))) = some (.fin false 0 0, 0) := by
  obtain ⟨m, hm⟩ := Nat.exists_eq_succ_of_ne_zero (Nat.two_pow_pos n).ne'
  have hcmp := cmpNum_one n
  rw [hm] at hcmp ⊢
  simp [Fn.special, hcmp]

theorem special_log2_one (n : Nat) : Fn.log2.special (.fin false (2 ^ n) (-(n : Int))) = some (.fin false 0 0, 0) := by
  obtain ⟨m, hm⟩ := Nat.exists_eq_succ_of_ne_zero (Nat.two_pow_pos n).ne'
  have hlog : (2 ^ n).log2 = n := Nat.log2_two_pow
  rw [hm] at hlog ⊢
  simp [Fn.special, hlog, topExp, hm]

theorem special_negative {g : Fn} (hg : g = .log ∨ g = .log2 ∨ g = .rsq) {m : Nat} (hm : m ≠ 0) (e : Int) :
    g.special (.fin true m e) = some (canonNan, 1) := by
  obtain ⟨n, rfl⟩ := Nat.exists_eq_succ_of_ne_zero hm
  rcases hg with rfl | rfl | rfl <;> rfl

/-- Settles O11: each lane with a special value is that value rounded into the format. -/
theorem functionInstructions : Obligations.FunctionInstructions := by
  intro s d a m cl fmt c w x f hx g i hi
  obtain ⟨hf, hk, hb, -⟩ := fmtOf_plain fmt
  refine ⟨g.lane fmt cl (s.rdV a), ?_, fun k sg p q h => ?_, fun k sg e h => ?_, fun k sg h => ?_, fun k n h hg => ?_, fun k e mg hm h hg => ?_⟩
  · have hsrc : ∀ v ∈ [s.rdV a], CarriesFloat v c := forall_mem_one (P := (CarriesFloat · c)) hx
    simp only [List.mem_cons, List.not_mem_nil, or_false, Prod.mk.injEq] at hi
    rcases hi with ⟨rfl, rfl⟩ | ⟨rfl, rfl⟩ | ⟨rfl, rfl⟩ | ⟨rfl, rfl⟩ | ⟨rfl, rfl⟩ | ⟨rfl, rfl⟩ | ⟨rfl, rfl⟩ | ⟨rfl, rfl⟩ | ⟨rfl, rfl⟩
    all_goals exact completes_floatLanes rfl hsrc
  · have hlane := lane_of_special (cl := cl) ((congrArg g.special h).trans (special_nan g sg q p)) (roundF_quiet _ _ _ _ _)
    rw [hlane]
    exact ⟨hf.decodeF_packF_nan hk hb sg (laneNum_payload h), by cases q <;> rfl⟩
  · have hs := congrArg g.special h
    cases g
    case exp | exp2 | cos => exact lane_of_special hs (roundF_one fmt cl)
    case log | log2 => exact lane_of_special hs (roundF_inf hk 0 cl true)
    case sin | tanh => exact lane_of_special hs (roundF_zero _ _ _ _ _)
    case rcp | rsq => exact lane_of_special hs (roundF_inf hk 0 cl sg)
  · have hs := congrArg g.special h
    cases g <;> cases sg
    case exp.true | exp2.true | rcp.true | rcp.false | rsq.false => exact lane_of_special hs (roundF_zero _ _ _ _ _)
    case exp.false | exp2.false | log.false | log2.false => exact lane_of_special hs (roundF_inf hk 0 cl false)
    case tanh.true | tanh.false => exact lane_of_special hs (roundF_signed_one fmt cl _)
    all_goals exact lane_of_special hs (roundF_quiet _ _ _ _ _)
  · have hs := congrArg g.special h
    rcases hg with rfl | rfl
    · exact lane_of_special (hs.trans (special_log_one n)) (roundF_zero _ _ _ _ _)
    · exact lane_of_special (hs.trans (special_log2_one n)) (roundF_zero _ _ _ _ _)
  · exact lane_of_special ((congrArg g.special h).trans (special_negative hg hm e)) (roundF_quiet _ _ _ _ _)

end Sys2Proof.Machine
end

