-- ==== Sys2Proof/Proofs/Results.lean ====
section
/-! What queueing results leaves of the contexts: their registers, and all else but the results in flight. -/

namespace Sys2Proof.Machine

/-! ### Contexts after a change of one -/

/-- The context at a number after a change of the one at that number; numbers above 3 name context 0 in both. -/
theorem Core.ctx_setCtx_same (c : Core) (x : Nat) (k : Ctx) : (c.setCtx x k).ctx x = k := by
  by_cases h : x < 4 <;> simp [Core.ctx, Core.setCtx, h]

theorem State.ctx_setCtx_same (s : State) (g x : Nat) (k : Ctx) : (s.setCtx g x k).ctx g x = k := by
  simp [State.setCtx, State.ctx, Core.ctx_setCtx_same]

theorem State.ctx_modCtx_same (s : State) (g x : Nat) (f : Ctx → Ctx) : (s.modCtx g x f).ctx g x = f (s.ctx g x) :=
  State.ctx_setCtx_same s g x _

theorem State.cur_modCur_same (s : State) (f : Ctx → Ctx) : (s.modCur f).cur = f s.cur := State.ctx_modCtx_same s _ _ f

theorem State.ctx_setCore_self (s : State) (g x : Nat) (c : Core) : (s.setCore g c).ctx g x = c.ctx x := by simp [State.ctx]

theorem State.ctx_setCore_ne (s : State) {g j : Nat} (c : Core) (h : j ≠ g) (x : Nat) : (s.setCore g c).ctx j x = s.ctx j x := by
  simp [State.ctx, State.core_setCore_ne _ _ h]

/-- Every context of a core after a change of one is itself, or the changed one. -/
theorem Core.ctx_setCtx_cases (c : Core) (x y : Nat) (k : Ctx) :
    (c.setCtx x k).ctx y = c.ctx y ∨ ((c.setCtx x k).ctx y = k ∧ c.ctx y = c.ctx x) := by
  unfold Core.setCtx Core.ctx
  by_cases hx : x < 4 <;> by_cases hy : y < 4 <;> simp only [hx, hy, dite_true, dite_false]
  · by_cases h : x = y
    · subst h; right; simp
    · left; simp [h]
  · by_cases h : x = 0
    · subst h; right; simp
    · left; simp [h]
  · by_cases h : 0 = y
    · subst h; right; simp
    · left; simp [h]
  · right; simp

theorem State.ctx_modCtx_cases (s : State) (g x j y : Nat) (f : Ctx → Ctx) :
    (s.modCtx g x f).ctx j y = s.ctx j y ∨ ((s.modCtx g x f).ctx j y = f (s.ctx j y)) := by
  by_cases h : j = g
  · subst h
    simp only [State.modCtx, State.setCtx, State.ctx_setCore_self]
    rcases Core.ctx_setCtx_cases (s.core j) x y (f (s.ctx j x)) with h | ⟨h, h'⟩
    · exact .inl h
    · exact .inr (h.trans (congrArg f h'.symm))
  · exact .inl (State.ctx_setCore_ne _ _ h _)

/-! ### States that differ in results in flight -/

/-- Every context of the second state is that of the first with other results in flight. -/
def OnlyInflight (s t : State) : Prop := ∀ g x, ∃ l, t.ctx g x = { s.ctx g x with inflight := l }

theorem OnlyInflight.refl (s : State) : OnlyInflight s s := fun _ _ => ⟨_, rfl⟩

theorem OnlyInflight.trans {s t u : State} (h : OnlyInflight s t) (h' : OnlyInflight t u) : OnlyInflight s u := fun g x => by
  obtain ⟨l, hl⟩ := h g x
  obtain ⟨l', hl'⟩ := h' g x
  exact ⟨l', by rw [hl', hl]⟩

/-- A change of a context that touches its results in flight only. -/
theorem onlyInflight_modCtx {f : Ctx → Ctx} (hf : ∀ k, ∃ l, f k = { k with inflight := l }) (s : State) (g x : Nat) :
    OnlyInflight s (s.modCtx g x f) := fun j y => by
  rcases State.ctx_modCtx_cases s g x j y f with h | h
  · exact ⟨_, h⟩
  · obtain ⟨l, hl⟩ := hf (s.ctx j y)
    exact ⟨l, h.trans hl⟩

/-- A core with other landings has the same contexts. -/
theorem onlyInflight_setSill (s : State) (g : Nat) (l : List Landing) : OnlyInflight s (s.setCore g { s.core g with sill := l }) :=
  fun j y => by
    by_cases h : j = g
    · subst h
      exact ⟨_, State.ctx_setCore_self _ _ _ _⟩
    · exact ⟨_, State.ctx_setCore_ne _ _ h _⟩

theorem onlyInflight_setWclash (s : State) : OnlyInflight s s.setWclash := onlyInflight_modCtx (fun _ => ⟨_, rfl⟩) s _ _

theorem onlyInflight_quietLandings (s : State) (u : Upd) : OnlyInflight s (s.quietLandings u) := by
  unfold State.quietLandings
  dsimp only
  split
  · exact (onlyInflight_setSill _ _ _).trans (onlyInflight_setWclash _)
  · exact .refl _

theorem onlyInflight_emit (s : State) (u : Upd) (lat : Nat) : OnlyInflight s (s.emit u lat) := by
  unfold State.emit
  split
  · exact onlyInflight_quietLandings s u
  · exact (onlyInflight_quietLandings s u).trans (onlyInflight_modCtx (fun k => queue_only k _ _ _ _) _ _ _)

theorem OnlyInflight.cur {s t : State} (h : OnlyInflight s t) (hi : t.iss = s.iss) : ∃ l, t.cur = { s.cur with inflight := l } := by
  unfold State.cur
  rw [hi]
  exact h _ _

theorem cur_emit (s : State) (u : Upd) (lat : Nat) : ∃ l, (s.emit u lat).cur = { s.cur with inflight := l } :=
  (onlyInflight_emit s u lat).cur (emit_iss s u lat)

/-- The registers of the issuing context stand still while results are queued. -/
theorem putK_cur_k (s : State) (f : KField) (v : Word64) : (s.putK f v).cur.k = s.cur.k := by
  obtain ⟨l, h⟩ := cur_emit s (.k f v) 1
  rw [State.putK, h]

end Sys2Proof.Machine
end

