-- ==== Sys2Proof/Proofs/Control.lean ====
section
/-! Control transfers, loops, nests, work-ID fields, system registers and the ends of a context (R293 to R310, R339, R342, R356 to R359,
R388 to R391, R398, R399). -/

namespace Sys2Proof.Machine

/-! ### Ways to fault -/

/-- A fault of the slot that executes is the fault record of its place in the bundle. -/
theorem faults_of_slotDone {i : Instr} {s : State} {c : Nat} {a b d : Word64} (h : exec i s = slotDone (slotFault s c a b d)) :
    Faults i s c a b d := h

theorem faults_of_transferDone {i : Instr} {s : State} {c : Nat} {a b d : Word64} (h : exec i s = transferDone (slotFault s c a b d)) :
    Faults i s c a b d := h

/-! ### Branches and jumps (R293 to R295) -/

theorem exec_br (p : PReg) (neg : Bool) (v : Word64) (s : State) :
    exec (.br p neg v) s = transferDone (.ok (if s.rdP p != neg then s.transferTo (s.branchTarget v) true else s)) := rfl

theorem exec_brl (p : PReg) (neg : Bool) (v : Word64) (s : State) :
    exec (.brl p neg v) s =
      transferDone (.ok (if s.rdP p != neg then (s.transferTo (s.branchTarget v) true).putA 31 s.iss.next 1 else s)) := rfl

theorem exec_jmp (a : AReg) (v : Word64) (s : State) :
    exec (.jmp a v) s = transferDone (if (s.rdA a + v).toNat % 4 ≠ 0 then alignFault s (s.rdA a + v) 4 else .ok (s.transferTo (s.rdA a + v) true)) :=
  rfl

theorem exec_jmpl (d a : AReg) (v : Word64) (s : State) :
    exec (.jmpl d a v) s = transferDone (if (s.rdA a + v).toNat % 4 ≠ 0 then alignFault s (s.rdA a + v) 4
      else .ok ((s.transferTo (s.rdA a + v) true).putA d s.iss.next 1)) := rfl

/-- Settles O14: the condition decides a branch, the alignment of the target a jump. -/
theorem controlTransfers : Obligations.ControlTransfers := by
  intro s p d a v neg go next near far
  refine ⟨fun h => ?_, fun h => ?_, fun h => ?_, fun h => ?_⟩
  · have hp : (s.rdP p != neg) = true := by rw [h]; cases neg <;> rfl
    exact ⟨transfers_of_ok (by rw [exec_br, if_pos hp]; rfl), transfers_of_ok (by rw [exec_brl, if_pos hp]; rfl)⟩
  · have hp : ¬(s.rdP p != neg) = true := by rw [h]; simp
    exact ⟨transfers_of_ok (by rw [exec_br, if_neg hp]), transfers_of_ok (by rw [exec_brl, if_neg hp])⟩
  · exact ⟨transfers_of_ok (by rw [exec_jmp, if_neg (not_not.2 h)]; rfl), transfers_of_ok (by rw [exec_jmpl, if_neg (not_not.2 h)]; rfl)⟩
  · exact ⟨faults_of_transferDone (by rw [exec_jmp, if_pos h]; rfl), faults_of_transferDone (by rw [exec_jmpl, if_pos h]; rfl)⟩

/-! ### Loops (R296 to R300) -/

/-- The offsets of the enabled files, queued in the order of the files. -/
def State.turnFiles (s : State) (en : BitVec 3) (rs rp rv : Nat) : State :=
  let s := if en.getLsbD 0 then s.putK .rs (w64 rs) else s
  let s := if en.getLsbD 1 then s.putK .rp (w64 rp) else s
  if en.getLsbD 2 then s.putK .rv (w64 rv) else s

theorem turnFiles_cur_k (s : State) (en : BitVec 3) (rs rp rv : Nat) : (s.turnFiles en rs rp rv).cur.k = s.cur.k := by
  unfold State.turnFiles
  dsimp only
  split <;> split <;> split <;> simp only [putK_cur_k]

theorem rotate_once (s : State) (en : BitVec 3) :
    s.rotate en false = s.turnFiles en (rotRs s.cur.k.rs) (rotRp s.cur.k.rp) (rotRv s.cur.k.rv) := by
  simp only [State.rotate, State.turnFiles, Bool.false_eq_true, if_false]

theorem rotate_zero (s : State) (en : BitVec 3) : s.rotate en true = s.turnFiles en 0 0 0 := by
  simp only [State.rotate, State.turnFiles, if_true]

theorem rotate_putK (s : State) (f : KField) (v : Word64) (en : BitVec 3) :
    (s.putK f v).rotate en false = (s.putK f v).turnFiles en (rotRs s.cur.k.rs) (rotRp s.cur.k.rp) (rotRv s.cur.k.rv) := by
  rw [rotate_once, putK_cur_k]

/-- p8 under the name after the rotation is the physical predicate that the offset names. -/
theorem putStage_turnFiles (s : State) (f : KField) (v : Word64) (en : BitVec 3) (rs rp rv : Nat) (b : Bool) (h : s.cur.k.rp < 8) :
    ((s.putK f v).turnFiles en rs rp rv).putStage en b =
      ((s.putK f v).turnFiles en rs rp rv).emit (.p (8 + if en.getLsbD 1 then rotRp s.cur.k.rp else s.cur.k.rp) b) 1 := by
  have hphys : ∀ n < 8, physP n 8 = 8 + n := by decide
  unfold State.putStage
  dsimp only
  rw [turnFiles_cur_k, putK_cur_k]
  split
  · rw [hphys _ (show rotRp _ < 8 from Nat.mod_lt _ (by decide))]
  · rw [hphys _ h]

theorem exec_bloop (en : BitVec 3) (v : Word64) (s : State) :
    exec (.bloop en v) s = transferDone (.ok (
      if 0 < s.cur.k.lc then (((s.putK .lc (w64 (s.cur.k.lc - 1))).rotate en false).putStage en true).transferTo (s.branchTarget v) false
      else if 1 < s.cur.k.ec then (((s.putK .ec (w64 (s.cur.k.ec - 1))).rotate en false).putStage en false).transferTo (s.branchTarget v) false
      else if s.cur.k.ec = 1 then ((s.putK .ec 0).rotate en false).putStage en false
      else s)) := rfl

theorem exec_setn (dst : BitVec 3) (a : SReg) (imm : BitVec 14) (s : State) :
    exec (.setn dst a imm) s = slotDone (.ok (
      if dst.toNat < 4 then s.emit (.count dst.toNat ((s.rdS a + imm.signExtend 64).toNat % 2 ^ 32)) 1
      else if dst.toNat = 4 then s.putK .lc (s.rdS a + imm.signExtend 64)
      else s.putK .ec (s.rdS a + imm.signExtend 64))) := rfl

theorem pipelinedLoops : Statements.PipelinedLoops := by
  intro s en v r imm dst k back turn rotated stage
  refine ⟨fun hrp hlc => transfers_of_ok ?_, fun hrp hlc hec => transfers_of_ok ?_, fun hrp hlc hec => transfers_of_ok ?_,
    fun hlc hec => transfers_of_ok ?_, completes_of_ok (congrArg (fun t => slotDone (.ok t)) (rotate_once s en)),
    completes_of_ok (congrArg (fun t => slotDone (.ok t)) (rotate_zero s en)), fun hd => completes_of_ok ?_, completes_of_ok rfl,
    completes_of_ok rfl⟩
  · rw [exec_bloop, if_pos (Nat.pos_of_ne_zero hlc), rotate_putK, putStage_turnFiles _ _ _ _ _ _ _ _ hrp]
    rfl
  · have hlc' : ¬0 < s.cur.k.lc := by rw [show s.cur.k.lc = 0 from hlc]; decide
    rw [exec_bloop, if_neg hlc', if_pos hec, rotate_putK, putStage_turnFiles _ _ _ _ _ _ _ _ hrp]
    rfl
  · have hlc' : ¬0 < s.cur.k.lc := by rw [show s.cur.k.lc = 0 from hlc]; decide
    have hec' : ¬1 < s.cur.k.ec := by rw [show s.cur.k.ec = 1 from hec]; decide
    rw [exec_bloop, if_neg hlc', if_neg hec', if_pos hec, rotate_putK, putStage_turnFiles _ _ _ _ _ _ _ _ hrp]
    rfl
  · simp only [exec_bloop, show s.cur.k.lc = 0 from hlc, show s.cur.k.ec = 0 from hec]
    rfl
  · rw [exec_setn, if_pos hd]

theorem nestStart : Statements.NestStart := by
  intro s depth1 mask hdet nest
  have hgo : ∀ rev, s.startNest rev depth1 mask = .ok (s.modIss fun i => { i with nest := some (s.cur.readNest rev depth1 mask) }) := by
    intro rev
    simp only [State.startNest, hdet, Bool.false_and, Bool.false_eq_true, if_false]
  exact ⟨completes_of_ok (congrArg slotDone (hgo false)), completes_of_ok (congrArg slotDone (hgo true))⟩

/-- Settles O15: the rotation is queued after the count, the stage predicate under the name after it. -/
theorem loopsAndNests : Obligations.LoopsAndNests := ⟨pipelinedLoops, nestStart⟩

/-! ### Work-ID fields (R339, R359) -/

theorem workWidth_eq (s : State) {i : Nat} (h : i < 6) : s.workWidth i = (s.launchWord 4).toNat / 2 ^ (8 * i) % 256 := by
  rw [State.workWidth, if_pos h, bits, show 8 * i + 7 + 1 - 8 * i = 8 by omega]
  rfl

theorem workFields_eq (s : State) :
    s.workFields = ((List.range 6).filter fun i => decide ((s.launchWord 4).toNat / 2 ^ (8 * i) % 256 ≠ 0)).length := by
  rw [State.workFields]
  congr 1
  apply List.filter_congr
  intro i hi
  rw [workWidth_eq s (List.mem_range.1 hi), Bool.eq_iff_iff, bne_iff_ne, decide_eq_true_iff]

theorem workFields_le (s : State) : s.workFields ≤ 6 := (List.length_filter_le _ _).trans (by simp)

theorem workBase_eq (s : State) (i : Nat) :
    s.workBase i = ((List.range (min i s.workFields)).map fun j => (s.launchWord 4).toNat / 2 ^ (8 * j) % 256).sum := by
  rw [State.workBase]
  congr 1
  apply List.map_congr_left
  intro j hj
  have hlt := List.mem_range.1 hj
  exact workWidth_eq s (by have := workFields_le s; omega)

theorem workIdFields : Statements.WorkIdFields := by
  intro s d a b j hj width count base j' x
  have hcast : ((j' : BitVec 3)).toNat = j' := by
    show ((j.toNat : BitVec 3)).toNat = j.toNat
    rw [BitVec.natCast_eq_ofNat, BitVec.ofNat_toNat, BitVec.setWidth_eq]
  have hcount : s.workFields = count := workFields_eq s
  have hbase : s.workBase j' = base j' := by rw [workBase_eq, hcount]
  have hwidth : s.workWidth j' = width j' := workWidth_eq s hj
  refine ⟨completes_scalar rfl ?_, completes_scalar rfl ?_, _, completes_scalar rfl rfl, fun k hk => ?_⟩
  · rw [hcast, State.workGet, hcount, hbase, hwidth]
    split <;> rfl
  · rw [hcast, State.workLevel, hbase]
    rfl
  · rw [hcast, State.workSet, hcount, hbase, hwidth]
    by_cases hc : j' < count
    · rw [if_pos hc, getLsbD_bfi64 _ _ _ _ _ hk]
      simp only [hc, true_and]
    · simp only [hc, false_and, if_false]

/-! ### System registers (R306 to R310) -/

/-- A field of a word at its own place is the word under the field's mask. -/
theorem w64_bits_shifted (v : Word64) (hi lo : Nat) : w64 (bits v hi lo * 2 ^ lo) = v &&& fieldMask (hi + 1 - lo) lo := by
  apply BitVec.eq_of_getLsbD_eq
  intro i hlt
  rw [BitVec.getLsbD_and, getLsbD_fieldMask _ _ _ hlt, w64, BitVec.getLsbD_ofNat, bits, Nat.testBit_mul_two_pow, Nat.testBit_mod_two_pow,
    Nat.testBit_div_two_pow, BitVec.testBit_toNat, decide_eq_true hlt, Bool.true_and]
  by_cases h : lo ≤ i
  · simp only [h, decide_true, Bool.true_and, true_and, Nat.sub_add_cancel h]
    rw [Bool.and_comm]
    congr 1
    simp only [decide_eq_decide]
    omega
  · simp [h]

theorem w64_add_of_disjoint {a b n : Nat} (hb : b < 2 ^ n) : w64 (a * 2 ^ n + b) = w64 (a * 2 ^ n) ||| w64 b := by
  apply BitVec.eq_of_getLsbD_eq
  intro i hlt
  rw [Nat.mul_comm, Nat.two_pow_add_eq_or_of_lt hb]
  simp [w64, hlt]

/-- A word with its low bits cleared. -/
theorem w64_clearLow (v : Word64) (n : Nat) : w64 (v.toNat / 2 ^ n * 2 ^ n) = v &&& ~~~fieldMask n 0 := by
  apply BitVec.eq_of_getLsbD_eq
  intro i hlt
  rw [BitVec.getLsbD_and, BitVec.getLsbD_not, getLsbD_fieldMask _ _ _ hlt, w64, BitVec.getLsbD_ofNat, Nat.testBit_mul_two_pow,
    Nat.testBit_div_two_pow, BitVec.testBit_toNat, decide_eq_true hlt]
  by_cases h : n ≤ i
  · simp [h]
  · simp [h]
    omega

theorem spill_mask (v : Word64) : w64 (bits v 43 30 * 2 ^ 30 + bits v 19 6 * 2 ^ 6) = v &&& 0x00000FFFC00FFFC0 := by
  have hlow : bits v 19 6 * 2 ^ 6 < 2 ^ 30 := by
    have h : bits v 19 6 < 2 ^ 14 := Nat.mod_lt _ (by decide)
    omega
  rw [w64_add_of_disjoint hlow, w64_bits_shifted, w64_bits_shifted, ← BitVec.and_or_distrib_left]
  rfl

theorem tapeBits_eq (v : Word64) : tapeBits v = v &&& ~~~15 := w64_clearLow v 4

theorem putTape_later {s : State} (f : KField) (v : Word64) (h : s.cur.k.tapeOn = false) (h' : s.reverse = false) :
    s.putTape f v = s.putK f (v &&& ~~~15) := by
  simp only [State.putTape, h, h', Bool.or_self, Bool.false_eq_true, if_false, tapeBits_eq]

theorem putTape_atOnce {s : State} (f : KField) (v : Word64) (h : s.cur.k.tapeOn = true ∨ s.reverse = true) :
    s.putTape f v = (s.modCur fun c => c.apply (.k f (v &&& ~~~15))).emit (.keepK f) 1 := by
  have hc : (s.cur.k.tapeOn || s.reverse) = true := by simpa using h
  simp only [State.putTape, hc, if_true, tapeBits_eq]

theorem completes_kwr {s t : State} {n : BitVec 6} {a : SReg} (h : s.kWrite n.toNat (s.rdS a) = t) : Completes (.kwr n a) s t :=
  completes_of_ok (congrArg (fun t => slotDone (.ok t)) h)

theorem systemRegisters : Statements.SystemRegisters := by
  intro s d a n k v f
  refine ⟨completes_scalar rfl rfl, ⟨?_, rfl, rfl, ?_, rfl, rfl, fun r hlo hhi => ?_⟩, completes_kwr rfl, completes_kwr rfl, completes_kwr rfl,
    completes_kwr rfl, completes_kwr rfl, completes_kwr (congrArg (s.putK .spill) (spill_mask v)),
    completes_kwr (congrArg (s.putK .spovf) (w64_clearLow v 6)), fun h h' => ?_, fun h => ?_, completes_kwr rfl, completes_kwr rfl,
    completes_kwr rfl, completes_kwr (congrArg (s.putK .tpc) (w64_clearLow v 2))⟩
  · simp only [State.kRead, kctxWord, dieOf, clusterOf, Nat.div_div_eq_div_mul, w64]
  · cases hd : s.det <;> simp [State.kRead, hd, flag, w64]
  · interval_cases r <;> rfl
  · exact ⟨completes_kwr (putTape_later .tape v h h'), completes_kwr (putTape_later .tlim v h h'), completes_kwr (putTape_later .tpos v h h')⟩
  · exact ⟨completes_kwr (putTape_atOnce .tape v h), completes_kwr (putTape_atOnce .tlim v h), completes_kwr (putTape_atOnce .tpos v h)⟩

/-- Settles O16: KRD reads the register map, KWR queues the writable fields, WFLD works on the fields of WIDTHS. -/
theorem systemRegistersAndWorkIds : Obligations.SystemRegistersAndWorkIds := ⟨systemRegisters, workIdFields⟩

/-! ### The ends of a context, checkpoints, traps and breakpoints (R356 to R358, R388 to R391, R398, R399) -/

theorem exec_rett (s : State) :
    exec .rett s = transferDone (if s.cur.k.trapIn then .ok (s.modIss fun i => { i with rett := true }) else protFault s s.iss.pc) := rfl

theorem exec_chkpt (a : SReg) (v : Word64) (s : State) :
    exec (.chkpt a v) s = slotDone (if (s.rdS a + v).toNat % 256 ≠ 0 then alignFault s (s.rdS a + v) 256
      else .ok ((s.modCur fun k => { k with ckpt := s.rdS a + v, ckptAt := (s.core s.iss.g).clock }).modIss
        fun i => { i with stops := i.stops || s.preempting })) := rfl

theorem contextEnds : Statements.ContextInstructions := by
  intro s a v prio holds id ask table held
  refine ⟨transfers_of_ok rfl, ⟨_, transfers_of_ok rfl, rfl, rfl, rfl, rfl, rfl, rfl, rfl⟩, fun h => transfers_of_ok ?_,
    fun h => faults_of_transferDone ?_, fun h => completes_of_ok ?_, fun h => faults_of_slotDone ?_, completes_of_ok rfl, completes_of_ok rfl⟩
  · rw [exec_rett, if_pos h]
    rfl
  · rw [exec_rett, h]
    rfl
  · rw [exec_chkpt, if_neg (not_not.2 h)]
    rfl
  · rw [exec_chkpt, if_pos h]
    rfl

theorem needReleased_ok {s : State} (h : Released s) : needReleased s = .ok () := by
  unfold needReleased
  rw [show s.unreleased s.iss.g s.iss.x s.sysScope = false from h]
  rfl

theorem bits_one_zero (w : Word64) : bits w 1 0 = w.toNat % 4 := by simp [bits]

theorem spawnEnqueues : Statements.SpawnEnqueues := by
  intro s r own cl l hrec hdet hrel ws q hok hroom
  have hbar : (contMalformed (s.blockWords l.key) || s.spawnBarred (s.blockWords l.key)) = false := by
    rw [show contMalformed (s.blockWords l.key) = false from hok, State.spawnBarred, hdet]
    rfl
  have hroom' : ¬contQueueSize ≤ (s.cluster (if own then clusterOf s.iss.g else cl.toNat)).conts.length := not_le.2 hroom
  refine ⟨pickupScope (headerScope s.iss.hdr), completes_of_ok ?_⟩
  show execSpawn r own cl s = _
  simp only [execSpawn, hrec, bind, Except.bind, hbar, Bool.false_eq_true, if_false, hroom', needReleased_ok hrel, State.enqueueCont,
    State.spawnReady, hdet, bits_one_zero]
  rfl

/-- Settles O18: each slot asks its issue for what the entry names; SPAWN of a sound record queues it at once. -/
theorem contextInstructions : Obligations.ContextInstructions := ⟨contextEnds, spawnEnqueues⟩

end Sys2Proof.Machine
end

