-- ==== Sys2Proof/Proofs/ScratchpadLoads.lean ====
section
/-! Address registers and loads from the own scratchpad (R166 to R169, R183, R184, R186): the access checks on untranslated addresses, and the
bytes of a block. -/

namespace Sys2Proof.Machine

/-! ### Bytes within a block -/

theorem getBytes_lt (m : List Host.Cell) : ∀ (n key : Nat), getBytes m key n < 2 ^ (8 * n)
  | 0, key => by simp [getBytes]
  | n + 1, key => by
    have hb := (mget unlistedByte m key).isLt
    have ih := getBytes_lt m n (key + 1)
    rw [getBytes, Nat.mul_add, Nat.mul_one, Nat.pow_add]
    omega

/-- The bytes of a run after its first `o`. -/
theorem getBytes_div (m : List Host.Cell) : ∀ (o n key : Nat), getBytes m key (o + n) / 2 ^ (8 * o) = getBytes m (key + o) n
  | 0, n, key => by simp
  | o + 1, n, key => by
    have hb : (mget unlistedByte m key).toNat < 256 := (mget unlistedByte m key).isLt
    have ih := getBytes_div m o n (key + 1)
    rw [show o + 1 + n = (o + n) + 1 by omega, getBytes, Nat.mul_add, Nat.mul_one, Nat.add_comm (8 * o), Nat.pow_add,
      ← Nat.div_div_eq_div_mul, show (2 : Nat) ^ 8 = 256 from rfl, Nat.add_mul_div_left _ _ (by omega), Nat.div_eq_of_lt hb, Nat.zero_add, ih]
    congr 1
    omega

/-- The low bytes of a run are those of its beginning. -/
theorem getBytes_mod (m : List Host.Cell) : ∀ (n k key : Nat), getBytes m key (n + k) % 2 ^ (8 * n) = getBytes m key n
  | 0, k, key => by simp [getBytes, Nat.mod_one]
  | n + 1, k, key => by
    have hb : (mget unlistedByte m key).toNat < 256 := (mget unlistedByte m key).isLt
    have ih := getBytes_mod m n k (key + 1)
    rw [show n + 1 + k = (n + k) + 1 by omega, getBytes, getBytes, Nat.mul_add, Nat.mul_one, Nat.add_comm (8 * n), Nat.pow_add,
      show (2 : Nat) ^ 8 = 256 from rfl, Nat.mod_mul, Nat.add_mul_mod_self_left, Nat.mod_eq_of_lt hb,
      Nat.add_mul_div_left _ _ (by omega), Nat.div_eq_of_lt hb, Nat.zero_add, ih]

theorem getBytes_slice (m : List Host.Cell) {o n len : Nat} (h : o + n ≤ len) (key : Nat) :
    getBytes m key len / 2 ^ (8 * o) % 2 ^ (8 * n) = getBytes m (key + o) n := by
  obtain ⟨k, rfl⟩ := Nat.exists_eq_add_of_le h
  rw [Nat.add_assoc, getBytes_div, getBytes_mod]

/-- Bytes of a block that is not poisoned, as they stand in memory. -/
theorem bytesOf_readBlock {s : State} {key o n : Nat} (hp : isPoison (s.descAt key) = false) (h : o + n ≤ 64) :
    bytesOf (s.readBlock key).data o n = getBytes s.mem (key + o) n := by
  have hlt := getBytes_lt s.mem 64 key
  simp only [State.readBlock, hp, Bool.false_eq_true, if_false, bytesOf, BitVec.toNat_ofNat]
  rw [show 512 = 8 * 64 from rfl, Nat.mod_eq_of_lt hlt]
  exact getBytes_slice s.mem h key

theorem readBlock_desc (s : State) (key : Nat) :
    (s.readBlock key).desc = if isPoison (s.descAt key) then poisonDesc else s.descAt key := by
  unfold State.readBlock
  dsimp only
  split <;> rfl

theorem isPoison_readBlock (s : State) (key : Nat) : isPoison (s.readBlock key).desc = isPoison (s.descAt key) := by
  rw [readBlock_desc]
  split
  case isTrue h => rw [h]; rfl
  case isFalse => rfl

theorem readBlock_data_of_poison {s : State} {key : Nat} (h : isPoison (s.descAt key) = true) : (s.readBlock key).data = 0 := by
  simp [State.readBlock, h]

theorem descAt_block (s : State) (key : Nat) : s.descAt (key / 64 * 64) = s.descAt key := by
  rw [State.descAt, State.descAt, Nat.mul_div_cancel _ (by decide)]

/-! ### Access checks on untranslated addresses (R166, R169, R183) -/

/-- A scratchpad's window is not translated. -/
theorem untranslated_of_spad {pa g o : Nat} (h : spaceOf pa = .spad g o) : untranslated pa = true := by
  have hin : 0x0800_0000_0000 ≤ pa ∧ pa < 0x0900_0000_0000 := by
    unfold spaceOf at h
    split at h
    · cases h
    · split at h
      · assumption
      · split at h
        · unfold inWindow at h
          dsimp only at h
          split at h <;> cases h
        · repeat' (split at h)
          all_goals cases h
  unfold untranslated
  simp only [Bool.or_eq_true, Bool.and_eq_true, decide_eq_true_eq]
  omega

theorem reachOwn_allows_iff {g size : Nat} (sp : Space) :
    reachOwn.allows g size sp = true ↔ ∃ o, sp = .spad g o ∧ o + size ≤ 0xBF000 := by
  cases sp with
  | spad h o =>
    by_cases hg : h = g
    · subst hg; simp only [Reach.allows, reachOwn, if_true, Bool.true_and, Space.spad.injEq, true_and, exists_eq_left']
      exact decide_eq_true_iff
    · simp [Reach.allows, reachOwn, hg]
  | _ => simp [Reach.allows, reachOwn]

/-- An access to the own scratchpad below the latch area is done at its address. -/
theorem slotAccess_own {s : State} {a : Access} {va : Word64} {size o : Nat} (ha : a ≠ .fetch) (hs : spaceOf va.toNat = .spad s.iss.g o)
    (ho : o + size ≤ 0xBF000) (hal : va.toNat % size = 0) (hst : s.stallingChan s.iss.g va.toNat (va.toNat + size) = none) :
    slotAccess s reachOwn a va size = .ok (windowLoc va.toNat) := by
  have hu := untranslated_of_spad hs
  have hallow : reachOwn.allows s.iss.g size (spaceOf va.toNat) = true := (reachOwn_allows_iff _).2 ⟨o, hs, ho⟩
  have hperm : (windowLoc va.toNat).permits a = true := by cases a <;> first | rfl | exact absurd rfl ha
  have hxlat : s.xlat (clusterOf s.iss.g) va.toNat = .loc (windowLoc va.toNat) := by rw [State.xlat, if_pos hu]
  simp only [slotAccess, slotLoc, slotMark, bind, Except.bind, hu, hallow, hal, hxlat, hperm, hst, Bool.not_true, Bool.and_false, Bool.false_and,
    Bool.false_eq_true, if_false, if_true, ne_eq, not_true_eq_false]

/-- An address out of the reach of the own scratchpad is a protection fault naming it. -/
theorem slotAccess_barred {s : State} {a : Access} {va : Word64} {size : Nat}
    (h : untranslated va.toNat = false ∨ ∀ g o, spaceOf va.toNat = .spad g o → g ≠ s.iss.g ∨ 0xBF000 < o + size) :
    slotAccess s reachOwn a va size = protFault s va := by
  by_cases hu : untranslated va.toNat = true
  · have hallow : reachOwn.allows s.iss.g size (spaceOf va.toNat) = false := by
      rw [← Bool.not_eq_true, reachOwn_allows_iff]
      rintro ⟨o, hs, ho⟩
      rcases h with h | h
      · rw [h] at hu; cases hu
      · rcases h _ _ hs with h | h
        · exact h rfl
        · omega
    simp only [slotAccess, slotLoc, hu, hallow, Bool.not_false, Bool.and_self, if_true]
    rfl
  · rw [Bool.not_eq_true] at hu
    simp only [slotAccess, slotLoc, bind, Except.bind, hu, Bool.false_and, Bool.false_eq_true, if_false, Bool.not_false, Bool.true_and, reachOwn, Bool.true_or,
      if_true]
    rfl

/-- An address in the own scratchpad off its size is an alignment fault naming it. -/
theorem slotAccess_misaligned {s : State} {a : Access} {va : Word64} {size o : Nat} (hs : spaceOf va.toNat = .spad s.iss.g o)
    (ho : o + size ≤ 0xBF000) (hal : va.toNat % size ≠ 0) : slotAccess s reachOwn a va size = alignFault s va size := by
  have hu := untranslated_of_spad hs
  have hallow : reachOwn.allows s.iss.g size (spaceOf va.toNat) = true := (reachOwn_allows_iff _).2 ⟨o, hs, ho⟩
  simp only [slotAccess, slotLoc, bind, Except.bind, hu, hallow, Bool.not_true, Bool.and_false, Bool.false_and, Bool.false_eq_true, if_false, ne_eq, hal,
    not_false_eq_true, if_true]
  rfl

/-! ### Scalar reads -/

theorem chainView_readBlock (s : State) (key : Nat) : s.chainView.readBlock key = s.readBlock key := by
  unfold State.chainView
  split
  · split <;> rfl
  · rfl

/-- An aligned scalar lies within one block. -/
theorem aligned_within_block {va n : Nat} (hn : n ∣ 64) (h : va % n = 0) : va % 64 + n ≤ 64 := by
  obtain ⟨k, hk⟩ := hn
  have hpos : 0 < n := Nat.pos_of_ne_zero (by rintro rfl; omega)
  have hmod : va % 64 % n = 0 := by rw [Nat.mod_mod_of_dvd _ ⟨k, hk⟩, h]
  obtain ⟨j, hj⟩ := Nat.dvd_of_mod_eq_zero hmod
  have hlt : n * j < n * k := by have := Nat.mod_lt va (show 0 < 64 by decide); omega
  have hjk : j + 1 ≤ k := Nat.lt_of_mul_lt_mul_left hlt
  calc va % 64 + n = n * (j + 1) := by rw [hj, Nat.mul_add, Nat.mul_one]
    _ ≤ n * k := Nat.mul_le_mul_left _ hjk
    _ = 64 := hk.symm

theorem size_dvd (sz : BitVec 2) : 2 ^ sz.toNat ∣ 64 := by
  revert sz
  decide

theorem slotScalar_window (s : State) {va n o : Nat} (hs : spaceOf va = .spad s.iss.g o) (hn : n ∣ 64) (hal : va % n = 0) :
    slotScalar s (windowLoc va) va n =
      .ok (if isPoison (s.descAt va) then 0 else getBytes s.mem va n, 0, isPoison (s.descAt va)) := by
  have hkey : (windowLoc va).key - va % 64 = va / 64 * 64 := by
    show va - va % 64 = _
    omega
  have hblock : s.chainView.blockAt ((windowLoc va).blockLoc va) (va / 64 * 64) = .ok (s.readBlock (va / 64 * 64)) 0 := by
    unfold State.blockAt
    rw [if_neg (by simp [Loc.blockLoc, windowLoc, hs]), Loc.blockLoc, hkey, chainView_readBlock]
  simp only [slotScalar, slotBlockFor, hblock, bind, Except.bind, isPoison_readBlock, descAt_block]
  cases hp : isPoison (s.descAt va)
  · rw [bytesOf_readBlock (by rw [descAt_block, hp]) (aligned_within_block hn hal), Nat.div_add_mod']
    rfl
  · rw [readBlock_data_of_poison (by rw [descAt_block, hp])]
    simp [bytesOf]

/-! ### The statements -/

theorem addressRegisters : Statements.AddressRegisters := by
  intro s d a r v n level
  exact ⟨completes_of_ok rfl, completes_of_ok rfl, completes_of_ok rfl, completes_of_ok rfl, completes_of_ok rfl, completes_of_ok rfl⟩

theorem exec_ld (d : SReg) (base : AReg) (off : Off9) (sz : BitVec 2) (sx : Bool) (s : State) :
    exec (.ld d base off sz sx) s = slotDone (do
      let l ← slotAccess s reachOwn .read (s.ea base off (2 ^ sz.toNat)) (2 ^ sz.toNat)
      let (v, _, bad) ← slotScalar s l (s.ea base off (2 ^ sz.toNat)).toNat (2 ^ sz.toNat)
      let s := (s.putS d (extend64 sx (2 ^ sz.toNat) v) 5).note (s.ea base off (2 ^ sz.toNat)).toNat (2 ^ sz.toNat) false 5
      .ok (if bad then s.putStat stPoison else s)) := rfl

/-- LD from the own scratchpad: the extended bytes, or 0 with kstat.POISON from a poisoned block. -/
theorem completes_ld {s : State} {base : AReg} {off : Off9} {sz : BitVec 2} {o : Nat} (d : SReg) (sx : Bool)
    (hs : spaceOf (s.ea base off (2 ^ sz.toNat)).toNat = .spad s.iss.g o) (ho : o + 2 ^ sz.toNat ≤ 0xBF000)
    (hal : (s.ea base off (2 ^ sz.toNat)).toNat % 2 ^ sz.toNat = 0)
    (hst : s.stallingChan s.iss.g (s.ea base off (2 ^ sz.toNat)).toNat ((s.ea base off (2 ^ sz.toNat)).toNat + 2 ^ sz.toNat) = none) :
    (isPoison (s.descAt (s.ea base off (2 ^ sz.toNat)).toNat) = false → Completes (.ld d base off sz sx) s
      ((s.putS d (extend64 sx (2 ^ sz.toNat) (getBytes s.mem (s.ea base off (2 ^ sz.toNat)).toNat (2 ^ sz.toNat))) 5).note
        (s.ea base off (2 ^ sz.toNat)).toNat (2 ^ sz.toNat) false 5)) ∧
    (isPoison (s.descAt (s.ea base off (2 ^ sz.toNat)).toNat) = true → Completes (.ld d base off sz sx) s
      (((s.putS d 0 5).note (s.ea base off (2 ^ sz.toNat)).toNat (2 ^ sz.toNat) false 5).putStat stPoison)) := by
  have hacc := slotAccess_own (a := .read) (by decide) hs ho hal hst
  have hval := slotScalar_window s hs (size_dvd sz) hal
  refine ⟨fun hp => completes_of_ok ?_, fun hp => completes_of_ok ?_⟩
  · rw [exec_ld, hacc]
    simp only [bind, Except.bind, hval, hp, Bool.false_eq_true, if_false]
  · have hz : extend64 sx (2 ^ sz.toNat) 0 = 0 := by cases sx <;> simp [extend64, signedOf, w64]
    rw [exec_ld, hacc]
    simp only [bind, Except.bind, hval, hp, if_true, hz]

theorem exec_ldV (d : VRegNo) (base : AReg) (off : Off9) (s : State) :
    exec (.ldV d base off) s = slotDone (do
      let l ← slotAccess s reachOwn .read (s.ea base off 64) 64
      .ok ((s.putV d (s.readBlock l.key) 5).note (s.ea base off 64).toNat 64 false 5)) := rfl

theorem exec_ldD (d : SReg) (base : AReg) (off : Off9) (s : State) :
    exec (.ldD d base off) s = slotDone (do
      let l ← slotAccess s reachOwn .read (s.ea base off 64) 64
      .ok ((s.putS d ((s.descAt l.key).setWidth 64) 5).note (s.ea base off 64).toNat 64 false 5)) := rfl

theorem scratchpadLoads : Statements.ScratchpadLoads := by
  intro s d v base off sz sx n va vb at_ place barred got x
  refine ⟨fun o h => ?_, fun o h => ?_, fun h => faults_of_slotDone ?_, fun h => ⟨faults_of_slotDone ?_, faults_of_slotDone ?_⟩,
    fun o hs ho hal => faults_of_slotDone ?_, fun o hs ho hal => ⟨faults_of_slotDone ?_, faults_of_slotDone ?_⟩⟩
  · obtain ⟨hs, ho, hal, hst⟩ := h
    exact completes_ld d sx hs ho hal hst
  · obtain ⟨hs, ho, hal, hst⟩ := h
    have hacc := slotAccess_own (a := .read) (by decide) hs ho hal hst
    exact ⟨completes_of_ok (by rw [exec_ldV, hacc]; rfl), completes_of_ok (by rw [exec_ldD, hacc]; rfl)⟩
  · rw [exec_ld, slotAccess_barred h]
    rfl
  · rw [exec_ldV, slotAccess_barred h]
    rfl
  · rw [exec_ldD, slotAccess_barred h]
    rfl
  · rw [exec_ld, slotAccess_misaligned hs ho hal]
    rfl
  · rw [exec_ldV, slotAccess_misaligned hs ho hal]
    rfl
  · rw [exec_ldD, slotAccess_misaligned hs ho hal]
    rfl

/-- Settles O19: a scalar is cut out of its block, and an address that the reach does not allow never gets to it. -/
theorem addressRegistersAndLoads : Obligations.AddressRegistersAndLoads := ⟨addressRegisters, scratchpadLoads⟩

end Sys2Proof.Machine
end

