-- ==== Sys2Proof/Proofs/Stores.lean ====
section
/-! Stores, timed loads, indexed and spill access (R58, R84, R88, R157, R171 to R173, R186 to R192, R279, R281 to R283): the instruction once its
access is allowed. -/

namespace Sys2Proof.Machine

/-! ### The checks of a store -/

theorem plainOnly_ok {s : State} {l : Loc} (va : Word64) (h : l.space = .main → l.kind = 0) : plainOnly s l va = .ok () := by
  unfold plainOnly
  rw [if_neg]
  simpa using h

theorem pushOld_none {s : State} {l : Loc} {va : Word64} (pairs : List (Word64 × Word64))
    (h : (s.cur.k.tapeOn && s.differentiable l va.toNat) = false) : pushOld s l va pairs = .ok s := by
  simp [pushOld, h]

theorem pushOld_some {s t : State} {l : Loc} {va : Word64} {pairs : List (Word64 × Word64)}
    (h : (s.cur.k.tapeOn && s.differentiable l va.toNat) = true) (hrd : l.rd = true) (ht : pushTape s va pairs = .ok t) :
    pushOld s l va pairs = .ok t := by
  simp [pushOld, h, hrd, ht]

theorem slotPort_ok {s : State} {va : Word64} {q : Nat} (h : (s.port q).st ≠ .down) : slotPort s va q = .ok () := by
  simp [slotPort, State.portDown, h]

/-! ### ST, ST.V and ST.D (R186) -/

theorem exec_st (d : SReg) (base : AReg) (off : Off9) (sz : BitVec 2) (s : State) :
    exec (.st d base off sz) s = slotDone (do
      let l ← slotAccess s reachStore .write (s.ea base off (2 ^ sz.toNat)) (2 ^ sz.toNat)
      match windowPort l.space with
      | some (q, o) =>
        slotPort s (s.ea base off (2 ^ sz.toNat)) q
        .ok (s.storeWindow q o (2 ^ sz.toNat) (s.rdS d).toNat (s.ea base off (2 ^ sz.toNat)))
      | none =>
        plainOnly s l (s.ea base off (2 ^ sz.toNat))
        if s.reverse && s.differentiable l (s.ea base off (2 ^ sz.toNat)).toNat then
          reverseStore s (.scalar d sz.toNat) (s.ea base off (2 ^ sz.toNat)) l
        else
          let t ← pushOld s l (s.ea base off (2 ^ sz.toNat)) (scalarEntry sz.toNat (s.ea base off (2 ^ sz.toNat)).toNat
            (if isPoison (s.descAt l.key) then 0 else getBytes s.mem l.key (2 ^ sz.toNat)))
          .ok (t.storeScalar t.iss.g (s.ea base off (2 ^ sz.toNat)).toNat l (2 ^ sz.toNat) (s.rdS d).toNat)) := rfl

theorem exec_stV (d : VRegNo) (base : AReg) (off : Off9) (s : State) :
    exec (.stV d base off) s = slotDone (do
      let l ← slotAccess s reachStore .write (s.ea base off 64) 64
      match windowPort l.space with
      | some (q, o) =>
        slotPort s (s.ea base off 64) q
        .ok (s.storeBlockWindow q o (s.rdV d) (s.ea base off 64))
      | none =>
        plainOnly s l (s.ea base off 64)
        if s.reverse && s.differentiable l (s.ea base off 64).toNat then reverseStore s (.block d) (s.ea base off 64) l
        else
          let t ← pushOld s l (s.ea base off 64) (blockEntry (s.ea base off 64).toNat (s.readBlock l.key))
          .ok ((t.writeBlock l.wkeys (s.rdV d)).note (s.ea base off 64).toNat 64 true
            (t.latencyOf t.iss.g (s.ea base off 64).toNat l) (t.differentiable l (s.ea base off 64).toNat))) := rfl

theorem exec_stD (d : SReg) (base : AReg) (off : Off9) (s : State) :
    exec (.stD d base off) s = slotDone (do
      let l ← slotAccess s reachMemory .write (s.ea base off 64) 64
      plainOnly s l (s.ea base off 64)
      if 0x0D < descFmt ((s.rdS d).setWidth 16) then slotFault s cDesc (s.ea base off 64) (((s.rdS d).setWidth 16 : Desc).setWidth 64) 0
      if (s.reverse || s.cur.k.tapeOn) && s.differentiable l (s.ea base off 64).toNat then protFault s (s.ea base off 64)
      .ok ((s.writeDesc l.wkeys ((s.rdS d).setWidth 16)).note (s.ea base off 64).toNat 64 true
        (s.latencyOf s.iss.g (s.ea base off 64).toNat l) (s.differentiable l (s.ea base off 64).toNat))) := rfl

/-- ST outside windows and reverse mode, once its tape entry is made. -/
theorem completes_st {s t : State} {d : SReg} {base : AReg} {off : Off9} {sz : BitVec 2} {l : Loc}
    (hacc : slotAccess s reachStore .write (s.ea base off (2 ^ sz.toNat)) (2 ^ sz.toNat) = .ok l) (hw : windowPort l.space = none)
    (hkind : l.space = .main → l.kind = 0)
    (hrev : (s.reverse && s.differentiable l (s.ea base off (2 ^ sz.toNat)).toNat) = false)
    (hpush : pushOld s l (s.ea base off (2 ^ sz.toNat)) (scalarEntry sz.toNat (s.ea base off (2 ^ sz.toNat)).toNat
      (if isPoison (s.descAt l.key) then 0 else getBytes s.mem l.key (2 ^ sz.toNat))) = .ok t) :
    Completes (.st d base off sz) s
      (t.storeScalar t.iss.g (s.ea base off (2 ^ sz.toNat)).toNat l (2 ^ sz.toNat) (s.rdS d).toNat) := by
  apply completes_of_ok
  simp only [exec_st, hacc, bind, Except.bind, hw, plainOnly_ok _ hkind, hrev, Bool.false_eq_true, if_false, hpush]

theorem completes_stV {s t : State} {d : VRegNo} {base : AReg} {off : Off9} {l : Loc}
    (hacc : slotAccess s reachStore .write (s.ea base off 64) 64 = .ok l) (hw : windowPort l.space = none)
    (hkind : l.space = .main → l.kind = 0) (hrev : (s.reverse && s.differentiable l (s.ea base off 64).toNat) = false)
    (hpush : pushOld s l (s.ea base off 64) (blockEntry (s.ea base off 64).toNat (s.readBlock l.key)) = .ok t) :
    Completes (.stV d base off) s ((t.writeBlock l.wkeys (s.rdV d)).note (s.ea base off 64).toNat 64 true
      (t.latencyOf t.iss.g (s.ea base off 64).toNat l) (t.differentiable l (s.ea base off 64).toNat)) := by
  apply completes_of_ok
  simp only [exec_stV, hacc, bind, Except.bind, hw, plainOnly_ok _ hkind, hrev, Bool.false_eq_true, if_false, hpush]

theorem not_and_eq_false {a b : Bool} (h : ¬(a = true ∧ b = true)) : (a && b) = false := by
  cases a <;> cases b <;> simp_all

/-- Settles O20: a store writes once the tape has what it replaces. -/
theorem stores : Obligations.Stores := by
  intro s d v base off sz l n va vb g plain taped
  refine ⟨fun hacc ⟨hw, hkind, hrev⟩ => ⟨fun ht => ?_, fun ht hrd t hpush => ?_⟩,
    fun hacc ⟨hw, hkind, hrev⟩ => ⟨fun ht => ?_, fun ht hrd t hpush => ?_⟩, fun hacc hkind => ⟨fun he hgate => completes_of_ok ?_,
        fun he => faults_of_slotDone ?_⟩,
    fun q o hacc hw hup => completes_of_ok ?_, fun q o hacc hw hup => completes_of_ok ?_⟩
  · exact completes_st hacc hw hkind (not_and_eq_false hrev) (pushOld_none _ ht)
  · exact completes_st hacc hw hkind (not_and_eq_false hrev) (pushOld_some ht hrd hpush)
  · exact completes_stV hacc hw hkind (not_and_eq_false hrev) (pushOld_none _ ht)
  · exact completes_stV hacc hw hkind (not_and_eq_false hrev) (pushOld_some ht hrd hpush)
  · rw [exec_stD, show slotAccess s reachMemory .write (s.ea base off 64) 64 = .ok l from hacc]
    simp only [bind, Except.bind, plainOnly_ok _ hkind, if_neg (not_lt.2 he), show ((s.reverse || s.cur.k.tapeOn) &&
      s.differentiable l (s.ea base off 64).toNat) = false from hgate, Bool.false_eq_true, if_false]
    rfl
  · rw [exec_stD, show slotAccess s reachMemory .write (s.ea base off 64) 64 = .ok l from hacc]
    simp only [bind, Except.bind, plainOnly_ok _ hkind, if_pos he]
    rfl
  · rw [exec_st, show slotAccess s reachStore .write (s.ea base off (2 ^ sz.toNat)) (2 ^ sz.toNat) = .ok l from hacc]
    simp only [bind, Except.bind, hw, slotPort_ok hup]
    rfl
  · rw [exec_stV, show slotAccess s reachStore .write (s.ea base off 64) 64 = .ok l from hacc]
    simp only [bind, Except.bind, hw, slotPort_ok hup]
    rfl

/-! ### LD.L (R187, R188) -/

theorem exec_ldL (d : VRegNo) (base : AReg) (off : Off9) (land : Nat) (s : State) :
    exec (.ldL d base off land) s = slotDone (do
      let l ← slotAccess s (reachTimed s.det) .read (s.ea base off 64) 64
      match windowPort l.space with
      | some (q, o) =>
        slotPort s (s.ea base off 64) q
        needSill s
        .ok ((s.requestWindow q o (s.ea base off 64)).land [.v (physV s.cur.k.rv d) {}] land false (some (q, o)))
      | none =>
        if s.reverse && s.differentiable l (s.ea base off 64).toNat then reverseLoad s d (s.ea base off 64) l
        else
          if s.det && land < s.latencyOf s.iss.g (s.ea base off 64).toNat l then slotFault s cOverrun s.iss.pc (w64 s.sclk) 0
          needSill s
          let u ← needOnTime s l
          let (b, fl) ← slotBlock u l (s.ea base off 64).toNat
          let (late, u) := u.drawLate land (s.latencyOf s.iss.g (s.ea base off 64).toNat l)
          .ok ((u.land ([.v (physV s.cur.k.rv d) b] ++ (if fl = 0 then [] else [.flagsOr fl])) land late).note
            (s.ea base off 64).toNat 64 false (s.latencyOf s.iss.g (s.ea base off 64).toNat l))) := rfl

theorem needSill_ok {s : State} (h : (s.core s.iss.g).sillUsed < 256) : needSill s = .ok () := by
  unfold needSill
  exact if_neg (not_le.2 h)

theorem needOnTime_onTime {s : State} {l : Loc} (h : OnTime s l) : needOnTime s l = .ok s := by
  unfold needOnTime
  rw [if_neg]
  rw [Bool.and_eq_true]
  rintro ⟨hd, hc⟩
  rw [h hd] at hc
  cases hc

/-- An access that others can crowd keeps its figure or is an overrun, as a free value says. -/
theorem needOnTime_crowded {s : State} {l : Loc} (hd : s.det = true) (hc : l.mayCrowd = true) :
    needOnTime s l = .ok { s with free := s.free + 1 } ∨
      needOnTime s l = slotFault { s with free := s.free + 1 } cOverrun s.iss.pc (w64 s.sclk) 0 := by
  unfold needOnTime
  rw [if_pos (by rw [hd, hc]; rfl)]
  by_cases hlate : Config.landingLate s.free = true
  · exact .inr (if_pos hlate)
  · exact .inl (if_neg hlate)

/-- What stands at a place does not depend on the free values drawn. -/
theorem chainView_blockAt_free (s : State) (l : Loc) (va n : Nat) :
    State.blockAt (State.chainView { s with free := n }) l va = s.chainView.blockAt l va := by
  have h : State.chainView { s with free := n } = { s.chainView with free := n } := by
    unfold State.chainView
    dsimp only
    split
    · split <;> rfl
    · rfl
  rw [h]
  rfl

theorem slotBlock_ok {s : State} {l : Loc} {va : Nat} {b : VVal} {fl : BitVec 6} (h : s.chainView.blockAt l va = .ok b fl) :
    slotBlock s l va = .ok (b, fl) := by
  simp only [slotBlock, slotBlockFor, h]

theorem drawLate_det {s : State} (h : s.det = true) (land lat : Nat) : s.drawLate land lat = (false, s) := by
  simp [State.drawLate, h]

theorem timedLoads : Statements.TimedLoads := by
  intro s v base off land l va g r lat hacc hsill
  have hexec := exec_ldL v base off land s
  rw [show slotAccess s (reachTimed s.det) .read (s.ea base off 64) 64 = .ok l from hacc] at hexec
  refine ⟨fun hw hrev hdet hlat hcrowd b fl hb => ?_, fun hw hrev hlat hon b fl hb => completes_of_ok ?_,
    fun hw hrev hdet hlat => faults_of_slotDone ?_, fun q o hw hup => completes_of_ok ?_⟩
  · intro u
    have hr : (s.reverse && s.differentiable l (s.ea base off 64).toNat) = false := not_and_eq_false hrev
    have hlate : (s.det && decide (land < s.latencyOf s.iss.g (s.ea base off 64).toNat l)) = false := by
      rw [hdet, Bool.true_and, decide_eq_false_iff_not]
      exact not_lt.2 hlat
    simp only [bind, Except.bind, hw, hr, hlate, Bool.false_eq_true, if_false, needSill_ok hsill] at hexec
    rcases needOnTime_crowded (l := l) hdet hcrowd with h | h
    · left
      have hb' : State.blockAt (State.chainView u) l (s.ea base off 64).toNat = .ok b fl := (chainView_blockAt_free s l _ _).trans hb
      apply completes_of_ok
      rw [hexec, h]
      dsimp only
      rw [slotBlock_ok hb', drawLate_det (show u.det = true from hdet)]
    · right
      rw [hexec, h]
      rfl
  · have hr : (s.reverse && s.differentiable l (s.ea base off 64).toNat) = false := not_and_eq_false hrev
    have hlate : (s.det && decide (land < s.latencyOf s.iss.g (s.ea base off 64).toNat l)) = false := by
      refine not_and_eq_false ?_
      rintro ⟨hd, hlt⟩
      exact absurd (of_decide_eq_true hlt) (not_lt.2 (hlat hd))
    rw [hexec]
    simp only [bind, Except.bind, hw, hr, hlate, Bool.false_eq_true, if_false, needSill_ok hsill, needOnTime_onTime hon,
      slotBlock_ok (va := (s.ea base off 64).toNat) hb]
    rfl
  · have hr : (s.reverse && s.differentiable l (s.ea base off 64).toNat) = false := not_and_eq_false hrev
    have hlate : (s.det && decide (land < s.latencyOf s.iss.g (s.ea base off 64).toNat l)) = true := by
      rw [hdet, Bool.true_and, decide_eq_true_iff]
      exact hlat
    rw [hexec]
    simp only [bind, Except.bind, hw, hr, hlate, Bool.false_eq_true, if_false, if_true]
    rfl
  · rw [hexec]
    simp only [bind, Except.bind, hw, slotPort_ok hup, needSill_ok hsill]
    rfl

/-! ### Stores into panes (R98, R105, R112) -/

theorem boundOf_none {s : State} {f : FReg} (h : vget none s.cur.f f.toNat = none) : boundOf s f = protFault s (f.setWidth 64) := by
  simp only [boundOf, h]

theorem boundOf_some {s : State} {f : FReg} {pa : Nat} (h : vget none s.cur.f f.toNat = some pa) : boundOf s f = .ok (pa, s.frame pa) := by
  simp only [boundOf, h]

theorem paneGate_ok {s : State} {pa : Nat} {fr : Frame} (h : fr.glazeWait = none) : paneGate s pa fr = .ok () := by
  simp only [paneGate, h]

theorem exec_stG (d : SReg) (base : AReg) (off : Off9) (f : FReg) (acc : Bool) (s : State) :
    exec (.stG d base off f acc) s = slotDone (do
      let (pa, fr) ← boundOf s f
      let l ← paneLoc s fr (s.ea base off fr.info.elem) fr.info.elem
      if s.reverse && fr.info.diff then reverseStore s (.paneElem d pa) (s.ea base off fr.info.elem) l
      else
        paneGate s pa fr
        let p ← openPane s pa fr acc
        let p ← touchFor s pa fr false p (((s.ea base off fr.info.elem).toNat - fr.info.base) / 64)
        let t ← pushPane s pa fr (s.ea base off fr.info.elem) p.name acc false
        match p.block? (((s.ea base off fr.info.elem).toNat - fr.info.base) / 64) with
        | none => .ok t
        | some k =>
          let (k, fl) := k.storeElem fr.info acc (((s.ea base off fr.info.elem).toNat - fr.info.base) % 64 / fr.info.elem)
            ((t.rdS d).toNat % 2 ^ fr.info.width)
          .ok ((t.changeFrame pa (fr.setStored (p.setBlock k))).putFlags fl 1)) := rfl

theorem exec_stGBlk (d : VRegNo) (base : AReg) (off : Off9) (f : FReg) (acc : Bool) (s : State) :
    exec (.stGBlk d base off f acc) s = slotDone (do
      let (pa, fr) ← boundOf s f
      let l ← paneLoc s fr (s.ea base off 64) 64
      if s.reverse && fr.info.diff then reverseStore s (.paneBlock d pa) (s.ea base off 64) l
      else
        paneGate s pa fr
        let p ← openPane s pa fr acc
        let p ← touchFor s pa fr (!acc) p (((s.ea base off 64).toNat - fr.info.base) / 64)
        match p.block? (((s.ea base off 64).toNat - fr.info.base) / 64) with
        | none => .ok s
        | some k =>
          if !(k.poison && acc) && !isPoison (s.rdV d).desc && !fr.info.formatOk (s.rdV d).desc then descFault s (s.rdV d).desc
          let t ← pushPane s pa fr (s.ea base off 64) p.name acc true
          let (k, fl) := k.storeBlock fr.info acc (s.rdV d)
          .ok ((t.changeFrame pa (fr.setStored (p.setBlock k))).putFlags fl 1)) := rfl

theorem openPane_direct {s : State} {pa : Nat} {acc : Bool} {p : Pane} (h : s.iss.chains = none)
    (hp : (s.frame pa).openOf s.iss.g s.iss.x = some p) (hacc : ¬(acc = true ∧ p.ow = true)) :
    openPane s pa (s.frame pa) acc = .ok p := by
  have hview : s.chainView = s := by simp only [State.chainView, h]
  simp only [openPane, hview, hp, not_and_eq_false hacc, h, Option.isSome_none, Bool.false_eq_true, if_false]

/-- A store that executes after the slot X of its issue goes to the pane that was open before it, as that pane stands now. -/
theorem openPane_viewed {s : State} {pa : Nat} {acc : Bool} {fr : Frame} {fs : List (Nat × Frame)} {p : Pane} (h : s.iss.chains = some fs)
    (hslot : s.iss.slot < 4) (hp : (mget ({} : Frame) fs pa).openOf s.iss.g s.iss.x = some p) (hacc : ¬(acc = true ∧ p.ow = true)) :
    openPane s pa fr acc = .ok ((fr.paneNamed p.name).getD p) := by
  have hview : s.chainView = { s with frames := fs } := by simp only [State.chainView, h, if_pos hslot]
  have hp' : ((State.chainView s).frame pa).openOf s.iss.g s.iss.x = some p := by rw [hview]; exact hp
  simp only [openPane, hp', not_and_eq_false hacc, h, Option.isSome_some, Bool.false_eq_true, if_false, if_true]

/-- Settles O22: a store goes to the block of the pane that the context has open, once the tape's entry is made. -/
theorem paneStores : Obligations.PaneStores := by
  intro s d v base off f acc bound
  refine ⟨fun h => ⟨faults_of_slotDone ?_, faults_of_slotDone ?_⟩, fun pa h => ?_⟩
  · rw [exec_stG, boundOf_none h]
    rfl
  · rw [exec_stGBlk, boundOf_none h]
    rfl
  · have hb := boundOf_some h
    refine ⟨fun hc p hp hacc => openPane_direct hc hp hacc, fun fs p hc hslot hp hacc => openPane_viewed hc hslot hp hacc,
        fun hrev hgate p q k l t hopen => ⟨?_, ?_⟩⟩
    · intro e va o hloc htouch hblock hpush r
      apply completes_of_ok
      rw [exec_stG, hb]
      simp only [bind, Except.bind, show paneLoc s (s.frame pa) (s.ea base off (s.frame pa).info.elem) (s.frame pa).info.elem = .ok l from hloc,
        not_and_eq_false hrev, Bool.false_eq_true, if_false, paneGate_ok hgate, hopen,
        show touchFor s pa (s.frame pa) false p (((s.ea base off (s.frame pa).info.elem).toNat - (s.frame pa).info.base) / 64) = .ok q from htouch,
        show pushPane s pa (s.frame pa) (s.ea base off (s.frame pa).info.elem) q.name acc false = .ok t from hpush,
        show q.block? (((s.ea base off (s.frame pa).info.elem).toNat - (s.frame pa).info.base) / 64) = some k from hblock]
      rfl
    · intro va b hloc htouch hblock hfmt hpush r
      have hok : (!(k.poison && acc) && !isPoison (s.rdV v).desc && !(s.frame pa).info.formatOk (s.rdV v).desc) = false := by
        rcases hfmt with ⟨h1, h2⟩ | h1 | h1
        · simp [h1, h2]
        · simp [h1]
        · simp [show (s.frame pa).info.formatOk (s.rdV v).desc = true from h1]
      apply completes_of_ok
      rw [exec_stGBlk, hb]
      simp only [bind, Except.bind, show paneLoc s (s.frame pa) (s.ea base off 64) 64 = .ok l from hloc,
        not_and_eq_false hrev, Bool.false_eq_true, if_false, paneGate_ok hgate, hopen,
        show touchFor s pa (s.frame pa) (!acc) p (((s.ea base off 64).toNat - (s.frame pa).info.base) / 64) = .ok q from htouch,
        show pushPane s pa (s.frame pa) (s.ea base off 64) q.name acc true = .ok t from hpush,
        show q.block? (((s.ea base off 64).toNat - (s.frame pa).info.base) / 64) = some k from hblock, hok]
      rfl

end Sys2Proof.Machine
end

