-- ==== Sys2Proof/Proofs/IndexedAndSpill.lean ====
section
/-! Indexed access and spill space (R170, R189 to R192): the lanes that a gather fills, the one descriptor of its blocks, and the places of a
spill offset. -/

namespace Sys2Proof.Machine

/-! ### Accesses remembered (R331) -/

/-- Remembering an access changes the trail of the issuing context only. -/
theorem cur_note (s : State) (va n : Nat) (wr : Bool) (lat : Nat) (gr : Bool) :
    ∃ l, (s.note va n wr lat gr).cur = { s.cur with trail := l } := by
  unfold State.note
  split
  · exact ⟨_, State.cur_modCur_same _ _⟩
  · exact ⟨_, rfl⟩

theorem note_iss (s : State) (va n : Nat) (wr : Bool) (lat : Nat) : (s.note va n wr lat).iss = s.iss := by
  obtain ⟨cs, h⟩ := note_only s va n wr lat
  rw [h]

/-- Remembering the accesses of lanes leaves memory, the latch and the registers. -/
theorem noteLanes_spec (e : Nat) (wr : Bool) (lat : Nat) : ∀ (lanes : List (Nat × Loc)) (s : State),
    (s.noteLanes e wr lat lanes).mem = s.mem ∧ (s.noteLanes e wr lat lanes).iss = s.iss ∧
      ∃ l, (s.noteLanes e wr lat lanes).cur = { s.cur with trail := l }
  | [], s => ⟨rfl, rfl, _, rfl⟩
  | x :: xs, s => by
    obtain ⟨hm, hi, l, hc⟩ := noteLanes_spec e wr lat xs (s.note x.2.pa e wr lat)
    obtain ⟨l', hc'⟩ := cur_note s x.2.pa e wr lat false
    exact ⟨hm.trans (note_mem ..), hi.trans (note_iss ..), l, by rw [State.noteLanes, List.foldl_cons]; exact hc.trans (by rw [hc'])⟩

/-! ### The descriptor of a gather (R189) -/

/-- Descriptors that are 0 or one common descriptor give that descriptor. -/
theorem commonDesc_ok {c : Desc} : ∀ (l : List (Nat × Desc)) (acc : Desc), (∀ x ∈ l, x.2 = 0 ∨ x.2 = c) → acc = 0 ∨ acc = c →
    c = 0 ∨ acc = c ∨ (∃ x ∈ l, x.2 = c) → commonDesc l acc = .ok c
  | [], acc, _, hacc, hc => by
    rcases hc with rfl | rfl | ⟨x, hx, -⟩
    · rcases hacc with rfl | rfl <;> rfl
    · rfl
    · cases hx
  | (a, d) :: l, acc, hl, hacc, hc => by
    have htail : ∀ x ∈ l, x.2 = 0 ∨ x.2 = c := fun x hx => hl x (List.mem_cons_of_mem _ hx)
    have hd : d = 0 ∨ d = c := hl (a, d) List.mem_cons_self
    unfold commonDesc
    split
    case isTrue h0 =>
      refine commonDesc_ok l acc htail hacc ?_
      rcases hc with h | h | ⟨x, hx, hxc⟩
      · exact .inl h
      · exact .inr (.inl h)
      · rcases List.mem_cons.1 hx with rfl | hx
        · exact .inl (hxc.symm.trans h0)
        · exact .inr (.inr ⟨x, hx, hxc⟩)
    case isFalse h0 =>
      have hdc := hd.resolve_left h0
      split
      case isTrue => exact commonDesc_ok l d htail hd (.inr (.inl hdc))
      case isFalse hn =>
        have hac := hacc.resolve_left hn
        rw [if_pos (hdc.trans hac.symm)]
        exact commonDesc_ok l acc htail hacc (.inr (.inl hac))

/-- Where a common descriptor is found, every descriptor other than 0 is that one. -/
theorem eq_of_commonDesc_ok : ∀ {l : List (Nat × Desc)} {acc r : Desc}, commonDesc l acc = .ok r →
    (acc = 0 ∨ acc = r) ∧ ∀ x ∈ l, x.2 = 0 ∨ x.2 = r
  | [], acc, r, h => by
    cases h
    exact ⟨.inr rfl, fun x hx => by cases hx⟩
  | (a, d) :: l, acc, r, h => by
    unfold commonDesc at h
    split at h
    case isTrue h0 =>
      obtain ⟨hacc, hl⟩ := eq_of_commonDesc_ok h
      exact ⟨hacc, List.forall_mem_cons.2 ⟨.inl h0, hl⟩⟩
    case isFalse h0 =>
      split at h
      case isTrue hz =>
        obtain ⟨hd, hl⟩ := eq_of_commonDesc_ok h
        exact ⟨.inl hz, List.forall_mem_cons.2 ⟨hd, hl⟩⟩
      case isFalse hz =>
        split at h
        case isTrue he =>
          obtain ⟨hacc, hl⟩ := eq_of_commonDesc_ok h
          exact ⟨hacc, List.forall_mem_cons.2 ⟨by rw [he]; exact hacc, hl⟩⟩
        case isFalse => cases h

/-! ### The lanes of a gather -/

/-- The lanes that are checked are lanes of the list, in its order. -/
theorem gatherLanes_sublist {s : State} {base : Word64} {idx : Block} {e : Nat} {a : Access} {m : Word64} :
    ∀ {ks : List Nat} {lanes : List (Nat × Loc)}, gatherLanes s base idx e a m ks = .ok lanes → (lanes.map (·.1)).Sublist ks
  | [], lanes, h => by
    cases h
    exact List.Sublist.refl _
  | k :: ks, lanes, h => by
    simp only [gatherLanes, gatherLane, bind, Except.bind] at h
    split at h
    · split at h
      · cases h
      · next x hx =>
        split at hx
        · cases hx
        · cases hx
          split at h
          · cases h
          · next xs hxs =>
            cases h
            exact (gatherLanes_sublist hxs).cons_cons k
    · exact (gatherLanes_sublist h).cons k

/-- The block that a gather fills from its lanes. -/
def gathered (mem : List Host.Cell) (e : Nat) (lanes : List (Nat × Loc)) (b : Block) : Block :=
  lanes.foldl (fun b x => setLane (8 * e) b x.1 (getBytes mem x.2.key e)) b

theorem laneOf_gathered (mem : List Host.Cell) (e : Nat) {k : Nat} (hk : k < 512 / (8 * e)) : ∀ (lanes : List (Nat × Loc)) (b : Block),
    (lanes.map (·.1)).Nodup → laneOf (8 * e) (gathered mem e lanes b) k =
      ((lanes.find? fun x => x.1 == k).map fun x => getBytes mem x.2.key e).getD (laneOf (8 * e) b k)
  | [], b, _ => rfl
  | x :: xs, b, hnd => by
    rw [List.map_cons, List.nodup_cons] at hnd
    have hset := laneOf_setLane (8 * e) b x.1 (getBytes mem x.2.key e) hk
    rw [Nat.mod_eq_of_lt (getBytes_lt mem e x.2.key)] at hset
    have ih := laneOf_gathered mem e hk xs (setLane (8 * e) b x.1 (getBytes mem x.2.key e)) hnd.2
    rw [gathered, List.foldl_cons]
    refine ih.trans ?_
    by_cases hx : x.1 = k
    · have hnone : xs.find? (fun y => y.1 == k) = none := by
        rw [List.find?_eq_none]
        intro y hy hyk
        exact hnd.1 (List.mem_map.2 ⟨y, hy, (beq_iff_eq.1 hyk).trans hx.symm⟩)
      rw [hnone, List.find?_cons_of_pos (by simpa using hx), hset, if_pos hx.symm]
      rfl
    · rw [List.find?_cons_of_neg (by simpa using hx), hset, if_neg (Ne.symm hx)]

theorem exec_gath (d : VRegNo) (a : AReg) (b : VRegNo) (dw : Bool) (m : MReg) (s : State) :
    exec (.gath d a b dw m) s = slotDone (do
      let lanes ← gatherLanes s (s.rdA a) (s.rdV b).data (gatherSize dw) .read (s.rdM m) (List.range (64 / gatherSize dw))
      let descs := lanes.map fun (_, l) => (l.key / 64 * 64, s.descAt l.key)
      let s := s.noteLanes (gatherSize dw) false 8 lanes
      if lanes.isEmpty then .ok (s.emit (.keepV (physV s.cur.k.rv d)) 8)
      else
        match commonDesc (descs.filter fun x => !isPoison x.2) 0 with
        | .error (at_, dd) => slotFault s cDesc (w64 at_) (dd.setWidth 64) 0
        | .ok cd =>
          if descs.any fun x => isPoison x.2 then .ok (s.putV d poisonVal 8)
          else
          let data := lanes.foldl (fun b (k, l) => setLane (8 * gatherSize dw) b k (getBytes s.mem l.key (gatherSize dw))) 0
          .ok (s.putPart d (maskKeep (8 * gatherSize dw) (s.rdM m)) ⟨data, cd⟩ 8)) := rfl

/-- The descriptors of the blocks of lanes that are not poisoned, as a gather compares them. -/
def soundDescs (s : State) (lanes : List (Nat × Loc)) : List (Nat × Desc) :=
  (lanes.map fun x => (x.2.key / 64 * 64, s.descAt x.2.key)).filter fun x => !isPoison x.2

theorem mem_soundDescs {s : State} {lanes : List (Nat × Loc)} {y : Nat × Desc} (h : y ∈ soundDescs s lanes) :
    isPoison y.2 = false ∧ ∃ x ∈ lanes, y.2 = s.descAt x.2.key := by
  obtain ⟨hm, hp⟩ := List.mem_filter.1 h
  obtain ⟨x, hx, rfl⟩ := List.mem_map.1 hm
  exact ⟨by simpa using hp, x, hx, rfl⟩

theorem soundDescs_of_mem {s : State} {lanes : List (Nat × Loc)} {x : Nat × Loc} (hx : x ∈ lanes) (hp : isPoison (s.descAt x.2.key) = false) :
    ∃ y ∈ soundDescs s lanes, y.2 = s.descAt x.2.key :=
  ⟨_, List.mem_filter.2 ⟨List.mem_map.2 ⟨x, hx, rfl⟩, by simpa using hp⟩, rfl⟩

section
variable {s : State} {d b : VRegNo} {a : AReg} {dw : Bool} {m : MReg} {lanes : List (Nat × Loc)}

theorem gath_common {c : Desc}
    (hl : gatherLanes s (s.rdA a) (s.rdV b).data (gatherSize dw) .read (s.rdM m) (List.range (64 / gatherSize dw)) = .ok lanes)
    (hne : lanes ≠ []) (hc : commonDesc (soundDescs s lanes) 0 = .ok c) :
    exec (.gath d a b dw m) s = slotDone (if lanes.any fun x => isPoison (s.descAt x.2.key)
      then .ok ((s.noteLanes (gatherSize dw) false 8 lanes).putV d poisonVal 8)
      else .ok ((s.noteLanes (gatherSize dw) false 8 lanes).putPart d (maskKeep (8 * gatherSize dw) (s.rdM m))
        ⟨gathered s.mem (gatherSize dw) lanes 0, c⟩ 8)) := by
  obtain ⟨hmem, -, l, hcur⟩ := noteLanes_spec (gatherSize dw) false 8 lanes s
  have hrd : (s.noteLanes (gatherSize dw) false 8 lanes).rdM m = s.rdM m := by rw [State.rdM, hcur]; rfl
  have hempty : lanes.isEmpty = false := by simpa using hne
  rw [exec_gath, hl]
  simp only [bind, Except.bind, hempty, Bool.false_eq_true, if_false, hrd, hmem, List.any_map, Function.comp_def]
  rw [show (List.filter (fun x => !isPoison x.2) (lanes.map fun x => (x.2.key / 64 * 64, s.descAt x.2.key))) = soundDescs s lanes from rfl, hc]
  rfl

theorem gath_differ {at_ : Nat} {dd : Desc}
    (hl : gatherLanes s (s.rdA a) (s.rdV b).data (gatherSize dw) .read (s.rdM m) (List.range (64 / gatherSize dw)) = .ok lanes)
    (hne : lanes ≠ []) (hc : commonDesc (soundDescs s lanes) 0 = .error (at_, dd)) :
    exec (.gath d a b dw m) s =
      slotDone (slotFault (s.noteLanes (gatherSize dw) false 8 lanes) cDesc (w64 at_) (dd.setWidth 64) 0) := by
  have hempty : lanes.isEmpty = false := by simpa using hne
  rw [exec_gath, hl]
  simp only [bind, Except.bind, hempty, Bool.false_eq_true, if_false]
  rw [show (List.filter (fun x => !isPoison x.2) (lanes.map fun x => (x.2.key / 64 * 64, s.descAt x.2.key))) = soundDescs s lanes from rfl, hc]

end

/-- A scatter on lanes whose descriptors agree with the vector writes them all. -/
theorem scat_agrees {s : State} {d b : VRegNo} {a : AReg} {dw : Bool} {m : MReg} {lanes : List (Nat × Loc)}
    (hl : gatherLanes s (s.rdA a) (s.rdV b).data (gatherSize dw) .write (s.rdM m) (List.range (64 / gatherSize dw)) = .ok lanes)
    (hd : ∀ x ∈ lanes, isPoison (s.descAt x.2.key) = true ∨ s.descAt x.2.key = 0 ∨ (s.rdV d).desc = 0 ∨ s.descAt x.2.key = (s.rdV d).desc) :
    execScat d a b dw m s = slotDone (.ok ((lanes.foldl (fun t x =>
      t.writePart x.2.wkeys (gatherSize dw) (laneOf (8 * gatherSize dw) (s.rdV d).data x.1)) s).noteLanes (gatherSize dw) true 5 lanes)) := by
  unfold execScat
  simp only [hl, bind, Except.bind]
  split
  next x hx =>
    have hmem := hd _ (List.mem_of_find?_eq_some hx)
    have hbad := List.find?_some hx
    simp only [Bool.and_eq_true, Bool.not_eq_true', bne_iff_ne, ne_eq] at hbad
    obtain ⟨⟨⟨hp, hv⟩, h0⟩, hne⟩ := hbad
    rcases hmem with h | h | h | h
    · rw [hp] at h; cases h
    · exact absurd h h0
    · exact absurd h hv
    · exact absurd h hne
  next => rfl

theorem indexedAccess : Statements.IndexedAccess := by
  intro s d b a dw m lanes e checked descs t
  have hmemdesc : ∀ x ∈ lanes, s.descAt x.2.key ∈ descs := fun x hx => List.mem_map.2 ⟨x, hx, rfl⟩
  have hany : lanes.any (fun x => isPoison (s.descAt x.2.key)) = true ↔ ∃ x ∈ descs, isPoison x = true := by
    simp [descs]
  refine ⟨?_, ?_, ?_, ?_, ?_⟩
  · intro hl hne c hall hc
    refine ⟨gathered s.mem e lanes 0, ?_, ?_⟩
    · have hcd : commonDesc (soundDescs s lanes) 0 = .ok c := by
        refine commonDesc_ok _ 0 (fun x hx => ?_) (.inl rfl) ?_
        · obtain ⟨-, y, hy, hyd⟩ := mem_soundDescs hx
          rw [hyd]
          exact (hall _ (hmemdesc y hy)).2
        · rcases hc with h | h
          · exact .inl h
          · obtain ⟨y, hy, rfl⟩ := List.mem_map.1 h
            exact .inr (.inr (soundDescs_of_mem hy (hall _ h).1))
      have hnp : ¬ lanes.any (fun x => isPoison (s.descAt x.2.key)) = true := by
        rw [hany]
        rintro ⟨x, hx, hp⟩
        rw [(hall x hx).1] at hp
        cases hp
      exact completes_of_ok ((gath_common hl hne hcd).trans (congrArg slotDone (if_neg hnp)))
    · intro k hk
      have hnd : (lanes.map (·.1)).Nodup := (gatherLanes_sublist hl).nodup List.nodup_range
      have he : 64 / e = 512 / (8 * e) := by rw [← Nat.div_div_eq_div_mul]
      rw [laneOf_gathered s.mem e (by omega) lanes 0 hnd]
      cases lanes.find? (fun x => x.1 == k) with
      | none => simp [laneOf]
      | some x => rfl
  · rintro hl rfl
    refine completes_of_ok ?_
    have hl' : gatherLanes s (s.rdA a) (s.rdV b).data (gatherSize dw) .read (s.rdM m) (List.range (64 / gatherSize dw)) = .ok [] := hl
    rw [exec_gath, hl']
    rfl
  · rintro hl c hall hp
    have hne : lanes ≠ [] := by
      rintro h
      obtain ⟨x, hx, -⟩ := hp
      obtain ⟨y, hy, -⟩ := List.mem_map.1 hx
      rw [h] at hy
      cases hy
    have hsound : ∀ x ∈ soundDescs s lanes, x.2 = 0 ∨ x.2 = c := by
      intro x hx
      obtain ⟨hs, y, hy, hyd⟩ := mem_soundDescs hx
      refine (hall x.2 (hyd ▸ hmemdesc y hy)).resolve_left ?_
      rw [hs]
      exact Bool.false_ne_true
    obtain ⟨r, hr⟩ : ∃ r, commonDesc (soundDescs s lanes) 0 = .ok r := by
      by_cases hc : ∃ y ∈ soundDescs s lanes, y.2 = c
      · exact ⟨c, commonDesc_ok _ 0 hsound (.inl rfl) (.inr (.inr hc))⟩
      · exact ⟨0, commonDesc_ok _ 0 (fun x hx => .inl ((hsound x hx).resolve_right fun h => hc ⟨x, hx, h⟩)) (.inl rfl) (.inl rfl)⟩
    exact completes_of_ok ((gath_common hl hne hr).trans (congrArg slotDone (if_pos (hany.2 hp))))
  · rintro hl ⟨x, hx, y, hy, hxp, hyp, hx0, hy0, hxy⟩
    obtain ⟨x, hxm, rfl⟩ := List.mem_map.1 hx
    obtain ⟨y, hym, rfl⟩ := List.mem_map.1 hy
    cases hc : commonDesc (soundDescs s lanes) 0 with
    | error p => exact ⟨_, _, (gath_differ hl (List.ne_nil_of_mem hxm) hc).trans (by rw [slotFault, (noteLanes_spec ..).2.1]; rfl)⟩
    | ok r =>
      obtain ⟨-, hall⟩ := eq_of_commonDesc_ok hc
      obtain ⟨x', hx', hxd⟩ := soundDescs_of_mem hxm hxp
      obtain ⟨y', hy', hyd⟩ := soundDescs_of_mem hym hyp
      have hxr := (hall x' hx').resolve_left (hxd ▸ hx0)
      have hyr := (hall y' hy').resolve_left (hyd ▸ hy0)
      exact absurd (hxd.symm.trans (hxr.trans (hyr.symm.trans hyd))) hxy
  · intro hl hd
    exact scat_agrees hl fun x hx => hd _ (hmemdesc x hx)

/-! ### Spill space (R191, R192) -/

section
variable {s : State} {o : Word64} {n : Nat} {acc : Access} {va : Nat}

theorem spillBase_eq (k : KRegs) : k.spillBase = k.spill.toNat % 2 ^ 20 := by
  simp [KRegs.spillBase, bits]

theorem spillPlace_misaligned (h0 : 0 ≤ o.toInt) (hal : o.toNat % n = 0) (hlen : o.toNat + n ≤ s.cur.k.spillLen)
    (hva : va = spadPa s.iss.g 0 + (s.cur.k.spillBase + o.toNat)) (hlt : va < 2 ^ 64) (hin : s.cur.k.spillBase + o.toNat + n ≤ 0xBF000)
    (hmis : va % n ≠ 0) : spillPlace s o n acc = alignFault s (w64 va) n := by
  subst hva
  have hw := Nat.mod_eq_of_lt hlt
  unfold spillPlace
  simp only [bind, Except.bind, if_neg (not_lt.2 h0), hal, ne_eq, not_true_eq_false, if_false, if_pos hlen, w64, BitVec.toNat_ofNat, hw,
    show ¬ latchBase < s.cur.k.spillBase + o.toNat + n from not_lt.2 hin, if_pos hmis]
  rfl

theorem spillPlace_carve (h0 : 0 ≤ o.toInt) (hal : o.toNat % n = 0) (hlen : o.toNat + n ≤ s.cur.k.spillLen)
    (hva : va = spadPa s.iss.g 0 + (s.cur.k.spillBase + o.toNat)) (hlt : va < 2 ^ 64) (hin : s.cur.k.spillBase + o.toNat + n ≤ 0xBF000)
    (hmul : va % n = 0) (hst : s.stallingChan s.iss.g va (va + n) = none) : spillPlace s o n acc = .ok (.carve (windowLoc va) va) := by
  subst hva
  have hw := Nat.mod_eq_of_lt hlt
  unfold spillPlace slotMark
  simp only [bind, Except.bind, if_neg (not_lt.2 h0), hal, ne_eq, not_true_eq_false, if_false, if_pos hlen, w64, BitVec.toNat_ofNat, hw,
    show ¬ latchBase < s.cur.k.spillBase + o.toNat + n from not_lt.2 hin, hmul, hst]

theorem spillPlace_over {l : Loc} (h0 : 0 ≤ o.toInt) (hal : o.toNat % n = 0) (hlen : s.cur.k.spillLen < o.toNat + n)
    (hva : va = (s.cur.k.spovf + w64 (o.toNat - s.cur.k.spillLen)).toNat)
    (hl : slotAccess s ({ main := true } : Reach) acc (w64 va) n = .ok l) : spillPlace s o n acc = .ok (.over l va) := by
  subst hva
  rw [w64, BitVec.ofNat_toNat, BitVec.setWidth_eq] at hl
  unfold spillPlace
  simp only [bind, Except.bind, if_neg (not_lt.2 h0), hal, ne_eq, not_true_eq_false, if_false, if_neg (not_le.2 hlen), hl]

end

section
variable {s : State} {cls : BitVec 2} {d : SReg} {base : AReg} {off : Off9} {l : Loc} {va : Nat}

theorem spill_stops {e : State} (h : spillPlace s (s.ea base off (spillSize cls)) (spillSize cls) .write = .error e) :
    exec (.spill cls d base off) s = slotDone (.error e) := by
  show execSpill cls d base off s = _
  unfold execSpill
  simp only [h, bind, Except.bind]

theorem fill_stops {e : State} (h : spillPlace s (s.ea base off (spillSize cls)) (spillSize cls) .read = .error e) :
    exec (.fill cls d base off) s = slotDone (.error e) := by
  show execFill cls d base off s = _
  unfold execFill
  simp only [h, bind, Except.bind]

theorem spill_carve (h : spillPlace s (s.ea base off (spillSize cls)) (spillSize cls) .write = .ok (.carve l va)) :
    Completes (.spill cls d base off) s ((s.spillTo cls d l).note va (spillSize cls) true 5) := by
  refine completes_of_ok ?_
  show execSpill cls d base off s = _
  unfold execSpill
  simp only [h, bind, Except.bind]

theorem spill_over (h : spillPlace s (s.ea base off (spillSize cls)) (spillSize cls) .write = .ok (.over l va))
    (hp : l.space = .main → l.kind = 0) :
    Completes (.spill cls d base off) s ((s.spillTo cls d l).note va (spillSize cls) true 1024) := by
  refine completes_of_ok ?_
  show execSpill cls d base off s = _
  unfold execSpill
  simp only [h, bind, Except.bind, plainOnly_ok (w64 va) hp]

theorem fill_carve {us : List Upd} (h : spillPlace s (s.ea base off (spillSize cls)) (spillSize cls) .read = .ok (.carve l va))
    (hu : fillUpdates s cls d l va = .ok us) :
    Completes (.fill cls d base off) s
      ((us.foldl (fun t u => t.emit u (if u.accumulates then 1 else 5)) s).note va (spillSize cls) false 5) := by
  refine completes_of_ok ?_
  show execFill cls d base off s = _
  unfold execFill
  simp only [h, hu, bind, Except.bind]

theorem exec_fill_over (h : spillPlace s (s.ea base off (spillSize cls)) (spillSize cls) .read = .ok (.over l va))
    (hs : (s.core s.iss.g).sillUsed < 256) :
    exec (.fill cls d base off) s = slotDone (do
      let s ← needOnTime s l
      let us ← fillUpdates s cls d l va
      .ok ((s.land us 1024 false).note va (spillSize cls) false 1024)) := by
  show execFill cls d base off s = _
  unfold execFill
  simp only [h, bind, Except.bind, needSill_ok hs]

end

theorem spillSpace : Statements.SpillSpace := by
  intro s cls d base off l us va n o len start stored h0 hal
  have hlen : len = s.cur.k.spillLen := rfl
  have hstart : start = s.cur.k.spillBase := (spillBase_eq _).symm
  refine ⟨?_, ?_, ?_⟩
  · intro hin hva hlt hreach hmis
    rw [hstart] at hva hreach
    have hplace {acc : Access} : spillPlace s o n acc = alignFault s (w64 va) n := spillPlace_misaligned h0 hal hin hva hlt hreach hmis
    constructor
    · exact faults_of_slotDone (spill_stops hplace)
    · exact faults_of_slotDone (fill_stops hplace)
  · intro hin hva hlt hreach hmul hst hl
    rw [hstart] at hva hreach
    subst hl
    exact ⟨spill_carve (spillPlace_carve h0 hal hin hva hlt hreach hmul hst),
      fun hu => fill_carve (spillPlace_carve h0 hal hin hva hlt hreach hmul hst) hu⟩
  · intro hover hva
    refine ⟨fun hl hp => spill_over (spillPlace_over h0 hal hover hva hl) hp, fun hl hs => ?_⟩
    have hexec := exec_fill_over (d := d) (spillPlace_over (acc := .read) h0 hal hover hva hl) hs
    refine ⟨fun ht hu => ?_, fun hd hc => ?_⟩
    · refine completes_of_ok (hexec.trans ?_)
      simp only [needOnTime_onTime ht, hu, bind, Except.bind]
      rfl
    · intro u hu
      rcases needOnTime_crowded hd hc with h | h
      · refine .inl (completes_of_ok (hexec.trans ?_))
        rw [h]
        simp only [bind, Except.bind]
        rw [show fillUpdates { s with free := s.free + 1 } cls d l va = .ok us from hu]
        rfl
      · refine .inr (hexec.trans ?_)
        rw [h]
        rfl

/-- Settles O23: the lanes of indexed accesses and the two places of a spill offset. -/
theorem indexedAndSpillAccess : Obligations.IndexedAndSpillAccess := ⟨indexedAccess, spillSpace⟩

end Sys2Proof.Machine
end

