-- ==== Sys2Proof/Proofs/MemoryRules.lean ====
section
/-! Storage (R55 to R58, R68 to R71): bytes written are read back, a placement gives every byte within its reach a place of its own, and of the
results of one issue for one destination the highest slot's joins the queue. -/

namespace Sys2Proof.Machine

/-! ### Bytes written are read back -/

theorem getBytes_putBytes_same {m : List Host.Cell} (h : Memory.wf m) (key n v : Nat) : getBytes (putBytes m key n v) key n = v % 256 ^ n := by
  induction n generalizing m key v with
  | zero => simp [getBytes, Nat.mod_one]
  | succ n ih =>
    have hwf := putByte_wf h key (BitVec.ofNat 8 v)
    have hlow : mget unlistedByte (putBytes (putByte m key (BitVec.ofNat 8 v)) (key + 1) n (v / 256)) key = BitVec.ofNat 8 v := by
      rw [mget_putBytes_outside _ _ _ _ (.inl (Nat.lt_succ_self key)), mget_putByte_self h]
    rw [putBytes, getBytes, hlow, ih hwf, BitVec.toNat_ofNat]
    exact (@Nat.mod_mul 256 (256 ^ n) v).symm.trans (congrArg (v % ·) (pow_succ' 256 n).symm)

/-- Settles O49: by induction on the bytes written, each of which the others leave. -/
theorem writtenBytesReadBack : Obligations.WrittenBytesReadBack :=
  fun m key n v h => ⟨putBytes_wf h key n v, getBytes_putBytes_same h key n v, fun _ hk => mget_putBytes_outside m key n v hk⟩

/-! ### Places -/

/-- The conditions of a valid placement word. -/
theorem geoValid_iff (w : BitVec 32) : geoValid w = true ↔
    geoStacks w ≠ [] ∧ geoCwid w < 8 ∧ geoGran w < 14 ∧ geoBpol w < 4 ∧ geoCrot w < 128 := by
  simp [geoValid, and_assoc]

theorem geoStacks_nodup (w : BitVec 32) : (geoStacks w).Nodup := List.nodup_range.filter _

/-- Rotating the channels of a class keeps them apart: the stride 128 / 2^c apart, fewer than 2^c of them. -/
theorem rotated_inj {c r x y : Nat} (hc : c < 8) (hx : x < 2 ^ c) (hy : y < 2 ^ c)
    (h : (r + x * (128 / 2 ^ c)) % 128 = (r + y * (128 / 2 ^ c)) % 128) : x = y := by
  have hstride : 2 ^ c * (128 / 2 ^ c) = 128 := Nat.mul_div_cancel' (pow_dvd_pow 2 (show c ≤ 7 by omega))
  have hpos : 0 < 128 / 2 ^ c := Nat.pos_of_ne_zero fun h0 => by simp [h0] at hstride
  have hmod : (x * (128 / 2 ^ c)) % 128 = (y * (128 / 2 ^ c)) % 128 := Nat.ModEq.add_left_cancel' r h
  have hlt {z : Nat} (hz : z < 2 ^ c) : z * (128 / 2 ^ c) < 128 :=
    (Nat.mul_lt_mul_of_pos_right hz hpos).trans_eq hstride
  rw [Nat.mod_eq_of_lt (hlt hx), Nat.mod_eq_of_lt (hlt hy)] at hmod
  exact Nat.eq_of_mul_eq_mul_right hpos hmod

/-- A number is given by its quotient, and by the two digits of its remainder. -/
theorem eq_of_digits {q n a b : Nat} (h0 : a / q % n = b / q % n) (h1 : a / q / n = b / q / n) (h2 : a % q = b % q) : a = b := by
  have hq : a / q = b / q := by rw [← Nat.div_add_mod (a / q) n, ← Nat.div_add_mod (b / q) n, h0, h1]
  rw [← Nat.div_add_mod a q, ← Nat.div_add_mod b q, hq, h2]

section
variable {w : BitVec 32} {a b : Nat}

/-- The granules of a channel fill its bytes: the granule size divides them. -/
theorem gran_dvd (hw : geoValid w = true) : 256 * 2 ^ geoGran w ∣ channelBytes := by
  have hg : geoGran w < 14 := ((geoValid_iff w).1 hw).2.2.1
  have h : 256 * 2 ^ geoGran w = 2 ^ (8 + geoGran w) := by norm_num [pow_add]
  rw [h, channelBytes, show 768 * 2 ^ 20 = 3 * 2 ^ 28 by norm_num]
  exact Dvd.dvd.mul_left (pow_dvd_pow 2 (by omega)) 3

theorem place_stack_mem (hw : geoValid w = true) : (place w a).1 ∈ geoStacks w := by
  have hpos : 0 < (geoStacks w).length := List.length_pos_iff.2 ((geoValid_iff w).1 hw).1
  have hlt : a / (256 * 2 ^ geoGran w) % geoChannels w % (geoStacks w).length < (geoStacks w).length := Nat.mod_lt _ hpos
  rw [place, List.getD_eq_getElem _ _ hlt]
  exact List.getElem_mem hlt

theorem place_channel_lt : (place w a).2.1 < 128 := Nat.mod_lt _ (by norm_num)

theorem place_offset_lt (hw : geoValid w = true) (ha : a < geoReach w) : (place w a).2.2 < channelBytes := by
  have hg : 0 < 256 * 2 ^ geoGran w := by positivity
  obtain ⟨n, hn⟩ := gran_dvd hw
  have hq : a / (256 * 2 ^ geoGran w) / geoChannels w < n := by
    rw [Nat.div_div_eq_div_mul]
    refine Nat.div_lt_of_lt_mul (ha.trans_eq ?_)
    rw [geoReach, hn]
    ring
  have hr : a % (256 * 2 ^ geoGran w) < 256 * 2 ^ geoGran w := Nat.mod_lt _ hg
  calc a / (256 * 2 ^ geoGran w) / geoChannels w * (256 * 2 ^ geoGran w) + a % (256 * 2 ^ geoGran w)
    _ < (a / (256 * 2 ^ geoGran w) / geoChannels w + 1) * (256 * 2 ^ geoGran w) := by
      rw [Nat.add_mul, Nat.one_mul]
      exact Nat.add_lt_add_left hr _
    _ ≤ n * (256 * 2 ^ geoGran w) := Nat.mul_le_mul_right _ hq
    _ = channelBytes := by rw [hn, Nat.mul_comm]

/-- Two addresses with one place are one address. -/
theorem place_inj (hw : geoValid w = true) (h : place w a = place w b) : a = b := by
  obtain ⟨hne, hc, -⟩ := (geoValid_iff w).1 hw
  have hlen : 0 < (geoStacks w).length := List.length_pos_iff.2 hne
  have hg : 0 < 256 * 2 ^ geoGran w := by positivity
  have hchan : 0 < geoChannels w := Nat.mul_pos hlen (by positivity)
  simp only [place, Prod.mk.injEq] at h
  obtain ⟨hst, hch, hoff⟩ := h
  have hq := congrArg (· / (256 * 2 ^ geoGran w)) hoff
  have hr := congrArg (· % (256 * 2 ^ geoGran w)) hoff
  simp only [Nat.mul_comm _ (256 * 2 ^ geoGran w), Nat.mul_add_div hg, Nat.div_eq_of_lt (Nat.mod_lt _ hg),
    Nat.add_zero, Nat.mul_add_mod, Nat.mod_mod] at hq hr
  have hk {x : Nat} : x / (256 * 2 ^ geoGran w) % geoChannels w / (geoStacks w).length < 2 ^ geoCwid w :=
    Nat.div_lt_of_lt_mul (Nat.mod_lt _ hchan)
  have hcls := rotated_inj hc hk hk hch
  have hidx : a / (256 * 2 ^ geoGran w) % geoChannels w % (geoStacks w).length = b / (256 * 2 ^ geoGran w) % geoChannels w % (geoStacks w).length := by
    rw [List.getD_eq_getElem _ _ (Nat.mod_lt _ hlen), List.getD_eq_getElem _ _ (Nat.mod_lt _ hlen)] at hst
    exact (geoStacks_nodup w).getElem_inj_iff.1 hst
  have hdig : a / (256 * 2 ^ geoGran w) % geoChannels w = b / (256 * 2 ^ geoGran w) % geoChannels w := by
    rw [← Nat.div_add_mod (a / (256 * 2 ^ geoGran w) % geoChannels w) (geoStacks w).length, hcls, hidx, Nat.div_add_mod]
  exact eq_of_digits hdig hq hr

/-- The storage key names the place: the offset stays below 2^30 and the channel below 128. -/
theorem place_eq_of_mainKey (hw : geoValid w = true) (ha : a < geoReach w) (hb : b < geoReach w) (h : mainKey w a = mainKey w b) :
    place w a = place w b := by
  have hoa := place_offset_lt hw ha
  have hob := place_offset_lt hw hb
  have hca : (place w a).2.1 < 128 := place_channel_lt
  have hcb : (place w b).2.1 < 128 := place_channel_lt
  rw [channelBytes] at hoa hob
  change ((place w a).1 * 128 + (place w a).2.1) * 2 ^ 30 + (place w a).2.2 = ((place w b).1 * 128 + (place w b).2.1) * 2 ^ 30 + (place w b).2.2 at h
  refine Prod.ext ?_ (Prod.ext ?_ ?_) <;> omega

end

/-- Settles O52: the granule's index is read off stack, channel and offset, and the place off the storage key. -/
theorem placementSeparatesBytes : Obligations.PlacementSeparatesBytes := fun _ _ _ hw ha hb =>
  ⟨place_stack_mem hw, place_channel_lt, place_offset_lt hw ha, place_inj hw, fun h => place_inj hw (place_eq_of_mainKey hw ha hb h)⟩

/-! ### Of two slots of one issue the higher wins (R31) -/

/-- Settles O55: the cases of the queue are the cases of the statement. -/
theorem higherSlotWinsAClash : Obligations.HigherSlotWinsAClash := by
  intro k due issue slot u r hr hd mine wclash rival t
  have hrival : clashes u issue slot = rival := by
    funext e
    simp [clashes, rival, hr]
  have hsome : (∃ e ∈ k.inflight, rival e = true) → (k.inflight.filter rival).isEmpty = false := by
    rintro ⟨e, he, hre⟩
    rw [List.isEmpty_eq_false_iff]
    exact List.ne_nil_of_mem (List.mem_filter.2 ⟨he, hre⟩)
  have ht : t = if (k.inflight.filter rival).isEmpty then { k with inflight := k.inflight ++ [mine] }
      else if (k.inflight.filter rival).any fun e => slot < e.slot then { k with inflight := k.inflight ++ [wclash] }
      else { k with inflight := k.inflight.filter (fun e => !rival e) ++ [mine, wclash] } := by
    show k.queue due issue slot u = _
    rw [Ctx.queue, hd, hrival]
    rfl
  refine ⟨fun hnone => ?_, fun hex hlow => ?_, ?_⟩
  · have hempty : (k.inflight.filter rival).isEmpty = true := by
      rw [List.isEmpty_iff, List.filter_eq_nil_iff]
      exact fun e he => by rw [hnone e he]; exact Bool.false_ne_true
    rw [ht, if_pos hempty]
  · have hnot : ¬ ((k.inflight.filter rival).any fun e => decide (slot < e.slot)) = true := by
      rw [List.any_eq_true]
      rintro ⟨e, he, hlt⟩
      obtain ⟨hm, hre⟩ := List.mem_filter.1 he
      exact absurd (of_decide_eq_true hlt) (not_lt.2 (hlow e hm hre).le)
    rw [ht, if_neg (by rw [hsome hex]; exact Bool.false_ne_true), if_neg hnot]
  · rintro ⟨e, he, hre, hlt⟩
    have hany : ((k.inflight.filter rival).any fun e => decide (slot < e.slot)) = true :=
      List.any_eq_true.2 ⟨e, List.mem_filter.2 ⟨he, hre⟩, decide_eq_true hlt⟩
    rw [ht, if_neg (by rw [hsome ⟨e, he, hre⟩]; exact Bool.false_ne_true), if_pos hany]

end Sys2Proof.Machine
end

