-- ==== Sys2Proof/Proofs/StepRules.lean ====
section
/-! Reset and step: the values that reset leaves (R68, R149, R202, R401, R404), the words that the manual prints, and the instruction that a step
executes (R20, R34). -/

namespace Sys2Proof.Machine

/-! ### Reset -/

theorem vget_replicate {α : Type} (n : Nat) (d : α) (i : Nat) : vget d (Vector.replicate n d) i = d := by
  unfold vget
  split
  · simp
  · rfl

/-- After reset every context of a core is as at a context start. -/
theorem reset_ctx (g x : Nat) : ∃ k : Ctx, State.reset.ctx g x = k ∧ k = {} := by
  refine ⟨_, rfl, ?_⟩
  show Core.ctx _ x = _
  unfold Core.ctx
  split <;> simp [State.core, State.reset, State.freshCore]

theorem start_rdS (r : SReg) : ({} : Ctx).rdS r = 0 := by
  unfold Ctx.rdS Ctx.sPhys
  split
  · rfl
  · exact vget_replicate 64 0 _

theorem start_rdA (r : AReg) : ({} : Ctx).rdA r = 0 := by
  unfold Ctx.rdA
  split
  · rfl
  · exact vget_replicate 32 0 _

theorem start_rdV (r : VRegNo) : ({} : Ctx).rdV r = ⟨0, 0⟩ := vget_replicate 32 _ _

theorem start_rdP (r : PReg) : ({} : Ctx).rdP r = decide (r = 0) := by
  revert r
  decide

theorem start_rdM (r : MReg) : ({} : Ctx).rdM r = if r = 0 then BitVec.allOnes 64 else 0 := by
  revert r
  decide

/-- Settles O51: reset is the state of default values, read field by field. -/
theorem resetValues : Obligations.ResetValues := by
  have hgeo (i : Nat) (hi : i ≠ 0) : State.reset.geoWord i = 0 := by
    simp [State.geoWord, State.reset, mget, hi]
  refine ⟨⟨rfl, rfl⟩, rfl, rfl, rfl, rfl, rfl, rfl, rfl, rfl, rfl, rfl, rfl, rfl, rfl, rfl, hgeo, fun _ => ⟨rfl, rfl, rfl, rfl, rfl⟩, fun _ => ⟨rfl, rfl⟩, ?_⟩
  intro g x _
  obtain ⟨k, hk, rfl⟩ := reset_ctx g x
  rw [hk]
  exact ⟨rfl, start_rdS, start_rdA, start_rdP, start_rdM, start_rdV⟩

/-! ### Words of the manual -/

/-- Settles O46: each word is decoded. -/
theorem wordsOfTheManualDecode : Obligations.WordsOfTheManualDecode := by
  unfold Obligations.WordsOfTheManualDecode
  refine ⟨?_, ?_, ?_, ?_, ?_, ?_, ?_, ?_, ?_, ?_, ?_, ?_, ?_, ?_, _, rfl⟩ <;> decide +kernel

/-! ### The slot that a step executes -/

theorem slotInstr_of_ok {n : Nat} {w : SlotWord} {i : Instr} (h : decodeSlot (Slot.ofIndex n) w.word w.ext = .ok i) : slotInstr n w = some i := by
  unfold slotInstr
  rw [h]

theorem slotInstr_of_error {n : Nat} {w : SlotWord} {e : DecodeError} (h : decodeSlot (Slot.ofIndex n) w.word w.ext = .error e) :
    slotInstr n w = none := by
  unfold slotInstr
  rw [h]

theorem afterSlot_eq (t : State) : t.afterSlot = if t.iss.pending = [] then t.finishIssue else t := by
  simp only [State.afterSlot, List.isEmpty_iff]

section
variable {s : State} {n : Nat} {w : SlotWord} {rest : List (Nat × SlotWord)} {i : Instr}

theorem step_of_pending (hp : s.iss.pending = (n, w) :: rest) : step s = stepSlot n w rest s := by
  unfold step
  rw [hp]

theorem step_of_input {inputs : List Instr} (hp : s.iss.pending = []) (hi : s.inputs = i :: inputs) : step s = exec i { s with inputs } := by
  unfold step
  rw [hp, hi]

/-- A slot that is not held back executes in the latch that is turned to it. -/
theorem stepSlot_executes (hd : slotInstr n w = some i) (hh : n ≠ 4 ∨ s.iss.heldBack i = false) :
    stepSlot n w rest s = carryOn (exec i (s.latched n w rest)) State.afterSlot := by
  unfold stepSlot
  rw [hd]
  refine if_neg ?_
  rw [Bool.and_eq_true, beq_iff_eq]
  rintro ⟨h4, hb⟩
  rcases hh with h | h
  · exact h h4
  · rw [h] at hb
    cases hb

theorem stepSlot_heldBack (hd : slotInstr 4 w = some i) (hh : s.iss.heldBack i = true) :
    stepSlot 4 w rest s = .next (s.modIss fun i => { i with pending := rest, undone := i.undone ++ [(4, w)] }).afterSlot := by
  unfold stepSlot
  rw [hd]
  exact if_pos (by rw [hh]; rfl)

/-- The chains kept for slot X. -/
theorem keepChains_eq (i : Iss) (n : Nat) (frames : List (Nat × Frame)) :
    i.keepChains n frames = if n = 4 ∧ i.undone ≠ [] ∧ i.chains = none then some frames else i.chains := by
  simp only [Iss.keepChains, Bool.and_eq_true, beq_iff_eq, Bool.not_eq_true', List.isEmpty_eq_false_iff, Option.isNone_iff_eq_none, and_assoc, ne_eq]

end

/-! ### The word that is placed as the next to execute -/

/-- The first slot whose map takes a word reads it as the instruction found. -/
theorem decodeSlot_of_firstSlotOf {w : Word32} {ext : List Word32} {sl : Slot} {i : Instr} (h : firstSlotOf w ext = some (sl, i)) :
    decodeSlot sl w ext = .ok i := by
  unfold firstSlotOf at h
  split at h <;> cases h <;> assumption

theorem ofIndex_index (sl : Slot) : Slot.ofIndex sl.index = sl := by cases sl <;> rfl

theorem withFetchWord_decodes {s : State} {nbits w : Nat} {i : Instr} (h : decodeTableWord nbits w = some i) : ∃ n v,
    (s.withFetchWord nbits w).iss.pending = [(n, v)] ∧ v.word = BitVec.ofNat 32 w ∧ decodeSlot (Slot.ofIndex n) v.word v.ext = .ok i := by
  refine ⟨_, _, rfl, rfl, ?_⟩
  unfold decodeTableWord at h
  split at h
  · cases h
  · obtain ⟨⟨sl, j⟩, hf, rfl⟩ := Option.map_eq_some_iff.1 h
    have hslot : fetchSlot ⟨BitVec.ofNat 32 w, upperWords nbits w⟩ = sl.index := by
      unfold fetchSlot
      rw [hf]
    rw [hslot, ofIndex_index]
    exact decodeSlot_of_firstSlotOf hf

/-- Settles O47: the three cases of a step, and the slot that a placed word is for. -/
theorem stepRunsDecodedInstruction : Obligations.StepRunsDecodedInstruction := by
  refine ⟨?_, ?_, fun s i rest hp hi => step_of_input hp hi, fun s nbits w i h => withFetchWord_decodes h⟩
  · intro s n w rest i hp hd chains
    constructor
    · intro hh t ht
      have hlatched : s.latched n w rest = { s with iss := { s.iss with slot := n, cur := w, pending := rest, chains } } := by
        rw [State.latched, State.modIss, keepChains_eq]
      rw [step_of_pending hp, stepSlot_executes (slotInstr_of_ok hd) hh, hlatched, ht, ← afterSlot_eq]
      rfl
    · rintro rfl hh t
      rw [step_of_pending hp, stepSlot_heldBack (slotInstr_of_ok hd) hh, afterSlot_eq]
      rfl
  · intro s n w rest e hp hd
    rw [step_of_pending hp]
    unfold stepSlot
    rw [slotInstr_of_error hd]

end Sys2Proof.Machine
end

