-- ==== Sys2Proof/Proofs/Updates.lean ====
section
/-! Updates of one core or context after another: the later one is made on what the earlier one left, and a result that names no register is
queued whatever else the issue does. -/

namespace Sys2Proof.Machine

theorem mset_mset_same {α : Type} (m : List (Nat × α)) (k : Nat) (v w : α) : mset (mset m k v) k w = mset m k w := by
  induction m with
  | nil => simp [mset]
  | cons e m ih =>
    obtain ⟨j, x⟩ := e
    rcases lt_trichotomy k j with h | h | h
    · simp [mset, h]
    · subst h
      simp [mset]
    · have hlt : ¬ k < j := by omega
      have hne : ¬ k = j := by omega
      simp only [mset, hlt, hne, if_false, ih]

theorem State.setCore_setCore (s : State) (g : Nat) (c d : Core) : (s.setCore g c).setCore g d = s.setCore g d := by
  simp only [State.setCore, mset_mset_same]

theorem Core.setCtx_setCtx (c : Core) (x : Nat) (k j : Ctx) : (c.setCtx x k).setCtx x j = c.setCtx x j := by
  unfold Core.setCtx
  split <;> simp

theorem State.modCtx_modCtx (s : State) (g x : Nat) (f h : Ctx → Ctx) : (s.modCtx g x f).modCtx g x h = s.modCtx g x (fun k => h (f k)) := by
  unfold State.modCtx
  rw [State.ctx_setCtx_same]
  unfold State.setCtx
  rw [State.core_setCore_self, State.setCore_setCore, Core.setCtx_setCtx]

theorem State.modCur_modCur (s : State) (f h : Ctx → Ctx) : (s.modCur f).modCur h = s.modCur fun k => h (f k) := State.modCtx_modCtx s _ _ f h

theorem State.modCur_clock (s : State) (f : Ctx → Ctx) (g : Nat) : ((s.modCur f).core g).clock = (s.core g).clock := by
  by_cases h : g = s.iss.g
  · subst h
    rw [State.modCur, State.modCtx, State.setCtx, State.core_setCore_self]
    unfold Core.setCtx
    split <;> rfl
  · rw [State.modCur, State.modCtx, State.setCtx, State.core_setCore_ne _ _ h]

/-- A result that names no register clashes with none (R31). -/
theorem emit_nameless (s : State) {u : Upd} (h : u.dest = none) (hd : u.discarded = false) (lat : Nat) :
    s.emit u lat = s.modCur fun k => { k with inflight := k.inflight ++ [⟨s.iss.issue + lat, s.iss.issue, s.iss.slot, u⟩] } := by
  have hland (l : Landing) : s.landingClash u l = false := by simp [State.landingClash, h]
  have hquiet : s.quietLandings u = s := by
    unfold State.quietLandings
    exact if_neg (by simp [hland])
  have hout : s.outranked u = false := by simp [State.outranked, hland]
  have hqueue (k : Ctx) : (k.inflight.filter (clashes u s.iss.issue s.iss.slot)).isEmpty = true := by
    simp [clashes, h]
  unfold State.emit
  rw [hout, hquiet, if_neg Bool.false_ne_true]
  exact congrArg s.modCur (funext fun k => queue_alone hd (hqueue k) _)

/-- Remembering an access and queueing flags touch different fields of the context. -/
theorem putFlags_note (s : State) (f : BitVec 6) (lat va n : Nat) (wr : Bool) (done : Nat) :
    (s.note va n wr done).putFlags f lat = (s.putFlags f lat).note va n wr done := by
  unfold State.putFlags
  split
  · rfl
  · rw [emit_nameless _ rfl rfl, emit_nameless _ rfl rfl, note_iss]
    unfold State.note
    rw [State.modCur_det, State.modCur_iss, State.modCur_clock]
    split
    · rw [State.modCur_modCur, State.modCur_modCur]
    · rfl

/-- A landing leaves the issue latch. -/
theorem land_iss (s : State) (us : List Upd) (lat : Nat) (late : Bool) : (s.land us lat late).iss = s.iss := by
  obtain ⟨cs, h⟩ := land_only s us lat late none
  rw [h]

end Sys2Proof.Machine
end

