-- ==== Sys2Proof/Proofs/Atomics.lean ====
section
/-! Accumulator instructions (R175 to R178, R193, R194): cells that nothing owns and none of which is poisoned are replaced, and the old word
returns. -/

namespace Sys2Proof.Machine

/-! ### The cells of an access -/

section
variable {s : State} {va : Word64} {size : Nat} {l : Loc}

/-- Cells of a tile that nothing owns are at the location of their access. -/
theorem slotCells_ok (hl : slotAccess s reachAcc .both va size = .ok l) (ho : s.tileOwner l.accOf.1 (l.accOf.2 / 0x2000) = none) :
    slotCells s va size = .ok l := by
  have hn : needUnowned s l.accOf.1 (l.accOf.2 / tileBytes) = .ok () := by
    unfold needUnowned
    rw [show s.tileOwner l.accOf.1 (l.accOf.2 / tileBytes) = none from ho]
  unfold slotCells
  simp only [hl, hn, bind, Except.bind]

theorem slotCells_owned {o : Owner} (hl : slotAccess s reachAcc .both va size = .ok l)
    (ho : s.tileOwner l.accOf.1 (l.accOf.2 / 0x2000) = some o) : slotCells s va size = busyTrap s (l.accOf.2 / 0x2000) o := by
  have hn : needUnowned s l.accOf.1 (l.accOf.2 / tileBytes) = busyTrap s (l.accOf.2 / 0x2000) o := by
    unfold needUnowned
    rw [show s.tileOwner l.accOf.1 (l.accOf.2 / tileBytes) = some o from ho]
    rfl
  unfold slotCells
  simp only [hl, hn, bind, Except.bind]
  rfl

theorem readCells_sound {pa : Nat} {bad : State → State} (h : ∀ c ∈ cellsOf pa size, c ∉ s.poisoned) :
    readCells s pa size bad = .ok (getBytes s.mem pa size) := by
  have hnone : (cellsOf pa size).find? s.poisoned.contains = none :=
    List.find?_eq_none.2 fun c hc hp => h c hc (List.contains_iff_mem.1 hp)
  unfold readCells
  rw [hnone]

theorem readCells_poisoned {pa c : Nat} {bad : State → State} (h : (cellsOf pa size).find? s.poisoned.contains = some c) :
    readCells s pa size bad = slotFault (bad s) cEcc (w64 c) 0 0 := by
  unfold readCells
  rw [h]

end

/-! ### A word replaced (R194) -/

theorem cellUpdate_owned {s : State} {va : Word64} {w : Bool} {l : Loc} {o : Owner} {f : Nat → Nat × BitVec 6}
    (hl : slotAccess s reachAcc .both va (wordSize w) = .ok l) (ho : s.tileOwner l.accOf.1 (l.accOf.2 / 0x2000) = some o) :
    cellUpdate s va w none f = busyTrap s (l.accOf.2 / 0x2000) o := by
  unfold cellUpdate
  simp only [slotCells_owned hl ho, busyTrap, slotTrap, bind, Except.bind]

/-- The state in which a word has been replaced and its write remembered. -/
def State.replaced (s : State) (l : Loc) (va : Word64) (n v : Nat) : State := (s.writeCells l.key n v).note va.toNat n true (cellLatency s l)

section
variable {s : State} {va : Word64} {w : Bool} {l : Loc} {f : Nat → Nat × BitVec 6}
  (hrel : Released s) (hl : slotAccess s reachAcc .both va (wordSize w) = .ok l)
  (ho : s.tileOwner l.accOf.1 (l.accOf.2 / 0x2000) = none) (hc : ∀ c ∈ cellsOf l.key (wordSize w), c ∉ s.poisoned)
include hrel hl ho hc

/-- Without a destination the flags of the replacement are visible at the next issue. -/
theorem cellUpdate_quiet : cellUpdate s va w none f =
    .ok ((s.replaced l va (wordSize w) (f (getBytes s.mem l.key (wordSize w))).1).putFlags (f (getBytes s.mem l.key (wordSize w))).2 1) := by
  unfold cellUpdate
  simp only [slotCells_ok hl ho, needReleased_ok hrel, readCells_sound hc, bind, Except.bind, Option.isSome_none, Bool.false_and, Bool.false_eq_true,
    if_false]
  rfl

/-- With a destination the old word returns, with the flags. -/
theorem cellUpdate_returning (hroom : l.accOf.1 = s.iss.g ∨ (s.core s.iss.g).sillUsed < 256) (r : Nat) : cellUpdate s va w (some r) f =
    .ok (((s.replaced l va (wordSize w) (f (getBytes s.mem l.key (wordSize w))).1).note va.toNat (wordSize w) false (cellLatency s l)).putCell
      (l.accOf.1 == s.iss.g) (.s r (w64 (getBytes s.mem l.key (wordSize w)))) 8 (f (getBytes s.mem l.key (wordSize w))).2) := by
  unfold cellUpdate
  simp only [slotCells_ok hl ho, needReleased_ok hrel, readCells_sound hc, bind, Except.bind, Option.isSome_some, Bool.true_and]
  split
  next h =>
    rw [needSill_ok (hroom.resolve_left (by simpa using h))]
    rfl
  next => rfl

end

/-- Without flags the old word returns at its latency from the own window, and as a landing from another core's. -/
theorem putCell_zero (s : State) (g g' : Nat) (u : Upd) (lat : Nat) :
    s.putCell (g == g') u lat 0 = if g = g' then s.emit u lat else s.land [u] 48 false := by
  unfold State.putCell
  by_cases h : g = g'
  · rw [if_pos (beq_iff_eq.2 h), if_pos h, putFlags_zero]
  · rw [if_neg (mt beq_iff_eq.1 h), if_neg h]
    rfl

theorem putCell_flags (s : State) (g g' : Nat) (u : Upd) (lat : Nat) (fl : BitVec 6) : s.putCell (g == g') u lat fl =
    if g = g' then (s.emit u lat).putFlags fl lat else s.land ([u] ++ if fl = 0 then [] else [.flagsOr fl]) 48 false := by
  unfold State.putCell
  by_cases h : g = g'
  · rw [if_pos (beq_iff_eq.2 h), if_pos h]
  · rw [if_neg (mt beq_iff_eq.1 h), if_neg h]

/-- A whole cell is overwritten, poisoned or not. -/
theorem cellStore_ok {s : State} {va : Word64} {l : Loc} (hrel : Released s) (hl : slotAccess s reachAcc .both va 8 = .ok l)
    (ho : s.tileOwner l.accOf.1 (l.accOf.2 / 0x2000) = none) (x : Word64) : cellStore s va x = .ok (s.replaced l va 8 x.toNat) := by
  unfold cellStore
  simp only [slotCells_ok hl ho, needReleased_ok hrel, bind, Except.bind]
  rfl

/-! ### The instructions on words -/

theorem cellMin_signed (w larger : Bool) (old x : Nat) : cellMin w false false larger old x =
    (if larger then if signedOf (8 * wordSize w) old < signedOf (8 * wordSize w) x then x else old
      else if signedOf (8 * wordSize w) x < signedOf (8 * wordSize w) old then x else old, 0) := by
  cases larger <;> simp [cellMin]

theorem cellMin_unsigned (w larger : Bool) (old x : Nat) : cellMin w false true larger old x = (if larger then max x old else min x old, 0) := by
  cases larger
  · simp only [cellMin, Bool.false_eq_true, if_false, if_true, decide_eq_true_eq]
    rw [Nat.min_def]
    congr 1
    split <;> split <;> omega
  · simp only [cellMin, Bool.false_eq_true, if_false, if_true, decide_eq_true_eq]
    rw [Nat.max_def]
    congr 1
    split <;> split <;> omega

section
variable {s : State} {va : Word64} {w : Bool} {l : Loc} {i : Instr}
  (hrel : Released s) (hl : slotAccess s reachAcc .both va (wordSize w) = .ok l)
  (ho : s.tileOwner l.accOf.1 (l.accOf.2 / 0x2000) = none) (hc : ∀ c ∈ cellsOf l.key (wordSize w), c ∉ s.poisoned)
include hrel hl ho hc

/-- An instruction without a destination that raises no flag completes with the word replaced. -/
theorem completes_quiet {f : Nat → Nat × BitVec 6} (h : exec i s = slotDone (cellUpdate s va w none f)) {v : Nat}
    (hf : f (getBytes s.mem l.key (wordSize w)) = (v, 0)) : Completes i s (s.replaced l va (wordSize w) v) := by
  refine completes_of_ok (h.trans ?_)
  rw [cellUpdate_quiet hrel hl ho hc, hf, putFlags_zero]

/-- An instruction with a destination completes with the word replaced and the old one on its way back. -/
theorem completes_returning (hroom : l.accOf.1 = s.iss.g ∨ (s.core s.iss.g).sillUsed < 256) {f : Nat → Nat × BitVec 6} {d : SReg}
    (h : exec i s = slotDone (cellUpdate s va w (some (s.destS d)) f)) {v : Nat} (hf : f (getBytes s.mem l.key (wordSize w)) = (v, 0)) :
    let t := (s.replaced l va (wordSize w) v).note va.toNat (wordSize w) false (cellLatency s l)
    let u : Upd := .s (s.destS d) (w64 (getBytes s.mem l.key (wordSize w)))
    Completes i s (if l.accOf.1 = s.iss.g then t.emit u 8 else t.land [u] 48 false) := by
  refine completes_of_ok (h.trans ?_)
  rw [cellUpdate_returning hrel hl ho hc hroom, hf, putCell_zero]

end

/-- A load of cells returns what they hold. -/
theorem exec_ald (d : SReg) (base : AReg) (off : Off9) (w blk : Bool) (s : State) :
    exec (.ald d base off w blk) s = slotDone (do
      let n := if blk then 64 else wordSize w
      let va := s.ea base off n
      let l ← slotCells s va n
      let own := l.accOf.1 == s.iss.g
      if !own then needSill s
      let block (v : VVal) : Upd := .v (physV s.cur.k.rv (d.setWidth 5)) v
      let old ← readCells s l.key n fun s => s.putCell own (if blk then block poisonVal else .s (s.destS d) 0) 6
      let u : Upd := if blk then block ⟨BitVec.ofNat 512 old, 0⟩ else .s (s.destS d) (w64 old)
      .ok ((s.note va.toNat n false (if own then 6 else 48)).putCell own u 6)) := rfl

/-- The bytes that a load of cells asks for, and what it delivers. -/
def aldSize (w blk : Bool) : Nat := if blk then 64 else wordSize w

def State.aldUpdate (s : State) (d : SReg) (blk : Bool) (old : Nat) : Upd :=
  if blk then .v (physV s.cur.k.rv (d.setWidth 5)) ⟨BitVec.ofNat 512 old, 0⟩ else .s (s.destS d) (w64 old)

section
variable {s : State} {base : AReg} {off : Off9} {w blk : Bool} {l : Loc} (d : SReg)
  (hl : slotAccess s reachAcc .both (s.ea base off (aldSize w blk)) (aldSize w blk) = .ok l)
  (ho : s.tileOwner l.accOf.1 (l.accOf.2 / 0x2000) = none)
  (hroom : l.accOf.1 = s.iss.g ∨ (s.core s.iss.g).sillUsed < 256)
include hl ho hroom

/-- With room in the sill a load of cells goes on to its read half. -/
theorem exec_ald_of_room : exec (.ald d base off w blk) s = slotDone (do
      let block (v : VVal) : Upd := .v (physV s.cur.k.rv (d.setWidth 5)) v
      let old ← readCells s l.key (aldSize w blk) fun s =>
        s.putCell (l.accOf.1 == s.iss.g) (if blk then block poisonVal else .s (s.destS d) 0) 6
      .ok ((s.note (s.ea base off (aldSize w blk)).toNat (aldSize w blk) false (if l.accOf.1 = s.iss.g then 6 else 48)).putCell
        (l.accOf.1 == s.iss.g) (s.aldUpdate d blk old) 6)) := by
  rw [exec_ald]
  simp only [bind, Except.bind]
  rw [show slotCells s (s.ea base off (if blk then 64 else wordSize w)) (if blk then 64 else wordSize w) = .ok l from slotCells_ok hl ho]
  simp only [beq_iff_eq]
  split
  next h =>
    rw [needSill_ok (hroom.resolve_left (by simpa using h))]
    rfl
  next => rfl

theorem completes_ald (hc : ∀ c ∈ cellsOf l.key (aldSize w blk), c ∉ s.poisoned) :
    let t := s.note (s.ea base off (aldSize w blk)).toNat (aldSize w blk) false (if l.accOf.1 = s.iss.g then 6 else 48)
    let u := s.aldUpdate d blk (getBytes s.mem l.key (aldSize w blk))
    Completes (.ald d base off w blk) s (if l.accOf.1 = s.iss.g then t.emit u 6 else t.land [u] 48 false) := by
  refine completes_of_ok ((exec_ald_of_room d hl ho hroom).trans ?_)
  simp only [readCells_sound hc, bind, Except.bind, putCell_zero]

end

theorem atomics : Statements.Atomics := by
  intro s d b a base off w l n va x own old si wrote back ready room hrel
  have hn : n = wordSize w := rfl
  have hlow : lowWord w (s.rdS d) = x := rfl
  refine ⟨?_, ?_, ?_, ?_⟩
  · intro fl hl ho hc
    cases w
    · have hx : x = (s.rdS d).toNat := Nat.mod_eq_of_lt (s.rdS d).isLt
      rw [hx]
      exact completes_of_ok (congrArg slotDone (cellStore_ok hrel hl ho (s.rdS d)))
    · exact completes_quiet (w := true) hrel hl ho (hc rfl) (i := .awrOw d base off true fl false) (f := fun _ => (lowWord true (s.rdS d), 0)) rfl rfl
  · rintro ⟨hl, ho, hc⟩
    exact completes_quiet hrel hl ho hc (i := .awrAdd d base off w false false) (f := fun old => cellAdd w false old (lowWord w (s.rdS d))) rfl rfl
  · rintro ⟨hl, ho, hc⟩ hroom
    refine ⟨?_, ?_, ?_, ?_, ?_, ?_, ?_, ?_, ?_⟩
    · exact completes_returning hrel hl ho hc hroom (i := .axadd d base off w false) (f := fun old => cellAdd w false old (lowWord w (s.rdS d))) rfl rfl
    · exact completes_returning hrel hl ho hc hroom (i := .axchg d base off w) (f := fun _ => (lowWord w (s.rdS d), 0)) rfl rfl
    · exact completes_returning hrel hl ho hc hroom (i := .amin d base off w false false)
        (f := fun old => cellMin w false false false old (lowWord w (s.rdS d))) rfl (cellMin_signed w false _ _)
    · exact completes_returning hrel hl ho hc hroom (i := .amin d base off w false true)
        (f := fun old => cellMin w false true false old (lowWord w (s.rdS d))) rfl (cellMin_unsigned w false _ _)
    · exact completes_returning hrel hl ho hc hroom (i := .amax d base off w false false)
        (f := fun old => cellMin w false false true old (lowWord w (s.rdS d))) rfl (cellMin_signed w true _ _)
    · exact completes_returning hrel hl ho hc hroom (i := .amax d base off w false true)
        (f := fun old => cellMin w false true true old (lowWord w (s.rdS d))) rfl (cellMin_unsigned w true _ _)
    · exact completes_returning hrel hl ho hc hroom (i := .aand d base off w) (f := fun old => (old &&& lowWord w (s.rdS d), 0)) rfl rfl
    · exact completes_returning hrel hl ho hc hroom (i := .aor d base off w) (f := fun old => (old ||| lowWord w (s.rdS d), 0)) rfl rfl
    · exact completes_ald (blk := false) d hl ho hroom hc
  · rintro ⟨hl, ho, hc⟩ hroom
    exact completes_returning hrel hl ho hc hroom (i := .acas d a b w)
      (f := fun old => (if old = lowWord w (s.rdS d) then lowWord w (s.rdS b) else old, 0)) rfl rfl

/-- What a load of cells delivers where one of them is poisoned. -/
def State.aldPoison (s : State) (d : SReg) (blk : Bool) : Upd :=
  if blk then .v (physV s.cur.k.rv (d.setWidth 5)) poisonVal else .s (s.destS d) 0

theorem emit_or_land_iss (s : State) (g g' : Nat) (u : Upd) (lat : Nat) : (if g = g' then s.emit u lat else s.land [u] 48 false).iss = s.iss := by
  split
  · exact emit_iss s u lat
  · exact land_iss s [u] 48 false

/-- A load that meets a poisoned cell delivers poison and ends the launch (R178). -/
theorem ald_poisoned {s : State} {base : AReg} {off : Off9} {w blk : Bool} {l : Loc} {c : Nat} (d : SReg)
    (hl : slotAccess s reachAcc .both (s.ea base off (aldSize w blk)) (aldSize w blk) = .ok l)
    (ho : s.tileOwner l.accOf.1 (l.accOf.2 / 0x2000) = none) (hroom : l.accOf.1 = s.iss.g ∨ (s.core s.iss.g).sillUsed < 256)
    (hc : (cellsOf l.key (aldSize w blk)).find? s.poisoned.contains = some c) :
    exec (.ald d base off w blk) s = .next
      ((if l.accOf.1 = s.iss.g then s.emit (s.aldPoison d blk) 6 else s.land [s.aldPoison d blk] 48 false).raise {
        code := cEcc, gcore := s.iss.g, ctx := s.iss.x, rep := s.iss.rep, slot := s.iss.slot, pc := s.iss.pc, w2 := w64 c }) := by
  refine (exec_ald_of_room d hl ho hroom).trans ?_
  simp only [readCells_poisoned hc, bind, Except.bind, slotFault, slotDone, putCell_zero]
  simp only [emit_or_land_iss]
  rfl

/-! ### Blocks of words (R194) -/

/-- The words of a block, put together again. -/
theorem joinLanes_words (w : Bool) (b : Block) :
    joinLanes (8 * wordSize w) ((List.range (512 / (8 * wordSize w))).map (laneOf (8 * wordSize w) b)) = b.toNat := by
  have h := joinLanes_digits (8 * wordSize w) (512 / (8 * wordSize w)) b.toNat
  have hall : 8 * wordSize w * (512 / (8 * wordSize w)) = 512 := by cases w <;> rfl
  rw [hall, Nat.mod_eq_of_lt b.isLt] at h
  exact h

section
variable {s : State} {d : SReg} {va : Word64} {w fl add : Bool} {l : Loc}
  (hrel : Released s) (hl : slotAccess s reachAcc .both va 64 = .ok l) (ho : s.tileOwner l.accOf.1 (l.accOf.2 / 0x2000) = none)
include hrel hl ho

/-- What a block store leaves in its words, where its source is sound. -/
theorem awrBlock_ok (hp : isPoison (s.rdV (d.setWidth 5)).desc = false) (hd : awrDescOk w (s.rdV (d.setWidth 5)).desc = true)
    (hc : add = true → ∀ c ∈ cellsOf l.key 64, c ∉ s.poisoned) {f : Nat → Nat × BitVec 6}
    (hf : ∀ k, awrLane w fl add (s.rdV (d.setWidth 5))
      ((if add then getBytes s.mem l.key 64 else 0) / 2 ^ (8 * wordSize w * k) % 2 ^ (8 * wordSize w)) k = f k) :
    awrBlock s d va w fl add = .ok (((s.writeCells l.key 64
      (joinLanes (8 * wordSize w) ((List.range (512 / (8 * wordSize w))).map fun k => (f k).1))).putFlags
      (((List.range (512 / (8 * wordSize w))).map fun k => (f k).2).foldl (· ||| ·) 0) 1).note va.toNat 64 true (cellLatency s l)) := by
  have hread : (if add = true then readCells s l.key 64 id else .ok 0) = .ok (if add then getBytes s.mem l.key 64 else 0) := by
    cases add
    · rfl
    · rw [if_pos rfl, readCells_sound (hc rfl)]
      rfl
  unfold awrBlock
  simp only [slotCells_ok hl ho, needReleased_ok hrel, hp, hd, hread, hf, bind, Except.bind, Bool.false_eq_true, Bool.not_true, if_false, List.map_map,
    Function.comp_def]

theorem awrBlock_poison (hp : isPoison (s.rdV (d.setWidth 5)).desc = true) : awrBlock s d va w fl add = poisonCells s l.key 64 := by
  unfold awrBlock
  simp only [slotCells_ok hl ho, needReleased_ok hrel, hp, bind, Except.bind, if_true]
  rfl

end

theorem awrDescOk_of {w : Bool} {d : Desc} (h : d = 0 ∨ d = mkDesc (if w then 9 else 10) 0 ∨ descFmt d = (if w then 2 else 1)) :
    awrDescOk w d = true := by
  simpa [awrDescOk, or_assoc] using h

theorem exec_ast (d : VRegNo) (base : AReg) (off : Off9) (s : State) :
    exec (.ast d base off) s = slotDone (do
      let x := s.rdV d
      let code := descFmt x.desc
      let va := s.ea base off 8
      if !isPoison x.desc && (code == 0 || 10 < code) then descFault s x.desc
      let n := if isPoison x.desc then 1 else 512 / codeBits code
      let l ← slotCells s va (8 * n)
      needReleased s
      if isPoison x.desc then poisonCells s l.key (8 * n)
      let cells := (List.range n).map fun k => roundF fpE 0 false (laneNum code x k)
      .ok (((s.writeCells l.key (8 * n) (joinLanes 64 (cells.map (·.1)))).putFlags
        ((cells.map (·.2)).foldl (· ||| ·) 0) 1).note va.toNat (8 * n) true (cellLatency s l))) := rfl

/-- Elements of a sound source are stored as E cells. -/
theorem completes_ast {s : State} {d : VRegNo} {base : AReg} {off : Off9} {l : Loc} (hrel : Released s)
    (h1 : 1 ≤ descFmt (s.rdV d).desc) (h10 : descFmt (s.rdV d).desc ≤ 10)
    (hl : slotAccess s reachAcc .both (s.ea base off 8) (8 * (512 / codeBits (descFmt (s.rdV d).desc))) = .ok l)
    (ho : s.tileOwner l.accOf.1 (l.accOf.2 / 0x2000) = none) :
    let m := 512 / codeBits (descFmt (s.rdV d).desc)
    let cells := (List.range m).map fun k => roundF fpE 0 false (laneNum (descFmt (s.rdV d).desc) (s.rdV d) k)
    Completes (.ast d base off) s (((s.writeCells l.key (8 * m) (joinLanes 64 (cells.map (·.1)))).putFlags
      ((cells.map (·.2)).foldl (· ||| ·) 0) 1).note (s.ea base off 8).toNat (8 * m) true (cellLatency s l)) := by
  have hp : isPoison (s.rdV d).desc = false := isPoison_eq_false.2 (by omega)
  have hcode : (descFmt (s.rdV d).desc == 0 || decide (10 < descFmt (s.rdV d).desc)) = false := by
    simp only [Bool.or_eq_false_iff, beq_eq_false_iff_ne, decide_eq_false_iff_not]
    omega
  refine completes_of_ok ?_
  rw [exec_ast]
  simp only [hp, hcode, bind, Except.bind, Bool.and_false, Bool.false_eq_true, if_false, slotCells_ok hl ho, needReleased_ok hrel]

/-- The argument of the accumulator-busy trap ends with the tile. -/
theorem busyArg_tile (o : Owner) (t : Nat) : (w64 (flag o.task 9 + o.ctx * 2 ^ 7 + o.slot * 2 ^ 4 + t)).toNat % 16 = t % 16 := by
  have hflag : flag o.task 9 % 16 = 0 := by cases o.task <;> rfl
  rw [w64, BitVec.toNat_ofNat, Nat.mod_mod_of_dvd _ (by norm_num)]
  omega

theorem atomicBlocks : Statements.AtomicBlocks := by
  intro s d v base off w fl l n va ve own x lat f hrel
  refine ⟨fun hl ho => ⟨?_, ?_, ?_, ?_⟩, ?_, ?_, ?_⟩
  · intro hp hd
    refine completes_of_ok ((congrArg slotDone (awrBlock_ok (d := d) (w := w) (fl := false) (add := false) hrel hl ho hp (awrDescOk_of hd) (by simp)
      (f := fun k => (laneOf (8 * wordSize w) x.data k, 0)) fun k => rfl)).trans ?_)
    rw [joinLanes_words, foldl_or_zero, putFlags_zero]
    rfl
  · intro hp fl
    exact congrArg slotDone (awrBlock_poison (d := d) (w := w) (fl := fl) (add := false) hrel hl ho hp)
  · intro hc hroom
    exact completes_ald (blk := true) d hl ho hroom hc
  · intro c hc hroom u
    exact ald_poisoned (blk := true) d hl ho hroom hc
  · intro hl ho hc old sum r
    refine completes_of_ok ((congrArg slotDone (cellUpdate_quiet (w := w) (f := fun old => cellAdd w true old (lowWord w (s.rdS d)))
      hrel hl ho hc)).trans ?_)
    exact congrArg (fun t => slotDone (.ok t)) (putFlags_note _ _ _ _ _ _ _)
  · intro o hl ho
    exact ⟨_, congrArg slotDone (cellUpdate_owned (w := w) hl ho), busyArg_tile o _⟩
  · intro y vw c h1 h10 m hl ho
    refine ⟨_, _, completes_ast hrel h1 h10 hl ho, fun k hk => ?_⟩
    rw [joinLanes_digit, List.map_map, List.getD_eq_getElem _ _ (by simpa using hk), List.getElem_map, List.getElem_range]
    rfl

/-! ### Floating-point words and block additions (R194, R236) -/

section
variable {s : State} {va : Word64} {w : Bool} {l : Loc} {i : Instr}
  (hrel : Released s) (hl : slotAccess s reachAcc .both va (wordSize w) = .ok l)
  (ho : s.tileOwner l.accOf.1 (l.accOf.2 / 0x2000) = none) (hc : ∀ c ∈ cellsOf l.key (wordSize w), c ∉ s.poisoned)
include hrel hl ho hc

/-- An instruction with a destination completes with the word replaced, and the old one on its way back with the flags. -/
theorem completes_returning_flags (hroom : l.accOf.1 = s.iss.g ∨ (s.core s.iss.g).sillUsed < 256) {f : Nat → Nat × BitVec 6} {d : SReg}
    (h : exec i s = slotDone (cellUpdate s va w (some (s.destS d)) f)) {r : Nat × BitVec 6} (hf : f (getBytes s.mem l.key (wordSize w)) = r) :
    let t := (s.replaced l va (wordSize w) r.1).note va.toNat (wordSize w) false (cellLatency s l)
    let u : Upd := .s (s.destS d) (w64 (getBytes s.mem l.key (wordSize w)))
    Completes i s (if l.accOf.1 = s.iss.g then (t.emit u 8).putFlags r.2 8 else t.land ([u] ++ if r.2 = 0 then [] else [.flagsOr r.2]) 48 false) := by
  refine completes_of_ok (h.trans ?_)
  rw [cellUpdate_returning hrel hl ho hc hroom, hf, putCell_flags]

end

theorem lanes_of_words (w : Bool) : 512 / (8 * wordSize w) = 64 / wordSize w := by cases w <;> rfl

theorem cellAdd_float (w : Bool) (old x : Nat) : cellAdd w true old x =
    ((roundF (wordFmt w) 0 false (fAdd 0 (decodeF (wordFmt w) old) (decodeF (wordFmt w) x)).1).1,
      (fAdd 0 (decodeF (wordFmt w) old) (decodeF (wordFmt w) x)).2 |||
        (roundF (wordFmt w) 0 false (fAdd 0 (decodeF (wordFmt w) old) (decodeF (wordFmt w) x)).1).2) := rfl

theorem cellMin_float (w u larger : Bool) (old x : Nat) : cellMin w true u larger old x =
    ((roundF (wordFmt w) 0 false ((if larger then fMax else fMin) (decodeF (wordFmt w) old) (decodeF (wordFmt w) x)).1).1,
      ((if larger then fMax else fMin) (decodeF (wordFmt w) old) (decodeF (wordFmt w) x)).2) := rfl

/-- A word that is added as a float. -/
theorem awrLane_add_float (w : Bool) (x : VVal) (old k : Nat) : awrLane w true true x old k =
    ((roundF (wordFmt w) 0 false (fAdd 0 (decodeF (wordFmt w) old) (laneNum (if w then 2 else 1) x k)).1).1,
      (fAdd 0 (decodeF (wordFmt w) old) (laneNum (if w then 2 else 1) x k)).2 |||
        (roundF (wordFmt w) 0 false (fAdd 0 (decodeF (wordFmt w) old) (laneNum (if w then 2 else 1) x k)).1).2) := rfl

/-- A word that is written with its scale. -/
theorem awrLane_write_float (w : Bool) (x : VVal) (old k : Nat) : awrLane w true false x old k =
    if scaleOf x.desc = 0 then (laneOf (8 * wordSize w) x.data k, 0) else roundF (wordFmt w) 0 false (laneNum (if w then 2 else 1) x k) := by
  unfold awrLane
  by_cases h : scaleOf x.desc = 0
  · simp [h]
  · simp [h]

theorem floatAtomics : Statements.FloatAtomics := by
  intro s d base off w u l n f va vb own lat word x back hrel
  constructor
  · intro hl ho hc hroom
    refine ⟨?_, ?_, ?_⟩
    · intro sum r
      have h := completes_returning_flags hrel hl ho hc hroom (i := .axadd d base off w true)
        (f := fun old => cellAdd w true old (lowWord w (s.rdS d))) rfl (cellAdd_float w _ _)
      exact h
    · intro r
      have h := completes_returning_flags hrel hl ho hc hroom (i := .amin d base off w true u)
        (f := fun old => cellMin w true u false old (lowWord w (s.rdS d))) rfl (cellMin_float w u false _ _)
      exact h
    · intro r
      have h := completes_returning_flags hrel hl ho hc hroom (i := .amax d base off w true u)
        (f := fun old => cellMin w true u true old (lowWord w (s.rdS d))) rfl (cellMin_float w u true _ _)
      exact h
  · intro y hl ho hc hp hd old out sum r
    have hok := awrDescOk_of hd
    have hm : 512 / (8 * wordSize w) = 64 / n := lanes_of_words w
    refine ⟨?_, ?_, ?_⟩
    · refine completes_of_ok ((congrArg slotDone (awrBlock_ok (d := d) (w := w) (fl := false) (add := true) hrel hl ho hp hok (fun _ => hc)
        (f := fun k => ((old k + laneOf (8 * n) y.data k) % 2 ^ (8 * n), 0)) fun k => rfl)).trans ?_)
      rw [foldl_or_zero, hm]
      rfl
    · refine completes_of_ok ((congrArg slotDone (awrBlock_ok (d := d) (w := w) (fl := true) (add := true) hrel hl ho hp hok (fun _ => hc)
        (f := fun k => ((r k).1, (sum k).2 ||| (r k).2)) fun k => awrLane_add_float w y _ k)).trans ?_)
      rw [hm]
      rfl
    · intro z
      refine completes_of_ok ((congrArg slotDone (awrBlock_ok (d := d) (w := w) (fl := true) (add := false) hrel hl ho hp hok (by simp)
        (f := z) fun k => awrLane_write_float w y _ k)).trans ?_)
      rw [hm]
      rfl

/-- Settles O24: the accumulator instructions on words, on blocks and in floating point. -/
theorem accumulatorInstructions : Obligations.AccumulatorInstructions := ⟨atomics, atomicBlocks, floatAtomics⟩

end Sys2Proof.Machine
end

