-- ==== Sys2Proof/Proofs/OrderedAccesses.lean ====
section
/-! Ordered accesses outside deterministic launches (R316, R323, R326 to R330): each waits first, and acts once its wait has been granted. -/

namespace Sys2Proof.Machine

/-! ### The waits -/

section
variable {s : State} (hdet : s.det = false)
include hdet

theorem waitFor_waits (hg : s.granted = false) (n : Nat) (c : WaitCond) : waitFor s n c = slotWait s c := by
  unfold waitFor
  rw [hg, hdet]
  rfl

omit hdet in
theorem waitFor_granted (hg : s.granted = true) (n : Nat) (c : WaitCond) : waitFor s n c = .ok () := by
  unfold waitFor
  rw [hg]
  rfl

/-- An SC access that has not been granted waits for the wheel. -/
theorem scAccess_waits (hp : s.iss.padded = none) (hg : s.granted = false) (lat : Nat) (act : State → Except State (State × VVal))
    (fin : State → VVal → State) : scAccess s lat act fin = slotWait s (.wheel s.sysScope) := by
  unfold scAccess
  cases s.iss.reply <;> simp only [hp, hg, hdet, Bool.false_and, Bool.false_eq_true, if_false]

omit hdet in
/-- An SC access that has been granted acts. -/
theorem scAccess_acts (hp : s.iss.padded = none) (hg : s.granted = true) {lat : Nat} {act : State → Except State (State × VVal)}
    {fin : State → VVal → State} {t : State} {v : VVal} (h : act s = .ok (t, v)) (ht : t.iss.padded = none) :
    scAccess s lat act fin = .ok (fin t v) := by
  unfold scAccess
  cases s.iss.reply <;> simp only [hp, hg, h, ht, bind, Except.bind, if_true]

end

theorem untaped_ok {s : State} {l : Loc} {va : Word64} (h : ((s.reverse || s.cur.k.tapeOn) && s.differentiable l va.toNat) = false) :
    untaped s l va = .ok () := by
  unfold untaped
  rw [h]
  rfl

theorem fenceEnd_eq (a len : Word64) : fenceEnd a len = min (2 ^ 64 - 1) (a.toNat + len.toNat) := by
  unfold fenceEnd
  split <;> omega

/-! ### A loaded scalar through its wait -/

/-- A scalar read has at most as many bytes as were asked for. -/
theorem slotScalar_lt {s : State} {l : Loc} {va n x : Nat} {fl : BitVec 6} {bad : Bool} (h : slotScalar s l va n = .ok (x, fl, bad)) :
    x < 2 ^ (8 * n) := by
  simp only [slotScalar, bind, Except.bind] at h
  split at h
  · cases h
  · cases h
    exact Nat.mod_lt _ (Nat.two_pow_pos _)

theorem heldScalar_poison (x : Nat) (fl : BitVec 6) (bad : Bool) : isPoison (heldScalar (x, fl, bad)).desc = bad := by cases bad <;> rfl

section
variable {x : Nat} {fl : BitVec 6} {bad : Bool} (hx : x < 2 ^ 64)
include hx

theorem heldScalar_toNat : (heldScalar (x, fl, bad)).data.toNat = x + fl.toNat * 2 ^ 64 := by
  have hfl : fl.toNat < 2 ^ 6 := fl.isLt
  refine (BitVec.toNat_ofNat _ _).trans (Nat.mod_eq_of_lt ?_)
  calc x + fl.toNat * 2 ^ 64 < 2 ^ 128 := by omega
    _ < 2 ^ 512 := Nat.pow_lt_pow_right (by norm_num) (by norm_num)

theorem heldScalar_value : (heldScalar (x, fl, bad)).data.toNat % 2 ^ 64 = x := by
  rw [heldScalar_toNat hx]
  omega

theorem heldScalar_flags : (heldScalar (x, fl, bad)).data.extractLsb' 64 6 = fl := by
  have hfl : fl.toNat < 2 ^ 6 := fl.isLt
  apply BitVec.eq_of_toNat_eq
  rw [BitVec.extractLsb'_toNat, heldScalar_toNat hx, Nat.shiftRight_eq_div_pow]
  omega

end

/-- An access is at most a word. -/
theorem sizeBits_le (sz : BitVec 2) : sizeBits sz ≤ 64 := by
  rcases sizeBits_cases sz with h | h | h | h <;> omega

/-! ### The instructions -/

theorem exec_ldAcq (d : SReg) (base : AReg) (off : Off9) (sz : BitVec 2) (sx : Bool) (s : State) :
    exec (.ldAcq d base off sz sx) s = slotDone (do
      let n := sizeBytes sz
      let va := s.ea base off n
      let l ← slotAccess s (reachOrdered s.det false) .read va n
      match windowPort l.space with
      | some (q, o) => windowAcquire s d va q o n sx
      | none => do
        waitFor s ((s.core s.iss.g).clock + s.latencyOf s.iss.g va.toNat l) .performed
        let s ← needOnTime s l
        let (v, fl, bad) ← slotScalar s l va.toNat n
        .ok (s.putLoaded d sx n v fl bad)) := rfl

theorem exec_ldSc (d : SReg) (base : AReg) (off : Off9) (sz : BitVec 2) (sx : Bool) (s : State) :
    exec (.ldSc d base off sz sx) s = slotDone (do
      let n := sizeBytes sz
      let va := s.ea base off n
      let l ← slotAccess s (reachOrdered s.det true) .read va n
      scAccess s (s.latencyOf s.iss.g va.toNat l)
        (fun s => do
          let s ← needOnTime s l
          let r ← slotScalar s l va.toNat n
          .ok (s, heldScalar r))
        fun s b => s.putLoaded d sx n (b.data.toNat % 2 ^ 64) (b.data.extractLsb' 64 6) (isPoison b.desc)) := rfl

theorem exec_stRel (d : SReg) (base : AReg) (off : Off9) (sz : BitVec 2) (s : State) :
    exec (.stRel d base off sz) s = slotDone (do
      let n := sizeBytes sz
      let va := s.ea base off n
      let l ← slotAccess s (reachOrdered s.det false) .write va n
      match windowPort l.space with
      | some (q, o) =>
        slotPort s va q
        waitFor s 0 s.releaseCond
        .ok (s.storeWindow q o n (s.rdS d).toNat va)
      | none => do
        plainOnly s l va
        untaped s l va
        waitFor s (s.latestDue fun _ => true) s.releaseCond
        .ok (s.storeScalar s.iss.g va.toNat l n (s.rdS d).toNat)) := rfl

theorem exec_stSc (d : SReg) (base : AReg) (off : Off9) (sz : BitVec 2) (s : State) :
    exec (.stSc d base off sz) s = slotDone (do
      let n := sizeBytes sz
      let va := s.ea base off n
      let l ← slotAccess s (reachOrdered s.det true) .write va n
      plainOnly s l va
      untaped s l va
      scAccess s (s.latencyOf s.iss.g va.toNat l) (fun s => .ok (s.writePart l.wkeys n (s.rdS d).toNat, {})) fun s _ => s) := rfl

theorem exec_fenceR (a : AReg) (b : SReg) (kinds : BitVec 2) (s : State) :
    exec (.fenceR a b kinds) s = slotDone (do
      waitFor s (s.latestDue fun t => t.fenced (s.rdA a).toNat (fenceEnd (s.rdA a) (s.rdS b)) kinds)
        (.acked (s.rdA a).toNat (fenceEnd (s.rdA a) (s.rdS b)) (s.sysScope && kinds.getLsbD 0) (kinds.getLsbD 1))
      .ok s) := rfl

section
variable {s : State} {d : SReg} {base : AReg} {off : Off9} {sz : BitVec 2} {sx : Bool} {l : Loc} (hdet : s.det = false)
include hdet

/-- Outside deterministic launches every access lands at its figure. -/
theorem onTime_of_free (l : Loc) : OnTime s l := fun h => by
  rw [hdet] at h
  cases h

theorem ldAcq_waits (hl : slotAccess s (reachTimed false) .read (s.ea base off (2 ^ sz.toNat)) (2 ^ sz.toNat) = .ok l) (hw : windowPort l.space = none)
    (hg : s.granted = false) : exec (.ldAcq d base off sz sx) s = slotDone (slotWait s .performed) := by
  rw [exec_ldAcq, reachOrdered, hdet]
  simp only [Bool.false_eq_true, if_false, sizeBytes, hl, hw, bind, Except.bind]
  rw [waitFor_waits hdet hg]
  rfl

theorem ldAcq_acts {x : Nat} {fl : BitVec 6} {bad : Bool}
    (hl : slotAccess s (reachTimed false) .read (s.ea base off (2 ^ sz.toNat)) (2 ^ sz.toNat) = .ok l) (hw : windowPort l.space = none)
    (hg : s.granted = true) (hx : slotScalar s l (s.ea base off (2 ^ sz.toNat)).toNat (2 ^ sz.toNat) = .ok (x, fl, bad)) :
    Completes (.ldAcq d base off sz sx) s (s.putLoaded d sx (2 ^ sz.toNat) x fl bad) := by
  refine completes_of_ok ?_
  rw [exec_ldAcq, reachOrdered, hdet]
  simp only [Bool.false_eq_true, if_false, sizeBytes, hl, hw, bind, Except.bind, waitFor_granted hg, needOnTime_onTime (onTime_of_free hdet l), hx]

/-- Through a window LD.ACQ asks for the response. -/
theorem ldAcq_asks {q o : Nat} (hl : slotAccess s (reachTimed false) .read (s.ea base off (2 ^ sz.toNat)) (2 ^ sz.toNat) = .ok l)
    (hw : windowPort l.space = some (q, o)) (hq : (s.port q).st ≠ .down) (hr : s.iss.reply = none) :
    exec (.ldAcq d base off sz sx) s =
      slotDone (slotWait (s.requestWindow q o (s.ea base off (2 ^ sz.toNat))) (.response q (o / 64 * 64))) := by
  rw [exec_ldAcq, reachOrdered, hdet]
  simp only [Bool.false_eq_true, if_false, sizeBytes, hl, hw, bind, Except.bind, windowAcquire, hr, slotPort_ok hq]

theorem ldAcq_answered {q o : Nat} {b : VVal}
    (hl : slotAccess s (reachTimed false) .read (s.ea base off (2 ^ sz.toNat)) (2 ^ sz.toNat) = .ok l)
    (hw : windowPort l.space = some (q, o)) (hr : s.iss.reply = some b) (hg : s.granted = true) :
    Completes (.ldAcq d base off sz sx) s (s.putLoaded d sx (2 ^ sz.toNat)
      (if isPoison b.desc then 0 else bytesOf b.data ((s.ea base off (2 ^ sz.toNat)).toNat % 64) (2 ^ sz.toNat)) 0 (isPoison b.desc)) := by
  refine completes_of_ok ?_
  rw [exec_ldAcq, reachOrdered, hdet]
  simp only [Bool.false_eq_true, if_false, sizeBytes, hl, hw, bind, Except.bind, windowAcquire, hr, hg, if_true]

theorem ldSc_waits (hl : slotAccess s reachMemory .read (s.ea base off (2 ^ sz.toNat)) (2 ^ sz.toNat) = .ok l) (hp : s.iss.padded = none)
    (hg : s.granted = false) : exec (.ldSc d base off sz sx) s = slotDone (slotWait s (.wheel s.sysScope)) := by
  rw [exec_ldSc, reachOrdered]
  simp only [if_true, sizeBytes, hl, bind, Except.bind]
  rw [scAccess_waits hdet hp hg]

theorem ldSc_acts {x : Nat} {fl : BitVec 6} {bad : Bool}
    (hl : slotAccess s reachMemory .read (s.ea base off (2 ^ sz.toNat)) (2 ^ sz.toNat) = .ok l) (hp : s.iss.padded = none)
    (hg : s.granted = true) (hx : slotScalar s l (s.ea base off (2 ^ sz.toNat)).toNat (2 ^ sz.toNat) = .ok (x, fl, bad)) :
    Completes (.ldSc d base off sz sx) s (s.putLoaded d sx (2 ^ sz.toNat) x fl bad) := by
  have hlt : x < 2 ^ 64 := (slotScalar_lt hx).trans_le (Nat.pow_le_pow_right (by norm_num) (sizeBits_le sz))
  refine completes_of_ok ?_
  rw [exec_ldSc, reachOrdered]
  simp only [if_true, sizeBytes, hl, bind, Except.bind]
  rw [scAccess_acts hp hg (t := s) (v := heldScalar (x, fl, bad)) (by simp only [needOnTime_onTime (onTime_of_free hdet l), hx]) hp]
  rw [heldScalar_value hlt, heldScalar_flags hlt, heldScalar_poison]

theorem stRel_waits (hl : slotAccess s (reachTimed false) .write (s.ea base off (2 ^ sz.toNat)) (2 ^ sz.toNat) = .ok l) (hw : windowPort l.space = none)
    (hk : l.space = .main → l.kind = 0)
    (hu : ((s.reverse || s.cur.k.tapeOn) && s.differentiable l (s.ea base off (2 ^ sz.toNat)).toNat) = false) (hg : s.granted = false) :
    exec (.stRel d base off sz) s = slotDone (slotWait s (.acked 0 (2 ^ 64) s.sysScope true)) := by
  rw [exec_stRel, reachOrdered, hdet]
  simp only [Bool.false_eq_true, if_false, sizeBytes, hl, hw, bind, Except.bind, plainOnly_ok _ hk, untaped_ok hu]
  rw [waitFor_waits hdet hg]
  rfl

theorem stRel_acts (hl : slotAccess s (reachTimed false) .write (s.ea base off (2 ^ sz.toNat)) (2 ^ sz.toNat) = .ok l) (hw : windowPort l.space = none)
    (hk : l.space = .main → l.kind = 0)
    (hu : ((s.reverse || s.cur.k.tapeOn) && s.differentiable l (s.ea base off (2 ^ sz.toNat)).toNat) = false) (hg : s.granted = true) :
    Completes (.stRel d base off sz) s (s.storeScalar s.iss.g (s.ea base off (2 ^ sz.toNat)).toNat l (2 ^ sz.toNat) (s.rdS d).toNat) := by
  refine completes_of_ok ?_
  rw [exec_stRel, reachOrdered, hdet]
  simp only [Bool.false_eq_true, if_false, sizeBytes, hl, hw, bind, Except.bind, plainOnly_ok _ hk, untaped_ok hu, waitFor_granted hg]

theorem stRel_window_waits {q o : Nat} (hl : slotAccess s (reachTimed false) .write (s.ea base off (2 ^ sz.toNat)) (2 ^ sz.toNat) = .ok l)
    (hw : windowPort l.space = some (q, o)) (hq : (s.port q).st ≠ .down) (hg : s.granted = false) :
    exec (.stRel d base off sz) s = slotDone (slotWait s (.acked 0 (2 ^ 64) s.sysScope true)) := by
  rw [exec_stRel, reachOrdered, hdet]
  simp only [Bool.false_eq_true, if_false, sizeBytes, hl, hw, bind, Except.bind, slotPort_ok hq]
  rw [waitFor_waits hdet hg]
  rfl

theorem stRel_window_acts {q o : Nat} (hl : slotAccess s (reachTimed false) .write (s.ea base off (2 ^ sz.toNat)) (2 ^ sz.toNat) = .ok l)
    (hw : windowPort l.space = some (q, o)) (hq : (s.port q).st ≠ .down) (hg : s.granted = true) :
    Completes (.stRel d base off sz) s (s.storeWindow q o (2 ^ sz.toNat) (s.rdS d).toNat (s.ea base off (2 ^ sz.toNat))) := by
  refine completes_of_ok ?_
  rw [exec_stRel, reachOrdered, hdet]
  simp only [Bool.false_eq_true, if_false, sizeBytes, hl, hw, bind, Except.bind, slotPort_ok hq, waitFor_granted hg]

theorem stSc_waits (hl : slotAccess s reachMemory .write (s.ea base off (2 ^ sz.toNat)) (2 ^ sz.toNat) = .ok l) (hk : l.space = .main → l.kind = 0)
    (hu : ((s.reverse || s.cur.k.tapeOn) && s.differentiable l (s.ea base off (2 ^ sz.toNat)).toNat) = false) (hp : s.iss.padded = none)
    (hg : s.granted = false) : exec (.stSc d base off sz) s = slotDone (slotWait s (.wheel s.sysScope)) := by
  rw [exec_stSc, reachOrdered]
  simp only [if_true, sizeBytes, hl, bind, Except.bind, plainOnly_ok _ hk, untaped_ok hu]
  rw [scAccess_waits hdet hp hg]

omit hdet in
theorem stSc_acts (hl : slotAccess s reachMemory .write (s.ea base off (2 ^ sz.toNat)) (2 ^ sz.toNat) = .ok l) (hk : l.space = .main → l.kind = 0)
    (hu : ((s.reverse || s.cur.k.tapeOn) && s.differentiable l (s.ea base off (2 ^ sz.toNat)).toNat) = false) (hp : s.iss.padded = none)
    (hg : s.granted = true) : Completes (.stSc d base off sz) s (s.writePart l.wkeys (2 ^ sz.toNat) (s.rdS d).toNat) := by
  have hpad : (s.writePart l.wkeys (2 ^ sz.toNat) (s.rdS d).toNat).iss.padded = none := by
    obtain ⟨m, hm⟩ := writePart_only s l.wkeys (2 ^ sz.toNat) (s.rdS d).toNat
    rw [hm]
    exact hp
  refine completes_of_ok ?_
  rw [exec_stSc, reachOrdered]
  simp only [if_true, sizeBytes, hl, bind, Except.bind, plainOnly_ok _ hk, untaped_ok hu]
  rw [scAccess_acts hp hg rfl hpad]

end

/-- Settles O25: each access waits until its wait is granted, and then acts. -/
theorem orderedAccesses : Obligations.OrderedAccesses := by
  intro s d base a off sz kinds sx l n va g lat waitsAt waits untaped ported fenced hdet hp
  refine ⟨fun hg => ⟨?_, ?_, ?_, ?_, ?_, ?_, ?_⟩, fun hg => ⟨fun x fl bad hx => ⟨?_, ?_⟩, ?_, fun hk hu => ⟨?_, ?_⟩, ?_, ?_⟩⟩
  · exact fun hl hw => ldAcq_waits hdet hl hw hg
  · exact fun q o hl hw hq hr => ldAcq_asks hdet hl hw hq hr
  · exact fun hl => ldSc_waits hdet hl hp hg
  · exact fun hl hw hk hu => stRel_waits hdet hl hw hk hu hg
  · exact fun q o hl hw hq => stRel_window_waits hdet hl hw hq hg
  · exact fun hl hk hu => stSc_waits hdet hl hk hu hp hg
  · have h : exec (.fenceR a d kinds) s = slotDone (slotWait s fenced) := by
      rw [exec_fenceR, waitFor_waits hdet hg, fenceEnd_eq]
      rfl
    exact h
  · exact fun hl hw => ldAcq_acts hdet hl hw hg hx
  · exact fun hl => ldSc_acts hdet hl hp hg hx
  · exact fun q o b hl hw hr => ldAcq_answered hdet hl hw hr hg
  · exact fun hl hw => stRel_acts hdet hl hw hk hu hg
  · exact fun hl => stSc_acts hl hk hu hp hg
  · exact fun q o hl hw hq => stRel_window_acts hdet hl hw hq hg
  · refine completes_of_ok ?_
    rw [exec_fenceR, waitFor_granted hg]
    rfl

end Sys2Proof.Machine
end

