-- ==== Sys2Proof/Proofs/DrainIssue.lean ====
section
/-! A drain into a pane (R105, R112, R267, R408) goes to the pane that was open before the slot X of its issue, so where chains are kept for the lower
slots an open pane of now is not enough. -/

namespace Sys2Proof.Machine

/-- The pane that is open on the frame of the counterexample now. -/
def latePane : Pane := { name := 9, ow := false, st := .opened 0 0 }

/-- The frame of the counterexample: INT8 elements, with a pane that the slot X of the issue has opened. -/
def lateFrame : Frame :=
  { info := { base := 0x300000, dims := 1024, fmt := 7, addok := true, maxdepth := 4, arenalen := 100 }, inDir := true, loose := [latePane] }

/-- ADRAIN.P is executed again in slot M after slot X has committed: the chains kept for it hold the frame without the pane that slot X has opened. -/
def lateDrain : State :=
  { State.setCtx {} 0 0 { ({} : Ctx) with
      s := vset (vset (Vector.replicate 64 0) 1 0x300000) 2 0x4000000007
      f := vset (Vector.replicate 8 none) 0 (some 0x2000) } with
    iss := { active := true, issue := 5, slot := 3, pc := 0x1000, next := 0x1008, chains := some [(0x2000, { lateFrame with loose := [] })] }
    clusters := [(0, { tlb := [⟨0x300000, 0x300131, 0⟩] })]
    frames := [(0x2000, lateFrame)] }

/-- The work comes to a value. -/
def comesTo {ε α : Type} : Except ε α → Bool
  | .ok _ => true
  | .error _ => false

theorem exists_of_comesTo {ε α : Type} {e : Except ε α} (h : comesTo e = true) : ∃ a, e = .ok a := by
  cases e with
  | ok a => exact ⟨a, rfl⟩
  | error _ => cases h

theorem lateDrain_bound : boundOf lateDrain 0 = .ok (0x2000, lateFrame) := by rfl

theorem lateDrain_pages : comesTo (drainPaneOk lateDrain lateFrame (drainAddrs (lateDrain.rdS 1) (lateDrain.rdS 2))) = true := by decide +kernel

/-- The blocks of the drain in its frame. -/
def lateBlocks : List Nat := (drainAddrs (lateDrain.rdS 1) (lateDrain.rdS 2)).map fun va => (va.toNat - lateFrame.info.base) / 64

theorem lateDrain_blocks : comesTo (touchBlocks lateDrain lateFrame.info true latePane lateBlocks) = true := by decide +kernel

/-- The slots done in the next state of an outcome. -/
def doneAfter : Out → List Nat
  | .next t => t.iss.done
  | _ => []

/-- The drain does not complete: no pane was open before slot X, which is a protection fault. -/
theorem lateDrain_faults : doneAfter (exec (.adrainP 0 1 2 0) lateDrain) = [] := by decide +kernel

theorem doneAfter_of_completes {i : Instr} {s t : State} (h : Completes i s t) : doneAfter (exec i s) ≠ [] := by
  obtain ⟨cs, hc⟩ := commitSlot_only t false
  rw [h, hc]
  exact List.append_ne_nil_of_right_ne_nil _ (List.cons_ne_nil _ _)

/-- Refutes O26: with chains kept for the lower slots of an issue (R408), ADRAIN.P that is executed again faults although a pane that slot X has
opened meanwhile is open now. -/
theorem not_matrixEngineIssue : ¬ Obligations.MatrixEngineIssue := by
  rintro ⟨-, -, h⟩
  obtain ⟨-, -, -, hpane⟩ := h lateDrain 0 1 2 0
  obtain ⟨_, hpages⟩ := exists_of_comesTo lateDrain_pages
  obtain ⟨q, hq⟩ := exists_of_comesTo lateDrain_blocks
  have hdone := hpane 0x2000 lateFrame latePane q lateDrain_bound (by decide +kernel) (by decide +kernel) (by decide +kernel) hpages rfl rfl
    (by decide +kernel) hq
  exact doneAfter_of_completes hdone lateDrain_faults

end Sys2Proof.Machine
end

