-- ==== Sys2Proof/Proofs/TasksAndPaging.lean ====
section
/-! Tile tasks, collective records and the service of page faults, as instructions (R82, R163, R165, R269 to R272). -/

namespace Sys2Proof.Machine

/-- The sixteen bits at the top of a word. -/
theorem bits_top (w : Word64) : bits w 63 48 = w.toNat / 2 ^ 48 := Nat.mod_eq_of_lt (Nat.div_lt_of_lt_mul w.isLt)

/-- The low byte of a word. -/
theorem bits_low_byte (w : Word64) : bits w 7 0 = w.toNat % 256 := by simp [bits]

/-! ### Tile tasks (R269 to R272) -/

section
variable {s : State} {r : SReg} {l : Loc}

theorem exec_ttask (r : SReg) (q : BitVec 2) (s : State) :
    exec (.ttask r q) s = slotDone (do
      let va := s.rdS r
      let l ← slotRecord s va false
      if l.space != .main || !l.wr then protFault s va
      let ws := s.blockWords l.key
      if taskBad ws then protFault s va
      if bits (ws.getD 6 0) 7 0 ≠ 0 then .ok (s.putStat stTtBusy)
      else
        let cl := clusterOf s.iss.g
        let tag := bits (ws.getD 0 0) 63 48
        if !(s.cluster cl).taskRoom q.toNat tag then slotWait s (.taskRoom q.toNat tag)
        needReleased s
        let t : Task := { id := (s.cluster cl).taskNo, words := ws, addr := va.toNat, core := s.iss.g, ctx := s.iss.x, pc := s.iss.pc }
        let s := s.writePart (l.wkeys.map (· + 48)) 8 1
        .ok (s.modCluster cl fun c => { c.setQueue q.toNat (c.queue q.toNat ++ [t]) with tags := c.tags ++ [tag], taskNo := c.taskNo + 1 })) := rfl

theorem exec_coll (r : SReg) (s : State) :
    exec (.coll r) s = slotDone (do
      let va := s.rdS r
      let l ← slotRecord s va false
      if l.space != .main || !l.wr then protFault s va
      let ws := s.blockWords l.key
      if collBad ws then protFault s va
      if bits (ws.getD 7 0) 7 0 ≠ 0 then .ok (s.putStat stCollBusy)
      else
        let d := dieOf s.iss.g
        if !s.collRoom d then slotWait s .collRoom
        needReleased s
        let e := s.coll d
        let j : CollJob := { words := ws, addr := va.toNat, core := s.iss.g, ctx := s.iss.x }
        .ok ((s.writePart (l.wkeys.map (· + 56)) 8 1).setColl d { e with jobs := e.jobs ++ [j] })) := rfl

variable (hl : slotRecord s (s.rdS r) false = .ok l) (hm : l.space = .main) (hw : l.wr = true)
include hl hm hw

/-- A task record that is posted already leaves only kstat.TTBUSY. -/
theorem ttask_busy (q : BitVec 2) (hb : taskBad (s.blockWords l.key) = false) (h : ((s.blockWords l.key).getD 6 0).toNat % 256 ≠ 0) :
    Completes (.ttask r q) s (s.putStat stTtBusy) := by
  refine completes_of_ok ?_
  rw [exec_ttask]
  simp only [hl, hm, hw, hb, bits_low_byte, bind, Except.bind, bne_self_eq_false, Bool.not_true, Bool.or_false, Bool.false_eq_true, if_false, if_pos h]

theorem ttask_posts (q : BitVec 2) (hb : taskBad (s.blockWords l.key) = false) (h : ((s.blockWords l.key).getD 6 0).toNat % 256 = 0)
    (hroom : (s.cluster (clusterOf s.iss.g)).taskRoom q.toNat (((s.blockWords l.key).getD 0 0).toNat / 2 ^ 48) = true) (hrel : Released s) :
    let t : Task := {
      id := (s.cluster (clusterOf s.iss.g)).taskNo, words := s.blockWords l.key, addr := (s.rdS r).toNat, core := s.iss.g, ctx := s.iss.x,
      pc := s.iss.pc }
    Completes (.ttask r q) s ((s.writePart (l.wkeys.map (· + 48)) 8 1).modCluster (clusterOf s.iss.g) fun c =>
      { c.setQueue q.toNat (c.queue q.toNat ++ [t]) with
        tags := c.tags ++ [((s.blockWords l.key).getD 0 0).toNat / 2 ^ 48], taskNo := c.taskNo + 1 }) := by
  refine completes_of_ok ?_
  rw [exec_ttask]
  simp only [hl, hm, hw, hb, bits_low_byte, bits_top, bind, Except.bind, bne_self_eq_false, Bool.not_true, Bool.or_false, Bool.false_eq_true, if_false,
    h, ne_eq, not_true_eq_false, hroom, needReleased_ok hrel]

/-- A collective record that is posted already leaves only kstat.COLLBUSY. -/
theorem coll_busy (hb : collBad (s.blockWords l.key) = false) (h : ((s.blockWords l.key).getD 7 0).toNat % 256 ≠ 0) :
    Completes (.coll r) s (s.putStat stCollBusy) := by
  refine completes_of_ok ?_
  rw [exec_coll]
  simp only [hl, hm, hw, hb, bits_low_byte, bind, Except.bind, bne_self_eq_false, Bool.not_true, Bool.or_false, Bool.false_eq_true, if_false, if_pos h]

theorem coll_posts (hb : collBad (s.blockWords l.key) = false) (h : ((s.blockWords l.key).getD 7 0).toNat % 256 = 0)
    (hroom : s.collRoom (dieOf s.iss.g) = true) (hrel : Released s) :
    Completes (.coll r) s ((s.writePart (l.wkeys.map (· + 56)) 8 1).setColl (dieOf s.iss.g) { s.coll (dieOf s.iss.g) with
      jobs := (s.coll (dieOf s.iss.g)).jobs ++ [{ words := s.blockWords l.key, addr := (s.rdS r).toNat, core := s.iss.g, ctx := s.iss.x }] }) := by
  refine completes_of_ok ?_
  rw [exec_coll]
  simp only [hl, hm, hw, hb, bits_low_byte, bind, Except.bind, bne_self_eq_false, Bool.not_true, Bool.or_false, Bool.false_eq_true, if_false,
    h, ne_eq, not_true_eq_false, hroom, needReleased_ok hrel]

end

/-- The slots that a hosting core lends are taken where one of them is not free. -/
theorem hostSlots_taken (c : Core) :
    (hostSlots.any fun n => (c.slot n).st != .free) = true ↔ ∃ n ∈ [124, 125, 126, 127], (c.slot n).st ≠ .free := by
  rw [List.any_eq_true]
  exact exists_congr fun n => and_congr_right fun _ => bne_iff_ne

theorem tileTasks : Statements.TileTasks := by
  intro s r q l g cl ws w tag
  refine ⟨fun hl hm hw hb => ⟨fun h => ttask_busy hl hm hw q hb h, fun h hroom hrel => ttask_posts hl hm hw q hb h hroom hrel⟩, ?_, ?_, ?_, ?_⟩
  · intro h
    refine completes_of_ok (congrArg slotDone (if_neg ?_))
    rw [hostSlots_taken]
    rintro ⟨n, hn, hne⟩
    exact hne (h n hn)
  · exact fun h => completes_of_ok (congrArg slotDone (if_pos ((hostSlots_taken _).2 h)))
  · exact fun h => completes_of_ok (congrArg slotDone (if_neg (Bool.eq_false_iff.1 h)))
  · exact fun h => completes_of_ok (congrArg slotDone (if_neg fun hc => h (List.contains_iff_mem.1 hc)))

/-! ### Collectives and page faults (R82, R163) -/

theorem collectivesAndPageService : Statements.CollectivesAndPageService := by
  intro s r l d ws state
  refine ⟨fun hl hm hw hb => ⟨fun h => coll_busy hl hm hw hb h, fun h hroom hrel => coll_posts hl hm hw hb h hroom hrel⟩, fun h => ⟨?_, ?_⟩,
    fun cl n h => ⟨?_, ?_⟩, fun h => completes_of_ok (congrArg slotDone (congrArg Except.ok (if_pos h)))⟩
  · refine completes_of_ok ?_
    show execPgres r s = _
    simp only [execPgres, h]
    rfl
  · refine completes_of_ok ?_
    show execPgresFail r s = _
    simp only [execPgresFail, h]
    rfl
  · refine completes_of_ok ?_
    show execPgres r s = _
    simp only [execPgres, h]
  · refine faults_of_slotDone ?_
    show execPgresFail r s = _
    simp only [execPgresFail, h]
    rfl

/-- Settles O28: each instruction posts or releases what its premises leave open to it. -/
theorem tasksAndPageServiceInstructions : Obligations.TasksAndPageServiceInstructions := ⟨tileTasks, collectivesAndPageService⟩

end Sys2Proof.Machine
end

