-- ==== Sys2Proof/Proofs/CopyInstructions.lean ====
section
/-! The copy engine as instructions (R122, R141 to R147): a channel that is busy refuses a new record, and reads, joins and waits see it as it stands. -/

namespace Sys2Proof.Machine

/-- A channel is busy while it walks or waits for a page. -/
theorem Chan.busy_iff (k : Chan) : k.busy = true ↔ k.st = .walking ∨ k.st = .pageWait := by
  simp [Chan.busy]

theorem Chan.busy_eq_false {k : Chan} (h : ¬(k.st = .walking ∨ k.st = .pageWait)) : k.busy = false :=
  Bool.eq_false_iff.2 (mt k.busy_iff.1 h)

section
variable {s : State} {h w d : SReg} {n : BitVec 2}

theorem chead_busy (hb : (s.chan s.iss.g n.toNat).busy = true) : Completes (.chead h w d n) s (s.putStat stChBusy) := by
  refine completes_of_ok ?_
  show execChead h w d n s = _
  simp only [execChead, hb, if_true]

theorem chead_misaligned (hb : (s.chan s.iss.g n.toNat).busy = false) (ha : (s.rdS h).toNat % 64 ≠ 0) :
    Faults (.chead h w d n) s cAlign (s.rdS h) 64 0 := by
  refine faults_of_slotDone ?_
  show execChead h w d n s = _
  simp only [execChead, hb, Bool.false_eq_true, if_false, if_pos ha]
  rfl

theorem chead_starts (hb : (s.chan s.iss.g n.toNat).busy = false) (ha : (s.rdS h).toNat % 64 = 0) (hrel : Released s) :
    Completes (.chead h w d n) s (s.setChan s.iss.g n.toNat { s.chan s.iss.g n.toNat with
      wbase := (s.rdS w).toNat, wlen := (s.rdS d).toNat, wmk := (s.rdS w).toNat, written := [], shapes := (s.core s.iss.g).shapes,
      issuer := s.iss.x, orphan := false, words := none, sector := 0, restripe := none, walk := none, fault := none, saved := false
      st := if s.rdS h = 0 then .idle else .walking
      record := if s.rdS h = 0 then (s.chan s.iss.g n.toNat).record else (s.rdS h).toNat }) := by
  refine completes_of_ok ?_
  show execChead h w d n s = _
  simp only [execChead, hb, ha, Bool.false_eq_true, if_false, ne_eq, not_true_eq_false, needReleased_ok hrel, bind, Except.bind]

end

/-- The word of CSTAT: the record shown and the state's code. -/
theorem cstatWord_eq (k : Chan) : k.shown / 64 * 64 + k.st.code = (if k.st = .idle then k.lastDone else k.record) / 64 * 64 +
    match k.st with | .idle => 0 | .walking => 1 | .parked => 2 | .pageWait => 3 | .cancelled => 4 := by
  unfold Chan.shown
  cases k.st <;> rfl

/-- A join ends where no channel of its mask is busy. -/
theorem Core.quiet_of {c : Core} {mask : BitVec 4}
    (h : ∀ i < 4, mask.getLsbD i = true → (c.chan i).st ≠ .walking ∧ (c.chan i).st ≠ .pageWait) : c.quiet mask.toNat = true := by
  refine List.all_eq_true.2 fun i hi => ?_
  obtain ⟨hr, hb⟩ := List.mem_filter.1 hi
  obtain ⟨hw, hp⟩ := h i (List.mem_range.1 hr) hb
  rw [Chan.busy_eq_false (not_or.2 ⟨hw, hp⟩)]
  rfl

/-- Settles O29: case by case, as the channel stands. -/
theorem copyInstructions : Obligations.CopyInstructions := by
  intro s h w d n mask set field g k a base busy
  refine ⟨fun hb => chead_busy (k.busy_iff.2 hb), fun hb ha => chead_misaligned (Chan.busy_eq_false hb) ha,
    fun hb ha hrel => chead_starts (Chan.busy_eq_false hb) ha hrel, ?_, completes_of_ok rfl, ?_, completes_of_ok rfl, ?_, completes_of_ok rfl,
    completes_of_ok rfl, ?_⟩
  · exact completes_of_ok (congrArg (fun v => slotDone (.ok (s.putS d (w64 v) 4))) (cstatWord_eq k))
  · intro hr
    have hreached : k.reached a.toNat = true := by
      unfold Chan.reached
      rcases hr with h | h | h
      · simp [h]
      · simp [Chan.busy_eq_false h]
      · simp [h]
    exact completes_of_ok (congrArg slotDone (if_pos hreached))
  · exact fun hq => completes_of_ok (congrArg slotDone (if_pos (Core.quiet_of hq)))
  · refine completes_of_ok ?_
    show execKnarmD n s = _
    simp only [execKnarmD, Bool.and_eq_true, beq_iff_eq]
    rfl

end Sys2Proof.Machine
end

