-- ==== Sys2Proof/Proofs/ModeAndTape.lean ====
section
/-! Reverse mode and the control of the tape (R275, R277, R288, R289). -/

namespace Sys2Proof.Machine

/-- A maximum over numbers that none of them passes is the start. -/
theorem foldl_max_of_le {l : List Nat} {n : Nat} (h : ∀ x ∈ l, x ≤ n) : l.foldl max n = n := by
  induction l with
  | nil => rfl
  | cons x l ih =>
    rw [List.foldl_cons, Nat.max_eq_left (h x List.mem_cons_self)]
    exact ih fun y hy => h y (List.mem_cons_of_mem x hy)

/-- Nothing is waited for where every push and differentiable store has completed. -/
theorem needPushed_ok {s : State} (h : ∀ e ∈ s.cur.trail, e.grad = true → e.due ≤ (s.core s.iss.g).clock) : needPushed s = .ok () := by
  have hdue : ((s.cur.trail.filter Trail.grad).map Trail.due).foldl max (s.core s.iss.g).clock = (s.core s.iss.g).clock := by
    refine foldl_max_of_le fun x hx => ?_
    obtain ⟨e, he, rfl⟩ := List.mem_map.1 hx
    obtain ⟨hm, hg⟩ := List.mem_filter.1 he
    exact h e hm hg
  unfold needPushed
  simp only [hdue, Nat.lt_irrefl, decide_false, Bool.false_and, Bool.false_eq_true, if_false]

section
variable {s : State}

theorem dmodeRev_again (h : s.cur.k.rev = true) : Completes .dmodeRev s s := by
  refine completes_of_ok ?_
  show execDmodeRev s = _
  simp only [execDmodeRev, h, if_true]

theorem dmodeRev_enters {t : State} {ws : List Word64} {rs : List Region} (h : s.cur.k.rev = false)
    (hp : ∀ e ∈ s.cur.trail, e.grad = true → e.due ≤ (s.core s.iss.g).clock) (hn : s.cur.k.tableCount ≤ 16)
    (hw : tableWords s (w64 s.cur.k.tableAddr) ((s.cur.k.tableCount + 1) / 2) s.cur.k.tableAddr = .ok ws)
    (hr : readRegions s (w64 s.cur.k.tableAddr) ws s.cur.k.tableCount = .ok (rs, t)) :
    Completes .dmodeRev s ((t.modCur fun c => { c with regions := rs, implicit := [], k := { c.k with rev := true } }).keepMode false) := by
  refine completes_of_ok ?_
  show execDmodeRev s = _
  simp only [execDmodeRev, h, needPushed_ok hp, not_lt.2 hn, hw, hr, bind, Except.bind, Bool.false_eq_true, if_false]

theorem dmodeFwd_again (h : s.cur.k.rev = false) : Completes .dmodeFwd s s := by
  refine completes_of_ok ?_
  show execDmodeFwd s = _
  simp only [execDmodeFwd, h, Bool.not_false, if_true]

theorem dmodeFwd_leaves {fs : List (Nat × Frame)} {fl : BitVec 6} (h : s.cur.k.rev = true) (hrel : Released s)
    (ha : applyAll s (s.implicitPanes.filter fun e => !e.2.blocks.isEmpty) = .ok (fs, fl)) :
    Completes .dmodeFwd s (((((s.changeFrames fs).dropEmptyPanes s.implicitPanes).putFlags fl 1).modCur fun c =>
      { c with implicit := [], k := { c.k with rev := false } }).keepMode true) := by
  refine completes_of_ok ?_
  show execDmodeFwd s = _
  simp only [execDmodeFwd, h, needReleased_ok hrel, ha, bind, Except.bind, Bool.not_true, Bool.false_eq_true, if_false]

theorem tapeMark_pushes {t : State} {r : SReg}
    (h : pushTape { s with free := s.free + 1 } (Config.openWord s.free) [(BitVec.ofNat 64 (4 * 2 ^ 60), s.rdS r)] = .ok t) :
    Completes (.tapeMark r) s t.wroteTpos :=
  completes_of_ok (congrArg (fun e : Except State State => slotDone (e.map State.wroteTpos)) h)

theorem bits_kind (w : Word64) : bits w 63 60 = w.toNat / 2 ^ 60 := Nat.mod_eq_of_lt (Nat.div_lt_of_lt_mul w.isLt)

theorem tapeUnmark_pops {h0 h1 : Word64} {l : Loc} {r : SReg} (ht : topEntry s = .ok (h0, h1, l)) (hs : (s.core s.iss.g).sillUsed < 256)
    (hk : h0.toNat / 2 ^ 60 = 4) :
    Completes (.tapeUnmark r) s (((s.popTape 16).wroteTpos.land [.s (physS s.cur.k.rs r) h1]
      (s.latencyOf s.iss.g (s.cur.k.tpos.toNat - 16) l) false).note (s.cur.k.tpos.toNat - 16) 16 false
        (s.latencyOf s.iss.g (s.cur.k.tpos.toNat - 16) l)) := by
  refine completes_of_ok ?_
  show execTapeUnmark r s = _
  simp only [execTapeUnmark, ht, bits_kind, hk, needSill_ok hs, bind, Except.bind, ne_eq, not_true_eq_false, if_false]

theorem tapeUnmark_refuses {h0 h1 : Word64} {l : Loc} {r : SReg} (ht : topEntry s = .ok (h0, h1, l)) (hk : h0.toNat / 2 ^ 60 ≠ 4) :
    Faults (.tapeUnmark r) s cProt 0x1B 0 0 := by
  refine faults_of_slotDone ?_
  show execTapeUnmark r s = _
  simp only [execTapeUnmark, ht, bits_kind, bind, Except.bind, if_pos hk]
  rfl

end

/-- Settles O33: mode and tape change where their premises hold, and repeated changes change nothing. -/
theorem reverseModeAndTape : Obligations.ReverseModeAndTape := by
  intro s t r ws rs fs fl k named
  refine ⟨dmodeRev_again, fun h hp hn hw hr => dmodeRev_enters h hp hn hw hr, dmodeFwd_again, fun h hrel ha => dmodeFwd_leaves h hrel ha,
    fun h => completes_of_ok (congrArg slotDone (if_pos h)), fun h => ?_, completes_of_ok rfl, tapeMark_pushes, fun h0 h1 l ht hs =>
    ⟨fun hk => tapeUnmark_pops ht hs hk, fun hk => tapeUnmark_refuses ht hk⟩, completes_of_ok rfl⟩
  have hbad : ¬ s.tapeOk = true := by rw [h]; exact Bool.false_ne_true
  exact faults_of_slotDone (congrArg slotDone (if_neg hbad))

end Sys2Proof.Machine
end

