-- ==== Sys2Proof/Proofs/LatchesAndHandles.lean ====
section
/-! Latches and handles (R181, R182, R201, R346 to R349, R360 to R363). -/

namespace Sys2Proof.Machine

/-! ### Latch words (R346) -/

theorem latchExpected_eq (w : Word64) : latchExpected w = w.toNat % 2 ^ 16 := by simp [latchExpected, bits]

/-- The latch word with its arrivals and expectation replaced keeps WAIT. -/
theorem latchOf_fields (w : Word64) {a e : Nat} (ha : a < 2 ^ 16) (he : e < 2 ^ 16) :
    latchOf (latchWait w) a e = w.toNat / 2 ^ 48 * 2 ^ 48 + a * 2 ^ 16 + e := by
  have hw : w.toNat / 2 ^ 48 < 2 ^ 16 := Nat.div_lt_of_lt_mul w.isLt
  rw [latchOf, latchWait, bits_top, Nat.mod_eq_of_lt hw, Nat.mod_eq_of_lt ha, Nat.mod_eq_of_lt he]

theorem latchExpected_lt (w : Word64) : latchExpected w < 2 ^ 16 := Nat.mod_lt _ (by norm_num)

theorem latchArrived_lt (w : Word64) : latchArrived w < 2 ^ 16 := Nat.mod_lt _ (by norm_num)

section
variable {s : State} {l v d : SReg} {rot re : Bool} {g n : Nat}

/-- Arrivals that the latch has room for are counted. -/
theorem latchAdd_ok {k : Nat} (h : latchArrived (s.latch g n) + k ≤ 0xFFFF) : s.latchAdd g n k = some (s.setLatch g n
    ((s.latch g n).toNat / 2 ^ 48 * 2 ^ 48 + (latchArrived (s.latch g n) + k) * 2 ^ 16 + latchExpected (s.latch g n))) := by
  unfold State.latchAdd
  simp only [if_neg (not_lt.2 h), latchOf_fields _ (show latchArrived (s.latch g n) + k < 2 ^ 16 by omega) (latchExpected_lt _)]

theorem latchAdd_full {k : Nat} (h : 0xFFFF < latchArrived (s.latch g n) + k) : s.latchAdd g n k = none := by
  unfold State.latchAdd
  simp only [if_pos h]

/-- A complete latch gives up the arrivals that it expects. -/
theorem latchConsume_eq : s.latchConsume g n = s.setLatch g n
    ((s.latch g n).toNat / 2 ^ 48 * 2 ^ 48 + (latchArrived (s.latch g n) - latchExpected (s.latch g n)) * 2 ^ 16 + latchExpected (s.latch g n)) := by
  have ha := latchArrived_lt (s.latch g n)
  unfold State.latchConsume
  simp only [latchOf_fields _ (show latchArrived (s.latch g n) - latchExpected (s.latch g n) < 2 ^ 16 by omega) (latchExpected_lt _)]

/-! ### The instructions on a latch (R360, R361) -/

variable (hn : latchName s (s.rdS l) rot = .ok (g, n))
include hn

theorem arrive_ok {k : Nat} (hrel : Released s) (h : latchArrived (s.latch g n) + k ≤ 0xFFFF) : arrive s (s.rdS l) rot k = .ok (s.setLatch g n
    ((s.latch g n).toNat / 2 ^ 48 * 2 ^ 48 + (latchArrived (s.latch g n) + k) * 2 ^ 16 + latchExpected (s.latch g n))) := by
  unfold arrive
  simp only [hn, needReleased_ok hrel, latchAdd_ok h, bind, Except.bind]

theorem arrive_full {k : Nat} (hrel : Released s) (h : 0xFFFF < latchArrived (s.latch g n) + k) :
    arrive s (s.rdS l) rot k = protFault s (w64 (latchPa g n)) := by
  unfold arrive
  simp only [hn, needReleased_ok hrel, latchAdd_full h, bind, Except.bind]

theorem larrSet_ok (hrel : Released s) : Completes (.larrSet l v rot) s (s.setLatch g n
    ((s.latch g n).toNat / 2 ^ 48 * 2 ^ 48 + 0 * 2 ^ 16 + (s.rdS v).toNat % 2 ^ 16)) := by
  have hm : bits (s.rdS v) 15 0 = (s.rdS v).toNat % 2 ^ 16 := latchExpected_eq _
  refine completes_of_ok ?_
  show execLarrSet l v rot s = _
  simp only [execLarrSet, hn, needReleased_ok hrel, bind, Except.bind, hm,
      latchOf_fields _ (show 0 < 2 ^ 16 by norm_num) (Nat.mod_lt _ (show 0 < 2 ^ 16 by norm_num))]

theorem larrRd_own (hg : g = s.iss.g) : Completes (.larrRd l d rot) s (s.putS d (s.latch g n) 8) := by
  refine completes_of_ok ?_
  show execLarrRd l d rot s = _
  simp only [execLarrRd, hn, bind, Except.bind, if_pos hg]

theorem larrRd_other (hg : g ≠ s.iss.g) (hs : (s.core s.iss.g).sillUsed < 256) :
    Completes (.larrRd l d rot) s (s.land [.s (physS s.cur.k.rs d) (s.latch g n)] 64 false) := by
  refine completes_of_ok ?_
  show execLarrRd l d rot s = _
  simp only [execLarrRd, hn, bind, Except.bind, if_neg hg, needSill_ok hs]

theorem lwait_granted (h : s.granted = true) : Completes (.lwait l re rot) s s := by
  refine completes_of_ok ?_
  show execLwait l re rot s = _
  simp only [execLwait, hn, bind, Except.bind, h, if_true]

theorem lwait_done (h : s.granted = false) (hd : s.latchDone g n = true) :
    Completes (.lwait l re rot) s (if re then s.latchConsume g n else s) := by
  refine completes_of_ok ?_
  show execLwait l re rot s = _
  simp only [execLwait, hn, bind, Except.bind, h, hd, Bool.false_eq_true, if_false, if_true]

theorem lwait_waits (h : s.granted = false) (hd : s.latchDone g n = false) :
    exec (.lwait l re rot) s = slotDone (slotWait s (.latch g n re)) := by
  show execLwait l re rot s = _
  simp only [execLwait, hn, bind, Except.bind, h, hd, Bool.false_eq_true, if_false]

end

/-! ### The first of eight latches (R363) -/

section
variable {s : State} {d l : SReg} {re rot : Bool} {mask : BitVec 8} {g : Nat} {named : List (Nat × Nat)}
  (hc : latchCore s (s.rdS l) = .ok g)
  (hm : maskLatches s (s.rdS l) rot ((List.range 8).filter fun j => mask.getLsbD j) = .ok named)
include hc hm

theorem waitany_chosen {j : Nat} (h : s.iss.choice = some j) : Completes (.waitany d l re rot mask) s (s.putAny d j) := by
  refine completes_of_ok ?_
  show execWaitany d l re rot mask s = _
  simp only [execWaitany, hc, hm, h, bind, Except.bind]

theorem waitany_found {j n : Nat} (h : s.iss.choice = none) (hf : s.firstLatch s.cur.k.wpos g named = some (j, n)) :
    Completes (.waitany d l re rot mask) s ((if re then s.latchConsume g n else s).putAny d j) := by
  refine completes_of_ok ?_
  show execWaitany d l re rot mask s = _
  simp only [execWaitany, hc, hm, h, hf, bind, Except.bind]

theorem waitany_waits (h : s.iss.choice = none) (hf : s.firstLatch s.cur.k.wpos g named = none) :
    exec (.waitany d l re rot mask) s = slotDone (slotWait s (.anyLatch g named re)) := by
  show execWaitany d l re rot mask s = _
  simp only [execWaitany, hc, hm, h, hf, bind, Except.bind]

omit hc hm in
/-- Of latches none of which is complete none is found. -/
theorem firstLatch_none {wpos : Nat} (h : ∀ e ∈ named, s.latchDone g e.2 = false) : s.firstLatch wpos g named = none := by
  refine List.findSome?_eq_none_iff.2 fun j _ => List.find?_eq_none.2 fun e he => ?_
  rw [h e he, Bool.and_false]
  exact Bool.false_ne_true

end

theorem latches : Statements.Latches := by
  intro s l v d rot re mask
  refine ⟨fun g n hn => ?_, fun g named j n hc hm => ⟨?_, ?_, ?_⟩, ⟨?_, ?_⟩, completes_of_ok rfl⟩
  · intro w expected arrived waiting put more
    have he : latchExpected (s.latch g n) = expected := latchExpected_eq _
    have hmore : bits (s.rdS v) 15 0 = more := latchExpected_eq _
    have hput (k : Nat) : s.setLatch g n
        ((s.latch g n).toNat / 2 ^ 48 * 2 ^ 48 + (latchArrived (s.latch g n) + k) * 2 ^ 16 + latchExpected (s.latch g n)) = put (arrived + k) expected := by
      rw [he]
      rfl
    have hdone : s.latchDone g n = decide (expected ≤ arrived) := by
      unfold State.latchDone
      rw [he]
      rfl
    refine ⟨fun h hrel => ?_, fun h hrel => ?_, fun h hrel => ?_, larrSet_ok hn, larrRd_own hn, larrRd_other hn, lwait_granted hn, fun hg h => ?_,
      fun hg h => ?_⟩
    · exact completes_of_ok (congrArg slotDone ((arrive_ok hn hrel (k := 1) h).trans (congrArg Except.ok (hput 1))))
    · have hfull : 0xFFFF < latchArrived (s.latch g n) + 1 := Nat.lt_succ_of_le (le_of_eq h.symm)
      exact faults_of_slotDone (congrArg slotDone (arrive_full hn hrel hfull))
    · refine completes_of_ok (i := .larrN l v rot) ((?_ : exec (.larrN l v rot) s = slotDone (arrive s (s.rdS l) rot more)).trans
        (congrArg slotDone ((arrive_ok hn hrel h).trans (congrArg Except.ok (hput more)))))
      rw [← hmore]
      rfl
    · have hw := lwait_done (re := re) hn hg (hdone.trans (decide_eq_true h))
      rw [latchConsume_eq, he] at hw
      exact hw
    · exact lwait_waits hn hg (hdone.trans (decide_eq_false (not_le.2 h)))
  · exact fun h => waitany_chosen hc hm h
  · exact fun h hf => waitany_found hc hm h hf
  · exact fun h hf => waitany_waits hc hm h (firstLatch_none hf)
  · intro h1 h128 h512
    have hbase : bits (s.rdS l) 8 0 = (s.rdS l).toNat % 2 ^ 9 := by simp [bits]
    refine completes_of_ok ?_
    show execLbaseSet l v s = _
    simp only [execLbaseSet, hbase]
    rw [if_neg (by omega)]
    rfl
  · intro h
    have hbase : bits (s.rdS l) 8 0 = (s.rdS l).toNat % 2 ^ 9 := by simp [bits]
    refine faults_of_slotDone ?_
    show execLbaseSet l v s = _
    simp only [execLbaseSet, hbase]
    rw [if_pos (by omega)]
    rfl

/-! ### Handles (R181, R182, R201) -/

theorem handleValid_iff (w : Word64) : handleValid w = true ↔ w.toNat < 2 ^ 48 ∧ 1 ≤ handleSlots w ∧ handleFilled w ≤ handleSlots w := by
  have hw := w.isLt
  have htop : w.toNat / 2 ^ 48 = 0 ↔ w.toNat < 2 ^ 48 := by omega
  rw [handleValid, bits_top]
  simp only [Bool.and_eq_true, beq_iff_eq, decide_eq_true_eq, htop, and_assoc]

theorem handleFilled_eq (w : Word64) : handleFilled w = (w.toNat / 2 ^ 16 % 2 ^ 16 + 2 ^ 16 - w.toNat % 2 ^ 16) % 2 ^ 16 := by
  simp [handleFilled, bits]

section
variable {s : State} {h : HReg} {r : SReg}

theorem handleWait_unset {room : Bool} (hs : handleSlots (s.cur.rdH h) = 0) : handleWait s h r room = protFault s (h.setWidth 64) := by
  simp only [handleWait, handleSet, hs, bne_self_eq_false, Bool.not_false, Bool.true_or, if_true]

theorem handleStep_unset {prod : Bool} (hs : handleSlots (s.cur.rdH h) = 0) : handleStep s h r prod = protFault s (h.setWidth 64) := by
  simp only [handleStep, handleSet, hs, bne_self_eq_false, Bool.not_false, if_true]

variable (hs : handleSlots (s.cur.rdH h) ≠ 0)
include hs

theorem handleSet_of_slots : handleSet (s.cur.rdH h) = true := bne_iff_ne.2 hs

theorem handleWait_ends {room : Bool} (hn : (s.rdS r).toNat ≤ handleSlots (s.cur.rdH h))
    (hf : (s.rdS r).toNat ≤ if room then handleFree (s.cur.rdH h) else handleFilled (s.cur.rdH h)) : handleWait s h r room = .ok s := by
  simp only [handleWait, handleSet_of_slots hs, Bool.not_true, Bool.false_or, decide_eq_true_eq, if_neg (not_lt.2 hn), if_neg (not_lt.2 hf)]

theorem handleStep_moves {prod : Bool} (hf : (s.rdS r).toNat ≤ if prod then handleFree (s.cur.rdH h) else handleFilled (s.cur.rdH h)) :
    handleStep s h r prod = .ok (s.setHandle h (w64 (handleSlots (s.cur.rdH h) * 2 ^ 32 +
      (if prod then (bits (s.cur.rdH h) 31 16 + (s.rdS r).toNat) % 2 ^ 16 else bits (s.cur.rdH h) 31 16) * 2 ^ 16 +
      (if prod then bits (s.cur.rdH h) 15 0 else (bits (s.cur.rdH h) 15 0 + (s.rdS r).toNat) % 2 ^ 16)))) := by
  simp only [handleStep, handleSet_of_slots hs, Bool.not_true, Bool.false_eq_true, if_false, handleAdvance, if_neg (not_lt.2 hf)]

theorem handleStep_over {prod : Bool} (hf : (if prod then handleFree (s.cur.rdH h) else handleFilled (s.cur.rdH h)) < (s.rdS r).toNat) :
    handleStep s h r prod = .ok (s.putStat stHover) := by
  simp only [handleStep, handleSet_of_slots hs, Bool.not_true, Bool.false_eq_true, if_false, handleAdvance, if_pos hf]

end

theorem handles : Statements.Handles := by
  intro s h r v slots prod cons filled n put
  have hfilled (w : Word64) : handleFilled w = filled w := handleFilled_eq w
  have hcons : bits v 15 0 = cons := by simp [bits, cons]
  refine ⟨?_, completes_of_ok rfl, ?_, ?_⟩
  · intro w valid
    have hvalid : handleValid w = true ↔ valid := by
      rw [handleValid_iff, hfilled]
      rfl
    exact ⟨fun hv => completes_of_ok (congrArg slotDone (if_pos (hvalid.2 hv))),
      fun hv => faults_of_slotDone (congrArg slotDone (if_neg (mt hvalid.1 hv)))⟩
  · intro hs
    refine ⟨fun hn hf => ?_, fun hn hf => ?_, fun hf => ?_, fun hf => ?_, fun hf => ?_, fun hf => ?_⟩
    · exact completes_of_ok (congrArg slotDone (handleWait_ends (room := false) hs hn (by rw [← hfilled] at hf; exact hf)))
    · exact completes_of_ok (congrArg slotDone (handleWait_ends (room := true) hs hn (by rw [← hfilled] at hf; exact hf)))
    · have hstep := handleStep_moves (prod := false) (r := r) hs (by rw [← hfilled] at hf; exact hf)
      rw [hcons] at hstep
      exact completes_of_ok (congrArg slotDone hstep)
    · have hstep := handleStep_moves (prod := true) (r := r) hs (by rw [← hfilled] at hf; exact hf)
      rw [hcons] at hstep
      exact completes_of_ok (congrArg slotDone hstep)
    · exact completes_of_ok (congrArg slotDone (handleStep_over (prod := false) hs (by rw [← hfilled] at hf; exact hf)))
    · exact completes_of_ok (congrArg slotDone (handleStep_over (prod := true) hs (by rw [← hfilled] at hf; exact hf)))
  · intro hs
    exact ⟨faults_of_slotDone (congrArg slotDone (handleWait_unset hs)), faults_of_slotDone (congrArg slotDone (handleWait_unset hs)),
      faults_of_slotDone (congrArg slotDone (handleStep_unset hs)), faults_of_slotDone (congrArg slotDone (handleStep_unset hs))⟩

/-- Settles O32: the fields of latch words and handles, and what each instruction makes of them. -/
theorem latchesAndHandles : Obligations.LatchesAndHandles := ⟨latches, handles⟩

end Sys2Proof.Machine
end

