-- ==== Sys2Proof/Proofs/Frames.lean ====
section
/-! Frame registers and the states of panes (R91 to R98, R108, R113, R114, R121). -/

namespace Sys2Proof.Machine

/-! ### Binding (R91, R113, R274) -/

/-- No pane of the context is open on the frame that a register binds. -/
def NoneOpen (s : State) (f : FReg) : Prop := ∀ old, vget none s.cur.f f.toNat = some old → (s.frame old).openOf s.iss.g s.iss.x = none

theorem unbindCheck_ok {s : State} {f : FReg} (h : NoneOpen s f) : unbindCheck s f = .ok () := by
  unfold unbindCheck
  split
  · rfl
  next pa hb => rw [h pa hb]

theorem exec_fbind (r : SReg) (f : FReg) (s : State) :
    exec (.fbind r f) s = slotDone (do
      let va := s.rdS r
      unbindCheck s f
      let (pa, ws) ← recordAt s va va
      let q := frameRecOf va.toNat ws
      if frameRecBad ws q then protFault s va
      let l ← arenaLoc s q va
      if l.kind = 1 && s.frameKindOk q 1 then
        let (q, s) ← (if !q.diff then .ok (q, s) else do
          let (apa, a) ← adjointAt s (w64 q.adj) va
          if adjointMismatch q a then protFault s va
          let s ← (if (s.frame apa).inDir then .ok s else enterRecord s apa a va)
          .ok ({ q with adjPa := apa }, s))
        let s ← enterRecord s pa q va
        .ok (s.emit (.bind f.toNat (some pa)) 1)
      else if l.kind = 2 && q.adjointFields && s.frameKindOk q 2 then
        let s ← enterRecord s pa { q with adjoint := true } va
        .ok (s.emit (.bind f.toNat (some pa)) 1)
      else protFault s va) := rfl

section
variable {s : State} {r : SReg} {f : FReg} {pa : Nat} {ws : List Word64} {l : Loc} {q : FrameRec}
  (ho : NoneOpen s f) (hr : recordAt s (s.rdS r) (s.rdS r) = .ok (pa, ws)) (hq : q = frameRecOf (s.rdS r).toNat ws)
  (hb : frameRecBad ws q = false) (hl : arenaLoc s q (s.rdS r) = .ok l)
include ho hr hq hb hl

/-- A sound record without an adjoint, on pages of kind frame, is entered and bound. -/
theorem fbind_plain {t : State} (hk : l.kind = 1) (hp : s.frameKindOk q 1 = true) (hd : q.diff = false)
    (he : enterRecord s pa q (s.rdS r) = .ok t) : Completes (.fbind r f) s (t.emit (.bind f.toNat (some pa)) 1) := by
  subst hq
  refine completes_of_ok ?_
  rw [exec_fbind]
  simp only [unbindCheck_ok ho, hr, hb, hl, hk, hp, hd, he, bind, Except.bind, decide_true, Bool.true_and, Bool.not_false, Bool.false_eq_true, if_false,
    if_true]

/-- A sound record with an adjoint is entered after its adjoint's. -/
theorem fbind_diff {t u : State} {apa : Nat} {a : FrameRec} (hk : l.kind = 1) (hp : s.frameKindOk q 1 = true) (hd : q.diff = true)
    (ha : adjointAt s (w64 q.adj) (s.rdS r) = .ok (apa, a)) (hm : adjointMismatch q a = false)
    (hi : (if (s.frame apa).inDir then .ok s else enterRecord s apa a (s.rdS r)) = .ok t)
    (he : enterRecord t pa { q with adjPa := apa } (s.rdS r) = .ok u) : Completes (.fbind r f) s (u.emit (.bind f.toNat (some pa)) 1) := by
  subst hq
  refine completes_of_ok ?_
  rw [exec_fbind]
  have hnd : (!(frameRecOf (s.rdS r).toNat ws).diff) = false := by rw [hd]; rfl
  simp only [unbindCheck_ok ho, hr, hb, hl, hk, hp, hnd, ha, hm, hi, he, bind, Except.bind, decide_true, Bool.true_and, Bool.not_true,
    Bool.false_eq_true, if_false, if_true]

/-- A record of an adjoint frame, on pages of kind adjoint, is entered and bound. -/
theorem fbind_adjoint {t : State} (hk : l.kind = 2) (hf : q.adjointFields = true) (hp : s.frameKindOk q 2 = true)
    (he : enterRecord s pa { q with adjoint := true } (s.rdS r) = .ok t) : Completes (.fbind r f) s (t.emit (.bind f.toNat (some pa)) 1) := by
  subst hq
  refine completes_of_ok ?_
  rw [exec_fbind]
  simp only [unbindCheck_ok ho, hr, hb, hl, hk, hf, hp, he, bind, Except.bind, decide_true, Bool.true_and, Bool.false_eq_true, if_false, if_true,
    show decide (2 = 1) = false from rfl, Bool.false_and]

end

/-- An unbinding with no pane open empties the frame register. -/
theorem fbindU_ok {s : State} {f : FReg} (ho : NoneOpen s f) : Completes (.fbindU f) s (s.emit (.bind f.toNat none) 1) := by
  refine completes_of_ok ?_
  show execFbindU f s = _
  simp only [execFbindU, unbindCheck_ok ho, bind, Except.bind]

theorem frameBinding : Statements.FrameBinding := by
  intro s r f pa ws l va q closed
  refine ⟨fun ho => fbindU_ok ho,
    fun ho hr hb hl => ⟨fun hk hp hd t he => fbind_plain ho hr rfl hb hl hk hp hd he, fun hk hp hd apa a t u ha hm hi he =>
      fbind_diff ho hr rfl hb hl hk hp hd ha hm hi he, fun hk hf hp t he => fbind_adjoint ho hr rfl hb hl hk hf hp he⟩⟩

/-! ### Pane states (R95 to R98, R108, R114, R121) -/

theorem paneName_eq (s : State) (r : SReg) : s.paneName r = (s.rdS r).toNat % 2 ^ 16 := by simp [State.paneName, bits]

section
variable {s : State} {f : FReg} {pa : Nat} (hb : vget none s.cur.f f.toNat = some pa)
include hb

theorem gatedFrame_ok (hg : (s.frame pa).glazeWait = none) : gatedFrame s f = .ok (pa, s.frame pa) := by
  unfold gatedFrame
  simp only [boundOf_some hb, paneGate_ok hg, bind, Except.bind]

/-- A pane of a new name is opened where the context has none open and the arena has room. -/
theorem openPaneOn_ok {n : SReg} {ow : Bool} (hn : s.paneName n < 0xE800) (ho : (s.frame pa).openOf s.iss.g s.iss.x = none)
    (hu : (s.frame pa).nameUsed (s.paneName n) = false) (hr : (s.frame pa).used + 1 ≤ (s.frame pa).capacity)
    (ha : ow = true ∨ (s.frame pa).info.addok = true) :
    openPaneOn s n f ow = .ok (s.changeFrame pa { s.frame pa with
      loose := (s.frame pa).loose ++ [{ name := s.paneName n, ow, st := .opened s.iss.g s.iss.x }] }) := by
  have hadd : (!ow && !(s.frame pa).info.addok) = false := by
    rcases ha with h | h <;> simp [h]
  unfold openPaneOn
  simp only [boundOf_some hb, nameFree, if_neg (not_le.2 hn), ho, hu, hadd, needArena, if_pos hr, bind, Except.bind, Bool.false_eq_true, if_false]

variable (hg : (s.frame pa).glazeWait = none)
include hg

theorem pseal_none (ho : (s.frame pa).openOf s.iss.g s.iss.x = none) : Completes (.pseal f) s s.paneNone := by
  refine completes_of_ok ?_
  show execPseal f s = _
  simp only [execPseal, gatedFrame_ok hb hg, ho, bind, Except.bind]

theorem pseal_seals {p : Pane} (ho : (s.frame pa).openOf s.iss.g s.iss.x = some p) :
    Completes (.pseal f) s (s.changeFrame pa ((s.frame pa).setLoose { p with st := .sealed })) := by
  refine completes_of_ok ?_
  show execPseal f s = _
  simp only [execPseal, gatedFrame_ok hb hg, ho, bind, Except.bind]

theorem pdrop_none {n : SReg} (hd : (s.frame pa).droppable s.iss.g s.iss.x (s.paneName n) = none) : Completes (.pdrop n f) s s.paneNone := by
  refine completes_of_ok ?_
  show execPdrop n f s = _
  simp only [execPdrop, gatedFrame_ok hb hg, hd, bind, Except.bind]

theorem pdrop_drops {n : SReg} {p : Pane} (hd : (s.frame pa).droppable s.iss.g s.iss.x (s.paneName n) = some p) :
    Completes (.pdrop n f) s (s.changeFrame pa ((((s.frame pa).dropLoose p.name).freed p p.arenaBlocks).loseSettle p)) := by
  refine completes_of_ok ?_
  show execPdrop n f s = _
  simp only [execPdrop, gatedFrame_ok hb hg, hd, bind, Except.bind]

theorem psettleAll_ok : Completes (.psettleAll f) s (s.changeFrame pa { s.frame pa with settleAll := true }) := by
  refine completes_of_ok ?_
  show execPsettleAll f s = _
  simp only [execPsettleAll, gatedFrame_ok hb hg, bind, Except.bind]

end

section
variable {s : State} {f : FReg} {pa : Nat} (hb : vget none s.cur.f f.toNat = some pa) {d n : SReg}
include hb

theorem pstatP_none (h : ((s.frame pa).loose ++ (s.frame pa).chain).find? (fun q => q.name == s.paneName n) = none) :
    Completes (.pstatP d n f) s (s.putS d 0 8) := by
  refine completes_of_ok ?_
  show execPstatP d n f s = _
  simp only [execPstatP, boundOf_some hb, h, bind, Except.bind]

theorem pstatP_some {p : Pane} (h : ((s.frame pa).loose ++ (s.frame pa).chain).find? (fun q => q.name == s.paneName n) = some p)
    (hi : p.implicit = false) : Completes (.pstatP d n f) s (s.putS d (w64 ((s.frame pa).paneWord p)) 8) := by
  refine completes_of_ok ?_
  show execPstatP d n f s = _
  simp only [execPstatP, boundOf_some hb, h, hi, bind, Except.bind, Bool.false_eq_true, if_false]

theorem pstatF_ok : Completes (.pstatF d f) s (s.putS d (w64 (s.frame pa).chainWord) 8) := by
  refine completes_of_ok ?_
  show execPstatF d f s = _
  simp only [execPstatF, boundOf_some hb, bind, Except.bind]

theorem pstatA_ok : Completes (.pstatA d f) s (s.putS d (w64 (s.frame pa).arenaWord) 8) := by
  refine completes_of_ok ?_
  show execPstatA d f s = _
  simp only [execPstatA, boundOf_some hb, bind, Except.bind]

end

/-- The word of PSTAT.F, with its mark of an empty chain. -/
theorem chainWord_eq (fr : Frame) : fr.chainWord = (if fr.chain = [] then 2 ^ 32 else 0) +
    (match fr.chain.getLast? with | some p => p.name | none => 0) * 2 ^ 16 + fr.info.maxdepth * 2 ^ 8 + fr.chain.length := by
  have hflag : flag fr.chain.isEmpty 32 = if fr.chain = [] then 2 ^ 32 else 0 := by simp [flag]
  rw [Frame.chainWord, hflag] <;> rfl

theorem paneStates : Statements.PaneStates := by
  intro s n d f pa fr g x name none_ fresh opened hb
  have hname : s.paneName n = name := paneName_eq s n
  refine ⟨?_, ?_, fun hg => ⟨fun h => pseal_none hb hg h, fun p h => pseal_seals hb hg h, ?_, ?_, psettleAll_ok hb hg⟩, ⟨?_, ?_⟩, ?_, pstatA_ok hb⟩
  · rintro ⟨hn, ho, hu, hr⟩
    rw [← hname] at hn hu
    have h := openPaneOn_ok (ow := true) hb hn ho hu hr (.inl rfl)
    rw [hname] at h
    exact completes_of_ok (congrArg slotDone h)
  · rintro ⟨hn, ho, hu, hr⟩ ha
    rw [← hname] at hn hu
    have h := openPaneOn_ok (ow := false) hb hn ho hu hr (.inr ha)
    rw [hname] at h
    exact completes_of_ok (congrArg slotDone h)
  · intro h
    rw [← hname] at h
    exact pdrop_none hb hg h
  · intro p h
    rw [← hname] at h
    exact pdrop_drops hb hg h
  · intro h
    exact pstatP_none hb (by rw [hname]; exact h)
  · intro p h hi
    exact pstatP_some hb (by rw [hname]; exact h) hi
  · have h := pstatF_ok (d := d) hb
    rw [chainWord_eq] at h
    exact h

/-- Settles O30: binding a sound record, and the states of the panes of a bound frame. -/
theorem framesAndPaneStates : Obligations.FramesAndPaneStates := ⟨frameBinding, paneStates⟩

end Sys2Proof.Machine
end

