-- ==== Sys2Proof/Proofs/PaneEvents.lean ====
section
/-! Pane events and moves (R99 to R104, R115 to R120). -/

namespace Sys2Proof.Machine

/-! ### Applying and merging (R99 to R101, R115, R116, R118) -/

theorem firstConflict_none {p : Pane} {l : List Pane} (h : ∀ q ∈ l, commutes p q = true) : firstConflict p l = none := by
  rw [firstConflict, List.find?_eq_none]
  intro q hq
  simp [h q hq]

section
variable {s : State} {a b c : SReg} {f : FReg} {pa : Nat} {fs : List (Nat × Frame)} {fl : BitVec 6}

theorem papplyG_commits {count1 : BitVec 2} (hr : Released s)
    (ha : applyGroup s [] (groupPanes s a b (count1.toNat + 1)) = .ok (some (fs, fl))) :
    Completes (.papplyG a b count1) s ((s.changeFrames fs).putFlags fl 1) := by
  refine completes_of_ok ?_
  show execPapplyG a b count1 s = _
  simp only [execPapplyG, ha, needReleased_ok hr, bind, Except.bind]

theorem papplyG_none {count1 : BitVec 2} (ha : applyGroup s [] (groupPanes s a b (count1.toNat + 1)) = .ok none) :
    Completes (.papplyG a b count1) s s.paneNone := by
  refine completes_of_ok ?_
  show execPapplyG a b count1 s = _
  simp only [execPapplyG, ha, bind, Except.bind]

variable (hb : vget none s.cur.f f.toNat = some pa) (hg : (s.frame pa).glazeWait = none)
include hb hg

theorem papply_none (hp : (s.frame pa).sealedPane (s.paneName a) = none) : Completes (.papply a f) s s.paneNone := by
  refine completes_of_ok ?_
  show execPapply a f s = _
  simp only [execPapply, boundOf_some hb, hp, paneGate_ok hg, bind, Except.bind]

omit hg in
theorem papply_commits {p : Pane} (hr : Released s) (hp : (s.frame pa).sealedPane (s.paneName a) = some p)
    (ha : applyAll s [(pa, p)] = .ok (fs, fl)) : Completes (.papply a f) s ((s.changeFrames fs).putFlags fl 1) := by
  refine completes_of_ok ?_
  show execPapply a f s = _
  simp only [execPapply, boundOf_some hb, hp, needReleased_ok hr, ha, bind, Except.bind]

omit hb hg in
theorem nameFree_ok {n : Nat} (hn : n < 0xE800) : nameFree s pa n = .ok () := if_neg (not_le.2 hn)

theorem pinv_none (hn : s.paneName b < 0xE800) (hf : ((s.frame pa).chain.find? fun q => q.name == s.paneName a) = none) :
    Completes (.pinv a b f) s s.paneNone := by
  refine completes_of_ok ?_
  show execPinv a b f s = _
  simp only [execPinv, gatedFrame_ok hb hg, nameFree_ok hn, hf, bind, Except.bind]

theorem pinv_commits {p : Pane} {t : Frame} (hr : Released s) (hn : s.paneName b < 0xE800)
    (hf : ((s.frame pa).chain.find? fun q => q.name == s.paneName a) = some p) (hu : (s.frame pa).nameUsed (s.paneName b) = false)
    (ha : applyOne s pa (s.frame pa) (p.inverse (s.frame pa).info (s.paneName b)) (p.inverse (s.frame pa).info (s.paneName b)).ownBlocks =
      .ok (t, fl)) : Completes (.pinv a b f) s ((s.changeFrame pa t).putFlags fl 1) := by
  refine completes_of_ok ?_
  show execPinv a b f s = _
  simp only [execPinv, gatedFrame_ok hb hg, nameFree_ok hn, hf, hu, needReleased_ok hr, ha, bind, Except.bind, Bool.false_eq_true, if_false]

variable {i j : Nat}

theorem pglaze_none (hn : s.paneName c < 0xE800) (hi : (s.frame pa).position (s.paneName a) = some i)
    (hj : (s.frame pa).position (s.paneName b) = some j) (hlt : j < i) : Completes (.pglaze a b c f) s s.paneNone := by
  refine completes_of_ok ?_
  show execPglaze a b c f s = _
  simp only [execPglaze, gatedFrame_ok hb hg, nameFree_ok hn, hi, hj, decide_eq_true hlt, Bool.true_or, bind, Except.bind, if_true]

theorem pglaze_commits {p : Pane} (hn : s.paneName c < 0xE800) (hi : (s.frame pa).position (s.paneName a) = some i)
    (hj : (s.frame pa).position (s.paneName b) = some j) (hle : i ≤ j) (hu : (s.frame pa).nameUsed (s.paneName c) = false) (hr : Released s)
    (hp : glazePane s pa (s.frame pa) i j (s.paneName c) = .ok (p, fl)) :
    Completes (.pglaze a b c f) s ((s.changeFrame pa ((s.frame pa).glazed i j p)).putFlags fl 1) := by
  refine completes_of_ok ?_
  show execPglaze a b c f s = _
  simp only [execPglaze, gatedFrame_ok hb hg, nameFree_ok hn, hi, hj, decide_eq_false (not_lt.2 hle), hu, needReleased_ok hr, hp, Bool.or_self,
    bind, Except.bind, Bool.false_eq_true, if_false]

end

theorem paneEvents : Statements.PaneEvents := by
  intro s a b c f count1 fs fl pa fr name none_
  have hname (r : SReg) : name r = s.paneName r := (paneName_eq s r).symm
  refine ⟨papplyG_commits, papplyG_none, fun hb hg => ⟨fun h => ?_, fun p hr h ha => ?_, fun hn hf => ?_, fun p t hr hn hf hu ha => ?_,
    fun i j p hn hi hj => ⟨fun hlt => ?_, fun hle hu hr hp => ?_⟩⟩⟩
  · rw [hname] at h
    exact papply_none hb hg h
  · rw [hname] at h
    exact papply_commits hb hr h ha
  · rw [hname] at hn hf
    exact pinv_none hb hg hn hf
  · rw [hname] at hn hf hu ha
    exact pinv_commits hb hg hr hn hf hu ha
  · rw [hname] at hn hi hj
    exact pglaze_none hb hg hn hi hj hlt
  · rw [hname] at hn hi hj hu hp
    exact pglaze_commits hb hg hn hi hj hle hu hr hp

/-! ### Moving panes (R104, R117, R119, R120) -/

section
variable {s : State} {a b : SReg} {f h : FReg} {pa qa i j : Nat} (hb : vget none s.cur.f f.toNat = some pa)
  (hg : (s.frame pa).glazeWait = none)
include hb hg

theorem plift_none (hp : (s.frame pa).position (s.paneName a) = none) : Completes (.plift a f) s s.paneNone := by
  refine completes_of_ok ?_
  show execPlift a f s = _
  simp only [execPlift, gatedFrame_ok hb hg, hp, bind, Except.bind]

theorem psettle_none (hp : (s.frame pa).position (s.paneName a) = none) : Completes (.psettle a f) s s.paneNone := by
  refine completes_of_ok ?_
  show execPsettle a f s = _
  simp only [execPsettle, gatedFrame_ok hb hg, hp, bind, Except.bind]

variable (hi : (s.frame pa).position (s.paneName a) = some i)
include hi

theorem pcomm_moves (hj : (s.frame pa).position (s.paneName b) = some j) (hlt : j < i)
    (hc : firstConflict ((s.frame pa).chain.getD i default) (((s.frame pa).chain.drop j).take (i - j)) = none) :
    Completes (.pcomm a b f) s (s.changeFrame pa { s.frame pa with
      chain := ((s.frame pa).chain.eraseIdx i).take j ++ (s.frame pa).chain.getD i default :: ((s.frame pa).chain.eraseIdx i).drop j }) := by
  refine completes_of_ok ?_
  show execPcomm a b f s = _
  simp only [execPcomm, gatedFrame_ok hb hg, hi, hj, if_neg (not_le.2 hlt), hc, bind, Except.bind]

theorem pcomm_conflicts {q : Pane} (hj : (s.frame pa).position (s.paneName b) = some j) (hlt : j < i)
    (hc : firstConflict ((s.frame pa).chain.getD i default) (((s.frame pa).chain.drop j).take (i - j)) = some q) :
    Faults (.pcomm a b f) s cPane (w64 pa) 0 (w64 (q.name * 2 ^ 16 + ((s.frame pa).chain.getD i default).name)) := by
  refine faults_of_slotDone ?_
  show execPcomm a b f s = _
  simp only [execPcomm, gatedFrame_ok hb hg, hi, hj, if_neg (not_le.2 hlt), hc, bind, Except.bind, paneFault]

theorem plift_lifts (hc : firstConflict ((s.frame pa).chain.getD i default) ((s.frame pa).chain.drop (i + 1)) = none) (hr : Released s) :
    Completes (.plift a f) s (s.changeFrame pa (({ s.frame pa with
      chain := (s.frame pa).chain.eraseIdx i
      loose := (s.frame pa).loose ++ [{ ((s.frame pa).chain.getD i default).dropPre with st := .sealed }] } : Frame).freed
        ((s.frame pa).chain.getD i default) ((s.frame pa).chain.getD i default).preBlocks)) := by
  refine completes_of_ok ?_
  show execPlift a f s = _
  simp only [execPlift, gatedFrame_ok hb hg, hi, hc, needReleased_ok hr, bind, Except.bind]

theorem plift_conflicts {q : Pane} (hc : firstConflict ((s.frame pa).chain.getD i default) ((s.frame pa).chain.drop (i + 1)) = some q) :
    Faults (.plift a f) s cPane (w64 pa) 0 (w64 (q.name * 2 ^ 16 + ((s.frame pa).chain.getD i default).name)) := by
  refine faults_of_slotDone ?_
  show execPlift a f s = _
  simp only [execPlift, gatedFrame_ok hb hg, hi, hc, bind, Except.bind, paneFault]

theorem psettle_marks (hc : firstConflict ((s.frame pa).chain.getD i default) ((s.frame pa).chain.take i).reverse = none) :
    Completes (.psettle a f) s (s.changeFrame pa { s.frame pa with
      chain := (s.frame pa).chain.set i { (s.frame pa).chain.getD i default with settle := true } }) := by
  refine completes_of_ok ?_
  show execPsettle a f s = _
  simp only [execPsettle, gatedFrame_ok hb hg, hi, hc, bind, Except.bind, lset]

omit hi in
theorem pxpl_copies {p q : Pane}
    (hq : q = { p.dropPre with name := s.paneName b, st := .sealed, old := false, settle := false, implicit := false })
    (hh : vget none s.cur.f h.toNat = some qa)
    (hw : (s.frame qa).glazeWait = none) (hn : s.paneName b < 0xE800) (hp : (s.frame pa).copyable (s.paneName a) = some p)
    (hs : (s.frame pa).info.sameShape (s.frame qa).info = true) (ha : p.ow = true ∨ (s.frame qa).info.addok = true)
    (hu : (s.frame qa).nameUsed (s.paneName b) = false) (hroom : (s.frame qa).used + q.ownBlocks ≤ (s.frame qa).capacity) (hr : Released s) :
    Completes (.pxpl a b f h) s (s.changeFrame qa { s.frame qa with loose := (s.frame qa).loose ++ [q] }) := by
  subst hq
  have hadd : (!p.ow && !(s.frame qa).info.addok) = false := by
    rcases ha with h | h <;> simp [h]
  refine completes_of_ok ?_
  show execPxpl a b f h s = _
  simp only [execPxpl, gatedFrame_ok hb hg, gatedFrame_ok hh hw, nameFree_ok hn, hp, hs, hadd, hu, needArena, if_pos hroom, needReleased_ok hr,
    bind, Except.bind, Bool.not_true, Bool.false_eq_true, if_false]

end

theorem sameShape_of_eq {r q : FrameRec} (hf : r.fmt = q.fmt) (hl : r.layout = q.layout) (hd : ∀ j < 4, r.dim j = q.dim j) :
    r.sameShape q = true := by
  simp only [FrameRec.sameShape, FrameRec.sameDims, Bool.and_eq_true, beq_iff_eq, List.all_eq_true, List.mem_range]
  exact ⟨⟨hf, hl⟩, hd⟩

theorem paneMoves : Statements.PaneMoves := by
  intro s a b f h pa qa fr dst name conflict hb hg
  have hname (r : SReg) : name r = s.paneName r := (paneName_eq s r).symm
  simp only [hname]
  refine ⟨fun i j hi hj hlt => ⟨fun hc => pcomm_moves hb hg hi hj hlt (firstConflict_none hc), fun q hc => pcomm_conflicts hb hg hi hj hlt hc⟩,
    fun i hi => ⟨fun hc hr => plift_lifts hb hg hi (firstConflict_none hc) hr, fun q hc => plift_conflicts hb hg hi hc, fun hc =>
      psettle_marks hb hg hi (firstConflict_none fun q hq => hc q (List.mem_reverse.1 hq))⟩,
    fun hp => ⟨plift_none hb hg hp, psettle_none hb hg hp⟩,
    fun hh hw hn p hp hf hl hd ha hu hroom hr => pxpl_copies hb hg rfl hh hw hn hp (sameShape_of_eq hf hl hd) ha hu hroom hr⟩

end Sys2Proof.Machine
end

