-- ==== Sys2Proof/Proofs/PaneChains.lean ====
section
/-! What an apply, an inverse and a merge leave on a chain (R98 to R102, R115, R116, R118, R281). -/

namespace Sys2Proof.Machine

theorem exists_of_bind_ok {ε α β : Type} {x : Except ε α} {f : α → Except ε β} {b : β} (h : (x >>= f) = .ok b) :
    ∃ a, x = .ok a ∧ f a = .ok b := by
  cases x with
  | error e => cases h
  | ok a => exact ⟨a, rfl, h⟩

/-! ### Room and pre-images -/

theorem needArena_eq_ok {s : State} {pa n : Nat} {f : Frame} (h : needArena s pa f n = .ok ()) : f.used + n ≤ f.capacity := by
  unfold needArena at h
  split at h
  · assumption
  · cases h

theorem freed_chain (f : Frame) (p : Pane) (n : Nat) : (f.freed p n).chain = f.chain := by unfold Frame.freed; split <;> rfl

theorem freed_loose (f : Frame) (p : Pane) (n : Nat) : (f.freed p n).loose = f.loose := by unfold Frame.freed; split <;> rfl

theorem freed_info (f : Frame) (p : Pane) (n : Nat) : (f.freed p n).info = f.info := by unfold Frame.freed; split <;> rfl

theorem freed_zombie (f : Frame) (p : Pane) (n : Nat) : (f.freed p n).zombie = f.zombie + if p.old then n else 0 := by
  unfold Frame.freed; split <;> rfl

/-- Freeing the panes of a run changes the counts alone. -/
theorem foldl_freed (run : List Pane) : ∀ f : Frame,
    let u := run.foldl (fun f q => (f.freed q q.arenaBlocks).loseSettle q) f
    u.chain = f.chain ∧ u.loose = f.loose ∧ u.info = f.info ∧ u.zombie = f.zombie + ((run.filter (·.old)).map Pane.arenaBlocks).sum := by
  induction run with
  | nil => exact fun f => ⟨rfl, rfl, rfl, rfl⟩
  | cons q run ih =>
    intro f
    obtain ⟨hc, hl, hi, hz⟩ := ih ((f.freed q q.arenaBlocks).loseSettle q)
    refine ⟨hc.trans (freed_chain f q _), hl.trans (freed_loose f q _), hi.trans (freed_info f q _), hz.trans ?_⟩
    have h : ((f.freed q q.arenaBlocks).loseSettle q).zombie = f.zombie + if q.old then q.arenaBlocks else 0 := freed_zombie f q _
    rw [h]
    cases ho : q.old <;> simp [ho, Nat.add_assoc]

theorem glazed_parts (f : Frame) (lo hi : Nat) (g : Pane) :
    (f.glazed lo hi g).chain = f.chain.take lo ++ g :: f.chain.drop (hi + 1) ∧ (f.glazed lo hi g).loose = f.loose ∧
    (f.glazed lo hi g).info = f.info ∧ (f.glazed lo hi g).zombie =
      f.zombie + ((((f.chain.drop lo).take (hi + 1 - lo)).filter (·.old)).map Pane.arenaBlocks).sum :=
  foldl_freed _ _

theorem canGlaze_parts {f : Frame} (h : f.canGlaze = true) : ∃ (l m : Pane) (above : List Pane), f.chain = l :: m :: above ∧
    f.info.hglaze = true ∧ l.ow = false ∧ m.ow = false := by
  unfold Frame.canGlaze at h
  rw [Bool.and_eq_true] at h
  obtain ⟨hg, hc⟩ := h
  split at hc
  next l m above heq =>
    simp only [Bool.and_eq_true, Bool.not_eq_true'] at hc
    exact ⟨l, m, above, heq, hg, hc.1, hc.2⟩
  · cases hc

/-- Room for one more pane is the frame as it stands, or the one whose two lowest panes are merged. -/
theorem makeRoom_ok {s : State} {pa n : Nat} {f f0 : Frame} {fl : BitVec 6} (h : makeRoom s pa f n = .ok (f0, fl)) :
    (f.chain.length < f.info.maxdepth → f0 = f ∧ fl = 0) ∧
    (f.info.maxdepth ≤ f.chain.length → ∃ (l m : Pane) (above : List Pane) (g : Pane), f.chain = l :: m :: above ∧ f.info.hglaze = true ∧
      l.ow = false ∧ m.ow = false ∧ glazePane s pa f 0 1 l.name = .ok (g, fl) ∧ f0 = f.glazed 0 1 g) := by
  unfold makeRoom at h
  by_cases hlt : f.chain.length + 1 ≤ f.info.maxdepth
  · rw [if_pos hlt] at h
    cases h
    exact ⟨fun _ => ⟨rfl, rfl⟩, fun hle => absurd hlt (by omega)⟩
  · refine ⟨fun h' => absurd h' (by omega), fun _ => ?_⟩
    rw [if_neg hlt] at h
    cases hc : f.canGlaze with
    | false => rw [hc] at h; cases h
    | true =>
      obtain ⟨l, m, above, hch, hg, hl, hm⟩ := canGlaze_parts hc
      rw [hc, if_neg (by decide)] at h
      split at h
      · unfold glazeByHost at h
        cases h
      · rw [hch] at h
        obtain ⟨⟨g, fl'⟩, hgl, he⟩ := exists_of_bind_ok h
        cases he
        exact ⟨l, m, above, g, hch, hg, hl, hm, hgl, rfl⟩

theorem makeRoom_info {s : State} {pa n : Nat} {f f0 : Frame} {fl : BitVec 6} (h : makeRoom s pa f n = .ok (f0, fl)) : f0.info = f.info := by
  obtain ⟨hroom, hfull⟩ := makeRoom_ok h
  by_cases hlt : f.chain.length < f.info.maxdepth
  · rw [(hroom hlt).1]
  · obtain ⟨l, m, above, g, -, -, -, -, -, he⟩ := hfull (not_lt.1 hlt)
    rw [he, (glazed_parts f 0 1 g).2.2.1]

/-- A block with the pre-image that a value gives it. -/
def PaneBlock.withPre (k : PaneBlock) (v : VVal) : PaneBlock :=
  { k with pre := some v.data, preScale := scaleOf v.desc, prePoison := isPoison v.desc }

/-- The blocks that reset the chain take what it reads as below, and the others stay. -/
theorem capturePre_ok {s : State} {r : FrameRec} {below : List Pane} {p : Pane} : ∀ {ks qs : List PaneBlock},
    capturePre s r below p ks = .ok qs → qs.length = ks.length ∧ ∀ (i : Nat) (k : PaneBlock), ks[i]? = some k →
      if p.ow = true ∨ k.cleared ≠ 0 then ∃ v fl, frameRead s r below k.idx = .ok (v, fl) ∧ qs[i]? = some (k.withPre v) else qs[i]? = some k := by
  intro ks
  induction ks with
  | nil =>
    intro qs h
    cases h
    exact ⟨rfl, fun i k hk => by simp at hk⟩
  | cons k ks ih =>
    intro qs h
    obtain ⟨rest, hrest, h⟩ := exists_of_bind_ok h
    obtain ⟨hlen, hat⟩ := ih hrest
    have htake : (takesPre p k = true) ↔ (p.ow = true ∨ k.cleared ≠ 0) := by simp [takesPre]
    cases ht : takesPre p k with
    | true =>
      rw [ht, if_pos rfl] at h
      obtain ⟨⟨v, fl⟩, hv, he⟩ := exists_of_bind_ok h
      cases he
      refine ⟨congrArg (· + 1) hlen, fun i j hj => ?_⟩
      cases i with
      | zero =>
        cases hj
        rw [if_pos (htake.1 ht)]
        exact ⟨v, fl, hv, rfl⟩
      | succ i => exact hat i j hj
    | false =>
      rw [ht, if_neg (by decide)] at h
      cases h
      refine ⟨congrArg (· + 1) hlen, fun i j hj => ?_⟩
      cases i with
      | zero =>
        cases hj
        rw [if_neg (fun h' => by rw [htake.2 h'] at ht; cases ht)]
        rfl
      | succ i => exact hat i j hj

/-! ### An apply, alone and in a group -/

/-- What an apply finds and leaves. -/
theorem applyOne_ok {s : State} {pa extra : Nat} {f t : Frame} {p : Pane} {fl : BitVec 6} (h : applyOne s pa f p extra = .ok (t, fl)) :
    ∃ (f0 : Frame) (blocks : List PaneBlock), makeRoom s pa f p.name = .ok (f0, fl) ∧ f0.used + (extra + p.preNeeded) ≤ f0.capacity ∧
      capturePre s f0.info f0.chain p p.blocks = .ok blocks ∧
      t = { f0.dropLoose p.name with chain := f0.chain ++ [{ p with st := .applied, implicit := false, blocks }], glazeWait := none } := by
  obtain ⟨⟨f0, fl'⟩, hroom, h⟩ := exists_of_bind_ok h
  obtain ⟨_, harena, h⟩ := exists_of_bind_ok h
  obtain ⟨blocks, hpre, h⟩ := exists_of_bind_ok h
  cases h
  exact ⟨f0, blocks, hroom, needArena_eq_ok harena, hpre, rfl⟩

theorem applyAll_one {s : State} {pa : Nat} {p : Pane} {fs : List (Nat × Frame)} {fl : BitVec 6} (h : applyAll s [(pa, p)] = .ok (fs, fl)) :
    ∃ u, fs = [(pa, u)] ∧ applyOne s pa (s.frame pa) p 0 = .ok (u, fl) := by
  obtain ⟨_, -, h⟩ := exists_of_bind_ok h
  obtain ⟨⟨u, fl'⟩, hone, h⟩ := exists_of_bind_ok h
  cases h
  rw [show (fl' ||| 0) = fl' from BitVec.or_zero]
  exact ⟨u, rfl, hone⟩

theorem boundOf_eq_ok {s : State} {f : FReg} {pa : Nat} {fr : Frame} (h : boundOf s f = .ok (pa, fr)) :
    vget none s.cur.f f.toNat = some pa ∧ fr = s.frame pa := by
  unfold boundOf at h
  split at h
  · cases h
  next pa' hb =>
    cases h
    exact ⟨hb, rfl⟩

/-- One pane of a group, applied to a frame that no pane before it named, and the rest of the group. -/
theorem applyGroup_cons {s : State} {seen : List (Nat × Nat)} {n : Nat} {r : FReg} {rest : List (Nat × FReg)} {fs : List (Nat × Frame)}
    {fl : BitVec 6} (h : applyGroup s seen ((n, r) :: rest) = .ok (some (fs, fl))) :
    ∃ (pa : Nat) (p : Pane) (u : Frame) (fl' gl : BitVec 6) (gs : List (Nat × Frame)), vget none s.cur.f r.toNat = some pa ∧
      (∀ e ∈ seen, e.1 ≠ pa) ∧ (s.frame pa).sealedPane n = some p ∧ applyOne s pa (s.frame pa) p 0 = .ok (u, fl') ∧
      applyGroup s (seen ++ [(pa, n)]) rest = .ok (some (gs, gl)) ∧ fs = (pa, u) :: gs := by
  obtain ⟨⟨pa, fr⟩, hbound, h⟩ := exists_of_bind_ok h
  obtain ⟨hb, rfl⟩ := boundOf_eq_ok hbound
  simp only at h
  split at h
  next e he => cases h
  next hseen =>
    split at h
    · cases h
    next p hp =>
      obtain ⟨⟨one, fl'⟩, hall, h⟩ := exists_of_bind_ok h
      obtain ⟨u, rfl, hone⟩ := applyAll_one hall
      obtain ⟨o, hrest, h⟩ := exists_of_bind_ok h
      cases o with
      | none => cases h
      | some q =>
        obtain ⟨gs, gl⟩ := q
        cases h
        refine ⟨pa, p, u, fl', gl, gs, hb, fun e he => ?_, hp, hone, hrest, rfl⟩
        have := List.find?_eq_none.1 hseen e he
        simpa using this

theorem applyGroup_some {s : State} : ∀ {panes : List (Nat × FReg)} {seen : List (Nat × Nat)} {fs : List (Nat × Frame)} {fl : BitVec 6},
    applyGroup s seen panes = .ok (some (fs, fl)) → fs.length = panes.length ∧ (fs.map (·.1)).Nodup ∧
      (∀ e ∈ seen, e.1 ∉ fs.map (·.1)) ∧ ∀ (i n : Nat) (r : FReg), panes[i]? = some (n, r) → ∃ qa p u fl',
        vget none s.cur.f r.toNat = some qa ∧ (s.frame qa).sealedPane n = some p ∧ applyOne s qa (s.frame qa) p 0 = .ok (u, fl') ∧
        fs[i]? = some (qa, u) := by
  intro panes
  induction panes with
  | nil =>
    intro seen fs fl h
    cases h
    exact ⟨rfl, List.nodup_nil, fun e _ => List.not_mem_nil, fun i n r h => by simp at h⟩
  | cons e rest ih =>
    intro seen fs fl h
    obtain ⟨n, r⟩ := e
    obtain ⟨pa, p, u, fl', gl, gs, hb, hseen, hp, hone, hrest, rfl⟩ := applyGroup_cons h
    obtain ⟨hlen, hnd, hfresh, hat⟩ := ih hrest
    refine ⟨congrArg (· + 1) hlen, ?_, fun e he hm => ?_, fun i n' r' hi => ?_⟩
    · exact List.nodup_cons.2 ⟨hfresh (pa, n) (by simp), hnd⟩
    · rcases List.mem_cons.1 hm with hm | hm
      · exact hseen e he hm
      · exact hfresh e (List.mem_append_left _ he) hm
    · cases i with
      | zero =>
        cases hi
        exact ⟨pa, p, u, fl', hb, hp, hone, rfl⟩
      | succ i => exact hat i n' r' hi

/-! ### Inverses (R116, R281) -/

/-- The lanes of a frame's block fit a block. -/
theorem width_mul_perBlock_le (r : FrameRec) : r.width * r.perBlock ≤ 512 := width_mul_lanes_le r.width

theorem inverse_idx (k : PaneBlock) (r : FrameRec) (ow : Bool) : (k.inverse r ow).idx = k.idx := by
  unfold PaneBlock.inverse
  simp only
  split_ifs <;> rfl

theorem inverse_pre (k : PaneBlock) (r : FrameRec) (ow : Bool) : (k.inverse r ow).pre = none := by
  unfold PaneBlock.inverse
  simp only
  split_ifs <;> rfl

theorem inverse_poisoned {k : PaneBlock} (r : FrameRec) {ow : Bool} (hp : k.prePoison = true) (h : ow = true ∨ k.cleared ≠ 0) :
    (k.inverse r ow).poison = true ∧ (k.inverse r ow).data = 0 ∧ (k.inverse r ow).present = fullMask r.perBlock := by
  unfold PaneBlock.inverse
  cases ow with
  | true => simp only [hp, if_true, and_self]
  | false =>
    have hc : k.cleared ≠ 0 := h.resolve_left (by decide)
    simp only [hp, if_neg hc, Bool.false_eq_true, if_false, if_true, and_self]

theorem inverse_overwrite {k : PaneBlock} (r : FrameRec) (hp : k.prePoison = false) : (k.inverse r true).poison = false ∧
    (k.inverse r true).data = k.pre.getD 0 ∧ (k.inverse r true).scale = k.preScale ∧ (k.inverse r true).present = k.present := by
  simp only [PaneBlock.inverse, hp, Bool.false_eq_true, if_false, if_true, and_self]

/-- A block without cleared elements keeps its deltas. -/
theorem inverse_bare {k : PaneBlock} (r : FrameRec) (hc : k.cleared = 0) :
    k.inverse r false = { k with pre := none, preScale := 0, prePoison := false } := by
  simp only [PaneBlock.inverse, hc, Bool.false_eq_true, if_false, if_true]

theorem inverse_cleared {k : PaneBlock} (r : FrameRec) (hc : k.cleared ≠ 0) (hp : k.prePoison = false) :
    (k.inverse r false).scale = k.scale ∧ (k.inverse r false).present = k.present ∧ (k.inverse r false).cleared = k.cleared ∧
    ∀ e < r.perBlock, laneOf r.width (k.inverse r false).data e =
      if k.cleared.getLsbD e = true then k.preLane r e % 2 ^ r.width else laneOf r.width k.data e := by
  have heq : k.inverse r false = { k with
      pre := none, preScale := 0, prePoison := false
      data := ofLanes r.width ((List.range r.perBlock).map fun i => if k.cleared.getLsbD i then k.preLane r i else laneOf r.width k.data i) } := by
    simp only [PaneBlock.inverse, if_neg hc, hp, Bool.false_eq_true, if_false]
  rw [heq]
  refine ⟨rfl, rfl, rfl, fun e he => ?_⟩
  simp only
  rw [laneOf_ofLanes_map (width_mul_perBlock_le r) _ he]
  split
  · rfl
  · exact Nat.mod_eq_of_lt (laneOf_lt r.width k.data e)

theorem preLane_mod (k : PaneBlock) (r : FrameRec) (e : Nat) : k.preLane r e % 2 ^ r.width =
    if k.preScale = k.scale then laneOf r.width (k.pre.getD 0) e
    else (r.fit ((laneNum r.fmt ⟨k.pre.getD 0, mkDesc r.fmt k.preScale⟩ e).scale (-k.scale))).1 % 2 ^ r.width := by
  unfold PaneBlock.preLane
  simp only
  split
  · exact Nat.mod_eq_of_lt (laneOf_lt r.width _ e)
  · rfl

theorem negate_negate (x : Num) : x.negate.negate = x := by
  cases x <;> simp [Num.negate]

/-- The inverse of an ADD pane without cleared elements negates each of its terms. -/
theorem termAt_inverse {p : Pane} (r : FrameRec) (name : Nat) (how : p.ow = false) (hcl : ∀ k ∈ p.blocks, k.cleared = 0) (b i : Nat) :
    (p.inverse r name).termAt r.fmt b i = match p.termAt r.fmt b i with | .term v => .term v.negate | x => x := by
  have hblock : (p.inverse r name).block? b = (p.block? b).map fun k => { k with pre := none, preScale := 0, prePoison := false } := by
    show (p.blocks.map fun k => k.inverse r p.ow).find? (fun k => k.idx == b) = _
    rw [List.find?_map, Pane.block?]
    have hcomp : ((fun k : PaneBlock => k.idx == b) ∘ fun k : PaneBlock => k.inverse r p.ow) = fun k => k.idx == b :=
      funext fun k => by simp only [Function.comp, inverse_idx]
    rw [hcomp]
    cases hf : p.blocks.find? fun k => k.idx == b with
    | none => rfl
    | some k => rw [Option.map_some, Option.map_some, how, inverse_bare r (hcl k (List.mem_of_find?_eq_some hf))]
  have hneg : (p.inverse r name).negated = !p.negated := by simp [Pane.inverse, how]
  have hov : (p.inverse r name).ow = false := how
  unfold Pane.termAt
  rw [hblock]
  cases hf : p.block? b with
  | none => rfl
  | some k =>
    have hck : k.cleared.getLsbD i = false := by
      rw [hcl k (List.mem_of_find?_eq_some hf)]
      simp
    simp only [Option.map_some, hneg, hov, how, hck, Bool.false_eq_true, if_false, PaneBlock.val]
    cases k.present.getLsbD i
    · rfl
    · cases p.negated
      · rfl
      · exact congrArg PaneTerm.term (negate_negate _).symm

/-! ### Merges (R118) -/

theorem mem_insertOnce {n m : Nat} {l : List Nat} : m ∈ insertOnce n l ↔ m = n ∨ m ∈ l := by
  induction l with
  | nil => simp [insertOnce]
  | cons a l ih =>
    unfold insertOnce
    split_ifs with hlt heq
    · simp
    · subst heq
      simp
    · simp only [List.mem_cons, ih]
      tauto

theorem insertOnce_rising {n : Nat} {l : List Nat} (h : l.Pairwise (· < ·)) : (insertOnce n l).Pairwise (· < ·) := by
  induction l with
  | nil => simp [insertOnce]
  | cons a l ih =>
    obtain ⟨ha, hl⟩ := List.pairwise_cons.1 h
    unfold insertOnce
    split_ifs with hlt heq
    · exact List.pairwise_cons.2 ⟨fun m hm => (List.mem_cons.1 hm).elim (fun e => e ▸ hlt) fun hm => hlt.trans (ha m hm), h⟩
    · exact h
    · refine List.pairwise_cons.2 ⟨fun m hm => ?_, ih hl⟩
      rcases mem_insertOnce.1 hm with rfl | hm
      · omega
      · exact ha m hm

theorem insertBlocks (ks : List PaneBlock) : ∀ {l : List Nat}, l.Pairwise (· < ·) →
    (ks.foldl (fun l k => insertOnce k.idx l) l).Pairwise (· < ·) ∧
    ∀ b, b ∈ ks.foldl (fun l k => insertOnce k.idx l) l ↔ b ∈ ks.map PaneBlock.idx ∨ b ∈ l := by
  induction ks with
  | nil => exact fun h => ⟨h, fun b => by simp⟩
  | cons k ks ih =>
    intro l h
    obtain ⟨hr, hm⟩ := ih (insertOnce_rising (n := k.idx) h)
    refine ⟨hr, fun b => (hm b).trans ?_⟩
    rw [mem_insertOnce, List.map_cons, List.mem_cons]
    tauto

theorem insertPanes (run : List Pane) : ∀ {l : List Nat}, l.Pairwise (· < ·) →
    (run.foldl (fun l p => p.blocks.foldl (fun l k => insertOnce k.idx l) l) l).Pairwise (· < ·) ∧
    ∀ b, b ∈ run.foldl (fun l p => p.blocks.foldl (fun l k => insertOnce k.idx l) l) l ↔
      (∃ q ∈ run, b ∈ q.blocks.map PaneBlock.idx) ∨ b ∈ l := by
  induction run with
  | nil => exact fun h => ⟨h, fun b => by simp⟩
  | cons q run ih =>
    intro l h
    obtain ⟨hr, hm⟩ := insertBlocks q.blocks h
    obtain ⟨hr', hm'⟩ := ih hr
    refine ⟨hr', fun b => (hm' b).trans ?_⟩
    rw [hm]
    rw [List.exists_mem_cons_iff, or_left_comm, or_assoc]

/-- The blocks of a merge lie at rising indices, those that some pane of the run has. -/
theorem unionFoot_rising (run : List Pane) : (unionFoot run).Pairwise (· < ·) := (insertPanes run List.Pairwise.nil).1

theorem mem_unionFoot {run : List Pane} {b : Nat} : b ∈ unionFoot run ↔ ∃ q ∈ run, b ∈ q.blocks.map PaneBlock.idx := by
  rw [unionFoot, (insertPanes run List.Pairwise.nil).2]
  simp

/-- What a merge makes of one index of its footprint. -/
def MergedBlock (s : State) (r : FrameRec) (add : Bool) (below run : List Pane) (k : PaneBlock) : Prop :=
  if add then ∃ fb, frameRaw s r k.idx = .ok fb ∧ k = (glazeAddBlock r run fb k.idx).1
  else ∃ v pre fv fp, frameRead s r (below ++ run) k.idx = .ok (v, fv) ∧ frameRead s r below k.idx = .ok (pre, fp) ∧
    k = { idx := k.idx, data := v.data, scale := scaleOf v.desc, present := fullMask r.perBlock, poison := isPoison v.desc,
          pre := some pre.data, preScale := scaleOf pre.desc, prePoison := isPoison pre.desc }

theorem glazeBlocks_ok {s : State} {r : FrameRec} {add : Bool} {below run : List Pane} : ∀ {bs : List Nat} {ks : List PaneBlock} {fl : BitVec 6},
    glazeBlocks s r add below run bs = .ok (ks, fl) → ks.map PaneBlock.idx = bs ∧ ∀ k ∈ ks, MergedBlock s r add below run k := by
  intro bs
  induction bs with
  | nil =>
    intro ks fl h
    cases h
    exact ⟨rfl, fun k hk => absurd hk List.not_mem_nil⟩
  | cons b bs ih =>
    intro ks fl h
    obtain ⟨⟨rest, fl'⟩, hrest, h⟩ := exists_of_bind_ok h
    obtain ⟨hidx, hat⟩ := ih hrest
    cases add with
    | true =>
      obtain ⟨fb, hfb, h⟩ := exists_of_bind_ok h
      cases h
      refine ⟨congrArg (b :: ·) hidx, fun k hk => ?_⟩
      rcases List.mem_cons.1 hk with rfl | hk
      · exact ⟨fb, hfb, rfl⟩
      · exact hat k hk
    | false =>
      obtain ⟨⟨v, fv⟩, hv, h⟩ := exists_of_bind_ok h
      obtain ⟨⟨pre, fp⟩, hpre, h⟩ := exists_of_bind_ok h
      cases h
      refine ⟨congrArg (b :: ·) hidx, fun k hk => ?_⟩
      rcases List.mem_cons.1 hk with rfl | hk
      · exact ⟨v, pre, fv, fp, hv, hpre, rfl⟩
      · exact hat k hk

/-- A merge is a pane of the kind that the run asks for, over the union of its footprints. -/
theorem glazePane_ok {s : State} {pa lo hi name : Nat} {f : Frame} {g : Pane} {fl : BitVec 6} (h : glazePane s pa f lo hi name = .ok (g, fl)) :
    let run := (f.chain.drop lo).take (hi + 1 - lo)
    let add := run.all fun p => !p.resets
    ∃ blocks, glazeBlocks s f.info add (f.chain.take lo) run (unionFoot run) = .ok (blocks, fl) ∧
      g = { name, ow := !add, st := .applied, blocks, glazed := true, inexact := (fl &&& fInexact) != 0 } := by
  obtain ⟨_, -, h⟩ := exists_of_bind_ok h
  obtain ⟨⟨blocks, fl'⟩, hb, h⟩ := exists_of_bind_ok h
  cases h
  exact ⟨blocks, hb, rfl⟩

/-- The terms that a run of panes puts on an element. -/
def addTerms (run : List Pane) (fmt b i : Nat) : List Num :=
  run.filterMap fun q => match q.termAt fmt b i with | .term v => some v | _ => none

/-- A pane that does not reset the chain puts a term on an element or nothing. -/
theorem termAt_not_reset {q : Pane} (hq : q.resets = false) (fmt b i : Nat) (v : Num) : q.termAt fmt b i ≠ .reset v := by
  obtain ⟨how, hcl⟩ : q.ow = false ∧ q.hasCleared = false := by simpa [Pane.resets] using hq
  unfold Pane.termAt
  split
  · intro h
    cases h
  next k hk =>
    have hzero : k.cleared = 0 := by
      have := List.any_eq_false.1 hcl k (List.mem_of_find?_eq_some hk)
      simpa using this
    have hck : k.cleared.getLsbD i = false := by
      rw [hzero]
      simp
    simp only [hck, how, Bool.false_eq_true, if_false]
    split <;> intro h <;> cases h

/-- The terms of a run without resets are all the marks that its panes put on an element. -/
theorem addTerms_eq {run : List Pane} (h : ∀ q ∈ run, q.resets = false) (fmt b i : Nat) :
    (run.filterMap fun p => match p.termAt fmt b i with | .none => none | .reset v => some v | .term v => some v) = addTerms run fmt b i := by
  refine List.filterMap_congr fun q hq => ?_
  cases ht : q.termAt fmt b i with
  | none => rfl
  | reset v => exact absurd ht (termAt_not_reset (h q hq) fmt b i v)
  | term v => rfl

/-- The element that a merge writes: the rounded sum of its terms, or nothing. -/
def mergedLane (r : FrameRec) (sc : Int) (ts : List Num) : Nat × BitVec 6 × Bool :=
  if ts.isEmpty then (0, (0 : BitVec 6), false)
  else ((r.fit ((sumTerms ts).1.scale (-sc))).1, (sumTerms ts).2 ||| (r.fit ((sumTerms ts).1.scale (-sc))).2, true)

/-- A block of a run has a poisoned block of some pane. -/
def runPoison (run : List Pane) (b : Nat) : Bool := run.any fun p => match p.block? b with | some k => k.poison | none => false

theorem runPoison_iff {run : List Pane} {b : Nat} : runPoison run b = true ↔ ∃ q ∈ run, ∃ j, q.block? b = some j ∧ j.poison = true := by
  rw [runPoison, List.any_eq_true]
  refine exists_congr fun q => and_congr_right fun _ => ?_
  cases q.block? b <;> simp

theorem glazeAddBlock_eq {run : List Pane} (h : ∀ q ∈ run, q.resets = false) (r : FrameRec) (fb : VVal) (b : Nat) :
    let res := (List.range r.perBlock).map fun i => mergedLane r (blockScale fb.desc) (addTerms run r.fmt b i)
    (glazeAddBlock r run fb b).1 =
      { idx := b, data := if runPoison run b then 0 else ofLanes r.width (res.map (·.1)), scale := blockScale fb.desc
        present := BitVec.ofNat 64 (joinLanes 1 (res.map fun e => if e.2.2 then 1 else 0)), poison := runPoison run b } := by
  intro res
  have hres : ((List.range r.perBlock).map fun i =>
      let ts := run.filterMap fun p => match p.termAt r.fmt b i with | .none => none | .reset v => some v | .term v => some v
      if ts.isEmpty then (0, (0 : BitVec 6), false)
      else
        let (x, fl) := sumTerms ts
        let (v, fl') := r.fit (x.scale (-blockScale fb.desc))
        (v, fl ||| fl', true)) = res :=
    List.map_congr_left fun i _ => congrArg (mergedLane r (blockScale fb.desc)) (addTerms_eq h r.fmt b i)
  unfold glazeAddBlock
  simp only
  exact congrArg (fun l : List (Nat × BitVec 6 × Bool) => ({
    idx := b, data := if runPoison run b then 0 else ofLanes r.width (l.map (·.1)), scale := blockScale fb.desc
    present := BitVec.ofNat 64 (joinLanes 1 (l.map fun e => if e.2.2 then 1 else 0)), poison := runPoison run b } : PaneBlock)) hres

theorem eight_le_codeBits (c : Nat) : 8 ≤ codeBits c := by
  unfold codeBits
  split <;> omega

theorem perBlock_le (r : FrameRec) : r.perBlock ≤ 64 :=
  (Nat.div_le_div_left (eight_le_codeBits r.fmt) (by decide)).trans_eq rfl

/-- A bit of a word joined from single bits. -/
theorem getLsbD_bits {n : Nat} (hn : n ≤ 64) (p : Nat → Bool) {e : Nat} (he : e < n) :
    (BitVec.ofNat 64 (joinLanes 1 ((List.range n).map fun i => if p i then 1 else 0))).getLsbD e = p e := by
  have hd := joinLanes_digit 1 ((List.range n).map fun i => if p i then 1 else 0) e
  rw [BitVec.getLsbD_ofNat, decide_eq_true (by omega : e < 64), Bool.true_and, Nat.testBit_eq_decide_div_mod_eq]
  rw [Nat.one_mul, pow_one] at hd
  rw [hd]
  cases hp : p e <;> simp [he, hp]

theorem glazeAddBlock_parts {run : List Pane} (h : ∀ q ∈ run, q.resets = false) (r : FrameRec) (fb : VVal) (b : Nat) :
    let k := (glazeAddBlock r run fb b).1
    k.scale = blockScale fb.desc ∧ k.pre = none ∧ k.poison = runPoison run b ∧ ∀ e < r.perBlock,
      (k.present.getLsbD e = true ↔ addTerms run r.fmt b e ≠ []) ∧
      (k.poison = false → laneOf r.width k.data e = if addTerms run r.fmt b e = [] then 0
        else (r.fit ((sumTerms (addTerms run r.fmt b e)).1.scale (-k.scale))).1 % 2 ^ r.width) := by
  intro k
  have hk : k = _ := glazeAddBlock_eq h r fb b
  rw [hk]
  refine ⟨rfl, rfl, rfl, fun e he => ⟨?_, fun hp => ?_⟩⟩
  · simp only [List.map_map, Function.comp_def]
    rw [getLsbD_bits (perBlock_le r) (fun i => (mergedLane r (blockScale fb.desc) (addTerms run r.fmt b i)).2.2) he]
    cases ht : addTerms run r.fmt b e <;> simp [mergedLane]
  · have hp' : runPoison run b = false := hp
    simp only [hp', List.map_map, Function.comp_def, Bool.false_eq_true, if_false]
    rw [laneOf_ofLanes_map (width_mul_perBlock_le r) _ he]
    cases ht : addTerms run r.fmt b e <;> simp [mergedLane]

theorem mem_and_flag (fl : BitVec 6) : ((fl &&& fInexact) != 0) = true ↔ fl &&& 0x10 ≠ 0 := by
  rw [bne_iff_ne]
  rfl

/-- What a merge holds. -/
theorem merge_parts {s : State} {pa lo hi name : Nat} {f : Frame} {g : Pane} {fl : BitVec 6} (h : glazePane s pa f lo hi name = .ok (g, fl)) :
    let r := f.info
    let below := f.chain.take lo
    let run := (f.chain.drop lo).take (hi + 1 - lo)
    g.name = name ∧ g.st = .applied ∧ g.glazed = true ∧ g.negated = false ∧ (g.ow = true ↔ ∃ q ∈ run, q.resets = true) ∧
    (g.inexact = true ↔ fl &&& 0x10 ≠ 0) ∧ (g.blocks.map PaneBlock.idx) = unionFoot run ∧ ∀ k ∈ g.blocks, MergedBlock s r (!g.ow) below run k := by
  intro r below run
  obtain ⟨blocks, hb, rfl⟩ := glazePane_ok h
  obtain ⟨hidx, hat⟩ := glazeBlocks_ok hb
  refine ⟨rfl, rfl, rfl, rfl, ?_, mem_and_flag fl, hidx, fun k hk => ?_⟩
  · simp only [Bool.not_eq_true', List.all_eq_false, Bool.not_eq_true, Bool.not_eq_false]
    rfl
  · simp only [Bool.not_not]
    exact hat k hk

/-- A run merged into an ADD pane has no pane that resets. -/
theorem run_not_resets {run : List Pane} {o : Bool} (ho : o = true ↔ ∃ q ∈ run, q.resets = true) (h : o = false) :
    ∀ q ∈ run, q.resets = false := by
  intro q hq
  by_contra hr
  have := ho.2 ⟨q, hq, Bool.eq_true_of_not_eq_false hr⟩
  rw [h] at this
  cases this

theorem chainsAfterPaneEvents : Statements.ChainsAfterPaneEvents := by
  intro s pa f t p g extra lo hi name fl
  refine ⟨fun h => ?_, fun fs h => applyAll_one h, fun panes fs h => ?_, ?_, fun h _ _ => ?_⟩
  · obtain ⟨f0, blocks, hroom, harena, hpre, rfl⟩ := applyOne_ok h
    obtain ⟨hlen, hat⟩ := capturePre_ok hpre
    have hinfo : f0.info = f.info := makeRoom_info hroom
    rw [hinfo] at hat
    exact ⟨f0, { p with st := .applied, implicit := false, blocks }, (makeRoom_ok hroom).1, (makeRoom_ok hroom).2, harena, rfl, rfl,
      hinfo, rfl, rfl, hlen, hat⟩
  · obtain ⟨hlen, hnd, -, hat⟩ := applyGroup_some h
    exact ⟨hlen, hnd, hat⟩
  · intro r q
    refine ⟨rfl, rfl, rfl, rfl, List.length_map .., fun i k hk => ⟨k.inverse r p.ow, ?_, inverse_idx k r p.ow, inverse_pre k r p.ow, ?_, ?_, ?_, ?_⟩,
      fun how hcl b i => ?_⟩
    · show (p.blocks.map fun k => k.inverse r p.ow)[i]? = _
      rw [List.getElem?_map, hk]
      rfl
    · exact fun hp h => inverse_poisoned r hp h
    · intro hp how
      rw [how]
      exact inverse_overwrite r hp
    · intro how hc
      rw [how, inverse_bare r hc]
      exact ⟨rfl, rfl, rfl, rfl, hc⟩
    · intro how hc hp
      rw [how]
      obtain ⟨hs, hpr, hcl, hl⟩ := inverse_cleared r hc hp
      exact ⟨hs, hpr, hcl, fun e he => (hl e he).trans (by rw [preLane_mod])⟩
    · exact termAt_inverse r name how hcl b i
  · intro r below run u
    obtain ⟨hn, hst, hgl, hneg, how, hin, hidx, hat⟩ := merge_parts h
    obtain ⟨hc, hl, hi', hz⟩ := glazed_parts f lo hi g
    refine ⟨hn, hst, hgl, hneg, how, hin, ?_, fun b => ?_, fun ho k hk => ?_, fun ho k hk => ?_, hc, hl, hi', hz⟩
    · rw [hidx]
      exact unionFoot_rising _
    · rw [hidx]
      exact mem_unionFoot
    · have hm := hat k hk
      rw [ho] at hm
      obtain ⟨fb, hfb, hkeq⟩ := hm
      obtain ⟨hsc, hpre, hpo, hlanes⟩ := glazeAddBlock_parts (run_not_resets how ho) f.info fb k.idx
      rw [← hkeq] at hsc hpre hpo hlanes
      refine ⟨fb, hfb, hsc, hpre, ?_, hlanes⟩
      rw [hpo]
      exact runPoison_iff
    · have hm := hat k hk
      rw [ho] at hm
      exact hm

/-- Settles O31: pane events, what they leave on the chains, and moves. -/
theorem paneEventsAndMoves : Obligations.PaneEventsAndMoves := ⟨paneEvents, chainsAfterPaneEvents, paneMoves⟩

end Sys2Proof.Machine
end

