-- ==== Sys2Proof/Proofs/Kept.lean ====
section
/-! What an operation leaves: memory with its marks, and the registers of every context (R30, R55 to R57). -/

namespace Sys2Proof.Machine

/-! ### The register files of a core -/

/-- The register files of a context that results are delivered to. -/
structure Files where
  s : Vector Word64 64
  a : Vector Word64 32
  stride : Vector Word64 32
  v : Vector VVal 32
  p : Vector Bool 16
  m : Vector Word64 8
  it : Vector Iter 8
  n : Vector (BitVec 32) 4
  f : Vector (Option Nat) 8

/-- The register files of a context. -/
def Ctx.files (k : Ctx) : Files := ⟨k.s, k.a, k.stride, k.v, k.p, k.m, k.it, k.n, k.f⟩

/-- The register files of the contexts of a core. -/
def ctxFiles (v : Vector Ctx 4) : Vector Files 4 := v.map Ctx.files

/-- The register files of every core. -/
def State.files (s : State) (g : Nat) : Vector Files 4 := ctxFiles (mget ({} : Core) s.cores g).ctxs

/-- What a slot that stores nothing leaves: bytes, descriptors, marks of poisoned cells, and register files. -/
def State.kept (s : State) : List Host.Cell × List (Nat × Desc) × List Nat × (Nat → Vector Files 4) := (s.mem, s.desc, s.poisoned, s.files)

theorem ctxFiles_core (s : State) (g : Nat) : ctxFiles (s.core g).ctxs = s.files g := by
  unfold State.core State.files
  induction s.cores with
  | nil => rfl
  | cons e l ih =>
    unfold mget
    split
    · rfl
    · exact ih

@[simp] theorem State.files_setCore {s : State} {g : Nat} {c : Core} (h : ctxFiles c.ctxs = ctxFiles (s.core g).ctxs) :
    (s.setCore g c).files = s.files := by
  funext j
  rw [ctxFiles_core] at h
  show ctxFiles (mget _ (mset s.cores g c) j).ctxs = s.files j
  rw [mget_mset]
  split
  next he => rw [h, he]
  next => rfl

@[simp] theorem State.kept_setCore {s : State} {g : Nat} {c : Core} (h : ctxFiles c.ctxs = ctxFiles (s.core g).ctxs) :
    (s.setCore g c).kept = s.kept := by
  unfold State.kept
  rw [State.files_setCore h]
  rfl

@[simp] theorem State.kept_modCore {s : State} {g : Nat} {f : Core → Core} (h : ctxFiles (f (s.core g)).ctxs = ctxFiles (s.core g).ctxs) :
    (s.modCore g f).kept = s.kept := State.kept_setCore h

@[simp] theorem ctxFiles_setCtx {c : Core} {x : Nat} {k : Ctx} (h : k.files = (c.ctx x).files) : ctxFiles (c.setCtx x k).ctxs = ctxFiles c.ctxs := by
  unfold Core.setCtx Core.ctx at *
  split
  next hx =>
    rw [dif_pos hx] at h
    unfold ctxFiles
    rw [Vector.map_set, h]
    ext i hi
    rw [Vector.getElem_set]
    split <;> simp [*]
  next hx => 
    rw [dif_neg hx] at h
    unfold ctxFiles
    rw [Vector.map_set, h]
    ext i hi
    rw [Vector.getElem_set]
    split <;> simp [*]

@[simp] theorem ctxFiles_setChan (c : Core) (n : Nat) (k : Chan) : ctxFiles (c.setChan n k).ctxs = ctxFiles c.ctxs := by
  unfold Core.setChan
  split <;> rfl

@[simp] theorem ctxFiles_setTile (c : Core) (n : Nat) (k : Tile) : ctxFiles (c.setTile n k).ctxs = ctxFiles c.ctxs := by
  unfold Core.setTile
  split <;> rfl

@[simp] theorem State.kept_setCtx {s : State} {g x : Nat} {k : Ctx} (h : k.files = (s.ctx g x).files) : (s.setCtx g x k).kept = s.kept :=
  State.kept_setCore (ctxFiles_setCtx h)

@[simp] theorem State.kept_modCtx {s : State} {g x : Nat} {f : Ctx → Ctx} (h : (f (s.ctx g x)).files = (s.ctx g x).files) :
    (s.modCtx g x f).kept = s.kept := State.kept_setCtx h

@[simp] theorem State.kept_modCur {s : State} {f : Ctx → Ctx} (h : (f s.cur).files = s.cur.files) : (s.modCur f).kept = s.kept :=
  State.kept_setCtx h

@[simp] theorem files_queue (k : Ctx) (due issue slot : Nat) (u : Upd) : (k.queue due issue slot u).files = k.files := by
  obtain ⟨l, h⟩ := queue_only k due issue slot u
  rw [h]
  rfl

theorem State.kept_foldl {α : Type} {f : State → α → State} (h : ∀ s a, (f s a).kept = s.kept) (l : List α) (s : State) :
    (l.foldl f s).kept = s.kept := by
  induction l generalizing s with
  | nil => rfl
  | cons a l ih => exact (ih (f s a)).trans (h s a)

/-! ### Operations that store nothing and deliver nothing -/

@[simp] theorem State.kept_setCluster (s : State) (c : Nat) (k : Cluster) : (s.setCluster c k).kept = s.kept := rfl

@[simp] theorem State.kept_modCluster (s : State) (c : Nat) (f : Cluster → Cluster) : (s.modCluster c f).kept = s.kept := rfl

@[simp] theorem State.kept_message (s : State) (ws : List Word64) : (s.message ws).kept = s.kept := by
  unfold State.message
  split <;> rfl

@[simp] theorem State.kept_openFault (s : State) (cl n : Nat) (w : Who) (m : PageMiss) : (s.openFault cl n w m).kept = s.kept := by
  unfold State.openFault
  simp only
  (repeat' split) <;> simp [Ctx.files]

@[simp] theorem State.kept_raise (s : State) (f : FaultRec) : (s.raise f).kept = s.kept := rfl

@[simp] theorem State.kept_whoFault (s : State) (w : Who) (slot code : Nat) (w2 w3 : Word64) : (s.whoFault w slot code w2 w3).kept = s.kept := by
  unfold State.whoFault
  split <;> simp

@[simp] theorem State.kept_setColl (s : State) (d : Nat) (e : CollEngine) : (s.setColl d e).kept = s.kept := rfl

@[simp] theorem State.kept_setChan (s : State) (g n : Nat) (k : Chan) : (s.setChan g n k).kept = s.kept := by simp [State.setChan]

@[simp] theorem State.kept_modChan (s : State) (g n : Nat) (f : Chan → Chan) : (s.modChan g n f).kept = s.kept := by simp [State.modChan]

@[simp] theorem State.kept_setWaits (s : State) (w : Who) (f : Option (Nat × Nat)) : (s.setWaits w f).kept = s.kept := by
  unfold State.setWaits
  split
  · exact State.kept_modCtx rfl
  · exact State.kept_modChan ..
  · rfl
  · rfl

@[simp] theorem State.kept_pageUpcall (s : State) (w : Who) (m : PageMiss) : (s.pageUpcall w m).kept = s.kept := by
  unfold State.pageUpcall
  simp only
  (repeat' split) <;> simp [Ctx.files]

@[simp] theorem State.kept_admitBlocked (s : State) (cl : Nat) : (s.admitBlocked cl).kept = s.kept :=
  State.kept_foldl (fun s (e : Who × PageMiss) => State.kept_pageUpcall s e.1 e.2) _ _

@[simp] theorem State.kept_dropLeave (s : State) (cl : Nat) : (s.dropLeave cl).kept = s.kept := rfl

@[simp] theorem State.kept_dropAsk (s : State) (g c : Nat) : (s.dropAsk g c).kept = s.kept := rfl

@[simp] theorem State.kept_leaveFaults (s : State) (g c : Nat) : (s.leaveFaults g c).kept = s.kept := rfl

@[simp] theorem State.kept_queueKnock (s : State) (g : Nat) (k : Knock) : (s.queueKnock g k).kept = s.kept := by
  unfold State.queueKnock
  split <;> simp

@[simp] theorem State.kept_sectorDone (s : State) (g c : Nat) : (s.sectorDone g c).kept = s.kept := by simp [State.sectorDone]

@[simp] theorem State.kept_chainView (s : State) : s.chainView.kept = s.kept := by
  unfold State.chainView
  split
  · split <;> rfl
  · rfl

@[simp] theorem State.kept_snapFrame (s : State) (pa : Nat) : (s.snapFrame pa).kept = s.kept := by
  unfold State.snapFrame
  split
  · split <;> rfl
  · rfl

@[simp] theorem State.kept_setFrame (s : State) (pa : Nat) (f : Frame) : (s.setFrame pa f).kept = s.kept := rfl

@[simp] theorem State.kept_changeFrame (s : State) (pa : Nat) (f : Frame) : (s.changeFrame pa f).kept = s.kept := by simp [State.changeFrame]

@[simp] theorem State.kept_changeFrames (s : State) (fs : List (Nat × Frame)) : (s.changeFrames fs).kept = s.kept :=
  State.kept_foldl (fun s (e : Nat × Frame) => State.kept_changeFrame s e.1 e.2) _ _

@[simp] theorem State.kept_tlbDropRange (s : State) (va level : Nat) : (s.tlbDropRange va level).kept = s.kept := rfl

@[simp] theorem State.kept_closeFault (s : State) (cl n : Nat) : (s.closeFault cl n).kept = s.kept := by simp [State.closeFault]

@[simp] theorem State.kept_modIss (s : State) (f : Iss → Iss) : (s.modIss f).kept = s.kept := rfl

@[simp] theorem State.kept_commitSlot (s : State) (b : Bool) : (s.commitSlot b).kept = s.kept := by
  unfold State.commitSlot
  dsimp only
  split
  · exact State.kept_modCur rfl
  · split
    · exact State.kept_modCur rfl
    · rfl

@[simp] theorem State.kept_takeFree (s : State) : s.takeFree.2.kept = s.kept := rfl

@[simp] theorem State.kept_drawLate (s : State) (land declared : Nat) : (s.drawLate land declared).2.kept = s.kept := by
  unfold State.drawLate
  split <;> rfl

@[simp] theorem State.kept_dropEmptyPanes (s : State) (l : List (Nat × Pane)) : (s.dropEmptyPanes l).kept = s.kept :=
  State.kept_foldl (fun s (e : Nat × Pane) => State.kept_changeFrame s e.1 _) _ _

@[simp] theorem State.kept_setWclash (s : State) : s.setWclash.kept = s.kept := State.kept_modCur rfl

@[simp] theorem State.kept_quietLandings (s : State) (u : Upd) : (s.quietLandings u).kept = s.kept := by
  unfold State.quietLandings
  simp only
  (repeat' split) <;> simp [Ctx.files]

@[simp] theorem State.kept_emit (s : State) (u : Upd) (lat : Nat) : (s.emit u lat).kept = s.kept := by
  unfold State.emit
  split <;> simp

@[simp] theorem State.kept_setPort (s : State) (q : Nat) (p : Port) : (s.setPort q p).kept = s.kept := rfl

@[simp] theorem State.kept_modPort (s : State) (q : Nat) (f : Port → Port) : (s.modPort q f).kept = s.kept := rfl

@[simp] theorem State.kept_enqueue (s : State) (q : Nat) (p : OutPacket) : (s.enqueue q p).kept = s.kept := rfl

@[simp] theorem State.kept_enqueueCont (s : State) (cl : Nat) (words : List Word64) (pager : Bool) (scope : Scope) (ready : Nat) (suspended : Bool)
    : (s.enqueueCont cl words pager scope ready suspended).kept = s.kept :=
  rfl

@[simp] theorem State.kept_putK (s : State) (f : KField) (v : Word64) : (s.putK f v).kept = s.kept := by simp [State.putK]

@[simp] theorem State.kept_putTape (s : State) (f : KField) (v : Word64) : (s.putTape f v).kept = s.kept := by
  unfold State.putTape
  dsimp only
  split
  · rw [State.kept_emit, State.kept_modCur rfl]
  · exact State.kept_putK ..

@[simp] theorem State.kept_kWrite (s : State) (n : Nat) (v : Word64) : (s.kWrite n v).kept = s.kept := by
  unfold State.kWrite
  split <;> simp

@[simp] theorem State.kept_keepMode (s : State) (rev : Bool) : (s.keepMode rev).kept = s.kept := rfl

@[simp] theorem State.kept_quietResults (s : State) (us : List Upd) : (s.quietResults us).kept = s.kept := by
  unfold State.quietResults
  dsimp only
  split
  · rw [State.kept_setWclash, State.kept_modCur rfl]
  · rfl

@[simp] theorem State.kept_land (s : State) (us : List Upd) (lat : Nat) (late : Bool) (await : Option (Nat × Nat)) :
    (s.land us lat late await).kept = s.kept := by
  have h : (us.foldl State.quietLandings (s.quietResults us)).kept = s.kept :=
    (State.kept_foldl State.kept_quietLandings us _).trans (State.kept_quietResults s us)
  exact Eq.trans (State.kept_setCore rfl) h

@[simp] theorem State.kept_note (s : State) (va n : Nat) (wr : Bool) (lat : Nat) (grad : Bool) : (s.note va n wr lat grad).kept = s.kept := by
  unfold State.note
  split
  · exact State.kept_modCur rfl
  · rfl

@[simp] theorem State.kept_noteLanes (s : State) (e : Nat) (wr : Bool) (lat : Nat) (lanes : List (Nat × Loc)) :
    (s.noteLanes e wr lat lanes).kept = s.kept :=
  State.kept_foldl (fun s (x : Nat × Loc) => State.kept_note s x.2.pa e wr lat false) _ _

@[simp] theorem State.kept_putStat (s : State) (b : Word64) : (s.putStat b).kept = s.kept := by simp [State.putStat]

@[simp] theorem State.kept_paneNone (s : State) : (s.paneNone).kept = s.kept := by simp [State.paneNone]

@[simp] theorem State.kept_popTape (s : State) (n : Nat) : (s.popTape n).kept = s.kept := State.kept_modCur rfl

@[simp] theorem State.kept_putA (s : State) (d : AReg) (v : Word64) (lat : Nat) : (s.putA d v lat).kept = s.kept := by simp [State.putA]

@[simp] theorem State.kept_putAdjoint (s : State) (adj : Nat) (f : Frame) (p : Pane) (opened : Bool) :
    (s.putAdjoint adj f p opened).kept = s.kept := by
  unfold State.putAdjoint
  dsimp only
  split
  · rw [State.kept_modCur rfl, State.kept_changeFrame]
  · exact State.kept_changeFrame ..

@[simp] theorem State.kept_putS (s : State) (d : SReg) (v : Word64) (lat : Nat) : (s.putS d v lat).kept = s.kept := by simp [State.putS]

@[simp] theorem State.kept_putAny (s : State) (d : SReg) (j : Nat) : (s.putAny d j).kept = s.kept := by simp [State.putAny]

@[simp] theorem State.kept_putFlags (s : State) (f : BitVec 6) (lat : Nat) : (s.putFlags f lat).kept = s.kept := by
  unfold State.putFlags
  split <;> simp

@[simp] theorem State.kept_putCell (s : State) (own : Bool) (u : Upd) (lat : Nat) (fl : BitVec 6) : (s.putCell own u lat fl).kept = s.kept := by
  unfold State.putCell
  split <;> simp

@[simp] theorem State.kept_putDivz (s : State) (y : Word64) : (s.putDivz y).kept = s.kept := by
  unfold State.putDivz
  split <;> simp

@[simp] theorem State.kept_putV (s : State) (d : VRegNo) (x : VVal) (lat : Nat) : (s.putV d x lat).kept = s.kept := by simp [State.putV]

@[simp] theorem State.kept_putPart (s : State) (d : VRegNo) (keep : Block) (x : VVal) (lat : Nat) : (s.putPart d keep x lat).kept = s.kept := by
  unfold State.putPart
  split <;> simp

@[simp] theorem State.kept_putLanes (s : State) (d : VRegNo) (m : Word64) (w : Nat) (desc : Desc) (lat : Nat) (f : Nat → Nat × BitVec 6) :
    (s.putLanes d m w desc lat f).kept = s.kept := by
  simp [State.putLanes]

@[simp] theorem State.kept_putLoaded (s : State) (d : SReg) (sx : Bool) (n v : Nat) (fl : BitVec 6) (bad : Bool) : (s.putLoaded d sx n v fl
    bad).kept = s.kept := by
  unfold State.putLoaded
  split <;> simp

@[simp] theorem State.kept_putM (s : State) (d : MReg) (v : Word64) (lat : Nat) : (s.putM d v lat).kept = s.kept := by simp [State.putM]

@[simp] theorem State.kept_putP (s : State) (d : PReg) (b : Bool) (lat : Nat) : (s.putP d b lat).kept = s.kept := by simp [State.putP]

@[simp] theorem State.kept_putStage (s : State) (en : BitVec 3) (b : Bool) : (s.putStage en b).kept = s.kept := by simp [State.putStage]

@[simp] theorem State.kept_putTernbad (s : State) (n lat : Nat) : (s.putTernbad n lat).kept = s.kept := by
  unfold State.putTernbad
  split <;> simp

@[simp] theorem State.kept_requestWindow (s : State) (q off : Nat) (va : Word64) : (s.requestWindow q off va).kept = s.kept := rfl

@[simp] theorem State.kept_rotate (s : State) (en : BitVec 3) (zero : Bool) : (s.rotate en zero).kept = s.kept := by
  unfold State.rotate
  simp only
  (repeat' split) <;> simp [Ctx.files]

@[simp] theorem State.kept_setHandle (s : State) (h : HReg) (v : Word64) : (s.setHandle h v).kept = s.kept := State.kept_modCur rfl

@[simp] theorem State.kept_storeBlockWindow (s : State) (q off : Nat) (b : VVal) (va : Word64) : (s.storeBlockWindow q off b va).kept = s.kept :=
  rfl

@[simp] theorem State.kept_storeWindow (s : State) (q off n v : Nat) (va : Word64) : (s.storeWindow q off n v va).kept = s.kept := rfl

@[simp] theorem State.kept_tlbDrop (s : State) (va : Nat) : (s.tlbDrop va).kept = s.kept := rfl

@[simp] theorem State.kept_transferTo (s : State) (target : Word64) (empties : Bool) : (s.transferTo target empties).kept = s.kept := rfl

@[simp] theorem State.kept_trapAfter (s : State) (cause : Nat) (a0 a1 : Word64) : (s.trapAfter cause a0 a1).kept = s.kept := rfl

@[simp] theorem State.kept_wroteTpos (s : State) : (s.wroteTpos).kept = s.kept := by simp [State.wroteTpos]

@[simp] theorem State.kept_blockAdjoint (s : State) (d : VRegNo) (fmt : Nat) (ys : List Nat) (bad : Bool) :
    (blockAdjoint s d fmt ys bad).1.kept = s.kept := by
  unfold blockAdjoint
  dsimp only
  split
  · rfl
  · split <;> rfl

@[simp] theorem State.kept_adjointUpdates (s : State) (f : StoreForm) (fmt : Nat) (ys : List Nat) (bad : Bool) :
    (adjointUpdates s f fmt ys bad).1.kept = s.kept := by
  unfold adjointUpdates
  split
  · exact State.kept_blockAdjoint ..
  · exact State.kept_blockAdjoint ..
  · rfl
  · rfl

@[simp] theorem State.kept_enterDrain (s : State) (d : Drain) : (enterDrain s d).kept = s.kept := by simp [enterDrain]

end Sys2Proof.Machine
end

