-- ==== Sys2Proof/Proofs/KeptChecks.lean ====
section
/-! Checks, and operations that may stop short: what they leave where they store nothing (R369, R370). -/

namespace Sys2Proof.Machine

/-! ### Checks and operations that may stop short -/

/-- Where a check stops short, it leaves a state of `P`. -/
def Errs {α : Type} (P : State → Prop) (x : Except State α) : Prop := ∀ u, x = .error u → P u

/-- An operation leaves a state of `P`, whether it is done or stops short. -/
def Ends (P : State → Prop) (x : Except State State) : Prop := ∀ u, (x = .ok u ∨ x = .error u) → P u

section
variable {P Q : State → Prop} {α β : Type}

theorem errs_ok (a : α) : Errs P (.ok a) := fun u h => by cases h

theorem errs_error {u : State} : Errs P (.error u : Except State α) ↔ P u := ⟨fun h => h u rfl, fun h v hv => by cases hv; exact h⟩

theorem errs_bind {x : Except State α} {f : α → Except State β} : Errs P (x >>= f) ↔ Errs P x ∧ ∀ a, x = .ok a → Errs P (f a) := by
  cases x with
  | ok a => exact ⟨fun h => ⟨errs_ok a, fun b hb => by cases hb; exact h⟩, fun h => h.2 a rfl⟩
  | error u => exact ⟨fun h => ⟨fun v hv => h v (by cases hv; rfl), fun b hb => by cases hb⟩, fun h v hv => h.1 v (by cases hv; rfl)⟩

theorem ends_ok {u : State} : Ends P (.ok u) ↔ P u :=
  ⟨fun h => h u (.inl rfl), fun h v hv => by rcases hv with hv | hv <;> cases hv; exact h⟩

theorem ends_error {u : State} : Ends P (.error u) ↔ P u :=
  ⟨fun h => h u (.inr rfl), fun h v hv => by rcases hv with hv | hv <;> cases hv; exact h⟩

theorem ends_bind {x : Except State α} {f : α → Except State State} : Ends P (x >>= f) ↔ Errs P x ∧ ∀ a, x = .ok a → Ends P (f a) := by
  cases x with
  | ok a => exact ⟨fun h => ⟨errs_ok a, fun b hb => by cases hb; exact h⟩, fun h => h.2 a rfl⟩
  | error u => exact ⟨fun h => ⟨fun v hv => h v (.inr (by cases hv; rfl)), fun b hb => by cases hb⟩, fun h v hv => by
      rcases hv with hv | hv <;> cases hv; exact h.1 _ rfl⟩

/-- A check that stops short where a condition holds, before the rest. -/
theorem errs_unless {c : Prop} [Decidable c] {x : Except State Unit} {f : Unit → Except State α} (hx : Errs P x) (hf : Errs P (f ())) :
    Errs P (if c then x >>= f else f ()) := by
  split
  · exact errs_bind.2 ⟨hx, fun _ _ => hf⟩
  · exact hf

theorem ends_unless {c : Prop} [Decidable c] {x : Except State Unit} {f : Unit → Except State State} (hx : Errs P x) (hf : Ends P (f ())) :
    Ends P (if c then x >>= f else f ()) := by
  split
  · exact ends_bind.2 ⟨hx, fun _ _ => hf⟩
  · exact hf

theorem Ends.errs {x : Except State State} (h : Ends P x) : Errs P x := fun u hu => h u (.inr hu)

theorem Ends.of_ok {x : Except State State} (h : Ends P x) {u : State} (hu : x = .ok u) : P u := h u (.inl hu)

theorem Errs.mono {x : Except State α} (h : Errs P x) (hm : ∀ u, P u → Q u) : Errs Q x := fun u hu => hm u (h u hu)

theorem Ends.mono {x : Except State State} (h : Ends P x) (hm : ∀ u, P u → Q u) : Ends Q x := fun u hu => hm u (h u hu)

theorem Errs.ends {x : Except State State} (h : Errs P x) (hok : ∀ u, x = .ok u → P u) : Ends P x := fun u hu => hu.elim (hok u) (h u)

end

/-- The state keeps what `k` holds. -/
def KeptAs (k : List Host.Cell × List (Nat × Desc) × List Nat × (Nat → Vector Files 4)) (u : State) : Prop := u.kept = k

theorem keptAs_iff {k : List Host.Cell × List (Nat × Desc) × List Nat × (Nat → Vector Files 4)} {u : State} : KeptAs k u ↔ u.kept = k := Iff.rfl

/-- What an outcome's next state satisfies. -/
def Next (P : State → Prop) (o : Out) : Prop := ∀ t, o = .next t → P t

theorem next_iff {P : State → Prop} {t : State} : Next P (.next t) ↔ P t := ⟨fun h => h t rfl, fun h u hu => by cases hu; exact h⟩

theorem Next.mono {P Q : State → Prop} {o : Out} (h : Next P o) (hm : ∀ t, P t → Q t) : Next Q o := fun t ht => hm t (h t ht)

theorem next_slotDone {P : State → Prop} (hc : ∀ t, P t → P (t.commitSlot false)) {x : Except State State} (h : Ends P x) :
    Next P (slotDone x) := by
  intro t ht
  rcases slotDone_cases ht with ⟨u, hu, rfl⟩ | hu
  · exact hc u (h u (.inl hu))
  · exact h t (.inr hu)

theorem next_transferDone {P : State → Prop} (hc : ∀ t, P t → P (t.commitSlot true)) {x : Except State State} (h : Ends P x) :
    Next P (transferDone x) := by
  intro t ht
  rcases transferDone_cases ht with ⟨u, hu, rfl⟩ | hu
  · exact hc u (h u (.inl hu))
  · exact h t (.inr hu)

/-! ### The checks and operations of a slot that store nothing -/

theorem errs_slotFault {α : Type} (s : State) (code : Nat) (w2 w3 w4 : Word64) : Errs (KeptAs s.kept) (slotFault s code w2 w3 w4 : Except State α) := by
  intro u h
  cases h
  rfl

theorem ends_slotFault (s : State) (code : Nat) (w2 w3 w4 : Word64) : Ends (KeptAs s.kept) (slotFault s code w2 w3 w4 : Except State State) := by
  intro u h
  rcases h with h | h <;> cases h
  rfl

theorem errs_overrunFault {α : Type} (s : State) : Errs (KeptAs s.kept) (overrunFault s : Except State α) := by
  intro u h
  cases h
  rfl

theorem errs_slotWalk {α : Type} (s : State) (va : Word64) (cls : Nat) : Errs (KeptAs s.kept) (slotWalk s va cls : Except State α) := by
  intro u h
  cases h
  rfl

theorem ends_startNest (s : State) (rev : Bool) (depth1 : BitVec 2) (mask : BitVec 8) : Ends (KeptAs s.kept) (s.startNest rev depth1 mask) := by
  unfold State.startNest
  dsimp only
  grind [keptAs_iff, ends_ok, Errs.ends, errs_slotWalk, errs_overrunFault, overrunFault, slotFault, slotWalk, State.kept_modIss]

theorem errs_protFault {α : Type} (s : State) (w2 : Word64) : Errs (KeptAs s.kept) (protFault s w2 : Except State α) := by
  intro u h
  cases h
  rfl

theorem ends_protFault (s : State) (w2 : Word64) : Ends (KeptAs s.kept) (protFault s w2 : Except State State) := by
  intro u h
  rcases h with h | h <;> cases h
  rfl

theorem errs_recordAt (s : State) (va name : Word64) : Errs (KeptAs s.kept) (recordAt s va name : Except State (Nat × List Word64)) := by
  grind [recordAt, errs_bind, errs_protFault, errs_slotWalk, errs_ok]

theorem errs_adjointAt (s : State) (va name : Word64) : Errs (KeptAs s.kept) (adjointAt s va name : Except State (Nat × FrameRec)) := by
  grind [adjointAt, errs_bind, errs_recordAt, errs_protFault, errs_ok]

theorem errs_alignFault {α : Type} (s : State) (addr : Word64) (size : Nat) : Errs (KeptAs s.kept) (alignFault s addr size : Except State α) := by
  intro u h
  cases h
  rfl

theorem ends_alignFault (s : State) (addr : Word64) (size : Nat) : Ends (KeptAs s.kept) (alignFault s addr size : Except State State) := by
  intro u h
  rcases h with h | h <;> cases h
  rfl

theorem errs_frameRaw (s : State) (r : FrameRec) (b : Nat) : Errs (KeptAs s.kept) (frameRaw s r b : Except State VVal) := by
  grind [frameRaw, errs_protFault, errs_slotWalk, errs_ok]

theorem errs_frameRead (s : State) (r : FrameRec) (chain : List Pane) (b : Nat) : Errs (KeptAs s.kept) (frameRead s r chain b : Except State (VVal ×
    BitVec 6)) := by
  grind [frameRead, errs_bind, errs_frameRaw, errs_ok, errs_slotFault]

theorem errs_capturePre (s : State) (r : FrameRec) (below : List Pane) (p : Pane) (l : List PaneBlock) :
    Errs (KeptAs s.kept) (capturePre s r below p l) := by
  induction l with
  | nil => exact errs_ok _
  | cons k ks ih => grind [capturePre, errs_bind, errs_ok, errs_frameRead]

theorem errs_slotTrap {α : Type} (s : State) (cause : Nat) (arg0 arg1 : Word64) : Errs (KeptAs s.kept) (slotTrap s cause arg0 arg1 : Except State α) := by
  intro u h
  cases h
  rfl

theorem errs_needArena (s : State) (pa : Nat) (f : Frame) (n : Nat) : Errs (KeptAs s.kept) (needArena s pa f n : Except State Unit) := by
  grind [needArena, errs_ok, errs_slotTrap]

theorem errs_glazeBlocks (s : State) (r : FrameRec) (add : Bool) (below run : List Pane) (l : List Nat) :
    Errs (KeptAs s.kept) (glazeBlocks s r add below run l) := by
  induction l with
  | nil => exact errs_ok _
  | cons b bs ih => grind [glazeBlocks, errs_bind, errs_ok, errs_frameRead, errs_frameRaw]

theorem errs_glazePane (s : State) (pa : Nat) (f : Frame) (lo hi name : Nat) : Errs (KeptAs s.kept) (glazePane s pa f lo hi name : Except State
    (Pane × BitVec 6)) := by
  grind [glazePane, errs_bind, errs_needArena, errs_glazeBlocks, errs_ok]

theorem errs_glazeByHost {α : Type} (s : State) (pa : Nat) (f : Frame) : Errs (KeptAs s.kept) (glazeByHost s pa f : Except State α) := by
  grind [glazeByHost, errs_error, State.kept_modIss, keptAs_iff, State.kept_setFrame, State.kept_message]

theorem errs_chainFull {α : Type} (s : State) (pa name : Nat) : Errs (KeptAs s.kept) (chainFull s pa name : Except State α) := by
  intro u h
  cases h
  rfl

theorem errs_makeRoom (s : State) (pa : Nat) (f : Frame) (name : Nat) : Errs (KeptAs s.kept) (makeRoom s pa f name : Except State (Frame × BitVec
    6)) := by
  grind [makeRoom, errs_ok, errs_chainFull, errs_glazeByHost, errs_bind, errs_glazePane]

theorem errs_applyOne (s : State) (pa : Nat) (f : Frame) (p : Pane) (extra : Nat) : Errs (KeptAs s.kept) (applyOne s pa f p extra : Except State
    (Frame × BitVec 6)) := by
  grind [applyOne, errs_bind, errs_makeRoom, errs_needArena, errs_capturePre, errs_ok]

theorem errs_slotWait {α : Type} (s : State) (c : WaitCond) : Errs (KeptAs s.kept) (slotWait s c : Except State α) := by
  intro u h
  cases h
  rfl

theorem ends_slotWait (s : State) (c : WaitCond) : Ends (KeptAs s.kept) (slotWait s c : Except State State) := by
  intro u h
  rcases h with h | h <;> cases h
  rfl

theorem errs_paneGate (s : State) (pa : Nat) (f : Frame) : Errs (KeptAs s.kept) (paneGate s pa f : Except State Unit) := by
  grind [paneGate, errs_ok, errs_slotWait]

theorem errs_applyAll (s : State) (l : List (Nat × Pane)) : Errs (KeptAs s.kept) (applyAll s l) := by
  induction l with
  | nil => exact errs_ok _
  | cons e l ih => grind [applyAll, errs_bind, errs_ok, errs_paneGate, errs_applyOne]

theorem errs_paneFault {α : Type} (s : State) (pa p q : Nat) : Errs (KeptAs s.kept) (paneFault s pa p q : Except State α) := by
  intro u h
  cases h
  rfl

theorem ends_paneFault (s : State) (pa p q : Nat) : Ends (KeptAs s.kept) (paneFault s pa p q : Except State State) := by
  intro u h
  rcases h with h | h <;> cases h
  rfl

theorem errs_boundOf (s : State) (f : FReg) : Errs (KeptAs s.kept) (boundOf s f : Except State (Nat × Frame)) := by
  grind [boundOf, errs_protFault, errs_ok]

theorem errs_applyGroup (s : State) (seen : List (Nat × Nat)) (l : List (Nat × FReg)) : Errs (KeptAs s.kept) (applyGroup s seen l) := by
  induction l generalizing seen with
  | nil => exact errs_ok _
  | cons e l ih => grind [applyGroup, errs_bind, errs_ok, errs_boundOf, errs_paneFault, errs_applyAll]

theorem errs_arenaLoc (s : State) (r : FrameRec) (name : Word64) : Errs (KeptAs s.kept) (arenaLoc s r name : Except State Loc) := by
  grind [arenaLoc, errs_protFault, errs_slotWalk, errs_ok]

theorem errs_needReleased (s : State) : Errs (KeptAs s.kept) (needReleased s : Except State Unit) := by grind [needReleased, errs_slotWait, errs_ok]

theorem errs_latchIndex (s : State) (v : Word64) (n : Nat) (rot : Bool) : Errs (KeptAs s.kept) (latchIndex s v n rot : Except State Nat) := by
  grind [latchIndex, errs_protFault, errs_ok]

theorem errs_latchCore (s : State) (v : Word64) : Errs (KeptAs s.kept) (latchCore s v : Except State Nat) := by
  grind [latchCore, errs_protFault, errs_ok]

theorem errs_latchName (s : State) (v : Word64) (rot : Bool) : Errs (KeptAs s.kept) (latchName s v rot : Except State (Nat × Nat)) := by
  grind [latchName, errs_bind, errs_latchCore, errs_latchIndex, errs_ok]

theorem ends_awaitTiles (s : State) (mask : Nat) : Ends (KeptAs s.kept) (awaitTiles s mask) := by
  unfold awaitTiles
  split
  · exact ends_slotWait s _
  · exact ends_ok.2 rfl

theorem errs_descFault {α : Type} (s : State) (d : Desc) : Errs (KeptAs s.kept) (descFault s d : Except State α) := by
  intro u h
  cases h
  rfl

theorem ends_descFault (s : State) (d : Desc) : Ends (KeptAs s.kept) (descFault s d : Except State State) := by
  intro u h
  rcases h with h | h <;> cases h
  rfl

theorem errs_readCells (s : State) (pa n : Nat) (bad : State → State) (h : (bad s).kept = s.kept) :
    Errs (KeptAs s.kept) (readCells s pa n bad) := by
  grind [readCells, errs_ok, errs_slotFault]

theorem errs_busyTrap {α : Type} (s : State) (t : Nat) (o : Owner) : Errs (KeptAs s.kept) (busyTrap s t o : Except State α) := by
  intro u h
  cases h
  rfl

theorem ends_busyTrap (s : State) (t : Nat) (o : Owner) : Ends (KeptAs s.kept) (busyTrap s t o : Except State State) := by
  intro u h
  rcases h with h | h <;> cases h
  rfl

theorem errs_needUnowned (s : State) (g t : Nat) : Errs (KeptAs s.kept) (needUnowned s g t : Except State Unit) := by
  grind [needUnowned, errs_busyTrap, errs_ok]

theorem errs_slotMark (s : State) (va : Word64) (size : Nat) : Errs (KeptAs s.kept) (slotMark s va size : Except State Unit) := by
  grind [slotMark, errs_slotWait, errs_ok]

theorem errs_slotLoc (s : State) (r : Reach) (a : Access) (va : Word64) (size : Nat) : Errs (KeptAs s.kept) (slotLoc s r a va size : Except State
    Loc) := by
  grind [slotLoc, errs_bind, errs_protFault, errs_alignFault, errs_slotWalk, errs_ok]

theorem errs_slotAccess (s : State) (r : Reach) (a : Access) (va : Word64) (size : Nat) : Errs (KeptAs s.kept) (slotAccess s r a va size : Except
    State Loc) := by
  grind [slotAccess, errs_bind, errs_slotLoc, errs_slotMark]

theorem errs_slotCells (s : State) (va : Word64) (size : Nat) : Errs (KeptAs s.kept) (slotCells s va size : Except State Loc) := by
  grind [slotCells, errs_bind, errs_slotAccess, errs_needUnowned]

theorem ends_vUnlessPoison {s : State} {d : VRegNo} {lat : Nat} {src : List VVal} {k : Except State State} :
    Ends (KeptAs s.kept) (vUnlessPoison s d lat src k) ↔ (anyPoison src = false → Ends (KeptAs s.kept) k) := by
  unfold vUnlessPoison
  cases anyPoison src with
  | true => exact ⟨fun _ h => absurd h (by decide), fun _ => ends_ok.2 (State.kept_putV ..)⟩
  | false => exact ⟨fun h _ => h, fun h => h rfl⟩

theorem errs_needSill (s : State) : Errs (KeptAs s.kept) (needSill s : Except State Unit) := by grind [needSill, errs_slotWait, errs_ok]

theorem errs_plainOnly (s : State) (l : Loc) (va : Word64) : Errs (KeptAs s.kept) (plainOnly s l va : Except State Unit) := by
  grind [plainOnly, errs_protFault, errs_ok]

theorem errs_drainKeys (s : State) (l : List Word64) : Errs (KeptAs s.kept) (drainKeys s l) := by
  induction l with
  | nil => exact errs_ok _
  | cons va l ih => grind [drainKeys, errs_bind, errs_ok, errs_slotAccess, errs_plainOnly]

theorem errs_paneLoc (s : State) (fr : Frame) (va : Word64) (size : Nat) : Errs (KeptAs s.kept) (paneLoc s fr va size : Except State Loc) := by
  grind [paneLoc, errs_protFault, errs_slotWalk, errs_bind, errs_alignFault, errs_slotMark, errs_ok]

theorem errs_drainPaneOk (s : State) (fr : Frame) (l : List Word64) : Errs (KeptAs s.kept) (drainPaneOk s fr l) := by
  induction l with
  | nil => exact errs_ok _
  | cons va l ih => grind [drainPaneOk, errs_bind, errs_ok, errs_paneLoc]

theorem errs_drainTile (s : State) (acc : TileNo) : Errs (KeptAs s.kept) (drainTile s acc : Except State Unit) := by
  grind [drainTile, errs_needUnowned]

theorem errs_needEntry (s : State) : Errs (KeptAs s.kept) (needEntry s : Except State Unit) := by grind [needEntry, errs_slotWait, errs_ok]

theorem errs_frameScale (s : State) (r : FrameRec) (b : Nat) : Errs (KeptAs s.kept) (frameScale s r b : Except State Int) := by
  grind [frameScale, errs_protFault, errs_slotWalk, errs_ok]

theorem errs_touchBlock (s : State) (r : FrameRec) (plain : Bool) (p : Pane) (b : Nat) : Errs (KeptAs s.kept) (touchBlock s r plain p b : Except
    State Pane) := by
  grind [touchBlock, errs_ok, errs_bind, errs_frameScale]

theorem errs_touchBlocks (s : State) (r : FrameRec) (plain : Bool) (p : Pane) (l : List Nat) : Errs (KeptAs s.kept) (touchBlocks s r plain p l) := by
  induction l generalizing p with
  | nil => exact errs_ok _
  | cons b l ih => grind [touchBlocks, errs_bind, errs_ok, errs_touchBlock]

theorem errs_openPane (s : State) (pa : Nat) (fr : Frame) (acc : Bool) : Errs (KeptAs s.kept) (openPane s pa fr acc : Except State Pane) := by
  grind [openPane, errs_protFault, errs_ok]

theorem errs_slotRecord (s : State) (va : Word64) (own : Bool) : Errs (KeptAs s.kept) (slotRecord s va own : Except State Loc) := by
  grind [slotRecord, errs_bind, errs_protFault, errs_slotWalk, errs_ok]

theorem errs_regionAdjoint (s : State) (name adjr : Word64) (elems : Nat) : Errs (KeptAs s.kept) (regionAdjoint s name adjr elems) := by
  refine errs_bind.2 ⟨errs_adjointAt _ _ _, fun a _ => errs_unless (errs_protFault _ _) ?_⟩
  split
  · exact errs_ok _
  · exact errs_unless (errs_protFault _ _) (errs_ok _)

theorem regionAdjoint_ok {s : State} {name adjr : Word64} {elems : Nat} {a : Nat × State} (h : regionAdjoint s name adjr elems = .ok a) :
    a.2.kept = s.kept := by
  obtain ⟨e, -, h⟩ := exists_of_bind_ok h
  dsimp only at h
  split at h
  · cases h
  · split at h
    · cases h
      rfl
    · split at h
      · cases h
      · cases h
        exact State.kept_setFrame ..

/-- The regions of a table are read with the frames of their adjoints entered. -/
theorem readRegions_parts (s : State) (name : Word64) (ws : List Word64) (n : Nat) :
    Errs (KeptAs s.kept) (readRegions s name ws n) ∧ ∀ a, readRegions s name ws n = .ok a → a.2.kept = s.kept := by
  induction n with
  | zero => exact ⟨errs_ok _, fun a h => by cases h; rfl⟩
  | succ n ih =>
    obtain ⟨herr, hok⟩ := ih
    refine ⟨errs_bind.2 ⟨herr, fun a ha => ?_⟩, fun b hb => ?_⟩
    · have hk := hok a ha
      rw [← hk]
      exact errs_unless (errs_protFault _ _) (errs_bind.2 ⟨errs_regionAdjoint _ _ _ _, fun _ _ => errs_ok _⟩)
    · obtain ⟨a, ha, hb⟩ := exists_of_bind_ok hb
      rw [← hok a ha]
      dsimp only at hb
      split at hb
      · cases hb
      · obtain ⟨c, hc, hb⟩ := exists_of_bind_ok hb
        cases hb
        exact regionAdjoint_ok hc

theorem errs_tableWords (s : State) (name : Word64) (n va : Nat) : Errs (KeptAs s.kept) (tableWords s name n va) := by
  induction n generalizing va with
  | zero => exact errs_ok _
  | succ n ih => grind [tableWords, errs_bind, errs_ok, errs_recordAt]

theorem errs_needPushed (s : State) : Errs (KeptAs s.kept) (needPushed s : Except State Unit) := by grind [needPushed, errs_slotWait, errs_ok]

theorem errs_unbindCheck (s : State) (f : FReg) : Errs (KeptAs s.kept) (unbindCheck s f : Except State Unit) := by
  grind [unbindCheck, errs_ok, errs_paneFault]

theorem errs_waitFor (s : State) (det : Nat) (c : WaitCond) : Errs (KeptAs s.kept) (waitFor s det c : Except State Unit) := by
  grind [waitFor, errs_ok, errs_slotWait]

theorem ends_needOnTime (s : State) (l : Loc) : Ends (KeptAs s.kept) (needOnTime s l) := by
  unfold needOnTime
  split
  · dsimp only
    split
    · exact ends_slotFault _ _ _ _ _
    · exact ends_ok.2 rfl
  · exact ends_ok.2 rfl

theorem errs_slotBlockFor (s : State) (l : Loc) (va named : Nat) : Errs (KeptAs s.kept) (slotBlockFor s l va named : Except State (VVal × BitVec 6)) := by
  grind [slotBlockFor, errs_ok, errs_protFault, errs_slotFault]

theorem errs_slotScalar (s : State) (l : Loc) (va n : Nat) : Errs (KeptAs s.kept) (slotScalar s l va n : Except State (Nat × BitVec 6 × Bool)) := by
  grind [slotScalar, errs_bind, errs_slotBlockFor, errs_ok]

theorem errs_slotBlock (s : State) (l : Loc) (va : Nat) : Errs (KeptAs s.kept) (slotBlock s l va : Except State (VVal × BitVec 6)) := by
  grind [slotBlock, errs_slotBlockFor]

theorem errs_fillUpdates (s : State) (cls : BitVec 2) (d : SReg) (l : Loc) (va : Nat) : Errs (KeptAs s.kept) (fillUpdates s cls d l va : Except
    State (List Upd)) := by
  grind [fillUpdates, errs_bind, errs_slotBlock, errs_ok, errs_slotScalar]

theorem errs_spillPlace (s : State) (va : Word64) (size : Nat) (a : Access) : Errs (KeptAs s.kept) (spillPlace s va size a) := by
  unfold spillPlace
  refine errs_unless (errs_protFault _ _) (errs_unless (errs_alignFault _ _ _) ?_)
  split
  · exact errs_unless (errs_protFault _ _) (errs_unless (errs_alignFault _ _ _) (errs_bind.2 ⟨errs_slotMark _ _ _, fun _ _ => errs_ok _⟩))
  · exact errs_bind.2 ⟨errs_slotAccess _ _ _ _ _, fun _ _ => errs_ok _⟩

theorem errs_gatherLane (s : State) (base : Word64) (idx : Block) (e : Nat) (a : Access) (k : Nat) : Errs (KeptAs s.kept) (gatherLane s base idx e a
    k : Except State (Nat × Loc)) := by
  grind [gatherLane, errs_bind, errs_slotAccess, errs_ok]

theorem errs_gatherLanes (s : State) (base : Word64) (idx : Block) (e : Nat) (a : Access) (m : Word64) (l : List Nat) :
    Errs (KeptAs s.kept) (gatherLanes s base idx e a m l) := by
  induction l with
  | nil => exact errs_ok _
  | cons k l ih => grind [gatherLanes, errs_bind, errs_ok, errs_gatherLane]

theorem ends_handleStep (s : State) (h : HReg) (c : SReg) (prod : Bool) : Ends (KeptAs s.kept) (handleStep s h c prod) := by
  grind [handleStep, ends_ok, keptAs_iff, ends_protFault, State.kept_setHandle, State.kept_putStat]

theorem ends_handleWait (s : State) (h : HReg) (c : SReg) (room : Bool) : Ends (KeptAs s.kept) (handleWait s h c room) := by
  grind [handleWait, ends_ok, keptAs_iff, ends_protFault, ends_slotWait]

theorem errs_slotPort (s : State) (va : Word64) (q : Nat) : Errs (KeptAs s.kept) (slotPort s va q : Except State Unit) := by
  grind [slotPort, errs_slotFault, errs_ok]

theorem ends_windowAcquire (s : State) (d : SReg) (va : Word64) (q o n : Nat) (sx : Bool) : Ends (KeptAs s.kept) (windowAcquire s d va q o n sx) := by
  grind [windowAcquire, ends_bind, ends_ok, keptAs_iff, errs_slotPort, ends_slotWait, State.kept_putLoaded, State.kept_requestWindow]

theorem errs_touchAdjoint (s : State) (adj : Nat) (js : List Nat) : Errs (KeptAs s.kept) (touchAdjoint s adj js : Except State (Frame × Pane ×
    Bool)) := by
  grind [touchAdjoint, errs_bind, errs_needArena, errs_touchBlocks, errs_ok, errs_protFault, errs_paneFault]

theorem ends_reverseLoad (s : State) (d : VRegNo) (va : Word64) (l : Loc) : Ends (KeptAs s.kept) (reverseLoad s d va l) := by
  unfold reverseLoad
  dsimp only
  split
  · exact ends_protFault _ _
  · grind [ends_bind, ends_ok, errs_bind, errs_ok, keptAs_iff, errs_descFault, errs_protFault, errs_touchAdjoint, State.kept_putAdjoint, State.kept_putFlags]

theorem ends_lossStep (d : PReg) (ov : Bool) (s : State) : Ends (KeptAs s.kept) (lossStep d ov s) := by
  grind [lossStep, ends_ok, keptAs_iff, ends_protFault, State.kept_putP, State.kept_putK]

theorem ends_mUnlessPoison {s : State} {d : MReg} {lat : Nat} {src : List VVal} {k : Except State State} :
    Ends (KeptAs s.kept) (mUnlessPoison s d lat src k) ↔ (anyPoison src = false → Ends (KeptAs s.kept) k) := by
  unfold mUnlessPoison
  cases anyPoison src with
  | true => exact ⟨fun _ h => absurd h (by decide), fun _ => ends_ok.2 ((State.kept_putStat ..).trans (State.kept_putM ..))⟩
  | false => exact ⟨fun h _ => h, fun h => h rfl⟩

theorem ends_matIssue (s : State) (o : MatOp) : Ends (KeptAs s.kept) (matIssue s o) := by
  unfold matIssue
  split
  · exact ends_protFault _ _
  · exact ends_bind.2 ⟨errs_needEntry s, fun _ _ => ends_ok.2 (State.kept_modCore rfl)⟩

theorem errs_slotRange (s : State) (f : SReg) (n1 : BitVec 7) : Errs (KeptAs s.kept) (slotRange s f n1 : Except State (List Nat)) := by
  grind [slotRange, errs_protFault, errs_ok]

theorem ends_fillOnTime (s : State) (ls : List Loc) : Ends (KeptAs s.kept) (fillOnTime s ls) := by
  grind [fillOnTime, List.find?_eq_none, ends_needOnTime, ends_ok, keptAs_iff]

theorem errs_loadBlocks (s : State) (va n : Nat) : Errs (KeptAs s.kept) (loadBlocks s va n) := by
  induction n generalizing va with
  | zero => exact errs_ok _
  | succ n ih => grind [loadBlocks, errs_bind, errs_ok, errs_slotAccess, errs_slotBlock]

theorem errs_gatedFrame (s : State) (f : FReg) : Errs (KeptAs s.kept) (gatedFrame s f : Except State (Nat × Frame)) := by
  grind [gatedFrame, errs_bind, errs_boundOf, errs_paneGate]

theorem errs_nameFree (s : State) (pa n : Nat) : Errs (KeptAs s.kept) (nameFree s pa n : Except State Unit) := by
  grind [nameFree, errs_protFault, errs_ok]

theorem ends_openPaneOn (s : State) (n : SReg) (f : FReg) (ow : Bool) : Ends (KeptAs s.kept) (openPaneOn s n f ow) := by
  unfold openPaneOn
  refine ends_bind.2 ⟨errs_boundOf s f, fun e _ => ?_⟩
  refine ends_bind.2 ⟨errs_nameFree _ _ _, fun _ _ => ?_⟩
  split
  · exact ends_paneFault _ _ _ _
  · grind [ends_bind, ends_ok, errs_bind, errs_ok, keptAs_iff, errs_paneFault, errs_protFault, errs_needArena, State.kept_changeFrame]

theorem errs_tapeLoc (s : State) (va : Nat) (a : Access) : Errs (KeptAs s.kept) (tapeLoc s va a : Except State Loc) := by
  grind [tapeLoc, errs_bind, errs_protFault, errs_slotWalk, errs_ok]

theorem errs_tapeLocs (s : State) (a : Access) (n va : Nat) : Errs (KeptAs s.kept) (tapeLocs s a n va) := by
  induction n generalizing va with
  | zero => exact errs_ok _
  | succ n ih => grind [tapeLocs, errs_bind, errs_ok, errs_tapeLoc]

theorem errs_readAdjoint (s : State) (f : Frame) (own : Option Pane) (j : Nat) : Errs (KeptAs s.kept) (readAdjoint s f own j : Except State (Nat ×
    BitVec 6 × Bool)) := by
  grind [readAdjoint, errs_ok, errs_bind, errs_frameRaw, errs_slotFault]

theorem errs_readAdjoints (s : State) (f : Frame) (own : Option Pane) (l : List Nat) : Errs (KeptAs s.kept) (readAdjoints s f own l) := by
  induction l with
  | nil => exact errs_ok _
  | cons j l ih => grind [readAdjoints, errs_bind, errs_ok, errs_readAdjoint]

theorem errs_topBlock (s : State) (odesc : Word64) : Errs (KeptAs s.kept) (topBlock s odesc : Except State VVal) := by
  grind [topBlock, errs_bind, errs_protFault, errs_tapeLocs, errs_ok]

theorem errs_topEntry (s : State) : Errs (KeptAs s.kept) (topEntry s : Except State (Word64 × Word64 × Loc)) := by
  grind [topEntry, errs_bind, errs_protFault, errs_tapeLoc, errs_ok]

theorem errs_touchFor (s : State) (pa : Nat) (fr : Frame) (plain : Bool) (p : Pane) (b : Nat) : Errs (KeptAs s.kept) (touchFor s pa fr plain p b :
    Except State Pane) := by
  grind [touchFor, errs_bind, errs_needArena, errs_touchBlock]

theorem errs_untaped (s : State) (l : Loc) (va : Word64) : Errs (KeptAs s.kept) (untaped s l va : Except State Unit) := by
  grind [untaped, errs_protFault, errs_ok]

theorem errs_needScales (s : State) (a b : VVal) : Errs (KeptAs s.kept) (needScales s a b : Except State Unit) := by
  grind [needScales, errs_descFault, errs_ok]

theorem errs_needFormat (s : State) (code : Nat) (l : List VVal) : Errs (KeptAs s.kept) (needFormat s code l) := by
  induction l with
  | nil => exact errs_ok _
  | cons v l ih => grind [needFormat, errs_descFault]

theorem errs_intSources (s : State) (w : Nat) (a b : VVal) (scales : Bool) : Errs (KeptAs s.kept) (intSources s w a b scales) := by
  unfold intSources
  refine errs_bind.2 ⟨errs_needFormat _ _ _, fun _ _ => ?_⟩
  split
  · exact errs_needScales _ _ _
  · exact errs_ok _

theorem errs_needFloat (s : State) (code : Nat) (l : List VVal) : Errs (KeptAs s.kept) (needFloat s code l) := by
  induction l with
  | nil => exact errs_ok _
  | cons v l ih => grind [needFloat, errs_descFault]

theorem errs_maskLatches (s : State) (v : Word64) (rot : Bool) (l : List Nat) : Errs (KeptAs s.kept) (maskLatches s v rot l) := by
  induction l with
  | nil => exact errs_ok _
  | cons j l ih => grind [maskLatches, errs_bind, errs_ok, errs_latchIndex]

end Sys2Proof.Machine
end

