-- ==== Sys2Proof/Proofs/KeptSlots.lean ====
section
/-! The instructions that store nothing leave memory and the registers of every context. -/

namespace Sys2Proof.Machine

/-! ### How such a slot ends -/

theorem ctxs_foldl_setSlot {f : Core → Nat → OSlot} (l : List Nat) (c : Core) : (l.foldl (fun c n => c.setSlot n (f c n)) c).ctxs = c.ctxs := by
  induction l generalizing c with
  | nil => rfl
  | cons n l ih => exact ih (c.setSlot n (f c n))

theorem next_slot {s : State} {x : Except State State} (h : Ends (KeptAs s.kept) x) : Next (KeptAs s.kept) (slotDone x) :=
  next_slotDone (fun t ht => (State.kept_commitSlot t false).trans ht) h

theorem next_transfer {s : State} {x : Except State State} (h : Ends (KeptAs s.kept) x) : Next (KeptAs s.kept) (transferDone x) :=
  next_transferDone (fun t ht => (State.kept_commitSlot t true).trans ht) h

/-! ### The instructions -/

theorem next_bitLanes (s : State) (d a b : VRegNo) (m : MReg) (sz : BitVec 2) (f : Nat → Nat → Nat) : Next (KeptAs s.kept) (bitLanes s d a b m sz f) := by
  unfold bitLanes
  refine next_slot ?_
  grind [Ends.of_ok, State.kept_putLanes, ends_vUnlessPoison, keptAs_iff, ends_ok]

theorem next_scalarResult (d : SReg) (v : Word64) (lat : Nat) (s : State) : Next (KeptAs s.kept) (scalarResult d v lat s) := by
  unfold scalarResult
  refine next_slot ?_
  grind [ends_ok, State.kept_putS, keptAs_iff]

theorem next_execAdd (d a b : SReg) (s : State) : Next (KeptAs s.kept) (execAdd d a b s) := next_scalarResult _ _ _ _

theorem next_execAdda (d a : AReg) (b : SReg) (s : State) : Next (KeptAs s.kept) (execAdda d a b s) := by
  unfold execAdda
  refine next_slot ?_
  grind [ends_ok, State.kept_putA, keptAs_iff]

theorem next_execAddai (d a : AReg) (v : Word64) (s : State) : Next (KeptAs s.kept) (execAddai d a v s) := by
  unfold execAddai
  refine next_slot ?_
  grind [ends_ok, State.kept_putA, keptAs_iff]

theorem next_execAddi (d a : SReg) (v : Word64) (s : State) : Next (KeptAs s.kept) (execAddi d a v s) := next_scalarResult _ _ _ _

theorem next_execAdrain (acc : TileNo) (a c : SReg) (s : State) : Next (KeptAs s.kept) (execAdrain acc a c s) := by
  unfold execAdrain
  refine next_slot ?_
  grind [errs_needEntry, ends_bind, errs_protFault, errs_drainTile, errs_drainKeys, ends_ok, State.kept_enterDrain, keptAs_iff]

theorem next_execAdrainO (acc : TileNo) (a c : SReg) (s : State) : Next (KeptAs s.kept) (execAdrainO acc a c s) := by
  unfold execAdrainO
  refine next_slot ?_
  grind [errs_needEntry, ends_bind, errs_protFault, errs_drainTile, ends_ok, State.kept_enterDrain, keptAs_iff]

theorem next_execAdrainP (acc : TileNo) (a c : SReg) (f : FReg) (s : State) : Next (KeptAs s.kept) (execAdrainP acc a c f s) := by
  refine next_slot (ends_bind.2 ⟨errs_boundOf _ _, fun e _ => ends_unless (errs_protFault _ _) ?_⟩)
  refine ends_bind.2 ⟨errs_drainTile _ _, fun _ _ => ends_bind.2 ⟨errs_drainPaneOk _ _ _, fun _ _ => ends_bind.2 ⟨errs_paneGate _ _ _, fun _ _ => ?_⟩⟩⟩
  refine ends_bind.2 ⟨errs_openPane _ _ _ _, fun p _ => ends_bind.2 ⟨errs_needArena _ _ _ _, fun _ _ => ends_bind.2 ⟨errs_needEntry _, fun _ _ => ?_⟩⟩⟩
  exact ends_bind.2 ⟨errs_touchBlocks _ _ _ _ _, fun q _ => ends_ok.2 ((State.kept_enterDrain ..).trans (State.kept_changeFrame ..))⟩

theorem next_execAld (d : SReg) (base : AReg) (off : Off9) (w blk : Bool) (s : State) : Next (KeptAs s.kept) (execAld d base off w blk s) := by
  unfold execAld
  refine next_slot ?_
  grind [ends_bind, errs_needSill, errs_slotCells, errs_readCells, State.kept_putCell, ends_ok, State.kept_note, keptAs_iff]

theorem next_execAnd (d a b : SReg) (s : State) : Next (KeptAs s.kept) (execAnd d a b s) := next_scalarResult _ _ _ _

theorem next_execAndi (d a : SReg) (v : Word64) (s : State) : Next (KeptAs s.kept) (execAndi d a v s) := next_scalarResult _ _ _ _

theorem next_execAndn (d a b : SReg) (s : State) : Next (KeptAs s.kept) (execAndn d a b s) := next_scalarResult _ _ _ _

theorem next_execAwait (acc : TileNo) (s : State) : Next (KeptAs s.kept) (execAwait acc s) := by
  unfold execAwait
  refine next_slot ?_
  grind [ends_awaitTiles]

theorem next_execAwaitAll (s : State) : Next (KeptAs s.kept) (execAwaitAll s) := by
  unfold execAwaitAll
  refine next_slot ?_
  grind [ends_ok, keptAs_iff, ends_slotWait]

theorem next_execAwaitM (m : SReg) (s : State) : Next (KeptAs s.kept) (execAwaitM m s) := by
  unfold execAwaitM
  refine next_slot ?_
  grind [ends_awaitTiles]

theorem next_execBfi (d a : SReg) (width1 pos : BitVec 6) (s : State) : Next (KeptAs s.kept) (execBfi d a width1 pos s) := next_scalarResult _ _ _ _

theorem next_execBfx (d a : SReg) (u : Bool) (width1 pos : BitVec 6) (s : State) : Next (KeptAs s.kept) (execBfx d a u width1 pos s) :=
  next_scalarResult _ _ _ _

theorem next_execBloop (en : BitVec 3) (v : Word64) (s : State) : Next (KeptAs s.kept) (execBloop en v s) := by
  unfold execBloop
  refine next_transfer ?_
  grind [ends_ok, keptAs_iff, State.kept_putK, State.kept_rotate, State.kept_putStage, State.kept_transferTo]

theorem next_execBr (p : PReg) (neg : Bool) (v : Word64) (s : State) : Next (KeptAs s.kept) (execBr p neg v s) := by
  unfold execBr
  refine next_transfer ?_
  grind [ends_ok, keptAs_iff, State.kept_transferTo]

theorem next_execBrk (holds : BitVec 4) (id : BitVec 15) (s : State) : Next (KeptAs s.kept) (execBrk holds id s) := by
  unfold execBrk
  refine next_slot ?_
  grind [ends_ok, State.kept_modIss, State.kept_trapAfter, keptAs_iff]

theorem next_execBrl (p : PReg) (neg : Bool) (v : Word64) (s : State) : Next (KeptAs s.kept) (execBrl p neg v s) := by
  unfold execBrl
  refine next_transfer ?_
  grind [ends_ok, keptAs_iff, State.kept_transferTo, State.kept_putA]

theorem next_execChead (h w l : SReg) (c : BitVec 2) (s : State) : Next (KeptAs s.kept) (execChead h w l c s) := by
  unfold execChead
  refine next_slot ?_
  grind [errs_needReleased, ends_ok, State.kept_putStat, keptAs_iff, ends_alignFault, ends_bind, State.kept_setChan]

theorem next_execChkpt (a : SReg) (v : Word64) (s : State) : Next (KeptAs s.kept) (execChkpt a v s) := by
  refine next_slot ?_
  split
  · exact ends_alignFault _ _ _
  · exact ends_ok.2 ((State.kept_modIss ..).trans (State.kept_modCur rfl))

theorem next_execClz (d a : SReg) (w : Bool) (s : State) : Next (KeptAs s.kept) (execClz d a w s) := next_scalarResult _ _ _ _

theorem next_predResult (d : PReg) (b : Bool) (s : State) : Next (KeptAs s.kept) (predResult d b s) := by
  unfold predResult
  refine next_slot ?_
  grind [ends_ok, State.kept_putP, keptAs_iff]

theorem next_execCmp (d : PReg) (a b : SReg) (cc : BitVec 3) (s : State) : Next (KeptAs s.kept) (execCmp d a b cc s) := next_predResult _ _ _

theorem next_execCmpi (d : PReg) (a : SReg) (cc : BitVec 3) (v : Word64) (s : State) : Next (KeptAs s.kept) (execCmpi d a cc v s) :=
  next_predResult _ _ _

theorem next_execCstat (d : SReg) (c : BitVec 2) (s : State) : Next (KeptAs s.kept) (execCstat d c s) := by
  unfold execCstat
  refine next_slot ?_
  grind [ends_ok, State.kept_putS, keptAs_iff]

theorem next_execCtz (d a : SReg) (w : Bool) (s : State) : Next (KeptAs s.kept) (execCtz d a w s) := next_scalarResult _ _ _ _

theorem next_execCwmk (d : SReg) (c : BitVec 2) (s : State) : Next (KeptAs s.kept) (execCwmk d c s) := by
  unfold execCwmk
  refine next_slot ?_
  grind [ends_ok, State.kept_putS, keptAs_iff]

theorem next_execCwmkW (a : SReg) (c : BitVec 2) (s : State) : Next (KeptAs s.kept) (execCwmkW a c s) := by
  unfold execCwmkW
  refine next_slot ?_
  grind [ends_ok, keptAs_iff, ends_slotWait]

theorem next_execDiv (d a b : SReg) (u : Bool) (s : State) : Next (KeptAs s.kept) (execDiv d a b u s) :=
  next_slot (ends_ok.2 ((State.kept_putDivz ..).trans (State.kept_putS ..)))

theorem next_execDmodeFwd (s : State) : Next (KeptAs s.kept) (execDmodeFwd s) := by
  refine next_slot ?_
  split
  · exact ends_ok.2 rfl
  · refine ends_bind.2 ⟨errs_needReleased _, fun _ _ => ends_bind.2 ⟨errs_applyAll _ _, fun e _ => ends_ok.2 ?_⟩⟩
    exact (State.kept_keepMode ..).trans ((State.kept_modCur rfl).trans ((State.kept_putFlags ..).trans ((State.kept_dropEmptyPanes ..).trans
      (State.kept_changeFrames ..))))

theorem next_execDmodeRev (s : State) : Next (KeptAs s.kept) (execDmodeRev s) := by
  refine next_slot ?_
  dsimp only
  split
  · exact ends_ok.2 rfl
  · refine ends_bind.2 ⟨errs_needPushed _, fun _ _ => ends_unless (errs_protFault _ _) (ends_bind.2 ⟨errs_tableWords _ _ _ _, fun ws _ => ?_⟩)⟩
    obtain ⟨herr, hok⟩ := readRegions_parts s (w64 s.cur.k.tableAddr) ws s.cur.k.tableCount
    refine ends_bind.2 ⟨herr, fun a ha => ends_ok.2 ?_⟩
    exact (State.kept_keepMode ..).trans ((State.kept_modCur rfl).trans (hok a ha))

theorem next_execExit (s : State) : Next (KeptAs s.kept) (execExit s) := by
  unfold execExit
  refine next_transfer ?_
  grind [ends_ok, State.kept_modIss, keptAs_iff]

theorem next_execFbindU (f : FReg) (s : State) : Next (KeptAs s.kept) (execFbindU f s) := by
  unfold execFbindU
  refine next_slot ?_
  grind [ends_bind, errs_unbindCheck, ends_ok, State.kept_emit, keptAs_iff]

theorem next_execFenceR (a : AReg) (b : SReg) (kinds : BitVec 2) (s : State) : Next (KeptAs s.kept) (execFenceR a b kinds s) := by
  unfold execFenceR
  refine next_slot ?_
  grind [ends_bind, errs_waitFor, ends_ok, keptAs_iff]

theorem next_execFill (cls : BitVec 2) (d : SReg) (base : AReg) (off : Off9) (s : State) : Next (KeptAs s.kept) (execFill cls d base off s) := by
  refine next_slot (ends_bind.2 ⟨errs_spillPlace _ _ _ _, fun pl _ => ?_⟩)
  split
  · next l va _ =>
    refine ends_bind.2 ⟨errs_fillUpdates _ _ _ _ _, fun us _ => ends_ok.2 ?_⟩
    exact (State.kept_note ..).trans (State.kept_foldl (fun s u => State.kept_emit s u _) us s)
  · grind [ends_bind, ends_ok, errs_ok, errs_bind, keptAs_iff, errs_needSill, ends_needOnTime, Ends.errs, Ends.of_ok, errs_fillUpdates, State.kept_land,
      State.kept_note]

theorem next_execGath (d : VRegNo) (a : AReg) (b : VRegNo) (dw : Bool) (m : MReg) (s : State) : Next (KeptAs s.kept) (execGath d a b dw m s) := by
  unfold execGath
  refine next_slot ?_
  grind [ends_bind, errs_gatherLanes, List.range_one, List.range_eq_nil, ends_ok, State.kept_emit, State.kept_noteLanes, keptAs_iff, ends_slotFault,
    State.kept_putV, State.kept_putPart]

theorem next_execHadvCons (h : HReg) (c : SReg) (s : State) : Next (KeptAs s.kept) (execHadvCons h c s) := by
  unfold execHadvCons
  refine next_slot ?_
  grind [ends_handleStep]

theorem next_execHadvProd (h : HReg) (c : SReg) (s : State) : Next (KeptAs s.kept) (execHadvProd h c s) := by
  unfold execHadvProd
  refine next_slot ?_
  grind [ends_handleStep]

theorem next_execHset (h : HReg) (v : SReg) (s : State) : Next (KeptAs s.kept) (execHset h v s) := by
  unfold execHset
  refine next_slot ?_
  grind [ends_ok, State.kept_setHandle, keptAs_iff, ends_protFault]

theorem next_execHsetR (h : HReg) (d : SReg) (s : State) : Next (KeptAs s.kept) (execHsetR h d s) := by
  unfold execHsetR
  refine next_slot ?_
  grind [ends_ok, State.kept_putS, keptAs_iff]

theorem next_execHwaitData (h : HReg) (c : SReg) (s : State) : Next (KeptAs s.kept) (execHwaitData h c s) := by
  unfold execHwaitData
  refine next_slot ?_
  grind [ends_handleWait]

theorem next_execHwaitRoom (h : HReg) (c : SReg) (s : State) : Next (KeptAs s.kept) (execHwaitRoom h c s) := by
  unfold execHwaitRoom
  refine next_slot ?_
  grind [ends_handleWait]

theorem next_execItset (n : BitVec 3) (k : BitVec 2) (t : AReg) (v : Word64) (s : State) : Next (KeptAs s.kept) (execItset n k t v s) := by
  unfold execItset
  refine next_slot ?_
  grind [ends_ok, State.kept_emit, keptAs_iff]

theorem next_execJmp (a : AReg) (v : Word64) (s : State) : Next (KeptAs s.kept) (execJmp a v s) := by
  unfold execJmp
  refine next_transfer ?_
  grind [ends_alignFault, ends_ok, State.kept_transferTo, keptAs_iff]

theorem next_execJmpl (d a : AReg) (v : Word64) (s : State) : Next (KeptAs s.kept) (execJmpl d a v s) := by
  unfold execJmpl
  refine next_transfer ?_
  grind [ends_alignFault, ends_ok, State.kept_transferTo, State.kept_putA, keptAs_iff]

theorem next_execKnarmD (x : BitVec 2) (s : State) : Next (KeptAs s.kept) (execKnarmD x s) := next_slot (ends_ok.2 (State.kept_modCtx rfl))

theorem next_execKrd (d : SReg) (k : BitVec 6) (s : State) : Next (KeptAs s.kept) (execKrd d k s) := next_scalarResult _ _ _ _

theorem next_execKwr (k : BitVec 6) (a : SReg) (s : State) : Next (KeptAs s.kept) (execKwr k a s) := by
  unfold execKwr
  refine next_slot ?_
  grind [ends_ok, State.kept_kWrite, keptAs_iff]

theorem next_execLarrRd (l d : SReg) (rot : Bool) (s : State) : Next (KeptAs s.kept) (execLarrRd l d rot s) := by
  unfold execLarrRd
  refine next_slot ?_
  grind [ends_bind, errs_needSill, errs_latchName, ends_ok, State.kept_putS, keptAs_iff, State.kept_land]

theorem next_execLbaseSet (b n : SReg) (s : State) : Next (KeptAs s.kept) (execLbaseSet b n s) := by
  unfold execLbaseSet
  refine next_slot ?_
  grind [ends_protFault, ends_ok, State.kept_putK, keptAs_iff]

theorem next_execLbaseStep (s : State) : Next (KeptAs s.kept) (execLbaseStep s) := by
  unfold execLbaseStep
  refine next_slot ?_
  grind [ends_ok, State.kept_putK, keptAs_iff]

theorem next_execLd (d : SReg) (base : AReg) (off : Off9) (sz : BitVec 2) (sx : Bool) (s : State) : Next (KeptAs s.kept) (execLd d base off sz sx s) := by
  unfold execLd
  refine next_slot ?_
  grind [ends_bind, errs_slotAccess, errs_slotScalar, ends_ok, keptAs_iff, State.kept_putStat, State.kept_putS, State.kept_note]

theorem next_execLdAcq (d : SReg) (base : AReg) (off : Off9) (sz : BitVec 2) (sx : Bool) (s : State) : Next (KeptAs s.kept) (execLdAcq d base off sz
    sx s) := by
  unfold execLdAcq
  refine next_slot ?_
  grind [ends_bind, errs_slotAccess, ends_windowAcquire, errs_waitFor, ends_needOnTime, Ends.errs, ends_ok, keptAs_iff, errs_slotScalar,
    State.kept_putLoaded]

theorem next_execLdD (d : SReg) (base : AReg) (off : Off9) (s : State) : Next (KeptAs s.kept) (execLdD d base off s) := by
  unfold execLdD
  refine next_slot ?_
  grind [ends_bind, errs_slotAccess, ends_ok, State.kept_putS, State.kept_note, keptAs_iff]

theorem next_execLdL (d : VRegNo) (base : AReg) (off : Off9) (land : Nat) (s : State) : Next (KeptAs s.kept) (execLdL d base off land s) := by
  unfold execLdL
  refine next_slot ?_
  grind [ends_bind, errs_needSill, errs_slotAccess, errs_slotPort, ends_ok, State.kept_requestWindow, State.kept_land, keptAs_iff, ends_reverseLoad,
    errs_slotFault, ends_needOnTime, Ends.errs, errs_slotBlock, State.kept_note, State.kept_drawLate]

theorem ends_scAccess {P : State → Prop} (hP : ∀ t u, P t → u.kept = t.kept → P u) {s : State} (h : P s) (lat : Nat)
    {act : State → Except State (State × VVal)} {fin : State → VVal → State} (hact : ∀ a, act s = .ok a → P a.1) (herr : Errs P (act s))
    (hfin : ∀ t v, P t → P (fin t v)) : Ends P (scAccess s lat act fin) := by
  have hwait (t : State) (c : WaitCond) (ht : P t) : Ends P (slotWait t c) := (ends_slotWait t c).mono fun u hu => hP t u ht hu
  unfold scAccess
  split
  · split
    · exact ends_ok.2 (hfin _ _ (hP _ _ h rfl))
    · exact hwait _ _ h
  · split
    · refine ends_bind.2 ⟨herr, fun a ha => ?_⟩
      dsimp only
      split
      · exact hwait _ _ (hP _ _ (hact a ha) rfl)
      · exact ends_ok.2 (hfin _ _ (hact a ha))
    · dsimp only
      split
      · exact hwait _ _ (hP _ _ h rfl)
      · exact hwait _ _ h

theorem next_execLdSc (d : SReg) (base : AReg) (off : Off9) (sz : BitVec 2) (sx : Bool) (s : State) :
    Next (KeptAs s.kept) (execLdSc d base off sz sx s) := by
  refine next_slot (ends_bind.2 ⟨errs_slotAccess _ _ _ _ _, fun l _ => ?_⟩)
  refine ends_scAccess (P := KeptAs s.kept) (fun t u ht hu => hu.trans ht) rfl _ (fun a ha => ?_) ?_ (fun t v ht => (State.kept_putLoaded ..).trans ht)
  · obtain ⟨t, ht, ha⟩ := exists_of_bind_ok ha
    obtain ⟨r, -, ha⟩ := exists_of_bind_ok ha
    cases ha
    exact (ends_needOnTime s l).of_ok ht
  · refine errs_bind.2 ⟨(ends_needOnTime s l).errs, fun t ht => errs_bind.2 ⟨?_, fun _ _ => errs_ok _⟩⟩
    have hk : t.kept = s.kept := (ends_needOnTime s l).of_ok ht
    rw [← hk]
    exact errs_slotScalar _ _ _ _

theorem next_execLdV (d : VRegNo) (base : AReg) (off : Off9) (s : State) : Next (KeptAs s.kept) (execLdV d base off s) := by
  unfold execLdV
  refine next_slot ?_
  grind [ends_bind, errs_slotAccess, ends_ok, State.kept_putV, State.kept_note, keptAs_iff]

theorem next_execLscale (d : PReg) (a : SReg) (s : State) : Next (KeptAs s.kept) (execLscale d a s) := by
  unfold execLscale
  refine next_slot ?_
  grind [ends_lossStep]

theorem next_execLscaleP (d a : PReg) (s : State) : Next (KeptAs s.kept) (execLscaleP d a s) := by
  unfold execLscaleP
  refine next_slot ?_
  grind [ends_lossStep]

theorem next_execMax (d a b : SReg) (u : Bool) (s : State) : Next (KeptAs s.kept) (execMax d a b u s) := next_scalarResult _ _ _ _

theorem next_execMin (d a b : SReg) (u : Bool) (s : State) : Next (KeptAs s.kept) (execMin d a b u s) := next_scalarResult _ _ _ _

theorem next_maskResult (d : MReg) (v : Word64) (s : State) : Next (KeptAs s.kept) (maskResult d v s) := by
  unfold maskResult
  refine next_slot ?_
  grind [ends_ok, State.kept_putM, keptAs_iff]

theorem next_execMlogAnd (d a b : MReg) (s : State) : Next (KeptAs s.kept) (execMlogAnd d a b s) := next_maskResult _ _ _

theorem next_execMlogAndn (d a b : MReg) (s : State) : Next (KeptAs s.kept) (execMlogAndn d a b s) := next_maskResult _ _ _

theorem next_execMlogFromv (d : MReg) (a : VRegNo) (s : State) : Next (KeptAs s.kept) (execMlogFromv d a s) := by
  unfold execMlogFromv
  refine next_slot ?_
  grind [Ends.of_ok, State.kept_putM, ends_mUnlessPoison, keptAs_iff, ends_ok]

theorem next_execMlogIso (d a : MReg) (s : State) : Next (KeptAs s.kept) (execMlogIso d a s) := next_maskResult _ _ _

theorem next_execMlogNot (d a : MReg) (s : State) : Next (KeptAs s.kept) (execMlogNot d a s) := next_maskResult _ _ _

theorem next_execMlogOr (d a b : MReg) (s : State) : Next (KeptAs s.kept) (execMlogOr d a b s) := next_maskResult _ _ _

theorem next_execMlogTov (d : VRegNo) (a : MReg) (s : State) : Next (KeptAs s.kept) (execMlogTov d a s) := by
  unfold execMlogTov
  refine next_slot ?_
  grind [ends_ok, State.kept_putV, keptAs_iff]

theorem next_execMlogXor (d a b : MReg) (s : State) : Next (KeptAs s.kept) (execMlogXor d a b s) := next_maskResult _ _ _

theorem next_execMmaFloat (acc : TileNo) (a b : SlotNo) (fmt : BitVec 4) (s : State) : Next (KeptAs s.kept) (execMmaFloat acc a b fmt s) := by
  unfold execMmaFloat
  refine next_slot ?_
  grind [ends_matIssue]

theorem next_execMmaFp64 (acc : TileNo) (a b : SlotNo) (rm : BitVec 3) (s : State) : Next (KeptAs s.kept) (execMmaFp64 acc a b rm s) := by
  unfold execMmaFp64
  refine next_slot ?_
  grind [ends_matIssue]

theorem next_execMmaInt8 (acc : TileNo) (a b : SlotNo) (ua ub : Bool) (s : State) : Next (KeptAs s.kept) (execMmaInt8 acc a b ua ub s) := by
  unfold execMmaInt8
  refine next_slot ?_
  grind [ends_matIssue]

theorem next_execMmaKf8 (acc : TileNo) (a b : SlotNo) (fmt : BitVec 4) (bx : Bool) (s : State) : Next (KeptAs s.kept) (execMmaKf8 acc a b fmt bx s) := by
  unfold execMmaKf8
  refine next_slot ?_
  grind [ends_matIssue]

theorem next_execMmas (acc : TileNo) (a b : SlotNo) (fmt : BitVec 4) (ncode : BitVec 2) (bx : Bool) (s : State) : Next (KeptAs s.kept) (execMmas acc
    a b fmt ncode bx s) := by
  unfold execMmas
  refine next_slot ?_
  grind [ends_matIssue]

theorem next_execMmat (acc : TileNo) (a b : SlotNo) (ua : Bool) (s : State) : Next (KeptAs s.kept) (execMmat acc a b ua s) := by
  unfold execMmat
  refine next_slot ?_
  grind [ends_matIssue]

theorem next_execMova (d : AReg) (a : SReg) (s : State) : Next (KeptAs s.kept) (execMova d a s) := by
  unfold execMova
  refine next_slot ?_
  grind [ends_ok, State.kept_putA, keptAs_iff]

theorem next_execMovaToS (d : SReg) (a : AReg) (s : State) : Next (KeptAs s.kept) (execMovaToS d a s) := by
  unfold execMovaToS
  refine next_slot ?_
  grind [ends_ok, State.kept_putS, keptAs_iff]

theorem next_execMovi (d : SReg) (v : Word64) (s : State) : Next (KeptAs s.kept) (execMovi d v s) := next_scalarResult _ _ _ _

theorem next_execMul (d a b : SReg) (part : BitVec 2) (s : State) : Next (KeptAs s.kept) (execMul d a b part s) := next_scalarResult _ _ _ _

theorem next_execNest (depth1 : BitVec 2) (mask : BitVec 8) (s : State) : Next (KeptAs s.kept) (execNest depth1 mask s) := by
  unfold execNest
  refine next_slot ?_
  grind [ends_startNest]

theorem next_execNestR (depth1 : BitVec 2) (mask : BitVec 8) (s : State) : Next (KeptAs s.kept) (execNestR depth1 mask s) := by
  unfold execNestR
  refine next_slot ?_
  grind [ends_startNest]

theorem next_execNop (s : State) : Next (KeptAs s.kept) (execNop s) := by
  unfold execNop
  refine next_slot ?_
  grind [ends_ok, keptAs_iff]

theorem next_execOclaim (f : SReg) (n1 : BitVec 7) (s : State) : Next (KeptAs s.kept) (execOclaim f n1 s) := by
  refine next_slot (ends_bind.2 ⟨errs_slotRange _ _ _, fun r _ => ?_⟩)
  dsimp only
  split
  · exact ends_ok.2 (State.kept_putStat ..)
  · exact ends_ok.2 (State.kept_setCore (congrArg ctxFiles (ctxs_foldl_setSlot (f := fun _ _ => _) r _)))

theorem next_execOfree (f : SReg) (n1 : BitVec 7) (s : State) : Next (KeptAs s.kept) (execOfree f n1 s) := by
  refine next_slot (ends_bind.2 ⟨errs_slotRange _ _ _, fun r _ => ?_⟩)
  dsimp only
  split
  · exact ends_slotWait _ _
  · have h : (s.modCore s.iss.g fun c => (r.filter s.holdsSlot).foldl (fun c n => c.setSlot n {}) c).kept = s.kept :=
      State.kept_modCore (congrArg ctxFiles (ctxs_foldl_setSlot (f := fun _ _ => _) _ _))
    split
    · exact ends_ok.2 ((State.kept_putStat ..).trans h)
    · exact ends_ok.2 h

theorem needOnTime_ok {s t : State} {l : Loc} (h : needOnTime s l = .ok t) : ∃ n, t = { s with free := n } := by
  unfold needOnTime at h
  split at h
  · dsimp only at h
    split at h
    · cases h
    · cases h
      exact ⟨_, rfl⟩
  · cases h
    exact ⟨s.free, rfl⟩

theorem fillOnTime_ok {s t : State} {ls : List Loc} (h : fillOnTime s ls = .ok t) : ∃ n, t = { s with free := n } := by
  unfold fillOnTime at h
  split at h
  · exact needOnTime_ok h
  · cases h
    exact ⟨s.free, rfl⟩

theorem next_execOload (slot : SlotNo) (base : AReg) (off : Off9) (s : State) : Next (KeptAs s.kept) (execOload slot base off s) := by
  refine next_slot (ends_bind.2 ⟨errs_loadBlocks _ _ _, fun bs _ => ends_unless (errs_protFault _ _) (ends_unless (errs_slotWait _ _) ?_)⟩)
  refine ends_bind.2 ⟨(ends_fillOnTime s _).errs, fun t ht => ends_ok.2 ?_⟩
  obtain ⟨n, rfl⟩ := fillOnTime_ok ht
  exact (State.kept_note ..).trans (State.kept_setCore rfl)

theorem next_execOr (d a b : SReg) (s : State) : Next (KeptAs s.kept) (execOr d a b s) := next_scalarResult _ _ _ _

theorem next_execOread (d : VRegNo) (base : AReg) (off : Off9) (s : State) : Next (KeptAs s.kept) (execOread d base off s) := by
  unfold execOread
  refine next_slot ?_
  grind [ends_bind, errs_protFault, ends_protFault, ends_slotWait, ends_ok, State.kept_putV, State.kept_note, keptAs_iff]

theorem next_execOri (d a : SReg) (v : Word64) (s : State) : Next (KeptAs s.kept) (execOri d a v s) := next_scalarResult _ _ _ _

theorem next_execOstat (d sl : SReg) (s : State) : Next (KeptAs s.kept) (execOstat d sl s) := by
  unfold execOstat
  refine next_slot ?_
  grind [ends_bind, errs_protFault, ends_ok, State.kept_putS, keptAs_iff]

theorem next_execPand (d a b : PReg) (s : State) : Next (KeptAs s.kept) (execPand d a b s) := next_predResult _ _ _

theorem next_execPandn (d a b : PReg) (s : State) : Next (KeptAs s.kept) (execPandn d a b s) := next_predResult _ _ _

theorem next_execPapply (n : SReg) (f : FReg) (s : State) : Next (KeptAs s.kept) (execPapply n f s) := by
  unfold execPapply
  refine next_slot ?_
  grind [ends_bind, errs_needReleased, errs_boundOf, errs_paneGate, ends_ok, State.kept_paneNone, keptAs_iff, errs_applyAll,
    State.kept_changeFrames, State.kept_putFlags]

theorem next_execPapplyG (names frames : SReg) (count1 : BitVec 2) (s : State) : Next (KeptAs s.kept) (execPapplyG names frames count1 s) := by
  unfold execPapplyG
  refine next_slot ?_
  grind [ends_bind, errs_needReleased, errs_applyGroup, ends_ok, State.kept_paneNone, keptAs_iff, State.kept_changeFrames, State.kept_putFlags]

theorem next_execPcomm (p q : SReg) (f : FReg) (s : State) : Next (KeptAs s.kept) (execPcomm p q f s) := by
  unfold execPcomm
  refine next_slot ?_
  grind [ends_bind, errs_gatedFrame, State.kept_paneNone, ends_ok, keptAs_iff, ends_paneFault, State.kept_changeFrame]

theorem next_execPdrop (p : SReg) (f : FReg) (s : State) : Next (KeptAs s.kept) (execPdrop p f s) := by
  unfold execPdrop
  refine next_slot ?_
  grind [ends_bind, errs_gatedFrame, ends_ok, State.kept_paneNone, keptAs_iff, State.kept_changeFrame]

theorem next_execPglaze (l t new : SReg) (f : FReg) (s : State) : Next (KeptAs s.kept) (execPglaze l t new f s) := by
  unfold execPglaze
  refine next_slot ?_
  grind [ends_bind, errs_needReleased, errs_gatedFrame, errs_nameFree, State.kept_paneNone, ends_ok, keptAs_iff, errs_glazePane,
    State.kept_changeFrame, State.kept_putFlags]

theorem next_execPgres (t : SReg) (s : State) : Next (KeptAs s.kept) (execPgres t s) := by
  unfold execPgres
  refine next_slot ?_
  grind [ends_ok, State.kept_putStat, keptAs_iff, State.kept_closeFault]

theorem next_execPgresFail (t : SReg) (s : State) : Next (KeptAs s.kept) (execPgresFail t s) := by
  unfold execPgresFail
  refine next_slot ?_
  grind [ends_ok, State.kept_putStat, keptAs_iff, ends_protFault]

theorem next_execPgresInv (a : SReg) (s : State) : Next (KeptAs s.kept) (execPgresInv a s) := by
  refine next_slot (ends_ok.2 ?_)
  split
  · exact State.kept_tlbDrop ..
  · rfl

theorem next_execPinv (p new : SReg) (f : FReg) (s : State) : Next (KeptAs s.kept) (execPinv p new f s) := by
  unfold execPinv
  refine next_slot ?_
  grind [ends_bind, errs_needReleased, errs_gatedFrame, errs_nameFree, List.find?_eq_none, ends_ok, State.kept_paneNone, keptAs_iff, errs_applyOne,
    State.kept_changeFrame, State.kept_putFlags]

theorem next_execPlift (p : SReg) (f : FReg) (s : State) : Next (KeptAs s.kept) (execPlift p f s) := by
  unfold execPlift
  refine next_slot ?_
  grind [ends_bind, errs_needReleased, errs_gatedFrame, ends_ok, State.kept_paneNone, keptAs_iff, ends_paneFault, State.kept_changeFrame]

theorem next_execPopc (d a : SReg) (w : Bool) (s : State) : Next (KeptAs s.kept) (execPopc d a w s) := next_scalarResult _ _ _ _

theorem next_execPopenAdd (n : SReg) (f : FReg) (s : State) : Next (KeptAs s.kept) (execPopenAdd n f s) := by
  unfold execPopenAdd
  refine next_slot ?_
  grind [ends_openPaneOn]

theorem next_execPopenOw (n : SReg) (f : FReg) (s : State) : Next (KeptAs s.kept) (execPopenOw n f s) := by
  unfold execPopenOw
  refine next_slot ?_
  grind [ends_openPaneOn]

theorem next_execPor (d a b : PReg) (s : State) : Next (KeptAs s.kept) (execPor d a b s) := next_predResult _ _ _

theorem next_execPseal (f : FReg) (s : State) : Next (KeptAs s.kept) (execPseal f s) := by
  unfold execPseal
  refine next_slot ?_
  grind [ends_bind, errs_gatedFrame, ends_ok, State.kept_paneNone, keptAs_iff, State.kept_changeFrame]

theorem next_execPsettle (p : SReg) (f : FReg) (s : State) : Next (KeptAs s.kept) (execPsettle p f s) := by
  unfold execPsettle
  refine next_slot ?_
  grind [ends_bind, errs_gatedFrame, ends_ok, State.kept_paneNone, keptAs_iff, ends_paneFault, State.kept_changeFrame]

theorem next_execPsettleAll (f : FReg) (s : State) : Next (KeptAs s.kept) (execPsettleAll f s) := by
  unfold execPsettleAll
  refine next_slot ?_
  grind [ends_bind, errs_gatedFrame, ends_ok, State.kept_changeFrame, keptAs_iff]

theorem next_execPstatA (d : SReg) (f : FReg) (s : State) : Next (KeptAs s.kept) (execPstatA d f s) := by
  unfold execPstatA
  refine next_slot ?_
  grind [ends_bind, errs_boundOf, ends_ok, State.kept_putS, keptAs_iff]

theorem next_execPstatF (d : SReg) (f : FReg) (s : State) : Next (KeptAs s.kept) (execPstatF d f s) := by
  unfold execPstatF
  refine next_slot ?_
  grind [ends_bind, errs_boundOf, ends_ok, State.kept_putS, keptAs_iff]

theorem next_execPstatP (d p : SReg) (f : FReg) (s : State) : Next (KeptAs s.kept) (execPstatP d p f s) := by
  unfold execPstatP
  refine next_slot ?_
  grind [ends_bind, errs_boundOf, List.find?_eq_none, ends_ok, State.kept_putS, keptAs_iff, State.kept_paneNone]

theorem next_execPxor (d a b : PReg) (s : State) : Next (KeptAs s.kept) (execPxor d a b s) := next_predResult _ _ _

theorem next_execPxpl (p new : SReg) (f g : FReg) (s : State) : Next (KeptAs s.kept) (execPxpl p new f g s) := by
  refine next_slot (ends_bind.2 ⟨errs_gatedFrame _ _, fun e _ => ends_bind.2 ⟨errs_gatedFrame _ _, fun e' _ => ?_⟩⟩)
  refine ends_bind.2 ⟨errs_nameFree _ _ _, fun _ _ => ?_⟩
  split
  · exact ends_ok.2 (State.kept_paneNone s)
  · grind [ends_bind, ends_ok, errs_ok, errs_bind, keptAs_iff, errs_slotFault, errs_protFault, errs_needArena, errs_needReleased, State.kept_paneNone,
      State.kept_changeFrame]

theorem next_execQjoin (mask : BitVec 4) (s : State) : Next (KeptAs s.kept) (execQjoin mask s) := by
  unfold execQjoin
  refine next_slot ?_
  grind [ends_ok, keptAs_iff, ends_slotWait]

theorem next_execRem (d a b : SReg) (u : Bool) (s : State) : Next (KeptAs s.kept) (execRem d a b u s) :=
  next_slot (ends_ok.2 ((State.kept_putDivz ..).trans (State.kept_putS ..)))

theorem next_execRett (s : State) : Next (KeptAs s.kept) (execRett s) := by
  unfold execRett
  refine next_transfer ?_
  grind [ends_ok, State.kept_modIss, keptAs_iff, ends_protFault]

theorem next_execRotb (z : Bool) (en : BitVec 3) (s : State) : Next (KeptAs s.kept) (execRotb z en s) := by
  unfold execRotb
  refine next_slot ?_
  grind [ends_ok, State.kept_rotate, keptAs_iff]

theorem next_execRotl (d a b : SReg) (s : State) : Next (KeptAs s.kept) (execRotl d a b s) := next_scalarResult _ _ _ _

theorem next_execSar (d a b : SReg) (s : State) : Next (KeptAs s.kept) (execSar d a b s) := next_scalarResult _ _ _ _

theorem next_execSari (d a : SReg) (n : BitVec 6) (s : State) : Next (KeptAs s.kept) (execSari d a n s) := next_scalarResult _ _ _ _

theorem next_execSel (d a b : SReg) (c : PReg) (s : State) : Next (KeptAs s.kept) (execSel d a b c s) := next_scalarResult _ _ _ _

theorem next_execSetn (dst : BitVec 3) (a : SReg) (imm : BitVec 14) (s : State) : Next (KeptAs s.kept) (execSetn dst a imm s) := by
  unfold execSetn
  refine next_slot ?_
  grind [ends_ok, keptAs_iff, State.kept_emit, State.kept_putK]

theorem next_execSetstep (d : AReg) (a : SReg) (v : Word64) (s : State) : Next (KeptAs s.kept) (execSetstep d a v s) := by
  unfold execSetstep
  refine next_slot ?_
  grind [ends_ok, State.kept_emit, keptAs_iff]

theorem next_execSext (d a : SReg) (sz : BitVec 2) (s : State) : Next (KeptAs s.kept) (execSext d a sz s) := next_scalarResult _ _ _ _

theorem next_execShape (v : SReg) (set field : BitVec 3) (s : State) : Next (KeptAs s.kept) (execShape v set field s) :=
  next_slot (ends_ok.2 (State.kept_modCore rfl))

theorem next_execShl (d a b : SReg) (s : State) : Next (KeptAs s.kept) (execShl d a b s) := next_scalarResult _ _ _ _

theorem next_execShli (d a : SReg) (n : BitVec 6) (s : State) : Next (KeptAs s.kept) (execShli d a n s) := next_scalarResult _ _ _ _

theorem next_execShr (d a b : SReg) (s : State) : Next (KeptAs s.kept) (execShr d a b s) := next_scalarResult _ _ _ _

theorem next_execShri (d a : SReg) (n : BitVec 6) (s : State) : Next (KeptAs s.kept) (execShri d a n s) := next_scalarResult _ _ _ _

theorem next_execSpawn (r : SReg) (own : Bool) (cl : BitVec 4) (s : State) : Next (KeptAs s.kept) (execSpawn r own cl s) := by
  unfold execSpawn
  refine next_slot ?_
  grind [ends_bind, errs_needReleased, errs_slotRecord, errs_protFault, errs_slotWait, ends_ok, State.kept_enqueueCont, keptAs_iff]

theorem next_execSub (d a b : SReg) (s : State) : Next (KeptAs s.kept) (execSub d a b s) := next_scalarResult _ _ _ _

theorem next_execSuspend (prio : BitVec 2) (s : State) : Next (KeptAs s.kept) (execSuspend prio s) := by
  unfold execSuspend
  refine next_transfer ?_
  grind [ends_ok, State.kept_modIss, keptAs_iff]

theorem next_execTapeOff (s : State) : Next (KeptAs s.kept) (execTapeOff s) := next_slot (ends_ok.2 (State.kept_modCur rfl))

theorem next_execTapeOn (s : State) : Next (KeptAs s.kept) (execTapeOn s) := by
  refine next_slot ?_
  split
  · exact ends_ok.2 (State.kept_modCur rfl)
  · exact ends_protFault _ _

theorem next_execTapeReset (s : State) : Next (KeptAs s.kept) (execTapeReset s) :=
  next_slot (ends_ok.2 ((State.kept_wroteTpos _).trans (State.kept_modCur rfl)))

theorem next_execTapeUnmark (d : SReg) (s : State) : Next (KeptAs s.kept) (execTapeUnmark d s) := by
  unfold execTapeUnmark
  refine next_slot ?_
  grind [ends_bind, errs_needSill, errs_topEntry, errs_protFault, ends_ok, State.kept_popTape, State.kept_wroteTpos, State.kept_land,
    State.kept_note, keptAs_iff]

theorem next_execTrap (v : Word64) (s : State) : Next (KeptAs s.kept) (execTrap v s) := by
  unfold execTrap
  refine next_slot ?_
  grind [ends_ok, State.kept_trapAfter, keptAs_iff]

theorem next_execTtaskHost (s : State) : Next (KeptAs s.kept) (execTtaskHost s) := by
  refine next_slot ?_
  dsimp only
  split
  · exact ends_ok.2 (State.kept_putStat ..)
  · exact ends_ok.2 (State.kept_setCore (congrArg ctxFiles (ctxs_foldl_setSlot (f := fun _ _ => { st := .ready, holder := schedulerHolder }) hostSlots _)))

theorem next_execTwait (t : SReg) (s : State) : Next (KeptAs s.kept) (execTwait t s) := by
  unfold execTwait
  refine next_slot ?_
  grind [ends_slotWait, ends_ok, keptAs_iff]

theorem next_intLanes (s : State) (d a b : VRegNo) (m : MReg) (sz : BitVec 2) (f : Nat → Nat → Nat → Nat × BitVec 6) : Next (KeptAs s.kept)
    (intLanes s d a b m sz f) := by
  unfold intLanes
  refine next_slot ?_
  grind [errs_intSources, ends_vUnlessPoison, ends_bind, ends_ok, State.kept_putLanes, keptAs_iff]

theorem next_execVadd (d a b : VRegNo) (m : MReg) (sz : BitVec 2) (sat u : Bool) (s : State) : Next (KeptAs s.kept) (execVadd d a b m sz sat u s) :=
  next_intLanes _ _ _ _ _ _ _

theorem next_execVand (d a b : VRegNo) (m : MReg) (sz : BitVec 2) (s : State) : Next (KeptAs s.kept) (execVand d a b m sz s) :=
  next_bitLanes _ _ _ _ _ _ _

theorem next_execVbcast (d : VRegNo) (a : SReg) (sz : BitVec 2) (fmt : BitVec 5) (s : State) : Next (KeptAs s.kept) (execVbcast d a sz fmt s) := by
  unfold execVbcast
  refine next_slot ?_
  grind [ends_ok, State.kept_putV, keptAs_iff]

theorem next_execVcmp (d : MReg) (a b : VRegNo) (m : MReg) (sz : BitVec 2) (cc : BitVec 3) (s : State) : Next (KeptAs s.kept) (execVcmp d a b m sz
    cc s) := by
  unfold execVcmp
  refine next_slot ?_
  grind [errs_intSources, ends_mUnlessPoison, ends_bind, ends_ok, State.kept_putM, keptAs_iff]

theorem next_newDesc (s : State) (d : VRegNo) (data : Block) (desc : Desc) : Next (KeptAs s.kept) (newDesc s d data desc) := by
  unfold newDesc
  refine next_slot ?_
  grind [ends_descFault, ends_ok, State.kept_putV, keptAs_iff]

theorem next_execVdescCopy (d a b : VRegNo) (s : State) : Next (KeptAs s.kept) (execVdescCopy d a b s) := next_newDesc _ _ _ _

theorem next_execVdescGet (d a : VRegNo) (s : State) : Next (KeptAs s.kept) (execVdescGet d a s) := by
  unfold execVdescGet
  refine next_slot ?_
  grind [ends_ok, State.kept_putV, keptAs_iff]

theorem next_execVdescSet (d a b : VRegNo) (s : State) : Next (KeptAs s.kept) (execVdescSet d a b s) := next_newDesc _ _ _ _

theorem next_execVext (d : SReg) (a : VRegNo) (lane : BitVec 6) (sz : BitVec 2) (sx : Bool) (s : State) : Next (KeptAs s.kept) (execVext d a lane sz
    sx s) := by
  unfold execVext
  refine next_slot ?_
  grind [ends_ok, keptAs_iff, State.kept_putS, State.kept_putStat]

theorem next_floatLanes (s : State) (d : VRegNo) (m : MReg) (f : BitVec 2) (lat : Nat) (src : List VVal) (op : Nat → Nat × BitVec 6) : Next (KeptAs
    s.kept) (floatLanes s d m f lat src op) := by
  unfold floatLanes
  refine next_slot ?_
  grind [errs_needFloat, ends_vUnlessPoison, ends_bind, ends_ok, State.kept_putLanes, keptAs_iff]

theorem next_float2 (s : State) (d a b : VRegNo) (m : MReg) (rm : BitVec 3) (cl : Bool) (f : BitVec 2) (lat : Nat) (op : Num → Num → Num × BitVec 6)
    : Next (KeptAs s.kept) (float2 s d a b m rm cl f lat op) :=
  next_floatLanes _ _ _ _ _ _ _

theorem next_execVfadd (d a b : VRegNo) (m : MReg) (rm : BitVec 3) (cl : Bool) (fmt : BitVec 2) (s : State) : Next (KeptAs s.kept) (execVfadd d a b
    m rm cl fmt s) :=
  next_float2 _ _ _ _ _ _ _ _ _ _

theorem next_execVfclass (d a : VRegNo) (m : MReg) (fmt : BitVec 2) (s : State) : Next (KeptAs s.kept) (execVfclass d a m fmt s) := by
  unfold execVfclass
  refine next_slot ?_
  grind [errs_needFloat, ends_vUnlessPoison, ends_bind, ends_ok, State.kept_putLanes, keptAs_iff]

theorem next_execVfcmp (d : MReg) (a b : VRegNo) (m : MReg) (cc : BitVec 3) (sg : Bool) (fmt : BitVec 2) (s : State) : Next (KeptAs s.kept)
    (execVfcmp d a b m cc sg fmt s) := by
  unfold execVfcmp
  refine next_slot ?_
  grind [errs_needFloat, ends_mUnlessPoison, ends_bind, ends_ok, State.kept_putM, State.kept_putFlags, keptAs_iff]

theorem next_functionLanes (g : Fn) (d a : VRegNo) (m : MReg) (cl : Bool) (fmt : BitVec 2) (s : State) : Next (KeptAs s.kept) (functionLanes g d a m
    cl fmt s) :=
  next_floatLanes _ _ _ _ _ _ _

theorem next_execVfcos (d a : VRegNo) (m : MReg) (cl : Bool) (fmt : BitVec 2) (s : State) : Next (KeptAs s.kept) (execVfcos d a m cl fmt s) :=
  next_functionLanes _ _ _ _ _ _ _

theorem next_execVfcvt (d a : VRegNo) (cl : Bool) (src : BitVec 4) (rm part : BitVec 3) (dst : BitVec 5) (s : State) : Next (KeptAs s.kept)
    (execVfcvt d a cl src rm part dst s) := by
  unfold execVfcvt
  refine next_slot ?_
  grind [ends_vUnlessPoison, ends_bind, errs_needFloat, ends_ok, State.kept_putV, State.kept_putFlags, keptAs_iff, errs_needFormat]

theorem next_execVfdiv (d a b : VRegNo) (m : MReg) (rm : BitVec 3) (cl : Bool) (fmt : BitVec 2) (s : State) : Next (KeptAs s.kept) (execVfdiv d a b
    m rm cl fmt s) :=
  next_float2 _ _ _ _ _ _ _ _ _ _

theorem next_execVfexp (d a : VRegNo) (m : MReg) (cl : Bool) (fmt : BitVec 2) (s : State) : Next (KeptAs s.kept) (execVfexp d a m cl fmt s) :=
  next_functionLanes _ _ _ _ _ _ _

theorem next_execVfexp2 (d a : VRegNo) (m : MReg) (cl : Bool) (fmt : BitVec 2) (s : State) : Next (KeptAs s.kept) (execVfexp2 d a m cl fmt s) :=
  next_functionLanes _ _ _ _ _ _ _

theorem next_execVflog (d a : VRegNo) (m : MReg) (cl : Bool) (fmt : BitVec 2) (s : State) : Next (KeptAs s.kept) (execVflog d a m cl fmt s) :=
  next_functionLanes _ _ _ _ _ _ _

theorem next_execVflog2 (d a : VRegNo) (m : MReg) (cl : Bool) (fmt : BitVec 2) (s : State) : Next (KeptAs s.kept) (execVflog2 d a m cl fmt s) :=
  next_functionLanes _ _ _ _ _ _ _

theorem next_float3 (s : State) (d a b : VRegNo) (m : MReg) (rm : BitVec 3) (cl : Bool) (f : BitVec 2) (op : Num → Num → Num → Num × BitVec 6) :
    Next (KeptAs s.kept) (float3 s d a b m rm cl f op) :=
  next_floatLanes _ _ _ _ _ _ _

theorem next_execVfma (d a b : VRegNo) (m : MReg) (rm : BitVec 3) (cl : Bool) (fmt : BitVec 2) (s : State) : Next (KeptAs s.kept) (execVfma d a b m
    rm cl fmt s) :=
  next_float3 _ _ _ _ _ _ _ _ _

theorem next_execVfmax (d a b : VRegNo) (m : MReg) (fmt : BitVec 2) (s : State) : Next (KeptAs s.kept) (execVfmax d a b m fmt s) :=
  next_floatLanes _ _ _ _ _ _ _

theorem next_execVfmin (d a b : VRegNo) (m : MReg) (fmt : BitVec 2) (s : State) : Next (KeptAs s.kept) (execVfmin d a b m fmt s) :=
  next_floatLanes _ _ _ _ _ _ _

theorem next_execVfms (d a b : VRegNo) (m : MReg) (rm : BitVec 3) (cl : Bool) (fmt : BitVec 2) (s : State) : Next (KeptAs s.kept) (execVfms d a b m
    rm cl fmt s) :=
  next_float3 _ _ _ _ _ _ _ _ _

theorem next_execVfmul (d a b : VRegNo) (m : MReg) (rm : BitVec 3) (cl : Bool) (fmt : BitVec 2) (s : State) : Next (KeptAs s.kept) (execVfmul d a b
    m rm cl fmt s) :=
  next_float2 _ _ _ _ _ _ _ _ _ _

theorem next_execVfnma (d a b : VRegNo) (m : MReg) (rm : BitVec 3) (cl : Bool) (fmt : BitVec 2) (s : State) : Next (KeptAs s.kept) (execVfnma d a b
    m rm cl fmt s) :=
  next_float3 _ _ _ _ _ _ _ _ _

theorem next_execVfrcp (d a : VRegNo) (m : MReg) (cl : Bool) (fmt : BitVec 2) (s : State) : Next (KeptAs s.kept) (execVfrcp d a m cl fmt s) :=
  next_functionLanes _ _ _ _ _ _ _

theorem next_execVfrint (d a : VRegNo) (m : MReg) (rm : BitVec 3) (fmt : BitVec 2) (s : State) : Next (KeptAs s.kept) (execVfrint d a m rm fmt s) :=
  next_floatLanes _ _ _ _ _ _ _

theorem next_execVfrsq (d a : VRegNo) (m : MReg) (cl : Bool) (fmt : BitVec 2) (s : State) : Next (KeptAs s.kept) (execVfrsq d a m cl fmt s) :=
  next_functionLanes _ _ _ _ _ _ _

theorem next_signLanes (s : State) (d a b : VRegNo) (m : MReg) (f : BitVec 2) (op : Bool → Bool → Bool) : Next (KeptAs s.kept) (signLanes s d a b m
    f op) := by
  unfold signLanes
  refine next_slot ?_
  grind [errs_needFloat, ends_vUnlessPoison, ends_bind, ends_ok, State.kept_putLanes, keptAs_iff]

theorem next_execVfsgnCopy (d a b : VRegNo) (m : MReg) (fmt : BitVec 2) (s : State) : Next (KeptAs s.kept) (execVfsgnCopy d a b m fmt s) :=
  next_signLanes _ _ _ _ _ _ _

theorem next_execVfsgnNeg (d a b : VRegNo) (m : MReg) (fmt : BitVec 2) (s : State) : Next (KeptAs s.kept) (execVfsgnNeg d a b m fmt s) :=
  next_signLanes _ _ _ _ _ _ _

theorem next_execVfsgnXor (d a b : VRegNo) (m : MReg) (fmt : BitVec 2) (s : State) : Next (KeptAs s.kept) (execVfsgnXor d a b m fmt s) :=
  next_signLanes _ _ _ _ _ _ _

theorem next_execVfsin (d a : VRegNo) (m : MReg) (cl : Bool) (fmt : BitVec 2) (s : State) : Next (KeptAs s.kept) (execVfsin d a m cl fmt s) :=
  next_functionLanes _ _ _ _ _ _ _

theorem next_execVfsqrt (d a : VRegNo) (m : MReg) (rm : BitVec 3) (cl : Bool) (fmt : BitVec 2) (s : State) : Next (KeptAs s.kept) (execVfsqrt d a m
    rm cl fmt s) :=
  next_floatLanes _ _ _ _ _ _ _

theorem next_execVfsub (d a b : VRegNo) (m : MReg) (rm : BitVec 3) (cl : Bool) (fmt : BitVec 2) (s : State) : Next (KeptAs s.kept) (execVfsub d a b
    m rm cl fmt s) :=
  next_float2 _ _ _ _ _ _ _ _ _ _

theorem next_execVftanh (d a : VRegNo) (m : MReg) (cl : Bool) (fmt : BitVec 2) (s : State) : Next (KeptAs s.kept) (execVftanh d a m cl fmt s) :=
  next_functionLanes _ _ _ _ _ _ _

theorem next_execVfxsJoin (d a b : VRegNo) (rm : BitVec 3) (cl : Bool) (s : State) : Next (KeptAs s.kept) (execVfxsJoin d a b rm cl s) := by
  unfold execVfxsJoin
  refine next_slot ?_
  grind [ends_vUnlessPoison, ends_bind, errs_descFault, ends_ok, State.kept_putV, State.kept_putFlags, keptAs_iff]

theorem next_splitSum (s : State) (d a : VRegNo) (m : MReg) (f : List Num → List Int) : Next (KeptAs s.kept) (splitSum s d a m f) := by
  unfold splitSum
  refine next_slot ?_
  grind [ends_vUnlessPoison, ends_descFault, ends_ok, State.kept_putV, keptAs_iff]

theorem next_execVfxsSplitHi (d a : VRegNo) (m : MReg) (s : State) : Next (KeptAs s.kept) (execVfxsSplitHi d a m s) := next_splitSum _ _ _ _ _

theorem next_execVfxsSplitLo (d a : VRegNo) (m : MReg) (s : State) : Next (KeptAs s.kept) (execVfxsSplitLo d a m s) := next_splitSum _ _ _ _ _

theorem next_execVins (d : VRegNo) (a : SReg) (lane : BitVec 6) (sz : BitVec 2) (s : State) : Next (KeptAs s.kept) (execVins d a lane sz s) := by
  unfold execVins
  refine next_slot ?_
  grind [Ends.of_ok, State.kept_putV, ends_vUnlessPoison, keptAs_iff, ends_ok]

theorem next_execVmax (d a b : VRegNo) (m : MReg) (sz : BitVec 2) (u : Bool) (s : State) : Next (KeptAs s.kept) (execVmax d a b m sz u s) :=
  next_intLanes _ _ _ _ _ _ _

theorem next_execVmin (d a b : VRegNo) (m : MReg) (sz : BitVec 2) (u : Bool) (s : State) : Next (KeptAs s.kept) (execVmin d a b m sz u s) :=
  next_intLanes _ _ _ _ _ _ _

theorem next_execVmov (d a : VRegNo) (m : MReg) (sz : BitVec 2) (s : State) : Next (KeptAs s.kept) (execVmov d a m sz s) := by
  unfold execVmov
  refine next_slot ?_
  grind [Ends.of_ok, State.kept_putLanes, ends_vUnlessPoison, keptAs_iff, ends_ok]

theorem next_execVmul (d a b : VRegNo) (m : MReg) (sz : BitVec 2) (sat u hi : Bool) (s : State) : Next (KeptAs s.kept) (execVmul d a b m sz sat u hi
    s) :=
  next_intLanes _ _ _ _ _ _ _

theorem next_execVor (d a b : VRegNo) (m : MReg) (sz : BitVec 2) (s : State) : Next (KeptAs s.kept) (execVor d a b m sz s) :=
  next_bitLanes _ _ _ _ _ _ _

theorem next_packLanes (s : State) (d a b : VRegNo) (w : Nat) (sat : Bool) : Next (KeptAs s.kept) (packLanes s d a b w sat) := by
  unfold packLanes
  refine next_slot ?_
  grind [errs_intSources, ends_vUnlessPoison, ends_bind, ends_ok, State.kept_putV, State.kept_putFlags, keptAs_iff]

theorem next_execVpackD2w (d a b : VRegNo) (sat : Bool) (s : State) : Next (KeptAs s.kept) (execVpackD2w d a b sat s) := next_packLanes _ _ _ _ _ _

theorem next_execVpackH2b (d a b : VRegNo) (sat : Bool) (s : State) : Next (KeptAs s.kept) (execVpackH2b d a b sat s) := next_packLanes _ _ _ _ _ _

theorem next_execVpackT2 (d a b : VRegNo) (half : Bool) (s : State) : Next (KeptAs s.kept) (execVpackT2 d a b half s) := by
  unfold execVpackT2
  refine next_slot ?_
  grind [errs_intSources, ends_vUnlessPoison, ends_bind, ends_ok, State.kept_putV, State.kept_putFlags, keptAs_iff]

theorem next_execVpackW2h (d a b : VRegNo) (sat : Bool) (s : State) : Next (KeptAs s.kept) (execVpackW2h d a b sat s) := next_packLanes _ _ _ _ _ _

theorem next_execVperm (d a b : VRegNo) (m : MReg) (sz : BitVec 2) (s : State) : Next (KeptAs s.kept) (execVperm d a b m sz s) := by
  unfold execVperm
  refine next_slot ?_
  grind [Ends.of_ok, State.kept_putLanes, ends_vUnlessPoison, keptAs_iff, ends_ok]

theorem next_reduce (op : RedOp) (d a : VRegNo) (m : MReg) (rm : BitVec 3) (t : Bool) (fmt : BitVec 2) (s : State) : Next (KeptAs s.kept) (reduce op
    d a m rm t fmt s) := by
  unfold reduce
  refine next_slot ?_
  grind [errs_needFloat, ends_vUnlessPoison, ends_bind, ends_ok, State.kept_putV, State.kept_putFlags, keptAs_iff]

theorem next_execVredAdd (d a : VRegNo) (m : MReg) (rm : BitVec 3) (t : Bool) (fmt : BitVec 2) (s : State) : Next (KeptAs s.kept) (execVredAdd d a m
    rm t fmt s) :=
  next_reduce _ _ _ _ _ _ _ _

theorem next_execVredMax (d a : VRegNo) (m : MReg) (rm : BitVec 3) (t : Bool) (fmt : BitVec 2) (s : State) : Next (KeptAs s.kept) (execVredMax d a m
    rm t fmt s) :=
  next_reduce _ _ _ _ _ _ _ _

theorem next_execVredMin (d a : VRegNo) (m : MReg) (rm : BitVec 3) (t : Bool) (fmt : BitVec 2) (s : State) : Next (KeptAs s.kept) (execVredMin d a m
    rm t fmt s) :=
  next_reduce _ _ _ _ _ _ _ _

theorem next_shiftLanes (s : State) (d a b : VRegNo) (m : MReg) (sz : BitVec 2) (f : Nat → Nat → Nat → Nat) : Next (KeptAs s.kept) (shiftLanes s d a
    b m sz f) := by
  unfold shiftLanes
  refine next_slot ?_
  grind [errs_intSources, ends_vUnlessPoison, ends_bind, ends_ok, State.kept_putLanes, keptAs_iff]

theorem next_execVsar (d a b : VRegNo) (m : MReg) (sz : BitVec 2) (s : State) : Next (KeptAs s.kept) (execVsar d a b m sz s) :=
  next_shiftLanes _ _ _ _ _ _ _

theorem next_execVscaleFit (d a : VRegNo) (m : MReg) (fmt : BitVec 5) (s : State) : Next (KeptAs s.kept) (execVscaleFit d a m fmt s) := by
  unfold execVscaleFit
  refine next_slot ?_
  grind [ends_vUnlessPoison, ends_bind, errs_descFault, ends_ok, State.kept_putV, State.kept_putFlags, keptAs_iff]

theorem next_execVscaleRel (d a b : VRegNo) (s : State) : Next (KeptAs s.kept) (execVscaleRel d a b s) := by
  unfold execVscaleRel
  refine next_slot ?_
  grind [ends_vUnlessPoison, ends_bind, errs_descFault, ends_ok, State.kept_putV, keptAs_iff]

theorem next_execVsel (d a b : VRegNo) (m : MReg) (sz : BitVec 2) (s : State) : Next (KeptAs s.kept) (execVsel d a b m sz s) := by
  unfold execVsel
  refine next_slot ?_
  grind [ends_vUnlessPoison, ends_descFault, ends_ok, State.kept_putV, keptAs_iff]

theorem next_execVshl (d a b : VRegNo) (m : MReg) (sz : BitVec 2) (s : State) : Next (KeptAs s.kept) (execVshl d a b m sz s) :=
  next_shiftLanes _ _ _ _ _ _ _

theorem next_execVshr (d a b : VRegNo) (m : MReg) (sz : BitVec 2) (s : State) : Next (KeptAs s.kept) (execVshr d a b m sz s) :=
  next_shiftLanes _ _ _ _ _ _ _

theorem next_execVsub (d a b : VRegNo) (m : MReg) (sz : BitVec 2) (sat u : Bool) (s : State) : Next (KeptAs s.kept) (execVsub d a b m sz sat u s) :=
  next_intLanes _ _ _ _ _ _ _

theorem next_unpackLanes (s : State) (d a : VRegNo) (w : Nat) (part u : Bool) : Next (KeptAs s.kept) (unpackLanes s d a w part u) := by
  unfold unpackLanes
  refine next_slot ?_
  grind [errs_needFormat, ends_vUnlessPoison, ends_bind, ends_ok, State.kept_putV, keptAs_iff]

theorem next_execVunpackB2h (d a : VRegNo) (part u : Bool) (s : State) : Next (KeptAs s.kept) (execVunpackB2h d a part u s) :=
  next_unpackLanes _ _ _ _ _ _

theorem next_execVunpackH2w (d a : VRegNo) (part u : Bool) (s : State) : Next (KeptAs s.kept) (execVunpackH2w d a part u s) :=
  next_unpackLanes _ _ _ _ _ _

theorem next_execVunpackT2 (d a : VRegNo) (part : BitVec 2) (s : State) : Next (KeptAs s.kept) (execVunpackT2 d a part s) := by
  unfold execVunpackT2
  refine next_slot ?_
  grind [errs_needFormat, ends_vUnlessPoison, ends_bind, ends_ok, State.kept_putV, State.kept_putTernbad, keptAs_iff]

theorem next_execVunpackW2d (d a : VRegNo) (part u : Bool) (s : State) : Next (KeptAs s.kept) (execVunpackW2d d a part u s) :=
  next_unpackLanes _ _ _ _ _ _

theorem next_execVxor (d a b : VRegNo) (m : MReg) (sz : BitVec 2) (s : State) : Next (KeptAs s.kept) (execVxor d a b m sz s) :=
  next_bitLanes _ _ _ _ _ _ _

theorem next_execWfldGet (d a : SReg) (j : BitVec 3) (s : State) : Next (KeptAs s.kept) (execWfldGet d a j s) := next_scalarResult _ _ _ _

theorem next_execWfldLvl (d a : SReg) (j : BitVec 3) (s : State) : Next (KeptAs s.kept) (execWfldLvl d a j s) := next_scalarResult _ _ _ _

theorem next_execWfldSet (d a b : SReg) (j : BitVec 3) (s : State) : Next (KeptAs s.kept) (execWfldSet d a b j s) := next_scalarResult _ _ _ _

theorem next_execXor (d a b : SReg) (s : State) : Next (KeptAs s.kept) (execXor d a b s) := next_scalarResult _ _ _ _

theorem next_execXori (d a : SReg) (v : Word64) (s : State) : Next (KeptAs s.kept) (execXori d a v s) := next_scalarResult _ _ _ _

theorem next_execZext (d a : SReg) (sz : BitVec 2) (s : State) : Next (KeptAs s.kept) (execZext d a sz s) := next_scalarResult _ _ _ _

end Sys2Proof.Machine
end

