-- ==== Sys2Proof/Proofs/SlotWrites.lean ====
section
/-! What the slots that store leave: register files, and the canonical form of memory (R30, R55 to R57). -/

namespace Sys2Proof.Machine

/-- The register files are `f`, and where `c` holds memory is in canonical form. -/
structure Sound (f : Nat → Vector Files 4) (c : Prop) (u : State) : Prop where
  files : u.files = f
  wf : c → Memory.wf u.mem

section
variable {f : Nat → Vector Files 4} {c : Prop} {s u : State}

/-- What a state keeps is enough to be sound. -/
theorem Sound.of_kept (h : Sound f c s) (hk : u.kept = s.kept) : Sound f c u := by
  simp only [State.kept, Prod.mk.injEq] at hk
  obtain ⟨hm, -, -, hf⟩ := hk
  exact ⟨hf.trans h.files, fun hc => hm ▸ h.wf hc⟩

theorem Sound.errs {α : Type} (h : Sound f c s) {x : Except State α} (hx : Errs (KeptAs s.kept) x) : Errs (Sound f c) x :=
  hx.mono fun _ hu => h.of_kept hu

theorem Sound.ends (h : Sound f c s) {x : Except State State} (hx : Ends (KeptAs s.kept) x) : Ends (Sound f c) x :=
  hx.mono fun _ hu => h.of_kept hu

theorem Sound.next (h : Sound f c s) {x : Out} (hx : Next (KeptAs s.kept) x) : Next (Sound f c) x := hx.mono fun _ hu => h.of_kept hu

theorem Sound.slot {x : Except State State} (hx : Ends (Sound f c) x) : Next (Sound f c) (slotDone x) :=
  next_slotDone (fun t ht => ht.of_kept (State.kept_commitSlot t false)) hx

theorem Sound.foldl {α : Type} {op : State → α → State} (hop : ∀ s a, Sound f c s → Sound f c (op s a)) (l : List α) (h : Sound f c s) :
    Sound f c (l.foldl op s) := by
  induction l generalizing s with
  | nil => exact h
  | cons a l ih => exact ih (hop s a h)

/-! ### Writes to memory -/

/-- A new memory in canonical form is sound, whatever descriptors and marks go with it. -/
theorem Sound.mem (h : Sound f c s) {m : List Host.Cell} (d : List (Nat × Desc)) (p : List Nat) (hm : Memory.wf s.mem → Memory.wf m) :
    Sound f c { s with mem := m, desc := d, poisoned := p } := ⟨h.files, fun hc => hm (h.wf hc)⟩

theorem Sound.writePart1 (h : Sound f c s) (key n v : Nat) : Sound f c (s.writePart1 key n v) := by
  unfold State.writePart1
  split
  · exact h
  · exact h.mem _ _ fun hm => putBytes_wf hm key n v

theorem Sound.writePart (h : Sound f c s) (keys : List Nat) (n v : Nat) : Sound f c (s.writePart keys n v) :=
  h.foldl (fun _ k hs => hs.writePart1 k n v) keys

theorem Sound.writeBlock1 (h : Sound f c s) (key : Nat) (b : VVal) : Sound f c (s.writeBlock1 key b) :=
  h.mem _ _ fun hm => putBytes_wf hm ..

theorem Sound.writeBlock (h : Sound f c s) (keys : List Nat) (b : VVal) : Sound f c (s.writeBlock keys b) :=
  h.foldl (fun _ k hs => hs.writeBlock1 k b) keys

theorem Sound.putBlockDesc (h : Sound f c s) (keys : List Nat) (d : Desc) : Sound f c (s.putBlockDesc keys d) := by
  refine h.foldl (fun s key hs => ?_) keys
  split
  · exact hs
  · split
    · exact hs.writeBlock1 ..
    · exact hs.mem _ _ id

theorem Sound.writeDesc (h : Sound f c s) (keys : List Nat) (d : Desc) : Sound f c (s.writeDesc keys d) := by
  refine h.foldl (fun s key hs => ?_) keys
  split
  · exact hs
  · exact hs.mem _ _ id

theorem Sound.writeCells (h : Sound f c s) (pa n v : Nat) : Sound f c (s.writeCells pa n v) := h.mem _ _ fun hm => putBytes_wf hm pa n v

theorem Sound.setLatch (h : Sound f c s) (g n v : Nat) : Sound f c (s.setLatch g n v) := h.mem _ _ fun hm => putBytes_wf hm _ 8 v

theorem Sound.latchConsume (h : Sound f c s) (g n : Nat) : Sound f c (s.latchConsume g n) := h.setLatch ..

theorem Sound.latchAdd (h : Sound f c s) {g n k : Nat} (hu : s.latchAdd g n k = some u) : Sound f c u := by
  unfold State.latchAdd at hu
  dsimp only at hu
  split at hu
  · cases hu
  · cases hu
    exact h.setLatch ..

theorem Sound.zeroTile (h : Sound f c s) (g t : Nat) : Sound f c (s.zeroTile g t) := h.mem _ _ fun hm => filter_wf hm _

theorem Sound.resetTile (h : Sound f c s) (g t mode : Nat) : Sound f c (s.resetTile g t mode) :=
  (h.zeroTile g t).of_kept (State.kept_modCore (ctxFiles_setTile ..))

theorem Sound.putPairs (h : Sound f c s) (l : List (Loc × Word64 × Word64)) : Sound f c (s.putPairs l) := by
  induction l generalizing s with
  | nil => exact h
  | cons e l ih => exact ih ((h.writePart ..).writePart ..)

theorem Sound.putRecord (h : Sound f c s) (g rec n v : Nat) : Sound f c (s.putRecord g rec n v) := h.writePart ..

theorem Sound.storeScalar (h : Sound f c s) (g va : Nat) (l : Loc) (n v : Nat) : Sound f c (s.storeScalar g va l n v) :=
  (h.writePart ..).of_kept (State.kept_note ..)

theorem Sound.spillTo (h : Sound f c s) (cls : BitVec 2) (d : SReg) (l : Loc) : Sound f c (s.spillTo cls d l) := by
  unfold State.spillTo
  split
  · exact h.writeBlock ..
  · exact h.writePart ..

theorem Sound.restoreStore (h : Sound f c s) (form : StoreForm) (va : Nat) (l : Loc) (w : Word64) (old : VVal) :
    Sound f c (s.restoreStore form va l w old) := by
  unfold State.restoreStore
  dsimp only
  split
  · exact (h.writePart ..).of_kept (State.kept_note ..)
  · exact (h.writeBlock ..).of_kept (State.kept_note ..)
  · exact h

/-! ### Pushes, reversed stores, cells and latches -/

theorem Sound.pushTape (h : Sound f c s) (store : Word64) (pairs : List (Word64 × Word64)) : Ends (Sound f c) (pushTape s store pairs) := by
  unfold Machine.pushTape
  refine ends_unless (h.errs (errs_slotTrap _ _ _ _)) ?_
  refine ends_bind.2 ⟨h.errs (errs_tapeLocs _ _ _ _), fun ls _ => ends_ok.2 ?_⟩
  exact ((h.putPairs _).of_kept (State.kept_note ..)).of_kept (State.kept_modCur rfl)

theorem Sound.pushOld (h : Sound f c s) (l : Loc) (va : Word64) (pairs : List (Word64 × Word64)) : Ends (Sound f c) (pushOld s l va pairs) := by
  unfold Machine.pushOld
  split
  · split
    · exact h.pushTape _ _
    · exact h.ends (ends_protFault _ _)
  · exact ends_ok.2 h

theorem Sound.pushPane (h : Sound f c s) (pa : Nat) (fr : Frame) (va : Word64) (name : Nat) (acc blk : Bool) :
    Ends (Sound f c) (pushPane s pa fr va name acc blk) := by
  unfold Machine.pushPane
  split
  · exact h.pushTape _ _
  · exact ends_ok.2 h

theorem Sound.poisonCells {α : Type} (h : Sound f c s) (pa n : Nat) : Errs (Sound f c) (poisonCells s pa n : Except State α) := by
  intro u hu
  cases hu
  exact ⟨h.files, h.wf⟩

theorem Sound.cellStore (h : Sound f c s) (va x : Word64) : Ends (Sound f c) (cellStore s va x) :=
  ends_bind.2 ⟨h.errs (errs_slotCells _ _ _), fun l _ => ends_bind.2 ⟨h.errs (errs_needReleased _), fun _ _ =>
    ends_ok.2 ((h.writeCells ..).of_kept (State.kept_note ..))⟩⟩

theorem Sound.awrBlock (h : Sound f c s) (d : SReg) (va : Word64) (w fl add : Bool) : Ends (Sound f c) (awrBlock s d va w fl add) := by
  refine ends_bind.2 ⟨h.errs (errs_slotCells _ _ _), fun l _ => ends_bind.2 ⟨h.errs (errs_needReleased _), fun _ _ => ?_⟩⟩
  refine ends_unless (h.poisonCells _ _) (ends_unless (h.errs (errs_descFault _ _)) (ends_bind.2 ⟨?_, fun old _ => ends_ok.2 ?_⟩))
  · split
    · exact h.errs (errs_readCells _ _ _ _ rfl)
    · exact errs_ok _
  · exact ((h.writeCells ..).of_kept (State.kept_putFlags ..)).of_kept (State.kept_note ..)

theorem Sound.cellUpdate (h : Sound f c s) (va : Word64) (w : Bool) (ret : Option Nat) (op : Nat → Nat × BitVec 6) :
    Ends (Sound f c) (cellUpdate s va w ret op) := by
  have hgive (t : State) (own : Bool) (v : Nat) (fl : BitVec 6) :
      (match ret with | none => t.putFlags fl 1 | some r => t.putCell own (.s r (w64 v)) 8 fl).kept = t.kept := by
    cases ret with
    | none => exact State.kept_putFlags ..
    | some r => exact State.kept_putCell ..
  refine ends_bind.2 ⟨h.errs (errs_slotCells _ _ _), fun l _ => ends_unless (h.errs (errs_needSill _)) ?_⟩
  refine ends_bind.2 ⟨h.errs (errs_needReleased _), fun _ _ => ends_bind.2 ⟨h.errs (errs_readCells _ _ _ _ (hgive ..)), fun old _ => ?_⟩⟩
  have hw := (h.writeCells l.key (wordSize w) (op old).1).of_kept (State.kept_note _ va.toNat (wordSize w) true (cellLatency s l) false)
  refine ends_ok.2 (Sound.of_kept ?_ (hgive ..))
  split
  · exact hw.of_kept (State.kept_note ..)
  · exact hw

theorem Sound.arrive (h : Sound f c s) (v : Word64) (rot : Bool) (k : Nat) : Ends (Sound f c) (arrive s v rot k) := by
  refine ends_bind.2 ⟨h.errs (errs_latchName _ _ _), fun e _ => ends_bind.2 ⟨h.errs (errs_needReleased _), fun _ _ => ?_⟩⟩
  split
  next t ht => exact ends_ok.2 (h.latchAdd ht)
  next => exact h.ends (ends_protFault _ _)

theorem Sound.enterRecord (h : Sound f c s) (pa : Nat) (r : FrameRec) (name : Word64) : Ends (Sound f c) (enterRecord s pa r name) :=
  ends_bind.2 ⟨h.errs (errs_arenaLoc _ _ _), fun l _ => ends_unless (h.errs (errs_protFault _ _)) (ends_unless (h.errs (errs_protFault _ _))
    (ends_ok.2 ((h.writeBlock ..).of_kept (State.kept_setFrame ..))))⟩

theorem Sound.reverseStore (h : Sound f c s) (form : StoreForm) (va : Word64) (l : Loc) : Ends (Sound f c) (reverseStore s form va l) := by
  refine ends_bind.2 ⟨h.errs (errs_topEntry _), fun e _ => ends_unless (h.errs (errs_protFault _ _)) (ends_bind.2 ⟨?_, fun old _ => ?_⟩)⟩
  · split
    · exact h.errs (errs_topBlock _ _)
    · exact errs_ok _
  · dsimp only
    split
    · exact h.ends (ends_protFault _ _)
    · refine ends_unless (h.errs (errs_protFault _ _)) (ends_unless (h.errs (errs_protFault _ _)) ?_)
      refine ends_bind.2 ⟨h.errs (errs_readAdjoints _ _ _ _), fun ys _ => ends_unless (h.errs (errs_slotWait _ _)) ?_⟩
      have hdone (s1 : State) (h1 : Sound f c s1) (w : Word64) (n : Nat) (x : Bool) (y : List Nat) (b : Bool) (us : List Upd) (lat a e g : Nat) :
          Sound f c (((adjointUpdates ((s1.restoreStore form va.toNat l w old).popTape n) form g y b).1.land us lat false).note a e false lat x) :=
        ((((h1.restoreStore ..).of_kept (State.kept_popTape ..)).of_kept (State.kept_adjointUpdates ..)).of_kept (State.kept_land ..)).of_kept
          (State.kept_note ..)
      refine ends_bind.2 ⟨?_, fun s1 hs1 => ends_ok.2 (hdone s1 ?_ ..)⟩
      · split
        · exact errs_ok _
        · exact errs_bind.2 ⟨h.errs (errs_touchAdjoint _ _ _), fun _ _ => errs_ok _⟩
      · split at hs1
        · cases hs1
          exact h
        · obtain ⟨e', -, he⟩ := exists_of_bind_ok hs1
          cases he
          exact h.of_kept (State.kept_putAdjoint ..)

/-! ### The instructions that store -/

theorem Sound.execSt (h : Sound f c s) (d : SReg) (base : AReg) (off : Off9) (sz : BitVec 2) : Next (Sound f c) (execSt d base off sz s) := by
  refine Sound.slot (ends_bind.2 ⟨h.errs (errs_slotAccess _ _ _ _ _), fun l _ => ?_⟩)
  split
  · exact ends_bind.2 ⟨h.errs (errs_slotPort _ _ _), fun _ _ => ends_ok.2 (h.of_kept (State.kept_storeWindow ..))⟩
  · refine ends_bind.2 ⟨h.errs (errs_plainOnly _ _ _), fun _ _ => ?_⟩
    split
    · exact h.reverseStore _ _ _
    · exact ends_bind.2 ⟨(h.pushOld _ _ _).errs, fun t ht => ends_ok.2 (((h.pushOld _ _ _).of_ok ht).storeScalar ..)⟩

theorem Sound.execStV (h : Sound f c s) (d : VRegNo) (base : AReg) (off : Off9) : Next (Sound f c) (execStV d base off s) := by
  refine Sound.slot (ends_bind.2 ⟨h.errs (errs_slotAccess _ _ _ _ _), fun l _ => ?_⟩)
  split
  · exact ends_bind.2 ⟨h.errs (errs_slotPort _ _ _), fun _ _ => ends_ok.2 (h.of_kept (State.kept_storeBlockWindow ..))⟩
  · refine ends_bind.2 ⟨h.errs (errs_plainOnly _ _ _), fun _ _ => ?_⟩
    split
    · exact h.reverseStore _ _ _
    · exact ends_bind.2 ⟨(h.pushOld _ _ _).errs, fun t ht =>
        ends_ok.2 ((((h.pushOld _ _ _).of_ok ht).writeBlock ..).of_kept (State.kept_note ..))⟩

theorem Sound.execStG (h : Sound f c s) (d : SReg) (base : AReg) (off : Off9) (fr : FReg) (acc : Bool) :
    Next (Sound f c) (execStG d base off fr acc s) := by
  refine Sound.slot (ends_bind.2 ⟨h.errs (errs_boundOf _ _), fun e _ => ?_⟩)
  refine ends_bind.2 ⟨h.errs (errs_paneLoc _ _ _ _), fun l _ => ?_⟩
  split
  · exact h.reverseStore _ _ _
  · refine ends_bind.2 ⟨h.errs (errs_paneGate _ _ _), fun _ _ => ends_bind.2 ⟨h.errs (errs_openPane _ _ _ _), fun p _ => ?_⟩⟩
    refine ends_bind.2 ⟨h.errs (errs_touchFor _ _ _ _ _ _), fun q _ => ?_⟩
    refine ends_bind.2 ⟨(h.pushPane _ _ _ _ _ _).errs, fun t ht => ?_⟩
    have hsound : Sound f c t := (h.pushPane _ _ _ _ _ _).of_ok ht
    split
    · exact ends_ok.2 hsound
    · exact ends_ok.2 ((hsound.of_kept (State.kept_changeFrame ..)).of_kept (State.kept_putFlags ..))

theorem Sound.execStGBlk (h : Sound f c s) (d : VRegNo) (base : AReg) (off : Off9) (fr : FReg) (acc : Bool) :
    Next (Sound f c) (execStGBlk d base off fr acc s) := by
  refine Sound.slot (ends_bind.2 ⟨h.errs (errs_boundOf _ _), fun e _ => ?_⟩)
  refine ends_bind.2 ⟨h.errs (errs_paneLoc _ _ _ _), fun l _ => ?_⟩
  split
  · exact h.reverseStore _ _ _
  · refine ends_bind.2 ⟨h.errs (errs_paneGate _ _ _), fun _ _ => ends_bind.2 ⟨h.errs (errs_openPane _ _ _ _), fun p _ => ?_⟩⟩
    refine ends_bind.2 ⟨h.errs (errs_touchFor _ _ _ _ _ _), fun q _ => ?_⟩
    split
    · exact ends_ok.2 h
    · refine ends_unless (h.errs (errs_descFault _ _)) ?_
      refine ends_bind.2 ⟨(h.pushPane _ _ _ _ _ _).errs, fun t ht => ends_ok.2 ?_⟩
      exact (((h.pushPane _ _ _ _ _ _).of_ok ht).of_kept (State.kept_changeFrame ..)).of_kept (State.kept_putFlags ..)

theorem Sound.execStD (h : Sound f c s) (d : SReg) (base : AReg) (off : Off9) : Next (Sound f c) (execStD d base off s) := by
  refine Sound.slot (ends_bind.2 ⟨h.errs (errs_slotAccess _ _ _ _ _), fun l _ => ?_⟩)
  refine ends_bind.2 ⟨h.errs (errs_plainOnly _ _ _), fun _ _ => ends_unless (h.errs (errs_slotFault _ _ _ _ _)) ?_⟩
  exact ends_unless (h.errs (errs_protFault _ _)) (ends_ok.2 ((h.writeDesc ..).of_kept (State.kept_note ..)))

theorem Sound.execScat (h : Sound f c s) (d : VRegNo) (a : AReg) (b : VRegNo) (dw : Bool) (m : MReg) :
    Next (Sound f c) (execScat d a b dw m s) := by
  refine Sound.slot (ends_bind.2 ⟨h.errs (errs_gatherLanes _ _ _ _ _ _ _), fun lanes _ => ?_⟩)
  dsimp only
  split
  · exact h.ends (ends_slotFault _ _ _ _ _)
  · exact ends_ok.2 ((h.foldl (fun _ e hs => hs.writePart ..) lanes).of_kept (State.kept_noteLanes ..))

theorem Sound.execAwrOw (h : Sound f c s) (d : SReg) (base : AReg) (off : Off9) (w fl blk : Bool) :
    Next (Sound f c) (execAwrOw d base off w fl blk s) := by
  refine Sound.slot ?_
  split
  · exact h.awrBlock _ _ _ _ _
  · split
    · exact h.cellUpdate _ _ _ _
    · exact h.cellStore _ _

theorem Sound.execAwrAdd (h : Sound f c s) (d : SReg) (base : AReg) (off : Off9) (w fl blk : Bool) :
    Next (Sound f c) (execAwrAdd d base off w fl blk s) := by
  refine Sound.slot ?_
  split
  · exact h.awrBlock _ _ _ _ _
  · exact h.cellUpdate _ _ _ _

theorem Sound.execAst (h : Sound f c s) (d : VRegNo) (base : AReg) (off : Off9) : Next (Sound f c) (execAst d base off s) := by
  refine Sound.slot (ends_unless (h.errs (errs_descFault _ _)) ?_)
  refine ends_bind.2 ⟨h.errs (errs_slotCells _ _ _), fun l _ => ends_bind.2 ⟨h.errs (errs_needReleased _), fun _ _ => ?_⟩⟩
  exact ends_unless (h.poisonCells _ _) (ends_ok.2 (((h.writeCells ..).of_kept (State.kept_putFlags ..)).of_kept (State.kept_note ..)))

theorem Sound.execStRel (h : Sound f c s) (d : SReg) (base : AReg) (off : Off9) (sz : BitVec 2) :
    Next (Sound f c) (execStRel d base off sz s) := by
  refine Sound.slot (ends_bind.2 ⟨h.errs (errs_slotAccess _ _ _ _ _), fun l _ => ?_⟩)
  split
  · exact ends_bind.2 ⟨h.errs (errs_slotPort _ _ _), fun _ _ => ends_bind.2 ⟨h.errs (errs_waitFor _ _ _), fun _ _ =>
      ends_ok.2 (h.of_kept (State.kept_storeWindow ..))⟩⟩
  · exact ends_bind.2 ⟨h.errs (errs_plainOnly _ _ _), fun _ _ => ends_bind.2 ⟨h.errs (errs_untaped _ _ _), fun _ _ =>
      ends_bind.2 ⟨h.errs (errs_waitFor _ _ _), fun _ _ => ends_ok.2 (h.storeScalar ..)⟩⟩⟩

theorem Sound.execStSc (h : Sound f c s) (d : SReg) (base : AReg) (off : Off9) (sz : BitVec 2) :
    Next (Sound f c) (execStSc d base off sz s) := by
  refine Sound.slot (ends_bind.2 ⟨h.errs (errs_slotAccess _ _ _ _ _), fun l _ => ?_⟩)
  refine ends_bind.2 ⟨h.errs (errs_plainOnly _ _ _), fun _ _ => ends_bind.2 ⟨h.errs (errs_untaped _ _ _), fun _ _ => ?_⟩⟩
  exact ends_scAccess (fun t u ht hu => ht.of_kept hu) h _ (fun a ha => by cases ha; exact h.writePart ..) (errs_ok _) fun t v ht => ht

theorem Sound.execSpill (h : Sound f c s) (cls : BitVec 2) (d : SReg) (base : AReg) (off : Off9) :
    Next (Sound f c) (execSpill cls d base off s) := by
  refine Sound.slot (ends_bind.2 ⟨h.errs (errs_spillPlace _ _ _ _), fun pl _ => ?_⟩)
  split
  · exact ends_ok.2 ((h.spillTo ..).of_kept (State.kept_note ..))
  · exact ends_bind.2 ⟨h.errs (errs_plainOnly _ _ _), fun _ _ => ends_ok.2 ((h.spillTo ..).of_kept (State.kept_note ..))⟩

theorem Sound.execAclr (h : Sound f c s) (acc : TileNo) (n1 : BitVec 4) (mode : BitVec 2) : Next (Sound f c) (execAclr acc n1 mode s) := by
  refine Sound.slot ?_
  dsimp only
  split
  · exact h.ends (ends_busyTrap _ _ _)
  · exact ends_ok.2 (h.foldl (fun _ t hs => hs.resetTile ..) _)

theorem Sound.execTtask (h : Sound f c s) (r : SReg) (q : BitVec 2) : Next (Sound f c) (execTtask r q s) := by
  refine Sound.slot (ends_bind.2 ⟨h.errs (errs_slotRecord _ _ _), fun l _ => ends_unless (h.errs (errs_protFault _ _)) ?_⟩)
  refine ends_unless (h.errs (errs_protFault _ _)) ?_
  split
  · exact ends_ok.2 (h.of_kept (State.kept_putStat ..))
  · refine ends_unless (h.errs (errs_slotWait _ _)) (ends_bind.2 ⟨h.errs (errs_needReleased _), fun _ _ => ends_ok.2 ?_⟩)
    exact (h.writePart ..).of_kept (State.kept_modCluster ..)

theorem Sound.execTtaskUnhost (h : Sound f c s) : Next (Sound f c) (execTtaskUnhost s) := by
  refine Sound.slot ?_
  split
  · exact h.ends (ends_slotWait _ _)
  · refine ends_ok.2 (Sound.resetTile (h.of_kept (State.kept_modCore ?_)) ..)
    exact congrArg ctxFiles (ctxs_foldl_setSlot (f := fun _ _ => {}) hostSlots _)

/-- A record entered, and the register bound to its frame. -/
theorem Sound.enterAndBind (h : Sound f c s) (pa : Nat) (q : FrameRec) (va : Word64) (fr : FReg) :
    Ends (Sound f c) (Machine.enterRecord s pa q va >>= fun t : State => .ok (t.emit (.bind fr.toNat (some pa)) 1)) :=
  ends_bind.2 ⟨(h.enterRecord _ _ _).errs, fun _ ht => ends_ok.2 (((h.enterRecord _ _ _).of_ok ht).of_kept (State.kept_emit ..))⟩

theorem Sound.execFbind (h : Sound f c s) (r : SReg) (fr : FReg) : Next (Sound f c) (execFbind r fr s) := by
  refine Sound.slot (ends_bind.2 ⟨h.errs (errs_unbindCheck _ _), fun _ _ => ends_bind.2 ⟨h.errs (errs_recordAt _ _ _), fun e _ => ?_⟩⟩)
  refine ends_unless (h.errs (errs_protFault _ _)) (ends_bind.2 ⟨h.errs (errs_arenaLoc _ _ _), fun l _ => ?_⟩)
  split
  · refine ends_bind.2 ⟨?_, fun x hx => ?_⟩
    · split
      · exact errs_ok _
      · refine errs_bind.2 ⟨h.errs (errs_adjointAt _ _ _), fun a _ => errs_unless (h.errs (errs_protFault _ _)) (errs_bind.2 ⟨?_, fun _ _ => errs_ok _⟩)⟩
        split
        · exact errs_ok _
        · exact (h.enterRecord _ _ _).errs
    · refine Sound.enterAndBind ?_ _ _ _ _
      split at hx
      · cases hx
        exact h
      · obtain ⟨a, -, hx⟩ := exists_of_bind_ok hx
        dsimp only at hx
        split at hx
        · cases hx
        · obtain ⟨t, ht, hx⟩ := exists_of_bind_ok hx
          cases hx
          split at ht
          · cases ht
            exact h
          · exact (h.enterRecord _ _ _).of_ok ht
  · split
    · exact h.enterAndBind _ _ _ _
    · exact h.ends (ends_protFault _ _)

theorem Sound.execLarr (h : Sound f c s) (l : SReg) (rot : Bool) : Next (Sound f c) (execLarr l rot s) := Sound.slot (h.arrive _ _ _)

theorem Sound.execLarrN (h : Sound f c s) (l v : SReg) (rot : Bool) : Next (Sound f c) (execLarrN l v rot s) := Sound.slot (h.arrive _ _ _)

theorem Sound.execLarrSet (h : Sound f c s) (l v : SReg) (rot : Bool) : Next (Sound f c) (execLarrSet l v rot s) :=
  Sound.slot (ends_bind.2 ⟨h.errs (errs_latchName _ _ _), fun _ _ => ends_bind.2 ⟨h.errs (errs_needReleased _), fun _ _ =>
    ends_ok.2 (h.setLatch ..)⟩⟩)

theorem Sound.execLwait (h : Sound f c s) (l : SReg) (re rot : Bool) : Next (Sound f c) (execLwait l re rot s) := by
  refine Sound.slot (ends_bind.2 ⟨h.errs (errs_latchName _ _ _), fun e _ => ?_⟩)
  dsimp only
  split
  · exact ends_ok.2 h
  · split
    · refine ends_ok.2 ?_
      split
      · exact h.latchConsume ..
      · exact h
    · exact h.ends (ends_slotWait _ _)

theorem Sound.execWaitany (h : Sound f c s) (d l : SReg) (re rot : Bool) (mask : BitVec 8) :
    Next (Sound f c) (execWaitany d l re rot mask s) := by
  refine Sound.slot (ends_bind.2 ⟨h.errs (errs_latchCore _ _), fun g _ => ends_bind.2 ⟨h.errs (errs_maskLatches _ _ _ _), fun named _ => ?_⟩⟩)
  split
  · exact ends_ok.2 (h.of_kept (State.kept_putAny ..))
  · split
    · exact h.ends (ends_slotWait _ _)
    · refine ends_ok.2 (Sound.of_kept ?_ (State.kept_putAny ..))
      split
      · exact h.latchConsume ..
      · exact h

theorem Ends.map {P : State → Prop} {x : Except State State} {op : State → State} (hx : Ends P x) (hop : ∀ t, P t → P (op t)) : Ends P (x.map op) := by
  cases x with
  | ok t => exact ends_ok.2 (hop t (hx.of_ok rfl))
  | error t => exact ends_error.2 (hx.errs t rfl)

theorem Sound.execTapeMark (h : Sound f c s) (v : SReg) : Next (Sound f c) (execTapeMark v s) := by
  refine Sound.slot (Ends.map (Sound.pushTape (h.of_kept ?_) _ _) fun t ht => ht.of_kept (State.kept_wroteTpos t))
  exact State.kept_takeFree s

theorem Sound.execColl (h : Sound f c s) (r : SReg) : Next (Sound f c) (execColl r s) := by
  refine Sound.slot (ends_bind.2 ⟨h.errs (errs_slotRecord _ _ _), fun l _ => ends_unless (h.errs (errs_protFault _ _)) ?_⟩)
  refine ends_unless (h.errs (errs_protFault _ _)) ?_
  split
  · exact ends_ok.2 (h.of_kept (State.kept_putStat ..))
  · refine ends_unless (h.errs (errs_slotWait _ _)) (ends_bind.2 ⟨h.errs (errs_needReleased _), fun _ _ => ends_ok.2 ?_⟩)
    exact (h.writePart ..).of_kept (State.kept_setColl ..)

end

end Sys2Proof.Machine
end

