-- ==== Sys2Proof/Proofs/SlotFrames.lean ====
section
/-! Slots and the registers (R30), and slots that store nothing (R55 to R57). -/

namespace Sys2Proof.Machine

/-- An instruction of a slot that stores nothing leaves memory, its marks and the register files; KNARM may start a context. -/
theorem exec_kept {i : Instr} (s : State) (he : (encode i).isSome = true) (hm : mayStore i = false) (hk : ∀ x, i ≠ .knarm x) :
    Next (KeptAs s.kept) (exec i s) := by
  cases i
  case nop => exact next_execNop s
  case add d a b => exact next_execAdd d a b s
  case sub d a b => exact next_execSub d a b s
  case and d a b => exact next_execAnd d a b s
  case or d a b => exact next_execOr d a b s
  case xor d a b => exact next_execXor d a b s
  case andn d a b => exact next_execAndn d a b s
  case shl d a b => exact next_execShl d a b s
  case shr d a b => exact next_execShr d a b s
  case sar d a b => exact next_execSar d a b s
  case rotl d a b => exact next_execRotl d a b s
  case min d a b u => exact next_execMin d a b u s
  case max d a b u => exact next_execMax d a b u s
  case mul d a b part => exact next_execMul d a b part s
  case div d a b u => exact next_execDiv d a b u s
  case rem d a b u => exact next_execRem d a b u s
  case addi d a v => exact next_execAddi d a v s
  case andi d a v => exact next_execAndi d a v s
  case ori d a v => exact next_execOri d a v s
  case xori d a v => exact next_execXori d a v s
  case shli d a n => exact next_execShli d a n s
  case shri d a n => exact next_execShri d a n s
  case sari d a n => exact next_execSari d a n s
  case movi d v => exact next_execMovi d v s
  case clz d a w => exact next_execClz d a w s
  case ctz d a w => exact next_execCtz d a w s
  case popc d a w => exact next_execPopc d a w s
  case sext d a sz => exact next_execSext d a sz s
  case zext d a sz => exact next_execZext d a sz s
  case bfx d a u width1 pos => exact next_execBfx d a u width1 pos s
  case bfi d a width1 pos => exact next_execBfi d a width1 pos s
  case sel d a b c => exact next_execSel d a b c s
  case cmp d a b cc => exact next_execCmp d a b cc s
  case cmpi d a cc v => exact next_execCmpi d a cc v s
  case pand d a b => exact next_execPand d a b s
  case por d a b => exact next_execPor d a b s
  case pxor d a b => exact next_execPxor d a b s
  case pandn d a b => exact next_execPandn d a b s
  case br p neg v => exact next_execBr p neg v s
  case brl p neg v => exact next_execBrl p neg v s
  case jmp a v => exact next_execJmp a v s
  case jmpl d a v => exact next_execJmpl d a v s
  case bloop en v => exact next_execBloop en v s
  case nest depth1 mask => exact next_execNest depth1 mask s
  case nestR depth1 mask => exact next_execNestR depth1 mask s
  case setn dst a imm => exact next_execSetn dst a imm s
  case rotb z en => exact next_execRotb z en s
  case wfldGet d a j => exact next_execWfldGet d a j s
  case wfldSet d a b j => exact next_execWfldSet d a b j s
  case wfldLvl d a j => exact next_execWfldLvl d a j s
  case krd d k => exact next_execKrd d k s
  case kwr k a => exact next_execKwr k a s
  case spawn r own cl => exact next_execSpawn r own cl s
  case suspend prio => exact next_execSuspend prio s
  case exit => exact next_execExit s
  case chkpt a v => exact next_execChkpt a v s
  case trap v => exact next_execTrap v s
  case brk holds id => exact next_execBrk holds id s
  case rett => exact next_execRett s
  case lscale d a => exact next_execLscale d a s
  case lscaleP d a => exact next_execLscaleP d a s
  case adda d a b => exact next_execAdda d a b s
  case addai d a v => exact next_execAddai d a v s
  case mova d a => exact next_execMova d a s
  case movaToS d a => exact next_execMovaToS d a s
  case setstep d a v => exact next_execSetstep d a v s
  case itset n k t v => exact next_execItset n k t v s
  case ld d base off sz sx => exact next_execLd d base off sz sx s
  case ldV d base off => exact next_execLdV d base off s
  case ldL d base off land => exact next_execLdL d base off land s
  case ldD d base off => exact next_execLdD d base off s
  case gath d a b dw m => exact next_execGath d a b dw m s
  case ald d base off w blk => exact next_execAld d base off w blk s
  case ldAcq d base off sz sx => exact next_execLdAcq d base off sz sx s
  case ldSc d base off sz sx => exact next_execLdSc d base off sz sx s
  case fenceR a b kinds => exact next_execFenceR a b kinds s
  case fill cls d base off => exact next_execFill cls d base off s
  case vadd d a b m sz sat u => exact next_execVadd d a b m sz sat u s
  case vsub d a b m sz sat u => exact next_execVsub d a b m sz sat u s
  case vmul d a b m sz sat u hi => exact next_execVmul d a b m sz sat u hi s
  case vmin d a b m sz u => exact next_execVmin d a b m sz u s
  case vmax d a b m sz u => exact next_execVmax d a b m sz u s
  case vand d a b m sz => exact next_execVand d a b m sz s
  case vor d a b m sz => exact next_execVor d a b m sz s
  case vxor d a b m sz => exact next_execVxor d a b m sz s
  case vshl d a b m sz => exact next_execVshl d a b m sz s
  case vshr d a b m sz => exact next_execVshr d a b m sz s
  case vsar d a b m sz => exact next_execVsar d a b m sz s
  case vcmp d a b m sz cc => exact next_execVcmp d a b m sz cc s
  case vsel d a b m sz => exact next_execVsel d a b m sz s
  case vfadd d a b m rm cl fmt => exact next_execVfadd d a b m rm cl fmt s
  case vfsub d a b m rm cl fmt => exact next_execVfsub d a b m rm cl fmt s
  case vfmul d a b m rm cl fmt => exact next_execVfmul d a b m rm cl fmt s
  case vfma d a b m rm cl fmt => exact next_execVfma d a b m rm cl fmt s
  case vfms d a b m rm cl fmt => exact next_execVfms d a b m rm cl fmt s
  case vfnma d a b m rm cl fmt => exact next_execVfnma d a b m rm cl fmt s
  case vfdiv d a b m rm cl fmt => exact next_execVfdiv d a b m rm cl fmt s
  case vfsqrt d a m rm cl fmt => exact next_execVfsqrt d a m rm cl fmt s
  case vfmin d a b m fmt => exact next_execVfmin d a b m fmt s
  case vfmax d a b m fmt => exact next_execVfmax d a b m fmt s
  case vfsgnCopy d a b m fmt => exact next_execVfsgnCopy d a b m fmt s
  case vfsgnNeg d a b m fmt => exact next_execVfsgnNeg d a b m fmt s
  case vfsgnXor d a b m fmt => exact next_execVfsgnXor d a b m fmt s
  case vfcmp d a b m cc sg fmt => exact next_execVfcmp d a b m cc sg fmt s
  case vfcvt d a cl src rm part dst => exact next_execVfcvt d a cl src rm part dst s
  case vfrint d a m rm fmt => exact next_execVfrint d a m rm fmt s
  case vfclass d a m fmt => exact next_execVfclass d a m fmt s
  case vfexp d a m cl fmt => exact next_execVfexp d a m cl fmt s
  case vfexp2 d a m cl fmt => exact next_execVfexp2 d a m cl fmt s
  case vflog d a m cl fmt => exact next_execVflog d a m cl fmt s
  case vflog2 d a m cl fmt => exact next_execVflog2 d a m cl fmt s
  case vfsin d a m cl fmt => exact next_execVfsin d a m cl fmt s
  case vfcos d a m cl fmt => exact next_execVfcos d a m cl fmt s
  case vftanh d a m cl fmt => exact next_execVftanh d a m cl fmt s
  case vfrcp d a m cl fmt => exact next_execVfrcp d a m cl fmt s
  case vfrsq d a m cl fmt => exact next_execVfrsq d a m cl fmt s
  case vperm d a b m sz => exact next_execVperm d a b m sz s
  case vbcast d a sz fmt => exact next_execVbcast d a sz fmt s
  case vins d a lane sz => exact next_execVins d a lane sz s
  case vext d a lane sz sx => exact next_execVext d a lane sz sx s
  case vredAdd d a m rm t fmt => exact next_execVredAdd d a m rm t fmt s
  case vredMin d a m rm t fmt => exact next_execVredMin d a m rm t fmt s
  case vredMax d a m rm t fmt => exact next_execVredMax d a m rm t fmt s
  case vdescCopy d a b => exact next_execVdescCopy d a b s
  case vdescSet d a b => exact next_execVdescSet d a b s
  case vdescGet d a => exact next_execVdescGet d a s
  case vscaleRel d a b => exact next_execVscaleRel d a b s
  case vscaleFit d a m fmt => exact next_execVscaleFit d a m fmt s
  case vpackH2b d a b sat => exact next_execVpackH2b d a b sat s
  case vpackW2h d a b sat => exact next_execVpackW2h d a b sat s
  case vpackD2w d a b sat => exact next_execVpackD2w d a b sat s
  case vpackT2 d a b half => exact next_execVpackT2 d a b half s
  case vunpackB2h d a part u => exact next_execVunpackB2h d a part u s
  case vunpackH2w d a part u => exact next_execVunpackH2w d a part u s
  case vunpackW2d d a part u => exact next_execVunpackW2d d a part u s
  case vunpackT2 d a part => exact next_execVunpackT2 d a part s
  case vfxsSplitLo d a m => exact next_execVfxsSplitLo d a m s
  case vfxsSplitHi d a m => exact next_execVfxsSplitHi d a m s
  case vfxsJoin d a b rm cl => exact next_execVfxsJoin d a b rm cl s
  case vmov d a m sz => exact next_execVmov d a m sz s
  case mlogAnd d a b => exact next_execMlogAnd d a b s
  case mlogOr d a b => exact next_execMlogOr d a b s
  case mlogXor d a b => exact next_execMlogXor d a b s
  case mlogAndn d a b => exact next_execMlogAndn d a b s
  case mlogNot d a => exact next_execMlogNot d a s
  case mlogFromv d a => exact next_execMlogFromv d a s
  case mlogTov d a => exact next_execMlogTov d a s
  case mlogIso d a => exact next_execMlogIso d a s
  case oclaim f n1 => exact next_execOclaim f n1 s
  case ofree f n1 => exact next_execOfree f n1 s
  case oload slot base off => exact next_execOload slot base off s
  case oread d base off => exact next_execOread d base off s
  case mmaFp64 acc a b rm => exact next_execMmaFp64 acc a b rm s
  case mmaFloat acc a b fmt => exact next_execMmaFloat acc a b fmt s
  case mmaKf8 acc a b fmt bx => exact next_execMmaKf8 acc a b fmt bx s
  case mmaInt8 acc a b ua ub => exact next_execMmaInt8 acc a b ua ub s
  case mmas acc a b fmt ncode bx => exact next_execMmas acc a b fmt ncode bx s
  case mmat acc a b ua => exact next_execMmat acc a b ua s
  case adrain acc a c => exact next_execAdrain acc a c s
  case adrainO acc a c => exact next_execAdrainO acc a c s
  case adrainP acc a c f => exact next_execAdrainP acc a c f s
  case await acc => exact next_execAwait acc s
  case awaitM m => exact next_execAwaitM m s
  case awaitAll => exact next_execAwaitAll s
  case ttaskHost => exact next_execTtaskHost s
  case twait t => exact next_execTwait t s
  case ostat d sl => exact next_execOstat d sl s
  case chead h w l c => exact next_execChead h w l c s
  case cstat d c => exact next_execCstat d c s
  case cwmk d c => exact next_execCwmk d c s
  case cwmkW a c => exact next_execCwmkW a c s
  case qjoin mask => exact next_execQjoin mask s
  case shape v set field => exact next_execShape v set field s
  case knarmD x => exact next_execKnarmD x s
  case fbindU f => exact next_execFbindU f s
  case popenOw n f => exact next_execPopenOw n f s
  case popenAdd n f => exact next_execPopenAdd n f s
  case pseal f => exact next_execPseal f s
  case papply n f => exact next_execPapply n f s
  case papplyG names frames count1 => exact next_execPapplyG names frames count1 s
  case pinv p new f => exact next_execPinv p new f s
  case pcomm p q f => exact next_execPcomm p q f s
  case pxpl p new f g => exact next_execPxpl p new f g s
  case pglaze l t new f => exact next_execPglaze l t new f s
  case plift p f => exact next_execPlift p f s
  case pdrop p f => exact next_execPdrop p f s
  case psettle p f => exact next_execPsettle p f s
  case psettleAll f => exact next_execPsettleAll f s
  case pstatP d p f => exact next_execPstatP d p f s
  case pstatF d f => exact next_execPstatF d f s
  case pstatA d f => exact next_execPstatA d f s
  case larrRd l d rot => exact next_execLarrRd l d rot s
  case lbaseSet b n => exact next_execLbaseSet b n s
  case lbaseStep => exact next_execLbaseStep s
  case hset h v => exact next_execHset h v s
  case hsetR h d => exact next_execHsetR h d s
  case hwaitData h c => exact next_execHwaitData h c s
  case hwaitRoom h c => exact next_execHwaitRoom h c s
  case hadvCons h c => exact next_execHadvCons h c s
  case hadvProd h c => exact next_execHadvProd h c s
  case dmodeRev => exact next_execDmodeRev s
  case dmodeFwd => exact next_execDmodeFwd s
  case tapeOn => exact next_execTapeOn s
  case tapeOff => exact next_execTapeOff s
  case tapeUnmark d => exact next_execTapeUnmark d s
  case tapeReset => exact next_execTapeReset s
  case pgres t => exact next_execPgres t s
  case pgresFail t => exact next_execPgresFail t s
  case pgresInv t => exact next_execPgresInv t s
  case knarm x => exact absurd rfl (hk x)
  all_goals first | (cases hm; done) | cases he

/-- An instruction that stores leaves the register files, and memory in canonical form; CCANCEL may start a context. -/
theorem exec_sound {f : Nat → Vector Files 4} {c : Prop} {s : State} (h : Sound f c s) {i : Instr} (hm : mayStore i = true)
    (hc : ∀ m, i ≠ .ccancel m) : Next (Sound f c) (exec i s) := by
  cases i
  case st d base off sz => exact h.execSt d base off sz
  case stV d base off => exact h.execStV d base off
  case stG d base off fr acc => exact h.execStG d base off fr acc
  case stGBlk d base off fr acc => exact h.execStGBlk d base off fr acc
  case stD d base off => exact h.execStD d base off
  case scat d a b dw m => exact h.execScat d a b dw m
  case awrOw d base off w fl blk => exact h.execAwrOw d base off w fl blk
  case awrAdd d base off w fl blk => exact h.execAwrAdd d base off w fl blk
  case axadd d base off w fl => exact Sound.slot (h.cellUpdate _ _ _ _)
  case axchg d base off w => exact Sound.slot (h.cellUpdate _ _ _ _)
  case acas d a b w => exact Sound.slot (h.cellUpdate _ _ _ _)
  case amin d base off w fl u => exact Sound.slot (h.cellUpdate _ _ _ _)
  case amax d base off w fl u => exact Sound.slot (h.cellUpdate _ _ _ _)
  case aand d base off w => exact Sound.slot (h.cellUpdate _ _ _ _)
  case aor d base off w => exact Sound.slot (h.cellUpdate _ _ _ _)
  case ast d base off => exact h.execAst d base off
  case stRel d base off sz => exact h.execStRel d base off sz
  case stSc d base off sz => exact h.execStSc d base off sz
  case spill cls d base off => exact h.execSpill cls d base off
  case aclr acc n1 mode => exact h.execAclr acc n1 mode
  case ttask r q => exact h.execTtask r q
  case ttaskUnhost => exact h.execTtaskUnhost
  case fbind r fr => exact h.execFbind r fr
  case larr l rot => exact h.execLarr l rot
  case larrN l v rot => exact h.execLarrN l v rot
  case larrSet l v rot => exact h.execLarrSet l v rot
  case lwait l re rot => exact h.execLwait l re rot
  case waitany d l re rot mask => exact h.execWaitany d l re rot mask
  case tapeMark v => exact h.execTapeMark v
  case coll r => exact h.execColl r
  case ccancel m => exact absurd rfl (hc m)
  all_goals cases hm

theorem files_eq_sameRegisters {s t : State} (h : t.files = s.files) : SameRegisters s t := by
  intro g x hx
  have hg : ctxFiles (t.core g).ctxs = ctxFiles (s.core g).ctxs := by rw [ctxFiles_core, ctxFiles_core, h]
  have hx' : ((t.core g).ctx x).files = ((s.core g).ctx x).files := by
    have := congrArg (fun v : Vector Files 4 => v[x]) hg
    simpa only [ctxFiles, Vector.getElem_map, Core.ctx, dif_pos hx] using this
  simp only [Ctx.files, Files.mk.injEq] at hx'
  exact hx'

/-- Settles O57: results wait for their delivery, so a slot leaves every register file. -/
theorem slotsChangeNoRegisterAtIssue : Obligations.SlotsChangeNoRegisterAtIssue := by
  intro i s t he hk hc ht
  cases hm : mayStore i with
  | true =>
    have h : Sound s.files False s := ⟨rfl, False.elim⟩
    exact files_eq_sameRegisters (exec_sound h hm hc t ht).files
  | false =>
    have h : t.kept = s.kept := exec_kept s he hm hk t ht
    exact files_eq_sameRegisters (congrArg (fun k => k.2.2.2) h)

/-! ### Memory -/

theorem serveKnock_only (s : State) (g : Nat) : ∃ cs, s.serveKnock g = { s with cores := cs } := by
  unfold State.serveKnock
  split
  · split
    · exact ⟨_, rfl⟩
    · exact ⟨_, rfl⟩
  · exact ⟨_, rfl⟩

/-- KNARM may start a context, and leaves memory. -/
theorem knarm_memory {s t : State} {x : BitVec 2} (h : exec (.knarm x) s = .next t) :
    t.mem = s.mem ∧ t.desc = s.desc ∧ t.poisoned = s.poisoned := by
  obtain ⟨u, hu, rfl⟩ | hu := slotDone_cases (show slotDone (.ok _) = .next t from h)
  · cases hu
    obtain ⟨cs, hc⟩ := serveKnock_only (s.modCtx s.iss.g x.toNat fun k => { k with armed := true }) s.iss.g
    obtain ⟨cs', hc'⟩ := commitSlot_only ((s.modCtx s.iss.g x.toNat fun k => { k with armed := true }).serveKnock s.iss.g) false
    rw [hc', hc]
    exact ⟨rfl, rfl, rfl⟩
  · cases hu

/-- Settles O58: a slot that stores nothing leaves bytes, descriptors and marks. -/
theorem instructionsThatStoreNothing : Obligations.InstructionsThatStoreNothing := by
  intro i s t he hm ht
  by_cases hk : ∃ x, i = .knarm x
  · obtain ⟨x, rfl⟩ := hk
    exact knarm_memory ht
  · have h : t.kept = s.kept := exec_kept s he hm (fun x hx => hk ⟨x, hx⟩) t ht
    exact ⟨congrArg (fun k => k.1) h, congrArg (fun k => k.2.1) h, congrArg (fun k => k.2.2.1) h⟩

end Sys2Proof.Machine
end

