-- ==== Sys2Proof/Proofs/Canonical.lean ====
section
/-! The canonical form of memory (R55 to R58, R68): the operations that write memory keep it, and the others leave memory. -/

namespace Sys2Proof.Machine

/-- Memory is in its canonical form. -/
def Canon (s : State) : Prop := Memory.wf s.mem

theorem canon_iff {s : State} : Canon s ↔ Memory.wf s.mem := Iff.rfl

theorem Canon.of_mem {s u : State} (hs : Canon s) (h : u.mem = s.mem) : Canon u := by
  unfold Canon
  rwa [h]

theorem Canon.ite {p : Prop} [Decidable p] {a b : State} (ha : Canon a) (hb : Canon b) : Canon (if p then a else b) := by
  split
  · exact ha
  · exact hb

theorem Canon.foldl {α : Type} {op : State → α → State} (hop : ∀ s a, Canon s → Canon (op s a)) (l : List α) {s : State} (hs : Canon s) :
    Canon (l.foldl op s) := foldl_wf hop l hs

/-- A fold that carries more than the state. -/
theorem Canon.foldl_fst {α β : Type} {op : State × β → α → State × β} (hop : ∀ p a, Canon p.1 → Canon (op p a).1) (l : List α) {p : State × β}
    (hs : Canon p.1) : Canon (l.foldl op p).1 := by
  induction l generalizing p with
  | nil => exact hs
  | cons a l ih => exact ih (hop p a hs)

theorem State.mem_foldl {α : Type} {op : State → α → State} (h : ∀ s a, (op s a).mem = s.mem) (l : List α) (s : State) :
    (l.foldl op s).mem = s.mem := by
  induction l generalizing s with
  | nil => rfl
  | cons a l ih => exact (ih _).trans (h s a)

/-- What a slot may do to memory keeps its form. -/
theorem Sound.canon {f : Nat → Vector Files 4} {u : State} (h : Sound f True u) : Canon u := h.wf trivial

theorem Canon.sound {s : State} (hs : Canon s) : Sound s.files True s := ⟨rfl, fun _ => hs⟩

/-! ### Operations that leave memory -/

@[simp] theorem State.mem_raise (s : State) (f : FaultRec) : (s.raise f).mem = s.mem := congrArg Prod.fst (State.kept_raise s f)

@[simp] theorem State.mem_whoFault (s : State) (w : Who) (slot code : ℕ) (w2 w3 : Word64) : (s.whoFault w slot code w2 w3).mem = s.mem :=
  congrArg Prod.fst (State.kept_whoFault s w slot code w2 w3)

@[simp] theorem State.mem_setCore (s : State) (g : ℕ) (c : Core) : (s.setCore g c).mem = s.mem := rfl

@[simp] theorem State.mem_setChan (s : State) (g n : ℕ) (k : Chan) : (s.setChan g n k).mem = s.mem := congrArg Prod.fst (State.kept_setChan s g n k)

@[simp] theorem State.mem_modChan (s : State) (g n : ℕ) (f : Chan → Chan) : (s.modChan g n f).mem = s.mem :=
  congrArg Prod.fst (State.kept_modChan s g n f)

@[simp] theorem State.mem_setCluster (s : State) (c : ℕ) (k : Cluster) : (s.setCluster c k).mem = s.mem :=
  congrArg Prod.fst (State.kept_setCluster s c k)

@[simp] theorem State.mem_modCluster (s : State) (c : ℕ) (f : Cluster → Cluster) : (s.modCluster c f).mem = s.mem :=
  congrArg Prod.fst (State.kept_modCluster s c f)

@[simp] theorem State.mem_dropLeave (s : State) (cl : ℕ) : (s.dropLeave cl).mem = s.mem := congrArg Prod.fst (State.kept_dropLeave s cl)

@[simp] theorem State.mem_dropAsk (s : State) (g c : ℕ) : (s.dropAsk g c).mem = s.mem := congrArg Prod.fst (State.kept_dropAsk s g c)

@[simp] theorem State.mem_leaveFaults (s : State) (g c : ℕ) : (s.leaveFaults g c).mem = s.mem := congrArg Prod.fst (State.kept_leaveFaults s g c)

@[simp] theorem State.mem_modCore (s : State) (g : ℕ) (f : Core → Core) : (s.modCore g f).mem = s.mem := rfl

@[simp] theorem State.mem_queueKnock (s : State) (g : ℕ) (k : Knock) : (s.queueKnock g k).mem = s.mem :=
  congrArg Prod.fst (State.kept_queueKnock s g k)

@[simp] theorem State.mem_sectorDone (s : State) (g c : ℕ) : (s.sectorDone g c).mem = s.mem := congrArg Prod.fst (State.kept_sectorDone s g c)

@[simp] theorem State.mem_setFrame (s : State) (pa : ℕ) (f : Frame) : (s.setFrame pa f).mem = s.mem := congrArg Prod.fst (State.kept_setFrame s pa f)

@[simp] theorem State.mem_changeFrame (s : State) (pa : ℕ) (f : Frame) : (s.changeFrame pa f).mem = s.mem :=
  congrArg Prod.fst (State.kept_changeFrame s pa f)

@[simp] theorem State.mem_closeFault (s : State) (cl n : ℕ) : (s.closeFault cl n).mem = s.mem := congrArg Prod.fst (State.kept_closeFault s cl n)

@[simp] theorem State.mem_setPort (s : State) (q : ℕ) (p : Port) : (s.setPort q p).mem = s.mem := congrArg Prod.fst (State.kept_setPort s q p)

@[simp] theorem State.mem_modPort (s : State) (q : ℕ) (f : Port → Port) : (s.modPort q f).mem = s.mem := congrArg Prod.fst (State.kept_modPort s q f)

@[simp] theorem State.mem_enqueue (s : State) (q : ℕ) (p : OutPacket) : (s.enqueue q p).mem = s.mem := congrArg Prod.fst (State.kept_enqueue s q p)

@[simp] theorem State.mem_enqueueCont (s : State) (cl : ℕ) (words : List Word64) (pager : Bool) (scope : Scope) (ready : ℕ) (suspended : Bool) :
    (s.enqueueCont cl words pager scope ready suspended).mem = s.mem :=
  congrArg Prod.fst (State.kept_enqueueCont s cl words pager scope ready suspended)

@[simp] theorem State.mem_message (s : State) (ws : List Word64) : (s.message ws).mem = s.mem := congrArg Prod.fst (State.kept_message s ws)

@[simp] theorem State.mem_setCtx (s : State) (g x : ℕ) (k : Ctx) : (s.setCtx g x k).mem = s.mem := rfl

@[simp] theorem State.mem_modCtx (s : State) (g x : ℕ) (f : Ctx → Ctx) : (s.modCtx g x f).mem = s.mem := rfl

@[simp] theorem State.mem_modIss (s : State) (f : Iss → Iss) : (s.modIss f).mem = s.mem := congrArg Prod.fst (State.kept_modIss s f)

@[simp] theorem State.mem_openFault (s : State) (cl n : ℕ) (w : Who) (m : PageMiss) : (s.openFault cl n w m).mem = s.mem :=
  congrArg Prod.fst (State.kept_openFault s cl n w m)

@[simp] theorem State.mem_setColl (s : State) (d : ℕ) (e : CollEngine) : (s.setColl d e).mem = s.mem := congrArg Prod.fst (State.kept_setColl s d e)

@[simp] theorem State.mem_setWaits (s : State) (w : Who) (f : Option (ℕ × ℕ)) : (s.setWaits w f).mem = s.mem :=
  congrArg Prod.fst (State.kept_setWaits s w f)

@[simp] theorem State.mem_pageUpcall (s : State) (w : Who) (m : PageMiss) : (s.pageUpcall w m).mem = s.mem :=
  congrArg Prod.fst (State.kept_pageUpcall s w m)

@[simp] theorem State.mem_tlbDrop (s : State) (va : ℕ) : (s.tlbDrop va).mem = s.mem := congrArg Prod.fst (State.kept_tlbDrop s va)

@[simp] theorem State.mem_takeFree (s : State) : s.takeFree.2.mem = s.mem := rfl

/-! ### Writes to memory -/

section
variable {s : State}

theorem Canon.putBytes (hs : Canon s) (key n v : Nat) : Canon { s with mem := putBytes s.mem key n v } := putBytes_wf hs ..

theorem Canon.filter (hs : Canon s) (p : Host.Cell → Bool) : Canon { s with mem := s.mem.filter p } := filter_wf hs p

theorem State.canon_writePart1 (hs : Canon s) (key n v : Nat) : Canon (s.writePart1 key n v) := writePart1_wf hs ..

theorem State.canon_writePart (hs : Canon s) (keys : List Nat) (n v : Nat) : Canon (s.writePart keys n v) := writePart_wf hs ..

theorem State.canon_writeBlock1 (hs : Canon s) (key : Nat) (b : VVal) : Canon (s.writeBlock1 key b) := writeBlock1_wf hs ..

theorem State.canon_writeBlock (hs : Canon s) (keys : List Nat) (b : VVal) : Canon (s.writeBlock keys b) := writeBlock_wf hs ..

theorem State.canon_putBlockDesc (hs : Canon s) (keys : List Nat) (d : Desc) : Canon (s.putBlockDesc keys d) := (hs.sound.putBlockDesc keys d).canon

theorem State.canon_writeCells (hs : Canon s) (pa n v : Nat) : Canon (s.writeCells pa n v) := (hs.sound.writeCells pa n v).canon

theorem State.canon_setLatch (hs : Canon s) (g n v : Nat) : Canon (s.setLatch g n v) := (hs.sound.setLatch g n v).canon

theorem State.canon_latchConsume (hs : Canon s) (g n : Nat) : Canon (s.latchConsume g n) := (hs.sound.latchConsume g n).canon

theorem State.canon_latchAdd (hs : Canon s) {g n k : Nat} {u : State} (hu : s.latchAdd g n k = some u) : Canon u := (hs.sound.latchAdd hu).canon

theorem State.canon_resetTile (hs : Canon s) (g t mode : Nat) : Canon (s.resetTile g t mode) := (hs.sound.resetTile g t mode).canon

theorem State.canon_putRecord (hs : Canon s) (g rec n v : Nat) : Canon (s.putRecord g rec n v) := (hs.sound.putRecord g rec n v).canon

theorem State.canon_putFlight (hs : Canon s) (f : Flight) : Canon (s.putFlight f) := by
  unfold State.putFlight
  dsimp only
  split_ifs
  · exact State.canon_writeCells hs ..
  · exact State.canon_writeCells hs ..
  · exact State.canon_writeBlock hs ..
  · exact State.canon_writeBlock hs ..
  · exact State.canon_putBlockDesc (State.canon_writePart hs ..) ..

theorem State.canon_putLate (hs : Canon s) (f : Flight) : Canon (s.putLate f) := by
  unfold State.putLate
  split <;> exact State.canon_putFlight hs _

theorem State.canon_endFlight (hs : Canon s) (g c : Nat) : Canon (s.endFlight g c) := by
  have hput (l : List Flight) : Canon (l.foldl State.putLate s) := Canon.foldl (fun u f hu => State.canon_putLate hu f) l hs
  unfold State.endFlight
  dsimp only
  split_ifs
  · exact hs
  · exact (hput _).of_mem ((State.mem_modChan ..).trans (State.mem_sectorDone ..))
  · exact (hput _).of_mem (State.mem_modChan ..)

/-- Bytes written at several keys, each as the memory then has it. -/
theorem foldl_putBytes_wf (keys : List Nat) (n : Nat) (val : List Host.Cell → Nat → Nat) (m : List Host.Cell) (hm : Memory.wf m) :
    Memory.wf (keys.foldl (fun m key => Machine.putBytes m key n (val m key)) m) := by
  induction keys generalizing m with
  | nil => exact hm
  | cons k ks ih => exact ih _ (putBytes_wf hm ..)

/-- Words written at several addresses. -/
theorem foldl_putBytesAt_wf {α : Type} (l : List (Nat × Nat × α)) (m : List Host.Cell) (hm : Memory.wf m) :
    Memory.wf (l.foldl (fun m e => Machine.putBytes m e.1 8 e.2.1) m) := by
  induction l generalizing m with
  | nil => exact hm
  | cons e l ih => exact ih _ (putBytes_wf hm ..)

/-! ### Knocks and cancelled channels -/

@[simp] theorem State.mem_startCtx (s : State) (g x : Nat) (pc kwork : Word64) : (s.startCtx g x pc kwork).mem = s.mem := by
  simp [State.startCtx]

@[simp] theorem State.mem_startByKnock (s : State) (g x : Nat) (k : Knock) : (s.startByKnock g x k).mem = s.mem := by simp [State.startByKnock]

@[simp] theorem State.mem_deliverKnock (s : State) (g : Nat) (k : Knock) : (s.deliverKnock g k).mem = s.mem := by
  unfold State.deliverKnock
  split
  · split <;> simp
  · simp

@[simp] theorem State.mem_ownKnock (s : State) (g : Nat) (k : Knock) : (s.ownKnock g k).mem = s.mem := by
  unfold State.ownKnock
  split <;> simp

@[simp] theorem State.mem_serveKnock (s : State) (g : Nat) : (s.serveKnock g).mem = s.mem := by
  obtain ⟨cs, hc⟩ := serveKnock_only s g
  rw [hc]

@[simp] theorem State.mem_recordGone (s : State) (g c : Nat) : (s.recordGone g c).mem = s.mem := by
  unfold State.recordGone
  dsimp only
  split <;> simp

theorem State.canon_endCancel (hs : Canon s) (g c cause : Nat) (saved : Bool) : Canon (s.endCancel g c cause saved) := by
  have hstop (u : State) (hu : Canon u) : Canon (if (u.chan g c).leave then u.dropLeave (clusterOf g) else u) := by
    split
    · exact hu.of_mem (by simp)
    · exact hu
  have hstart : Canon (if saved then s else s.leaveFaults g c) := by
    split
    · exact hs
    · exact hs.of_mem (by simp)
  unfold State.endCancel
  dsimp only
  split_ifs <;> grind [canon_iff, State.canon_putRecord, State.mem_modChan, State.mem_recordGone, State.mem_dropAsk, State.mem_dropLeave, State.mem_leaveFaults]

theorem State.canon_cancelChan (hs : Canon s) (g c cause : Nat) (saved : Bool) : Canon (s.cancelChan g c cause saved) := by
  have h0 := State.canon_endFlight hs g c
  unfold State.cancelChan
  dsimp only
  have h1 : Canon (match ((s.endFlight g c).chan g c).sending with | some (h, k) => (s.endFlight g c).ownKnock h k | none => s.endFlight g c) := by
    split
    · exact h0.of_mem (by simp)
    · exact h0
  split_ifs
  · exact h1
  · exact h1.of_mem (State.mem_modChan ..)
  · exact State.canon_endCancel h1 ..

end

/-! ### Outcomes of the events -/

theorem next_chanNext {P : State → Prop} {x : Except State State} (h : Ends P x) : Next P (chanNext x) := by
  cases x with
  | ok u => exact next_iff.2 (ends_ok.1 h)
  | error u => exact next_iff.2 (ends_error.1 h)

theorem next_engineNext {P : State → Prop} {x : Except State State} (h : Ends P x) : Next P (engineNext x) := by
  cases x with
  | ok u => exact next_iff.2 (ends_ok.1 h)
  | error u => exact next_iff.2 (ends_error.1 h)

end Sys2Proof.Machine
end

