-- ==== Sys2Proof/Proofs/CanonicalLogAndLinks.lean ====
section
/-! Memory in its canonical form: the log, saves and services, ports, collectives, and the dispatch of tasks. -/

namespace Sys2Proof.Machine

@[simp] theorem State.mem_abortVia (s : State) (q tag : Nat) (o : Origin) : (s.abortVia q tag o).mem = s.mem := by
  unfold State.abortVia
  split <;> simp

@[simp] theorem State.mem_sendAborts (s : State) (d : Nat) (j : CollJob) : (s.sendAborts d j).mem = s.mem := by simp [State.sendAborts]

@[simp] theorem State.mem_abortAll (s : State) : s.abortAll.mem = s.mem := by
  unfold State.abortAll
  refine State.mem_foldl (fun u x => ?_) _ s
  exact State.mem_foldl (fun v j => State.mem_sendAborts v x.1 j) _ u

@[simp] theorem State.mem_abortStray (s : State) (tag : Nat) : (s.abortStray tag).mem = s.mem := by
  unfold State.abortStray
  exact State.mem_foldl (fun _ _ => by simp) _ _

@[simp] theorem State.mem_sendAck (s : State) (q : Nat) (nak err : Bool) : (s.sendAck q nak err).mem = s.mem := rfl

@[simp] theorem State.mem_accepted (s : State) (q : Nat) (refused : Bool) : (s.accepted q refused).mem = s.mem := by
  unfold State.accepted
  dsimp only
  split_ifs <;> simp

@[simp] theorem State.mem_modLaunch (s : State) (f : Launch → Launch) : (s.modLaunch f).mem = s.mem := rfl

@[simp] theorem State.mem_markNoReplay (s : State) (n : Nat) : (s.markNoReplay n).mem = s.mem := rfl

@[simp] theorem State.mem_logEntry (s : State) (e : LogEntry) : (s.logEntry e).mem = s.mem := by
  unfold State.logEntry
  split <;> simp

@[simp] theorem State.mem_logAppend (s : State) (src : LogSrc) (frame : Nat) (ws : List Word64) : (s.logAppend src frame ws).mem = s.mem := by
  simp [State.logAppend]

@[simp] theorem State.mem_endFrame (s : State) (n : Nat) : (s.endFrame n).mem = s.mem := by
  unfold State.endFrame
  simp only
  (repeat' split) <;> simp [State.mem_foldl]

@[simp] theorem State.mem_endFrames (s : State) : (s.endFrames).mem = s.mem := by grind [endFrames, mem_endFrame, mem_markNoReplay]

@[simp] theorem State.mem_lose (s : State) : (s.lose).mem = s.mem := rfl

@[simp] theorem State.mem_svecWrite (s : State) (v : Nat) : (s.svecWrite v).mem = s.mem := by
  unfold State.svecWrite
  split_ifs <;> simp

@[simp] theorem State.mem_startHeld (s : State) : (s.startHeld).mem = s.mem := by
  unfold State.startHeld
  split <;> simp

theorem State.canon_writePhys (s : State) (pa n v : Nat) (hs : Canon s) : Canon (s.writePhys pa n v) := by grind [writePhys, canon_writePart1]

theorem State.canon_putWords {s : State} (hs : Canon s) (pa : Nat) (ws : List Word64) : Canon (s.putWords pa ws) := by
  induction ws generalizing s pa with
  | nil => exact hs
  | cons w ws ih => exact ih (State.canon_writePhys s pa 8 w.toNat hs) (pa + 8)

theorem State.canon_zeroBuffers (s : State) (hs : Canon s) : Canon s.zeroBuffers := filter_wf hs _

theorem State.canon_clearLaunch (s : State) (hs : Canon s) : Canon (s.clearLaunch) := by grind [clearLaunch, canon_iff, canon_zeroBuffers]

theorem State.canon_logWrite (s : State) (ws : List Word64) (hs : Canon s) : Canon (s.logWrite ws) := by grind [logWrite, canon_iff, canon_putWords]

theorem State.canon_writeTail (s : State) (hs : Canon s) : Canon (s.writeTail) := by grind [writeTail, canon_iff, mem_modLaunch, canon_logWrite]

theorem State.canon_markFull (s : State) (hs : Canon s) : Canon (s.markFull) := by grind [markFull, canon_iff, mem_markNoReplay, canon_writeTail]

theorem State.canon_putOrFreeze (s : State) (g : Nat) (ws : List Word64) (hs : Canon s) : Canon (s.putOrFreeze g ws) := by
  unfold State.putOrFreeze
  dsimp only
  split
  · exact State.canon_logWrite s ws hs
  · exact hs

@[simp] theorem State.mem_dropRecord (s : State) : (s.dropRecord).mem = s.mem := rfl

theorem State.canon_putEntry (s : State) (e : LogEntry) (hs : Canon s) : Canon (s.putEntry e) := by
  have hw := State.canon_logWrite s e.words hs
  have hd : Canon s.dropRecord := hs.of_mem (State.mem_dropRecord s)
  have hn : Canon (s.markNoReplay e.frame).dropRecord := hs.of_mem (by simp)
  unfold State.putEntry
  split
  next => exact hs
  next l _ =>
    refine Canon.ite hs (Canon.ite (Canon.ite (State.canon_markFull _ hw) (Canon.ite hd hw)) ?_)
    split
    next g _ => exact State.canon_putOrFreeze s g _ hs
    next => exact Canon.ite hw (Canon.ite hn hd)

theorem State.canon_putCycle (s : State) (hs : Canon s) : Canon s.putCycle :=
  Canon.foldl (fun u e hu => State.canon_putEntry u e hu) _ (State.canon_markFull _ hs)

theorem State.canon_writeWaiting {s : State} (hs : Canon s) (drop : Bool) (n : Nat) : Canon (s.writeWaiting drop n) := by
  induction n generalizing s with
  | zero => exact hs
  | succ n ih =>
    unfold State.writeWaiting
    split
    next => exact hs
    next g r hg =>
      dsimp only
      have hnext : Canon (s.modCore g fun c => { c with logq := c.logq.drop 1 }) := hs
      split_ifs
      · exact ih (State.canon_logWrite _ r hnext)
      · exact ih (hnext.of_mem (State.mem_dropRecord _))
      · exact hs

theorem State.canon_settleWaiting (s : State) (hs : Canon s) : Canon s.settleWaiting := State.canon_writeWaiting hs ..

theorem State.canon_settleLog (s : State) (hs : Canon s) : Canon (s.settleLog) := by grind [settleLog, canon_putCycle, canon_settleWaiting]

theorem State.canon_finish (s : State) (status setdrop : Nat) (hs : Canon s) : Canon (s.finish status setdrop) := by
  grind [finish, canon_iff, mem_startHeld, canon_putWords, canon_clearLaunch, canon_settleLog, canon_writeTail]

theorem State.canon_endMigrations (s : State) (hs : Canon s) : Canon (s.endMigrations) := by
  unfold State.endMigrations
  exact Canon.foldl (fun u a hu => by grind [canon_writePhys]) _ hs

@[simp] theorem State.mem_restoreFrames (s : State) : s.restoreFrames.mem = s.mem := by
  unfold State.restoreFrames
  split
  · exact State.mem_foldl (fun u e => State.mem_setFrame u _ _) _ _
  · rfl

theorem State.canon_shut (s : State) (f : FaultRec) (more : Nat) (hs : Canon s) : Canon (s.shut f more) := by
  grind [shut, mem_endFrames, canon_finish, canon_putWords, canon_endMigrations, mem_restoreFrames, canon_iff]

@[simp] theorem State.mem_errorLog (s : State) (cause g x : Nat) (addr : Word64) : (s.errorLog cause g x addr).mem = s.mem := by
  unfold State.errorLog
  dsimp only
  split_ifs <;> simp

@[simp] theorem State.mem_logFaults (s : State) : (s.logFaults).mem = s.mem := by
  unfold State.logFaults
  exact State.mem_foldl (fun _ _ => by simp) _ _

theorem State.canon_landFlights (s : State) (hs : Canon s) : Canon s.landFlights :=
  Canon.foldl (fun _ e hu => Canon.foldl (fun _ c hv => State.canon_endFlight hv e.1 c) _ hu) _ hs

theorem State.canon_stopAll (s : State) (hs : Canon s) : Canon (s.stopAll) := by
  grind [stopAll, canon_iff, canon_settleLog, canon_landFlights, mem_abortAll]

theorem State.canon_beginShut (s : State) (f : FaultRec) (more : Nat) (hs : Canon s) : Canon (s.beginShut f more) := by
  have h : Canon s.logFaults.stopAll := State.canon_stopAll _ (hs.of_mem (State.mem_logFaults s))
  unfold State.beginShut
  dsimp only
  split
  · exact State.canon_shut _ f more h
  · exact h.of_mem (by simp)

theorem next_execShutter (s : State) (hs : Canon s) : Next Canon (execShutter s) := by
  grind [execShutter, canon_iff, next_iff, State.mem_logFaults, State.canon_shut, State.canon_beginShut]

@[simp] theorem State.mem_draw (s : State) : (s.draw).mem = s.mem := rfl

@[simp] theorem State.mem_classRecord (s : State) (g : Nat) : (s.classRecord g).mem = s.mem := by
  unfold State.classRecord
  dsimp only
  split_ifs <;> simp

@[simp] theorem State.mem_reclass (s : State) (g : Nat) : (s.reclass g).mem = s.mem := by
  unfold State.reclass
  dsimp only
  split_ifs <;> simp

@[simp] theorem State.mem_tickCores (s : State) : s.tickCores.mem = s.mem := by
  unfold State.tickCores
  exact State.mem_foldl (fun u e => by dsimp only; split <;> simp) _ s

theorem State.canon_tick (s : State) (hs : Canon s) : Canon (s.tick) := by grind [tick, canon_iff, mem_draw, mem_tickCores, canon_putCycle]

@[simp] theorem State.mem_raiseStruck (s : State) : (s.raiseStruck).mem = s.mem := by
  unfold State.raiseStruck
  exact State.mem_foldl (fun _ _ => by simp) _ _

theorem next_endCycle (s : State) (hs : Canon s) : Next Canon (s.endCycle) := by
  grind [State.endCycle, canon_iff, next_iff, State.mem_raiseStruck, State.canon_tick, next_execShutter]

@[simp] theorem State.mem_strike (s : State) (f : FaultRec) : (s.strike f).mem = s.mem := by
  unfold State.strike
  split <;> simp

theorem State.canon_blockError (s : State) (n key : Nat) (w2 w3 : Word64) (moved : Bool) (hs : Canon s) : Canon (s.blockError n key w2 w3 moved) := by
  grind [blockError, canon_iff, canon_writeBlock1, mem_strike, mem_errorLog]

@[simp] theorem State.mem_countCorrected (s : State) (stack : Nat) : (s.countCorrected stack).mem = s.mem := rfl

@[simp] theorem State.mem_annotate (s : State) (cause g x : Nat) (w3 : Word64) : (s.annotate cause g x w3).mem = s.mem := by simp [State.annotate]

@[simp] theorem State.mem_noteCorrected (s : State) (n : Nat) : (s.noteCorrected n).mem = s.mem := by simp [State.noteCorrected]

theorem next_readError (s : State) (hs : Canon s) : Next Canon (s.readError) := by
  grind [State.readError, canon_iff, State.mem_strike, next_iff, State.mem_countCorrected, State.mem_noteCorrected, State.canon_blockError]

theorem State.canon_putByteList {s : State} (hs : Canon s) (pa : Nat) (bs : List Byte) : Canon (s.putByteList pa bs) := by
  induction bs generalizing s pa with
  | nil => exact hs
  | cons b bs ih => exact ih (State.canon_writePhys s pa 1 b.toNat hs) (pa + 1)

theorem next_execAttestReportDone (s : State) (hs : Canon s) : Next Canon (execAttestReportDone s) := by
  grind [execAttestReportDone, next_iff, State.canon_putByteList, canon_iff]

theorem State.canon_putImageBlock (s : State) (pa : Nat) (b : Block) (hs : Canon s) : Canon (s.putImageBlock pa b) := by
  grind [putImageBlock, canon_writeBlock1]

theorem State.canon_putImage (s : State) (pa : Nat) (ws : List Word64) (hs : Canon s) : Canon (s.putImage pa ws) := by
  induction s, pa, ws using State.putImage.induct with
  | case1 s pa a b c d e f g h ws ih =>
    rw [State.putImage]
    exact ih (State.canon_putImageBlock s pa _ hs)
  | case2 s pa ws hws =>
    rw [State.putImage]
    · exact hs
    · exact hws

theorem State.canon_endSave (s : State) (hs : Canon s) : Canon (s.endSave) := by
  grind [endSave, canon_iff, canon_finish, canon_putImage, mem_takeFree, canon_settleLog]

theorem State.canon_putLatches (s : State) (pa : Nat) (hs : Canon s) : Canon (s.putLatches pa) :=
  Canon.foldl (fun u g hu => State.canon_putImage u _ _ hu) _ hs

theorem State.canon_latchCount (s : State) (g n : Nat) (up : Bool) (hs : Canon s) : Canon (s.latchCount g n up) := State.canon_setLatch hs _ _ _

theorem State.canon_countWaits (s : State) (ws : List (Nat × WaitCond)) (up : Bool) (hs : Canon s) : Canon (s.countWaits ws up) := by
  unfold State.countWaits
  exact Canon.foldl (fun u a hu => by grind [canon_latchCount]) _ hs

theorem State.canon_uncountWaits (s : State) (hs : Canon s) : Canon (s.uncountWaits) := by
  unfold State.uncountWaits
  exact Canon.foldl (fun u a hu => by grind [canon_iff, canon_countWaits, mem_modCtx]) _ hs

theorem State.canon_makeImage (s : State) (l : Launch) (hs : Canon s) : Canon (s.makeImage l) := by
  have h0 : Canon s.uncountWaits.takeFree.2 := (State.canon_uncountWaits s hs).of_mem (State.mem_takeFree _)
  have h1 (x : List (Nat × List Word64)) := Canon.foldl (fun (u : State) (e : Nat × List Word64) hu => State.canon_putImage u e.1 e.2 hu) x h0
  have h2 (x : List (Nat × List Word64)) (pa : Nat) := State.canon_putLatches _ pa (h1 x)
  unfold State.makeImage
  grind [canon_iff, State.mem_modLaunch]

@[simp] theorem State.mem_tableRaise (s : State) (e : SaveTable) (w2 w3 : Nat) : (s.tableRaise e w2 w3).mem = s.mem := by
  unfold State.tableRaise
  split <;> simp

@[simp] theorem State.mem_tableFault (s : State) (e : SaveTable) : (s.tableFault e).mem = s.mem := by simp [State.tableFault]

@[simp] theorem State.mem_tableUpcall (s : State) (e : SaveTable) (m : PageMiss) : (s.tableUpcall e m).mem = s.mem := by
  grind [tableUpcall, mem_tableFault, mem_modCluster, mem_annotate, mem_openFault]

@[simp] theorem State.mem_tableFails (s : State) (e : SaveTable) (x2 : TableError) : (s.tableFails e x2).mem = s.mem := by
  unfold State.tableFails
  split <;> simp

theorem State.canon_save (s : State) (l : Launch) (hs : Canon s) : Canon (s.save l) := by
  unfold State.save
  split
  · exact Canon.foldl (fun u e hu => State.canon_cancelChan hu ..) _ hs
  · have hi := State.canon_makeImage s l hs
    split
    · exact hs.of_mem (by simp)
    · dsimp only
      split
      · exact hi.of_mem (by simp)
      · exact State.canon_endSave _ hi

theorem next_execPreemptSave (s : State) (hs : Canon s) : Next Canon (execPreemptSave s) := by grind [execPreemptSave, next_iff, State.canon_save]

@[simp] theorem State.mem_packetKnock (s : State) (p : Packet) : (s.packetKnock p).mem = s.mem := by
  unfold State.packetKnock
  dsimp only
  split_ifs <;> simp

@[simp] theorem State.mem_portGoesDown (s : State) (q : Nat) : (s.portGoesDown q).mem = s.mem := by
  unfold State.portGoesDown
  split <;> simp

@[simp] theorem State.mem_startReplay (s : State) (q : Nat) : (s.startReplay q).mem = s.mem := by
  unfold State.startReplay
  dsimp only
  split_ifs <;> simp

@[simp] theorem State.mem_launchFault (s : State) (f : FaultRec) : (s.launchFault f).mem = s.mem := by
  unfold State.launchFault
  split <;> simp

@[simp] theorem State.mem_refused (s : State) (q : Nat) (o : OutPacket) : (s.refused q o).mem = s.mem := by
  unfold State.refused
  split <;> simp

@[simp] theorem State.mem_takeAckSeq (s : State) (q : Nat) (p : Packet) : (s.takeAckSeq q p).mem = s.mem := by
  grind [takeAckSeq, mem_setPort, mem_refused]

@[simp] theorem State.mem_takeAck (s : State) (q : Nat) (p : Packet) : (s.takeAck q p).mem = s.mem := by
  unfold State.takeAck
  dsimp only
  split_ifs <;> simp

theorem State.canon_receive {s : State} (hs : Canon s) (q : Nat) (p : Packet) (ty : Nat) {apply : State → Option (State × Bool)}
    (ha : ∀ u v b, Canon u → apply u = some (v, b) → Canon v) : Canon (s.receive q p ty apply) := by
  have ht : Canon (s.takeAck q p) := hs.of_mem (by simp)
  unfold State.receive
  dsimp only
  split_ifs
  · exact hs
  · exact hs.of_mem (by simp)
  · exact hs
  · exact ht
  · split
    next => exact ht
    next v b hv => exact (ha _ v b ht hv).of_mem (by simp)
  · exact ht.of_mem (by simp)
  · exact ht

theorem next_execKnockDelivery (k : KnockSource) (s : State) (hs : Canon s) : Next Canon (execKnockDelivery k s) := by
  cases k with
  | own g kpc karg dst => exact next_iff.2 (hs.of_mem (State.mem_ownKnock ..))
  | packet q p =>
    refine next_iff.2 (State.canon_receive hs q p 4 fun u v b hu hv => ?_)
    cases hv
    exact hu.of_mem (by simp)

@[simp] theorem State.mem_chosenHalf (s : State) (q : Nat) : (s.chosenHalf q).2.mem = s.mem := by
  unfold State.chosenHalf
  dsimp only
  split_ifs <;> simp

theorem next_execRetrainComplete (port : Nat) (s : State) (hs : Canon s) : Next Canon (execRetrainComplete port s) := by
  grind [execRetrainComplete, canon_iff, State.mem_chosenHalf, next_iff, State.mem_sendAck, State.mem_setPort]

theorem next_execPacketSend (port : Nat) (s : State) (hs : Canon s) : Next Canon (execPacketSend port s) := by
  grind [execPacketSend, canon_iff, next_iff, State.mem_modPort]

theorem next_execRestripeStable (page : Nat) (s : State) (hs : Canon s) : Next Canon (execRestripeStable page s) := by
  grind [execRestripeStable, next_iff, State.mem_modChan, State.canon_landFlights, State.mem_tlbDrop, State.canon_writePhys, canon_iff]

@[simp] theorem State.mem_setMigration (s : State) (m : Migration) : (s.setMigration m).mem = s.mem := rfl

theorem next_execRestripeCutover (page : Nat) (s : State) (hs : Canon s) : Next Canon (execRestripeCutover page s) := by
  grind [execRestripeCutover, next_iff, State.canon_landFlights, State.canon_writePhys, State.mem_setMigration, canon_iff]

theorem State.canon_arrive (s : State) (g n : Nat) (f : FaultRec) (hs : Canon s) : Canon (s.arrive g n f) := by
  grind [arrive, canon_iff, canon_latchAdd, mem_raise]

@[simp] theorem State.mem_collProt (s : State) (d va level : Nat) : (s.collProt d va level).mem = s.mem := rfl

theorem ends_putCollStatus (s : State) (d : Nat) (j : CollJob) (v : Nat) (hs : Canon s) : Ends Canon (s.putCollStatus d j v) := by
  grind [State.putCollStatus, canon_iff, ends_ok, State.canon_writePart, ends_error, State.mem_pageUpcall, State.mem_annotate, State.mem_collProt]

theorem next_execCollComplete (die : Nat) (s : State) (hs : Canon s) : Next Canon (execCollComplete die s) := by
  grind [execCollComplete, next_iff, ends_putCollStatus, ends_error, ends_ok, canon_iff, State.canon_arrive, State.mem_setColl]

@[simp] theorem State.mem_collFault (s : State) (d code : Nat) (j : CollJob) (w3 : Word64) : (s.collFault d code j w3).mem = s.mem := rfl

theorem State.canon_collWrite {s : State} (hs : Canon s) (j : CollJob) (off : Nat) (vs : List VVal) : Canon (s.collWrite j off vs) := by
  induction vs generalizing s off with
  | nil => exact hs
  | cons v vs ih => exact ih (State.canon_writeBlock hs ..) (off + 64)

@[simp] theorem State.mem_collSend (s : State) (d : Nat) (j : CollJob) (p : Packet) : (s.collSend d j p).mem = s.mem := rfl

theorem errs_collSource (s : State) (d : Nat) (j : CollJob) (off n : Nat) (hs : Canon s) : Errs Canon (s.collSource d j off n) := by
  have hf (code : Nat) (w : Word64) : Canon (s.collFault d code j w) := hs.of_mem (by simp)
  induction n generalizing off with
  | zero => exact errs_ok _
  | succ n ih =>
    unfold State.collSource
    dsimp only
    split
    · exact errs_error.2 (hs.of_mem (State.mem_raise ..))
    · exact errs_error.2 (hf ..)
    · split
      · exact errs_error.2 (hf ..)
      · split
        · exact errs_ok _
        next e he => exact errs_error.2 (ih _ e he)

theorem ends_collTake (s : State) (d : Nat) (j : CollJob) (q : Nat) (p : Packet) (hs : Canon s) : Ends Canon (s.collTake d j q p) := by
  grind [State.collTake, canon_iff, ends_bind, State.mem_collFault, errs_error, errs_collSource, ends_ok, State.mem_collSend, State.mem_setColl,
    State.canon_collWrite]

theorem State.canon_takeAll {s : State} (hs : Canon s) (d : Nat) (l : List (Nat × Packet)) : Canon (s.takeAll d l) := by
  induction l generalizing s with
  | nil => exact hs
  | cons e l ih =>
    unfold State.takeAll
    split
    next => exact hs
    next j hj =>
      have h := ends_collTake s d j e.1 e.2 hs
      split
      next u hu => exact ih (h.of_ok hu)
      next u hu => exact h.errs u hu

@[simp] theorem State.mem_takeHeld (s : State) (tag : Nat) : (s.takeHeld tag).2.mem = s.mem := rfl

@[simp] theorem State.mem_sendChunk (s : State) (d : Nat) (j : CollJob) (c step off : Nat) (vs : List VVal) (fuel : Nat) :
    (s.sendChunk d j c step off vs fuel).mem = s.mem := by
  induction fuel generalizing s off vs with
  | zero => rfl
  | succ n ih =>
    unfold State.sendChunk
    split
    · rfl
    · exact (ih ..).trans (State.mem_collSend ..)

theorem ends_collBegin (s : State) (d : Nat) (j : CollJob) (hs : Canon s) : Ends Canon (s.collBegin d j) := by
  grind [State.collBegin, canon_iff, ends_bind, errs_collSource, ends_ok, State.mem_setColl, State.mem_sendChunk, State.canon_collWrite]

theorem State.canon_collBuild (s : State) (d : Nat) (j : CollJob) (hs : Canon s) : Canon (s.collBuild d j) := by
  grind [collBuild, canon_iff, mem_raise, mem_pageUpcall, mem_annotate, mem_collFault, mem_setColl, ends_collBegin, ends_error, Ends.of_ok,
    canon_takeAll, mem_takeHeld]

theorem next_execCollStart (die : Nat) (s : State) (hs : Canon s) : Next Canon (execCollStart die s) := by
  unfold execCollStart
  split
  · exact next_iff.2 hs
  · split
    next j hj => exact next_iff.2 (State.canon_collBuild s die j hs)
    next hj =>
      split
      next => exact next_iff.2 hs
      next j rest hr =>
        split
        next => exact next_iff.2 (hs.of_mem (State.mem_raise ..))
        next =>
          have h := ends_putCollStatus s die j 3 hs
          split
          next u hu => exact next_iff.2 (h.errs u hu)
          next u hu => exact next_iff.2 (State.canon_collBuild _ die j ((h.of_ok hu).of_mem (State.mem_setColl ..)))

theorem errs_collSignalWord (s : State) (d : Nat) (j : CollJob) (hs : Canon s) : Errs Canon (s.collSignalWord d j : Except State Nat) := by
  grind [State.collSignalWord, canon_iff, errs_ok, errs_error, State.mem_collProt, State.mem_pageUpcall, State.mem_annotate, State.mem_collFault]

theorem ends_collSignal (s : State) (d : Nat) (j : CollJob) (hs : Canon s) : Ends Canon (collSignal s d j) := by
  grind [collSignal, canon_iff, ends_bind, Ends.errs, ends_ok, errs_collSignalWord, State.mem_setColl, ends_putCollStatus]



theorem next_execCollSignal (die : Nat) (s : State) (hs : Canon s) : Next Canon (execCollSignal die s) := by
  unfold execCollSignal
  split
  next => exact next_iff.2 hs
  next j hj =>
    split
    · exact next_chanNext (ends_collSignal s die j hs)
    · exact next_iff.2 hs

@[simp] theorem State.mem_deferLeave (s : State) (cl : Nat) (a : LeaveAsk) : (s.deferLeave cl a).mem = s.mem := rfl

theorem State.canon_putState (s : State) (e : Extent) (v : Nat) (hs : Canon s) : Canon (s.putState e v) := State.canon_writePart hs _ _ _

@[simp] theorem State.mem_holdLeave (s : State) (cl : Nat) : (s.holdLeave cl).mem = s.mem := rfl

@[simp] theorem State.mem_taskFault (s : State) (g code : Nat) (w2 w3 : Word64) : (s.taskFault g code w2 w3).mem = s.mem := rfl

theorem errs_taskHome (s : State) (cl q : Nat) (t : Task) (hs : Canon s) : Errs Canon (s.taskHome cl q t : Except State Extent) := by
  grind [State.taskHome, canon_iff, errs_ok, errs_error, State.mem_pageUpcall, State.mem_annotate, State.mem_taskFault]



theorem next_execTaskDispatch (cluster queue : Nat) (s : State) (hs : Canon s) : Next Canon (execTaskDispatch cluster queue s) := by
  unfold execTaskDispatch
  split
  next => exact next_iff.2 hs
  next t n ht =>
    split
    · refine next_engineNext (ends_bind.2 ⟨errs_taskHome s cluster queue t hs, fun home _ => ends_ok.2 (State.canon_putState _ _ _ ?_)⟩)
      split
      · exact hs.of_mem (State.mem_modCluster ..)
      · exact hs.of_mem ((State.mem_modCluster ..).trans (State.mem_holdLeave ..))
    · split
      · exact next_iff.2 hs
      · exact next_iff.2 (hs.of_mem ((State.mem_deferLeave ..).trans (State.mem_modCluster ..)))

end Sys2Proof.Machine
end

