-- ==== Sys2Proof/Proofs/CanonicalIssues.lean ====
section
/-! Memory in its canonical form: the end of an issue, walks and their retries, and the start of a task. -/

namespace Sys2Proof.Machine

@[simp] theorem State.mem_holdEnd (s : State) (i : Iss) (w : WaitCond) : (s.holdEnd i w).mem = s.mem := rfl

@[simp] theorem State.mem_discard (s : State) (g x : Nat) : (s.discard g x).mem = s.mem := rfl

@[simp] theorem State.mem_endCtx (s : State) (g x : Nat) : (s.endCtx g x).mem = s.mem := by simp [State.endCtx]

@[simp] theorem State.mem_endExit (s : State) (i : Iss) : (s.endExit i).mem = s.mem := by
  grind [endExit, mem_discard, mem_modCore, mem_holdEnd, mem_endCtx]

@[simp] theorem State.mem_endIssue (s : State) (i : Iss) (e : EndKind) : (s.endIssue i e).mem = s.mem := by
  unfold State.endIssue
  grind [mem_endExit, mem_holdEnd, mem_enqueueCont]

@[simp] theorem State.mem_completeRett (s : State) (g x : Nat) : (s.completeRett g x).mem = s.mem := by
  grind [completeRett, mem_setCore, mem_setCtx, mem_endIssue]

@[simp] theorem State.mem_completeIssue (s : State) (i : Iss) : (s.completeIssue i).mem = s.mem := by
  grind [completeIssue, mem_endIssue, mem_completeRett, mem_setCore]

@[simp] theorem State.mem_takeTrap (s : State) (i : Iss) (t : TrapReq) : (s.takeTrap i t).mem = s.mem := by
  unfold State.takeTrap
  dsimp only
  split_ifs <;> simp

@[simp] theorem State.mem_snapStopped (s : State) (g x : Nat) : (s.snapStopped g x).mem = s.mem := by
  unfold State.snapStopped
  dsimp only
  split_ifs <;> simp

theorem State.canon_leaveWaits (s : State) (i : Iss) (hs : Canon s) : Canon (s.leaveWaits i) := by grind [leaveWaits, canon_countWaits]

@[simp] theorem State.mem_traceSlot (s : State) (i : Iss) (slot : Nat) (word : Word32) (committed : Bool) : (s.traceSlot i slot word committed).mem
    = s.mem := by
  simp [State.traceSlot]

@[simp] theorem State.mem_trace (s : State) (i : Iss) (slots : List (Nat × SlotWord)) (committed : Nat → Bool) : (s.trace i slots committed).mem =
    s.mem := by
  unfold State.trace
  simp only
  (repeat' split) <;> simp [State.mem_foldl]

@[simp] theorem State.mem_traceAttempt (s : State) (i : Iss) : (s.traceAttempt i).mem = s.mem := by simp [State.traceAttempt]

@[simp] theorem State.mem_ctxUpcall (s : State) (g x : Nat) (m : PageMiss) : (s.ctxUpcall g x m).mem = s.mem := by
  unfold State.ctxUpcall
  dsimp only
  split_ifs <;> simp

theorem State.canon_holdForPage (s : State) (i : Iss) (m : PageMiss) (hs : Canon s) : Canon (s.holdForPage i m) := by
  grind [holdForPage, canon_iff, mem_traceAttempt, mem_modCtx, canon_leaveWaits, mem_ctxUpcall]

theorem State.canon_beginWalks (s : State) (i : Iss) (hs : Canon s) : Canon (s.beginWalks i) := by
  grind [beginWalks, canon_iff, mem_setCore, canon_leaveWaits]

theorem State.canon_finishIssue (s : State) (hs : Canon s) : Canon (s.finishIssue) := by
  grind [finishIssue, canon_iff, canon_beginWalks, canon_holdForPage, mem_setCore, canon_leaveWaits, mem_traceAttempt, canon_countWaits,
    mem_snapStopped, mem_takeTrap, mem_completeIssue]

@[simp] theorem State.mem_rekey (s : State) (g x part : Nat) : (s.rekey g x part).mem = s.mem := by
  unfold State.rekey
  split <;> simp

theorem State.canon_resumeIssue (s : State) (g x : Nat) (i : Iss) (hs : Canon s) : Canon (s.resumeIssue g x i) := by
  grind [resumeIssue, canon_iff, mem_rekey, canon_finishIssue, mem_setCore]

theorem State.canon_goOnAfterWalk (s : State) (g x : Nat) (hs : Canon s) : Canon (s.goOnAfterWalk g x) := by
  grind [goOnAfterWalk, canon_iff, mem_modCtx, canon_resumeIssue]

@[simp] theorem State.mem_tlbFill (s : State) (cl va : Nat) (e : Word64) (level : Nat) : (s.tlbFill cl va e level).mem = s.mem := by
  unfold State.tlbFill
  dsimp only
  split_ifs <;> simp

@[simp] theorem State.mem_fillAll (s : State) (cl : Nat) (l : List PageMiss) : (s.fillAll cl l).mem = s.mem := by
  unfold State.fillAll
  exact State.mem_foldl (fun _ _ => by grind [mem_tlbFill]) _ _

theorem State.canon_retry (s : State) (w : Who) (hs : Canon s) : Canon (s.retry w) := by
  unfold State.retry
  grind [canon_iff, mem_whoFault, mem_pageUpcall, mem_annotate, mem_modCtx, mem_fillAll, canon_goOnAfterWalk, mem_modCore, mem_modChan,
    mem_setWaits]

theorem next_execWaiterRetry (who : Who) (s : State) (hs : Canon s) : Next Canon (execWaiterRetry who s) := by
  grind [execWaiterRetry, canon_iff, next_iff, State.mem_setCluster, State.canon_retry]

@[simp] theorem State.mem_markLeave (s : State) (cl : Nat) (a : LeaveAsk) : (s.markLeave cl a).mem = s.mem := by
  unfold State.markLeave
  split <;> simp

theorem next_execLeaveGrant (island : Nat) (s : State) (hs : Canon s) : Next Canon (execLeaveGrant island s) := by
  grind [execLeaveGrant, canon_iff, next_iff, State.mem_setCluster, State.mem_holdLeave, State.mem_markLeave]

theorem next_execTaskRunStart (cluster g : Nat) (s : State) (hs : Canon s) : Next Canon (execTaskRunStart cluster g s) := by
  have hf (t : Task) (code : Nat) (w2 w3 : Word64) : Canon (s.taskFault g code w2 w3) := hs.of_mem (State.mem_taskFault ..)
  unfold execTaskRunStart
  split
  next => exact next_iff.2 hs
  next q t ht =>
    split_ifs
    · exact next_iff.2 hs
    · exact next_iff.2 (hf t _ _ _)
    · split
      next => exact next_iff.2 (hf t _ _ _)
      next =>
        split
        next => exact next_iff.2 (hs.of_mem (by simp))
        next => exact next_iff.2 (hf t _ _ _)
        next l hl =>
          split
          · exact next_iff.2 (hf t _ _ _)
          · exact next_engineNext (ends_bind.2 ⟨errs_taskHome s cluster q t hs, fun home _ =>
              ends_ok.2 (State.canon_resetTile (State.canon_putState _ _ _ (hs.of_mem (State.mem_modCluster ..))) ..)⟩)

theorem next_execOloadFillComplete (g slot : Nat) (s : State) (hs : Canon s) : Next Canon (execOloadFillComplete g slot s) := by
  grind [execOloadFillComplete, canon_iff, next_iff, State.mem_setCore, State.mem_raise]

theorem next_execLateDataArrival (g : Nat) (s : State) (hs : Canon s) : Next Canon (execLateDataArrival g s) := by
  grind [execLateDataArrival, canon_iff, next_iff, State.mem_setCore, State.mem_annotate]

end Sys2Proof.Machine
end

