-- ==== Sys2Proof/Proofs/CanonicalCopies.lean ====
section
/-! Memory in its canonical form: the copy engine. -/

namespace Sys2Proof.Machine

theorem errs_portFault {α : Type} (s : State) (g c rec q : Nat) (hs : Canon s) : Errs Canon (portFault s g c rec q : Except State α) := by
  intro u h
  cases h
  exact hs

theorem ends_sendKnock (s : State) (g c : Nat) (ws : List Word64) (hs : Canon s) : Ends Canon (sendKnock s g c ws) := by
  unfold sendKnock
  dsimp only
  split
  · split
    next =>
      split
      · exact (errs_portFault s g c _ _ hs).ends fun u hu => by cases hu
      · exact ends_ok.2 (hs.of_mem (State.mem_enqueue ..))
    next => exact ends_ok.2 hs
  · exact ends_ok.2 (hs.of_mem (State.mem_modChan ..))

theorem errs_chanFault {α : Type} (s : State) (g c code : Nat) (w2 w3 w4 : Word64) (hs : Canon s) : Errs Canon (chanFault s g c code w2 w3 w4 :
    Except State α) := by
  intro u h
  cases h
  exact hs

theorem ends_chanArrive (s : State) (g c n : Nat) (hs : Canon s) : Ends Canon (chanArrive s g c n) := by
  unfold chanArrive
  split
  next u hu => exact ends_ok.2 (State.canon_latchAdd hs hu)
  next => exact ends_error.2 (hs.of_mem (State.mem_raise ..))

theorem ends_advanceHandle (s : State) (g c x h : Nat) (hs : Canon s) : Ends Canon (advanceHandle s g c x h) := by
  unfold advanceHandle
  dsimp only
  split_ifs
  · exact ends_ok.2 hs
  · exact ends_error.2 (hs.of_mem (State.mem_raise ..))
  · split <;> exact ends_ok.2 (hs.of_mem (State.mem_modCtx ..))

theorem ends_completeRecord (s : State) (g c : Nat) (hs : Canon s) : Ends Canon (completeRecord s g c) := by
  grind [completeRecord, canon_iff, ends_bind, State.mem_recordGone, errs_error, Ends.errs, ends_advanceHandle, State.canon_putRecord, ends_ok,
    ends_chanArrive, ends_sendKnock, State.mem_modChan, State.mem_dropLeave, errs_ok]

theorem next_execRecordCompletion (g c : Nat) (s : State) (hs : Canon s) : Next Canon (execRecordCompletion g c s) := by
  unfold execRecordCompletion
  split
  · exact next_chanNext (ends_completeRecord s g c hs)
  · exact next_iff.2 hs

@[simp] theorem State.mem_sendRuns (s : State) (o : Origin) (last : Bool) (vs : List VVal) (rs : List WindowRun) :
    (s.sendRuns o last vs rs).mem = s.mem := by
  induction rs generalizing s vs with
  | nil => rfl
  | cons r rs ih => exact (ih ..).trans (State.mem_foldl (fun u p => State.mem_enqueue u _ _) _ s)

theorem errs_sourceBlock (s : State) (g c : Nat) (l : Loc) (va named : Nat) (hs : Canon s) : Errs Canon (sourceBlock s g c l va named : Except State
    VVal) := by
  grind [sourceBlock, errs_ok, errs_chanFault]

theorem errs_sourceBlocks (s : State) (g c : Nat) (l : List (Nat × Loc)) (hs : Canon s) : Errs Canon (sourceBlocks s g c l) := by
  induction l with
  | nil => exact errs_ok _
  | cons e l ih => exact errs_bind.2 ⟨errs_sourceBlock s g c _ _ _ hs, fun _ _ => errs_bind.2 ⟨ih, fun _ _ => errs_ok _⟩⟩

@[simp] theorem State.mem_chanMiss (s : State) (g c va cls : Nat) : (s.chanMiss g c va cls).mem = s.mem := rfl

theorem errs_chanLoc (s : State) (g c va size : Nat) (wr : Bool) (hs : Canon s) : Errs Canon (chanLoc s g c va size wr : Except State Loc) := by
  grind [chanLoc, canon_iff, errs_chanFault, errs_bind, errs_error, State.mem_chanMiss, errs_ok]

theorem errs_blockLocs (s : State) (g c va : Nat) (wr : Bool) (n : Nat) (hs : Canon s) : Errs Canon (blockLocs s g c va wr n) := by
  induction n generalizing va with
  | zero => exact errs_ok _
  | succ n ih => exact errs_bind.2 ⟨errs_chanLoc s g c va 64 wr hs, fun _ _ => errs_bind.2 ⟨ih _, fun _ _ => errs_ok _⟩⟩

theorem ends_remoteSend (s : State) (g c n : Nat) (hs : Canon s) : Ends Canon (remoteSend s g c n) := by
  have hf (code : Nat) (w2 w3 w4 : Word64) : Errs Canon (chanFault s g c code w2 w3 w4 : Except State PUnit) := errs_chanFault s g c code w2 w3 w4 hs
  unfold remoteSend
  grind [ends_ok, ends_error, ends_bind, errs_ok, errs_bind, errs_blockLocs, errs_sourceBlocks, canon_iff, State.mem_modChan, State.mem_sendRuns,
    portFault, chanFault, State.mem_raise]

theorem State.canon_moveBlock (s : State) (m : Migration) (off : Nat) (hs : Canon s) : Canon (s.moveBlock m off) := State.canon_writeBlock1 hs _ _

theorem ends_restripeSector (s : State) (g c : Nat) (hs : Canon s) : Ends Canon (restripeSector s g c) := by
  unfold restripeSector
  dsimp only
  split
  · exact ends_ok.2 hs
  · exact ends_ok.2 (Canon.of_mem (Canon.foldl (fun u i hu => State.canon_moveBlock u _ _ hu) _ hs) (State.mem_sectorDone ..))

theorem errs_gatherFlights (s : State) (g c rec left : Nat) (l : List ((Nat × Loc) × (Nat × List Desc))) (hs : Canon s) :
    Errs Canon (gatherFlights s g c rec left l) := by
  induction l generalizing left with
  | nil => exact errs_ok _
  | cons e l ih =>
    obtain ⟨⟨_, l'⟩, v, ds⟩ := e
    unfold gatherFlights
    split
    · exact errs_error.2 (hs.of_mem (State.mem_raise ..))
    · exact errs_bind.2 ⟨ih _, fun _ _ => errs_ok _⟩

theorem errs_sourceElems (s : State) (g c e : Nat) (l : List (Nat × Loc)) (hs : Canon s) : Errs Canon (sourceElems s g c e l) := by
  induction l with
  | nil => exact errs_ok _
  | cons x l ih => exact errs_bind.2 ⟨errs_sourceBlock s g c _ _ _ hs, fun _ _ => errs_bind.2 ⟨ih, fun _ _ => errs_ok _⟩⟩

theorem errs_elemLocs (s : State) (g c e : Nat) (wr : Bool) (l : List Word64) (hs : Canon s) : Errs Canon (elemLocs s g c e wr l) := by
  induction l with
  | nil => exact errs_ok _
  | cons va l ih => exact errs_bind.2 ⟨errs_chanLoc s g c _ e wr hs, fun _ _ => errs_bind.2 ⟨ih, fun _ _ => errs_ok _⟩⟩

theorem errs_sectorSource (s : State) (g c : Nat) (hs : Canon s) : Errs Canon (sectorSource s g c : Except State (List (Nat × List Desc))) := by
  grind [sectorSource, errs_bind, errs_elemLocs, errs_sourceElems, errs_ok, errs_blockLocs, errs_sourceBlocks]

theorem State.canon_putEarly (s : State) (f : Flight) (hs : Canon s) : Canon (s.putEarly f).2 := by
  unfold State.putEarly
  split
  · exact hs
  · exact foldl_putBytes_wf _ _ _ _ hs

theorem State.canon_takeOff (s : State) (g c : Nat) (fs : List Flight) (hs : Canon s) : Canon (s.takeOff g c fs) := by
  unfold State.takeOff
  dsimp only
  exact Canon.foldl_fst (fun u a hu => by grind [canon_putEarly]) _ hs

theorem errs_scatterFlights (s : State) (g c rec e : Nat) (agreed : List (Nat × Nat)) (l : List ((Nat × Loc) × (Nat × Desc))) (hs : Canon s) :
    Errs Canon (scatterFlights s g c rec e agreed l) := by
  induction l generalizing agreed with
  | nil => exact errs_ok _
  | cons x l ih =>
    obtain ⟨⟨va, l'⟩, v, d⟩ := x
    unfold scatterFlights
    split
    · exact errs_error.2 (hs.of_mem (State.mem_raise ..))
    · exact errs_bind.2 ⟨ih _, fun _ _ => errs_ok _⟩

theorem ends_gatherSector (s : State) (g c : Nat) (hs : Canon s) : Ends Canon (gatherSector s g c) := by
  grind [gatherSector, ends_bind, errs_elemLocs, List.range_eq_nil, errs_sourceElems, errs_scatterFlights, ends_ok, State.canon_takeOff,
    State.mem_modChan, canon_iff, errs_sectorSource, errs_blockLocs, errs_gatherFlights]

theorem errs_recFault {α : Type} (s : State) (g c : Nat) (hs : Canon s) : Errs Canon (recFault s g c : Except State α) := by
  intro u h
  cases h
  exact hs

theorem ends_fillBlock (s : State) (g c n b : Nat) (x : Nat × List Desc) (hs : Canon s) : Ends Canon (fillBlock s g c n b x) := by
  unfold fillBlock
  dsimp only
  split
  · exact ends_error.2 (hs.of_mem (State.mem_raise ..))
  · exact ends_ok.2 (hs.of_mem (State.mem_modCore ..))

theorem ends_fillBlocks {s : State} (hs : Canon s) (g c first j : Nat) (l : List (Nat × List Desc)) : Ends Canon (fillBlocks s g c first j l) := by
  induction l generalizing s j with
  | nil => exact ends_ok.2 hs
  | cons x l ih =>
    have h := ends_fillBlock s g c (first + j / 32) (j % 32) x hs
    exact ends_bind.2 ⟨h.errs, fun u hu => ih (h.of_ok hu) _⟩

theorem ends_fillSector (s : State) (g c : Nat) (hs : Canon s) : Ends Canon (fillSector s g c) := by
  grind [fillSector, ends_bind, errs_recFault, errs_error, errs_sectorSource, ends_fillBlocks, Ends.errs, ends_ok, State.mem_sectorDone, canon_iff]

theorem ends_addBlock (s : State) (g c addt va : Nat) (l : Loc) (v : VVal) (hs : Canon s) : Ends Canon (addBlock s g c addt va l v) := by
  unfold addBlock
  split_ifs
  · exact ends_error.2 (hs.of_mem (State.mem_raise ..))
  · exact ends_error.2 (hs.of_mem (State.mem_raise ..))
  · split
    · exact ends_error.2 (hs.of_mem (State.mem_raise ..))
    · exact ends_ok.2 (State.canon_writeCells hs ..)

theorem ends_addBlocks {s : State} (hs : Canon s) (g c addt : Nat) (l : List (Nat × Loc × VVal)) : Ends Canon (addBlocks s g c addt l) := by
  induction l generalizing s with
  | nil => exact ends_ok.2 hs
  | cons x l ih =>
    have h := ends_addBlock s g c addt x.1 x.2.1 x.2.2 hs
    exact ends_bind.2 ⟨h.errs, fun u hu => ih (h.of_ok hu)⟩

theorem ends_addSector (s : State) (g c : Nat) (hs : Canon s) : Ends Canon (addSector s g c) := by
  grind [addSector, ends_bind, errs_blockLocs, errs_sourceBlocks, ends_addBlocks, Ends.errs, ends_ok, State.mem_sectorDone, canon_iff]

theorem ends_copySector (s : State) (g c : Nat) (hs : Canon s) : Ends Canon (copySector s g c) := by
  grind [copySector, ends_bind, errs_blockLocs, errs_sourceBlocks, ends_ok, State.canon_takeOff]

theorem ends_sectorIssue (s : State) (g c : Nat) (hs : Canon s) : Ends Canon (sectorIssue s g c) := by
  grind [sectorIssue, canon_iff, ends_error, State.mem_setChan, State.mem_deferLeave, ends_remoteSend, ends_copySector, ends_addSector,
    ends_fillSector, ends_gatherSector, ends_restripeSector, State.mem_holdLeave]

theorem State.canon_chanProgress (s : State) (g c : Nat) (hs : Canon s) : Canon (s.chanProgress g c) := by
  grind [chanProgress, canon_iff, mem_recordGone, canon_putRecord]

theorem State.canon_remoteDone (s : State) (g c : Nat) (hs : Canon s) : Canon (s.remoteDone g c) := by
  grind [remoteDone, canon_iff, mem_sectorDone, canon_chanProgress]

theorem ends_sectorStep (s : State) (g c : Nat) (hs : Canon s) : Ends Canon (sectorStep s g c) := by
  grind [sectorStep, ends_ok, State.canon_endFlight, State.canon_remoteDone, State.canon_endCancel, ends_sectorIssue]

theorem next_execSectorComplete (g c : Nat) (s : State) (hs : Canon s) : Next Canon (execSectorComplete g c s) := by
  unfold execSectorComplete
  split
  · exact next_chanNext (ends_sectorStep s g c hs)
  · exact next_iff.2 hs

theorem errs_restripePage (s : State) (g c : Nat) (ws : List Word64) (hs : Canon s) : Errs Canon (restripePage s g c ws : Except State (Word64 × Nat
    × Nat)) := by
  grind [restripePage, canon_iff, errs_bind, errs_chanFault, errs_recFault, errs_ok, errs_error, State.mem_chanMiss]

theorem ends_beginRestripe (s : State) (g c : Nat) (ws : List Word64) (hs : Canon s) : Ends Canon (beginRestripe s g c ws) := by
  grind [beginRestripe, canon_iff, ends_bind, errs_restripePage, List.find?_eq_none, ends_ok, State.mem_modChan, ends_error, State.mem_tlbDrop,
    State.canon_landFlights, State.canon_writePhys]

theorem errs_recLoc (s : State) (g c : Nat) (hs : Canon s) : Errs Canon (recLoc s g c : Except State Loc) := by
  grind [recLoc, canon_iff, errs_bind, errs_recFault, errs_error, State.mem_chanMiss, errs_ok]

theorem ends_readRecord (s : State) (g c : Nat) (hs : Canon s) : Ends Canon (readRecord s g c) := by
  grind [readRecord, canon_iff, ends_bind, errs_recLoc, ends_ok, State.mem_setChan, errs_recFault, ends_beginRestripe, State.canon_putRecord,
    State.mem_modChan]

theorem next_execChannelRecordRead (g c : Nat) (s : State) (hs : Canon s) : Next Canon (execChannelRecordRead g c s) := by
  unfold execChannelRecordRead
  dsimp only
  split
  · exact next_iff.2 hs
  · split
    next => exact next_chanNext (ends_readRecord s g c hs)
    next ws _ =>
      split
      · exact next_chanNext (ends_beginRestripe s g c ws hs)
      · exact next_iff.2 hs

theorem State.canon_chanUpcall (s : State) (g c : Nat) (va : Word64) (m : PageMiss) (hs : Canon s) : Canon (s.chanUpcall g c va m) := by
  grind [chanUpcall, canon_iff, canon_chanProgress, mem_modChan, mem_pageUpcall, mem_annotate]

@[simp] theorem State.mem_chanFreeze (s : State) (g c : Nat) : (s.chanFreeze g c).mem = s.mem := by
  unfold State.chanFreeze
  split <;> simp

theorem State.canon_chanWalked (s : State) (g c : Nat) (hs : Canon s) : Canon (s.chanWalked g c) := by
  grind [chanWalked, canon_iff, mem_modChan, mem_chanFreeze, canon_chanProgress, mem_tlbFill, mem_whoFault, canon_chanUpcall]

theorem State.canon_upcallAfterWalk (s : State) (g x : Nat) (l : List PageMiss) (m : PageMiss) (hs : Canon s) : Canon (s.upcallAfterWalk g x l m) := by
  grind [upcallAfterWalk, canon_iff, mem_ctxUpcall, mem_modCtx, canon_resumeIssue]

theorem State.canon_ctxWalked (s : State) (g x : Nat) (hs : Canon s) : Canon (s.ctxWalked g x) := by
  grind [ctxWalked, canon_iff, mem_setCore, mem_annotate, mem_whoFault, mem_fillAll, canon_upcallAfterWalk, canon_goOnAfterWalk]

theorem next_execWalkComplete (who : Who) (s : State) (hs : Canon s) : Next Canon (execWalkComplete who s) := by
  unfold execWalkComplete
  split
  · split
    · exact next_iff.2 (State.canon_ctxWalked s _ _ hs)
    · exact next_iff.2 hs
  · exact next_iff.2 (State.canon_chanWalked s _ _ hs)
  · exact next_iff.2 hs

end Sys2Proof.Machine
end

