-- ==== Sys2Proof/Proofs/CanonicalEngines.lean ====
section
/-! Memory in its canonical form: waits, issues, engines, launches, and what the host and the board do. -/

namespace Sys2Proof.Machine

theorem State.canon_observe (s : State) (g x : Nat) (i : Iss) (w : Nat × WaitCond) (hs : Canon s) : Canon (s.observe g x i w).1 := by
  grind [observe, canon_latchConsume]

theorem State.canon_observeAll (s : State) (g x : Nat) (i : Iss) (ws : List (Nat × WaitCond)) (hs : Canon s) : Canon (s.observeAll g x i ws).1 :=
  Canon.foldl_fst (fun p w hp => State.canon_observe p.1 g x p.2 w hp) _ (State.canon_countWaits s ws false hs)

theorem State.canon_wake (s : State) (g x : Nat) (i : Iss) (ended : WaitCond → Bool) (now : Bool) (hs : Canon s) : Canon (s.wake g x i ended now) := by
  grind [wake, canon_iff, canon_resumeIssue, mem_setCore, canon_observeAll]

theorem next_execEngineWaitEnd (g x : Nat) (s : State) (hs : Canon s) : Next Canon (execEngineWaitEnd g x s) := by
  grind [execEngineWaitEnd, next_iff, State.canon_wake]

theorem next_execResultDelivery (g x : Nat) (s : State) (hs : Canon s) : Next Canon (execResultDelivery g x s) := by
  grind [execResultDelivery, canon_iff, next_iff, State.mem_modCtx]

@[simp] theorem State.mem_fetchFault (s : State) (g x code : Nat) (pc w2 w3 : Word64) (slot : Nat) : (s.fetchFault g x code pc w2 w3 slot).mem =
    s.mem :=
  rfl

@[simp] theorem State.mem_fetchWalk (s : State) (g x : Nat) (va : Word64) : (s.fetchWalk g x va).mem = s.mem := rfl

theorem State.canon_beginIssue (s : State) (g x : Nat) (b : Bundle) (hs : Canon s) : Canon (s.beginIssue g x b) := by
  have h (n : Nat) (c : Core) (i : Iss) : Canon { (s.rekey g x n).setCore g c with iss := i } := hs.of_mem (State.mem_rekey s g x n)
  have ht {u : State} (hu : Canon u) {p : Prop} [Decidable p] (i : Iss) (l : List (Nat × SlotWord)) (done : Nat → Bool) :
      Canon (if p then u else u.trace i l done) := Canon.ite hu (hu.of_mem (State.mem_trace ..))
  have hf {u : State} (hu : Canon u) {p : Prop} [Decidable p] : Canon (if p then u.finishIssue else u) := Canon.ite (State.canon_finishIssue u hu) hu
  exact hf (ht (h _ _ _) _ _ _)

theorem State.canon_issueNext (s : State) (g x : Nat) (hs : Canon s) : Canon (s.issueNext g x) := by
  grind [issueNext, canon_iff, canon_resumeIssue, canon_beginIssue, mem_setCtx, mem_fetchWalk, mem_fetchFault]

theorem next_execBundleIssue (g x : Nat) (s : State) (hs : Canon s) : Next Canon (execBundleIssue g x s) := by
  grind [execBundleIssue, next_iff, State.canon_issueNext]

@[simp] theorem State.mem_settleFails (s : State) (pa : Nat) : (s.settleFails pa).mem = s.mem := by simp [State.settleFails]

theorem State.canon_writeSettled (s : State) (bs : List (Loc × VVal)) (hs : Canon s) : Canon (s.writeSettled bs) := by
  unfold State.writeSettled
  exact Canon.foldl (fun u a hu => by grind [canon_writeBlock]) _ hs

theorem State.canon_settleOne (s : State) (pa name : Nat) (hs : Canon s) : Canon (s.settleOne pa name).1 := by
  grind [settleOne, canon_iff, mem_setFrame, canon_writeSettled, mem_settleFails]

theorem State.canon_settleWhole (s : State) (pa : Nat) (f : Frame) (hs : Canon s) : Canon (s.settleWhole pa f).1 := by
  grind [settleWhole, canon_iff, canon_writeSettled, mem_setFrame, mem_settleFails]

theorem State.canon_settleFrame (s : State) (pa : Nat) (hs : Canon s) : Canon (s.settleFrame pa).1 := by
  unfold State.settleFrame
  refine iteInduction (motive := fun e : State × Nat => Canon e.1) (fun _ => State.canon_settleWhole s pa _ hs) fun _ => ?_
  exact Canon.foldl_fst (op := fun acc n => ((acc.1.settleOne pa n).1, acc.2 + (acc.1.settleOne pa n).2))
    (fun p n hp => State.canon_settleOne p.1 pa n hp) _ hs

theorem State.canon_settleFrames (s : State) (hs : Canon s) : Canon (s.settleFrames).1 := by
  unfold State.settleFrames
  dsimp only
  exact Canon.foldl_fst (fun u a hu => by grind [canon_settleFrame]) _ hs

theorem State.canon_retire (s : State) (hs : Canon s) : Canon (s.retire) := by
  grind [retire, mem_endFrames, canon_finish, canon_endMigrations, canon_settleFrames, canon_iff]

theorem next_execLaunchRetire (s : State) (hs : Canon s) : Next Canon (execLaunchRetire s) := by
  grind [execLaunchRetire, canon_iff, next_iff, State.canon_retire, State.mem_abortStray, State.mem_raise, State.mem_modLaunch]

theorem next_execHandshakeTimeout (port : Nat) (s : State) (hs : Canon s) : Next Canon (execHandshakeTimeout port s) := by
  grind [execHandshakeTimeout, canon_iff, next_iff, State.mem_setPort, State.mem_startReplay]

theorem next_execAckIdleTimer (port : Nat) (s : State) (hs : Canon s) : Next Canon (execAckIdleTimer port s) := by
  grind [execAckIdleTimer, canon_iff, next_iff, State.mem_sendAck]

theorem next_execReplayTimeout (port : Nat) (s : State) (hs : Canon s) : Next Canon (execReplayTimeout port s) := by
  grind [execReplayTimeout, canon_iff, next_iff, State.mem_startReplay]

@[simp] theorem State.mem_ctxFault (s : State) (g x code : Nat) (pc w2 w3 : Word64) : (s.ctxFault g x code pc w2 w3).mem = s.mem := rfl

@[simp] theorem State.mem_overrun (s : State) (g x : Nat) (pc : Word64) : (s.overrun g x pc).mem = s.mem := rfl

theorem next_execScheduleDue (g x : Nat) (s : State) (hs : Canon s) : Next Canon (execScheduleDue g x s) := by
  grind [execScheduleDue, canon_iff, next_iff, State.canon_issueNext, State.mem_overrun, State.mem_modCore]

@[simp] theorem State.mem_matFault (s : State) (g : Nat) (o : MatOp) (code : Nat) (w2 w3 w4 : Word64) : (s.matFault g o code w2 w3 w4).mem = s.mem := by
  unfold State.matFault
  split <;> simp

theorem State.canon_startFault (s : State) (g : Nat) (o : MatOp) {t : State} (hs : Canon s) (ht : s.startFault g o = some t) : Canon t := by
  grind [startFault, canon_iff, mem_matFault, mem_takeFree]

theorem next_execMatrixOpStart (g : Nat) (s : State) (hs : Canon s) : Next Canon (execMatrixOpStart g s) := by
  unfold execMatrixOpStart
  grind [next_iff, canon_iff, State.canon_startFault, State.mem_matFault, State.mem_deferLeave, State.mem_setCore, State.mem_holdLeave]

theorem next_execDrainStart (g : Nat) (s : State) (hs : Canon s) : Next Canon (execDrainStart g s) := by
  grind [execDrainStart, canon_iff, next_iff, State.mem_setCore]

theorem next_execPreemptionTimeout (g x : Nat) (s : State) (hs : Canon s) : Next Canon (execPreemptionTimeout g x s) := by
  grind [execPreemptionTimeout, canon_iff, next_iff, State.mem_ctxFault]

theorem next_execCkptmaxOverrun (g x : Nat) (s : State) (hs : Canon s) : Next Canon (execCkptmaxOverrun g x s) := by
  grind [execCkptmaxOverrun, canon_iff, next_iff, State.mem_overrun]

theorem next_execScOrderPoint (g : Nat) (s : State) (hs : Canon s) : Next Canon (execScOrderPoint g s) := by
  grind [execScOrderPoint, canon_iff, next_iff, State.canon_wake, State.mem_modCore]

theorem next_execSelectorQuantum (g : Nat) (s : State) (hs : Canon s) : Next Canon (execSelectorQuantum g s) := by
  grind [execSelectorQuantum, canon_iff, next_iff, State.mem_modCore]

theorem next_execClassRunExpiry (g : Nat) (s : State) (hs : Canon s) : Next Canon (execClassRunExpiry g s) := by
  grind [execClassRunExpiry, canon_iff, next_iff, State.mem_classRecord, State.mem_modCore]

theorem next_execLeaveRelease (g : Nat) (s : State) (hs : Canon s) : Next Canon (execLeaveRelease g s) := by
  grind [execLeaveRelease, canon_iff, next_iff, State.mem_setCore, State.mem_dropLeave]

theorem State.canon_taskDrain (s : State) (g : Nat) (t : Task) (hs : Canon s) : Canon (s.taskDrain g t).1 := by
  unfold State.taskDrain
  dsimp only
  exact Canon.foldl_fst (fun u a hu => by grind [canon_writeBlock]) _ hs

theorem State.canon_mapTile (s : State) (g t : Nat) (f : Nat → Nat → Nat → Nat × BitVec 6) (hs : Canon s) : Canon (s.mapTile g t f).1 := by
  unfold State.mapTile
  dsimp only [Canon]
  generalize tileCells.map _ = l
  exact foldl_putBytesAt_wf l s.mem hs

theorem State.canon_multiply (s : State) (g : Nat) (o : MatOp) (hs : Canon s) : Canon (s.multiply g o) :=
  (State.canon_mapTile s g o.acc _ hs).of_mem (State.mem_modCore ..)

theorem ends_taskFill (s : State) (g : Nat) (t : Task) (n va : Nat) (hs : Canon s) : Ends Canon (s.taskFill g t n va) := by
  grind [State.taskFill, canon_iff, ends_error, State.mem_taskFault, ends_ok, State.mem_modCore]

theorem ends_taskSteps {s : State} (hs : Canon s) (g : Nat) (t : Task) (k n : Nat) : Ends Canon (s.taskSteps g t k n) := by
  induction n generalizing s k with
  | zero => exact ends_ok.2 hs
  | succ n ih =>
    have h1 := ends_taskFill s g t (124 + k % 2) ((t.word 2).toNat + 2048 * k) hs
    refine ends_bind.2 ⟨h1.errs, fun u hu => ?_⟩
    have h2 := ends_taskFill u g t (126 + k % 2) ((t.word 3).toNat + 2048 * k) (h1.of_ok hu)
    refine ends_bind.2 ⟨h2.errs, fun v hv => ?_⟩
    split
    next w hw => exact ends_error.2 (State.canon_startFault v g _ (h2.of_ok hv) hw)
    next => exact ih (State.canon_multiply _ g _ ((h2.of_ok hv).of_mem (State.mem_modCore ..))) _

theorem next_execTaskComplete (cluster g : Nat) (s : State) (hs : Canon s) : Next Canon (execTaskComplete cluster g s) := by
  unfold execTaskComplete
  split
  next => exact next_iff.2 hs
  next q t _ =>
    split
    · exact next_iff.2 hs
    · refine next_engineNext (ends_bind.2 ⟨?_, fun u hu => ends_ok.2 ?_⟩)
      · split
        · exact errs_ok _
        · exact errs_error.2 hs
      · have h0 : Canon u := by
          split at hu
          next v hv =>
            cases hu
            exact (ends_taskSteps hs g t 0 t.kt).of_ok hv
          next => cases hu
        have h1 : Canon (u.taskDrain g t).1 := State.canon_taskDrain u g t h0
        have h2 (n : Nat) : Canon (match t.home with | some e => (u.taskDrain g t).1.putState e n | none => (u.taskDrain g t).1) := by
          split
          · exact State.canon_putState _ _ _ h1
          · exact h1
        have h3 {v : State} (hv : Canon v) (p : Prop) [Decidable p] (m : Nat) : Canon (if p then v.resetTile g taskTile m else v) :=
          Canon.ite (State.canon_resetTile hv ..) hv
        have h4 {v : State} (hv : Canon v) (p : Prop) [Decidable p] (n m : Nat) (f : FaultRec) : Canon (if p then v.arrive n m f else v) :=
          Canon.ite (State.canon_arrive v n m f hv) hv
        refine h4 ?_ _ _ _ _
        exact (h3 (h2 _) _ _).of_mem ((State.mem_modCore ..).trans ((State.mem_dropLeave ..).trans (State.mem_modCluster ..)))

@[simp] theorem State.mem_drainPane (s : State) (g : Nat) (d : Drain) (a : Word64) (pa : Nat) : (s.drainPane g d a pa).1.mem = s.mem := by
  grind [drainPane, List.find?_eq_none, mem_changeFrame]

@[simp] theorem State.mem_drainSlot (s : State) (g : Nat) (d : Drain) (n : Nat) : (s.drainSlot g d n).1.mem = s.mem := by
  unfold State.drainSlot
  split <;> simp

theorem State.canon_drainMem (s : State) (g : Nat) (d : Drain) (a : Word64) (hs : Canon s) : Canon (s.drainMem g d a).1 := by
  unfold State.drainMem
  dsimp only
  exact Canon.foldl_fst (fun u a hu => by grind [canon_writeBlock]) _ hs

theorem State.canon_drainWrite (s : State) (g : Nat) (d : Drain) (hs : Canon s) : Canon (s.drainWrite g d).1 := by
  grind [drainWrite, canon_iff, canon_drainMem, mem_drainSlot, mem_drainPane]

theorem next_execDrainComplete (g : Nat) (s : State) (hs : Canon s) : Next Canon (execDrainComplete g s) := by
  grind [execDrainComplete, next_iff, State.mem_modCore, canon_iff, State.canon_resetTile, State.mem_modCtx, State.canon_drainWrite]

@[simp] theorem State.mem_countTern (s : State) (g : Nat) (o : MatOp) : (s.countTern g o).mem = s.mem := by
  unfold State.countTern
  split <;> simp

theorem next_execMatrixOpComplete (g : Nat) (s : State) (hs : Canon s) : Next Canon (execMatrixOpComplete g s) := by
  grind [execMatrixOpComplete, canon_iff, next_iff, State.mem_modCore, State.mem_countTern, State.canon_multiply]

theorem next_execLandingDelivery (g : Nat) (s : State) (hs : Canon s) : Next Canon (execLandingDelivery g s) := by
  grind [execLandingDelivery, canon_iff, next_iff, State.mem_setCore]

@[simp] theorem State.mem_pickUp (s : State) (cl n : Nat) (r : QRec) (g x : Nat) : (s.pickUp cl n r g x).mem = s.mem := rfl

theorem next_execPickup (cluster : Nat) (s : State) (hs : Canon s) : Next Canon (execPickup cluster s) := by
  grind [execPickup, canon_iff, next_iff, State.mem_pickUp, State.mem_raise]

theorem next_execPriorityAging (cluster : Nat) (s : State) (hs : Canon s) : Next Canon (execPriorityAging cluster s) := by
  grind [execPriorityAging, canon_iff, next_iff, State.mem_modCluster]

theorem next_execPagerRecordEnqueue (cluster slot : Nat) (s : State) (hs : Canon s) : Next Canon (execPagerRecordEnqueue cluster slot s) := by
  grind [execPagerRecordEnqueue, canon_iff, next_iff, State.mem_setCluster]

theorem State.canon_stallForLog (s : State) (hs : Canon s) : Canon (s.stallForLog) := by grind [stallForLog, canon_iff, mem_modLaunch]

theorem next_execFrameEnd (s : State) (hs : Canon s) : Next Canon (execFrameEnd s) := by
  grind [execFrameEnd, canon_iff, next_iff, State.mem_endFrame, State.canon_stallForLog]

@[simp] theorem State.mem_startAll (s : State) (vec : List Word64) : (s.startAll vec).mem = s.mem := by
  unfold State.startAll
  exact State.mem_foldl (fun u e => by split <;> simp) _ s

theorem State.canon_begin (s : State) (ws : List Word64) (pa : Nat) (hs : Canon s) : Canon (s.begin ws pa) := by
  grind [begin, canon_iff, canon_clearLaunch]

@[simp] theorem State.mem_seed (s : State) (ws : List Word64) : (s.seed ws).mem = s.mem := by
  unfold State.seed
  split <;> simp

@[simp] theorem State.mem_applyNext (s : State) : (s.applyNext).mem = s.mem := rfl

theorem State.canon_startLaunch (s : State) (hs : Canon s) : Canon (s.startLaunch) := by
  grind [startLaunch, canon_iff, canon_writePhys, canon_begin, mem_seed, mem_applyNext, mem_raise, mem_takeFree, mem_startAll]

theorem next_execLaunchStart (s : State) (hs : Canon s) : Next Canon (execLaunchStart s) := by
  grind [execLaunchStart, next_iff, State.canon_startLaunch]

@[simp] theorem State.mem_digestBlocks (s : State) (q : Nat) (vs : List VVal) : (s.digestBlocks q vs).mem = s.mem := by
  unfold State.digestBlocks
  split <;> simp

theorem State.canon_applyWrite (s : State) (q : Nat) (p : Packet) (hs : Canon s) : Canon (s.applyWrite q p).1 := by
  unfold State.applyWrite
  split
  · exact hs
  · exact Canon.of_mem (Canon.foldl (fun u e hu => State.canon_writeBlock1 hu _ _) _ hs) (State.mem_digestBlocks ..)

theorem State.canon_collArrive (s : State) (q : Nat) (p : Packet) {t : State} (hs : Canon s) (ht : s.collArrive q p = some t) : Canon t := by
  unfold State.collArrive at ht
  grind [canon_iff, mem_digestBlocks, ends_collTake, Ends.of_ok, ends_error, mem_setColl]

theorem State.canon_copyOut (s : State) (key pa n : Nat) (hs : Canon s) : Canon (s.copyOut key pa n) :=
  Canon.foldl (fun _ _ hu => Canon.putBytes hu ..) _ hs

@[simp] theorem State.mem_endLogFreeze (s : State) (g : Nat) : (s.endLogFreeze g).mem = s.mem := by
  unfold State.endLogFreeze
  dsimp only
  split_ifs <;> simp

@[simp] theorem State.mem_endStall (s : State) : (s.endStall).mem = s.mem := by grind [endStall, mem_modLaunch, mem_annotate]

theorem State.canon_firmware (s : State) (badStacks badPorts : BitVec 12) (hs : Canon s) : Canon (s.firmware badStacks badPorts) := by
  unfold State.firmware
  split
  · exact hs
  · exact Canon.foldl (fun u q hu => hu.of_mem (State.mem_setPort ..)) _ (Canon.filter hs _)

theorem State.canon_flushLog (s : State) (hs : Canon s) : Canon s.flushLog := by
  unfold State.flushLog
  exact Canon.foldl (fun u e hu => hu.of_mem (State.mem_endLogFreeze u e.1)) _ (State.canon_writeWaiting hs false s.waitingRecords)

theorem State.canon_glazeDone (s : State) (pa : Nat) (hs : Canon s) : Canon (s.glazeDone pa) := by
  grind [glazeDone, canon_iff, mem_setFrame, mem_modCtx, mem_modCore, canon_resumeIssue]

@[simp] theorem State.mem_latched (s : State) (n : Nat) (w : SlotWord) (rest : List (Nat × SlotWord)) : (s.latched n w rest).mem = s.mem := rfl

@[simp] theorem State.mem_limitWrite (s : State) (n : Nat) (v : Word64) : (s.limitWrite n v).mem = s.mem := rfl

@[simp] theorem State.mem_logSample (s : State) (island : Nat) : (s.logSample island).mem = s.mem := by simp [State.logSample]

@[simp] theorem State.mem_loseWire (s : State) (q : Nat) : (s.loseWire q).mem = s.mem := rfl

@[simp] theorem State.mem_miscWrite (s : State) (off : Nat) (v : Word64) : (s.miscWrite off v).mem = s.mem := by
  unfold State.miscWrite
  split_ifs <;> simp

@[simp] theorem State.mem_portWrite (s : State) (q r : Nat) (v : Word64) : (s.portWrite q r v).mem = s.mem := by
  unfold State.portWrite
  split <;> simp

@[simp] theorem State.mem_serveKnocks (s : State) (g : Nat) : (s.serveKnocks g).mem = s.mem := by
  unfold State.serveKnocks
  exact State.mem_foldl (fun _ _ => by simp) _ _

@[simp] theorem State.mem_rejoinCluster (s : State) (now n : Nat) (c : Cluster) : (s.rejoinCluster now n c).mem = s.mem := rfl

theorem State.canon_rejoinMemory (s : State) (m : SaveImage) (hs : Canon s) : Canon (s.rejoinMemory m) :=
  Canon.foldl (fun _ _ hu => State.canon_copyOut _ _ _ _ hu) _ (Canon.foldl (fun _ _ hu => State.canon_copyOut _ _ _ _ hu) _ hs)

@[simp] theorem State.mem_rejoinDigests (s : State) (m : SaveImage) : (s.rejoinDigests m).mem = s.mem := by
  unfold State.rejoinDigests
  exact State.mem_foldl (fun _ _ => by simp) _ _

@[simp] theorem State.mem_rejoinFrames (s : State) (m : SaveImage) : (s.rejoinFrames m).mem = s.mem := by
  unfold State.rejoinFrames
  exact State.mem_foldl (fun _ _ => by simp) _ _

theorem State.canon_resumeImage (s : State) (pa : Nat) (m : SaveImage) (hs : Canon s) : Canon (s.resumeImage pa m) := by
  have h0 : Canon (((s.applyNext.clearLaunch.rejoinMemory m).rejoinDigests m).rejoinFrames m) :=
    Canon.of_mem (State.canon_rejoinMemory _ m (State.canon_clearLaunch _ (hs.of_mem (State.mem_applyNext s)))) (by simp)
  have h1 := Canon.foldl (fun (u : State) (e : Nat × Cluster) hu => Canon.of_mem hu (State.mem_rejoinCluster u m.cycle e.1 e.2)) m.device.clusters h0
  refine Canon.of_mem (Canon.foldl (fun (u : State) (e : Nat × Core) hu => Canon.of_mem hu (State.mem_serveKnocks u e.1)) m.cores ?_)
    (State.mem_annotate ..)
  exact h1

theorem State.canon_resumeFails (s : State) (pa : Nat) (hs : Canon s) : Canon (s.resumeFails pa) := by
  have hp {u : State} (hu : Canon u) (p : PState) : Canon { u with pstate := p } := hu
  exact hp (State.canon_putWords (hs.of_mem (State.mem_errorLog ..)) _ _) _

theorem State.canon_presWrite (s : State) (v : Word64) (hs : Canon s) : Canon (s.presWrite v) := by
  grind [presWrite, canon_iff, mem_lose, canon_resumeFails, canon_resumeImage]

@[simp] theorem State.mem_stopWaiting (s : State) (g x : Nat) : (s.stopWaiting g x).mem = s.mem := by
  unfold State.stopWaiting
  split <;> simp

@[simp] theorem State.mem_requestSave (s : State) (pa : Nat) : (s.requestSave pa).mem = s.mem := by
  unfold State.requestSave
  simp only
  (repeat' split) <;> simp [State.mem_foldl]

theorem State.canon_psaveWrite (s : State) (v : Word64) (hs : Canon s) : Canon (s.psaveWrite v) := by
  grind [psaveWrite, canon_iff, mem_lose, canon_endSave, mem_requestSave]

@[simp] theorem State.mem_queueWrite (s : State) (off : Nat) (v : Word64) : (s.queueWrite off v).mem = s.mem := by
  unfold State.queueWrite
  grind []

theorem State.canon_railReset (s : State) (hs : Canon s) : Canon s.railReset := filter_wf hs _

@[simp] theorem State.mem_retrain (s : State) (q lane : Nat) : (s.retrain q lane).mem = s.mem := by
  unfold State.retrain
  dsimp only
  split_ifs <;> simp

@[simp] theorem State.mem_tableWrite (s : State) (off : Nat) (v : Word64) : (s.tableWrite off v).mem = s.mem := by
  unfold State.tableWrite
  split_ifs <;> simp

theorem next_execPeerEndDown (port : Nat) (s : State) (hs : Canon s) : Next Canon (execPeerEndDown port s) := by
  grind [execPeerEndDown, canon_iff, next_iff, State.mem_portGoesDown]

theorem next_execDeviceRegisterWrite (addr : Nat) (v : Word64) (s : State) (hs : Canon s) : Next Canon (execDeviceRegisterWrite addr v s) := by
  unfold execDeviceRegisterWrite
  dsimp only
  split_ifs
  · exact next_iff.2 hs
  · exact next_iff.2 (hs.of_mem (State.mem_queueWrite ..))
  · exact next_iff.2 (hs.of_mem (State.mem_portWrite ..))
  · exact next_iff.2 (hs.of_mem (State.mem_limitWrite ..))
  · exact next_iff.2 (hs.of_mem (State.mem_miscWrite ..))

theorem next_execGeoTableWrite (addr : Nat) (v : Word64) (s : State) (hs : Canon s) : Next Canon (execGeoTableWrite addr v s) := by
  grind [execGeoTableWrite, canon_iff, next_iff, State.mem_tableWrite]

theorem next_execLogrd (v : Word64) (s : State) (hs : Canon s) : Next Canon (execLogrd v s) := by
  grind [execLogrd, canon_iff, next_iff, State.mem_endStall, State.canon_flushLog]

theorem next_execAtreq (v : Word64) (s : State) (hs : Canon s) : Next Canon (execAtreq v s) := by
  unfold execAtreq
  refine next_iff.2 ?_
  split_ifs <;> exact hs

theorem next_execGlzdone (v : Word64) (s : State) (hs : Canon s) : Next Canon (execGlzdone v s) := by
  grind [execGlzdone, next_iff, State.canon_glazeDone]

theorem next_execPres (v : Word64) (s : State) (hs : Canon s) : Next Canon (execPres v s) := by grind [execPres, next_iff, State.canon_presWrite]

theorem next_execPsaveFinish (v : Word64) (s : State) (hs : Canon s) : Next Canon (execPsaveFinish v s) := by
  grind [execPsaveFinish, next_iff, State.canon_psaveWrite]

theorem next_execPsave (v : Word64) (s : State) (hs : Canon s) : Next Canon (execPsave v s) := by
  grind [execPsave, next_iff, State.canon_psaveWrite]

theorem next_execPghostFail (v : Word64) (s : State) (hs : Canon s) : Next Canon (execPghostFail v s) := by
  grind [execPghostFail, canon_iff, next_iff, State.mem_raise]

theorem next_execPghost (v : Word64) (s : State) (hs : Canon s) : Next Canon (execPghost v s) := by
  grind [execPghost, canon_iff, next_iff, State.mem_closeFault]

theorem next_execLaunchRegister (v : Word64) (s : State) (hs : Canon s) : Next Canon (execLaunchRegister v s) := by
  grind [execLaunchRegister, canon_iff, next_iff, State.mem_svecWrite]

theorem next_execAbortPacket (port : Nat) (p : Packet) (s : State) (hs : Canon s) : Next Canon (execAbortPacket port p s) :=
  next_iff.2 (State.canon_receive hs port p 6 fun u v b hu hv => by cases hv; exact hu.of_mem (State.mem_launchFault ..))

theorem next_execCollectiveData (port : Nat) (p : Packet) (s : State) (hs : Canon s) : Next Canon (execCollectiveData port p s) := by
  refine next_iff.2 (State.canon_receive hs port p 5 fun u v b hu hv => ?_)
  obtain ⟨w, hw, he⟩ := Option.map_eq_some_iff.1 hv
  cases he
  exact State.canon_collArrive u port p hu hw

theorem next_execReadResponse (port : Nat) (p : Packet) (s : State) (hs : Canon s) : Next Canon (execReadResponse port p s) :=
  next_iff.2 (State.canon_receive hs port p 3 fun u v b hu hv => by cases hv; exact hu)

theorem next_execInboundReadRequest (port : Nat) (p : Packet) (s : State) (hs : Canon s) : Next Canon (execInboundReadRequest port p s) :=
  next_iff.2 (State.canon_receive hs port p 2 fun u v b hu hv => by cases hv; exact hu.of_mem (State.mem_enqueue ..))

theorem next_execInboundWrite (port : Nat) (p : Packet) (s : State) (hs : Canon s) : Next Canon (execInboundWrite port p s) := by
  refine next_iff.2 (State.canon_receive hs port p 1 fun u v b hu hv => ?_)
  have h := State.canon_applyWrite u port p hu
  rwa [Option.some.inj hv] at h

theorem next_execAckOnlyPacket (port : Nat) (p : Packet) (s : State) (hs : Canon s) : Next Canon (execAckOnlyPacket port p s) :=
  next_iff.2 (State.canon_receive hs port p 0 fun u v b hu hv => by cases hv; exact hu)

theorem next_execLaneFail (port lane : Nat) (s : State) (hs : Canon s) : Next Canon (execLaneFail port lane s) := by
  grind [execLaneFail, canon_iff, next_iff, State.mem_setPort, State.mem_retrain, State.mem_portGoesDown, State.mem_loseWire]

theorem next_execRailFault (s : State) (hs : Canon s) : Next Canon (execRailFault s) := by grind [execRailFault, next_iff, State.canon_railReset]

theorem next_execPowerOn (badStacks badPorts : BitVec 12) (signatureOk : Bool) (s : State) (hs : Canon s) : Next Canon (execPowerOn badStacks
    badPorts signatureOk s) := by
  grind [execPowerOn, canon_iff, next_iff, State.canon_firmware, State.mem_setPort]

theorem next_execScrub (stack channel offset : Nat) (finding : EccFinding) (s : State) (hs : Canon s) : Next Canon (execScrub stack channel offset
    finding s) := by
  grind [execScrub, canon_iff, next_iff, State.mem_countCorrected, State.mem_annotate, State.mem_takeFree, State.canon_writeBlock1,
    State.mem_errorLog]

theorem next_execDroopSample (island : Nat) (s : State) (hs : Canon s) : Next Canon (execDroopSample island s) := by
  grind [execDroopSample, canon_iff, next_iff, State.mem_modCluster, State.mem_logSample]

end Sys2Proof.Machine
end

