-- ==== Sys2Proof/Proofs/Steps.lean ====
section
/-! Every step keeps the canonical form of memory, and goes on (R55 to R58, R366). -/

namespace Sys2Proof.Machine

/-! ### The instructions and events keep the canonical form -/

/-- An event is no instruction of a slot. -/
theorem event_canon {s : State} (hs : Canon s) {i : Instr} (he : (encode i).isSome = false) : Next Canon (exec i s) := by
  cases i
  case bundleIssue g x => exact next_execBundleIssue g x s hs
  case resultDelivery g x => exact next_execResultDelivery g x s hs
  case waiterRetry who => exact next_execWaiterRetry who s hs
  case pagerRecordEnqueue cluster slot => exact next_execPagerRecordEnqueue cluster slot s hs
  case walkComplete who => exact next_execWalkComplete who s hs
  case landingDelivery g => exact next_execLandingDelivery g s hs
  case lateDataArrival g => exact next_execLateDataArrival g s hs
  case engineWaitEnd g x => exact next_execEngineWaitEnd g x s hs
  case scOrderPoint g => exact next_execScOrderPoint g s hs
  case channelRecordRead g c => exact next_execChannelRecordRead g c s hs
  case sectorComplete g c => exact next_execSectorComplete g c s hs
  case recordCompletion g c => exact next_execRecordCompletion g c s hs
  case knockDelivery k => exact next_execKnockDelivery k s hs
  case oloadFillComplete g slot => exact next_execOloadFillComplete g slot s hs
  case matrixOpStart g => exact next_execMatrixOpStart g s hs
  case matrixOpComplete g => exact next_execMatrixOpComplete g s hs
  case drainStart g => exact next_execDrainStart g s hs
  case drainComplete g => exact next_execDrainComplete g s hs
  case leaveGrant island => exact next_execLeaveGrant island s hs
  case leaveRelease g => exact next_execLeaveRelease g s hs
  case classRunExpiry g => exact next_execClassRunExpiry g s hs
  case taskDispatch cluster queue => exact next_execTaskDispatch cluster queue s hs
  case taskRunStart cluster g => exact next_execTaskRunStart cluster g s hs
  case taskComplete cluster g => exact next_execTaskComplete cluster g s hs
  case collSignal die => exact next_execCollSignal die s hs
  case collStart die => exact next_execCollStart die s hs
  case collComplete die => exact next_execCollComplete die s hs
  case restripeCutover page => exact next_execRestripeCutover page s hs
  case restripeStable page => exact next_execRestripeStable page s hs
  case pickup cluster => exact next_execPickup cluster s hs
  case priorityAging cluster => exact next_execPriorityAging cluster s hs
  case selectorQuantum g => exact next_execSelectorQuantum g s hs
  case scheduleDue g x => exact next_execScheduleDue g x s hs
  case ckptmaxOverrun g x => exact next_execCkptmaxOverrun g x s hs
  case preemptionTimeout g x => exact next_execPreemptionTimeout g x s hs
  case frameEnd => exact next_execFrameEnd s hs
  case droopSample island => exact next_execDroopSample island s hs
  case scrub stack channel offset finding => exact next_execScrub stack channel offset finding s hs
  case launchStart => exact next_execLaunchStart s hs
  case launchRetire => exact next_execLaunchRetire s hs
  case shutter => exact next_execShutter s hs
  case preemptSave => exact next_execPreemptSave s hs
  case powerOn badStacks badPorts signatureOk => exact next_execPowerOn badStacks badPorts signatureOk s hs
  case railFault => exact next_execRailFault s hs
  case laneFail port lane => exact next_execLaneFail port lane s hs
  case retrainComplete port => exact next_execRetrainComplete port s hs
  case handshakeTimeout port => exact next_execHandshakeTimeout port s hs
  case packetSend port => exact next_execPacketSend port s hs
  case ackOnlyPacket port p => exact next_execAckOnlyPacket port p s hs
  case inboundWrite port p => exact next_execInboundWrite port p s hs
  case inboundReadRequest port p => exact next_execInboundReadRequest port p s hs
  case readResponse port p => exact next_execReadResponse port p s hs
  case collectiveData port p => exact next_execCollectiveData port p s hs
  case abortPacket port p => exact next_execAbortPacket port p s hs
  case replayTimeout port => exact next_execReplayTimeout port s hs
  case ackIdleTimer port => exact next_execAckIdleTimer port s hs
  case launchRegister v => exact next_execLaunchRegister v s hs
  case pghost v => exact next_execPghost v s hs
  case pghostFail v => exact next_execPghostFail v s hs
  case psave v => exact next_execPsave v s hs
  case psaveFinish v => exact next_execPsaveFinish v s hs
  case pres v => exact next_execPres v s hs
  case glzdone v => exact next_execGlzdone v s hs
  case atreq v => exact next_execAtreq v s hs
  case attestReportDone => exact next_execAttestReportDone s hs
  case logrd v => exact next_execLogrd v s hs
  case geoTableWrite addr v => exact next_execGeoTableWrite addr v s hs
  case deviceRegisterWrite addr v => exact next_execDeviceRegisterWrite addr v s hs
  case peerEndDown port => exact next_execPeerEndDown port s hs
  all_goals cases he

theorem ccancel_canon {s : State} (hs : Canon s) (m : BitVec 4) : Next Canon (exec (.ccancel m) s) := by
  refine next_slotDone (P := Canon) (fun t ht => ht.of_mem (congrArg Prod.fst (State.kept_commitSlot t false))) (ends_ok.2 ?_)
  exact Canon.foldl (fun u c hu => State.canon_cancelChan hu ..) _ hs

theorem exec_canon {s : State} (hs : Canon s) (i : Instr) : Next Canon (exec i s) := by
  cases he : (encode i).isSome with
  | false => exact event_canon hs he
  | true =>
    cases hm : mayStore i with
    | false =>
      intro t ht
      exact hs.of_mem (instructionsThatStoreNothing i s t he hm ht).1
    | true =>
      by_cases hc : ∃ m, i = .ccancel m
      · obtain ⟨m, rfl⟩ := hc
        exact ccancel_canon hs m
      · exact (exec_sound hs.sound hm fun m hi => hc ⟨m, hi⟩).mono fun t ht => ht.canon

/-! ### The events of a step -/

/-- An event that a step may choose: one of the instruction type, or a corrected error. -/
def Chosen (e : Event) : Prop := e = State.readError ∨ ∃ i, e = exec i

theorem mem_may {c : Bool} {e e' : Event} : e' ∈ may c e ↔ c = true ∧ e' = e := by
  unfold may
  split <;> simp_all

section
variable (s : State)

theorem chosen_ctxEvents (g x : Nat) : ∀ e ∈ s.ctxEvents g x, Chosen e := by
  intro e he
  simp only [State.ctxEvents, List.mem_append, mem_may] at he
  obtain ((⟨-, rfl⟩ | ⟨-, rfl⟩) | ⟨-, rfl⟩) | ⟨-, rfl⟩ := he
  · exact .inr ⟨.bundleIssue g x, rfl⟩
  · exact .inr ⟨.resultDelivery g x, rfl⟩
  · exact .inr ⟨.engineWaitEnd g x, rfl⟩
  · exact .inr ⟨.walkComplete (.ctx g x), rfl⟩

theorem chosen_chanEvents (g n : Nat) : ∀ e ∈ s.chanEvents g n, Chosen e := by
  intro e he
  simp only [State.chanEvents] at he
  split at he
  · cases he
  · simp only [List.mem_append, mem_may] at he
    obtain ((⟨-, rfl⟩ | ⟨-, rfl⟩) | ⟨-, rfl⟩) | ⟨-, rfl⟩ := he
    · exact .inr ⟨.walkComplete (.chan g n), rfl⟩
    · exact .inr ⟨.channelRecordRead g n, rfl⟩
    · exact .inr ⟨.sectorComplete g n, rfl⟩
    · exact .inr ⟨.recordCompletion g n, rfl⟩

theorem chosen_coreEvents (g : Nat) : ∀ e ∈ s.coreEvents g, Chosen e := by
  intro e he
  simp only [State.coreEvents, List.mem_append, List.mem_flatMap, mem_may] at he
  obtain (((⟨x, -, hx⟩ | ⟨n, -, hn⟩) | ⟨-, rfl⟩) | ⟨n, -, -, rfl⟩) | ⟨-, rfl⟩ := he
  · exact chosen_ctxEvents s g x e hx
  · exact chosen_chanEvents s g n e hn
  · exact .inr ⟨.lateDataArrival g, rfl⟩
  · exact .inr ⟨.oloadFillComplete g n.1, rfl⟩
  · exact .inr ⟨.taskRunStart (clusterOf g) g, rfl⟩

theorem chosen_clusterEvents (cl : Nat) : ∀ e ∈ s.clusterEvents cl, Chosen e := by
  intro e he
  simp only [State.clusterEvents, List.mem_append, List.mem_flatMap, List.mem_map, mem_may] at he
  obtain (⟨-, rfl⟩ | ⟨w, -, rfl⟩) | ⟨q, -, -, rfl⟩ := he
  · exact .inr ⟨.leaveGrant cl, rfl⟩
  · exact .inr ⟨.waiterRetry w, rfl⟩
  · exact .inr ⟨.taskDispatch cl q, rfl⟩

theorem chosen_dieEvents (d : Nat) : ∀ e ∈ s.dieEvents d, Chosen e := by
  intro e he
  simp only [State.dieEvents, List.mem_append, mem_may] at he
  obtain (⟨-, rfl⟩ | ⟨-, rfl⟩) | ⟨-, rfl⟩ := he
  · exact .inr ⟨.collSignal d, rfl⟩
  · exact .inr ⟨.collStart d, rfl⟩
  · exact .inr ⟨.collComplete d, rfl⟩

theorem chosen_migrationEvents (m : Migration) : ∀ e ∈ s.migrationEvents m, Chosen e := by
  intro e he
  simp only [State.migrationEvents, List.mem_append, mem_may] at he
  obtain ⟨-, rfl⟩ | ⟨-, rfl⟩ := he
  · exact .inr ⟨.restripeCutover m.va, rfl⟩
  · exact .inr ⟨.restripeStable m.va, rfl⟩

theorem chosen_portEvents (q : Nat) : ∀ e ∈ s.portEvents q, Chosen e := by
  intro e he
  simp only [State.portEvents, List.mem_append, mem_may] at he
  obtain ⟨-, rfl⟩ | ⟨-, rfl⟩ := he
  · exact .inr ⟨.packetSend q, rfl⟩
  · exact .inr ⟨.retrainComplete q, rfl⟩

theorem chosen_possible : ∀ e ∈ s.possible, Chosen e := by
  intro e he
  simp only [State.possible, List.mem_append, List.mem_flatMap, List.mem_map, mem_may] at he
  obtain (((((((⟨g, -, h⟩ | ⟨cl, -, h⟩) | ⟨d, -, h⟩) | ⟨m, -, h⟩) | ⟨q, -, h⟩) | ⟨k, -, rfl⟩) | ⟨-, rfl⟩) | ⟨-, rfl⟩) | ⟨-, rfl⟩ := he
  · exact chosen_coreEvents s _ e h
  · exact chosen_clusterEvents s _ e h
  · exact chosen_dieEvents s d e h
  · exact chosen_migrationEvents s m e h
  · exact chosen_portEvents s _ e h
  · exact .inr ⟨.knockDelivery (.own k.1 k.2.kpc k.2.karg k.2.dst), rfl⟩
  · exact .inr ⟨.preemptSave, rfl⟩
  · exact .inr ⟨.attestReportDone, rfl⟩
  · exact .inl rfl

theorem chosen_clusterTimed (cl : Nat) : ∀ e ∈ s.clusterTimed cl, Chosen e := by
  intro e he
  simp only [State.clusterTimed, List.mem_append, mem_may] at he
  obtain (h | ⟨-, rfl⟩) | ⟨-, rfl⟩ := he
  · split at h
    next n _ =>
      cases List.mem_singleton.1 h
      exact .inr ⟨.pagerRecordEnqueue cl n, rfl⟩
    next => cases h
  · exact .inr ⟨.priorityAging cl, rfl⟩
  · exact .inr ⟨.pickup cl, rfl⟩

theorem chosen_portTimed (q : Nat) : ∀ e ∈ s.portTimed q, Chosen e := by
  intro e he
  simp only [State.portTimed, List.mem_append, mem_may] at he
  obtain ((⟨-, rfl⟩ | ⟨-, rfl⟩) | ⟨-, rfl⟩) | ⟨-, rfl⟩ := he
  · exact .inr ⟨.replayTimeout q, rfl⟩
  · exact .inr ⟨.ackIdleTimer q, rfl⟩
  · exact .inr ⟨.handshakeTimeout q, rfl⟩
  · exact .inr ⟨.retrainComplete q, rfl⟩

/-- The events of a core's engines and timers that are due. -/
theorem chosen_coreTimed (g : Nat) : ∀ e ∈ s.coreTimed g, Chosen e := by
  intro e he
  simp only [State.coreTimed, List.mem_append, List.mem_flatMap, List.mem_map, mem_may] at he
  obtain ((((((((((((⟨-, rfl⟩ | ⟨n, -, rfl⟩) | ⟨-, rfl⟩) | ⟨-, rfl⟩) | ⟨-, rfl⟩) | ⟨-, rfl⟩) | ⟨-, rfl⟩) | ⟨-, rfl⟩) | ⟨-, rfl⟩) |
    ⟨x, -, ⟨-, rfl⟩ | ⟨-, rfl⟩⟩) | ⟨-, rfl⟩) | ⟨-, rfl⟩) | h) := he
  · exact .inr ⟨.landingDelivery g, rfl⟩
  · exact .inr ⟨.oloadFillComplete g n, rfl⟩
  · exact .inr ⟨.matrixOpComplete g, rfl⟩
  · exact .inr ⟨.drainComplete g, rfl⟩
  · exact .inr ⟨.taskComplete (clusterOf g) g, rfl⟩
  · exact .inr ⟨.leaveRelease g, rfl⟩
  · exact .inr ⟨.classRunExpiry g, rfl⟩
  · exact .inr ⟨.selectorQuantum g, rfl⟩
  · exact .inr ⟨.scOrderPoint g, rfl⟩
  · exact .inr ⟨.ckptmaxOverrun g x, rfl⟩
  · exact .inr ⟨.preemptionTimeout g x, rfl⟩
  · exact .inr ⟨.drainStart g, rfl⟩
  · exact .inr ⟨.matrixOpStart g, rfl⟩
  · split at h
    · simp only [List.mem_flatMap, List.mem_append, mem_may] at h
      obtain ⟨x, -, (⟨-, rfl⟩ | ⟨-, rfl⟩) | ⟨-, rfl⟩⟩ := h
      · exact .inr ⟨.bundleIssue g x, rfl⟩
      · exact .inr ⟨.engineWaitEnd g x, rfl⟩
      · exact .inr ⟨.scheduleDue g x, rfl⟩
    · simp only [List.mem_flatMap, mem_may] at h
      obtain ⟨x, -, -, rfl⟩ := h
      exact .inr ⟨.engineWaitEnd g x, rfl⟩

theorem chosen_demanded : ∀ e ∈ s.demanded, Chosen e := by
  intro e he
  simp only [State.demanded, List.mem_append, List.mem_flatMap, mem_may] at he
  obtain (((((⟨-, rfl⟩ | ⟨-, rfl⟩) | ⟨cl, -, h⟩) | ⟨g, -, h⟩) | ⟨q, -, h⟩) | ⟨-, rfl⟩) | ⟨-, rfl⟩ := he
  · exact .inr ⟨.launchStart, rfl⟩
  · exact .inr ⟨.frameEnd, rfl⟩
  · exact chosen_clusterTimed s _ e h
  · exact chosen_coreTimed s _ e h
  · exact chosen_portTimed s _ e h
  · exact .inr ⟨.launchRetire, rfl⟩
  · exact .inr ⟨.shutter, rfl⟩

end

/-- What is chosen among the events that are due is the outcome of one of them. -/
theorem firstActing_mem {s : State} {es : List Event} {o : Out} (h : firstActing s es = some o) : ∃ e ∈ es, e s = o := by
  induction es with
  | nil => cases h
  | cons e es ih =>
    rw [firstActing] at h
    split at h
    next t ht =>
      split at h
      · obtain ⟨e', he', ho⟩ := ih h
        exact ⟨e', List.mem_cons_of_mem _ he', ho⟩
      · exact ⟨e, List.mem_cons_self, ht.trans (Option.some.inj h)⟩
    next => exact ⟨e, List.mem_cons_self, Option.some.inj h⟩

/-- What happens by itself: an event that is due, an event that may happen, or the end of the cycle. -/
theorem advance_cases (s : State) : (∃ e, Chosen e ∧ s.advance = e s) ∨ (∃ e, Chosen e ∧ s.advance = e { s with pick := s.pick + 1 }) ∨
    s.advance = ({ s with pick := s.pick + 1 } : State).endCycle := by
  unfold State.advance
  split
  next o ho =>
    obtain ⟨e, he, rfl⟩ := firstActing_mem ho
    exact .inl ⟨e, chosen_demanded s e he, rfl⟩
  next =>
    dsimp only
    split
    next e he => exact .inr (.inl ⟨e, chosen_possible s e (List.mem_of_getElem? he), rfl⟩)
    next => exact .inr (.inr rfl)

/-! ### Canonical form -/

theorem chosen_canon {e : Event} (he : Chosen e) {s : State} (hs : Canon s) : Next Canon (e s) := by
  obtain rfl | ⟨i, rfl⟩ := he
  · exact next_readError s hs
  · exact exec_canon hs i

theorem afterSlot_canon {s : State} (hs : Canon s) : Canon s.afterSlot := Canon.ite (State.canon_finishIssue s hs) hs

theorem next_carryOn {P : State → Prop} {o : Out} {f : State → State} (ho : Next P o) (hf : ∀ t, P t → P (f t)) : Next P (carryOn o f) := by
  cases o with
  | next t => exact next_iff.2 (hf t (next_iff.1 ho))
  | fault r => exact fun t ht => by cases ht
  | refused r => exact fun t ht => by cases ht

theorem stepSlot_canon {s : State} (hs : Canon s) (n : Nat) (w : SlotWord) (rest : List (Nat × SlotWord)) : Next Canon (stepSlot n w rest s) := by
  unfold stepSlot
  split
  next i _ =>
    split
    · exact next_iff.2 (afterSlot_canon hs)
    · exact next_carryOn (exec_canon (s := s.latched n w rest) hs i) fun t => afterSlot_canon
  next => exact fun t ht => by cases ht

/-- Settles O50: every slot, every input and everything that happens by itself keeps the canonical form. -/
theorem stepKeepsMemoryCanonical : Obligations.StepKeepsMemoryCanonical := by
  intro s t hs ht
  unfold step at ht
  split at ht
  next n w rest _ => exact stepSlot_canon hs n w rest t ht
  next i rest _ _ => exact exec_canon (s := { s with inputs := rest }) hs i t ht
  next =>
    obtain ⟨e, he, h⟩ | ⟨e, he, h⟩ | h := advance_cases s
    · exact chosen_canon he hs t (h.symm.trans ht)
    · exact chosen_canon he (s := { s with pick := s.pick + 1 }) hs t (h.symm.trans ht)
    · exact next_endCycle { s with pick := s.pick + 1 } hs t (h.symm.trans ht)

end Sys2Proof.Machine
end

