-- ==== Sys2Proof/Proofs/GoesOn.lean ====
section
/-! Nothing stops the machine: every instruction and event has a next state (R366). -/

namespace Sys2Proof.Machine

/-- The outcome is a next state. -/
def Goes (o : Out) : Prop := ∃ t, o = .next t

theorem goes_next (t : State) : Goes (.next t) := ⟨t, rfl⟩

theorem goes_slotDone (x : Except State State) : Goes (slotDone x) := by
  cases x <;> exact ⟨_, rfl⟩

theorem goes_transferDone (x : Except State State) : Goes (transferDone x) := by
  cases x <;> exact ⟨_, rfl⟩

theorem goes_chanNext (x : Except State State) : Goes (chanNext x) := by
  cases x <;> exact ⟨_, rfl⟩

theorem goes_engineNext (x : Except State State) : Goes (engineNext x) := by
  cases x <;> exact ⟨_, rfl⟩

theorem goes_carryOn {o : Out} (ho : Goes o) (f : State → State) : Goes (carryOn o f) := by
  obtain ⟨t, rfl⟩ := ho
  exact goes_next _

/-! ### Slots -/

/-- An instruction of a slot commits, or stops short at a next state. -/
theorem slot_goes {i : Instr} (he : (encode i).isSome = true) (s : State) : Goes (exec i s) := by
  cases i
  case nest | nestR | spawn | chkpt | lscale | lscaleP | ld | st | ldV | stV | ldL | stG | stGBlk | ldD | stD | gath | scat | awrOw | awrAdd |
      axadd | axchg | acas | amin | amax | aand | aor | ald | ast | ldAcq | stRel | ldSc | stSc | fenceR | spill | fill | vadd | vsub | vmul |
      vmin | vmax | vand | vor | vxor | vshl | vshr | vsar | vcmp | vsel | vfadd | vfsub | vfmul | vfma | vfms | vfnma | vfdiv | vfsqrt | vfmin |
      vfmax | vfsgnCopy | vfsgnNeg | vfsgnXor | vfcmp | vfcvt | vfrint | vfclass | vfexp | vfexp2 | vflog | vflog2 | vfsin | vfcos | vftanh |
      vfrcp | vfrsq | vperm | vins | vredAdd | vredMin | vredMax | vdescCopy | vdescSet | vscaleRel | vscaleFit | vpackH2b | vpackW2h | vpackD2w |
      vpackT2 | vunpackB2h | vunpackH2w | vunpackW2d | vunpackT2 | vfxsSplitLo | vfxsSplitHi | vfxsJoin | vmov | mlogFromv | oclaim | ofree |
      oload | oread | mmaFp64 | mmaFloat | mmaKf8 | mmaInt8 | mmas | mmat | aclr | adrain | adrainO | adrainP | await | awaitM | awaitAll | ttask
      | ttaskHost | ttaskUnhost | twait | ostat | chead | cwmkW | qjoin | fbind | fbindU | popenOw | popenAdd | pseal | papply | papplyG | pinv |
      pcomm | pxpl | pglaze | plift | pdrop | psettle | psettleAll | pstatP | pstatF | pstatA | larr | larrN | larrSet | larrRd | lwait | lbaseSet
      | waitany | hset | hwaitData | hwaitRoom | hadvCons | hadvProd | dmodeRev | dmodeFwd | tapeOn | tapeMark | tapeUnmark | coll | pgres |
      pgresFail => exact goes_slotDone _
  case jmp | jmpl | rett => exact goes_transferDone _
  case nop | add | sub | and | or | xor | andn | shl | shr | sar | rotl | min | max | mul | div | rem | addi | andi | ori | xori | shli | shri |
      sari | movi | clz | ctz | popc | sext | zext | bfx | bfi | sel | cmp | cmpi | pand | por | pxor | pandn | br | brl | bloop | setn | rotb |
      wfldGet | wfldSet | wfldLvl | krd | kwr | suspend | exit | trap | brk | adda | addai | mova | movaToS | setstep | itset | vbcast | vext |
      vdescGet | mlogAnd | mlogOr | mlogXor | mlogAndn | mlogNot | mlogTov | mlogIso | cstat | cwmk | ccancel | shape | knarm | knarmD | lbaseStep
      | hsetR | tapeOff | tapeReset | pgresInv => exact goes_next _
  all_goals cases he

/-! ### Events -/

theorem goes_execBundleIssue (g x : Nat) (s : State) : Goes (execBundleIssue g x s) := by
  unfold execBundleIssue
  split <;> exact goes_next _

theorem goes_execResultDelivery (g x : Nat) (s : State) : Goes (execResultDelivery g x s) := by
  unfold execResultDelivery
  split <;> exact goes_next _

theorem goes_execWaiterRetry (who : Who) (s : State) : Goes (execWaiterRetry who s) := by grind [execWaiterRetry, goes_next]

theorem goes_execPagerRecordEnqueue (cluster slot : Nat) (s : State) : Goes (execPagerRecordEnqueue cluster slot s) := by
  grind [execPagerRecordEnqueue, goes_next]

theorem goes_execWalkComplete (who : Who) (s : State) : Goes (execWalkComplete who s) := by
  unfold execWalkComplete
  (repeat' split) <;> exact goes_next _

theorem goes_execLandingDelivery (g : Nat) (s : State) : Goes (execLandingDelivery g s) := by
  unfold execLandingDelivery
  split <;> exact goes_next _

theorem goes_execLateDataArrival (g : Nat) (s : State) : Goes (execLateDataArrival g s) := by grind [execLateDataArrival, goes_next]

theorem goes_execEngineWaitEnd (g x : Nat) (s : State) : Goes (execEngineWaitEnd g x s) := by grind [execEngineWaitEnd, goes_next]

theorem goes_execScOrderPoint (g : Nat) (s : State) : Goes (execScOrderPoint g s) := by grind [execScOrderPoint, goes_next]

theorem goes_execChannelRecordRead (g c : Nat) (s : State) : Goes (execChannelRecordRead g c s) := by
  grind [execChannelRecordRead, goes_next, goes_chanNext]

theorem goes_execSectorComplete (g c : Nat) (s : State) : Goes (execSectorComplete g c s) := by grind [execSectorComplete, goes_next, goes_chanNext]

theorem goes_execRecordCompletion (g c : Nat) (s : State) : Goes (execRecordCompletion g c s) := by
  grind [execRecordCompletion, goes_next, goes_chanNext]

theorem goes_execKnockDelivery (k : KnockSource) (s : State) : Goes (execKnockDelivery k s) := by
  unfold execKnockDelivery
  split <;> exact goes_next _

theorem goes_execOloadFillComplete (g slot : Nat) (s : State) : Goes (execOloadFillComplete g slot s) := by grind [execOloadFillComplete, goes_next]

theorem goes_execMatrixOpStart (g : Nat) (s : State) : Goes (execMatrixOpStart g s) := by grind [execMatrixOpStart, goes_next]

theorem goes_execMatrixOpComplete (g : Nat) (s : State) : Goes (execMatrixOpComplete g s) := by grind [execMatrixOpComplete, goes_next]

theorem goes_execDrainStart (g : Nat) (s : State) : Goes (execDrainStart g s) := by grind [execDrainStart, goes_next]

theorem goes_execDrainComplete (g : Nat) (s : State) : Goes (execDrainComplete g s) := by grind [execDrainComplete, goes_next]

theorem goes_execLeaveGrant (island : Nat) (s : State) : Goes (execLeaveGrant island s) := by grind [execLeaveGrant, goes_next]

theorem goes_execLeaveRelease (g : Nat) (s : State) : Goes (execLeaveRelease g s) := by
  unfold execLeaveRelease
  split <;> exact goes_next _

theorem goes_execClassRunExpiry (g : Nat) (s : State) : Goes (execClassRunExpiry g s) := by
  unfold execClassRunExpiry
  split <;> exact goes_next _

theorem goes_execTaskDispatch (cluster queue : Nat) (s : State) : Goes (execTaskDispatch cluster queue s) := by
  grind [execTaskDispatch, goes_next, goes_engineNext]

theorem goes_execTaskRunStart (cluster g : Nat) (s : State) : Goes (execTaskRunStart cluster g s) := by
  grind [execTaskRunStart, goes_next, goes_engineNext]

theorem goes_execTaskComplete (cluster g : Nat) (s : State) : Goes (execTaskComplete cluster g s) := by
  grind [execTaskComplete, goes_next, goes_engineNext]

theorem goes_execCollSignal (die : Nat) (s : State) : Goes (execCollSignal die s) := by grind [execCollSignal, goes_next, goes_chanNext]

theorem goes_execCollStart (die : Nat) (s : State) : Goes (execCollStart die s) := by grind [execCollStart, goes_next]

theorem goes_execCollComplete (die : Nat) (s : State) : Goes (execCollComplete die s) := by grind [execCollComplete, goes_next]

theorem goes_execRestripeCutover (page : Nat) (s : State) : Goes (execRestripeCutover page s) := by grind [execRestripeCutover, goes_next]

theorem goes_execRestripeStable (page : Nat) (s : State) : Goes (execRestripeStable page s) := by grind [execRestripeStable, goes_next]

theorem goes_execPickup (cluster : Nat) (s : State) : Goes (execPickup cluster s) := by grind [execPickup, goes_next]

theorem goes_execPriorityAging (cluster : Nat) (s : State) : Goes (execPriorityAging cluster s) := by
  unfold execPriorityAging
  split <;> exact goes_next _

theorem goes_execSelectorQuantum (g : Nat) (s : State) : Goes (execSelectorQuantum g s) := by grind [execSelectorQuantum, goes_next]

theorem goes_execScheduleDue (g x : Nat) (s : State) : Goes (execScheduleDue g x s) := by grind [execScheduleDue, goes_next]

theorem goes_execCkptmaxOverrun (g x : Nat) (s : State) : Goes (execCkptmaxOverrun g x s) := by
  unfold execCkptmaxOverrun
  split <;> exact goes_next _

theorem goes_execPreemptionTimeout (g x : Nat) (s : State) : Goes (execPreemptionTimeout g x s) := by
  unfold execPreemptionTimeout
  split <;> exact goes_next _

theorem goes_execFrameEnd (s : State) : Goes (execFrameEnd s) := by grind [execFrameEnd, goes_next]

theorem goes_execDroopSample (island : Nat) (s : State) : Goes (execDroopSample island s) := by
  unfold execDroopSample
  split <;> exact goes_next _

theorem goes_execScrub (stack channel offset : Nat) (finding : EccFinding) (s : State) : Goes (execScrub stack channel offset finding s) := by
  grind [execScrub, goes_next]

theorem goes_execLaunchStart (s : State) : Goes (execLaunchStart s) := by
  unfold execLaunchStart
  split <;> exact goes_next _

theorem goes_execLaunchRetire (s : State) : Goes (execLaunchRetire s) := by grind [execLaunchRetire, goes_next]

theorem goes_execShutter (s : State) : Goes (execShutter s) := by grind [execShutter, goes_next]

theorem goes_execPreemptSave (s : State) : Goes (execPreemptSave s) := by grind [execPreemptSave, goes_next]

theorem goes_execPowerOn (badStacks badPorts : BitVec 12) (signatureOk : Bool) (s : State) : Goes (execPowerOn badStacks badPorts signatureOk s) := by
  unfold execPowerOn
  split <;> exact goes_next _

theorem goes_execRailFault (s : State) : Goes (execRailFault s) := goes_next _

theorem goes_execLaneFail (port lane : Nat) (s : State) : Goes (execLaneFail port lane s) := by grind [execLaneFail, goes_next]

theorem goes_execRetrainComplete (port : Nat) (s : State) : Goes (execRetrainComplete port s) := by grind [execRetrainComplete, goes_next]

theorem goes_execHandshakeTimeout (port : Nat) (s : State) : Goes (execHandshakeTimeout port s) := by grind [execHandshakeTimeout, goes_next]

theorem goes_execPacketSend (port : Nat) (s : State) : Goes (execPacketSend port s) := by
  unfold execPacketSend
  split <;> exact goes_next _

theorem goes_execAckOnlyPacket (port : Nat) (p : Packet) (s : State) : Goes (execAckOnlyPacket port p s) := goes_next _

theorem goes_execInboundWrite (port : Nat) (p : Packet) (s : State) : Goes (execInboundWrite port p s) := goes_next _

theorem goes_execInboundReadRequest (port : Nat) (p : Packet) (s : State) : Goes (execInboundReadRequest port p s) := goes_next _

theorem goes_execReadResponse (port : Nat) (p : Packet) (s : State) : Goes (execReadResponse port p s) := goes_next _

theorem goes_execCollectiveData (port : Nat) (p : Packet) (s : State) : Goes (execCollectiveData port p s) := goes_next _

theorem goes_execAbortPacket (port : Nat) (p : Packet) (s : State) : Goes (execAbortPacket port p s) := goes_next _

theorem goes_execReplayTimeout (port : Nat) (s : State) : Goes (execReplayTimeout port s) := by grind [execReplayTimeout, goes_next]

theorem goes_execAckIdleTimer (port : Nat) (s : State) : Goes (execAckIdleTimer port s) := by grind [execAckIdleTimer, goes_next]

theorem goes_execLaunchRegister (v : Word64) (s : State) : Goes (execLaunchRegister v s) := goes_next _

theorem goes_execPghost (v : Word64) (s : State) : Goes (execPghost v s) := by grind [execPghost, goes_next]

theorem goes_execPghostFail (v : Word64) (s : State) : Goes (execPghostFail v s) := by grind [execPghostFail, goes_next]

theorem goes_execPsave (v : Word64) (s : State) : Goes (execPsave v s) := goes_next _

theorem goes_execPsaveFinish (v : Word64) (s : State) : Goes (execPsaveFinish v s) := goes_next _

theorem goes_execPres (v : Word64) (s : State) : Goes (execPres v s) := goes_next _

theorem goes_execGlzdone (v : Word64) (s : State) : Goes (execGlzdone v s) := goes_next _

theorem goes_execAtreq (v : Word64) (s : State) : Goes (execAtreq v s) := goes_next _

theorem goes_execAttestReportDone (s : State) : Goes (execAttestReportDone s) := by
  unfold execAttestReportDone
  split <;> exact goes_next _

theorem goes_execLogrd (v : Word64) (s : State) : Goes (execLogrd v s) := by
  unfold execLogrd
  split <;> exact goes_next _

theorem goes_execGeoTableWrite (addr : Nat) (v : Word64) (s : State) : Goes (execGeoTableWrite addr v s) := by grind [execGeoTableWrite, goes_next]

theorem goes_execDeviceRegisterWrite (addr : Nat) (v : Word64) (s : State) : Goes (execDeviceRegisterWrite addr v s) := by
  unfold execDeviceRegisterWrite
  dsimp only
  split_ifs <;> exact goes_next _

theorem goes_execPeerEndDown (port : Nat) (s : State) : Goes (execPeerEndDown port s) := by
  unfold execPeerEndDown
  split <;> exact goes_next _

theorem event_goes {i : Instr} (he : (encode i).isSome = false) (s : State) : Goes (exec i s) := by
  cases i
  case bundleIssue g x => exact goes_execBundleIssue g x s
  case resultDelivery g x => exact goes_execResultDelivery g x s
  case waiterRetry who => exact goes_execWaiterRetry who s
  case pagerRecordEnqueue cluster slot => exact goes_execPagerRecordEnqueue cluster slot s
  case walkComplete who => exact goes_execWalkComplete who s
  case landingDelivery g => exact goes_execLandingDelivery g s
  case lateDataArrival g => exact goes_execLateDataArrival g s
  case engineWaitEnd g x => exact goes_execEngineWaitEnd g x s
  case scOrderPoint g => exact goes_execScOrderPoint g s
  case channelRecordRead g c => exact goes_execChannelRecordRead g c s
  case sectorComplete g c => exact goes_execSectorComplete g c s
  case recordCompletion g c => exact goes_execRecordCompletion g c s
  case knockDelivery k => exact goes_execKnockDelivery k s
  case oloadFillComplete g slot => exact goes_execOloadFillComplete g slot s
  case matrixOpStart g => exact goes_execMatrixOpStart g s
  case matrixOpComplete g => exact goes_execMatrixOpComplete g s
  case drainStart g => exact goes_execDrainStart g s
  case drainComplete g => exact goes_execDrainComplete g s
  case leaveGrant island => exact goes_execLeaveGrant island s
  case leaveRelease g => exact goes_execLeaveRelease g s
  case classRunExpiry g => exact goes_execClassRunExpiry g s
  case taskDispatch cluster queue => exact goes_execTaskDispatch cluster queue s
  case taskRunStart cluster g => exact goes_execTaskRunStart cluster g s
  case taskComplete cluster g => exact goes_execTaskComplete cluster g s
  case collSignal die => exact goes_execCollSignal die s
  case collStart die => exact goes_execCollStart die s
  case collComplete die => exact goes_execCollComplete die s
  case restripeCutover page => exact goes_execRestripeCutover page s
  case restripeStable page => exact goes_execRestripeStable page s
  case pickup cluster => exact goes_execPickup cluster s
  case priorityAging cluster => exact goes_execPriorityAging cluster s
  case selectorQuantum g => exact goes_execSelectorQuantum g s
  case scheduleDue g x => exact goes_execScheduleDue g x s
  case ckptmaxOverrun g x => exact goes_execCkptmaxOverrun g x s
  case preemptionTimeout g x => exact goes_execPreemptionTimeout g x s
  case frameEnd => exact goes_execFrameEnd s
  case droopSample island => exact goes_execDroopSample island s
  case scrub stack channel offset finding => exact goes_execScrub stack channel offset finding s
  case launchStart => exact goes_execLaunchStart s
  case launchRetire => exact goes_execLaunchRetire s
  case shutter => exact goes_execShutter s
  case preemptSave => exact goes_execPreemptSave s
  case powerOn badStacks badPorts signatureOk => exact goes_execPowerOn badStacks badPorts signatureOk s
  case railFault => exact goes_execRailFault s
  case laneFail port lane => exact goes_execLaneFail port lane s
  case retrainComplete port => exact goes_execRetrainComplete port s
  case handshakeTimeout port => exact goes_execHandshakeTimeout port s
  case packetSend port => exact goes_execPacketSend port s
  case ackOnlyPacket port p => exact goes_execAckOnlyPacket port p s
  case inboundWrite port p => exact goes_execInboundWrite port p s
  case inboundReadRequest port p => exact goes_execInboundReadRequest port p s
  case readResponse port p => exact goes_execReadResponse port p s
  case collectiveData port p => exact goes_execCollectiveData port p s
  case abortPacket port p => exact goes_execAbortPacket port p s
  case replayTimeout port => exact goes_execReplayTimeout port s
  case ackIdleTimer port => exact goes_execAckIdleTimer port s
  case launchRegister v => exact goes_execLaunchRegister v s
  case pghost v => exact goes_execPghost v s
  case pghostFail v => exact goes_execPghostFail v s
  case psave v => exact goes_execPsave v s
  case psaveFinish v => exact goes_execPsaveFinish v s
  case pres v => exact goes_execPres v s
  case glzdone v => exact goes_execGlzdone v s
  case atreq v => exact goes_execAtreq v s
  case attestReportDone => exact goes_execAttestReportDone s
  case logrd v => exact goes_execLogrd v s
  case geoTableWrite addr v => exact goes_execGeoTableWrite addr v s
  case deviceRegisterWrite addr v => exact goes_execDeviceRegisterWrite addr v s
  case peerEndDown port => exact goes_execPeerEndDown port s
  all_goals cases he

theorem exec_goes (i : Instr) (s : State) : Goes (exec i s) := by
  cases he : (encode i).isSome with
  | true => exact slot_goes he s
  | false => exact event_goes he s

/-! ### Steps -/

theorem goes_readError (s : State) : Goes s.readError := by grind [State.readError, goes_next]

theorem goes_endCycle (s : State) : Goes s.endCycle := by
  unfold State.endCycle
  split_ifs
  · exact goes_next _
  · exact goes_next _
  · exact goes_execShutter s

theorem chosen_goes {e : Event} (he : Chosen e) (s : State) : Goes (e s) := by
  obtain rfl | ⟨i, rfl⟩ := he
  · exact goes_readError s
  · exact exec_goes i s

theorem advance_goes (s : State) : Goes s.advance := by
  obtain ⟨e, he, h⟩ | ⟨e, he, h⟩ | h := advance_cases s
  · exact h ▸ chosen_goes he s
  · exact h ▸ chosen_goes he _
  · exact h ▸ goes_endCycle _

/-- A slot goes on where its map takes the word in the latch. -/
theorem stepSlot_goes {n : Nat} {w : SlotWord} (hw : (slotInstr n w).isSome = true) (rest : List (Nat × SlotWord)) (s : State) :
    Goes (stepSlot n w rest s) := by
  obtain ⟨i, hi⟩ := Option.isSome_iff_exists.1 hw
  unfold stepSlot
  rw [hi]
  refine iteInduction (fun _ => goes_next _) fun _ => goes_carryOn (exec_goes i _) _

/-- Settles O48: every instruction and event ends in a next state, and so does every step whose latch holds a word of its slot's map. -/
theorem nothingStops : Obligations.NothingStops := by
  refine ⟨exec_goes, fun s hp => ?_⟩
  unfold step
  split
  next n w rest h => exact stepSlot_goes (hp (n, w) (h ▸ List.mem_cons_self)) rest s
  next i rest _ _ => exact exec_goes i _
  next => exact advance_goes s

end Sys2Proof.Machine
end

