-- ==== Sys2Proof/Proofs/Traps.lean ====
section
/-! Traps and their return (R366 to R369, R391): how an issue ends that neither faults nor walks nor waits. -/

namespace Sys2Proof.Machine

/-! ### The log -/

/-- An entry of the log changes nothing but the entries of the cycle. -/
theorem logAppend_only (s : State) (src : LogSrc) (frame : Nat) (ws : List Word64) : ∃ l, s.logAppend src frame ws = { s with logNow := l } := by
  unfold State.logAppend State.logEntry
  split
  · exact ⟨_, rfl⟩
  · exact ⟨_, rfl⟩

theorem annotate_only (s : State) (cause g x : Nat) (w3 : Word64) : ∃ l, s.annotate cause g x w3 = { s with logNow := l } := logAppend_only ..

theorem core_annotate (s : State) (cause g x : Nat) (w3 : Word64) (j : Nat) : (s.annotate cause g x w3).core j = s.core j := by
  obtain ⟨l, hl⟩ := annotate_only s cause g x w3
  rw [hl]
  rfl

theorem trace_only (s : State) (i : Iss) (slots : List (Nat × SlotWord)) (committed : Nat → Bool) :
    ∃ l, s.trace i slots committed = { s with logNow := l } := by
  have hfold : ∃ l, slots.foldl (fun s e => s.traceSlot i e.1 e.2.word (committed e.1)) s = { s with logNow := l } := by
    induction slots generalizing s with
    | nil => exact ⟨_, rfl⟩
    | cons e slots ih =>
      obtain ⟨l, hl⟩ := logAppend_only s (.core i.g) s.frameNo (s.record 0x01 [i.pc,
        w64 (e.2.word.toNat * 2 ^ 32 + i.g * 2 ^ 21 + i.x * 2 ^ 19 + e.1 * 2 ^ 16 + i.rep * 2 ^ 11 + flag (committed e.1) 10)])
      obtain ⟨l', hl'⟩ := ih (s.traceSlot i e.1 e.2.word (committed e.1))
      refine ⟨l', hl'.trans ?_⟩
      rw [State.traceSlot, hl]
  unfold State.trace
  split
  · exact hfold
  · exact ⟨_, rfl⟩

/-! ### How an issue ends -/

/-- An issue that neither faults, walks, nor waits takes the trap of its lowest trapping slot, or completes. -/
theorem finishIssue_ends {s : State} (hf : s.faults = []) (hw : s.iss.walks = []) (ha : s.iss.absent = []) (hg : s.iss.glazeHold = none)
    (hn : s.iss.waits = []) :
    ∃ l, (∀ t, lowestTrap s.iss.traps = some t →
        s.finishIssue = ({ s with iss := {}, logNow := l } : State).takeTrap { s.iss with unlogged := [] } t) ∧
      (lowestTrap s.iss.traps = none → s.finishIssue =
        (({ s with iss := {}, logNow := l } : State).completeIssue { s.iss with unlogged := [] }).snapStopped s.iss.g s.iss.x) := by
  obtain ⟨l, hl⟩ := trace_only { s with iss := {} } s.iss (s.iss.work.foldl (fun l e => insertSlot e l) s.iss.unlogged)
    fun n => !(s.iss.undone.any fun u => u.1 == n)
  refine ⟨l, ?_⟩
  have hs : ({ s with iss := {} } : State).sound s.iss.g = true := by
    show s.faults.all _ = true
    rw [hf]
    rfl
  have ht : ({ s with iss := {} } : State).traceAttempt s.iss = { s with iss := {}, logNow := l } := hl
  constructor
  · intro t hr
    unfold State.finishIssue
    simp only [hs, hw, ha, hg, hn, ht, hr, List.isEmpty_nil, Bool.not_true, Bool.false_eq_true, if_false, Option.isSome_none, Bool.or_self]
  · intro hr
    unfold State.finishIssue
    simp only [hs, hw, ha, hg, hn, ht, hr, List.isEmpty_nil, Bool.not_true, Bool.false_eq_true, if_false, Option.isSome_none, Bool.or_self]

theorem lowestTrap_mem {ts : List TrapReq} {r : TrapReq} (h : lowestTrap ts = some r) : r ∈ ts ∧ ∀ q ∈ ts, r.slot ≤ q.slot := by
  induction ts generalizing r with
  | nil => cases h
  | cons t ts ih =>
    rw [lowestTrap] at h
    split at h
    next u hu =>
      obtain ⟨hmem, hle⟩ := ih hu
      split at h <;> cases h
      next hlt => exact ⟨List.mem_cons_of_mem _ hmem, List.forall_mem_cons.2 ⟨hlt.le, hle⟩⟩
      next hlt => exact ⟨List.mem_cons_self, List.forall_mem_cons.2 ⟨le_rfl, fun q hq => (not_lt.1 hlt).trans (hle q hq)⟩⟩
    next hn =>
      cases h
      cases ts with
      | nil => exact ⟨List.mem_cons_self, List.forall_mem_cons.2 ⟨le_rfl, fun q hq => by cases hq⟩⟩
      | cons u us =>
        rw [lowestTrap] at hn
        split at hn
        · split at hn <;> cases hn
        · cases hn

theorem getLsbD_doneMask (undone : List (Nat × SlotWord)) {n : Nat} (hn : n < 5) :
    (doneMask undone).getLsbD n = !undone.any fun e => e.1 == n := by
  have hb (k : Nat) : (if undone.any (fun u => u.1 == k) then 0 else 2 ^ k) = 2 ^ k * (!undone.any fun u => u.1 == k).toNat := by
    cases undone.any fun u => u.1 == k <;> simp
  simp only [doneMask, List.range, List.range.loop, List.map, hb, List.sum_cons, List.sum_nil]
  interval_cases n <;>
    (generalize undone.any (fun u => u.1 == 0) = b0
     generalize undone.any (fun u => u.1 == 1) = b1
     generalize undone.any (fun u => u.1 == 2) = b2
     generalize undone.any (fun u => u.1 == 3) = b3
     generalize undone.any (fun u => u.1 == 4) = b4
     revert b0 b1 b2 b3 b4
     decide)

/-! ### Taking a trap (R366 to R369) -/

/-- A context whose results in flight have moved to its snapshot at issue n, with the landings of its sill. -/
def Ctx.snapped (k : Ctx) (n : Nat) (ls : List SnapLanding) : Ctx :=
  { k with
    inflight := [],
    snap := some ⟨(k.snap.getD {}).results ++ k.inflight.map fun e => ⟨e.due - n, n - e.issue, e.slot, e.upd⟩, ls⟩ }

theorem toSnapshot_ctx {c : Core} {x : Nat} (n : Nat) (h : (c.ctx x).k.trapIn = false) :
    ∃ ls, (c.toSnapshot x n).ctx x = (c.ctx x).snapped n ls := by
  unfold Core.toSnapshot
  simp only [Ctx.setOwnSnap, Ctx.ownSnap, h, Bool.false_eq_true, if_false]
  exact ⟨_, Core.ctx_setCtx_same ..⟩

/-- Replacing a context leaves the sill. -/
theorem sill_setCtx (c : Core) (x : Nat) (k : Ctx) : (c.setCtx x k).sill = c.sill := by
  unfold Core.setCtx
  split <;> rfl

theorem toSnapshot_sill (c : Core) (x n : Nat) : (c.toSnapshot x n).sill = c.sill.filter fun l => !(l.ctx == x && !l.dead) := rfl

/-- The context of a trap: its handler is next, and what it was about is saved. -/
def Ctx.trapped (k : Ctx) (i : Iss) (t : TrapReq) (handler : Word64) : Ctx :=
  { k with
    savedSticky := k.sticky, savedNest := k.nest, savedIss := some { i with stops := false }, stopped := k.stopped || i.stops,
    sticky := Vector.replicate 5 none, nest := none, redo := none, resume := none,
    k := k.k.trapped i.rep (doneMask i.undone) t.slot t.cause i.pc t.arg0 t.arg1, pc := handler, rep := 0 }

theorem takeTrap_core {s : State} {i : Iss} (t : TrapReq) (h : (s.ctx i.g i.x).k.trapIn = false) :
    (s.takeTrap i t).core i.g = ((s.core i.g).toSnapshot i.x i.issue).setCtx i.x
      ((((s.core i.g).toSnapshot i.x i.issue).ctx i.x).trapped i t (s.launchWord 3)) := by
  unfold State.takeTrap
  simp only [h, Bool.false_eq_true, if_false]
  exact (core_annotate ..).trans (State.core_setCore_self ..)

/-- A trap saves what is in flight and what it interrupts, and the handler is next. -/
theorem takeTrap_ctx {s : State} {i : Iss} (t : TrapReq) (h : (s.ctx i.g i.x).k.trapIn = false) :
    ∃ ls, (s.takeTrap i t).ctx i.g i.x = ((s.ctx i.g i.x).snapped i.issue ls).trapped i t (s.launchWord 3) := by
  obtain ⟨ls, hk⟩ := toSnapshot_ctx (c := s.core i.g) i.issue h
  refine ⟨ls, ?_⟩
  show ((s.takeTrap i t).core i.g).ctx i.x = _
  rw [takeTrap_core t h, Core.ctx_setCtx_same, hk]
  rfl

theorem takeTrap_sill {s : State} {i : Iss} (t : TrapReq) (h : (s.ctx i.g i.x).k.trapIn = false) :
    ∀ l ∈ ((s.takeTrap i t).core i.g).sill, l.ctx = i.x → l.dead = true := by
  intro l hl hx
  rw [takeTrap_core t h, sill_setCtx, toSnapshot_sill] at hl
  simpa [hx] using (List.mem_filter.1 hl).2

/-- Within the handler a trap is a protection fault. -/
theorem takeTrap_faults {s : State} {i : Iss} (t : TrapReq) (h : (s.ctx i.g i.x).k.trapIn = true) (hf : s.faults = []) :
    ∃ f ∈ (s.takeTrap i t).faults, f.code = cProt ∧ f.w2 = (s.ctx i.g i.x).k.tpc := by
  unfold State.takeTrap
  simp only [h, if_true, State.raise, hf]
  exact ⟨_, List.mem_singleton_self _, rfl, rfl⟩

/-! ### Returning from a trap (R391) -/

section
variable (k : Ctx) (i : Iss) (r : Option Iss) (d : Nat) (m : Option (BitVec 5)) (q : Option Iss)

theorem countBody_with (pc : Word64) :
    ({ k with resume := r, dueFrom := d, redo := m, savedIss := q } : Ctx).countBody pc =
      { k.countBody pc with resume := r, dueFrom := d, redo := m, savedIss := q } := by
  cases k
  unfold Ctx.countBody
  dsimp only
  split
  · split <;> rfl
  · rfl

theorem advance_with (hdr : Word32) (pc next : Word64) (n : Nat) :
    ({ k with resume := r, dueFrom := d, redo := m, savedIss := q } : Ctx).advance hdr pc next n =
      { k.advance hdr pc next n with resume := r, dueFrom := d, redo := m, savedIss := q } := by
  cases k
  unfold Ctx.advance
  dsimp only
  split
  · rfl
  · split
    · split
      · split <;> rfl
      · rfl
    · rfl

/-- How a context goes on does not turn on what it returns to, nor on the wait that it has ended. -/
theorem goOn_with : ({ k with resume := r, dueFrom := d, redo := m, savedIss := q } : Ctx).goOn i =
    { k.goOn i with resume := r, dueFrom := d, redo := m, savedIss := q } := by
  unfold Ctx.goOn
  rw [countBody_with]
  dsimp only
  cases i.target <;> cases i.nest <;> dsimp only
  · rw [advance_with]
  · rw [advance_with]

end

theorem countBody_keeps (k : Ctx) (pc : Word64) : (k.countBody pc).k = k.k ∧ (k.countBody pc).release = k.release ∧ (k.countBody pc).stopped = k.stopped := by
  unfold Ctx.countBody
  split
  · split <;> exact ⟨rfl, rfl, rfl⟩
  · exact ⟨rfl, rfl, rfl⟩

theorem advance_keeps (k : Ctx) (hdr : Word32) (pc next : Word64) (n : Nat) :
    (k.advance hdr pc next n).k = k.k ∧ (k.advance hdr pc next n).release = k.release ∧ (k.advance hdr pc next n).stopped = k.stopped := by
  unfold Ctx.advance Ctx.restoreBases
  split
  · exact ⟨rfl, rfl, rfl⟩
  · dsimp only
    split
    · split
      · split <;> exact ⟨rfl, rfl, rfl⟩
      · exact ⟨rfl, rfl, rfl⟩
    · exact ⟨rfl, rfl, rfl⟩

/-- Going on leaves the k-registers, the release of a snapshot, and what stops the context. -/
theorem goOn_keeps (k : Ctx) (i : Iss) : (k.goOn i).k = k.k ∧ (k.goOn i).release = k.release ∧ (k.goOn i).stopped = k.stopped := by
  have hc := countBody_keeps k i.pc
  have ha := advance_keeps (k.countBody i.pc) i.hdr i.pc i.next i.issue
  unfold Ctx.goOn
  cases i.target <;> cases i.nest <;> grind

/-- The return of a context to the address, repetition and mask that it was trapped with. -/
def Ctx.returned (k : Ctx) (due : Nat) : Ctx := { k.returnFromTrap with resume := none, dueFrom := due }

/-- What the selector does leaves every context. -/
theorem ctx_select (c : Core) (x : Nat) : c.select.ctx x = c.ctx x := by
  unfold Core.select
  split
  · rfl
  · split <;> rfl

/-- RETT with slots of the trapped bundle left to execute. -/
theorem completeRett_redo {s : State} {g x : Nat} (h : (s.ctx g x).k.trapDone ≠ 31) :
    ∃ due, (s.completeRett g x).ctx g x = (s.ctx g x).returned due := by
  have hredo (d : Nat) : ((s.ctx g x).returned d).finished = none := by
    unfold Ctx.finished
    split
    · exact if_neg fun hc => h (by simpa [Ctx.returned, Ctx.returnFromTrap] using (Bool.and_eq_true_iff.1 hc).1)
    · rfl
  unfold State.completeRett
  simp only [← Ctx.returned.eq_1]
  rw [hredo]
  exact ⟨_, (State.ctx_setCore_self ..).trans ((ctx_select ..).trans (Core.ctx_setCtx_same ..))⟩

/-- RETT where every slot of the trapped bundle is done: the context goes on from the trapped issue. -/
theorem completeRett_done {s : State} {g x : Nat} {q : Iss} (h : (s.ctx g x).k.trapDone = 31) (hq : (s.ctx g x).savedIss = some q)
    (hpc : q.pc = BitVec.ofNat 64 ((s.ctx g x).k.tpc.toNat / 4 * 4)) (he : q.ends = none) :
    ∃ due, (s.completeRett g x).ctx g x =
      { (s.ctx g x).returnFromTrap.goOn { q with issue := (s.ctx g x).issueNo - 1 } with
        resume := none, dueFrom := due, redo := none, savedIss := none } := by
  have hdone (d : Nat) : ((s.ctx g x).returned d).finished = some q := by
    have hs : ((s.ctx g x).returned d).savedIss = some q := hq
    unfold Ctx.finished
    rw [hs]
    refine if_pos ?_
    simp [Ctx.returned, Ctx.returnFromTrap, h, hpc, w64]
  unfold State.completeRett
  simp only [← Ctx.returned.eq_1]
  rw [hdone]
  dsimp only
  rw [he]
  exact ⟨_, (State.ctx_setCore_self ..).trans ((ctx_select ..).trans ((Core.ctx_setCtx_same ..).trans (goOn_with ..)))⟩

theorem snapStopped_running {s : State} {g x : Nat} (h : (s.ctx g x).stopped = false) : s.snapStopped g x = s := by
  unfold State.snapStopped
  exact if_neg (by simp [h])

theorem completeIssue_rett {s : State} {i : Iss} (he : i.ends = none) (hr : i.rett = true) : s.completeIssue i = s.completeRett i.g i.x := by
  unfold State.completeIssue
  simp only [he, hr, if_true]

/-- Settles O60: by the ends of an issue that neither faults, walks nor waits. -/
theorem trapEntryAndReturn : Obligations.TrapEntryAndReturn := by
  intro s r
  dsimp only
  intro _ hf hw ha hg hn
  obtain ⟨l, htrap, hend⟩ := finishIssue_ends hf hw ha hg hn
  refine ⟨fun hr hin => ?_, fun hr hin => ?_, fun ht hrett he _ hst hd => ?_, fun q ht hrett he _ hst hd hq hpc hqe _ => ?_⟩
  · rw [htrap r hr]
    obtain ⟨hmem, hlow⟩ := lowestTrap_mem hr
    obtain ⟨ls, hj⟩ := takeTrap_ctx (s := { s with iss := {}, logNow := l }) (i := { s.iss with unlogged := [] }) r hin
    have hsill := takeTrap_sill (s := { s with iss := {}, logNow := l }) (i := { s.iss with unlogged := [] }) r hin
    rw [hj]
    refine ⟨hmem, hlow, rfl, rfl, rfl, rfl, rfl, rfl, rfl, fun n hlt => getLsbD_doneMask _ hlt, rfl, rfl, rfl, fun n hlt => ?_, rfl, rfl, rfl,
      fun e he => ⟨_, rfl, List.mem_append_right _ (List.mem_map_of_mem he)⟩, hsill, rfl, rfl, rfl, rfl, rfl⟩
    simp [Ctx.trapped, vget, hlt]
  · rw [htrap r hr]
    exact takeTrap_faults (s := { s with iss := {}, logNow := l }) (i := { s.iss with unlogged := [] }) r hin hf
  · have hc := hend (by rw [ht]; rfl)
    rw [completeIssue_rett (i := { s.iss with unlogged := [] }) he hrett] at hc
    obtain ⟨due, hj⟩ := completeRett_redo (s := { s with iss := {}, logNow := l }) (g := s.iss.g) (x := s.iss.x) hd
    rw [hc, snapStopped_running ((congrArg Ctx.stopped hj).trans hst), hj]
    exact ⟨rfl, rfl, rfl, rfl, rfl, rfl, rfl⟩
  · have hc := hend (by rw [ht]; rfl)
    rw [completeIssue_rett (i := { s.iss with unlogged := [] }) he hrett] at hc
    obtain ⟨due, hj⟩ := completeRett_done (s := { s with iss := {}, logNow := l }) (g := s.iss.g) (x := s.iss.x) hd hq hpc hqe
    obtain ⟨hk, hrel, hstop⟩ := goOn_keeps ((s.ctx s.iss.g s.iss.x).returnFromTrap) { q with issue := (s.ctx s.iss.g s.iss.x).issueNo - 1 }
    rw [hc, snapStopped_running ((congrArg Ctx.stopped hj).trans (hstop.trans hst)), hj]
    exact ⟨congrArg KRegs.trapIn hk, rfl, rfl, rfl, rfl, rfl, hrel⟩

end Sys2Proof.Machine
end

