-- ==== Sys2Proof/Proofs/Shutter.lean ====
section
/-! The shutter (R374 to R376): the fault that it takes, and what the end of a launch leaves. -/

namespace Sys2Proof.Machine

/-! ### What only the end of a launch changes -/

/-- What ends with a launch but not before: a held start, the address of the launch's header, the re-stripes, and the status of pre-emption. -/
def State.held (s : State) : Option Nat × Option Nat × List Migration × PState := (s.pend, s.launch.map Launch.hdrAddr, s.migrations, s.pstate)

theorem State.held_foldl {α : Type} {op : State → α → State} (h : ∀ s a, (op s a).held = s.held) (l : List α) (s : State) :
    (l.foldl op s).held = s.held := by
  induction l generalizing s with
  | nil => rfl
  | cons a l ih => exact (ih _).trans (h s a)

theorem State.held_ite {s : State} {p : Prop} [Decidable p] {a b : State} (ha : a.held = s.held) (hb : b.held = s.held) :
    (if p then a else b).held = s.held := by
  split
  · exact ha
  · exact hb

@[simp] theorem State.held_writePart1 (s : State) (key n v : Nat) : (s.writePart1 key n v).held = s.held := by
  unfold State.writePart1
  split <;> rfl

@[simp] theorem State.held_writePhys (s : State) (pa n v : Nat) : (s.writePhys pa n v).held = s.held := by
  unfold State.writePhys
  split <;> simp

@[simp] theorem State.held_putWords (s : State) (pa : Nat) (ws : List Word64) : (s.putWords pa ws).held = s.held := by
  induction ws generalizing s pa with
  | nil => rfl
  | cons w ws ih => exact (ih ..).trans (State.held_writePhys ..)

/-- A change of the launch that leaves the address of its header. -/
theorem State.held_modLaunch (s : State) {f : Launch → Launch} (h : ∀ l, (f l).hdrAddr = l.hdrAddr) : (s.modLaunch f).held = s.held := by
  unfold State.modLaunch State.held
  cases s.launch <;> simp [h]

@[simp] theorem State.held_setCore (s : State) (g : Nat) (c : Core) : (s.setCore g c).held = s.held := rfl

@[simp] theorem State.held_modCore (s : State) (g : Nat) (f : Core → Core) : (s.modCore g f).held = s.held := rfl

@[simp] theorem State.held_setFrame (s : State) (pa : Nat) (f : Frame) : (s.setFrame pa f).held = s.held := rfl

@[simp] theorem State.held_markNoReplay (s : State) (n : Nat) : (s.markNoReplay n).held = s.held := State.held_modLaunch s fun _ => rfl

@[simp] theorem State.held_logEntry (s : State) (e : LogEntry) : (s.logEntry e).held = s.held := by
  unfold State.logEntry
  split <;> rfl

@[simp] theorem State.held_logAppend (s : State) (src : LogSrc) (frame : Nat) (ws : List Word64) : (s.logAppend src frame ws).held = s.held := by
  simp [State.logAppend]

@[simp] theorem State.held_logWrite (s : State) (ws : List Word64) : (s.logWrite ws).held = s.held := by
  grind [State.logWrite, State.held, State.held_putWords]

@[simp] theorem State.held_dropRecord (s : State) : (s.dropRecord).held = s.held := State.held_modLaunch s fun _ => rfl

@[simp] theorem State.held_writeTail (s : State) : (s.writeTail).held = s.held := by
  grind [State.writeTail, State.held_modLaunch, State.held_logWrite]

@[simp] theorem State.held_markFull (s : State) : (s.markFull).held = s.held := by
  unfold State.markFull
  split_ifs <;> simp

@[simp] theorem State.held_putOrFreeze (s : State) (g : Nat) (ws : List Word64) : (s.putOrFreeze g ws).held = s.held := by
  unfold State.putOrFreeze
  dsimp only
  split_ifs <;> simp

@[simp] theorem State.held_putEntry (s : State) (e : LogEntry) : (s.putEntry e).held = s.held := by
  unfold State.putEntry
  split
  next => rfl
  next l _ =>
    refine State.held_ite rfl (State.held_ite (State.held_ite (by simp) (State.held_ite (by simp) (by simp))) ?_)
    split
    next g _ => exact State.held_putOrFreeze ..
    next => exact State.held_ite (by simp) (State.held_ite (by simp) (by simp))

@[simp] theorem State.held_putCycle (s : State) : s.putCycle.held = s.held :=
  (State.held_foldl (fun u e => State.held_putEntry u e) _ _).trans (State.held_markFull _)

@[simp] theorem State.held_writeWaiting (s : State) (drop : Bool) (n : Nat) : (s.writeWaiting drop n).held = s.held := by
  induction n generalizing s with
  | zero => rfl
  | succ n ih =>
    unfold State.writeWaiting
    split
    · rfl
    · dsimp only
      split_ifs
      · exact (ih _).trans ((State.held_logWrite ..).trans (State.held_modCore ..))
      · exact (ih _).trans ((State.held_dropRecord _).trans (State.held_modCore ..))
      · rfl

@[simp] theorem State.held_settleWaiting (s : State) : s.settleWaiting.held = s.held := State.held_writeWaiting ..

@[simp] theorem State.held_settleLog (s : State) : s.settleLog.held = s.held := by simp [State.settleLog]

@[simp] theorem State.held_endFrame (s : State) (n : Nat) : (s.endFrame n).held = s.held := by
  unfold State.endFrame
  refine State.held_ite ?_ ((State.held_markNoReplay ..).trans ?_)
  all_goals
    refine (State.held_modLaunch _ ?_).trans ?_
    · exact fun _ => rfl
    · show (List.foldl _ s s.frameDigests).held = s.held
      exact State.held_foldl (fun u m => State.held_logAppend ..) _ s

@[simp] theorem State.held_endFrames (s : State) : (s.endFrames).held = s.held := by
  unfold State.endFrames
  simp only
  (repeat' split) <;> simp

@[simp] theorem State.held_restoreFrames (s : State) : s.restoreFrames.held = s.held := by
  unfold State.restoreFrames
  split
  · exact State.held_foldl (fun u e => State.held_setFrame u _ _) _ _
  · rfl

/-! ### The fault that the shutter takes (R374) -/

theorem firstFault_mem {fs : List FaultRec} {f : FaultRec} (h : firstFault fs = some f) : f ∈ fs ∧ ∀ g ∈ fs, f.key ≤ g.key := by
  induction fs generalizing f with
  | nil => cases h
  | cons a fs ih =>
    rw [firstFault] at h
    split at h
    next g hg =>
      obtain ⟨hmem, hle⟩ := ih hg
      split at h <;> cases h
      next hlt => exact ⟨List.mem_cons_of_mem _ hmem, List.forall_mem_cons.2 ⟨hlt.le, hle⟩⟩
      next hlt => exact ⟨List.mem_cons_self, List.forall_mem_cons.2 ⟨le_rfl, fun q hq => (not_lt.1 hlt).trans (hle q hq)⟩⟩
    next hn =>
      cases h
      cases fs with
      | nil => exact ⟨List.mem_cons_self, List.forall_mem_cons.2 ⟨le_rfl, fun q hq => by cases hq⟩⟩
      | cons u us =>
        rw [firstFault] at hn
        split at hn
        · split at hn <;> cases hn
        · cases hn

/-! ### Bytes above main memory (R56) -/

/-- Every byte of the core memories is 0. -/
def State.Dark (s : State) : Prop := ∀ key, bufferKeys ≤ key → s.byte key = 0

theorem mainKey_lt (w : BitVec 32) {pa : Nat} (h : pa < mainSize) : mainKey w pa + 8 ≤ bufferKeys := by
  have hst : (place w pa).1 < 12 := by
    show (geoStacks w).getD _ 0 < 12
    rw [List.getD_eq_getElem?_getD]
    cases hg : (geoStacks w)[pa / (256 * 2 ^ geoGran w) % geoChannels w % (geoStacks w).length]? with
    | none => simp
    | some n => exact List.mem_range.1 (List.mem_of_mem_filter (List.mem_of_getElem? hg))
  have hch : (place w pa).2.1 < 128 := place_channel_lt
  have hoff : (place w pa).2.2 ≤ pa := by
    show pa / (256 * 2 ^ geoGran w) / geoChannels w * (256 * 2 ^ geoGran w) + pa % (256 * 2 ^ geoGran w) ≤ pa
    calc _ ≤ pa / (256 * 2 ^ geoGran w) * (256 * 2 ^ geoGran w) + pa % (256 * 2 ^ geoGran w) :=
          Nat.add_le_add_right (Nat.mul_le_mul_right _ (Nat.div_le_self ..)) _
      _ = pa := Nat.div_add_mod' ..
  show ((place w pa).1 * 128 + (place w pa).2.1) * 2 ^ 30 + (place w pa).2.2 + 8 ≤ 8796093022208
  have hm : mainSize = 1236950581248 := rfl
  generalize (place w pa).1 = st at *
  generalize (place w pa).2.1 = ch at *
  generalize (place w pa).2.2 = off at *
  omega

theorem dark_writePhys {s : State} (hs : s.Dark) {pa : Nat} (h : pa < mainSize) (v : Nat) : (s.writePhys pa 8 v).Dark := by
  intro key hkey
  have hlow := mainKey_lt (s.geoWord 0) h
  have hk : s.paKey 0 pa = mainKey (s.geoWord 0) pa := if_pos h
  have hsp : spaceOf pa = .main := if_pos h
  unfold State.writePhys
  rw [hsp, hk]
  show (s.writePart1 _ 8 v).byte key = 0
  unfold State.writePart1
  split
  · exact hs key hkey
  · exact (mget_putBytes_outside s.mem _ 8 v (.inr (hlow.trans hkey))).trans (hs key hkey)

theorem dark_putWords {s : State} (hs : s.Dark) {pa : Nat} (ws : List Word64) (h : pa + 8 * ws.length ≤ mainSize) : (s.putWords pa ws).Dark := by
  induction ws generalizing s pa with
  | nil => exact hs
  | cons w ws ih =>
    rw [List.length_cons] at h
    exact ih (dark_writePhys hs (by omega) _) (by omega)

theorem mget_filter_of_false {m : List Host.Cell} {p : Host.Cell → Bool} {key : Nat} (h : ∀ b, p (key, b) = false) :
    mget unlistedByte (m.filter p) key = unlistedByte := by
  induction m with
  | nil => rfl
  | cons c m ih =>
    obtain ⟨k, b⟩ := c
    by_cases hp : p (k, b) = true
    · rw [List.filter_cons_of_pos hp, mget]
      split
      next he =>
        subst he
        rw [h b] at hp
        cases hp
      next => exact ih
    · rw [List.filter_cons_of_neg hp]
      exact ih

theorem dark_clearLaunch (s : State) : s.clearLaunch.Dark := by
  intro key hkey
  refine mget_filter_of_false fun b => ?_
  simp [hkey]

/-! ### The end of a launch (R376) -/

/-- What stands in the state when a launch has ended. -/
structure Ended (s : State) : Prop where
  cores : s.cores = []
  faults : s.faults = []
  poisoned : s.poisoned = []
  idle : s.iss.active = false

theorem Ended.writePhys {s : State} (h : Ended s) (pa n v : Nat) : Ended (s.writePhys pa n v) := by
  unfold State.writePhys State.writePart1
  split
  · split
    · exact h
    · exact ⟨h.cores, h.faults, h.poisoned, h.idle⟩
  · split
    · exact h
    · exact ⟨h.cores, h.faults, h.poisoned, h.idle⟩
  · split
    · exact h
    · exact ⟨h.cores, h.faults, h.poisoned, h.idle⟩
  · exact h

theorem Ended.putWords {s : State} (h : Ended s) (pa : Nat) (ws : List Word64) : Ended (s.putWords pa ws) := by
  induction ws generalizing s pa with
  | nil => exact h
  | cons w ws ih => exact ih (h.writePhys ..) _

theorem startHeld_none {s : State} (h : s.pend = none) : s.startHeld = s := by
  unfold State.startHeld
  rw [h]

theorem clearLaunch_ended (s : State) : Ended s.clearLaunch := ⟨rfl, rfl, rfl, rfl⟩

/-- The state in which a launch has ended, but for the launch itself and what stands beside it. -/
def State.settled (s : State) (l : Launch) (status setdrop : Nat) : State :=
  s.settleLog.writeTail.clearLaunch.putWords (l.hdrAddr + 224)
    [w64 (status + min setdrop 0xFFFF * 2 ^ 16), w64 s.settleLog.writeTail.clearLaunch.cycle, s.settleLog.writeTail.noReplayWord]

theorem settled_held (s : State) (l : Launch) (status setdrop : Nat) : (s.settled l status setdrop).held = s.held := by
  have hc (u : State) : u.clearLaunch.held = u.held := rfl
  simp [State.settled, hc]

theorem settled_ended (s : State) (l : Launch) (status setdrop : Nat) : Ended (s.settled l status setdrop) := (clearLaunch_ended _).putWords ..

theorem settled_dark (s : State) {l : Launch} (ha : l.hdrAddr + 256 ≤ mainSize) (status setdrop : Nat) : (s.settled l status setdrop).Dark :=
  dark_putWords (dark_clearLaunch _) _ (by simp only [List.length_cons, List.length_nil]; omega)

theorem finish_eq {s : State} {l : Launch} (hl : s.launch = some l) (hp : s.pend = none) (status setdrop : Nat) :
    ∃ q a b, s.finish status setdrop = { s.settled l status setdrop with
      launch := none, lqhead := q, free := a, pick := b, pstate := if s.pstate == PState.saving then .failed else s.pstate } := by
  have hpst : (s.settled l status setdrop).pstate = s.pstate := congrArg (·.2.2.2) (settled_held ..)
  have hw : (s.settled l status setdrop).pend = none := (congrArg (·.1) (settled_held ..)).trans hp
  unfold State.finish
  rw [hl]
  dsimp only
  rw [← State.settled.eq_1]
  rw [← hpst]
  generalize s.settled l status setdrop = w at hw
  cases l.freeBefore.getD (w.free, w.pick)
  exact ⟨_, _, _, startHeld_none hw⟩

/-- A launch of which the header lies in main memory ends with nothing of it in a core. -/
theorem finish_ends {s : State} {l : Launch} (hl : s.launch = some l) (hp : s.pend = none) (ha : l.hdrAddr + 256 ≤ mainSize) (status setdrop : Nat) :
    (s.finish status setdrop).launch = none ∧ (s.finish status setdrop).migrations = s.migrations ∧ Ended (s.finish status setdrop) ∧
      (s.finish status setdrop).Dark := by
  have hm : (s.settled l status setdrop).migrations = s.migrations := congrArg (·.2.2.1) (settled_held ..)
  have he := settled_ended s l status setdrop
  have hd := settled_dark s ha status setdrop
  obtain ⟨q, a, b, h⟩ := finish_eq hl hp status setdrop
  rw [h]
  exact ⟨rfl, hm, ⟨he.cores, he.faults, he.poisoned, he.idle⟩, hd⟩

/-- What the re-stripes leave where they are taken back. -/
theorem endMigrations_held (s : State) : s.endMigrations.held = (s.held.1, s.held.2.1, [], s.pstate) := by
  have h := State.held_foldl (fun (u : State) (m : Migration) => State.held_writePhys u m.entryPa 8 (if m.cutover then movedEntry m 0 else m.oldEntry.toNat))
    s.migrations s
  exact Prod.ext (congrArg (·.1) h) (Prod.ext (congrArg (·.2.1) h) (Prod.ext rfl (congrArg (·.2.2.2) h)))

theorem shut_ends {s : State} {l : Launch} (hl : s.launch = some l) (hp : s.pend = none) (ha : l.hdrAddr + 256 ≤ mainSize) (f : FaultRec) (more : Nat) :
    (s.shut f more).launch = none ∧ (s.shut f more).migrations = [] ∧ Ended (s.shut f more) ∧ (s.shut f more).Dark := by
  have hm := endMigrations_held s
  let u := s.endMigrations.restoreFrames
  let w := (u.putWords (u.launchWord 12).toNat (u.faultWords (bits (u.launchWord 0) 63 48) f more)).endFrames
  have hw : w.held = s.endMigrations.held := by simp [w, u]
  have hlaunch : w.launch.map Launch.hdrAddr = some l.hdrAddr :=
    (congrArg (·.2.1) (hw.trans hm)).trans (congrArg (Option.map Launch.hdrAddr) hl)
  obtain ⟨l', hl', hh⟩ := Option.map_eq_some_iff.1 hlaunch
  obtain ⟨h1, h2, h3, h4⟩ := finish_ends hl' ((congrArg (·.1) (hw.trans hm)).trans hp) (hh ▸ ha) 3 0
  exact ⟨h1, h2.trans (congrArg (·.2.2.1) (hw.trans hm)), h3, h4⟩

/-- Settles O39: the shutter takes the first fault, stops the cores, and ends the launch where no write of it is outstanding. -/
theorem shutterEndsLaunch : Obligations.ShutterEndsLaunch := by
  intro s f l hl
  refine ⟨fun hs hf => ?_, fun more hs hw => ?_, fun more hp ha => ?_⟩
  · obtain ⟨hmem, hlow⟩ := firstFault_mem hf
    have hexec : exec .shutter s = .next (s.beginShut f ((s.faults.filter fun h => h.cycle == f.cycle).length - 1)) := by
      show execShutter s = _
      unfold execShutter
      simp only [hl, hs, hf]
    refine ⟨hmem, hlow, rfl, rfl, fun hd => hexec.trans ?_, fun hd => hexec.trans ?_⟩
    · exact congrArg _ (if_pos hd)
    · exact congrArg _ (if_neg (by simp [hd]))
  · show execShutter s = _
    unfold execShutter
    simp only [hl, hs, hw, if_true]
  · obtain ⟨h1, h2, h3, h4⟩ := shut_ends hl hp ha f more
    exact ⟨h1, h3.cores, h3.faults, h2, h3.poisoned, h3.idle, h4⟩

end Sys2Proof.Machine
end

