-- ==== Sys2Proof/Proofs/Ports.lean ====
section
/-! Ports (R149 to R156): lanes, retraining, replays, acknowledgements, and the packet that is sent next. -/

namespace Sys2Proof.Machine

/-! ### The arbiter (R150) -/

/-- The first packet that passes a test, and the others in their order. -/
theorem takeFirst_some {t : OutPacket → Bool} {l rest : List OutPacket} {o : OutPacket} (h : takeFirst t l = some (o, rest)) :
    o ∈ l ∧ rest.length + 1 = l.length := by
  induction l generalizing rest with
  | nil => cases h
  | cons a l ih =>
    rw [takeFirst] at h
    split at h
    · cases h
      exact ⟨List.mem_cons_self, rfl⟩
    · obtain ⟨⟨x, r⟩, hx, he⟩ := Option.map_eq_some_iff.1 h
      cases he
      obtain ⟨hmem, hlen⟩ := ih hx
      exact ⟨List.mem_cons_of_mem _ hmem, by simp [hlen]⟩

theorem takeFirst_isSome {t : OutPacket → Bool} {l : List OutPacket} (h : l.any t = true) : ∃ o rest, takeFirst t l = some (o, rest) := by
  induction l with
  | nil => cases h
  | cons a l ih =>
    rw [takeFirst]
    cases ha : t a with
    | true => exact ⟨a, l, rfl⟩
    | false =>
      rw [List.any_cons, ha, Bool.false_or] at h
      obtain ⟨o, rest, ho⟩ := ih h
      exact ⟨o, a :: rest, by simp [ho]⟩

theorem takeFirst_none {t : OutPacket → Bool} {l : List OutPacket} (h : takeFirst t l = none) : ∀ o ∈ l, t o = false := by
  intro o ho
  by_contra hc
  obtain ⟨x, r, hx⟩ := takeFirst_isSome (List.any_eq_true.2 ⟨o, ho, by simpa using hc⟩)
  rw [h] at hx
  cases hx

theorem foldl_min_mem (l : List Nat) (a : Nat) : l.foldl min a ∈ a :: l := by
  induction l generalizing a with
  | nil => exact List.mem_cons_self
  | cons b l ih =>
    rcases List.mem_cons.1 (ih (min a b)) with h | h
    · rw [List.foldl_cons, h]
      rcases min_choice a b with hm | hm <;> rw [hm] <;> simp
    · exact List.mem_cons_of_mem _ (List.mem_cons_of_mem _ h)

/-- The next turn is one of those that wait. -/
theorem nextTurn_some {p : Port} {o : OutPacket} (ho : o ∈ p.sendq) (hc : o.isColl = false) (hp : o.prio = false) :
    ∃ t, p.nextTurn = some t ∧ ∃ o' ∈ p.sendq, o'.isColl = false ∧ o'.turn = t := by
  have hmem : o.turn ∈ (p.sendq.filter fun o => !o.isColl && !o.prio).map OutPacket.turn :=
    List.mem_map_of_mem (List.mem_filter.2 ⟨ho, by simp [hc, hp]⟩)
  have hback {t : Nat} (h : t ∈ (p.sendq.filter fun o => !o.isColl && !o.prio).map OutPacket.turn) :
      ∃ o' ∈ p.sendq, o'.isColl = false ∧ o'.turn = t := by
    obtain ⟨o', ho', rfl⟩ := List.mem_map.1 h
    obtain ⟨hq, ht⟩ := List.mem_filter.1 ho'
    exact ⟨o', hq, by simpa using (Bool.and_eq_true_iff.1 ht).1, rfl⟩
  unfold Port.nextTurn
  dsimp only
  split
  next t ht =>
    refine ⟨t, rfl, ?_⟩
    split at ht
    next => cases ht
    next u us hu =>
      cases ht
      exact hback (List.mem_of_mem_filter (hu ▸ foldl_min_mem us u))
  next =>
    split
    next hn => rw [hn] at hmem; cases hmem
    next u us hu => exact ⟨_, rfl, hback (hu ▸ foldl_min_mem us u)⟩

theorem inRound_with (p : Port) (c d : Bool) : ∃ a b n x y, p.inRound c d = { p with cwt := a, dwt := b, arbNext := n, grantC := x, grantD := y } := by
  unfold Port.inRound Port.newRound
  dsimp only
  split
  · exact ⟨_, _, _, _, _, rfl⟩
  · split <;> exact ⟨_, _, _, _, _, rfl⟩

/-- What is granted is a packet of the queue, which leaves it, and all else but the arbiter's own registers stays. -/
theorem arbitrate_grants {p : Port} (h : p.sendq ≠ []) :
    ∃ o rest a b n x y z, p.arbitrate = some (o, { p with
      cwt := a, dwt := b, arbNext := n, grantC := x, grantD := y, lastChan := z, sendq := rest }) ∧ o ∈ p.sendq ∧ rest.length + 1 = p.sendq.length := by
  unfold Port.arbitrate
  split
  next o rest ho => exact ⟨o, rest, _, _, _, _, _, _, rfl, takeFirst_some ho⟩
  next hn =>
    have hprio := takeFirst_none hn
    obtain ⟨a, b, n, x, y, hr⟩ := inRound_with p (p.sendq.any OutPacket.isColl) (p.sendq.any fun o => !o.isColl)
    dsimp only
    rw [hr]
    split
    next hg =>
      have hc : p.sendq.any OutPacket.isColl = true := (Bool.and_eq_true_iff.1 hg).1
      obtain ⟨o, rest, ho⟩ := takeFirst_isSome hc
      rw [ho]
      exact ⟨o, rest, _, _, _, _, _, _, rfl, takeFirst_some ho⟩
    next hg =>
      have hd : p.sendq.any (fun o => !o.isColl) = true := by
        by_contra hd
        have hcoll : p.sendq.any OutPacket.isColl = true := by
          obtain ⟨o, os, he⟩ := List.exists_cons_of_ne_nil h
          rw [he] at hd ⊢
          simp only [List.any_cons] at hd ⊢
          cases ho : o.isColl <;> simp_all
        obtain ⟨⟨z, hz, hzc⟩, -⟩ : (∃ z ∈ p.sendq, z.isColl = false) ∧ _ := by simpa [Port.grantsColl, hcoll, -List.any_eq_true] using hg
        exact hd (List.any_eq_true.2 ⟨z, hz, by simp [hzc]⟩)
      obtain ⟨o, ho, hoc⟩ := List.any_eq_true.1 hd
      obtain ⟨t, ht, o', ho', hc', hturn⟩ := nextTurn_some (p := { p with cwt := a, dwt := b, arbNext := n, grantC := x, grantD := y }) ho
        (by simpa using hoc) (hprio o ho)
      rw [ht]
      obtain ⟨o2, rest, h2⟩ := takeFirst_isSome (t := fun o => !o.isColl && o.turn == t) (List.any_eq_true.2 ⟨o', ho', by simp [hc', hturn]⟩)
      dsimp only
      rw [h2]
      exact ⟨o2, rest, _, _, _, _, _, _, rfl, takeFirst_some h2⟩

/-! ### Lanes and retraining (R149, R154) -/

theorem port_modPort_self (s : State) (q : Nat) (f : Port → Port) : (s.modPort q f).port q = f (s.port q) := State.port_setPort_self ..

theorem port_of_ports {s t : State} (h : t.ports = s.ports) (q : Nat) : t.port q = s.port q := congrArg (fun ps => mget ({} : Port) ps q) h

/-- A message to the host leaves the ports. -/
theorem messageIf_ports (s : State) (p : Prop) [Decidable p] (ws : List Word64) : (if p then s.message ws else s).ports = s.ports := by
  split
  · unfold State.message
    split <;> rfl
  · rfl

theorem errorLog_ports (s : State) (cause g x : Nat) (addr : Word64) : (s.errorLog cause g x addr).ports = s.ports := messageIf_ports ..

theorem portGoesDown_port (s : State) (q : Nat) : (s.portGoesDown q).port q = { s.port q with
    st := .down, width := 0, half := 0, sendq := [], unacked := [], resend := [], fresh := false, awaitHand := false, episodes := 0 } :=
  State.port_setPort_self ..

/-- A port that retrains, with the half on which it is to come up. -/
theorem retrain_port (s : State) (q lane : Nat) : (s.retrain q lane).port q = { s.port q with
    st := .retraining, wire := [], resend := [], fresh := false, since := s.uptime, awaitHand := false,
    targetHalf := if s.hostDoes 4 then 0 else 3 - halfOf q lane } := by
  have he : (s.retrain q lane).ports = (s.modPort q fun p => { p with
      st := .retraining, wire := [], resend := [], fresh := false, since := s.uptime, awaitHand := false,
      targetHalf := if s.hostDoes 4 then 0 else 3 - halfOf q lane }).ports := by
    exact (messageIf_ports ..).trans ((errorLog_ports ..).trans rfl)
  exact (port_of_ports he q).trans (port_modPort_self ..)

theorem halfFailed_iff (p : Port) (q : Nat) {half : Nat} (h : half = 1 ∨ half = 2) :
    p.halfFailed q half = true ↔ ∃ n < laneCount q / 2, p.failmask.testBit (if half = 1 then n else laneCount q / 2 + n) = true := by
  have heven : laneCount q / 2 + laneCount q / 2 = laneCount q := by unfold laneCount; split <;> rfl
  unfold Port.halfFailed halfOf
  simp only [List.any_eq_true, List.mem_range, Bool.and_eq_true, beq_iff_eq]
  rcases h with rfl | rfl
  · simp only [if_true]
    constructor
    · rintro ⟨n, -, hb, hh⟩
      exact ⟨n, by by_contra hc; simp [hc] at hh, hb⟩
    · rintro ⟨n, hn, hb⟩
      exact ⟨n, by omega, hb, if_pos hn⟩
  · simp only [show ¬ (2 : Nat) = 1 by omega, if_false]
    constructor
    · rintro ⟨n, hn, hb, hh⟩
      have hge : ¬ n < laneCount q / 2 := fun hc => by simp [hc] at hh
      exact ⟨n - laneCount q / 2, by omega, by rwa [Nat.add_sub_cancel' (by omega)]⟩
    · rintro ⟨n, hn, hb⟩
      exact ⟨laneCount q / 2 + n, by omega, hb, if_neg (by omega)⟩

theorem sendAck_port (s : State) (q : Nat) (nak err : Bool) :
    (s.sendAck q nak err).port q = (s.port q).transmit s.uptime (s.port q).seq ⟨header 0 0 false 0 0 0, []⟩ nak err := State.port_setPort_self ..

/-- A port that comes up on a half, and acknowledges. -/
def State.upOn (s : State) (q half : Nat) : State :=
  (s.setPort q { s.port q with st := .up, width := laneCount q / 2, half, awaitHand := true, since := s.uptime }).sendAck q false false

theorem retrainComplete_up {s u : State} {q half : Nat} (h : (s.port q).st = .retraining) (hc : s.chosenHalf q = (some half, u)) :
    ∃ t, Happens (.retrainComplete q) s t ∧ (t.port q).st = .up ∧ (t.port q).width = laneCount q / 2 ∧ (t.port q).half = half ∧
      (t.port q).awaitHand = true := by
  refine ⟨u.upOn q half, ?_, ?_⟩
  · show execRetrainComplete q s = _
    unfold execRetrainComplete
    rw [if_pos (by rw [h]; rfl), hc]
    rfl
  · rw [State.upOn, sendAck_port, State.port_setPort_self]
    exact ⟨rfl, rfl, rfl, rfl⟩

/-- The half that is chosen where none is fixed is one without a failed lane. -/
theorem chosenHalf_good {s : State} {q : Nat} (h0 : (s.port q).targetHalf = 0) (hg : (s.port q).goodHalves q ≠ []) :
    ∃ half ∈ (s.port q).goodHalves q, s.chosenHalf q = (some half, s.takeFree.2) := by
  have hlt : (Config.openWord s.free).toNat % ((s.port q).goodHalves q).length < ((s.port q).goodHalves q).length :=
    Nat.mod_lt _ (List.length_pos_iff.2 hg)
  refine ⟨_, List.getElem_mem hlt, ?_⟩
  unfold State.chosenHalf
  simp only [h0, if_true, State.takeFree, List.getElem?_eq_getElem hlt]

theorem mem_goodHalves {p : Port} {q half : Nat} : half ∈ p.goodHalves q ↔ (half = 1 ∨ half = 2) ∧ p.halfFailed q half = false := by
  simp [Port.goodHalves]

/-! ### Sending (R150 to R152) -/

theorem packetSend_sends {s : State} {q : Nat} (h : (s.port q).canSend = true) :
    Happens (.packetSend q) s (s.modPort q fun p => p.sendNext s.uptime) := if_pos h

theorem sendNext_resend {p : Port} {e : Nat × OutPacket} {rest : List (Nat × OutPacket)} (h : p.resend = e :: rest) (now : Nat) :
    (p.sendNext now).resend = rest ∧ (p.sendNext now).replays = (if p.fresh then min (p.replays + 1) 0xFFFFFFFF else p.replays) ∧
      (p.sendNext now).unacked = p.unacked := by
  unfold Port.sendNext
  rw [h]
  exact ⟨rfl, rfl, rfl⟩

theorem sendNext_new {p : Port} (h : p.resend = []) (hq : p.sendq ≠ []) (now : Nat) :
    ∃ o ∈ p.sendq, (p.sendNext now).unacked = p.unacked ++ [(p.seq, o)] ∧ (p.sendNext now).seq = (p.seq + 1) % 4096 ∧
      (p.sendNext now).sendq.length + 1 = p.sendq.length := by
  obtain ⟨o, rest, a, b, n, x, y, z, he, ho, hl⟩ := arbitrate_grants hq
  refine ⟨o, ho, ?_⟩
  unfold Port.sendNext
  rw [h, he]
  exact ⟨rfl, rfl, hl⟩

theorem startReplay_again {s : State} {q : Nat} (h : (s.port q).unacked ≠ []) (he : (s.port q).episodes < 16) :
    s.startReplay q = s.setPort q { s.port q with
      resend := (s.port q).unacked, episodes := (s.port q).episodes + 1, fresh := true, progressAt := s.uptime } := by
  unfold State.startReplay
  simp only [List.isEmpty_eq_false_iff.2 h, Bool.false_eq_true, if_false, Nat.not_le.2 he]

/-- A lane fails that the port still has: what its half says. -/
theorem laneFail_up {s : State} {q lane : Nat} (hl : lane < laneCount q) (hb : (s.port q).failmask.testBit lane = false) (hst : (s.port q).st = .up) :
    let u := s.setPort q { s.port q with failmask := (s.port q).failmask + 2 ^ lane }
    ((s.port q).half = 0 → Happens (.laneFail q lane) s (u.retrain q lane)) ∧
    ((s.port q).half = halfOf q lane → Happens (.laneFail q lane) s ((u.portGoesDown q).loseWire q)) := by
  have hg : ¬ ((decide (laneCount q ≤ lane) || (s.port q).failmask.testBit lane) = true) := by simp [hb, hl]
  have h0 : halfOf q lane ≠ 0 := by
    unfold halfOf
    split <;> decide
  constructor
  · intro hh
    show execLaneFail q lane s = _
    unfold execLaneFail
    simp only [if_neg hg, hst, hh, if_true]
  · intro hh
    show execLaneFail q lane s = _
    unfold execLaneFail
    simp only [if_neg hg, hst, hh, h0, if_true, if_false]

/-- Settles O41: by the events of a port, each under the condition of its rule. -/
theorem portEvents : Obligations.PortEvents := by
  intro s q lane
  dsimp only
  have hlanes : (if q = 12 then 32 else 16) = laneCount q := rfl
  rw [hlanes]
  refine ⟨?_, ?_, ?_, ?_, ?_, ?_, ?_, ?_, ?_⟩
  · intro hl hb hst hh hd
    refine ⟨_, (laneFail_up hl hb hst).1 hh, ?_⟩
    rw [retrain_port, State.port_setPort_self]
    refine ⟨rfl, rfl, ?_⟩
    have hd' : (s.setPort q { s.port q with failmask := (s.port q).failmask + 2 ^ lane }).hostDoes 4 = false := hd
    rw [hd']
    show 3 - halfOf q lane = _
    unfold halfOf
    split <;> rfl
  · intro hl hb hst hh
    refine ⟨_, (laneFail_up hl hb hst).2 hh, ?_⟩
    rw [State.loseWire, port_modPort_self, portGoesDown_port]
    exact ⟨rfl, rfl⟩
  · intro hst
    refine ⟨fun h0 => retrainComplete_up hst (if_neg h0), fun h0 hf => ?_, fun h0 h1 h2 => ?_⟩
    · rw [← halfFailed_iff (s.port q) q (.inl rfl), ← halfFailed_iff (s.port q) q (.inr rfl)] at hf ⊢
      have hg : (s.port q).goodHalves q ≠ [] := by
        intro hn
        have hall (half : Nat) (hh : half = 1 ∨ half = 2) : (s.port q).halfFailed q half = true := by
          by_contra hc
          exact List.not_mem_nil (hn ▸ mem_goodHalves.2 ⟨hh, by simpa using hc⟩)
        exact hf ⟨hall 1 (.inl rfl), hall 2 (.inr rfl)⟩
      obtain ⟨half, hmem, hc⟩ := chosenHalf_good h0 hg
      obtain ⟨rfl | rfl, hgood⟩ := mem_goodHalves.1 hmem
      · exact .inl ⟨retrainComplete_up hst hc, by simp [hgood]⟩
      · exact .inr ⟨retrainComplete_up hst hc, by simp [hgood]⟩
    · have hnone : s.chosenHalf q = (none, { s with free := s.free + 1 }) := by
        have hg : (s.port q).goodHalves q = [] := by
          simp [Port.goodHalves, (halfFailed_iff (s.port q) q (.inl rfl)).2 h1, (halfFailed_iff (s.port q) q (.inr rfl)).2 h2]
        unfold State.chosenHalf
        simp only [h0, hg, if_true, State.takeFree, List.getElem?_nil]
      show execRetrainComplete q s = _
      unfold execRetrainComplete
      rw [if_pos (by rw [hst]; rfl), hnone]
  · intro hst ha hu
    refine if_pos ?_
    simp [hst, ha, replayCycles, hu]
  · intro hst ha hu hp he
    refine (if_pos ?_).trans (congrArg _ (startReplay_again hu he))
    simp [hst, ha, hu, replayCycles, hp]
  · intro e rest hst ha hr
    refine ⟨_, packetSend_sends ?_, ?_⟩
    · simp [Port.canSend, hst, ha, hr]
    · rw [port_modPort_self]
      exact sendNext_resend hr _
  · intro hst h0 hi
    refine if_pos ?_
    simp [hst, h0, idleCycles, hi]
  · intro hst
    exact if_neg (by simp [hst])
  · intro hst ha hr hlen hq
    obtain ⟨o, ho, h⟩ := sendNext_new hr hq s.uptime
    refine ⟨_, o, packetSend_sends ?_, ho, ?_⟩
    · simp [Port.canSend, hst, ha, hr, replayWindow, hlen, hq]
    · rw [port_modPort_self]
      exact h

end Sys2Proof.Machine
end

