-- ==== Sys2Proof/Proofs/Channels.lean ====
section
/-! Channels of the copy engine as events (R83, R122 to R131, R138): records read and completed, sectors, knocks, and pages that move. -/

namespace Sys2Proof.Machine

section
variable {s : State} {g c : Nat}

/-! ### Reading a record (R122, R127, R128) -/

theorem channelRecordRead_reads (ha : (s.chan g c).active = true) (hw : (s.chan g c).words = none) :
    exec (.channelRecordRead g c) s = chanNext (readRecord s g c) := by
  show execChannelRecordRead g c s = _
  unfold execChannelRecordRead
  simp only [ha, hw, Bool.not_true, Bool.false_eq_true, if_false]

theorem readRecord_parks {l : Loc} (hl : recLoc s g c = .ok l) (hb : bit ((s.blockWords l.key).getD 0 0) 5 = false) :
    readRecord s g c = .ok (s.setChan g c { s.chan g c with st := .parked }) := by
  unfold readRecord
  simp only [hl, hb, bind, Except.bind, Bool.not_false, if_true]

theorem readRecord_begins {l : Loc} (hl : recLoc s g c = .ok l) (hb : bit ((s.blockWords l.key).getD 0 0) 5 = true) (hwr : l.wr = true)
    (hf : recFieldsBad (s.blockWords l.key) = false) (hs : recShapeBad (s.chan g c) (s.blockWords l.key) = false)
    (hn : (s.core g).recSlotsBad (s.blockWords l.key) = false) (hk : recKind (s.blockWords l.key) ≠ 4) :
    let ws := s.blockWords l.key
    let first := if recStatus ws = 3 then recProg ws else 0
    readRecord s g c = .ok ((s.putRecord g (s.chan g c).record 6 (first * 2 ^ 32 + 1)).modChan g c fun k => { k with
      words := some ws, sector := first, sent := first, saved := false, waitsPage := false,
      agreed := if first = 0 then [] else mget [] s.halted k.record }) := by
  have hk' : (recKind (s.blockWords l.key) == 4) = false := beq_false_of_ne hk
  unfold readRecord
  simp only [hl, hb, hwr, hf, hs, hn, hk, hk', bind, Except.bind, Bool.not_true, Bool.false_eq_true, if_false, Bool.or_self]

theorem readRecord_faults {l : Loc} (hl : recLoc s g c = .ok l) (hb : bit ((s.blockWords l.key).getD 0 0) 5 = true)
    (h : l.wr = false ∨ recFieldsBad (s.blockWords l.key) = true) : readRecord s g c = recFault s g c := by
  have hc : (!l.wr || recFieldsBad (s.blockWords l.key) || recShapeBad (s.chan g c) (s.blockWords l.key) ||
      (s.core g).recSlotsBad (s.blockWords l.key)) = true := by
    rcases h with h | h <;> simp [h]
  unfold readRecord
  simp only [hl, hb, hc, recFault, chanFault, bind, Except.bind, Bool.not_true, Bool.false_eq_true, if_false, if_true]

theorem recProg_eq (ws : List Word64) : recProg ws = (ws.getD 6 0).toNat / 2 ^ 32 := Nat.mod_eq_of_lt (Nat.div_lt_of_lt_mul (ws.getD 6 0).isLt)

theorem recStatus_eq (ws : List Word64) : recStatus ws = (ws.getD 6 0).toNat % 256 := bits_low_byte _

/-! ### What a stored record leaves, and completion (R129) -/

/-- `t` differs from `s` in bytes, descriptors and poison marks at most. -/
def OnlyStored (s t : State) : Prop := ∃ m d p, t = { s with mem := m, desc := d, poisoned := p }

theorem OnlyStored.refl (s : State) : OnlyStored s s := ⟨_, _, _, rfl⟩

theorem OnlyStored.trans {s t u : State} (h : OnlyStored s t) (h' : OnlyStored t u) : OnlyStored s u := by
  obtain ⟨m, d, p, rfl⟩ := h
  obtain ⟨m', d', p', rfl⟩ := h'
  exact ⟨m', d', p', rfl⟩

theorem OnlyStored.chan {s t : State} (h : OnlyStored s t) (g c : Nat) : t.chan g c = s.chan g c := by
  obtain ⟨m, d, p, rfl⟩ := h
  rfl

theorem OnlyStored.foldl {α : Type} {f : State → α → State} (hf : ∀ u a, OnlyStored u (f u a)) (l : List α) (s : State) :
    OnlyStored s (l.foldl f s) := by
  induction l generalizing s with
  | nil => exact .refl s
  | cons a l ih => exact (hf s a).trans (ih _)

theorem onlyStored_writePart (s : State) (keys : List Nat) (n v : Nat) : OnlyStored s (s.writePart keys n v) := by
  obtain ⟨m, hm⟩ := writePart_only s keys n v
  exact ⟨m, _, _, hm⟩

theorem onlyStored_writeBlock (s : State) (keys : List Nat) (b : VVal) : OnlyStored s (s.writeBlock keys b) := by
  obtain ⟨m, d, h⟩ := writeBlock_only s keys b
  exact ⟨m, d, _, h⟩

theorem onlyStored_putBlockDesc (s : State) (keys : List Nat) (d : Desc) : OnlyStored s (s.putBlockDesc keys d) := by
  refine OnlyStored.foldl (fun u key => ?_) keys s
  split
  · exact .refl u
  · split <;> exact ⟨_, _, _, rfl⟩

theorem onlyStored_putFlight (s : State) (f : Flight) : OnlyStored s (s.putFlight f) := by
  unfold State.putFlight
  dsimp only
  split
  · split <;> exact ⟨_, _, _, rfl⟩
  · split
    · exact onlyStored_writeBlock ..
    · split
      · exact onlyStored_writeBlock ..
      · exact (onlyStored_writePart ..).trans (onlyStored_putBlockDesc ..)

theorem onlyStored_putLate (s : State) (f : Flight) : OnlyStored s (s.putLate f) := by
  unfold State.putLate
  split <;> exact onlyStored_putFlight ..

theorem chan_putRecord (s : State) (g c rec n v : Nat) : (s.putRecord g rec n v).chan g c = s.chan g c := (onlyStored_writePart ..).chan g c

theorem completeRecord_plain {ws : List Word64} (hws : (s.chan g c).words = some ws) (hk : recKind ws ≠ 4)
    (h47 : bit (ws.getD 1 0) 47 = false) (h63 : bit (ws.getD 1 0) 63 = false) (hknock : bit (ws.getD 5 0) 63 = false)
    (hl : (s.chan g c).leave = false) (hkeys : s.recordKeys g (s.chan g c).record ≠ []) :
    let k := s.chan g c
    let next := (ws.getD 0 0).toNat / 64 * 64
    completeRecord s g c = .ok (((s.putRecord g k.record 6 (s.recSectors k ws * 2 ^ 32 + 2)).putRecord g k.record 0 next).modChan g c fun k =>
      let k := { k with words := none, sector := 0, leave := false, leaveAsked := false, lastDone := k.record, next }
      if k.sending.isSome then k else k.goOn) := by
  have he : (s.recordKeys g (s.chan g c).record).isEmpty = false := List.isEmpty_eq_false_iff.2 hkeys
  unfold completeRecord
  simp only [hws, Option.getD_some, he, hk, h47, h63, hknock, hl, bind, Except.bind, Bool.false_eq_true, if_false]

/-- A record that is done was read, and its channel is at work. -/
theorem recordDone_reads (h : s.recordDone g c = true) : (s.chan g c).active = true ∧ ∃ ws, (s.chan g c).words = some ws := by
  unfold State.recordDone at h
  obtain ⟨ha, hw⟩ := Bool.and_eq_true_iff.1 h
  refine ⟨ha, ?_⟩
  split at hw
  next ws hws => exact ⟨ws, hws⟩
  next => cases hw

theorem active_iff {k : Chan} : k.active = true ↔ k.st = .walking ∧ k.walk = none ∧ k.sending = none := by
  simp [Chan.active, and_assoc]

/-! ### Sectors (R126, R130, R131) -/

theorem sectorComplete_steps (h : s.sectorLeft g c = true) : exec (.sectorComplete g c) s = chanNext (sectorStep s g c) := if_pos h

theorem sectorLeft_of_flight (h : (s.chan g c).flight ≠ []) : s.sectorLeft g c = true := by
  simp [State.sectorLeft, h]

theorem sectorLeft_of_waits (h : s.sectorWaits g c = true) : s.sectorLeft g c = true := by
  simp [State.sectorLeft, h]

theorem sectorStep_ends (h : (s.chan g c).flight ≠ []) : sectorStep s g c = .ok (s.endFlight g c) := by
  have he : (!(s.chan g c).flight.isEmpty) = true := by simp [h]
  unfold sectorStep
  simp only [he, if_true]

/-- A sector of a plain copy that needs no leave. -/
theorem sectorStep_copies (hf : (s.chan g c).flight = []) (hw : s.sectorWaits g c = true) (hk : recKind ((s.chan g c).words.getD []) = 0)
    (hlen : recLen ((s.chan g c).words.getD []) ≤ 16384) : sectorStep s g c = copySector s g c := by
  have hstop : (s.chan g c).stopping = none := by
    unfold State.sectorWaits at hw
    simpa using (Bool.and_eq_true_iff.1 (Bool.and_eq_true_iff.1 hw).1).2
  have hremote : s.remoteAcked g c = false := by
    unfold State.remoteAcked
    simp [hk]
  have hburst : needsBurst ((s.chan g c).words.getD []) = false := by
    rw [needsBurst, burstBytes, decide_eq_false (by omega), Bool.and_false]
  have he : (!(s.chan g c).flight.isEmpty) = false := by simp [hf]
  unfold sectorStep
  simp only [he, hremote, hstop, hw, Bool.and_false, Bool.false_eq_true, if_false, if_true]
  unfold sectorIssue
  simp only [hburst, hk, Bool.false_and, Bool.false_eq_true, if_false]

theorem recSector_eq (ws : List Word64) : recSector ws = 64 * 2 ^ ((ws.getD 1 0).toNat / 256 % 16) := rfl

theorem recLen_eq (ws : List Word64) : recLen ws = (ws.getD 4 0).toNat % 2 ^ 32 := by simp [recLen, bits]

theorem recKind_eq (ws : List Word64) : recKind ws = (ws.getD 1 0).toNat % 16 := by simp [recKind, bits]

theorem sectorSpan_plain (s : State) {k : Chan} (hk : recKind (k.words.getD []) = 0) :
    s.sectorSpan k = (k.sector * recSector (k.words.getD []),
      min (recSector (k.words.getD [])) (recLen (k.words.getD []) - k.sector * recSector (k.words.getD []))) := by
  unfold State.sectorSpan State.recBytes
  simp only [hk, show ¬ (0 : Nat) = 4 by omega, if_false]

theorem sectorRanges_plain (s : State) {k : Chan} (hk : recKind (k.words.getD []) = 0) :
    s.sectorRanges k = [((recDst (k.words.getD [])).toNat + (s.sectorSpan k).1,
      (recDst (k.words.getD [])).toNat + (s.sectorSpan k).1 + (s.sectorSpan k).2)] := by
  unfold State.sectorRanges
  simp [hk]

theorem chan_foldl_putLate (s : State) (l : List Flight) (g c : Nat) : (l.foldl State.putLate s).chan g c = s.chan g c :=
  (OnlyStored.foldl onlyStored_putLate l s).chan g c

/-- The parts of a copied sector as the record words give them. -/
theorem sectorSpan_words (s : State) {k : Chan} (hk : recKind (k.words.getD []) = 0) :
    s.sectorSpan k = (k.sector * (64 * 2 ^ (((k.words.getD []).getD 1 0).toNat / 256 % 16)),
      min (64 * 2 ^ (((k.words.getD []).getD 1 0).toNat / 256 % 16)) (((k.words.getD []).getD 4 0).toNat % 2 ^ 32 -
        k.sector * (64 * 2 ^ (((k.words.getD []).getD 1 0).toNat / 256 % 16)))) := by
  rw [sectorSpan_plain s hk, recSector_eq, recLen_eq]

theorem copySector_takesOff {src dst : List (Nat × Loc)} {vs : List VVal} {lo len : Nat} (hspan : s.sectorSpan (s.chan g c) = (lo, len))
    (hsrc : blockLocs s g c ((recSrc ((s.chan g c).words.getD [])).toNat + lo) false (len / 64) = .ok src)
    (hdst : blockLocs s g c ((recDst ((s.chan g c).words.getD [])).toNat + lo) true (len / 64) = .ok dst)
    (hvs : sourceBlocks s g c src = .ok vs) :
    copySector s g c = .ok (s.takeOff g c ((dst.zip vs).map fun x => x.1.2.flight 64 x.2.data.toNat x.2.desc)) := by
  unfold copySector
  simp only [hspan, hsrc, hdst, hvs, bind, Except.bind]

/-- When nothing of the sector waits for a tile, the sector is done. -/
theorem endFlight_done {rs : List (Nat × Nat)} (hf : (s.chan g c).flight ≠ []) (hheld : (s.chan g c).flight.filter s.flightOwned = [])
    (hrs : (((s.chan g c).flight.filter fun f => !s.flightOwned f).foldl State.putLate s).sectorRanges (s.chan g c) = rs) :
    s.endFlight g c = ((((s.chan g c).flight.filter fun f => !s.flightOwned f).foldl State.putLate s).modChan g c fun k =>
      { k.wrote rs with sector := k.sector + 1 }).modChan g c fun k => { k with flight := [] } := by
  have he : (s.chan g c).flight.isEmpty = false := List.isEmpty_eq_false_iff.2 hf
  unfold State.endFlight State.sectorDone
  simp only [he, hheld, List.isEmpty_nil, chan_foldl_putLate, hrs, Bool.false_eq_true, if_false, if_true]

theorem endFlight_held (hf : (s.chan g c).flight ≠ []) (hheld : (s.chan g c).flight.filter s.flightOwned ≠ []) :
    s.endFlight g c = (((s.chan g c).flight.filter fun f => !s.flightOwned f).foldl State.putLate s).modChan g c fun k =>
      { k with flight := (s.chan g c).flight.filter s.flightOwned } := by
  have he : (s.chan g c).flight.isEmpty = false := List.isEmpty_eq_false_iff.2 hf
  have hh : ((s.chan g c).flight.filter s.flightOwned).isEmpty = false := List.isEmpty_eq_false_iff.2 hheld
  unfold State.endFlight
  simp only [he, hh, Bool.false_eq_true, if_false]

theorem sector_copies : Statements.CopySector := by
  intro s g c src dst vs k ws lo len from_ to_ hkind
  have hk : recKind ws = 0 := (recKind_eq ws).trans hkind
  have hspan : ∀ u : State, u.sectorSpan k = (lo, len) := fun u => sectorSpan_words u hk
  refine ⟨fun hf hw hlen hsrc hdst hvs => ?_, fun hf => ⟨fun hheld => ?_, fun hheld => ?_⟩⟩
  · refine (sectorComplete_steps (sectorLeft_of_waits hw)).trans ?_
    rw [sectorStep_copies hf hw hk ((recLen_eq _).trans_le hlen), copySector_takesOff (hspan s) hsrc hdst hvs]
    rfl
  · refine (sectorComplete_steps (sectorLeft_of_flight hf)).trans ?_
    rw [sectorStep_ends hf, endFlight_done (rs := [(to_, to_ + len)]) hf hheld]
    · rfl
    · rw [sectorRanges_plain _ hk, hspan]
      rfl
  · refine (sectorComplete_steps (sectorLeft_of_flight hf)).trans ?_
    rw [sectorStep_ends hf, endFlight_held hf hheld]
    rfl

/-! ### Knocks (R138, R140) and pages that move (R83) -/

theorem ownKnock_delivers {k : Knock} (h : (g, k) ∈ s.knocksOut) :
    s.ownKnock g k = ({ s with knocksOut := s.knocksOut.erase (g, k), cores := knockSent (g, k) s.cores }).deliverKnock g k :=
  if_pos (List.contains_iff_mem.2 h)

theorem deliverKnock_starts {k : Knock} {x : Nat} (h : (s.core g).armedCtx = some x) (hp : s.preempting = false) :
    s.deliverKnock g k = s.startByKnock g x k := by
  unfold State.deliverKnock
  simp only [h, hp, Bool.false_eq_true, if_false]

theorem deliverKnock_queues {k : Knock} (h : (s.core g).armedCtx = none) : s.deliverKnock g k = s.queueKnock g k := by
  unfold State.deliverKnock
  simp only [h]

theorem restripeCutover_next {m : Migration} (hr : s.moverReaches = true) (hm : s.migrationAt g = some m) (hc : m.cutover = false)
    (hp : s.pageCopied m = true) : exec (.restripeCutover g) s =
      .next ((s.landFlights.writePhys m.entryPa 8 (movedEntry m 2)).setMigration { m with cutover := true }) := by
  show execRestripeCutover g s = _
  unfold execRestripeCutover
  simp only [hr, hm, hc, hp, Bool.not_false, Bool.and_true, if_true]

theorem restripeStable_next {m : Migration} (hr : s.moverReaches = true) (hm : s.migrationAt g = some m) (hc : m.cutover = true)
    (ht : s.taskNames m = false) : ∃ u, exec (.restripeStable g) s = .next u ∧ ∀ n ∈ u.migrations, n.va ≠ m.va := by
  let u := (s.landFlights.tlbDrop m.va).writePhys m.entryPa 8 (movedEntry m 0)
  let v : State := { u with migrations := u.migrations.filter fun n => n.va != m.va }
  refine ⟨v.modChan m.g m.chan fun k => if k.restripe = some m.va then { k with restripe := none } else k, ?_, fun n hn => ?_⟩
  · show execRestripeStable g s = _
    unfold execRestripeStable
    simp only [hr, hm, hc, ht, Bool.not_false, Bool.and_true, if_true]
    rfl
  · simpa using (List.mem_filter.1 (hn : n ∈ v.migrations)).2

theorem recordCompletion_completes (hd : s.recordDone g c = true) : exec (.recordCompletion g c) s = chanNext (completeRecord s g c) := if_pos hd

end

theorem channelEvents_state : Statements.ChannelEvents := by
  intro s t g c k ws
  refine ⟨fun l ha hw hl => ⟨fun hb => ?_, fun hb hwr hf hs hn hk => ?_, fun hb h => ?_⟩, fun hleft hstep => ?_,
    fun hd hk h47 h63 hkn hl hkeys => ?_, fun kpc karg dst hmem => ⟨fun x hx hp => ?_, fun hx hlen => ?_, fun hx hlen => ?_⟩,
    fun m hr hm => ⟨fun hc hp => restripeCutover_next hr hm hc hp, fun hc ht => restripeStable_next hr hm hc ht⟩⟩
  · exact (channelRecordRead_reads ha hw).trans (congrArg chanNext (readRecord_parks hl hb))
  · have h := (channelRecordRead_reads ha hw).trans (congrArg chanNext (readRecord_begins hl hb hwr hf hs hn hk))
    simp only [recStatus_eq, recProg_eq] at h
    exact h
  · exact (channelRecordRead_reads ha hw).trans (congrArg chanNext (readRecord_faults hl hb h))
  · exact (sectorComplete_steps hleft).trans (congrArg chanNext hstep)
  · obtain ⟨ha, ws', hws⟩ := recordDone_reads hd
    obtain ⟨hst, -, hsend⟩ := active_iff.1 ha
    have hwsd : ws = ws' := congrArg (·.getD []) hws
    rw [← hwsd] at hws
    refine (recordCompletion_completes hd).trans ((congrArg chanNext (completeRecord_plain hws hk h47 h63 hkn hl hkeys)).trans ?_)
    show Host.Outcome.next _ = Host.Outcome.next _
    unfold State.modChan
    simp only [chan_putRecord, hsend, Option.isSome_none, Bool.false_eq_true, if_false, Chan.goOn, hst]
    exact rfl
  · refine congrArg Host.Outcome.next ((ownKnock_delivers hmem).trans (deliverKnock_starts hx hp))
  · refine congrArg Host.Outcome.next ((ownKnock_delivers hmem).trans ((deliverKnock_queues hx).trans (if_pos hlen)))
  · refine congrArg Host.Outcome.next ((ownKnock_delivers hmem).trans ((deliverKnock_queues hx).trans (if_neg (Nat.not_lt.2 hlen))))

/-- Settles O35: each event by the model's equation of the record, the sector, the knock or the page that it concerns. -/
theorem channelEvents : Obligations.ChannelEvents := ⟨channelEvents_state, sector_copies⟩

end Sys2Proof.Machine
end

