-- ==== Sys2Proof/Proofs/Engines.lean ====
section
/-! The engines as events (R9, R180, R197, R258, R261, R267, R355, R394, R404): fills, starts of matrix operations, drains, leave and class runs. -/

namespace Sys2Proof.Machine

section
variable {s : State} {g n : Nat}

theorem oloadFillComplete_fills {j : FillJob} {d : Desc} (hj : ((s.core g).slot n).job = some j) (hf : s.engineFrozen g = false)
    (hs : s.soundSrc (.fill g n) = true) (hd : fillDesc j.blocks 0 = .ok d) :
    exec (.oloadFillComplete g n) s = .next (s.setCore g ((s.core g).setSlot n (((s.core g).slot n).filled j.blocks d))) := by
  show execOloadFillComplete g n s = _
  unfold execOloadFillComplete
  simp only [hj, hf, hs, hd, Bool.not_true, Bool.or_self, Bool.false_eq_true, if_false]

/-! ### Starts of matrix operations -/

section
variable {o : MatOp} {rest : List MatOp} (hq : (s.core g).queue = o :: rest) (hdue : s.headDue g = true)
  (hb : (s.core g).headBlocked o = false) (hf : s.startFault g o = none)
include hq hdue hb hf

theorem matrixOpStart_starts (h : ((s.core g).needsLeave o && !s.leaveNow (clusterOf g)) = false) :
    let u := if (s.core g).leave then s else s.holdLeave (clusterOf g)
    exec (.matrixOpStart g) s = .next (u.setCore g { (s.core g).fixScale o with
      leave := true, queue := rest, array := some (o, s.engineClock g + o.time) }) := by
  show execMatrixOpStart g s = _
  unfold execMatrixOpStart
  simp only [hq, hdue, hb, h, hf, Bool.not_true, Bool.false_eq_true, if_false]
  cases (s.core g).leave <;> rfl

omit hf in
theorem matrixOpStart_asks (hn : (s.core g).needsLeave o = true) (hl : s.leaveNow (clusterOf g) = false)
    (ha : (s.core g).leaveAsked = false) : exec (.matrixOpStart g) s =
      .next ((s.setCore g { s.core g with leaveAsked := true }).deferLeave (clusterOf g) (.engine g)) := by
  show execMatrixOpStart g s = _
  unfold execMatrixOpStart
  simp only [hq, hdue, hb, hn, hl, ha, Bool.not_true, Bool.not_false, Bool.and_self, Bool.false_eq_true, if_false, if_true]

end

/-! ### Drains -/

theorem drainStart_starts {d : Drain} {rest : List Drain} (hd : (s.core g).drains = d :: rest) (hm : s.drainMayStart g = true) (hdet : s.det = false) :
    exec (.drainStart g) s = .next (s.setCore g { (s.core g).beginFill ((s.core g).drainTarget d) with
      drains := rest, port := some ({ d with dst := (s.core g).drainTarget d }, s.engineClock g + 32), idleSince := s.engineClock g }) := by
  show execDrainStart g s = _
  unfold execDrainStart
  simp only [hd, hm, hdet, drainTime, Bool.false_eq_true, if_false, if_true, Nat.add_zero]

theorem drainComplete_completes {d : Drain} {e : Nat} (hp : (s.core g).port = some (d, e)) (hd : s.drainDue g = true) :
    let w := s.drainWrite g d
    let t := (s.core g).tile d.acc
    let u := if d.live then w.1.modCtx g d.ctx fun k => k.apply (.flagsOr (t.flags ||| w.2)) else w.1
    exec (.drainComplete g) s = .next ((if ctlZero d.ctl then u.resetTile g d.acc t.mode else u).modCore g fun c =>
      { c with port := none, lastPc := d.pc }) := by
  show execDrainComplete g s = _
  unfold execDrainComplete
  simp only [hp, hd, if_true]

/-! ### Leave -/

theorem leaveGrant_grants {a : LeaveAsk} {rest : List LeaveAsk} (ha : (s.cluster n).asks = a :: rest)
    (h : s.det = true ∨ (s.cluster n).hold < (s.cluster n).limit) :
    exec (.leaveGrant n) s = .next (((s.setCluster n { s.cluster n with asks := rest }).holdLeave n).markLeave n a) := by
  have hc : (s.det || decide ((s.cluster n).hold < (s.cluster n).limit)) = true := by
    rcases h with h | h <;> simp [h]
  show execLeaveGrant n s = _
  unfold execLeaveGrant
  simp only [ha, hc, if_true]

theorem leaveOver_of_idle (hl : (s.core g).leave = true) (hq : (s.core g).queue = []) (ha : (s.core g).array = none)
    (hd : (s.core g).drains = []) (ht : s.taskOn g = none) (hi : (s.core g).idleSince + 64 ≤ s.engineClock g) : s.leaveOver g = true := by
  simp [State.leaveOver, State.longIdle, State.noCommand, State.idleFrom, State.taskComputes, leaveIdle, hl, hq, ha, hd, ht, hi]

end

/-- Settles O36: each event by its equation under the conditions of its rule. -/
theorem engineEvents : Obligations.EngineEvents := by
  intro s g n c
  refine ⟨fun j d hj hf hs hd => oloadFillComplete_fills hj hf hs hd, fun o rest hq hdue hb hf => ⟨fun hl => ?_, fun hl h => ?_, fun hn hl ha => ?_⟩,
    fun d rest hd hm hdet => drainStart_starts hd hm hdet, fun d e hp hd => drainComplete_completes hp hd,
    fun a rest ha h => leaveGrant_grants ha h, fun hl hq ha hd ht hi => if_pos (leaveOver_of_idle hl hq ha hd ht hi), fun h => if_pos h⟩
  · have hneed : (c.needsLeave o && !s.leaveNow (clusterOf g)) = false := by simp [Core.needsLeave, hl]
    refine (matrixOpStart_starts hq hdue hb hf hneed).trans ?_
    rw [if_pos hl]
  · have hneed : (c.needsLeave o && !s.leaveNow (clusterOf g)) = false := by
      rcases h with h | h
      · rw [h, Bool.false_and]
      · rw [clusterOf, h, Bool.not_true, Bool.and_false]
    refine (matrixOpStart_starts hq hdue hb hf hneed).trans ?_
    rw [if_neg (by simp [c] at hl; simp [hl])]
    rfl
  · exact matrixOpStart_asks hq hdue hb hn hl ha

end Sys2Proof.Machine
end

