-- ==== Sys2Proof/Proofs/TasksAndCollectives.lean ====
section
/-! Tile tasks and collective engines as events (R163, R269, R270). -/

namespace Sys2Proof.Machine

/-! ### Tile tasks -/

section
variable {s : State} {cl q g n : Nat} {t : Task} {home : Extent}

theorem taskDispatch_dispatches (hh : s.taskHome cl q t = .ok home) (hd : s.dispatchable cl q = some (t, n))
    (h : (t.leave || s.leaveNow cl) = true) : exec (.taskDispatch cl q) s =
      .next (((if t.leave then s else s.holdLeave cl).modCluster cl fun c => c.modTask q t.id fun t =>
        { t with dispatched := true, host := n, leave := true }).putState home 2) := by
  show execTaskDispatch cl q s = _
  unfold execTaskDispatch
  simp only [hd, h, hh, engineNext, bind, Except.bind, if_true]

theorem taskRunStart_starts {l : List Extent} (hg : (s.cluster cl).givenTo (coreOf g) = some (q, t)) (hm : s.runMayStart g t = true)
    (ha : (t.word 4).toNat % 64 = 0) (ho : t.outside = none) (hl : s.extents cl 5 t.declared = .ok l) (hc : s.extentCount l ≤ 32)
    (hh : s.taskHome cl q t = .ok home) : exec (.taskRunStart cl g) s =
      .next (((s.modCluster cl fun c => c.modTask q t.id fun t =>
        { t with built := true, extents := l, home := some home, startAt := s.engineClock g }).putState home 3).resetTile g 15 (t.op 0).mode) := by
  have hc' : ¬ extentMax < s.extentCount l := Nat.not_lt.2 hc
  show execTaskRunStart cl g s = _
  unfold execTaskRunStart
  simp only [hg, hm, ha, ho, hl, hc', hh, engineNext, bind, Except.bind, Bool.not_true, Bool.false_eq_true, ne_eq, not_true_eq_false, if_false, taskTile]

theorem taskComplete_completes {u : State} (hr : (s.cluster cl).runningOn (coreOf g) = some (q, t)) (hd : s.taskDue cl g = true)
    (hu : s.taskSteps g t 0 t.kt = .ok u) (hh : t.home = some home) (hz : ctlZero (t.word 5) = false) (hs : bit (t.word 1) 63 = false) :
    let tile := (u.core g).tile 15
    let w := u.taskDrain g t
    exec (.taskComplete cl g) s = .next
      ((((w.1.putState home (taskResult (coreOf g) tile.poison (tile.flags ||| w.2))).modCluster cl fun c =>
        { c.setQueue q ((c.queue q).filter fun (u : Task) => u.id != t.id) with tags := c.tags.erase t.tag }).dropLeave cl).modCore g fun c =>
          { c with lastPc := t.pc, idleSince := max c.idleSince (t.startAt + t.products) }) := by
  show execTaskComplete cl g s = _
  unfold execTaskComplete
  simp only [hr, hd, hu, hh, hz, hs, engineNext, bind, Except.bind, Bool.not_true, Bool.false_eq_true, if_false, taskTile]

end

theorem taskEvents : Statements.TaskEvents := by
  intro s cl q g n t home
  refine ⟨fun hh hd => ⟨fun hl => ?_, fun hl hn => ?_⟩, fun l hg hm ha ho hl hc hh => taskRunStart_starts hg hm ha ho hl hc hh,
    fun u hr hd hu hh hz hs => taskComplete_completes hr hd hu hh hz hs⟩
  · refine (taskDispatch_dispatches hh hd (by rw [hl, Bool.true_or])).trans ?_
    rw [if_pos hl]
  · refine (taskDispatch_dispatches hh hd (by rw [hn, Bool.or_true])).trans ?_
    rw [if_neg (by simp [hl])]

/-! ### Collective engines -/

section
variable {s u : State} {d : Nat} {j : CollJob} {rest : List CollJob}

theorem collNext_head (hr : (s.coll d).running = none) (hj : (s.coll d).jobs = j :: rest) : s.collNext d = some j := by
  unfold State.collNext
  simp [hr, hj]

theorem collSignal_reads {v : Nat} (hn : s.collNext d = some j) (hd : s.signalDue d = true)
    (hu : (if j.waitsSig then .ok s else s.putCollStatus d j 2) = Except.ok u)
    (hv : (u.setColl d ((u.coll d).modCurrent fun j => { j with waitsSig := true })).collSignalWord d j = .ok v) :
    let w := u.setColl d ((u.coll d).modCurrent fun j => { j with waitsSig := true })
    exec (.collSignal d) s = .next (w.setColl d ((w.coll d).modCurrent fun k => { k with
      signalled := decide ((j.words.getD 5 0).toNat ≤ v) })) := by
  show execCollSignal d s = _
  unfold execCollSignal collSignal
  simp only [hn, hd, hu, hv, chanNext, bind, Except.bind, if_true]

theorem collStart_starts (hr : (s.coll d).running = none) (hj : (s.coll d).jobs = j :: rest) (hd : s.startDueColl d = true)
    (hp : s.collPortDown j.words = none) (hu : s.putCollStatus d j 3 = .ok u) : exec (.collStart d) s =
      .next ((u.setColl d { u.coll d with jobs := rest, running := some j }).collBuild d j) := by
  show execCollStart d s = _
  unfold execCollStart
  simp only [hr, hj, hd, hp, hu, Bool.not_true, Bool.false_eq_true, if_false]

theorem collComplete_completes (hr : (s.coll d).running = some j) (hd : s.collDone d = true) (hs : bit (j.words.getD 6 0) 63 = false)
    (hu : s.putCollStatus d j (j.stepsDone * 2 ^ 32 + j.flags.toNat * 2 ^ 8 + 4) = .ok u) :
    exec (.collComplete d) s = .next (u.setColl d { u.coll d with running := none }) := by
  show execCollComplete d s = _
  unfold execCollComplete
  simp only [hr, hd, hs, hu, Bool.not_true, Bool.false_eq_true, if_false]

end

theorem collectiveEvents : Statements.CollectiveEvents := by
  intro s u d j rest e
  exact ⟨fun v hr hj hd hu hv => collSignal_reads (collNext_head hr hj) hd hu hv, fun hr hj hd hp hu => collStart_starts hr hj hd hp hu,
    fun hr hd hs hu => collComplete_completes hr hd hs hu⟩

/-- Settles O37: each event by its equation under the conditions of its rule. -/
theorem taskAndCollectiveEvents : Obligations.TaskAndCollectiveEvents := ⟨taskEvents, collectiveEvents⟩

end Sys2Proof.Machine
end

