-- ==== Sys2Proof/Proofs/Launches.lean ====
section
/-! The launch register, the start of a launch and its retirement (R332, R333, R336, R337). -/

namespace Sys2Proof.Machine

section
variable {s : State}

theorem launchRegister_reaches (h : s.hostReaches = true) (v : Word64) :
    exec (.launchRegister v) s = .next (s.svecWrite (bits v 51 6 * 64)) := congrArg Host.Outcome.next (if_pos h)

theorem svecWrite_loses {v : Nat} (h : s.ready = false ∨ s.pend ≠ none) : s.svecWrite v = { s with lost := true } := by
  have hc : (!s.ready || s.pend.isSome) = true := by
    rcases h with h | h
    · rw [h]; rfl
    · rw [Option.isSome_iff_ne_none.2 h, Bool.or_true]
  exact if_pos hc

/-- A write that is not lost is held behind a running launch, or starts the head of the queue. -/
theorem svecWrite_takes (hr : s.ready = true) (hp : s.pend = none) (v : Nat) : s.svecWrite v =
    if s.running then { s with pend := some v } else if s.queueEmpty then s.lose else { s with svec := v, startDue := true } := by
  have hc : (!s.ready || s.pend.isSome) = false := by rw [hr, hp]; rfl
  exact if_neg (by rw [hc]; exact Bool.false_ne_true)

/-- The state in which the start of a launch has read its header and vector. -/
def State.launched (s : State) : State :=
  let u := s.applyNext
  let pa := u.lqbase + 256 * u.lqhead
  ((u.writePhys (pa + 224) 8 1).begin (u.physWords pa 32) pa).seed ((u.physWords pa 32).take 28 ++ u.physWords u.svec 1536)

theorem startLaunch_starts (hh : headerBad (s.applyNext.physWords (s.applyNext.lqbase + 256 * s.applyNext.lqhead) 32) = false)
    (hv : vectorBad s.launched.det (s.applyNext.physWords s.applyNext.svec 1536) = false)
    (hs : s.launched.det = false ∨ serviceEntry (s.applyNext.physWords s.applyNext.svec 1536) = none) :
    s.startLaunch = s.launched.startAll (s.applyNext.physWords s.applyNext.svec 1536) := by
  have hentry : (if s.launched.det = true then serviceEntry (s.applyNext.physWords s.applyNext.svec 1536) else none) = none := by
    split
    next hd => exact hs.resolve_left (by simp [hd])
    next => rfl
  unfold State.launched at hv hentry
  dsimp only at hv hentry
  unfold State.startLaunch State.launched
  simp only [hh, hv, hentry, Bool.or_self, Bool.false_eq_true, if_false]

theorem startLaunch_faults (hh : headerBad (s.applyNext.physWords (s.applyNext.lqbase + 256 * s.applyNext.lqhead) 32) = true) :
    s.startLaunch = s.launched.raise { code := cProt, w2 := w64 (s.applyNext.lqbase + 256 * s.applyNext.lqhead), agent := 7 } := by
  unfold State.startLaunch State.launched
  simp only [hh, Bool.true_or, if_true]

theorem launchStart_starts (hd : s.startDue = true) (hr : s.run = false) : exec .launchStart s = .next s.startLaunch := by
  show execLaunchStart s = _
  unfold execLaunchStart
  simp only [hd, hr, Bool.not_false, Bool.and_self, if_true]

theorem launchRetire_retired (h : s.retired = true) : exec .launchRetire s = .next s.retire := if_pos h

theorem launchRetire_due (hd : s.retireDue = true) (hs : s.strayData = none) :
    exec .launchRetire s = .next (if s.writesDone then s.retire else s.modLaunch fun l => { l with retiring := true }) := by
  show execLaunchRetire s = _
  unfold execLaunchRetire
  simp only [hd, hs, Bool.not_true, Bool.false_eq_true, if_false]
  split
  next hr =>
    have hw : s.writesDone = true := by
      unfold State.retired at hr
      simp only [Bool.and_eq_true] at hr
      exact hr.1.2
    rw [if_pos hw]
  next => rfl

end

/-- Settles O38: the register by the states of the queue, the start by the checks of header and vector, retirement by the writes outstanding. -/
theorem launchEvents : Obligations.LaunchEvents := by
  intro s v at_
  refine ⟨fun hh hr hp hrun hdue => ⟨fun he => ?_, fun he => ?_⟩, fun hh hr hp h => ?_, fun hh h => ?_, fun hd hrun => ⟨fun hhd hv hs => ?_, fun hhd => ?_⟩,
    fun hd hs => ⟨fun hw => ?_, fun hw => ?_⟩, fun h => launchRetire_retired h⟩
  · have hrunning : s.running = false := by simp [State.running, hrun, hdue]
    refine (launchRegister_reaches hh v).trans (congrArg _ ((svecWrite_takes hr hp _).trans ?_))
    simp [hrunning, State.queueEmpty, he, State.lose]
  · have hrunning : s.running = false := by simp [State.running, hrun, hdue]
    refine (launchRegister_reaches hh v).trans (congrArg _ ((svecWrite_takes hr hp _).trans ?_))
    simp [hrunning, State.queueEmpty, he, at_, bits]
  · have hrunning : s.running = true := by
      unfold State.running
      rcases h with h | h <;> simp [h]
    refine (launchRegister_reaches hh v).trans (congrArg _ ((svecWrite_takes hr hp _).trans (if_pos hrunning)))
  · exact (launchRegister_reaches hh v).trans (congrArg _ (svecWrite_loses h))
  · exact (launchStart_starts hd hrun).trans (congrArg _ (startLaunch_starts hhd hv hs))
  · exact (launchStart_starts hd hrun).trans (congrArg _ (startLaunch_faults hhd))
  · exact (launchRetire_due hd hs).trans (congrArg _ (if_pos hw))
  · exact (launchRetire_due hd hs).trans (congrArg _ (if_neg (by simp [hw])))

end Sys2Proof.Machine
end

