-- ==== Sys2Proof/Proofs/ContextsAndQueues.lean ====
section
/-! Contexts, the deterministic schedule and continuation queues as events (R11, R20, R30, R78 to R82, R171, R319, R340 to R344, R351 to R354). -/

namespace Sys2Proof.Machine

/-! ### Landings -/

theorem setCtx_only (c : Core) (x : Nat) (k : Ctx) : ∃ cs, c.setCtx x k = { c with ctxs := cs } := by
  unfold Core.setCtx
  split <;> exact ⟨_, rfl⟩

/-- Landings are delivered into contexts alone. -/
theorem landAll_only (c : Core) (ls : List Landing) : ∃ cs, c.landAll ls = { c with ctxs := cs } := by
  unfold Core.landAll
  generalize ls.foldl (fun acc l => insertLanding l acc) [] = sorted
  induction sorted generalizing c with
  | nil => exact ⟨_, rfl⟩
  | cons l ls ih =>
    rw [List.foldl_cons]
    split
    · exact ih c
    · obtain ⟨cs, h⟩ := setCtx_only c l.ctx (l.upd.foldl (fun k u => k.receive l.issue l.slot u) (c.ctx l.ctx))
      rw [h]
      exact ih { c with ctxs := cs }

theorem clock_landAll (c : Core) (ls : List Landing) : (c.landAll ls).clock = c.clock := by
  obtain ⟨cs, h⟩ := landAll_only c ls
  rw [h]

theorem frozen_landAll (c : Core) (ls : List Landing) : (c.landAll ls).frozen = c.frozen := by
  obtain ⟨cs, h⟩ := landAll_only c ls
  rw [h]

/-- What is due after a delivery was due before and is not ready. -/
theorem dueLandings_deliverLandings (c : Core) : c.deliverLandings.dueLandings = c.dueLandings.filter fun l => !l.ready := by
  unfold Core.deliverLandings Core.dueLandings
  simp only [clock_landAll, List.filter_filter]
  refine List.filter_congr fun l _ => ?_
  cases decide (l.due ≤ c.clock) <;> cases l.ready <;> rfl

section
variable {s : State} {g x : Nat}

theorem landingDelivery_delivers (hd : s.landingDue g = true) : exec (.landingDelivery g) s =
    let c := (s.core g).deliverLandings
    .next (s.setCore g (if ((s.core g).dueLandings.filter fun l => !l.ready).isEmpty then c
      else { c with frozen := c.frozen ++ [.late], frozenAt := s.cycle })) := by
  show execLandingDelivery g s = _
  unfold execLandingDelivery
  simp only [hd, dueLandings_deliverLandings, Bool.not_true, Bool.false_eq_true, if_false]

/-! ### Issue -/

theorem nextHeader_got {k : Ctx} {h : Word32} (hf : s.fetchHeader g k.pc = .got h) (hs : k.skip h = none) :
    k.nextHeader (s.fetchHeader g) skipFuel = (k, .got h) := by
  show k.nextHeader (s.fetchHeader g) (7 + 1) = _
  unfold Ctx.nextHeader
  simp only [hf, hs]

theorem nextHeader_fault {k : Ctx} {code : Nat} {w2 w3 : Word64} {n : Nat} (hf : s.fetchHeader g k.pc = .fault code w2 w3 n) :
    k.nextHeader (s.fetchHeader g) skipFuel = (k, .fault code w2 w3 n) := by
  show k.nextHeader (s.fetchHeader g) (7 + 1) = _
  unfold Ctx.nextHeader
  simp only [hf]

theorem issueNext_resumes {i : Iss} (h : (s.ctx g x).resume = some i) : s.issueNext g x = s.resumeIssue g x i := by
  unfold State.issueNext
  simp only [h]

theorem issueNext_repeats {b : Bundle} (h : (s.ctx g x).resume = none) (hb : (s.ctx g x).repeats = some b) :
    s.issueNext g x = s.beginIssue g x b := by
  unfold State.issueNext
  simp only [h, hb]

/-- A bundle outside a nest's body issues as it is fetched. -/
theorem issueNext_issues {h : Word32} {b : Bundle} (hr : (s.ctx g x).resume = none) (hn : (s.ctx g x).repeats = none)
    (hf : s.fetchHeader g (s.ctx g x).pc = .got h) (hs : (s.ctx g x).skip h = none) (hnest : (s.ctx g x).nest = none)
    (hb : (s.setCtx g x (s.ctx g x)).fetchBundle g (s.ctx g x).pc = .got b) :
    s.issueNext g x = (s.setCtx g x (s.ctx g x)).beginIssue g x b := by
  unfold State.issueNext
  simp only [hr, hn, nextHeader_got hf hs, hb, hnest, Bool.false_and, Bool.false_eq_true, if_false]

theorem issueNext_faults {code : Nat} {w2 w3 : Word64} {n : Nat} (hr : (s.ctx g x).resume = none) (hn : (s.ctx g x).repeats = none)
    (hf : s.fetchHeader g (s.ctx g x).pc = .fault code w2 w3 n) :
    s.issueNext g x = (s.setCtx g x (s.ctx g x)).fetchFault g x code (s.ctx g x).pc w2 w3 n := by
  unfold State.issueNext
  simp only [hr, hn, nextHeader_fault hf]

theorem bundleIssue_issues (h : s.issueDue g x = true) : exec (.bundleIssue g x) s = .next (s.issueNext g x) := if_pos h

/-! ### Waits -/

theorem lateDataArrival_arrives (h : (s.core g).lateMayArrive = true) : exec (.lateDataArrival g) s =
    .next ((s.setCore g ({ s.core g with
      sill := (s.core g).sill.map fun l : Landing => if l.due ≤ (s.core g).clock then { l with late := false } else l,
      frozen := (s.core g).frozen.filter (· != Freeze.late) } : Core).deliverLandings).annotate 0x10 g 0
        (w64 (s.cycle - (s.core g).frozenAt))) := by
  show execLateDataArrival g s = _
  unfold execLateDataArrival
  simp only [h, Bool.not_true, Bool.false_eq_true, if_false]

theorem engineWaitEnd_wakes {i : Iss} (h : s.wakeDue g x = true) (hi : (s.ctx g x).resume = some i) : exec (.engineWaitEnd g x) s =
    .next (s.wake g x i (s.waitOver g x i) (s.det && computing g || s.figureOver g x)) := by
  show execEngineWaitEnd g x s = _
  unfold execEngineWaitEnd
  simp only [h, hi, Bool.not_true, Bool.false_eq_true, if_false]

theorem scOrderPoint_wakes {y : Nat} {i : Iss} (h : s.wheelDue g = true) (hy : s.wheelNext g = some y) (hi : (s.ctx g y).resume = some i) :
    exec (.scOrderPoint g) s =
      .next ((s.modCore g fun c => { c with scLast := y, scAt := some s.cycle }).wake g y i WaitCond.onWheel true) := by
  show execScOrderPoint g s = _
  unfold execScOrderPoint
  simp only [h, hy, hi, Bool.not_true, Bool.false_eq_true, if_false]

theorem selectorQuantum_turns {y : Nat} (h : s.quantumOver g = true) (hy : (s.core g).nextRunning (s.core g).cur = some y) :
    exec (.selectorQuantum g) s = .next (s.modCore g fun c => { c with cur := y, quantum := 0 }) := by
  show execSelectorQuantum g s = _
  unfold execSelectorQuantum
  simp only [h, hy, Bool.not_true, Bool.false_eq_true, if_false]

end

theorem contextEvents_state : Statements.ContextEvents := by
  intro s g x c k u
  refine ⟨fun b h hr hb => ?_, fun h b hd hr hn hf hs hnest hb => ?_, fun i h hi => ?_, fun code w2 w3 n h hr hn hf => ?_,
    fun h => if_pos h, fun h => ⟨fun hall => ?_, fun hex => ?_⟩, fun h => lateDataArrival_arrives h, fun i h hi => engineWaitEnd_wakes h hi,
    fun y i h hy hi => scOrderPoint_wakes h hy hi, fun h => if_pos (List.contains_iff_mem.2 h), rfl, fun y h hy => selectorQuantum_turns h hy⟩
  · exact (bundleIssue_issues h).trans (congrArg _ (issueNext_repeats hr hb))
  · exact (bundleIssue_issues hd).trans (congrArg _ (issueNext_issues hr hn hf hs hnest hb))
  · exact (bundleIssue_issues h).trans (congrArg _ (issueNext_resumes hi))
  · exact (bundleIssue_issues h).trans (congrArg _ (issueNext_faults hr hn hf))
  · have he : (c.dueLandings.filter fun l => !l.ready) = [] := List.filter_eq_nil_iff.2 fun l hl => by simp [hall l hl]
    refine (landingDelivery_delivers h).trans ?_
    simp only [show (s.core g).dueLandings.filter (fun l => !l.ready) = [] from he, List.isEmpty_nil, if_true]
    exact rfl
  · obtain ⟨l, hl, hready⟩ := hex
    have he : (c.dueLandings.filter fun l => !l.ready).isEmpty = false :=
      List.isEmpty_eq_false_iff.2 (List.ne_nil_of_mem (List.mem_filter.2 ⟨hl, by simp [hready]⟩))
    refine (landingDelivery_delivers h).trans ?_
    simp only [show ((s.core g).dueLandings.filter fun l => !l.ready).isEmpty = false from he, Bool.false_eq_true, if_false]
    unfold Core.deliverLandings
    simp only [frozen_landAll]
    exact rfl

/-! ### The deterministic schedule -/

section
variable {s : State} {g x : Nat}

theorem scheduleDue_missing (hr : s.scheduleReady g x = true) (hm : s.headerMissing g x = true) :
    exec (.scheduleDue g x) s = .next (s.issueNext g x) := by
  show execScheduleDue g x s = _
  unfold execScheduleDue
  simp only [hr, hm, Bool.not_true, Bool.false_eq_true, if_false, if_true]

theorem scheduleDue_held (hr : s.scheduleReady g x = true) (hm : s.headerMissing g x = false) (hh : s.heldBundleDue g x = true) :
    exec (.scheduleDue g x) s = .next (s.overrun g x (s.dueAddress g x)) := by
  show execScheduleDue g x s = _
  unfold execScheduleDue
  simp only [hr, hm, hh, Bool.not_true, Bool.false_eq_true, if_false, if_true]

theorem scheduleDue_twin {y : Nat} (hr : s.scheduleReady g x = true) (hm : s.headerMissing g x = false) (hh : s.heldBundleDue g x = false)
    (hy : s.dueTwin g x = some y) : exec (.scheduleDue g x) s = .next (s.overrun g (max x y) (s.dueAddress g (max x y))) := by
  show execScheduleDue g x s = _
  unfold execScheduleDue
  simp only [hr, hm, hh, hy, Bool.not_true, Bool.false_eq_true, if_false]

theorem scheduleDue_issues (hr : s.scheduleReady g x = true) (hm : s.headerMissing g x = false) (hh : s.heldBundleDue g x = false)
    (hy : s.dueTwin g x = none) : exec (.scheduleDue g x) s =
      .next ((s.issueNext g x).modCore g fun c => { c with stampedAt := some (s.cycle, x) }) := by
  show execScheduleDue g x s = _
  unfold execScheduleDue
  simp only [hr, hm, hh, hy, Bool.not_true, Bool.false_eq_true, if_false]

end

theorem scheduleEvents : Statements.ScheduleEvents := by
  intro s g x k u sclk late
  refine ⟨fun hr hm => scheduleDue_missing hr hm, fun hr hm => ⟨fun hh => scheduleDue_held hr hm hh, fun y hh hy => scheduleDue_twin hr hm hh hy,
    fun hh hy hres => ⟨fun b hb => ?_, fun h b hn hf hs hnest hb => ?_⟩⟩, fun h => if_pos h, fun h => if_pos h⟩
  · refine (scheduleDue_issues hr hm hh hy).trans ?_
    rw [issueNext_repeats hres hb]
  · refine (scheduleDue_issues hr hm hh hy).trans ?_
    rw [issueNext_issues hres hn hf hs hnest hb]

/-! ### Continuation queues and page service -/

section
variable {s : State} {cl n g x : Nat}

theorem pagerRecordEnqueue_enters {r : QRec} (hr : ((s.cluster cl).fault n).record = some r) (hd : s.recordDue cl = some n) :
    exec (.pagerRecordEnqueue cl n) s = .next (s.setCluster cl
      { (s.cluster cl).setFault n { (s.cluster cl).fault n with record := none } with
        conts := (s.cluster cl).conts ++ [{ r with since := s.cycle, ready := s.cycle }] }) := by
  show execPagerRecordEnqueue cl n s = _
  unfold execPagerRecordEnqueue
  simp only [hr, hd, if_true]

theorem pghost_closes {v : Word64} {c : Nat} (hh : s.hostReaches = true) (hf : s.faultOf (w64 (bits v 62 0)) = some (c, n)) :
    exec (.pghost v) s = .next (s.closeFault c n) := by
  show execPghost v s = _
  unfold execPghost
  simp only [hh, hf, Bool.not_true, Bool.false_eq_true, if_false]

theorem pghostFail_ends {v : Word64} {c : Nat} (hh : s.hostReaches = true) (hf : s.faultOf (w64 (bits v 62 0)) = some (c, n)) :
    exec (.pghostFail v) s = .next (s.raise { code := cProt, w2 := ((s.cluster c).fault n).va, agent := 4, agentNo := c }) := by
  show execPghostFail v s = _
  unfold execPghostFail
  simp only [hh, hf, Bool.not_true, Bool.false_eq_true, if_false]

theorem bits_below_top (v : Word64) : bits v 62 0 = v.toNat % 2 ^ 63 := by simp [bits]

theorem pickup_picksUp {i : Nat} {r : QRec} (hd : s.pickupDue cl = true) (hb : bestRec s.det (s.takeable cl) = some (i, r, g, x)) :
    exec (.pickup cl) s = .next (s.pickUp cl i r g x) := by
  show execPickup cl s = _
  unfold execPickup
  simp only [hd, hb, Bool.not_true, Bool.false_eq_true, if_false]

/-- The context that a record starts, before it carries the record's values. -/
def State.fresh (s : State) (g x : Nat) (pc kwork : Word64) : Ctx :=
  { startedCtx g x false pc kwork (w64 (bits (s.launchWord 6) 43 24)) (w64 (bits (s.launchWord 6) 19 0)) (s.launchWord 7)
      (w64 (bits (s.launchWord 8) 31 0)) with ckptAt := (s.core g).clock, dueFrom := s.sclk }

theorem ctx_startCtx (s : State) (g x : Nat) (pc kwork : Word64) : (s.startCtx g x pc kwork).ctx g x = s.fresh g x pc kwork :=
  (State.ctx_setCore_self ..).trans ((ctx_select ..).trans (Core.ctx_setCtx_same ..))

/-- A value stored for every number below a bound at the next place is read there. -/
theorem vget_foldl_vset_succ {α : Type} {m : Nat} (d : α) (v : Vector α m) (f : Nat → α) {i l : Nat} (hi : i < l) (hl : l < m) :
    vget d ((List.range l).foldl (fun p j => vset p (j + 1) (f j)) v) (i + 1) = f i := by
  induction l with
  | zero => exact absurd hi (Nat.not_lt_zero i)
  | succ l ih =>
    rw [List.range_succ, List.foldl_append]
    show vget d (vset _ (l + 1) (f l)) (i + 1) = f i
    rcases Nat.lt_succ_iff_lt_or_eq.1 hi with h | rfl
    · rw [vget_vset_ne d _ (by omega), ih h (by omega)]
    · exact vget_vset_self d _ hl _

section
variable (k : Ctx) (ws : List Word64)

theorem carry_s {j : Nat} (h1 : 1 ≤ j) (h4 : j ≤ 4) : vget 0 (k.carry ws).s j = ws.getD (j + 1) 0 := by
  show vget 0 (vset (vset (vset (vset k.s 1 (ws.getD 2 0)) 2 (ws.getD 3 0)) 3 (ws.getD 4 0)) 4 (ws.getD 5 0)) j = _
  obtain rfl | rfl | rfl | rfl : j = 1 ∨ j = 2 ∨ j = 3 ∨ j = 4 := by omega
  all_goals simp [vget_vset_ne]

theorem carry_p {j : Nat} (h : j < 15) : vget false (k.carry ws).p (j + 1) = (ws.getD 6 0).getLsbD (26 + j) :=
  vget_foldl_vset_succ false k.p (fun j => bit (ws.getD 6 0) (26 + j)) h (by omega)

/-- The fields of the work ID and frame word of a record. -/
theorem carry_k : (k.carry ws).k = { k.k with
    lb := (ws.getD 6 0).toNat / 2 ^ 55, ldm1 := (ws.getD 6 0).toNat / 2 ^ 48 % 128, lrot := (ws.getD 6 0).toNat / 2 ^ 41 % 128, wpos := 0
    rs := (ws.getD 6 0).toNat % 16, rp := (ws.getD 6 0).toNat / 16 % 8, rv := (ws.getD 6 0).toNat / 256 % 8 } := by
  have hlb : bits (ws.getD 6 0) 63 55 = (ws.getD 6 0).toNat / 2 ^ 55 := Nat.mod_eq_of_lt (Nat.div_lt_of_lt_mul (ws.getD 6 0).isLt)
  have hrs : bits (ws.getD 6 0) 3 0 = (ws.getD 6 0).toNat % 16 := by simp [bits]
  have h : (k.carry ws).k = { k.k with
      lb := bits (ws.getD 6 0) 63 55, ldm1 := bits (ws.getD 6 0) 54 48, lrot := bits (ws.getD 6 0) 47 41, wpos := 0
      rs := bits (ws.getD 6 0) 3 0, rp := bits (ws.getD 6 0) 6 4, rv := bits (ws.getD 6 0) 10 8 } := rfl
  rw [h, hlb, hrs]
  rfl

end

/-- A context that a record starts. -/
theorem ctx_pickUp (s : State) (cl n : Nat) (r : QRec) (g x : Nat) : ∃ (k : Ctx) (u : Bool),
    (s.pickUp cl n r g x).ctx g x = { k.carry r.words with pager := r.pager, unstamped := u } ∧ k.run = .running ∧
      k.pc = w64 ((r.words.getD 0 0).toNat / 4 * 4) ∧ k.k.kwork = r.words.getD 1 0 ∧ k.inflight = [] := by
  let u := s.modCluster cl fun c => { c with conts := c.conts.eraseIdx n }
  let pc := w64 ((r.words.getD 0 0).toNat / 4 * 4)
  refine ⟨u.fresh g x pc (r.words.getD 1 0), (u.startCtx g x pc (r.words.getD 1 0)).det && !computing g, ?_, rfl, rfl, rfl, rfl⟩
  refine (State.ctx_modCtx_same ..).trans ?_
  rw [ctx_startCtx]

theorem conts_pickUp (s : State) (cl n : Nat) (r : QRec) (g x : Nat) :
    ((s.pickUp cl n r g x).cluster cl).conts = (s.cluster cl).conts.eraseIdx n := by
  show ((s.setCluster cl { s.cluster cl with conts := (s.cluster cl).conts.eraseIdx n }).cluster cl).conts = _
  rw [State.cluster_setCluster_self]

theorem priorityAging_ages (h : ∃ r ∈ (s.cluster cl).conts, s.ages r = true) : exec (.priorityAging cl) s =
    .next (s.modCluster cl fun c => { c with conts := c.conts.map s.aged }) := if_pos (List.any_eq_true.2 h)

end

theorem queueEvents : Statements.QueueEvents := by
  intro s cl n who v c
  refine ⟨fun h => if_pos h, fun r hr hd => pagerRecordEnqueue_enters hr hd, fun c' n' hh hf => ?_, fun i r g x hd hb => ?_, fun h => priorityAging_ages h⟩
  · have hf' : s.faultOf (w64 (bits v 62 0)) = some (c', n') := by rw [bits_below_top]; exact hf
    exact ⟨pghost_closes hh hf', pghostFail_ends hh hf'⟩
  · intro w
    obtain ⟨k, u, hctx, hrun, hpc, hwork, hfl⟩ := ctx_pickUp s cl i r g x
    refine ⟨s.pickUp cl i r g x, pickup_picksUp hd hb, conts_pickUp .., ?_⟩
    rw [hctx]
    have hk := carry_k k r.words
    refine ⟨hrun, hpc, hwork, fun j h1 h4 => carry_s k _ h1 h4, fun j h => carry_p k _ h, ?_⟩
    dsimp only
    rw [hk]
    exact ⟨rfl, rfl, rfl, rfl, rfl, rfl, rfl, rfl, hfl⟩

/-- Settles O34: each event by the equation of its rule under the conditions that the rule names. -/
theorem contextEvents : Obligations.ContextEvents := ⟨contextEvents_state, scheduleEvents, queueEvents⟩

end Sys2Proof.Machine
end

