-- ==== Sys2Proof/Proofs/BoardAndHost.lean ====
section
/-! Bring-up, the rail fault, and the host's writes of device registers (R68, R72, R149, R332, R392, R400 to R405). -/

namespace Sys2Proof.Machine

theorem mget_filter_of_true {m : List Host.Cell} {p : Host.Cell → Bool} {key : Nat} (h : ∀ b, p (key, b) = true) :
    mget unlistedByte (m.filter p) key = mget unlistedByte m key := by
  induction m with
  | nil => rfl
  | cons c m ih =>
    obtain ⟨k, b⟩ := c
    by_cases hk : k = key
    · subst hk
      rw [List.filter_cons_of_pos (h b)]
      simp [mget]
    · by_cases hp : p (k, b) = true
      · rw [List.filter_cons_of_pos hp]
        simpa [mget, Ne.symm hk] using ih
      · rw [List.filter_cons_of_neg hp]
        simpa [mget, Ne.symm hk] using ih

/-! ### Bring-up (R400, R402) -/

section
variable {s : State}

/-- The trained ports come up, all others stay. -/
theorem foldl_trained (l : List Nat) (s : State) :
    (∃ ps, l.foldl (fun (s : State) (q : Nat) => s.setPort q (trainedPort q s.uptime)) s = { s with ports := ps }) ∧
    ∀ j, (l.foldl (fun (s : State) (q : Nat) => s.setPort q (trainedPort q s.uptime)) s).port j =
      if j ∈ l then trainedPort j s.uptime else s.port j := by
  induction l generalizing s with
  | nil => exact ⟨⟨_, rfl⟩, fun j => rfl⟩
  | cons q l ih =>
    obtain ⟨⟨ps, hps⟩, hport⟩ := ih (s.setPort q (trainedPort q s.uptime))
    refine ⟨⟨ps, hps⟩, fun j => (hport j).trans ?_⟩
    have hup : (s.setPort q (trainedPort q s.uptime)).uptime = s.uptime := rfl
    by_cases hj : j ∈ l
    · rw [if_pos hj, if_pos (List.mem_cons_of_mem q hj), hup]
    · rw [if_neg hj]
      by_cases hjq : j = q
      · subst hjq
        rw [if_pos List.mem_cons_self, State.port_setPort_self]
      · rw [State.port_setPort_ne s _ hjq, if_neg (by simp [hj, hjq])]

theorem powerOn_unpowered (h : s.unpowered = true) (bad lost : BitVec 12) (ok : Bool) : exec (.powerOn bad lost ok) s =
    .next (if ok then ({ s.setPort hostPort (trainedPort hostPort s.uptime) with stage := 1 } : State).firmware bad lost
      else { s.setPort hostPort (trainedPort hostPort s.uptime) with stage := 1, sigfail := true }) := by
  show execPowerOn bad lost ok s = _
  unfold execPowerOn
  simp only [h, Bool.not_true, Bool.false_eq_true, if_false]

theorem unpowered_of (h0 : s.stage = 0) (hr : s.ready = false) (hs : s.sigfail = false) (hb : s.badstk = 0) (hrun : s.run = false) :
    s.unpowered = true := by
  simp [State.unpowered, h0, hr, hs, hb, hrun]

/-- A stack that does not train stops bring-up. -/
theorem firmware_stops {bad : BitVec 12} (h : bad ≠ 0) (lost : BitVec 12) : s.firmware bad lost = { s with stage := 2, badstk := bad.toNat } :=
  if_pos (by simpa using h)

/-- The ports that train in bring-up. -/
def trainees (lost : BitVec 12) : List Nat := (List.range 12).filter fun q => !(maskBits lost).contains q

theorem mem_trainees {lost : BitVec 12} {q : Nat} : q ∈ trainees lost ↔ q < 12 ∧ lost.getLsbD q = false := by
  simp only [trainees, maskBits, List.mem_filter, List.mem_range, List.contains_eq_mem, Bool.not_eq_true', decide_eq_false_iff_not, not_and]
  constructor
  · rintro ⟨h, hl⟩
    exact ⟨h, Bool.eq_false_iff.2 (hl h)⟩
  · rintro ⟨h, hl⟩
    exact ⟨h, fun _ => by simp [hl]⟩

/-- Main memory zeroed. -/
def State.zeroed (s : State) : State :=
  { s with mem := s.mem.filter (fun (c : Host.Cell) => decide (bufferKeys ≤ c.1)),
           desc := s.desc.filter (fun (d : Nat × Desc) => decide (bufferKeys / 64 ≤ d.1)) }

theorem firmware_ready (lost : BitVec 12) : s.firmware 0 lost =
    { (trainees lost).foldl (fun (s : State) (q : Nat) => s.setPort q (trainedPort q s.uptime)) s.zeroed with
      stage := 5, ready := true, islandsReady := true } := rfl

theorem byte_zeroed {key : Nat} (h : key < bufferKeys) : s.zeroed.byte key = 0 :=
  mget_filter_of_false fun _ => decide_eq_false (Nat.not_le.2 h)

/-- What bring-up leaves where every stack trains. -/
theorem firmware_brings (hrun : s.run = false) (lost : BitVec 12) : let t := s.firmware 0 lost
    t.ready = true ∧ t.stage = 5 ∧ t.islandState = 1 ∧ (∀ key < 0x080000000000, t.byte key = 0) ∧
      ∀ q, t.port q = if q ∈ trainees lost then trainedPort q s.uptime else s.port q := by
  obtain ⟨⟨ps, hps⟩, hport⟩ := foldl_trained (trainees lost) s.zeroed
  rw [firmware_ready]
  refine ⟨rfl, rfl, ?_, fun key hkey => ?_, hport⟩
  · rw [hps]
    have hnone : s.launch = none := by simpa [State.run] using hrun
    simp [State.islandState, State.run, State.zeroed, hnone]
  · rw [hps]
    exact byte_zeroed hkey

/-! ### The rail fault (R401) -/

theorem byte_railReset_main {key : Nat} (h : key < bufferKeys) : s.railReset.byte key = s.byte key :=
  mget_filter_of_true fun _ => decide_eq_true h

theorem byte_railReset_buffers {key : Nat} (h : bufferKeys ≤ key) : s.railReset.byte key = 0 :=
  mget_filter_of_false fun _ => decide_eq_false (Nat.not_lt.2 h)

end

theorem powerEvents : Statements.PowerEvents := by
  intro s bad lost
  refine ⟨fun h0 hr hs hb hrun => ?_, ⟨s.railReset, rfl, rfl, rfl, rfl, fun key h => byte_railReset_main h, fun key h => byte_railReset_buffers h⟩⟩
  have hun := unpowered_of h0 hr hs hb hrun
  refine ⟨⟨_, powerOn_unpowered hun bad lost false, rfl, hr⟩, fun hbad => ?_, fun hbad => ?_⟩
  · refine ⟨_, powerOn_unpowered hun bad lost true, ?_⟩
    rw [if_pos rfl, firmware_stops hbad]
    exact ⟨rfl, hr, rfl⟩
  · subst hbad
    refine ⟨_, powerOn_unpowered hun 0 lost true, ?_⟩
    rw [if_pos rfl]
    obtain ⟨hready, hstage, hisl, hmem, hport⟩ := firmware_brings (s := { s.setPort hostPort (trainedPort hostPort s.uptime) with stage := 1 }) hrun lost
    refine ⟨hready, hstage, hisl, hmem, fun q hq hl => ?_, ?_⟩
    · rw [hport q, if_pos (mem_trainees.2 ⟨hq, hl⟩)]
      exact ⟨rfl, if_neg (by simp [hostPort]; omega)⟩
    · have h12 : 12 ∉ trainees lost := fun h => absurd (mem_trainees.1 h).1 (by omega)
      rw [hport 12, if_neg h12]
      have hport12 : (s.setPort hostPort (trainedPort hostPort s.uptime)).port 12 = trainedPort hostPort s.uptime := State.port_setPort_self ..
      show ((s.setPort hostPort (trainedPort hostPort s.uptime)).port 12).st = .up ∧
        ((s.setPort hostPort (trainedPort hostPort s.uptime)).port 12).width = 32
      rw [hport12]
      exact ⟨rfl, rfl⟩

/-! ### Writes of the host -/

section
variable {s : State} {v : Word64} {i : Nat}

/-- The offset of a device register of an array. -/
theorem offset_add (n : Nat) : 0x0A0000000000 + n - deviceBase = n := Nat.add_sub_cancel_left ..

theorem geoTableWrite_writes {addr off : Nat} (haddr : addr = 0x0A0000000000 + off) (hh : s.hostReaches = true) (h : (0x10000 ≤ off ∧ off < 0x10400) ∨ (0xC000 ≤ off ∧ off < 0xF000)) :
    exec (.geoTableWrite addr v) s = .next (s.tableWrite off v) := by
  subst haddr
  show execGeoTableWrite (0x0A0000000000 + off) v s = _
  unfold execGeoTableWrite
  rw [offset_add]
  exact if_pos ⟨hh, h⟩

theorem tableWrite_locked (h : s.running = true) (off : Nat) : s.tableWrite off v = { s with geolock := true } := if_pos h

theorem tableWrite_geo (h : s.running = false) (hi : i < 256) :
    s.tableWrite (0x10000 + 4 * i) v = { s with geo := mset s.geo i (v.setWidth 32) } := by
  have hoff : 0x10000 ≤ 0x10000 + 4 * i ∧ 0x10000 + 4 * i < 0x10400 ∧ (0x10000 + 4 * i) % 4 = 0 := by omega
  have hidx : (0x10000 + 4 * i - 0x10000) / 4 = i := by omega
  unfold State.tableWrite
  rw [if_neg (by simp [h]), if_pos hoff, hidx]

theorem tableWrite_aperture (h : s.running = false) (hi : i < 768) :
    s.tableWrite (0xC000 + 16 * i) v = { s with apertures := mset s.apertures i (v &&& 0xE0FF00000003FFFF) } := by
  have hno : ¬ (0x10000 ≤ 0xC000 + 16 * i ∧ 0xC000 + 16 * i < 0x10400 ∧ (0xC000 + 16 * i) % 4 = 0) := by omega
  have hoff : 0xC000 ≤ 0xC000 + 16 * i ∧ 0xC000 + 16 * i < 0xF000 ∧ (0xC000 + 16 * i) % 16 = 0 := by omega
  have hidx : (0xC000 + 16 * i - 0xC000) / 16 = i := by omega
  unfold State.tableWrite
  rw [if_neg (by simp [h]), if_neg hno, if_pos hoff, hidx]
  rfl

/-- A register's write, by the range in which its offset lies. -/
theorem deviceRegisterWrite_reaches {addr off : Nat} (haddr : addr = 0x0A0000000000 + off) (hh : s.hostReaches = true) :
    exec (.deviceRegisterWrite addr v) s =
    .next (if off < 0x1000 then s.queueWrite off v
      else if 0x4000 ≤ off ∧ off < 0x4000 + 0x40 * 13 then s.portWrite ((off - 0x4000) / 0x40) (off % 0x40) v
      else if 0x6000 ≤ off ∧ off < 0x6080 ∧ off % 8 = 0 then s.limitWrite ((off - 0x6000) / 8) v
      else s.miscWrite off v) := by
  subst haddr
  have hc : (decide (0x0A0000000000 + off < deviceBase) || !s.hostReaches) = false := by simp [hh, deviceBase]
  show execDeviceRegisterWrite (0x0A0000000000 + off) v s = _
  unfold execDeviceRegisterWrite
  rw [hc, offset_add, if_neg Bool.false_ne_true]
  simp only [apply_ite Host.Outcome.next]

theorem deviceRegisterWrite_queue {addr off : Nat} (haddr : addr = 0x0A0000000000 + off) (hh : s.hostReaches = true) (h : off < 0x1000) :
    exec (.deviceRegisterWrite addr v) s = .next (s.queueWrite off v) :=
  (deviceRegisterWrite_reaches haddr hh).trans (congrArg _ (if_pos h))

theorem deviceRegisterWrite_limit (hh : s.hostReaches = true) (hi : i < 16) :
    exec (.deviceRegisterWrite (0x0A0000000000 + 0x6000 + 8 * i) v) s = .next (s.limitWrite i v) := by
  have hidx : (0x6000 + 8 * i - 0x6000) / 8 = i := by omega
  rw [deviceRegisterWrite_reaches (Nat.add_assoc ..) hh, if_neg (by omega), if_neg (by omega), if_pos (by omega), hidx]

theorem deviceRegisterWrite_mecor (hh : s.hostReaches = true) (hi : i < 12) :
    exec (.deviceRegisterWrite (0x0A0000000000 + 0x3000 + 8 * i) v) s = .next { s with mecor := vset s.mecor i (v.toNat % 2 ^ 32) } := by
  have hidx : (0x3000 + 8 * i - 0x3000) / 8 = i := by omega
  rw [deviceRegisterWrite_reaches (Nat.add_assoc ..) hh, if_neg (by omega), if_neg (by omega), if_neg (by omega)]
  unfold State.miscWrite
  rw [if_pos (by omega), hidx]
  simp [bits]

theorem deviceRegisterWrite_nonce (hh : s.hostReaches = true) (hi : i < 4) :
    exec (.deviceRegisterWrite (0x0A0000000000 + 0x7000 + 8 * i) v) s = .next { s with atnonce := vset s.atnonce i v } := by
  have hidx : (0x7000 + 8 * i - 0x7000) / 8 = i := by omega
  rw [deviceRegisterWrite_reaches (Nat.add_assoc ..) hh, if_neg (by omega), if_neg (by omega), if_neg (by omega)]
  unfold State.miscWrite
  rw [if_neg (by omega), if_neg (by omega), if_pos (by omega), hidx]

theorem attestReportDone_reports {pa : Nat} (h : s.atreq = some pa) :
    exec .attestReportDone s = .next { s.putByteList pa s.report with atdone := true, atreq := none } := by
  show execAttestReportDone s = _
  unfold execAttestReportDone
  simp only [h]

theorem atreq_reaches (hh : s.hostReaches = true) : exec (.atreq v) s =
    .next (if s.running then s.lose else if v.toNat % 64 = 0 then { s with atreq := some v.toNat } else s) := by
  show execAtreq v s = _
  unfold execAtreq
  rw [hh]
  rfl

theorem limitWrite_stopped (h : s.running = false) (i : Nat) :
    s.limitWrite i v = s.modCluster i fun c => { c with limit := max 1 (v.toNat / 2 ^ 9 % 2 ^ 7), limitNext := none } := by
  unfold State.limitWrite
  simp only [h, Bool.false_eq_true, if_false]
  rfl

end

theorem hostWrites : Statements.HostWrites := by
  intro s v i base
  refine ⟨fun pa h => attestReportDone_reports h, fun hh => ?_, fun hh => ⟨fun hr => ?_, fun hr => ?_, ?_, fun hi hr => ?_, fun hi => ?_, fun hi => ?_⟩⟩
  · refine ⟨?_, ?_, ?_, ?_⟩
    · show execAtreq v s = _
      simp [execAtreq, hh]
    · show execGeoTableWrite (base + i) v s = _
      simp [execGeoTableWrite, hh]
    · show execDeviceRegisterWrite (base + i) v s = _
      simp [execDeviceRegisterWrite, hh]
    · show execLaunchRegister v s = _
      simp [execLaunchRegister, hh]
  · refine ⟨fun ha => ?_, fun hi => ?_, fun hi => ?_, ?_, ?_, ?_⟩
    · refine (atreq_reaches hh).trans ?_
      rw [hr, if_neg Bool.false_ne_true, if_pos ha]
    · exact (geoTableWrite_writes (Nat.add_assoc ..) hh (by omega)).trans (congrArg _ (tableWrite_geo hr hi))
    · exact (geoTableWrite_writes (Nat.add_assoc ..) hh (by omega)).trans (congrArg _ (tableWrite_aperture hr hi))
    · exact (deviceRegisterWrite_queue rfl hh (by omega)).trans (congrArg _ (if_neg (by simp [hr])))
    · exact (deviceRegisterWrite_queue rfl hh (by omega)).trans (congrArg _ (if_neg (by simp [hr])))
    · exact (deviceRegisterWrite_queue rfl hh (by omega)).trans (congrArg _ ((if_neg (by simp [hr])).trans (by simp [bits])))
  · refine ⟨?_, fun hi => ?_, ?_, ?_⟩
    · exact (atreq_reaches hh).trans (congrArg _ (if_pos hr))
    · exact (geoTableWrite_writes (Nat.add_assoc ..) hh (by omega)).trans (congrArg _ (tableWrite_locked hr _))
    · exact (deviceRegisterWrite_queue rfl hh (by omega)).trans (congrArg _ (if_pos hr))
    · exact (deviceRegisterWrite_queue rfl hh (by omega)).trans (congrArg _ ((if_pos hr).trans (by simp [bits])))
  · exact (deviceRegisterWrite_queue rfl hh (by omega)).trans (congrArg _ (by simp [State.queueWrite, bits]))
  · exact (deviceRegisterWrite_limit hh hi).trans (congrArg _ (limitWrite_stopped hr i))
  · exact deviceRegisterWrite_mecor hh hi
  · exact deviceRegisterWrite_nonce hh hi

/-- Settles O43: bring-up and the rail fault by what they leave of memory and ports, each register by the range of its offset. -/
theorem boardAndHostEvents : Obligations.BoardAndHostEvents := ⟨powerEvents, hostWrites⟩

end Sys2Proof.Machine
end

