-- ==== Sys2Proof/Proofs/AbortPackets.lean ====
section
/-! An abort packet in sequence (R151, R163): the fault that it raises carries the die as its source. -/

namespace Sys2Proof.Machine

/-- An abort packet with sequence number 0 and tag 0. -/
def abortOfTag0 : Packet := { hdr := 0x9E3A8A5600000000000000000000000000000000000000000000000000006000, data := [] }

/-- A launch under way, with a collective record of tag 0 at the engine of die 0 and port 0 up. -/
def collWaiting : State := { State.reset with
  launch := some { words := [], hdrAddr := 0 }
  ports := [(0, { st := .up })]
  colls := [(0, { jobs := [{ words := [], addr := 0, core := 0, ctx := 0 }] })] }

/-- The faults of a next state. -/
def outFaults : Out → List FaultRec
  | .next t => t.faults
  | _ => []

/-- The abort is taken: the launch's fault names the engine of die 0 as its source. -/
theorem abortOfTag0_raises : outFaults (exec (.abortPacket 0 abortOfTag0) collWaiting) = [{ code := cProt, agent := 2, src := .coll 0 }] := by
  decide +kernel

/-- Refutes O42: the statement's fault has no source, while the abort packet that names a record of a die raises one whose source is that die's
engine; the state has a record of tag 0 at die 0, and the packet is in sequence at port 0. -/
theorem not_packetEvents : ¬ Obligations.PacketEvents := by
  unfold Obligations.PacketEvents
  intro h
  have hall := h collWaiting 0 abortOfTag0 rfl
  obtain ⟨-, -, -, -, -, -, -, -, -, -, habort⟩ := hall
  have hraise := congrArg outFaults (habort (by decide +kernel) rfl rfl 0 { words := [], addr := 0, core := 0, ctx := 0 } rfl)
  rw [abortOfTag0_raises] at hraise
  exact absurd hraise (by decide)

end Sys2Proof.Machine
end

