-- ==== Sys2Proof/Proofs/Samples.lean ====
section
/-! Ends of schedule frames, droop samples and the scrub (R59, R394, R396, R397). -/

namespace Sys2Proof.Machine

/-! ### The reference log -/

/-- What is read at a physical address depends on memory and the geometry table alone. -/
theorem readPhys_congr {s t : State} (hm : t.mem = s.mem) (hg : t.geo = s.geo) (pa n : Nat) : t.readPhys pa n = s.readPhys pa n := by
  unfold State.readPhys State.paKey State.geoWord
  rw [hm, hg]

theorem refDigests_congr {s t : State} (hm : t.mem = s.mem) (hg : t.geo = s.geo) (hr : t.replayref = s.replayref) : t.refDigests = s.refDigests := by
  have hl : ∀ fuel pa, t.logRecords pa fuel = s.logRecords pa fuel := by
    intro fuel
    induction fuel with
    | zero => exact fun _ => rfl
    | succ fuel ih =>
      intro pa
      unfold State.logRecords State.physWords
      simp only [readPhys_congr hm hg, ih]
  unfold State.refDigests
  simp only [hr, hl]

/-! ### The end of a schedule frame -/

/-- The digest records of a frame reach the records of the cycle alone. -/
def State.digested (s : State) (frame : Nat) (mine : List (Nat × List Word64)) : State :=
  mine.foldl (fun (u : State) m => u.logAppend (.port m.1) frame (u.record 0x05 ([w64 (m.1 + frame * 2 ^ 32), 0] ++ m.2))) s

theorem digested_only (s : State) (frame : Nat) (mine : List (Nat × List Word64)) : ∃ l, s.digested frame mine = { s with logNow := l } := by
  unfold State.digested
  induction mine generalizing s with
  | nil => exact ⟨_, rfl⟩
  | cons m mine ih =>
    obtain ⟨l, hl⟩ := logAppend_only s (.port m.1) frame (s.record 0x05 ([w64 (m.1 + frame * 2 ^ 32), 0] ++ m.2))
    obtain ⟨l', hl'⟩ := ih { s with logNow := l }
    exact ⟨l', by rw [List.foldl_cons, hl, hl']⟩

/-- The state with the digests of a frame written and begun anew. -/
def State.frameOver (s : State) (frame : Nat) (mine : List (Nat × List Word64)) : State :=
  let w := s.digested frame mine
  ({ w with ports := w.ports.map fun e : Nat × Port => (e.1, { e.2 with digest := [] }) } : State).modLaunch fun l => { l with framesEnded := frame + 1 }

theorem endFrame_eq (s : State) (frame : Nat) : s.endFrame frame =
    if s.replayref = 0 ∨ digestsAgree s.refDigests frame s.frameDigests = true then s.frameOver frame s.frameDigests
    else (s.frameOver frame s.frameDigests).markNoReplay frame := by
  obtain ⟨l, hl⟩ := digested_only s frame s.frameDigests
  have hm : (s.frameOver frame s.frameDigests).mem = s.mem := by
    show (s.digested frame s.frameDigests).mem = _
    rw [hl]
  have hg : (s.frameOver frame s.frameDigests).geo = s.geo := by
    show (s.digested frame s.frameDigests).geo = _
    rw [hl]
  have hr : (s.frameOver frame s.frameDigests).replayref = s.replayref := by
    show (s.digested frame s.frameDigests).replayref = _
    rw [hl]
  show (if decide ((s.frameOver frame s.frameDigests).replayref = 0) || digestsAgree (s.frameOver frame s.frameDigests).refDigests frame s.frameDigests
    then s.frameOver frame s.frameDigests else (s.frameOver frame s.frameDigests).markNoReplay frame) = _
  rw [refDigests_congr hm hg hr, hr]
  simp only [Bool.or_eq_true, decide_eq_true_eq]

theorem frameDigests_eq {s : State} (hd : s.det = true) : s.frameDigests =
    if s.logRec then s.ports.filterMap fun e : Nat × Port => if e.2.digest = [] then none else some (e.1, sha3 (digestBytes e.2.digest)) else [] := by
  unfold State.frameDigests
  cases s.logRec with
  | false => simp
  | true => simp [hd, List.isEmpty_iff]

theorem frameEnd_ends {s : State} {l : Launch} (hl : s.launch = some l) (hd : s.frameEndDue = true) :
    exec .frameEnd s = .next (s.endFrame l.framesEnded).stallForLog := by
  show execFrameEnd s = _
  unfold execFrameEnd
  simp only [hl, hd, if_true]

/-! ### Droops (R394) -/

theorem droopSample_samples {s : State} {n : Nat} (h : s.droopDue n = true) : exec (.droopSample n) s =
    .next ((s.modCluster n fun c => { c with droopAt := some s.cycle }).logSample n) := by
  show execDroopSample n s = _
  unfold execDroopSample
  simp only [h, Bool.not_true, Bool.false_eq_true, if_false]

/-- The bundles of a cycle fill a sample. -/
theorem filled_sample (s : State) (n : Nat) {e : LogEntry} (he : e.sample = some n)
    (hw : e.words = (s.record 0x04 ([w64 n, 0] ++ (List.range 96).map fun i => s.issuedNow (96 * n + i))).take 4) :
    (s.filled e).words = s.record 0x04 ([w64 n, 0] ++ (List.range 96).map fun i => s.issuedNow (96 * n + i)) := by
  unfold State.filled
  rw [he]
  dsimp only
  rw [hw]
  rfl

/-! ### The scrub (R59) -/

theorem scrub_place {a b c : Nat} (ha : a < 12) (hb : b < 128) (hc : c < 805306368) :
    (decide (12 ≤ a) || decide (128 ≤ b) || decide (channelBytes ≤ c)) = false := by
  show (decide (12 ≤ a) || decide (128 ≤ b) || decide (805306368 ≤ c)) = false
  rw [decide_eq_false (Nat.not_le.2 ha), decide_eq_false (Nat.not_le.2 hb), decide_eq_false (Nat.not_le.2 hc)]
  rfl

theorem scrub_corrects {s : State} {a b c : Nat} (ha : a < 12) (hb : b < 128) (hc : c < 805306368) : exec (.scrub a b c .corrected) s =
    .next ((s.takeFree.2.countCorrected a).annotate 0x12 0x7FF 0 (Config.openWord s.free)) := by
  have h := scrub_place ha hb hc
  show execScrub a b c .corrected s = _
  unfold execScrub
  simp only [h, Bool.false_eq_true, if_false]
  rfl

theorem scrub_poisons {s : State} {a b c : Nat} (ha : a < 12) (hb : b < 128) (hc : c < 805306368) : exec (.scrub a b c .uncorrectable) s =
    .next ((s.takeFree.2.takeFree.2.writeBlock1 (scrubKey a b c) ⟨0, poisonDesc⟩).errorLog
      (Config.openWord s.takeFree.2.free).toNat 0x7FF 0 (Config.openWord s.free)) := by
  have h := scrub_place ha hb hc
  show execScrub a b c .uncorrectable s = _
  unfold execScrub
  simp only [h, Bool.false_eq_true, if_false]
  rfl

theorem errorLog_desc (s : State) (cause g x : Nat) (addr : Word64) : (s.errorLog cause g x addr).desc = s.desc := by
  unfold State.errorLog State.message
  dsimp only
  split_ifs <;> rfl

/-- A block written with poison is poisoned. -/
theorem descAt_writeBlock1_poison (s : State) (key : Nat) : (s.writeBlock1 key ⟨0, poisonDesc⟩).descAt key = 0x00FF :=
  mget_mset_self ..

theorem sampleEvents : Statements.SampleEvents := by
  intro s n a b c
  refine ⟨fun l hl hd => ?_, fun h => ⟨droopSample_samples h, fun e he hw => filled_sample s n he hw⟩, fun ha hb hc => ⟨⟨_, scrub_corrects ha hb hc,
      ?_⟩, ⟨_, scrub_poisons ha hb hc, ?_⟩⟩⟩
  · have hdet : s.det = true := (Bool.and_eq_true_iff.1 hd).1
    refine (frameEnd_ends hl hd).trans ?_
    rw [endFrame_eq, frameDigests_eq hdet]
    rfl
  · obtain ⟨m, hm⟩ := annotate_only (s.takeFree.2.countCorrected a) 0x12 0x7FF 0 (Config.openWord s.free)
    rw [hm]
    exact vget_vset_self _ _ ha _
  · exact (congrArg (mget 0 · _) (errorLog_desc ..)).trans (descAt_writeBlock1_poison _ (scrubKey a b c))

end Sys2Proof.Machine
end

