-- ==== Sys2Proof/Proofs/Services.lean ====
section
/-! Pre-emption, the resume, the log's release and host glazing (R378, R380, R382 to R384, R387, R396, R407). -/

namespace Sys2Proof.Machine

/-! ### What making an image leaves -/

/-- The launch, and a start that is held behind it. -/
def State.asked (s : State) : Option Launch × Option Nat := (s.launch, s.pend)

theorem OnlyStored.asked {s t : State} (h : OnlyStored s t) : t.asked = s.asked := by
  obtain ⟨m, d, p, rfl⟩ := h
  rfl

theorem asked_foldl {α : Type} {f : State → α → State} (hf : ∀ u a, (f u a).asked = u.asked) (l : List α) (s : State) :
    (l.foldl f s).asked = s.asked := by
  induction l generalizing s with
  | nil => rfl
  | cons a l ih => exact (ih _).trans (hf s a)

theorem onlyStored_putImageBlock (s : State) (pa : Nat) (b : Block) : OnlyStored s (s.putImageBlock pa b) := by
  unfold State.putImageBlock
  split
  · exact ⟨_, _, _, rfl⟩
  · exact ⟨_, _, _, rfl⟩
  · exact ⟨_, _, _, rfl⟩
  · exact .refl s

theorem onlyStored_putImage (s : State) (pa : Nat) (ws : List Word64) : OnlyStored s (s.putImage pa ws) := by
  induction s, pa, ws using State.putImage.induct with
  | case1 s pa a b c d e f g h ws ih =>
    rw [State.putImage]
    exact (onlyStored_putImageBlock ..).trans ih
  | case2 ws s pa hws =>
    rw [State.putImage]
    · exact .refl s
    · exact hws

theorem onlyStored_putLatches (s : State) (pa : Nat) : OnlyStored s (s.putLatches pa) :=
  OnlyStored.foldl (fun _ _ => onlyStored_putImage ..) _ s

theorem asked_setLatch (s : State) (g n v : Nat) : (s.setLatch g n v).asked = s.asked := rfl

theorem asked_latchCount (s : State) (g n : Nat) (up : Bool) : (s.latchCount g n up).asked = s.asked := asked_setLatch ..

theorem asked_countWaits (s : State) (ws : List (Nat × WaitCond)) (up : Bool) : (s.countWaits ws up).asked = s.asked := by
  unfold State.countWaits
  refine asked_foldl (fun u e => ?_) _ s
  exact asked_latchCount ..

theorem asked_uncountWaits (s : State) : s.uncountWaits.asked = s.asked := by
  refine asked_foldl (fun u e => ?_) _ s
  split
  · exact asked_countWaits ..
  · rfl

/-- The state with the sections of an image written. -/
def State.imaged (s : State) (l : Launch) : State :=
  let id := s.uncountWaits.takeFree.1
  let u := s.uncountWaits.takeFree.2
  (u.imageSections l id).1.foldl (fun (t : State) (e : Nat × List Word64) => t.putImage e.1 e.2) u

theorem asked_imaged (s : State) (l : Launch) : (s.imaged l).asked = s.asked :=
  (asked_foldl (fun _ _ => (onlyStored_putImage ..).asked) _ _).trans (asked_uncountWaits s)

theorem makeImage_eq (s : State) (l : Launch) :
    let image := s.uncountWaits.takeFree.2.imageSections l s.uncountWaits.takeFree.1
    s.makeImage l = { (if (s.imaged l).hostDoes 2 then s.imaged l else (s.imaged l).putLatches (l.savePa + image.2.1)).modLaunch
      (fun l => { l with imgBlocks := image.2.2 }) with migrations := [] } := rfl

/-- Making an image changes of the launch its length in blocks. -/
theorem asked_makeImage (s : State) (l : Launch) : ∃ n, (s.makeImage l).asked = (s.launch.map fun l => { l with imgBlocks := n }, s.pend) := by
  let image := s.uncountWaits.takeFree.2.imageSections l s.uncountWaits.takeFree.1
  let t := if (s.imaged l).hostDoes 2 then s.imaged l else (s.imaged l).putLatches (l.savePa + image.2.1)
  have ht : t.asked = s.asked := by
    unfold t
    split
    · exact asked_imaged s l
    · exact (onlyStored_putLatches ..).asked.trans (asked_imaged s l)
  refine ⟨image.2.2, ?_⟩
  rw [makeImage_eq]
  show (t.asked.1.map (fun l => { l with imgBlocks := image.2.2 }), t.asked.2) = _
  rw [ht]
  rfl

theorem hostDoes_makeImage {s : State} {l : Launch} (hl : s.launch = some l) (n : Nat) : (s.makeImage l).hostDoes n = s.hostDoes n := by
  obtain ⟨b, hb⟩ := asked_makeImage s l
  have hlaunch : (s.makeImage l).launch = some { l with imgBlocks := b } := (congrArg (·.1) hb).trans (by rw [hl]; rfl)
  unfold State.hostDoes State.fmode
  rw [hlaunch, hl]

/-! ### The sections of an image -/

theorem length_padWords (id i n : Nat) (ws : List Word64) : (padWords id i n ws).length = n := by
  simp [padWords]
  omega

theorem take_padWords {id i n m : Nat} {ws : List Word64} (hm : m ≤ n) (hl : m ≤ ws.length) : (padWords id i n ws).take m = ws.take m := by
  unfold padWords
  rw [List.take_append_of_le_length (by simp; omega), List.take_take, Nat.min_eq_left hm]

/-- A directory begins with the length of the image and the two clocks. -/
theorem padded_directory (id n sclk cycle : Nat) (l : List (Nat × Nat)) (hl : l.length = 4) : ∃ rest,
    padWords id 32 32 (directoryWords n sclk cycle l) = [w64 n, w64 sclk, w64 cycle] ++ rest ∧ rest.length = 29 := by
  have h3 : (padWords id 32 32 (directoryWords n sclk cycle l)).take 3 = [w64 n, w64 sclk, w64 cycle] :=
    (take_padWords (by omega) (by simp [directoryWords])).trans rfl
  refine ⟨(padWords id 32 32 (directoryWords n sclk cycle l)).drop 3, ?_, ?_⟩
  · rw [← h3, List.take_append_drop]
  · rw [List.length_drop, length_padWords]

theorem put_words (n : Nat) (v : Vector Word64 n) : (Codec.vector Codec.word n).put v = v.toList := List.flatMap_singleton' _

/-- The words of a context block begin with the scalar and address registers and the strides. -/
theorem put_ctxImage (e : CtxImage) : ∃ rest, CtxImage.codec.put e = e.ctx.s.toList ++ e.ctx.a.toList ++ e.ctx.stride.toList ++ rest := by
  obtain ⟨rest, h⟩ : ∃ rest, CtxImage.codec.put e = (Codec.vector Codec.word 64).put e.ctx.s ++
    ((Codec.vector Codec.word 32).put e.ctx.a ++ ((Codec.vector Codec.word 32).put e.ctx.stride ++ rest)) := ⟨_, rfl⟩
  refine ⟨rest, h.trans ?_⟩
  rw [put_words, put_words, put_words, List.append_assoc, List.append_assoc]

/-- The registers at the front of a context block. -/
theorem padded_ctxImage (id i : Nat) (e : CtxImage) :
    (padWords id i ctxWords (CtxImage.codec.put e)).take 128 = e.ctx.s.toList ++ e.ctx.a.toList ++ e.ctx.stride.toList := by
  obtain ⟨rest, h⟩ := put_ctxImage e
  have hlen : (e.ctx.s.toList ++ e.ctx.a.toList ++ e.ctx.stride.toList).length = 128 := by simp
  rw [take_padWords (by decide) (by rw [h, List.length_append, hlen]; omega), h, List.take_left' hlen]

section
variable (s : State) (l : Launch) (id : Nat)

theorem imageSections_header : (s.imageSections l id).1[0]? = some (l.savePa, l.words.take 28 ++ s.physWords (l.hdrAddr + 224) 4) := rfl

theorem imageSections_directory : ∃ rest, (s.imageSections l id).1[1]? =
    some (l.savePa + 256, [w64 (s.imageSections l id).2.2, w64 s.sclk, w64 s.cycle] ++ rest) ∧ rest.length = 29 := by
  let la := latchesAt s.ctxStreams.length s.saveRanges
  let dev := padBlocks id ((la + latchAreas) / 8) (DeviceImage.codec.put (s.deviceImage l s.saveRanges))
  obtain ⟨rest, h, hlen⟩ := padded_directory id (s.imageSections l id).2.2 s.sclk s.cycle
    [(512, s.ctxStreams.length), (rangesAt s.ctxStreams.length, s.saveRanges.length), (la, 1536), (la + latchAreas, dev.length / 8 + 1)] rfl
  exact ⟨rest, by rw [← h]; rfl, hlen⟩

/-- Context blocks follow the header copy and the directory. -/
theorem imageSections_shape : ∃ a b c, (s.imageSections l id).1 = a :: b :: ((List.range s.ctxStreams.length).map fun i =>
    (l.savePa + 512 + ctxBlock * i, padWords id (64 + ctxWords * i) ctxWords (s.ctxStreams.getD i []))) ++ c := ⟨_, _, _, rfl⟩

theorem imageSections_context {i : Nat} {e : Nat × Nat} (h : s.savedBlocks[i]? = some e) : (s.imageSections l id).1[2 + i]? =
    some (l.savePa + 512 + ctxBlock * i, padWords id (64 + ctxWords * i) ctxWords (CtxImage.codec.put (s.ctxImage e.1 e.2 (s.savedCtx e.1 e.2)))) := by
  have hstream : s.ctxStreams[i]? = some (CtxImage.codec.put (s.ctxImage e.1 e.2 (s.savedCtx e.1 e.2))) := by
    rw [State.ctxStreams, List.getElem?_map, h]
    rfl
  obtain ⟨hi, -⟩ := List.getElem?_eq_some_iff.1 hstream
  obtain ⟨a, b, c, hshape⟩ := imageSections_shape s l id
  rw [hshape, show 2 + i = i + 1 + 1 by omega, List.cons_append, List.cons_append, List.getElem?_cons_succ, List.getElem?_cons_succ,
    List.getElem?_append_left (by simpa using hi), List.getElem?_map, List.getElem?_range hi]
  simp [hstream]

end

/-! ### The save -/

section
variable {s : State} {l : Launch}

theorem preemptSave_saves (hl : s.launch = some l) (hd : s.preemptSaveDue = true) : exec .preemptSave s = .next (s.save l) := by
  show execPreemptSave s = _
  unfold execPreemptSave
  simp only [hl, hd, if_true]

theorem save_cancels (h : s.goingChans ≠ []) (l : Launch) :
    s.save l = s.goingChans.foldl (fun (s : State) (e : Nat × Nat) => s.cancelChan e.1 e.2 2 true) s := by
  have ha : s.activeChans ≠ [] := fun h' => h (by simp [State.goingChans, h'])
  unfold State.save
  simp [ha]

theorem save_fails {e : SaveTable} {m : TableError} (ha : s.activeChans = []) (h : s.badTable = some (e, m)) (l : Launch) :
    s.save l = s.tableFails e m := by
  unfold State.save
  simp only [ha, h, List.isEmpty_nil, Bool.not_true, Bool.false_eq_true, if_false]

theorem save_images (ha : s.activeChans = []) (h : s.badTable = none) (hl : s.launch = some l) : s.save l =
    if s.hostDoes 2 then ((s.makeImage l).modLaunch fun l => { l with awaitFinish := true }).message [w64 l.savePa, 0, 0, 0]
    else (s.makeImage l).endSave := by
  rw [← hostDoes_makeImage hl]
  unfold State.save
  simp only [ha, h, List.isEmpty_nil, Bool.not_true, Bool.false_eq_true, if_false]

/-- A fault that is raised stands among the faults. -/
theorem mem_raise (s : State) (f : FaultRec) : { f with cycle := s.cycle } ∈ (s.raise f).faults := by
  show _ ∈ addFault s.faults { f with cycle := s.cycle }
  unfold addFault
  split
  next h => exact List.contains_iff_mem.1 h
  next => exact List.mem_append_right _ List.mem_cons_self

theorem tableRaise_faults (s : State) (e : SaveTable) (w2 w3 : Nat) :
    ∃ f ∈ (s.tableRaise e w2 w3).faults, f.code = cProt ∧ f.w2 = w64 w2 ∧ f.w3 = w64 w3 := by
  unfold State.tableRaise
  split
  · exact ⟨_, mem_raise .., rfl, rfl, rfl⟩
  · exact ⟨_, mem_raise .., rfl, rfl, rfl⟩

theorem endSave_eq (hl : s.launch = some l) :
    let u := s.settleLog.takeFree.2
    let w := u.putImage (l.savePa + 64 * (l.imgBlocks - 1)) (u.endWords s.settleLog.takeFree.1)
    s.endSave = ({ w with frames := w.frames.map (fun e : Nat × Frame => (e.1, e.2.keep w.uptime)), pstate := .saved, imglen := l.imgBlocks } :
      State).finish 4 0 := by
  unfold State.endSave
  rw [hl]

/-- The state of a save before its launch ends: what ends with a launch is what it was, but for the status of pre-emption. -/
def State.saveDone (s : State) (l : Launch) : State :=
  let u := s.settleLog.takeFree.2
  let w := u.putImage (l.savePa + 64 * (l.imgBlocks - 1)) (u.endWords s.settleLog.takeFree.1)
  { w with frames := w.frames.map (fun e : Nat × Frame => (e.1, e.2.keep w.uptime)), pstate := .saved, imglen := l.imgBlocks }

theorem OnlyStored.held {s t : State} (h : OnlyStored s t) : t.held = s.held := by
  obtain ⟨m, d, p, rfl⟩ := h
  rfl

theorem saveDone_held (s : State) (l : Launch) : (s.saveDone l).pend = s.pend ∧ (s.saveDone l).launch.map Launch.hdrAddr = s.launch.map Launch.hdrAddr := by
  let u := s.settleLog.takeFree.2
  have h : (u.putImage (l.savePa + 64 * (l.imgBlocks - 1)) (u.endWords s.settleLog.takeFree.1)).held = s.held :=
    (onlyStored_putImage ..).held.trans (State.held_settleLog s)
  exact ⟨congrArg (·.1) h, congrArg (·.2.1) h⟩

theorem endSave_ends (hl : s.launch = some l) (hp : s.pend = none) : s.endSave.launch = none ∧ s.endSave.pstate = .saved := by
  obtain ⟨hpend, hlaunch⟩ := saveDone_held s l
  rw [hl] at hlaunch
  obtain ⟨l', hl', -⟩ := Option.map_eq_some_iff.1 hlaunch
  obtain ⟨q, a, b, h⟩ := finish_eq hl' (hpend.trans hp) 4 0
  have he : s.endSave = (s.saveDone l).finish 4 0 := endSave_eq hl
  rw [he, h]
  exact ⟨rfl, rfl⟩

end

/-! ### Requests, resumes, the log's release and host glazing -/

section
variable {s : State} {l : Launch} {v : Word64}

theorem psave_reaches (h : s.hostReaches = true) : exec (.psave v) s = .next (s.psaveWrite v) := congrArg Host.Outcome.next (if_pos h)

theorem pres_reaches (h : s.hostReaches = true) : exec (.pres v) s = .next (s.presWrite v) := congrArg Host.Outcome.next (if_pos h)

theorem det_modLaunch (s : State) {f : Launch → Launch} (h : ∀ l, (f l).words = l.words) : (s.modLaunch f).det = s.det := by
  have hw : (s.modLaunch f).launchWord 0 = s.launchWord 0 := by
    unfold State.launchWord State.modLaunch
    cases s.launch <;> simp [h]
  unfold State.det
  rw [hw]

/-- The launch of a save that is asked for. -/
def Launch.asked (pa : Nat) (l : Launch) : Launch := { l with preempt := true, savePa := pa }

section
variable {pa : Nat} (hpa : bits v 51 12 * 4096 = pa)
include hpa

/-- A request in a deterministic launch waits for its contexts' checkpoints. -/
theorem psaveWrite_requests (hl : s.launch = some l) (ha : l.awaitFinish = false) (hp : s.pstate ≠ .saving) (hd : s.det = true) :
    s.psaveWrite v = { s.modLaunch (Launch.asked pa) with pstate := .saving } := by
  have hdet : (s.modLaunch (Launch.asked pa)).det = true := (det_modLaunch s (f := Launch.asked pa) fun _ => rfl).trans hd
  have hp' : (s.pstate == .saving) = false := beq_false_of_ne hp
  have hr : s.requestSave pa = { s.modLaunch (Launch.asked pa) with pstate := .saving } := if_pos hdet
  rw [← hr]
  unfold State.psaveWrite
  simp only [hl, ha, hp', hpa, Bool.false_eq_true, if_false]

theorem psaveWrite_starting (hl : s.launch = none) (hd : s.startDue = true) (hp : s.pstate ≠ .saving) :
    s.psaveWrite v = { s with saveWaits := some pa, pstate := .saving } := by
  have hc : (s.startDue && s.pstate != .saving) = true := by simp [hd, hp]
  subst hpa
  unfold State.psaveWrite
  split
  · exact if_pos hc
  next h => exact absurd (hl.symm.trans h) (by simp)

theorem presWrite_resumes {m : SaveImage} (hr : s.running = false) (hp : s.pend = none) (hi : s.imageAt pa = some m)
    (hh : headerBad (s.physWords pa 32) = false) : s.presWrite v = s.resumeImage pa m := by
  unfold State.presWrite
  simp only [hr, hp, hpa, hi, hh, Option.isSome_none, Bool.or_self, Bool.false_eq_true, if_false]

theorem presWrite_fails (hr : s.running = false) (hp : s.pend = none) (h : s.imageAt pa = none ∨ headerBad (s.physWords pa 32) = true) :
    s.presWrite v = s.resumeFails pa := by
  unfold State.presWrite
  simp only [hr, hp, hpa, Option.isSome_none, Bool.or_self, Bool.false_eq_true, if_false]
  split
  · rfl
  next hh => simp only [h.resolve_right hh]

end

theorem psaveWrite_idle (hl : s.launch = none) (hd : s.startDue = false) : s.psaveWrite v = s.lose := by
  unfold State.psaveWrite
  simp only [hl, hd, Bool.false_and, Bool.false_eq_true, if_false]

theorem psaveWrite_finishes (hl : s.launch = some l) (ha : l.awaitFinish = true) : s.psaveWrite v = s.endSave := by
  unfold State.psaveWrite
  simp only [hl, ha, if_true]

theorem presWrite_running (hr : s.running = true) : s.presWrite v = s.lose := if_pos (by rw [hr]; rfl)

theorem onlyStored_writePhys (s : State) (pa n v : Nat) : OnlyStored s (s.writePhys pa n v) := by
  have h1 : OnlyStored s (s.writePart1 (s.paKey 0 pa) n v) := by
    obtain ⟨m, hm⟩ := writePart1_only s (s.paKey 0 pa) n v
    exact ⟨m, _, _, hm⟩
  unfold State.writePhys
  split
  · exact h1
  · exact h1
  · exact h1
  · exact .refl s

theorem onlyStored_putWords (s : State) (pa : Nat) (ws : List Word64) : OnlyStored s (s.putWords pa ws) := by
  induction ws generalizing s pa with
  | nil => exact .refl s
  | cons w ws ih => exact (onlyStored_writePhys ..).trans (ih ..)

theorem errorLog_launch (s : State) (cause g x : Nat) (addr : Word64) : (s.errorLog cause g x addr).launch = s.launch := by
  unfold State.errorLog State.message
  dsimp only
  split_ifs <;> rfl

theorem resumeFails_fails (s : State) (pa : Nat) : (s.resumeFails pa).pstate = .failed ∧ (s.resumeFails pa).launch = s.launch :=
  ⟨rfl, (congrArg (·.1) (onlyStored_putWords ..).asked).trans (errorLog_launch ..)⟩

theorem endStall_stopped (h : s.launch = none) : s.endStall = s := by
  unfold State.endStall
  split
  next h' => exact absurd (h.symm.trans h') (by simp)
  next => rfl

theorem logrd_stopped (hh : s.hostReaches = true) (hr : s.run = false) : exec (.logrd v) s = .next { s with logrd := v.toNat % 2 ^ 32 } := by
  have hb : bits v 31 0 = v.toNat % 2 ^ 32 := by simp [bits]
  have hl : s.launch = none := by simpa [State.run] using hr
  have hend : ({ s with logrd := bits v 31 0 } : State).endStall = { s with logrd := bits v 31 0 } := endStall_stopped hl
  have hrun : ({ s with logrd := bits v 31 0 } : State).run = false := hr
  show execLogrd v s = _
  unfold execLogrd
  simp only [hh, hend, hrun, Bool.not_true, Bool.false_eq_true, if_false]
  rw [hb]

/-- The state in which a glaze that the host has done is taken up. -/
def State.glazed (s : State) (pa g x : Nat) (j : Iss) : State :=
  ((s.setFrame pa { s.frame pa with glazeWait := none }).modCtx g x fun k => { k with run := .running, resume := some j }).modCore g Core.select

theorem glzdone_goesOn {g x : Nat} {i : Iss} (hh : s.hostReaches = true) (hf : (s.frame v.toNat).glazeWait = some (g, x))
    (hr : (s.ctx g x).resume = some i) (ha : s.iss.active = false) (hrun : (s.ctx g x).run = .held) (hw : (s.ctx g x).walks = []) :
    let j := { i with glazeOk := i.glazeOk ++ [v.toNat] }
    let u := s.glazed v.toNat g x j
    exec (.glzdone v) s = .next (if (u.ctx g x).stopped then u else u.resumeIssue g x j) := by
  have hc : (((s.setFrame v.toNat { s.frame v.toNat with glazeWait := none }).ctx g x).run != .held ||
      !((s.setFrame v.toNat { s.frame v.toNat with glazeWait := none }).ctx g x).walks.isEmpty) = false := by
    show ((s.ctx g x).run != .held || !(s.ctx g x).walks.isEmpty) = false
    rw [hrun, hw]
    rfl
  show execGlzdone v s = _
  unfold execGlzdone State.glazeDone
  simp only [hh, hf, hr, ha, hc, Bool.false_eq_true, if_false, if_true]
  rfl

end

theorem makeImage_parts (s : State) (l : Launch) :
    let id := s.uncountWaits.takeFree.1
    let u := s.uncountWaits.takeFree.2
    let image := u.imageSections l id
    image.1[0]? = some (l.savePa, l.words.take 28 ++ u.physWords (l.hdrAddr + 224) 4) ∧
    (∃ rest, image.1[1]? = some (l.savePa + 256, [w64 image.2.2, w64 u.sclk, w64 u.cycle] ++ rest) ∧ rest.length = 29) ∧
    ∀ i e, u.savedBlocks[i]? = some e → ∃ ws : List Word64, image.1[2 + i]? = some (l.savePa + 512 + 8192 * i, ws) ∧ ws.length = 1024 ∧
      ws.take 128 = (u.savedCtx e.1 e.2).s.toList ++ (u.savedCtx e.1 e.2).a.toList ++ (u.savedCtx e.1 e.2).stride.toList :=
  ⟨imageSections_header .., imageSections_directory .., fun _ _ h => ⟨_, imageSections_context _ _ _ h, length_padWords .., padded_ctxImage ..⟩⟩

theorem serviceEvents_state : Statements.ServiceEvents := by
  intro s v pa
  have hpa : bits v 51 12 * 4096 = pa := rfl
  refine ⟨fun l hl hd => ⟨fun hg => ?_, fun ha => ⟨fun e m hb => ?_, fun e hb => ⟨?_, ?_⟩, fun e va level hb => ?_, fun hb => ?_⟩⟩, fun l hh hl ha hp hd => ?_,
    fun hh hl hd => ?_, fun hh hl hd hp => ?_, fun l hh hl ha => ⟨?_, endSave_eq hl⟩, fun hh hr hp => ⟨fun m hi hhd => ?_, fun h => ⟨?_,
        resumeFails_fails s pa⟩⟩,
    fun hh hr => ?_, fun hh hr => logrd_stopped hh hr, fun g x i hh hf hr ha hrun hw => glzdone_goesOn hh hf hr ha hrun hw⟩
  · exact (preemptSave_saves hl hd).trans (congrArg _ (save_cancels hg l))
  · exact (preemptSave_saves hl hd).trans (congrArg _ (save_fails ha hb l))
  · exact (preemptSave_saves hl hd).trans (congrArg _ (save_fails ha hb l))
  · obtain ⟨f, hf, hcode, hw2, -⟩ := tableRaise_faults s e e.2.2 0
    exact ⟨f, hf, hcode, hw2⟩
  · exact ⟨_, (preemptSave_saves hl hd).trans (congrArg _ (save_fails ha hb l)), tableRaise_faults s e va level⟩
  · obtain ⟨hheader, hdir, hctx⟩ := makeImage_parts s l
    obtain ⟨n, hmade⟩ := asked_makeImage s l
    refine ⟨makeImage_eq s l, hheader, hdir, hctx, fun hhost => ?_, fun hhost => ⟨?_, fun hp => ?_⟩⟩
    · exact (preemptSave_saves hl hd).trans (congrArg _ ((save_images ha hb hl).trans (if_pos hhost)))
    · exact (preemptSave_saves hl hd).trans (congrArg _ ((save_images ha hb hl).trans (if_neg (by simp [hhost]))))
    · rw [hl] at hmade
      exact endSave_ends (congrArg (·.1) hmade) ((congrArg (·.2) hmade).trans hp)
  · exact (psave_reaches hh).trans (congrArg _ (psaveWrite_requests hpa hl ha hp hd))
  · exact (psave_reaches hh).trans (congrArg _ (psaveWrite_idle hl hd))
  · exact (psave_reaches hh).trans (congrArg _ (psaveWrite_starting hpa hl hd hp))
  · exact (psave_reaches hh).trans (congrArg _ (psaveWrite_finishes hl ha))
  · exact (pres_reaches hh).trans (congrArg _ (presWrite_resumes hpa hr hp hi hhd))
  · exact (pres_reaches hh).trans (congrArg _ (presWrite_fails hpa hr hp h))
  · exact (pres_reaches hh).trans (congrArg _ (presWrite_running hr))

/-- Settles O40: samples by the records that they leave, services by their conditions. -/
theorem serviceEvents : Obligations.ServiceEvents := ⟨sampleEvents, serviceEvents_state⟩

end Sys2Proof.Machine
end

