-- ==== Sys2Proof/Proofs/PaneElements.lean ====
section
/-! Elements of a pane: values added into the adjoints of a block, and adjoints cleared (R276, R281 to R283). -/

namespace Sys2Proof.Machine

/-! ### Blocks of a pane -/

theorem block?_idx {p : Pane} {b : Nat} {k : PaneBlock} (h : p.block? b = some k) : k.idx = b := by
  simpa using List.find?_some h

/-- A block that stands in a pane, replaced. -/
theorem block?_setBlock {p : Pane} {k k' : PaneBlock} (h : p.block? k.idx = some k') (b : Nat) :
    (p.setBlock k).block? b = if b = k.idx then some k else p.block? b := by
  have hany : (p.blocks.any fun j => j.idx == k.idx) = true := by
    simpa [List.any_eq_true] using ⟨k', List.mem_of_find?_eq_some h, block?_idx h⟩
  have hset : p.setBlock k = { p with blocks := p.blocks.map fun j => if j.idx == k.idx then k else j } := if_pos hany
  rw [hset]
  show ((p.blocks.map fun j => if j.idx == k.idx then k else j).find? fun j => j.idx == b) = _
  by_cases hb : b = k.idx
  · subst hb
    have hpred : ((fun j : PaneBlock => j.idx == k.idx) ∘ fun j => if j.idx == k.idx then k else j) = fun j => j.idx == k.idx := by
      funext j
      by_cases hj : j.idx = k.idx <;> simp [hj]
    rw [List.find?_map, hpred, if_pos rfl, show p.blocks.find? _ = some k' from h]
    simp [block?_idx h]
  · have hpred : ((fun j : PaneBlock => j.idx == b) ∘ fun j => if j.idx == k.idx then k else j) = fun j => j.idx == b := by
      funext j
      by_cases hj : j.idx = k.idx
      · simp [hj]
      · simp [hj]
    rw [List.find?_map, hpred, if_neg hb, Pane.block?]
    cases hf : p.blocks.find? fun j => j.idx == b with
    | none => rfl
    | some j =>
      have hj : j.idx = b := by simpa using List.find?_some hf
      simp [hj, hb]

/-- An operation on positions of a pane acts on the block of the position alone, by `g`. -/
def ActsOnBlock (op : Pane → Nat → Pane) (g : Nat → PaneBlock → PaneBlock) : Prop :=
  ∀ p j b, (op p j).block? b = if b = j / 16 then (p.block? b).map (g j) else p.block? b

/-- Over a list of positions, each block sees the positions within it. -/
theorem block?_foldl {op : Pane → Nat → Pane} {g : Nat → PaneBlock → PaneBlock} (h : ActsOnBlock op g) (js : List Nat) (p : Pane) (b : Nat) :
    (js.foldl op p).block? b = (p.block? b).map fun k => (js.filter fun j => j / 16 = b).foldl (fun k j => g j k) k := by
  induction js generalizing p with
  | nil => cases hb : p.block? b <;> simp [hb]
  | cons j js ih =>
    rw [List.foldl_cons, ih, h]
    by_cases hb : b = j / 16
    · rw [if_pos hb, Option.map_map, List.filter_cons_of_pos (by simp [hb])]
      rfl
    · rw [if_neg hb, List.filter_cons_of_neg (by simpa using Ne.symm hb)]

/-- An operation that replaces the block of a position, where there is one, acts on that block alone. -/
theorem actsOnBlock_of_set {op : Pane → Nat → Pane} {g : Nat → PaneBlock → PaneBlock} (hg : ∀ j k, (g j k).idx = k.idx)
    (hsome : ∀ p j k, p.block? (j / 16) = some k → op p j = p.setBlock (g j k) ∨ op p j = p ∧ g j k = k)
    (hnone : ∀ p j, p.block? (j / 16) = none → op p j = p) : ActsOnBlock op g := by
  intro p j b
  cases hk : p.block? (j / 16) with
  | none =>
    rw [hnone p j hk]
    split
    next hb => rw [hb, hk]; rfl
    next => rfl
  | some k =>
    have hidx : (g j k).idx = j / 16 := (hg j k).trans (block?_idx hk)
    rcases hsome p j k hk with h | ⟨h, hgk⟩
    · rw [h, block?_setBlock (k' := k) (by rw [hidx, hk]), hidx]
      split
      next hb => rw [hb, hk]; rfl
      next => rfl
    · rw [h]
      split
      next hb => rw [hb, hk, Option.map_some, hgk]
      next => rfl

/-! ### Elements of a pane block -/

@[simp] theorem put_idx (k : PaneBlock) (w i v : Nat) : (k.put w i v).idx = k.idx := by unfold PaneBlock.put; dsimp only

@[simp] theorem put_scale (k : PaneBlock) (w i v : Nat) : (k.put w i v).scale = k.scale := by unfold PaneBlock.put; dsimp only

@[simp] theorem put_poison (k : PaneBlock) (w i v : Nat) : (k.put w i v).poison = k.poison := by unfold PaneBlock.put; dsimp only

@[simp] theorem put_cleared (k : PaneBlock) (w i v : Nat) : (k.put w i v).cleared = k.cleared := by unfold PaneBlock.put; dsimp only

/-- Element `i` of a pane block after a put. -/
theorem put_lane (k : PaneBlock) (i v : Nat) {n : Nat} (hn : n < 16) :
    laneOf 32 (k.put 32 i v).data n = if n = i then v % 2 ^ 32 else laneOf 32 k.data n := laneOf_setLane 32 k.data i v hn

theorem put_present (k : PaneBlock) (w i v : Nat) {n : Nat} (hn : n < 16) :
    (k.put w i v).present.getLsbD n = (k.present.getLsbD n || decide (n = i)) := by
  show (k.present ||| BitVec.ofNat 64 (2 ^ i)).getLsbD n = _
  rw [BitVec.getLsbD_or, BitVec.getLsbD_ofNat, Nat.testBit_two_pow]
  simp [show n < 64 by omega, eq_comm]

/-! ### Values added into adjoints (R282) -/

/-- A value added into the element of a position, where the block is sound. -/
def PaneBlock.addAt (r : FrameRec) (u : Nat → Num) (j : Nat) (k : PaneBlock) : PaneBlock :=
  if k.poison then k else (k.accumulate r (j % 16) (u j)).1

theorem addAdjoint_acts (r : FrameRec) (u : Nat → Num) : ActsOnBlock (fun p j => (addAdjoint r p j (u j)).1) (PaneBlock.addAt r u) := by
  refine actsOnBlock_of_set (fun j k => ?_) (fun p j k h => ?_) (fun p j h => ?_)
  · unfold PaneBlock.addAt PaneBlock.accumulate
    split
    · rfl
    · exact put_idx ..
  · unfold addAdjoint PaneBlock.addAt
    simp only [h]
    split
    · exact .inr ⟨rfl, rfl⟩
    · exact .inl rfl
  · unfold addAdjoint
    simp only [h]

/-- What a value added into element `i` of a block gives: the exact sum with the element, where one is present, rounded and clamped by the frame. -/
def PaneBlock.sumAt (k : PaneBlock) (r : FrameRec) (i : Nat) (x : Num) : Nat :=
  (r.fit ((if k.present.getLsbD i then (fAdd 0 (laneNum 2 ⟨k.data, mkDesc 2 k.scale⟩ i) x).1 else x).scale (-k.scale))).1

theorem accumulate_put {r : FrameRec} (hf : r.fmt = 2) (k : PaneBlock) (i : Nat) (x : Num) :
    (k.accumulate r i x).1 = k.put 32 i (k.sumAt r i x) := by
  have hw : r.width = 32 := by rw [FrameRec.width, hf]; rfl
  unfold PaneBlock.accumulate PaneBlock.sumAt PaneBlock.val
  rw [hw, hf]
  cases k.present.getLsbD i <;> rfl

/-- A sum depends on its own element and the scale of the block alone. -/
theorem sumAt_congr {k k' : PaneBlock} {i : Nat} (hs : k'.scale = k.scale) (hp : k'.present.getLsbD i = k.present.getLsbD i)
    (hl : laneOf 32 k'.data i = laneOf 32 k.data i) (r : FrameRec) (x : Num) : k'.sumAt r i x = k.sumAt r i x := by
  have hn : laneNum 2 ⟨k'.data, mkDesc 2 k'.scale⟩ i = laneNum 2 ⟨k.data, mkDesc 2 k.scale⟩ i := by
    rw [hs]
    exact congrArg (fun l => (elementNum 2 l).scale (scaleOf (mkDesc 2 k.scale))) hl
  unfold PaneBlock.sumAt
  rw [hn, hp, hs]

/-- Block `b` of an adjoint frame after values have been added at positions `js`. -/
structure AddedTo (r : FrameRec) (u : Nat → Num) (b : Nat) (js : List Nat) (k0 k : PaneBlock) : Prop where
  poison : k.poison = false
  scale : k.scale = k0.scale
  cleared : k.cleared = k0.cleared
  added : ∀ i < 16, 16 * b + i ∈ js → k.present.getLsbD i = true ∧ laneOf 32 k.data i = k0.sumAt r i (u (16 * b + i)) % 2 ^ 32
  kept : ∀ i < 16, 16 * b + i ∉ js → k.present.getLsbD i = k0.present.getLsbD i ∧ laneOf 32 k.data i = laneOf 32 k0.data i

theorem addedTo_foldl {r : FrameRec} (hf : r.fmt = 2) (u : Nat → Num) (b : Nat) : ∀ {js : List Nat} {k0 : PaneBlock}, k0.poison = false → js.Nodup →
    (∀ j ∈ js, j / 16 = b) → AddedTo r u b js k0 (js.foldl (fun k j => k.addAt r u j) k0)
  | [], k0, hp, _, _ => ⟨hp, rfl, rfl, fun _ _ h => absurd h List.not_mem_nil, fun _ _ _ => ⟨rfl, rfl⟩⟩
  | j :: js, k0, hp, hnd, hb => by
    have hjb : j / 16 = b := hb j List.mem_cons_self
    have hk1 : k0.addAt r u j = k0.put 32 (j % 16) (k0.sumAt r (j % 16) (u j)) := by
      unfold PaneBlock.addAt
      rw [hp, if_neg Bool.false_ne_true, accumulate_put hf]
    have ih := addedTo_foldl hf u b (k0 := k0.put 32 (j % 16) (k0.sumAt r (j % 16) (u j))) ((put_poison ..).trans hp) (List.nodup_cons.1 hnd).2
      fun i hi => hb i (List.mem_cons_of_mem _ hi)
    rw [List.foldl_cons, hk1]
    refine ⟨ih.poison, ih.scale.trans (put_scale ..), ih.cleared.trans (put_cleared ..), fun i hi hmem => ?_, fun i hi hmem => ?_⟩
    · by_cases hj : 16 * b + i = j
      · have hij : i = j % 16 := by omega
        obtain ⟨h1, h2⟩ := ih.kept i hi (hj ▸ (List.nodup_cons.1 hnd).1)
        rw [h1, h2, put_present _ _ _ _ hi, put_lane _ _ _ hi, if_pos hij, hj, ← hij]
        simp
      · have hij : i ≠ j % 16 := by omega
        have hmem' : 16 * b + i ∈ js := (List.mem_cons.1 hmem).resolve_left hj
        obtain ⟨h1, h2⟩ := ih.added i hi hmem'
        refine ⟨h1, h2.trans ?_⟩
        rw [sumAt_congr (put_scale ..) (by simp [put_present _ _ _ _ hi, hij]) (by rw [put_lane _ _ _ hi, if_neg hij])]
    · have hj : 16 * b + i ≠ j := fun h => hmem (h ▸ List.mem_cons_self)
      have hij : i ≠ j % 16 := by omega
      obtain ⟨h1, h2⟩ := ih.kept i hi fun h => hmem (List.mem_cons_of_mem _ h)
      rw [h1, h2, put_present _ _ _ _ hi, put_lane _ _ _ hi, if_neg hij]
      simp [hij]

/-! ### Adjoints cleared (R281, R283) -/

/-- Element `i` of a block marked as cleared. -/
def PaneBlock.markCleared (k : PaneBlock) (i : Nat) : PaneBlock := { k with cleared := k.cleared ||| BitVec.ofNat 64 (2 ^ i) }

theorem markCleared_cleared (k : PaneBlock) (i : Nat) {n : Nat} (hn : n < 16) :
    (k.markCleared i).cleared.getLsbD n = (k.cleared.getLsbD n || decide (n = i)) := by
  show (k.cleared ||| BitVec.ofNat 64 (2 ^ i)).getLsbD n = _
  rw [BitVec.getLsbD_or, BitVec.getLsbD_ofNat, Nat.testBit_two_pow]
  simp [show n < 64 by omega, eq_comm]

theorem markCleared_idx (k : PaneBlock) (i : Nat) : (k.markCleared i).idx = k.idx := rfl

theorem markCleared_scale (k : PaneBlock) (i : Nat) : (k.markCleared i).scale = k.scale := rfl

theorem markCleared_poison (k : PaneBlock) (i : Nat) : (k.markCleared i).poison = k.poison := rfl

theorem markCleared_present (k : PaneBlock) (i : Nat) : (k.markCleared i).present = k.present := rfl

theorem markCleared_data (k : PaneBlock) (i : Nat) : (k.markCleared i).data = k.data := rfl

/-- The element of a position cleared. -/
def PaneBlock.clearAt (j : Nat) (k : PaneBlock) : PaneBlock := (k.put 32 (j % 16) 0).markCleared (j % 16)

theorem clearAt_idx (j : Nat) (k : PaneBlock) : (k.clearAt j).idx = k.idx := (markCleared_idx ..).trans (put_idx ..)

theorem clearAt_scale (j : Nat) (k : PaneBlock) : (k.clearAt j).scale = k.scale := (markCleared_scale ..).trans (put_scale ..)

theorem clearAt_poison (j : Nat) (k : PaneBlock) : (k.clearAt j).poison = k.poison := (markCleared_poison ..).trans (put_poison ..)

theorem clearAt_cleared (k : PaneBlock) (j : Nat) {n : Nat} (hn : n < 16) :
    (k.clearAt j).cleared.getLsbD n = (k.cleared.getLsbD n || decide (n = j % 16)) := by
  rw [PaneBlock.clearAt, markCleared_cleared _ _ hn, put_cleared]

theorem clearAt_present (k : PaneBlock) (j : Nat) {n : Nat} (hn : n < 16) :
    (k.clearAt j).present.getLsbD n = (k.present.getLsbD n || decide (n = j % 16)) := by
  rw [PaneBlock.clearAt, markCleared_present, put_present _ _ _ _ hn]

theorem clearAt_lane (k : PaneBlock) (j : Nat) {n : Nat} (hn : n < 16) :
    laneOf 32 (k.clearAt j).data n = if n = j % 16 then 0 else laneOf 32 k.data n := by
  rw [PaneBlock.clearAt, markCleared_data, put_lane _ _ _ hn, Nat.zero_mod]

theorem clearAdjoint_acts : ActsOnBlock clearAdjoint PaneBlock.clearAt := by
  refine actsOnBlock_of_set clearAt_idx (fun p j k h => .inl ?_) (fun p j h => ?_)
  · unfold clearAdjoint PaneBlock.clearAt PaneBlock.markCleared
    simp only [h]
  · unfold clearAdjoint
    simp only [h]

/-- Block `b` of an adjoint frame after the elements at positions `js` have been cleared. -/
structure ClearedAt (b : Nat) (js : List Nat) (k0 k : PaneBlock) : Prop where
  poison : k.poison = k0.poison
  scale : k.scale = k0.scale
  gone : ∀ i < 16, 16 * b + i ∈ js → k.present.getLsbD i = true ∧ k.cleared.getLsbD i = true ∧ laneOf 32 k.data i = 0
  kept : ∀ i < 16, 16 * b + i ∉ js → k.present.getLsbD i = k0.present.getLsbD i ∧ k.cleared.getLsbD i = k0.cleared.getLsbD i ∧
    laneOf 32 k.data i = laneOf 32 k0.data i

theorem clearedAt_foldl (b : Nat) : ∀ {js : List Nat} {k0 : PaneBlock}, (∀ j ∈ js, j / 16 = b) →
    ClearedAt b js k0 (js.foldl (fun k j => k.clearAt j) k0)
  | [], k0, _ => ⟨rfl, rfl, fun _ _ h => absurd h List.not_mem_nil, fun _ _ _ => ⟨rfl, rfl, rfl⟩⟩
  | j :: js, k0, hb => by
    have hjb : j / 16 = b := hb j List.mem_cons_self
    have ih := clearedAt_foldl b (k0 := k0.clearAt j) fun i hi => hb i (List.mem_cons_of_mem _ hi)
    rw [List.foldl_cons]
    refine ⟨ih.poison.trans (clearAt_poison ..), ih.scale.trans (clearAt_scale ..), fun i hi hmem => ?_, fun i hi hmem => ?_⟩
    · by_cases hjs : 16 * b + i ∈ js
      · exact ih.gone i hi hjs
      · have hij : i = j % 16 := by
          have := (List.mem_cons.1 hmem).resolve_right hjs
          omega
        obtain ⟨h1, h2, h3⟩ := ih.kept i hi hjs
        rw [h1, h2, h3, clearAt_present _ _ hi, clearAt_cleared _ _ hi, clearAt_lane _ _ hi, if_pos hij]
        simp [hij]
    · have hij : i ≠ j % 16 := by
        have : 16 * b + i ≠ j := fun h => hmem (h ▸ List.mem_cons_self)
        omega
      obtain ⟨h1, h2, h3⟩ := ih.kept i hi fun h => hmem (List.mem_cons_of_mem _ h)
      rw [h1, h2, h3, clearAt_present _ _ hi, clearAt_cleared _ _ hi, clearAt_lane _ _ hi, if_neg hij]
      simp [hij]

end Sys2Proof.Machine
end

