-- ==== Sys2Proof/Proofs/ReverseMode.lean ====
section
/-! Reverse mode: reversed loads and stores of differentiable addresses (R276, R278, R281 to R283, R411). -/

namespace Sys2Proof.Machine

/-! ### Reversed loads (R282, R411) -/

/-- Values added into the adjoints at a list of positions, with the flags raised. -/
def addAdjoints (r : FrameRec) (u : Nat → Num) (js : List Nat) (p : Pane) : Pane × BitVec 6 :=
  js.foldl (fun (acc : Pane × BitVec 6) j => ((addAdjoint r acc.1 j (u j)).1, acc.2 ||| (addAdjoint r acc.1 j (u j)).2)) (p, 0)

theorem addAdjoints_fst (r : FrameRec) (u : Nat → Num) (js : List Nat) (p : Pane) :
    (addAdjoints r u js p).1 = js.foldl (fun p j => (addAdjoint r p j (u j)).1) p := by
  unfold addAdjoints
  generalize (0 : BitVec 6) = fl
  induction js generalizing p fl with
  | nil => rfl
  | cons j js ih => exact ih ..

/-- What values added at positions leave of a block of the pane. -/
theorem block?_addAdjoints {r : FrameRec} (hf : r.fmt = 2) (u : Nat → Num) {js : List Nat} (hnd : js.Nodup) {p : Pane} {b : Nat} {k0 : PaneBlock}
    (h : p.block? b = some k0) :
    (k0.poison = true → (addAdjoints r u js p).1.block? b = some k0) ∧
    (k0.poison = false → ∃ k, (addAdjoints r u js p).1.block? b = some k ∧ AddedTo r u b (js.filter fun j => j / 16 = b) k0 k) := by
  rw [addAdjoints_fst, block?_foldl (addAdjoint_acts r u), h, Option.map_some]
  refine ⟨fun hp => ?_, fun hp => ⟨_, rfl, addedTo_foldl hf u b hp (hnd.filter _) fun j hj => by simpa using (List.mem_filter.1 hj).2⟩⟩
  generalize js.filter (fun j => j / 16 = b) = l
  congr 1
  induction l with
  | nil => rfl
  | cons j l ih =>
    have hj : k0.addAt r u j = k0 := if_pos hp
    rw [List.foldl_cons, hj, ih]

/-- The format of a register that is added into adjoints: an untyped one holds FP32. -/
def adjointCode (v : VVal) : Nat := if v.desc = 0 then 2 else descFmt v.desc

/-- The element for the adjoint `k` places after the first, of a register or a pair. -/
def pairElement (s : State) (d : VRegNo) (k : Nat) : Num :=
  if k < 512 / codeBits (adjointCode (s.rdV d)) then laneNum (adjointCode (s.rdV d)) (s.rdV d) k
  else laneNum (adjointCode (s.rdV d)) ⟨(s.rdV (nextV d)).data, (s.rdV d).desc⟩ (k - 512 / codeBits (adjointCode (s.rdV d)))

/-- The positions of a block's adjoints that have one. -/
def State.adjointsAt (s : State) (a : AdjRef) : List Nat :=
  ((List.range (512 / codeBits a.fmt)).map (a.j + ·)).filter (s.frame a.adj).info.hasPosition

theorem nodup_run (j n : Nat) : ((List.range n).map (j + ·)).Nodup := (List.nodup_range).map fun _ _ h => Nat.add_left_cancel h

/-- What a reversed load that commits has found, and the state that it leaves. -/
theorem reverseLoad_ok {s t : State} {d : VRegNo} {va : Word64} {l : Loc} (h : reverseLoad s d va l = .ok t) :
    ∃ (a : AdjRef) (f : Frame) (p : Pane) (fresh : Bool), s.adjointOf s.cur l va.toNat = some a ∧
      (adjointCode (s.rdV d) == 0 || decide (4 < adjointCode (s.rdV d))) = false ∧
      (decide (2 * (512 / codeBits (adjointCode (s.rdV d))) < 512 / codeBits a.fmt) ||
        decide (512 / codeBits (adjointCode (s.rdV d)) < 512 / codeBits a.fmt) && !groupOk d) = false ∧
      touchAdjoint s a.adj (s.adjointsAt a) = .ok (f, p, fresh) ∧
      t = (s.putAdjoint a.adj f (addAdjoints f.info (fun j => pairElement s d (j - a.j)) (s.adjointsAt a) p).1 fresh).putFlags
        (addAdjoints f.info (fun j => pairElement s d (j - a.j)) (s.adjointsAt a) p).2 1 := by
  unfold reverseLoad at h
  cases ha : s.adjointOf s.cur l va.toNat with
  | none =>
    simp only [ha, protFault, slotFault] at h
    cases h
  | some a =>
    have hcode : (if (s.rdV d).desc = 0 then 2 else descFmt (s.rdV d).desc) = adjointCode (s.rdV d) := rfl
    simp only [ha, hcode] at h
    cases h1 : adjointCode (s.rdV d) == 0 || decide (4 < adjointCode (s.rdV d)) with
    | true =>
      simp only [h1, if_true] at h
      cases h
    | false =>
      cases h2 : decide (2 * (512 / codeBits (adjointCode (s.rdV d))) < 512 / codeBits a.fmt) ||
          decide (512 / codeBits (adjointCode (s.rdV d)) < 512 / codeBits a.fmt) && !groupOk d with
      | true =>
        simp only [h1, h2, if_true, Bool.false_eq_true, if_false] at h
        cases h
      | false =>
        simp only [h1, h2, Bool.false_eq_true, if_false] at h
        cases htouch : touchAdjoint s a.adj (s.adjointsAt a) with
        | error e =>
          rw [State.adjointsAt] at htouch
          simp only [htouch, bind, Except.bind] at h
          cases h
        | ok r =>
          obtain ⟨f, p, fresh⟩ := r
          refine ⟨a, f, p, fresh, rfl, rfl, h2, htouch, ?_⟩
          rw [State.adjointsAt] at htouch
          simp only [htouch, bind, Except.bind] at h
          cases h
          rfl

theorem reverseLoad_effects {s t : State} {d : VRegNo} {va : Word64} {l : Loc} (h : reverseLoad s d va l = .ok t) :
    ∃ (a : AdjRef) (f : Frame) (p0 p : Pane) (fresh : Bool) (fl : BitVec 6), s.adjointOf s.cur l va.toNat = some a ∧
      1 ≤ adjointCode (s.rdV d) ∧ adjointCode (s.rdV d) ≤ 4 ∧ 512 / codeBits a.fmt ≤ 2 * (512 / codeBits (adjointCode (s.rdV d))) ∧
      (512 / codeBits (adjointCode (s.rdV d)) < 512 / codeBits a.fmt → d.toNat % 2 = 0 ∧ d.toNat < 31) ∧
      touchAdjoint s a.adj (s.adjointsAt a) = .ok (f, p0, fresh) ∧ t = (s.putAdjoint a.adj f p fresh).putFlags fl 1 ∧
      (f.info.fmt = 2 → ∀ b k0, p0.block? b = some k0 → (k0.poison = true → p.block? b = some k0) ∧
        (k0.poison = false → ∃ k, p.block? b = some k ∧
          AddedTo f.info (fun j => pairElement s d (j - a.j)) b ((s.adjointsAt a).filter fun j => j / 16 = b) k0 k)) := by
  obtain ⟨a, f, p0, fresh, ha, hcode, hgroup, htouch, ht⟩ := reverseLoad_ok h
  have hnd : (s.adjointsAt a).Nodup := (nodup_run ..).filter _
  refine ⟨a, f, p0, _, fresh, _, ha, ?_, ?_, ?_, fun hlt => ?_, htouch, ht, fun hf b k0 hk => block?_addAdjoints hf _ hnd hk⟩
  · have : adjointCode (s.rdV d) ≠ 0 := by simpa using (Bool.or_eq_false_iff.1 hcode).1
    omega
  · simpa using (Bool.or_eq_false_iff.1 hcode).2
  · simpa using (Bool.or_eq_false_iff.1 hgroup).1
  · have hg : groupOk d = true := by simpa [hlt] using (Bool.or_eq_false_iff.1 hgroup).2
    simpa [groupOk] using hg

/-! ### Reversed stores (R283) -/

/-- The old block that a reversed store takes off the tape, where its form restores one. -/
def StoreForm.oldBlock (f : StoreForm) (s : State) (h1 : Word64) : Except State VVal := match f with
  | .block _ => topBlock s h1
  | _ => .ok default

/-- The bytes of the entry of a form. -/
def StoreForm.entryBytes : StoreForm → Nat
  | .block _ => 80
  | _ => 16

/-- The registers of a block form begin a group of two. -/
def StoreForm.paired : StoreForm → Bool
  | .block d | .paneBlock d _ => groupOk d
  | _ => true

/-- The bytes of a form that is no block. -/
def StoreForm.elemBytes (f : StoreForm) (fmt : Nat) : Nat := match f with
  | .scalar _ lsz => 2 ^ lsz
  | _ => codeBits fmt / 8

/-- The positions that a reversed store reads. -/
def StoreForm.positions (f : StoreForm) (a : AdjRef) : List Nat := (List.range (if f.isBlock then 512 / codeBits a.fmt else 1)).map (a.j + ·)

/-- The implicit pane of the issuing context on an adjoint frame, where it has one. -/
def State.ownAdjoint (s : State) (adj : Nat) : Option Pane :=
  if s.cur.implicit.contains adj then (s.frame adj).implicitOf s.iss.g s.iss.x else none

/-- Adjoints cleared in the implicit pane, unless the entry is that of an accumulating pane store. -/
def clearAdjoints (s : State) (keep : Bool) (adj : Nat) (js : List Nat) : Except State State :=
  if keep then .ok s else do
    let (fr, p, fresh) ← touchAdjoint s adj js
    .ok (s.putAdjoint adj fr (js.foldl clearAdjoint p) fresh)

/-- The state in which the old value has been restored and the entry taken off the tape. -/
def State.undo (s : State) (f : StoreForm) (va : Nat) (l : Loc) (h1 : Word64) (old : VVal) : State := (s.restoreStore f va l h1 old).popTape f.entryBytes

/-- The end of a reversed store: what it delivers, with its declared completion. -/
def State.deliverAdjoints (s : State) (f : StoreForm) (a : AdjRef) (r : FrameRec) (n : Nat) (ys : List Nat) (fl : BitVec 6) (bad : Bool) : State :=
  let lat := 1024 + 32 * r.maxdepth
  let d := adjointUpdates s f a.fmt ys bad
  (d.1.land (d.2 ++ (if fl = 0 then [] else [.flagsOr fl])) lat false).note (r.base + 4 * a.j) (4 * n) false lat

theorem reverseStore_eq (s : State) (f : StoreForm) (va : Word64) (l : Loc) : reverseStore s f va l = (do
    let (h0, h1, _) ← topEntry s
    if !f.entryMatches h0 h1 va.toNat then protFault s kNumTpos
    let old ← f.oldBlock s h1
    match s.adjointOf s.cur l va.toNat with
    | none => protFault s va
    | some a =>
      if !f.isBlock && f.elemBytes a.fmt ≠ codeBits a.fmt / 8 then protFault s va
      if f.isBlock && codeBits a.fmt = 16 && !f.paired then protFault s va
      let (ys, fl, bad) ← readAdjoints s (s.frame a.adj) (s.ownAdjoint a.adj) (f.positions a)
      if sillSize ≤ (s.core s.iss.g).sillUsed then slotWait s .sill
      let s1 ← clearAdjoints s (bits h0 63 60 == 3 && bit h1 47) a.adj ((f.positions a).filter (s.frame a.adj).info.hasPosition)
      .ok ((s1.undo f va.toNat l h1 old).deliverAdjoints f a (s.frame a.adj).info (f.positions a).length ys fl bad)) := by
  rfl

/-- What a reversed store that commits has found on its way. -/
structure Reversed (s t : State) (f : StoreForm) (va : Word64) (l : Loc) (a : AdjRef) (h0 h1 : Word64) (at_ : Loc) (old : VVal)
    (ys : List Nat) (fl : BitVec 6) (bad : Bool) (s1 : State) : Prop where
  top : topEntry s = .ok (h0, h1, at_)
  entry : f.entryMatches h0 h1 va.toNat = true
  undone : f.oldBlock s h1 = .ok old
  adjoint : s.adjointOf s.cur l va.toNat = some a
  group : (f.isBlock && decide (codeBits a.fmt = 16) && !f.paired) = false
  read : readAdjoints s (s.frame a.adj) (s.ownAdjoint a.adj) (f.positions a) = .ok (ys, fl, bad)
  clear : clearAdjoints s (bits h0 63 60 == 3 && bit h1 47) a.adj ((f.positions a).filter (s.frame a.adj).info.hasPosition) = .ok s1
  state : t = (s1.undo f va.toNat l h1 old).deliverAdjoints f a (s.frame a.adj).info (f.positions a).length ys fl bad

theorem reverseStore_ok {s t : State} {f : StoreForm} {va : Word64} {l : Loc} (h : reverseStore s f va l = .ok t) :
    ∃ a h0 h1 at_ old ys fl bad s1, Reversed s t f va l a h0 h1 at_ old ys fl bad s1 := by
  rw [reverseStore_eq] at h
  cases htop : topEntry s with
  | error e => rw [htop] at h; cases h
  | ok r =>
  obtain ⟨h0, h1, at_⟩ := r
  cases hentry : f.entryMatches h0 h1 va.toNat with
  | false => simp only [htop, hentry, bind, Except.bind, Bool.not_false, if_true] at h; cases h
  | true =>
  cases hold : f.oldBlock s h1 with
  | error e => simp only [htop, hentry, hold, bind, Except.bind, Bool.not_true, Bool.false_eq_true, if_false] at h; cases h
  | ok old =>
  cases ha : s.adjointOf s.cur l va.toNat with
  | none => simp only [htop, hentry, hold, ha, bind, Except.bind, Bool.not_true, Bool.false_eq_true, if_false] at h; cases h
  | some a =>
  simp only [htop, hentry, hold, ha, bind, Except.bind, Bool.not_true, Bool.false_eq_true, if_false] at h
  cases hsize : !f.isBlock && decide (f.elemBytes a.fmt ≠ codeBits a.fmt / 8) with
  | true => simp only [hsize, if_true] at h; cases h
  | false =>
  cases hgroup : f.isBlock && decide (codeBits a.fmt = 16) && !f.paired with
  | true => simp only [hsize, hgroup, Bool.false_eq_true, if_false, if_true] at h; cases h
  | false =>
  simp only [hsize, hgroup, Bool.false_eq_true, if_false] at h
  cases hread : readAdjoints s (s.frame a.adj) (s.ownAdjoint a.adj) (f.positions a) with
  | error e => rw [hread] at h; cases h
  | ok r =>
  obtain ⟨ys, fl, bad⟩ := r
  simp only [hread] at h
  by_cases hsill : sillSize ≤ (s.core s.iss.g).sillUsed
  · simp only [hsill, if_true] at h; cases h
  simp only [hsill, if_false] at h
  cases hclear : clearAdjoints s (bits h0 63 60 == 3 && bit h1 47) a.adj ((f.positions a).filter (s.frame a.adj).info.hasPosition) with
  | error e => rw [hclear] at h; cases h
  | ok s1 =>
  rw [hclear] at h
  cases h
  exact ⟨a, h0, h1, at_, old, ys, fl, bad, s1, htop, hentry, hold, ha, hgroup, hread, hclear, rfl⟩

/-! ### What reading adjoints gives -/

/-- The value of the adjoint at a position, where no block that is consulted is poisoned. -/
def State.adjointValue (s : State) (fr : Frame) (own : Option Pane) (j : Nat) : Nat :=
  if fr.info.hasPosition j then
    match frameRaw s fr.info (j / 16) with
    | .ok fb => (fr.info.fit (fr.info.paneSum (fr.chain ++ own.toList) fb (j / 16) (j % 16)).1).1
    | .error _ => 0
  else 0

theorem readAdjoint_value {s : State} {fr : Frame} {own : Option Pane} {j v : Nat} {fl : BitVec 6} (h : readAdjoint s fr own j = .ok (v, fl, false)) :
    v = s.adjointValue fr own j := by
  unfold readAdjoint at h
  unfold State.adjointValue
  cases hp : fr.info.hasPosition j with
  | false =>
    simp only [hp, Bool.not_false, if_true] at h
    cases h
    rfl
  | true =>
    cases hb : frameRaw s fr.info (j / 16) with
    | error e =>
      simp only [hp, hb, bind, Except.bind, Bool.not_true, Bool.false_eq_true, if_false] at h
      cases h
    | ok fb =>
      cases hc : chainPoisons (fr.chain ++ own.toList) fb (j / 16) with
      | true =>
        simp only [hp, hb, hc, bind, Except.bind, Bool.not_true, Bool.false_eq_true, if_false, if_true] at h
        cases h
      | false =>
        cases hf : fr.info.formatOk fb.desc with
        | false =>
          simp only [hp, hb, hc, hf, bind, Except.bind, Bool.not_true, Bool.not_false, Bool.false_eq_true, if_false, if_true] at h
          cases h
        | true =>
          simp only [hp, hb, hc, hf, bind, Except.bind, Bool.not_true, Bool.false_eq_true, if_false] at h
          cases h
          rfl

theorem readAdjoints_values {s : State} {fr : Frame} {own : Option Pane} : ∀ {js ys : List Nat} {fl : BitVec 6} {bad : Bool},
    readAdjoints s fr own js = .ok (ys, fl, bad) → ys.length = js.length ∧ (bad = false → ys = js.map (s.adjointValue fr own))
  | [], _, _, _, h => by
    cases h
    exact ⟨rfl, fun _ => rfl⟩
  | j :: js, ys, fl, bad, h => by
    unfold readAdjoints at h
    cases h1 : readAdjoint s fr own j with
    | error e => rw [h1] at h; cases h
    | ok r =>
    obtain ⟨v, fl1, bad1⟩ := r
    cases h2 : readAdjoints s fr own js with
    | error e => rw [h1, h2] at h; cases h
    | ok r =>
    obtain ⟨vs, fl2, bad2⟩ := r
    rw [h1, h2] at h
    cases h
    obtain ⟨hlen, hval⟩ := readAdjoints_values h2
    refine ⟨congrArg (· + 1) hlen, fun hbad => ?_⟩
    obtain ⟨hb1, hb2⟩ := Bool.or_eq_false_iff.1 hbad
    subst hb1
    rw [List.map_cons, readAdjoint_value h1, hval hb2]

/-! ### What the steps of a reversed store leave -/

theorem writePart_congr {s t : State} (hm : t.mem = s.mem) (hd : t.desc = s.desc) (keys : List Nat) (n v : Nat) :
    (t.writePart keys n v).mem = (s.writePart keys n v).mem ∧ (t.writePart keys n v).desc = (s.writePart keys n v).desc := by
  have h1 {s t : State} (hm : t.mem = s.mem) (hd : t.desc = s.desc) (key : Nat) :
      (t.writePart1 key n v).mem = (s.writePart1 key n v).mem ∧ (t.writePart1 key n v).desc = (s.writePart1 key n v).desc := by
    have hdesc : t.descAt key = s.descAt key := congrArg (mget 0 · (key / 64)) hd
    unfold State.writePart1
    rw [hdesc]
    split
    · exact ⟨hm, hd⟩
    · exact ⟨congrArg (putBytes · key n v) hm, hd⟩
  induction keys generalizing s t with
  | nil => exact ⟨hm, hd⟩
  | cons k ks ih => exact ih (h1 hm hd k).1 (h1 hm hd k).2

theorem writeBlock_congr {s t : State} (hm : t.mem = s.mem) (hd : t.desc = s.desc) (keys : List Nat) (b : VVal) :
    (t.writeBlock keys b).mem = (s.writeBlock keys b).mem ∧ (t.writeBlock keys b).desc = (s.writeBlock keys b).desc := by
  induction keys generalizing s t with
  | nil => exact ⟨hm, hd⟩
  | cons k ks ih =>
    exact ih (congrArg (putBytes · k 64 (if isPoison b.desc then 0 else b.data.toNat)) hm)
      (congrArg (putDesc · (k / 64) (if isPoison b.desc then poisonDesc else b.desc)) hd)

/-- What a step leaves that touches no byte and no k-register of the context: memory, descriptors and the k-registers. -/
structure Apart (s t : State) : Prop where
  mem : t.mem = s.mem
  desc : t.desc = s.desc
  iss : t.iss = s.iss
  k : t.cur.k = s.cur.k

/-- A context stands in the cores alone: an untouched core has fresh ones. -/
theorem ctx_of_cores {s t : State} (h : t.cores = s.cores) (g x : Nat) : t.ctx g x = s.ctx g x := by
  have hget (l : List (Nat × Core)) : (mget (t.freshCore g) l g).ctxs = (mget (s.freshCore g) l g).ctxs := by
    induction l with
    | nil => rfl
    | cons e l ih =>
      obtain ⟨i, c⟩ := e
      unfold mget
      split
      · rfl
      · exact ih
  have hctxs : (t.core g).ctxs = (s.core g).ctxs := by
    unfold State.core
    rw [h, hget]
  unfold State.ctx Core.ctx
  rw [hctxs]

theorem cur_of_cores {s t : State} (hc : t.cores = s.cores) (hi : t.iss = s.iss) : t.cur = s.cur := by
  unfold State.cur
  rw [hi, ctx_of_cores hc]

theorem snapFrame_leaves (s : State) (pa : Nat) : (s.snapFrame pa).mem = s.mem ∧ (s.snapFrame pa).desc = s.desc ∧ (s.snapFrame pa).iss = s.iss ∧
    (s.snapFrame pa).cores = s.cores ∧ (s.snapFrame pa).frames = s.frames := by
  unfold State.snapFrame
  split
  · split <;> exact ⟨rfl, rfl, rfl, rfl, rfl⟩
  · exact ⟨rfl, rfl, rfl, rfl, rfl⟩

theorem changeFrame_apart (s : State) (pa : Nat) (f : Frame) :
    Apart s (s.changeFrame pa f) ∧ (s.changeFrame pa f).frames = mset s.frames pa f := by
  obtain ⟨hm, hd, hi, hc, hf⟩ := snapFrame_leaves s pa
  exact ⟨⟨hm, hd, hi, congrArg Ctx.k (cur_of_cores hc hi)⟩, congrArg (mset · pa f) hf⟩

theorem modCur_apart (s : State) {f : Ctx → Ctx} (h : ∀ k, (f k).k = k.k) : Apart s (s.modCur f) :=
  ⟨rfl, rfl, rfl, (congrArg Ctx.k (State.cur_modCur_same ..)).trans (h _)⟩

theorem Apart.trans {s t u : State} (h : Apart s t) (h' : Apart t u) : Apart s u :=
  ⟨h'.mem.trans h.mem, h'.desc.trans h.desc, h'.iss.trans h.iss, h'.k.trans h.k⟩

theorem putAdjoint_apart (s : State) (adj : Nat) (f : Frame) (p : Pane) (opened : Bool) :
    Apart s (s.putAdjoint adj f p opened) ∧ (s.putAdjoint adj f p opened).frames = mset s.frames adj (f.setLoose p) := by
  obtain ⟨h, hf⟩ := changeFrame_apart s adj (f.setLoose p)
  unfold State.putAdjoint
  dsimp only
  split
  · exact ⟨h.trans (modCur_apart _ fun _ => rfl), hf⟩
  · exact ⟨h, hf⟩

theorem Apart.refl (s : State) : Apart s s := ⟨rfl, rfl, rfl, rfl⟩

/-- What clearing leaves: everything where the entry keeps the adjoints, else the touched frame with the cleared pane. -/
theorem clearAdjoints_ok {s t : State} {keep : Bool} {adj : Nat} {js : List Nat} (h : clearAdjoints s keep adj js = .ok t) : Apart s t ∧
    if keep then t.frames = s.frames else ∃ (f : Frame) (p : Pane) (fresh : Bool), touchAdjoint s adj js = .ok (f, p, fresh) ∧
      ∀ pa, t.frame pa = if pa = adj then f.setLoose (js.foldl clearAdjoint p) else s.frame pa := by
  unfold clearAdjoints at h
  cases keep with
  | true =>
    cases h
    exact ⟨.refl s, rfl⟩
  | false =>
    cases ht : touchAdjoint s adj js with
    | error e => rw [ht] at h; cases h
    | ok r =>
      obtain ⟨f, p, fresh⟩ := r
      rw [ht] at h
      cases h
      obtain ⟨hapart, hframes⟩ := putAdjoint_apart s adj f (js.foldl clearAdjoint p) fresh
      refine ⟨hapart, f, p, fresh, rfl, fun pa => ?_⟩
      show mget _ _ pa = _
      rw [hframes, mget_mset]
      rfl

theorem note_apart (s : State) (va n : Nat) (wr : Bool) (lat : Nat) (grad : Bool) :
    Apart s (s.note va n wr lat grad) ∧ (s.note va n wr lat grad).frames = s.frames := by
  unfold State.note
  split
  · exact ⟨modCur_apart s fun _ => rfl, rfl⟩
  · exact ⟨.refl s, rfl⟩

/-- The old value restored changes of the k-registers and frames nothing. -/
theorem restoreStore_leaves (s : State) (f : StoreForm) (va : Nat) (l : Loc) (h1 : Word64) (old : VVal) :
    (s.restoreStore f va l h1 old).frames = s.frames ∧ (s.restoreStore f va l h1 old).cur.k = s.cur.k ∧
      (s.restoreStore f va l h1 old).iss = s.iss := by
  cases f with
  | scalar d lsz =>
    obtain ⟨ha, hf⟩ := note_apart (s.writePart l.wkeys (2 ^ lsz) h1.toNat) va (2 ^ lsz) true (s.latencyOf s.iss.g va l) true
    obtain ⟨m, hm⟩ := writePart_only s l.wkeys (2 ^ lsz) h1.toNat
    refine ⟨hf.trans (by rw [hm]), ha.k.trans (by rw [hm]; rfl), ha.iss.trans (by rw [hm])⟩
  | block d =>
    obtain ⟨ha, hf⟩ := note_apart (s.writeBlock l.wkeys old) va 64 true (s.latencyOf s.iss.g va l) true
    obtain ⟨m, ds, hm⟩ := writeBlock_only s l.wkeys old
    refine ⟨hf.trans (by rw [hm]), ha.k.trans (by rw [hm]; rfl), ha.iss.trans (by rw [hm])⟩
  | paneElem d pa => exact ⟨rfl, rfl, rfl⟩
  | paneBlock d pa => exact ⟨rfl, rfl, rfl⟩

/-- The bytes that a reversed store restores. -/
theorem restoreStore_stores {s t : State} (h : Apart s t) (f : StoreForm) (va : Nat) (l : Loc) (h1 : Word64) (old : VVal) :
    match f with
    | .scalar _ lsz => (t.restoreStore f va l h1 old).mem = (s.writePart l.wkeys (2 ^ lsz) h1.toNat).mem ∧ (t.restoreStore f va l h1 old).desc = s.desc
    | .block _ => (t.restoreStore f va l h1 old).mem = (s.writeBlock l.wkeys old).mem ∧
      (t.restoreStore f va l h1 old).desc = (s.writeBlock l.wkeys old).desc
    | _ => (t.restoreStore f va l h1 old).mem = s.mem ∧ (t.restoreStore f va l h1 old).desc = s.desc := by
  cases f with
  | scalar d lsz =>
    obtain ⟨ha, -⟩ := note_apart (t.writePart l.wkeys (2 ^ lsz) h1.toNat) va (2 ^ lsz) true (t.latencyOf t.iss.g va l) true
    obtain ⟨m, hw⟩ := writePart_only t l.wkeys (2 ^ lsz) h1.toNat
    refine ⟨ha.mem.trans (writePart_congr h.mem h.desc ..).1, ha.desc.trans ?_⟩
    rw [hw, h.desc]
  | block d =>
    obtain ⟨ha, -⟩ := note_apart (t.writeBlock l.wkeys old) va 64 true (t.latencyOf t.iss.g va l) true
    exact ⟨ha.mem.trans (writeBlock_congr h.mem h.desc ..).1, ha.desc.trans (writeBlock_congr h.mem h.desc ..).2⟩
  | paneElem d pa => exact ⟨h.mem, h.desc⟩
  | paneBlock d pa => exact ⟨h.mem, h.desc⟩

theorem popTape_k (s : State) (n : Nat) : (s.popTape n).cur.k = { s.cur.k with tpos := w64 (s.cur.k.tpos.toNat - n) } :=
  (congrArg Ctx.k (State.cur_modCur_same ..)).trans rfl

/-- The state of a reversed store before its delivery. -/
theorem undo_leaves {s t : State} (h : Apart s t) (f : StoreForm) (va : Nat) (l : Loc) (h1 : Word64) (old : VVal) :
    (t.undo f va l h1 old).frames = t.frames ∧ (t.undo f va l h1 old).iss = s.iss ∧
      (t.undo f va l h1 old).cur.k = { s.cur.k with tpos := w64 (s.cur.k.tpos.toNat - f.entryBytes) } := by
  obtain ⟨hf, hk, hi⟩ := restoreStore_leaves t f va l h1 old
  refine ⟨hf, hi.trans h.iss, (popTape_k ..).trans ?_⟩
  rw [hk, h.k]

theorem adjointUpdates_only (s : State) (f : StoreForm) (fmt : Nat) (ys : List Nat) (bad : Bool) :
    ∃ n, (adjointUpdates s f fmt ys bad).1 = { s with free := n } := by
  have hblock (d : VRegNo) : ∃ n, (blockAdjoint s d fmt ys bad).1 = { s with free := n } := by
    unfold blockAdjoint
    dsimp only
    split
    · exact ⟨_, rfl⟩
    · split <;> exact ⟨_, rfl⟩
  cases f with
  | scalar d lsz => exact ⟨_, rfl⟩
  | block d => exact hblock d
  | paneElem d pa => exact ⟨_, rfl⟩
  | paneBlock d pa => exact hblock d

/-- The registers that receive the adjoint of one element. -/
theorem adjointUpdates_elem {s : State} {f : StoreForm} {d : SReg} (hf : (∃ lsz, f = .scalar d lsz) ∨ ∃ pa, f = .paneElem d pa) (fmt : Nat) (ys : List Nat)
    (bad : Bool) : (adjointUpdates s f fmt ys bad).2 =
      .s (physS s.cur.k.rs d) (if bad then 0 else w64 (if codeBits fmt = 64 then widen32 (ys.headD 0) else ys.headD 0)) ::
        if bad then [.statOr stPoison] else [] := by
  rcases hf with ⟨lsz, rfl⟩ | ⟨pa, rfl⟩ <;> rfl

section
variable (s : State) (d : VRegNo) {fmt : Nat} (ys : List Nat) (bad : Bool)

theorem blockAdjoint_64 (h : codeBits fmt = 64) : (blockAdjoint s d fmt ys bad).2 =
    [.v (physV s.cur.k.rv d) (if bad then poisonVal else ⟨ofLanes 64 (ys.map widen32), mkDesc 1 0⟩)] := by
  unfold blockAdjoint
  rw [h]
  cases bad <;> rfl

theorem blockAdjoint_32 (h : codeBits fmt = 32) : (blockAdjoint s d fmt ys bad).2 =
    [.v (physV s.cur.k.rv d) (if bad then poisonVal else ⟨ofLanes 32 ys, mkDesc 2 0⟩)] := by
  unfold blockAdjoint
  rw [h]
  cases bad <;> rfl

theorem blockAdjoint_16 (h : codeBits fmt = 16) : (blockAdjoint s d fmt ys bad).2 =
    if bad then [.v (physV s.cur.k.rv d) poisonVal, .v (physV s.cur.k.rv (d + 1)) poisonVal]
    else [.v (physV s.cur.k.rv d) ⟨ofLanes 32 (ys.take 16), mkDesc 2 0⟩, .v (physV s.cur.k.rv (d + 1)) ⟨ofLanes 32 (ys.drop 16), mkDesc 2 0⟩] := by
  unfold blockAdjoint
  rw [h]
  cases bad <;> rfl

end

/-- Where a block of the pane stands after adjoints have been cleared. -/
theorem block?_cleared (js : List Nat) {p : Pane} {b : Nat} {k0 : PaneBlock} (h : p.block? b = some k0) : ∃ k,
    (js.foldl clearAdjoint p).block? b = some k ∧ ClearedAt b (js.filter fun j => j / 16 = b) k0 k := by
  rw [block?_foldl clearAdjoint_acts, h]
  exact ⟨_, rfl, clearedAt_foldl b fun j hj => by simpa using (List.mem_filter.1 hj).2⟩

/-- A position lies among those of its own block where it lies among all. -/
theorem mem_filter_block {js : List Nat} {b i : Nat} (hi : i < 16) : 16 * b + i ∈ js.filter (fun j => j / 16 = b) ↔ 16 * b + i ∈ js := by
  have h : (16 * b + i) / 16 = b := by omega
  simp [List.mem_filter, h]

/-! ### Accesses in reverse mode -/

theorem reverseAccesses : Statements.ReverseAccesses := by
  intro s t d v base off sz f land acc l hrev va vb
  refine ⟨fun hacc hsp hk hdiff h => completes_of_ok ?_, fun hacc hsp hk hdiff h => completes_of_ok ?_, fun hacc hsp hdiff h => completes_of_ok ?_,
    fun pa fr hb hdiff hloc h => completes_of_ok ?_, fun pa fr hb hdiff hloc h => completes_of_ok ?_⟩
  · have hacc' : slotAccess s reachStore .write (s.ea base off (sizeBytes sz)) (sizeBytes sz) = .ok l := hacc
    have hdiff' : s.differentiable l (s.ea base off (sizeBytes sz)).toNat = true := hdiff
    show execSt d base off sz s = _
    unfold execSt
    simp only [hacc', hsp, windowPort, plainOnly_ok _ fun _ => hk, hrev, hdiff', bind, Except.bind, Bool.and_self, if_true]
    exact congrArg slotDone h
  · have hacc' : slotAccess s reachStore .write (s.ea base off 64) 64 = .ok l := hacc
    have hdiff' : s.differentiable l (s.ea base off 64).toNat = true := hdiff
    show execStV v base off s = _
    unfold execStV
    simp only [hacc', hsp, windowPort, plainOnly_ok _ fun _ => hk, hrev, hdiff', bind, Except.bind, Bool.and_self, if_true]
    exact congrArg slotDone h
  · have hacc' : slotAccess s (reachTimed s.det) .read (s.ea base off 64) 64 = .ok l := hacc
    have hdiff' : s.differentiable l (s.ea base off 64).toNat = true := hdiff
    show execLdL v base off land s = _
    unfold execLdL
    simp only [hacc', hsp, windowPort, hrev, hdiff', bind, Except.bind, Bool.and_self, if_true]
    exact congrArg slotDone h
  · show execStG d base off f acc s = _
    unfold execStG
    simp only [hb, hloc, hrev, hdiff, bind, Except.bind, Bool.and_self, if_true]
    exact congrArg slotDone h
  · have hloc' : paneLoc s fr (s.ea base off 64) 64 = .ok l := hloc
    show execStGBlk v base off f acc s = _
    unfold execStGBlk
    simp only [hb, hloc', hrev, hdiff, bind, Except.bind, Bool.and_self, if_true]
    exact congrArg slotDone h

/-- What a reversed store of each form delivers (R283). -/
theorem adjointUpdates_form {s u : State} (hk : u.cur.k.rs = s.cur.k.rs ∧ u.cur.k.rv = s.cur.k.rv) (f : StoreForm) (fmt : Nat) (ys : List Nat) (bad : Bool)
    (hg : (f.isBlock && decide (codeBits fmt = 16) && !f.paired) = false) :
    let us := (adjointUpdates u f fmt ys bad).2
    let y (v : Nat) : Nat := if codeBits fmt = 64 then widen32 v else v
    let r (n : VRegNo) : Nat := physV s.cur.k.rv n
    match f with
    | .scalar d _ | .paneElem d _ =>
      us = .s (physS s.cur.k.rs d) (if bad then 0 else BitVec.ofNat 64 (y (ys.headD 0))) :: if bad then [.statOr (BitVec.ofNat 64 (2 ^ 7))] else []
    | .block d | .paneBlock d _ =>
      (codeBits fmt = 64 → us = [.v (r d) (if bad then ⟨0, 0x00FF⟩ else ⟨ofLanes 64 (ys.map y), mkDesc 1 0⟩)]) ∧
      (codeBits fmt = 32 → us = [.v (r d) (if bad then ⟨0, 0x00FF⟩ else ⟨ofLanes 32 ys, mkDesc 2 0⟩)]) ∧
      (codeBits fmt = 16 → d.toNat % 2 = 0 ∧ d.toNat < 31 ∧ us =
        if bad then [.v (r d) ⟨0, 0x00FF⟩, .v (r (d + 1)) ⟨0, 0x00FF⟩]
        else [.v (r d) ⟨ofLanes 32 (ys.take 16), mkDesc 2 0⟩, .v (r (d + 1)) ⟨ofLanes 32 (ys.drop 16), mkDesc 2 0⟩]) := by
  have hblock (d : VRegNo) (hd : codeBits fmt = 16 → groupOk d = true) :
      let us := (blockAdjoint u d fmt ys bad).2
      let y (v : Nat) : Nat := if codeBits fmt = 64 then widen32 v else v
      let r (n : VRegNo) : Nat := physV s.cur.k.rv n
      (codeBits fmt = 64 → us = [.v (r d) (if bad then ⟨0, 0x00FF⟩ else ⟨ofLanes 64 (ys.map y), mkDesc 1 0⟩)]) ∧
      (codeBits fmt = 32 → us = [.v (r d) (if bad then ⟨0, 0x00FF⟩ else ⟨ofLanes 32 ys, mkDesc 2 0⟩)]) ∧
      (codeBits fmt = 16 → d.toNat % 2 = 0 ∧ d.toNat < 31 ∧ us =
        if bad then [.v (r d) ⟨0, 0x00FF⟩, .v (r (d + 1)) ⟨0, 0x00FF⟩]
        else [.v (r d) ⟨ofLanes 32 (ys.take 16), mkDesc 2 0⟩, .v (r (d + 1)) ⟨ofLanes 32 (ys.drop 16), mkDesc 2 0⟩]) := by
    refine ⟨fun h => ?_, fun h => ?_, fun h => ?_⟩
    · simp only [h, if_true]
      exact hk.2 ▸ blockAdjoint_64 u d ys bad h
    · exact hk.2 ▸ blockAdjoint_32 u d ys bad h
    · have hpair : d.toNat % 2 = 0 ∧ d.toNat < 31 := by simpa [groupOk] using hd h
      exact ⟨hpair.1, hpair.2, hk.2 ▸ blockAdjoint_16 u d ys bad h⟩
  cases f with
  | scalar d lsz => exact hk.1 ▸ adjointUpdates_elem (.inl ⟨lsz, rfl⟩) fmt ys bad
  | block d => exact hblock d fun h => by simpa [h, StoreForm.isBlock, StoreForm.paired] using hg
  | paneElem d pa => exact hk.1 ▸ adjointUpdates_elem (.inr ⟨pa, rfl⟩) fmt ys bad
  | paneBlock d pa => exact hblock d fun h => by simpa [h, StoreForm.isBlock, StoreForm.paired] using hg

/-- The state of a reversed store before its delivery, with the open values taken. -/
def State.undone (s : State) (f : StoreForm) (va : Nat) (l : Loc) (h1 : Word64) (old : VVal) (fmt : Nat) (ys : List Nat) (bad : Bool) : State :=
  (adjointUpdates (s.undo f va l h1 old) f fmt ys bad).1

theorem undone_leaves {s t : State} (h : Apart s t) (f : StoreForm) (va : Nat) (l : Loc) (h1 : Word64) (old : VVal) (fmt : Nat) (ys : List Nat) (bad : Bool) :
    let u := t.undone f va l h1 old fmt ys bad
    u.frames = t.frames ∧ (u.ctx s.iss.g s.iss.x).k.tpos = w64 (s.cur.k.tpos.toNat - f.entryBytes) ∧
      u.mem = (t.restoreStore f va l h1 old).mem ∧ u.desc = (t.restoreStore f va l h1 old).desc := by
  obtain ⟨hf, hi, hk⟩ := undo_leaves h f va l h1 old
  obtain ⟨n, hn⟩ := adjointUpdates_only (t.undo f va l h1 old) f fmt ys bad
  have hctx : (t.undo f va l h1 old).ctx s.iss.g s.iss.x = (t.undo f va l h1 old).cur := by
    unfold State.cur
    rw [hi]
  unfold State.undone
  dsimp only
  rw [hn]
  refine ⟨hf, ?_, rfl, rfl⟩
  show ((t.undo f va l h1 old).ctx s.iss.g s.iss.x).k.tpos = _
  rw [hctx, hk]

theorem reverseEffects : Statements.ReverseEffects := by
  intro s t d va l form
  refine ⟨fun h => ?_, fun hx h => ?_⟩
  · obtain ⟨a, f, p0, p, fresh, fl, ha, h1, h4, hn, hg, htouch, ht, hblocks⟩ := reverseLoad_effects h
    refine ⟨a, f, p0, p, fresh, fl, ha, h1, h4, hn, hg, htouch, ht, fun hf b k0 hk => ?_⟩
    obtain ⟨hpoison, hsound⟩ := hblocks hf b k0 hk
    refine ⟨hpoison, fun hp => ?_⟩
    obtain ⟨k, hkb, hk⟩ := hsound hp
    refine ⟨k, hkb, hk.poison, hk.scale, hk.cleared, fun i hi => ?_⟩
    dsimp only
    split
    next hmem => exact hk.added i hi ((mem_filter_block hi).2 hmem)
    next hmem => exact hk.kept i hi fun h => hmem ((mem_filter_block hi).1 h)
  · obtain ⟨a, h0, h1, at_, old, ys, fl, bad, s1, hr⟩ := reverseStore_ok h
    obtain ⟨hapart, hframes⟩ := clearAdjoints_ok hr.clear
    obtain ⟨hlen, hvals⟩ := readAdjoints_values hr.read
    obtain ⟨-, -, hk⟩ := undo_leaves hapart form va.toNat l h1 old
    obtain ⟨huf, htpos, hmem, hdesc⟩ := undone_leaves hapart form va.toNat l h1 old a.fmt ys bad
    have hstores := restoreStore_stores hapart form va.toNat l h1 old
    refine ⟨a, h0, h1, at_, ys, fl, bad, s1.undone form va.toNat l h1 old a.fmt ys bad, _, _, hr.top, hr.entry, hr.adjoint, hr.read, hlen,
      fun hbad i j hj => ?_, hr.state, rfl, ?_, ?_, ?_, ?_⟩
    · rw [hvals hbad, List.getElem?_map, show (form.positions a)[i]? = some j from hj]
      rfl
    · have := adjointUpdates_form (s := s) ⟨by rw [hk], by rw [hk]⟩ form a.fmt ys bad hr.group
      cases form <;> exact this
    · rw [htpos]
      cases form <;> rfl
    · cases form with
      | scalar d lsz => exact ⟨hmem.trans hstores.1, hdesc.trans hstores.2⟩
      | block d => exact ⟨old, hr.undone, hmem.trans hstores.1, hdesc.trans hstores.2⟩
      | paneElem d pa => exact ⟨hmem.trans hstores.1, hdesc.trans hstores.2⟩
      | paneBlock d pa => exact ⟨hmem.trans hstores.1, hdesc.trans hstores.2⟩
    · have hkeep : (bits h0 63 60 == 3 && bit h1 47) = decide (h0.toNat / 2 ^ 60 = 3 ∧ h1.getLsbD 47 = true) := by
        rw [bits_kind]
        simp [bit, Bool.decide_and, beq_eq_decide]
      rw [hkeep] at hframes
      split
      next hc => exact huf.trans (by rwa [if_pos (by simpa using hc)] at hframes)
      next hc =>
        rw [if_neg (by simpa using hc)] at hframes
        obtain ⟨f, p, fresh, htouch, hfr⟩ := hframes
        refine ⟨f, p, ((form.positions a).filter (s.frame a.adj).info.hasPosition).foldl clearAdjoint p, fresh, htouch, fun pa => ?_, fun b k0 hb => ?_⟩
        · exact (congrArg (mget ({} : Frame) · pa) huf).trans (hfr pa)
        · obtain ⟨k, hkb, hc⟩ := block?_cleared ((form.positions a).filter (s.frame a.adj).info.hasPosition) hb
          refine ⟨k, hkb, hc.scale, hc.poison, fun i hi => ?_⟩
          by_cases hm : 16 * b + i ∈ (form.positions a).filter (s.frame a.adj).info.hasPosition
          · exact (if_pos hm).mpr (hc.gone i hi ((mem_filter_block hi).2 hm))
          · exact (if_neg hm).mpr (hc.kept i hi fun h => hm ((mem_filter_block hi).1 h))

/-- Settles O21: timed loads, then the reversed accesses and what a reversal does. -/
theorem timedLoadsAndReverseAccesses : Obligations.TimedLoadsAndReverseAccesses := ⟨timedLoads, reverseAccesses, reverseEffects⟩

end Sys2Proof.Machine
end

