-- ==== Sys2Proof/Proofs/ResultFrames.lean ====
section
/-! Instructions with one register result: what they queue, and that all else stands (R30, R31, R203). -/

namespace Sys2Proof.Machine

/-! ### What one result leaves -/

section
variable (r : Nat × Nat) (fl : Bool)

/-- Landings lose updates of one destination, and nothing else. -/
def Overtakes (q : Landing → Landing) : Prop := ∀ l, q l = { l with upd := (q l).upd } ∧
  ∀ u, (u ∈ (q l).upd → u ∈ l.upd) ∧ (u ∈ l.upd → u ∉ (q l).upd → u.dest = some r)

/-- An update that an instruction with one result may queue: its destination's, or one that accumulates into kflags or kstat. -/
def OneResult (u : Upd) : Prop := u.dest = some r ∨ (∃ f, u = .flagsOr f ∧ fl = true) ∨ (∃ b, u = .statOr b) ∨ ∃ n, u = .ternbad n

/-- A context after a slot of an issue has queued such updates. -/
structure QueuesOnly (issue slot : Nat) (k j : Ctx) : Prop where
  rest : j = { k with inflight := j.inflight, sticky := j.sticky }
  sticky : ∀ n, n ≠ slot → vget none j.sticky n = vget none k.sticky n
  lost : ∀ e ∈ k.inflight, e ∉ j.inflight → e.upd.dest = some r
  new : ∀ e ∈ j.inflight, e ∈ k.inflight ∨ (e.issue = issue ∧ e.slot = slot ∧ OneResult r fl e.upd)

/-- A core after one of its contexts has. -/
structure CoreFrame (x issue slot : Nat) (c d : Core) : Prop where
  rest : d = { c with ctxs := d.ctxs, sill := d.sill }
  ctxs : ∀ y < 4, y ≠ x → d.ctx y = c.ctx y
  sill : ∃ q, d.sill = c.sill.map q ∧ Overtakes r q
  cur : QueuesOnly r fl issue slot (c.ctx x) (d.ctx x)

/-- The place of the slot that executes. -/
def Iss.place (i : Iss) : Nat × Nat × Nat × Nat := (i.g, i.x, i.issue, i.slot)

/-- The state after the slot that executes has. -/
structure ResultFrame (s t : State) : Prop where
  rest : t = { s with cores := t.cores, iss := t.iss, faults := t.faults, free := t.free }
  cores : ∀ g, g ≠ s.iss.g → t.core g = s.core g
  core : CoreFrame r fl s.iss.x s.iss.issue s.iss.slot (s.core s.iss.g) (t.core s.iss.g)

end

section
variable {r : Nat × Nat} {fl : Bool}

theorem Overtakes.id : Overtakes r id := fun _ => ⟨rfl, fun _ => ⟨fun h => h, fun h h' => absurd h h'⟩⟩

theorem Overtakes.comp {p q : Landing → Landing} (hp : Overtakes r p) (hq : Overtakes r q) : Overtakes r (q ∘ p) := by
  intro l
  refine ⟨?_, fun u => ⟨fun h => ((hp l).2 u).1 (((hq (p l)).2 u).1 h), fun h h' => ?_⟩⟩
  · show q (p l) = { l with upd := (q (p l)).upd }
    rw [(hq (p l)).1, (hp l).1]
  · by_cases hm : u ∈ (p l).upd
    · exact ((hq (p l)).2 u).2 hm h'
    · exact ((hp l).2 u).2 h hm

theorem QueuesOnly.refl (issue slot : Nat) (k : Ctx) : QueuesOnly r fl issue slot k k :=
  ⟨rfl, fun _ _ => rfl, fun _ h h' => absurd h h', fun _ h => .inl h⟩

theorem QueuesOnly.trans {issue slot : Nat} {k j l : Ctx} (h : QueuesOnly r fl issue slot k j) (h' : QueuesOnly r fl issue slot j l) :
    QueuesOnly r fl issue slot k l := by
  refine ⟨?_, fun n hn => (h'.sticky n hn).trans (h.sticky n hn), fun e he hl => ?_, fun e he => (h'.new e he).elim (h.new e) .inr⟩
  · rw [h'.rest, h.rest]
  · by_cases hj : e ∈ j.inflight
    · exact h'.lost e hj hl
    · exact h.lost e he hj

theorem CoreFrame.refl (x issue slot : Nat) (c : Core) : CoreFrame r fl x issue slot c c :=
  ⟨rfl, fun _ _ _ => rfl, ⟨id, (List.map_id c.sill).symm, .id⟩, .refl ..⟩

theorem CoreFrame.trans {x issue slot : Nat} {c d e : Core} (h : CoreFrame r fl x issue slot c d) (h' : CoreFrame r fl x issue slot d e) :
    CoreFrame r fl x issue slot c e := by
  obtain ⟨p, hp, hpo⟩ := h.sill
  obtain ⟨q, hq, hqo⟩ := h'.sill
  refine ⟨?_, fun x hx hne => (h'.ctxs x hx hne).trans (h.ctxs x hx hne), ⟨q ∘ p, ?_, hpo.comp hqo⟩, h.cur.trans h'.cur⟩
  · rw [h'.rest, h.rest]
  · rw [hq, hp, List.map_map]

theorem ResultFrame.trans {s t u : State} (h : ResultFrame r fl s t) (hi : t.iss.place = s.iss.place) (h' : ResultFrame r fl t u) :
    ResultFrame r fl s u := by
  obtain ⟨hrest, hcores, hcore⟩ := h'
  obtain ⟨hg, hx, hissue, hslot⟩ : t.iss.g = s.iss.g ∧ t.iss.x = s.iss.x ∧ t.iss.issue = s.iss.issue ∧ t.iss.slot = s.iss.slot := by
    simpa [Iss.place] using hi
  rw [hg] at hcores hcore
  rw [hx, hissue, hslot] at hcore
  refine ⟨?_, fun g hg => (hcores g hg).trans (h.cores g hg), h.core.trans hcore⟩
  rw [hrest, h.rest]

/-- A core stands where its list and what a fresh one takes over stand. -/
theorem core_congr {s t : State} (h : t = { s with cores := s.cores, iss := t.iss, faults := t.faults, free := t.free }) (g : Nat) :
    t.core g = s.core g := by
  rw [h]
  rfl

/-- The bookkeeping of the issue, faults and open values belong to no core. -/
theorem resultFrame_same {s t : State} (h : t = { s with cores := s.cores, iss := t.iss, faults := t.faults, free := t.free }) : ResultFrame r fl s t := by
  refine ⟨?_, fun g _ => core_congr h g, (core_congr h s.iss.g).symm ▸ .refl ..⟩
  rw [h]

theorem ResultFrame.refl (s : State) : ResultFrame r fl s s := resultFrame_same rfl

theorem StopsShort.resultFrame {s u : State} (h : StopsShort s u) : ResultFrame r fl s u := by
  obtain ⟨_, _, _, rfl⟩ := h
  exact resultFrame_same rfl

theorem resultFrame_setCore {s : State} {c : Core} (h : CoreFrame r fl s.iss.x s.iss.issue s.iss.slot (s.core s.iss.g) c) : ResultFrame r fl s (s.setCore s.iss.g c) :=
  ⟨rfl, fun g hg => State.core_setCore_ne _ _ hg, (State.core_setCore_self ..).symm ▸ h⟩

theorem coreFrame_setCtx {x issue slot : Nat} {c : Core} {k : Ctx} (hx : x < 4) (h : QueuesOnly r fl issue slot (c.ctx x) k) :
    CoreFrame r fl x issue slot c (c.setCtx x k) := by
  have hset : c.setCtx x k = { c with ctxs := c.ctxs.set x k } := dif_pos hx
  refine ⟨by rw [hset], fun y hy hne => ?_, ⟨id, ?_, .id⟩, (Core.ctx_setCtx_same ..).symm ▸ h⟩
  · rw [hset]
    unfold Core.ctx
    simp [hy, Ne.symm hne]
  · rw [hset, List.map_id]

theorem resultFrame_modCur {s : State} (hx : s.iss.x < 4) {f : Ctx → Ctx} (h : QueuesOnly r fl s.iss.issue s.iss.slot s.cur (f s.cur)) : ResultFrame r fl s (s.modCur f) :=
  resultFrame_setCore (coreFrame_setCtx hx h)

/-! ### Queueing an update -/

theorem queuesOnly_append (issue slot : Nat) (k : Ctx) {due : Nat} {u : Upd} (h : OneResult r fl u) :
    QueuesOnly r fl issue slot k { k with inflight := k.inflight ++ [⟨due, issue, slot, u⟩] } := by
  refine ⟨rfl, fun _ _ => rfl, fun e he hl => absurd (List.mem_append_left _ he) hl, fun e he => ?_⟩
  rcases List.mem_append.1 he with he | he
  · exact .inl he
  · obtain rfl := List.mem_singleton.1 he
    exact .inr ⟨rfl, rfl, h⟩

theorem oneResult_wclash : OneResult r fl (.statOr stWclash) := .inr (.inr (.inl ⟨_, rfl⟩))

/-- A result takes the place of those of the same destination, in flight or landing. -/
theorem OneResult.dest {u : Upd} (h : OneResult r fl u) {q : Nat × Nat} (hq : u.dest = some q) : q = r := by
  rcases h with h | ⟨f, rfl, -⟩ | ⟨b, rfl⟩ | ⟨n, rfl⟩
  · exact Option.some.inj (hq.symm.trans h)
  all_goals cases hq

theorem clashes_dest {u : Upd} (h : OneResult r fl u) {issue slot : Nat} {e : Inflight} (hc : clashes u issue slot e = true) : e.upd.dest = some r := by
  have hsome : u.dest.isSome = true ∧ e.upd.dest = u.dest := by
    simp only [clashes, Bool.and_eq_true, beq_iff_eq] at hc
    exact ⟨hc.1.2, hc.2⟩
  obtain ⟨q, hq⟩ := Option.isSome_iff_exists.1 hsome.1
  rw [hsome.2, hq, h.dest hq]

theorem queuesOnly_queue (issue slot : Nat) (k : Ctx) (due : Nat) {u : Upd} (h : OneResult r fl u) :
    QueuesOnly r fl issue slot k (k.queue due issue slot u) := by
  unfold Ctx.queue
  dsimp only
  split
  · exact .refl ..
  · split
    · exact queuesOnly_append issue slot k h
    · split
      · exact queuesOnly_append issue slot k oneResult_wclash
      · refine ⟨rfl, fun _ _ => rfl, fun e he hl => ?_, fun e he => ?_⟩
        · refine clashes_dest h (issue := issue) (slot := slot) ?_
          by_contra hc
          exact hl (List.mem_append_left _ (List.mem_filter.2 ⟨he, by simpa using hc⟩))
        · rcases List.mem_append.1 he with he | he
          · exact .inl (List.mem_filter.1 he).1
          · rcases List.mem_pair.1 he with rfl | rfl
            · exact .inr ⟨rfl, rfl, h⟩
            · exact .inr ⟨rfl, rfl, oneResult_wclash⟩

/-- The landings that an update overtakes lose what writes its destination. -/
def State.quietLanding (s : State) (u : Upd) (l : Landing) : Landing :=
  if s.landingClash u l && l.slot < s.iss.slot then { l with upd := l.upd.filter fun v => v.dest != u.dest } else l

theorem overtakes_quiet (s : State) {u : Upd} (h : OneResult r fl u) : Overtakes r (s.quietLanding u) := by
  intro l
  unfold State.quietLanding
  split
  next hc =>
    have hsome : u.dest.isSome = true := by
      simp only [State.landingClash, Bool.and_eq_true] at hc
      exact hc.1.1.2
    obtain ⟨q, hq⟩ := Option.isSome_iff_exists.1 hsome
    refine ⟨rfl, fun v => ⟨fun hv => (List.mem_filter.1 hv).1, fun hv hn => ?_⟩⟩
    have hd : v.dest = u.dest := by
      by_contra hd
      exact hn (List.mem_filter.2 ⟨hv, by simpa using hd⟩)
    rw [hd, hq, h.dest hq]
  next => exact Overtakes.id l

theorem resultFrame_setWclash {s : State} (hx : s.iss.x < 4) : ResultFrame r fl s s.setWclash :=
  resultFrame_modCur hx (queuesOnly_append s.iss.issue s.iss.slot s.cur oneResult_wclash)

theorem resultFrame_quietLandings {s : State} (hx : s.iss.x < 4) {u : Upd} (h : OneResult r fl u) : ResultFrame r fl s (s.quietLandings u) := by
  unfold State.quietLandings
  dsimp only
  split
  · refine ResultFrame.trans (t := s.setCore s.iss.g { s.core s.iss.g with sill := (s.core s.iss.g).sill.map (s.quietLanding u) })
      (resultFrame_setCore ⟨rfl, fun _ _ _ => rfl, ⟨_, rfl, overtakes_quiet s h⟩, .refl ..⟩) rfl ?_
    exact resultFrame_setWclash hx
  · exact .refl s

theorem quietLandings_iss (s : State) (u : Upd) : (s.quietLandings u).iss = s.iss := by
  unfold State.quietLandings
  dsimp only
  split <;> rfl

theorem resultFrame_emit {s : State} (hx : s.iss.x < 4) {u : Upd} (h : OneResult r fl u) (lat : Nat) : ResultFrame r fl s (s.emit u lat) := by
  unfold State.emit
  split
  · exact resultFrame_quietLandings hx h
  · refine (resultFrame_quietLandings hx h).trans (by rw [quietLandings_iss]) (resultFrame_modCur (by rwa [quietLandings_iss]) ?_)
    rw [quietLandings_iss]
    exact queuesOnly_queue _ _ _ _ h

/-- A discarded update without a destination changes nothing. -/
theorem resultFrame_emit_discarded {s : State} (hx : s.iss.x < 4) {u : Upd} (hd : u.discarded = true) (hn : u.dest = none) (lat : Nat) :
    ResultFrame r fl s (s.emit u lat) := by
  have hland (l : Landing) : s.landingClash u l = false := by simp [State.landingClash, hn]
  have hquiet : s.quietLandings u = s := if_neg (by simp [hland])
  unfold State.emit
  rw [hquiet]
  split
  · exact .refl s
  · refine resultFrame_modCur hx ?_
    rw [show s.cur.queue (s.iss.issue + lat) s.iss.issue s.iss.slot u = s.cur from if_pos hd]
    exact .refl ..

theorem queuesOnly_sticky (issue slot : Nat) (k : Ctx) (v : Option SlotWord) :
    QueuesOnly r fl issue slot k { k with sticky := vset k.sticky slot v } := by
  refine ⟨rfl, fun n hn => ?_, fun _ h h' => absurd h h', fun _ h => .inl h⟩
  unfold vget vset
  split
  · split <;> simp [Ne.symm hn]
  · rfl

theorem resultFrame_commitSlot {s : State} (hx : s.iss.x < 4) : ResultFrame r fl s (s.commitSlot false) := by
  have hdone : ResultFrame r fl s (s.modIss fun j => { j with done := j.done ++ [s.iss.slot] }) := resultFrame_same rfl
  unfold State.commitSlot
  dsimp only
  rw [if_neg Bool.false_ne_true]
  split
  · exact hdone.trans rfl (resultFrame_modCur (by exact hx) (queuesOnly_sticky ..))
  · exact hdone

end

/-! ### Slots whose whole effect is one register -/

/-- A slot's work leaves what one result leaves, and the issue stands where it is done. -/
def Delivers (r : Nat × Nat) (fl : Bool) (s : State) (x : Except State State) : Prop :=
  Errs (ResultFrame r fl s) x ∧ ∀ u, x = .ok u → ResultFrame r fl s u ∧ u.iss = s.iss

section
variable {r : Nat × Nat} {fl : Bool} {s : State}

theorem delivers_ok {u : State} (h : ResultFrame r fl s u) (hi : u.iss = s.iss) : Delivers r fl s (.ok u) :=
  ⟨errs_ok u, fun v hv => by cases hv; exact ⟨h, hi⟩⟩

theorem delivers_stops {x : Except State State} (h : ∀ u, x = .error u → StopsShort s u) (hok : ∀ u, x ≠ .ok u) : Delivers r fl s x :=
  ⟨fun u hu => (h u hu).resultFrame, fun u hu => absurd hu (hok u)⟩

theorem delivers_bind {α : Type} {x : Except State α} {f : α → Except State State} (hx : ∀ u, x = .error u → StopsShort s u)
    (hf : ∀ a, Delivers r fl s (f a)) : Delivers r fl s (x >>= f) := by
  cases x with
  | ok a => exact hf a
  | error u => exact delivers_stops (fun v hv => by cases hv; exact hx u rfl) fun v hv => by cases hv

theorem delivers_emit (hx : s.iss.x < 4) {u : Upd} (h : OneResult r fl u) (lat : Nat) : Delivers r fl s (.ok (s.emit u lat)) :=
  delivers_ok (resultFrame_emit hx h lat) (emit_iss ..)

/-- The result for a register of a class whose register 0 is fixed. -/
theorem delivers_register (hx : s.iss.x < 4) {c n : Nat} {u : Upd} (hdest : u.dest = if n = 0 then none else some (c, n))
    (hdis : u.discarded = (n == 0)) (lat : Nat) : Delivers (c, n) fl s (.ok (s.emit u lat)) := by
  by_cases h : n = 0
  · exact delivers_ok (resultFrame_emit_discarded hx (by simp [hdis, h]) (hdest.trans (if_pos h)) lat) (emit_iss ..)
  · exact delivers_emit hx (.inl (hdest.trans (if_neg h))) lat

theorem delivers_putS (hx : s.iss.x < 4) (d : SReg) (v : Word64) (lat : Nat) : Delivers (0, physS s.cur.k.rs d) fl s (.ok (s.putS d v lat)) :=
  delivers_register (u := .s (physS s.cur.k.rs d) v) hx rfl rfl lat

theorem delivers_putP (hx : s.iss.x < 4) (d : PReg) (b : Bool) (lat : Nat) : Delivers (3, physP s.cur.k.rp d) fl s (.ok (s.putP d b lat)) :=
  delivers_register (u := .p (physP s.cur.k.rp d) b) hx rfl rfl lat

theorem delivers_putA (hx : s.iss.x < 4) (d : AReg) (v : Word64) (lat : Nat) : Delivers (1, d.toNat) fl s (.ok (s.putA d v lat)) :=
  delivers_register (u := .a d.toNat v) hx rfl rfl lat

theorem delivers_putM (hx : s.iss.x < 4) (d : MReg) (v : Word64) (lat : Nat) : Delivers (4, d.toNat) fl s (.ok (s.putM d v lat)) :=
  delivers_register (u := .m d.toNat v) hx rfl rfl lat

theorem delivers_putV (hx : s.iss.x < 4) (d : VRegNo) (v : VVal) (lat : Nat) : Delivers (2, physV s.cur.k.rv d) fl s (.ok (s.putV d v lat)) :=
  delivers_emit hx (.inl rfl) lat

/-- One more update after those of a slot. -/
theorem Delivers.emit {t : State} (h : Delivers r fl s (.ok t)) (hx : s.iss.x < 4) {u : Upd} (hu : OneResult r fl u) (lat : Nat) :
    Delivers r fl s (.ok (t.emit u lat)) := by
  obtain ⟨hf, hi⟩ := h.2 t rfl
  exact delivers_ok (hf.trans (by rw [hi]) (resultFrame_emit (by rwa [hi]) hu lat)) ((emit_iss ..).trans hi)

theorem Delivers.putFlags {t : State} (h : Delivers r fl s (.ok t)) (hx : s.iss.x < 4) {f : BitVec 6} (hf : f = 0 ∨ fl = true) (lat : Nat) :
    Delivers r fl s (.ok (t.putFlags f lat)) := by
  unfold State.putFlags
  split
  · exact h
  next hne => exact h.emit hx (.inr (.inl ⟨f, rfl, hf.resolve_left hne⟩)) lat

theorem Delivers.putStat {t : State} (h : Delivers r fl s (.ok t)) (hx : s.iss.x < 4) (b : Word64) : Delivers r fl s (.ok (t.putStat b)) :=
  h.emit hx (.inr (.inr (.inl ⟨b, rfl⟩))) 1

theorem Delivers.putTernbad {t : State} (h : Delivers r fl s (.ok t)) (hx : s.iss.x < 4) (n lat : Nat) : Delivers r fl s (.ok (t.putTernbad n lat)) := by
  unfold State.putTernbad
  split
  · exact h
  · exact h.emit hx (.inr (.inr (.inr ⟨n, rfl⟩))) lat

theorem foldl_or_of_zero {l : List (BitVec 6)} (h : ∀ f ∈ l, f = 0) : l.foldl (· ||| ·) 0 = 0 := by
  induction l with
  | nil => rfl
  | cons f l ih =>
    obtain rfl := h f List.mem_cons_self
    exact ih fun g hg => h g (List.mem_cons_of_mem _ hg)

/-- Lanes under a mask, with the flags of the lanes written. -/
theorem delivers_putLanes (hx : s.iss.x < 4) (d : VRegNo) (m : Word64) (w : Nat) (desc : Desc) (lat : Nat) {f : Nat → Nat × BitVec 6}
    (hf : (∀ k, (f k).2 = 0) ∨ fl = true) : Delivers (2, physV s.cur.k.rv d) fl s (.ok (s.putLanes d m w desc lat f)) := by
  have hpart : Delivers (2, physV s.cur.k.rv d) fl s (.ok (s.putPart d (maskKeep w m) ⟨(maskLanes w m f).1, desc⟩ lat)) := by
    unfold State.putPart
    split
    · exact delivers_putV hx ..
    · exact delivers_emit hx (.inl rfl) lat
  refine hpart.putFlags hx (hf.imp_left fun h => ?_) lat
  refine foldl_or_of_zero fun g hg => ?_
  obtain ⟨k, -, rfl⟩ := List.mem_map.1 (List.map_map ▸ hg)
  show (if inMask m k then f k else (0, 0)).2 = 0
  split
  · exact h k
  · rfl

theorem delivers_vUnlessPoison (hx : s.iss.x < 4) (d : VRegNo) (lat : Nat) (src : List VVal) {x : Except State State}
    (h : Delivers (2, physV s.cur.k.rv d) fl s x) : Delivers (2, physV s.cur.k.rv d) fl s (vUnlessPoison s d lat src x) := by
  unfold vUnlessPoison
  split
  · exact delivers_putV hx ..
  · exact h

theorem delivers_mUnlessPoison (hx : s.iss.x < 4) (d : MReg) (lat : Nat) (src : List VVal) {x : Except State State}
    (h : Delivers (4, d.toNat) fl s x) : Delivers (4, d.toNat) fl s (mUnlessPoison s d lat src x) := by
  unfold mUnlessPoison
  split
  · exact (delivers_putM hx ..).putStat hx _
  · exact h

/-- A slot ends as its work does. -/
theorem Delivers.slotDone (hx : s.iss.x < 4) {x : Except State State} (h : Delivers r fl s x) : Next (ResultFrame r fl s) (slotDone x) := by
  intro t ht
  rcases slotDone_cases ht with ⟨u, hu, rfl⟩ | hu
  · obtain ⟨hf, hi⟩ := h.2 u hu
    exact hf.trans (by rw [hi]) (resultFrame_commitSlot (by rwa [hi]))
  · exact h.1 t hu

theorem delivers_unless {c : Prop} [Decidable c] {desc : Desc} {x : Except State State} (h : Delivers r fl s x) :
    Delivers r fl s (if c then descFault s desc else x) := by
  split
  · exact delivers_stops (fun _ => descFault_stops) fun _ h => by cases h
  · exact h

/-- A check of a descriptor before the rest. -/
theorem delivers_check {c : Prop} [Decidable c] {desc : Desc} {f : Unit → Except State State} (h : Delivers r fl s (f ())) :
    Delivers r fl s (if c then descFault s desc >>= f else f ()) := by
  split
  · exact delivers_bind (fun _ => descFault_stops) fun _ => h
  · exact h

end

/-! ### The forms of the instructions -/

theorem intSources_stops {s u : State} {w : Nat} {a b : VVal} {scales : Bool} (h : intSources s w a b scales = .error u) : StopsShort s u := by
  unfold intSources at h
  cases hf : needFormat s (intCode w) [a, b] with
  | error e =>
    rw [hf] at h
    cases h
    exact needFormat_stops hf
  | ok _ =>
    rw [hf] at h
    cases scales with
    | false => cases h
    | true => exact needScales_stops h

section
variable {fl : Bool} {s : State} (hx : s.iss.x < 4)
include hx

theorem frame_scalarResult (d : SReg) (v : Word64) (lat : Nat) : Next (ResultFrame (0, physS s.cur.k.rs d) fl s) (scalarResult d v lat s) :=
  (delivers_putS hx d v lat).slotDone hx

theorem frame_predResult (d : PReg) (b : Bool) : Next (ResultFrame (3, physP s.cur.k.rp d) fl s) (predResult d b s) :=
  (delivers_putP hx d b 1).slotDone hx

theorem frame_maskResult (d : MReg) (v : Word64) : Next (ResultFrame (4, d.toNat) fl s) (maskResult d v s) := (delivers_putM hx d v 2).slotDone hx

theorem frame_putA (d : AReg) (v : Word64) : Next (ResultFrame (1, d.toNat) fl s) (slotDone (.ok (s.putA d v 1))) :=
  (delivers_putA hx d v 1).slotDone hx

theorem frame_putV (d : VRegNo) (v : VVal) (lat : Nat) : Next (ResultFrame (2, physV s.cur.k.rv d) fl s) (slotDone (.ok (s.putV d v lat))) :=
  (delivers_putV hx d v lat).slotDone hx

theorem delivers_divide (d : SReg) (v w : Word64) : Delivers (0, physS s.cur.k.rs d) fl s (.ok ((s.putS d v 24).putDivz w)) := by
  unfold State.putDivz
  split
  · exact (delivers_putS hx d v 24).putStat hx _
  · exact delivers_putS hx d v 24

theorem frame_setstep (d : AReg) (v : Word64) : Next (ResultFrame (9, d.toNat) fl s) (slotDone (.ok (s.emit (.stride d.toNat v) 1))) :=
  (delivers_emit hx (.inl rfl) 1).slotDone hx

theorem frame_itset (n : BitVec 3) (x : Iter) : Next (ResultFrame (5, n.toNat) fl s) (slotDone (.ok (s.emit (.iter n.toNat x) 1))) :=
  (delivers_emit hx (.inl rfl) 1).slotDone hx

theorem frame_intLanes (d a b : VRegNo) (m : MReg) (sz : BitVec 2) {f : Nat → Nat → Nat → Nat × BitVec 6} (hf : (∀ w x y, (f w x y).2 = 0) ∨ fl = true) :
    Next (ResultFrame (2, physV s.cur.k.rv d) fl s) (intLanes s d a b m sz f) :=
  (delivers_vUnlessPoison hx d 2 _ (delivers_bind (fun _ => intSources_stops) fun _ =>
    delivers_putLanes hx d _ _ _ 2 (by exact hf.imp_left fun h _ => h _ _ _))).slotDone hx

theorem frame_shiftLanes (d a b : VRegNo) (m : MReg) (sz : BitVec 2) (f : Nat → Nat → Nat → Nat) :
    Next (ResultFrame (2, physV s.cur.k.rv d) fl s) (shiftLanes s d a b m sz f) :=
  (delivers_vUnlessPoison hx d 2 _ (delivers_bind (fun _ => intSources_stops) fun _ =>
    delivers_putLanes hx d _ _ _ 2 (.inl fun _ => rfl))).slotDone hx

theorem frame_bitLanes (d a b : VRegNo) (m : MReg) (sz : BitVec 2) (f : Nat → Nat → Nat) :
    Next (ResultFrame (2, physV s.cur.k.rv d) fl s) (bitLanes s d a b m sz f) :=
  (delivers_vUnlessPoison hx d 2 _ (delivers_putLanes hx d _ _ _ 2 (.inl fun _ => rfl))).slotDone hx

theorem frame_floatLanes (d : VRegNo) (m : MReg) (f : BitVec 2) (lat : Nat) (src : List VVal) (op : Nat → Nat × BitVec 6) :
    Next (ResultFrame (2, physV s.cur.k.rv d) true s) (floatLanes s d m f lat src op) :=
  (delivers_vUnlessPoison hx d lat src (delivers_bind (fun _ => needFloat_stops) fun _ => delivers_putLanes hx d _ _ _ lat (.inr rfl))).slotDone hx

theorem frame_signLanes (d a b : VRegNo) (m : MReg) (f : BitVec 2) (op : Bool → Bool → Bool) :
    Next (ResultFrame (2, physV s.cur.k.rv d) fl s) (signLanes s d a b m f op) :=
  (delivers_vUnlessPoison hx d 2 _ (delivers_bind (fun _ => needFloat_stops) fun _ =>
    delivers_putLanes hx d _ _ _ 2 (.inl fun _ => rfl))).slotDone hx

theorem frame_vfclass (d a : VRegNo) (m : MReg) (fmt : BitVec 2) : Next (ResultFrame (2, physV s.cur.k.rv d) fl s) (execVfclass d a m fmt s) :=
  (delivers_vUnlessPoison hx d 2 _ (delivers_bind (fun _ => needFloat_stops) fun _ =>
    delivers_putLanes hx d _ _ _ 2 (.inl fun _ => rfl))).slotDone hx

theorem frame_vmov (d a : VRegNo) (m : MReg) (sz : BitVec 2) : Next (ResultFrame (2, physV s.cur.k.rv d) fl s) (execVmov d a m sz s) :=
  (delivers_vUnlessPoison hx d 2 _ (delivers_putLanes hx d _ _ _ 2 (.inl fun _ => rfl))).slotDone hx

theorem frame_vperm (d a b : VRegNo) (m : MReg) (sz : BitVec 2) : Next (ResultFrame (2, physV s.cur.k.rv d) fl s) (execVperm d a b m sz s) :=
  (delivers_vUnlessPoison hx d 3 _ (delivers_putLanes hx d _ _ _ 3 (.inl fun _ => rfl))).slotDone hx

theorem frame_vcmp (d : MReg) (a b : VRegNo) (m : MReg) (sz : BitVec 2) (cc : BitVec 3) :
    Next (ResultFrame (4, d.toNat) fl s) (execVcmp d a b m sz cc s) :=
  (delivers_mUnlessPoison hx d 2 _ (delivers_bind (fun _ => intSources_stops) fun _ => delivers_putM hx d _ 2)).slotDone hx

theorem frame_vfcmp (d : MReg) (a b : VRegNo) (m : MReg) (cc : BitVec 3) (sg : Bool) (fmt : BitVec 2) :
    Next (ResultFrame (4, d.toNat) true s) (execVfcmp d a b m cc sg fmt s) :=
  (delivers_mUnlessPoison hx d 2 _ (delivers_bind (fun _ => needFloat_stops) fun _ =>
    (delivers_putM hx d _ 2).putFlags hx (.inr rfl) 2)).slotDone hx

theorem frame_mlogFromv (d : MReg) (a : VRegNo) : Next (ResultFrame (4, d.toNat) fl s) (execMlogFromv d a s) :=
  (delivers_mUnlessPoison hx d 2 _ (delivers_putM hx d _ 2)).slotDone hx

theorem frame_vsel (d a b : VRegNo) (m : MReg) (sz : BitVec 2) : Next (ResultFrame (2, physV s.cur.k.rv d) fl s) (execVsel d a b m sz s) :=
  (delivers_vUnlessPoison hx d 2 _ (delivers_unless (delivers_putV hx d _ 2))).slotDone hx

theorem frame_newDesc (d : VRegNo) (data : Block) (desc : Desc) : Next (ResultFrame (2, physV s.cur.k.rv d) fl s) (newDesc s d data desc) :=
  (delivers_unless (delivers_putV hx d _ 2)).slotDone hx

theorem frame_splitSum (d a : VRegNo) (m : MReg) (f : List Num → List Int) : Next (ResultFrame (2, physV s.cur.k.rv d) fl s) (splitSum s d a m f) :=
  (delivers_vUnlessPoison hx d 4 _ (delivers_unless (delivers_putV hx d _ 4))).slotDone hx

theorem frame_vins (d : VRegNo) (a : SReg) (lane : BitVec 6) (sz : BitVec 2) :
    Next (ResultFrame (2, physV s.cur.k.rv d) fl s) (execVins d a lane sz s) :=
  (delivers_vUnlessPoison hx d 2 _ (delivers_putV hx d _ 2)).slotDone hx

theorem frame_vext (d : SReg) (a : VRegNo) (lane : BitVec 6) (sz : BitVec 2) (sx : Bool) :
    Next (ResultFrame (0, physS s.cur.k.rs d) fl s) (execVext d a lane sz sx s) := by
  refine Delivers.slotDone hx (x := .ok (if isPoison (s.rdV a).desc then _ else _)) ?_
  split
  · exact (delivers_putS hx d 0 2).putStat hx _
  · exact delivers_putS hx d _ 2

theorem frame_packLanes (d a b : VRegNo) (w : Nat) (sat : Bool) : Next (ResultFrame (2, physV s.cur.k.rv d) sat s) (packLanes s d a b w sat) := by
  refine (delivers_vUnlessPoison hx d 2 _ (delivers_bind (fun _ => intSources_stops) fun _ =>
    (delivers_putV hx d _ 2).putFlags hx ?_ 2)).slotDone hx
  cases sat with
  | true => exact .inr rfl
  | false =>
    refine .inl (foldl_or_of_zero fun g hg => ?_)
    simp only [laneResult, List.map_map, List.mem_map, Function.comp_apply, Bool.false_eq_true, if_false] at hg
    obtain ⟨_, -, hg⟩ := hg
    exact hg.symm

theorem frame_unpackLanes (d a : VRegNo) (w : Nat) (part u : Bool) : Next (ResultFrame (2, physV s.cur.k.rv d) fl s) (unpackLanes s d a w part u) :=
  (delivers_vUnlessPoison hx d 2 _ (delivers_bind (fun _ => needFormat_stops) fun _ => delivers_putV hx d _ 2)).slotDone hx

theorem frame_vpackT2 (d a b : VRegNo) (half : Bool) : Next (ResultFrame (2, physV s.cur.k.rv d) true s) (execVpackT2 d a b half s) :=
  (delivers_vUnlessPoison hx d 2 _ (delivers_bind (fun _ => intSources_stops) fun _ =>
    (delivers_putV hx d _ 2).putFlags hx (.inr rfl) 2)).slotDone hx

theorem frame_vunpackT2 (d a : VRegNo) (part : BitVec 2) : Next (ResultFrame (2, physV s.cur.k.rv d) fl s) (execVunpackT2 d a part s) :=
  (delivers_vUnlessPoison hx d 2 _ (delivers_bind (fun _ => needFormat_stops) fun _ =>
    (delivers_putV hx d _ 2).putTernbad hx _ 1)).slotDone hx

theorem frame_reduce (op : RedOp) (d a : VRegNo) (m : MReg) (rm : BitVec 3) (t : Bool) (fmt : BitVec 2) :
    Next (ResultFrame (2, physV s.cur.k.rv d) true s) (reduce op d a m rm t fmt s) :=
  (delivers_vUnlessPoison hx d 8 _ (delivers_bind (fun _ => needFloat_stops) fun _ =>
    (delivers_putV hx d _ 8).putFlags hx (.inr rfl) 8)).slotDone hx

theorem frame_vscaleRel (d a b : VRegNo) : Next (ResultFrame (2, physV s.cur.k.rv d) fl s) (execVscaleRel d a b s) :=
  (delivers_vUnlessPoison hx d 2 _ (delivers_check (delivers_check (delivers_putV hx d _ 2)))).slotDone hx

theorem frame_vscaleFit (d a : VRegNo) (m : MReg) (fmt : BitVec 5) : Next (ResultFrame (2, physV s.cur.k.rv d) true s) (execVscaleFit d a m fmt s) :=
  (delivers_vUnlessPoison hx d 2 _ (delivers_check ((delivers_putV hx d _ 2).putFlags hx (.inr rfl) 2))).slotDone hx

theorem frame_vfxsJoin (d a b : VRegNo) (rm : BitVec 3) (cl : Bool) :
    Next (ResultFrame (2, physV s.cur.k.rv d) true s) (execVfxsJoin d a b rm cl s) :=
  (delivers_vUnlessPoison hx d 6 _ (delivers_check (delivers_check ((delivers_putV hx d _ 6).putFlags hx (.inr rfl) 6)))).slotDone hx

theorem frame_vfcvt (d a : VRegNo) (cl : Bool) (src : BitVec 4) (rm part : BitVec 3) (dst : BitVec 5) :
    Next (ResultFrame (2, physV s.cur.k.rv d) true s) (execVfcvt d a cl src rm part dst s) := by
  refine (delivers_vUnlessPoison hx d 4 _ ?_).slotDone hx
  dsimp only
  by_cases h : (fmtOfCode src.toNat).isSome = true
  · rw [if_pos h]
    exact delivers_bind (fun _ => needFloat_stops) fun _ => (delivers_putV hx d _ 4).putFlags hx (.inr rfl) 4
  · rw [if_neg h]
    exact delivers_bind (fun _ => needFormat_stops) fun _ => (delivers_putV hx d _ 4).putFlags hx (.inr rfl) 4

end

theorem laneResult_flags (sat : Bool) : (∀ u w x, (laneResult sat u w x).2 = 0) ∨ sat = true := by
  cases sat
  · exact .inl fun _ _ _ => rfl
  · exact .inr rfl

theorem product_flags (sat : Bool) : (∀ (u hi : Bool) w p, (if hi then (wrapTo w (p / 2 ^ w), 0) else laneResult sat u w p).2 = 0) ∨ sat = true :=
  (laneResult_flags sat).imp_left fun h u hi w p => by
    split
    · rfl
    · exact h u w p

theorem frame_vadd {s : State} (hx : s.iss.x < 4) (d a b : VRegNo) (m : MReg) (sz : BitVec 2) (sat u : Bool) :
    Next (ResultFrame (2, physV s.cur.k.rv d) sat s) (execVadd d a b m sz sat u s) :=
  frame_intLanes hx d a b m sz ((laneResult_flags sat).imp_left fun h _ _ _ => h _ _ _)

theorem frame_vsub {s : State} (hx : s.iss.x < 4) (d a b : VRegNo) (m : MReg) (sz : BitVec 2) (sat u : Bool) :
    Next (ResultFrame (2, physV s.cur.k.rv d) sat s) (execVsub d a b m sz sat u s) :=
  frame_intLanes hx d a b m sz ((laneResult_flags sat).imp_left fun h _ _ _ => h _ _ _)

theorem frame_vmul {s : State} (hx : s.iss.x < 4) (d a b : VRegNo) (m : MReg) (sz : BitVec 2) (sat u hi : Bool) :
    Next (ResultFrame (2, physV s.cur.k.rv d) sat s) (execVmul d a b m sz sat u hi s) :=
  frame_intLanes hx d a b m sz ((product_flags sat).imp_left fun h _ _ _ => h _ _ _ _)

/-- An instruction with one register result leaves the frame of its result. -/
theorem exec_frame {i : Instr} {s : State} {r : Nat × Nat} (hr : resultOf s.cur i = some r) (hx : s.iss.x < 4) :
    Next (ResultFrame r (raisesFlags i) s) (exec i s) := by
  cases i
  case add | sub | and | or | xor | andn | shl | shr | sar | rotl | min | max | mul => cases hr; exact frame_scalarResult hx _ _ _
  case addi | andi | ori | xori | shli | shri | sari | movi | clz | ctz | popc | sext | zext | bfx | bfi | sel =>
    cases hr; exact frame_scalarResult hx _ _ _
  case wfldGet | wfldSet | wfldLvl | krd | movaToS => cases hr; exact frame_scalarResult hx _ _ _
  case div | rem => cases hr; exact (delivers_divide hx _ _ _).slotDone hx
  case vext => cases hr; exact frame_vext hx _ _ _ _ _
  case cmp | cmpi | pand | por | pxor | pandn => cases hr; exact frame_predResult hx _ _
  case adda | addai | mova => cases hr; exact frame_putA hx _ _
  case setstep => cases hr; exact frame_setstep hx _ _
  case itset => cases hr; exact frame_itset hx _ _
  case vadd => cases hr; exact frame_vadd hx _ _ _ _ _ _ _
  case vsub => cases hr; exact frame_vsub hx _ _ _ _ _ _ _
  case vmul => cases hr; exact frame_vmul hx _ _ _ _ _ _ _ _
  case vmin d a b m sz u => cases hr; exact (frame_intLanes hx _ _ _ _ _ (.inl fun _ _ _ => rfl) : Next _ (execVmin d a b m sz u s))
  case vmax d a b m sz u => cases hr; exact (frame_intLanes hx _ _ _ _ _ (.inl fun _ _ _ => rfl) : Next _ (execVmax d a b m sz u s))
  case vshl d a b m sz => cases hr; exact (frame_shiftLanes hx _ _ _ _ _ _ : Next _ (execVshl d a b m sz s))
  case vshr d a b m sz => cases hr; exact (frame_shiftLanes hx _ _ _ _ _ _ : Next _ (execVshr d a b m sz s))
  case vsar d a b m sz => cases hr; exact (frame_shiftLanes hx _ _ _ _ _ _ : Next _ (execVsar d a b m sz s))
  case vand d a b m sz => cases hr; exact (frame_bitLanes hx _ _ _ _ _ _ : Next _ (execVand d a b m sz s))
  case vor d a b m sz => cases hr; exact (frame_bitLanes hx _ _ _ _ _ _ : Next _ (execVor d a b m sz s))
  case vxor d a b m sz => cases hr; exact (frame_bitLanes hx _ _ _ _ _ _ : Next _ (execVxor d a b m sz s))
  case vsel => cases hr; exact frame_vsel hx _ _ _ _ _
  case vmov => cases hr; exact frame_vmov hx _ _ _ _
  case vperm => cases hr; exact frame_vperm hx _ _ _ _ _
  case vcmp => cases hr; exact frame_vcmp hx _ _ _ _ _ _
  case vfadd d a b m rm cl fmt => cases hr; exact (frame_floatLanes hx _ _ _ _ _ _ : Next _ (execVfadd d a b m rm cl fmt s))
  case vfsub d a b m rm cl fmt => cases hr; exact (frame_floatLanes hx _ _ _ _ _ _ : Next _ (execVfsub d a b m rm cl fmt s))
  case vfmul d a b m rm cl fmt => cases hr; exact (frame_floatLanes hx _ _ _ _ _ _ : Next _ (execVfmul d a b m rm cl fmt s))
  case vfma d a b m rm cl fmt => cases hr; exact (frame_floatLanes hx _ _ _ _ _ _ : Next _ (execVfma d a b m rm cl fmt s))
  case vfms d a b m rm cl fmt => cases hr; exact (frame_floatLanes hx _ _ _ _ _ _ : Next _ (execVfms d a b m rm cl fmt s))
  case vfnma d a b m rm cl fmt => cases hr; exact (frame_floatLanes hx _ _ _ _ _ _ : Next _ (execVfnma d a b m rm cl fmt s))
  case vfdiv d a b m rm cl fmt => cases hr; exact (frame_floatLanes hx _ _ _ _ _ _ : Next _ (execVfdiv d a b m rm cl fmt s))
  case vfsqrt d a m rm cl fmt => cases hr; exact (frame_floatLanes hx _ _ _ _ _ _ : Next _ (execVfsqrt d a m rm cl fmt s))
  case vfmin d a b m fmt => cases hr; exact (frame_floatLanes hx _ _ _ _ _ _ : Next _ (execVfmin d a b m fmt s))
  case vfmax d a b m fmt => cases hr; exact (frame_floatLanes hx _ _ _ _ _ _ : Next _ (execVfmax d a b m fmt s))
  case vfrint d a m rm fmt => cases hr; exact (frame_floatLanes hx _ _ _ _ _ _ : Next _ (execVfrint d a m rm fmt s))
  case vfexp d a m cl fmt => cases hr; exact (frame_floatLanes hx _ _ _ _ _ _ : Next _ (execVfexp d a m cl fmt s))
  case vfexp2 d a m cl fmt => cases hr; exact (frame_floatLanes hx _ _ _ _ _ _ : Next _ (execVfexp2 d a m cl fmt s))
  case vflog d a m cl fmt => cases hr; exact (frame_floatLanes hx _ _ _ _ _ _ : Next _ (execVflog d a m cl fmt s))
  case vflog2 d a m cl fmt => cases hr; exact (frame_floatLanes hx _ _ _ _ _ _ : Next _ (execVflog2 d a m cl fmt s))
  case vfsin d a m cl fmt => cases hr; exact (frame_floatLanes hx _ _ _ _ _ _ : Next _ (execVfsin d a m cl fmt s))
  case vfcos d a m cl fmt => cases hr; exact (frame_floatLanes hx _ _ _ _ _ _ : Next _ (execVfcos d a m cl fmt s))
  case vftanh d a m cl fmt => cases hr; exact (frame_floatLanes hx _ _ _ _ _ _ : Next _ (execVftanh d a m cl fmt s))
  case vfrcp d a m cl fmt => cases hr; exact (frame_floatLanes hx _ _ _ _ _ _ : Next _ (execVfrcp d a m cl fmt s))
  case vfrsq d a m cl fmt => cases hr; exact (frame_floatLanes hx _ _ _ _ _ _ : Next _ (execVfrsq d a m cl fmt s))
  case vfsgnCopy d a b m fmt => cases hr; exact (frame_signLanes hx _ _ _ _ _ _ : Next _ (execVfsgnCopy d a b m fmt s))
  case vfsgnNeg d a b m fmt => cases hr; exact (frame_signLanes hx _ _ _ _ _ _ : Next _ (execVfsgnNeg d a b m fmt s))
  case vfsgnXor d a b m fmt => cases hr; exact (frame_signLanes hx _ _ _ _ _ _ : Next _ (execVfsgnXor d a b m fmt s))
  case vfcmp => cases hr; exact frame_vfcmp hx _ _ _ _ _ _ _
  case vfclass => cases hr; exact frame_vfclass hx _ _ _ _
  case vfcvt => cases hr; exact frame_vfcvt hx _ _ _ _ _ _ _
  case vbcast d a sz fmt => cases hr; exact (frame_putV hx _ _ _ : Next _ (execVbcast d a sz fmt s))
  case vdescGet d a => cases hr; exact (frame_putV hx _ _ _ : Next _ (execVdescGet d a s))
  case mlogTov d a => cases hr; exact (frame_putV hx _ _ _ : Next _ (execMlogTov d a s))
  case vins => cases hr; exact frame_vins hx _ _ _ _
  case vredAdd d a m rm t fmt => cases hr; exact (frame_reduce hx _ _ _ _ _ _ _ : Next _ (execVredAdd d a m rm t fmt s))
  case vredMin d a m rm t fmt => cases hr; exact (frame_reduce hx _ _ _ _ _ _ _ : Next _ (execVredMin d a m rm t fmt s))
  case vredMax d a m rm t fmt => cases hr; exact (frame_reduce hx _ _ _ _ _ _ _ : Next _ (execVredMax d a m rm t fmt s))
  case vdescCopy d a b => cases hr; exact (frame_newDesc hx _ _ _ : Next _ (execVdescCopy d a b s))
  case vdescSet d a b => cases hr; exact (frame_newDesc hx _ _ _ : Next _ (execVdescSet d a b s))
  case vscaleRel => cases hr; exact frame_vscaleRel hx _ _ _
  case vscaleFit => cases hr; exact frame_vscaleFit hx _ _ _ _
  case vpackH2b d a b sat => cases hr; exact (frame_packLanes hx _ _ _ _ _ : Next _ (execVpackH2b d a b sat s))
  case vpackW2h d a b sat => cases hr; exact (frame_packLanes hx _ _ _ _ _ : Next _ (execVpackW2h d a b sat s))
  case vpackD2w d a b sat => cases hr; exact (frame_packLanes hx _ _ _ _ _ : Next _ (execVpackD2w d a b sat s))
  case vunpackB2h d a part u => cases hr; exact (frame_unpackLanes hx _ _ _ _ _ : Next _ (execVunpackB2h d a part u s))
  case vunpackH2w d a part u => cases hr; exact (frame_unpackLanes hx _ _ _ _ _ : Next _ (execVunpackH2w d a part u s))
  case vunpackW2d d a part u => cases hr; exact (frame_unpackLanes hx _ _ _ _ _ : Next _ (execVunpackW2d d a part u s))
  case vpackT2 => cases hr; exact frame_vpackT2 hx _ _ _ _
  case vunpackT2 => cases hr; exact frame_vunpackT2 hx _ _ _
  case vfxsSplitLo d a m => cases hr; exact (frame_splitSum hx _ _ _ _ : Next _ (execVfxsSplitLo d a m s))
  case vfxsSplitHi d a m => cases hr; exact (frame_splitSum hx _ _ _ _ : Next _ (execVfxsSplitHi d a m s))
  case vfxsJoin => cases hr; exact frame_vfxsJoin hx _ _ _ _ _
  case mlogAnd d a b => cases hr; exact (frame_maskResult hx _ _ : Next _ (execMlogAnd d a b s))
  case mlogOr d a b => cases hr; exact (frame_maskResult hx _ _ : Next _ (execMlogOr d a b s))
  case mlogXor d a b => cases hr; exact (frame_maskResult hx _ _ : Next _ (execMlogXor d a b s))
  case mlogAndn d a b => cases hr; exact (frame_maskResult hx _ _ : Next _ (execMlogAndn d a b s))
  case mlogNot d a => cases hr; exact (frame_maskResult hx _ _ : Next _ (execMlogNot d a s))
  case mlogIso d a => cases hr; exact (frame_maskResult hx _ _ : Next _ (execMlogIso d a s))
  case mlogFromv => cases hr; exact frame_mlogFromv hx _ _
  all_goals cases hr

/-- Settles O56: an instruction with one result leaves the frame of its destination. -/
theorem registerResultFrame : Obligations.RegisterResultFrame := by
  intro i s t r hr hx h
  obtain ⟨hrest, hcores, hcore⟩ := exec_frame hr hx t h
  obtain ⟨hc, hctxs, ⟨q, hq, ho⟩, hcur⟩ := hcore
  exact ⟨hrest, hcores, hc, hctxs, ⟨q, hq, ho⟩, hcur.rest, hcur.sticky, hcur.lost, hcur.new⟩

end Sys2Proof.Machine
end

