-- ==== Sys2Proof/Proofs/HeldBackStores.lean ====
section
/-! A store left to execute after a DMODE of its own issue: the tape is enabled, and the store still reverses (R281, R288). -/

namespace Sys2Proof.Machine

/-- The page of 64 KiB at 0x200000, at its own physical address: readable, writable and differentiable. -/
def gradPage : TlbEntry := ⟨0x200000, 0x20 * 0x1000 + 0xB1, 0⟩

/-- A context outside reverse mode whose tape is enabled and empty, in its core's scratchpad; a1 names the differentiable page. -/
def taping : Ctx := ({ k := { tapeOn := true, tape := 0x80000001000, tpos := 0x80000001000, tlim := 0x80000002000 } } : Ctx).apply (.a 1 0x200000)

/-- The context in slot A of an issue whose slot X has left reverse mode before it: the issue goes on in that mode (R288). -/
def leftReverse : State :=
  State.setCtx { iss := { active := true, issue := 5, slot := 1, revAs := some true }, clusters := [(0, { tlb := [gradPage] })] } 0 0 taping

/-- The place of the store. -/
def gradLoc : Loc := leftReverse.leafLoc 0x200000 gradPage.entry 0

/-- The location that a check gives. -/
def okLoc : Except State Loc → Option Loc
  | .ok l => some l
  | .error _ => none

theorem eq_ok_of_okLoc {x : Except State Loc} {l : Loc} (h : okLoc x = some l) : x = .ok l := by
  cases x with
  | ok m => exact congrArg _ (Option.some.inj h)
  | error e => cases h

/-- A byte of a next state. -/
def outByte (key : Nat) : Out → Option Byte
  | .next t => some (t.byte key)
  | _ => none

/-- A byte of the state that an operation leaves. -/
def okByte (key : Nat) : Except State State → Option Byte
  | .ok u => some (u.byte key)
  | .error _ => none

/-- The push of the store writes the header of its entry. -/
theorem leftReverse_pushes : okByte 0x80000001007 (pushTape leftReverse 0x200000 (scalarEntry 3 0x200000 0)) = some 0x13 := by decide +kernel

/-- The store finds no entry to reverse, and writes nothing. -/
theorem leftReverse_reverses : outByte 0x80000001007 (exec (.st 1 1 0 3) leftReverse) = some 0 := by decide +kernel

/-- Refutes O59: an ST that executes after the DMODE of its own issue still reverses, as the mode of the context changes from the next issue on; the
statement looks at the context's mode alone, and takes the tape entry as pushed, of which the outcome has no byte. -/
theorem not_storeFrames : ¬ Obligations.StoreFrames := by
  unfold Obligations.StoreFrames
  intro h
  obtain ⟨hstore, -, -⟩ := h
  obtain ⟨t, ht⟩ := nothingStops.1 (.st 1 1 0 3) leftReverse
  cases hu : pushTape leftReverse 0x200000 (scalarEntry 3 0x200000 0) with
  | error e =>
    have hnone : none = some (0x13 : Byte) := (congrArg (okByte 0x80000001007) hu).symm.trans leftReverse_pushes
    cases hnone
  | ok u =>
    obtain ⟨-, -, -, htaped, -⟩ := hstore leftReverse t u 1 0 0 1 0 3 false 0 gradLoc []
    have hva : leftReverse.ea 1 0 8 = 0x200000 := by decide +kernel
    have hentry : scalarEntry 3 (leftReverse.ea 1 0 8).toNat (if isPoison (leftReverse.descAt gradLoc.key) then 0 else
        getBytes leftReverse.mem gradLoc.key 8) = scalarEntry 3 0x200000 0 := by decide +kernel
    have haccess : slotAccess leftReverse reachStore .write (leftReverse.ea 1 0 8) 8 = .ok gradLoc :=
      eq_ok_of_okLoc (by decide +kernel)
    have honly := htaped ht haccess (by decide +kernel) ⟨by decide +kernel, by decide +kernel, by decide +kernel⟩
      (plainOnly_ok _ fun _ => by decide +kernel) (by decide +kernel) ((congrArg₂ (pushTape leftReverse) hva hentry).trans hu)
    have hbyte : t.byte 0x80000001007 = u.byte 0x80000001007 := honly _ fun k hk => by
      obtain rfl := List.mem_singleton.1 hk
      decide +kernel
    have htb : some (t.byte 0x80000001007) = some 0 := (congrArg (outByte 0x80000001007) ht).symm.trans leftReverse_reverses
    have hub : some (u.byte 0x80000001007) = some 0x13 := (congrArg (okByte 0x80000001007) hu).symm.trans leftReverse_pushes
    rw [hbyte, hub] at htb
    exact absurd htb (by decide)

end Sys2Proof.Machine
end
